-- ==== Sys2Proof/Word.lean ====
section
/-!
DEFINITION. The word types of the module and the sparse table the state is built from.
Multi-byte values are little-endian throughout (R5 of spec/00_scope.md).
-/

/- Proofs are elaborated one after another: the package as one text holds too many to elaborate side by side. -/
set_option Elab.async false
namespace Sys2Proof

/-- One byte of device memory. -/
abbrev Byte := BitVec 8

/-- A 16-bit value. -/
abbrev Half := BitVec 16

/-- A 32-bit register or tile lane. -/
abbrev Word := BitVec 32

/-- A 64-bit register or scalar. -/
abbrev DWord := BitVec 64

/-- A sparse array: the entries that differ from the array's default, by rising index. -/
abbrev Tab (α : Type) := List (Nat × α)

end Sys2Proof
end

