-- ==== Sys2Proof/Syntax.lean ====
section
/-!
DEFINITION. The commands of the block: one constructor for every row of spec/opcode_table.json, with the row's operands. A command
is a write of a register, a message or a flit that arrives, an event on a pin or of the world outside, or the end of an operation
that an engine has in hand. Measured values, host data and the outcomes of checks that only the outside decides are operands.
-/
namespace Sys2Proof

/-- One opening of an image block under AES-256-GCM (R428). -/
structure GcmQuery where
  key : BitVec 256
  nonce : List Byte
  aad : List Byte
  cipher : List Byte
  tag : List Byte
deriving DecidableEq, Repr, Inhabited

/-- What the cryptographic functions that an image check calls have answered: SHA-384 of byte strings; the triples of a key's digest, a
message digest and a signature that ECDSA P-384 accepts; and the plaintexts of the blocks whose GCM tag is right. What it does not list
has failed (R428; log entry 167). -/
structure Crypto where
  sha384 : List (List Byte × BitVec 384) := []
  verifies : List (BitVec 384 × BitVec 384 × List Byte) := []
  opens : List (GcmQuery × List Byte) := []
deriving DecidableEq, Repr, Inhabited

/-- What host memory answers to a read (R332, R344, R432). -/
inductive HostReply
  | data (bytes : List Byte)
  | error
  | poisoned
deriving DecidableEq, Repr, Inhabited

/-- A flit that arrives on a port (R292). -/
structure PortFlit where
  port : Fin 16
  bytes : List Byte
deriving DecidableEq, Repr, Inhabited

/-- The commands. -/
inductive Instr
  /-- STANDBY_POWER_APPLIED (R445): The 48 V input reaches 36 V, Nightstand starts within 50 ms and the module enters Standby. -/
  | standbyPowerApplied (sa : Fin 8)
  /-- STANDBY_POWER_LOST (R26): The input falls below 36 V; the module goes to Off and loses retention SRAM, the fence mark and the reset list. -/
  | standbyPowerLost
  /-- INPUT_OVERVOLTAGE (R445): The input exceeds 64 V; the input protection disconnects the module, which goes to Off. -/
  | inputOvervoltage
  /-- POWER_ON_REQUEST (R447): MCTP command 0x01 is refused with a reason, or accepted and the main rails are enabled in order. -/
  | powerOnRequest (recovery : Bool)
  /-- POWER_OFF_REQUEST (R450): MCTP command 0x02 stops fabric transmission, lowers PWR_GOOD, removes the main rails and enters Standby. -/
  | powerOffRequest
  /-- RELEASE_RETIREMENT (R30): MCTP command 0x03 moves a Retired module to Standby and clears the device-level reset count. -/
  | releaseRetirement
  /-- MAIN_RAILS_UP (R448): The main rails reach regulation and PWR_GOOD rises. -/
  | mainRailsUp
  /-- ROOT_PLL_LOCKED (R19): The root PLL locks, device time starts at 0 and the power-on fill starts. -/
  | rootPllLocked
  /-- FILL_COMPLETE (R359): The zero fill of Cupboard and HBM completes, the trim table is invalid and the boot core is released. -/
  | fillComplete
  /-- BOOT_IMAGE_CHECKED (R430): Checking of the selected image ends; on failure the other slot is tried, and Recovery is entered if neither image passes. -/
  | bootImageChecked (crypto : Crypto)
  /-- BOOT_COMPLETE (R429): Microcode is loaded, windows are written and locked, and the module enters Ready or Fenced according to the fence mark. -/
  | bootComplete
  /-- ROOT_PLL_LOSS_OF_LOCK (R21): The root PLL loses lock in a powered state; the module stops the main domain, logs and enters Standby. -/
  | rootPllLossOfLock
  /-- REFCLK_LOST (R452): No REFCLK edge arrives for 1 µs; the loss is flagged, Nightstand moves to its internal oscillator and the root PLL loses lock. -/
  | refclkLost
  /-- REFCLK_RESTORED (R20): REFCLK becomes present and stable, and Nightstand returns to REFCLK ÷ 4 within 100 µs. -/
  | refclkRestored
  /-- PERST_ASSERT (R449): PERST# is asserted with main power on; the PCIe link goes down, configuration space is reset and contexts 1 to 15 are reset. -/
  | perstAssert
  /-- PERST_DEASSERT (R449): PERST# is deasserted and the PCIe link trains, answering configuration requests within 100 ms. -/
  | perstDeassert
  /-- PCIE_LINK_LOSS (R449): The PCIe link or PCIE_REFCLK is lost, with the same effect as an assertion of PERST#. -/
  | pcieLinkLoss (refclkGone : Bool)
  /-- PWR_HOLD_CHANGE (R433): The PWR_HOLD input changes, which sets HOLD_SEEN on assertion and logs the change if PWR_CTRL.LOG_HOLD is set. -/
  | pwrHoldChange (level : Bool)
  /-- MCTP_WARM_RESET (R415): MCTP command 0x04 performs a device warm reset. -/
  | mctpWarmReset
  /-- MCTP_COLD_RESET (R415): MCTP command 0x05 performs a device cold reset. -/
  | mctpColdReset
  /-- SET_OWNER_LOCK (R438): MCTP command 0x06 sets the owner lock in the configuration area. -/
  | setOwnerLock
  /-- CLEAR_OWNER_LOCK (R438): MCTP command 0x07 clears the owner lock. -/
  | clearOwnerLock
  /-- WRITE_PROVISIONING_RECORD (R431): MCTP command 0x08 writes the provisioning record in Standby, Retired or Recovery while the owner lock is clear. -/
  | writeProvisioningRecord (record : List Byte)
  /-- FWU_OWNER_SET (R438): A write of FWU_OWNER.SET sets the owner lock. -/
  | fwuOwnerSet
  /-- PLDM_GET_SENSOR_READING (R406): A PLDM request returns a monitor channel value, the module state code or the throttle level. -/
  | pldmGetSensorReading (sensor : Fin 65536)
  /-- MONITOR_CONVERSION (R397): A monitor conversion ends; its result entry is written, the filter is updated and the limits and rules are evaluated. -/
  | monitorConversion (code : Fin 4096) (vref : Fin 2097152)
  /-- NST_ADC_START (R396): A write of NST_ADC_SEL.START inserts one conversion of the selected channel. -/
  | nstAdcStart
  /-- POWER_MS_BOUNDARY (R399): At each whole millisecond of NST_TIME, the power conditions over whole milliseconds are evaluated. -/
  | powerMsBoundary
  /-- THROTTLE_SOURCE_TIMER (R399): A 1 ms lowering or 10 ms raising interval of the thermal or power source expires and moves its level by 1. -/
  | throttleSourceTimer (thermal raise : Bool)
  /-- NST_RULE_WRITE (R404): A write to a rule register is refused if invalid, and otherwise makes the rule inactive, releases its cap and restarts its dwell. -/
  | nstRuleWrite (rule : Fin 32) (value : DWord)
  /-- NST_THROTTLE_CAP_WRITE (R400): A write of the software throttle cap, refused outside 4 to 16, enters the least-level computation. -/
  | nstThrottleCapWrite (cap : Fin 32)
  /-- HUTCH_HEARTBEAT (R411): Nightstand receives a Hutch heartbeat, which restarts the miss count or arms the watchdog after a Hutch reset. -/
  | hutchHeartbeat
  /-- HUTCH_HEARTBEAT_MISS (R411): A 10 ms period passes without a heartbeat, and the third consecutive miss resets the Hutch domain. -/
  | hutchHeartbeatMiss
  /-- HUTCH_RESTORE_TIMEOUT (R411): No heartbeat arrives within 100 ms of a Hutch reset, which leads to a warm reset with a dump or to Booting, according to AUTO_WARM. -/
  | hutchRestoreTimeout
  /-- DEVICE_WARM_RESET (R415): A write of RCV_RESET.WARM with the key performs a device warm reset, optionally with a dump. -/
  | deviceWarmReset (key : Fin 65536) (dump : Bool)
  /-- DEVICE_COLD_RESET (R415): A write of RCV_RESET.COLD with the key performs a device cold reset. -/
  | deviceColdReset (key : Fin 65536)
  /-- DUMP_CLEAR (R422): A write of RCV_DUMP_CTRL.CLEAR sets RCV_DUMP_INFO.VALID to 0. -/
  | dumpClear
  /-- CONTEXT_STEP_WATCHDOG (R413): The context step watchdog fires and completes waiting descriptors, or flushes the open step, with WATCHDOG. -/
  | contextStepWatchdog (ctx : Fin 16) (ring : Fin 8)
  /-- CONTEXT_RESET (R414): A write of HIF_CTX_CTRL.RESET drops, stops and clears the context's work and registers within 2 ms. -/
  | contextReset (fn ctx : Fin 16)
  /-- HIF_RING_TAIL_WRITE (R332): A doorbell write posts descriptors, or puts the ring into Error if the TAIL value is invalid. -/
  | hifRingTailWrite (fn ctx : Fin 16) (ring : Fin 8) (tail : Word)
  /-- HIF_RING_CTRL_WRITE (R331): A write of the ring control enables the ring and zeroes HEAD and TAIL, disables it when HEAD equals TAIL, or sets its size and vector. -/
  | hifRingCtrlWrite (fn ctx : Fin 16) (ring : Fin 8) (value : Word)
  /-- HIF_HIST_CTRL_WRITE (R341): A write enables or disables the histogram ring or sets its size. -/
  | hifHistCtrlWrite (fn ctx : Fin 16) (value : Word)
  /-- HIF_HIST_CONSUMED_WRITE (R341): Software advances the histogram ring's consumed count, which frees entries. -/
  | hifHistConsumedWrite (fn ctx : Fin 16) (value : Word)
  /-- HIF_SEM_WRITE (R337): Software writes a semaphore counter, which may satisfy waits. -/
  | hifSemWrite (fn ctx : Fin 16) (sem : Fin 256) (value : Word)
  /-- HIF_APERTURE_WRITE (R323): A write sets the BAR2 aperture base and enable for later requests. -/
  | hifApertureWrite (value : DWord)
  /-- BAR2_READ (R323): A host read through BAR2 returns device memory, or all ones when disabled or unbacked, or poisoned data. -/
  | bar2Read (off : BitVec 32) (len : Fin 4097)
  /-- BAR2_WRITE (R323): A host write through BAR2 stores into device memory or is dropped and counted. -/
  | bar2Write (off : BitVec 32) (bytes : List Byte)
  /-- BAR0_BAD_ACCESS (R324): A misaligned or wrong-width register access is refused, counted and flagged. -/
  | bar0BadAccess (fn : Fin 16) (off : BitVec 26) (write : Bool)
  /-- VF_ENABLE_SET (R320): Setting VF Enable with NumVFs v resets contexts 1 to v and binds them to virtual functions. -/
  | vfEnableSet (v : Fin 16)
  /-- VF_ENABLE_CLEAR (R320): Clearing VF Enable resets the contexts bound to virtual functions and binds them to the physical function. -/
  | vfEnableClear
  /-- FUNCTION_LEVEL_RESET (R320): A function-level reset resets the contexts bound to the function. -/
  | functionLevelReset (fn : Fin 16)
  /-- DESCRIPTOR_FETCH (R338): Hutch receives a descriptor from host memory within the quota and look-ahead limits, or the ring enters Error on a host fault. -/
  | descriptorFetch (ctx : Fin 16) (ring : Fin 8) (reply : HostReply)
  /-- HIF_NOP (R335): The descriptor completes with success once dispatched. -/
  | hifNop (ctx : Fin 16) (ring : Fin 8)
  /-- HIF_COPY (R344): The copy is validated and starts moving bytes between host and device memory. -/
  | hifCopy (ctx : Fin 16) (ring : Fin 8)
  /-- COPY_DONE (R344): The copy finishes, or stops on a host fault, and completes with the bytes transferred. -/
  | copyDone (ctx : Fin 16) (ring : Fin 8) (idx : Word) (got : List Byte) (reply : HostReply)
  /-- W1C_WRITE (R325): A write of 1 to a W1C flag clears it, unless a set in the same cycle keeps it set and counts an event. -/
  | w1cWrite (off : BitVec 26) (value coincide : DWord)
  /-- EVENT_COUNTER_WRITE (R325): A write of 0 to an event counter clears it, and any other value is ignored. -/
  | eventCounterWrite (off : BitVec 26) (value : Word)
  /-- REGISTER_WRITE (R324): A write to a register that has no row of its own updates its writable fields within their permitted values. -/
  | registerWrite (fn : Fin 16) (off : BitVec 26) (wide : Bool) (value : DWord)
  /-- DRW_PRODUCT (R78): A forward product descriptor is validated, bound to a plane and generation, and queued on its Drawer. -/
  | drwProduct (ctx : Fin 16) (ring : Fin 8)
  /-- DRW_READ_ROWS (R57): A row-order level readout descriptor is validated and queued. -/
  | drwReadRows (ctx : Fin 16) (ring : Fin 8)
  /-- DRW_READ_COLS (R58): A transposed level readout descriptor is validated and queued. -/
  | drwReadCols (ctx : Fin 16) (ring : Fin 8)
  /-- DRW_CONVERSION_DONE (R41): A Drawer conversion ends and its codes are trimmed and accumulated, or checked as levels. -/
  | drwConversionDone (d : Fin 16384) (dev : Tab Int)
  /-- DRW_PRODUCT_WATCHDOG (R79): 1 ms passes without a conversion; the descriptor stops with WATCHDOG and the periphery sequencer is reset. -/
  | drwProductWatchdog (d : Fin 16384)
  /-- DRW_MAP_WRITE (R80): A write of a context's Drawer map takes effect at once or is staged until the context's next commit. -/
  | drwMapWrite (ctx : Fin 16) (off : Fin 2048) (bytes : List Byte)
  /-- PLN_TARGET (R91): A target descriptor is validated and queued on its Chest's target unit. -/
  | plnTarget (ctx : Fin 16) (ring : Fin 8)
  /-- TARGET_UNIT_DONE (R92): The target unit finishes reading masters, scales and reference, writes the target image and completes. -/
  | targetUnitDone (c : Fin 256)
  /-- PLN_PROGRAM (R100): A programming descriptor is validated and enters the Chest programming queue, or is held undispatched while the queue is full. -/
  | plnProgram (ctx : Fin 16) (ring : Fin 8)
  /-- PLN_LANE_START (R103): A queued programming descriptor starts on a free lane, checks holds and the target image, and puts the plane in Programming. -/
  | plnLaneStart (c : Fin 256)
  /-- PROGRAM_BINDING_END (R103): The last Drawer descriptor bound to a plane in Programming completes, and writing of the plane may begin. -/
  | programBindingEnd (c : Fin 256) (l : Fin 16)
  /-- PROGRAM_PRE_READ_DONE (R95): A row's pre-read ends the row as unchanged, or starts driver set-up. -/
  | programPreReadDone (c : Fin 256) (l : Fin 16) (dev : Tab Int)
  /-- PROGRAM_PULSE (R95): At its scheduled time, a cycle pulse is applied to every cell outside its verify band. -/
  | programPulse (c : Fin 256) (l : Fin 16) (miss : Tab Int)
  /-- PROGRAM_VERIFY_READ (R96): A verify read after relaxation passes the row, updates the pulse amplitudes, or fails the row after cycle 32. -/
  | programVerifyRead (c : Fin 256) (l : Fin 16) (dev : Tab Int)
  /-- PROGRAM_CLOSING_READ (R96): A closing read with check passes the row and starts the next one, or continues the cycles. -/
  | programClosingRead (c : Fin 256) (l : Fin 16) (dev : Tab Int)
  /-- PROGRAM_ROW_WATCHDOG (R113): A row has been in programming for 10 ms; the plane becomes Failed and the lane sequencer is reset. -/
  | programRowWatchdog (c : Fin 256) (l : Fin 16)
  /-- PLN_IMAGE (R105): A Retained plane is read in full into a level image, and on success its holds are released and it is marked Imaged. -/
  | plnImage (ctx : Fin 16) (ring : Fin 8)
  /-- PLN_REMAP_COL (R114): A logical column is programmed into a spare column and checked, and the remap entry is written only on full success. -/
  | plnRemapCol (ctx : Fin 16) (ring : Fin 8)
  /-- TRS_MATMUL (R175): A Trestle matrix product is validated and queued on its engine. -/
  | trsMatmul (ctx : Fin 16) (ring : Fin 8)
  /-- TRS_TILE_DONE (R170): An output tile attempt ends and is written, or is retried at a lower scale, and the descriptor completes after its last tile. -/
  | trsTileDone (u : Fin 16)
  /-- TRS_WATCHDOG (R176): A Trestle descriptor exceeds its TIMEOUT; it stops with WATCHDOG and the engine is reset. -/
  | trsWatchdog (u : Fin 16)
  /-- DRS_LAUNCH (R205): A Dresser launch is accepted and its program is fetched, or the held copy is reused. -/
  | drsLaunch (ctx : Fin 16) (ring : Fin 8)
  /-- DRS_PROGRAM_FETCHED (R187): The program arrives and is checked whole; it is rejected at its first faulty instruction, or state is initialised and execution starts. -/
  | drsProgramFetched (u : Fin 64)
  /-- DRS_LOAD_RETURN (R204): Data of an outstanding Dresser load arrives and is written to its destination register. -/
  | drsLoadReturn (u : Fin 64)
  /-- DRS_TIME_WATCHDOG (R209): A launch exceeds its TIMEOUT; it stops with WATCHDOG reason 1 and the unit is reset. -/
  | drsTimeWatchdog (u : Fin 64)
  /-- DRS_INSTR_LIMIT (R209): The next instruction would exceed INSTR_LIMIT; the launch stops with WATCHDOG reason 2 and the unit is not reset. -/
  | drsInstrLimit (u : Fin 64)
  /-- NOP (R187): No operation. -/
  | drsNop (u : Fin 64)
  /-- END (R211): Ends the program; the histogram records and then the completion are written. -/
  | drsEnd (u : Fin 64)
  /-- SETVL (R187): Sets VL to S[A] + IMM, clamped to 0 to 256. -/
  | drsSetvl (u : Fin 64)
  /-- KEY (R203): Sets the stochastic key state from scalar registers. -/
  | drsKey (u : Fin 64)
  /-- BR (R187): Unconditional relative branch. -/
  | drsBr (u : Fin 64)
  /-- BEQ (R187): Branch when the scalars are equal. -/
  | drsBeq (u : Fin 64)
  /-- BNE (R187): Branch when the scalars are not equal. -/
  | drsBne (u : Fin 64)
  /-- BLT (R187): Branch when S[A] < S[B], compared as signed. -/
  | drsBlt (u : Fin 64)
  /-- BGE (R187): Branch when S[A] ≥ S[B], compared as signed. -/
  | drsBge (u : Fin 64)
  /-- SLI (R187): Loads a sign-extended immediate into a scalar. -/
  | drsSli (u : Fin 64)
  /-- SADDI (R187): Adds an immediate to a scalar. -/
  | drsSaddi (u : Fin 64)
  /-- SADD (R187): 64-bit scalar add. -/
  | drsSadd (u : Fin 64)
  /-- SSUB (R187): 64-bit scalar subtract. -/
  | drsSsub (u : Fin 64)
  /-- SMUL (R187): 64-bit scalar multiply. -/
  | drsSmul (u : Fin 64)
  /-- SAND (R187): Scalar bitwise AND. -/
  | drsSand (u : Fin 64)
  /-- SOR (R187): Scalar bitwise OR. -/
  | drsSor (u : Fin 64)
  /-- SXOR (R187): Scalar bitwise XOR. -/
  | drsSxor (u : Fin 64)
  /-- SSHLI (R187): Scalar shift left by an immediate. -/
  | drsSshli (u : Fin 64)
  /-- SSHRI (R187): Scalar logical shift right by an immediate. -/
  | drsSshri (u : Fin 64)
  /-- SORI (R187): Scalar OR with a zero-extended immediate. -/
  | drsSori (u : Fin 64)
  /-- SLD (R196): Loads 8 bytes into a scalar. -/
  | drsSld (u : Fin 64)
  /-- SST (R196): Stores a scalar as 8 bytes. -/
  | drsSst (u : Fin 64)
  /-- SEXT (R187): Extracts one tile lane into a scalar. -/
  | drsSext (u : Fin 64)
  /-- TBC (R182): Broadcasts a scalar to the active lanes. -/
  | drsTbc (u : Fin 64)
  /-- TMOV (R182): Copies the active lanes. -/
  | drsTmov (u : Fin 64)
  /-- TIOTA (R182): Writes each active lane's index. -/
  | drsTiota (u : Fin 64)
  /-- TLD (R192): Loads tile lanes without conversion. -/
  | drsTld (u : Fin 64)
  /-- TLDC (R192): Loads one element per lane, converted exactly to FP32. -/
  | drsTldc (u : Fin 64)
  /-- TLDX (R193): Loads MX blocks, decoded to FP32. -/
  | drsTldx (u : Fin 64)
  /-- TLDS (R195): Loads SGN2 codes as FP32 values. -/
  | drsTlds (u : Fin 64)
  /-- TST (R192): Stores the active lanes without conversion. -/
  | drsTst (u : Fin 64)
  /-- TSTC (R192): Stores FP32 lanes converted to a 16-bit or 8-bit format. -/
  | drsTstc (u : Fin 64)
  /-- TSTX (R193): Stores FP32 lanes as MX blocks. -/
  | drsTstx (u : Fin 64)
  /-- TSTQ (R194): Stores FP32 lanes as two DQ8 blocks. -/
  | drsTstq (u : Fin 64)
  /-- TSTS (R195): Stores FP32 lanes as SGN2 codes. -/
  | drsTsts (u : Fin 64)
  /-- WLD (R192): Loads M40 masters into a register pair. -/
  | drsWld (u : Fin 64)
  /-- WST (R276): Stores M40 masters, which feed the master digest. -/
  | drsWst (u : Fin 64)
  /-- MLD (R196): Loads a mask register. -/
  | drsMld (u : Fin 64)
  /-- MST (R196): Stores a mask register. -/
  | drsMst (u : Fin 64)
  /-- TADD (R188): Lane-wise add. -/
  | drsTadd (u : Fin 64)
  /-- TSUB (R188): Lane-wise subtract. -/
  | drsTsub (u : Fin 64)
  /-- TMUL (R188): Lane-wise multiply. -/
  | drsTmul (u : Fin 64)
  /-- TFMA (R188): Fused multiply-add, rounded once. -/
  | drsTfma (u : Fin 64)
  /-- TMAX (R146): Lane-wise maximum. -/
  | drsTmax (u : Fin 64)
  /-- TMIN (R146): Lane-wise minimum. -/
  | drsTmin (u : Fin 64)
  /-- TABS (R188): Lane-wise absolute value. -/
  | drsTabs (u : Fin 64)
  /-- TNEG (R188): Lane-wise negation. -/
  | drsTneg (u : Fin 64)
  /-- TDIV (R189): Correctly rounded division. -/
  | drsTdiv (u : Fin 64)
  /-- TSQRT (R189): Correctly rounded square root. -/
  | drsTsqrt (u : Fin 64)
  /-- TRCP (R189): Correctly rounded reciprocal. -/
  | drsTrcp (u : Fin 64)
  /-- TRSQ (R189): Correctly rounded reciprocal square root. -/
  | drsTrsq (u : Fin 64)
  /-- TEX2 (R189): Base-2 exponential within 1 ulp. -/
  | drsTex2 (u : Fin 64)
  /-- TLG2 (R189): Base-2 logarithm within 1 ulp. -/
  | drsTlg2 (u : Fin 64)
  /-- TAND (R187): Lane-wise bitwise AND. -/
  | drsTand (u : Fin 64)
  /-- TOR (R187): Lane-wise bitwise OR. -/
  | drsTor (u : Fin 64)
  /-- TXOR (R187): Lane-wise bitwise XOR. -/
  | drsTxor (u : Fin 64)
  /-- TSHL (R187): Lane-wise shift left. -/
  | drsTshl (u : Fin 64)
  /-- TSHR (R187): Lane-wise logical shift right. -/
  | drsTshr (u : Fin 64)
  /-- TSRA (R187): Lane-wise arithmetic shift right. -/
  | drsTsra (u : Fin 64)
  /-- TCVT (R190): Converts between FP32, INT32 and UINT32. -/
  | drsTcvt (u : Fin 64)
  /-- TRND (R190): Rounds FP32 to a narrower format's value and keeps it as FP32. -/
  | drsTrnd (u : Fin 64)
  /-- TUNPK (R183): Unpacks a sub-element to FP32. -/
  | drsTunpk (u : Fin 64)
  /-- TPACK (R190): Rounds FP32 into a packed sub-element. -/
  | drsTpack (u : Fin 64)
  /-- TCMP (R187): Sets mask bits by a comparison condition. -/
  | drsTcmp (u : Fin 64)
  /-- TSEL (R187): Selects lanes from two tiles by a mask. -/
  | drsTsel (u : Fin 64)
  /-- MAND (R187): Mask AND. -/
  | drsMand (u : Fin 64)
  /-- MOR (R187): Mask OR. -/
  | drsMor (u : Fin 64)
  /-- MXOR (R187): Mask XOR. -/
  | drsMxor (u : Fin 64)
  /-- MNOT (R187): Mask complement. -/
  | drsMnot (u : Fin 64)
  /-- MSET (R187): Sets the active mask bits. -/
  | drsMset (u : Fin 64)
  /-- MCNT (R187): Counts the present lanes whose mask bit is set. -/
  | drsMcnt (u : Fin 64)
  /-- TPERM (R198): Permutes lanes by indices. -/
  | drsTperm (u : Fin 64)
  /-- TTRN (R198): Transposes the tile. -/
  | drsTtrn (u : Fin 64)
  /-- TBCL (R198): Broadcasts one lane to the active lanes. -/
  | drsTbcl (u : Fin 64)
  /-- TCOMPRESS (R199): Packs the masked lanes to the front and sets the count. -/
  | drsTcompress (u : Fin 64)
  /-- TEXPAND (R199): Spreads the leading lanes into the masked lanes. -/
  | drsTexpand (u : Fin 64)
  /-- TRSUM (R200): Sums the active lanes exactly, rounded once. -/
  | drsTrsum (u : Fin 64)
  /-- TRMAX (R200): Maximum over the active lanes. -/
  | drsTrmax (u : Fin 64)
  /-- TRMIN (R200): Minimum over the active lanes. -/
  | drsTrmin (u : Fin 64)
  /-- TRAMAX (R200): Arg-maximum over the active lanes. -/
  | drsTramax (u : Fin 64)
  /-- TRAMIN (R200): Arg-minimum over the active lanes. -/
  | drsTramin (u : Fin 64)
  /-- TRRSUM (R201): Row-wise sum. -/
  | drsTrrsum (u : Fin 64)
  /-- TRRMAX (R201): Row-wise maximum. -/
  | drsTrrmax (u : Fin 64)
  /-- TRRMIN (R201): Row-wise minimum. -/
  | drsTrrmin (u : Fin 64)
  /-- WFMA (R191): M40 multiply-add, rounded once to M40. -/
  | drsWfma (u : Fin 64)
  /-- WCVT (R191): Rounds M40 to FP32. -/
  | drsWcvt (u : Fin 64)
  /-- WFROM (R191): Converts FP32 to M40 exactly. -/
  | drsWfrom (u : Fin 64)
  /-- STEP_BEGIN (R220): The step opener is validated and starts the step-boundary commit, waiting for the rule input if needed. -/
  | stepBegin (ctx : Fin 16) (ring : Fin 8)
  /-- RULE_INPUT_PRESENT (R221): The awaited rule input with stamp S and a matching CRC is found, and the commit proceeds. -/
  | ruleInputPresent (ctx : Fin 16)
  /-- RULE_INPUT_STALE_TIMEOUT (R221): STAMP_WAIT passes without the rule input, and STEP_BEGIN completes with RULE_INPUT_STALE. -/
  | ruleInputStaleTimeout (ctx : Fin 16)
  /-- STEP_GATE (R243): The gate passes at once if the table was captured, and otherwise polls for the step-size table. -/
  | stepGate (ctx : Fin 16) (ring : Fin 8)
  /-- STEPSIZE_TABLE_CURRENT (R243): A polled step-size table is found current and is captured, or the gate completes with STEPSIZE_INVALID. -/
  | stepsizeTableCurrent (ctx : Fin 16)
  /-- STEPSIZE_STALE_TIMEOUT (R243): STAMP_WAIT passes without a current table, and the gate completes with STEPSIZE_STALE. -/
  | stepsizeStaleTimeout (ctx : Fin 16)
  /-- STEP_END (R224): After all earlier descriptors complete, the step record is closed and the step ends. -/
  | stepEnd (ctx : Fin 16) (ring : Fin 8)
  /-- RDX_REDUCE (R258): The contribution is read, parts are sent to their owners and the bucket opens. -/
  | rdxReduce (ctx : Fin 16) (ring : Fin 8)
  /-- RDX_GATHER (R270): Sign codes of owned parts are sent to live members, and the unit waits for the codes of the other parts. -/
  | rdxGather (ctx : Fin 16) (ring : Fin 8)
  /-- CONTRIB (R259): A contribution message is staged, and arrivals may decide the accepted set or be dropped as late or duplicate. -/
  | bucketContrib
  /-- BUCKET_DEADLINE (R259): The deadline passes; the set is decided if MIN_ACCEPT contributions have arrived. -/
  | bucketDeadline (ctx : Fin 16) (tag : Fin 1024) (taken : Bool)
  /-- BUCKET_ABORT_TIMEOUT (R264): ABORT_MS passes before the reduce or gather completes; the bucket aborts and ABORT messages are sent. -/
  | bucketAbortTimeout (ctx : Fin 16) (tag : Fin 1024)
  /-- PART_SUM_DONE (R271): A unit finishes summing a part in fixed order; the result is written and sent to the partner. -/
  | partSumDone (u : Fin 4)
  /-- RESULT (R269): The partner's part result is received, written and acknowledged. -/
  | bucketResult
  /-- RESULT_ACK (R269): The partner acknowledges a part result, which may complete RDX_REDUCE. -/
  | bucketResultAck
  /-- CODES (R270): A part's sign codes are received, written or dropped as a duplicate, and may complete RDX_GATHER. -/
  | bucketCodes
  /-- ABORT (R264): An ABORT message from a live member aborts the bucket. -/
  | bucketAbort
  /-- PAIR_HEARTBEAT_SEND (R277): The 100 µs pair heartbeat timer sends a heartbeat to the partner. -/
  | pairHeartbeatSend
  /-- PAIR_HEARTBEAT (R279): A partner heartbeat is received; it joins the pair or ends probing. -/
  | pairHeartbeat
  /-- PAIR_LOSS_TIMEOUT (R279): Heartbeat silence reaches PAIR_LOSS_US, and probing starts over the fallback routes. -/
  | pairLossTimeout
  /-- PROBE (R463): A probe from the partner is answered with PROBE_REPLY. -/
  | pairProbe
  /-- PROBE_REPLY (R463): The first accepted reply moves the pair channel to the probed port, and the pair is degraded or rejoins. -/
  | pairProbeReply
  /-- PROBE_WINDOW_EXPIRY (R279): PROBE_US passes unanswered and the partner is lost. -/
  | probeWindowExpiry
  /-- DEGRADED_PROBE_TIMER (R279): Every 10 ms while degraded, the designated port is probed. -/
  | degradedProbeTimer
  /-- EPOCH_NOTICE (R282): A newer notice, or one of equal epoch from a lower rank, is adopted and the pending parts are resent. -/
  | epochNotice
  /-- FENCED_NOTICE (R284): A fenced notice of equal or newer epoch fences the module; an older one is answered. -/
  | fencedNotice
  /-- DIGEST (R281): A member's master digest is received and compared, which may decide a divergence. -/
  | pairDigest
  /-- DIVERGE_WAIT_EXPIRY (R281): DIVERGE_WAIT_MS passes, and the digests are counted to win, lose or fence. -/
  | divergeWaitExpiry (ctx : Fin 16)
  /-- MIRROR (R278): The partner's mirror block is written and its check values are compared. -/
  | pairMirror
  /-- EPOCH_HOLD_EXPIRY (R283): A newer-epoch message held for EPOCH_HOLD_US without adoption is dropped. -/
  | epochHoldExpiry
  /-- INSTALL (R254): RDX_ADMITn.INSTALL adopts the NEXT_ state without notices when it is valid and newer. -/
  | rdxInstall (ctx : Fin 16)
  /-- ADMIT (R285): RDX_ADMITn.ADMIT re-admits a fenced module, clears the fence mark, sends notices and enters Ready. -/
  | rdxAdmit (ctx : Fin 16)
  /-- RDX_PAIR_WRITE (R279): A write of RDX_PAIR sets the partner and port and, with ENABLE, starts heartbeats and resets a lost pair. -/
  | rdxPairWrite (value : DWord)
  /-- CREDENZA_PROGRESS_WATCHDOG (R412): A unit holds work for 100 ms without summing; it resets and its buckets abort. -/
  | credenzaProgressWatchdog (u : Fin 4)
  /-- DATA_FLIT_RECEIVED (R294): A data flit is checked, accepted in order or answered with NAK, and its ACK, credits and NAK are processed. -/
  | dataFlitReceived (p : Fin 16) (bytes : List Byte)
  /-- REPLAY_TIMEOUT (R294): The oldest unacknowledged flit waits the replay timeout, and a replay starts. -/
  | replayTimeout (p : Fin 16)
  /-- HELLO (R301): A HELLO exchanges the address and measures the round trip, or fails training with ADDR_CONFLICT. -/
  | hello (p : Fin 16) (addr : BitVec 20) (nport : Fin 16) (rtt : Nat)
  /-- LINK_HEARTBEAT_SEND (R302): The 100 µs link heartbeat is sent on each live port. -/
  | linkHeartbeatSend
  /-- LINK_HEARTBEAT (R302): A link heartbeat is received and the silence timer restarts. -/
  | linkHeartbeat (p : PortFlit)
  /-- LINK_HEARTBEAT_TIMEOUT (R302): 150 µs pass without a heartbeat outside Hold, and the link is lost. -/
  | linkHeartbeatTimeout (p : Fin 16)
  /-- LANE_SIGNAL_LOSS (R302): Every receive lane loses signal, and the link is lost within 1 µs. -/
  | laneSignalLoss (p : Fin 16)
  /-- TRAINING_PASS (R300): Training completes and the port becomes Up or Degraded; waiting packets leave. -/
  | trainingPass (p : Fin 16) (tx : BitVec 9) (eyes : List (Byte × Byte))
  /-- TRAINING_TIMEOUT (R300): Training is abandoned after 10 ms and the port goes Down. -/
  | trainingTimeout (p : Fin 16)
  /-- DOWN_RETRAIN_TIMER (R303): 10 ms after entering Down, the port starts training again. -/
  | downRetrainTimer (p : Fin 16)
  /-- LANE_MONITOR_WINDOW (R305): At the end of a 1 ms window, failing lanes are spared or removed. -/
  | laneMonitorWindow (p : Fin 16) (ser : List Word) (uncorr noLock : BitVec 9)
  /-- SPARE_REQUEST (R306): A peer's request for the spare lane is acknowledged and the lane moves at the next flit boundary. -/
  | spareRequest (p : PortFlit) (k : Fin 8)
  /-- EYE_REMEASURE (R307): Every 10 ms, the eyes of the lanes in service and of the spare are measured again and CAL_EYE_MIN is updated. -/
  | eyeRemeasure (samples : List (Fin 16 × Fin 9 × Byte × Byte))
  /-- LASER_FAULT (R309): A serving bay becomes faulty; its group moves onto a healthy spare or goes dark. -/
  | laserFault (b : Fin 5)
  /-- LASER_RELEASE (R310): OPT_LASER_CTRL.RELEASE starts a planned transfer of a group to a spare bay, or is refused. -/
  | laserRelease (b : Fin 8)
  /-- HOLD_REQUEST (R310): A peer's hold request puts the port into Hold. -/
  | holdRequest (p : PortFlit)
  /-- LASER_TRANSFER (R310): The crossbar move completes, the ports return to their prior states and the bay shows SAFE. -/
  | laserTransfer
  /-- HOLD_TIMEOUT (R303): A port in Hold for 100 µs enters Training. -/
  | holdTimeout (p : Fin 16)
  /-- BAY_INSERTED (R455): A laser source is fitted and becomes a spare once it reads healthy. -/
  | bayInserted (b : Fin 5) (healthy : Bool) (temp power : Byte)
  /-- BAY_INTERLOCK_OPEN (R455): A bay's interlock opens, its output is disabled within 1 ms, and a serving unreleased bay counts as faulty. -/
  | bayInterlockOpen (b : Fin 5)
  /-- RETRAIN (R307): OPT_PORT_CTRL.RETRAIN takes the link down and starts training. -/
  | retrain (p : Fin 16)
  /-- PORT_RESET (R315): OPT_PORT_CTRL.RESET clears the port's link state and the port enters Training. -/
  | portReset (p : Fin 16)
  /-- OPT_CTRL_WRITE (R303): A write of OPT_CTRL enables or disables ports and sets the link controls. -/
  | optCtrlWrite (value : Word)
  /-- OPT_SELF_WRITE (R311): A write sets the module's fabric address only while every port is disabled. -/
  | optSelfWrite (value : Word)
  /-- MEM_SCRUB (R362): A scrub descriptor is validated and the scrubber starts reading the range. -/
  | memScrub (ctx : Fin 16) (ring : Fin 8)
  /-- SCRUB_DONE (R364): The scrub finishes, writes its summary record and completes. -/
  | scrubDone (hbm : Bool)
  /-- SCRUB_WATCHDOG (R365): 10 ms pass without progress; the scrub stops with WATCHDOG. -/
  | scrubWatchdog (hbm : Bool) (reached : DWord)
  /-- MEM_RETIRE (R366): A retirement of memory or of a Drawer line is added or cleared. -/
  | memRetire (ctx : Fin 16) (ring : Fin 8)
  /-- CAL_SAVE (R388): The in-force trims of a range are written to a trim image. -/
  | calSave (ctx : Fin 16) (ring : Fin 8)
  /-- CAL_RESTORE (R389): Trims of a range whose remap is unchanged are staged from an image. -/
  | calRestore (ctx : Fin 16) (ring : Fin 8)
  /-- CAL_RUN (R384): A calibration run over a range of Drawers starts. -/
  | calRun (ctx : Fin 16) (ring : Fin 8) (vref : List (Fin 2097152))
  /-- CAL_REQ (R384): A write of CAL_REQ starts whole-die runs. -/
  | calReq (dies : Byte) (vref : List (Fin 2097152))
  /-- CAL_TEMP_CHECK (R387): Every 10 ms, a die beyond DELTA from T_ref starts a whole-die run. -/
  | calTempCheck (vref : List (Fin 2097152))
  /-- DRAWER_CALIBRATION (R381): At a Drawer's first gap, 80 conversions are made, its trim entries are fitted and its set is staged. -/
  | drawerCalibration (d : Fin 16384) (dev : Tab Int) (codes : Tab (List Int))
  /-- CAL_RUN_WATCHDOG (R385): A run reaches 1 s; it ends with WATCHDOG and Drawers not reached keep their trims. -/
  | calRunWatchdog (run : Fin 64)
  /-- STAGE (R432): FWU command 1 starts staging an image into the unselected slot. -/
  | fwuStage
  /-- STAGING_DONE (R432): Every block is written and staging ends in Staged, or in Failed on a check or host fault. -/
  | stagingDone (reply : HostReply)
  /-- VERIFY (R428): FWU command 2 starts the signature and decrypt checks. -/
  | fwuVerify
  /-- VERIFY_DONE (R428): Verification ends in Verified or Failed. -/
  | fwuVerifyDone (crypto : Crypto)
  /-- ACTIVATE (R434): FWU command 3 is refused, or fetch stops and the drain toward a service pause begins; in Recovery it switches the slot and performs a cold reset. -/
  | fwuActivate
  /-- ACTIVATE_DRAIN_DONE (R434): Every dispatched descriptor has completed; the pause begins, the selector switches and the reloads start. -/
  | activateDrainDone
  /-- ACTIVATE_RELOAD_DONE (R434): The control cores and changed microcode are reloaded, fetch resumes and port reloads begin. -/
  | activateReloadDone
  /-- ACTIVATE_WATCHDOG (R436): The reloads do not complete within 1 s and a device cold reset is performed. -/
  | activateWatchdog
  /-- FWU_ABORT (R432): FWU command 4 stops staging or verification within 1 ms and returns to Idle. -/
  | fwuAbort
  /-- REQUEST_UPDATE (R438): The PLDM RequestUpdate command starts an update over MCTP. -/
  | requestUpdate
  /-- PASS_COMPONENT_TABLE (R438): The PLDM PassComponentTable command passes the single image component. -/
  | passComponentTable
  /-- UPDATE_COMPONENT (R438): The PLDM UpdateComponent command starts staging, as STAGE does. -/
  | updateComponent
  /-- FIRMWARE_DATA (R438): A response to RequestFirmwareData delivers 1,024 image bytes for staging. -/
  | firmwareData (part : List Byte)
  /-- ACTIVATE_FIRMWARE (R438): The PLDM ActivateFirmware command acts as ACTIVATE. -/
  | activateFirmware
  /-- GET_STATUS (R438): The PLDM GetStatus command returns the update state. -/
  | getStatus
  /-- CANCEL_UPDATE (R438): The PLDM CancelUpdate command acts as ABORT. -/
  | cancelUpdate
  /-- PEER_STARTS_TRAINING (R302): The arrival of the peer's training sequence on a live port loses the link, which then retrains. -/
  | peerStartsTraining (p : Fin 16)
  /-- IDLE_FLIT_RECEIVED (R294): An idle flit is received and its ACK, NAK and returned credits free replay buffer space, trigger replay or restore credit. -/
  | idleFlitReceived (p : Fin 16) (bytes : List Byte)
  /-- SPARE_ACKNOWLEDGED (R306): The requesting receiver gets the acknowledgement of its spare request, and both ends move the lane onto wavelength 8 at the next flit boundary. -/
  | spareAcknowledged (p : PortFlit)
  /-- LIGHT_RETURNS (R309): The crossbar move of a faulty bay's group onto a spare completes, light returns within 1 ms and OPT_LASER_MAP shows the new assignment. -/
  | lightReturns (g : Fin 4)
deriving DecidableEq, Repr

end Sys2Proof
end

