-- ==== Sys2Proof/Decode.lean ====
section
/-!
DEFINITION. The commands that a table word spells. spec/opcode_table.json gives no row any bits, since the commands reach the block
as register writes, flits, pins and events and not as words of one format: no word spells a command.
-/
namespace Sys2Proof

/-- The command that the `nbits` bits `w` spell: none, as no row of the table has bits. -/
def decodeTableWord (_nbits _w : Nat) : Option Instr := none

end Sys2Proof
end

