-- ==== Sys2Proof/Machine/Flags.lean ====
section
/-!
DEFINITION. Exact values, the three rounding modes, the result of overflow and the exponent histogram
(R124, R136 to R148, R150 to R152 of spec/04_number_formats.md): every event flag of the numeric engines is computed here.
-/
namespace Sys2Proof

/-! ## Exact values -/

/-- An exact value: NaN, a signed infinity, or (−1)^neg × num / den. A zero keeps its sign. -/
inductive XVal
  | nan
  | inf (neg : Bool)
  | fin (neg : Bool) (num den : Nat)
deriving DecidableEq, Repr, Inhabited

namespace XVal

/-- The value +0. -/
def zero : XVal := .fin false 0 1

/-- The value (−1)^neg × m × 2^e. -/
def dyadic (neg : Bool) (m : Nat) (e : Int) : XVal :=
  if 0 ≤ e then .fin neg (m * 2 ^ e.toNat) 1 else .fin neg m (2 ^ (-e).toNat)

/-- An integer as an exact value. -/
def ofInt (x : Int) : XVal := .fin (decide (x < 0)) x.natAbs 1

/-- An exact rational as a value. -/
def ofRatio (x : Int) (den : Nat) : XVal := .fin (decide (x < 0)) x.natAbs den

/-- Neither NaN nor infinite. -/
def isFinite : XVal → Bool
  | .fin _ _ _ => true
  | _ => false

/-- Either zero. -/
def isZero : XVal → Bool
  | .fin _ n _ => n == 0
  | _ => false

/-- NaN. -/
def isNan : XVal → Bool
  | .nan => true
  | _ => false

/-- The sign, with NaN counted as positive. -/
def sign : XVal → Bool
  | .nan => false
  | .inf s => s
  | .fin s _ _ => s

/-- The sign changed; NaN stays NaN. -/
def negate : XVal → XVal
  | .nan => .nan
  | .inf s => .inf (!s)
  | .fin s n d => .fin (!s) n d

/-- The magnitude; NaN stays NaN. -/
def abs : XVal → XVal
  | .nan => .nan
  | .inf _ => .inf false
  | .fin _ n d => .fin false n d

/-- Signed numerator over a common denominator `c`, a multiple of `d`. -/
def scaledNum (s : Bool) (n d c : Nat) : Int := if s then -((n * (c / d) : Nat) : Int) else ((n * (c / d) : Nat) : Int)

/-- The exact sum. An exact zero of operands of opposite sign is +0; −0 + −0 is −0 (R142). -/
def add : XVal → XVal → XVal
  | .nan, _ => .nan
  | _, .nan => .nan
  | .inf a, .inf b => if a = b then .inf a else .nan
  | .inf a, .fin _ _ _ => .inf a
  | .fin _ _ _, .inf b => .inf b
  | .fin s n d, .fin t m e =>
    let c := d * e / Nat.gcd d e
    let z := scaledNum s n d c + scaledNum t m e c
    if z = 0 then .fin (s && t) 0 1 else .fin (decide (z < 0)) z.natAbs c

/-- The exact product; zero times infinity is NaN. -/
def mul : XVal → XVal → XVal
  | .nan, _ => .nan
  | _, .nan => .nan
  | .inf a, .inf b => .inf (a != b)
  | .inf a, .fin t m _ => if m = 0 then .nan else .inf (a != t)
  | .fin s n _, .inf b => if n = 0 then .nan else .inf (s != b)
  | .fin s n d, .fin t m e => .fin (s != t) (n * m) (d * e)

/-- The exact quotient: x / 0 is an infinity, 0 / 0 and ∞ / ∞ are NaN. -/
def div : XVal → XVal → XVal
  | .nan, _ => .nan
  | _, .nan => .nan
  | .inf _, .inf _ => .nan
  | .inf a, .fin t _ _ => .inf (a != t)
  | .fin s _ _, .inf b => .fin (s != b) 0 1
  | .fin s n d, .fin t m e =>
    if m = 0 then (if n = 0 then .nan else .inf (s != t)) else .fin (s != t) (n * e) (d * m)

/-- Multiply by 2^e. -/
def scale (e : Int) : XVal → XVal
  | .nan => .nan
  | .inf s => .inf s
  | .fin s n d => if 0 ≤ e then .fin s (n * 2 ^ e.toNat) d else .fin s n (d * 2 ^ (-e).toNat)

/-- `a < b` for values of which neither is NaN; the two zeros are equal. -/
def lt : XVal → XVal → Bool
  | .nan, _ => false
  | _, .nan => false
  | .inf a, .inf b => a && !b
  | .inf a, .fin _ _ _ => a
  | .fin _ _ _, .inf b => !b
  | .fin s n d, .fin t m e => decide (scaledNum s n 1 1 * (e : Int) < scaledNum t m 1 1 * (d : Int))

/-- Equality of numbers: NaN equals nothing, +0 equals −0 (R146). -/
def eq (a b : XVal) : Bool := !a.isNan && !b.isNan && !a.lt b && !b.lt a

/-- IEEE 754-2019 maximum: NaN wins, +0 above −0 (R146). -/
def maximum (a b : XVal) : XVal :=
  if a.isNan || b.isNan then .nan
  else if a.lt b then b else if b.lt a then a
  else if a.sign then b else a

/-- IEEE 754-2019 minimum: NaN wins, −0 below +0 (R146). -/
def minimum (a b : XVal) : XVal :=
  if a.isNan || b.isNan then .nan
  else if a.lt b then a else if b.lt a then b
  else if a.sign then a else b

/-- ⌊log2 (num / den)⌋ for a positive ratio. -/
def ilog2 (num den : Nat) : Int :=
  let l : Int := (Nat.log2 num : Int) - (Nat.log2 den : Int)
  if 0 ≤ l then (if den * 2 ^ l.toNat ≤ num then l else l - 1)
  else (if den ≤ num * 2 ^ (-l).toNat then l else l - 1)

/-- The binary exponent of a finite non-zero value. -/
def exponent : XVal → Option Int
  | .fin _ n d => if n = 0 then none else some (ilog2 n d)
  | _ => none

/-- The larger of two magnitudes, NaN and infinity left out (R128, R131). -/
def maxFiniteMag (a b : XVal) : XVal :=
  match a, b with
  | .fin _ _ _, .fin _ _ _ => if a.abs.lt b.abs then b.abs else a.abs
  | .fin _ _ _, _ => a.abs
  | _, .fin _ _ _ => b.abs
  | _, _ => zero

end XVal

/-! ## Rounding -/

/-- A rounding mode with, for the stochastic mode, its generator value (Table 4.8, R138). -/
inductive Rnd
  | nearest
  | towardZero
  | stochastic (r : Nat)
deriving DecidableEq, Repr

/-- The mixing function of R139. -/
def srMix (z0 : DWord) : DWord :=
  let z1 := z0 ^^^ (z0 >>> 33)
  let z2 := z1 * 0xff51afd7ed558ccd#64
  let z3 := z2 ^^^ (z2 >>> 33)
  let z4 := z3 * 0xc4ceb9fe1a85ec53#64
  z4 ^^^ (z4 >>> 33)

/-- The generator value r of a step, a tensor and an element index (R139). -/
def srBits (step tensor index : Nat) : Nat :=
  let key := srMix (BitVec.ofNat 64 step ^^^ (BitVec.ofNat 64 (tensor % 2 ^ 32) * 0x9e3779b97f4a7c15#64))
  let z := srMix (BitVec.ofNat 64 index ^^^ key)
  (srMix (z + 0x9e3779b97f4a7c15#64) >>> 32).toNat

/-- The rounding of a 2-bit mode field at a keyed element (R136, R139). -/
def rndOf (mode step tensor index : Nat) : Rnd :=
  if mode = 1 then .towardZero else if mode = 2 then .stochastic (srBits step tensor index) else .nearest

/-- The ratio num/den rounded to a whole number: the neighbours are ⌊·⌋ and ⌊·⌋ + 1 (R138). -/
def roundRatio (m : Rnd) (num den : Nat) : Nat :=
  let q := num / den
  let r := num % den
  if r = 0 then q
  else match m with
    | .nearest => if den < 2 * r then q + 1 else if 2 * r = den then q + q % 2 else q
    | .towardZero => q
    | .stochastic g => if g < r * 2 ^ 32 / den then q + 1 else q

/-- A scalar floating-point layout of Table 4.2. -/
structure FpFmt where
  /-- Fraction bits. -/
  frac : Nat
  /-- Smallest normal exponent, 1 − bias. -/
  emin : Int
  /-- Magnitude encoding of the largest finite value. -/
  maxEnc : Nat
  /-- Magnitude encoding of infinity, where the format has one. -/
  infEnc : Option Nat
  /-- The canonical quiet NaN (E2M1 has none and is never asked for it). -/
  nanEnc : Nat
  /-- Position of the sign bit. -/
  signBit : Nat
deriving DecidableEq, Repr

def fpFp32 : FpFmt := ⟨23, -126, 0x7F7FFFFF, some 0x7F800000, 0x7FC00000, 31⟩
def fpBf16 : FpFmt := ⟨7, -126, 0x7F7F, some 0x7F80, 0x7FC0, 15⟩
def fpFp16 : FpFmt := ⟨10, -14, 0x7BFF, some 0x7C00, 0x7E00, 15⟩
def fpE4m3 : FpFmt := ⟨3, -6, 0x7E, none, 0x7F, 7⟩
def fpE5m2 : FpFmt := ⟨2, -14, 0x7B, some 0x7C, 0x7E, 7⟩
def fpE2m1 : FpFmt := ⟨1, 0, 0x7, none, 0x7, 3⟩
def fpM40 : FpFmt := ⟨31, -126, 0x7F7FFFFFFF, some 0x7F80000000, 0x7FC0000000, 39⟩

/-- The value of a finite magnitude encoding (R124). -/
def fpMagnitude (f : FpFmt) (neg : Bool) (enc : Nat) : XVal :=
  let e := enc / 2 ^ f.frac
  let m := enc % 2 ^ f.frac
  if e = 0 then .dyadic neg m (f.emin - f.frac)
  else .dyadic neg (2 ^ f.frac + m) (f.emin - f.frac + ((e - 1 : Nat) : Int))

/-- Decode an encoding (R124). -/
def fpDecode (f : FpFmt) (v : Nat) : XVal :=
  let neg := v.testBit f.signBit
  let enc := v % 2 ^ f.signBit
  if enc ≤ f.maxEnc then fpMagnitude f neg enc
  else if f.infEnc = some enc then .inf neg else .nan

/-- The subnormal encodings are the non-zero ones with exponent field 0. -/
def fpSubnormal (f : FpFmt) (v : Nat) : Bool :=
  let enc := v % 2 ^ f.signBit
  decide (enc ≠ 0) && decide (enc < 2 ^ f.frac)

/-- The events of one written element (R143, R145, R151). -/
structure ElemFlags where
  overflow : Bool := false
  clamped : Bool := false
  replaced : Bool := false
deriving DecidableEq, Repr

/-- Either element's events. -/
def ElemFlags.or (a b : ElemFlags) : ElemFlags :=
  ⟨a.overflow || b.overflow, a.clamped || b.clamped, a.replaced || b.replaced⟩

/-- An encoding with the events of writing it. -/
structure Coded where
  bits : Nat
  flags : ElemFlags := {}
deriving DecidableEq, Repr

/-- The magnitude encoding of num/den rounded with unbounded exponent range (R138). -/
def fpRoundMag (f : FpFmt) (m : Rnd) (num den : Nat) : Nat :=
  if num = 0 then 0
  else
    let q := max (XVal.ilog2 num den) f.emin - f.frac
    let n := if 0 ≤ q then roundRatio m num (den * 2 ^ q.toNat) else roundRatio m (num * 2 ^ (-q).toNat) den
    (q - (f.emin - f.frac)).toNat * 2 ^ f.frac + n

/-- An encoding with its sign. -/
def fpSigned (f : FpFmt) (neg : Bool) (enc : Nat) : Nat := (if neg then 2 ^ f.signBit else 0) + enc

/-- The encoding written for a value that overflows (Table 4.9). `sat` is set for FP8 overflow mode 0, which governs E4M3 and E5M2
alone: the formats whose sign is bit 7 (R144). -/
def fpOverflow (f : FpFmt) (m : Rnd) (sat neg : Bool) : Coded :=
  if m = .towardZero || (sat && f.signBit == 7) then ⟨fpSigned f neg f.maxEnc, ⟨true, true, false⟩⟩
  else match f.infEnc with
    | some e => ⟨fpSigned f neg e, ⟨true, false, false⟩⟩
    | none => ⟨f.nanEnc, ⟨true, false, false⟩⟩

/-- Round a value to a scalar format. `sat` matters to the FP8 formats only: overflow mode 0 (R143, R144, Table 4.9). -/
def fpEncode (f : FpFmt) (m : Rnd) (sat : Bool) : XVal → Coded
  | .nan => ⟨f.nanEnc, {}⟩
  | .inf neg => match f.infEnc with
    | some e => ⟨fpSigned f neg e, {}⟩
    | none => if sat then ⟨fpSigned f neg f.maxEnc, ⟨false, false, true⟩⟩ else ⟨f.nanEnc, ⟨false, false, true⟩⟩
  | .fin neg num den =>
    let enc := fpRoundMag f m num den
    if enc ≤ f.maxEnc then ⟨fpSigned f neg enc, {}⟩ else fpOverflow f m sat neg

/-- FP32 by round to nearest even, the rounding of every internal step (R137). -/
def fp32Rne (x : XVal) : Nat := (fpEncode fpFp32 .nearest false x).bits

/-- Round a value to a whole number (R138 for integer destinations). -/
def roundInt (m : Rnd) (neg : Bool) (num den : Nat) : Int :=
  if neg then -((roundRatio m num den : Nat) : Int) else ((roundRatio m num den : Nat) : Int)

/-- Write a whole number to an integer destination lo to hi (R143: out of range is an overflow, and clamps). -/
def intClamp (lo hi x : Int) : Int × ElemFlags :=
  if x < lo then (lo, ⟨true, true, false⟩) else if hi < x then (hi, ⟨true, true, false⟩) else (x, {})

/-- Convert a value to INT32 or UINT32 (R143, Tables 4.9 and 4.10). -/
def intEncode (isSigned : Bool) (m : Rnd) (x : XVal) : Coded :=
  let lo : Int := if isSigned then -2147483648 else 0
  let hi : Int := if isSigned then 2147483647 else 4294967295
  match x with
  | .nan => ⟨0, ⟨false, false, true⟩⟩
  | .inf neg => ⟨unsigned 32 (if neg then lo else hi), ⟨false, false, true⟩⟩
  | .fin neg num den =>
    let r := intClamp lo hi (roundInt m neg num den)
    ⟨unsigned 32 r.1, r.2⟩

/-! ## The exponent histogram (R150 to R152) -/

/-- The counters of one output stream, before they are laid out as Table 4.12. -/
structure Hist where
  bins : Tab Nat := []
  below : Nat := 0
  above : Nat := 0
  zero : Nat := 0
  subnormal : Nat := 0
  inf : Nat := 0
  nan : Nat := 0
  overflow : Nat := 0
  clamped : Nat := 0
  replaced : Nat := 0
  maxExp : Option Int := none
  minExp : Option Int := none
  elements : Nat := 0
  /-- Table 4.1 code of the stream. -/
  fmt : Nat := 0
deriving DecidableEq, Repr

/-- Count a finite non-zero value of exponent `e` (R152). -/
def Hist.countExp (h : Hist) (e : Int) : Hist :=
  let h := { h with
    maxExp := some (match h.maxExp with | none => e | some m => max m e)
    minExp := some (match h.minExp with | none => e | some m => min m e) }
  if e < -40 then { h with below := h.below + 1 }
  else if 23 < e then { h with above := h.above + 1 }
  else { h with bins := tabMod 0 h.bins (e + 40).toNat (· + 1) }

/-- Count one element as written: its decoded value, whether its encoding is subnormal, and its events (R152). -/
def Hist.count (h : Hist) (v : XVal) (subn : Bool) (fl : ElemFlags) : Hist :=
  let h := { h with
    elements := h.elements + 1
    subnormal := h.subnormal + boolNat subn
    overflow := h.overflow + boolNat fl.overflow
    clamped := h.clamped + boolNat fl.clamped
    replaced := h.replaced + boolNat fl.replaced }
  match v with
  | .nan => { h with nan := h.nan + 1 }
  | .inf _ => { h with inf := h.inf + 1 }
  | .fin _ _ _ => match v.exponent with
    | none => { h with zero := h.zero + 1 }
    | some e => h.countExp e

/-- A 32-bit counter that stops at its maximum. -/
def stop32 (n : Nat) : Nat := min n 0xFFFFFFFF

/-- The engine kinds of Table 4.12. -/
inductive EngineKind
  | drawer | trestle | dresser | credenza
deriving DecidableEq, Repr

/-- The code of an engine kind (Table 4.12). -/
def EngineKind.code : EngineKind → Nat
  | .drawer => 1 | .trestle => 2 | .dresser => 3 | .credenza => 4

/-- The 320-byte record of Table 4.12. -/
def Hist.record (h : Hist) (stream ctx : Nat) (kind : EngineKind) (engine descIndex step : Nat) : List Byte :=
  let expField : Option Int → List Byte := fun e => match e with
    | none => leBytes 2 0x8000
    | some x => leBytes 2 (unsigned 16 x)
  (List.range 64).flatMap (fun i => leBytes 4 (stop32 (tabGet 0 h.bins i)))
    ++ leBytes 4 (stop32 h.below) ++ leBytes 4 (stop32 h.above) ++ leBytes 4 (stop32 h.zero)
    ++ leBytes 4 (stop32 h.subnormal) ++ leBytes 4 (stop32 h.inf) ++ leBytes 4 (stop32 h.nan)
    ++ leBytes 4 (stop32 h.overflow) ++ leBytes 4 (stop32 h.clamped) ++ leBytes 4 (stop32 h.replaced)
    ++ expField h.maxExp ++ expField h.minExp ++ leBytes 8 h.elements
    ++ leBytes 1 h.fmt ++ leBytes 1 stream ++ leBytes 1 (ctx % 16) ++ leBytes 1 kind.code
    ++ leBytes 2 engine ++ leBytes 2 0 ++ leBytes 4 descIndex ++ leBytes 4 step

end Sys2Proof
end

