-- ==== Sys2Proof/Machine/Operands.lean ====
section
/-!
DEFINITION. The operand forms: the fifteen formats of Table 4.1, how their elements lie in memory, and the
conversions into the block formats (R123 to R133 of spec/04_number_formats.md).
-/
namespace Sys2Proof

/-- The scalar floating-point layout of a format code, 0 to 4 (Table 4.1). -/
def fpOfCode : Nat → Option FpFmt
  | 0 => some fpFp32
  | 1 => some fpBf16
  | 2 => some fpFp16
  | 3 => some fpE4m3
  | 4 => some fpE5m2
  | _ => none

/-- The Microscaling codes (Table 4.1). -/
def isMx (code : Nat) : Bool := decide (5 ≤ code) && decide (code ≤ 8)

/-- Bytes of one stored element of a format without blocks. -/
def elemBytes : Nat → Nat
  | 0 => 4 | 1 => 2 | 2 => 2 | 3 => 1 | 4 => 1 | 10 => 1 | 11 => 5 | 12 => 4 | 13 => 4 | _ => 1

/-! ## Microscaling (R126 to R128) -/

/-- Element layout of an MX code; MXINT8 has none. -/
def mxElemFmt : Nat → Option FpFmt
  | 5 => some fpE4m3
  | 6 => some fpE5m2
  | 7 => some fpE2m1
  | _ => none

/-- e_max of R128. -/
def mxEmax : Nat → Int
  | 5 => 8 | 6 => 15 | 7 => 2 | _ => 0

/-- Bytes of a group of 512 elements (R127). -/
def mxGroupBytes (code : Nat) : Nat := if code = 7 then 272 else 528

/-- Bytes of a stored row of n elements (R127). -/
def mxRowBytes (code n : Nat) : Nat := ceilDiv n 512 * mxGroupBytes code

/-- Offset of the scale byte of element h within its stored row (R193). -/
def mxScaleOffset (code h : Nat) : Nat := h / 512 * mxGroupBytes code + h % 512 / 32

/-- Offset of the byte that holds element h within its stored row (R193). -/
def mxElemOffset (code h : Nat) : Nat :=
  h / 512 * mxGroupBytes code + 16 + (if code = 7 then h % 512 / 2 else h % 512)

/-- The encoding of element h within its byte: a nibble for MXFP4 (R127). -/
def mxPick (code h byte : Nat) : Nat :=
  if code = 7 then (if h % 2 = 0 then byte % 16 else byte / 16) else byte

/-- The value of an MX element under its scale byte (R126). -/
def mxDecode (code scale enc : Nat) : XVal :=
  if scale = 255 then .nan
  else
    let v := match mxElemFmt code with
      | some f => fpDecode f enc
      | none => .dyadic (decide (128 ≤ enc)) (signed 8 enc).natAbs (-6)
    v.scale ((scale : Int) - 127)

/-- An element with the value it decodes to, whether it is subnormal, and its events. -/
structure ElemOut where
  enc : Nat
  value : XVal
  subnormal : Bool
  flags : ElemFlags := {}
deriving DecidableEq, Repr

/-- The result of a block conversion: the scale or exponent byte, and the elements. -/
structure BlockOut where
  scale : Nat
  elems : List ElemOut
deriving DecidableEq, Repr

/-- The largest finite magnitude of the present values. -/
def blockMax (vs : List (Option XVal)) : XVal :=
  vs.foldl (fun a v => match v with | some x => a.maxFiniteMag x | none => a) .zero

/-- One MX element: v / 2^X rounded, written at the largest magnitude where it rounds beyond it (R128 step 4). -/
def mxEncodeElem (code : Nat) (m : Rnd) (scale : Nat) (v : XVal) : ElemOut :=
  let x := v.scale (127 - (scale : Int))
  match mxElemFmt code, x with
  | some f, .fin neg num den =>
    let enc := fpRoundMag f m num den
    let c := min enc f.maxEnc
    let e := fpSigned f neg c
    ⟨e, mxDecode code scale e, fpSubnormal f e, ⟨false, decide (f.maxEnc < enc), false⟩⟩
  | none, .fin neg num den =>
    let k := roundRatio m (num * 64) den
    let c := min k 127
    let e := unsigned 8 (if neg then -(c : Int) else (c : Int))
    ⟨e, mxDecode code scale e, false, ⟨false, decide (127 < k), false⟩⟩
  | _, _ => ⟨0, .zero, false, {}⟩

/-- Convert a block of 32 values, `none` where an element is absent, under R128. `rnd i` rounds element i. -/
def mxEncodeBlock (code : Nat) (rnd : Nat → Rnd) (vs : List (Option XVal)) : BlockOut :=
  if vs.any (fun v => match v with | some x => !x.isFinite | none => false) then
    ⟨255, vs.map fun v => match v with
      | some x => ⟨0, .nan, false, ⟨false, false, !x.isFinite⟩⟩
      | none => ⟨0, .zero, false, {}⟩⟩
  else match (blockMax vs).exponent with
    | none => ⟨0, vs.map fun _ => ⟨0, .zero, false, {}⟩⟩
    | some l =>
      let x : Int := max (-127) (min 127 (l - mxEmax code))
      let s := (x + 127).toNat
      ⟨s, (vs.zip (List.range vs.length)).map fun p => match p.1 with
        | some v => mxEncodeElem code (rnd p.2) s v
        | none => ⟨0, .zero, false, {}⟩⟩

/-! ## DQ8 (R129 to R131) -/

/-- Convert a block of 128 values, `none` where a lane is absent, under R131. -/
def dq8EncodeBlock (rnd : Nat → Rnd) (vs : List (Option XVal)) : BlockOut :=
  let xb : Int := match (blockMax vs).exponent with
    | none => -127
    | some l => max (-127) (l - 6)
  let out : Int → Bool → Bool → ElemOut := fun m cl rep =>
    ⟨unsigned 8 m, (XVal.ofInt m).scale xb, false, ⟨false, cl, rep⟩⟩
  ⟨(xb + 127).toNat, (vs.zip (List.range vs.length)).map fun p => match p.1 with
    | none => out 0 false false
    | some .nan => out 0 false true
    | some (.inf neg) => out (if neg then -127 else 127) false true
    | some (.fin neg num den) =>
      let v := (XVal.fin neg num den).scale (-xb)
      match v with
      | .fin _ n d =>
        let k := roundRatio (rnd p.2) n d
        let c := min k 127
        out (if neg then -(c : Int) else (c : Int)) (decide (127 < k)) false
      | _ => out 0 false false⟩

/-- The 144 bytes of a DQ8 block (R129). -/
def dq8Bytes (b : BlockOut) : List Byte :=
  b.elems.map (fun e => BitVec.ofNat 8 e.enc) ++ [BitVec.ofNat 8 b.scale] ++ zeros 15

/-! ## Level and sign codes (R132, R133) -/

/-- The level of an LV5 byte, or none where the byte is invalid (R132). -/
def lv5Decode (b : Nat) : Option Int :=
  if b ≤ 15 then some (b : Int) else if 0xF1 ≤ b ∧ b ≤ 0xFF then some ((b : Int) - 256) else none

/-- The LV5 byte of a level. -/
def lv5Encode (l : Int) : Nat := unsigned 8 l

/-- Sign code i of a run of SGN2 bytes (R133). -/
def sgn2Code (byte i : Nat) : Nat := byte / 4 ^ (i % 4) % 4

/-- The value of a sign code and whether it is the reserved code, read as 0 and counted as replaced (R133). -/
def sgn2Decode (code : Nat) : Int × Bool :=
  if code = 1 then (1, false) else if code = 3 then (-1, false) else if code = 2 then (0, true) else (0, false)

/-- The sign code of a value: +1 above zero, −1 below, 0 at zero and for NaN, which counts as replaced (R133, R145). -/
def sgn2Encode : XVal → Nat × ElemFlags
  | .nan => (0, ⟨false, false, true⟩)
  | .inf neg => (if neg then 3 else 1, ⟨false, false, true⟩)
  | .fin neg n _ => if n = 0 then (0, {}) else (if neg then 3 else 1, {})

/-- Four sign codes to a byte, element i in bits 2(i mod 4) (R133). -/
def sgn2Byte (codes : List Nat) : Nat := codes.foldr (fun c acc => c + 4 * acc) 0

/-- The bytes of a run of sign codes. -/
def sgn2Pack (codes : List Nat) : List Byte :=
  (chunksOf 4 codes.length codes).map fun c => BitVec.ofNat 8 (sgn2Byte c)

/-! ## Scalar elements -/

/-- The value of a stored scalar of format code 0 to 4, 0xA, 0xC or 0xD. -/
def scalarDecode (code v : Nat) : XVal :=
  match fpOfCode code with
  | some f => fpDecode f v
  | none =>
    if code = 12 then XVal.ofInt (signed 32 v)
    else if code = 13 then XVal.ofInt (v : Int)
    else if code = 11 then fpDecode fpM40 v
    else match lv5Decode v with
      | some l => XVal.ofInt l
      | none => .zero

/-- Round a value into a scalar format code; `sat` is FP8 overflow mode 0. -/
def scalarEncode (code : Nat) (m : Rnd) (sat : Bool) (x : XVal) : Coded :=
  match fpOfCode code with
  | some f => fpEncode f m sat x
  | none =>
    if code = 12 then intEncode true m x
    else if code = 13 then intEncode false m x
    else fpEncode fpM40 m sat x

/-- Write a sum. One that came to an infinity because additions of finite operands overflowed (`ovf`) is written as a value that overflows
here (R143, Table 4.9; DEDUCED, log entry 73). -/
def sumEncode (code : Nat) (m : Rnd) (sat ovf : Bool) (x : XVal) : Coded :=
  match ovf, x, fpOfCode code with
  | true, .inf neg, some f => fpOverflow f m sat neg
  | _, _, _ => scalarEncode code m sat x

/-- An encoding of a scalar format is subnormal. -/
def scalarSubnormal (code v : Nat) : Bool :=
  match fpOfCode code with
  | some f => fpSubnormal f v
  | none => if code = 11 then fpSubnormal fpM40 v else false

/-- Count a written scalar in a histogram (R152). -/
def Hist.countScalar (h : Hist) (code : Nat) (c : Coded) : Hist :=
  h.count (scalarDecode code c.bits) (scalarSubnormal code c.bits) c.flags

/-- Count a written block element (R152). -/
def Hist.countElem (h : Hist) (e : ElemOut) : Hist := h.count e.value e.subnormal e.flags

end Sys2Proof
end

