-- ==== Sys2Proof/Machine/State.lean ====
section
/-!
DEFINITION. The state of the module: every register, memory, queue, counter, mode and pin the spec names, as plain data,
and State.reset. Sparse arrays list the entries that differ from their default.
-/
namespace Sys2Proof.Machine

/-! ## The module (R9 to R30 of spec/01_module_overview.md) -/

/-- The module states of Table 1.7. -/
inductive ModState
  | off | standby | booting | ready | running | fenced | retired | recovery
deriving DecidableEq, Repr, Inhabited

/-- The code of a module state (Table 1.7). -/
def ModState.code : ModState → Nat
  | .off => 0 | .standby => 1 | .booting => 2 | .ready => 3
  | .running => 4 | .fenced => 5 | .retired => 6 | .recovery => 7

/-- How far a power-on or a reset has come (Tables 15.4 and 16.4). -/
inductive BootPhase
  | idle | railsRising | pllLocking | filling | checking | checkingOther | loading
deriving DecidableEq, Repr, Inhabited

/-- The main rails (R448). -/
inductive Rail
  | analogue | core | fabric | hbm | optics | pcie
deriving DecidableEq, Repr, Inhabited

/-- The order in which they are enabled: analogue array, core, fabric and Cupboard, HBM, optics, PCIe (R448). -/
def railOrder : List Rail := [.analogue, .core, .fabric, .hbm, .optics, .pcie]

/-- Module state, clocks, signals and the boot in progress (R19, R25 to R30, R444, R447 to R452). -/
structure Module where
  st : ModState := .off
  boot : BootPhase := .idle
  /-- The three copies of the fence mark in retention SRAM (R27, R405). -/
  mark0 : Bool := false
  mark1 : Bool := false
  mark2 : Bool := false
  /-- R401, held in retention SRAM. -/
  tripLatch : Bool := false
  /-- NST_TIME of the last device-level resets, newest first, at most four (R417). -/
  resetTimes : List Nat := []
  /-- Device-level resets since standby power, modulo 16 (Table 14.4). -/
  resetGen : Nat := 0
  /-- Nanoseconds since standby power at the last device-level reset: one that coincides is not performed again (R416). The model's
  own. -/
  resetAt : Option Nat := none
  /-- Device time, ns (R19). -/
  devTime : Nat := 0
  pllLocked : Bool := false
  /-- Nanoseconds since standby power was applied; NST_TIME is its whole microseconds (R397). -/
  nstNs : Nat := 0
  onOscillator : Bool := false
  refclk : Bool := true
  pcieRefclk : Bool := true
  perst : Bool := true
  pwrHold : Bool := false
  /-- The main rails enabled, in the order of their enabling (R448, R450). -/
  rails : List Rail := []
  pwrGood : Bool := false
  /-- NST ns of the later of PWR_GOOD's rise and PERST#'s deassertion, from which configuration requests are answered with a retry for a
  while (Table 16.4). -/
  configFrom : Option Nat := none
  pcieLink : Bool := false
  /-- SA2 to SA0, read when standby power is applied. -/
  sa : Nat := 0
  /-- Device-level reset in progress spares the dump region (warm). -/
  warmBoot : Bool := false
  /-- The power-on or reset asked for Recovery (R430). -/
  wantRecovery : Bool := false
  /-- NST ns at acceptance of the last power-on, for PWR_ON_INFO.BOOT_MS; none once Ready or Fenced is reached. -/
  onAt : Option Nat := none
  refuseReason : Nat := 0
  bootMs : Nat := 0
  /-- NST ns at which the last fill started (R359). -/
  fillAt : Nat := 0
  fillUs : Nat := 0
  fillWarm : Bool := false
deriving DecidableEq, Repr, Inhabited

/-- The fence mark, read by majority of its three copies (R405). -/
def Module.fenceMark (m : Module) : Bool := (m.mark0 && m.mark1) || (m.mark2 && (m.mark0 || m.mark1))

/-- The module with its fence mark written, all three copies (R27, R405). -/
def Module.withMark (m : Module) (b : Bool) : Module := { m with mark0 := b, mark1 := b, mark2 := b }

/-! ## The error log (R15, R418, R419, R460) -/

/-- One error-log entry; its sequence number is its place in the log (R418). -/
structure LogEntry where
  time : Nat := 0
  gen : Nat := 0
  /-- Nanoseconds since standby power at the detection: entries of one nanosecond are ordered by source (R15). The model's own. -/
  seen : Nat := 0
  code : Nat := 0
  source : Nat := 0
  action : Nat := 0
  engine : Nat := 0
  descValid : Bool := false
  ctxValid : Bool := false
  ctx : Nat := 0
  ring : Nat := 0
  count8 : Nat := 0
  descIndex : Nat := 0
  detail : Nat := 0
  /-- Crash dump header bytes 20i to 20i + 19, in a summary entry (R421). -/
  summary : Option (List Byte) := none
  /-- Its 64-bit words in retention SRAM found uncorrectable; RETENTION_UE is set while there is one (R405, R419). -/
  lost : List Nat := []
deriving DecidableEq, Repr, Inhabited

/-! ## Event flags (R325) -/

/-- A block's STATUS and STATUS_EVT registers. -/
structure StatusReg where
  status : Word := 0
  evt : Word := 0
deriving DecidableEq, Repr, Inhabited

/-! ## Nightstand (R395 to R408 of spec/13_nightstand.md) -/

/-- The monitor, its filters, the throttle sources and the rule table. -/
structure Nst where
  /-- Channel of the conversion in progress. -/
  cur : Option Nat := none
  /-- The scan list of the pass in progress and the next slot within it (R396). -/
  pass : List Nat := []
  slot : Nat := 0
  /-- End of each channel's last conversion, NST ns. -/
  lastEnd : Tab Nat := []
  startPending : Option Nat := none
  /-- Filter values v in 1/16 code, and the channels converted since standby power. -/
  filt : Tab Nat := []
  seen : Tab Bool := []
  /-- Result buffer and NST_BUF_PROD. -/
  buf : Tab DWord := []
  prod : Nat := 0
  /-- NST_ADC_RESULT: channel and code of the last conversion. -/
  result : Option (Nat × Nat) := none
  /-- The throttle sources (Table 13.2) and their running intervals. -/
  thermal : Nat := 16
  power : Nat := 16
  thermalHot : Bool := false
  thermalCool : Bool := false
  thermalChan : Nat := 0
  powerCool : Bool := false
  /-- NST ns of the onset of each source's lowering and raising condition, or of its last step under it (R399). -/
  thermalHotAt : Nat := 0
  thermalCoolAt : Nat := 0
  powerCoolAt : Nat := 0
  level : Nat := 16
  /-- NST_THROTTLE.SOURCE: bit 0 thermal, 1 power, 2 rule, 3 cap. -/
  src : Nat := 0
  /-- P of the channel 3 samples of the last millisecond with their end times, newest first; unit 31.25 µW. -/
  samples : List (Nat × Nat) := []
  /-- NST ns until which the 100 µs condition is not evaluated. -/
  powerHold : Nat := 0
  /-- Sum and number of the P values of the whole millisecond in progress, and consecutive ones above 2,400 W. -/
  msSum : Nat := 0
  msCount : Nat := 0
  msOver : Nat := 0
  /-- Consecutive channel 2 samples outside 40 V to 60 V. -/
  vinBad : Nat := 0
  /-- Active rules and their dwell counts (R402). -/
  ruleActive : Tab Bool := []
  dwell : Tab Nat := []
  /-- Input energy, µJ (R459). -/
  energy : Nat := 0
deriving DecidableEq, Repr, Inhabited

/-! ## Recovery (R409 to R424 of spec/14_faults_and_recovery.md) -/

/-- The Hutch watchdog, the crash dump and the times of autonomous resets. -/
structure Rcv where
  hbArmed : Bool := false
  hbMisses : Nat := 0
  /-- The watchdog of Hutch's heartbeat is suspended by an activation, and since when by Nightstand's time (R434 step 1). -/
  hbSuspended : Bool := false
  hbSuspendedAt : Nat := 0
  /-- A Hutch reset is waiting for the first heartbeat of the restored Hutch. -/
  hutchAwaited : Bool := false
  /-- Hutch stays in reset (AUTO_WARM 0). -/
  hutchHeld : Bool := false
  /-- Device times of the last Hutch resets, newest first. -/
  hutchTimes : List Nat := []
  dumpValid : Bool := false
  dumpCause : Nat := 0
  dumpTime : Nat := 0
  /-- Dumps written so far, and whether the dump region still holds the body of the last (R421). -/
  dumps : Nat := 0
  dumpBody : Bool := false
deriving DecidableEq, Repr, Inhabited

/-! ## Firmware (R425 to R442 of spec/15_firmware_and_boot.md) -/

/-- The update states of Table 15.5. -/
inductive FwuState
  | idle | staging | staged | verifying | verified | activating | failed
deriving DecidableEq, Repr, Inhabited

/-- The code of an update state (Table 15.5). -/
def FwuState.code : FwuState → Nat
  | .idle => 0 | .staging => 1 | .staged => 2 | .verifying => 3 | .verified => 4 | .activating => 5 | .failed => 6

/-- An image in a slot of the image store: its bytes, the header and the blocks, ciphertext, check value and tag (Tables 15.1 and 15.2). -/
structure Image where
  bytes : List Byte := []
deriving DecidableEq, Repr, Inhabited

/-- How far an activation has come (R434). -/
inductive ActPhase
  | none | draining | reloading | ports
deriving DecidableEq, Repr, Inhabited

/-- The image store, the fuses and the update in progress. -/
structure Fwu where
  /-- The slots, of 64 MiB each; none where the slot is invalid (R425, R432). -/
  slot0 : Option Image := none
  slot1 : Option Image := none
  /-- The slot selector. -/
  selector : Nat := 0
  ownerLock : Bool := false
  /-- The provisioning record, 3,904 bytes (R431). -/
  record : Tab Byte := []
  /-- The reserved area of the store, which nothing reaches (R425). -/
  reserved : Tab Byte := []
  /-- The fuses: the image key, the digests of vendor keys 0 to 3, where one is fused, a revocation bit for each, and the minimum security
  version, 0 to 63 (R426). -/
  imageKey : BitVec 256 := 0
  keyDigests : List (Option (BitVec 384)) := [none, none, none, none]
  keysRevoked : Nat := 0
  minSvn : Nat := 0
  state : FwuState := .idle
  reason : Nat := 0
  result : Nat := 0
  /-- FWU_LENGTH as STAGE found it (R432). -/
  stageLength : Nat := 0
  /-- Bytes received of the image in staging, for staging over PLDM. -/
  received : List Byte := []
  overMctp : Bool := false
  requested : Bool := false
  tablePassed : Bool := false
  progress : Nat := 0
  verified : Bool := false
  /-- The image in force: its header, slot and whether it is the fallback. -/
  active : Option Image := none
  activeSlot : Nat := 0
  fallback : Bool := false
  act : ActPhase := .none
  /-- Ports still to reload, in order (R434 step 7). -/
  portsLeft : List Nat := []
  /-- Chests whose microcode reload is pending (R434 step 8). -/
  pendingChests : List Nat := []
deriving DecidableEq, Repr, Inhabited

/-! ## Host interface (R319 to R349 of spec/10_host_rings.md) -/

/-- A descriptor named by context, ring and index. -/
structure DRef where
  ctx : Nat
  ring : Nat
  idx : Nat
deriving DecidableEq, Repr, Inhabited

/-- A fetched descriptor whose completion is not yet written. -/
structure Desc where
  idx : Nat
  /-- The 64 bytes as fetched. -/
  bytes : List Byte
  dispatched : Bool := false
  /-- Counts as in flight (a PLN_PROGRAM leaves the count when its Chest queues it, R338). -/
  counted : Bool := true
  /-- Its execution has read a poisoned codeword (R357). -/
  poisoned : Bool := false
deriving DecidableEq, Repr, Inhabited

/-- What a ring completes unexecuted: everything up to the next STEP_END with a status; or everything below an index. -/
inductive Flush
  | toEnd (status : Nat)
  | below (idx status : Nat)
deriving DecidableEq, Repr, Inhabited

/-- One descriptor ring (Table 10.14). HEAD is the index of the oldest open descriptor, or `fetched` with none open. -/
structure Ring where
  base : Nat := 0
  comp : Nat := 0
  enable : Bool := false
  sizeLog2 : Nat := 6
  vector : Nat := 0
  tail : Nat := 0
  /-- The TAIL values written whose descriptors have not all been fetched, oldest first, each with its place among the TAIL writes of the
  context (R217). The model's own. -/
  posted : List (Nat × Nat) := []
  /-- Index of the next descriptor to fetch. -/
  fetched : Nat := 0
  /-- STATE.ERROR: 0, RING_INVALID or HOST_FAULT. -/
  error : Nat := 0
  /-- Fetched descriptors without a completion, by rising index. -/
  opened : List Desc := []
  /-- The flushes in progress, in the order of their events: a descriptor that several cover carries the status of the earliest (R263,
  R357, R413, Table 14.8). -/
  flush : List Flush := []
deriving DecidableEq, Repr, Inhabited

/-- A context's histogram ring (R341). -/
structure HistRing where
  base : Nat := 0
  enable : Bool := false
  sizeLog2 : Nat := 8
  produced : Nat := 0
  consumed : Nat := 0
  lost : Nat := 0
deriving DecidableEq, Repr, Inhabited

/-- The doorbell page of a context; a context reset returns it to these values. -/
structure Door where
  rings : Tab Ring := []
  hist : HistRing := {}
  sems : Tab Word := []
  /-- The ring that fetch served last (R338). -/
  served : Nat := 7
  /-- Accepted TAIL writes of the context since its last reset. The model's own. -/
  posts : Nat := 0
deriving DecidableEq, Repr, Inhabited

/-- What Hutch's fetch and the interrupts hold beside the doorbell pages. MSI-X vectors are numbered 128 × function + vector. -/
structure Hif where
  /-- The context that fetch served last (R338). -/
  served : Nat := 15
  /-- Vectors masked in the MSI-X table, and vectors that fired while masked (R319, R340). -/
  masked : Tab Bool := []
  waiting : Tab Bool := []
  /-- Contexts whose reset is in progress, which RESETTING shows, each with the requester of its entry (R414, Table 14.11). -/
  resetting : Tab (Option Nat) := []
deriving DecidableEq, Repr, Inhabited

/-- A copy being executed (R344). -/
structure CopyJob where
  ref : DRef
  srcHost : Bool
  dstHost : Bool
  len : Nat
  src : Nat
  dst : Nat
  /-- A context reset has dropped it: it stops at the next 4 KiB and completes nothing (R414). -/
  dropped : Bool := false
deriving DecidableEq, Repr, Inhabited

/-! ## What leaves the module -/

/-- An effect outside the module. -/
inductive Out
  /-- A posted write to host memory by function `fn` (0 physical, k virtual function k); `skip` is a byte its byte enables leave out. -/
  | hostWrite (fn addr : Nat) (bytes : List Byte) (skip : Option Nat) (poisoned : Bool)
  /-- A read of host memory by function `fn`, of at most 4,096 bytes (R319, R330). -/
  | hostRead (fn addr len : Nat)
  /-- An MSI-X message (R340). -/
  | msix (fn vector : Nat)
  /-- Data of a host read, with the poisoned-data indication (R323, R356). -/
  | readData (bytes : List Byte) (poisoned : Bool)
  /-- A flit sent on a port: unit u of 32 bytes on the wavelength listed for it (R293). -/
  | flit (port : Nat) (bytes : List Byte) (waves : List Nat)
  /-- A training-channel or lane message to the peer of a port. -/
  | peer (port code arg : Nat)
  /-- An answer to an MCTP command: command, completion code, value. -/
  | mctp (cmd code value : Nat)
  /-- A PLDM answer: command, completion code, value. -/
  | pldm (cmd code value : Nat)
  /-- A PLDM platform event message of an ALERT rule: rule, firing. -/
  | alert (rule : Nat) (firing : Bool)
  /-- A main rail is enabled or removed (R448, R450). -/
  | rail (r : Rail) (on : Bool)
deriving DecidableEq, Repr, Inhabited

/-! ## Memory (R350 to R372 of spec/11_memory_integrity.md) -/

/-- A retention entry: kind 0 page, 1 bank, 2 Cupboard block, and its address (Table 11.8). -/
structure Retirement where
  kind : Nat
  addr : Nat
deriving DecidableEq, Repr, Inhabited

/-- A scrub in progress or waiting on its scrubber. -/
structure ScrubJob where
  ref : DRef
  start : Nat
  len : Nat
  writeback : Bool
  summary : Nat
  tStart : Nat
  /-- The retirements in force at its acceptance (R370). -/
  rtab : List Retirement := []
deriving DecidableEq, Repr, Inhabited

/-- Device memory, its faulty codewords, and retirements. -/
structure MemBlk where
  /-- Bytes that differ from the fill value 0, by rising address. -/
  cells : Tab Byte := []
  /-- Codewords in error by base address: true uncorrectable, false correctable. -/
  errs : Tab (Option Bool) := []
  /-- Time of the last logged correction of each page or block (R360). -/
  ceLogged : Tab (Option Nat) := []
  rtab : List Retirement := []
  scrubCup : List ScrubJob := []
  scrubHbm : List ScrubJob := []
deriving DecidableEq, Repr, Inhabited

/-! ## Trestle (R158 to R180 of spec/05_trestle_matrix_engine.md) -/

/-- A matrix product accepted by an engine, with what its completion reports (Table 5.5). -/
structure TrsJob where
  ref : DRef
  bytes : List Byte
  /-- The extension record as read at validation (Table 5.3). -/
  ext : List Byte
  noHist : Bool
  /-- The step whose number keys its roundings, every attempt alike: the one in which its execution begins (R140, R155, R225). -/
  step : Option Nat := none
  /-- A context reset has dropped it: it stops at the next tile and completes nothing (R414). -/
  dropped : Bool := false
  tile : Nat := 0
  halvings : Nat := 0
  written : Nat := 0
  retried : Nat := 0
  exhausted : Nat := 0
  largest : Nat := 0
  overflowed : Bool := false
  hist : Hist := {}
deriving DecidableEq, Repr, Inhabited

/-- One Trestle engine. -/
structure TrsEngine where
  queue : List TrsJob := []
  /-- Times of its engine resets, newest first (Table 14.2). -/
  resets : List Nat := []
  /-- Busy time in half core cycles. -/
  halfCycles : Nat := 0
deriving DecidableEq, Repr, Inhabited

/-! ## Dresser (R181 to R215 of spec/06_dresser_vector_engine.md) -/

/-- The data of an outstanding load, by destination. -/
inductive LoadDest
  | tile (d : Nat) (lanes : List Word)
  | pair (d : Nat) (hi lo : List Word)
  | scalar (d : Nat) (v : DWord)
  | mask (d : Nat) (v : BitVec 256)
deriving DecidableEq, Repr, Inhabited

/-- The key state (Table 6.1). -/
structure KeyState where
  tensor : Word := 0
  base : DWord := 0
  pitch : Word := 0
deriving DecidableEq, Repr, Inhabited

/-- A launch accepted by a unit. -/
structure DrsJob where
  ref : DRef
  bytes : List Byte
  noHist : Bool
  /-- Scalar registers that ARG substitutions set (R241). -/
  args : List (Nat × DWord) := []
deriving DecidableEq, Repr, Inhabited

/-- The state of the program a unit runs (R181, R184) and what its completion reports (Table 6.10). -/
structure DrsRun where
  /-- The program has been checked and runs; before that it is being fetched. -/
  started : Bool := false
  /-- The instruction limit the launch runs under, once it has started (R209, R409). -/
  limit : Nat := 0
  pc : Nat := 0
  tiles : Tab (List Word) := []
  s : Tab DWord := []
  m : Tab (BitVec 256) := []
  vl : Nat := 256
  key : KeyState := {}
  loads : List LoadDest := []
  executed : Nat := 0
  lastIdx : Nat := 0
  empty : Bool := false
  permRange : Bool := false
  events : ElemFlags := {}
  streams : Tab (Option Hist) := []
deriving DecidableEq, Repr, Inhabited

/-- The checked program a unit keeps (R184, R206). -/
structure DrsHeld where
  ctx : Nat
  addr : Nat
  len : Nat
  prog : List DWord
deriving DecidableEq, Repr, Inhabited

/-- One Dresser unit. -/
structure DrsUnit where
  queue : List DrsJob := []
  run : DrsRun := {}
  held : Option DrsHeld := none
  resets : List Nat := []
  halfCycles : Nat := 0
deriving DecidableEq, Repr, Inhabited

/-! ## Buckets of the gradient exchange (R255 to R275 of spec/08_gradient_exchange_and_pairs.md) -/

/-- The bucket states of Table 8.3 that a used tag has. -/
inductive BucketState
  | collecting | reducing | reduced | gathering | delivered | aborted | stale
deriving DecidableEq, Repr, Inhabited

/-- One bucket of an open step. Sets of parts and of ranks are bitmaps. `collecting` is the state Open. -/
structure Bucket where
  st : BucketState := .collecting
  unit : Nat := 0
  /-- The RDX_REDUCE as executed, and the RDX_GATHER. -/
  reduce : DRef
  bytes : List Byte := []
  gather : Option DRef := none
  noHistG : Bool := false
  codesAddr : Nat := 0
  /-- Device times of the open, of the decision for own parts and for those taken over, of the start of RDX_GATHER and of its
  completion. -/
  openAt : Nat := 0
  decidedAt : Nat := 0
  decidedTAt : Nat := 0
  gatherAt : Nat := 0
  doneAt : Nat := 0
  forced : Bool := false
  /-- The set to await: the forced set, or the ranks live at the open time in MODES 1 to 3 (R260, R261). -/
  expected : Option Nat := none
  /-- Parts the module reduces itself, and parts it has taken over from its partner (R269, R280). -/
  own : Nat := 0
  taken : Nat := 0
  /-- Ranks arrived, in order, and the accepted set once decided: for own parts and for parts taken over (R259, R274). -/
  arrived : List Nat := []
  accepted : Option Nat := none
  arrivedT : List Nat := []
  acceptedT : Option Nat := none
  /-- The deadline has passed, of each; and it had before the decision. -/
  deadline : Bool := false
  deadlineT : Bool := false
  afterDeadline : Bool := false
  /-- Device time of each deadline, once it has passed (Table 8.11). -/
  deadlineAt : Option Nat := none
  deadlineTAt : Option Nat := none
  /-- The partner has been lost during the bucket. -/
  lost : Bool := false
  /-- Parts written here, received from the partner, and acknowledged by it. -/
  written : Nat := 0
  received : Nat := 0
  acked : Nat := 0
  /-- Parts whose codes are present, those of them that came from other members, those sent, the number sent, and whether one sent
  was taken over. -/
  codes : Nat := 0
  codesFrom : Nat := 0
  sentSet : Nat := 0
  sent : Nat := 0
  sentTaken : Bool := false
  late : Nat := 0
  dups : Nat := 0
  overflowed : Bool := false
  hist : Hist := {}
  histG : Hist := {}
  reduceStatus : Option Nat := none
  gatherStatus : Option Nat := none
deriving DecidableEq, Repr

/-- Exchange counts of a step (Table 8.7). -/
structure ExchCounts where
  sent : Nat := 0
  recv : Nat := 0
  fence : Nat := 0
  epoch : Nat := 0
  late : Nat := 0
  takenOver : Nat := 0
deriving DecidableEq, Repr, Inhabited

/-! ## Training steps (R216 to R250 and R461 of spec/07_training_step.md) -/

/-- What a STEP_BEGIN in progress waits for. -/
inductive StepWait
  | none | ruleInput | lag
deriving DecidableEq, Repr, Inhabited

/-- The step a context has open, or is about to begin (R221 to R224). -/
structure OpenStep where
  num : Nat
  mode : Nat
  /-- The step has begun; false while its commit waits (R222, R223). -/
  begun : Bool := false
  wait : StepWait := .none
  /-- The STEP_BEGIN. -/
  ref : DRef
  /-- Ring index of the STEP_BEGIN; substitution offsets count from it (R240). -/
  beginIdx : Nat
  ctrl : List Byte
  repeated : Bool := false
  restarted : Bool := false
  /-- What was staged when the commit began: Drawers with a Ready plane, Drawers with a staged trim set, and map bytes (R14). -/
  readyAt : List Nat := []
  trimsAt : List Nat := []
  mapsAt : Tab (Option Byte) := []
  /-- Tie groups: first Drawer and count (R234). -/
  ties : List (Nat × Nat) := []
  flips : Nat := 0
  trimsTaken : Bool := false
  maxLag : Nat := 0
  worst : Nat := 0
  /-- Device times of the commit's start, of the step's beginning and of the start of a lag stall. -/
  tCommit : Nat := 0
  tBegin : Nat := 0
  stalledAt : Option Nat := Option.none
  stall : Nat := 0
  gateWait : Nat := 0
  /-- The captured step-size table: its COUNT and check value (R242). -/
  captured : Option (Nat × Nat) := Option.none
  /-- The table was captured at the commit, which COMMIT[1] shows. -/
  capturedAtCommit : Bool := false
  /-- The STEP_GATEs that poll the table, with the device times of their starts (R243). -/
  gates : List (DRef × Nat) := []
  gatePassed : Bool := false
  ruleCrc : Nat := 0
  genvecCrc : Nat := 0
  /-- Choices made by the rules at the commit (format code and scale), by rule. -/
  choices : List Word := []
  /-- Lengths of the slots read at the commit, none where inactive (R248). -/
  slots : List (Option Nat) := []
  /-- MASTER_DIGEST in the making: four sums modulo 2^64 (R276). -/
  digest : List DWord := [0, 0, 0, 0]
  errCount : Nat := 0
  firstErr : Nat := 0
  firstErrIdx : Nat := 0
  abandoned : Bool := false
  holdsTaken : Nat := 0
  holdsReleased : Nat := 0
  /-- Buckets by tag, the exchange counts, and the fabric epochs at this commit and at that of the attempt it repeats (R266, R275). -/
  buckets : Tab (Option Bucket) := []
  exch : ExchCounts := {}
  epochAt : Nat := 0
  epochBefore : Option Nat := Option.none
deriving DecidableEq, Repr, Inhabited

/-- A context's step numbering (R217, R219). -/
structure StepCtx where
  /-- The step ring, once a STEP_BEGIN has come in it; and while none has been dispatched, the place of that STEP_BEGIN's TAIL write among
  those of the context (R217). -/
  ring : Option Nat := none
  ringPost : Option Nat := none
  /-- L, the last step begun, and whether its gate passed. -/
  last : Option Nat := none
  lastGate : Bool := false
  /-- Fabric epoch at the commit of the last step begun (R266). -/
  lastEpoch : Nat := 0
  /-- Generation vectors exist for the steps begun since the last reset. -/
  begunSteps : List Nat := []
  opened : Option OpenStep := none
deriving DecidableEq, Repr, Inhabited

/-! ## Drawers (R31 to R86 of spec/02_drawer_arrays.md, R87 to R122 of spec/03_plane_programming.md) -/

/-- The plane states of Table 3.1. -/
inductive PlaneState
  | empty | active | retained | programming | ready | failed
deriving DecidableEq, Repr, Inhabited

/-- The code of a plane state (Table 3.1). -/
def PlaneState.code : PlaneState → Nat
  | .empty => 0 | .active => 1 | .retained => 2 | .programming => 3 | .ready => 4 | .failed => 5

/-- One plane of a Drawer (R87, R90). Cell `2072 × physical row + 2 × pair column + (1 for the negative cell)` holds its
analogue value in thousandths of a readout code, where it differs from its value on delivery. -/
structure Plane where
  st : PlaneState := .empty
  gen : Nat := 0
  hold : Nat := 0
  /-- The master step; none for all ones. -/
  mstep : Option Nat := none
  owner : Option Nat := none
  imaged : Bool := false
  cells : Tab (Option Int) := []
  /-- The spare row of a remapped logical row, and the spare rows that may not be taken (R35, R112). -/
  rowRemap : Tab (Option Nat) := []
  rowBad : List Nat := []
  /-- Program-and-verify cycles of each physical row (R116). -/
  wear : Tab Nat := []
  /-- DRW_MARGIN of the plane. -/
  margin : Nat := 0
deriving DecidableEq, Repr, Inhabited

/-- What a row-order or transposed readout has reached, and what its completion reports. -/
structure ReadProgress where
  /-- Row order: the row and whether it is being re-read. Transposed: the place in the read set. -/
  pos : Nat := 0
  reread : Bool := false
  /-- Transposed: rows that failed and still await their re-read. -/
  failing : List Nat := []
  transposedDone : Bool := false
  /-- Negative cells are being read; the conversion within a cell column (R58). -/
  neg : Bool := false
  part : Nat := 0
  /-- Values read of positive cells, and of the cell column being read, by converter. -/
  posVals : List Int := []
  curVals : List Int := []
  /-- Decided levels, by 1,036 × logical row + pair column (check columns from 1,032 on). -/
  levels : Tab Int := []
  /-- Pair-form faults, by 4 × row + check group (R37). -/
  pairFaults : Tab Bool := []
  /-- Marginal cells of each row, from the read whose levels stand (R55). -/
  marginal : Tab Nat := []
  corrected : Nat := 0
  uncorrected : Nat := 0
deriving DecidableEq, Repr, Inhabited

/-- What a forward product has reached, and what its completion reports (R39 to R52). -/
structure ProductProgress where
  vec : Nat := 0
  /-- Retries of the vector, its row group and gains now. -/
  retries : Nat := 0
  group : Nat := 0
  low : Bool := false
  gSize : Nat := 0
  gHi : Nat := 0
  gLo : Nat := 0
  satHi : Bool := false
  satLo : Bool := false
  /-- The vector's elements and block scale exponents as read at its start. -/
  elems : List Int := []
  exps : List Int := []
  /-- Accumulators of the columns of the range, in units of 1/16 (R44). -/
  acc : List Int := []
  completed : Nat := 0
  saturated : Nat := 0
  retried : Nat := 0
  exhausted : Nat := 0
  largest : Nat := 0
  hist : Hist := {}
deriving DecidableEq, Repr, Inhabited

/-- A descriptor accepted by a Drawer and bound to a plane (R72, R73). -/
structure DrwJob where
  ref : DRef
  bytes : List Byte
  noHist : Bool
  plane : Nat
  gen : Nat
  holdTaken : Bool := false
  /-- The first conversion has begun; the trims and scales it began with (R74). -/
  begun : Bool := false
  /-- A context reset has dropped it: it stops at the next vector or row and completes nothing (R414). -/
  dropped : Bool := false
  hot : Bool := false
  trims : List Word := []
  scales : List Half := []
  /-- Rows retired when the descriptor was accepted (R366, R370). -/
  skip : List Nat := []
  prod : ProductProgress := {}
  read : ReadProgress := {}
deriving DecidableEq, Repr, Inhabited

/-- The column trims that a periphery buffers: the first column, the entries as it read them, and the bytes of slice 95 it read them
from (R74). -/
structure TrimBuf where
  first : Nat
  trims : List Word
  stored : List Byte
deriving DecidableEq, Repr, Inhabited

/-- One Drawer. -/
structure Drawer where
  planeA : Plane := { st := .active }
  planeB : Plane := {}
  /-- The Active plane is plane B. -/
  activeB : Bool := false
  lastGen : Nat := 0
  /-- The spare column of a remapped logical column; spare columns that may not be taken (R35, R114). -/
  colRemap : Tab (Option Nat) := []
  colBad : List Nat := []
  /-- Failed cells of each physical pair column, at most 255 (R112). -/
  failCol : Tab Nat := []
  /-- Retired lines in the order of their retirement, each with whether it is a column (MEM_DRETk), and whether the Drawer is
  retired (Table 11.5). -/
  retLines : List (Bool × Nat) := []
  retired : Bool := false
  worn : Bool := false
  queue : List DrwJob := []
  /-- Device time of the last product watchdog (Table 14.2). -/
  wdogAt : Option Nat := none
  /-- The trims that the periphery buffers (R74). -/
  trimBuf : Option TrimBuf := none
  /-- A complete staged trim set (R376), sparse over entries 0. -/
  staged : Option (Tab Word) := none
  /-- Remapped columns that no run begun since has measured, each with how many runs had begun (R378). -/
  unmeasured : List (Nat × Nat) := []
  /-- The cells of the eight reference rows, in thousandths of a readout code, by 2072 × row + 2 × pair column + (1 for the
  negative cell), where they differ from the level the row is programmed to (Table 2.1). -/
  refCells : Tab (Option Int) := []
deriving DecidableEq, Repr, Inhabited

/-- The retired rows of a Drawer (Table 11.5). -/
def Drawer.retRows (d : Drawer) : List Nat := (d.retLines.filter (fun x => !x.1)).map (·.2)

/-- The retired columns of a Drawer (Table 11.5). -/
def Drawer.retCols (d : Drawer) : List Nat := (d.retLines.filter (·.1)).map (·.2)

/-! ## Chests (R93 to R120) -/

/-- How far the row in programming has come (Table 3.3), or what the lane waits for. -/
inductive RowPhase
  | binding | preRead | pulse | verify | closing | checkRead
deriving DecidableEq, Repr, Inhabited

/-- A row is in programming: not while the job waits for a binding to end, and not in the check reads that follow the programming of a
spare column (R103, R114). -/
def RowPhase.inProgramming : RowPhase → Bool
  | .binding | .checkRead => false
  | .preRead | .pulse | .verify | .closing => true

/-- A PLN_PROGRAM or PLN_REMAP_COL in a Chest's queue or on a lane, with what its completion reports (Table 3.7). -/
structure PlnJob where
  ref : DRef
  bytes : List Byte
  phase : RowPhase := .preRead
  plane : Nat := 0
  gen : Nat := 0
  /-- The logical row in programming, the spare row it is being programmed into, and the spares tried for it. -/
  row : Nat := 0
  spareRow : Option Nat := none
  /-- PLN_REMAP_COL: the spare column being filled. -/
  spareCol : Nat := 0
  tries : Nat := 0
  cycle : Nat := 0
  /-- Target levels of the row, by logical column, as read at its pre-read. -/
  target : List Int := []
  /-- Cells of the row outside their verify band at the last measurement. -/
  outside : List Nat := []
  written : Nat := 0
  unchanged : Nat := 0
  largest : Nat := 0
  failedCells : Nat := 0
  sparesTaken : Nat := 0
  wornAtStart : Bool := false
  /-- The module has been fenced: the programming stops at the end of the cycle in progress (Table 3.4). -/
  stopping : Bool := false
deriving DecidableEq, Repr, Inhabited

/-- A PLN_TARGET waiting for its Chest's target unit. -/
structure TargetJob where
  ref : DRef
  bytes : List Byte
deriving DecidableEq, Repr, Inhabited

/-- One Chest: its programming queue and lanes and its target unit (R100). -/
structure Chest where
  queue : List PlnJob := []
  lanes : Tab (Option PlnJob) := []
  targets : List TargetJob := []
  /-- Programming descriptors that Hutch holds undispatched for want of a queue entry. -/
  held : List DRef := []
  /-- Device time of the last row watchdog of each lane (Table 14.2). -/
  laneWdogAt : Tab (Option Nat) := []
  /-- Device time at which a lane was last freed: a lane takes the next queued descriptor as it is freed (R434 step 8). The model's own. -/
  freedAt : Option Nat := none
deriving DecidableEq, Repr, Inhabited

/-! ## Calibration (R373 to R394 of spec/12_calibration.md) -/

/-- A calibration run: of a whole die, or of the range of a CAL_RUN. -/
structure CalRun where
  die : Nat := 0
  /-- Its number among the runs begun. -/
  num : Nat := 0
  ref : Option DRef := none
  /-- Drawers not yet calibrated, and those calibrated. -/
  todo : List Nat := []
  done : List Nat := []
  tRef : Int := 0
  started : Nat := 0
  vrefFault : Bool := false
  high : Nat := 0
  clamped : Nat := 0
  notReached : Nat := 0
  worstQuality : Nat := 0
  residualHigh : Bool := false
deriving DecidableEq, Repr, Inhabited

/-- The temperatures of an array die and the start of its last whole-die run (Table 12.11). -/
structure DieCal where
  tRef : Int := 0
  refValid : Bool := false
  last : Nat := 0
deriving DecidableEq, Repr, Inhabited

/-- The calibration block: runs in progress, dies, and the last measurement of CAL_VREF. -/
structure Cal where
  runs : List CalRun := []
  /-- Runs begun since power-on. -/
  begun : Nat := 0
  dies : Tab DieCal := []
  /-- Microvolts and die of the last measurement. -/
  vref : Option (Nat × Nat) := none
deriving DecidableEq, Repr, Inhabited
/-! ## Optics (R290 to R318, R462 of spec/09_optical_fabric.md) -/

/-- The port states of Table 9.6. -/
inductive PortState
  | disabled | training | up | degraded | hold | down
deriving DecidableEq, Repr, Inhabited

/-- The code of a port state (Table 9.6). -/
def PortState.code : PortState → Nat
  | .disabled => 0 | .training => 1 | .up => 2 | .degraded => 3 | .hold => 4 | .down => 5

/-- How much of a packet in transit is here: all of it, its first flits with more to come, or its first flits with none to come (R314). -/
inductive Extent
  | whole | coming | broken
deriving DecidableEq, Repr, Inhabited

/-- A packet, its header and body in one, on its channel; with its arrival port where it is in transit (R299). A packet in transit may
leave while its flits still come: `bytes` are those here (R314). -/
structure Packet where
  bytes : List Byte
  vc : Nat
  arrival : Option Nat := none
  extent : Extent := .whole
deriving DecidableEq, Repr, Inhabited

/-- A data flit of the replay buffer: flit `idx` of a packet (R294). -/
structure SentFlit where
  seq : Nat
  pkt : Packet
  idx : Nat
deriving DecidableEq, Repr, Inhabited

/-- A receive lane, by wavelength (Table 9.12). -/
structure OptLane where
  eyeW : Nat := 0
  eyeH : Nat := 0
  lock : Bool := false
  failed : Bool := false
  ser : Nat := 0
deriving DecidableEq, Repr, Inhabited

/-- One port. -/
structure Port where
  st : PortState := .disabled
  /-- The state to return to after Hold; the Hold is the peer's. -/
  prior : PortState := .disabled
  peerHold : Bool := false
  /-- HELLO has been exchanged in the training in progress. -/
  hello : Bool := false
  /-- Wavelength of each logical lane, 15 where removed. -/
  txMap : List Nat := [0, 1, 2, 3, 4, 5, 6, 7]
  rxMap : List Nat := [0, 1, 2, 3, 4, 5, 6, 7]
  lanes : Tab OptLane := []
  /-- The logical lane for which the spare has been requested (R306). -/
  spareAsked : Option Nat := none
  neighbour : Nat := 0
  neighPort : Nat := 0
  rtt : Nat := 0
  downs : Nat := 0
  /-- Device time of the last link heartbeat, or of link up (R302). -/
  heardAt : Nat := 0
  /-- SEQ of the next data flit, the replay buffer oldest first, and whether a replay has begun since ACK advanced, and retries. -/
  txSeq : Nat := 0
  sent : List SentFlit := []
  replayed : Bool := false
  retries : Nat := 0
  /-- Device time of the last replay, and whether a NAK began it: a NAK and a timeout that coincide cause one (R294). -/
  replayAt : Option (Nat × Bool) := none
  /-- A replay came due while the port was in Hold; it begins when the Hold ends. -/
  replayDue : Bool := false
  /-- Credits held of each channel, and buffer space freed but not yet returned. -/
  credit0 : Nat := 0
  credit1 : Nat := 0
  owe0 : Nat := 0
  owe1 : Nat := 0
  /-- Waiting packets of each channel, oldest first, and the next flit of the first. -/
  queue0 : List Packet := []
  queue1 : List Packet := []
  idx0 : Nat := 0
  idx1 : Nat := 0
  /-- The last packet begun on each channel was a forwarded one: forwarded and local packets take turns (R314). -/
  fwd0 : Bool := false
  fwd1 : Bool := false
  /-- Receive lanes, by wavelength, found failing in a window that ended in Hold (Table 9.7). -/
  failedHold : List Nat := []
  /-- SEQ expected next, NAK to send, and data flits being discarded until it arrives. -/
  rxNext : Nat := 0
  nak : Bool := false
  discarding : Bool := false
  /-- Packets being received on each channel. -/
  asm0 : Option (List Byte) := none
  asm1 : Option (List Byte) := none
deriving DecidableEq, Repr, Inhabited

/-- One laser bay (Table 9.13). -/
structure Bay where
  /-- A source is in the slot; it reads as present once standby power is applied (R455). -/
  fitted : Bool := false
  present : Bool := false
  healthy : Bool := false
  safe : Bool := false
  temp : Nat := 0
  power : Nat := 0
deriving DecidableEq, Repr, Inhabited

/-- A packet delivered locally and not yet processed: it holds its flits of the port's buffer (R258, R297). -/
structure Inbound where
  port : Nat
  pkt : List Byte
  /-- It occupies the port's buffer; not so once held for a newer epoch. -/
  buffered : Bool := true
deriving DecidableEq, Repr, Inhabited

/-- The optics. -/
structure Opt where
  ports : Tab Port := []
  bays : Tab Bay := []
  /-- OPT_LASER_MAP: bay of each group, and the lowest-numbered healthy spare or 7. -/
  map : List Nat := [0, 1, 2, 3]
  spare : Nat := 4
  /-- Moves of faulty bays' groups in progress, as group and bay (R309). -/
  moving : List (Nat × Nat) := []
  /-- A planned transfer: group, released bay and spare (R310). -/
  transfer : Option (Nat × Nat × Nat) := none
  result : Nat := 0
  /-- Peer cache entries 16 to 16,383. -/
  peers : Tab DWord := []
  /-- Device time of the last NO_ROUTE or HOPS_EXPIRED entry by arrival port, 16 for originated packets (R314). -/
  dropLogged : Tab (Option Nat) := []
  inbox : List Inbound := []
deriving DecidableEq, Repr, Inhabited


/-! ## Gradient exchange, pairs and membership (R251 to R289, R462, R463 of spec/08_gradient_exchange_and_pairs.md) -/

/-- Bytes of a message: their offset in its body, their bytes, and where they stand in the staging area; none where they are not staged
(R258). -/
structure Piece where
  off : Nat := 0
  place : Option Nat := none
  data : List Byte := []
deriving DecidableEq, Repr, Inhabited

/-- A contribution's part that an owner holds: bucket tag, step bits, rank, part and epoch, and its bytes. The module's own are not
staged: it keeps them itself (R258). -/
structure StagedPart where
  tag : Nat
  step : Nat
  rank : Nat
  part : Nat
  epoch : Nat
  /-- Device time of its arrival (R259). -/
  came : Nat := 0
  pieces : List Piece := []
deriving DecidableEq, Repr, Inhabited

/-- A RESULT, CODES or ABORT message that waits for its bucket to open or to gather (R258). -/
structure EarlyMsg where
  type : Nat
  tag : Nat
  step : Nat
  rank : Nat
  part : Nat
  pieces : List Piece := []
deriving DecidableEq, Repr, Inhabited

/-- A message arriving in several packets: what names it, its pieces, and its length once known (R299). -/
structure Partial where
  type : Nat
  src : Nat
  tag : Nat
  part : Nat
  epoch : Nat
  step : Nat
  pieces : List Piece := []
  total : Option Nat := none
deriving DecidableEq, Repr, Inhabited

/-- A wait for the digests of a step whose partners differ (R281). -/
structure Diverge where
  step : Nat
  partner : List Byte
deriving DecidableEq, Repr, Inhabited

/-- The exchange state of a context (R254, R282). -/
structure Group where
  installed : Bool := false
  epoch : Nat := 0
  /-- Declarer of the epoch in force; none where INSTALL set it. -/
  declarer : Option Nat := none
  live : Nat := 0
  /-- The owner table in force, 64 entries as Table 8.17, and the one that comes into force at a step. -/
  owners : List Nat := []
  next : Option (List Nat × Nat) := none
  /-- RDX_ADMITn.RESULT. -/
  result : Nat := 0
  staged : List StagedPart := []
  early : List EarlyMsg := []
  partials : List Partial := []
  /-- Contributions counted as late: tag, step, rank and epoch, newest first (R262). -/
  lateSeen : List (Nat × Nat × Nat × Nat) := []
  /-- Contributions counted as duplicates, named alike, each with the parts of its copy seen so far (R262). -/
  dupSeen : List ((Nat × Nat × Nat × Nat) × Nat) := []
  /-- MASTER_DIGEST of the last training steps ended, newest first, the digests received by step and rank, and the waits, oldest
  first (R281). -/
  ownDigests : List (Nat × List Byte) := []
  digests : List (Nat × Nat × List Byte) := []
  diverge : List Diverge := []
  /-- GENVEC_CRC, STEPSIZE_CRC and RULE_INPUT_CRC of the training steps ended, and those of the partner's mirror blocks, of every step not
  yet compared, newest first (R277, R278). -/
  ownCrcs : List (Nat × Nat × Nat × Nat) := []
  mirrorCrcs : List (Nat × Nat × Nat × Nat) := []
deriving DecidableEq, Repr, Inhabited

/-- The pair channel (R277 to R279, R462, R463). -/
structure Pair where
  /-- RDX_PAIR_STATUS.STATE. -/
  st : Nat := 0
  /-- The port of the fallback route while the pair is degraded. -/
  route : Nat := 0
  probing : Bool := false
  /-- Device time from which silence counts. -/
  heard : Option Nat := none
  /-- Pair channel messages that wait for their port, oldest first. -/
  wait : List (List Byte × Nat) := []
  diverged : Bool := false
  mismatch : Bool := false
deriving DecidableEq, Repr, Inhabited

/-- A part to be summed on a unit: context, tag and part. -/
structure SumJob where
  ctx : Nat
  tag : Nat
  part : Nat
deriving DecidableEq, Repr, Inhabited

/-- One Credenza unit. -/
structure CrzUnit where
  queue : List SumJob := []
  resets : List Nat := []
deriving DecidableEq, Repr, Inhabited

/-- The exchange. -/
structure Rdx where
  groups : Tab Group := []
  pair : Pair := {}
  units : Tab CrzUnit := []
  /-- Messages of a newer epoch, oldest first (Table 8.9). -/
  held : List Inbound := []
  /-- Device time of the last reply to each address (R283). -/
  replied : Tab (Option Nat) := []
deriving DecidableEq, Repr, Inhabited

/-! ## The whole machine -/

/-- The state of the module, and the commands that wait. -/
structure State where
  mod : Module := {}
  /-- The error log, newest first, and the entries ever written (R418). -/
  log : List LogEntry := []
  logProd : Nat := 0
  /-- STATUS and STATUS_EVT of each block, by block code. -/
  flags : Tab StatusReg := []
  /-- 64-bit event counters by BAR0 offset. -/
  cnt : Tab DWord := []
  /-- Control registers by BAR0 offset, where they differ from their reset value. -/
  regs : Tab (Option DWord) := []
  nst : Nst := {}
  rcv : Rcv := {}
  fwu : Fwu := {}
  /-- Doorbell pages by context. -/
  doors : Tab Door := []
  hif : Hif := {}
  /-- NumVFs while VF Enable is set, else 0 (R320). -/
  vfs : Nat := 0
  copies : List CopyJob := []
  mem : MemBlk := {}
  trs : Tab TrsEngine := []
  drs : Tab DrsUnit := []
  steps : Tab StepCtx := []
  drawers : Tab Drawer := []
  chests : Tab Chest := []
  /-- DRW_MAPn, and the bytes of it staged for a context's next commit (R80). -/
  maps : Tab (BitVec 16384) := []
  stagedMaps : Tab (Tab (Option Byte)) := []
  cal : Cal := {}
  opt : Opt := {}
  rdx : Rdx := {}
  /-- Effects outside the module, newest first (the model's own field). -/
  out : List Out := []
  /-- The commands that wait, first in, first out. -/
  pending : List Instr := []
deriving DecidableEq, Repr

/-- A module with no standby power: Off, every register at its reset value, an empty image store, one vendor key fused (log
entry 6), no command waiting. -/
def State.reset : State := { fwu := { keyDigests := [some 0, none, none, none] } }

/-- Why the machine would stop with a fault. No command of this block faults: the type has one constructor, raised by nobody (safe). -/
inductive Fault
  /-- Raised by no meaning. Safe. -/
  | none
deriving DecidableEq, Repr

/-- Why a command has no meaning. -/
inductive Refusal
  /-- Raised by a dispatch arm of a command not modelled yet. Safe: nothing is claimed of it. -/
  | notModelled (mnemonic : String)
deriving DecidableEq, Repr

end Sys2Proof.Machine
end

