-- ==== Sys2Proof/Machine/Regs.lean ====
section
/-!
DEFINITION. Register offsets within BAR0, the reset value of every control register, and the shared reads and writes of
registers, flags and counters (R322 to R326 of spec/10_host_rings.md and the register tables of every chapter).
-/
namespace Sys2Proof.Machine

/-- The blocks that have STATUS and STATUS_EVT registers. -/
inductive Block
  | hif | drw | pln | trs | drs | rdx | opt | mem | cal | nst | rcv | fwu | pwr
deriving DecidableEq, Repr

/-- Code of a block in the flag table. -/
def Block.code : Block → Nat
  | .hif => 0 | .drw => 1 | .pln => 2 | .trs => 3 | .drs => 4 | .rdx => 5 | .opt => 6
  | .mem => 7 | .cal => 8 | .nst => 9 | .rcv => 10 | .fwu => 11 | .pwr => 12

/-- Offsets of a block's STATUS and STATUS_EVT registers from its base: those of OPT stand further on (Table 9.9). -/
def Block.statusAt : Block → Nat
  | .opt => 0x18 | .hif | .drw | .pln | .trs | .drs | .rdx | .mem | .cal | .nst | .rcv | .fwu | .pwr => 0x10
def Block.evtAt (b : Block) : Nat := b.statusAt + 8

/-- BAR0 offset of a block's window (Table 10.2). -/
def Block.base : Block → Nat
  | .hif => 0 | .drw => 0x0200000 | .pln => 0x0300000 | .trs => 0x0400000 | .drs => 0x0500000
  | .rdx => 0x0600000 | .opt => 0x0700000 | .mem => 0x0800000 | .cal => 0x0900000
  | .nst => 0x0A00000 | .rcv => 0x0B00000 | .fwu => 0x0C00000 | .pwr => 0x0D00000

/-- Every block. -/
def Block.all : List Block := [.hif, .drw, .pln, .trs, .drs, .rdx, .opt, .mem, .cal, .nst, .rcv, .fwu, .pwr]

/-! ## Event counters, 64 bits each -/

abbrev cHifFetched : Nat := 0x0000040
abbrev cHifRejected : Nat := 0x0000048
abbrev cHifBadAccess : Nat := 0x0000050
abbrev cHifPeak : Nat := 0x0000020
abbrev cDrwSat : Nat := 0x0200040
abbrev cDrwRetry : Nat := 0x0200048
abbrev cDrwExhaust : Nat := 0x0200050
abbrev cDrwCorr : Nat := 0x0200058
abbrev cDrwUncorr : Nat := 0x0200060
abbrev cDrwWdog : Nat := 0x0200068
abbrev cDrwSkip : Nat := 0x0200070
abbrev cPlnWritten : Nat := 0x0300040
abbrev cPlnUnchanged : Nat := 0x0300048
abbrev cPlnCycles : Nat := 0x0300050
abbrev cPlnRemaps : Nat := 0x0300058
abbrev cPlnFails : Nat := 0x0300060
abbrev cPlnWdog : Nat := 0x0300068
abbrev cCalRuns : Nat := 0x0900040
abbrev cCalHigh : Nat := 0x0900048
abbrev cCalClamp : Nat := 0x0900050
abbrev cCalWdog : Nat := 0x0900058
abbrev cRdxSent : Nat := 0x0600040
abbrev cRdxRecv : Nat := 0x0600048
abbrev cRdxBuckets : Nat := 0x0600050
abbrev cRdxAborts : Nat := 0x0600058
abbrev cRdxLate : Nat := 0x0600060
abbrev cRdxEpoch : Nat := 0x0600068
abbrev cRdxFence : Nat := 0x0600070
abbrev cRdxHold : Nat := 0x0600078
abbrev cRdxDup : Nat := 0x0600080
abbrev cRdxTakeovers : Nat := 0x0600088
abbrev cOptTx : Nat := 0x0700040
abbrev cOptRx : Nat := 0x0700048
abbrev cOptReplays : Nat := 0x0700050
abbrev cOptCrc : Nat := 0x0700058
abbrev cOptNoRoute : Nat := 0x0700060
abbrev cOptHops : Nat := 0x0700068
abbrev cOptFwd : Nat := 0x0700070
abbrev cOptBad : Nat := 0x0700078
abbrev cTrsTiles : Nat := 0x0400040
abbrev cTrsRetry : Nat := 0x0400048
abbrev cTrsExhaust : Nat := 0x0400050
abbrev cTrsOverflow : Nat := 0x0400058
abbrev cTrsWdog : Nat := 0x0400060
abbrev cDrsLaunches : Nat := 0x0500040
abbrev cDrsInstr : Nat := 0x0500048
abbrev cDrsWdog : Nat := 0x0500050
abbrev cDrsIlimit : Nat := 0x0500058
abbrev cDrsFaults : Nat := 0x0500060
abbrev cDrsEmpty : Nat := 0x0500068
abbrev cDrsPerm : Nat := 0x0500070
abbrev cMemCeCup : Nat := 0x0800040
abbrev cMemUeCup : Nat := 0x0800048
abbrev cMemCeHbm : Nat := 0x0800050
abbrev cMemUeHbm : Nat := 0x0800058
abbrev cMemRetHits : Nat := 0x0800060
abbrev cMemScrub : Nat := 0x0800068
abbrev cNstConversions : Nat := 0x0A00048
abbrev cRcvHutch : Nat := 0x0B00040
abbrev cRcvEngine : Nat := 0x0B00048
abbrev cRcvCtxWdog : Nat := 0x0B00050
abbrev cPwrOn : Nat := 0x0D00048

/-! ## Control registers -/

abbrev rHifCtrl : Nat := 0x0000008
abbrev rHifAperture : Nat := 0x0000028
abbrev rHifQuota (n : Nat) : Nat := 0x0001000 + 4 * n
abbrev rHifWinLock : Nat := 0x0001040
abbrev rHifWinBase (n w : Nat) : Nat := 0x0002000 + 0x100 * n + 0x10 * w
abbrev rHifWinLimit (n w : Nat) : Nat := 0x0002008 + 0x100 * n + 0x10 * w
abbrev rDrwCtrl : Nat := 0x0200008
abbrev rDrwWornLimit : Nat := 0x0200020
abbrev rPlnCtrl : Nat := 0x0300008
abbrev rPlnLagLimit (n : Nat) : Nat := 0x0302000 + 0x10 * n
abbrev rPlnLagStatus (n : Nat) : Nat := 0x0302008 + 0x10 * n
abbrev rCalCtrl : Nat := 0x0900008
abbrev rCalTrig : Nat := 0x0900020
abbrev rCalLimit : Nat := 0x0900028
abbrev rTrsCtrl : Nat := 0x0400008
abbrev rTrsWdogDefault : Nat := 0x0400020
abbrev rTrsExtBase (n : Nat) : Nat := 0x0420000 + 0x10 * n
abbrev rTrsExtCount (n : Nat) : Nat := 0x0420008 + 0x10 * n
abbrev rDrsCtrl : Nat := 0x0500008
abbrev rDrsWdogDefault : Nat := 0x0500020
abbrev rDrsIlimitDefault : Nat := 0x0500028
abbrev rDrsUnitOff : Nat := 0x0500030
abbrev rMemCtrl : Nat := 0x0800008
abbrev rMemDsel : Nat := 0x0800100
abbrev rNstCtrl : Nat := 0x0A00008
abbrev rNstAdcSel : Nat := 0x0A00020
abbrev rNstThrottle : Nat := 0x0A00030
abbrev rNstFilt (c : Nat) : Nat := 0x0A00100 + 4 * c
abbrev rNstRule (i : Nat) : Nat := 0x0A00200 + 8 * i
abbrev rNstScan (j : Nat) : Nat := 0x0A00400 + j
abbrev rRdxCtrl : Nat := 0x0600008
abbrev rRdxTimer0 : Nat := 0x0600020
abbrev rRdxTimer1 : Nat := 0x0600028
abbrev rRdxPair : Nat := 0x0600030
/-- First byte of a context's RDX_ registers. -/
abbrev rRdxCtx (n : Nat) : Nat := 0x0610000 + 0x1000 * n
abbrev rRdxGroup (n : Nat) : Nat := 0x0610000 + 0x1000 * n
abbrev rRdxNextEpoch (n : Nat) : Nat := 0x0610020 + 0x1000 * n
abbrev rRdxNextLive (n : Nat) : Nat := 0x0610028 + 0x1000 * n
abbrev rRdxNextStep (n : Nat) : Nat := 0x0610030 + 0x1000 * n
abbrev rRdxStageBase (n : Nat) : Nat := 0x0610040 + 0x1000 * n
abbrev rRdxStageSize (n : Nat) : Nat := 0x0610048 + 0x1000 * n
abbrev rRdxMirrorBase (n : Nat) : Nat := 0x0610060 + 0x1000 * n
abbrev rRdxCkpt (n : Nat) : Nat := 0x0610068 + 0x1000 * n
abbrev rRdxMember (n r : Nat) : Nat := 0x0610100 + 0x1000 * n + 4 * r
/-- Eight bytes of RDX_NEXT_OWNERn. -/
abbrev rRdxNextOwner (n j : Nat) : Nat := 0x0610240 + 0x1000 * n + 8 * j
abbrev rOptSelf : Nat := 0x0700008
abbrev rOptCtrl : Nat := 0x0700010
abbrev rOptSer : Nat := 0x0700028
abbrev rOptLaserCtrl : Nat := 0x0720008
abbrev rRdxMasterBase (n : Nat) : Nat := 0x0610050 + 0x1000 * n
abbrev rRdxMasterLen (n : Nat) : Nat := 0x0610058 + 0x1000 * n
abbrev rRcvCtrl : Nat := 0x0B00008
abbrev rRcvDumpCtrl : Nat := 0x0B00030
abbrev rRcvCtxWdog (n : Nat) : Nat := 0x0B00080 + 4 * n
abbrev rFwuCtrl : Nat := 0x0C00008
abbrev rFwuSrcAddr : Nat := 0x0C00030
abbrev rFwuLength : Nat := 0x0C00038
abbrev rPwrCtrl : Nat := 0x0D00008

/-- The word of a capability list entry that holds NEXT and ENABLE_VERSION (Table 10.8). -/
abbrev rCapNext (k : Nat) : Nat := 0x0000104 + 0x10 * k

/-- The constant words of the capability list (R345, R347): entries DEVICE_REV of stepping A1, MODULE, CONTEXTS and BINDING, each
with NEXT and ENABLE_VERSION 1. -/
def capReset (off : Nat) : Nat :=
  match (off - 0x0000100) / 4 with
  | 0 => 0x04010001 | 1 => 0x01000110 | 2 => 0x00000141
  | 4 => 0x04010002 | 5 => 0x01000120
  | 8 => 0x04010003 | 9 => 0x01000130 | 10 => 0x00100810 | 11 => 0x10000100
  | 12 => 0x03010004 | 13 => 0x01000000
  | _ => 0

/-- The block parameter registers (DRW_CAP to PWR_CAP), but for MEM_CAP, which depends on the variant. -/
def blockCap (off : Nat) : Nat :=
  match off / 0x100000 with
  | 2 => 0x0408084020084000 | 3 => 0x0064320323282010 | 4 => 0x007F01FF20010010 | 5 => 0x0810200008102040
  | 6 => 0x0040040008084004 | 7 => 0x0190400005080910 | 9 => 0x010000000A0C5008 | 10 => 0x00401000040C2018
  | 11 => 0x0384000401001000 | 12 => 0x0000000403001002 | 13 => 0x003C28090B540960
  | _ => 0

/-- Channel of slot `j` of the default scan list (R396): channel 3 at even slots, the other 23 in rising order at odd slots. -/
def scanDefault (j : Nat) : Nat :=
  if 46 ≤ j then 0 else if j % 2 = 0 then 3 else if j / 2 < 3 then j / 2 else j / 2 + 1

/-- The reset value of a control register (Tables 2.17, 3.14, 5.8, 6.12, 8.13, 9.9, 10.12, 11.7, 12.9, 13.6 and 14.9). -/
def regReset (off : Nat) : Nat :=
  if off = rDrwCtrl then 3
  else if off = rDrwWornLimit then 0x800
  else if off = rPlnCtrl then 0xD
  else if off = rCalCtrl then 1
  else if off = rCalTrig then 0x28
  else if off = rCalLimit then 0x16
  else if 0x0302000 ≤ off ∧ off < 0x0302100 ∧ off % 16 = 0 then 4
  else if off = rRdxCtrl then 0xC
  else if off = rRdxTimer0 then 0x03E803E801F41388
  else if off = rRdxTimer1 then 0x000A03E8
  else if off = rOptCtrl then 0x03540000
  else if off = rOptSer then 0x000186A0
  else if off = rTrsWdogDefault then 0x64
  else if off = rDrsWdogDefault then 0x64
  else if off = rDrsIlimitDefault then 0x05F5E100
  else if off = rMemCtrl then 0x03E80001
  else if off = rNstCtrl then 0x2E01
  else if off = rNstThrottle then 0x1000
  else if off = rRcvCtrl then 7
  else if 0x0001004 ≤ off ∧ off < 0x0001040 then 0x400
  else if 0x0A00100 ≤ off ∧ off < 0x0A00160 then 4
  else if 0x0A00400 ≤ off ∧ off < 0x0A00440 then scanDefault (off - 0x0A00400)
  else if 0x0B00080 ≤ off ∧ off < 0x0B000C0 then 0x3C
  else if 0x0000100 ≤ off ∧ off < 0x000013C ∧ off % 4 = 0 then capReset off
  else if off % 0x100000 = 0 then blockCap off
  else 0

/-- The value of a control register. -/
def reg (s : State) (off : Nat) : Nat :=
  match tabGet none s.regs off with
  | some v => v.toNat
  | none => regReset off

/-- Give a control register a value. -/
def setReg (off v : Nat) (s : State) : State :=
  { s with regs := tabSet none s.regs off (if v = regReset off then none else some (BitVec.ofNat 64 v)) }

/-- Bit `i` of a control register. -/
def regBit (s : State) (off i : Nat) : Bool := (reg s off).testBit i

/-- The flags of a block. -/
def flagsOf (s : State) (b : Block) : StatusReg := tabGet {} s.flags b.code

/-- An event sets its flag (R325). -/
def setFlag (b : Block) (bit : Nat) (s : State) : State :=
  { s with flags := tabMod {} s.flags b.code fun r => { r with status := r.status ||| BitVec.ofNat 32 (2 ^ bit) } }

/-- Add to an event counter. -/
def bump (off n : Nat) (s : State) : State :=
  { s with cnt := tabMod 0 s.cnt off (· + BitVec.ofNat 64 n) }

/-- The value of an event counter. -/
def counter (s : State) (off : Nat) : Nat := (tabGet 0 s.cnt off).toNat

/-- NST_TIME, whole microseconds since standby power (R397). -/
def nstTime (s : State) : Nat := s.mod.nstNs / 1000

/-- Main power is on (Table 1.7). -/
def mainPower (s : State) : Bool :=
  match s.mod.st with
  | .booting | .ready | .running | .fenced | .recovery => true
  | _ => false

/-- Descriptor rings are serviced (Table 1.7). -/
def inService (s : State) : Bool :=
  match s.mod.st with
  | .ready | .running | .fenced => true
  | _ => false

end Sys2Proof.Machine
end

