-- ==== Sys2Proof/Machine/Clock.lean ====
section
/-!
DEFINITION. What a nanosecond with no command waiting does: time advances and busy engines count cycles (R18 and R19 of
spec/01_module_overview.md; R180, R215, R397).
-/
namespace Sys2Proof.Machine

/-- Add the half core cycles of one nanosecond, at 1.5 GHz, to an engine that executes. -/
def busyHalves (busy : Bool) (n : Nat) : Nat := if busy then n + 3 else n

/-- One nanosecond passes: Nightstand's time with standby power, device time with the root PLL locked, and the cycle counts of the
Trestle engines and Dresser units that execute. -/
def tick (s : State) : State :=
  { s with
    mod := { s.mod with
      nstNs := if s.mod.st = .off then s.mod.nstNs else s.mod.nstNs + 1
      devTime := if s.mod.pllLocked then s.mod.devTime + 1 else s.mod.devTime }
    trs := tabMap {} (fun _ e => { e with halfCycles := busyHalves (!e.queue.isEmpty) e.halfCycles }) s.trs
    drs := tabMap {} (fun _ n => { n with halfCycles := busyHalves (!n.queue.isEmpty) n.halfCycles }) s.drs }

end Sys2Proof.Machine
end

