-- ==== Sys2Proof/Config.lean ====
section
/-!
DEFINITION. What the module's variant fixes, and the free values: constants with no body, of which nothing can be proved.
-/
namespace Sys2Proof

/-- The variant: true on CQ9-H512-L, false on CQ9-H384-L (Table 0.1, R350). Log entry 2. -/
opaque Config.hbm512 : Bool

/-- Byte `i` of the vendor diagnostic data of crash dump number `n`, whose layout the manual does not define (R420). Log entry 3. -/
opaque Config.vendorByte (n i : Nat) : BitVec 8

/-- Which of the FP32 values within 1 unit in the last place of the exact result TEX2 (`true`) or TLG2 (`false`) delivers
for operand bits `x` (R189 bounds the result and fixes no more): its place in the list of those values, modulo the list's
length. Log entry 4. -/
opaque Config.ulpChoice (isExp : Bool) (x : Nat) : Nat

/-- REMAP_CRC of a trim image: the check value of a Drawer's column remap table, given as pairs of a column and its spare.
The manual calls it opaque to software and fixes no function (Table 12.5). Log entry 5. -/
opaque Config.remapCrc (table : List (Nat × Nat)) : BitVec 32

/-- Nanoseconds for which configuration requests are answered with Configuration Request Retry Status, modulo 100,000,001: Table 16.4 bounds
the time by 100 ms and fixes no more. Log entry 209. -/
opaque Config.configDelay : Nat

end Sys2Proof
end

