-- ==== Sys2Proof/Machine/Ops.lean ====
section
/-!
DEFINITION. The operations every command shares: the error log, device memory and its check codes, protection windows,
descriptors, completions, semaphores and histogram records.
-/
namespace Sys2Proof.Machine

/-! ## Status codes (Table 10.10) -/

abbrev stSuccess : Nat := 0x0000
abbrev stLengthExceeds : Nat := 0x0101
abbrev stOpcodeInvalid : Nat := 0x0102
abbrev stContextMismatch : Nat := 0x0103
abbrev stCopyInvalid : Nat := 0x0104
abbrev stHostFault : Nat := 0x0105
abbrev stRingInvalid : Nat := 0x0106
abbrev stStepInvalid : Nat := 0x0181
abbrev stStepSequence : Nat := 0x0182
abbrev stSubstInvalid : Nat := 0x0183
abbrev stSubstRange : Nat := 0x0184
abbrev stTieSpan : Nat := 0x0185
abbrev stRuleInputStale : Nat := 0x0186
abbrev stStepsizeStale : Nat := 0x0187
abbrev stStepsizeInvalid : Nat := 0x0188
abbrev stStepMode : Nat := 0x0189
abbrev stDrawerUnmapped : Nat := 0x0201
abbrev stRowgroupInvalid : Nat := 0x0202
abbrev stConvSaturated : Nat := 0x0203
abbrev stFieldInvalid : Nat := 0x0204
abbrev stRangeInvalid : Nat := 0x0205
abbrev stGenerationAbsent : Nat := 0x0206
abbrev stLevelCheck : Nat := 0x0207
abbrev stTrimInvalid : Nat := 0x0208
abbrev stProgramFail : Nat := 0x0301
abbrev stPlaneHeld : Nat := 0x0302
abbrev stPlaneLag : Nat := 0x0303
abbrev stPlaneBusy : Nat := 0x0304
abbrev stDrawerWorn : Nat := 0x0305
abbrev stRemapRefused : Nat := 0x0306
abbrev stImageIncomplete : Nat := 0x0307
abbrev stProgramAborted : Nat := 0x0308
abbrev stRetryExhausted : Nat := 0x0401
abbrev stOutputOverflow : Nat := 0x0402
abbrev stPermRange : Nat := 0x0403
abbrev stRoundingInvalid : Nat := 0x0404
abbrev stFormatUnsupported : Nat := 0x0405
abbrev stShapeInvalid : Nat := 0x0501
abbrev stLayoutInvalid : Nat := 0x0502
abbrev stOperandOverlap : Nat := 0x0503
abbrev stExtInvalid : Nat := 0x0504
abbrev stEngineOff : Nat := 0x0505
abbrev stProgramInvalid : Nat := 0x0601
abbrev stIllegalInstr : Nat := 0x0602
abbrev stAccessFault : Nat := 0x0603
abbrev stUnitOff : Nat := 0x0604
abbrev stBucketAbort : Nat := 0x0701
abbrev stEpochStale : Nat := 0x0702
abbrev stMirrorDiverge : Nat := 0x0703
abbrev stTagInUse : Nat := 0x0704
abbrev stGroupInvalid : Nat := 0x0705
abbrev stBucketInvalid : Nat := 0x0706
abbrev stReducerOff : Nat := 0x0707
abbrev stLinkDown : Nat := 0x0801
abbrev stReplayExhausted : Nat := 0x0802
abbrev stLaneSpared : Nat := 0x0803
abbrev stLaneRemoved : Nat := 0x0804
abbrev stTrainFail : Nat := 0x0805
abbrev stAddrConflict : Nat := 0x0806
abbrev stNoRoute : Nat := 0x0807
abbrev stHopsExpired : Nat := 0x0808
abbrev stLaserFault : Nat := 0x0809
abbrev stLaserTransfer : Nat := 0x080A
abbrev stScrubUncorrectable : Nat := 0x0901
abbrev stEccCorrected : Nat := 0x0902
abbrev stEccUncorrectable : Nat := 0x0903
abbrev stRetireRefused : Nat := 0x0904
abbrev stCalResidualHigh : Nat := 0x0A01
abbrev stCalVrefFault : Nat := 0x0A02
abbrev stTrimRestoreInvalid : Nat := 0x0A03
abbrev stImageSignature : Nat := 0x0B01
abbrev stUpdateRefused : Nat := 0x0B02
abbrev stImageCrc : Nat := 0x0B03
abbrev stImageDecrypt : Nat := 0x0B04
abbrev stWatchdog : Nat := 0x0C01

/-! ## The error log (R15, R418) -/

/-- The order of entries of one nanosecond: SOURCE, then ENGINE, then CODE (R15). -/
def LogEntry.before (a b : LogEntry) : Bool :=
  decide (a.source < b.source)
    || (a.source == b.source && (decide (a.engine < b.engine)
      || (a.engine == b.engine && decide (a.code < b.code))))

/-- Put an entry into the log, newest first, behind the entries of its nanosecond that R15 places after it. -/
def insertLog (e : LogEntry) : List LogEntry → List LogEntry
  | [] => [e]
  | f :: fs => if e.seen = f.seen ∧ e.before f then f :: insertLog e fs else e :: f :: fs

/-- Write an entry: TIME is device time and RESET_GEN the count of device-level resets (R418, R419). Two entries are of one
nanosecond when they are written at one nanosecond of standby power, whether device time runs or not (DEDUCED, log entry 12). -/
def logEntry (e : LogEntry) (s : State) : State :=
  { s with
    log := (insertLog { e with time := s.mod.devTime, gen := s.mod.resetGen, seen := s.mod.nstNs } s.log).take 4096
    logProd := s.logProd + 1 }

/-- The fields that name a descriptor (R419). -/
def LogEntry.naming (e : LogEntry) (r : DRef) : LogEntry :=
  { e with descValid := true, ctxValid := true, ctx := r.ctx, ring := r.ring, descIndex := r.idx }

/-! ## Contexts, rings and semaphores -/

def door (s : State) (ctx : Nat) : Door := tabGet {} s.doors ctx

def modDoor (ctx : Nat) (f : Door → Door) (s : State) : State := { s with doors := tabMod {} s.doors ctx f }

def ringOf (s : State) (ctx ring : Nat) : Ring := tabGet {} (door s ctx).rings ring

def modRing (ctx ring : Nat) (f : Ring → Ring) (s : State) : State :=
  modDoor ctx (fun d => { d with rings := tabMod {} d.rings ring f }) s

/-- Semaphore `i` of a context (R337). -/
def sem (s : State) (ctx i : Nat) : Word := tabGet 0 (door s ctx).sems i

def setSem (ctx i : Nat) (v : Word) (s : State) : State :=
  modDoor ctx (fun d => { d with sems := tabSet 0 d.sems i v }) s

/-- HEAD: the oldest descriptor whose completion has not been written (R333). -/
def Ring.head (r : Ring) : Nat :=
  match r.opened with
  | d :: _ => d.idx
  | [] => r.fetched

/-- Entries of the ring (R330). -/
def Ring.size (r : Ring) : Nat := 2 ^ r.sizeLog2

/-- The function a context is bound to: k for virtual function k, 0 for the physical function (R320). -/
def functionOf (s : State) (ctx : Nat) : Nat := if 1 ≤ ctx ∧ ctx ≤ s.vfs then ctx else 0

def stepCtx (s : State) (ctx : Nat) : StepCtx := tabGet {} s.steps ctx

def modStepCtx (ctx : Nat) (f : StepCtx → StepCtx) (s : State) : State :=
  { s with steps := tabMod {} s.steps ctx f }

/-- A step of the context is open (R223). -/
def stepOpen (s : State) (ctx : Nat) : Bool :=
  match (stepCtx s ctx).opened with
  | some o => o.begun
  | none => false

/-- The context's current step number: the open step, else the last begun, else 0 (R140, R219, R223, R225). A step whose commit
still waits is not open. -/
def curStep (s : State) (ctx : Nat) : Nat :=
  match (stepCtx s ctx).opened with
  | some o => if o.begun then o.num else (stepCtx s ctx).last.getD 0
  | none => (stepCtx s ctx).last.getD 0

/-- The job at the head of a Trestle engine's queue begins, keyed by its context's step number now (R140, R225; DEDUCED, log entry 45). -/
def beginTrs (u : Nat) (s : State) : State :=
  { s with trs := tabMod {} s.trs u fun e => match e.queue with
    | j :: js => { e with queue := { j with step := some (j.step.getD (curStep s j.ref.ctx)) } :: js }
    | [] => e }

/-- Change the open step, if there is one. -/
def modOpen (ctx : Nat) (f : OpenStep → OpenStep) (s : State) : State :=
  modStepCtx ctx (fun c => { c with opened := c.opened.map f }) s

/-- An effect outside the module. -/
def emit (o : Out) (s : State) : State := { s with out := o :: s.out }

/-- Function `fn` reads `n` bytes of host memory, in reads of at most 4,096 bytes (R319, R320). -/
def hostReads (fn addr n : Nat) (s : State) : State :=
  { s with out := ((List.range (ceilDiv n 4096)).map fun i =>
      Out.hostRead fn (addr + 4096 * i) (min 4096 (n - 4096 * i))).reverse ++ s.out }

/-! ## Drawers and their maps (R10, R80) -/

def drawer (s : State) (d : Nat) : Drawer := tabGet {} s.drawers d

/-- The map in force of a context. -/
def mapOf (s : State) (ctx : Nat) : BitVec 16384 := tabGet 0 s.maps ctx

/-- Byte `i` of a map takes a value; the bits of retired Drawers stay 0 (Table 2.18). -/
def mapByte (s : State) (i : Nat) (v : Byte) (m : BitVec 16384) : BitVec 16384 :=
  (List.range 8).foldl (fun m b =>
    let bit : BitVec 16384 := (1 : BitVec 16384) <<< (8 * i + b)
    if v.getLsbD b && !(drawer s (8 * i + b)).retired then m ||| bit else m &&& ~~~bit) m

/-- Staged map writes of a context take effect. -/
def applyStagedMaps (ctx : Nat) (s : State) : State :=
  let staged := tabGet [] s.stagedMaps ctx
  let m := staged.foldl (fun m e => match e.2 with | some v => mapByte s e.1 v m | none => m) (mapOf s ctx)
  { s with maps := tabSet 0 s.maps ctx m, stagedMaps := tabSet [] s.stagedMaps ctx [] }

/-! ## Address map and protection windows (R329, R350) -/

/-- First address of HBM stack 0. -/
abbrev hbmBase : Nat := 0x10000000000
abbrev hbmSlot : Nat := 0x1000000000
abbrev cupEnd : Nat := 0x180000000

/-- The backed bytes of an HBM slot are its lowest 48 GiB, or all 64 GiB on H512 (R350). -/
def slotBacked (off : Nat) : Bool := decide (off < 0xC00000000) || (decide (off < hbmSlot) && Config.hbm512)

/-- Some memory backs the address (Table 11.1). -/
def backed (a : Nat) : Bool :=
  decide (a < cupEnd)
    || (decide (hbmBase ≤ a) && decide (a < hbmBase + 8 * hbmSlot) && slotBacked ((a - hbmBase) % hbmSlot))

/-- Every byte of a range is backed (R329). -/
def rangeBacked (a n : Nat) : Bool :=
  n == 0
    || (decide (a + n ≤ cupEnd))
    || (backed a && backed (a + n - 1) && decide (hbmBase ≤ a)
        && (decide ((a - hbmBase) / hbmSlot = (a + n - 1 - hbmBase) / hbmSlot) || Config.hbm512))

/-- Bytes a dump region starts at within stack 0 (R420). -/
def dumpBase : Nat := if Config.hbm512 then 0x10FF0000000 else 0x10BF0000000

/-- The address lies in the crash dump region, the highest 256 MiB of stack 0 (R353). -/
def inDump (a : Nat) : Bool := decide (dumpBase ≤ a) && decide (a < dumpBase + 0x10000000)

/-- Cupboard slice 95 holds the trim table (R351). -/
abbrev trimBase : Nat := 0x17C000000

/-- Window `w` of a context: first byte, last byte, READ, WRITE; none where it is not valid (R328). -/
def window (s : State) (ctx w : Nat) : Option (Nat × Nat × Bool × Bool) :=
  let b := reg s (rHifWinBase ctx w)
  let l := reg s (rHifWinLimit ctx w)
  let rd := b.testBit 0
  let wr := b.testBit 1
  if (rd || wr) ∧ b / 4096 ≤ l / 4096 then some (b / 4096 * 4096, l / 4096 * 4096 + 4095, rd, wr) else none

/-- An extent is permitted: one valid window holds its first and last byte and grants what it needs, and memory backs
all of it; an extent of zero bytes is not checked (R329). -/
def permitted (s : State) (ctx a n : Nat) (rd wr : Bool) : Bool :=
  n == 0 || (decide (a + n ≤ 2 ^ 64) && rangeBacked a n
    && (List.range 16).any fun w => match window s ctx w with
      | some (lo, hi, r, v) => decide (lo ≤ a) && decide (a + n - 1 ≤ hi) && (!rd || r) && (!wr || v)
      | none => false)

/-! ## Device memory (R354 to R361) -/

/-- Base and length of the codeword that holds an address: 8 bytes in Cupboard, 32 in HBM (R354, R355). -/
def codeword (a : Nat) : Nat × Nat := if a < hbmBase then (a / 8 * 8, 8) else (a / 32 * 32, 32)

/-- The codeword is uncorrectable. -/
def uncorrectable (m : MemBlk) (a : Nat) : Bool := tabGet none m.errs (codeword a).1 == some true

/-- The byte a reader receives: 0xFF from an uncorrectable codeword (R356). -/
def memByte (m : MemBlk) (a : Nat) : Byte := if uncorrectable m a then 0xFF else tabGet 0 m.cells a

/-- The `n` bytes a reader receives at an address. -/
def readMem (s : State) (a n : Nat) : List Byte := (List.range n).map fun i => memByte s.mem (a + i)

/-- The `n`-byte little-endian number a reader receives at an address. -/
def readNat (s : State) (a n : Nat) : Nat := leNat (readMem s a n)

/-- Cells for bytes stored at `a`, leaving out those equal to the fill value. -/
def cellsOf : Nat → List Byte → Tab Byte
  | _, [] => []
  | a, b :: bs => if b = 0 then cellsOf (a + 1) bs else (a, b) :: cellsOf (a + 1) bs

/-- Memory with bytes stored at `a`. -/
def memStore (m : Tab Byte) (a : Nat) (bs : List Byte) : Tab Byte :=
  m.filter (fun c => decide (c.1 < a)) ++ cellsOf a bs ++ m.filter (fun c => decide (a + bs.length ≤ c.1))

/-- The canonical form of device memory: bytes and codewords in error by strictly rising address, no byte listed that equals the
fill value and no codeword listed that is valid. -/
def Memory.wf (m : MemBlk) : Bool := tabWf 0 m.cells && tabWf none m.errs

/-- Who makes an access, for the error log (R360). -/
structure Access where
  source : Nat
  engine : Nat
  ref : Option DRef := none
deriving DecidableEq, Repr

/-- The 2 MiB page or 64 KiB block of an address (R360). -/
def pageOf (a : Nat) : Nat := if a < hbmBase then a / 0x10000 * 0x10000 else a / 0x200000 * 0x200000

/-- The retirement entry of a kind that covers an address (R352, Table 11.8). -/
def retirementOf (kind a : Nat) : Retirement :=
  if kind = 1 then
    let stack := hbmBase + (a - hbmBase) / hbmSlot * hbmSlot
    let x := a - stack
    ⟨1, stack + bitsOf x 12 8 * 256 + (x / 0x200000 % 64) * 0x200000⟩
  else ⟨kind, pageOf a⟩

/-- A retirement covers an address (Table 11.5). -/
def Retirement.covers (r : Retirement) (a : Nat) : Bool :=
  if r.kind = 1 then
    decide (hbmBase ≤ a) && decide ((r.addr - hbmBase) / hbmSlot = (a - hbmBase) / hbmSlot)
      && decide ((r.addr - hbmBase) % hbmSlot / 0x200000 % 64 = (a - hbmBase) % hbmSlot / 0x200000 % 64)
  else decide (r.addr = pageOf a) && (if r.kind = 2 then decide (a < hbmBase) else decide (hbmBase ≤ a))

/-- The address lies in a retired range (R361). -/
def retired (m : MemBlk) (a : Nat) : Bool := m.rtab.any (·.covers a)

/-- Mark an open descriptor as having read a poisoned codeword (R357). -/
def markPoisoned (r : DRef) (s : State) : State :=
  modRing r.ctx r.ring (fun q => { q with
    opened := q.opened.map fun d => if d.idx = r.idx then { d with poisoned := true } else d }) s

/-- A corrected error may be logged: at most once per page or block in each CE_INTERVAL_MS (R360). -/
def ceLogDue (s : State) (cw : Nat) : Bool :=
  regBit s rMemCtrl 0 && (match tabGet none s.mem.ceLogged (pageOf cw) with
    | none => true
    | some t => decide (t + reg s rMemCtrl / 0x10000 * 1000000 ≤ s.mod.devTime))

/-- Count and log one codeword found in error (R360, R361). -/
def noteError (acc : Access) (cw : Nat) (ue : Bool) (s : State) : State :=
  let cup := decide (cw < hbmBase)
  let s := if ue then bump (if cup then cMemUeCup else cMemUeHbm) 1 (setFlag .mem 1 s)
           else bump (if cup then cMemCeCup else cMemCeHbm) 1 (setFlag .mem 0 s)
  let isRet := retired s.mem cw
  let s := if isRet then bump cMemRetHits 1 s else s
  let e : LogEntry := { code := if ue then stEccUncorrectable else stEccCorrected, source := acc.source, engine := acc.engine, detail := cw }
  let e := match acc.ref with | some r => e.naming r | none => e
  if isRet && !regBit s rMemCtrl 1 then s
  else if ue then logEntry e s
  else if ceLogDue s cw then
    logEntry e { s with mem := { s.mem with ceLogged := tabSet none s.mem.ceLogged (pageOf cw) (some s.mod.devTime) } }
  else s

/-- The codewords in error that a range touches. -/
def errorsIn (m : MemBlk) (a n : Nat) : List (Nat × Bool) :=
  m.errs.filterMap fun e => match e.2 with
    | some ue => if n ≠ 0 ∧ a < e.1 + (codeword e.1).2 ∧ e.1 < a + n then some (e.1, ue) else none
    | none => none

/-- The codewords in error that any of several ranges touches, each once. -/
def errorsAmong (m : MemBlk) (rs : List (Nat × Nat)) : List (Nat × Bool) :=
  m.errs.filterMap fun e => match e.2 with
    | some ue => if rs.any fun r => r.2 ≠ 0 ∧ r.1 < e.1 + (codeword e.1).2 ∧ e.1 < r.1 + r.2 then some (e.1, ue) else none
    | none => none

/-- Count and log errors met by an access; an uncorrectable one marks the descriptor that consumes it (R357, R360). -/
def noteErrors (acc : Access) (es : List (Nat × Bool)) (s : State) : State :=
  es.foldl (fun s e =>
    let s := noteError acc e.1 e.2 s
    match acc.ref, e.2 with
    | some r, true => markPoisoned r s
    | _, _ => s) s

/-- Record the reading of a range: every codeword in error is counted and logged, and an uncorrectable one marks the
descriptor that consumes it (R356, R357, R360). -/
def noteRead (acc : Access) (a n : Nat) (s : State) : State :=
  noteErrors acc (errorsIn s.mem a n) s

/-- Store bytes. A codeword covered whole becomes valid; one covered in part is read and merged, which counts and logs
an error found there and leaves an uncorrectable one poisoned (R358). -/
def writeMem (acc : Access) (a : Nat) (bs : List Byte) (s : State) : State :=
  let n := bs.length
  let s := (errorsIn s.mem a n).foldl (fun s e =>
    let whole := decide (a ≤ e.1) && decide (e.1 + (codeword e.1).2 ≤ a + n)
    let s := if whole then s else noteError acc e.1 e.2 s
    if whole || !e.2 then { s with mem := { s.mem with errs := tabSet none s.mem.errs e.1 none } } else s) s
  { s with mem := { s.mem with cells := memStore s.mem.cells a bs } }

/-! ## Descriptors (R334 to R338) -/

/-- Header fields of a descriptor (Table 10.3). -/
def dOpcode (b : List Byte) : Nat := fieldAt b 0 1
def dContext (b : List Byte) : Nat := fieldAt b 1 1 % 16
def dWaitEn (b : List Byte) : Bool := (fieldAt b 2 2).testBit 0
def dFence (b : List Byte) : Bool := (fieldAt b 2 2).testBit 1
def dInterrupt (b : List Byte) : Bool := (fieldAt b 2 2).testBit 2
def dNoHist (b : List Byte) : Bool := (fieldAt b 2 2).testBit 3
def dWaitSem (b : List Byte) : Nat := fieldAt b 4 1
def dSignalSem (b : List Byte) : Nat := fieldAt b 5 1
def dSignalAdd (b : List Byte) : Nat := fieldAt b 6 2
def dWaitValue (b : List Byte) : Nat := fieldAt b 8 4
def dUserTag (b : List Byte) : Nat := fieldAt b 12 4

/-- The opcodes of Table 10.4, with those that Chapters 11 and 12 define. -/
def opcodeValid (o : Nat) : Bool :=
  [0x01, 0x03, 0x11, 0x12, 0x13, 0x21, 0x22, 0x23, 0x24, 0x25, 0x26, 0x27, 0x31, 0x41, 0x51, 0x52,
   0x61, 0x62, 0x71, 0x72, 0x73].contains o

/-- A wait is satisfied when (counter − WAIT_VALUE) mod 2^32 is below 2^31 (R337). -/
def waitSatisfied (s : State) (ctx : Nat) (b : List Byte) : Bool :=
  !dWaitEn b || decide ((sem s ctx (dWaitSem b) - BitVec.ofNat 32 (dWaitValue b)).toNat < 2 ^ 31)

/-- No step descriptor of the ring that holds later ones back is open: STEP_BEGIN and STEP_END (R223, R224). -/
def stepHolds (r : Ring) : Bool :=
  r.opened.any fun d => d.dispatched && (dOpcode d.bytes == 0x11 || dOpcode d.bytes == 0x13)

/-- The next descriptor of a ring to dispatch, where R336, R223 and R224 let it be dispatched now. -/
def dispatchReady (s : State) (ctx ring : Nat) : Option Desc :=
  let r := ringOf s ctx ring
  if !inService s then none
  else match r.opened.find? (fun d => !d.dispatched) with
    | none => none
    | some d =>
      if waitSatisfied s ctx d.bytes && (!dFence d.bytes || d.idx == r.head) && !stepHolds r then some d else none

/-- From the acceptance of an ACTIVATE until fetch resumes no STEP_BEGIN is dispatched (R434 steps 1 and 6). -/
def beginsHeld (s : State) : Bool := s.fwu.act == .draining || s.fwu.act == .reloading

/-- The next descriptor of a ring, where it may be dispatched now (R336, R434). -/
def dispatchable (s : State) (ctx ring : Nat) : Option Desc :=
  (dispatchReady s ctx ring).filter fun d => !(dOpcode d.bytes == 0x11 && beginsHeld s)

/-- The descriptor is accepted by its engine (R336). -/
def markDispatched (ctx ring idx : Nat) (s : State) : State :=
  modRing ctx ring (fun q => { q with
    opened := q.opened.map fun d => if d.idx = idx then { d with dispatched := true } else d }) s

/-- Descriptors in flight, in one context or module-wide (R338). -/
def Door.inflight (d : Door) : Nat :=
  (d.rings.map fun e => (e.2.opened.filter (·.counted)).length).sum

def inflight (s : State) : Nat := (s.doors.map fun e => e.2.inflight).sum

/-- The open descriptor a reference names. -/
def findDesc (s : State) (r : DRef) : Option Desc := (ringOf s r.ctx r.ring).opened.find? (·.idx == r.idx)

/-! ## Completion (R337, R339, R340) -/

/-- The 32 bytes of a completion record (Table 10.6). -/
def completionRecord (s : State) (r : DRef) (b : List Byte) (status : Nat) (tail : List Byte) : List Byte :=
  let phase := if r.idx / (ringOf s r.ctx r.ring).size % 2 = 0 then 1 else 0
  leBytes 2 status ++ leBytes 1 (dOpcode b) ++ leBytes 1 (r.ctx + 16 * r.ring + 128 * phase)
    ++ leBytes 4 r.idx ++ leBytes 4 (dUserTag b) ++ leBytes 4 s.mod.devTime ++ padTo 16 tail

/-- Write a completion record in two posted writes, byte 3 last (R339). -/
def writeCompletion (r : DRef) (b : List Byte) (status : Nat) (tail : List Byte) (s : State) : State :=
  let rec32 := completionRecord s r b status tail
  let q := ringOf s r.ctx r.ring
  let addr := q.comp + 32 * (r.idx % q.size)
  let fn := functionOf s r.ctx
  emit (.hostWrite fn (addr + 3) [byteAt rec32 3] none false) (emit (.hostWrite fn addr rec32 (some 3) false) s)

/-- Add SIGNAL_ADD to SIGNAL_SEM, modulo 2^32 (R337). -/
def signalSem (ctx : Nat) (b : List Byte) (s : State) : State :=
  setSem ctx (dSignalSem b) (sem s ctx (dSignalSem b) + BitVec.ofNat 32 (dSignalAdd b)) s

/-- A function's MSI-X vector among the vectors of all functions. -/
def vectorKey (fn vector : Nat) : Nat := 128 * fn + vector

/-- Fire an MSI-X vector: a masked one sets its pending bit instead of sending (R340). -/
def fireVector (fn vector : Nat) (s : State) : State :=
  if tabGet false s.hif.masked (vectorKey fn vector) then
    { s with hif := { s.hif with waiting := tabSet false s.hif.waiting (vectorKey fn vector) true } }
  else emit (.msix fn vector) s

/-- Fire the ring's MSI-X vector when the descriptor asks for it (R340). -/
def fireInterrupt (r : DRef) (b : List Byte) (s : State) : State :=
  if dInterrupt b then fireVector (functionOf s r.ctx) (ringOf s r.ctx r.ring).vector s else s

/-- A command waits in the queue: it belongs to the same nanosecond as the one in hand when it needs no tick between (log
entry 12). -/
def waits (s : State) (i : Instr) : Bool := s.pending.contains i

/-- Ring index `i` follows ring index `j` (R330). -/
def follows (i j : Nat) : Bool := decide (0 < (i + 2 ^ 32 - j) % 2 ^ 32) && decide ((i + 2 ^ 32 - j) % 2 ^ 32 < 2 ^ 31)

/-- Count a status in the open step's record when the descriptor belongs to that step: it follows the STEP_BEGIN (Table 7.10). -/
def countStepStatus (r : DRef) (status : Nat) (s : State) : State :=
  if status = 0 ∨ (stepCtx s r.ctx).ring ≠ some r.ring then s
  else modOpen r.ctx (fun o =>
    if o.begun && follows r.idx o.beginIdx then { o with
      errCount := o.errCount + 1
      firstErr := if o.firstErr = 0 then status else o.firstErr
      firstErrIdx := if o.firstErr = 0 then r.idx else o.firstErrIdx } else o) s

/-- An RDX_GATHER that ends without having started is recorded in the entry of its tag, where the tag has been used (Table 8.6). -/
def noteGatherEnd (r : DRef) (b : List Byte) (status : Nat) (s : State) : State :=
  if dOpcode b ≠ 0x52 ∨ (stepCtx s r.ctx).ring ≠ some r.ring then s
  else modOpen r.ctx (fun o =>
    match tabGet none o.buckets (fieldAt b 16 2 % 1024) with
    | some k =>
      if k.gather.isNone && follows r.idx o.beginIdx then { o with
        buckets := tabSet none o.buckets (fieldAt b 16 2 % 1024) (some { k with gatherStatus := some status, doneAt := s.mod.devTime }) }
      else o
    | none => o) s

/-- Bytes 16 to 31 of a completion: those given, or the open step's number for a STEP_GATE or STEP_END that carries nothing else (Table
7.11); one that the header check rejects carries zeros (R335). -/
def tailOf (s : State) (r : DRef) (b : List Byte) (tail : List Byte) : List Byte :=
  if (dOpcode b = 0x12 ∨ dOpcode b = 0x13) ∧ tail = [] ∧ dContext b = r.ctx ∧ stepOpen s r.ctx then leBytes 8 (curStep s r.ctx) else tail

/-- Write a completion and drop the descriptor from its ring; the semaphore is not signalled yet. A STEP_BEGIN that completes with
no step begun brings the context's staged map writes into effect (R80). -/
def closeDesc (r : DRef) (b : List Byte) (status : Nat) (tail : List Byte) (s : State) : State :=
  let s := noteGatherEnd r b status (writeCompletion r b status (tailOf s r b tail) s)
  let s := modRing r.ctx r.ring (fun q => { q with opened := q.opened.filter (fun d => d.idx != r.idx) }) s
  let s := countStepStatus r status s
  if dOpcode b = 0x11 ∧ (stepCtx s r.ctx).opened = none then applyStagedMaps r.ctx s else s

/-- The semaphore and the interrupt that follow a completion. -/
def afterClose (r : DRef) (b : List Byte) (signal : Bool) (s : State) : State :=
  fireInterrupt r b (if signal then signalSem r.ctx b s else s)

/-- The STEP_END of the open step, which no watchdog completes: the first in the step ring (R413). -/
def exemptEnd (s : State) (ctx ring : Nat) (d : Desc) : Bool :=
  (stepCtx s ctx).ring == some ring && stepOpen s ctx
    && ((ringOf s ctx ring).opened.find? fun d => dOpcode d.bytes == 0x13).map (·.idx) == some d.idx

/-- A descriptor that the header checks of R335 reject, where it could be dispatched. -/
def badHeader (s : State) (ctx ring : Nat) : Option (DRef × Desc × Nat × Bool) :=
  match dispatchReady s ctx ring with
  | some d =>
    if !opcodeValid (dOpcode d.bytes) then some (⟨ctx, ring, d.idx⟩, d, stOpcodeInvalid, true)
    else if dContext d.bytes ≠ ctx then some (⟨ctx, ring, d.idx⟩, d, stContextMismatch, true)
    else none
  | none => none

/-- The descriptors of a ring that have not started. -/
def Ring.unstarted (q : Ring) : List Desc := q.opened.filter fun d => !d.dispatched

/-- The status of a flush. -/
def Flush.status : Flush → Nat
  | .toEnd st => st
  | .below _ st => st

/-- A flush up to the next STEP_END (R263). -/
def Flush.isToEnd : Flush → Bool
  | .toEnd _ => true
  | .below _ _ => false

/-- The fetched descriptors that one flush of a ring covers: those not started, up to the step's STEP_END, or up to the TAIL of a
watchdog's firing but for the open step's STEP_END (R263, R413). -/
def flushCovers (s : State) (ctx ring : Nat) (q : Ring) : Flush → List Desc
  | .toEnd _ => q.unstarted.takeWhile fun d => dOpcode d.bytes != 0x13
  | .below n _ => q.unstarted.filter fun d => follows n d.idx && !exemptEnd s ctx ring d

/-- The descriptor of a ring to be completed unexecuted, with its status and whether that is a rejection: one that a flush covers, the
earliest flush first (R263, R413, Table 14.8), or one with a bad header. -/
def unexecuted (s : State) (ctx ring : Nat) (q : Ring) : Option (DRef × Desc × Nat × Bool) :=
  match q.flush.findSome? fun f => (flushCovers s ctx ring q f).head?.map fun d => (d, f.status) with
  | some (d, st) => some (⟨ctx, ring, d.idx⟩, d, st, false)
  | none => badHeader s ctx ring

/-- The first descriptor to be completed unexecuted. -/
def nextUnexecuted (s : State) : Option (DRef × Desc × Nat × Bool) :=
  s.doors.findSome? fun e => e.2.rings.findSome? fun q => unexecuted s e.1 q.1 q.2

/-- A flush joins those of a ring, after the events before it. -/
def addFlush (ctx ring : Nat) (f : Flush) (s : State) : State := modRing ctx ring (fun q => { q with flush := q.flush ++ [f] }) s

/-- Start a flush of the step ring for a failing descriptor of the open step; one in progress keeps its status (R263, Table 14.8). -/
def startFlush (r : DRef) (status : Nat) (s : State) : State :=
  if (stepCtx s r.ctx).ring = some r.ring ∧ stepOpen s r.ctx ∧ !((ringOf s r.ctx r.ring).flush.any (·.isToEnd)) then
    addFlush r.ctx r.ring (.toEnd status) s
  else s

/-- The fetched descriptors that the flush of a step covers now, each with its status (R263). -/
def covered (s : State) (ctx ring : Nat) : List (Desc × Nat) :=
  let q := ringOf s ctx ring
  (q.flush.filter (·.isToEnd)).flatMap fun f => (flushCovers s ctx ring q f).map fun d => (d, f.status)

/-- Complete the descriptors a flush covers, before the semaphore of the failing one is signalled (R263). -/
def closeCovered (ctx ring : Nat) (s : State) : State :=
  (covered s ctx ring).foldl (fun s d => closeDesc ⟨ctx, ring, d.1.idx⟩ d.1.bytes d.2 [] s) s

/-- Signal the semaphores of flushed descriptors; a flushed STEP_GATE signals nothing (R243, R263). -/
def signalCovered (ctx ring : Nat) (ds : List (Desc × Nat)) (s : State) : State :=
  ds.foldl (fun s d => afterClose ⟨ctx, ring, d.1.idx⟩ d.1.bytes (dOpcode d.1.bytes != 0x12) s) s

/-- Close a descriptor, and then signal: the record, the flush that this status starts, the records of those it covers, and only then
the semaphores and interrupts, the failing descriptor's first (R263). A STEP_GATE signals only when it succeeds (R243). -/
def closeOut (signal flushes : Bool) (r : DRef) (b : List Byte) (status : Nat) (tail : List Byte) (s : State) : State :=
  let signal := signal && (dOpcode b != 0x12 || status == 0)
  let s := closeDesc r b status tail s
  if flushes then
    let s := startFlush r status s
    let ds := covered s r.ctx r.ring
    signalCovered r.ctx r.ring ds (afterClose r b signal (closeCovered r.ctx r.ring s))
  else afterClose r b signal s

/-- A Credenza descriptor of an open step that completes with any status but success and OUTPUT_OVERFLOW flushes the step (R263). -/
def credenzaFlushes (op status : Nat) : Bool := (op == 0x51 || op == 0x52) && status != 0 && status != stOutputOverflow

/-- Complete the descriptors that no engine executes, oldest first, at most `fuel` of them (R263, R335, R413). -/
def settle : Nat → State → State
  | 0, s => s
  | fuel + 1, s => match nextUnexecuted s with
    | none => s
    | some (r, d, st, rejected) =>
      let s := if rejected then bump cHifRejected 1 s else s
      settle fuel (closeOut true (rejected && credenzaFlushes (dOpcode d.bytes) st) r d.bytes st [] s)

/-- Run `settle` as far as the open descriptors reach. -/
def settleAll (s : State) : State :=
  settle (s.doors.map fun e => (e.2.rings.map fun q => q.2.opened.length).sum).sum s

/-- Complete a descriptor that has come to the front of a ring with a bad header (R335). -/
def settleBad (ctx ring : Nat) (s : State) : State := if (badHeader s ctx ring).isSome then settleAll s else s

/-- The status that goes out: ECC_UNCORRECTABLE where the descriptor read a poisoned codeword, unless it was rejected
at validation or stopped by a watchdog (R357). -/
def finalStatus (d : Desc) (rejected : Bool) (status : Nat) : Nat :=
  if d.poisoned && !rejected && status != stWatchdog then stEccUncorrectable else status

/-- A status as the completion will carry it (R357). -/
def statusOut (s : State) (r : DRef) (st : Nat) : Nat :=
  match findDesc s r with
  | some d => finalStatus d false st
  | none => st

/-- Complete a descriptor: the record, the flush it triggers, its semaphore, its interrupt, and what then completes
unexecuted. `flushes` says that this status flushes the step (R263). A descriptor that a context reset dropped writes nothing. -/
def completeWith (signal rejected flushes : Bool) (r : DRef) (status : Nat) (tail : List Byte) (s : State) : State :=
  match findDesc s r with
  | none => s
  | some d =>
    let st := finalStatus d rejected status
    let s := if rejected then bump cHifRejected 1 s else s
    settleAll (closeOut signal (flushes || st == stEccUncorrectable) r d.bytes st tail s)

/-- Complete an executed descriptor. -/
def complete (r : DRef) (status : Nat) (tail : List Byte) (s : State) : State :=
  completeWith true false false r status tail s

/-- Complete a descriptor that validation rejected (R335). -/
def reject (r : DRef) (status : Nat) (tail : List Byte) (s : State) : State :=
  completeWith true true false r status tail s

/-! ## Histogram records (R150, R341) -/

/-- Entries of the histogram ring. -/
def HistRing.size (h : HistRing) : Nat := 2 ^ h.sizeLog2

/-- Write one histogram record to the context's ring, or count it as lost (R150, R341). A descriptor that a context reset dropped writes
none (R414). -/
def emitHist (r : DRef) (noHist : Bool) (stream : Nat) (kind : EngineKind) (engine : Nat) (h : Hist) (s : State) : State :=
  let q := (door s r.ctx).hist
  if noHist || !q.enable || (findDesc s r).isNone then s
  else if (q.produced + 2 ^ 32 - q.consumed) % 2 ^ 32 < q.size then
    let fn := functionOf s r.ctx
    let p := (q.produced + 1) % 2 ^ 32
    let s := emit (.hostWrite fn (q.base + 320 * (q.produced % q.size))
      (h.record stream r.ctx kind engine r.idx (curStep s r.ctx)) none false) s
    let s := emit (.hostWrite fn (q.base + 320 * q.size) (leBytes 4 p) none false) s
    modDoor r.ctx (fun d => { d with hist := { d.hist with produced := p } }) s
  else setFlag .hif 2 (modDoor r.ctx (fun d => { d with hist := { d.hist with lost := d.hist.lost + 1 } }) s)

/-! ## Refused accesses (R323, R324) -/

/-- The entry of a refused access (Table 14.11), written under HIF_CTRL.LOG_BAD_ACCESS. -/
def logBadAccess (fn off : Nat) (bar2 write : Bool) (cause : Nat) (s : State) : State :=
  if regBit s rHifCtrl 0 then
    logEntry { source := 7, engine := fn, detail := off % 2 ^ 32 + 2 ^ 32 * boolNat bar2 + 2 ^ 33 * boolNat write + 2 ^ 34 * cause } s
  else s

/-- An access refused under R323 or R324 is counted and flagged. -/
def badAccess (fn off : Nat) (bar2 write : Bool) (cause : Nat) (s : State) : State :=
  logBadAccess fn off bar2 write cause (setFlag .hif 1 (bump cHifBadAccess 1 s))

/-! ## Engine resets (R412, Table 14.2) -/

/-- An engine or Chest reset is counted and flagged. -/
def noteEngineReset (s : State) : State := bump cRcvEngine 1 (setFlag .rcv 1 s)

/-- The reset made at `now` is the third within 600 s of one engine. -/
def thirdReset (times : List Nat) (now : Nat) : Bool :=
  match times with
  | _ :: b :: _ => decide (now ≤ b + 600000000000)
  | _ => false

/-- The reset times an engine keeps: the last two before the next. -/
def pushReset (times : List Nat) (now : Nat) : List Nat := (now :: times).take 2

/-- An engine leaves service after its third reset, with AUTO_OFF 1: its bit is set and an entry is written. -/
def takeOutOfService (regOff bit source unit : Nat) (s : State) : State :=
  logEntry { source := source, action := 5, engine := unit }
    (setFlag .rcv 2 (setReg regOff (reg s regOff ||| 2 ^ bit) s))

/-- The reset of a Dresser unit whose launch `j` has run too long (R209, R412): counted, logged, and the unit out of service after its
third within 600 s. -/
def drsReset (u : Nat) (j : DrsJob) (s : State) : State :=
  let now := s.mod.devTime
  let off := thirdReset (tabGet {} s.drs u).resets now && regBit s rRcvCtrl 0
  let s := { s with drs := tabMod {} s.drs u fun n => { n with resets := pushReset n.resets now } }
  let s := noteEngineReset (bump cDrsWdog 1 (setFlag .drs 0 s))
  let s := logEntry (({ code := stWatchdog, source := 4, action := 3, engine := u } : LogEntry).naming j.ref) s
  if off then takeOutOfService rDrsUnitOff u 4 u s else s

/-! ## The end of a context reset (R414) -/

/-- A reset of the context is in progress: HIF_CTX_STATUS.RESETTING. -/
def resetting (s : State) (ctx : Nat) : Bool := (tabGet none s.hif.resetting ctx).isSome

/-- Dispatched work of the context has yet to reach the boundary at which it stops (R414 step 3). -/
def stillStopping (s : State) (ctx : Nat) : Bool :=
  s.drawers.any (fun e => e.2.queue.any fun j => j.dropped && j.ref.ctx == ctx)
    || s.trs.any (fun e => e.2.queue.any fun j => j.dropped && j.ref.ctx == ctx)
    || s.copies.any fun j => j.dropped && j.ref.ctx == ctx

/-- The reset of a context ends once all its work has stopped: RESETTING is cleared, CTX_RESET_SEEN is set, and the entry is written
(R414 step 6). -/
def endContextReset (ctx : Nat) (s : State) : State :=
  match tabGet none s.hif.resetting ctx with
  | none => s
  | some requester =>
    if stillStopping s ctx then s
    else logEntry { source := 7, action := 7, ctxValid := true, ctx := ctx, detail := requester }
      (setFlag .hif 3 { s with hif := { s.hif with resetting := tabSet none s.hif.resetting ctx none } })

/-- A job that a context reset had dropped has stopped. -/
def noteStopped (dropped : Bool) (r : DRef) (s : State) : State := if dropped then endContextReset r.ctx s else s

end Sys2Proof.Machine
end

