-- ==== Sys2Proof/Machine/Dispatching.lean ====
section
/-!
DEFINITION. Acceptance of a fetched descriptor by its engine, with the substitutions of the open step (R240, R241 of
spec/07_training_step.md; R335, R336 of spec/10_host_rings.md).
-/
namespace Sys2Proof.Machine

/-- Fields of the step control block (Table 7.2). -/
def ctrlRuleAddr (b : List Byte) : Nat := fieldAt b 0 8
def ctrlRuleInputAddr (b : List Byte) : Nat := fieldAt b 8 8
def ctrlSubstAddr (b : List Byte) : Nat := fieldAt b 16 8
def ctrlStepsizeAddr (b : List Byte) : Nat := fieldAt b 24 8
def ctrlSnapAddr (b : List Byte) : Nat := fieldAt b 32 8
def ctrlChoiceAddr (b : List Byte) : Nat := fieldAt b 40 8
def ctrlTieAddr (b : List Byte) : Nat := fieldAt b 48 8
def ctrlSlotAddr (b : List Byte) : Nat := fieldAt b 56 8
def ctrlRecordBase (b : List Byte) : Nat := fieldAt b 64 8
def ctrlGenvecBase (b : List Byte) : Nat := fieldAt b 72 8
def ctrlRuleCount (b : List Byte) : Nat := fieldAt b 80 2
def ctrlTieCount (b : List Byte) : Nat := fieldAt b 82 2
def ctrlSlotCount (b : List Byte) : Nat := fieldAt b 84 2
def ctrlRecordCount (b : List Byte) : Nat := fieldAt b 86 2
def ctrlSubstCount (b : List Byte) : Nat := fieldAt b 88 4
def ctrlStampWait (b : List Byte) : Nat := fieldAt b 92 1

/-- A descriptor accepted by its engine: its final bytes, and the scalar registers that ARG substitutions set. -/
structure Accepted where
  ref : DRef
  bytes : List Byte
  args : List (Nat × DWord)
deriving DecidableEq, Repr

/-- Fields of a substitution entry (Table 7.8). -/
def subOffset (e : Nat) : Nat := bitsOf e 15 0
def subKind (e : Nat) : Nat := bitsOf e 19 16
def subPos (e : Nat) : Nat := bitsOf e 25 20
def subAdd (e : Nat) : Nat := bitsOf e 26 26
def subDist (e : Nat) : Nat := bitsOf e 28 27
def subIndex (e : Nat) : Nat := bitsOf e 41 32

/-- A kind serves an opcode (Table 7.9). -/
def subServes (kind op : Nat) : Bool :=
  if kind = 1 ∨ kind = 2 ∨ kind = 3 then op == 0x31 || op == 0x51 || op == 0x52
  else if kind = 4 then op == 0x41
  else if kind = 5 then op == 0x21 || op == 0x22 || op == 0x23 || op == 0x26
  else kind == 6 && op == 0x31

/-- Replace bytes of a descriptor. -/
def patch (b : List Byte) (pos : Nat) (new : List Byte) : List Byte :=
  b.take pos ++ new ++ b.drop (pos + new.length)

/-- The entries of the open step's table that name a descriptor. -/
def subEntries (s : State) (o : OpenStep) (idx : Nat) : List Nat :=
  ((List.range (ctrlSubstCount o.ctrl)).map fun i => readNat s (ctrlSubstAddr o.ctrl + 8 * i) 8).filter
    fun e => decide (subOffset e = (idx + 2 ^ 32 - o.beginIdx) % 2 ^ 32)

/-- A GEN entry names a step not begun in the context since its last reset (R241). -/
def genAbsent (s : State) (ctx : Nat) (o : OpenStep) (e : Nat) : Bool :=
  !((stepCtx s ctx).begunSteps.any fun n => n + subDist e == o.num)

/-- The value a SLOT_LEN entry delivers. -/
def slotLength (o : OpenStep) (e : Nat) : Nat :=
  match o.slots[subIndex e]? with
  | some (some l) => l + subAdd e
  | _ => 0

/-- A SLOT_LEN entry names an inactive slot. -/
def slotInactive (o : OpenStep) (e : Nat) : Bool :=
  match o.slots[subIndex e]? with
  | some (some _) => false
  | _ => true

/-- The choice word of a rule. -/
def choiceOf (o : OpenStep) (e : Nat) : Nat := (o.choices.getD (subIndex e) 0).toNat

/-- Address of the generation that a GEN entry delivers (R230, R241). -/
def genAddr (o : OpenStep) (b : List Byte) (e : Nat) : Nat :=
  ctrlGenvecBase o.ctrl + (o.num - subDist e) % 4 * 65536 + 4 * (fieldAt b 16 2 % 16384)

/-- The effect of one entry on the fetched copy (Table 7.9). -/
def applySub (s : State) (o : OpenStep) (a : Accepted) (e : Nat) : Accepted :=
  let b := a.bytes
  let p := subPos e
  let c := choiceOf o e
  let old := (byteAt b p).toNat
  match subKind e with
  | 1 => { a with bytes := patch b p [BitVec.ofNat 8 (old / 16 * 16 + c % 16)] }
  | 2 => { a with bytes := patch b p [BitVec.ofNat 8 (old % 16 + 16 * (c % 16))] }
  | 3 => { a with bytes := patch b p [BitVec.ofNat 8 (bitsOf c 15 8)] }
  | 4 => { a with args := a.args ++ [(p % 16, BitVec.ofNat 64 (c % 16 + 256 * bitsOf c 15 8))] }
  | 5 =>
    { a with bytes := patch b p (readMem s (genAddr o b e) 4) }
  | _ => { a with bytes := patch b p (leBytes 2 (slotLength o e)) }

/-- What substitution makes of a descriptor: a status it completes with unexecuted, or its final bytes. -/
inductive SubResult
  | done (status : Nat) (rejected : Bool)
  | go (a : Accepted)
deriving DecidableEq, Repr

/-- SUBSTITUTION (R241): an invalid entry first, then an inactive slot, then a length out of range. -/
def substitute (s : State) (a : Accepted) : SubResult :=
  match (stepCtx s a.ref.ctx).opened with
  | none => .go a
  | some o =>
    if !o.begun || (stepCtx s a.ref.ctx).ring != some a.ref.ring then .go a
    else
      let es := subEntries s o a.ref.idx
      let op := dOpcode a.bytes
      if es.any fun e => !subServes (subKind e) op || (subKind e == 5 && genAbsent s a.ref.ctx o e) then .done stSubstInvalid true
      else if es.any fun e => subKind e == 6 && slotInactive o e then .done 0 false
      else if es.any fun e => subKind e == 6 && decide (65535 < slotLength o e) then .done stSubstRange true
      else .go (es.foldl (applySub s o) a)

/-- The next descriptor of a ring, where it can be dispatched now and has this opcode and the ring's context (R335). -/
def headFor (s : State) (ctx ring op : Nat) : Option Desc :=
  match dispatchable s ctx ring with
  | some d => if dOpcode d.bytes = op ∧ dContext d.bytes = ctx then some d else none
  | none => none

/-- Record Hutch's reads of the generations that GEN entries deliver to a descriptor (R357, R360). -/
def noteGens (a : Accepted) (s : State) : State :=
  match (stepCtx s a.ref.ctx).opened with
  | none => s
  | some o =>
    if !o.begun || (stepCtx s a.ref.ctx).ring != some a.ref.ring then s
    else ((subEntries s o a.ref.idx).filter (fun e => subKind e == 5)).foldl
      (fun s e => noteRead ⟨11, 0, some a.ref⟩ (genAddr o a.bytes e) 4 s) s

/-- Record Hutch's read of the substitution table of the open step, for a descriptor of its step ring: it is searched whole at each dispatch
(R240, R356, R360; DESIGN CHOICE, log entry 205). -/
def noteTable (r : DRef) (s : State) : State :=
  match (stepCtx s r.ctx).opened with
  | none => s
  | some o =>
    if !o.begun || (stepCtx s r.ctx).ring != some r.ring then s
    else noteRead ⟨11, 0, some r⟩ (ctrlSubstAddr o.ctrl) (8 * ctrlSubstCount o.ctrl) s

/-- Dispatch the next descriptor of a ring if it has this opcode (R336). Substitution may complete it unexecuted; else
`k` accepts it. A descriptor that then stands at the front with a bad header completes (R335). -/
def dispatchOp (ctx ring op : Nat) (k : Accepted → State → State) (s : State) : State :=
  match headFor s ctx ring op with
  | none => settleBad ctx ring s
  | some d =>
    let r : DRef := ⟨ctx, ring, d.idx⟩
    match substitute s ⟨r, d.bytes, []⟩ with
    | .done st rejected => completeWith true rejected (credenzaFlushes op st) r st [] (noteTable r s)
    | .go a => settleBad ctx ring (k a (noteGens ⟨r, d.bytes, []⟩ (markDispatched ctx ring d.idx (noteTable r s))))

end Sys2Proof.Machine
end

