-- ==== Sys2Proof/Machine/DrawerOps.lean ====
section
/-!
DEFINITION. Drawers: cells, remapping, check columns, holds, maps and trims (R31 to R37, R80, R81, R87, R102 of spec/02 and
spec/03; R373 to R378 of spec/12).
-/
namespace Sys2Proof.Machine

/-! ## Access to Drawers -/

def modDrawer (d : Nat) (f : Drawer → Drawer) (s : State) : State := { s with drawers := tabMod {} s.drawers d f }

/-- The Chest of a Drawer, 0 to 255, and its die (R10). -/
def chestOf (d : Nat) : Nat := d / 64
def dieOf (d : Nat) : Nat := d / 2048

def chest (s : State) (c : Nat) : Chest := tabGet {} s.chests c

def modChest (c : Nat) (f : Chest → Chest) (s : State) : State := { s with chests := tabMod {} s.chests c f }

/-- Plane 0 (A) or 1 (B) of a Drawer. -/
def Drawer.plane (w : Drawer) (p : Nat) : Plane := if p = 0 then w.planeA else w.planeB

def Drawer.modPlane (w : Drawer) (p : Nat) (f : Plane → Plane) : Drawer :=
  if p = 0 then { w with planeA := f w.planeA } else { w with planeB := f w.planeB }

def modPlane (d p : Nat) (f : Plane → Plane) (s : State) : State := modDrawer d (fun w => w.modPlane p f) s

/-- The Active plane (R88). -/
def Drawer.activeIdx (w : Drawer) : Nat := if w.activeB then 1 else 0

/-- The state may be read by generation (Table 3.1). -/
def PlaneState.readable : PlaneState → Bool
  | .active | .retained | .ready => true
  | _ => false

/-- The plane that holds a readable generation (R69 order 6). -/
def Drawer.planeOf (w : Drawer) (gen : Nat) : Option Nat :=
  if w.planeA.st.readable && w.planeA.gen == gen then some 0
  else if w.planeB.st.readable && w.planeB.gen == gen then some 1 else none

/-- A plane is bound to a queued or executing descriptor (R73). -/
def Drawer.bound (w : Drawer) (p : Nat) : Bool := w.queue.any fun j => j.plane == p

/-! ## Maps (R80) -/

/-- Drawer `d` is set in a context's map. -/
def mapped (s : State) (ctx d : Nat) : Bool := (mapOf s ctx).getLsbD d

/-- A context is executing a step: from the dispatch of its STEP_BEGIN to the completion of its STEP_END (R80). -/
def executingStep (s : State) (ctx : Nat) : Bool := (stepCtx s ctx).opened.isSome

/-! ## Cells and levels (R31, R35, R54, R55) -/

/-- What a cell holds on delivery, in thousandths of a code: level 0 reads code 2, and the check columns store C − 15 with
C = 0, so that their negative cell is at level 15 (R36, R54, R88). -/
def cellDefault (pair neg : Nat) : Int := if 1032 ≤ pair ∧ neg = 1 then 62000 else 2000

def cellKey (row pair neg : Nat) : Nat := 2072 * row + 2 * pair + neg

/-- The analogue value of a cell of physical row `row`. -/
def Plane.cell (p : Plane) (row pair neg : Nat) : Int :=
  match tabGet none p.cells (cellKey row pair neg) with
  | some v => v
  | none => cellDefault pair neg

/-- Store an analogue value. -/
def Plane.setCell (p : Plane) (row pair neg : Nat) (v : Int) : Plane :=
  { p with cells := tabSet none p.cells (cellKey row pair neg) (if v = cellDefault pair neg then none else some v) }

/-- The physical row of a logical row: 1,024 + p for spare row p. -/
def Plane.physRow (p : Plane) (r : Nat) : Nat :=
  match tabGet none p.rowRemap r with
  | some k => 1024 + k
  | none => r

/-- The physical pair column of a logical column; check column g is given as 1,032 + g. -/
def Drawer.physCol (w : Drawer) (c : Nat) : Nat :=
  if 1024 ≤ c then c
  else match tabGet none w.colRemap c with
    | some k => 1024 + k
    | none => c

/-- The level decided for a reading: the band [4L, 4L + 4) codes holds it (R54). A reading below every band is decided as level 0
and one above as level 15 (DESIGN CHOICE, log entry 30). -/
def decideLevel (v : Int) : Nat := min 15 (v / 4000).toNat

/-- The reading lies outside the guards at 4L + 0.5 and 4L + 3.5 codes (R55). -/
def isMarginal (v : Int) : Bool :=
  let l : Int := decideLevel v
  decide (v < 4000 * l + 500) || decide (4000 * l + 3500 < v)

/-- The weight of a pair as decided from its two readings. -/
def pairWeight (pos neg : Int) : Int := (decideLevel pos : Int) - (decideLevel neg : Int)

/-- The weight stored at a logical row and column. -/
def Drawer.weight (w : Drawer) (p r c : Nat) : Int :=
  let pl := w.plane p
  let row := pl.physRow r
  let col := w.physCol c
  pairWeight (pl.cell row col 0) (pl.cell row col 1)

/-- The readings of a cell column polarity across a physical row by converter, each with its deviation. -/
def rowReadings (pl : Plane) (row neg : Nat) (dev : Tab Int) : List Int :=
  (List.range 1036).map fun pair => pl.cell row pair neg + tabGet 0 dev pair

/-- What a row-order read of a row decides: levels by logical column, then by check column; pair-form faults by group;
marginal cells. -/
structure RowRead where
  levels : List Int
  checks : List Int
  faults : List Bool
  marginal : Nat
deriving DecidableEq, Repr

/-- Decide a row from its positive and negative readings (R36, R37, R55). A row-order read counts the marginal cells among all 2,072
of the physical row (DESIGN CHOICE, log entry 31). A pair-form fault is looked for in the pairs of the four groups: a spare column not in
use and a replaced original column belong to none (DESIGN CHOICE, log entry 189). -/
def decideRow (w : Drawer) (pos neg : List Int) : RowRead :=
  let wt := fun c => pairWeight (pos.getD (w.physCol c) 0) (neg.getD (w.physCol c) 0)
  let fault := fun c => decide (0 < decideLevel (pos.getD (w.physCol c) 0)) && decide (0 < decideLevel (neg.getD (w.physCol c) 0))
  { levels := (List.range 1024).map wt
    checks := (List.range 4).map fun g => wt (1032 + g)
    faults := (List.range 4).map fun g => fault (1032 + g) || (List.range 256).any fun j => fault (4 * j + g)
    marginal := ((pos ++ neg).filter isMarginal).length }

/-- Sum of the levels of check group g. -/
def groupSum (levels : List Int) (g : Nat) : Int := ((List.range 256).map fun j => levels.getD (4 * j + g) 0).sum

/-- The check value of group g, stored as the weight C − 15 (R36). -/
def checkValue (levels : List Int) (g : Nat) : Int := groupSum levels g % 31

/-- The row passes its check (R37). -/
def RowRead.passes (r : RowRead) : Bool :=
  (List.range 4).all fun g => checkValue r.levels g == r.checks.getD g 0 + 15 && !r.faults.getD g false

/-! ## Retirement of Drawer lines (Table 11.5) and trims (R43, R373 to R378) -/

/-- Address of the trim entry of column c of Drawer d (R373). -/
def trimAddr (d c : Nat) : Nat := trimBase + 4 * (1024 * d + c)

/-- The trim entry in force. -/
def trimOf (s : State) (d c : Nat) : Word := BitVec.ofNat 32 (readNat s (trimAddr d c) 4)

/-- Bytes as they are stored, errors left aside. -/
def storedBytes (m : MemBlk) (a n : Nat) : List Byte := (List.range n).map fun i => tabGet 0 m.cells (a + i)

/-- The trims of `n` columns from `c0` on as the periphery buffers them, where it holds them and those in force are as it read them; else
they are reloaded (R74). -/
def bufferedTrims (s : State) (d c0 n : Nat) : Option (List Word) :=
  (drawer s d).trimBuf.bind fun b =>
    if b.first ≤ c0 ∧ c0 + n ≤ b.first + b.trims.length
        ∧ storedBytes s.mem (trimAddr d c0) (4 * n) = (b.stored.drop (4 * (c0 - b.first))).take (4 * n) then
      some ((b.trims.drop (c0 - b.first)).take n)
    else none

/-- A reload of the buffer: the entries are read, and kept unless a codeword of them is uncorrectable (R74, R357; DESIGN CHOICE, log
entry 188). -/
def reloadTrims (acc : Access) (d c0 : Nat) (trims : List Word) (s : State) : State :=
  let n := 4 * trims.length
  let a := trimAddr d c0
  let buf := if (errorsIn s.mem a n).any (·.2) then none else some ⟨c0, trims, storedBytes s.mem a n⟩
  noteRead acc a n (modDrawer d (fun w => { w with trimBuf := buf }) s)

/-- The VALID bit is held clear: a retired column, always, or a remapped one that no run has measured (R378). -/
def heldClear (w : Drawer) (c : Nat) : Bool := w.retCols.contains c || w.unmeasured.any (·.1 == c)

/-- Write bytes of slice 95; the module's own writes meet no window. -/
def writeTrim (acc : Access) (d c : Nat) (v : Word) (s : State) : State := writeMem acc (trimAddr d c) (leBytes 4 v.toNat) s

/-- Clear VALID of a column's entry in force and of its staged entry (R378); `acc` is who writes (R358). -/
def clearTrim (acc : Access) (d c : Nat) (s : State) : State :=
  let v := trimOf s d c
  let s := writeTrim acc d c (v &&& 0x7FFFFFFF) s
  modDrawer d (fun w => { w with staged := w.staged.map fun t => tabMod 0 t c (· &&& 0x7FFFFFFF) }) s

/-- A Drawer's staged set comes into force: its 1,024 entries are written to slice 95 (R376). -/
def stagedInForce (d : Nat) (s : State) : State :=
  match (drawer s d).staged with
  | none => s
  | some t =>
    let bytes := (List.range 1024).flatMap fun c => leBytes 4 (tabGet 0 t c).toNat
    modDrawer d (fun w => { w with staged := none }) (writeMem ⟨1, d, none⟩ (trimAddr d 0) bytes s)

/-- No commit that has begun takes a set of the Drawer: the set it would have taken is being replaced (R14, R392). -/
def dropFromCommits (d : Nat) (s : State) : State :=
  { s with steps := tabMap {} (fun _ c =>
      { c with opened := c.opened.map fun o => { o with trimsAt := o.trimsAt.filter (· != d) } }) s.steps }

/-- A complete set is staged, in place of an earlier one; it comes into force at once when no context that maps the Drawer is
executing a step (R377, R392). -/
def stageTrims (d : Nat) (t : Tab Word) (s : State) : State :=
  let s := dropFromCommits d (modDrawer d (fun w => { w with staged := some t }) s)
  if (List.range 16).any fun n => mapped s n d && executingStep s n then s else stagedInForce d s

/-- All 1,024 trim entries of a Drawer are valid (DRW_INFO.TRIMS_VALID). -/
def trimsValid (s : State) (d : Nat) : Bool := (List.range 1024).all fun c => (trimOf s d c).getLsbD 31

/-- The die reading in 1/16 °C (R398). -/
def dieReading (s : State) (die : Nat) : Int := (((tabGet 0 s.nst.filt (16 + die)) + 8) / 16 : Nat) - 640

/-- The reading lies outside 35 °C to 85 °C (R81). -/
def dieOutside (s : State) (die : Nat) : Bool := decide (dieReading s die < 560) || decide (1360 < dieReading s die)

/-! ## Holds (R102) -/

/-- A context's descriptor takes or releases a hold in its open step (Table 7.10). -/
def countHold (ctx : Nat) (release : Bool) (n : Nat) (s : State) : State :=
  modOpen ctx (fun o => if !o.begun then o
    else if release then { o with holdsReleased := o.holdsReleased + n } else { o with holdsTaken := o.holdsTaken + n }) s

/-- Take a hold at acceptance; a full count takes none. Answers whether it was taken. -/
def takeHold (ctx d p : Nat) (s : State) : Bool × State :=
  if (drawer s d |>.plane p).hold = 65535 then (false, setFlag .pln 2 s)
  else (true, countHold ctx false 1 (modPlane d p (fun q => { q with hold := q.hold + 1, imaged := false }) s))

/-- Release a hold after a readout; a count of 0 releases none. -/
def releaseHold (ctx d p : Nat) (s : State) : State :=
  if (drawer s d |>.plane p).hold = 0 then setFlag .pln 2 s
  else countHold ctx true 1 (modPlane d p (fun q => { q with hold := q.hold - 1 }) s)

end Sys2Proof.Machine
end

