-- ==== Sys2Proof/Machine/DrawerRun.lean ====
section
/-!
DEFINITION. Executing Drawer descriptors: fields, validation, forward products, level readouts, and their completion
(R38 to R74, R105 of spec/02_drawer_arrays.md and spec/03_plane_programming.md).
-/
namespace Sys2Proof.Machine

/-! ## Fields (Tables 2.5, 2.6 and 3.5) -/

def dwDrawer (b : List Byte) : Nat := fieldAt b 16 2 % 16384
def dwPlaneSel (b : List Byte) : Nat := fieldAt b 18 1 % 4
def dwHold (b : List Byte) : Bool := (fieldAt b 19 1).testBit 0
def dwAccum (b : List Byte) : Bool := (fieldAt b 19 1).testBit 1
def dwNanMode (b : List Byte) : Bool := (fieldAt b 19 1).testBit 2
def dwGen (b : List Byte) : Nat := fieldAt b 20 4
def dwRowStart (b : List Byte) : Nat := fieldAt b 24 2
def dwRowCount (b : List Byte) : Nat := fieldAt b 26 2
def dwColStart (b : List Byte) : Nat := fieldAt b 28 2
def dwColCount (b : List Byte) : Nat := fieldAt b 30 2
def dwVectors (b : List Byte) : Nat := fieldAt b 32 2
def dwRowGroup (b : List Byte) : Nat := fieldAt b 34 1 % 8
def dwGainHi (b : List Byte) : Nat := bitsOf (fieldAt b 35 1) 1 0
def dwGainLo (b : List Byte) : Nat := bitsOf (fieldAt b 35 1) 3 2
def dwPolicy (b : List Byte) : Nat := bitsOf (fieldAt b 36 1) 1 0
def dwRetryMax (b : List Byte) : Nat := bitsOf (fieldAt b 36 1) 4 2
def dwProdFmt (b : List Byte) : Nat := fieldAt b 37 1 % 4
def dwProdPitch (b : List Byte) : Nat := fieldAt b 38 2
def dwReadFmt (b : List Byte) : Nat := fieldAt b 32 1 % 4
def dwTiled (b : List Byte) : Bool := (fieldAt b 33 1).testBit 0
def dwReadPitch (b : List Byte) : Nat := fieldAt b 34 2
def dwInAddr (b : List Byte) : Nat := fieldAt b 40 8
def dwOutAddr (b : List Byte) : Nat := fieldAt b 48 8
def dwScaleAddr (b : List Byte) : Nat := fieldAt b 56 8

/-- Descriptor kinds that a Drawer executes. -/
def isProduct (b : List Byte) : Bool := dOpcode b == 0x21
def isCols (b : List Byte) : Bool := dOpcode b == 0x23
def isImage (b : List Byte) : Bool := dOpcode b == 0x26

/-- Rows, columns and Table 4.1 format of a readout; a level image is the whole plane in LV5 (R105). -/
def rdRowStart (b : List Byte) : Nat := if isImage b then 0 else dwRowStart b
def rdRowCount (b : List Byte) : Nat := if isImage b then 1024 else dwRowCount b
def rdColStart (b : List Byte) : Nat := if isImage b then 0 else dwColStart b
def rdColCount (b : List Byte) : Nat := if isImage b then 1024 else dwColCount b
def rdFmt (b : List Byte) : Nat :=
  if isImage b then 10 else match dwReadFmt b with | 0 => 10 | 1 => 3 | 2 => 1 | _ => 0

/-- Table 4.1 format of a product's output. -/
def prodFmt (b : List Byte) : Nat := if dwProdFmt b = 0 then 1 else 0

/-! ## Validation (Table 2.7) -/

/-- Order 2 for a product. -/
def productFieldBad (b : List Byte) : Bool :=
  decide (2 ≤ dwPlaneSel b) || decide (2 ≤ dwProdFmt b) || (dwAccum b && dwProdFmt b != 1)
    || (decide (1 < dwVectors b) && decide (dwProdPitch b * 16 < dwColCount b * elemBytes (prodFmt b)))
    || dwInAddr b % 16 != 0 || dwOutAddr b % 16 != 0 || (dwVectors b != 0 && dwScaleAddr b % 16 != 0)

/-- Order 2 for a readout. -/
def readoutFieldBad (b : List Byte) : Bool :=
  let e := elemBytes (rdFmt b)
  decide (2 ≤ dwPlaneSel b) || (dwTiled b && (!isCols b || dwReadFmt b == 0))
    || (!isCols b && decide (1 < dwRowCount b) && decide (dwReadPitch b * 16 < dwColCount b * e))
    || (isCols b && !dwTiled b && decide (1 < dwColCount b) && decide (dwReadPitch b * 16 < dwRowCount b * e))
    || dwOutAddr b % 16 != 0 || (dwReadFmt b != 0 && dwScaleAddr b % 16 != 0)

/-- Bytes of `n` output rows of `len` bytes at a pitch. -/
def pitchedBytes (n pitch len : Nat) : Nat := if n = 0 then 0 else (n - 1) * 16 * pitch + len

/-- The output extent of a readout. -/
def readoutExtent (b : List Byte) : Nat :=
  let e := elemBytes (rdFmt b)
  if dwTiled b then ceilDiv (dwColCount b) 256 * ceilDiv (dwRowCount b) 256 * 65536 * e
  else if isCols b then pitchedBytes (dwColCount b) (dwReadPitch b) (dwRowCount b * e)
  else pitchedBytes (dwRowCount b) (dwReadPitch b) (dwColCount b * e)

/-- Order 5: an extent is not permitted. -/
def drwExtentBad (s : State) (ctx : Nat) (b : List Byte) : Bool :=
  if isProduct b then
    let n := dwVectors b
    !permitted s ctx (dwInAddr b) (n * ceilDiv (dwRowCount b) 128 * 144) true false
      || (n != 0 && !permitted s ctx (dwScaleAddr b) 2048 true false)
      || !permitted s ctx (dwOutAddr b) (pitchedBytes n (dwProdPitch b) (dwColCount b * elemBytes (prodFmt b))) (dwAccum b) true
  else
    (dwReadFmt b != 0 && !permitted s ctx (dwScaleAddr b) 2048 true false)
      || !permitted s ctx (dwOutAddr b) (readoutExtent b) false true

/-- The plane a descriptor binds: the Active one, or the one that holds GENERATION. -/
def selectPlane (w : Drawer) (b : List Byte) : Option Nat :=
  if dwPlaneSel b = 0 then some w.activeIdx else w.planeOf (dwGen b)

/-- The first failing check of a Drawer descriptor, 0 where all pass (R69). -/
def drwStatus (s : State) (ctx : Nat) (b : List Byte) : Nat :=
  if !mapped s ctx (dwDrawer b) then stDrawerUnmapped
  else if (if isProduct b then productFieldBad b else readoutFieldBad b) then stFieldInvalid
  else if isProduct b && (decide (4 ≤ dwRowGroup b) || dwRowStart b % 128 != 0 || dwRowCount b % 16 != 0) then stRowgroupInvalid
  else if dwRowCount b = 0 ∨ dwColCount b = 0 ∨ 1024 < dwRowStart b + dwRowCount b ∨ 1024 < dwColStart b + dwColCount b then
    stRangeInvalid
  else if drwExtentBad s ctx b then stLengthExceeds
  else if (selectPlane (drawer s (dwDrawer b)) b).isNone then stGenerationAbsent
  else 0

/-! ## Beginning a descriptor -/

/-- The log and access attribution of a Drawer's descriptor. -/
def drwAccess (j : DrwJob) : Access := ⟨1, dwDrawer j.bytes, some j.ref⟩

/-- The σ_c of the columns of a range from `c0`, in BF16. -/
def scalesOf (s : State) (addr c0 n : Nat) : List Half :=
  (List.range n).map fun i => BitVec.ofNat 16 (readNat s (addr + 2 * (c0 + i)) 2)

/-- The descriptor's first conversion begins: it takes the trims in force, reads its scales and notes the die temperature
(R74, R81). A product of no vectors takes none of them (R70); one whose conversions are all skipped takes them as it is settled
(DESIGN CHOICE, log entry 36). -/
def beginJob (s : State) (j : DrwJob) : DrwJob :=
  let b := j.bytes
  let d := dwDrawer b
  { j with
    begun := true, hot := dieOutside s (dieOf d) && !(isProduct b && dwVectors b == 0)
    trims := if isProduct b && dwVectors b != 0 then
        (bufferedTrims s d (dwColStart b) (dwColCount b)).getD
          ((List.range (dwColCount b)).map fun i => trimOf s d (dwColStart b + i))
      else []
    scales := if isImage b || (!isProduct b && dwReadFmt b == 0) then [] else scalesOf s (dwScaleAddr b) (dwColStart b) (dwColCount b) }

/-- What beginning records: the reload of the trims where the buffer does not hold them, the scale read, and the temperature flag (R74,
R81, R357). -/
def noteBegin (j : DrwJob) (s : State) : State :=
  let s := if j.trims.isEmpty || (bufferedTrims s (dwDrawer j.bytes) (dwColStart j.bytes) (dwColCount j.bytes)).isSome then s
    else reloadTrims (drwAccess j) (dwDrawer j.bytes) (dwColStart j.bytes) j.trims s
  let s := if j.scales.isEmpty then s else noteRead (drwAccess j) (dwScaleAddr j.bytes) 2048 s
  if j.hot then setFlag .drw 4 s else s

/-! ## Forward products (R38 to R52) -/

/-- Columns of the range with no valid trim (R48). -/
def invalidTrims (j : DrwJob) : Nat := (j.trims.filter fun t => !t.getLsbD 31).length

/-- The elements of vector `v`, 0 in rows retired before the descriptor was accepted (Table 11.5, R370), and the scale exponents of its blocks (R66). -/
def readVector (s : State) (j : DrwJob) (v : Nat) : List Int × List Int :=
  let b := j.bytes
  let blocks := ceilDiv (dwRowCount b) 128
  let base := dwInAddr b + v * blocks * 144
  ((List.range (dwRowCount b)).map fun k =>
      if j.skip.contains (dwRowStart b + k) then 0 else signed 8 (readNat s (base + k / 128 * 144 + k % 128) 1),
    (List.range blocks).map fun i => (readNat s (base + 144 * i + 128) 1 : Int) - 127)

/-- x_max: the largest block exponent among blocks with a non-zero element (R45), among the elements that the product uses: not those
beyond ROW_COUNT, and 0 in retired rows (DESIGN CHOICE, log entry 190). -/
def xMax (p : ProductProgress) : Option Int :=
  ((List.range p.exps.length).filter fun i => ((p.elems.drop (128 * i)).take 128).any (· != 0)).foldl
    (fun m i => let e := p.exps.getD i 0; some (match m with | none => e | some x => max x e)) none

/-- The first attempt at a vector: the descriptor's row group and gains (R51). -/
def freshAttempt (b : List Byte) (p : ProductProgress) : ProductProgress :=
  { p with
    retries := 0, group := 0, low := false, gSize := 16 * 2 ^ dwRowGroup b, gHi := dwGainHi b, gLo := dwGainLo b
    satHi := false, satLo := false, acc := List.replicate (dwColCount b) 0 }

/-- The nibble of element m in a phase (R38). -/
def nibble (low : Bool) (m : Int) : Nat := if low then m.natAbs % 16 else m.natAbs / 16

/-- The elements of the row group in progress. -/
def groupElems (p : ProductProgress) : List Int := (p.elems.drop (p.group * p.gSize)).take p.gSize

/-- Row groups of a product at the present group size (R39). -/
def groupCount (b : List Byte) (p : ProductProgress) : Nat := ceilDiv (dwRowCount b) p.gSize

/-- The position after this conversion: the low phase, then the next group. -/
def nextPhase (p : ProductProgress) : ProductProgress :=
  if p.low then { p with low := false, group := p.group + 1 } else { p with low := true }

/-- Pass over the conversions that R40 skips, counting them. -/
def skipZero (on : Bool) (b : List Byte) : Nat → ProductProgress → Nat → ProductProgress × Nat
  | 0, p, n => (p, n)
  | fuel + 1, p, n =>
    if on && decide (p.group < groupCount b p) && (groupElems p).all (fun m => nibble p.low m == 0) then
      skipZero on b fuel (nextPhase p) (n + 1)
    else (p, n)

/-- The charge of column `c` in the present group and phase, in nibble-level units. -/
def charge (w : Drawer) (j : DrwJob) (c : Nat) : Int :=
  let p := j.prod
  ((groupElems p).zip (List.range p.gSize)).foldl (fun q e =>
    let n : Int := nibble p.low e.1
    if n = 0 then q
    else q + (if e.1 < 0 then -n else n) * w.weight j.plane (dwRowStart j.bytes + p.group * p.gSize + e.2) c) 0

/-- A code of R41: the nearest whole number to (1000 Q + dev × q) / (1000 q) LSB, ties to even, and whether the input
exceeded ±31.5 LSB. `dev` is the conversion error in thousandths of an LSB. -/
def convCode (charge : Int) (g : Nat) (dev : Int) : Int × Bool :=
  let q : Int := 32 * 2 ^ g
  let num := 1000 * charge + dev * q
  let den : Nat := 1000 * 32 * 2 ^ g
  let k := roundInt .nearest (decide (num < 0)) num.natAbs den
  (max (-31) (min 31 k), decide (63 * den < 2 * num.natAbs))

/-- OFFSET and GAIN of a trim entry (Table 12.1). -/
def trimOffset (t : Word) : Int := signed 10 (bitsOf t.toNat 21 12)
def trimGain (t : Word) : Nat := bitsOf t.toNat 11 0

/-- The term a code adds to the accumulator, in units of 1/16, rounded to nearest even; `shift` is x_max − x_b (R44). -/
def convTerm (low : Bool) (g : Nat) (offset k shift : Int) : Int :=
  let x := (32 * k - offset) * (if low then 1 else 16) * 2 ^ g * 2 ^ (-shift).toNat
  roundInt .nearest (decide (x < 0)) x.natAbs (2 * 2 ^ shift.toNat)

/-- One conversion of the product: every column of the range. `dev` lists the conversion errors by converter. Where every block is
zero the accumulators stay 0 (R45). The accumulator is exact: a term of an all-zero block whose exponent lies so far above x_max that it
would not fit in 24 bits is not cut (DESIGN CHOICE, log entry 191). -/
def convert (w : Drawer) (j : DrwJob) (dev : Tab Int) : ProductProgress × Nat :=
  let p := j.prod
  let g := if p.low then p.gLo else p.gHi
  let xb := p.exps.getD (p.group * p.gSize / 128) 0
  let shift := (xMax p).getD xb - xb
  let codes := (List.range (dwColCount j.bytes)).map fun i =>
    let c := dwColStart j.bytes + i
    convCode (charge w j c) g (tabGet 0 dev (w.physCol c))
  let acc := if (xMax p).isNone then p.acc
    else (p.acc.zip (codes.zip j.trims)).map fun e => e.1 + convTerm p.low g (trimOffset e.2.2) e.2.1.1 shift
  let sat := (codes.filter (·.2)).length
  ({ p with
      acc := acc
      satHi := p.satHi || (decide (sat ≠ 0) && !p.low)
      satLo := p.satLo || (decide (sat ≠ 0) && p.low) }, sat)

/-- The exact y_c of R46 before its one rounding; NaN where the trim is not valid (R48). -/
def productValue (p : ProductProgress) (acc : Int) (trim : Word) (scale : Half) : XVal :=
  if !trim.getLsbD 31 then .nan
  else
    let x := acc * 2 * ((16384 + (trimGain trim : Int)) - 2048)
    ((XVal.ofRatio x 16384).scale ((xMax p).getD 0)).mul (fpDecode fpBf16 scale.toNat)

/-- Write the vector in progress, counting its elements (R46, R47, R66). -/
def writeVector (j : DrwJob) (s : State) : DrwJob × State :=
  let b := j.bytes
  let p := j.prod
  let fmt := prodFmt b
  let e := elemBytes fmt
  let base := dwOutAddr b + p.vec * 16 * dwProdPitch b
  let vals := (p.acc.zip (j.trims.zip j.scales)).map fun x => productValue p x.1 x.2.1 x.2.2
  let coded := (vals.zip (List.range vals.length)).map fun v =>
    let y := if dwAccum b && !v.1.isNan then (fpDecode fpFp32 (readNat s (base + 4 * v.2) 4)).add v.1 else v.1
    scalarEncode fmt .nearest false y
  let s := if dwAccum b then noteRead (drwAccess j) base (4 * dwColCount b) s else s
  let s := writeMem (drwAccess j) base (coded.flatMap fun c => leBytes e c.bits) s
  ({ j with prod := { p with hist := coded.foldl (fun h c => h.countScalar fmt c) p.hist } }, s)

/-- The setting of the next attempt under the retry policy, none where no step remains (Table 2.3). -/
def nextAttempt (b : List Byte) (p : ProductProgress) : Option ProductProgress :=
  let again := fun (q : ProductProgress) => some { q with
    retries := p.retries + 1, group := 0, low := false, satHi := false, satLo := false
    acc := List.replicate (dwColCount b) 0 }
  let halve := decide (16 < p.gSize)
  let gain := (p.satHi && decide (p.gHi < 3)) || (p.satLo && decide (p.gLo < 3))
  let more := { p with
    gHi := if p.satHi && decide (p.gHi < 3) then p.gHi + 1 else p.gHi
    gLo := if p.satLo && decide (p.gLo < 3) then p.gLo + 1 else p.gLo }
  match dwPolicy b with
  | 1 => if halve then again { p with gSize := p.gSize / 2 } else none
  | 2 => if gain then again more else none
  | 3 => if halve then again { p with gSize := p.gSize / 2 } else if gain then again more else none
  | _ => none

/-- The counts after a vector's last attempt (R52, Table 2.8). -/
def countVector (exhausted : Bool) (p : ProductProgress) : ProductProgress :=
  { p with
    vec := p.vec + 1, completed := p.completed + 1
    saturated := p.saturated + boolNat (p.satHi || p.satLo)
    exhausted := p.exhausted + boolNat exhausted
    retried := p.retried + boolNat (p.retries != 0), largest := max p.largest p.retries }

/-- Write a vector and count it. -/
def endVector (exhausted : Bool) (j : DrwJob) (s : State) : DrwJob × State :=
  let (j, s) := writeVector j s
  let s := if exhausted then bump cDrwExhaust 1 s else s
  let s := if j.prod.retries ≠ 0 then bump cDrwRetry 1 s else s
  ({ j with prod := countVector exhausted j.prod }, s)

/-- Start vectors from the present one until one has a conversion to make; answers whether the product is done. -/
def startVectors : Nat → DrwJob → State → DrwJob × State × Bool
  | 0, j, s => (j, s, true)
  | fuel + 1, j, s =>
    let b := j.bytes
    if dwVectors b ≤ j.prod.vec then (j, s, true)
    else
      let n := ceilDiv (dwRowCount b) 128 * 144
      let (elems, exps) := readVector s j j.prod.vec
      let s := noteRead (drwAccess j) (dwInAddr b + j.prod.vec * n) n s
      let (p, k) := skipZero (regBit s rDrwCtrl 0) b 256 { freshAttempt b j.prod with elems := elems, exps := exps } 0
      let s := if k = 0 then s else bump cDrwSkip k s
      let j := { j with prod := p }
      if p.group < groupCount b p then (j, s, false)
      else
        let (j, s) := endVector false j s
        startVectors fuel j s

/-- Pass over the conversions that need not be made from here on (R50). -/
def skipTo (b : List Byte) (p : ProductProgress) (s : State) : ProductProgress × State :=
  let (p, k) := skipZero (regBit s rDrwCtrl 0) b 256 p 0
  (p, if k = 0 then s else bump cDrwSkip k s)

/-- The vector starts again under the next setting, or is written and the next one starts (R51, R52); the descriptor of a context that has
been reset stops after its vector (R414). -/
def retryOrEnd (retry : Option ProductProgress) (exhausted : Bool) (j : DrwJob) (s : State) : DrwJob × State × Bool :=
  match retry with
  | some q =>
    let (q, s) := skipTo j.bytes q s
    ({ j with prod := q }, s, false)
  | none =>
    let (j, s) := endVector exhausted j s
    if j.dropped then (j, s, true) else startVectors (dwVectors j.bytes + 1) j s

/-- After a conversion: the next one, a retry, or the end of the vector (R50 to R52). Answers whether the product is done. -/
def afterConversion (j : DrwJob) (s : State) : DrwJob × State × Bool :=
  let b := j.bytes
  let (p, s) := skipTo b (nextPhase j.prod) s
  let j := { j with prod := p }
  if p.group < groupCount b p then (j, s, false)
  else
    let sat := p.satHi || p.satLo
    retryOrEnd (if sat && decide (p.retries < dwRetryMax b) then nextAttempt b p else none) (sat && dwPolicy b != 0) j s

/-! ## Level readout (R54 to R63, R67, R68) -/

/-- An output element of a readout: level L of column c (R67). -/
def levelOut (j : DrwJob) (l : Int) (c : Nat) : ElemOut :=
  let f := rdFmt j.bytes
  if f = 10 then ⟨lv5Encode l, .ofInt l, false, {}⟩
  else
    let sc := j.scales.getD (c - rdColStart j.bytes) 0
    let x := (XVal.ofInt l).mul (fpDecode fpBf16 sc.toNat)
    let e := scalarEncode f .nearest (!dwNanMode j.bytes) x
    ⟨e.bits, scalarDecode f e.bits, scalarSubnormal f e.bits, e.flags⟩

/-- Where element (r, c) of a readout goes (R68, R92). -/
def levelAddr (b : List Byte) (r c : Nat) : Nat :=
  let e := elemBytes (rdFmt b)
  let i := r - rdRowStart b
  let k := c - rdColStart b
  if isImage b then dwOutAddr b + 1024 * r + c
  else if !isCols b then dwOutAddr b + i * 16 * dwReadPitch b + k * e
  else if !dwTiled b then dwOutAddr b + k * 16 * dwReadPitch b + i * e
  else dwOutAddr b + ((k / 256 * ceilDiv (rdRowCount b) 256 + i / 256) * 65536 + k % 256 * 256 + i % 256) * e

/-- The stored level of (r, c) in a readout's progress. -/
def levelAt (j : DrwJob) (r c : Nat) : Int := tabGet 0 j.read.levels (1036 * r + c)

/-- The bytes of an element. -/
def levelBytes (j : DrwJob) (r c : Nat) : List Byte := leBytes (elemBytes (rdFmt j.bytes)) (levelOut j (levelAt j r c) c).enc

/-- Write a row of a readout in row order. -/
def writeRow (j : DrwJob) (r : Nat) (s : State) : State :=
  let b := j.bytes
  writeMem (drwAccess j) (levelAddr b r (rdColStart b))
    ((List.range (rdColCount b)).flatMap fun k => levelBytes j r (rdColStart b + k)) s

/-- Write a column of a transposed readout; in tile order the row is padded, and the last column pads its tiles (R68). -/
def writeColumn (j : DrwJob) (c : Nat) (s : State) : State :=
  let b := j.bytes
  let e := elemBytes (rdFmt b)
  let r0 := rdRowStart b
  let n := rdRowCount b
  if !dwTiled b then
    writeMem (drwAccess j) (levelAddr b r0 c) ((List.range n).flatMap fun i => levelBytes j (r0 + i) c) s
  else
    let tiles := ceilDiv n 256
    let put := fun (k t : Nat) (bytes : List Byte) s =>
      writeMem (drwAccess j) (dwOutAddr b + ((k / 256 * tiles + t) * 65536 + k % 256 * 256) * e) (padTo (256 * e) bytes) s
    let k := c - rdColStart b
    let s := (List.range tiles).foldl (fun s t =>
      put k t ((List.range (min 256 (n - 256 * t))).flatMap fun i => levelBytes j (r0 + 256 * t + i) c) s) s
    if k + 1 < rdColCount b then s
    else
      let pad := (List.range (255 - k % 256)).map (k + 1 + ·)
      pad.foldl (fun s k' => (List.range tiles).foldl (fun s t => put k' t [] s) s) s

/-- Keep what a row-order read decided (R55, R62). -/
def storeRow (r : Nat) (x : RowRead) (p : ReadProgress) : ReadProgress :=
  { p with
    levels := tabSetList 0 (tabSetList 0 p.levels (1036 * r) x.levels) (1036 * r + 1032) x.checks
    marginal := tabSet 0 p.marginal r x.marginal }

/-- A row is left uncorrected: one entry for each row, whose count field holds 1 (R62, Table 14.5; DESIGN CHOICE, log entry 32). -/
def rowUncorrected (j : DrwJob) (r : Nat) (s : State) : State :=
  let e : LogEntry := { code := stLevelCheck, source := 1, engine := dwDrawer j.bytes,
                        detail := j.gen + r * 2 ^ 32 + j.plane * 2 ^ 48 + 2 ^ 49 }
  logEntry (e.naming j.ref) (setFlag .drw 1 (bump cDrwUncorr 1 s))

/-- A row-order read of row r has both its polarities. Answers the job, and whether the row is settled: it passed, or it was
a re-read. -/
def rowReadDone (w : Drawer) (r : Nat) (neg : List Int) (j : DrwJob) (s : State) : DrwJob × State × Bool :=
  let x := decideRow w j.read.posVals neg
  let p := { j.read with posVals := [], neg := false }
  if x.passes then
    let p := storeRow r x p
    if p.reread then
      ({ j with read := { p with reread := false, corrected := p.corrected + 1 } }, bump cDrwCorr 1 s, true)
    else ({ j with read := p }, s, true)
  else if p.reread then
    ({ j with read := { storeRow r x p with reread := false, uncorrected := p.uncorrected + 1 } }, rowUncorrected j r s, true)
  else ({ j with read := { storeRow r x p with reread := true } }, s, false)

/-- One conversion of a row-order readout. Answers whether the readout is done. -/
def readRowConversion (w : Drawer) (dev : Tab Int) (j : DrwJob) (s : State) : DrwJob × State × Bool :=
  let b := j.bytes
  let r := rdRowStart b + j.read.pos
  let pl := w.plane j.plane
  let vals := rowReadings pl (pl.physRow r) (boolNat j.read.neg) dev
  if !j.read.neg then ({ j with read := { j.read with neg := true, posVals := vals } }, s, false)
  else
    let (j, s, settled) := rowReadDone w r vals j s
    if !settled then (j, s, false)
    else
      let s := writeRow j r s
      let j := { j with read := { j.read with pos := j.read.pos + 1 } }
      (j, s, decide (rdRowCount b ≤ j.read.pos))

/-! ### Transposed readout (R58, R59) -/

/-- Quarters that the row range touches. -/
def quarters (b : List Byte) : List Nat :=
  (List.range 4).filter fun u => decide (dwRowStart b / 256 ≤ u) && decide (u ≤ (dwRowStart b + dwRowCount b - 1) / 256)

/-- The logical rows of the range. -/
def rangeRows (b : List Byte) : List Nat := (List.range (rdRowCount b)).map (rdRowStart b + ·)

/-- A row of the range is remapped: each cell column takes one conversion more (R58). -/
def spareConversion (pl : Plane) (b : List Byte) : Bool := (rangeRows b).any fun r => (tabGet none pl.rowRemap r).isSome

/-- The columns read: those of the range, or with CHECK all logical and check columns (R59). -/
def readSet (b : List Byte) : List Nat :=
  if dwAccum b then List.range 1024 ++ [1032, 1033, 1034, 1035] else (List.range (dwColCount b)).map (dwColStart b + ·)

/-- The physical rows one conversion reads. -/
def partRows (pl : Plane) (b : List Byte) (part : Nat) : List Nat :=
  match (quarters b)[part]? with
  | some u => (List.range 256).map (256 * u + ·)
  | none => if spareConversion pl b then (List.range 8).map (1024 + ·) else []

/-- Conversions of one cell column. -/
def partCount (pl : Plane) (b : List Byte) : Nat := (quarters b).length + boolNat (spareConversion pl b)

/-- The reading of logical row r among the values of a cell column. -/
def columnReading (pl : Plane) (b : List Byte) (vals : List Int) (r : Nat) : Int :=
  match tabGet none pl.rowRemap r with
  | some k => vals.getD (256 * (quarters b).length + k) 0
  | none => vals.getD (256 * (r / 256 - dwRowStart b / 256) + r % 256) 0

/-- Keep what both polarities of column c decided, for every row of the range. -/
def storeColumn (pl : Plane) (b : List Byte) (c : Nat) (pos neg : List Int) (p : ReadProgress) : ReadProgress :=
  (rangeRows b).foldl (fun p r =>
    let x := columnReading pl b pos r
    let y := columnReading pl b neg r
    let fault := decide (0 < decideLevel x) && decide (0 < decideLevel y)
    { p with
      levels := tabSet 0 p.levels (1036 * r + c) (pairWeight x y)
      pairFaults := if fault then tabSet false p.pairFaults (4 * r + c % 4) true else p.pairFaults
      marginal := tabMod 0 p.marginal r (· + boolNat (isMarginal x) + boolNat (isMarginal y)) }) p

/-- Row r as read transposed passes its check. -/
def transposedPasses (p : ReadProgress) (r : Nat) : Bool :=
  let levels := (List.range 1024).map fun c => tabGet 0 p.levels (1036 * r + c)
  (List.range 4).all fun g =>
    checkValue levels g == tabGet 0 p.levels (1036 * r + 1032 + g) + 15 && !tabGet false p.pairFaults (4 * r + g)

/-- Replace the output of row r by its re-read levels (R62, R63). -/
def rewriteRow (j : DrwJob) (r : Nat) (s : State) : State :=
  (List.range (dwColCount j.bytes)).foldl (fun s k =>
    writeMem (drwAccess j) (levelAddr j.bytes r (dwColStart j.bytes + k)) (levelBytes j r (dwColStart j.bytes + k)) s) s

/-- The whole read set has been read: the failing rows are re-read, or stay uncorrected (R62). -/
def transposedEnd (j : DrwJob) (s : State) : DrwJob × State × Bool :=
  let b := j.bytes
  let fails := if dwAccum b then (rangeRows b).filter fun r => !transposedPasses j.read r else []
  if regBit s rDrwCtrl 1 && !fails.isEmpty then
    ({ j with read := { j.read with transposedDone := true, reread := true, failing := fails } }, s, false)
  else
    ({ j with read := { j.read with transposedDone := true, uncorrected := fails.length } },
      fails.foldl (fun s r => rowUncorrected j r s) s, true)

/-- One conversion of a re-read of a transposed readout's failing rows. -/
def rereadConversion (w : Drawer) (dev : Tab Int) (j : DrwJob) (s : State) : DrwJob × State × Bool :=
  match j.read.failing with
  | [] => (j, s, true)
  | r :: rs =>
    let pl := w.plane j.plane
    let vals := rowReadings pl (pl.physRow r) (boolNat j.read.neg) dev
    if !j.read.neg then ({ j with read := { j.read with neg := true, posVals := vals } }, s, false)
    else
      let (j, s, _) := rowReadDone w r vals j s
      let j := { j with read := { j.read with reread := true, failing := rs } }
      (j, rewriteRow j r s, rs.isEmpty)

/-- One conversion of a transposed readout. Answers whether the readout is done. -/
def readColConversion (w : Drawer) (dev : Tab Int) (j : DrwJob) (s : State) : DrwJob × State × Bool :=
  if j.read.transposedDone then rereadConversion w dev j s
  else
    let b := j.bytes
    let pl := w.plane j.plane
    let c := (readSet b).getD j.read.pos 0
    let rows := partRows pl b j.read.part
    let new := (rows.zip (List.range rows.length)).map fun r =>
      pl.cell r.1 (w.physCol c) (boolNat j.read.neg) + tabGet 0 dev r.2
    let p := { j.read with curVals := j.read.curVals ++ new, part := j.read.part + 1 }
    if p.part < partCount pl b then ({ j with read := p }, s, false)
    else if !p.neg then ({ j with read := { p with neg := true, part := 0, posVals := p.curVals, curVals := [] } }, s, false)
    else
      let q := storeColumn pl b c p.posVals p.curVals { p with neg := false, part := 0, posVals := [], curVals := [], pos := p.pos + 1 }
      let j := { j with read := q }
      let inRange := decide (dwColStart b ≤ c) && decide (c < dwColStart b + dwColCount b)
      let s := if inRange then writeColumn j c s else s
      if q.pos < (readSet b).length ∨ j.dropped then (j, s, false) else transposedEnd j s

/-! ## Completion (R64, R71, R102, R105) -/

/-- The histogram of a readout: the elements written (R150, R152). -/
def readHist (j : DrwJob) : Hist :=
  let b := j.bytes
  let h : Hist := { fmt := rdFmt b }
  let rows := if isCols b then rangeRows b else (rangeRows b).take j.read.pos
  let cols := if isCols b then ((readSet b).take j.read.pos).filter fun c =>
      decide (dwColStart b ≤ c) && decide (c < dwColStart b + dwColCount b)
    else (List.range (rdColCount b)).map (rdColStart b + ·)
  rows.foldl (fun h r => cols.foldl (fun h c => h.countElem (levelOut j (levelAt j r c) c)) h) h

/-- The marginal-cell count of a readout (R55). -/
def marginalCount (j : DrwJob) : Nat := (j.read.marginal.map (·.2)).sum

/-- The readout covers a whole plane (R64). -/
def fullPlane (b : List Byte) : Bool :=
  isImage b || (rdRowStart b == 0 && rdRowCount b == 1024 && (!isCols b || dwAccum b))

/-- The status of a finished descriptor (R71, R120). -/
def drwFinalStatus (j : DrwJob) : Nat :=
  if isProduct j.bytes then
    if j.prod.exhausted ≠ 0 then stRetryExhausted
    else if invalidTrims j ≠ 0 then stTrimInvalid
    else if j.prod.saturated ≠ 0 then stConvSaturated else 0
  else if j.read.uncorrected ≠ 0 then (if isImage j.bytes then stImageIncomplete else stLevelCheck) else 0

/-- Bytes 16 to 31 of a completion of a Drawer descriptor (Tables 2.8 and 3.7). -/
def drwTail (j : DrwJob) (released : Bool) : List Byte :=
  let m := marginalCount j
  if isProduct j.bytes then
    leBytes 4 j.gen ++ leBytes 1 (j.plane + 2 * boolNat j.holdTaken + 8 * boolNat j.hot) ++ leBytes 1 j.prod.largest
      ++ leBytes 2 j.prod.completed ++ leBytes 2 j.prod.saturated ++ leBytes 2 j.prod.retried ++ leBytes 2 j.prod.exhausted
      ++ leBytes 2 (invalidTrims j)
  else if isImage j.bytes then
    leBytes 4 j.gen ++ leBytes 1 (j.plane + 2 * boolNat released) ++ leBytes 1 0 ++ leBytes 2 j.read.corrected
      ++ leBytes 2 j.read.uncorrected ++ leBytes 2 0 ++ leBytes 2 m ++ leBytes 2 (m / 65536)
  else
    leBytes 4 j.gen
      ++ leBytes 1 (j.plane + 2 * boolNat released + 4 * boolNat (isCols j.bytes && !dwAccum j.bytes) + 8 * boolNat j.hot)
      ++ leBytes 1 0 ++ leBytes 2 j.read.corrected ++ leBytes 2 j.read.uncorrected ++ leBytes 2 m ++ leBytes 2 (m / 65536)

/-- A full-plane readout ends: its marginal count is stored, and may flag the Drawer Worn (R64). -/
def fullPlaneEnd (j : DrwJob) (s : State) : State :=
  if !fullPlane j.bytes then s
  else
    let d := dwDrawer j.bytes
    let m := marginalCount j
    let s := modPlane d j.plane (fun p => { p with margin := m }) s
    if reg s rDrwWornLimit < m then
      let e : LogEntry := { source := 1, engine := d, detail := m + j.plane * 2 ^ 48 }
      logEntry (e.naming j.ref) (setFlag .drw 2 (modDrawer d (fun w => { w with worn := true }) s))
    else s

/-- A descriptor of a Drawer completes with a status: its record, its completion, and the hold it releases after it. A plane
imaged without loss loses its holds and is marked Imaged (R105). A stopped descriptor changes no hold count (R79, R412); its record
is written with the counts reached, 0 where it made no conversion (R150). A plane that is no longer Retained, since a PLN_PROGRAM has
taken it meanwhile, is not marked (DESIGN CHOICE, log entry 192). LOG_SAT goes by the status the completion carries (R86, R357). A
descriptor that a context reset dropped leaves nothing (R414). -/
def finishDrw (j : DrwJob) (status : Nat) (s : State) : State :=
  if j.dropped then s else
  let b := j.bytes
  let d := dwDrawer b
  let imaged := isImage b && status == 0 && ((drawer s d).plane j.plane).st == .retained
  let releases := !isProduct b && !isImage b && dwHold b && status != stWatchdog
  let released := imaged || (releases && ((drawer s d).plane j.plane).hold != 0)
  let s := if imaged then
      modPlane d j.plane (fun p => { p with hold := 0, imaged := true })
        (countHold j.ref.ctx true ((drawer s d).plane j.plane).hold s) else s
  let s := emitHist j.ref j.noHist 0 .drawer d (if isProduct b then j.prod.hist else readHist j) s
  let s := if isProduct b && invalidTrims j != 0 && j.prod.completed != 0 then setFlag .drw 3 s else s
  let out := statusOut s j.ref status
  let logged := regBit s rDrwCtrl 2 && (out == stConvSaturated || out == stRetryExhausted)
  let s := if logged then logEntry (({ code := status, source := 1, engine := d } : LogEntry).naming j.ref) s else s
  let s := complete j.ref status (drwTail j released) s
  if releases then releaseHold j.ref.ctx d j.plane s else s

/-- Complete the descriptors at the head of a Drawer's queue that need no conversion (R40, R70), at most `fuel` of them. -/
def settleDrawer : Nat → Nat → State → State
  | 0, _, s => s
  | fuel + 1, d, s =>
    match (drawer s d).queue with
    | [] => s
    | j :: js =>
      if j.begun || j.dropped || !isProduct j.bytes then s
      else
        let j' := beginJob s j
        let (j', s', done) := startVectors (dwVectors j.bytes + 1) j' (if dwVectors j.bytes = 0 then s else noteBegin j' s)
        if done then settleDrawer fuel d (finishDrw j' (drwFinalStatus j') (modDrawer d (fun w => { w with queue := js }) s'))
        else s

/-- Drop the head of a Drawer's queue, complete it, and settle what follows; a context reset that waited for it may end. -/
def popDrawer (d : Nat) (j : DrwJob) (status : Nat) (s : State) : State :=
  let s := modDrawer d (fun w => { w with queue := w.queue.drop 1 }) s
  let s := finishDrw j status s
  noteStopped j.dropped j.ref (settleDrawer (drawer s d).queue.length d s)

/-- The descriptor at the head of a Drawer's queue as its next conversion finds it: begun, its first vector started; and
whether that already ends it, every conversion having been skipped (R40). -/
def headJob (d : Nat) (s : State) : Option (DrwJob × State × Bool) :=
  match (drawer s d).queue with
  | [] => none
  | j :: _ =>
    if j.begun then some (j, s, false)
    else
      let j' := beginJob s j
      let s := noteBegin j' s
      if isProduct j.bytes then some (startVectors (dwVectors j.bytes + 1) j' s)
      else some (j', s, false)

/-- One conversion of a job, and whether it is the last. -/
def jobConversion (w : Drawer) (dev : Tab Int) (j : DrwJob) (s : State) : DrwJob × State × Bool :=
  if isProduct j.bytes then
    let (p, sat) := convert w j dev
    afterConversion { j with prod := p } (if sat = 0 then s else bump cDrwSat sat s)
  else if isCols j.bytes then readColConversion w dev j s
  else readRowConversion w dev j s

/-- A dropped readout has come to the end of a row, or of a column of a transposed one (R414; DEDUCED, log entry 202). -/
def DrwJob.atBoundary (j j' : DrwJob) : Bool :=
  j'.dropped && (j'.read.pos != j.read.pos || decide (j'.read.failing.length < j.read.failing.length))

/-- One conversion of a Drawer (R41, R54). -/
def conversionDone (d : Nat) (dev : Tab Int) (s : State) : State :=
  match headJob d s with
  | none => s
  | some (j, s, true) => popDrawer d j (drwFinalStatus j) s
  | some (j, s, false) =>
    let (j', s, done) := jobConversion (drawer s d) dev j s
    if done || j.atBoundary j' then popDrawer d j' (drwFinalStatus j') (if isProduct j.bytes || j.dropped then s else fullPlaneEnd j' s)
    else modDrawer d (fun w => { w with queue := j' :: w.queue.drop 1 }) s

end Sys2Proof.Machine
end

