-- ==== Sys2Proof/Machine/Commit.lean ====
section
/-!
DEFINITION. The step-boundary commit: rules, flips, trims and maps, the generation vector, the step sizes, the step record
and the lag check (R107 to R110 of spec/03_plane_programming.md; R221, R222, R227, R236 to R238, R242, R246 and R248 of
spec/07_training_step.md).
-/
namespace Sys2Proof.Machine

/-- Hutch's own accesses (R360). -/
def hutchAccess (r : DRef) : Access := ⟨11, 0, some r⟩

/-! ## Format rules (R236 to R238) -/

/-- The counts of a histogram entry by exponent −41 to +24, at places 0 to 65: BELOW, the bins, ABOVE (R238, Table 4.12). -/
def ruleCounts (h : List Byte) : List Nat :=
  [fieldAt h 256 4] ++ (List.range 64).map (fun i => fieldAt h (4 * i) 4) ++ [fieldAt h 260 4]

/-- The exponent at the top after a tail of `tail` / 65,536 is ignored. -/
def topExponent (c : List Nat) (tail : Nat) : Int :=
  let n := c.sum
  match ((List.range 66).map (65 - ·)).find? fun e => decide (n * tail < (c.drop e).sum * 65536) with
  | some e => (e : Int) - 41
  | none => -41

/-- The exponent at the bottom. -/
def bottomExponent (c : List Nat) (tail : Nat) : Int :=
  let n := c.sum
  match (List.range 66).find? fun e => decide (n * tail < (c.take (e + 1)).sum * 65536) with
  | some e => (e : Int) - 41
  | none => 24

/-- The widest allowed format of a rule. -/
def widestAllowed (allow : Nat) : Nat := if allow.testBit 2 then 1 else if allow.testBit 1 then 4 else 3

/-- The choice word of a rule for a histogram entry (R238). -/
def evaluateRule (rule h : List Byte) : Word :=
  let allow := fieldAt rule 0 1
  let c := ruleCounts h
  if c.sum = 0 then BitVec.ofNat 32 (fieldAt rule 8 1 % 16 + 256 * fieldAt rule 9 1 + 2 ^ 16)
  else
    let eHi := topExponent c (fieldAt rule 4 2)
    let eLo := bottomExponent c (fieldAt rule 6 2)
    let span := eHi - eLo + 1
    let forced := allow.testBit 3 && decide (0 < fieldAt h 272 4 + fieldAt h 276 4 + fieldAt h 280 4)
    let f :=
      if forced then widestAllowed allow
      else if allow.testBit 0 && decide (span ≤ (fieldAt rule 2 1 : Int)) then 3
      else if allow.testBit 1 && decide (span ≤ (fieldAt rule 3 1 : Int)) then 4
      else widestAllowed allow
    let top : Int := if f = 3 then 7 else 14
    let s : Int := if f = 1 then 0 else max (-128) (min 127 (top - eHi - (fieldAt rule 1 1 % 16 : Nat)))
    BitVec.ofNat 32 (f + 256 * unsigned 8 s + boolNat forced * 2 ^ 17)

/-- The entries of the rule input table, where it is present for the step (R237). -/
def ruleInput (s : State) (o : OpenStep) : Option (List Byte) :=
  let a := ctrlRuleInputAddr o.ctrl
  let body := readMem s (a + 64) (320 * ctrlRuleCount o.ctrl)
  if readNat s a 8 = o.num ∧ readNat s (a + 8) 4 = crc32c body then some body else none

/-- Record a poll of the rule input table (R357, R360). -/
def noteRuleInput (o : OpenStep) (s : State) : State :=
  noteRead (hutchAccess o.ref) (ctrlRuleInputAddr o.ctrl) (64 + 320 * ctrlRuleCount o.ctrl) s

/-- Step 4 of the commit: evaluate every rule and write the choices (R221). -/
def evaluateRules (o : OpenStep) (input : List Byte) (s : State) : OpenStep × State :=
  let n := ctrlRuleCount o.ctrl
  let choices := (List.range n).map fun i =>
    evaluateRule (readMem s (ctrlRuleAddr o.ctrl + 32 * i) 32) ((input.drop (320 * i)).take 292)
  let s := noteRead (hutchAccess o.ref) (ctrlRuleAddr o.ctrl) (32 * n) s
  let s := writeMem (hutchAccess o.ref) (ctrlChoiceAddr o.ctrl) (choices.flatMap fun c => leBytes 4 c.toNat) s
  ({ o with choices := choices, ruleCrc := crc32c input }, s)

/-! ## Flips, trims and maps (R107, R377, R80) -/

/-- A plane of a context is Ready. -/
def readyFor (ctx : Nat) (w : Drawer) : Bool :=
  (w.planeA.st == .ready && w.planeA.owner == some ctx) || (w.planeB.st == .ready && w.planeB.owner == some ctx)

/-- Drawers with a Ready plane that the context owns. -/
def readyDrawers (s : State) (ctx : Nat) : List Nat :=
  s.drawers.filterMap fun e => if readyFor ctx e.2 then some e.1 else none

/-- The Ready plane becomes Active and the other one Retained (R107). -/
def Drawer.flip (w : Drawer) : Drawer :=
  if w.planeA.st = .ready then
    { w with planeA := { w.planeA with st := .active }, planeB := { w.planeB with st := .retained }, activeB := false }
  else { w with planeA := { w.planeA with st := .retained }, planeB := { w.planeB with st := .active }, activeB := true }

/-- Drawers of a context's map that have a complete staged trim set (R377). -/
def stagedDrawers (s : State) (ctx : Nat) : List Nat :=
  s.drawers.filterMap fun e => if e.2.staged.isSome && mapped s ctx e.1 then some e.1 else none

/-- Map bytes take effect. -/
def applyMapBytes (ctx : Nat) (bytes : Tab (Option Byte)) (s : State) : State :=
  let m := bytes.foldl (fun m e => match e.2 with | some v => mapByte s e.1 v m | none => m) (mapOf s ctx)
  { s with maps := tabSet 0 s.maps ctx m }

/-! ## Generation vector, step sizes and record (R227, R242, R246) -/

/-- The 65,536 bytes of the generation vector of a context now (R227). -/
def genVector (s : State) (ctx : Nat) : List Byte :=
  (List.range 16384).flatMap fun d =>
    let w := drawer s d
    leBytes 4 (if mapped s ctx d then (w.plane w.activeIdx).gen else 0)

/-- What a look at the step-size table finds (R242, R243). -/
inductive SizesFound
  | notCurrent | invalid | good (count crc : Nat)
deriving DecidableEq, Repr

/-- An η or λ is not below zero, infinite or NaN; −0 is valid (R243). -/
def sizeValid (v : Nat) : Bool :=
  match fpDecode fpFp32 v with
  | .fin neg n _ => !neg || n == 0
  | _ => false

/-- Look at the step-size table (R242). -/
def findSizes (s : State) (o : OpenStep) : SizesFound :=
  let a := ctrlStepsizeAddr o.ctrl
  let count := readNat s (a + 12) 2
  if readNat s a 8 ≠ o.num then .notCurrent
  else if count = 0 ∨ 256 < count then .invalid
  else
    let body := readMem s (a + 64) (8 * count)
    if crc32c body ≠ readNat s (a + 8) 4 then .notCurrent
    else if (List.range (2 * count)).all fun i => sizeValid (fieldAt body (4 * i) 4) then .good count (crc32c body)
    else .invalid

/-- Record a poll of the step-size table: its header, and its entries where they are read (R242, R357, R360). -/
def noteSizes (r : DRef) (o : OpenStep) (s : State) : State :=
  let a := ctrlStepsizeAddr o.ctrl
  let count := readNat s (a + 12) 2
  noteRead (hutchAccess r) a (if readNat s a 8 ≠ o.num ∨ count = 0 ∨ 256 < count then 64 else 64 + 8 * count) s

/-- Capture a table of `count` entries into the snapshot. -/
def captureSizes (r : DRef) (o : OpenStep) (count : Nat) (s : State) : State :=
  writeMem (hutchAccess r) (ctrlSnapAddr o.ctrl) (readMem s (ctrlStepsizeAddr o.ctrl) (64 + 8 * count)) s

/-- COMMIT of the step record (Table 7.10). -/
def OpenStep.commitBits (o : OpenStep) : Nat := boolNat o.trimsTaken + 2 * boolNat o.capturedAtCommit

/-- The 256-byte header of the step record (Table 7.10). `tEnd`, `digest` and `exch` are those of a closed record; MAX_LAG and
WORST_DRAWER stay 0 until an attempt passes (R222). -/
def recordHeader (o : OpenStep) (ctx tEnd : Nat) (closed : Bool) (digest exch : List Byte) : List Byte :=
  leBytes 8 o.num ++ leBytes 8 o.tCommit ++ leBytes 8 o.tBegin ++ leBytes 8 tEnd
    ++ leBytes 1 (o.mode + 8 * boolNat o.repeated + 16 * boolNat o.restarted + 32 * boolNat closed
        + 64 * boolNat o.gatePassed + 128 * boolNat o.abandoned)
    ++ leBytes 1 ctx ++ leBytes 2 o.firstErr ++ leBytes 4 o.errCount ++ leBytes 4 o.firstErrIdx
    ++ leBytes 2 o.flips ++ leBytes 1 (if o.begun then min 255 o.maxLag else 0) ++ leBytes 1 o.commitBits
    ++ leBytes 2 (if o.begun then o.worst else 0)
    ++ leBytes 2 (ctrlRuleCount o.ctrl) ++ leBytes 4 o.genvecCrc
    ++ (match o.captured with
      | some (_, crc) => leBytes 8 o.num ++ leBytes 4 crc
      | none => zeros 12)
    ++ leBytes 4 o.ruleCrc ++ leBytes 4 o.holdsTaken ++ leBytes 4 o.holdsReleased
    ++ leBytes 4 (stop32 o.gateWait) ++ leBytes 4 (stop32 o.stall) ++ zeros 8 ++ padTo 32 digest ++ padTo 64 exch ++ zeros 64

/-- Where the record of a step lies (R246). -/
def recordAddr (o : OpenStep) : Nat := ctrlRecordBase o.ctrl + o.num % ctrlRecordCount o.ctrl * 33024

/-- Write the header of an open step's record. -/
def writeHeader (ctx : Nat) (o : OpenStep) (s : State) : State :=
  writeMem (hutchAccess o.ref) (recordAddr o) (recordHeader o ctx 0 false [] []) s

/-! ## Lag (R109, R110) -/

/-- The lag of a Drawer for a context about to begin step `num`, none where it does not count (R109). -/
def drawerLag (ctx num : Nat) (w : Drawer) : Option Nat :=
  let p := w.plane w.activeIdx
  match p.owner, p.mstep with
  | some n, some m => if n = ctx then some (num - 1 - m) else none
  | _, _ => none

/-- The largest lag and the lowest Drawer that has it. -/
def largestLag (s : State) (ctx num : Nat) : Option (Nat × Nat) :=
  s.drawers.foldl (fun best e => match drawerLag ctx num e.2, best with
    | none, b => b
    | some l, none => some (l, e.1)
    | some l, some (m, d) => if m < l then some (l, e.1) else some (m, d)) none

/-! ## The attempt (R221, R222) -/

/-- Clear STALLED of a context. -/
def clearStalled (ctx : Nat) (s : State) : State :=
  setReg (rPlnLagStatus ctx) (reg s (rPlnLagStatus ctx) % 2 ^ 22) s

/-- A Ready module in which a step begins is Running; a Fenced one stays Fenced (R26). -/
def nowRunning (s : State) : State :=
  if s.mod.st = .ready then { s with mod := { s.mod with st := .running } } else s

/-- The step begins: the module is Running, L is recorded and the STEP_BEGIN completes (R219, R223). -/
def beginStep (ctx : Nat) (o : OpenStep) (s : State) : State :=
  let now := s.mod.devTime
  let o := { o with
    begun := true, wait := .none, tBegin := now
    stall := match o.stalledAt with | some t => (now - t) / 1000 | none => 0 }
  let s := modStepCtx ctx (fun c => { c with
    opened := some o, last := some o.num, lastGate := false, lastEpoch := o.epochAt, begunSteps := (o.num :: c.begunSteps).dedup }) s
  let s := writeHeader ctx o (nowRunning s)
  complete o.ref 0 (leBytes 8 o.num ++ leBytes 2 o.flips ++ leBytes 1 (min 255 o.maxLag) ++ leBytes 1 o.commitBits
    ++ leBytes 4 (stop32 o.stall)) s

/-- Step 8: the lag check; the step begins or stalls (R110). The flag and the entry are those of the stall, set at its first failing attempt
(DESIGN CHOICE, log entry 90). -/
def lagCheck (ctx : Nat) (o : OpenStep) (s : State) : State :=
  let (lag, worst) := (largestLag s ctx o.num).getD (0, 0)
  let limit := reg s (rPlnLagLimit ctx) % 256
  let stall := decide (limit ≠ 0) && decide (limit < lag)
  let o := { o with maxLag := lag, worst := worst }
  let s := setReg (rPlnLagStatus ctx) (min 255 lag + worst * 256 + boolNat stall * 2 ^ 22) s
  if !stall then beginStep ctx o s
  else
    let s := modStepCtx ctx (fun c => { c with
      opened := some { o with wait := .lag, stalledAt := some (o.stalledAt.getD s.mod.devTime) } }) s
    if o.stalledAt.isSome then s
    else
      let e : LogEntry := { code := stPlaneLag, source := 1, engine := worst, detail := worst + min 255 lag * 2 ^ 16 }
      logEntry (e.naming o.ref) (setFlag .pln 1 s)

/-- Steps 2 and 3: flips, staged trims and staged maps take effect (R80, R107, R221, R377). -/
def takeStaged (ctx : Nat) (flips trims : List Nat) (maps : Tab (Option Byte)) (s : State) : State :=
  applyMapBytes ctx maps (trims.foldl (fun s d => stagedInForce d s) (flips.foldl (fun s d => modDrawer d Drawer.flip s) s))

/-- Step 4: the rules are evaluated where `input` gives their table (R221). -/
def applyRules (o : OpenStep) (input : Option (List Byte)) (s : State) : OpenStep × State :=
  match input with
  | some body => evaluateRules o body s
  | none => (o, s)

/-- Step 6: a step-size table that is already current and passes its checks is captured (R221, R242). -/
def captureAtCommit (o : OpenStep) (s : State) : OpenStep × State :=
  match o.captured with
  | some _ => (o, s)
  | none =>
    let t := noteSizes o.ref o s
    match findSizes s o with
    | .good count crc => ({ o with captured := some (count, crc), capturedAtCommit := true }, captureSizes o.ref o count t)
    | _ => (o, t)

/-- Step 7: the step record is written whole when the commit opens it, its header at later attempts (R221, R222). -/
def writeRecord (ctx : Nat) (o : OpenStep) (opens : Bool) (s : State) : State :=
  if opens then writeMem (hutchAccess o.ref) (recordAddr o) (recordHeader o ctx 0 false [] [] ++ zeros 32768) s
  else writeHeader ctx o s

/-- The generation vector of the commit, kept in the open step, and nothing staged any more. -/
def OpenStep.committed (o : OpenStep) (vec : List Byte) : OpenStep :=
  { o with genvecCrc := crc32c vec, readyAt := [], trimsAt := [], mapsAt := [] }

/-- Steps 2 to 8 of the commit, over the given items; the rules are evaluated where `input` gives their table. -/
def runAttempt (ctx : Nat) (o : OpenStep) (flips trims : List Nat) (maps : Tab (Option Byte)) (input : Option (List Byte))
    (opens : Bool) (s : State) : State :=
  let flips := if o.repeated then [] else flips.filter fun d => readyFor ctx (drawer s d)
  let trims := trims.filter fun d => (drawer s d).staged.isSome
  let s := takeStaged ctx flips trims maps s
  let r := applyRules { o with flips := o.flips + flips.length, trimsTaken := o.trimsTaken || !trims.isEmpty } input s
  let vec := genVector r.2 ctx
  let s := writeMem (hutchAccess o.ref) (ctrlGenvecBase o.ctrl + o.num % 4 * 65536) vec r.2
  let q := captureAtCommit (r.1.committed vec) s
  lagCheck ctx q.1 (writeRecord ctx q.1 opens q.2)

/-- The slots read at the commit (R248). -/
def readSlots (s : State) (ctrl : List Byte) : List (Option Nat) :=
  (List.range (ctrlSlotCount ctrl)).map fun i =>
    let a := ctrlSlotAddr ctrl + 16 * i
    if (memByte s.mem (a + 4)).getLsbD 0 then some (readNat s a 4) else none

/-- The first attempt, over the items staged when the commit began. -/
def firstAttempt (ctx : Nat) (o : OpenStep) (input : Option (List Byte)) (s : State) : State :=
  let o := { o with slots := readSlots s o.ctrl }
  let s := noteRead (hutchAccess o.ref) (ctrlSlotAddr o.ctrl) (16 * ctrlSlotCount o.ctrl) s
  runAttempt ctx o o.readyAt o.trimsAt o.mapsAt input true s

/-- A later attempt of a stalled context, over what has been staged since (R110, R222). -/
def retryCommit (ctx : Nat) (s : State) : State :=
  match (stepCtx s ctx).opened with
  | some o =>
    if o.wait = .lag then
      let maps := tabGet [] s.stagedMaps ctx
      runAttempt ctx o (readyDrawers s ctx) (stagedDrawers s ctx) maps none false
        { s with stagedMaps := tabSet [] s.stagedMaps ctx [] }
    else s
  | none => s

/-- Begin or go on with a commit that may wait for its rule input (R221 step 1). -/
def tryCommit (ctx : Nat) (s : State) : State :=
  match (stepCtx s ctx).opened with
  | some o =>
    if o.begun || o.wait == .lag then s
    else if ctrlRuleCount o.ctrl = 0 then firstAttempt ctx o none s
    else match ruleInput s o with
      | some body => firstAttempt ctx o (some body) (noteRuleInput o s)
      | none => modOpen ctx (fun o => { o with wait := .ruleInput }) (noteRuleInput o s)
  | none => s

/-- A STEP_BEGIN completes with no step begun: what was staged for its maps takes effect (R80). -/
def endUnbegun (ctx : Nat) (o : OpenStep) (status : Nat) (s : State) : State :=
  let s := applyStagedMaps ctx (applyMapBytes ctx o.mapsAt s)
  let s := clearStalled ctx (modStepCtx ctx (fun c => { c with opened := none }) s)
  let stall := match o.stalledAt with | some t => (s.mod.devTime - t) / 1000 | none => 0
  complete o.ref status (leBytes 8 o.num ++ leBytes 2 o.flips ++ leBytes 1 (min 255 o.maxLag) ++ leBytes 1 o.commitBits
    ++ leBytes 4 (stop32 stall)) s

end Sys2Proof.Machine
end

