-- ==== Sys2Proof/Machine/Calibration.lean ====
section
/-!
DEFINITION. Calibration: the reference step, the calibration of a Drawer, runs, and the saving and restoring of trims (R379 to
R392 of spec/12_calibration.md).
-/
namespace Sys2Proof.Machine

/-! ## One column (R381, R382, Table 12.2) -/

/-- Eight times the expected code of reference conversion `i`. -/
def expected8 (i : Nat) : Int := [30, 90, 195, -30, -90, -195].getD (i / 8) 0

/-- The codes of a column the command does not list: offset codes 0, and reference codes nearest to the expected ones. -/
def idealCodes : List Int :=
  List.replicate 16 0 ++ (List.range 48).map fun i =>
    let e := expected8 i
    roundInt .nearest (decide (e < 0)) e.natAbs 8

/-- What a column's codes fit to. -/
structure Fit where
  offset : Int
  gain : Nat
  quality : Nat
  clamped : Bool
deriving DecidableEq, Repr

/-- The mean of 16 offset codes in units of 1/32 LSB: 32 × mean is twice their sum. -/
def fitOffset (k0 : List Int) : Int := 2 * k0.sum

/-- The gain code for Σ e(32k − o) = `n`, in eighths, before its clamp: b is n / 3,009,600; none where b ≤ 0 (R382). -/
def fitGain (n : Int) : Option Int :=
  if n ≤ 0 then none
  else
    let x : Int := 16384 * (3009600 - n)
    some (roundInt .nearest (decide (x < 0)) x.natAbs n.natAbs + 2048)

/-- 64 times the rms residual, rounded, at most 63. `sq` is Σ T² with T the residual in units of 2^−19 LSB. -/
def fitQuality (sq : Nat) : Nat :=
  let unit := 48 * 8192 * 8192
  ((List.range 63).filter fun q =>
    decide (unit * (2 * q + 1) ^ 2 < 4 * sq) || (unit * (2 * q + 1) ^ 2 == 4 * sq && q % 2 == 1)).length

/-- Fit a column to its 64 codes, exactly but for the stated roundings (R382). -/
def fitColumn (codes : List Int) : Fit :=
  let raw := fitOffset (codes.take 16)
  let o := max (-512) (min 511 raw)
  let ks := (codes.drop 16).take 48
  let pts := ks.zip ((List.range 48).map expected8)
  let g := fitGain (pts.map fun p => p.2 * (32 * p.1 - o)).sum
  let gain : Nat := match g with | some x => (max 0 (min 4095 x)).toNat | none => 4095
  let t := pts.map fun p => (14336 + (gain : Int)) * (32 * p.1 - o) - 65536 * p.2
  { offset := o, gain := gain, quality := fitQuality ((t.map fun x => (x * x).natAbs).sum)
    clamped := decide (raw < -512) || decide (511 < raw)
      || (match g with | some x => decide (x < 0) || decide (4095 < x) | none => true) }

/-- The trim entry of a fit (Table 12.1). -/
def Fit.entry (f : Fit) (high valid : Bool) : Word :=
  BitVec.ofNat 32 (f.gain + unsigned 10 f.offset * 2 ^ 12 + f.quality * 2 ^ 22 + boolNat f.clamped * 2 ^ 28
    + boolNat high * 2 ^ 29 + boolNat valid * 2 ^ 31)

/-! ## Runs (R384 to R387, R391) -/

def calRuns (f : List CalRun → List CalRun) (s : State) : State := { s with cal := { s.cal with runs := f s.cal.runs } }

def dieCal (s : State) (die : Nat) : DieCal := tabGet {} s.cal.dies die

def modDie (die : Nat) (f : DieCal → DieCal) (s : State) : State :=
  { s with cal := { s.cal with dies := tabMod {} s.cal.dies die f } }

/-- A log entry of a run, naming its CAL_RUN where there is one. -/
def CalRun.entry (r : CalRun) (e : LogEntry) : LogEntry :=
  let e := { e with source := 9 }
  match r.ref with | some d => e.naming d | none => e

/-- The status of a CAL_RUN (R391). -/
def CalRun.status (r : CalRun) (wdog : Bool) : Nat :=
  if wdog then stWatchdog else if r.vrefFault then stCalVrefFault else if r.residualHigh then stCalResidualHigh else 0

/-- RUN_COMPLETE: what the end of a run does, once it has left the list (R385, R386). -/
def finishRun (wdog : Bool) (r : CalRun) (s : State) : State :=
  let s := if wdog then
      logEntry (r.entry { code := stWatchdog, engine := r.die }) (setFlag .cal 3 (bump cCalWdog 1 s))
    else
      let s := setFlag .cal 0 s
      if regBit s rCalCtrl 2 then logEntry { source := 9, engine := r.die } s else s
  match r.ref with
  | none =>
    let s := modDie r.die (fun d => { d with last := r.started }) s
    if wdog || r.vrefFault then s else modDie r.die (fun d => { d with tRef := r.tRef, refValid := true }) s
  | some d =>
    let missed := r.notReached + r.todo.length
    complete d (r.status wdog) (leBytes 4 r.done.length ++ leBytes 4 r.high ++ leBytes 4 r.clamped ++ leBytes 2 missed
      ++ leBytes 1 r.worstQuality ++ zeros 1) s

/-- End the runs that have nothing left to calibrate. -/
def finishRuns (s : State) : State :=
  let ended := s.cal.runs.filter (·.todo.isEmpty)
  ended.foldl (fun s r => finishRun false r s) (calRuns (fun rs => rs.filter fun r => !r.todo.isEmpty) s)

/-- A run on the die is in progress; a whole-die run is. -/
def dieRunning (s : State) (die : Nat) : Bool :=
  s.cal.runs.any fun r => (r.ref.isNone && r.die == die) || r.todo.any fun d => dieOf d == die

def wholeDieRunning (s : State) (die : Nat) : Bool := s.cal.runs.any fun r => r.ref.isNone && r.die == die

/-- CAL_VREF is within 1.2375 V to 1.2625 V (R380). -/
def vrefGood (vref : Nat) : Bool := decide (1237500 ≤ vref) && decide (vref ≤ 1262500)

/-- What CAL_VREF measures on a die, in microvolts. -/
def vrefOf (vref : List (Fin 2097152)) (die : Nat) : Nat := match vref[die]? with | some v => v.val | none => 0

/-- CAL_VREF_MEASURE on one die: the result is kept, and outside its limits the run on that die stops before any Drawer of it is
calibrated (R380). -/
def measureDie (vref die : Nat) (r : CalRun) (s : State) : CalRun × State :=
  let s := { s with cal := { s.cal with vref := some (vref, die) } }
  if vrefGood vref then (r, s)
  else
    ({ r with
        vrefFault := true, todo := r.todo.filter (fun d => dieOf d != die)
        notReached := r.notReached + (r.todo.filter fun d => dieOf d == die).length },
      logEntry (r.entry { code := stCalVrefFault, engine := die }) (setFlag .cal 2 s))

/-- The dies of a run are measured in ascending order (R380, R384). -/
def measureVref (vref : List (Fin 2097152)) (dies : List Nat) (r : CalRun) (s : State) : CalRun × State :=
  dies.foldl (fun x die => measureDie (vrefOf vref die) die x.1 x.2) (r, s)

/-- A run starts: it is numbered, CAL_VREF is measured, and a run with nothing to calibrate ends. -/
def startRun (vref : List (Fin 2097152)) (dies : List Nat) (r : CalRun) (s : State) : State :=
  let x := measureVref vref dies { r with num := s.cal.begun } { s with cal := { s.cal with begun := s.cal.begun + 1 } }
  finishRuns (calRuns (· ++ [x.1]) x.2)

/-- The Drawers of a range that are not retired. -/
def inServiceDrawers (s : State) (first n : Nat) : List Nat :=
  ((List.range n).map (first + ·)).filter fun d => !(drawer s d).retired

/-- A whole-die run starts, unless one is in progress (R384, Table 12.8). -/
def wholeDieRun (vref : List (Fin 2097152)) (die : Nat) (s : State) : State :=
  if wholeDieRunning s die then s
  else startRun vref [die]
    { die := die, todo := inServiceDrawers s (2048 * die) 2048, tRef := dieReading s die, started := s.mod.devTime } s

/-! ## The calibration of one Drawer (R381 to R383) -/

/-- The fit of every column, with its HIGH mark. -/
def fitDrawer (s : State) (codes : Tab (List Int)) : List (Fit × Bool) :=
  (List.range 1024).map fun c =>
    let f := fitColumn (tabGet idealCodes codes c)
    (f, decide (reg s rCalLimit % 64 < f.quality))

/-- A table of the entries that are not 0. -/
def wordTab (ws : List Word) : Tab Word := tabSetList 0 [] 0 ws

/-- The level of a cell of reference row `row`: +15 in rows 0 to 3, −15 in rows 4 to 7, in canonical form (R31, Table 2.1). -/
def refLevel (row neg : Nat) : Nat := if (row < 4) = (neg = 0) then 15 else 0

/-- The reading of a cell of a reference row, with its deviation. -/
def refReading (w : Drawer) (dev : Tab Int) (row pair neg : Nat) : Int :=
  (tabGet none w.refCells (cellKey row pair neg)).getD (2000 + 4000 * (refLevel row neg : Nat)) + tabGet 0 dev (cellKey row pair neg)

/-- The pair column serves a logical column: a column in place, or a spare column in use. -/
def pairInUse (w : Drawer) (pair : Nat) : Bool :=
  if pair < 1024 then (tabGet none w.colRemap pair).isNone else w.colRemap.any fun e => e.2 == some (pair - 1024)

/-- A cell of a reference row does not read the level of its pattern. -/
def refCellWrong (w : Drawer) (dev : Tab Int) (key : Nat) : Bool :=
  pairInUse w (key % 2072 / 2)
    && decideLevel (refReading w dev (key / 2072) (key % 2072 / 2) (key % 2)) != refLevel (key / 2072) (key % 2)

/-- The first reference row that does not read its pattern in a column in use (R381 step 1). A cell that neither differs on the
array nor deviates in the reading reads its level. -/
def refBadRow (w : Drawer) (dev : Tab Int) : Option Nat :=
  (List.range 8).find? fun row => (w.refCells.map (·.1) ++ dev.map (·.1)).any fun k => k / 2072 == row && refCellWrong w dev k

/-- A reference row read wrong: every staged entry is invalid, and the row is logged (R381 step 1). -/
def badReference (r : CalRun) (d row : Nat) (s : State) : CalRun × State :=
  let e := r.entry { code := stCalResidualHigh, engine := d, detail := row * 2 ^ 32 }
  ({ r with residualHigh := true }, logEntry e (setFlag .cal 1 (stageTrims d [] s)))

/-- Residuals above the limit: the entry names the first column and their count (Table 14.5). -/
def logResidual (r : CalRun) (d : Nat) (high : List Nat) (s : State) : State :=
  match high with
  | [] => s
  | c :: _ =>
    logEntry (r.entry { code := stCalResidualHigh, engine := d, detail := c * 2 ^ 32 + high.length * 2 ^ 49 }) (setFlag .cal 1 s)

/-- The column's entry is held clear in run `num`: it is retired, or remapped by an entry written after the run began (R378). -/
def heldInRun (w : Drawer) (num c : Nat) : Bool := w.retCols.contains c || w.unmeasured.any fun e => e.1 == c && decide (num < e.2)

/-- A Drawer's entries are fitted and staged; HIGH columns are counted and logged once (R382, R383). -/
def stageFits (r : CalRun) (d : Nat) (codes : Tab (List Int)) (s : State) : CalRun × State :=
  let fits := fitDrawer s codes
  let w := drawer s d
  let entries := (fits.zip (List.range 1024)).map fun p =>
    p.1.1.entry p.1.2 (!(p.1.2 && regBit s rCalCtrl 1) && !heldInRun w r.num p.2)
  let high := (List.range 1024).filter fun c => (fits.map (·.2)).getD c false
  let clamped := (fits.filter (·.1.clamped)).length
  let s := modDrawer d (fun w => { w with unmeasured := w.unmeasured.filter fun e => decide (r.num < e.2) }) s
  let s := bump cCalHigh high.length (bump cCalClamp clamped s)
  let s := logResidual r d high s
  ({ r with
      high := r.high + high.length, clamped := r.clamped + clamped, residualHigh := r.residualHigh || !high.isEmpty
      worstQuality := (fits.map (·.1.quality)).foldl max r.worstQuality }, stageTrims d (wordTab entries) s)

/-- The Drawer is at a gap between descriptors (R75, R381). -/
def atGap (s : State) (d : Nat) : Bool := match (drawer s d).queue with | j :: _ => !j.begun | [] => true

/-- What one Drawer's calibration leaves: a bad reference row, or a staged trim set (R381, R382). -/
def measureDrawer (r : CalRun) (d : Nat) (dev : Tab Int) (codes : Tab (List Int)) (s : State) : CalRun × State :=
  match refBadRow (drawer s d) dev with
  | some row => badReference r d row s
  | none => stageFits r d codes s

/-- DRAWER_CALIBRATION: 80 conversions of Drawer `d`, for the oldest run that has it to calibrate. `dev` lists, by cell of the
reference rows, the deviations of their readings in thousandths of a code; `codes` lists, by column, 16 offset codes and 48 reference codes, where they are not the ideal ones. -/
def execDrawerCalibration (d : Fin 16384) (dev : Tab Int) (codes : Tab (List Int)) (s : State) :
    Host.Outcome State Fault Refusal :=
  match s.cal.runs.find? (·.todo.contains d.val) with
  | none => .next s
  | some r =>
    if !atGap s d then .next s
    else
      let (r', s') := measureDrawer r d dev codes s
      let r' := { r' with todo := r.todo.filter (· != d.val), done := r.done ++ [d.val] }
      .next (finishRuns (bump cCalRuns 1 (calRuns (fun rs => rs.map fun q => if q = r then r' else q) s')))

/-- CAL_RUN_WATCHDOG: run `i` of those in progress reaches 1 s (R385). -/
def execCalRunWatchdog (run : Fin 64) (s : State) : Host.Outcome State Fault Refusal :=
  match s.cal.runs[run.val]? with
  | some r => .next (finishRun true r (calRuns (fun rs => rs.eraseIdx run) s))
  | none => .next s

/-- CAL_REQ: a write starts whole-die runs on the dies of its set bits (R384). -/
def execCalReq (dies : Byte) (vref : List (Fin 2097152)) (s : State) : Host.Outcome State Fault Refusal :=
  if !inService s then .next s
  else .next ((List.range 8).foldl (fun s die => if dies.getLsbD die then wholeDieRun vref die s else s) s)

/-- CAL_TEMP_CHECK: every 10 ms, a die further than DELTA from its reference temperature starts a whole-die run (R387). -/
def execCalTempCheck (vref : List (Fin 2097152)) (s : State) : Host.Outcome State Fault Refusal :=
  if !inService s || !regBit s rCalCtrl 0 then .next s
  else .next ((List.range 8).foldl (fun s die =>
    let far := decide (reg s rCalTrig % 256 < (dieReading s die - (dieCal s die).tRef).natAbs)
    if (dieCal s die).refValid && !dieRunning s die && far then wholeDieRun vref die s else s) s)

/-! ## Calibration descriptors (R388 to R391) -/

def calFirst (b : List Byte) : Nat := fieldAt b 16 2 % 16384
def calCount (b : List Byte) : Nat := fieldAt b 18 2 % 32768
def calImage (b : List Byte) : Nat := fieldAt b 24 8
def calImageBytes (b : List Byte) : Nat := 64 + 4112 * calCount b

/-- The image header agrees with the descriptor and the check value with the image (Table 12.6 order 4). -/
def imageGood (s : State) (b : List Byte) : Bool :=
  let a := calImage b
  readNat s a 4 == 0x43545231 && readNat s (a + 4) 2 == 1 && readNat s (a + 6) 2 == calFirst b && readNat s (a + 8) 2 == calCount b
    && readNat s (a + 12) 4 == crc32c (readMem s (a + 64) (4112 * calCount b))

/-- The first failing check, 0 where all pass (Table 12.6). -/
def calStatus (s : State) (ctx : Nat) (b : List Byte) : Nat :=
  let op := dOpcode b
  if calCount b = 0 ∨ 16384 < calFirst b + calCount b ∨ (op ≠ 0x73 ∧ calImage b % 16 ≠ 0) then stFieldInvalid
  else if !((List.range (calCount b)).all fun i => mapped s ctx (calFirst b + i)) then stDrawerUnmapped
  else if op ≠ 0x73 ∧ !permitted s ctx (calImage b) (calImageBytes b) (op == 0x72) (op == 0x71) then stLengthExceeds
  else if op = 0x72 ∧ !imageGood s b then stTrimRestoreInvalid
  else 0

/-- The check value of a Drawer's column remap table, as its periphery computes it. -/
def remapCheck (w : Drawer) : Nat :=
  (Config.remapCrc (w.colRemap.filterMap fun e => e.2.map fun k => (e.1, k))).toNat

def calAccess (r : DRef) (b : List Byte) : Access := ⟨9, dieOf (calFirst b), some r⟩

/-- Table 12.5 for a range. -/
def trimImage (s : State) (b : List Byte) : List Byte :=
  let body := (List.range (calCount b)).flatMap fun i =>
    let d := calFirst b + i
    leBytes 2 d ++ zeros 2 ++ leBytes 4 (remapCheck (drawer s d)) ++ zeros 8 ++ readMem s (trimAddr d 0) 4096
  leBytes 4 0x43545231 ++ leBytes 2 1 ++ leBytes 2 (calFirst b) ++ leBytes 2 (calCount b) ++ zeros 2 ++ leBytes 4 (crc32c body)
    ++ (List.range 8).flatMap (fun die => leBytes 2 (if (dieCal s die).refValid then unsigned 16 (dieCal s die).tRef else 0x8000))
    ++ leBytes 8 s.mod.devTime ++ zeros 24 ++ body

/-- CAL_SAVE: the in-force entries of a range go to an image. -/
def execCalSave (ctx : Fin 16) (ring : Fin 8) (s : State) : Host.Outcome State Fault Refusal :=
  .next (dispatchOp ctx ring 0x71 (fun a s =>
    let b := a.bytes
    let st := calStatus s a.ref.ctx b
    if st ≠ 0 then reject a.ref st [] s
    else
      let acc := calAccess a.ref b
      let valid := ((List.range (calCount b)).map fun i =>
        ((List.range 1024).filter fun c => (trimOf s (calFirst b + i) c).getLsbD 31).length).sum
      let img := trimImage s b
      let s := noteRead acc (trimAddr (calFirst b) 0) (4096 * calCount b) s
      complete a.ref 0 (leBytes 4 (calCount b) ++ leBytes 4 valid) (writeMem acc (calImage b) img s)) s)

/-- Stage one Drawer's entries from an image, unless its remap table has changed (R389); the reserved bit of an entry is ignored (R7, Table
12.1). Answers whether it was staged and the entries held invalid. -/
def restoreDrawer (b : List Byte) (i : Nat) (s : State) : Bool × Nat × State :=
  let d := calFirst b + i
  let a := calImage b + 64 + 4112 * i
  let w := drawer s d
  if readNat s (a + 4) 4 ≠ remapCheck w then (false, 0, setFlag .cal 4 s)
  else
    let entries := (List.range 1024).map fun c =>
      let v : Word := BitVec.ofNat 32 (readNat s (a + 16 + 4 * c) 4) &&& 0xBFFFFFFF
      if heldClear w c then v &&& 0x7FFFFFFF else v
    (true, ((List.range 1024).filter (heldClear w)).length, stageTrims d (wordTab entries) s)

/-- The temperature of a die in an image, none for 0x8000. -/
def imageTemp (s : State) (b : List Byte) (die : Nat) : Option Int :=
  let v := readNat s (calImage b + 16 + 2 * die) 2
  if v = 0x8000 then none else some (signed 16 v)

/-- Restore the first `n` Drawers of an image: those staged, the columns held clear, and the state (R390). -/
def restoreRange (b : List Byte) : Nat → State → List Nat × Nat × State
  | 0, s => ([], 0, s)
  | n + 1, s =>
    let (ds, held, s) := restoreRange b n s
    let (ok, k, s) := restoreDrawer b n s
    (if ok then (calFirst b + n) :: ds else ds, held + k, s)

/-- The reference temperature of a die comes from the image where every Drawer in service of the die was staged. -/
def restoreDie (staged : List Nat) (temp : Option Int) (die : Nat) (s : State) : State :=
  let mine := inServiceDrawers s (2048 * die) 2048
  if !mine.isEmpty && mine.all (staged.contains ·) then
    modDie die (fun c => match temp with
      | some t => { c with tRef := t, refValid := true }
      | none => { c with refValid := false }) s
  else s

/-- CAL_RESTORE: the entries of a range are staged from an image; order 4 of Table 12.6 reads the image, whatever it then finds
(R360). -/
def execCalRestore (ctx : Fin 16) (ring : Fin 8) (s : State) : Host.Outcome State Fault Refusal :=
  .next (dispatchOp ctx ring 0x72 (fun a s =>
    let b := a.bytes
    let st := calStatus s a.ref.ctx b
    let s0 := s
    let s := if st = 0 ∨ st = stTrimRestoreInvalid then noteRead (calAccess a.ref b) (calImage b) (calImageBytes b) s else s
    if st ≠ 0 then reject a.ref st [] s
    else
      let (staged, held, s) := restoreRange b (calCount b) s
      let s := (List.range 8).foldl (fun s die => restoreDie staged (imageTemp s0 b die) die s) s
      complete a.ref 0 (leBytes 4 staged.length ++ leBytes 4 (calCount b - staged.length) ++ leBytes 4 held) s) s)

/-- CAL_RUN: a run over a range starts; it completes when every Drawer of the range is staged. -/
def execCalRun (ctx : Fin 16) (ring : Fin 8) (vref : List (Fin 2097152)) (s : State) : Host.Outcome State Fault Refusal :=
  .next (dispatchOp ctx ring 0x73 (fun a s =>
    let b := a.bytes
    let st := calStatus s a.ref.ctx b
    if st ≠ 0 then reject a.ref st [] s
    else
      let dies := (List.range 8).filter fun die =>
        decide (dieOf (calFirst b) ≤ die) && decide (die ≤ dieOf (calFirst b + calCount b - 1))
      startRun vref dies { die := dieOf (calFirst b), ref := some a.ref,
                           todo := inServiceDrawers s (calFirst b) (calCount b), started := s.mod.devTime } s) s)

end Sys2Proof.Machine
end

