-- ==== Sys2Proof/Machine/Precedence.lean ====
section
/-!
DEFINITION. Which of the transitions of Table 1.8 that coincide the module takes: the commands that wait in the queue belong to the
nanosecond of the one in hand, and the transition of highest precedence is taken (R29 of spec/01_module_overview.md).
-/
namespace Sys2Proof.Machine

/-- The key of RCV_RESET (R415). -/
abbrev resetKey : Nat := 0xC9A7

/-- The RCV_ and FWU_ windows answer in Ready, Running, Fenced and Recovery (R326). -/
def rcvOpen (s : State) : Bool := inService s || s.mod.st == .recovery

/-- A BAR0 offset answers an access as its register does. In Booting HIF_STATE and the capability list answer; in Recovery also
HIF_APERTURE, HIF_BAD_ACCESS and the RCV_ and FWU_ windows; every other offset reads as 0 there and ignores writes (R326). -/
def bar0Answers (s : State) (off : Nat) : Bool :=
  let list := decide (off < 4) || (decide (0x100 ≤ off) && decide (off < 0x1000))
  match s.mod.st with
  | .booting => list
  | .recovery => list || (decide (0x28 ≤ off) && decide (off < 0x30)) || (decide (0x50 ≤ off) && decide (off < 0x58))
      || (decide (0x0B00000 ≤ off) && decide (off < 0x0D00000))
  | .ready | .running | .fenced => true
  | .off | .standby | .retired => false

/-- A BAR0 offset takes a write: as `bar0Answers`, but for Booting, where nothing is written (R326). -/
def bar0Takes (s : State) (off : Nat) : Bool := s.mod.st != .booting && bar0Answers s off

/-- The fourth reset within 900 s retires the module (R417). -/
def retires (times : List Nat) : Bool :=
  match times with
  | [a, _, _, d] => decide (a ≤ d + 900000000)
  | _ => false

/-- The times of the last four device-level resets, with one now. -/
def timesWithReset (s : State) : List Nat := (nstTime s :: s.mod.resetTimes).take 4

/-- Loss of standby power waits: precedence 1. -/
def lossWaits (s : State) : Bool := waits s .standbyPowerLost || waits s .inputOvervoltage

/-- An activation suspends the watchdog of Hutch's heartbeat, for no more than 1 s (R434 step 1). -/
def hbHeld (s : State) : Bool :=
  s.rcv.hbSuspended && decide (s.mod.nstNs < s.rcv.hbSuspendedAt + 1000000000)

/-- The next miss of Hutch's heartbeat is the third, and resets Hutch (R411). -/
def missResets (s : State) : Bool := inService s && s.rcv.hbArmed && !hbHeld s && decide (2 ≤ s.rcv.hbMisses)

/-- That reset would be the third within 600 s, and AUTO_WARM makes it a device warm reset (R411). -/
def missWarms (s : State) : Bool := missResets s && thirdReset s.rcv.hutchTimes s.mod.devTime && regBit s rRcvCtrl 1

/-- A step is executing in some context, or a STEP_BEGIN has been dispatched and has not completed (R433). -/
def stepBusy (s : State) : Bool :=
  s.steps.any (fun e => e.2.opened.isSome)
    || s.doors.any fun e => e.2.rings.any fun q => q.2.opened.any fun d => d.dispatched && dOpcode d.bytes == 0x11

/-- A STEP_BEGIN is dispatched in this nanosecond: it goes before an ACTIVATE (R439). -/
def beginDue (s : State) : Bool :=
  s.pending.any fun i => match i with
    | .stepBegin ctx ring => (dispatchable s ctx ring).any fun d => dOpcode d.bytes == 0x11
    | _ => false

/-- Why ACTIVATE is refused, 0 where it is accepted (R433, R439). -/
def activateReason (s : State) : Nat :=
  if s.fwu.state ≠ .verified then 5
  else if stepBusy s || beginDue s then 1
  else if s.mod.pwrHold then 2
  else if s.fwu.ownerLock then 3
  else 0

/-- The device-level reset that a command asks for, if it does, and whether it is a cold one (R411, R415, R435, R436). -/
def resetAsked (s : State) (i : Instr) : Option Bool :=
  let when := fun (c cold : Bool) => if c then some cold else none
  match i with
  | .deviceWarmReset k _ => when (rcvOpen s && k.val == resetKey) false
  | .deviceColdReset k => when (rcvOpen s && k.val == resetKey) true
  | .mctpWarmReset => when (mainPower s) false
  | .mctpColdReset => when (mainPower s) true
  | .hutchRestoreTimeout => when (inService s && s.rcv.hutchAwaited && regBit s rRcvCtrl 1) false
  | .hutchHeartbeatMiss => when (missWarms s) false
  | .activateWatchdog => when (s.fwu.act == .reloading) true
  | .fwuActivate => when (s.mod.st == .recovery && activateReason s == 0) true
  | .activateFirmware => when (s.mod.st == .recovery && activateReason s == 0) true
  | _ => none

/-- A device-level reset waits: precedence 5, or 2 where it retires the module. -/
def resetWaits (s : State) : Bool := s.pending.any fun i => (resetAsked s i).isSome

/-! ## The converter of Nightstand (R396) -/

/-- The die channels 12 to 23. -/
def dieChannels : List Nat := [12, 13, 14, 15, 16, 17, 18, 19, 20, 21, 22, 23]

/-- The end time of a channel's last conversion; standby power's start where it has had none. -/
def lastEndOf (s : State) (c : Nat) : Nat := tabGet 0 s.nst.lastEnd c

/-- A channel whose conversion is inserted now, and whether it answers START: channel 3 after 5 µs, then the overdue ones
by number, then START (R396). -/
def dueInsert (s : State) : Option (Nat × Bool) :=
  let now := s.mod.nstNs
  if lastEndOf s 3 + 5000 ≤ now then some (3, false)
  else match (2 :: dieChannels).find? (fun c => decide (lastEndOf s c + 1000000 ≤ now)) with
    | some c => some (c, false)
    | none => s.nst.startPending.map fun c => (c, true)

/-- The channels of a pass of the scan list (R396). -/
def scanPass (s : State) : List Nat :=
  (List.range (bitsOf (reg s rNstCtrl) 14 8)).map fun j => reg s (rNstScan j) % 32

/-- Choose the conversion that follows: an inserted one, else the next slot; a new pass reads the list again (R396). -/
def nextConversion (s : State) : State :=
  match dueInsert s with
  | some (c, start) =>
    { s with nst := { s.nst with cur := some c, startPending := if start then none else s.nst.startPending } }
  | none =>
    if !regBit s rNstCtrl 0 then { s with nst := { s.nst with cur := none } }
    else
      let n := s.nst
      let n := if n.slot < n.pass.length then n else { n with pass := scanPass s, slot := 0 }
      { s with nst := { n with cur := n.pass[n.slot]?, slot := n.slot + 1 } }

/-- When a channel's inserted conversion falls due (R396). -/
def dueAt (s : State) (c : Nat) : Nat := lastEndOf s c + (if c = 3 then 5000 else 1000000)

/-- The conversion that an idle converter has begun: the one that fell due first, channel 3 before the others and those by number within a
nanosecond, else the next of the scan (R396). -/
def beginIdle (s : State) : State :=
  if s.nst.cur.isSome then s
  else
    let due := (3 :: 2 :: dieChannels).filter fun c => decide (dueAt s c ≤ s.mod.nstNs)
    match due.find? fun c => due.all fun d => decide (dueAt s c ≤ dueAt s d) with
    | some c => { s with nst := { s.nst with cur := some c } }
    | none => nextConversion s

/-- 105.0 °C as a code of channels 12 to 23 (Table 13.1). -/
abbrev code105 : Nat := 2320

/-- The end of the conversion in progress with a code is a thermal trip, or the third channel 2 sample out of range (R399). -/
def conversionTrips (s : State) (code : Nat) : Bool :=
  match (beginIdle s).nst.cur with
  | some c => (decide (12 ≤ c) && decide (code105 ≤ code))
      || (c == 2 && (decide (code < 2000) || decide (3000 < code)) && decide (2 ≤ s.nst.vinBad))
  | none => false

/-- A thermal trip, a loss of lock or an input out of range waits: precedence 3. -/
def tripWaits (s : State) : Bool :=
  mainPower s && s.pending.any fun i => match i with
    | .rootPllLossOfLock => s.mod.pllLocked
    | .refclkLost => true
    | .monitorConversion code _ => conversionTrips s code
    | _ => false

/-- A power-off request waits: precedence 4. -/
def offWaits (s : State) : Bool := mainPower s && waits s .powerOffRequest

/-- A transition that waits has a higher precedence than one of precedence `p`, which is discarded (R29). -/
def outranked (p : Nat) (s : State) : Bool :=
  lossWaits s
    || (decide (2 < p) && resetWaits s && retires (timesWithReset s))
    || (decide (3 < p) && tripWaits s)
    || (decide (4 < p) && offWaits s)
    || (decide (5 < p) && resetWaits s)

/-- A device cold reset waits. -/
def coldWaits (s : State) : Bool := s.pending.any fun i => resetAsked s i == some true

/-- A device-level reset coincides with a larger one that waits, or with one of this nanosecond: one alone is performed (R416). -/
def subsumed (cold : Bool) (s : State) : Bool := (!cold && coldWaits s) || s.mod.resetAt == some s.mod.nstNs

/-- A trip coincides with a device-level reset that does not retire the module: the reset counts, and the module enters Standby (Table
14.8). -/
def tripTakes (s : State) : Bool := tripWaits s && !lossWaits s && !retires (timesWithReset s)

/-- The third miss of Hutch's heartbeat waits: its reset includes the context resets that coincide, and a heartbeat that coincides does
not prevent it (R411, Table 14.8). -/
def hutchDue (s : State) : Bool := missResets s && waits s .hutchHeartbeatMiss

/-- A larger reset coincides, one that waits or one of this nanosecond, and a smaller one is not performed on its own (R416). -/
def resetIncluded (s : State) : Bool :=
  resetWaits s || hutchDue s || s.mod.resetAt == some s.mod.nstNs || s.rcv.hutchTimes.head? == some s.mod.devTime

/-! ## Context resets that coincide with an engine reset (Table 14.8) -/

/-- A doorbell page belongs to a function: of contexts 1 to 15, the one bound to it (R327). -/
def doorBound (s : State) (fn ctx : Nat) : Bool := inService s && ctx != 0 && functionOf s ctx == fn

/-- A function may write a doorbell page; none is written while its context is being reset (R327, R414; DESIGN CHOICE, log entry 200). -/
def doorWritable (s : State) (fn ctx : Nat) : Bool := doorBound s fn ctx && !resetting s ctx

/-- A command resets a context on its own (R320, R414, R449). -/
def resetsContext (s : State) (ctx : Nat) (i : Instr) : Bool :=
  ctx != 0 && match i with
    | .contextReset fn c => c.val == ctx && doorBound s fn c
    | .functionLevelReset fn => mainPower s && (fn.val == 0 || (fn.val == ctx && decide (ctx ≤ s.vfs)))
    | .vfEnableSet v => mainPower s && s.vfs == 0 && decide (ctx ≤ v.val)
    | .vfEnableClear => mainPower s && decide (ctx ≤ s.vfs)
    | .perstAssert => mainPower s && !s.mod.perst
    | .pcieLinkLoss _ => mainPower s
    | _ => false

/-- A reset of the context waits, of its own or as part of a Hutch reset; not as part of a device-level reset. -/
def contextResetDue (s : State) (ctx : Nat) : Bool :=
  !resetWaits s && ((ctx != 0 && hutchDue s) || s.pending.any (resetsContext s ctx))

/-- The dispatched descriptors of contexts whose reset waits complete nothing: an engine reset that coincides is performed without their
completions (Table 14.8). -/
def yieldToReset (s : State) : State :=
  (List.range 16).foldl (fun s c =>
    if contextResetDue s c then
      modDoor c (fun d => { d with rings := tabMap {} (fun _ q => { q with opened := q.opened.filter fun e => !e.dispatched }) d.rings }) s
    else s) s

end Sys2Proof.Machine
end

