-- ==== Sys2Proof/Machine/ChestOps.lean ====
section
/-!
DEFINITION. Chests: programming jobs, rows, spares, remapping and what interrupts them (R93 to R100, R103, R112 to R117 of
spec/03_plane_programming.md; R412 of spec/14_faults_and_recovery.md).
-/
namespace Sys2Proof.Machine

/-! ## Fields (Table 3.5) -/

def plnDrawer (b : List Byte) : Nat := fieldAt b 16 2 % 16384
def plnForce (b : List Byte) : Bool := (fieldAt b 18 1).testBit 0
def plnColumn (b : List Byte) : Nat := fieldAt b 20 2
def plnMasterStep (b : List Byte) : Nat := fieldAt b 24 8
def plnTargetAddr (b : List Byte) : Nat := fieldAt b 56 8
def plnImageAddr (b : List Byte) (p : Nat) : Nat := fieldAt b (48 + 8 * p) 8
def isRemap (b : List Byte) : Bool := dOpcode b == 0x27

/-- A level image is 1 MiB. -/
abbrev imageBytes : Nat := 1048576

def PlnJob.drawer (j : PlnJob) : Nat := plnDrawer j.bytes

/-- The Chest of a job, and its accesses (R360). -/
def PlnJob.chest (j : PlnJob) : Nat := chestOf j.drawer
def plnAccess (j : PlnJob) : Access := ⟨2, j.chest, some j.ref⟩

/-! ## The queue and the lanes (R100) -/

/-- The job of a lane. -/
def laneJob (s : State) (c l : Nat) : Option PlnJob := tabGet none (chest s c).lanes l

def setLane (c l : Nat) (j : Option PlnJob) (s : State) : State :=
  modChest c (fun h => { h with lanes := tabSet none h.lanes l j }) s

/-- Programming jobs of a Chest, queued or on a lane. -/
def Chest.jobs (h : Chest) : List PlnJob := h.queue ++ h.lanes.filterMap (·.2)

/-- A PLN_PROGRAM or PLN_REMAP_COL for the Drawer is queued or executing. -/
def plnBusy (s : State) (d : Nat) : Bool := (chest s (chestOf d)).jobs.any fun j => j.drawer == d

/-- Lanes and queue of a Chest are empty. -/
def chestIdle (s : State) (c : Nat) : Bool := (chest s c).queue.isEmpty && (chest s c).lanes.isEmpty

/-- A Chest whose microcode reload was deferred is reloaded once its lanes and queue are empty (R434 step 8). -/
def reloadPending (c : Nat) (s : State) : State :=
  if s.fwu.pendingChests.contains c && chestIdle s c then
    { s with fwu := { s.fwu with pendingChests := s.fwu.pendingChests.filter (· != c) } }
  else s

/-- The lowest-numbered free lane. -/
def freeLane (h : Chest) : Option Nat := (List.range 16).find? fun l => (tabGet none h.lanes l).isNone

/-! ## Completion (Table 3.7) -/

/-- Bytes 16 to 31 of the completion of a programming job. -/
def plnTail (j : PlnJob) (reached : Bool) : List Byte :=
  if isRemap j.bytes then
    leBytes 1 j.spareCol ++ zeros 3 ++ leBytes 1 (boolNat reached + 2 * boolNat j.wornAtStart) ++ zeros 1
      ++ leBytes 2 j.written ++ leBytes 1 j.largest ++ zeros 3 ++ leBytes 2 (min 65535 j.failedCells) ++ zeros 2
  else
    leBytes 4 j.gen ++ leBytes 1 (j.plane + 2 * boolNat reached + 4 * boolNat j.wornAtStart) ++ leBytes 1 j.sparesTaken
      ++ leBytes 2 j.written ++ leBytes 2 j.unchanged ++ leBytes 1 j.largest ++ zeros 1
      ++ leBytes 2 (min 65535 j.failedCells) ++ zeros 2

/-- The plane a PLN_PROGRAM was writing becomes Failed (R117). -/
def failPlane (j : PlnJob) (s : State) : State :=
  if isRemap j.bytes then s
  else modPlane j.drawer j.plane (fun p => if p.st = .programming then { p with st := .failed } else p) s

/-- A lane is freed. -/
def clearLane (c l : Nat) (s : State) : State := modChest c (fun h => { h with freedAt := some s.mod.devTime }) (setLane c l none s)

/-- A job leaves its lane and completes. -/
def endJob (l : Nat) (j : PlnJob) (status : Nat) (reached : Bool) (s : State) : State :=
  let s := clearLane j.chest l s
  reloadPending j.chest (complete j.ref status (plnTail j reached) s)

/-- A job that stops: its plane is Failed and it completes with a status. -/
def stopJob (l : Nat) (j : PlnJob) (status : Nat) (s : State) : State := endJob l j status false (failPlane j s)

/-! ## Rows (R95, R96) -/

/-- Levels by physical pair column that a row is programmed to: the columns in place, the spare columns in use, 0 in the spare
columns not in use, and the check pairs; a replaced column is not programmed (R95). -/
def programTargets (w : Drawer) (target : List Int) : List (Nat × Int) :=
  (List.range 1024).filterMap (fun c => if (tabGet none w.colRemap c).isSome then none else some (c, target.getD c 0))
    ++ (List.range 8).map (fun k => (1024 + k, match w.colRemap.find? (fun e => e.2 == some k) with
        | some e => target.getD e.1 0
        | none => 0))
    ++ (List.range 4).map (fun g => (1032 + g, checkValue target g - 15))

/-- The pairs a job's row is programmed to. -/
def rowTargets (w : Drawer) (j : PlnJob) : List (Nat × Int) :=
  if isRemap j.bytes then [(1024 + j.spareCol, j.target.getD 0 0)] else programTargets w j.target

/-- The nominal reading of a cell for the level of its pair: canonical form, code 4L + 2 (R31, R54). -/
def nominal (level : Int) (neg : Nat) : Int := 2000 + 4000 * (if neg = 0 then max level 0 else max (-level) 0)

/-- The physical row of the row in programming. -/
def jobRow (w : Drawer) (j : PlnJob) : Nat :=
  match j.spareRow with
  | some k => 1024 + k
  | none => (w.plane j.plane).physRow j.row

/-- The reading of a cell of the row, with its deviation by cell. -/
def jobReading (w : Drawer) (j : PlnJob) (dev : Tab Int) (pair neg : Nat) : Int :=
  (w.plane j.plane).cell (jobRow w j) pair neg + tabGet 0 dev (2 * pair + neg)

/-- Cells of the row outside their verify band of ±1.4 codes (R96). -/
def outsideBand (w : Drawer) (j : PlnJob) (dev : Tab Int) : List Nat :=
  (rowTargets w j).flatMap fun t => [0, 1].filterMap fun neg =>
    if 1400 < (jobReading w j dev t.1 neg - nominal t.2 neg).natAbs then some (2 * t.1 + neg) else none

/-- Every pair of the row reads its target level. -/
def pairsEqual (w : Drawer) (j : PlnJob) (dev : Tab Int) : Bool :=
  (rowTargets w j).all fun t => pairWeight (jobReading w j dev t.1 0) (jobReading w j dev t.1 1) == t.2

/-- The row as read passes its check (R37); a row of spare cells has none (R114). -/
def rowChecks (w : Drawer) (j : PlnJob) (dev : Tab Int) : Bool :=
  isRemap j.bytes || (decideRow w ((List.range 1036).map fun p => jobReading w j dev p 0)
    ((List.range 1036).map fun p => jobReading w j dev p 1)).passes

/-- The level of a byte of a target image; an invalid byte, which software may not write while the job runs (R94), reads as level 0. -/
def imageLevel (b : Nat) : Int := (lv5Decode b).getD 0

/-- The plane may be read by generation, so PLN_REMAP_COL takes its levels from an image. -/
def remapReadable (w : Drawer) (p : Nat) : Bool := (w.plane p).st.readable

/-- Where a job reads the targets of its row, and how many bytes; none for a plane whose spare cells go to level 0. -/
def rowSource (w : Drawer) (j : PlnJob) : Option (Nat × Nat) :=
  if !isRemap j.bytes then some (plnTargetAddr j.bytes + 1024 * j.row, 1024)
  else if remapReadable w j.plane then some (plnImageAddr j.bytes j.plane + 1024 * j.row + plnColumn j.bytes, 1)
  else none

/-- The row's targets are read at its pre-read; a spare row takes those of its logical row. -/
def readTargets (j : PlnJob) (s : State) : PlnJob × State :=
  if j.spareRow.isSome then (j, s)
  else match rowSource (drawer s j.drawer) j with
    | some (a, n) => ({ j with target := (readMem s a n).map fun b => imageLevel b.toNat }, noteRead (plnAccess j) a n s)
    | none => ({ j with target := [0] }, s)

/-! ## Ends of rows (R98, R112, R114) -/

/-- A row begins: its pre-read is under way. -/
def PlnJob.startRow (j : PlnJob) (row : Nat) : PlnJob :=
  { j with row := row, spareRow := none, tries := 0, cycle := 0, phase := .preRead, target := [], outside := [] }

/-- The plane reaches Ready, the job completes, and a stalled commit of its owner is tried again (R98, R110). -/
def planeReady (l : Nat) (j : PlnJob) (s : State) : State :=
  let s := modPlane j.drawer j.plane (fun p => { p with st := .ready }) s
  retryCommit j.ref.ctx (endJob l j 0 true s)

/-- The next row of a PLN_REMAP_COL to check, from plane `p` and row `r` on: planes that are not readable are passed over. -/
def nextCheck (w : Drawer) (p r : Nat) : Option (Nat × Nat) :=
  if p = 0 ∧ r < 1024 ∧ remapReadable w 0 then some (0, r)
  else if p = 0 then (if remapReadable w 1 then some (1, 0) else none)
  else if r < 1024 ∧ remapReadable w 1 then some (1, r) else none

/-- Every row is programmed and checked: the remap entry is written, and the column's trims are invalid (R114, R378). -/
def writeColRemap (l : Nat) (j : PlnJob) (s : State) : State :=
  let d := j.drawer
  let c := plnColumn j.bytes
  let s := modDrawer d (fun w => { w with
    colRemap := tabSet none w.colRemap c (some j.spareCol)
    unmeasured := (c, s.cal.begun) :: w.unmeasured.filter (·.1 != c) }) s
  endJob l j 0 true (clearTrim (plnAccess j) d c s)

/-- Go on with the check reads of a PLN_REMAP_COL, or end it. -/
def toCheck (l p r : Nat) (j : PlnJob) (s : State) : State :=
  match nextCheck (drawer s j.drawer) p r with
  | some (p, r) => setLane j.chest l (some { j with phase := .checkRead, plane := p, row := r }) s
  | none => writeColRemap l j s

/-- The row has passed: a spare row's remap entry is written, and the next row begins, or the job ends (R98, R112, R114). -/
def rowDone (l : Nat) (j : PlnJob) (s : State) : State :=
  let s := match j.spareRow with
    | some k => modPlane j.drawer j.plane (fun p => { p with rowRemap := tabSet none p.rowRemap j.row (some k) }) s
    | none => s
  if j.row < 1023 then setLane j.chest l (some (j.startRow (j.row + 1))) s
  else if !isRemap j.bytes then planeReady l j s
  else if j.plane = 0 then setLane j.chest l (some { j.startRow 0 with plane := 1 }) s
  else toCheck l 0 0 j s

/-- A row that was written, or found unchanged. A row of spare cells found unchanged counts as programmed in the completion and as
unchanged in the counter (DESIGN CHOICE, log entry 38). -/
def rowPassed (l : Nat) (written : Bool) (j : PlnJob) (s : State) : State :=
  let j := if written || isRemap j.bytes then { j with written := j.written + 1 } else { j with unchanged := j.unchanged + 1 }
  rowDone l j (bump (if written then cPlnWritten else cPlnUnchanged) 1 s)

/-- The lowest free spare row of a plane. -/
def freeSpareRow (p : Plane) : Option Nat :=
  (List.range 8).find? fun k => !p.rowBad.contains k && !p.rowRemap.any fun e => e.2 == some k

/-- The lowest free spare column of a Drawer. -/
def freeSpareCol (w : Drawer) : Option Nat :=
  (List.range 8).find? fun k => !w.colBad.contains k && !w.colRemap.any fun e => e.2 == some k

/-- What a failed row leaves: counts by column, counters, the flag and the log entry (R112, Table 14.5); a failed row of spare cells
leaves the same (DESIGN CHOICE, log entry 40). Where the closing read alone has failed there is no failed cell, and the first failing
column is 0 (DESIGN CHOICE, log entry 193). -/
def recordFailure (j : PlnJob) (gen : Nat) (cells : List Nat) (s : State) : State :=
  let d := j.drawer
  let s := modDrawer d (fun w => { w with
    failCol := cells.foldl (fun t k => tabMod 0 t (k / 2) fun n => min 255 (n + 1)) w.failCol }) s
  let first := match cells with | k :: _ => k / 2 | [] => 0
  let e : LogEntry := { code := stProgramFail, source := 1, engine := d, count8 := min 255 cells.length,
                        detail := gen + j.row * 2 ^ 32 + j.plane * 2 ^ 48 + first * 2 ^ 49 }
  logEntry (e.naming j.ref) (setFlag .pln 0 (bump cPlnFails 1 s))

/-- A PLN_REMAP_COL fails: its spare column is unusable (R114). -/
def failRemap (l : Nat) (j : PlnJob) (s : State) : State :=
  endJob l j stProgramFail false (modDrawer j.drawer (fun w => { w with colBad := w.colBad ++ [j.spareCol] }) s)

/-- A free spare row is taken for the logical row (R112). -/
def takeSpareRow (l k : Nat) (j : PlnJob) (s : State) : State :=
  let s := setFlag .pln 4 (bump cPlnRemaps 1 s)
  let e : LogEntry := { source := 1, engine := j.drawer, detail := j.gen + j.row * 2 ^ 32 + k * 2 ^ 42 + j.plane * 2 ^ 48 }
  let s := if regBit s rPlnCtrl 3 then logEntry (e.naming j.ref) s else s
  setLane j.chest l (some { j with
    spareRow := some k, tries := j.tries + 1, sparesTaken := j.sparesTaken + 1, cycle := 0, phase := .preRead, outside := [] }) s

/-- A physical row has failed after cycle 32 with these cells outside their band (R112, R114). A fenced module takes no further spare row:
the programming stops (Table 3.4). -/
def rowFailed (l : Nat) (cells : List Nat) (j : PlnJob) (s : State) : State :=
  let d := j.drawer
  let j := { j with failedCells := j.failedCells + cells.length }
  let phys := jobRow (drawer s d) j
  if isRemap j.bytes then failRemap l j (recordFailure j ((drawer s d).plane j.plane).gen cells s)
  else
    let s := recordFailure j j.gen cells s
    let s := if 1024 ≤ phys then modPlane d j.plane (fun p => { p with rowBad := p.rowBad ++ [phys - 1024] }) s else s
    let ctl := reg s rPlnCtrl
    match freeSpareRow ((drawer s d).plane j.plane) with
    | some k =>
      if ctl.testBit 0 && decide (j.tries < bitsOf ctl 2 1) then
        (if j.stopping then stopJob l j stProgramAborted s else takeSpareRow l k j s)
      else stopJob l j stProgramFail s
    | none => stopJob l j stProgramFail s

/-! ## Acceptance of programming (R100, R119) -/

/-- The first failing check of PLN_PROGRAM or PLN_REMAP_COL (Table 3.6). -/
def programStatus (s : State) (ctx : Nat) (b : List Byte) : Nat :=
  let d := plnDrawer b
  let w := drawer s d
  let extentBad :=
    if isRemap b then [0, 1].any fun p => remapReadable w p && !permitted s ctx (plnImageAddr b p) imageBytes true false
    else !permitted s ctx (plnTargetAddr b) imageBytes true false
  if !mapped s ctx d then stDrawerUnmapped
  else if isRemap b ∧ 1023 < plnColumn b then stFieldInvalid
  else if extentBad then stLengthExceeds
  else if w.worn ∧ !plnForce b then stDrawerWorn
  else if plnBusy s d ∨ (!isRemap b ∧ (w.plane (1 - w.activeIdx)).st = .ready) then stPlaneBusy
  else if isRemap b ∧ ((List.range 16).any (fun n => n != ctx && mapped s n d) ∨ executingStep s ctx
      ∨ w.planeA.hold ≠ 0 ∨ w.planeB.hold ≠ 0 ∨ (freeSpareCol w).isNone) then stRemapRefused
  else 0

/-- A descriptor is in flight no longer, though its completion is still to come (R100). -/
def uncount (r : DRef) (s : State) : State :=
  modRing r.ctx r.ring (fun q => { q with
    opened := q.opened.map fun d => if d.idx = r.idx then { d with counted := false } else d }) s

/-- The Chest accepts a programming descriptor into its queue. -/
def acceptProgram (a : Accepted) (s : State) : State :=
  let st := programStatus s a.ref.ctx a.bytes
  if st ≠ 0 then reject a.ref st [] s
  else modChest (chestOf (plnDrawer a.bytes)) (fun h => { h with queue := h.queue ++ [{ ref := a.ref, bytes := a.bytes }] })
    (uncount a.ref s)

/-- Hutch holds a programming descriptor undispatched while its Chest's queue is full, and the Chest remembers it (R100). -/
def offerProgram (ctx ring op : Nat) (s : State) : State :=
  match headFor s ctx ring op with
  | none => settleBad ctx ring s
  | some d =>
    let c := chestOf (plnDrawer d.bytes)
    let r : DRef := ⟨ctx, ring, d.idx⟩
    if (chest s c).queue.length < 64 then
      dispatchOp ctx ring op acceptProgram (modChest c (fun h => { h with held := h.held.filter (· != r) }) s)
    else modChest c (fun h => if h.held.contains r then h else { h with held := h.held ++ [r] }) s

/-- Freed queue entries accept the descriptors that Hutch holds for the Chest, oldest first, at most `fuel` of them: one that is gone or
refused leaves its entry to the next (R100). -/
def acceptSome : Nat → Nat → State → State
  | 0, _, s => s
  | fuel + 1, c, s =>
    match (chest s c).held with
    | [] => s
    | r :: rs =>
      if 64 ≤ (chest s c).queue.length then s
      else
        let s := modChest c (fun h => { h with held := rs }) s
        match findDesc s r with
        | none => acceptSome fuel c s
        | some d => acceptSome fuel c (if d.dispatched then s else offerProgram r.ctx r.ring (dOpcode d.bytes) s)

/-- CHEST_QUEUE_ACCEPT: freed queue entries accept what Hutch holds for the Chest (R100). -/
def acceptHeld (c : Nat) (s : State) : State := acceptSome (chest s c).held.length c s

/-! ## Interruptions (Table 3.4, R412) -/

/-- The job is within a cycle: its pulse has been applied and its verify read is to come. -/
def PlnJob.inCycle (j : PlnJob) : Bool := j.phase == .verify

/-- Entry to Fenced: programming in progress ends with its current cycle, or at once between cycles (Table 3.4). -/
def fenceProgramming (s : State) : State :=
  s.chests.foldl (fun s e => e.2.lanes.foldl (fun s l => match l.2 with
    | none => s
    | some j => if j.inCycle then setLane e.1 l.1 (some { j with stopping := true }) s else stopJob l.1 j stProgramAborted s) s) s

/-- Complete queued programming and target descriptors of a Chest with PROGRAM_ABORTED. -/
def abortQueues (c : Nat) (s : State) : State :=
  let h := chest s c
  let s := modChest c (fun h => { h with queue := [], targets := [] }) s
  let s := h.queue.foldl (fun s j => complete j.ref stProgramAborted (plnTail j false) s) s
  h.targets.foldl (fun s j => complete j.ref stProgramAborted [] s) s

/-- End the descriptors of a Drawer with WATCHDOG (R412). -/
def abortDrawer (d : Nat) (s : State) : State :=
  let jobs := (drawer s d).queue
  let s := modDrawer d (fun w => { w with queue := [], trimBuf := none }) s
  jobs.foldl (fun s j => noteStopped j.dropped j.ref (finishDrw j stWatchdog s)) s

/-- The Drawers of a calibration run that a Chest reset takes out of it: they count as not reached (R385). -/
def CalRun.dropChest (c : Nat) (r : CalRun) : CalRun :=
  let lost := (r.todo ++ r.done).filter fun d => chestOf d == c
  { r with todo := r.todo.filter (fun d => chestOf d != c), done := r.done.filter (fun d => chestOf d != c)
           notReached := r.notReached + lost.length }

/-- A Chest reset (R412, Table 3.4): programming and queued descriptors end, staged trims of its Drawers are discarded. -/
def chestReset (c : Nat) (s : State) : State :=
  let s := (chest s c).lanes.foldl (fun s l => match l.2 with
    | some j => stopJob l.1 j stProgramAborted s
    | none => s) s
  let s := abortQueues c s
  let s := ((List.range 64).map (64 * c + ·)).foldl (fun s d =>
    modDrawer d (fun w => { w with staged := none }) (abortDrawer d s)) s
  let s := { s with cal := { s.cal with runs := s.cal.runs.map (CalRun.dropChest c) } }
  acceptHeld c (reloadPending c (noteEngineReset (finishRuns s)))

/-- The row watchdog of a lane fires (R113): counted, flagged and logged. Answers whether the lane's last firing was within 60 s, so that
the Chest is reset (Table 14.2). -/
def rowWatchdog (c l : Nat) (j : PlnJob) (s : State) : Bool × State :=
  let again := match tabGet none (chest s c).laneWdogAt l with
    | some t => decide (s.mod.devTime ≤ t + 60000000000)
    | none => false
  let s := modChest c (fun h => { h with laneWdogAt := tabSet none h.laneWdogAt l (some s.mod.devTime) })
    (setFlag .pln 3 (bump cPlnWdog 1 s))
  let e : LogEntry := { code := stWatchdog, source := 2, action := if again then 4 else 2, engine := c }
  (again, logEntry (e.naming j.ref) s)

/-- The row watchdog of a lane waits. -/
def rowWatchdogWaits (s : State) (c l : Nat) : Bool :=
  s.pending.any fun i => match i with
    | .programRowWatchdog c' l' => c'.val == c && l'.val == l
    | _ => false

/-- A context reset stops the job of a lane; where the lane's watchdog coincides, the lane is reset all the same (Table 14.8). -/
def dropLane (c l : Nat) (j : PlnJob) (s : State) : State :=
  let fires := j.phase.inProgramming && rowWatchdogWaits s c l
  let s := clearLane c l (failPlane j s)
  if fires then
    let (again, s) := rowWatchdog c l j s
    if again then chestReset c s else s
  else s

/-- A context reset drops the context's programming; planes it owns that are Ready are discarded (Table 3.4). -/
def dropProgramming (ctx : Nat) (s : State) : State :=
  let s := s.chests.foldl (fun s e =>
    let s := e.2.lanes.foldl (fun s l => match l.2 with
      | some j => if j.ref.ctx = ctx then dropLane e.1 l.1 j s else s
      | none => s) s
    acceptHeld e.1 (reloadPending e.1 (modChest e.1 (fun h => { h with
      queue := h.queue.filter (·.ref.ctx != ctx), targets := h.targets.filter (·.ref.ctx != ctx)
      held := h.held.filter (·.ctx != ctx) }) s))) s
  let discard := fun (p : Plane) => if p.st = .ready ∧ p.owner = some ctx then { p with st := .retained } else p
  { s with drawers := tabMap {} (fun _ w => { w with planeA := discard w.planeA, planeB := discard w.planeB }) s.drawers }

end Sys2Proof.Machine
end

