-- ==== Sys2Proof/Machine/Chests.lean ====
section
/-!
DEFINITION. The Chest commands: targets are chosen, planes programmed, columns moved to spares (R91 to R104, R112 to R115,
R119, R120 of spec/03_plane_programming.md).
-/
namespace Sys2Proof.Machine

/-! ## PLN_TARGET (R91, R92) -/

def tgtFull (b : List Byte) : Bool := (fieldAt b 18 1).testBit 0
def tgtPitch (b : List Byte) : Nat := fieldAt b 20 2 * 16
def tgtTarget (b : List Byte) : Nat := fieldAt b 32 8
def tgtMaster (b : List Byte) : Nat := fieldAt b 40 8
def tgtScale (b : List Byte) : Nat := fieldAt b 48 8
def tgtRef (b : List Byte) : Nat := fieldAt b 56 8

/-- The first failing check of PLN_TARGET (Table 3.6). -/
def targetStatus (s : State) (ctx : Nat) (b : List Byte) : Nat :=
  if !mapped s ctx (plnDrawer b) then stDrawerUnmapped
  else if tgtPitch b < 5120 then stFieldInvalid
  else if !permitted s ctx (tgtMaster b) (1023 * tgtPitch b + 5120) true false || !permitted s ctx (tgtScale b) 2048 true false
      || (!tgtFull b && !permitted s ctx (tgtRef b) imageBytes true false)
      || !permitted s ctx (tgtTarget b) imageBytes false true then stLengthExceeds
  else 0

/-- PLN_TARGET: validated and queued on the Chest's target unit, in acceptance order (R118). -/
def execPlnTarget (ctx : Fin 16) (ring : Fin 8) (s : State) : Host.Outcome State Fault Refusal :=
  .next (dispatchOp ctx ring 0x24 (fun a s =>
    let st := targetStatus s a.ref.ctx a.bytes
    if st ≠ 0 then reject a.ref st [] s
    else modChest (chestOf (plnDrawer a.bytes)) (fun h => { h with targets := h.targets ++ [⟨a.ref, a.bytes⟩] }) s) s)

/-- What is chosen for one weight: the level, and whether it counts as clamped or not finite. -/
structure Target where
  level : Int
  clamped : Bool := false
  notFinite : Bool := false
deriving DecidableEq, Repr

/-- The magnitude of `x` is at most 5/8 of the magnitude of `sigma`. -/
def withinBand (x sigma : XVal) : Bool := !((sigma.abs.mul (.fin false 5 8)).lt x.abs)

/-- A scale is zero, infinite or NaN. -/
def scaleInvalid (sigma : XVal) : Bool :=
  match sigma with
  | .fin _ n _ => n == 0
  | _ => true

/-- The target level of a weight with master `v`, scale `sigma` and reference level `ref`, or none with FULL (R91). -/
def chooseLevel (v sigma : XVal) (ref : Option Int) : Target :=
  if scaleInvalid sigma || !v.isFinite then ⟨ref.getD 0, false, true⟩
  else if (match ref with | some l => withinBand (v.add ((XVal.ofInt l).mul sigma).negate) sigma | none => false) then
    ⟨ref.getD 0, false, false⟩
  else match v.div sigma with
    | .fin neg n d =>
      let t := roundInt .nearest neg n d
      let c := max (-15) (min 15 t)
      ⟨c, decide (t ≠ c), false⟩
    | _ => ⟨ref.getD 0, false, true⟩

/-- The choices of one row. -/
def chooseRow (s : State) (b : List Byte) (r : Nat) : List (Target × Int) :=
  (List.range 1024).map fun c =>
    let v := scalarDecode 11 (readNat s (tgtMaster b + r * tgtPitch b + 5 * c) 5)
    let sigma := scalarDecode 1 (readNat s (tgtScale b + 2 * c) 2)
    let ref := if tgtFull b then none else some ((lv5Decode (readNat s (tgtRef b + 1024 * r + c) 1)).getD 0)
    (chooseLevel v sigma ref, ref.getD 0)

/-- Every byte of a level image is a valid LV5 value (R92, R94). -/
def imageValid (s : State) (a : Nat) : Bool :=
  (List.range imageBytes).all fun i => (lv5Decode (memByte s.mem (a + i)).toNat).isSome

/-- The target unit reads everything: the scales, the reference unless FULL, and the masters. -/
def noteTargetReads (acc : Access) (b : List Byte) (s : State) : State :=
  let s := noteRead acc (tgtScale b) 2048 s
  let s := if tgtFull b then s else noteRead acc (tgtRef b) imageBytes s
  (List.range 1024).foldl (fun s r => noteRead acc (tgtMaster b + r * tgtPitch b) 5120 s) s

/-- The 24-bit counts and the others of a PLN_TARGET completion (Table 3.7). -/
def targetTail (s : State) (b : List Byte) (rows : List (List (Target × Int))) : List Byte :=
  let all := rows.flatten
  let changed := fun (p : Target × Int) => p.1.level != p.2
  leBytes 4 (all.filter changed).length ++ leBytes 4 (all.filter (·.1.clamped)).length
    ++ leBytes 4 (all.filter (·.1.notFinite)).length ++ leBytes 2 (rows.filter (·.any changed)).length
    ++ leBytes 2 ((List.range 1024).filter fun c => scaleInvalid (scalarDecode 1 (readNat s (tgtScale b + 2 * c) 2))).length

/-- TARGET_UNIT_DONE: the target unit of a Chest ends its oldest PLN_TARGET (R91, R92). -/
def execTargetUnitDone (c : Fin 256) (s : State) : Host.Outcome State Fault Refusal :=
  match (chest s c).targets with
  | [] => .next s
  | j :: js =>
    let b := j.bytes
    let acc : Access := ⟨2, c, some j.ref⟩
    let s := noteTargetReads acc b (modChest c (fun h => { h with targets := js }) s)
    if !tgtFull b && !imageValid s (tgtRef b) then .next (complete j.ref stFieldInvalid [] s)
    else
      let rows := (List.range 1024).map (chooseRow s b)
      let tail := targetTail s b rows
      let bytes := rows.flatten.map fun p => BitVec.ofNat 8 (lv5Encode p.1.level)
      .next (complete j.ref 0 tail (writeMem acc (tgtTarget b) bytes s))

/-- PLN_PROGRAM (R100). -/
def execPlnProgram (ctx : Fin 16) (ring : Fin 8) (s : State) : Host.Outcome State Fault Refusal :=
  .next (offerProgram ctx ring 0x25 s)

/-- PLN_REMAP_COL (R114). -/
def execPlnRemapCol (ctx : Fin 16) (ring : Fin 8) (s : State) : Host.Outcome State Fault Refusal :=
  .next (offerProgram ctx ring 0x27 s)

/-! ## Lane start (R93, R94, R103, R114) -/

/-- A PLN_PROGRAM starts: the hold and the target image are checked, a generation is assigned, and the plane is Programming. -/
def startProgram (l : Nat) (j : PlnJob) (s : State) : State :=
  let d := j.drawer
  let w := drawer s d
  let p := 1 - w.activeIdx
  let j := { j with plane := p, wornAtStart := w.worn }
  if (w.plane p).hold ≠ 0 then endJob l j stPlaneHeld false s
  else
    let s := noteRead (plnAccess j) (plnTargetAddr j.bytes) imageBytes s
    if !imageValid s (plnTargetAddr j.bytes) then endJob l j stFieldInvalid false s
    else
      let gen := (w.lastGen + 1) % 2 ^ 32
      let m := plnMasterStep j.bytes
      let s := modDrawer d (fun w => { w with lastGen := gen }) s
      let s := modPlane d p (fun q => { q with
        st := .programming, gen := gen, owner := some j.ref.ctx, imaged := false
        mstep := if m = 2 ^ 64 - 1 then none else some m }) s
      setLane j.chest l (some { j.startRow 0 with gen := gen, phase := if w.bound p then .binding else .preRead }) s

/-- A PLN_REMAP_COL starts on the lowest free spare column (R114). It waits for no binding to end: the wait of R103 is that of a plane
in Programming (DESIGN CHOICE, log entry 34). -/
def startRemap (l : Nat) (j : PlnJob) (s : State) : State :=
  let w := drawer s j.drawer
  let j := { j with wornAtStart := w.worn }
  match freeSpareCol w with
  | none => endJob l j stRemapRefused false s
  | some k => setLane j.chest l (some { j.startRow 0 with spareCol := k, plane := 0 }) s

/-- A Chest whose reload is pending takes nothing onto a lane while its lanes are empty, but for a lane that takes the next descriptor in
the nanosecond in which it is freed (R434 step 8; DEDUCED, log entry 203). -/
def reloadBars (s : State) (c : Nat) : Bool :=
  s.fwu.pendingChests.contains c && (chest s c).lanes.isEmpty && (chest s c).freedAt != some s.mod.devTime

/-- PLN_LANE_START: the oldest queued descriptor of a Chest starts on its lowest-numbered free lane (R100, R103). -/
def execPlnLaneStart (c : Fin 256) (s : State) : Host.Outcome State Fault Refusal :=
  match (chest s c).queue, freeLane (chest s c) with
  | j :: js, some l =>
    if reloadBars s c then .next s else
    let s := setLane c l (some j) (modChest c (fun h => { h with queue := js }) s)
    let s := acceptHeld c s
    .next (if isRemap j.bytes then startRemap l j s else startProgram l j s)
  | _, _ => .next s

/-! ## Rows (Table 3.3, R95, R96) -/

/-- The job of a lane, where it is in a phase. -/
def inPhase (s : State) (c l : Nat) (p : RowPhase) : Option PlnJob := (laneJob s c l).filter fun j => j.phase == p

/-- PROGRAM_BINDING_END: writing of a plane may begin once no Drawer descriptor is bound to it (R103). -/
def execProgramBindingEnd (c : Fin 256) (l : Fin 16) (s : State) : Host.Outcome State Fault Refusal :=
  match inPhase s c l .binding with
  | some j => if (drawer s j.drawer).bound j.plane then .next s else .next (setLane c l (some { j with phase := .preRead }) s)
  | none => .next s

/-- PROGRAM_PRE_READ_DONE: a row whose pairs read their targets and that passes its check ends unchanged; any other goes on to
its pulses. `dev` lists, by cell, the deviations of the readings in thousandths of a code. -/
def execProgramPreReadDone (c : Fin 256) (l : Fin 16) (dev : Tab Int) (s : State) : Host.Outcome State Fault Refusal :=
  match inPhase s c l .preRead with
  | none => .next s
  | some j =>
    let (j, s) := readTargets j s
    let w := drawer s j.drawer
    if pairsEqual w j dev && rowChecks w j dev then .next (rowPassed l false j s)
    else .next (setLane c l (some { j with phase := .pulse, outside := outsideBand w j dev }) s)

/-- The plane with every cell that is to be pulsed at its nominal value plus its miss. -/
def pulseCells (w : Drawer) (j : PlnJob) (miss : Tab Int) : Plane :=
  (rowTargets w j).foldl (fun p t => [0, 1].foldl (fun p neg =>
    let k := 2 * t.1 + neg
    if j.outside.contains k then p.setCell (jobRow w j) t.1 neg (nominal t.2 neg + tabGet 0 miss k) else p) p) (w.plane j.plane)

/-- PROGRAM_PULSE: a pulse moves every cell outside its band toward its target; `miss` lists, by cell, how far from the nominal
code of its level it then settles, in thousandths of a code (R95, R116). -/
def execProgramPulse (c : Fin 256) (l : Fin 16) (miss : Tab Int) (s : State) : Host.Outcome State Fault Refusal :=
  match inPhase s c l .pulse with
  | none => .next s
  | some j =>
    let w := drawer s j.drawer
    let row := jobRow w j
    let p := pulseCells w j miss
    let s := modPlane j.drawer j.plane (fun _ => { p with wear := tabMod 0 p.wear row (· + 1) }) s
    .next (setLane c l (some { j with phase := .verify, cycle := j.cycle + 1, largest := max j.largest (j.cycle + 1) })
      (bump cPlnCycles 1 s))

/-- PROGRAM_VERIFY_READ: every cell within ±1.4 codes leads to the closing read (or ends a row of spare cells); after cycle 32
the row has failed (R96, R112, R114). A fenced module stops here, at the end of the cycle; a row that has failed by then has failed all
the same (Table 3.4). -/
def execProgramVerifyRead (c : Fin 256) (l : Fin 16) (dev : Tab Int) (s : State) : Host.Outcome State Fault Refusal :=
  match inPhase s c l .verify with
  | none => .next s
  | some j =>
    let cells := outsideBand (drawer s j.drawer) j dev
    let j := { j with outside := cells }
    if j.stopping && !(decide (32 ≤ j.cycle) && !cells.isEmpty) then .next (stopJob l j stProgramAborted s)
    else if cells.isEmpty then
      if isRemap j.bytes then .next (rowPassed l true j s) else .next (setLane c l (some { j with phase := .closing }) s)
    else if 32 ≤ j.cycle then .next (rowFailed l cells j s)
    else .next (setLane c l (some { j with phase := .pulse }) s)

/-- The Drawer as a check read of a PLN_REMAP_COL sees it, with the spare substituted (R114). -/
def substituted (w : Drawer) (j : PlnJob) : Drawer :=
  { w with colRemap := tabSet none w.colRemap (plnColumn j.bytes) (some j.spareCol) }

/-- PROGRAM_CLOSING_READ: a row that passes its check is written, one that does not goes on with the next cycle, or fails after
cycle 32 (R96); for a PLN_REMAP_COL, one check read of a row (R114). The cycle that follows a failed closing read pulses no cell,
since every cell has passed verify (DEDUCED, log entry 37). -/
def execProgramClosingRead (c : Fin 256) (l : Fin 16) (dev : Tab Int) (s : State) : Host.Outcome State Fault Refusal :=
  match inPhase s c l .closing, inPhase s c l .checkRead with
  | some j, _ =>
    if rowChecks (drawer s j.drawer) j dev then .next (rowPassed l true j s)
    else if 32 ≤ j.cycle then .next (rowFailed l [] j s)
    else .next (setLane c l (some { j with phase := .pulse, outside := [] }) s)
  | none, some j =>
    let w := substituted (drawer s j.drawer) j
    let row := decideRow w ((List.range 1036).map fun p => jobReading w j dev p 0) ((List.range 1036).map fun p => jobReading w j dev p 1)
    if row.passes then .next (toCheck l j.plane (j.row + 1) j s)
    else .next (failRemap l j (setFlag .pln 0 s))
  | none, none => .next s

/-- PROGRAM_ROW_WATCHDOG: a row in programming for 10 ms. The plane is Failed, the job completes with WATCHDOG, and a second
firing of the lane within 60 s resets the Chest (R113, Table 14.2). On a PLN_REMAP_COL the spare column stays usable (DESIGN CHOICE,
log entry 39). A device-level reset that waits includes this one (R416). -/
def execProgramRowWatchdog (c : Fin 256) (l : Fin 16) (s : State) : Host.Outcome State Fault Refusal :=
  match laneJob s c l with
  | none => .next s
  | some j =>
    if !j.phase.inProgramming || resetWaits s || tabGet none (chest s c).laneWdogAt l == some s.mod.devTime then .next s
    else
      let (again, s) := rowWatchdog c l j (yieldToReset s)
      let s := stopJob l j stWatchdog s
      .next (if again then chestReset c s else s)

end Sys2Proof.Machine
end

