-- ==== Sys2Proof/Machine/Drawers.lean ====
section
/-!
DEFINITION. The Drawer commands: products, readouts and level images are accepted, conversions end, the product watchdog fires,
maps are written (R57, R58, R69 to R73, R79, R80 of spec/02_drawer_arrays.md; R105, R119 of spec/03_plane_programming.md).
-/
namespace Sys2Proof.Machine

/-- Put an accepted descriptor at the end of its Drawer's queue, bound to a plane and its generation; what needs no conversion
ends at once (R72, R73). -/
def queueDrawer (a : Accepted) (p : Nat) (held : Bool) (s : State) : State :=
  let d := dwDrawer a.bytes
  let j : DrwJob := { ref := a.ref, bytes := a.bytes, noHist := dNoHist a.bytes, plane := p,
                      gen := ((drawer s d).plane p).gen, holdTaken := held, skip := (drawer s d).retRows
                      prod := { hist := { fmt := prodFmt a.bytes } } }
  settleDrawer 1 d (modDrawer d (fun w => { w with queue := w.queue ++ [j] }) s)

/-- Accept a product or readout: validated, a hold taken where asked, bound and queued (R69, R102). -/
def acceptDrawer (a : Accepted) (s : State) : State :=
  let b := a.bytes
  let st := drwStatus s a.ref.ctx b
  if st ≠ 0 then reject a.ref st [] s
  else match selectPlane (drawer s (dwDrawer b)) b with
    | none => reject a.ref stGenerationAbsent [] s
    | some p =>
      let (held, s) := if isProduct b && dwHold b then takeHold a.ref.ctx (dwDrawer b) p s else (false, s)
      queueDrawer a p held s

/-- DRW_PRODUCT (R69, R73). -/
def execDrwProduct (ctx : Fin 16) (ring : Fin 8) (s : State) : Host.Outcome State Fault Refusal :=
  .next (dispatchOp ctx ring 0x21 acceptDrawer s)

/-- DRW_READ_ROWS (R57). -/
def execDrwReadRows (ctx : Fin 16) (ring : Fin 8) (s : State) : Host.Outcome State Fault Refusal :=
  .next (dispatchOp ctx ring 0x22 acceptDrawer s)

/-- DRW_READ_COLS (R58). -/
def execDrwReadCols (ctx : Fin 16) (ring : Fin 8) (s : State) : Host.Outcome State Fault Refusal :=
  .next (dispatchOp ctx ring 0x23 acceptDrawer s)

/-- The Retained plane that holds a generation (Table 3.6 order 6). -/
def retainedPlane (w : Drawer) (gen : Nat) : Option Nat :=
  if w.planeA.st = .retained ∧ w.planeA.gen = gen then some 0
  else if w.planeB.st = .retained ∧ w.planeB.gen = gen then some 1 else none

/-- PLN_IMAGE: validated, bound to the Retained plane of its generation and queued on the Drawer (R105, R118, R119). -/
def execPlnImage (ctx : Fin 16) (ring : Fin 8) (s : State) : Host.Outcome State Fault Refusal :=
  .next (dispatchOp ctx ring 0x26 (fun a s =>
    let b := a.bytes
    if !mapped s a.ref.ctx (dwDrawer b) then reject a.ref stDrawerUnmapped [] s
    else if !permitted s a.ref.ctx (dwOutAddr b) imageBytes false true then reject a.ref stLengthExceeds [] s
    else match retainedPlane (drawer s (dwDrawer b)) (fieldAt b 24 4) with
      | none => reject a.ref stGenerationAbsent [] s
      | some p => queueDrawer a p false s) s)

/-- DRW_CONVERSION_DONE: one conversion of Drawer `d` ends. `dev` lists the converters' errors, in thousandths of an LSB for a
product and of a code for a readout; a converter it does not list has none. -/
def execDrwConversionDone (d : Fin 16384) (dev : Tab Int) (s : State) : Host.Outcome State Fault Refusal :=
  .next (conversionDone d dev s)

/-- DRW_PRODUCT_WATCHDOG: the descriptor in execution stops with WATCHDOG; a second firing within 1 s resets the Chest (R79,
Table 14.2). A device-level reset that waits includes this one (R416). -/
def execDrwProductWatchdog (d : Fin 16384) (s : State) : Host.Outcome State Fault Refusal :=
  match (drawer s d).queue with
  | [] => .next s
  | j :: _ =>
    if resetWaits s then .next s else
    let s := yieldToReset s
    let again := match (drawer s d).wdogAt with
      | some t => decide (s.mod.devTime ≤ t + 1000000000)
      | none => false
    let s := modDrawer d (fun w => { w with wdogAt := some s.mod.devTime }) (setFlag .drw 0 (bump cDrwWdog 1 s))
    let e : LogEntry := { code := stWatchdog, source := 1, action := if again then 4 else 1, engine := d }
    let s := finishDrw j stWatchdog (modDrawer d (fun w => { w with queue := w.queue.drop 1 }) (logEntry (e.naming j.ref) s))
    .next (noteStopped j.dropped j.ref (if again then chestReset (chestOf d) s else settleDrawer (drawer s d).queue.length d s))

/-- Bytes written to a context's map from byte `off` on, staged or in force at once (R80). -/
def writeMap (ctx off : Nat) (bytes : List Byte) (s : State) : State :=
  let entries := (bytes.zip (List.range bytes.length)).map fun e => (off + e.2, e.1)
  if executingStep s ctx then
    { s with stagedMaps := tabMod [] s.stagedMaps ctx fun t => entries.foldl (fun t e => tabSet none t e.1 (some e.2)) t }
  else { s with maps := tabSet 0 s.maps ctx (entries.foldl (fun m e => mapByte s e.1 e.2 m) (mapOf s ctx)) }

/-- First byte of DRW_MAPn (Table 2.17). -/
def mapBase (n : Nat) : Nat := 0x0210000 + 0x800 * n

/-- DRW_MAP_WRITE: an aligned write of 4 or 8 bytes of DRW_MAPn by the physical function; any other is a bad access (R80, R324,
Table 2.18). -/
def execDrwMapWrite (ctx : Fin 16) (off : Fin 2048) (bytes : List Byte) (s : State) : Host.Outcome State Fault Refusal :=
  if !inService s then .next s
  else if (bytes.length == 4 || bytes.length == 8) && off.val % bytes.length == 0 then .next (writeMap ctx off bytes s)
  else .next (badAccess 0 (mapBase ctx + off) false true 1 s)

end Sys2Proof.Machine
end

