-- ==== Sys2Proof/Machine/OptOps.lean ====
section
/-!
DEFINITION. Ports: flits, replay, flow control, packets, routing, link loss and lanes (R292 to R307, R311 to R315 of
spec/09_optical_fabric.md).
-/
namespace Sys2Proof.Machine

def port (s : State) (p : Nat) : Port := tabGet {} s.opt.ports p

def modPort (p : Nat) (f : Port → Port) (s : State) : State := { s with opt := { s.opt with ports := tabMod {} s.opt.ports p f } }

/-- The port carries data: Up or Degraded. -/
def Port.usable (q : Port) : Bool := q.st == .up || q.st == .degraded

/-- The port's link is live: Up, Degraded or Hold (R302). -/
def Port.live (q : Port) : Bool := q.usable || q.st == .hold

/-- The module's own fabric address (R311). -/
def selfAddr (s : State) : Nat := reg s rOptSelf % 2 ^ 20

/-- Logical lanes in service of a map. -/
def lanesIn (m : List Nat) : Nat := (m.filter (· ≠ 15)).length

/-! ## The pair channel's port (R462) -/

/-- RDX_PAIR: the partner's address, the designated port, and whether the pair is enabled. -/
def partnerAddr (s : State) : Nat := reg s rRdxPair % 2 ^ 20
def pairDesignated (s : State) : Nat := bitsOf (reg s rRdxPair) 23 20
def pairEnabled (s : State) : Bool := regBit s rRdxPair 24

/-- The port of the pair channel: the designated one, or the probed route while the pair is degraded (R462). -/
def pairPort (s : State) : Nat := if s.rdx.pair.st = 2 then s.rdx.pair.route else pairDesignated s

/-! ## Packet headers (Table 9.3) -/

def pkDest (b : List Byte) : Nat := fieldAt b 0 3 % 2 ^ 20
def pkHops (b : List Byte) : Nat := fieldAt b 0 3 / 2 ^ 20
def pkSrc (b : List Byte) : Nat := fieldAt b 3 3 % 2 ^ 20
def pkType (b : List Byte) : Nat := fieldAt b 6 1
def pkPart (b : List Byte) : Nat := fieldAt b 7 1 % 64
def pkLast (b : List Byte) : Bool := (fieldAt b 7 1).testBit 6
def pkGroup (b : List Byte) : Nat := fieldAt b 8 2
def pkTag (b : List Byte) : Nat := fieldAt b 10 2 % 1024
def pkRank (b : List Byte) : Nat := fieldAt b 10 2 / 1024
def pkEpoch (b : List Byte) : Nat := fieldAt b 12 4
def pkStepLo (b : List Byte) : Nat := fieldAt b 16 2
def pkBodyLen (b : List Byte) : Nat := fieldAt b 18 2
def pkOffset (b : List Byte) : Nat := fieldAt b 20 4
def pkBody (b : List Byte) : List Byte := (b.drop 32).take (pkBodyLen b)

/-- The channel of a message type (R298, Table 9.4). -/
def channelOf (ty : Nat) : Option Nat :=
  if ty = 1 ∨ ty = 2 ∨ ty = 4 ∨ ty = 12 then some 0 else if 1 ≤ ty ∧ ty ≤ 11 then some 1 else none

/-- Flits of a packet (R299). -/
def flitCount (b : List Byte) : Nat := max 1 (ceilDiv b.length 240)

/-- A packet that the module originates. -/
def ownPacket (b : List Byte) (vc : Nat) : Packet := { bytes := b, vc := vc }

/-- Flits of a packet that are here, and so may leave (R314). -/
def Packet.flitsHere (k : Packet) : Nat := if k.extent = .whole then flitCount k.bytes else k.bytes.length / 240

/-- Flit `idx` is the packet's last. -/
def Packet.lastFlit (k : Packet) (idx : Nat) : Bool := k.extent == .whole && idx + 1 == flitCount k.bytes

/-! ## Flits (Table 9.2) -/

/-- The 256 bytes of a flit with its first eight bytes `h`. -/
def flitBytes (h : Nat) (payload : List Byte) : List Byte :=
  let b := leBytes 8 h ++ padTo 240 payload ++ zeros 4
  b ++ leBytes 4 (crc32c b)

/-- ACK, CREDIT0, CREDIT1 and NAK as the port sends them now. -/
def Port.ackFields (q : Port) : Nat :=
  (q.rxNext + 65535) % 65536 * 2 ^ 24 + min 255 (q.owe0 / 4) * 2 ^ 40 + min 255 q.owe1 * 2 ^ 48 + boolNat q.nak * 2 ^ 56

/-- The port after a flit that carried those fields. -/
def Port.acked (q : Port) : Port :=
  { q with owe0 := q.owe0 - 4 * min 255 (q.owe0 / 4), owe1 := q.owe1 - min 255 q.owe1, nak := false }

/-- The wavelengths that carry the eight 32-byte units of a flit: unit u on logical lane u mod n of the n in service (R293). -/
def Port.waves (q : Port) : List Nat :=
  let on := q.txMap.filter (· ≠ 15)
  (List.range 8).map fun u => on.getD (u % max 1 on.length) 15

/-- Send a flit, which takes the acknowledgement, the credits and the NAK along. -/
def sendFlit (p h : Nat) (payload : List Byte) (s : State) : State :=
  modPort p Port.acked (emit (.flit p (flitBytes h payload) (port s p).waves) s)

/-- Send an idle flit; it carries the acknowledgement, the credits and the NAK. -/
def sendIdle (p : Nat) (s : State) : State := sendFlit p (port s p).ackFields [] s

/-- A link-management flit (KIND 2), which bypasses credits and replay (R302), or the training sequence. Byte 0 of the payload is
the code: 2 heartbeat, 3 spare request, 4 spare acknowledgement, 5 hold request, 7 lane removed, 8 HELLO; bytes 1 to 4 its argument
(DESIGN CHOICE, log entry 41). Code 6 is the training sequence, which is no flit. -/
def tellPeer (p code arg : Nat) (s : State) : State :=
  if code = 6 then emit (.peer p 6 arg) s else sendFlit p (2 + (port s p).ackFields) (leBytes 1 code ++ leBytes 4 arg) s

/-- Send a data flit. -/
def sendData (p : Nat) (f : SentFlit) (s : State) : State :=
  let h := 1 + 4 * f.pkt.vc + 8 * boolNat (f.idx == 0) + 16 * boolNat (f.pkt.lastFlit f.idx) + 256 * f.seq + (port s p).ackFields
  bump cOptTx 1 (sendFlit p h ((f.pkt.bytes.drop (240 * f.idx)).take 240) s)

/-- The waiting packets with the next to begin in front: forwarded and local packets take turns where both wait (R314). -/
def turned (fwd : Bool) (ks : List Packet) : List Packet :=
  match ks.find? fun k => k.arrival.isSome != fwd with
  | some k => k :: ks.erase k
  | none => ks

/-- The port with the packets whose turn it is in front of its queues. -/
def Port.turn (q : Port) : Port :=
  { q with
    queue0 := if q.idx0 = 0 then turned q.fwd0 q.queue0 else q.queue0
    queue1 := if q.idx1 = 0 then turned q.fwd1 q.queue1 else q.queue1 }

/-- The next flit of a channel's first packet, where it is here and the channel has credit (R297, R314). -/
def headFlit (ks : List Packet) (idx credit : Nat) : Option (Packet × Nat) :=
  match ks with
  | k :: _ => if 0 < credit ∧ idx < k.flitsHere then some (k, idx) else none
  | [] => none

/-- The next new data flit the port may send: control before bulk, one credit each, with room in the replay buffer (R294,
R297, R298). -/
def Port.nextFlit (q : Port) : Option SentFlit :=
  if 8192 ≤ q.sent.length then none
  else match headFlit q.queue1 q.idx1 q.credit1 with
    | some (k, i) => some ⟨q.txSeq, k, i⟩
    | none => (headFlit q.queue0 q.idx0 q.credit0).map fun e => ⟨q.txSeq, e.1, e.2⟩

/-- The port after sending a new flit. -/
def Port.afterNew (q : Port) (f : SentFlit) : Port :=
  let last := f.pkt.lastFlit f.idx
  let q := { q with txSeq := (q.txSeq + 1) % 65536, sent := q.sent ++ [f] }
  if f.pkt.vc = 1 then
    { q with
      credit1 := q.credit1 - 1, queue1 := if last then q.queue1.drop 1 else q.queue1, idx1 := if last then 0 else f.idx + 1
      fwd1 := f.pkt.arrival.isSome }
  else
    { q with
      credit0 := q.credit0 - 1, queue0 := if last then q.queue0.drop 1 else q.queue0, idx0 := if last then 0 else f.idx + 1
      fwd0 := f.pkt.arrival.isSome }

/-- Send new flits, at most `fuel`. -/
def pumpLoop : Nat → Nat → State → State
  | 0, _, s => s
  | fuel + 1, p, s =>
    if !(port s p).usable then s
    else match (port s p).turn.nextFlit with
      | none => s
      | some f => pumpLoop fuel p (modPort p (fun q => q.turn.afterNew f) (sendData p f s))

/-- Send what the port can send now. -/
def pump (p : Nat) (s : State) : State :=
  pumpLoop (((port s p).queue0 ++ (port s p).queue1).map fun k => flitCount k.bytes).sum p s

/-! ## Routing (R312 to R314, R462) -/

/-- The ports that the peer cache names for an address (R312). -/
def portsFor (s : State) (addr : Nat) : List Nat :=
  (List.range 16).filter fun p =>
    ((port s p).live && (port s p).neighbour == addr)
      || s.opt.peers.any fun e => e.2.toNat.testBit 63 && e.2.toNat % 2 ^ 20 == addr && e.2.toNat.testBit (20 + p)

/-- The usable ports of a destination, without the arrival port (R313). -/
def usablePorts (s : State) (addr : Nat) (arrival : Option Nat) : List Nat :=
  (portsFor s addr).filter fun p => (port s p).usable && arrival != some p

/-- A dropped packet's log entry, at most one for each arrival port in a millisecond (R314). -/
def logDrop (code : Nat) (k : Packet) (s : State) : State :=
  let key := k.arrival.getD 16
  let due := match tabGet none s.opt.dropLogged key with
    | some t => decide (t + 1000000 ≤ s.mod.devTime)
    | none => true
  if !due then s
  else
    let a := k.arrival.getD 0
    logEntry { code := code, source := 6, engine := a, detail := a + pkDest k.bytes * 256 + boolNat k.arrival.isNone * 2 ^ 28 }
      { s with opt := { s.opt with dropLogged := tabSet none s.opt.dropLogged key (some s.mod.devTime) } }

/-- A packet has no usable port. -/
def dropNoRoute (k : Packet) (s : State) : State :=
  logDrop 0x0807 k (setFlag .opt 3 (bump cOptNoRoute 1 s))

/-- Put a packet at the end of its channel's queue on a port. -/
def queueOn (p : Nat) (k : Packet) (s : State) : State :=
  pump p (modPort p (fun q => if k.vc = 1 then { q with queue1 := q.queue1 ++ [k] } else { q with queue0 := q.queue0 ++ [k] }) s)

/-- Route a packet: to the module itself where it is its own destination, else out of one of the usable ports (R313). -/
def routePacket (k : Packet) (s : State) : State :=
  let b := k.bytes
  if pkDest b = selfAddr s then
    if channelOf (pkType b) = some k.vc then { s with opt := { s.opt with inbox := s.opt.inbox ++ [⟨16, b, false⟩] } }
    else bump cOptBad 1 s
  else
    let us := usablePorts s (pkDest b) k.arrival
    match us with
    | [] => dropNoRoute k s
    | _ =>
      let x := pkSrc b ^^^ pkDest b ^^^ pkGroup b ^^^ pkTag b ^^^ pkPart b
      queueOn (us.getD (x % us.length) 0) k s

/-- Space of a packet in a port's receive buffer is freed: its flits are owed as credits (R297). -/
def freeBuffer (p vc n : Nat) (s : State) : State :=
  modPort p (fun q => if vc = 1 then { q with owe1 := q.owe1 + n } else { q with owe0 := q.owe0 + n }) s

/-- A packet for the module has arrived whole on port `p` (R299, R313). -/
def arrivePacket (p vc : Nat) (b : List Byte) (s : State) : State :=
  if channelOf (pkType b) = some vc then { s with opt := { s.opt with inbox := s.opt.inbox ++ [⟨p, b, true⟩] } }
  else freeBuffer p vc (flitCount b) (bump cOptBad 1 s)

/-- A packet addressed elsewhere begins to arrive on port `p` with these bytes, its only flit or its first: it is forwarded with HOPS
lowered by 1, or dropped. Forwarding is cut-through: it takes its place on its output port now, and its other flits join it as they come
(R313, R314). -/
def forwardPacket (p vc : Nat) (last : Bool) (b : List Byte) (s : State) : State :=
  let k : Packet := ⟨b, vc, some p, if last then .whole else .coming⟩
  if !regBit s rOptCtrl 22 then dropNoRoute k s
  else if pkHops b = 0 then logDrop 0x0808 k (setFlag .opt 4 (bump cOptHops 1 s))
  else
    let s := if (usablePorts s (pkDest b) (some p)).isEmpty then s else bump cOptFwd 1 s
    routePacket { k with bytes := leBytes 3 (pkDest b + (pkHops b - 1) * 2 ^ 20) ++ b.drop 3 } s

/-- The packet is the one in transit from port `p` on the channel whose flits still come. -/
def Packet.coming (p vc : Nat) (k : Packet) : Bool := k.arrival == some p && k.vc == vc && k.extent == .coming

/-- A port's packets and the packets of its replay buffer, each changed. -/
def Port.mapPackets (f : Packet → Packet) (q : Port) : Port :=
  { q with queue0 := q.queue0.map f, queue1 := q.queue1.map f, sent := q.sent.map fun e => { e with pkt := f e.pkt } }

/-- The output port of the packet whose flits still come on port `p`; none where it was dropped. -/
def transitPort (s : State) (p vc : Nat) : Option Nat :=
  (List.range 16).find? fun o => ((port s o).queue0 ++ (port s o).queue1).any (·.coming p vc)

/-- Another flit of a packet in transit has come, and may leave (R314). -/
def growTransit (p vc : Nat) (last : Bool) (payload : List Byte) (s : State) : State :=
  match transitPort s p vc with
  | none => s
  | some o => pump o (modPort o (Port.mapPackets fun k =>
      if k.coming p vc then { k with bytes := k.bytes ++ payload, extent := if last then .whole else .coming } else k) s)

/-- A port without the packet in transit from port `p` whose other flits will not come; its flits already sent stay in the replay
buffer. -/
def Port.breakTransit (p vc : Nat) (q : Port) : Port :=
  let idx := fun (ks : List Packet) (i : Nat) => if (ks.head?.map (·.coming p vc)) = some true then 0 else i
  let q := { q with idx0 := idx q.queue0 q.idx0, idx1 := idx q.queue1 q.idx1 }
  let q := { q with queue0 := q.queue0.filter fun k => !k.coming p vc, queue1 := q.queue1.filter fun k => !k.coming p vc }
  q.mapPackets fun k => if k.coming p vc then { k with extent := .broken } else k

/-- The packet in transit from port `p` on a channel is broken off: the sender sends it anew, or another in its place (R28, R304). -/
def breakTransit (p vc : Nat) (s : State) : State :=
  match transitPort s p vc with
  | none => s
  | some o => pump o (modPort o (Port.breakTransit p vc) s)

/-! ## Receiving flits (R294, R295) -/

/-- The flit's check value is right (R292). -/
def flitGood (b : List Byte) : Bool := fieldAt b 252 4 == crc32c (b.take 252)

/-- Sequence number `a` lies before `b`, modulo 2^16. -/
def seqBefore (a b : Nat) : Bool := decide (0 < (b + 65536 - a) % 65536) && decide ((b + 65536 - a) % 65536 < 32768)

/-- What the acknowledgement and credits of a received flit do (R294, R297). -/
def Port.takeAck (q : Port) (h : Nat) : Port :=
  let ack := bitsOf h 39 24
  let rest := q.sent.filter fun f => seqBefore ack f.seq
  let q := { q with
    credit0 := min 4096 (q.credit0 + 4 * bitsOf h 47 40), credit1 := min 256 (q.credit1 + bitsOf h 55 48) }
  if rest.length < q.sent.length then { q with sent := rest, retries := 0, replayed := false } else q

/-! ## Link loss (R302, R304) -/

/-- Packets of the replay buffer, each once, oldest first. -/
def sentPackets : List SentFlit → List Packet
  | [] => []
  | f :: fs => match sentPackets fs with
    | k :: ks => if k = f.pkt ∧ (fs.head?.map (·.idx)) = some (f.idx + 1) then k :: ks else f.pkt :: k :: ks
    | [] => [f.pkt]

/-- All packets a lost link holds, channel by channel: those unacknowledged, whole, and those queued; a packet sent in part is
taken once (R304). -/
def Port.allPackets (q : Port) : List Packet :=
  let done := fun vc => (sentPackets (q.sent.filter fun f => f.pkt.vc == vc)).filter fun k => k.extent != .broken
  let rest := fun (vc : Nat) (ks : List Packet) (i : Nat) => match ks with
    | k :: t => if i ≠ 0 ∧ (done vc).contains k then t else ks
    | [] => []
  done 1 ++ rest 1 q.queue1 q.idx1 ++ done 0 ++ rest 0 q.queue0 q.idx0

/-- The port with its link state cleared. -/
def Port.clearLink (q : Port) : Port :=
  { q with
    txSeq := 0, sent := [], replayed := false, retries := 0, replayAt := none, replayDue := false, credit0 := 0, credit1 := 0, owe0 := 0, owe1 := 0
    queue0 := [], queue1 := [], idx0 := 0, idx1 := 0, fwd0 := false, fwd1 := false, failedHold := [], rxNext := 0, nak := false, discarding := false
    asm0 := none, asm1 := none, spareAsked := none, hello := false, peerHold := false }

/-- A message of the pair channel that the module originates, but for its heartbeats (R277, R462). -/
def isPairMessage (s : State) (k : Packet) : Bool :=
  k.arrival.isNone && pairEnabled s && pkDest k.bytes == partnerAddr s
    && (pkType k.bytes == 2 || pkType k.bytes == 3 || pkType k.bytes == 12)

/-- A packet that a lost link does not requeue: a pair heartbeat, which is not sent while its port carries no data (R462), and a
message the module originates once it is Fenced (R28, R284). -/
def notRequeued (s : State) (k : Packet) : Bool :=
  k.arrival.isNone && (pkType k.bytes == 6 || s.mod.st == .fenced)

/-- Requeue the packets of a lost link: each to another usable port of its destination, else it waits on `p`. Messages of the pair
channel leave on the channel's port, or wait in front of those that wait for it (R304, R462). -/
def requeue (p : Nat) (ks : List Packet) (s : State) : State :=
  let ks := ks.filter fun k => !notRequeued s k
  let pairs := ks.filter (isPairMessage s)
  let s := if s.rdx.pair.st = 3 then bump cOptNoRoute pairs.length s
    else if (port s (pairPort s)).usable then pairs.foldl (fun s k => queueOn (pairPort s) k s) s
    else { s with rdx := { s.rdx with pair := { s.rdx.pair with wait := pairs.map (fun k => (k.bytes, k.vc)) ++ s.rdx.pair.wait } } }
  (ks.filter fun k => !isPairMessage s k).foldl (fun s k =>
    if (usablePorts s (pkDest k.bytes) k.arrival).isEmpty then
      modPort p (fun q => if k.vc = 1 then { q with queue1 := q.queue1 ++ [k] } else { q with queue0 := q.queue0 ++ [k] }) s
    else routePacket k s) s

/-- The packets that wait on a port are dropped and counted (R304). -/
def dropWaiting (p : Nat) (s : State) : State :=
  let n := (port s p).queue0.length + (port s p).queue1.length
  bump cOptNoRoute n (modPort p (fun q => { q with queue0 := [], queue1 := [], idx0 := 0, idx1 := 0 }) s)

/-- Packets that were arriving on a port that loses its link are broken off: the peer sends them anew (R304). -/
def breakArrivals (p : Nat) (s : State) : State := breakTransit p 1 (breakTransit p 0 s)

/-- The port enters a state with no link. Its packets are requeued where it had a link; those that then wait on it are dropped
where it does not train (R304). -/
def leaveLink (p : Nat) (st : PortState) (s : State) : State :=
  let s := breakArrivals p s
  let ks := (port s p).allPackets
  let had := (port s p).live || st == .training
  let s := modPort p (fun q => { q.clearLink with st := st }) s
  let s := if st = .training then tellPeer p 6 0 s else s
  let s := if had then requeue p ks s else bump cOptNoRoute ks.length s
  if st = .training then s else dropWaiting p s

/-- DETAIL of a link entry (Table 14.5). -/
def linkDetail (s : State) (p lane : Nat) : Nat := p + 16 * lane + 256 * (port s p).neighbour

/-- A link entry. -/
def logLink (code p lane : Nat) (s : State) : State :=
  logEntry { code := code, source := 6, action := 6, engine := p, detail := linkDetail s p lane } s

/-- LINK_LOST: a live link is lost, is logged and trains again (R302, R304). -/
def linkLost (p code : Nat) (s : State) : State :=
  if !(port s p).live then s
  else
    let s := logLink code p 0 (setFlag .opt 0 s)
    leaveLink p .training (modPort p (fun q => { q with downs := min 65535 (q.downs + 1) }) s)

/-- REPLAY_EXHAUSTED: the 64th retry takes the link down (R295). -/
def replayExhausted (p : Nat) (s : State) : State := linkLost p 0x0802 (setFlag .opt 1 s)

/-- A replay begins, on a NAK or on a timeout: every unacknowledged flit is sent again in order; in Hold it is due when the Hold
ends (R294, R295, R310). -/
def beginReplay (p : Nat) (nak : Bool) (s : State) : State :=
  let q := port s p
  if q.sent.isEmpty || q.replayAt == some (s.mod.devTime, !nak) then s
  else if q.st = .hold then modPort p (fun q => { q with replayDue := true }) s
  else if !q.usable then s
  else
    let retries := if q.replayed then q.retries + 1 else q.retries
    let s := bump cOptReplays 1 (modPort p (fun q => { q with
      replayed := true, retries := retries, replayAt := some (s.mod.devTime, nak) }) s)
    let s := if regBit s rOptCtrl 21 then logEntry { source := 6, engine := p } s else s
    if 64 ≤ retries then replayExhausted p s
    else q.sent.foldl (fun s f => sendData p f s) s

/-- The next replay of the port would be its 64th retry (R295). -/
def lastRetry (q : Port) : Bool := !q.sent.isEmpty && q.replayed && decide (63 ≤ q.retries)

/-- A port leaves Hold for its prior state; a replay that came due begins, and waiting flits leave (R310). -/
def leaveHold (p : Nat) (s : State) : State :=
  let due := (port s p).replayDue
  let s := modPort p (fun q => { q with st := q.prior, peerHold := false, replayDue := false }) s
  pump p (if due then beginReplay p false s else s)

/-- What has come of a channel's packet before its last flit. -/
def Port.arriving (q : Port) (vc : Nat) : Option (List Byte) := if vc = 1 then q.asm1 else q.asm0

/-- Add an accepted flit's payload to the packet of its channel; answers what has come of the packet (R299). -/
def Port.assemble (q : Port) (h : Nat) (payload : List Byte) : Port × Option (List Byte) :=
  let vc := bitsOf h 2 2
  let now := if h.testBit 3 then some payload else (q.arriving vc).map (· ++ payload)
  let keep := if h.testBit 4 then none else now
  (if vc = 1 then { q with asm1 := keep } else { q with asm0 := keep }, now)

/-- A packet that has begun to arrive is not ended: a new one takes its place (R28: the sender may break one off). -/
def breakOff (p vc : Nat) (old : Option (List Byte)) (s : State) : State :=
  match old with
  | none => s
  | some b => if pkDest b = selfAddr s then freeBuffer p vc (b.length / 240) s else breakTransit p vc s

/-- A packet without the padding of its last flit. -/
def trimPacket (b : List Byte) : List Byte := b.take (32 + pkBodyLen b)

/-- What the header fields of any good flit do: acknowledgement, credits, NAK. -/
def takeFields (p h : Nat) (s : State) : State :=
  let s := modPort p (fun q => q.takeAck h) s
  if h.testBit 56 then beginReplay p true s else s

/-- An idle flit or a data flit shows that a Hold the peer asked for has ended (R310). -/
def endPeerHold (p : Nat) (s : State) : State :=
  if (port s p).st = .hold ∧ (port s p).peerHold then leaveHold p s else s

/-- An accepted flit takes its packet further; `k` is what has come of that packet. A flit of a packet in transit leaves the receive buffer
at once (R299, R314; DESIGN CHOICE, log entry 135). -/
def takeFlit (p vc : Nat) (first last : Bool) (payload k : List Byte) (s : State) : State :=
  if pkDest k = selfAddr s then (if last then arrivePacket p vc (trimPacket k) s else s)
  else
    let s := freeBuffer p vc 1 s
    if first then forwardPacket p vc last payload s else growTransit p vc last payload s

/-- A data flit with a good check value: accepted where it is the one expected, else discarded, with a NAK at a gap (R294). -/
def acceptData (p h : Nat) (b : List Byte) (s : State) : State :=
  let q := port s p
  let seq := bitsOf h 23 8
  if seq = q.rxNext then
    let vc := bitsOf h 2 2
    let payload := (b.drop 8).take 240
    let (q', now) := ({ q with rxNext := (q.rxNext + 1) % 65536, discarding := false } : Port).assemble h payload
    let s := bump cOptRx 1 (modPort p (fun _ => q') s)
    let s := if h.testBit 3 then breakOff p vc (q.arriving vc) s else s
    match now with
    | some k => takeFlit p vc (h.testBit 3) (h.testBit 4) payload k s
    | none => freeBuffer p vc 1 s
  else if !q.discarding && !seqBefore seq q.rxNext then modPort p (fun q => { q with nak := true, discarding := true }) s
  else s

/-! ## Lanes (R305 to R307) -/

/-- MIN_LANES. -/
def minLanes (s : State) : Nat := bitsOf (reg s rOptCtrl) 19 16

def optLane (s : State) (p w : Nat) : OptLane := tabGet {} (port s p).lanes w

def modLane (p w : Nat) (f : OptLane → OptLane) (s : State) : State :=
  modPort p (fun q => { q with lanes := tabMod {} q.lanes w f }) s

/-- LANE_REMOVED: a receive lane leaves service, the port is Degraded, or its link is lost with too few lanes (R302, R307). -/
def removeLane (p k : Nat) (s : State) : State :=
  let w := (port s p).rxMap.getD k 15
  let s := modLane p w (fun l => { l with failed := true }) s
  let s := modPort p (fun q => { q with rxMap := q.rxMap.set k 15, st := if q.st = .up then .degraded else q.st }) s
  let s := tellPeer p 7 k (logLink 0x0804 p k (setFlag .opt 2 s))
  if lanesIn (port s p).rxMap < minLanes s then linkLost p 0x0801 s else s

/-- The peer has removed the lane that logical transmit lane `k` is for it: the flits are striped over the others (R293), the port
is Degraded, or its link is lost with too few lanes (R302, R307). -/
def peerRemoved (p k : Nat) (s : State) : State :=
  if (port s p).txMap.getD k 15 = 15 then s
  else
    let s := modPort p (fun q => { q with txMap := q.txMap.set k 15, st := if q.st = .up then .degraded else q.st
                                          prior := if q.prior = .up then .degraded else q.prior }) s
    let s := logLink 0x0804 p k (setFlag .opt 2 s)
    if lanesIn (port s p).txMap < minLanes s then linkLost p 0x0801 s else s

/-- Least value of an eye measure among lanes in service, and its port; 0 and 0 with none. -/
def leastEye (s : State) (f : OptLane → Nat) : Nat × Nat :=
  ((List.range 16).foldl (fun (best : Option (Nat × Nat)) p =>
    if !(port s p).live then best
    else (port s p).rxMap.foldl (fun best w =>
      if w = 15 then best
      else match best with
        | some (v, _) => if f (optLane s p w) < v then some (f (optLane s p w), p) else best
        | none => some (f (optLane s p w), p)) best) none).getD (0, 0)

/-! ## Training (R300, R303) -/

/-- A port that is not live enters Training, or starts it anew. -/
def startTraining (p : Nat) (s : State) : State :=
  tellPeer p 6 0 (modPort p (fun q => { q with st := .training, hello := false }) s)

/-- Training is abandoned: the port goes Down and its waiting packets are dropped (R300, R303, R304). -/
def trainFail (p code : Nat) (s : State) : State :=
  leaveLink p .down (logLink code p 0 (setFlag .opt (if code = 0x0806 then 7 else 6) s))

/-- A port retrains: a live link goes down first, and training in progress starts anew; a disabled port does nothing (R307,
Tables 9.6 and 9.7). -/
def retrainPort (p : Nat) (s : State) : State :=
  if (port s p).live then linkLost p 0x0801 s
  else if (port s p).st = .disabled then s
  else startTraining p s

/-! ## Laser bays (R308 to R310, R455) -/

def bay (s : State) (b : Nat) : Bay := tabGet {} s.opt.bays b

def modBay (b : Nat) (f : Bay → Bay) (s : State) : State := { s with opt := { s.opt with bays := tabMod {} s.opt.bays b f } }

/-- The group a bay serves (R308). -/
def groupOf (s : State) (b : Nat) : Option Nat := (List.range 4).find? fun g => s.opt.map.getD g 7 == b

/-- The lowest-numbered bay that is present and healthy and serves no group. -/
def healthySpare (s : State) : Option Nat :=
  (List.range 5).find? fun b => (bay s b).present && (bay s b).healthy && (groupOf s b).isNone && s.opt.moving.all (·.2 != b)

/-- OPT_LASER_MAP.SPARE follows the bays. -/
def refreshSpare (s : State) : State := { s with opt := { s.opt with spare := (healthySpare s).getD 7 } }

/-- The group has light: its bay is present and healthy and no move of it is in progress. -/
def groupLit (s : State) (g : Nat) : Bool :=
  let b := bay s (s.opt.map.getD g 7)
  b.present && b.healthy && s.opt.moving.all (·.1 != g)

/-- The ports of a group (R308). -/
def groupPorts (g : Nat) : List Nat := [4 * g, 4 * g + 1, 4 * g + 2, 4 * g + 3]

/-- A port whose light fails: a live link is lost, and training is abandoned; without a spare to move to, the port goes Down
(R309, Table 9.7). -/
def darken (spare : Bool) (p : Nat) (s : State) : State :=
  if (port s p).live then
    let s := linkLost p 0x0801 s
    if spare then s else leaveLink p .down s
  else if (port s p).st = .training then trainFail p 0x0805 s
  else s

/-- A planned transfer ends: the ports it holds return to their prior states (R310). -/
def endTransfer (result : Nat) (s : State) : State :=
  match s.opt.transfer with
  | none => s
  | some (g, _, _) =>
    let s := { s with opt := { s.opt with transfer := none, result := result } }
    (groupPorts g).foldl (fun s p =>
      if (port s p).st = .hold ∧ !(port s p).peerHold then leaveHold p s else s) s

/-- A group loses its light and moves onto a healthy spare, or stays dark. The lower of two groups that fail within the same
millisecond takes the spare (R309). -/
def failGroup (g : Nat) (s : State) : State :=
  match healthySpare s with
  | some b => (groupPorts g).foldl (fun s p => darken true p s) { s with opt := { s.opt with moving := s.opt.moving ++ [(g, b)] } }
  | none =>
    match s.opt.moving.find? (fun m => decide (g < m.1)) with
    | some (h, b) =>
      let s := { s with opt := { s.opt with moving := s.opt.moving.filter (·.1 != h) ++ [(g, b)] } }
      let s := (groupPorts g).foldl (fun s p => darken true p s) s
      (groupPorts h).foldl (fun s p => darken false p s) s
    | none => (groupPorts g).foldl (fun s p => darken false p s) s

/-- A bay becomes faulty, which LASER_SEEN shows (R308, R309, Table 9.11). A transfer in progress loses its spare to the failure, or has lost it, and completes
with result 2 (R310). -/
def bayFault (b : Nat) (s : State) : State :=
  match groupOf s b with
  | some g =>
    let s := logEntry { code := 0x0809, source := 6, action := 6, engine := b, detail := 4 * g } (setFlag .opt 5 s)
    refreshSpare (failGroup g (endTransfer 2 s))
  | none =>
    let s := match s.opt.transfer with
      | some (_, _, sp) => if sp = b then endTransfer 2 s else s
      | none => s
    let s := match s.opt.moving.find? (·.2 == b) with
      | some (g, _) => failGroup g { s with opt := { s.opt with moving := s.opt.moving.filter (·.2 != b) } }
      | none => s
    refreshSpare (setFlag .opt 5 s)

/-- Standby power is applied: each fitted bay reads as present, and OPT_LASER_MAP has its reset value (R455, Table 14.3). -/
def baysAtPower (s : State) : State :=
  (List.range 5).foldl (fun s b => modBay b (fun y => { y with present := y.fitted }) s)
    { s with opt := { s.opt with map := [0, 1, 2, 3], spare := 4, moving := [], transfer := none } }

/-- Standby power is lost: no bay reads as present. -/
def baysDark (s : State) : State :=
  (List.range 5).foldl (fun s b => modBay b (fun y => { y with present := false, safe := false }) s)
    { s with opt := { s.opt with map := [0, 1, 2, 3], spare := 4, moving := [], transfer := none } }

end Sys2Proof.Machine
end

