-- ==== Sys2Proof/Machine/RdxOps.lean ====
section
/-!
DEFINITION. The exchange: groups, messages, buckets, summation, the pair channel, epochs and fencing (R251 to R285, R462, R463
of spec/08_gradient_exchange_and_pairs.md).
-/
namespace Sys2Proof.Machine

/-! ## Serial numbers and sets -/

/-- Epoch `a` is newer than `b`: RFC 1982 with a window of 2^31. -/
def newerEpoch (a b : Nat) : Bool := decide (0 < (a + 2 ^ 32 - b) % 2 ^ 32) && decide ((a + 2 ^ 32 - b) % 2 ^ 32 < 2 ^ 31)

/-- Step bits `a` precede `b`: RFC 1982 with a window of 2^15 (R262). -/
def stepPrecedes (a b : Nat) : Bool := decide (0 < (b + 2 ^ 16 - a) % 2 ^ 16) && decide ((b + 2 ^ 16 - a) % 2 ^ 16 < 2 ^ 15)

/-- Members of a bitmap, ascending. -/
def members (m : Nat) : List Nat := (List.range 64).filter m.testBit

/-- The bitmap of a list. -/
def bitmapOf (l : List Nat) : Nat := l.foldl (fun m k => m ||| 2 ^ k) 0

/-- Set difference of bitmaps. -/
def without (a b : Nat) : Nat := bitmapOf ((members a).filter fun k => !b.testBit k)

/-- `a` is a subset of `b`. -/
def subset (a b : Nat) : Bool := (members a).all b.testBit

/-! ## Groups (R251 to R254, Tables 8.16 and 8.17) -/

def group (s : State) (ctx : Nat) : Group := tabGet {} s.rdx.groups ctx

def modGroup (ctx : Nat) (f : Group → Group) (s : State) : State :=
  { s with rdx := { s.rdx with groups := tabMod {} s.rdx.groups ctx f } }

def modPair (f : Pair → Pair) (s : State) : State := { s with rdx := { s.rdx with pair := f s.rdx.pair } }

def groupId (s : State) (ctx : Nat) : Nat := bitsOf (reg s (rRdxGroup ctx)) 15 0
def ownRank (s : State) (ctx : Nat) : Nat := bitsOf (reg s (rRdxGroup ctx)) 21 16
def workers (s : State) (ctx : Nat) : Nat := bitsOf (reg s (rRdxGroup ctx)) 28 22
def required (s : State) (ctx : Nat) : Nat := bitsOf (reg s (rRdxGroup ctx)) 35 29
def minAccept (s : State) (ctx : Nat) : Nat := bitsOf (reg s (rRdxGroup ctx)) 42 36
def groupParts (s : State) (ctx : Nat) : Nat := bitsOf (reg s (rRdxGroup ctx)) 49 43

/-- A context's group is enabled and a configuration is installed. -/
def groupOn (s : State) (ctx : Nat) : Bool := regBit s (rRdxGroup ctx) 50 && (group s ctx).installed

/-- Fabric address of a rank, where its member entry is present (Table 8.17). -/
def memberAddr (s : State) (ctx r : Nat) : Option Nat :=
  let m := reg s (rRdxMember ctx r)
  if m.testBit 31 then some (m % 2 ^ 20) else none

/-- Rank of the partner (R252). -/
def partnerRank (s : State) (ctx : Nat) : Nat := ownRank s ctx ^^^ 1

/-- The owner that an entry of an owner table names. -/
def entryOwner (t : List Nat) (k : Nat) : Option Nat :=
  let e := t.getD k 0
  if e.testBit 7 then some (e % 64) else none

/-- The group configuration of a context with an owner table is valid (R254). -/
def configValid (s : State) (ctx : Nat) (owners : List Nat) : Bool :=
  let w := workers s ctx
  let n := required s ctx
  let p := groupParts s ctx
  w % 2 == 0 && decide (2 ≤ w) && decide (w ≤ 64) && decide (1 ≤ n) && decide (n ≤ w) && decide (w - n ≤ 8)
    && decide (1 ≤ minAccept s ctx) && decide (minAccept s ctx ≤ n) && decide (1 ≤ p) && decide (p ≤ 64)
    && (List.range w).all (fun r => (memberAddr s ctx r).isSome)
    && decide (ownRank s ctx < w) && memberAddr s ctx (ownRank s ctx) == some (selfAddr s)
    && memberAddr s ctx (partnerRank s ctx) == some (partnerAddr s)
    && (List.range 64).all (fun k => match entryOwner owners k with | some r => decide (r < w) | none => true)

/-- The owner table that holds for a step: ownership changes at its effective step (R282). -/
def ownersAt (s : State) (ctx step : Nat) : List Nat :=
  match (group s ctx).next with
  | some (t, e) => if e ≤ step then t else (group s ctx).owners
  | none => (group s ctx).owners

/-- The owner table in force now. -/
def ownersNow (s : State) (ctx : Nat) : List Nat := ownersAt s ctx (curStep s ctx)

/-- A valid group is installed in the context (R254). -/
def groupValid (s : State) (ctx : Nat) : Bool := groupOn s ctx && configValid s ctx (ownersNow s ctx)

/-- Live ranks but the module's own. -/
def liveOthers (s : State) (ctx : Nat) : List Nat :=
  (List.range (workers s ctx)).filter fun r => (group s ctx).live.testBit r && r != ownRank s ctx

/-- The partner is lost to a context: declared lost, or dead in its group. -/
def partnerGone (s : State) (ctx : Nat) : Bool := s.rdx.pair.st == 3 || !(group s ctx).live.testBit (partnerRank s ctx)

/-! ## Sending (R299, R313, R462) -/

/-- The module sends exchange messages: not while Fenced (R284). -/
def canSend (s : State) : Bool := s.mod.st == .ready || s.mod.st == .running

/-- What a packet header says of a message (Table 9.3). -/
structure MsgHead where
  dest : Nat
  type : Nat
  part : Nat := 0
  gid : Nat := 0
  tag : Nat := 0
  rank : Nat := 0
  epoch : Nat := 0
  step : Nat := 0
deriving DecidableEq, Repr

/-- The 32 header bytes of a packet of a message. -/
def packetHeader (s : State) (h : MsgHead) (last : Bool) (len offset : Nat) : List Byte :=
  leBytes 3 (h.dest + bitsOf (reg s rOptCtrl) 27 24 * 2 ^ 20) ++ leBytes 3 (selfAddr s) ++ leBytes 1 h.type
    ++ leBytes 1 (h.part + 64 * boolNat last) ++ leBytes 2 h.gid ++ leBytes 2 (h.tag + 1024 * h.rank) ++ leBytes 4 h.epoch
    ++ leBytes 2 h.step ++ leBytes 2 len ++ leBytes 4 offset ++ zeros 8

/-- The packets of a message, each with at most 15,328 bytes of its body (R299). -/
def packetsOf (s : State) (h : MsgHead) (body : List Byte) : List (List Byte) :=
  let cs := chunksOf 15328 body.length body
  if cs.isEmpty then [packetHeader s h true 0 0]
  else (List.range cs.length).map fun i =>
    let c := cs.getD i []
    packetHeader s h (i + 1 == cs.length) c.length (958 * i) ++ c

/-- Count exchange bytes and other events of the open step (Table 8.7). -/
def addExch (ctx : Nat) (f : ExchCounts → ExchCounts) (s : State) : State :=
  modOpen ctx (fun o => if o.begun then { o with exch := f o.exch } else o) s

/-- Count a message's bytes as sent. -/
def countSent (ctx : Option Nat) (pks : List (List Byte)) (s : State) : State :=
  let n := (pks.map List.length).sum
  let s := bump cRdxSent n s
  match ctx with
  | some c => addExch c (fun x => { x with sent := x.sent + n }) s
  | none => s

/-- Send a message under R313. -/
def sendRouted (ctx : Option Nat) (h : MsgHead) (body : List Byte) (s : State) : State :=
  if !canSend s then s
  else
    let pks := packetsOf s h body
    pks.foldl (fun s b => routePacket (ownPacket b ((channelOf h.type).getD 0)) s) (countSent ctx pks s)

/-- Pair channel messages that wait leave in their order once the channel's port is Up or Degraded; with the pair disabled they
leave under R313 (R462). -/
def pumpPair (s : State) : State :=
  if s.rdx.pair.wait.isEmpty || !canSend s then s
  else if !pairEnabled s then
    s.rdx.pair.wait.foldl (fun s w => routePacket (ownPacket w.1 w.2) s) (modPair (fun r => { r with wait := [] }) s)
  else if (port s (pairPort s)).usable then
    s.rdx.pair.wait.foldl (fun s w => queueOn (pairPort s) (ownPacket w.1 w.2) s) (modPair (fun r => { r with wait := [] }) s)
  else s

/-- Send a message over the pair channel (R462). -/
def sendPair (ctx : Option Nat) (h : MsgHead) (body : List Byte) (s : State) : State :=
  if !canSend s || s.rdx.pair.st == 3 then s
  else
    let pks := packetsOf s h body
    let vc := (channelOf h.type).getD 0
    pumpPair (modPair (fun r => { r with wait := r.wait ++ pks.map fun b => (b, vc) }) (countSent ctx pks s))

/-- The header of a message of a context's group, to an address. -/
def groupHead (s : State) (ctx type dest part tag step : Nat) : MsgHead :=
  { dest := dest, type := type, part := part, gid := groupId s ctx, tag := tag, rank := ownRank s ctx
    epoch := (group s ctx).epoch, step := step % 2 ^ 16 }

/-- Send a group message to a rank. -/
def sendRank (ctx type rank part tag step : Nat) (body : List Byte) (s : State) : State :=
  match memberAddr s ctx rank with
  | some a => sendRouted (some ctx) (groupHead s ctx type a part tag step) body s
  | none => s

/-- Send a group message over the pair channel. -/
def sendPartner (ctx type part tag step : Nat) (body : List Byte) (s : State) : State :=
  sendPair (some ctx) (groupHead s ctx type (partnerAddr s) part tag step) body s

/-- The body of an epoch notice: live bitmap, effective step, owner table and declarer's rank (R282). -/
def noticeBody (s : State) (ctx : Nat) : List Byte :=
  let g := group s ctx
  let (t, e) := match g.next with | some n => n | none => (g.owners, 0)
  leBytes 8 g.live ++ leBytes 8 e ++ (List.range 64).map (fun k => BitVec.ofNat 8 (t.getD k 0)) ++ leBytes 1 (g.declarer.getD 255)

/-- Send an epoch notice of the context's state to an address. -/
def sendNotice (ctx dest : Nat) (s : State) : State :=
  sendRouted (some ctx) (groupHead s ctx 9 dest 0 0 (curStep s ctx)) (noticeBody s ctx) s

/-- Send epoch notices to every live member. -/
def sendNotices (ctx : Nat) (s : State) : State :=
  (liveOthers s ctx).foldl (fun s r => match memberAddr s ctx r with
    | some a => sendNotice ctx a s
    | none => s) s

/-- Send a fenced notice with the context's epoch to an address. -/
def sendFencedNotice (ctx dest : Nat) (s : State) : State :=
  setFlag .rdx 1 (sendRouted (some ctx) (groupHead s ctx 10 dest 0 0 (curStep s ctx)) [] s)

/-- A reply to an address, at most one in each 100 µs (R283). -/
def replyTo (addr : Nat) (k : State → State) (s : State) : State :=
  let due := match tabGet none s.rdx.replied addr with
    | some t => decide (t + 100000 ≤ s.mod.devTime)
    | none => true
  if due && canSend s then k { s with rdx := { s.rdx with replied := tabSet none s.rdx.replied addr (some s.mod.devTime) } } else s

/-- Send a pair heartbeat, where the channel's port is usable (R277, R462). -/
def sendHeartbeat (s : State) : State :=
  if pairEnabled s && canSend s && s.rdx.pair.st != 3 && (port s (pairPort s)).usable then
    let b := packetHeader s { dest := partnerAddr s, type := 6 } true 0 0
    queueOn (pairPort s) (ownPacket b 1) (countSent none [b] s)
  else s

/-- Send a PROBE on a port (R463). -/
def sendProbe (p : Nat) (designated : Bool) (s : State) : State :=
  if canSend s && (usablePorts s (partnerAddr s) none).contains p then
    let b := packetHeader s { dest := partnerAddr s, type := 7 } true 16 0 ++ leBytes 16 (p + 256 * boolNat designated)
    queueOn p (ownPacket b 1) (countSent none [b] s)
  else s

/-! ## Buckets and parts (R253, R257) -/

/-- Fields of RDX_REDUCE (Table 8.1). -/
def rdxTag (b : List Byte) : Nat := fieldAt b 16 2 % 1024
def rdxInFmt (b : List Byte) : Nat := fieldAt b 18 1 % 16
def rdxOutFmt (b : List Byte) : Nat := fieldAt b 18 1 / 16
def rdxScale (b : List Byte) : Int := signed 8 (fieldAt b 19 1)
def rdxRoundNode (b : List Byte) : Nat := bitsOf (fieldAt b 20 1) 1 0
def rdxRoundX (b : List Byte) : Nat := bitsOf (fieldAt b 20 1) 3 2
def rdxSat (b : List Byte) : Bool := !(fieldAt b 20 1).testBit 4
def rdxForced (b : List Byte) : Bool := (fieldAt b 20 1).testBit 5
def rdxUnit (b : List Byte) : Nat := bitsOf (fieldAt b 21 1) 1 0
def rdxElements (b : List Byte) : Nat := fieldAt b 24 4
def rdxTensor (b : List Byte) : Nat := fieldAt b 28 4
def rdxContrib (b : List Byte) : Nat := fieldAt b 32 8
def rdxResult (b : List Byte) : Nat := fieldAt b 40 8
def rdxPartsAddr (b : List Byte) : Nat := fieldAt b 48 8
def rdxAccept (b : List Byte) : Nat := fieldAt b 56 8

/-- First element of part `k` of `p` parts of a bucket of `e` elements: b_k (R253). -/
def partStart (e p k : Nat) : Nat := 256 * (k * ceilDiv e 256 / p)

/-- First element and element count of part `k` (R253). -/
def partSpan (e p k : Nat) : Nat × Nat :=
  let lo := min (partStart e p k) e
  (lo, min (partStart e p (k + 1)) e - lo)

def bucket (s : State) (ctx tag : Nat) : Option Bucket :=
  match (stepCtx s ctx).opened with
  | some o => tabGet none o.buckets tag
  | none => none

def setBucket (ctx tag : Nat) (b : Bucket) (s : State) : State :=
  modOpen ctx (fun o => { o with buckets := tabSet none o.buckets tag (some b) }) s

def modBucket (ctx tag : Nat) (f : Bucket → Bucket) (s : State) : State :=
  match bucket s ctx tag with
  | some b => setBucket ctx tag (f b) s
  | none => s

/-- Parts of the group that an owner table gives to a rank. -/
def partsOf (s : State) (ctx : Nat) (t : List Nat) (rank : Nat) : Nat :=
  bitmapOf ((List.range (groupParts s ctx)).filter fun k => entryOwner t k == some rank)

/-- Address and length of the contribution's bytes of a part. -/
def contribExtent (s : State) (ctx : Nat) (b : List Byte) (k : Nat) : Nat × Nat :=
  let e := elemBytes (rdxInFmt b)
  let (lo, n) := partSpan (rdxElements b) (groupParts s ctx) k
  (rdxContrib b + lo * e, n * e)

/-- The contribution's bytes of a part, as the unit reads them now. -/
def contribBytes (s : State) (ctx : Nat) (b : List Byte) (k : Nat) : List Byte :=
  let e := contribExtent s ctx b k
  readMem s e.1 e.2

/-- The unit's reads of parts of the contribution (R258, R282). -/
def noteContrib (ctx : Nat) (k : Bucket) (parts : Nat) (s : State) : State :=
  (members parts).foldl (fun s p =>
    let e := contribExtent s ctx k.bytes p
    noteRead ⟨5, k.unit, some k.reduce⟩ e.1 e.2 s) s

/-- Bytes 16 to 31 of the completion of RDX_REDUCE (Table 8.4). -/
def Bucket.flags (b : Bucket) : Nat :=
  boolNat b.afterDeadline + 2 * boolNat b.forced + 4 * boolNat (b.taken != 0) + 8 * boolNat b.lost

def Bucket.decideUs (b : Bucket) : Nat := stop32 ((b.decidedAt - b.openAt) / 1000)

def reduceTail (b : Bucket) : List Byte :=
  leBytes 8 (b.accepted.getD 0) ++ leBytes 1 (members (b.accepted.getD 0)).length ++ leBytes 1 b.flags
    ++ leBytes 2 (min 65535 b.late) ++ leBytes 4 b.decideUs

/-- Bytes 16 to 31 of the completion of RDX_GATHER (Table 8.4). -/
def gatherTail (b : Bucket) (now : Nat) : List Byte :=
  leBytes 8 b.codesFrom ++ leBytes 1 b.sent ++ leBytes 1 (boolNat b.sentTaken) ++ leBytes 2 (min 65535 b.dups)
    ++ leBytes 4 (stop32 ((now - b.gatherAt) / 1000))

/-- Drop the staged data and the waiting sums of a bucket. -/
def dropBucketWork (ctx tag : Nat) (s : State) : State :=
  let s := modGroup ctx (fun g => { g with staged := g.staged.filter fun p => !(p.tag == tag && p.step == curStep s ctx % 2 ^ 16) }) s
  { s with rdx := { s.rdx with units := tabMap {} (fun _ u => { u with
      queue := u.queue.filter fun j => !(j.ctx == ctx && j.tag == tag) }) s.rdx.units } }

/-- End the descriptor of a bucket in progress, with its histogram record and a flush of the step (R263, R268, R272). -/
def endDescriptor (ctx tag status : Nat) (s : State) : State :=
  match bucket s ctx tag with
  | none => s
  | some b =>
    match b.gather with
    | some g =>
      if b.gatherStatus.isSome then s
      else
        let s := setBucket ctx tag { b with gatherStatus := some (statusOut s g status), doneAt := s.mod.devTime } s
        let s := emitHist g b.noHistG 0 .credenza b.unit b.histG s
        completeWith true false true g status (gatherTail b s.mod.devTime) s
    | none =>
      if b.reduceStatus.isSome then s
      else
        let s := setBucket ctx tag { b with reduceStatus := some (statusOut s b.reduce status) } s
        let s := emitHist b.reduce (dNoHist b.bytes) 0 .credenza b.unit b.hist s
        completeWith true false true b.reduce status (reduceTail b) s

/-- The bucket has not ended. -/
def Bucket.active (b : Bucket) : Bool :=
  match b.st with
  | .collecting | .reducing | .reduced | .gathering => true
  | _ => false

/-- A bucket aborts: ABORT messages, an entry, and BUCKET_ABORT for its descriptor (R264). -/
def abortBucket (ctx tag : Nat) (s : State) : State :=
  match bucket s ctx tag with
  | none => s
  | some b =>
    if !b.active then s
    else
      let step := curStep s ctx
      let s := dropBucketWork ctx tag (setBucket ctx tag { b with st := .aborted } s)
      let s := bump cRdxAborts 1 (setFlag .rdx 0 s)
      let r := b.gather.getD b.reduce
      let e : LogEntry := { code := stBucketAbort, source := 5, action := 8, engine := b.unit, detail := step }
      let s := logEntry (e.naming r) s
      let s := (liveOthers s ctx).foldl (fun s w => sendRank ctx 5 w 0 tag step [] s) s
      endDescriptor ctx tag stBucketAbort s

/-! ## Acceptance (R259 to R261) -/

/-- The part a rank owes has been staged. -/
def stagedFor (g : Group) (tag step rank part : Nat) : Bool :=
  g.staged.any fun p => p.tag == tag && p.step == step % 2 ^ 16 && p.rank == rank && p.part == part

/-- A rank's contribution has arrived: every part of `parts` it owes is staged (R259). -/
def hasArrived (g : Group) (tag step rank parts : Nat) : Bool := (members parts).all (stagedFor g tag step rank)

/-- Device time at which a rank's contribution to `parts` arrived: that of its last part (R259). -/
def arrivalAt (g : Group) (tag step rank parts : Nat) : Nat :=
  (g.staged.filter fun p => p.tag == tag && p.step == step % 2 ^ 16 && p.rank == rank && parts.testBit p.part).foldl
    (fun t p => max t p.came) 0

/-- Ranks whose contribution to `parts` is staged, in the order of R259: by device time, and by rank within a nanosecond. -/
def arrivedOf (g : Group) (tag step parts : Nat) : List Nat :=
  let time := fun r => arrivalAt g tag step r parts
  let here := (List.range 64).filter fun r =>
    (g.staged.any fun p => p.tag == tag && p.step == step % 2 ^ 16 && p.rank == r && parts.testBit p.part)
      && hasArrived g tag step r parts
  here.foldl (fun l r => l.filter (fun q => decide (time q ≤ time r)) ++ r :: l.filter (fun q => decide (time r < time q))) []

/-- Put a rank that arrives now into the order of arrivals: behind those before, and by rank among those of this nanosecond. -/
def putArrival (g : Group) (tag step parts now rank : Nat) (l : List Nat) : List Nat :=
  let after := fun r => arrivalAt g tag step r parts == now && decide (rank < r)
  l.filter (fun r => !after r) ++ rank :: l.filter after

/-- The accepted set, where it is decided; `deadline` tells how its deadline stands: none where it has not passed, else whether it
passes in this nanosecond, whose arrivals all count (R259 to R261, Table 8.11). -/
def decideSet (n minimum : Nat) (deadline : Option Bool) (expected : Option Nat) (arrived : List Nat) : Option Nat :=
  match expected with
  | some e => if (members e).all arrived.contains then some e else none
  | none =>
    if n ≤ arrived.length then some (bitmapOf (arrived.take n))
    else match deadline with
      | some now => if minimum ≤ arrived.length then some (bitmapOf (if now then arrived else arrived.take minimum)) else none
      | none => none

def crzUnit (s : State) (u : Nat) : CrzUnit := tabGet {} s.rdx.units u

def modCrz (u : Nat) (f : CrzUnit → CrzUnit) (s : State) : State := { s with rdx := { s.rdx with units := tabMod {} s.rdx.units u f } }

/-- Queue the sums of parts on a bucket's unit, each once. -/
def queueSums (ctx tag unit parts : Nat) (s : State) : State :=
  modCrz unit (fun u => { u with queue := u.queue ++ ((members parts).map fun k => ⟨ctx, tag, k⟩).filter fun j => !u.queue.contains j }) s

/-- The waiting sums of a bucket's parts that the module no longer reduces are dropped (R282). -/
def dropSums (ctx tag keep : Nat) (s : State) : State :=
  { s with rdx := { s.rdx with units := tabMap {} (fun _ u => { u with
      queue := u.queue.filter fun j => !(j.ctx == ctx && j.tag == tag && !keep.testBit j.part) }) s.rdx.units } }

/-- Fewer than MIN_ACCEPT contributions can still arrive for an undecided set (R264). -/
def outOfReach (s : State) (ctx : Nat) (b : Bucket) : Bool :=
  let live := (List.range (workers s ctx)).filter (group s ctx).live.testBit
  let few := fun (a : List Nat) => decide ((a ++ live.filter fun r => !a.contains r).length < minAccept s ctx)
  b.expected.isNone && ((b.own != 0 && b.accepted.isNone && few b.arrived) || (b.taken != 0 && b.acceptedT.isNone && few b.arrivedT))

/-- The rank's staged parts of a bucket, among `parts`, are dropped. -/
def unstage (ctx tag step rank parts : Nat) (s : State) : State :=
  modGroup ctx (fun g => { g with staged := g.staged.filter fun p =>
    !(p.tag == tag && p.step == step % 2 ^ 16 && p.rank == rank && parts.testBit p.part) }) s

/-- A late contribution is counted, once however many of its parts come late, and logged under LOG_LATE (R262, Table 14.11). -/
def noteLate (ctx tag rank step epoch : Nat) (s : State) : State :=
  let key := (tag, step, rank, epoch)
  if (group s ctx).lateSeen.contains key then s
  else
    let s := modGroup ctx (fun g => { g with lateSeen := (key :: g.lateSeen).take 4096 }) s
    let unit := match bucket s ctx tag with | some k => k.unit | none => 0
    let s := addExch ctx (fun x => { x with late := x.late + 1 }) (bump cRdxLate 1 s)
    let s := if step = curStep s ctx % 2 ^ 16 then modBucket ctx tag (fun k => { k with late := k.late + 1 }) s else s
    if regBit s rRdxCtrl 0 then
      logEntry { source := 5, engine := unit, ctxValid := true, ctx := ctx, detail := tag + rank * 2 ^ 16 + step * 2 ^ 32 } s
    else s

/-- A duplicate contribution is counted, once however many of its parts come again (R262). -/
def noteDup (ctx tag rank step epoch part : Nat) (s : State) : State :=
  let key := (tag, step, rank, epoch)
  let g := group s ctx
  let seen := ((g.dupSeen.find? (·.1 == key)).map (·.2)).getD 0
  let again := seen == 0 || seen.testBit part
  let s := modGroup ctx (fun g => { g with
    dupSeen := ((key, if again then 2 ^ part else seen ||| 2 ^ part) :: g.dupSeen.filter (·.1 != key)).take 4096 }) s
  if again then bump cRdxDup 1 s else s

/-- The set of own parts, or of those taken over, may be decided: it is not yet, or it was in this very nanosecond from an order of
arrivals that a further one can change (R259, R262). -/
def Bucket.undecided (b : Bucket) (taken : Bool) (now : Nat) : Bool :=
  if taken then b.acceptedT.isNone || (b.expected.isNone && b.decidedTAt == now && b.written &&& b.taken == 0)
  else b.accepted.isNone || (b.expected.isNone && b.decidedAt == now && b.written &&& b.own == 0)

/-- How the deadline of own parts, or of those taken over, stands (R259, R280). -/
def Bucket.deadlineNow (b : Bucket) (taken : Bool) (now : Nat) : Option Bool :=
  if taken then (if b.deadlineT then some (b.deadlineTAt == some now) else none)
  else (if b.deadline then some (b.deadlineAt == some now) else none)

/-- Record the decision of a set; its sums are queued once. -/
def acceptSet (ctx tag : Nat) (taken : Bool) (a : Nat) (b : Bucket) (s : State) : State :=
  let now := s.mod.devTime
  if taken then
    let s := setBucket ctx tag { b with acceptedT := some a, decidedTAt := now, arrivedT := b.arrivedT.filter a.testBit } s
    if b.acceptedT.isSome then s else queueSums ctx tag b.unit (without b.taken b.written) s
  else
    let s := setBucket ctx tag { b with
      accepted := some a, decidedAt := now, afterDeadline := b.deadline, st := .reducing, arrived := b.arrived.filter a.testBit } s
    if b.accepted.isSome then s else queueSums ctx tag b.unit b.own s

/-- Decide the set of own parts, or of those taken over, where that can be done now; arrivals that stay outside it are late. -/
def decideParts (ctx tag : Nat) (taken : Bool) (s : State) : State :=
  match bucket s ctx tag with
  | none => s
  | some b =>
    let now := s.mod.devTime
    let parts := if taken then b.taken else b.own
    let arrived := if taken then b.arrivedT else b.arrived
    if (b.st != .collecting && b.st != .reducing) || parts == 0 || !b.undecided taken now then s
    else match decideSet (required s ctx) (minAccept s ctx) (b.deadlineNow taken now) b.expected arrived with
      | none => s
      | some a =>
        let step := curStep s ctx
        let late := arrived.filter fun r => !a.testBit r
        late.foldl (fun s r => unstage ctx tag step r parts (noteLate ctx tag r (step % 2 ^ 16) (group s ctx).epoch s))
          (acceptSet ctx tag taken a b s)

/-- ACCEPTED_SET_DECISION: decide the sets that can be decided now (R259). -/
def tryDecide (ctx tag : Nat) (s : State) : State := decideParts ctx tag true (decideParts ctx tag false s)

/-- The bucket is done reducing (R269). -/
def reduceDone (s : State) (ctx : Nat) (b : Bucket) : Bool :=
  let mine := b.own ||| b.taken
  let partners := partsOf s ctx (ownersNow s ctx) (partnerRank s ctx)
  b.st == .reducing && subset mine b.written && (partnerGone s ctx || subset mine b.acked)
    && subset partners (b.received ||| b.written)

/-- Complete RDX_REDUCE where the bucket is done (R269, R272). -/
def checkReduced (ctx tag : Nat) (s : State) : State :=
  match bucket s ctx tag with
  | none => s
  | some b =>
    if !reduceDone s ctx b then s
    else
      let acc : Access := ⟨5, b.unit, some b.reduce⟩
      let s := writeMem acc (rdxPartsAddr b.bytes) (leBytes 8 (b.written ||| b.received)) s
      let st := if b.overflowed then stOutputOverflow else 0
      let s := setBucket ctx tag { b with st := .reduced, reduceStatus := some (statusOut s b.reduce st) } s
      let s := emitHist b.reduce (dNoHist b.bytes) 0 .credenza b.unit b.hist s
      complete b.reduce st (reduceTail b) s

/-! ## Summation (R267, R268) -/

/-- A running value, and whether an addition of finite operands has overflowed; none where absent. -/
abbrev Term := Option (XVal × Bool)

/-- add_keyed of R267. -/
def addKeyed (rnd : Rnd) : Term → Term → Term
  | none, y => y
  | x, none => x
  | some (u, o), some (v, p) =>
    let c := fpEncode fpFp32 rnd false (u.add v)
    some (fpDecode fpFp32 c.bits, o || p || c.flags.overflow)

/-- One level of the pairwise tree: additions numbered from `a`. -/
def pairUp (rnd : Nat → Rnd) : Nat → List Term → List Term
  | a, x :: y :: t => addKeyed (rnd a) x y :: pairUp rnd (a + 1) t
  | _, _ => []

/-- The total of node `n`: additions 8n to 8n + 6. -/
def nodeSum (rnd : Nat → Rnd) (n : Nat) (lv : List Term) : Term :=
  (pairUp rnd (8 * n + 6) (pairUp rnd (8 * n + 4) (pairUp rnd (8 * n) lv))).head?.getD none

/-- bucket_sum of R267; `c` gives the decoded value of each rank. -/
def bucketSum (rndNode rndX : Nat → Rnd) (c : Nat → Term) : Term :=
  let node := fun n => nodeSum rndNode n ((List.range 8).map fun t => c (8 * n + t))
  (List.range 7).foldl (fun total n => addKeyed (rndX (64 + (n + 1))) total (node (n + 1))) (node 0)

/-- The result of one element: its encoding and whether it overflowed (R267, R268). -/
def elementResult (b : List Byte) (step e : Nat) (c : Nat → Term) : Coded :=
  let tensor := fun a => rdxTensor b / 256 * 256 + a
  let (t, o) := (bucketSum (fun a => rndOf (rdxRoundNode b) step (tensor a) e) (fun a => rndOf (rdxRoundX b) step (tensor a) e) c).getD
    (.zero, false)
  let r := sumEncode (rdxOutFmt b) (rndOf (rdxRoundX b) step (tensor 255) e) (rdxSat b) o (t.scale (-(rdxScale b)))
  { r with flags := { r.flags with overflow := r.flags.overflow || o } }

/-- The bytes of a message, read from the staging area where they are staged (R258). -/
def messageBytes (s : State) (ps : List Piece) : List Byte :=
  ps.flatMap fun p => match p.place with
    | some a => readMem s a p.data.length
    | none => p.data

/-- The staged contributions of a part from accepted ranks. -/
def acceptedParts (s : State) (ctx tag step part accepted : Nat) : List StagedPart :=
  (group s ctx).staged.filter fun p => p.tag == tag && p.step == step % 2 ^ 16 && p.part == part && accepted.testBit p.rank

/-- The unit's reads of the staging area for a message. -/
def noteStaged (acc : Access) (ps : List Piece) (s : State) : State :=
  ps.foldl (fun s p => match p.place with | some a => noteRead acc a p.data.length s | none => s) s

/-- The results of a part from staged contributions. -/
def partResults (s : State) (ctx : Nat) (b : List Byte) (tag step part accepted : Nat) : List Coded :=
  let (lo, n) := partSpan (rdxElements b) (groupParts s ctx) part
  let w := elemBytes (rdxInFmt b)
  let data := (acceptedParts s ctx tag step part accepted).map fun p => (p.rank, messageBytes s p.pieces)
  (List.range n).map fun i => elementResult b step (lo + i) fun r =>
    match data.find? (·.1 == r) with
    | some p => some (scalarDecode (rdxInFmt b) (fieldAt p.2 (w * i) w), false)
    | none => none

/-! ## Epochs (R282 to R284) -/

/-- The contexts with an enabled group. -/
def groupContexts (s : State) : List Nat := (List.range 16).filter (groupOn s)

/-- The context whose enabled group a message names. -/
def contextOf (s : State) (gid : Nat) : Option Nat := (groupContexts s).find? fun c => groupId s c == gid

/-- The rank a packet's sender has in a context's group, where its address is that of the rank it names. -/
def senderRank (s : State) (ctx : Nat) (b : List Byte) : Option Nat :=
  let r := pkRank b
  if r < workers s ctx ∧ memberAddr s ctx r = some (pkSrc b) then some r else none

/-- Stage the module's own contribution of parts it reduces itself. -/
def stageLocal (ctx tag step : Nat) (b : List Byte) (parts : Nat) (s : State) : State :=
  modGroup ctx (fun g => { g with staged := g.staged ++ (members parts).map fun k =>
    ⟨tag, step % 2 ^ 16, ownRank s ctx, k, g.epoch, s.mod.devTime, [{ data := contribBytes s ctx b k }]⟩ }) s

/-- Send codes of parts to every live member, and note them as present (R270). -/
def sendCodes (ctx tag step : Nat) (parts : Nat) (s : State) : State :=
  match bucket s ctx tag with
  | none => s
  | some b =>
    let s := (members parts).foldl (fun s k =>
      let (lo, n) := partSpan (rdxElements b.bytes) (groupParts s ctx) k
      let a := b.codesAddr + lo / 4
      let body := readMem s a (ceilDiv n 4)
      let s := noteRead ⟨5, b.unit, b.gather⟩ a (ceilDiv n 4) s
      (liveOthers s ctx).foldl (fun s w => sendRank ctx 4 w k tag step body s) s) s
    modBucket ctx tag (fun b => { b with
      codes := b.codes ||| parts, sentSet := b.sentSet ||| parts, sent := b.sent + (members parts).length
      sentTaken := b.sentTaken || (members parts).any fun k => b.taken.testBit k || b.received.testBit k }) s

/-- Complete RDX_GATHER where the codes of every part are present (R270). -/
def checkGathered (ctx tag : Nat) (s : State) : State :=
  match bucket s ctx tag with
  | none => s
  | some b =>
    match b.gather with
    | none => s
    | some g =>
      if b.st = .gathering ∧ subset (2 ^ groupParts s ctx - 1) b.codes then
        let s := setBucket ctx tag { b with st := .delivered, doneAt := s.mod.devTime, gatherStatus := some (statusOut s g 0) } s
        let s := dropBucketWork ctx tag (bump cRdxBuckets 1 s)
        let s := emitHist g b.noHistG 0 .credenza b.unit b.histG s
        complete g 0 (gatherTail b s.mod.devTime) s
      else s

/-- A part of the group has no valid owner: no valid entry, or a rank that is not live (R264). -/
def ownerless (s : State) (ctx : Nat) (t : List Nat) : Bool :=
  (List.range (groupParts s ctx)).any fun k => match entryOwner t k with
    | some r => !(group s ctx).live.testBit r
    | none => true

/-- The adoption of a state, of a newer epoch or of an equal one from a lower declarer, aborts a bucket, which stands here with the parts
that it gives the module (R260, R261, R264). -/
def adoptionAborts (newer : Bool) (s : State) (ctx : Nat) (b : Bucket) : Bool :=
  (b.st == .collecting || b.st == .reducing) && (match b.expected with
    | some e => if b.forced then !subset e (group s ctx).live else newer
    | none => outOfReach s ctx b) || (b.active && ownerless s ctx (ownersNow s ctx))

/-- Parts of a bucket of which a message of a type waits. -/
def earlyParts (g : Group) (type tag step : Nat) : Nat :=
  bitmapOf ((g.early.filter fun m => m.type == type && m.tag == tag && m.step == step % 2 ^ 16).map (·.part))

/-- A bucket not yet reduced, with the parts it has where `mine` are the module's: parts that have become the module's are taken over, those
that have gone are neither awaited nor reduced, and a rank has arrived whose remaining parts are all staged (R259, R280, R282). -/
def Bucket.adopted (g : Group) (tag step mine : Nat) (b : Bucket) : Bucket :=
  let own := b.own &&& (mine ||| b.written)
  let taken := (b.taken &&& (mine ||| b.written)) ||| without mine (b.own ||| b.received)
  let b := if without taken b.taken = 0 then b else { b with acceptedT := none, deadlineT := false, deadlineTAt := none }
  { b with
    own := own, taken := taken
    arrived := if b.accepted.isNone then arrivedOf g tag step own else b.arrived
    arrivedT := if b.acceptedT.isNone then arrivedOf g tag step taken else b.arrivedT
    st := if own = 0 then .reducing else b.st }

/-- A worker sends again, under the epoch just adopted, every part that another rank owns and whose codes it has not received (R282). -/
def resendParts (ctx tag step : Nat) (b : Bucket) (s : State) : State :=
  let t := ownersNow s ctx
  let known := b.codes ||| earlyParts (group s ctx) 4 tag step
  (List.range (groupParts s ctx)).foldl (fun s k =>
    match entryOwner t k with
    | some r =>
      if r = ownRank s ctx ∨ known.testBit k then s
      else sendRank ctx 1 r k tag step (contribBytes s ctx b.bytes k) (noteContrib ctx b (2 ^ k) s)
    | none => s) s

/-- What an adopted epoch does to a bucket in progress: parts that have become the module's are reduced here, or their codes
sent, and contributions are sent again under the new epoch (R280, R282). -/
def bucketAfterAdoption (newer : Bool) (ctx tag : Nat) (s : State) : State :=
  match bucket s ctx tag with
  | none => s
  | some b =>
    let step := curStep s ctx
    let mine := partsOf s ctx (ownersNow s ctx) (ownRank s ctx)
    let busy := b.st == .collecting || b.st == .reducing
    let k := if busy then b.adopted (group s ctx) tag step mine else b
    if !b.active then s
    else if adoptionAborts newer s ctx k then abortBucket ctx tag s
    else
      let s :=
        if busy then
          let fresh := without k.taken b.taken
          let s := stageLocal ctx tag step b.bytes fresh (noteContrib ctx b fresh (dropSums ctx tag (k.own ||| k.taken) s))
          setBucket ctx tag (b.adopted (group s ctx) tag step mine) s
        else if b.st = .gathering then sendCodes ctx tag step (without (mine &&& (b.written ||| b.received)) b.sentSet) s
        else s
      checkGathered ctx tag (checkReduced ctx tag (tryDecide ctx tag (resendParts ctx tag step b s)))

/-- Tags used in the open step. -/
def usedTags (s : State) (ctx : Nat) : List Nat :=
  match (stepCtx s ctx).opened with
  | some o => o.buckets.map (·.1)
  | none => []

/-- An entry of a dropped message, under LOG_DROP (Table 14.11): kind 1 epoch, 2 fence, 3 hold. -/
def logExchDrop (kind : Nat) (ctx : Option Nat) (b : List Byte) (s : State) : State :=
  if regBit s rRdxCtrl 1 then
    logEntry { source := 5, ctxValid := ctx.isSome, ctx := ctx.getD 0
               detail := pkSrc b + kind * 2 ^ 20 + pkType b * 2 ^ 24 + pkEpoch b * 2 ^ 32 } s
  else s

/-- A held message is dropped, and counted in RDX_HOLD_DROPS (Table 8.9). -/
def holdDrop (ctx : Option Nat) (b : List Byte) (s : State) : State := logExchDrop 3 ctx b (bump cRdxHold 1 s)

/-- Messages held for the epoch just adopted return to the head of the inbox; those whose epoch the adoption has skipped can no
longer be processed and are dropped (R283, Table 8.9). -/
def releaseHeld (ctx : Nat) (s : State) : State :=
  let e := (group s ctx).epoch
  let due := fun (m : Inbound) => pkGroup m.pkt == groupId s ctx && !newerEpoch (pkEpoch m.pkt) e
  let skipped := s.rdx.held.filter fun m => due m && pkEpoch m.pkt != e
  let s := { s with
    rdx := { s.rdx with held := s.rdx.held.filter fun m => !due m }
    opt := { s.opt with inbox := (s.rdx.held.filter fun m => due m && pkEpoch m.pkt == e) ++ s.opt.inbox } }
  skipped.foldl (fun s m => holdDrop (some ctx) m.pkt s) s

/-- Adopt an epoch in a context: membership at once, ownership at the effective step (R282). -/
def adoptEpoch (newer : Bool) (ctx epoch : Nat) (declarer : Option Nat) (live : Nat) (owners : List Nat) (effective : Nat) (s : State) : State :=
  let now := ownersNow s ctx
  let s := modGroup ctx (fun g => { g with
    installed := true, epoch := epoch % 2 ^ 32, declarer := declarer, live := live
    owners := if effective = 0 then owners else now
    next := if effective = 0 then none else some (owners, effective)
    partials := g.partials.filter (·.epoch == epoch % 2 ^ 32) }) s
  let s := (usedTags s ctx).foldl (fun s tag => bucketAfterAdoption newer ctx tag s) s
  releaseHeld ctx s

/-- A lost pair returns to state 0 and its heartbeats resume (R279). -/
def rejoinPair (s : State) : State :=
  if s.rdx.pair.st = 3 then sendHeartbeat (modPair (fun r => { r with st := 0, probing := false, heard := none }) s) else s

/-! ## Fencing (R28, R284) -/

/-- A bucket in progress becomes Stale, its descriptor completing with EPOCH_STALE. -/
def staleBucket (ctx tag : Nat) (s : State) : State :=
  match bucket s ctx tag with
  | none => s
  | some b =>
    if !b.active then s
    else endDescriptor ctx tag stEpochStale (dropBucketWork ctx tag (setBucket ctx tag { b with st := .stale } s))

/-- Packets that the module originated leave the ports' queues at once, one that has begun to leave included; flits already sent
stay in the replay buffer (R28, R284). -/
def dropOriginated (s : State) : State :=
  let begun := fun (ks : List Packet) (i : Nat) => match ks with
    | k :: _ => if k.arrival.isSome then i else 0
    | [] => 0
  let f := fun (_ : Nat) (q : Port) => { q with
    queue0 := q.queue0.filter (·.arrival.isSome), queue1 := q.queue1.filter (·.arrival.isSome)
    idx0 := begun q.queue0 q.idx0, idx1 := begun q.queue1 q.idx1 }
  { s with opt := { s.opt with ports := tabMap {} f s.opt.ports } }

/-- The rest of an open step is flushed with EPOCH_STALE, whether or not a Credenza descriptor of it was in execution (R263, R284). -/
def staleStep (ctx : Nat) (s : State) : State :=
  match (stepCtx s ctx).ring with
  | some ring =>
    let s := startFlush ⟨ctx, ring, 0⟩ stEpochStale s
    let ds := covered s ctx ring
    signalCovered ctx ring ds (closeCovered ctx ring s)
  | none => s

/-- FENCE_ENTRY: the module enters Fenced (R26 to R28, R284), unless a transition of higher precedence coincides (R29). -/
def enterFenced (s : State) : State :=
  if (s.mod.st = .ready ∨ s.mod.st = .running) ∧ !outranked 6 s then
    let s := { s with mod := { s.mod.withMark true with st := .fenced } }
    let s := dropOriginated (modPair (fun r => { r with wait := [], probing := false }) s)
    let s := (List.range 16).foldl (fun s c =>
      let s := staleStep c ((usedTags s c).foldl (fun s tag => staleBucket c tag s) s)
      modGroup c (fun g => { g with staged := [], early := [], partials := [], diverge := [] }) s) s
    let s := { s with rdx := { s.rdx with held := [], units := tabMap {} (fun _ u => { u with queue := [] }) s.rdx.units } }
    fenceProgramming s
  else s

/-! ## Loss of the partner (R279, R280) -/

/-- An owner table with the partner's parts given to the module. -/
def takenTable (s : State) (ctx : Nat) (t : List Nat) : List Nat :=
  t.map fun e => if e.testBit 7 ∧ e % 64 = partnerRank s ctx then 128 + ownRank s ctx else e

/-- TAKEOVER in one context (R280). The notice tells the table in force with the partner's parts given to the module, so that every member
learns it at once; a change of ownership still to come is superseded (DESIGN CHOICE, log entry 213). -/
def takeOver (ctx : Nat) (s : State) : State :=
  let g := group s ctx
  let t := ownersNow s ctx
  let n := (members (partsOf s ctx t (partnerRank s ctx))).length
  let s := addExch ctx (fun x => { x with takenOver := x.takenOver + n }) (bump cRdxTakeovers n s)
  sendNotices ctx (adoptEpoch true ctx (g.epoch + 1) (some (ownRank s ctx)) (without g.live (2 ^ partnerRank s ctx)) (takenTable s ctx t) 0 s)

/-- The partner is lost: waiting messages are dropped, an entry is written, and with AUTO_TAKEOVER the module takes over in
every context with an enabled group (R279, R280, R462). -/
def partnerLost (s : State) : State :=
  let s := bump cOptNoRoute s.rdx.pair.wait.length s
  let s := modPair (fun r => { r with st := 3, probing := false, wait := [] }) (setFlag .rdx 2 s)
  let auto := regBit s rRdxCtrl 3
  let s := logEntry { source := 5, detail := partnerAddr s + boolNat auto * 2 ^ 20 } s
  let s := (groupContexts s).foldl (fun s c => (usedTags s c).foldl (fun s tag =>
    modBucket c tag (fun b => if b.active then { b with lost := true } else b) s) s) s
  if auto then (groupContexts s).foldl (fun s c => takeOver c s) s
  else (groupContexts s).foldl (fun s c => (usedTags s c).foldl (fun s tag => checkReduced c tag s) s) s

/-! ## Receiving (R283, Table 8.9) -/

/-- What becomes of an exchange message. -/
inductive Verdict
  | discard
  | hold
  | older (ctx : Nat)
  | dead (ctx : Option Nat)
  | process (ctx rank : Nat)
deriving DecidableEq, Repr

/-- The handling of a message by its group, sender and epoch (Table 8.9). -/
def screen (s : State) (b : List Byte) : Verdict :=
  if !canSend s then .discard
  else match contextOf s (pkGroup b) with
    | none => .dead none
    | some c =>
      let e := (group s c).epoch
      if newerEpoch (pkEpoch b) e then .hold
      else match senderRank s c b with
        | some r =>
          if !(group s c).live.testBit r then .dead (some c)
          else if pkEpoch b = e then .process c r else .older c
        | none => .dead (some c)

/-- Count a fence drop. -/
def fenceDrop (ctx : Option Nat) (b : List Byte) (s : State) : State :=
  let s := logExchDrop 2 ctx b (bump cRdxFence 1 s)
  match ctx with
  | some c => addExch c (fun x => { x with fence := x.fence + 1 }) s
  | none => s

/-- Take a packet out of the inbox: its buffer space is returned and its bytes are counted. -/
def consume (m : Inbound) (s : State) : State :=
  let s := { s with opt := { s.opt with inbox := s.opt.inbox.erase m } }
  if !m.buffered then s
  else
    let vc := (channelOf (pkType m.pkt)).getD 0
    let s := bump cRdxRecv m.pkt.length (freeBuffer m.port vc (flitCount m.pkt) s)
    let s := match contextOf s (pkGroup m.pkt) with
      | some c => addExch c (fun x => { x with recv := x.recv + m.pkt.length }) s
      | none => s
    if (port s m.port).live then sendIdle m.port s else s

/-- Take the oldest packet of a type that `ready` lets be taken, handle it under Table 8.9, and process it. -/
def onMessage (type : Nat) (ready : State → List Byte → Bool) (k : Nat → Nat → List Byte → State → State) (s : State) : State :=
  match s.opt.inbox.find? fun m => pkType m.pkt == type && ready s m.pkt with
  | none => s
  | some m =>
    let b := m.pkt
    let s := consume m s
    match screen s b with
    | .discard => s
    | .hold => { s with rdx := { s.rdx with held := s.rdx.held ++ [{ m with buffered := false }] } }
    | .older c =>
      let s := logExchDrop 1 (some c) b (bump cRdxEpoch 1 s)
      replyTo (pkSrc b) (sendNotice c (pkSrc b)) (addExch c (fun x => { x with epoch := x.epoch + 1 }) s)
    | .dead c =>
      let s := fenceDrop c b s
      match c with
      | some c => replyTo (pkSrc b) (sendFencedNotice c (pkSrc b)) s
      | none => s
    | .process c r => k c r b s

/-- Where the bytes stand that a context holds in its staging area: those of contributions, of messages that wait, and of messages still
arriving (R258). -/
def Group.places (g : Group) : List (Nat × Nat) :=
  (g.staged.flatMap (·.pieces) ++ g.early.flatMap (·.pieces) ++ g.partials.flatMap (·.pieces)).filterMap fun p =>
    p.place.map fun a => (a, p.data.length)

/-- A free place of `n` bytes in a context's staging area, the lowest; none where what is staged leaves no gap for it. How the area
is laid out the spec leaves open (DESIGN CHOICE, log entry 42). -/
def stagePlace (s : State) (ctx n : Nat) : Option Nat :=
  let base := reg s (rRdxStageBase ctx)
  let used := (group s ctx).places
  ((base :: used.map fun e => ceilDiv (e.1 + e.2) 32 * 32).filter fun a =>
    decide (a + n ≤ base + reg s (rRdxStageSize ctx)) && used.all fun e => decide (a + n ≤ e.1) || decide (e.1 + e.2 ≤ a)).min?

/-- The staging area has a place for a packet's body; where it has none, the packet stays in its port's buffer (R258, R298). -/
def fitsStage (s : State) (ctx : Nat) (b : List Byte) : Bool := (pkBody b).isEmpty || (stagePlace s ctx (pkBody b).length).isSome

/-- A message arriving in several packets is the packet's. -/
def Partial.matches (b : List Byte) (p : Partial) : Bool :=
  p.type == pkType b && p.src == pkSrc b && p.tag == pkTag b && p.part == pkPart b && p.epoch == pkEpoch b && p.step == pkStepLo b

/-- What has come of a packet's message before it. -/
def partialOf (g : Group) (b : List Byte) : Partial :=
  (g.partials.find? (·.matches b)).getD ⟨pkType b, pkSrc b, pkTag b, pkPart b, pkEpoch b, pkStepLo b, [], none⟩

/-- What has come of a packet's message is dropped with the packet. -/
def dropPartial (ctx : Nat) (b : List Byte) (s : State) : State :=
  modGroup ctx (fun g => { g with partials := g.partials.filter fun p => !p.matches b }) s

/-- The body of a packet as a piece of its message, written to the staging area where it is staged. -/
def pieceOf (ctx : Nat) (stage : Bool) (b : List Byte) (s : State) : Piece × State :=
  let body := pkBody b
  let unit := match bucket s ctx (pkTag b) with | some k => k.unit | none => 0
  match if stage && !body.isEmpty then stagePlace s ctx body.length else none with
  | some a => (⟨16 * pkOffset b, some a, body⟩, writeMem ⟨5, unit, none⟩ a body s)
  | none => (⟨16 * pkOffset b, none, body⟩, s)

/-- Add a packet to its message; answers the message's pieces, in their order, where it is whole (R258, R299). -/
def assembleMsg (ctx : Nat) (stage : Bool) (b : List Byte) (s : State) : Option (List Piece) × State :=
  let old := partialOf (group s ctx) b
  let total := if pkLast b then some (16 * pkOffset b + (pkBody b).length) else old.total
  if old.pieces.any (·.off == 16 * pkOffset b) then (none, s)
  else
    let (q, s) := pieceOf ctx stage b s
    let pieces := old.pieces ++ [q]
    let s := dropPartial ctx b s
    if total = some ((pieces.map (·.data.length)).sum) then (some (pieces.mergeSort fun x y => decide (x.off ≤ y.off)), s)
    else (none, modGroup ctx (fun g => { g with partials := g.partials ++ [{ old with pieces := pieces, total := total }] }) s)

/-- How a message's step bits stand to the context's current step. -/
def stepBitsNow (s : State) (ctx : Nat) (b : List Byte) : Bool := pkStepLo b == curStep s ctx % 2 ^ 16 && stepOpen s ctx

/-- The step bits name a step before the context's, or the attempt of it that has ended; a message of a later epoch belongs to
its repeat (R262, R266). -/
def stepBitsPast (s : State) (ctx : Nat) (b : List Byte) : Bool :=
  stepPrecedes (pkStepLo b) (curStep s ctx % 2 ^ 16)
    || (pkStepLo b == curStep s ctx % 2 ^ 16 && !stepOpen s ctx && (stepCtx s ctx).last.isSome && pkEpoch b == (stepCtx s ctx).lastEpoch)

/-- Keep a whole message until its bucket opens or gathers (R258). -/
def keepEarly (ctx rank : Nat) (b : List Byte) (ps : List Piece) (s : State) : State :=
  modGroup ctx (fun g => { g with early := g.early ++ [⟨pkType b, pkTag b, pkStepLo b, rank, pkPart b, ps⟩] }) s

end Sys2Proof.Machine
end

