-- ==== Sys2Proof/Machine/Rdx.lean ====
section
/-!
DEFINITION. The exchange's commands: RDX_REDUCE and RDX_GATHER, the messages of Table 9.4, the pair channel's timers, epochs,
and the registers that act (R255 to R289, R463 of spec/08_gradient_exchange_and_pairs.md; R412 of
spec/14_faults_and_recovery.md).
-/
namespace Sys2Proof.Machine

/-! ## Validation (Table 8.5) -/

/-- The formats a bucket may have. -/
def bucketFmt (code : Nat) : Bool := code == 0 || code == 1 || code == 3 || code == 4

/-- Orders 1 to 4. -/
def crzStatus (s : State) (ctx : Nat) (b : List Byte) : Nat :=
  if regBit s rRdxCtrl (4 + rdxUnit b) then stReducerOff
  else if s.mod.st = .fenced then stEpochStale
  else if !groupValid s ctx then stGroupInvalid
  else match (stepCtx s ctx).opened with
    | some o => if o.begun && decide (o.mode < 4) then 0 else stStepMode
    | none => stStepMode

/-- The REPEAT check of R266 fails. -/
def repeatStale (s : State) (ctx : Nat) : Bool :=
  match (stepCtx s ctx).opened with
  | some o => o.repeated && o.epochBefore == some (group s ctx).epoch
  | none => false

/-- The checks of RDX_REDUCE that come before the set at ACCEPT_ADDR is read (orders 5 to 8), 0 where they pass. -/
def reduceFirst (s : State) (ctx : Nat) (b : List Byte) : Nat :=
  let e := rdxElements b
  let forced := rdxForced b
  if !bucketFmt (rdxInFmt b) || !bucketFmt (rdxOutFmt b) then stFormatUnsupported
  else if rdxRoundNode b = 3 ∨ rdxRoundX b = 3 then stRoundingInvalid
  else if e = 0 ∨ rdxContrib b % 16 ≠ 0 ∨ rdxResult b % 16 ≠ 0 ∨ rdxPartsAddr b % 16 ≠ 0 ∨ (forced ∧ rdxAccept b % 16 ≠ 0) then
    stBucketInvalid
  else if !permitted s ctx (rdxContrib b) (e * elemBytes (rdxInFmt b)) true false
      || !permitted s ctx (rdxResult b) (e * elemBytes (rdxOutFmt b)) false true
      || !permitted s ctx (rdxPartsAddr b) 8 false true
      || (forced && !permitted s ctx (rdxAccept b) 8 true false) then stLengthExceeds
  else 0

/-- the set at ACCEPT_ADDR is read in validation: it is asked for, and every earlier check passes. -/
def acceptRead (s : State) (ctx : Nat) (b : List Byte) : Bool := rdxForced b && crzStatus s ctx b == 0 && reduceFirst s ctx b == 0

/-- Orders 5 to 9 of RDX_REDUCE, 0 where they pass. -/
def reduceFields (s : State) (ctx : Nat) (b : List Byte) : Nat :=
  let st := reduceFirst s ctx b
  if st ≠ 0 then st
  else if rdxForced b && (readNat s (rdxAccept b) 8 == 0 || decide (2 ^ workers s ctx ≤ readNat s (rdxAccept b) 8)) then stBucketInvalid
  else 0

/-- Validation of RDX_REDUCE (Table 8.5). -/
def reduceStatus (s : State) (ctx : Nat) (b : List Byte) : Nat :=
  let st := crzStatus s ctx b
  if st ≠ 0 then st
  else
    let st := reduceFields s ctx b
    if st ≠ 0 then st
    else if (bucket s ctx (rdxTag b)).isSome then stTagInUse
    else if repeatStale s ctx then stEpochStale
    else 0

/-- Validation of RDX_GATHER (Table 8.5). -/
def gatherStatus (s : State) (ctx : Nat) (b : List Byte) : Nat :=
  let st := crzStatus s ctx b
  let e := rdxElements b
  let codes := fieldAt b 32 8
  if st ≠ 0 then st
  else match bucket s ctx (rdxTag b) with
    | none => stBucketInvalid
    | some k =>
      if e = 0 ∨ codes % 64 ≠ 0 ∨ (k.reduceStatus ≠ some 0 ∧ k.reduceStatus ≠ some stOutputOverflow) ∨ rdxElements k.bytes ≠ e then
        stBucketInvalid
      else if !permitted s ctx codes (ceilDiv e 4) true true then stLengthExceeds
      else if k.gather.isSome then stTagInUse
      else 0

/-- A rejected Credenza descriptor flushes the step (R263). -/
def crzReject (r : DRef) (status : Nat) (s : State) : State := completeWith true true true r status [] s

/-! ## Results and codes (R269, R270) -/

/-- Write the partner's result of a part, and acknowledge it (R269). RESULT says nothing of the events its elements had at their owner: here
they are counted by value alone, with no overflow, clamping or replacement (DESIGN CHOICE, log entry 194). -/
def applyResult (ctx tag part : Nat) (ps : List Piece) (s : State) : State :=
  match bucket s ctx tag with
  | none => s
  | some b =>
    if (b.st != .collecting && b.st != .reducing) || (b.received ||| b.written).testBit part then s
    else
      let w := elemBytes (rdxOutFmt b.bytes)
      let (lo, n) := partSpan (rdxElements b.bytes) (groupParts s ctx) part
      let acc : Access := ⟨5, b.unit, some b.reduce⟩
      let data := padTo (n * w) ((messageBytes s ps).drop 16)
      let s := writeMem acc (rdxResult b.bytes + lo * w) data (noteStaged acc ps s)
      let hist := (List.range n).foldl (fun h i => h.countScalar (rdxOutFmt b.bytes) ⟨fieldAt data (w * i) w, {}⟩) b.hist
      let s := modBucket ctx tag (fun b => { b with received := b.received ||| 2 ^ part, hist := hist }) s
      checkReduced ctx tag (sendPartner ctx 3 part tag (curStep s ctx) [] s)

/-- Write the codes of a part (R270). -/
def applyCodes (ctx tag part : Nat) (ps : List Piece) (s : State) : State :=
  match bucket s ctx tag with
  | none => s
  | some b =>
    if b.st != .gathering || b.codes.testBit part then s
    else
      let (lo, n) := partSpan (rdxElements b.bytes) (groupParts s ctx) part
      let data := padTo (ceilDiv n 4) (messageBytes s ps)
      let s := writeMem ⟨5, b.unit, b.gather⟩ (b.codesAddr + lo / 4) data (noteStaged ⟨5, b.unit, b.gather⟩ ps s)
      let hist := (List.range n).foldl (fun h i =>
        let c := sgn2Decode (sgn2Code (byteAt data (i / 4)).toNat i)
        h.count (XVal.ofInt c.1) false ⟨false, false, c.2⟩) b.histG
      let s := modBucket ctx tag (fun b => { b with
        codes := b.codes ||| 2 ^ part, codesFrom := b.codesFrom ||| 2 ^ part, histG := hist }) s
      checkGathered ctx tag s

/-- Process the messages that waited for a bucket: results and aborts once it is open, codes once it gathers. -/
def applyEarly (ctx tag : Nat) (types : List Nat) (s : State) : State :=
  let step := curStep s ctx % 2 ^ 16
  let due := fun (m : EarlyMsg) => m.tag == tag && m.step == step && types.contains m.type
  let ms := (group s ctx).early.filter due
  let s := modGroup ctx (fun g => { g with early := g.early.filter fun m => !due m }) s
  ms.foldl (fun s m =>
    if m.type = 2 then applyResult ctx tag m.part m.pieces s
    else if m.type = 4 then applyCodes ctx tag m.part m.pieces s
    else abortBucket ctx tag s) s

/-! ## RDX_REDUCE and RDX_GATHER -/

/-- Open a bucket: the contribution is read, parts go to their owners, and what has arrived may decide the set (R258 to R261). A part whose
result has already come from the partner is not reduced again (R280). -/
def openBucket (ctx : Nat) (r : DRef) (b : List Byte) (s : State) : State :=
  let tag := rdxTag b
  let step := curStep s ctx
  let t := ownersNow s ctx
  let own := without (partsOf s ctx t (ownRank s ctx)) (earlyParts (group s ctx) 2 tag step)
  let mode := match (stepCtx s ctx).opened with | some o => o.mode | none => 0
  let acc : Access := ⟨5, rdxUnit b, some r⟩
  let s := noteRead acc (rdxContrib b) (rdxElements b * elemBytes (rdxInFmt b)) s
  let expected := if rdxForced b then some (readNat s (rdxAccept b) 8) else if mode = 0 then none
    else some ((group s ctx).live % 2 ^ workers s ctx)
  let k : Bucket := {
    reduce := r, bytes := b, unit := rdxUnit b, openAt := s.mod.devTime, decidedAt := s.mod.devTime
    forced := rdxForced b, expected := expected, own := own, lost := partnerGone s ctx
    st := if own = 0 then .reducing else .collecting
    hist := { fmt := rdxOutFmt b }, histG := { fmt := 14 } }
  let s := stageLocal ctx tag step b own (setBucket ctx tag k s)
  let s := modBucket ctx tag (fun k => { k with arrived := arrivedOf (group s ctx) tag step own }) s
  let s := (List.range (groupParts s ctx)).foldl (fun s p => match entryOwner t p with
    | some w => if w = ownRank s ctx then s else sendRank ctx 1 w p tag step (contribBytes s ctx b p) s
    | none => s) s
  match bucket s ctx tag with
  | none => s
  | some k =>
    if ownerless s ctx t || (k.forced && !subset (k.expected.getD 0) (group s ctx).live) || outOfReach s ctx k then abortBucket ctx tag s
    else checkReduced ctx tag (tryDecide ctx tag (applyEarly ctx tag [2, 5] s))

/-- RDX_REDUCE: validated, then the bucket opens (R256, R258, R273). A failed REPEAT check leaves the bucket Stale (R257). -/
def execRdxReduce (ctx : Fin 16) (ring : Fin 8) (s : State) : Host.Outcome State Fault Refusal :=
  .next (dispatchOp ctx ring 0x51 (fun a s =>
    let b := a.bytes
    let st := reduceStatus s ctx b
    let s := if acceptRead s ctx b then noteRead ⟨5, rdxUnit b, some a.ref⟩ (rdxAccept b) 8 s else s
    if st = 0 then openBucket ctx a.ref b s
    else
      let stale := crzStatus s ctx b == 0 && reduceFields s ctx b == 0 && st == stEpochStale
      let s := if stale then setBucket ctx (rdxTag b) {
          reduce := a.ref, bytes := b, unit := rdxUnit b, st := .stale, reduceStatus := some st } s else s
      crzReject a.ref st s) s)

/-- Start gathering: the codes of the module's own parts leave, and codes that came early are written (R270). -/
def startGather (ctx : Nat) (r : DRef) (b : List Byte) (s : State) : State :=
  let tag := rdxTag b
  match bucket s ctx tag with
  | none => s
  | some k =>
    let mine := partsOf s ctx (ownersNow s ctx) (ownRank s ctx) &&& (k.written ||| k.received)
    let k' := { k with gather := some r, gatherStatus := none, noHistG := dNoHist b, codesAddr := fieldAt b 32 8, gatherAt := s.mod.devTime, unit := rdxUnit b }
    if k.st = .reduced then
      let s := sendCodes ctx tag (curStep s ctx) mine (setBucket ctx tag { k' with st := .gathering } s)
      checkGathered ctx tag (applyEarly ctx tag [4] s)
    else endDescriptor ctx tag (if k.st = .stale then stEpochStale else stBucketAbort) (setBucket ctx tag k' s)

/-- RDX_GATHER: validated, then the codes of owned parts are sent and the others awaited (R270, R273). -/
def execRdxGather (ctx : Fin 16) (ring : Fin 8) (s : State) : Host.Outcome State Fault Refusal :=
  .next (dispatchOp ctx ring 0x52 (fun a s =>
    let st := gatherStatus s ctx a.bytes
    if st = 0 then startGather ctx a.ref a.bytes s else crzReject a.ref st s) s)

/-! ## Messages of a bucket -/

/-- What a contribution's part becomes (R262). -/
inductive Fate
  | stage | late | dup | drop
deriving DecidableEq, Repr

def contribFate (s : State) (ctx rank : Nat) (b : List Byte) : Fate :=
  let tag := pkTag b
  let part := pkPart b
  let staged := stagedFor (group s ctx) tag (pkStepLo b) rank part
  if stepBitsPast s ctx b then .late
  else if !stepBitsNow s ctx b then (if staged then .dup else .stage)
  else match bucket s ctx tag with
    | none => if staged then .dup else .stage
    | some k =>
      if k.st != .collecting && k.st != .reducing then .late
      else
        let now := s.mod.devTime
        let decided := (k.own.testBit part && !k.undecided false now) || (k.taken.testBit part && !k.undecided true now)
        let outside := match k.expected with | some e => !e.testBit rank | none => false
        if decided || outside then .late
        else if !(k.own ||| k.taken).testBit part then .drop
        else if staged then .dup
        else .stage

/-- A part of a contribution is whole: it is staged, and may complete an arrival (R258, R259). -/
def stagePart (ctx rank : Nat) (b : List Byte) (ps : List Piece) (s : State) : State :=
  let tag := pkTag b
  let s := modGroup ctx (fun g => { g with
    staged := g.staged ++ [⟨tag, pkStepLo b, rank, pkPart b, pkEpoch b, s.mod.devTime, ps⟩] }) s
  if !stepBitsNow s ctx b then s
  else match bucket s ctx tag with
    | none => s
    | some k =>
      let step := curStep s ctx
      let add := fun (l : List Nat) (parts : Nat) =>
        if parts != 0 && !l.contains rank && hasArrived (group s ctx) tag step rank parts then
          putArrival (group s ctx) tag step parts s.mod.devTime rank l
        else l
      let s := setBucket ctx tag { k with arrived := add k.arrived k.own, arrivedT := add k.arrivedT k.taken } s
      checkReduced ctx tag (tryDecide ctx tag s)

/-- Let the commands of a kind that wait in the queue, and so belong to this nanosecond, have their effect now; when their turn comes
they find nothing left to do. -/
def whileWaiting (kinds : List Instr) (k : Instr → State → State) (s : State) : State :=
  (s.pending.filter kinds.contains).foldl (fun s i => k i s) s

/-- The step that a message's step bits name, from the context's current step on. -/
def messageStep (s : State) (ctx : Nat) (b : List Byte) : Nat :=
  curStep s ctx + (pkStepLo b + 2 ^ 16 - curStep s ctx % 2 ^ 16) % 2 ^ 16

/-- The rank's contribution to the parts that the message's part is reduced with has arrived (R262). -/
def rankArrived (s : State) (ctx rank : Nat) (b : List Byte) : Bool :=
  match if stepBitsNow s ctx b then bucket s ctx (pkTag b) else none with
  | some k => (k.own.testBit (pkPart b) && k.arrived.contains rank) || (k.taken.testBit (pkPart b) && k.arrivedT.contains rank)
  | none => hasArrived (group s ctx) (pkTag b) (pkStepLo b) rank (partsOf s ctx (ownersAt s ctx (messageStep s ctx b)) (ownRank s ctx))

/-- The oldest contribution packet that the staging area can take is processed (R258 to R262). -/
def takeContrib (s : State) : State :=
  let ready := fun (s : State) (b : List Byte) => match screen s b with
    | .process c r => contribFate s c r b != .stage || fitsStage s c b
    | _ => true
  onMessage 1 ready (fun c r b s =>
    match contribFate s c r b with
    | .late => noteLate c (pkTag b) r (pkStepLo b) (pkEpoch b) (dropPartial c b s)
    | .dup =>
      let s' := dropPartial c b s
      if pkLast b && rankArrived s c r b then noteDup c (pkTag b) r (pkStepLo b) (pkEpoch b) (pkPart b) s' else s'
    | .drop => dropPartial c b s
    | .stage => match assembleMsg c true b s with
      | (some ps, s) => stagePart c r b ps s
      | (none, s) => s) s

/-- CONTRIB (R258 to R262). -/
def execContrib (s : State) : Host.Outcome State Fault Refusal := .next (takeContrib s)

/-- BUCKET_DEADLINE: the deadline of a MODE 0 bucket passes, that of its own parts or of those taken over (R259, R280). -/
def execBucketDeadline (ctx : Fin 16) (tag : Fin 1024) (taken : Bool) (s : State) : Host.Outcome State Fault Refusal :=
  match bucket s ctx tag with
  | some b =>
    if (b.st == .collecting || b.st == .reducing) && b.expected.isNone then
      let now := some s.mod.devTime
      let b := if taken then { b with deadlineT := true, deadlineTAt := now } else { b with deadline := true, deadlineAt := now }
      .next (checkReduced ctx tag (tryDecide ctx tag (setBucket ctx tag b s)))
    else .next s
  | none => .next s

/-- BUCKET_ABORT_TIMEOUT: ABORT_MS passes before RDX_REDUCE or RDX_GATHER completes (R264). A decision in that nanosecond stands, so
contributions that wait in the queue are taken first (Table 8.11). -/
def execBucketAbortTimeout (ctx : Fin 16) (tag : Fin 1024) (s : State) : Host.Outcome State Fault Refusal :=
  let s := whileWaiting [.bucketContrib] (fun _ => takeContrib) s
  match bucket s ctx tag with
  | some b => if b.active && b.st != .reduced then .next (abortBucket ctx tag s) else .next s
  | none => .next s

/-- A unit has summed a part: the result is written, counted and sent to the partner (R267 to R269). -/
def partDone (ctx tag part : Nat) (b : Bucket) (s : State) : State :=
  let step := curStep s ctx
  let accepted := if b.taken.testBit part then b.acceptedT.getD 0 else b.accepted.getD 0
  let rs := partResults s ctx b.bytes tag step part accepted
  let s := noteStaged ⟨5, b.unit, some b.reduce⟩ ((acceptedParts s ctx tag step part accepted).flatMap (·.pieces)) s
  let w := elemBytes (rdxOutFmt b.bytes)
  let bytes := rs.flatMap fun c => leBytes w c.bits
  let lo := (partSpan (rdxElements b.bytes) (groupParts s ctx) part).1
  let ov := rs.any (·.flags.overflow)
  let s := writeMem ⟨5, b.unit, some b.reduce⟩ (rdxResult b.bytes + lo * w) bytes s
  let s := setBucket ctx tag { b with
    written := b.written ||| 2 ^ part, overflowed := b.overflowed || ov
    hist := rs.foldl (fun h c => h.countScalar (rdxOutFmt b.bytes) c) b.hist } s
  let s := modGroup ctx (fun g => { g with
    staged := g.staged.filter fun p => !(p.tag == tag && p.step == step % 2 ^ 16 && p.part == part) }) s
  let s := if ov then setFlag .rdx 6 s else s
  let s := if partnerGone s ctx then s else sendPartner ctx 2 part tag step (leBytes 8 accepted ++ zeros 8 ++ bytes) s
  checkReduced ctx tag s

/-- PART_SUM_DONE: the unit's first part is summed (R271). -/
def execPartSumDone (u : Fin 4) (s : State) : Host.Outcome State Fault Refusal :=
  match (crzUnit s u).queue with
  | [] => .next s
  | j :: js =>
    let s := modCrz u (fun c => { c with queue := js }) s
    match bucket s j.ctx j.tag with
    | some b => if b.st = .reducing then .next (partDone j.ctx j.tag j.part b s) else .next s
    | none => .next s

/-- A message of a type for the part waits already. -/
def waitsEarly (s : State) (ctx type : Nat) (b : List Byte) : Bool :=
  (group s ctx).early.any fun m => m.type == type && m.tag == pkTag b && m.step == pkStepLo b && m.part == pkPart b

/-- The message's bucket is open, in a state that `st` picks. -/
def bucketIn (s : State) (ctx : Nat) (b : List Byte) (st : BucketState → Bool) : Bool :=
  stepBitsNow s ctx b && (match bucket s ctx (pkTag b) with | some k => st k.st | none => false)

/-- A RESULT that is not taken: not the partner's, of a step that is past, or of a part whose result is here. -/
def resultUnwanted (s : State) (ctx rank : Nat) (b : List Byte) : Bool :=
  rank != partnerRank s ctx || stepBitsPast s ctx b || waitsEarly s ctx 2 b
    || (stepBitsNow s ctx b && (match bucket s ctx (pkTag b) with | some k => (k.received ||| k.written).testBit (pkPart b) | none => false))

/-- A RESULT packet can be taken: one for a bucket that is not open is staged, where there is room (R258). -/
def resultReady (s : State) (b : List Byte) : Bool :=
  match screen s b with
  | .process c r => resultUnwanted s c r b || bucketIn s c b (fun _ => true) || fitsStage s c b
  | _ => true

/-- The partner's result of a part is written and acknowledged, or is staged until its bucket opens (R258, R269). -/
def takeResult (s : State) : State :=
  onMessage 2 resultReady (fun c r b s =>
    if resultUnwanted s c r b then dropPartial c b s
    else
      let opened := bucketIn s c b fun _ => true
      match assembleMsg c (!opened) b s with
      | (none, s) => s
      | (some ps, s) => if opened then applyResult c (pkTag b) (pkPart b) ps s else keepEarly c r b ps s) s

/-- RESULT (R258, R269). -/
def execResult (s : State) : Host.Outcome State Fault Refusal := .next (takeResult s)

/-- The partner has a part's result (R269). -/
def takeResultAck (s : State) : State :=
  onMessage 3 (fun _ _ => true) (fun c r b s =>
    if r ≠ partnerRank s c || !stepBitsNow s c b then s
    else checkReduced c (pkTag b) (modBucket c (pkTag b) (fun k => { k with acked := k.acked ||| 2 ^ pkPart b }) s)) s

/-- RESULT_ACK (R269). -/
def execResultAck (s : State) : Host.Outcome State Fault Refusal := .next (takeResultAck s)

/-- The partner is declared lost; its results and acknowledgements of this nanosecond count first (Table 8.11). -/
def declareLost (s : State) : State :=
  partnerLost (whileWaiting [.bucketResult, .bucketResultAck] (fun i => if i = .bucketResult then takeResult else takeResultAck) s)

/-- A copy of a part's codes is here already (R270). -/
def codesPresent (s : State) (ctx : Nat) (b : List Byte) : Bool :=
  (match bucket s ctx (pkTag b) with
    | some k => stepBitsNow s ctx b && (k.codes.testBit (pkPart b) || !k.active)
    | none => false) || waitsEarly s ctx 4 b

/-- A CODES packet can be taken: one whose bucket does not gather yet is staged, where there is room (R258; log entry 42). -/
def codesReady (s : State) (b : List Byte) : Bool :=
  match screen s b with
  | .process c _ => stepBitsPast s c b || codesPresent s c b || bucketIn s c b (· == .gathering) || fitsStage s c b
  | _ => true

/-- CODES: the first copy of a part is written, or staged until its bucket gathers; later ones are dropped as duplicates (R270). -/
def execCodes (s : State) : Host.Outcome State Fault Refusal :=
  .next (onMessage 4 codesReady (fun c r b s =>
    if stepBitsPast s c b || codesPresent s c b then
      let s := dropPartial c b s
      if !pkLast b then s
      else
        let s := bump cRdxDup 1 s
        if stepBitsNow s c b then modBucket c (pkTag b) (fun k => { k with dups := k.dups + 1 }) s else s
    else
      let now := bucketIn s c b (· == .gathering)
      match assembleMsg c (!now) b s with
      | (none, s) => s
      | (some ps, s) => if now then applyCodes c (pkTag b) (pkPart b) ps s else keepEarly c r b ps s) s)

/-- ABORT: a live member has aborted the bucket (R264). -/
def execAbort (s : State) : Host.Outcome State Fault Refusal :=
  .next (onMessage 5 (fun _ _ => true) (fun c r b s =>
    if stepBitsPast s c b then s
    else if stepBitsNow s c b && (bucket s c (pkTag b)).isSome then abortBucket c (pkTag b) s
    else keepEarly c r b [] s) s)

/-! ## The pair channel (R277 to R279, R463) -/

/-- PAIR_HEARTBEAT_SEND: the 100 µs timer (R277, R462). -/
def execPairHeartbeatSend (s : State) : Host.Outcome State Fault Refusal := .next (sendHeartbeat s)

/-- Take the oldest pair message of a type and process it where it is the partner's and the partner is not lost (R283). -/
def onPairMessage (type : Nat) (k : Inbound → State → State) (s : State) : State :=
  match s.opt.inbox.find? fun m => pkType m.pkt == type with
  | none => s
  | some m =>
    let s := consume m s
    if !canSend s then s
    else if pkSrc m.pkt ≠ partnerAddr s then bump cOptBad 1 s
    else if s.rdx.pair.st = 3 then
      let dead := (groupContexts s).filter fun c => !(group s c).live.testBit (partnerRank s c)
      let s := fenceDrop none m.pkt s
      if dead.isEmpty then s
      else replyTo (pkSrc m.pkt) (fun s => dead.foldl (fun s c => sendFencedNotice c (pkSrc m.pkt) s) s) s
    else k m s

/-- PAIR_HEARTBEAT: the first joins the pair; one that comes while probing ends the probing (R279). -/
def execPairHeartbeat (s : State) : Host.Outcome State Fault Refusal :=
  .next (onPairMessage 6 (fun _ s =>
    if !pairEnabled s then s
    else modPair (fun r => { r with st := if r.st = 0 then 1 else r.st, probing := false, heard := some s.mod.devTime }) s) s)

/-- PAIR_LOSS_TIMEOUT: silence reaches PAIR_LOSS_US and the partner is probed, over every other route with PAIR_FALLBACK, else on
the designated port (R279, R463). -/
def execPairLossTimeout (s : State) : Host.Outcome State Fault Refusal :=
  let r := s.rdx.pair
  if pairEnabled s && canSend s && (r.st == 1 || r.st == 2) && !r.probing then
    let s := modPair (fun r => { r with probing := true }) s
    let d := pairDesignated s
    if regBit s rRdxCtrl 2 then .next ((List.range 16).foldl (fun s p => if p = d then s else sendProbe p false s) s)
    else .next (sendProbe d true s)
  else .next s

/-- PROBE: answered with the same body on the port it came by, or under R313 (R463). -/
def execProbe (s : State) : Host.Outcome State Fault Refusal :=
  .next (onPairMessage 7 (fun m s =>
    let b := packetHeader s { dest := pkSrc m.pkt, type := 8 } true 16 0 ++ padTo 16 (pkBody m.pkt)
    let s := countSent none [b] s
    if (port s m.port).usable then queueOn m.port (ownPacket b 1) s else routePacket (ownPacket b 1) s) s)

/-- PROBE_REPLY: the first accepted reply moves the pair channel to the probed port; one on the designated port ends a degraded
state (R279, R463). Silence still counts from the last heartbeat. -/
def execProbeReply (s : State) : Host.Outcome State Fault Refusal :=
  .next (onPairMessage 8 (fun m s =>
    let b := pkBody m.pkt
    let p := (byteAt b 0).toNat % 16
    let designated := (byteAt b 1).getLsbD 0
    let r := s.rdx.pair
    if designated then
      if r.st = 2 then pumpPair (modPair (fun r => { r with st := 1, probing := false }) s)
      else if r.probing then modPair (fun r => { r with probing := false }) s
      else s
    else if r.probing then
      pumpPair (setFlag .rdx 4 (modPair (fun r => { r with st := 2, route := p, probing := false }) s))
    else s) s)

/-- PROBE_WINDOW_EXPIRY: PROBE_US passes unanswered and the partner is lost (R279, R280). -/
def execProbeWindowExpiry (s : State) : Host.Outcome State Fault Refusal :=
  if s.rdx.pair.probing && canSend s then .next (declareLost s) else .next s

/-- DEGRADED_PROBE_TIMER: the designated port is probed every 10 ms (R279, R463). -/
def execDegradedProbeTimer (s : State) : Host.Outcome State Fault Refusal :=
  if s.rdx.pair.st = 2 then .next (sendProbe (pairDesignated s) true s) else .next s

/-- RDX_PAIR_WRITE: ignored while a step of any context is open; with ENABLE, heartbeats start and a lost pair returns to state
0 (R279, R289). -/
def execRdxPairWrite (value : DWord) (s : State) : Host.Outcome State Fault Refusal :=
  if !inService s || (List.range 16).any (stepOpen s) then .next s
  else
    let moved := partnerAddr s != value.toNat % 2 ^ 20 || !pairEnabled s
    let s := setReg rRdxPair (value.toNat % 2 ^ 25) s
    if !pairEnabled s then .next (pumpPair (modPair (fun r => { r with st := 0, probing := false, heard := none }) s))
    else if moved || s.rdx.pair.st == 3 then
      .next (sendHeartbeat (pumpPair (modPair (fun r => { r with st := 0, probing := false, heard := none }) s)))
    else .next (sendHeartbeat (pumpPair s))

/-! ## Mirror and digests (R278, R281) -/

/-- Compare the partner's check values of one step with the module's own, where both are known (R278). -/
def compareCrcs (ctx : Nat) (m : Nat × Nat × Nat × Nat) (s : State) : State :=
  match (group s ctx).ownCrcs.find? (·.1 == m.1) with
  | none => s
  | some (n, v, z, i) =>
    let s := modGroup ctx (fun g => { g with ownCrcs := g.ownCrcs.filter (·.1 != n), mirrorCrcs := g.mirrorCrcs.filter (·.1 != n) }) s
    if (v, z, i) = m.2 then s
    else
      let s := modPair (fun r => { r with mismatch := true }) s
      logEntry { source := 5, ctxValid := true, ctx := ctx
                 detail := n % 2 ^ 48 + boolNat (v != m.2.1) * 2 ^ 48 + boolNat (z != m.2.2.1) * 2 ^ 49 + boolNat (i != m.2.2.2) * 2 ^ 50 } s

/-- Compare the check values of every step of which the partner's block and the module's own STEP_END are both here, oldest first
(R278). -/
def checkMirror (ctx : Nat) (s : State) : State := (group s ctx).mirrorCrcs.reverse.foldl (fun s m => compareCrcs ctx m s) s

/-- MIRROR: the partner's block is written and its check values compared (R277, R278). -/
def execMirror (s : State) : Host.Outcome State Fault Refusal :=
  .next (onMessage 12 (fun _ _ => true) (fun c r b s =>
    if r ≠ partnerRank s c then s
    else match assembleMsg c false b s with
      | (none, s) => s
      | (some ps, s) =>
        let body := messageBytes s ps
        let n := fieldAt body 0 8
        let s := writeMem ⟨5, 0, none⟩ (reg s (rRdxMirrorBase c) + n % 4 * 36864) (padTo 36864 body) s
        let crcs := (n, fieldAt body (2176 + 52) 4, fieldAt body (2176 + 64) 4, fieldAt body (2176 + 68) 4)
        checkMirror c (modGroup c (fun g => { g with mirrorCrcs := crcs :: g.mirrorCrcs.filter (·.1 != n) }) s)) s)

/-- The digest a rank sent for a step. -/
def digestOf (g : Group) (step rank : Nat) : Option (List Byte) :=
  (g.digests.find? fun d => d.1 == step && d.2.1 == rank).map (·.2.2)

/-- The partner is lost and dead in the context's group: nothing is left to settle with it. -/
def partnerSettled (s : State) (ctx : Nat) : Bool := s.rdx.pair.st == 3 && !(group s ctx).live.testBit (partnerRank s ctx)

/-- Count the digests of a step from outside the pair: the module wins, loses or fences (R281). A partner that is lost already is not lost
again. -/
def decideDivergence (ctx n : Nat) (s : State) : State :=
  let g := group s ctx
  match g.diverge.find? (·.step == n), g.ownDigests.find? (·.1 == n) with
  | some d, some (_, own) =>
    let others := (List.range 64).filter fun r => r != ownRank s ctx && r != partnerRank s ctx
    let count := fun (v : List Byte) => (others.filter fun r => digestOf g n r == some v).length
    let a := count own
    let b := count d.partner
    let s := modGroup ctx (fun g => { g with
      diverge := g.diverge.filter (·.step != n), ownDigests := g.ownDigests.filter (·.1 != n), digests := g.digests.filter (·.1 != n) }) s
    if partnerSettled s ctx then s
    else if b < a then (if s.rdx.pair.st = 3 then s else declareLost s)
    else enterFenced s
  | _, _ => s

/-- Compare the module's digest of one step with its partner's: MIRROR_DIVERGE where they differ, nothing more to do where they are
equal (R281). -/
def compareDigest (ctx n : Nat) (own : List Byte) (s : State) : State :=
  let g := group s ctx
  match digestOf g n (partnerRank s ctx) with
  | none => s
  | some p =>
    if p = own then modGroup ctx (fun g => { g with
      ownDigests := g.ownDigests.filter (·.1 != n), digests := g.digests.filter (·.1 != n) }) s
    else if partnerSettled s ctx || g.diverge.any (·.step == n) then s
    else
      let s := modPair (fun r => { r with diverged := true }) (setFlag .rdx 3 s)
      let s := logEntry { code := 0x0703, source := 5, ctxValid := true, ctx := ctx, detail := n } s
      modGroup ctx (fun g => { g with diverge := g.diverge ++ [⟨n, p⟩] }) s

/-- MIRROR_DIVERGE: the digests of every step still in question are compared, oldest first, and each divergence is decided for which
every live member's digest is here (R281). -/
def checkDiverge (ctx : Nat) (s : State) : State :=
  let s := (group s ctx).ownDigests.reverse.foldl (fun s e => compareDigest ctx e.1 e.2 s) s
  (group s ctx).diverge.foldl (fun s d =>
    if (liveOthers s ctx).all fun r => (digestOf (group s ctx) d.step r).isSome then decideDivergence ctx d.step s else s) s

/-- DIGEST: a member's master digest arrives (R281). -/
def execDigest (s : State) : Host.Outcome State Fault Refusal :=
  .next (onMessage 11 (fun _ _ => true) (fun c r b s =>
    let n := fieldAt (pkBody b) 0 8
    let d := padTo 32 ((pkBody b).drop 8)
    checkDiverge c (modGroup c (fun g => { g with digests := g.digests.filter (fun x => !(x.1 == n && x.2.1 == r)) ++ [(n, r, d)] }) s)) s)

/-- DIVERGE_WAIT_EXPIRY: the oldest wait of the context ends, and the digests here are counted (R281). -/
def execDivergeWaitExpiry (ctx : Fin 16) (s : State) : Host.Outcome State Fault Refusal :=
  match canSend s, (group s ctx).diverge with
  | true, d :: _ => .next (decideDivergence ctx d.step s)
  | _, _ => .next s

/-! ## Epochs (R282 to R285) -/

/-- Take the oldest notice of a type and process it in the context whose group it names. -/
def onNotice (type : Nat) (k : Nat → List Byte → State → State) (s : State) : State :=
  match s.opt.inbox.find? fun m => pkType m.pkt == type with
  | none => s
  | some m =>
    let s := consume m s
    match inService s, contextOf s (pkGroup m.pkt) with
    | true, some c => k c m.pkt s
    | _, _ => s

/-- A fenced notice of an epoch equal to or newer than the module's fences it; an older one is answered (R284). -/
def fencedNotice (ctx : Nat) (b : List Byte) (s : State) : State :=
  let e := (group s ctx).epoch
  if newerEpoch e (pkEpoch b) then replyTo (pkSrc b) (sendNotice ctx (pkSrc b)) s else enterFenced s

/-- EPOCH_NOTICE: adopted where it is newer, or of equal epoch from a lower rank; one that marks the module dead acts as a fenced
notice (R279, R282). A module in Fenced adopts it (R284). -/
def epochNotice (ctx : Nat) (b : List Byte) (s : State) : State :=
  let g := group s ctx
  let body := pkBody b
  let live := fieldAt body 0 8
  let declarer := fieldAt body 80 1
  let newer := newerEpoch (pkEpoch b) g.epoch
  let lower := decide (pkEpoch b = g.epoch) && (match g.declarer with | some d => decide (declarer < d) | none => true)
  if canSend s && !live.testBit (ownRank s ctx) then fencedNotice ctx b s
  else if newer || lower then
    let s := if newer then s else setFlag .rdx 5 s
    let owners := (List.range 64).map fun k => fieldAt body (16 + k) 1 &&& 0xBF
    let s := if live.testBit (partnerRank s ctx) then rejoinPair s else s
    adoptEpoch newer ctx (pkEpoch b) (some declarer) live owners (fieldAt body 8 8) s
  else s

/-- The oldest fenced notice is taken: it fences the module, or is answered; it is discarded while Fenced (R284). -/
def takeFencedNotice (s : State) : State :=
  onNotice 10 (fun c b s => if canSend s then fencedNotice c b (setFlag .rdx 1 s) else s) s

/-- The oldest epoch notice is taken, after any fenced notice of this nanosecond (R29, R287). -/
def takeEpochNotice (s : State) : State := onNotice 9 epochNotice (whileWaiting [.fencedNotice] (fun _ => takeFencedNotice) s)

/-- EPOCH_NOTICE (R279, R282, R284). -/
def execEpochNotice (s : State) : Host.Outcome State Fault Refusal := .next (takeEpochNotice s)

/-- FENCED_NOTICE (R284). -/
def execFencedNotice (s : State) : Host.Outcome State Fault Refusal := .next (takeFencedNotice s)

/-- EPOCH_HOLD_EXPIRY: the oldest held message is dropped (Table 8.9). -/
def execEpochHoldExpiry (s : State) : Host.Outcome State Fault Refusal :=
  match s.rdx.held with
  | [] => .next s
  | m :: ms =>
    .next (holdDrop (contextOf s (pkGroup m.pkt)) m.pkt { s with rdx := { s.rdx with held := ms } })

/-- RDX_NEXT_OWNERn. -/
def nextOwners (s : State) (ctx : Nat) : List Nat :=
  (List.range 64).map fun k => (reg s (rRdxNextOwner ctx (k / 8)) / 256 ^ (k % 8) % 256) &&& 0xBF

/-- Adopt the NEXT_ state of a context. -/
def adoptNext (ctx : Nat) (declarer : Option Nat) (s : State) : State :=
  adoptEpoch true ctx (reg s (rRdxNextEpoch ctx)) declarer (reg s (rRdxNextLive ctx)) (nextOwners s ctx) (reg s (rRdxNextStep ctx)) s

/-- The NEXT_ epoch of a context is newer, or no configuration is installed. -/
def nextNewer (s : State) (ctx : Nat) : Bool :=
  !(group s ctx).installed || newerEpoch (reg s (rRdxNextEpoch ctx)) (group s ctx).epoch

def setAdmitResult (ctx v : Nat) (s : State) : State := modGroup ctx (fun g => { g with result := v }) s

/-- INSTALL: the NEXT_ state is adopted without notices, where it is valid and newer (R254, Table 8.16). -/
def execInstall (ctx : Fin 16) (s : State) : Host.Outcome State Fault Refusal :=
  if !inService s then .next s
  else if s.mod.st = .fenced ∨ !configValid s ctx (nextOwners s ctx) then .next (setAdmitResult ctx 3 s)
  else if !nextNewer s ctx then .next (setAdmitResult ctx 2 s)
  else
    let s := modPair (fun r => { r with diverged := false, mismatch := false }) s
    .next (setAdmitResult ctx 1 (adoptNext ctx none s))

/-- The contexts that have a group: its ENABLE bit is set. -/
def admitContexts (s : State) : List Nat := (List.range 16).filter fun c => regBit s (rRdxGroup c) 50

/-- ADMIT: re-admits a fenced module, which enters Ready (R26, R27, R285). An epoch adopted in this nanosecond counts first (R287). -/
def execAdmit (ctx : Fin 16) (s : State) : Host.Outcome State Fault Refusal :=
  let s := if s.mod.st = .fenced then whileWaiting [.epochNotice] (fun _ => takeEpochNotice) s else s
  if !inService s then .next s
  else if s.mod.st ≠ .fenced ∨ !((admitContexts s).all fun c => configValid s c (nextOwners s c)) then .next (setAdmitResult ctx 3 s)
  else if !((admitContexts s).all (nextNewer s)) then .next (setAdmitResult ctx 2 s)
  else
    let cs := admitContexts s
    let s := { s with mod := { s.mod.withMark false with st := .ready } }
    let s := cs.foldl (fun s c => adoptNext c (some (ownRank s c)) s) s
    let s := cs.foldl (fun s c => sendNotices c s) s
    let s := modPair (fun r => { r with st := 0, probing := false, heard := none, diverged := false, mismatch := false }) s
    .next (setAdmitResult ctx 1 (sendHeartbeat s))

/-! ## The units' watchdog (R412) -/

/-- A Credenza unit whose oldest work is `j` is reset: its work is gone, the reset is counted and logged, and the unit leaves service after
its third within 600 s (R412). -/
def crzReset (u : Nat) (j : SumJob) (s : State) : State :=
  let now := s.mod.devTime
  let off := thirdReset (crzUnit s u).resets now && regBit s rRcvCtrl 0
  let s := modCrz u (fun c => { queue := [], resets := pushReset c.resets now }) s
  let e : LogEntry := { code := stWatchdog, source := 5, action := 3, engine := u }
  let e := match bucket s j.ctx j.tag with | some b => e.naming b.reduce | none => e
  let s := logEntry e (noteEngineReset s)
  if off then takeOutOfService rRdxCtrl (4 + u) 5 u s else s

/-- CREDENZA_PROGRESS_WATCHDOG: a unit that holds work is reset and its buckets abort (R412). A device-level reset that waits
includes this one (R416). -/
def execCredenzaProgressWatchdog (u : Fin 4) (s : State) : Host.Outcome State Fault Refusal :=
  match (crzUnit s u).queue with
  | [] => .next s
  | j :: js =>
    if resetWaits s || (crzUnit s u).resets.head? == some s.mod.devTime then .next s
    else .next (((j :: js).map fun j => (j.ctx, j.tag)).dedup.foldl (fun s k => abortBucket k.1 k.2 s) (crzReset u j (yieldToReset s)))

end Sys2Proof.Machine
end

