-- ==== Sys2Proof/Machine/Steps.lean ====
section
/-!
DEFINITION. The step descriptors and their waits, and the context step watchdog (R217 to R224, R242, R243, R246 to R248 and
R461 of spec/07_training_step.md; R274 to R277 and R281 of spec/08_gradient_exchange_and_pairs.md; R413 of
spec/14_faults_and_recovery.md).
-/
namespace Sys2Proof.Machine

/-! ## Validation of STEP_BEGIN (Table 7.3) -/

/-- Fields of STEP_BEGIN (Table 7.1). -/
def stepNumber (b : List Byte) : Nat := fieldAt b 16 8
def stepMode (b : List Byte) : Nat := fieldAt b 24 1 % 8
def stepRepeat (b : List Byte) : Bool := (fieldAt b 24 1).testBit 3
def stepRestart (b : List Byte) : Bool := (fieldAt b 24 1).testBit 4
def stepCtrlAddr (b : List Byte) : Nat := fieldAt b 32 8

/-- The tables of a control block: address, extent and whether WRITE is needed; one whose count is 0 is not listed (R218,
Table 7.15). -/
def ctrlTables (c : List Byte) : List (Nat × Nat × Bool) :=
  (if ctrlRuleCount c = 0 then [] else
    [(ctrlRuleAddr c, 32 * ctrlRuleCount c, false), (ctrlRuleInputAddr c, 64 + 320 * ctrlRuleCount c, false),
     (ctrlChoiceAddr c, 4 * ctrlRuleCount c, true)])
  ++ (if ctrlSubstCount c = 0 then [] else [(ctrlSubstAddr c, 8 * ctrlSubstCount c, false)])
  ++ [(ctrlStepsizeAddr c, 2112, false), (ctrlSnapAddr c, 2112, true)]
  ++ (if ctrlTieCount c = 0 then [] else [(ctrlTieAddr c, 32 * ctrlTieCount c, false)])
  ++ (if ctrlSlotCount c = 0 then [] else [(ctrlSlotAddr c, 16 * ctrlSlotCount c, true)])
  ++ [(ctrlRecordBase c, 33024 * ctrlRecordCount c, true), (ctrlGenvecBase c, 262144, true)]

/-- Order 3: the control block holds a value outside its limits. -/
def ctrlInvalid (mode : Nat) (c : List Byte) : Bool :=
  (ctrlTables c).any (fun t => t.1 % 16 != 0) || decide (1024 < ctrlRuleCount c) || decide (64 < ctrlTieCount c)
    || decide (1024 < ctrlSlotCount c) || decide (65536 < ctrlSubstCount c) || ctrlRecordCount c == 0
    || (mode == 4 && ctrlTieCount c != 0)

/-- Order 5: the first rule with no ALLOW bit or an invalid DEFAULT_FMT (R236). -/
def badRule (s : State) (c : List Byte) : Option Nat :=
  (List.range (ctrlRuleCount c)).find? fun i =>
    let a := ctrlRuleAddr c + 32 * i
    let fmt := readNat s (a + 8) 1 % 16
    readNat s a 1 % 8 == 0 || !(fmt == 1 || fmt == 3 || fmt == 4)

/-- Order 7: the numbering of R219. -/
def sequenceOk (x : StepCtx) (b : List Byte) : Bool :=
  if x.opened.isSome then false
  else if stepRestart b then true
  else match x.last with
    | none => false
    | some l => if stepRepeat b then stepNumber b == l && !x.lastGate else stepNumber b == l + 1

/-- Order 8: a substitution entry is malformed. -/
def subInvalid (c : List Byte) (e : Nat) : Bool :=
  let k := subKind e
  let p := subPos e
  let posOk := if k = 4 then true else decide (16 ≤ p) && decide (p ≤ (if k = 5 then 60 else if k = 6 then 62 else 63))
  let idxOk := if k = 5 then true else decide (subIndex e < if k = 6 then ctrlSlotCount c else ctrlRuleCount c)
  k == 0 || decide (6 < k) || !posOk || subOffset e == 0 || !idxOk

def badSub (s : State) (c : List Byte) : Option Nat :=
  (List.range (ctrlSubstCount c)).find? fun i => subInvalid c (readNat s (ctrlSubstAddr c + 8 * i) 8)

/-- The 32 bytes of tie group `i` (R234). -/
def tieEntry (s : State) (c : List Byte) (i : Nat) : List Byte := readMem s (ctrlTieAddr c + 32 * i) 32

def tieFirst (t : List Byte) : Nat := fieldAt t 8 2
def tieDrawers (t : List Byte) : Nat := fieldAt t 10 2

/-- Order 9: a tie group spans contexts or modules, or has too many uses, or meets a group of another context. -/
def badTie (s : State) (ctx : Nat) (c : List Byte) : Option Nat :=
  let others := s.steps.filterMap fun e => if e.1 = ctx then none else e.2.opened.filter (·.begun)
  (List.range (ctrlTieCount c)).find? fun i =>
    let t := tieEntry s c i
    let uses := fieldAt t 0 1
    uses == 0 || decide (8 < uses) || fieldAt t 1 1 % 16 != ctx || fieldAt t 2 3 % 2 ^ 20 != selfAddr s
      || others.any fun o => o.ties.any fun g =>
          decide (tieFirst t < g.1 + g.2) && decide (g.1 < tieFirst t + tieDrawers t)

/-- Order 10: a Drawer of a tie group is not mapped. -/
def unmappedTie (s : State) (ctx : Nat) (c : List Byte) : Option Nat :=
  (List.range (ctrlTieCount c)).find? fun i =>
    let t := tieEntry s c i
    (List.range (tieDrawers t)).any fun k => decide (16384 ≤ tieFirst t + k) || !mapped s ctx (tieFirst t + k)

/-- Validation of STEP_BEGIN: a status, 0 where it passes, and the offending entry (R220, Table 7.3). -/
def beginStatus (s : State) (ctx ring : Nat) (b : List Byte) : Nat × Nat :=
  let x := stepCtx s ctx
  let a := stepCtrlAddr b
  if x.ring ≠ some ring ∨ 4 < stepMode b ∨ (stepRepeat b ∧ stepRestart b) ∨ a % 16 ≠ 0 then (stStepInvalid, 0)
  else if !permitted s ctx a 128 true false then (stLengthExceeds, 0)
  else
    let c := readMem s a 128
    if ctrlInvalid (stepMode b) c then (stStepInvalid, 0)
    else if !(ctrlTables c).all (fun t => permitted s ctx t.1 t.2.1 true t.2.2) then (stLengthExceeds, 0)
    else match badRule s c with
      | some i => (stStepInvalid, i)
      | none =>
        if s.mod.st = .fenced ∧ stepMode b < 4 then (stEpochStale, 0)
        else if !sequenceOk x b then (stStepSequence, 0)
        else match badSub s c, badTie s ctx c, unmappedTie s ctx c with
          | some i, _, _ => (stSubstInvalid, i)
          | none, some i, _ => (stTieSpan, i)
          | none, none, some i => (stDrawerUnmapped, i)
          | none, none, none => (0, 0)

/-- What the validation of STEP_BEGIN reads, in its order, as far as it comes: the control block, the rules, the substitution table and
the tie groups (R220, R356, R360). -/
def beginReads (s : State) (ctx ring : Nat) (b : List Byte) : List (Nat × Nat) :=
  let x := stepCtx s ctx
  let a := stepCtrlAddr b
  if x.ring ≠ some ring ∨ 4 < stepMode b ∨ (stepRepeat b ∧ stepRestart b) ∨ a % 16 ≠ 0 ∨ !permitted s ctx a 128 true false then []
  else
    let c := readMem s a 128
    let go := !ctrlInvalid (stepMode b) c && (ctrlTables c).all fun t => permitted s ctx t.1 t.2.1 true t.2.2
    let go2 := go && (badRule s c).isNone && !(s.mod.st == .fenced && decide (stepMode b < 4)) && sequenceOk x b
    let go3 := go2 && (badSub s c).isNone
    [(a, 128)] ++ (if go then [(ctrlRuleAddr c, 32 * ctrlRuleCount c)] else [])
      ++ (if go2 then [(ctrlSubstAddr c, 8 * ctrlSubstCount c)] else [])
      ++ (if go3 then [(ctrlTieAddr c, 32 * ctrlTieCount c)] else [])

/-! ## STEP_BEGIN (R217 to R223) -/

/-- What was staged for messages of earlier steps is dropped as a step begins; a repeat drops the earlier attempt's (R266). -/
def dropOldMessages (ctx step : Nat) (repeated : Bool) (s : State) : State :=
  let n := step % 2 ^ 16
  modGroup ctx (fun g => { g with
    staged := g.staged.filter fun p => !stepPrecedes p.step n && !(repeated && p.step == n && p.epoch != g.epoch)
    early := g.early.filter fun m => !stepPrecedes m.step n && !(repeated && m.step == n)
    partials := g.partials.filter fun p => !stepPrecedes p.step n && !(repeated && p.step == n && p.epoch != g.epoch) }) s

/-- Begin the commit of a validated STEP_BEGIN: what is staged now is what it commits (R14, R221). -/
def startCommit (ctx : Nat) (r : DRef) (b : List Byte) (s : State) : State :=
  let c := readMem s (stepCtrlAddr b) 128
  let o : OpenStep := {
    num := stepNumber b, mode := stepMode b, ref := r, beginIdx := r.idx, ctrl := c
    repeated := stepRepeat b, restarted := stepRestart b
    readyAt := readyDrawers s ctx, trimsAt := stagedDrawers s ctx, mapsAt := tabGet [] s.stagedMaps ctx
    ties := (List.range (ctrlTieCount c)).map fun i => (tieFirst (tieEntry s c i), tieDrawers (tieEntry s c i))
    tCommit := s.mod.devTime, epochAt := (group s ctx).epoch
    epochBefore := if stepRepeat b then some (stepCtx s ctx).lastEpoch else none }
  let s := dropOldMessages ctx o.num o.repeated { s with stagedMaps := tabSet [] s.stagedMaps ctx [] }
  tryCommit ctx (modStepCtx ctx (fun x => { x with opened := some o }) s)

/-- STEP_BEGIN: the first after a context reset fixes the step ring; it is validated and the commit begins (R217, R220, R221).
One that is rejected with no step open lets staged maps take effect (R80). -/
def execStepBegin (ctx : Fin 16) (ring : Fin 8) (s : State) : Host.Outcome State Fault Refusal :=
  .next (dispatchOp ctx ring 0x11 (fun a s =>
    let s := modStepCtx ctx (fun x => { x with ring := some (x.ring.getD ring), ringPost := none }) s
    let st := beginStatus s ctx ring a.bytes
    let s := (beginReads s ctx ring a.bytes).foldl (fun s e => noteRead (hutchAccess a.ref) e.1 e.2 s) s
    if st.1 = 0 then startCommit ctx a.ref a.bytes s
    else
      let s := if (stepCtx s ctx).opened.isNone then applyStagedMaps ctx s else s
      reject a.ref st.1 (leBytes 8 (stepNumber a.bytes) ++ leBytes 4 st.2) s) s)

/-- RULE_INPUT_PRESENT: the awaited rule input is looked at again, and the commit goes on where it is present (R221, R237). -/
def execRuleInputPresent (ctx : Fin 16) (s : State) : Host.Outcome State Fault Refusal := .next (tryCommit ctx s)

/-- RULE_INPUT_STALE_TIMEOUT: STAMP_WAIT passes without the rule input; nothing is committed (R221). -/
def execRuleInputStaleTimeout (ctx : Fin 16) (s : State) : Host.Outcome State Fault Refusal :=
  match (stepCtx s ctx).opened with
  | some o =>
    if o.wait ≠ .ruleInput then .next s
    else if (ruleInput s o).isSome then .next (tryCommit ctx s)
    else .next (endUnbegun ctx o stRuleInputStale s)
  | none => .next s

/-! ## STEP_GATE (R242, R243) -/

/-- A gate ends: the record keeps how long it waited, and only success signals (R243, Table 7.11). -/
def endGate (ctx : Nat) (r : DRef) (since status : Nat) (s : State) : State :=
  let wait := stop32 ((s.mod.devTime - since) / 1000)
  let ok := statusOut s r status == 0
  let s := modOpen ctx (fun o => { o with
    gateWait := wait, gatePassed := o.gatePassed || ok, gates := o.gates.filter fun g => g.1 != r }) s
  let s := if ok then modStepCtx ctx (fun x => { x with lastGate := true }) s else s
  match (stepCtx s ctx).opened with
  | some o =>
    let count := if ok then (match o.captured with | some (n, _) => n | none => 0) else 0
    completeWith ok false false r status (leBytes 8 o.num ++ leBytes 4 wait ++ leBytes 2 count) (writeHeader ctx o s)
  | none => s

/-- A waiting gate looks at the step-size table (R243). -/
def pollGate (ctx : Nat) (r : DRef) (since : Nat) (s : State) : State :=
  match (stepCtx s ctx).opened with
  | none => s
  | some o =>
    if o.captured.isSome then endGate ctx r since 0 s
    else match findSizes s o with
      | .notCurrent => noteSizes r o s
      | .invalid => endGate ctx r since stStepsizeInvalid (noteSizes r o s)
      | .good count crc =>
        let s := captureSizes r o count (noteSizes r o s)
        endGate ctx r since 0 (modOpen ctx (fun o => { o with captured := some (count, crc) }) s)

/-- STEP_GATE: refused outside the step ring, outside an open step and in a decode step; else it polls (R217, R243, R247). -/
def execStepGate (ctx : Fin 16) (ring : Fin 8) (s : State) : Host.Outcome State Fault Refusal :=
  .next (dispatchOp ctx ring 0x12 (fun a s =>
    let x := stepCtx s ctx
    match x.opened with
    | some o =>
      if x.ring ≠ some ring.val then completeWith false true false a.ref stStepInvalid [] s
      else if !o.begun || o.mode == 4 then completeWith false false false a.ref stStepMode [] s
      else
        let now := s.mod.devTime
        pollGate ctx a.ref now (modOpen ctx (fun o => { o with gates := o.gates ++ [(a.ref, now)] }) s)
    | none =>
      if x.ring.isSome && x.ring != some ring.val then completeWith false true false a.ref stStepInvalid [] s
      else completeWith false false false a.ref stStepMode [] s) s)

/-- STEPSIZE_TABLE_CURRENT: the waiting gates poll the table (R243). -/
def execStepsizeTableCurrent (ctx : Fin 16) (s : State) : Host.Outcome State Fault Refusal :=
  match (stepCtx s ctx).opened with
  | some o => .next (o.gates.foldl (fun s g => pollGate ctx g.1 g.2 s) s)
  | none => .next s

/-- STEPSIZE_STALE_TIMEOUT: STAMP_WAIT passes for the oldest waiting gate (R243). -/
def execStepsizeStaleTimeout (ctx : Fin 16) (s : State) : Host.Outcome State Fault Refusal :=
  match (stepCtx s ctx).opened with
  | some o => match o.gates with
    | g :: _ =>
      let s := pollGate ctx g.1 g.2 s
      match (stepCtx s ctx).opened with
      | some o => if o.gates.any (fun h => h.1 == g.1) then .next (endGate ctx g.1 g.2 stStepsizeStale s) else .next s
      | none => .next s
    | [] => .next s
  | none => .next s

/-! ## STEP_END (R224, R246 to R248, R274 to R277, R281) -/

/-- STATE of a bucket's entry in the step record (Table 8.6). -/
def Bucket.code (b : Bucket) : Nat :=
  match b.st with
  | .delivered => 1
  | .aborted => 2
  | .stale => 3
  | .reduced | .gathering => 4
  | .collecting | .reducing => 0

/-- The 32-byte entry of a tag in the step record (R274, Table 8.6). -/
def bucketEntry (o : OpenStep) (tag : Nat) : List Byte :=
  match tabGet none o.buckets tag with
  | none => zeros 32
  | some b =>
    leBytes 8 (b.accepted.getD 0) ++ leBytes 8 (b.acceptedT.getD 0) ++ leBytes 2 (b.reduceStatus.getD 0)
      ++ leBytes 2 (b.gatherStatus.getD 0) ++ leBytes 1 b.code ++ leBytes 1 b.flags ++ leBytes 1 (min 255 b.late)
      ++ leBytes 1 (members b.written).length ++ leBytes 4 b.decideUs
      ++ leBytes 4 (if b.gatherStatus.isSome then stop32 ((b.doneAt - b.openAt) / 1000) else 0)

/-- The exchange summary of the step record (R275, Table 8.7); all zero in a decode step (R247). -/
def exchangeSummary (s : State) (ctx : Nat) (o : OpenStep) : List Byte :=
  if o.mode = 4 then []
  else
    let g := group s ctx
    let bs := o.buckets.filterMap (·.2)
    let live := (List.range (workers s ctx)).filter g.live.testBit
    let short := bs.filter fun b => match b.accepted with | some a => live.any fun r => !a.testBit r | none => false
    let pr := s.rdx.pair
    leBytes 4 o.epochAt ++ leBytes 4 g.epoch ++ leBytes 8 g.live ++ leBytes 8 (partsOf s ctx (ownersNow s ctx) (ownRank s ctx))
      ++ leBytes 2 (bs.filter (·.st == .delivered)).length ++ leBytes 2 (bs.filter (·.st == .aborted)).length
      ++ leBytes 2 short.length ++ leBytes 1 (min 255 o.exch.takenOver)
      ++ leBytes 1 (boolNat (pr.st == 3) + 2 * boolNat (pr.st == 2) + 4 * boolNat pr.diverged + 8 * boolNat (s.mod.st == .fenced))
      ++ leBytes 8 o.exch.sent ++ leBytes 8 o.exch.recv ++ leBytes 4 (stop32 o.exch.fence) ++ leBytes 4 (stop32 o.exch.epoch)
      ++ leBytes 4 (stop32 o.exch.late) ++ zeros 4

/-- MASTER_DIGEST as bytes (R276). -/
def OpenStep.digestBytes (o : OpenStep) : List Byte := if o.mode = 4 then [] else o.digest.flatMap fun d => leBytes 8 d.toNat

/-- Write LENGTH + 1 back to every active slot of a decode step (R248). -/
def writeSlots (o : OpenStep) (s : State) : State :=
  if o.mode ≠ 4 then s
  else (List.range o.slots.length).foldl (fun s i => match o.slots[i]? with
    | some (some l) => writeMem (hutchAccess o.ref) (ctrlSlotAddr o.ctrl + 16 * i) (leBytes 4 (if 65535 < l + 1 then l else l + 1)) s
    | _ => s) s

/-- The mirror block of a step (R277, Table 8.8). -/
def mirrorBlock (s : State) (ctx : Nat) (o : OpenStep) : List Byte :=
  let g := group s ctx
  let tail := leBytes 8 (reg s (rRdxCkpt ctx)) ++ zeros 32 ++ readMem s (ctrlSnapAddr o.ctrl) 2112 ++ readMem s (recordAddr o) 33024
    ++ (List.range 64).map (fun k => BitVec.ofNat 8 ((ownersNow s ctx).getD k 0)) ++ leBytes 8 g.live ++ zeros 1592
  leBytes 8 o.num ++ leBytes 4 g.epoch ++ leBytes 1 ctx ++ leBytes 1 (ownRank s ctx) ++ zeros 2 ++ leBytes 4 (crc32c tail) ++ zeros 4 ++ tail

/-- DIGEST_SEND and MIRROR_SEND after a training step that is not abandoned (R277, R281). -/
def sendClosing (ctx : Nat) (r : DRef) (o : OpenStep) (s : State) : State :=
  if o.mode = 4 ∨ o.abandoned ∨ !groupOn s ctx ∨ !canSend s then s
  else
    let d := padTo 32 o.digestBytes
    let crc := match o.captured with | some (_, c) => c | none => 0
    let s := modGroup ctx (fun g => { g with
      ownDigests := (o.num, d) :: g.ownDigests.filter (·.1 != o.num), ownCrcs := (o.num, o.genvecCrc, crc, o.ruleCrc) :: g.ownCrcs.filter (·.1 != o.num)
      digests := g.digests.filter fun x => decide (o.num ≤ x.1) || g.ownDigests.any (·.1 == x.1) }) s
    let s := (liveOthers s ctx).foldl (fun s r => sendRank ctx 11 r 0 0 o.num (leBytes 8 o.num ++ d) s) s
    let s := if partnerGone s ctx then s
      else sendPartner ctx 12 0 0 o.num (mirrorBlock s ctx o)
        (noteRead (hutchAccess r) (recordAddr o) 33024 (noteRead (hutchAccess r) (ctrlSnapAddr o.ctrl) 2112 s))
    checkDiverge ctx (checkMirror ctx s)

/-- Close an open step: its record is written, its slots advance, and the module leaves Running with its last step (R26, R224). -/
def closeStep (ctx ring : Nat) (r : DRef) (abandon : Bool) (s : State) : State :=
  let s := (usedTags s ctx).foldl (fun s tag => match bucket s ctx tag with
    | some b => if b.st = .reduced then s else abortBucket ctx tag s
    | none => s) s
  let s := modOpen ctx (fun o => { o with abandoned := o.abandoned || abandon }) s
  match (stepCtx s ctx).opened with
  | none => s
  | some o =>
    let head := recordHeader o ctx s.mod.devTime true o.digestBytes (exchangeSummary s ctx o)
    let s := writeMem (hutchAccess r) (recordAddr o) (head ++ (List.range 1024).flatMap (bucketEntry o)) s
    let s := writeSlots o s
    let s := modStepCtx ctx (fun x => { x with opened := none }) s
    let s := modRing ctx ring (fun q => { q with flush := q.flush.filter fun f => !f.isToEnd }) s
    let s := sendClosing ctx r o s
    let s := if s.mod.st = .running ∧ !((List.range 16).any (stepOpen s)) then { s with mod := { s.mod with st := .ready } } else s
    complete r 0 (leBytes 8 o.num ++ leBytes 4 o.errCount ++ leBytes 2 o.firstErr) s

/-- Every earlier descriptor of the ring has completed; PLN_PROGRAM and PLN_REMAP_COL go on across the boundary (R224). -/
def earlierDone (s : State) (ctx ring idx : Nat) : Bool :=
  ((ringOf s ctx ring).opened.takeWhile fun d => d.idx != idx).all fun d => dOpcode d.bytes == 0x25 || dOpcode d.bytes == 0x27

/-- STEP_END: closes the step once every earlier descriptor has completed; with no step open it has no effect (R217, R224). -/
def execStepEnd (ctx : Fin 16) (ring : Fin 8) (s : State) : Host.Outcome State Fault Refusal :=
  match headFor s ctx ring 0x13 with
  | none => .next (settleBad ctx ring s)
  | some d =>
    let x := stepCtx s ctx
    if x.ring.isSome && x.ring != some ring.val then
      .next (dispatchOp ctx ring 0x13 (fun a s => reject a.ref stStepInvalid [] s) s)
    else if x.ring.isSome && !earlierDone s ctx ring d.idx then .next s
    else if !stepOpen s ctx then .next (dispatchOp ctx ring 0x13 (fun a s => complete a.ref stStepSequence [] s) s)
    else .next (dispatchOp ctx ring 0x13 (fun a s => closeStep ctx ring a.ref ((fieldAt a.bytes 24 1).testBit 0) s) s)

/-! ## The context step watchdog (R413) -/

/-- The entry, the counter and the flag of a firing. -/
def noteCtxWatchdog (ctx : Nat) (s : State) : State :=
  logEntry { code := stWatchdog, source := 11, action := 8, ctxValid := true, ctx := ctx, detail := curStep s ctx }
    (bump cRcvCtxWdog 1 (setFlag .rcv 3 s))

/-- Complete with WATCHDOG what a ring holds unstarted, up to its TAIL; what an earlier flush covers keeps its status (Table 14.8). -/
def flushRing (ctx ring : Nat) (s : State) : State := addFlush ctx ring (.below (ringOf s ctx ring).tail stWatchdog) s

/-- The next descriptor of a ring waits for its semaphore. -/
def waiting (s : State) (ctx ring : Nat) : Bool :=
  match (ringOf s ctx ring).opened.find? fun d => !d.dispatched with
  | some d => !waitSatisfied s ctx d.bytes
  | none => false

/-- CONTEXT_STEP_WATCHDOG: it ends a waiting STEP_BEGIN, flushes an open step, or with no step completes the descriptor of
`ring` that waits and those after it (R413). Open buckets abort when their own abort times pass (R410). -/
def execContextStepWatchdog (ctx : Fin 16) (ring : Fin 8) (s : State) : Host.Outcome State Fault Refusal :=
  match (stepCtx s ctx).opened with
  | some o =>
    let s := noteCtxWatchdog ctx s
    if !o.begun then .next (endUnbegun ctx o (if o.wait = .lag then stPlaneLag else stWatchdog) s)
    else
      let s := modOpen ctx (fun o => { o with abandoned := true }) s
      let s := (List.range 8).foldl (fun s r => flushRing ctx r s) s
      .next (settleAll s)
  | none => if waiting s ctx ring then .next (settleAll (flushRing ctx ring (noteCtxWatchdog ctx s))) else .next s

end Sys2Proof.Machine
end

