-- ==== Sys2Proof/Machine/Reset.lean ====
section
/-!
DEFINITION. Context resets, device-level resets, the loss of main power, the fill and the crash dump (R30, R90, R359, R374,
R414 to R417, R420, R421, R434, R450).
-/
namespace Sys2Proof.Machine

/-! ## Context reset (R414) -/

/-- The time watchdog of a Dresser unit waits. -/
def drsWatchdogWaits (s : State) (u : Nat) : Bool :=
  s.pending.any fun i => match i with
    | .drsTimeWatchdog v => v.val == u
    | _ => false

/-- A launch of the context executes on a unit whose watchdog coincides: the unit is reset all the same (Table 14.8). -/
def resetWithContext (ctx u : Nat) (s : State) : State :=
  match (tabGet {} s.drs u).queue with
  | j :: _ => if j.ref.ctx = ctx ∧ drsWatchdogWaits s u then drsReset u j s else s
  | [] => s

/-- Drop the launches of a context from a Dresser unit. A launch that ends before its program has been checked leaves no copy behind
(R206). -/
def dropLaunches (ctx u : Nat) (s : State) : State :=
  let s := resetWithContext ctx u s
  let n := tabGet {} s.drs u
  let mine := match n.queue with | j :: _ => j.ref.ctx == ctx | [] => false
  let f : DrsUnit → DrsUnit := fun n => { n with
    queue := n.queue.filter (·.ref.ctx != ctx), run := if mine then {} else n.run
    held := if mine && !n.run.started then none else n.held }
  { s with drs := tabMod {} s.drs u f }

/-- Drop the scrubs of a context; the next job of a scrubber starts now. -/
def dropScrubs (ctx : Nat) (now : Nat) (q : List ScrubJob) : List ScrubJob :=
  match q.filter (·.ref.ctx != ctx), q with
  | j :: js, k :: _ => (if k.ref.ctx = ctx then { j with tStart := now } else j) :: js
  | js, _ => js

/-- A Drawer's queue without the descriptors of a context that wait; the one in execution stops at its next vector or row (R414). -/
def dropDrawerJobs (ctx : Nat) : List DrwJob → List DrwJob
  | [] => []
  | j :: js => (if j.ref.ctx = ctx then { j with dropped := true } else j) :: js.filter (·.ref.ctx != ctx)

/-- A Trestle engine's queue without the descriptors of a context that wait; the one in execution stops at its next tile (R414). -/
def dropTrsJobs (ctx : Nat) : List TrsJob → List TrsJob
  | [] => []
  | j :: js => (if j.ref.ctx = ctx then { j with dropped := true } else j) :: js.filter (·.ref.ctx != ctx)

/-- The work of a context in every engine is dropped: no completion is written. Drawers, Trestle and copies stop at their next boundary,
everything else at once (R414 steps 2 and 3). -/
def dropContextWork (ctx : Nat) (s : State) : State :=
  let s := { s with
    drawers := tabMap {} (fun _ w => { w with queue := dropDrawerJobs ctx w.queue }) s.drawers
    trs := tabMap {} (fun _ e => { e with queue := dropTrsJobs ctx e.queue }) s.trs
    copies := s.copies.map fun (j : CopyJob) => if j.ref.ctx = ctx then { j with dropped := true } else j }
  let s := { s with mem := { s.mem with
    scrubCup := dropScrubs ctx s.mod.devTime s.mem.scrubCup, scrubHbm := dropScrubs ctx s.mod.devTime s.mem.scrubHbm } }
  let s := (List.range 64).foldl (fun s u => dropLaunches ctx u s) s
  let s := calRuns (fun rs => rs.filter fun r => r.ref.map (·.ctx) != some ctx) s
  dropProgramming ctx s

/-- The progress watchdog of a Credenza unit waits. -/
def crzWatchdogWaits (s : State) (u : Nat) : Bool :=
  s.pending.any fun i => match i with
    | .credenzaProgressWatchdog v => v.val == u
    | _ => false

/-- A unit all of whose work is the context's, and whose watchdog coincides, is reset all the same (Table 14.8). -/
def resetUnitWith (ctx u : Nat) (s : State) : State :=
  match (crzUnit s u).queue with
  | j :: js => if (j :: js).all (·.ctx == ctx) && crzWatchdogWaits s u then crzReset u j s else s
  | [] => s

/-- The exchange state of a context goes: its registers, its group and the sums that wait (R414 steps 3 and 4). -/
def dropExchange (ctx : Nat) (s : State) : State :=
  let gone := fun (e : Nat × Option DWord) => decide (rRdxCtx ctx ≤ e.1) && decide (e.1 < rRdxCtx ctx + 0x1000)
  { s with
    regs := s.regs.filter fun e => !gone e
    rdx := { s.rdx with
      groups := tabSet {} s.rdx.groups ctx {}
      units := tabMap {} (fun _ u => { u with queue := u.queue.filter fun j => j.ctx != ctx }) s.rdx.units } }

/-- The module is Ready again when no step is open in any context (R26). -/
def readyIfIdle (s : State) : State :=
  if s.mod.st = .running ∧ !((List.range 16).any (stepOpen s)) then { s with mod := { s.mod with st := .ready } } else s

/-- CONTEXT_RESET for requester 0 the register, 1 a function-level reset or a change of VF Enable, 2 a Hutch reset, 3 PERST# or
link loss (R414, Table 14.11). The descriptors go first, so that nothing dropped writes a completion. Map writes still staged are
discarded (DESIGN CHOICE, log entry 35). The reset ends at once where no work has to reach a boundary first; one requested while another
of the context is in progress takes its place (DESIGN CHOICE, log entry 200). -/
def contextResetOf (requester ctx : Nat) (s : State) : State :=
  let s := { s with
    doors := tabSet {} s.doors ctx {}
    hif := { s.hif with resetting := tabSet none s.hif.resetting ctx (some requester) } }
  let s := (List.range 4).foldl (fun s u => resetUnitWith ctx u s) s
  let s := (usedTags s ctx).foldl (fun s tag => abortBucket ctx tag s) s
  let s := dropExchange ctx (dropContextWork ctx s)
  let s := clearStalled ctx { s with
    steps := tabSet {} s.steps ctx {}, stagedMaps := tabSet [] s.stagedMaps ctx [] }
  endContextReset ctx (readyIfIdle s)

/-- A context reset of every context from 1 to 15 (R411, R449). -/
def resetAllContexts (requester : Nat) (s : State) : State :=
  (List.range 15).foldl (fun s k => contextResetOf requester (k + 1) s) s

/-! ## What every device-level reset and every loss of main power ends -/

/-- The offset belongs to Nightstand, to recovery or to the power block, whose registers and counters outlive both (Table 14.3). -/
def alwaysOn (off : Nat) : Bool := (decide (0x0A00000 ≤ off) && decide (off < 0x0C00000)) || decide (0x0D00000 ≤ off)

/-- A plane across a device-level reset or a loss of power (R90, Table 3.4). -/
def Plane.afterReset (p : Plane) : Plane :=
  { p with
    st := match p.st with | .programming => .failed | .ready => .retained | x => x
    hold := 0, mstep := none, owner := none, imaged := false, margin := 0 }

/-- A Drawer across a device-level reset or a loss of power: cells, remapping, retirement and counts of failed cells stay (R33). -/
def Drawer.afterReset (w : Drawer) : Drawer :=
  { w with
    planeA := w.planeA.afterReset, planeB := w.planeB.afterReset
    worn := false, queue := [], wdogAt := none, staged := none, trimBuf := none }

/-- The update state machine is reset; a slot that was being staged is invalid (Tables 15.5 and 15.8). -/
def Fwu.afterReset (f : Fwu) : Fwu :=
  let lose := f.state == .staging
  { f with
    slot0 := if lose && f.selector == 1 then none else f.slot0
    slot1 := if lose && f.selector == 0 then none else f.slot1
    state := .idle, reason := 0, result := 0, received := [], overMctp := false, requested := false, tablePassed := false
    progress := 0, verified := false, act := .none, portsLeft := [], pendingChests := [] }

/-- Every descriptor, step, engine, exchange and calibration of the main domain is at an end; no completion is written. -/
def dropMain (s : State) : State :=
  { s with
    doors := [], hif := {}, steps := [], copies := [], chests := [], maps := [], stagedMaps := [], vfs := 0
    trs := tabMap {} (fun _ e => { e with queue := [], resets := [] }) s.trs
    drs := tabMap {} (fun _ n => { n with queue := [], run := {}, held := none, resets := [] }) s.drs
    drawers := tabMap {} (fun _ w => w.afterReset) s.drawers
    cal := { s.cal with runs := [], dies := [], vref := none }
    rdx := {}
    mem := { s.mem with scrubCup := [], scrubHbm := [], ceLogged := [] }
    fwu := s.fwu.afterReset
    rcv := { s.rcv with hbArmed := false, hbMisses := 0, hbSuspended := false, hutchAwaited := false, hutchHeld := false } }

/-- Registers and flags of the blocks return to their reset values, but for those that `keep` holds, for FWU_CTRL and for the
always-on blocks. -/
def resetRegs (keep : Nat → Bool) (keepFlag : Nat → Bool) (s : State) : State :=
  { s with
    regs := s.regs.filter fun e => keep e.1 || alwaysOn e.1 || e.1 == rFwuCtrl
    flags := s.flags.filter fun e => keepFlag e.1 || e.1 == Block.nst.code || e.1 == Block.rcv.code || e.1 == Block.pwr.code }

/-- Busy-cycle counts go back to 0 with the counters. -/
def clearCycles (s : State) : State :=
  { s with
    trs := tabMap {} (fun _ e => { e with halfCycles := 0 }) s.trs
    drs := tabMap {} (fun _ n => { n with halfCycles := 0 }) s.drs
    cnt := s.cnt.filter fun e => alwaysOn e.1 }

/-- The ports are Disabled and dark, and the OPT_ state of Table 14.3's cold column is reset; bays and the laser map stay. -/
def darkPorts (s : State) : State :=
  { s with opt := { s.opt with ports := [], transfer := none, result := 0, peers := [], dropLogged := [], inbox := [] } }

/-- The main rails are removed, in the reverse of the order of their enabling (R450). -/
def removeRails (s : State) : State :=
  s.mod.rails.reverse.foldl (fun s r => emit (.rail r false) { s with mod := { s.mod with rails := s.mod.rails.dropLast } }) s

/-- Main power is removed: the main domain loses everything volatile (R450, Table 3.4). -/
def powerDown (s : State) : State :=
  let s := removeRails s
  let s := darkPorts (clearCycles (resetRegs (fun _ => false) (fun _ => false) (dropMain s)))
  setReg rFwuCtrl 0 { s with
    mem := { s.mem with cells := [], errs := [] }
    rcv := { s.rcv with dumpBody := false, hutchTimes := [] }
    fwu := { s.fwu with active := none, activeSlot := 0, fallback := false }
    mod := { s.mod with
      boot := .idle, warmBoot := false, wantRecovery := false, pllLocked := false, pwrGood := false, pcieLink := false, configFrom := none
      onAt := none } }

/-- POWER_OFF: main power is removed, the module enters Standby, and an entry gives the cause: 1 a request, 2 a thermal trip,
3 the input out of range, 4 loss of lock, 5 a POWER_DOWN rule (R450, Table 14.11). A transition of higher precedence that coincides
is taken in its place; a rule ranks as a request does (R29; DEDUCED, log entry 43). -/
def enterStandby (cause engine code : Nat) (s : State) : State :=
  if outranked (if cause = 1 ∨ cause = 5 then 4 else 3) s then s
  else
    let s := logEntry { source := if cause = 4 then 0 else 10, engine := engine, detail := cause + code * 256 } s
    let s := powerDown s
    { s with mod := { s.mod with st := .standby } }

/-! ## The fill (R359, R374) -/

/-- Zeros with valid check bits in all memory; a warm fill spares the dump region. Every trim entry becomes 0. -/
def fillMemory (warm : Bool) (s : State) : State :=
  { s with mem := { s.mem with
    cells := s.mem.cells.filter (fun c => warm && inDump c.1)
    errs := s.mem.errs.filter (fun e => warm && inDump e.1) } }

/-! ## The crash dump (R420, R421, Tables 14.6 and 14.7) -/

/-- The descriptors in flight, by context, ring and index. -/
def inflightDescs (s : State) : List (DRef × Desc) :=
  s.doors.flatMap fun e => e.2.rings.flatMap fun q => (q.2.opened.filter (·.counted)).map fun d => (⟨e.1, q.1, d.idx⟩, d)

/-- Slice `i` of RCV_DUMP_CTRL, where its enable bit is set. -/
def dumpSlice (s : State) (i : Nat) : Option Nat :=
  let v := reg s rRcvDumpCtrl / 2 ^ (8 * i + 8)
  if v.testBit 7 then some (v % 128) else none

/-- The sections written, as header bytes 28 to 31 show them. -/
def dumpSections (s : State) : Nat :=
  0x1F + 32 * boolNat (dumpSlice s 0).isSome + 64 * boolNat (dumpSlice s 1).isSome + 128 * boolNat (dumpSlice s 2).isSome

/-- The copies of the in-flight descriptors: 4,096 slots of 64 bytes. -/
def dumpCopies (s : State) : List Byte :=
  padTo 0x40000 ((inflightDescs s).flatMap fun p => padTo 64 p.2.bytes)

/-- The directory of the copies, 32 KiB. -/
def dumpDirectory (s : State) : List Byte :=
  padTo 0x8000 ((inflightDescs s).flatMap fun p => leBytes 8 (p.1.idx + p.1.ring * 2 ^ 32 + p.1.ctx * 2 ^ 35 + 2 ^ 39))

/-- `n` bytes of the vendor data of dump `d` at an offset. -/
def vendorBytes (d off n : Nat) : List Byte := (List.range n).map fun i => Config.vendorByte d (off + i)

/-- The bytes of a Cupboard slice as they are read. -/
def sliceBytes (s : State) (k : Nat) : List Byte := readMem s (0x4000000 * k) 0x4000000

/-- CRC-32C of the dump from byte 160 of its header to its end; sections not written take no part. -/
def dumpCrc (s : State) (d : Nat) : Nat :=
  crc32c (zeros (0x10000 - 160) ++ dumpCopies s ++ dumpDirectory s ++ vendorBytes d 0x58000 0x8000
    ++ vendorBytes d 0x100000 0x100000 ++ vendorBytes d 0x200000 0x1E00000
    ++ [0, 1, 2].flatMap fun i => match dumpSlice s i with | some k => sliceBytes s k | none => [])

/-- Header bytes 0 to 159 of dump `d`. The program counters are vendor data. -/
def dumpHeader (s : State) (d cause : Nat) : List Byte :=
  leBytes 4 0x43444D50 ++ leBytes 2 1 ++ leBytes 1 cause ++ leBytes 1 s.mod.st.code ++ leBytes 8 s.mod.devTime
    ++ leBytes 8 (nstTime s) ++ leBytes 4 ((s.logProd + 2 ^ 24 - 1) % 2 ^ 24) ++ leBytes 4 (dumpSections s)
    ++ vendorBytes d 32 64 ++ leBytes 2 (bitmapOf ((List.range 16).filter (stepOpen s)))
    ++ leBytes 2 (inflightDescs s).length ++ leBytes 4 (dumpCrc s d) ++ zeros 56

/-- Cells without those of a range. -/
def clearCells (lo n : Nat) (m : Tab Byte) : Tab Byte := m.filter fun c => decide (c.1 < lo) || decide (lo + n ≤ c.1)

/-- Cells `m` with those of `n` bytes of `t` from `src` on copied to `dst`. -/
def copyCells (src dst n : Nat) (t m : Tab Byte) : Tab Byte :=
  m.filter (fun c => decide (c.1 < dst))
    ++ (t.filter fun c => decide (src ≤ c.1) && decide (c.1 < src + n)).map (fun c => (c.1 - src + dst, c.2))
    ++ m.filter (fun c => decide (dst + n ≤ c.1))

/-- The copy of Cupboard slice `k` as section `i` of the dump: its bytes as they are read. -/
def storeSlice (s : State) (i k : Nat) (m : Tab Byte) : Tab Byte :=
  s.mem.errs.foldl (fun m e =>
    if 0x4000000 * k ≤ e.1 ∧ e.1 < 0x4000000 * k + 0x4000000 ∧ e.2 = some true then
      memStore m (e.1 - 0x4000000 * k + (dumpBase + 0x4000000 * (i + 1))) (List.replicate 8 0xFF)
    else m) (copyCells (0x4000000 * k) (dumpBase + 0x4000000 * (i + 1)) 0x4000000 s.mem.cells m)

/-- Device memory with the sections of dump `d` written. The vendor sections read through BAR2 as free values. -/
def dumpCells (s : State) (d cause : Nat) : Tab Byte :=
  let m := clearCells dumpBase 0x2000000 s.mem.cells
  let m := memStore m dumpBase (dumpHeader s d cause)
  let m := memStore m (dumpBase + 0x10000) (dumpCopies s)
  let m := memStore m (dumpBase + 0x50000) (dumpDirectory s)
  [0, 1, 2].foldl (fun m i => match dumpSlice s i with | some k => storeSlice s i k m | none => m) m

/-- A byte offset of the dump region lies in a section that this dump writes. -/
def dumpWrites (s : State) (off : Nat) : Bool :=
  decide (off < 0x2000000) || [0, 1, 2].any fun i =>
    (dumpSlice s i).isSome && decide (0x4000000 * (i + 1) ≤ off) && decide (off < 0x4000000 * (i + 2))

/-- The eight summary entries of a dump (R421). -/
def summaryEntries (h : List Byte) (s : State) : State :=
  (List.range 8).foldl (fun s i => logEntry { source := 11, action := 14, summary := some ((h.drop (20 * i)).take 20) } s) s

/-- The boot core's reads of the slices of a dump (R356, R360; DEDUCED, log entry 206). -/
def noteSlices (s : State) : State :=
  [0, 1, 2].foldl (fun t i => match dumpSlice s i with
    | some k => noteRead ⟨11, 0, none⟩ (0x4000000 * k) 0x4000000 t
    | none => t) s

/-- CRASH_DUMP: written unless a valid dump is held that may not be replaced; DUMP_SEEN and the summary entries follow
(R420, R421). -/
def crashDump (cause : Nat) (s : State) : State :=
  if s.rcv.dumpValid && !regBit s rRcvCtrl 3 then s
  else
    let d := s.rcv.dumps + 1
    let h := dumpHeader s d cause
    let cells := dumpCells s d cause
    let s := noteSlices s
    let t := { s with
      mem := { s.mem with
        cells := cells
        errs := s.mem.errs.filter fun e => !(inDump e.1 && dumpWrites s (e.1 - dumpBase)) }
      rcv := { s.rcv with
        dumpValid := true, dumpCause := cause, dumpTime := s.mod.devTime % 2 ^ 48, dumps := d, dumpBody := true } }
    summaryEntries h (setFlag .rcv 4 t)

/-! ## Device-level resets (R415 to R417, Table 14.3) -/

/-- Registers that a warm reset keeps: the windows and their lock, and the OPT_ registers of Table 14.3. -/
def warmKeeps (off : Nat) : Bool :=
  off == rHifWinLock || (decide (0x2000 ≤ off) && decide (off < 0x3000))
    || off == rOptSelf || off == rOptCtrl || off == rOptSer || off == rOptLaserCtrl

/-- A warm reset: clocks, the link, windows, counters and the OPT_ settings stay; the fill starts, once the root PLL has locked
where the power-on has not reached that yet. -/
def warmReset (s : State) : State :=
  let t := resetRegs warmKeeps (fun _ => false) (dropMain s)
  { t with
    vfs := s.vfs
    opt := { t.opt with
      ports := tabMap {} (fun _ q => { q.clearLink with hello := q.hello, peerHold := q.peerHold }) t.opt.ports
      dropLogged := [], inbox := [] }
    mod := { t.mod with
      st := .booting, boot := if t.mod.pllLocked then .filling else t.mod.boot
      warmBoot := t.mod.pllLocked, fillAt := t.mod.nstNs } }

/-- A cold reset: the root PLL relocks, the PCIe link retrains, and every block starts afresh. -/
def coldReset (s : State) : State :=
  let s := darkPorts (clearCycles (resetRegs (fun _ => false) (fun _ => false) (dropMain s)))
  { s with
    rcv := { s.rcv with dumpBody := false, hutchTimes := [] }
    mod := { s.mod with
      st := .booting, boot := if s.mod.pwrGood then .pllLocking else .railsRising
      warmBoot := false, pllLocked := false, pcieLink := false } }

/-- DEVICE_WARM_RESET and DEVICE_COLD_RESET: the dump first, then the entry, then the reset, which retires the module where it
is the fourth within 900 s. RECOVERY_NEXT asks for Recovery at the boot that follows (R415, R417, R430). A transition of higher
precedence that coincides is taken in its place (R29), though a reset that a trip displaces counts (Table 14.8); a larger reset that
coincides is performed in its place (R416). -/
def deviceReset (cold mctp : Bool) (source cause : Nat) (dump : Bool) (s : State) : State :=
  let times := timesWithReset s
  let counted : Module := { s.mod with resetTimes := times, resetAt := some s.mod.nstNs }
  if subsumed cold s then s
  else if outranked (if retires times then 2 else 5) s then (if tripTakes s then { s with mod := counted } else s)
  else
  let s := if dump && !cold then crashDump cause s else s
  let action := if retires times then 12 else if cold then 11 else 10
  let s := logEntry { source := source, action := action, detail := cause + 256 * boolNat mctp + 512 * boolNat cold } s
  let s := { s with mod := { s.mod with resetTimes := times, resetAt := some s.mod.nstNs, resetGen := (s.mod.resetGen + 1) % 16, wantRecovery := regBit s rFwuCtrl 0 } }
  if retires times then
    let s := powerDown s
    { s with mod := { s.mod with st := .retired } }
  else if cold then coldReset s
  else warmReset s

/-! ## Ports after new microcode (R434 step 7, Table 15.4) -/

/-- A port retrains with its peer entry and lane maps cleared; a disabled port does nothing (Table 14.3). -/
def reloadPort (p : Nat) (s : State) : State :=
  let s := retrainPort p s
  if (port s p).st = .training then
    modPort p (fun q => { q with neighbour := 0, neighPort := 0, txMap := ({} : Port).txMap, rxMap := ({} : Port).rxMap }) s
  else s

/-- After a warm reset each port retrains (Table 14.3). -/
def retrainPorts (s : State) : State := (List.range 16).foldl (fun s p => reloadPort p s) s

/-- The activation is complete: Idle, ACTIVATE_SEEN and an entry (R434). -/
def activationEnd (s : State) : State :=
  logEntry { source := 12 } (setFlag .fwu 2 { s with fwu := { s.fwu with state := .idle, act := .none, portsLeft := [], overMctp := false } })

/-- Reload the next port that is not disabled; with none left the activation ends. -/
def reloadFrom : List Nat → State → State
  | [], s => activationEnd s
  | p :: ps, s =>
    if (port s p).st = .disabled then reloadFrom ps s
    else reloadPort p { s with fwu := { s.fwu with portsLeft := p :: ps } }

def nextPortReload (s : State) : State := reloadFrom s.fwu.portsLeft s

/-- The port being reloaded is Up or Degraded, has failed training or is disabled: the next is reloaded. -/
def portReloaded (p : Nat) (s : State) : State :=
  if s.fwu.act = .ports ∧ s.fwu.portsLeft.head? = some p then reloadFrom (s.fwu.portsLeft.drop 1) s else s

end Sys2Proof.Machine
end

