-- ==== Sys2Proof/Machine/Nightstand.lean ====
section
/-!
DEFINITION. Nightstand: the monitor converter, its scan sequencer and filters, the protective limits, the throttle and
the rule table (R16, R17, R22, R23 of spec/01_module_overview.md; R395 to R408 of spec/13_nightstand.md; R459).
-/
namespace Sys2Proof.Machine

/-- Nightstand runs in every state but Off (R406). -/
def nstRuns (s : State) : Bool := s.mod.st != .off

/-- BAR0 reaches the registers outside RCV_ and FWU_: Ready, Running and Fenced (R326, Table 1.7). -/
def bar0Open (s : State) : Bool := inService s

/-! ## The throttle (R399, R400) -/

/-- Cap of the software throttle register. -/
def softCap (s : State) : Nat := bitsOf (reg s rNstThrottle) 12 8

def ruleChannel (s : State) (i : Nat) : Nat := bitsOf (reg s (rNstRule i)) 4 0
def ruleAbove (s : State) (i : Nat) : Bool := regBit s (rNstRule i) 5
def ruleAction (s : State) (i : Nat) : Nat := bitsOf (reg s (rNstRule i)) 8 6
def ruleArg (s : State) (i : Nat) : Nat := bitsOf (reg s (rNstRule i)) 13 9
def ruleThreshold (s : State) (i : Nat) : Nat := bitsOf (reg s (rNstRule i)) 31 16
def ruleHyst (s : State) (i : Nat) : Nat := bitsOf (reg s (rNstRule i)) 47 32
def ruleDwell (s : State) (i : Nat) : Nat := max 1 (bitsOf (reg s (rNstRule i)) 55 48)
def ruleEnabled (s : State) (i : Nat) : Bool := regBit s (rNstRule i) 63

/-- Rule `i` is active (R402). -/
def ruleActive (s : State) (i : Nat) : Bool := tabGet false s.nst.ruleActive i

/-- The least cap of the active THROTTLE rules; 16 with none. -/
def ruleCap (s : State) : Nat :=
  (List.range 32).foldl (fun m i => if ruleActive s i && ruleAction s i == 2 then min m (ruleArg s i) else m) 16

/-- The level of R400: the least of the four sources. -/
def leastLevel (s : State) : Nat := min (min s.nst.thermal s.nst.power) (min (ruleCap s) (softCap s))

/-- The sources at a level, as the four SOURCE bits. -/
def sourcesAt (s : State) (l : Nat) : Nat :=
  boolNat (s.nst.thermal == l) + 2 * boolNat (s.nst.power == l) + 4 * boolNat (ruleCap s == l) + 8 * boolNat (softCap s == l)

/-- The entry of a throttle change (Tables 14.5 and 14.11). -/
def throttleEntry (s : State) : LogEntry :=
  { source := 10, action := 13, engine := if s.nst.src.testBit 0 then s.nst.thermalChan else 0,
    detail := s.nst.level + 256 * s.nst.src }

/-- Take the least level; leaving 16 and returning to it are logged, and a fall below 16 sets its flag (R400). -/
def refreshThrottle (s : State) : State :=
  let l := leastLevel s
  let old := s.nst.level
  let s := { s with nst := { s.nst with level := l, src := sourcesAt s l } }
  let s := if old = 16 ∧ l ≠ 16 then setFlag .nst 1 s else s
  if (old = 16) = (l = 16) then s else logEntry (throttleEntry s) s

/-- Filter value of a channel. -/
def filtOf (s : State) (c : Nat) : Nat := tabGet 0 s.nst.filt c

/-- 95.0 °C and 93.0 °C in filter units (Table 13.1). -/
abbrev filt95 : Nat := 34560
abbrev filt93 : Nat := 34048

/-- 2,800 W, 2,400 W and 2,250 W in units of 31.25 µW (Table 13.1: 25 mA × 20 mV / 16). -/
abbrev p2800 : Nat := 89600000
abbrev p2400 : Nat := 76800000
abbrev p2250 : Nat := 72000000

/-! ## One conversion (R396 to R399, R402, R403) -/

/-- The result entry and register of a conversion (R397). -/
def recordConversion (c k : Nat) (s : State) : State :=
  let e := k + 2 ^ 16 * c + 2 ^ 24 * (nstTime s % 2 ^ 40)
  bump cNstConversions 1 { s with nst := { s.nst with
    buf := tabSet 0 s.nst.buf (s.nst.prod % 4096) (BitVec.ofNat 64 e)
    prod := (s.nst.prod + 1) % 2 ^ 32
    result := some (c, k) } }

/-- FILTER_UPDATE: v = 16k at the first conversion, then v + ⌊(16k − v) / 2^SHIFT⌋ (R398). -/
def filterUpdate (c k : Nat) (s : State) : State :=
  let v := filtOf s c
  let shift := reg s (rNstFilt c) % 16
  let v' := if tabGet false s.nst.seen c then ((v : Int) + ((16 * k : Nat) - (v : Int)) / (2 ^ shift : Nat)).toNat else 16 * k
  { s with nst := { s.nst with filt := tabSet 0 s.nst.filt c v', seen := tabSet false s.nst.seen c true } }

/-- Every filtered die temperature is below a limit. -/
def diesBelow (s : State) (lim : Nat) : Bool := dieChannels.all fun c => decide (filtOf s c < lim)

/-- The onset of a condition: the time it has held from, which a single evaluation at which it does not hold restarts (R399). -/
def onset (held holds : Bool) (since now : Nat) : Nat := if held && holds then since else now

/-- The thermal source at a conversion of channels 12 to 23: it lowers by 1 at the onset of its condition (R399). -/
def thermalEval (c : Nat) (s : State) : State :=
  let hot := dieChannels.any fun d => decide (filt95 ≤ filtOf s d)
  let cool := diesBelow s filt93
  let now := s.mod.nstNs
  let n := s.nst
  let n := if hot && !n.thermalHot then
      { n with thermal := max 4 (n.thermal - 1), thermalChan := if filt95 ≤ filtOf s c then c else n.thermalChan }
    else n
  { s with nst := { n with
    thermalHot := hot, thermalCool := cool
    thermalHotAt := onset n.thermalHot hot n.thermalHotAt now, thermalCoolAt := onset n.thermalCool cool n.thermalCoolAt now } }

/-- The mean of P over the channel 3 conversions that ended within the last `ns` is above, or below, a limit. -/
def meanAbove (now ns limit : Nat) (qs : List (Nat × Nat)) : Bool :=
  let r := qs.filter fun q => decide (now < q.1 + ns)
  decide (limit * r.length < (r.map (·.2)).sum)
def meanBelow (now ns limit : Nat) (qs : List (Nat × Nat)) : Bool :=
  let r := qs.filter fun q => decide (now < q.1 + ns)
  decide ((r.map (·.2)).sum < limit * r.length)

/-- P of a channel 3 conversion joins those that the means are taken over, whatever the module's state (R399). -/
def notePower (k : Nat) (s : State) : State :=
  let now := s.mod.nstNs
  let p := k * filtOf s 2
  { s with nst := { s.nst with
    samples := ((now, p) :: s.nst.samples).filter fun q => decide (now < q.1 + 1000000)
    msSum := s.nst.msSum + p, msCount := s.nst.msCount + 1 } }

/-- The power source at a conversion of channel 3: the means over the last 100 µs and over the last millisecond (R399). -/
def powerEval (s : State) : State :=
  let now := s.mod.nstNs
  let cool := meanBelow now 1000000 p2250 s.nst.samples
  let n := { s.nst with powerCool := cool, powerCoolAt := onset s.nst.powerCool cool s.nst.powerCoolAt now }
  if meanAbove now 100000 p2800 s.nst.samples && decide (n.powerHold ≤ now) then
    { s with nst := { n with power := max 4 (n.power - 4), powerHold := now + 100000 } }
  else { s with nst := n }

/-- With main power off no condition of the throttle sources holds (R399). -/
def sourcesIdle (s : State) : State := { s with nst := { s.nst with thermalHot := false, thermalCool := false, powerCool := false } }

/-- Energy drawn between two channel 3 conversions, to 1 µJ (R459). -/
def addEnergy (k : Nat) (s : State) : State :=
  let dt := s.mod.nstNs - lastEndOf s 3
  { s with nst := { s.nst with energy := s.nst.energy + k * filtOf s 2 * dt * 3125 / 10 ^ 11 } }

/-- Channel 2: three consecutive samples outside 40 V to 60 V put the module into Standby (R399). -/
def vinEval (k : Nat) (s : State) : State :=
  let bad := decide (k < 2000) || decide (3000 < k)
  let count := if bad then s.nst.vinBad + 1 else 0
  let s := { s with nst := { s.nst with vinBad := count } }
  let s := if bad then setFlag .pwr 2 s else s
  if mainPower s && decide (3 ≤ count) then enterStandby 3 0 0 (setFlag .nst 4 s) else s

/-- TRIP_LATCH_CLEAR, then THERMAL_TRIP (R23, R399, R401). -/
def tripEval (c k : Nat) (s : State) : State :=
  let s := if diesBelow s filt95 then { s with mod := { s.mod with tripLatch := false } } else s
  if mainPower s && decide (code105 ≤ k) then
    enterStandby 2 c k (setFlag .nst 2 { s with mod := { s.mod with tripLatch := true } })
  else s

/-- The entry of a rule that fires or clears (Tables 14.5 and 14.11). -/
def ruleEntry (s : State) (i : Nat) (fired : Bool) : LogEntry :=
  { source := 10, action := 15, engine := i,
    detail := ruleChannel s i + 256 * boolNat fired + 65536 * filtOf s (ruleChannel s i) }

/-- RULE_FIRED: the entry and the action (R403, Table 13.3). -/
def ruleFire (vref : Fin 2097152) (i : Nat) (s : State) : State :=
  let s := logEntry (ruleEntry s i true)
    { s with nst := { s.nst with ruleActive := tabSet false s.nst.ruleActive i true, dwell := tabSet 0 s.nst.dwell i 0 } }
  match ruleAction s i with
  | 1 => emit (.alert i true) (setFlag .nst 0 s)
  | 3 => if inService s then wholeDieRun (List.replicate 8 vref) (ruleArg s i) s else s
  | 4 => let s := setFlag .nst 4 s
         if mainPower s then enterStandby 5 0 0 s else s
  | _ => s

/-- SMB_ALERT# is low while any ALERT rule is active (R444, Table 16.2). -/
def smbAlertLow (s : State) : Bool := nstRuns s && (List.range 32).any fun i => ruleActive s i && ruleAction s i == 1

/-- The module's SMBus address (R444). -/
def smbAddress (s : State) : Nat := 0x60 + s.mod.sa

/-- RULE_CLEARED (R402, R403). -/
def ruleClear (i : Nat) (s : State) : State :=
  let s := logEntry (ruleEntry s i false)
    { s with nst := { s.nst with ruleActive := tabSet false s.nst.ruleActive i false, dwell := tabSet 0 s.nst.dwell i 0 } }
  if ruleAction s i = 1 then emit (.alert i false) s else s

/-- The comparison that counts towards firing, or towards clearing while the rule is active (R402). -/
def ruleHolds (s : State) (i : Nat) : Bool :=
  let v : Int := filtOf s (ruleChannel s i)
  let t : Int := ruleThreshold s i
  let h : Int := ruleHyst s i
  if ruleActive s i then (if ruleAbove s i then decide (v < t - h) else decide (t + h < v))
  else (if ruleAbove s i then decide (t < v) else decide (v < t))

/-- Evaluate one rule at a conversion of its channel (R402). -/
def ruleEval (vref : Fin 2097152) (i : Nat) (s : State) : State :=
  let n := if ruleHolds s i then tabGet 0 s.nst.dwell i + 1 else 0
  if n < ruleDwell s i then { s with nst := { s.nst with dwell := tabSet 0 s.nst.dwell i n } }
  else if ruleActive s i then ruleClear i s else ruleFire vref i s

/-- Evaluate the enabled rules of a channel in ascending number (R402, R403). -/
def rulesEval (vref : Fin 2097152) (c : Nat) (s : State) : State :=
  (List.range 32).foldl (fun s i => if ruleEnabled s i && ruleChannel s i == c then ruleEval vref i s else s) s

/-- The protective limits a conversion of channel `c` evaluates (R399). -/
def limitsEval (c k : Nat) (s : State) : State :=
  if 12 ≤ c then
    let s := tripEval c k s
    if mainPower s then thermalEval c s else sourcesIdle s
  else if c = 3 then
    let s := notePower k (addEnergy k s)
    if mainPower s then powerEval s else sourcesIdle s
  else if c = 2 then vinEval k s
  else s

/-- Everything that the end of a conversion of channel `c` with code `k` does. -/
def conversionEnd (vref : Fin 2097152) (c k : Nat) (s : State) : State :=
  let s := filterUpdate c k (recordConversion c k s)
  let s := limitsEval c k s
  let s := { s with nst := { s.nst with lastEnd := tabSet 0 s.nst.lastEnd c s.mod.nstNs } }
  refreshThrottle (rulesEval vref c s)

/-- MONITOR_CONVERSION: the conversion in progress ends with a code, and the next one is chosen (R395 to R403). On a converter that was
idle, the one that fell due first ends. `vref` is what CAL_VREF measures, in µV, should a rule start a run. -/
def execMonitorConversion (code : Fin 4096) (vref : Fin 2097152) (s : State) : Host.Outcome State Fault Refusal :=
  if !nstRuns s then .next s
  else
    let s := beginIdle s
    match s.nst.cur with
    | none => .next s
    | some c => .next (nextConversion (conversionEnd vref c code s))

/-- NST_ADC_START: one conversion of the selected channel is inserted; with the converter idle and nothing else due it begins at once
(R396). -/
def execNstAdcStart (s : State) : Host.Outcome State Fault Refusal :=
  if !bar0Open s then .next s
  else
    let c := some (reg s rNstAdcSel % 32)
    let s := beginIdle s
    .next { s with nst := if s.nst.cur.isNone then { s.nst with cur := c } else { s.nst with startPending := c } }

/-- POWER_MS_BOUNDARY: the power conditions over whole milliseconds, which act while main power is on (R399). A millisecond with no
channel 3 result meets no condition. -/
def execPowerMsBoundary (s : State) : Host.Outcome State Fault Refusal :=
  let n := s.nst
  let above := decide (p2400 * n.msCount < n.msSum)
  let streak := if above then n.msOver + 1 else 0
  if !mainPower s then .next { s with nst := { n with msSum := 0, msCount := 0, msOver := streak, powerCool := false } }
  else
    let power := if 8 ≤ streak then 4 else if above then max 4 (n.power - 1) else n.power
    .next (refreshThrottle { s with nst := { n with power := power, msOver := streak, msSum := 0, msCount := 0 } })

/-- THROTTLE_SOURCE_TIMER: a 1 ms lowering interval of the thermal source, or a 10 ms raising interval of either source, counted from
the onset of its condition or from the last step under it, has passed while the condition held (R399, Table 13.2). -/
def execThrottleSourceTimer (thermal raise : Bool) (s : State) : Host.Outcome State Fault Refusal :=
  let n := s.nst
  let now := s.mod.nstNs
  if !mainPower s then .next s
  else if thermal && !raise && n.thermalHot && decide (n.thermalHotAt + 1000000 ≤ now) then
    .next (refreshThrottle { s with nst := { n with thermal := max 4 (n.thermal - 1), thermalHotAt := now } })
  else if thermal && raise && n.thermalCool && decide (n.thermalCoolAt + 10000000 ≤ now) then
    .next (refreshThrottle { s with nst := { n with thermal := min 16 (n.thermal + 1), thermalCoolAt := now } })
  else if !thermal && raise && n.powerCool && decide (n.powerCoolAt + 10000000 ≤ now) then
    .next (refreshThrottle { s with nst := { n with power := min 16 (n.power + 1), powerCoolAt := now } })
  else .next s

/-- A rule value that R404 accepts. -/
def ruleValid (v : Nat) : Bool :=
  decide (bitsOf v 4 0 ≤ 23) && decide (bitsOf v 8 6 ≤ 4)
    && (bitsOf v 8 6 != 2 || (decide (4 ≤ bitsOf v 13 9) && decide (bitsOf v 13 9 ≤ 16)))
    && (bitsOf v 8 6 != 3 || decide (bitsOf v 13 9 ≤ 7))

/-- The writable bits of a rule register (Table 13.7). -/
abbrev ruleMask : Nat := 0x80FFFFFFFFFF3FFF

/-- NST_RULE_WRITE: an invalid value leaves the register unchanged; any other makes the rule inactive, releases its cap
and restarts its dwell count (R404). -/
def execNstRuleWrite (rule : Fin 32) (value : DWord) (s : State) : Host.Outcome State Fault Refusal :=
  if bar0Open s && ruleValid value.toNat then
    let s := setReg (rNstRule rule) (value.toNat &&& ruleMask) s
    .next (refreshThrottle { s with nst := { s.nst with
      ruleActive := tabSet false s.nst.ruleActive rule false, dwell := tabSet 0 s.nst.dwell rule 0 } })
  else .next s

/-- A write of NST_CTRL: setting SCAN_EN on an idle converter begins the next conversion (R396). -/
def writeNstCtrl (v : Nat) (s : State) : State :=
  let s := setReg rNstCtrl v s
  if v.testBit 0 && s.nst.cur.isNone then nextConversion s else s

/-- NST_THROTTLE_CAP_WRITE: a cap of 4 to 16 enters the least level; any other leaves the field unchanged (R400). -/
def execNstThrottleCapWrite (cap : Fin 32) (s : State) : Host.Outcome State Fault Refusal :=
  if bar0Open s && decide (4 ≤ cap.val) && decide (cap.val ≤ 16) then .next (refreshThrottle (setReg rNstThrottle (256 * cap) s))
  else .next s

/-- The filter value of a channel in the quantity of Table 13.1, in billionths of a volt, an ampere or a degree Celsius. -/
def sensorValue (c v : Nat) : Int :=
  if 12 ≤ c then 3906250 * (v : Int) - 40000000000
  else if c = 3 then 1562500 * (v : Int)
  else if c = 2 then 1250000 * (v : Int)
  else if c = 6 ∨ c = 8 ∨ c = 10 ∨ c = 11 then 62500 * (v : Int)
  else 31250 * (v : Int)

/-- PLDM_GET_SENSOR_READING: sensor 0x0100 + c reads v of channel c in the quantity of Table 13.1, 0x0200 the state code, 0x0201 the
throttle level (R25, R406). That a reading counts billionths, in two's complement, is a DESIGN CHOICE (log entry 44). -/
def execPldmGetSensorReading (sensor : Fin 65536) (s : State) : Host.Outcome State Fault Refusal :=
  if !nstRuns s then .next s
  else if 0x0100 ≤ sensor.val ∧ sensor.val < 0x0118 then
    .next (emit (.pldm 0x11 0 (unsigned 64 (sensorValue (sensor.val - 0x0100) (filtOf s (sensor.val - 0x0100))))) s)
  else if sensor.val = 0x0200 then .next (emit (.pldm 0x21 0 s.mod.st.code) s)
  else if sensor.val = 0x0201 then .next (emit (.pldm 0x11 0 s.nst.level) s)
  else .next (emit (.pldm 0x11 0x80 0) s)

end Sys2Proof.Machine
end

