-- ==== Sys2Proof/Machine/Power.lean ====
section
/-!
DEFINITION. Power, clocks, signals and boot (R19 to R21, R26 to R30 of spec/01_module_overview.md; R359 and R374;
R429 to R431 and R438 of spec/15_firmware_and_boot.md; R445 to R452 of spec/16_module_electrical.md).
-/
namespace Sys2Proof.Machine

/-- An answer to an MCTP vendor-defined command: 0 accepted, 1 refused with a reason (R406). -/
def mctpAnswer (cmd code value : Nat) (s : State) : State := emit (.mctp cmd code value) s

/-- STANDBY_POWER_APPLIED: Nightstand runs and the module enters Standby; SA is read now. With no REFCLK Nightstand runs on its
oscillator, which OSC_SEEN shows, and the absence sets REFCLK_LOST_SEEN (R20, R26, R444, R445, R452, Table 13.7). The scan begins. -/
def execStandbyPowerApplied (sa : Fin 8) (s : State) : Host.Outcome State Fault Refusal :=
  if s.mod.st = .off then
    let s := baysAtPower { s with mod := { s.mod with st := .standby, sa := sa, nstNs := 0, onOscillator := !s.mod.refclk } }
    let s := nextConversion s
    .next (if s.mod.refclk then s else setFlag .nst 3 (setFlag .pwr 1 s))
  else .next s

/-- What the loss of standby power leaves: the non-volatile store, the arrays' cells, the wires. Retention SRAM and
every Nightstand, recovery and power register are lost (R26, R27, R30, R405). -/
def standbyLost (s : State) : State :=
  let s := baysDark (powerDown s)
  { s with
    mod := { s.mod with
      st := .off, mark0 := false, mark1 := false, mark2 := false, tripLatch := false, resetTimes := [], resetGen := 0, nstNs := 0, devTime := 0,
      onOscillator := false, refuseReason := 0, bootMs := 0, onAt := none, sa := 0 }
    log := [], logProd := 0, nst := {}, rcv := {}
    mem := { s.mem with rtab := [] }
    regs := s.regs.filter (fun e => !(decide (0x0A00000 ≤ e.1) && decide (e.1 < 0x0C00000)) && decide (e.1 < 0x0D00000))
    cnt := s.cnt.filter (fun e => !(decide (0x0A00000 ≤ e.1) && decide (e.1 < 0x0C00000)) && decide (e.1 < 0x0D00000))
    flags := s.flags.filter (fun e => e.1 != Block.nst.code && e.1 != Block.rcv.code && e.1 != Block.pwr.code) }

/-- STANDBY_POWER_LOST: the module goes to Off (R26, R29, R445). -/
def execStandbyPowerLost (s : State) : Host.Outcome State Fault Refusal := .next (standbyLost s)

/-- INPUT_OVERVOLTAGE: the input protection disconnects the module, which goes to Off (R445). -/
def execInputOvervoltage (s : State) : Host.Outcome State Fault Refusal := .next (standbyLost s)

/-- The filtered input lies outside 40 V to 60 V: codes 2,000 and 3,000 of channel 2 (R447, Table 13.1). -/
def inputOutOfRange (s : State) : Bool := decide (filtOf s 2 < 32000) || decide (48000 < filtOf s 2)

/-- A POWER_DOWN rule is active (Table 13.3). -/
def powerDownRuleActive (s : State) : Bool := (List.range 32).any fun i => ruleActive s i && ruleAction s i == 4

/-- A channel 2 sample outside 40 V to 60 V coincides (Table 16.7). -/
def inputSampleWaits (s : State) : Bool :=
  (beginIdle s).nst.cur == some 2 && s.pending.any fun i => match i with
    | .monitorConversion code _ => decide (code.val < 2000) || decide (3000 < code.val)
    | _ => false

/-- The reason a power-on request is refused for, 0 where it is accepted (R447, R458). -/
def powerOnReason (s : State) : Nat :=
  if s.mod.st ≠ .standby then 1
  else if inputOutOfRange s || inputSampleWaits s then 2
  else if !s.mod.refclk then 3
  else if s.mod.tripLatch then 4
  else if powerDownRuleActive s then 5
  else 0

/-- The main rails are enabled, in their order (R448). -/
def enableRails (s : State) : State :=
  railOrder.foldl (fun s r => emit (.rail r true) { s with mod := { s.mod with rails := s.mod.rails ++ [r] } }) s

/-- POWER_ON_REQUEST: refused with a reason, or accepted and the main rails are enabled (R26, R29, R447, R448). -/
def execPowerOnRequest (recovery : Bool) (s : State) : Host.Outcome State Fault Refusal :=
  let reason := powerOnReason s
  if !nstRuns s then .next s
  else if reason = 0 then
    .next (mctpAnswer 1 0 0 (bump cPwrOn 1 { s with mod := { s.mod with
      st := .booting, boot := .railsRising, wantRecovery := recovery, warmBoot := false, onAt := some s.mod.nstNs } } |> enableRails))
  else
    .next (mctpAnswer 1 1 reason (logEntry { source := 10, detail := reason }
      (setFlag .pwr 3 { s with mod := { s.mod with refuseReason := reason } })))

/-- POWER_OFF_REQUEST: from every powered state to Standby, unless a transition of higher precedence coincides (R26, R29, R450). -/
def execPowerOffRequest (s : State) : Host.Outcome State Fault Refusal :=
  if mainPower s then .next (if outranked 4 s then mctpAnswer 2 1 0 s else mctpAnswer 2 0 0 (enterStandby 1 0 0 s))
  else if nstRuns s then .next (mctpAnswer 2 1 0 s) else .next s

/-- RELEASE_RETIREMENT: Retired to Standby, and the device-level reset count is cleared (R26, R30, R417). -/
def execReleaseRetirement (s : State) : Host.Outcome State Fault Refusal :=
  if s.mod.st = .retired then .next (mctpAnswer 3 0 0 { s with mod := { s.mod with st := .standby, resetTimes := [] } })
  else if nstRuns s then .next (mctpAnswer 3 1 0 s) else .next s

/-- MAIN_RAILS_UP: PWR_GOOD rises (R448). -/
def execMainRailsUp (s : State) : Host.Outcome State Fault Refusal :=
  if s.mod.st = .booting ∧ s.mod.boot = .railsRising then
    .next { s with mod := { s.mod with pwrGood := true, boot := .pllLocking, configFrom := some s.mod.nstNs } }
  else .next s

/-- ROOT_PLL_LOCKED: device time starts at 0 and the fill starts (R19, R359, R448). -/
def execRootPllLocked (s : State) : Host.Outcome State Fault Refusal :=
  if s.mod.st = .booting ∧ s.mod.boot = .pllLocking ∧ s.mod.refclk then
    .next { s with mod := { s.mod with pllLocked := true, devTime := 0, boot := .filling, warmBoot := false, fillAt := s.mod.nstNs } }
  else .next s

/-- The PCIe link is up: it was, or PERST# is deasserted and PCIE_REFCLK is present (R448, R449). -/
def Module.linkTrains (m : Module) : Bool := m.pcieLink || (!m.perst && m.pcieRefclk)

/-- Enter Recovery (R430). RECOVERY_NEXT is cleared on entry (Table 15.9). The PCIe link has trained, so that an image may come over it
(R437). -/
def enterRecovery (s : State) : State :=
  setReg rFwuCtrl 0 { s with mod := { s.mod with st := .recovery, boot := .idle, wantRecovery := false, pcieLink := s.mod.linkTrains } }

/-- FILL_COMPLETE: memory holds zeros with valid check bits, the trim table is invalid, and the boot core is released;
where Recovery was requested it is entered without reading an image (R359, R374, R429, R430). -/
def execFillComplete (s : State) : Host.Outcome State Fault Refusal :=
  if s.mod.st = .booting ∧ s.mod.boot = .filling then
    let s := fillMemory s.mod.warmBoot s
    let s := { s with mod := { s.mod with
      boot := .checking, fillUs := (s.mod.nstNs - s.mod.fillAt) / 1000 % 65536, fillWarm := s.mod.warmBoot } }
    .next (if s.mod.wantRecovery then enterRecovery s else s)
  else .next s

/-! ## Image checks (Table 15.3) -/

/-- A little-endian field of an image header. -/
def hdrField (i : Image) (at_ n : Nat) : Nat := fieldAt i.bytes at_ n

/-- Bytes of an image. -/
def Image.slice (i : Image) (at_ n : Nat) : List Byte := (i.bytes.drop at_).take n

def imgBlocks (i : Image) : Nat := hdrField i 14 2
def imgKey (i : Image) : Nat := hdrField i 6 2
def imgSvn (i : Image) : Nat := hdrField i 12 1
def imgVersion (i : Image) : Nat := hdrField i 8 4

/-- HEADER_CRC covers bytes 0 to 27 and 32 to 3,999 (Table 15.1). -/
def headerCrc (i : Image) : Nat := crc32c (i.slice 0 28 ++ i.slice 32 3968)

/-- Byte `at_` on of block k (Table 15.2). -/
def Image.block (i : Image) (k at_ n : Nat) : List Byte := i.slice (4096 + 65568 * k + at_) n

/-- FIRST_BLOCK, BLOCK_COUNT and LENGTH of component c: 0 control firmware, 1 Trestle, 2 Dresser, 3 Credenza, 4 Chest, 5 port. -/
def compFirst (i : Image) (c : Nat) : Nat := hdrField i (32 + 64 * c) 2
def compBlocks (i : Image) (c : Nat) : Nat := hdrField i (34 + 64 * c) 2
def compLength (i : Image) (c : Nat) : Nat := hdrField i (36 + 64 * c) 4

/-- The SHA-384 entry of component c. -/
def componentDigest (i : Image) (c : Nat) : Nat := hdrField i (48 + 64 * c) 48

/-- Component c of the header lies within BLOCKS, and its LENGTH within its blocks (Table 15.3, order 6; DEDUCED, log entry 210). -/
def componentFits (i : Image) (c : Nat) : Bool :=
  decide (compFirst i c + compBlocks i c ≤ imgBlocks i) && decide (compLength i c ≤ 65536 * compBlocks i c)

/-- What order 1 of Table 15.3 finds wrong in a header, for an image of which `length` bytes are received. -/
def headerBad (length : Nat) (i : Image) : Bool :=
  hdrField i 0 4 != 0x43465731 || hdrField i 4 2 != 1 || hdrField i 28 4 != headerCrc i
    || imgBlocks i == 0 || decide (768 < imgBlocks i) || length != 4096 + 65568 * imgBlocks i

/-- The CRC of block k is right (Table 15.2). -/
def blockGood (i : Image) (k : Nat) : Bool := leNat (i.block k 65536 4) == crc32c (i.block k 0 65536)

/-- Blocks, of the first `n`, before the first whose CRC is wrong. -/
def goodBlocks (i : Image) (n : Nat) : Nat := ((List.range n).takeWhile (blockGood i)).length

/-- Orders 1 and 2 of Table 15.3, checked as the parts arrive: code and REASON of the first failure. -/
def arrivalCheck (i : Image) : Option (Nat × Nat) :=
  if headerBad i.bytes.length i then some (stImageCrc, 1)
  else if goodBlocks i (imgBlocks i) < imgBlocks i then some (stImageCrc, 2)
  else none

/-- The nonce of block j: NONCE_BASE followed by j, 96 bits (R428). -/
def blockNonce (i : Image) (j : Nat) : List Byte := i.slice 16 8 ++ leBytes 4 j

/-- The opening of block j: the nonce, and header bytes 0 to 27 as additional authenticated data (R428). -/
def blockQuery (f : Fwu) (i : Image) (j : Nat) : GcmQuery :=
  { key := f.imageKey, nonce := blockNonce i j, aad := i.slice 0 28, cipher := i.block j 0 65536, tag := i.block j 65540 16 }

/-- What the signature covers: header bytes 0 to 3,903, then every block, trailer included (R428). -/
def signedBytes (i : Image) : List Byte := i.slice 0 3904 ++ i.slice 4096 (65568 * imgBlocks i)

/-- The answers of the cryptographic functions. -/
def shaOf (c : Crypto) (m : List Byte) : Option (BitVec 384) := (c.sha384.find? fun e => e.1 == m).map (·.2)
def plainOf (c : Crypto) (q : GcmQuery) : Option (List Byte) := (c.opens.find? fun e => e.1 == q).map (·.2)

/-- The signature verifies under a key (Table 15.3, order 4). -/
def signatureGood (key : BitVec 384) (i : Image) (crypto : Crypto) : Bool :=
  match shaOf crypto (signedBytes i) with
  | some d => crypto.verifies.contains (key, d, i.slice 3904 96)
  | none => false

/-- Every block opens (Table 15.3, order 6). -/
def blocksOpen (f : Fwu) (i : Image) (crypto : Crypto) : Bool :=
  (List.range (imgBlocks i)).all fun j => (plainOf crypto (blockQuery f i j)).isSome

/-- The plaintext of component c: LENGTH bytes of its blocks. -/
def componentPlain (f : Fwu) (i : Image) (crypto : Crypto) (c : Nat) : List Byte :=
  (((List.range (compBlocks i c)).flatMap fun k => (plainOf crypto (blockQuery f i (compFirst i c + k))).getD [])).take (compLength i c)

/-- A component lies within BLOCKS and its plaintext has the digest of its entry (Table 15.3, order 6). The digest is stored as the function
gives it, first byte first. -/
def componentGood (f : Fwu) (i : Image) (crypto : Crypto) (c : Nat) : Bool :=
  componentFits i c && (match shaOf crypto (componentPlain f i crypto c) with
    | some d => componentDigest i c == d.toNat
    | none => false)

/-- The digest fused for a vendor key that is not revoked (R426). -/
def usableKey (f : Fwu) (k : Nat) : Option (BitVec 384) := if f.keysRevoked.testBit k then none else (f.keyDigests[k]?).join

/-- Orders 3 to 6 of Table 15.3 (R428). -/
def cryptoCheck (f : Fwu) (i : Image) (crypto : Crypto) : Option (Nat × Nat) :=
  match usableKey f (imgKey i) with
  | none => some (stImageSignature, 1)
  | some key =>
    if !signatureGood key i crypto then some (stImageSignature, 2)
    else if imgSvn i < f.minSvn then some (stImageSignature, 3)
    else if !blocksOpen f i crypto || !((List.range 6).all (componentGood f i crypto)) then some (stImageDecrypt, 1)
    else none

/-- Every check of Table 15.3 on a slot; an empty slot fails the first. -/
def imageCheck (f : Fwu) (i : Option Image) (crypto : Crypto) : Option (Nat × Nat) :=
  match i with
  | none => some (stImageCrc, 1)
  | some i => match arrivalCheck i with
    | some e => some e
    | none => cryptoCheck f i crypto

/-- A slot of the image store. -/
def slotOf (f : Fwu) (n : Nat) : Option Image := if n = 0 then f.slot0 else f.slot1

/-- BOOT_IMAGE_CHECKED: the checks of the selected image end, then those of the other slot; Recovery is entered when
neither passes (R428, R430). A failing check sets CHECK_FAIL_SEEN and shows its code and REASON in FWU_STATE (R428, Table 15.9). -/
def execBootImageChecked (crypto : Crypto) (s : State) : Host.Outcome State Fault Refusal :=
  if s.mod.st ≠ .booting then .next s
  else
    let other := decide (s.mod.boot = .checkingOther)
    let slot := if other then 1 - s.fwu.selector else s.fwu.selector
    if s.mod.boot = .checking ∨ s.mod.boot = .checkingOther then
      match imageCheck s.fwu (slotOf s.fwu slot) crypto with
      | none => .next { s with
          mod := { s.mod with boot := .loading }
          fwu := { s.fwu with active := slotOf s.fwu slot, activeSlot := slot, fallback := other } }
      | some (code, reason) =>
        let s := logEntry { source := 12, code := code }
          (setFlag .fwu 1 { s with fwu := { s.fwu with result := code, reason := reason } })
        .next (if other then enterRecovery s else { s with mod := { s.mod with boot := .checkingOther } })
    else .next s

/-! ## The provisioning record (R431) -/

def recField (s : State) (at_ n : Nat) : Nat := leNat ((List.range n).map fun k => tabGet 0 s.fwu.record (at_ + k))

/-- The record's MAGIC and check value are right. -/
def recordValid (s : State) : Bool :=
  recField s 0 4 == 0x43505231 && recField s 4 4 == crc32c ((List.range 3840).map fun k => tabGet 0 s.fwu.record (64 + k))

/-- A window of the record overlaps slice 95 or the crash dump region (R351, R353). -/
def windowForbidden (lo hi : Nat) : Bool :=
  (decide (lo < cupEnd) && decide (trimBase ≤ hi)) || (decide (lo < dumpBase + 0x10000000) && decide (dumpBase ≤ hi))

/-- The entry that a bad record or window writes: IMAGE_CRC with REASON 3. -/
def recordEntry : LogEntry := { source := 12, code := stImageCrc, detail := 3 }

/-- Write one window from the record, or leave it invalid (R328, R431). -/
def writeWindow (n w : Nat) (s : State) : State :=
  let base := recField s (64 + 16 * (16 * (n - 1) + w)) 8 &&& 0xFFFFFFFFFFFFF003
  let limit := recField s (72 + 16 * (16 * (n - 1) + w)) 8 &&& 0xFFFFFFFFFFFFF000
  let valid := (base.testBit 0 || base.testBit 1) && decide (base / 4096 ≤ limit / 4096)
  if valid && windowForbidden (base / 4096 * 4096) (limit + 4095) then
    logEntry recordEntry (setReg (rHifWinBase n w) 0 (setReg (rHifWinLimit n w) 0 s))
  else setReg (rHifWinBase n w) base (setReg (rHifWinLimit n w) limit s)

/-- Step 6 of Table 15.4: the windows of contexts 1 to 15, then the lock. -/
def writeWindows (s : State) : State :=
  let s := if recordValid s then
      (List.range 240).foldl (fun s k => writeWindow (k / 16 + 1) (k % 16) s) s
    else logEntry recordEntry ((List.range 240).foldl (fun s k =>
      setReg (rHifWinBase (k / 16 + 1) (k % 16)) 0 (setReg (rHifWinLimit (k / 16 + 1) (k % 16)) 0 s)) s)
  setReg rHifWinLock 1 s

/-- BOOT_COMPLETE: windows written and locked except after a warm reset, ports retrained after one, the Hutch watchdog
armed, and Ready or Fenced entered by the fence mark (R26, R27, R328, R411, R429). -/
def execBootComplete (s : State) : Host.Outcome State Fault Refusal :=
  if s.mod.st = .booting ∧ s.mod.boot = .loading then
    let s := if s.mod.warmBoot then retrainPorts s else writeWindows s
    .next { s with
      mod := { s.mod with
        st := if s.mod.fenceMark then .fenced else .ready
        boot := .idle, warmBoot := false
        bootMs := match s.mod.onAt with | some t => (s.mod.nstNs - t) / 1000000 % 65536 | none => s.mod.bootMs
        onAt := none
        pcieLink := s.mod.linkTrains }
      rcv := { s.rcv with hbArmed := true, hbMisses := 0, hbSuspended := false, hutchAwaited := false, hutchHeld := false } }
  else .next s

/-! ## Clocks and signals -/

/-- ROOT_PLL_LOSS_OF_LOCK: the main domain stops and the module enters Standby (R21, R450). -/
def execRootPllLossOfLock (s : State) : Host.Outcome State Fault Refusal :=
  if mainPower s && s.mod.pllLocked then .next (enterStandby 4 0 0 s) else .next s

/-- REFCLK_LOST: the loss is flagged, Nightstand moves to its oscillator, and the root PLL loses lock (R20, R21, R452). -/
def execRefclkLost (s : State) : Host.Outcome State Fault Refusal :=
  let s := { s with mod := { s.mod with refclk := false } }
  if !nstRuns s then .next s
  else
    let s := setFlag .nst 3 (setFlag .pwr 1 { s with mod := { s.mod with onOscillator := true } })
    if mainPower s then .next (enterStandby 4 0 0 s) else .next s

/-- REFCLK_RESTORED: Nightstand returns to REFCLK ÷ 4 (R20). -/
def execRefclkRestored (s : State) : Host.Outcome State Fault Refusal :=
  .next { s with mod := { s.mod with refclk := true, onOscillator := false } }

/-- The effect of PERST# or of a lost link while main power is on (R449). The context resets are part of a larger reset that coincides
(R416). -/
def pcieDown (s : State) : State :=
  if mainPower s then
    let s := setFlag .pwr 4 { s with mod := { s.mod with pcieLink := false } }
    { (if resetIncluded s then s else resetAllContexts 3 s) with vfs := 0 }
  else s

/-- PERST_ASSERT (R449). -/
def execPerstAssert (s : State) : Host.Outcome State Fault Refusal :=
  if s.mod.perst then .next s else .next (pcieDown { s with mod := { s.mod with perst := true } })

/-- Configuration requests are answered with Configuration Request Retry Status: for a time of at most 100 ms, which the module sets, after
the later of PWR_GOOD's rise and PERST#'s deassertion (Table 16.4). -/
def configRetry (s : State) : Bool :=
  mainPower s && !s.mod.perst && (match s.mod.configFrom with
    | some t => decide (s.mod.nstNs < t + Config.configDelay % 100000001)
    | none => false)

/-- PERST_DEASSERT: the link trains where main power is on (R448, R449). The integrator deasserts it with PCIE_REFCLK stable, so that one
that had been lost is present again (DEDUCED, log entry 208). -/
def execPerstDeassert (s : State) : Host.Outcome State Fault Refusal :=
  .next { s with mod := { s.mod with
    perst := false, pcieRefclk := true, pcieLink := mainPower s
    configFrom := if s.mod.pwrGood then some s.mod.nstNs else s.mod.configFrom } }

/-- PCIE_LINK_LOSS: of the link, or of PCIE_REFCLK (R449). -/
def execPcieLinkLoss (refclkGone : Bool) (s : State) : Host.Outcome State Fault Refusal :=
  .next (pcieDown { s with mod := { s.mod with pcieRefclk := s.mod.pcieRefclk && !refclkGone } })

/-- PWR_HOLD_CHANGE: assertion sets HOLD_SEEN; a change is logged when LOG_HOLD is set (R433, R459). -/
def execPwrHoldChange (level : Bool) (s : State) : Host.Outcome State Fault Refusal :=
  if level = s.mod.pwrHold then .next s
  else
    let s := { s with mod := { s.mod with pwrHold := level } }
    if !nstRuns s then .next s
    else
      let s := if level then setFlag .pwr 0 s else s
      .next (if regBit s rPwrCtrl 0 then logEntry {} s else s)

/-! ## Device-level resets and the configuration area over MCTP -/

/-- MCTP_WARM_RESET: command 0x04 (R415). -/
def execMctpWarmReset (s : State) : Host.Outcome State Fault Refusal :=
  if mainPower s then .next (deviceReset false true 0 4 false (mctpAnswer 4 0 0 s))
  else if nstRuns s then .next (mctpAnswer 4 1 0 s) else .next s

/-- MCTP_COLD_RESET: command 0x05 (R415). -/
def execMctpColdReset (s : State) : Host.Outcome State Fault Refusal :=
  if mainPower s then .next (deviceReset true true 0 4 false (mctpAnswer 5 0 0 s))
  else if nstRuns s then .next (mctpAnswer 5 1 0 s) else .next s

/-- SET_OWNER_LOCK: command 0x06, in every state except Off (R438). -/
def execSetOwnerLock (s : State) : Host.Outcome State Fault Refusal :=
  if nstRuns s then .next (mctpAnswer 6 0 0 { s with fwu := { s.fwu with ownerLock := true } }) else .next s

/-- CLEAR_OWNER_LOCK: command 0x07, in every state except Off (R438). -/
def execClearOwnerLock (s : State) : Host.Outcome State Fault Refusal :=
  if nstRuns s then .next (mctpAnswer 7 0 0 { s with fwu := { s.fwu with ownerLock := false } }) else .next s

/-- WRITE_PROVISIONING_RECORD: command 0x08, in Standby, Retired or Recovery while the owner lock is clear (R431). -/
def execWriteProvisioningRecord (record : List Byte) (s : State) : Host.Outcome State Fault Refusal :=
  if !nstRuns s then .next s
  else if (s.mod.st = .standby ∨ s.mod.st = .retired ∨ s.mod.st = .recovery) ∧ !s.fwu.ownerLock then
    .next (mctpAnswer 8 0 0 { s with fwu := { s.fwu with record := cellsOf 0 (record.take 3904) } })
  else .next (mctpAnswer 8 1 0 s)

end Sys2Proof.Machine
end

