-- ==== Sys2Proof/Machine/Recovery.lean ====
section
/-!
DEFINITION. The Hutch watchdog, device-level resets asked for by register, and the crash dump's release
(R411, R415, R417, R422 of spec/14_faults_and_recovery.md).
-/
namespace Sys2Proof.Machine

/-- The escalation of R411: a device warm reset with a dump, or with AUTO_WARM 0 Hutch stays in reset and the module
enters Booting, unless a device-level reset coincides (R416). -/
def escalateHutch (cause : Nat) (s : State) : State :=
  if regBit s rRcvCtrl 1 then deviceReset false false 11 cause true s
  else
    if resetWaits s then s else
    let s := logEntry { source := 11, detail := cause } s
    { s with
      mod := { s.mod with st := .booting, boot := .idle }
      rcv := { s.rcv with hutchHeld := true, hutchAwaited := false, hbArmed := false } }

/-- A Hutch reset is counted, flagged and remembered (R411). -/
def noteHutchReset (s : State) : State :=
  let s := bump cRcvHutch 1 (setFlag .rcv 0 s)
  { s with rcv := { s.rcv with
    hbArmed := false, hbMisses := 0, hutchAwaited := true, hutchTimes := (s.mod.devTime :: s.rcv.hutchTimes).take 3 } }

/-- HUTCH_RESET: the dump, the context resets and the entry, in the order of R411; rings come back disabled. The entry of a context whose
work has to reach a boundary follows when it has (DEDUCED, log entry 204). -/
def hutchReset (s : State) : State :=
  let s := if regBit s rRcvCtrl 2 then crashDump 1 s else s
  let s := resetAllContexts 2 s
  noteHutchReset (logEntry { source := 11, action := 9, detail := 1 } s)

/-- The reset just made is the third within 600 s (R411). -/
def thirdHutchReset (s : State) : Bool :=
  match s.rcv.hutchTimes with
  | [a, _, c] => decide (a ≤ c + 600000000000)
  | _ => false

/-- HUTCH_HEARTBEAT: restarts the miss count, or arms the watchdog after a Hutch reset (R411). One in the nanosecond of the third miss
does not prevent the reset (Table 14.8). -/
def execHutchHeartbeat (s : State) : Host.Outcome State Fault Refusal :=
  if !inService s || hutchDue s then .next s
  else if s.rcv.hutchAwaited then .next { s with rcv := { s.rcv with hutchAwaited := false, hbArmed := true, hbMisses := 0 } }
  else .next { s with rcv := { s.rcv with hbMisses := 0 } }

/-- HUTCH_HEARTBEAT_MISS: the third consecutive miss resets the Hutch domain (R411). Where that is the third reset and AUTO_WARM is 1, the
device warm reset includes it: Hutch's own dump, context resets and entry are not made (R416). -/
def execHutchHeartbeatMiss (s : State) : Host.Outcome State Fault Refusal :=
  if !(inService s && s.rcv.hbArmed && !hbHeld s) || (decide (2 ≤ s.rcv.hbMisses) && resetWaits s) then .next s
  else if s.rcv.hbMisses + 1 < 3 then .next { s with rcv := { s.rcv with hbMisses := s.rcv.hbMisses + 1 } }
  else if missWarms s then .next (escalateHutch 3 (noteHutchReset s))
  else
    let s := hutchReset s
    .next (if thirdHutchReset s then escalateHutch 3 s else s)

/-- HUTCH_RESTORE_TIMEOUT: no heartbeat within 100 ms of a Hutch reset (R411). -/
def execHutchRestoreTimeout (s : State) : Host.Outcome State Fault Refusal :=
  if inService s && s.rcv.hutchAwaited then .next (escalateHutch 2 s) else .next s

/-- DEVICE_WARM_RESET: a write of RCV_RESET.WARM; another KEY is ignored (R415). -/
def execDeviceWarmReset (key : Fin 65536) (dump : Bool) (s : State) : Host.Outcome State Fault Refusal :=
  if rcvOpen s && key.val == resetKey then .next (deviceReset false false 0 4 dump s) else .next s

/-- DEVICE_COLD_RESET: a write of RCV_RESET.COLD; another KEY is ignored (R415). -/
def execDeviceColdReset (key : Fin 65536) (s : State) : Host.Outcome State Fault Refusal :=
  if rcvOpen s && key.val == resetKey then .next (deviceReset true false 0 4 false s) else .next s

/-- DUMP_CLEAR: RCV_DUMP_INFO.VALID becomes 0 (R422). -/
def execDumpClear (s : State) : Host.Outcome State Fault Refusal :=
  if rcvOpen s then .next { s with rcv := { s.rcv with dumpValid := false } } else .next s

end Sys2Proof.Machine
end

