-- ==== Sys2Proof/Machine/Host.lean ====
section
/-!
DEFINITION. The host interface: doorbells, semaphores, BAR2, functions, descriptor fetch and copies (R319 to R346 of
spec/10_host_rings.md; R356, R375, R422).
-/
namespace Sys2Proof.Machine

/-- RING_ERROR: the ring fetches nothing more, records the status and logs (R332, R460). -/
def ringError (ctx ring status : Nat) (e : LogEntry) (s : State) : State :=
  logEntry { e with code := status, source := 7 }
    (setFlag .hif 0 (modRing ctx ring (fun q => { q with error := status }) s))

/-- A TAIL value puts the ring into Error (R332). -/
def tailInvalid (q : Ring) (t : Nat) : Bool :=
  decide (q.size < (t + 2 ^ 32 - q.head) % 2 ^ 32) || decide (2 ^ 31 ≤ (t + 2 ^ 32 - q.tail) % 2 ^ 32)

/-- Descriptors are posted up to a TAIL value; the place of the write among those of the context is kept (R217, R332). -/
def postTail (ctx ring t : Nat) (s : State) : State :=
  modDoor ctx (fun d => { d with
    posts := d.posts + 1
    rings := tabMod {} d.rings ring fun q => { q with tail := t, posted := q.posted ++ [(t, d.posts)] } }) s

/-- HIF_RING_TAIL_WRITE (R332). -/
def execHifRingTailWrite (fn ctx : Fin 16) (ring : Fin 8) (tail : Word) (s : State) : Host.Outcome State Fault Refusal :=
  let q := ringOf s ctx ring
  let t := tail.toNat
  if !doorWritable s fn ctx || !q.enable || q.error != 0 || t == q.tail then .next s
  else if tailInvalid q t then
    .next (ringError ctx ring stRingInvalid { ctxValid := true, ctx := ctx, ring := ring, detail := t + 2 ^ 32 * q.head } s)
  else .next (postTail ctx ring t s)

/-- MSI-X vectors of a function (Table 10.1). -/
def vectorsOf (fn : Nat) : Nat := if fn = 0 then 128 else 16

/-- HIF_RING_CTRL_WRITE (R331, R340): a disabled ring takes SIZE_LOG2 and VECTOR within their ranges and, with ENABLE,
starts from HEAD and TAIL 0; an enabled one is disabled only when HEAD equals TAIL and it is not in Error. -/
def execHifRingCtrlWrite (fn ctx : Fin 16) (ring : Fin 8) (value : Word) (s : State) : Host.Outcome State Fault Refusal :=
  let q := ringOf s ctx ring
  let v := value.toNat
  if !doorWritable s fn ctx then .next s
  else if q.enable then
    if !v.testBit 0 && q.head == q.tail && q.error == 0 then .next (modRing ctx ring (fun q => { q with enable := false }) s)
    else .next s
  else
    let size := bitsOf v 5 1
    let vec := bitsOf v 12 6
    let q := { q with
      sizeLog2 := if 6 ≤ size ∧ size ≤ 16 then size else q.sizeLog2
      vector := if vec < vectorsOf fn then vec else q.vector }
    .next (modRing ctx ring (fun _ => if v.testBit 0 then { q with enable := true, tail := 0, posted := [], fetched := 0, error := 0, flush := [] } else q) s)

/-- HIF_HIST_CTRL_WRITE (R331, R341). -/
def execHifHistCtrlWrite (fn ctx : Fin 16) (value : Word) (s : State) : Host.Outcome State Fault Refusal :=
  let v := value.toNat
  if !doorWritable s fn ctx then .next s
  else .next (modDoor ctx (fun d =>
    let h := d.hist
    if h.enable then { d with hist := { h with enable := v.testBit 0 } }
    else
      let size := bitsOf v 4 1
      let h := { h with sizeLog2 := if 4 ≤ size ∧ size ≤ 15 then size else h.sizeLog2 }
      { d with hist := if v.testBit 0 then { h with enable := true, produced := 0, consumed := 0 } else h }) s)

/-- HIF_HIST_CONSUMED_WRITE (R341). -/
def execHifHistConsumedWrite (fn ctx : Fin 16) (value : Word) (s : State) : Host.Outcome State Fault Refusal :=
  if doorWritable s fn ctx then .next (modDoor ctx (fun d => { d with hist := { d.hist with consumed := value.toNat } }) s)
  else .next s

/-- HIF_SEM_WRITE (R337). -/
def execHifSemWrite (fn ctx : Fin 16) (sem : Fin 256) (value : Word) (s : State) : Host.Outcome State Fault Refusal :=
  if doorWritable s fn ctx then .next (settleAll (setSem ctx sem value s)) else .next s

/-- HIF_APERTURE_WRITE: accessible in Recovery as well (R323, R326). -/
def execHifApertureWrite (value : DWord) (s : State) : Host.Outcome State Fault Refusal :=
  if rcvOpen s then .next (setReg rHifAperture (value.toNat &&& 0xFFFFFFFF00000001) s) else .next s

/-! ## BAR2 (R323, R375, R422) -/

/-- Device address of a BAR2 offset (R323). -/
def apertureAddr (s : State) (off : Nat) : Nat := reg s rHifAperture / 2 ^ 32 * 2 ^ 32 + off

/-- Bytes that answer all ones. -/
def ones (n : Nat) : List Byte := List.replicate n 0xFF

/-- The sections of vendor data within the dump region (R420). -/
def dumpVendor (off : Nat) : Bool :=
  (decide (0x58000 ≤ off) && decide (off < 0x60000)) || (decide (0x100000 ≤ off) && decide (off < 0x200000))
    || (decide (0x200000 ≤ off) && decide (off < 0x2000000))

/-- A byte as BAR2 reads it: the dump's vendor sections are free values while its body is held, 0xFF in an uncorrectable codeword
as everywhere (R356, R420). -/
def bar2Byte (s : State) (a : Nat) : Byte :=
  if inDump a && s.rcv.dumpBody && dumpVendor (a - dumpBase) && !uncorrectable s.mem a then
    Config.vendorByte s.rcv.dumps (a - dumpBase)
  else memByte s.mem a

/-- BAR2 is open: its ENABLE bit is set, outside Booting (R323, R326). -/
def bar2Enabled (s : State) : Bool := rcvOpen s && regBit s rHifAperture 0

/-- BAR2_READ: device memory, all ones where disabled, unbacked or a closed dump, poisoned where a codeword is (R323, R356, R422). -/
def execBar2Read (off : BitVec 32) (len : Fin 4097) (s : State) : Host.Outcome State Fault Refusal :=
  let a := apertureAddr s off.toNat
  if !mainPower s then .next s
  else if !bar2Enabled s then .next (emit (.readData (ones len) false) (logBadAccess 0 off.toNat true false 2 s))
  else if !rangeBacked a len then .next (emit (.readData (ones len) false) (badAccess 0 off.toNat true false 3 s))
  else if (inDump a || inDump (a + len - 1)) && !regBit s rRcvDumpCtrl 0 then
    .next (emit (.readData (ones len) false) (badAccess 0 off.toNat true false 4 s))
  else
    let poison := (errorsIn s.mem a len).any (·.2)
    .next (noteRead ⟨7, 0, none⟩ a len (emit (.readData ((List.range len).map fun i => bar2Byte s (a + i)) poison) s))

/-- BAR2_WRITE: stored, or dropped where disabled, unbacked, in slice 95 or in the dump (R323, R375, R422). -/
def execBar2Write (off : BitVec 32) (bytes : List Byte) (s : State) : Host.Outcome State Fault Refusal :=
  let a := apertureAddr s off.toNat
  let last := a + bytes.length - 1
  if !mainPower s then .next s
  else if !bar2Enabled s then .next (logBadAccess 0 off.toNat true true 2 s)
  else if !rangeBacked a bytes.length then .next (badAccess 0 off.toNat true true 3 s)
  else if (decide (a < cupEnd) && decide (trimBase ≤ last)) then .next (badAccess 0 off.toNat true true 4 s)
  else if inDump a || inDump last then .next (logBadAccess 0 off.toNat true true 4 s)
  else .next (writeMem ⟨7, 0, none⟩ a bytes s)

/-- BAR0_BAD_ACCESS: a misaligned or wrong-width access is ignored, or reads all ones; it is counted and flagged (R324). At an offset
that does not answer in Booting or Recovery a read gives 0 and a write is ignored (R326). -/
def execBar0BadAccess (fn : Fin 16) (off : BitVec 26) (write : Bool) (s : State) : Host.Outcome State Fault Refusal :=
  if !mainPower s then .next s
  else if !bar0Answers s off.toNat then .next (if write then s else emit (.readData (zeros 8) false) s)
  else
    let s := badAccess fn off.toNat false write 1 s
    .next (if write then s else emit (.readData (ones 8) false) s)

/-! ## Functions (R320) -/

/-- Reset the contexts from `lo` to `hi`, in order; a larger reset that coincides includes them (R416). -/
def resetContexts (requester lo hi : Nat) (s : State) : State :=
  if resetIncluded s then s
  else ((List.range 16).filter fun c => decide (lo ≤ c) && decide (c ≤ hi)).foldl (fun s c => contextResetOf requester c s) s

/-- VF_ENABLE_SET: contexts 1 to v are reset, then bound to their virtual functions (R320). The configuration space answers while
main power is on. -/
def execVfEnableSet (v : Fin 16) (s : State) : Host.Outcome State Fault Refusal :=
  if mainPower s && s.vfs == 0 then .next { resetContexts 1 1 v s with vfs := v } else .next s

/-- VF_ENABLE_CLEAR: the contexts bound to virtual functions are reset, then bound to the physical function (R320). -/
def execVfEnableClear (s : State) : Host.Outcome State Fault Refusal :=
  if mainPower s then .next { resetContexts 1 1 s.vfs s with vfs := 0 } else .next s

/-- No vector of the functions that `fs` picks is masked or pending. -/
def clearVectors (fs : Nat → Bool) (s : State) : State :=
  { s with hif := { s.hif with
      masked := s.hif.masked.filter fun e => !fs (e.1 / 128), waiting := s.hif.waiting.filter fun e => !fs (e.1 / 128) } }

/-- Every ENABLE_VERSION of the capability list is 1 again (R346). -/
def resetVersions (s : State) : State := (List.range 4).foldl (fun s k => setReg (rCapNext k) (regReset (rCapNext k)) s) s

/-- FUNCTION_LEVEL_RESET: of virtual function k, a reset of CTXk; of the physical function, of every context bound to it,
with its configuration space, VF Enable included, and every ENABLE_VERSION (R320, R346). -/
def execFunctionLevelReset (fn : Fin 16) (s : State) : Host.Outcome State Fault Refusal :=
  if !mainPower s then .next s
  else if fn.val = 0 then .next (resetVersions (clearVectors (fun _ => true) { resetContexts 1 1 15 s with vfs := 0 }))
  else if fn.val ≤ s.vfs then .next (clearVectors (· == fn.val) (resetContexts 1 fn fn s))
  else .next s

/-- CONTEXT_RESET: HIF_CTX_CTRL.RESET of a context's own page (R414); a larger reset that coincides includes it (R416). -/
def execContextReset (fn ctx : Fin 16) (s : State) : Host.Outcome State Fault Refusal :=
  if doorBound s fn ctx && !resetIncluded s then .next (contextResetOf 0 ctx s) else .next s

/-! ## Fetch and copies (R336 to R338, R344) -/

/-- A context is in a lag stall, in which its fetch stops (R434, R110). -/
def lagStalled (s : State) (ctx : Nat) : Bool :=
  match (stepCtx s ctx).opened with
  | some o => o.wait == .lag
  | none => false

/-- Hutch may fetch the next descriptor of a ring (R338, R414, R434). -/
def mayFetch (s : State) (ctx ring : Nat) : Bool :=
  let q := ringOf s ctx ring
  inService s && ctx != 0 && q.enable && q.error == 0 && q.fetched != q.tail
    && decide ((door s ctx).inflight < reg s (rHifQuota ctx)) && decide (inflight s < 4096)
    && decide ((q.opened.filter fun d => !d.dispatched).length < 64)
    && !beginsHeld s && !lagStalled s ctx && !resetting s ctx

/-- Element of 0 to n − 1 that comes next after `last` in round robin among those that `ok` holds of. -/
def nextInTurn (n last : Nat) (ok : Nat → Bool) : Option Nat :=
  ((List.range n).map fun k => (last + 1 + k) % n).find? ok

/-- The context and the ring that fetch serves next, each in round robin (R338). -/
def fetchTurn (s : State) : Option (Nat × Nat) :=
  match nextInTurn 16 s.hif.served fun c => (List.range 8).any (mayFetch s c) with
  | some c => (nextInTurn 8 (door s c).served (mayFetch s c)).map fun r => (c, r)
  | none => none

/-- The place, among the context's TAIL writes, of the one that posted the descriptor fetched next from a ring. -/
def Ring.postOf (q : Ring) : Nat := (((q.posted.find? fun e => follows e.1 q.fetched).map (·.2)).getD 0)

/-- The step ring of a context is the one its first STEP_BEGIN was posted in: of those that come before one has been dispatched, the one
whose TAIL write came first (R217; DEDUCED, log entry 23). -/
def noteStepRing (ctx ring post : Nat) (bytes : List Byte) (s : State) : State :=
  if dOpcode bytes ≠ 0x11 ∨ dContext bytes ≠ ctx then s
  else modStepCtx ctx (fun x =>
    match x.ring, x.ringPost with
    | none, _ => { x with ring := some ring, ringPost := some post }
    | some _, some p => if post < p then { x with ring := some ring, ringPost := some post } else x
    | some _, none => x) s

/-- The new descriptor counts as fetched and in flight; HIF_INFLIGHT.PEAK follows (Table 10.13). A flush below an index that fetch has
reached is over. -/
def addDesc (ctx ring : Nat) (bytes : List Byte) (s : State) : State :=
  let post := (ringOf s ctx ring).postOf
  let s := modRing ctx ring (fun q => { q with
    posted := q.posted.filter fun e => follows e.1 ((q.fetched + 1) % 2 ^ 32)
    flush := q.flush.filter fun f => match f with | .below n _ => follows n q.fetched | .toEnd _ => true
    fetched := (q.fetched + 1) % 2 ^ 32, opened := q.opened ++ [{ idx := q.fetched, bytes := padTo 64 bytes }] }) s
  let s := noteStepRing ctx ring post bytes (bump cHifFetched 1 s)
  { s with cnt := tabMod 0 s.cnt cHifPeak fun p => if p.toNat < inflight s then BitVec.ofNat 64 (inflight s) else p }

/-- The read of a slot leaves, and the turn passes on (R330, R338). -/
def readSlot (ctx ring : Nat) (s : State) : State :=
  let q := ringOf s ctx ring
  modDoor ctx (fun d => { d with served := ring })
    (emit (.hostRead (functionOf s ctx) (q.base + 64 * (q.fetched % q.size)) 64) { s with hif := { s.hif with served := ctx } })

/-- DESCRIPTOR_FETCH: the slot whose turn it is is read, with the host's answer (R330, R332, R338). -/
def execDescriptorFetch (ctx : Fin 16) (ring : Fin 8) (reply : HostReply) (s : State) : Host.Outcome State Fault Refusal :=
  if fetchTurn s ≠ some (ctx.val, ring.val) then .next s
  else
    let s := readSlot ctx ring s
    match reply with
    | .data bytes => .next (settleAll (addDesc ctx ring bytes s))
    | other => .next (ringError ctx ring stHostFault
        { (({} : LogEntry).naming ⟨ctx, ring, (ringOf s ctx ring).fetched⟩) with detail := if other = .poisoned then 1 else 0 } s)

/-- HIF_NOP: success once dispatched (R335). -/
def execHifNop (ctx : Fin 16) (ring : Fin 8) (s : State) : Host.Outcome State Fault Refusal :=
  .next (dispatchOp ctx ring 0x01 (fun a s => complete a.ref 0 [] s) s)

/-- Two extents share a byte. -/
def overlap (a n b m : Nat) : Bool := decide (0 < n) && decide (0 < m) && decide (a < b + m) && decide (b < a + n)

/-- Validation of HIF_COPY, 0 where it passes (R344). -/
def copyStatus (s : State) (ctx : Nat) (j : CopyJob) : Nat :=
  if j.srcHost && j.dstHost then stCopyInvalid
  else if !j.srcHost && !j.dstHost && overlap j.src j.len j.dst j.len then stCopyInvalid
  else if (!j.srcHost && !permitted s ctx j.src j.len true false) || (!j.dstHost && !permitted s ctx j.dst j.len false true) then
    stLengthExceeds
  else 0

/-- The reads of host memory for a copy (R344). -/
def readSource (j : CopyJob) (s : State) : State :=
  if j.srcHost then hostReads (functionOf s j.ref.ctx) j.src j.len s else s

/-- HIF_COPY: validated, then started (R344). -/
def execHifCopy (ctx : Fin 16) (ring : Fin 8) (s : State) : Host.Outcome State Fault Refusal :=
  .next (dispatchOp ctx ring 0x03 (fun a s =>
    let b := a.bytes
    let j : CopyJob := { ref := a.ref, srcHost := (fieldAt b 16 1).testBit 0, dstHost := (fieldAt b 16 1).testBit 1,
                         len := fieldAt b 24 4, src := fieldAt b 32 8, dst := fieldAt b 40 8 }
    let st := copyStatus s ctx j
    if st ≠ 0 then reject a.ref st [] s
    else if j.len = 0 then complete a.ref 0 [] s
    else readSource j { s with copies := s.copies ++ [j] }) s)

/-- Move the bytes of a copy from device memory to the host, in writes of at most 512 bytes, those that hold an uncorrectable codeword
marked poisoned (R319, R356). -/
def copyOut (j : CopyJob) (s : State) : State :=
  let fn := functionOf s j.ref.ctx
  let ws := (List.range (ceilDiv j.len 512)).map fun i =>
    let a := j.src + 512 * i
    let n := min 512 (j.len - 512 * i)
    Out.hostWrite fn (j.dst + 512 * i) (readMem s a n) none ((errorsIn s.mem a n).any (·.2))
  noteRead ⟨7, 0, some j.ref⟩ j.src j.len { s with out := ws.reverse ++ s.out }

/-- Move the bytes of a copy within device memory. -/
def copyWithin (j : CopyJob) (s : State) : State :=
  writeMem ⟨7, 0, some j.ref⟩ j.dst (readMem s j.src j.len) (noteRead ⟨7, 0, some j.ref⟩ j.src j.len s)

/-- The copy of a context that has been reset stops at the end of the 4 KiB in progress, after `got` bytes (R414; DESIGN CHOICE, log
entry 201). -/
def CopyJob.stopped (j : CopyJob) (got : Nat) : CopyJob := { j with len := min j.len (got / 4096 * 4096 + 4096) }

/-- COPY_DONE: the copy of a ring's descriptor finishes. Of a read from the host, `got` bytes arrived before an error or
poisoned answer stopped it; they stay written (R344). One that a context reset dropped stops where it has come to and completes nothing
(R414). -/
def execCopyDone (ctx : Fin 16) (ring : Fin 8) (idx : Word) (got : List Byte) (reply : HostReply) (s : State) : Host.Outcome State Fault Refusal :=
  let r : DRef := ⟨ctx, ring, idx.toNat⟩
  match s.copies.find? (fun j => j.ref == r) with
  | none => .next s
  | some j =>
    let s := { s with copies := s.copies.filter fun k => k.ref != r }
    if j.dropped then
      let k := j.stopped got.length
      let moved :=
        if j.srcHost then
          let all := match reply with | .data bytes => padTo j.len (got ++ bytes) | _ => got
          writeMem ⟨7, 0, some r⟩ k.dst (all.take k.len) s
        else if j.dstHost then copyOut k s else copyWithin k s
      .next (endContextReset ctx moved)
    else if j.srcHost then
      match reply with
      | .data bytes =>
        let all := padTo j.len (got ++ bytes)
        .next (complete r 0 (leBytes 4 j.len) (writeMem ⟨7, 0, some r⟩ j.dst all s))
      | _ =>
        let part := got.take j.len
        .next (complete r stHostFault (leBytes 4 part.length) (writeMem ⟨7, 0, some r⟩ j.dst part s))
    else if j.dstHost then .next (complete r 0 (leBytes 4 j.len) (copyOut j s))
    else .next (complete r 0 (leBytes 4 j.len) (copyWithin j s))

end Sys2Proof.Machine
end

