-- ==== Sys2Proof/Machine/Scrub.lean ====
section
/-!
DEFINITION. The scrubbers (R362 to R365 of spec/11_memory_integrity.md).
-/
namespace Sys2Proof.Machine

/-- The range lies wholly within the backed addresses of one memory (R363). -/
def oneMemory (a n : Nat) : Bool := n == 0 || (rangeBacked a n && (decide (a + n ≤ cupEnd) || decide (hbmBase ≤ a)))

/-- Validation of MEM_SCRUB, 0 where it passes (R363). -/
def scrubStatus (s : State) (j : ScrubJob) : Nat :=
  if j.start % 64 ≠ 0 ∨ j.len % 64 ≠ 0 ∨ j.summary % 64 ≠ 0 ∨ !oneMemory j.start j.len then stFieldInvalid
  else if !permitted s j.ref.ctx j.start j.len true j.writeback || !permitted s j.ref.ctx j.summary 64 false true then stLengthExceeds
  else 0

/-- Bytes of a range that retired pages or blocks cover (R362). -/
def retiredBytes (m : MemBlk) (a n : Nat) : Nat :=
  if m.rtab.isEmpty then 0
  else
    let size := if a < hbmBase then 0x10000 else 0x200000
    let first := a / size
    ((List.range ((a + n - 1) / size + 1 - first)).map fun i =>
      let p := (first + i) * size
      if retired m p then min (p + size) (a + n) - max p a else 0).sum

/-- The memory as a scrub sees it: with the retirements in force at its acceptance (R366, R370). -/
def scrubMem (s : State) (j : ScrubJob) : MemBlk := { s.mem with rtab := j.rtab }

/-- The codewords in error that a scrub meets: those of the range outside the ranges retired at its acceptance. -/
def scrubErrors (s : State) (j : ScrubJob) (reached : Nat) : List (Nat × Bool) :=
  (errorsIn s.mem j.start reached).filter fun e => !retired (scrubMem s j) e.1

/-- Bytes of one codeword of the memory a scrubber reads (R355). -/
def scrubUnit (hbm : Bool) : Nat := if hbm then 32 else 8

/-- The 64-byte summary record (Table 11.3). -/
def scrubSummary (j : ScrubJob) (scanned skipped corrected bad : Nat) (firstUe : Option Nat) (tEnd : Nat) : List Byte :=
  leBytes 8 j.start ++ leBytes 8 scanned ++ leBytes 8 skipped ++ leBytes 8 corrected ++ leBytes 4 (stop32 bad) ++ leBytes 4 0
    ++ leBytes 8 (firstUe.getD (2 ^ 64 - 1)) ++ leBytes 8 j.tStart ++ leBytes 8 tEnd

/-- Jobs of one scrubber. -/
def scrubQueue (s : State) (hbm : Bool) : List ScrubJob := if hbm then s.mem.scrubHbm else s.mem.scrubCup

def setScrubQueue (hbm : Bool) (q : List ScrubJob) (s : State) : State :=
  { s with mem := if hbm then { s.mem with scrubHbm := q } else { s.mem with scrubCup := q } }

/-- End a scrub after `reached` bytes: correct, count, log, write the summary, complete (R362, R364). Its last read lies 10 ms before the
firing of its watchdog (R365; DEDUCED, log entry 207). -/
def endScrub (hbm watchdog : Bool) (j : ScrubJob) (reached : Nat) (s : State) : State :=
  let tEnd := if watchdog then max j.tStart (s.mod.devTime - 10000000) else s.mod.devTime
  let acc : Access := ⟨8, boolNat hbm, some j.ref⟩
  let errs := scrubErrors s j reached
  let skipped := retiredBytes (scrubMem s j) j.start reached
  let scanned := reached - skipped
  let good := errs.filter fun e => !e.2
  let bad := errs.filter fun e => e.2
  let s := errs.foldl (fun s e => noteError acc e.1 e.2 s) s
  let s := if j.writeback then { s with mem := { s.mem with errs := good.foldl (fun t e => tabSet none t e.1 none) s.mem.errs } } else s
  let s := bump cMemScrub scanned s
  let s := if bad.isEmpty then s else setFlag .mem 2 s
  let s := writeMem acc j.summary (scrubSummary j scanned skipped good.length bad.length (bad.head?.map (·.1)) tEnd) s
  let st := if watchdog then stWatchdog else if bad.isEmpty then 0 else stScrubUncorrectable
  let s := if watchdog then logEntry (({ code := stWatchdog, source := 8, engine := boolNat hbm } : LogEntry).naming j.ref) s else s
  let s := setScrubQueue hbm ((scrubQueue s hbm).filter fun k => k.ref != j.ref) s
  complete j.ref st (leBytes 4 (stop32 good.length) ++ leBytes 4 (stop32 bad.length) ++ leBytes 8 scanned) s

/-- The next job of a scrubber starts now: T_START is the device time of its first read. A job of LENGTH 0 has nothing to
read and ends as soon as it is at the head. -/
def startScrub (fuel : Nat) (hbm : Bool) (s : State) : State :=
  match fuel, scrubQueue s hbm with
  | n + 1, j :: js =>
    let j := { j with tStart := s.mod.devTime }
    let s := setScrubQueue hbm (j :: js) s
    if j.len = 0 then startScrub n hbm (endScrub hbm false j 0 s) else s
  | _, _ => s

/-- End the scrub at the head of its scrubber's queue, and start the next. -/
def finishScrub (hbm watchdog : Bool) (j : ScrubJob) (reached : Nat) (s : State) : State :=
  let s := endScrub hbm watchdog j reached s
  startScrub (scrubQueue s hbm).length hbm s

/-- MEM_SCRUB: validated and queued on its scrubber, which starts it at once if it has no other (R362, R363). -/
def execMemScrub (ctx : Fin 16) (ring : Fin 8) (s : State) : Host.Outcome State Fault Refusal :=
  .next (dispatchOp ctx ring 0x61 (fun a s =>
    let b := a.bytes
    let j : ScrubJob := ⟨a.ref, fieldAt b 32 8, fieldAt b 24 8, (fieldAt b 16 1).testBit 0, fieldAt b 40 8, s.mod.devTime, s.mem.rtab⟩
    let st := scrubStatus s j
    let hbm := decide (hbmBase ≤ j.start)
    if st ≠ 0 then reject a.ref st [] s
    else
      let idle := (scrubQueue s hbm).isEmpty
      let s := setScrubQueue hbm (scrubQueue s hbm ++ [j]) s
      if idle then startScrub 1 hbm s else s) s)

/-- SCRUB_DONE: the scrubber's job reaches the end of its range (R364). -/
def execScrubDone (hbm : Bool) (s : State) : Host.Outcome State Fault Refusal :=
  match scrubQueue s hbm with
  | j :: _ => .next (finishScrub hbm false j j.len s)
  | [] => .next s

/-- SCRUB_WATCHDOG: 10 ms without progress; the summary covers the bytes reached (R365). -/
def execScrubWatchdog (hbm : Bool) (reached : DWord) (s : State) : Host.Outcome State Fault Refusal :=
  match scrubQueue s hbm with
  | j :: _ => .next (finishScrub hbm true j (min j.len (reached.toNat / scrubUnit hbm * scrubUnit hbm)) s)
  | [] => .next s

end Sys2Proof.Machine
end

