-- ==== Sys2Proof/Machine/Trestle.lean ====
section
/-!
DEFINITION. Trestle: layouts, exact accumulation, overflow retry, the descriptor and its watchdog (R158 to R177 of
spec/05_trestle_matrix_engine.md; R154 to R156; R412 of spec/14_faults_and_recovery.md).
-/
namespace Sys2Proof.Machine

/-! ## The descriptor (Table 5.2) -/

def trsFmtA (b : List Byte) : Nat := bitsOf (fieldAt b 16 2) 3 0
def trsFmtB (b : List Byte) : Nat := bitsOf (fieldAt b 16 2) 7 4
def trsFmtC (b : List Byte) : Nat := bitsOf (fieldAt b 16 2) 11 8
def trsEngineOf (b : List Byte) : Nat := bitsOf (fieldAt b 16 2) 15 12
def trsRound (b : List Byte) : Nat := bitsOf (fieldAt b 18 1) 1 0
def trsSat (b : List Byte) : Bool := !(fieldAt b 18 1).testBit 2
def trsAccum (b : List Byte) : Bool := (fieldAt b 18 1).testBit 3
def trsRetryMax (b : List Byte) : Nat := bitsOf (fieldAt b 18 1) 5 4
def trsTransA (b : List Byte) : Bool := (fieldAt b 19 1).testBit 0
def trsTransB (b : List Byte) : Bool := (fieldAt b 19 1).testBit 1
def trsTileA (b : List Byte) : Bool := (fieldAt b 19 1).testBit 2
def trsTileB (b : List Byte) : Bool := (fieldAt b 19 1).testBit 3
def trsTileC (b : List Byte) : Bool := (fieldAt b 19 1).testBit 4
def trsScale (b : List Byte) : Int := signed 8 (fieldAt b 20 1)
def trsM (b : List Byte) : Nat := fieldAt b 22 2
def trsN (b : List Byte) : Nat := fieldAt b 24 2
def trsK (b : List Byte) : Nat := fieldAt b 26 2
def trsExtIndex (b : List Byte) : Nat := fieldAt b 34 2

/-- A matrix in memory: format, address, pitch in 16-byte units, tile order, stored rows and columns (R160, R161). -/
structure Stored where
  fmt : Nat
  addr : Nat
  pitch : Nat
  tiled : Bool
  rows : Nat
  cols : Nat
deriving DecidableEq, Repr

def storedA (b : List Byte) : Stored :=
  ⟨trsFmtA b, fieldAt b 40 8, fieldAt b 28 2, trsTileA b, if trsTransA b then trsK b else trsM b, if trsTransA b then trsM b else trsK b⟩
def storedB (b : List Byte) : Stored :=
  ⟨trsFmtB b, fieldAt b 48 8, fieldAt b 30 2, trsTileB b, if trsTransB b then trsN b else trsK b, if trsTransB b then trsK b else trsN b⟩
def storedC (b : List Byte) : Stored := ⟨trsFmtC b, fieldAt b 56 8, fieldAt b 32 2, trsTileC b, trsM b, trsN b⟩

/-- Bytes of one stored row. -/
def Stored.rowBytes (m : Stored) : Nat := if isMx m.fmt then mxRowBytes m.fmt m.cols else m.cols * elemBytes m.fmt

/-- Bytes from the first to the last that the layout addresses; whole tiles in tile order (R160). -/
def Stored.extent (m : Stored) : Nat :=
  if m.rows = 0 ∨ m.cols = 0 then 0
  else if m.tiled then ceilDiv m.rows 256 * ceilDiv m.cols 256 * 65536 * elemBytes m.fmt
  else (m.rows - 1) * 16 * m.pitch + m.rowBytes

/-- Address of element (x, y) of a scalar format (R160). -/
def Stored.elemAddr (m : Stored) (x y : Nat) : Nat :=
  let e := elemBytes m.fmt
  if m.tiled then m.addr + (x / 256 * ceilDiv m.cols 256 + y / 256) * 65536 * e + (x % 256 * 256 + y % 256) * e
  else m.addr + x * 16 * m.pitch + y * e

/-- The exact value of element (x, y) as stored (R163). -/
def Stored.value (m : Stored) (s : State) (x y : Nat) : XVal :=
  if isMx m.fmt then
    let row := m.addr + x * 16 * m.pitch
    mxDecode m.fmt (memByte s.mem (row + mxScaleOffset m.fmt y)).toNat
      (mxPick m.fmt y (memByte s.mem (row + mxElemOffset m.fmt y)).toNat)
  else scalarDecode m.fmt (readNat s (m.elemAddr x y) (elemBytes m.fmt))

/-- a_ik and b_kj under the transposing loads (R161). -/
def aValue (s : State) (b : List Byte) (i k : Nat) : XVal :=
  if trsTransA b then (storedA b).value s k i else (storedA b).value s i k
def bValue (s : State) (b : List Byte) (k j : Nat) : XVal :=
  if trsTransB b then (storedB b).value s j k else (storedB b).value s k j

/-- Output tiles across, and in all (R158). -/
def tilesAcross (b : List Byte) : Nat := ceilDiv (trsN b) 256
def tileCount (b : List Byte) : Nat := ceilDiv (trsM b) 256 * tilesAcross b

/-- The extension record is read (R173). -/
def extNeeded (b : List Byte) : Bool := trsRound b == 2 || (trsRetryMax b != 0 && !trsAccum b)
/-- A halving map is written (R171). -/
def mapWritten (b : List Byte) : Bool := trsRetryMax b != 0 && !trsAccum b
def extTensor (e : List Byte) : Nat := fieldAt e 0 4
def extPitch (e : List Byte) : Nat := fieldAt e 4 4
def extBase (e : List Byte) : Nat := fieldAt e 8 8
def extTranspose (e : List Byte) : Bool := (fieldAt e 16 1).testBit 0
def extHalve (e : List Byte) : Nat := fieldAt e 24 8

/-- Address of the extension record in context n's table (R173). -/
def extAddr (s : State) (ctx : Nat) (b : List Byte) : Nat := reg s (rTrsExtBase ctx) + 32 * trsExtIndex b

/-! ## Validation (Table 5.4) -/

/-- A linear operand with more than one stored row has rows no longer than its pitch. -/
def pitchTooSmall (m : Stored) : Bool := !m.tiled && decide (1 < m.rows) && decide (m.pitch * 16 < m.rowBytes)

def trsFormatsBad (b : List Byte) : Bool :=
  decide (8 < trsFmtA b) || decide (8 < trsFmtB b) || decide (6 < trsFmtC b) || ((trsFmtA b == 7) != (trsFmtB b == 7))

/-- Order 5. A linear operand, as the check of pitches speaks of one, is A, B or C (DESIGN CHOICE, log entry 195). -/
def trsLayoutBad (b : List Byte) : Bool :=
  let ms := [storedA b, storedB b, storedC b]
  ms.any (fun m => m.addr % 16 != 0 || (isMx m.fmt && m.tiled) || pitchTooSmall m) || (trsAccum b && trsFmtC b != 0)

/-- The first failing check, 0 where all pass. `ext` is the record as read (Table 5.4). -/
def trsStatus (s : State) (ctx : Nat) (b ext : List Byte) : Nat :=
  let a := storedA b
  let m := storedB b
  let c := storedC b
  let halve := if mapWritten b then tileCount b else 0
  if (reg s rTrsCtrl).testBit (16 + trsEngineOf b) then stEngineOff
  else if trsFormatsBad b then stFormatUnsupported
  else if trsRound b = 3 then stRoundingInvalid
  else if trsK b = 0 then stShapeInvalid
  else if trsLayoutBad b then stLayoutInvalid
  else if extNeeded b && decide (reg s (rTrsExtCount ctx) ≤ trsExtIndex b) then stExtInvalid
  else if !permitted s ctx a.addr a.extent true false || !permitted s ctx m.addr m.extent true false
      || !permitted s ctx c.addr c.extent (trsAccum b) true
      || (extNeeded b && !permitted s ctx (extAddr s ctx b) 32 true false)
      || !permitted s ctx (extHalve ext) halve false true then stLengthExceeds
  else if overlap c.addr c.extent a.addr a.extent || overlap c.addr c.extent m.addr m.extent
      || overlap c.addr c.extent (extHalve ext) halve || overlap (extHalve ext) halve a.addr a.extent
      || overlap (extHalve ext) halve m.addr m.extent then stOperandOverlap
  else 0

/-- The verdict comes from a check at or after the one that reads the extension record: order 7 or 8, or none. -/
def extRead (st : Nat) : Bool := st == 0 || st == stLengthExceeds || st == stOperandOverlap

/-! ## Arithmetic (R163 to R166) -/

/-- A sum in progress: the FP32 value, and whether it has overflowed from finite operands. -/
abbrev Acc := XVal × Bool

/-- Round to FP32 by nearest even, noting overflow (R137, R170). -/
def toFp32 (x : XVal) : Acc :=
  let c := fpEncode fpFp32 .nearest false x
  (fpDecode fpFp32 c.bits, c.flags.overflow)

/-- One product term at scale s (R163). -/
def trsTerm (s : State) (b : List Byte) (scale : Int) (i j k : Nat) : Acc :=
  toFp32 (((aValue s b i k).mul (bValue s b k j)).scale scale)

/-- One FP32 addition (R164). -/
def accAdd (a b : Acc) : Acc :=
  let r := toFp32 (a.1.add b.1)
  (r.1, a.2 || b.2 || r.2)

/-- One level of the pairwise tree. -/
def addPairs : List Acc → List Acc
  | a :: b :: t => accAdd a b :: addPairs t
  | t => t

/-- The fixed tree over a chunk of up to 32 terms: five levels. -/
def treeSum (t : List Acc) : List Acc := addPairs (addPairs (addPairs (addPairs (addPairs t))))

/-- The accumulation of element (i, j): chunks of 32 in ascending order (R164). -/
def trestleAcc (s : State) (b : List Byte) (scale : Int) (i j : Nat) : Acc :=
  let terms := (List.range (trsK b)).map (trsTerm s b scale i j)
  match (chunksOf 32 (trsK b) terms).flatMap treeSum with
  | [] => (.zero, false)
  | c :: cs => cs.foldl accAdd c

/-- The generator index of an output element (R166). -/
def trsIndex (ext : List Byte) (i j : Nat) : Nat :=
  (extBase ext + (if extTranspose ext then j * extPitch ext + i else i * extPitch ext + j)) % 2 ^ 64

/-- The rounding of an output element (R165, R166). -/
def trsRnd (step : Nat) (b ext : List Byte) (i j : Nat) : Rnd :=
  rndOf (trsRound b) step (extTensor ext) (trsIndex ext i j)

/-- One scalar output element: with ACCUM, the destination plus the sum, rounded once (R165). -/
def trsScalarOut (s : State) (step : Nat) (b ext : List Byte) (scale : Int) (i j : Nat) : ElemOut :=
  let a := trestleAcc s b scale i j
  let c := storedC b
  let x := if trsAccum b then (c.value s i j).add a.1 else a.1
  let ovf := a.2 && (!trsAccum b || (c.value s i j).isFinite)
  let r := sumEncode c.fmt (trsRnd step b ext i j) (trsSat b) ovf x
  ⟨r.bits, scalarDecode c.fmt r.bits, scalarSubnormal c.fmt r.bits, { r.flags with overflow := r.flags.overflow || a.2 }⟩

/-- The columns of a tile's row that lie in the shape. -/
def tileCols (b : List Byte) (q : Nat) : List Nat := (List.range (min 256 (trsN b - 256 * q))).map (256 * q + ·)
def tileRows (b : List Byte) (p : Nat) : List Nat := (List.range (min 256 (trsM b - 256 * p))).map (256 * p + ·)

/-- One block of 32 of an MX output, with the tree's overflows added to the elements' events (R128, R165). -/
def trsBlockOut (s : State) (step : Nat) (b ext : List Byte) (scale : Int) (i : Nat) (js : List Nat) : BlockOut :=
  let accs := js.map fun j => trestleAcc s b scale i j
  let blk := mxEncodeBlock (trsFmtC b) (fun t => trsRnd step b ext i (js.getD t 0)) (accs.map fun a => some a.1)
  { blk with elems := (blk.elems.zip accs).map fun e => { e.1 with flags := { e.1.flags with overflow := e.1.flags.overflow || e.2.2 } } }

/-- One row of an output tile: its blocks, one block of scalars for a scalar format. -/
def trsRowOut (s : State) (step : Nat) (b ext : List Byte) (scale : Int) (q i : Nat) : List BlockOut :=
  let js := tileCols b q
  if isMx (trsFmtC b) then (chunksOf 32 8 js).map (trsBlockOut s step b ext scale i)
  else [⟨0, js.map (trsScalarOut s step b ext scale i)⟩]

/-- The step number that keys a job's roundings. -/
def TrsJob.stepNow (j : TrsJob) (s : State) : Nat := j.step.getD (curStep s j.ref.ctx)

/-- One attempt at a tile: its rows (R170). -/
def trsAttempt (s : State) (j : TrsJob) : List (Nat × List BlockOut) :=
  let q := j.tile % tilesAcross j.bytes
  (tileRows j.bytes (j.tile / tilesAcross j.bytes)).map fun i =>
    (i, trsRowOut s (j.stepNow s) j.bytes j.ext (trsScale j.bytes - j.halvings) q i)

/-- The elements of an attempt. -/
def attemptElems (rows : List (Nat × List BlockOut)) : List ElemOut := rows.flatMap fun r => r.2.flatMap (·.elems)

/-! ## Writing a tile -/

/-- Bytes of scalar elements. -/
def scalarBytes (fmt : Nat) (es : List ElemOut) : List Byte := es.flatMap fun e => leBytes (elemBytes fmt) e.enc

/-- Element bytes of an MX block: nibbles in pairs for MXFP4 (R127). -/
def mxBytes (code : Nat) (es : List ElemOut) : List Byte :=
  if code = 7 then (chunksOf 2 es.length es).map fun p => BitVec.ofNat 8 ((p.map (·.enc)).getD 0 0 + 16 * (p.map (·.enc)).getD 1 0)
  else es.map fun e => BitVec.ofNat 8 e.enc

/-- Write one row of MX blocks; the last tile of a row also pads its group (R127). -/
def writeMxRow (acc : Access) (c : Stored) (q i : Nat) (blocks : List BlockOut) (s : State) : State :=
  let row := c.addr + i * 16 * c.pitch
  let base := 256 * q
  let full := fun (e : List ElemOut) => e ++ List.replicate (32 - e.length) ⟨0, .zero, false, {}⟩
  let s := (blocks.zip (List.range blocks.length)).foldl (fun s p =>
    let h := base + 32 * p.2
    writeMem acc (row + mxElemOffset c.fmt h) (mxBytes c.fmt (full p.1.elems))
      (writeMem acc (row + mxScaleOffset c.fmt h) [BitVec.ofNat 8 p.1.scale] s)) s
  if base + 256 < c.cols then s
  else
    let done := ceilDiv c.cols 32
    ((List.range (ceilDiv c.cols 512 * 16 - done)).map (done + ·)).foldl (fun s k =>
      writeMem acc (row + mxElemOffset c.fmt (32 * k)) (zeros 32)
        (writeMem acc (row + mxScaleOffset c.fmt (32 * k)) [0x7F] s)) s

/-- Write the rows of a tile in the layout of C; a tile in tile order is written whole (R160, R162). -/
def writeTile (acc : Access) (b : List Byte) (tile : Nat) (rows : List (Nat × List BlockOut)) (s : State) : State :=
  let c := storedC b
  let p := tile / tilesAcross b
  let q := tile % tilesAcross b
  let e := elemBytes c.fmt
  if isMx c.fmt then rows.foldl (fun s r => writeMxRow acc c q r.1 r.2 s) s
  else if c.tiled then
    (List.range 256).foldl (fun s a =>
      let bytes := match rows[a]? with
        | some r => scalarBytes c.fmt (r.2.flatMap (·.elems))
        | none => []
      writeMem acc (c.elemAddr (256 * p + a) (256 * q)) (padTo (256 * e) bytes) s) s
  else rows.foldl (fun s r => writeMem acc (c.elemAddr r.1 (256 * q)) (scalarBytes c.fmt (r.2.flatMap (·.elems))) s) s

/-- The bytes of elements y0 to y0 + ny − 1 of a stored MX row, within the row: their scale bytes and their element bytes, group by
group (R162, R193). -/
def mxRowRanges (code y0 ny : Nat) : List (Nat × Nat) :=
  if ny = 0 then []
  else
    let last := y0 + ny - 1
    (List.range (last / 512 + 1 - y0 / 512)).flatMap fun t =>
      let g := y0 / 512 + t
      let a := max y0 (512 * g)
      let z := min last (512 * g + 511)
      [(mxScaleOffset code a, mxScaleOffset code z + 1 - mxScaleOffset code a),
       (mxElemOffset code a, mxElemOffset code z + 1 - mxElemOffset code a)]

/-- The bytes of a stored matrix that rows xs and columns y0.. touch: those of elements inside the shape only (R162). -/
def Stored.ranges (m : Stored) (xs : List Nat) (y0 ny : Nat) : List (Nat × Nat) :=
  let e := elemBytes m.fmt
  if isMx m.fmt then xs.flatMap fun x => (mxRowRanges m.fmt y0 ny).map fun r => (m.addr + x * 16 * m.pitch + r.1, r.2)
  else if m.tiled then xs.flatMap fun x => (List.range ny).map fun t => (m.elemAddr x (y0 + t), e)
  else xs.map fun x => (m.elemAddr x y0, ny * e)

/-- Record the reads of a tile attempt (R356, R357). -/
def noteTileReads (acc : Access) (j : TrsJob) (s : State) : State :=
  if s.mem.errs.isEmpty then s
  else
    let b := j.bytes
    let p := j.tile / tilesAcross b
    let q := j.tile % tilesAcross b
    let is := tileRows b p
    let js := tileCols b q
    let ks := List.range (trsK b)
    let ra := if trsTransA b then (storedA b).ranges ks (256 * p) is.length else (storedA b).ranges is 0 (trsK b)
    let rb := if trsTransB b then (storedB b).ranges js 0 (trsK b) else (storedB b).ranges ks (256 * q) js.length
    let rc := if trsAccum b then (storedC b).ranges is (256 * q) js.length else []
    noteErrors acc (errorsAmong s.mem (ra ++ rb ++ rc)) s

/-! ## Execution (R170, R171, R175 to R177) -/

def trsEngine (s : State) (u : Nat) : TrsEngine := tabGet {} s.trs u

def modTrs (u : Nat) (f : TrsEngine → TrsEngine) (s : State) : State := { s with trs := tabMod {} s.trs u f }

/-- Bytes 16 to 31 of a Trestle completion (Table 5.5). -/
def trsTail (j : TrsJob) : List Byte :=
  leBytes 4 j.written ++ leBytes 4 j.retried ++ leBytes 4 j.exhausted ++ leBytes 1 j.largest ++ leBytes 1 (trsEngineOf j.bytes)

/-- Write a Trestle log entry for a descriptor. -/
def trsLog (j : TrsJob) (status action : Nat) (s : State) : State :=
  logEntry (({ code := status, source := 3, action := action, engine := trsEngineOf j.bytes } : LogEntry).naming j.ref) s

/-- The histogram record, the completion and the logging of a Trestle descriptor; none of one that a context reset dropped. LOG_EXHAUST and LOG_OVERFLOW speak of a
descriptor that completes with that status (R177, R357, Table 5.10). -/
def trsFinish (j : TrsJob) (status : Nat) (s : State) : State :=
  if j.dropped then s else
  let s := emitHist j.ref j.noHist 0 .trestle (trsEngineOf j.bytes) { j.hist with fmt := trsFmtC j.bytes } s
  let final := statusOut s j.ref status
  let s := if final = stRetryExhausted ∧ regBit s rTrsCtrl 0 then trsLog j status 0 s else s
  let s := if final = stOutputOverflow ∧ regBit s rTrsCtrl 1 then trsLog j status 0 s else s
  complete j.ref status (trsTail j) s

/-- The status of a finished descriptor (R156, R177). -/
def trsFinalStatus (j : TrsJob) : Nat :=
  if j.exhausted ≠ 0 then stRetryExhausted else if j.overflowed then stOutputOverflow else 0

/-- The head of an engine's queue begins. It ends at once where its shape is empty, and so does each such job behind it (R174, R175). -/
def settleTrs (fuel u : Nat) (s : State) : State :=
  match fuel, (trsEngine s u).queue with
  | n + 1, j :: js =>
    if tileCount j.bytes = 0 then settleTrs n u (trsFinish j 0 (modTrs u (fun e => { e with queue := js }) s)) else beginTrs u s
  | _, _ => s

/-- The head of an engine's queue leaves it with a status, and the next begins. -/
def popTrs (u : Nat) (j : TrsJob) (js : List TrsJob) (status : Nat) (s : State) : State :=
  noteStopped j.dropped j.ref (settleTrs js.length u (trsFinish j status (modTrs u (fun e => { e with queue := js }) s)))

/-- TRS_MATMUL: validated, then queued on its engine (R174, R175). An extension record read in validation counts as read, whatever
the verdict (R173, R360). -/
def execTrsMatmul (ctx : Fin 16) (ring : Fin 8) (s : State) : Host.Outcome State Fault Refusal :=
  .next (dispatchOp ctx ring 0x31 (fun a s =>
    let b := a.bytes
    let acc : Access := ⟨3, trsEngineOf b, some a.ref⟩
    let readExt := extNeeded b && decide (trsExtIndex b < reg s (rTrsExtCount ctx)) && permitted s ctx (extAddr s ctx b) 32 true false
    let ext := if readExt then readMem s (extAddr s ctx b) 32 else []
    let st := trsStatus s ctx b ext
    let s := if readExt && extRead st then noteRead acc (extAddr s ctx b) 32 s else s
    let j : TrsJob := { ref := a.ref, bytes := b, ext := ext, noHist := dNoHist b }
    if st ≠ 0 then reject a.ref st [] s
    else
      let idle := (trsEngine s (trsEngineOf b)).queue.isEmpty
      let s := modTrs (trsEngineOf b) (fun e => { e with queue := e.queue ++ [j] }) s
      if idle then settleTrs 1 (trsEngineOf b) s else s) s)

/-- What a job has become after the written attempt of a tile. -/
def trsAdvance (j : TrsJob) (elems : List ElemOut) (ov : Bool) : TrsJob :=
  let exh := ov && trsRetryMax j.bytes != 0 && !trsAccum j.bytes
  { j with
    tile := j.tile + 1, halvings := 0, written := j.written + 1
    retried := j.retried + boolNat (j.halvings != 0), exhausted := j.exhausted + boolNat exh
    largest := max j.largest j.halvings, overflowed := j.overflowed || ov
    hist := elems.foldl Hist.countElem j.hist }

/-- Counters and flags of a written tile (Table 5.8). -/
def trsCount (old : TrsJob) (elems : List ElemOut) (ov exh : Bool) (s : State) : State :=
  let s := bump cTrsTiles 1 s
  let s := if old.halvings ≠ 0 then bump cTrsRetry 1 s else s
  let s := if exh then setFlag .trs 1 (bump cTrsExhaust 1 s) else s
  let n := (elems.filter (·.flags.overflow)).length
  if ov then setFlag .trs 2 (bump cTrsOverflow n s) else s

/-- TRS_TILE_DONE: an attempt at the engine's current tile ends. An overflow within RETRY_MAX is retried at a scale lower
by 1 (TILE_RETRY); else the tile and its map byte are written, and the last tile completes the descriptor (R155, R170, R171). One that a
context reset dropped stops here (R414). -/
def execTrsTileDone (u : Fin 16) (s : State) : Host.Outcome State Fault Refusal :=
  match (trsEngine s u).queue with
  | [] => .next s
  | j :: js =>
    if tileCount j.bytes = 0 then .next (popTrs u j js 0 s) else
    let acc : Access := ⟨3, u, some j.ref⟩
    let rows := trsAttempt s j
    let elems := attemptElems rows
    let ov := elems.any (·.flags.overflow)
    let s := noteTileReads acc j s
    if ov && mapWritten j.bytes && decide (j.halvings < trsRetryMax j.bytes) then
      .next (modTrs u (fun e => { e with queue := { j with halvings := j.halvings + 1 } :: js }) s)
    else
      let exh := ov && mapWritten j.bytes
      let s := writeTile acc j.bytes j.tile rows s
      let s := if mapWritten j.bytes then
          writeMem acc (extHalve j.ext + j.tile) (leBytes 1 (j.halvings + 128 * boolNat exh)) s else s
      let s := trsCount j elems ov exh s
      let j' := trsAdvance j elems ov
      if j'.tile < tileCount j.bytes ∧ !j.dropped then .next (modTrs u (fun e => { e with queue := j' :: js }) s)
      else .next (popTrs u j' js (trsFinalStatus j') s)

/-- TRS_WATCHDOG: the descriptor stops with WATCHDOG and the counts reached, and the engine is reset (R176, R412). The counts are those of
written tiles: a tile that is being retried is in none of them (DESIGN CHOICE, log entry 196). A device-level reset that waits includes
this one (R416); a context reset that waits leaves the descriptor without a completion (Table 14.8). -/
def execTrsWatchdog (u : Fin 16) (s : State) : Host.Outcome State Fault Refusal :=
  match (trsEngine s u).queue with
  | [] => .next s
  | j :: js =>
    if resetWaits s then .next s else
    let s := yieldToReset s
    let now := s.mod.devTime
    let off := thirdReset (trsEngine s u).resets now && regBit s rRcvCtrl 0
    let s := modTrs u (fun e => { e with queue := js, resets := pushReset e.resets now }) s
    let s := trsLog j stWatchdog 3 (noteEngineReset (bump cTrsWdog 1 (setFlag .trs 0 s)))
    let s := if off then takeOutOfService rTrsCtrl (16 + u) 3 u s else s
    .next (noteStopped j.dropped j.ref (settleTrs js.length u (trsFinish j stWatchdog s)))

end Sys2Proof.Machine
end

