-- ==== Sys2Proof/Machine/DresserIsa.lean ====
section
/-!
DEFINITION. Dresser instructions: the fields of Table 6.2, the operand kinds and formats of Table 6.4, and the program
check (R185 to R187, Table 6.9 of spec/06_dresser_vector_engine.md).
-/
namespace Sys2Proof.Machine

/-! ## Fields (Table 6.2) -/

def wOp (w : DWord) : Nat := bitsOf w.toNat 63 56
def wRnd (w : DWord) : Nat := bitsOf w.toNat 55 54
def wSat (w : DWord) : Bool := !w.toNat.testBit 53
def wZero (w : DWord) : Bool := w.toNat.testBit 52
def wMsk (w : DWord) : Bool := w.toNat.testBit 51
def wMsel (w : DWord) : Nat := bitsOf w.toNat 50 48
def wFmt (w : DWord) : Nat := bitsOf w.toNat 47 44
def wFmt2 (w : DWord) : Nat := bitsOf w.toNat 43 40
def wD (w : DWord) : Nat := bitsOf w.toNat 39 35
def wA (w : DWord) : Nat := bitsOf w.toNat 34 30
def wB (w : DWord) : Nat := bitsOf w.toNat 29 25
def wC (w : DWord) : Nat := bitsOf w.toNat 24 20
def wImmU (w : DWord) : Nat := bitsOf w.toNat 19 0
def wImm (w : DWord) : Int := signed 20 (wImmU w)

/-- The kind of a register field (R186). -/
inductive RegKind
  | unused | scalar | tile | mask | pair
deriving DecidableEq, Repr

/-- What Table 6.4 says of an opcode: the kinds of D, A, B and C, the permitted FMT codes (`[0]` where it names no FMT, so
that FMT must be 0), and whether a mask is required. -/
structure OpInfo where
  d : RegKind := .unused
  a : RegKind := .unused
  b : RegKind := .unused
  c : RegKind := .unused
  fmts : List Nat := [0]
  needsMask : Bool := false
deriving DecidableEq, Repr

/-- Format classes F, P, I and X of Table 6.4. -/
def fmtsFPI : List Nat := [0, 1, 2, 3, 4, 12, 13]
def fmtsFP : List Nat := [0, 1, 2, 3, 4]
def fmtsFI : List Nat := [0, 12, 13]
def fmtsP : List Nat := [1, 2, 3, 4]
def fmtsX : List Nat := [5, 6, 7, 8]

/-- Table 6.4 by opcode; none where the table has no such opcode. -/
def opInfo (op : Nat) : Option OpInfo :=
  match op with
  | 0x00 => some {}
  | 0x01 => some {}
  | 0x02 => some { a := .scalar }
  | 0x03 => some { a := .scalar, b := .scalar, c := .scalar }
  | 0x04 => some {}
  | 0x05 | 0x06 | 0x07 | 0x08 => some { a := .scalar, b := .scalar }
  | 0x10 => some { d := .scalar }
  | 0x11 => some { d := .scalar, a := .scalar }
  | 0x12 | 0x13 | 0x14 | 0x15 | 0x16 | 0x17 => some { d := .scalar, a := .scalar, b := .scalar }
  | 0x18 | 0x19 | 0x1A => some { d := .scalar, a := .scalar }
  | 0x1B | 0x1C => some { d := .scalar, a := .scalar }
  | 0x1D => some { d := .scalar, a := .tile }
  | 0x20 => some { d := .tile, a := .scalar }
  | 0x21 => some { d := .tile, a := .tile }
  | 0x22 => some { d := .tile }
  | 0x28 | 0x2C => some { d := .tile, a := .scalar, b := .scalar, c := .scalar, fmts := fmtsFPI }
  | 0x29 => some { d := .tile, a := .scalar, b := .scalar, c := .scalar, fmts := [0, 1, 2, 3, 4, 10] }
  | 0x2A | 0x2E => some { d := .tile, a := .scalar, b := .scalar, c := .scalar, fmts := fmtsX }
  | 0x2B | 0x30 => some { d := .tile, a := .scalar }
  | 0x2D => some { d := .tile, a := .scalar, b := .scalar, c := .scalar, fmts := fmtsP }
  | 0x2F => some { d := .tile, a := .scalar, b := .scalar }
  | 0x31 | 0x32 => some { d := .pair, a := .scalar, b := .scalar, c := .scalar }
  | 0x33 | 0x34 => some { d := .mask, a := .scalar }
  | 0x40 | 0x41 | 0x42 => some { d := .tile, a := .tile, b := .tile, fmts := fmtsFPI }
  | 0x43 => some { d := .tile, a := .tile, b := .tile, c := .tile, fmts := fmtsFP }
  | 0x44 | 0x45 => some { d := .tile, a := .tile, b := .tile, fmts := fmtsFPI }
  | 0x46 | 0x47 => some { d := .tile, a := .tile, fmts := fmtsFPI }
  | 0x48 => some { d := .tile, a := .tile, b := .tile }
  | 0x49 | 0x4A | 0x4B | 0x4C | 0x4D => some { d := .tile, a := .tile }
  | 0x50 | 0x51 | 0x52 => some { d := .tile, a := .tile, b := .tile }
  | 0x53 | 0x54 | 0x55 => some { d := .tile, a := .tile }
  | 0x58 => some { d := .tile, a := .tile, fmts := fmtsFI }
  | 0x59 => some { d := .tile, a := .tile, fmts := fmtsP }
  | 0x5A | 0x5B => some { d := .tile, a := .tile, fmts := fmtsP }
  | 0x60 => some { d := .mask, a := .tile, b := .tile, fmts := fmtsFI }
  | 0x61 => some { d := .tile, a := .tile, b := .tile, needsMask := true }
  | 0x62 | 0x63 | 0x64 => some { d := .mask, a := .mask, b := .mask }
  | 0x65 => some { d := .mask, a := .mask }
  | 0x66 => some { d := .mask }
  | 0x67 => some { d := .scalar, a := .mask }
  | 0x68 => some { d := .tile, a := .tile, b := .tile }
  | 0x69 | 0x6A => some { d := .tile, a := .tile }
  | 0x6B => some { d := .tile, a := .tile, b := .scalar, needsMask := true }
  | 0x6C => some { d := .tile, a := .tile, needsMask := true }
  | 0x70 | 0x71 | 0x72 => some { d := .scalar, a := .tile, fmts := fmtsFI }
  | 0x73 | 0x74 => some { d := .scalar, a := .tile, c := .scalar, fmts := fmtsFI }
  | 0x75 | 0x76 | 0x77 => some { d := .tile, a := .tile, fmts := fmtsFI }
  | 0x78 => some { d := .pair, a := .pair, b := .tile, c := .tile }
  | 0x79 => some { d := .tile, a := .pair }
  | 0x7A => some { d := .pair, a := .tile }
  | _ => none

/-- A register field breaks R186: bit 4 of an S field, bits [4:3] of an M field, an odd P field. -/
def fieldBad (k : RegKind) (f : Nat) : Bool :=
  match k with
  | .scalar => decide (16 ≤ f)
  | .mask => decide (8 ≤ f)
  | .pair => f % 2 == 1
  | _ => false

/-- Sub-elements per lane of a format (R183). -/
def subCount (fmt : Nat) : Nat :=
  match fmt with
  | 1 => 2 | 2 => 2 | 3 => 4 | 4 => 4 | _ => 1

/-- The stored format of a store, for its stream (R187, R211). -/
def storeFmt (w : DWord) : Option Nat :=
  match wOp w with
  | 0x2C => some (wFmt w) | 0x2D => some (wFmt w) | 0x2E => some (wFmt w)
  | 0x2F => some 9 | 0x30 => some 14 | 0x32 => some 11
  | _ => none

def isBranch (op : Nat) : Bool := decide (4 ≤ op) && decide (op ≤ 8)

/-- A branch target lies outside 0 to PROG_LEN − 1. -/
def branchBad (len idx : Nat) (w : DWord) : Bool :=
  isBranch (wOp w) && (decide ((idx : Int) + wImm w < 0) || decide ((len : Int) ≤ (idx : Int) + wImm w))

/-- The store clashes with an earlier one of its stream (R187). -/
def streamClash (earlier : List DWord) (w : DWord) : Bool :=
  match storeFmt w with
  | none => false
  | some f => earlier.any fun v => wFmt2 v == wFmt2 w && (match storeFmt v with | some g => g != f | none => false)

/-- The status of one instruction under orders 4 to 6 of Table 6.9, 0 where it passes. -/
def instrStatus (len idx : Nat) (earlier : List DWord) (w : DWord) : Nat :=
  match opInfo (wOp w) with
  | none => stIllegalInstr
  | some o =>
    if fieldBad o.d (wD w) || fieldBad o.a (wA w) || fieldBad o.b (wB w) || fieldBad o.c (wC w)
        || ((wOp w == 0x5A || wOp w == 0x5B) && decide (subCount (wFmt w) ≤ wImmU w % 4) && o.fmts.contains (wFmt w))
        || ((wOp w == 0x4C || wOp w == 0x4D) && wRnd w != 0)
        || branchBad len idx w || (o.needsMask && !wMsk w) || streamClash earlier w then stIllegalInstr
    else if wRnd w = 3 then stRoundingInvalid
    else if !o.fmts.contains (wFmt w) || (wOp w == 0x58 && !fmtsFI.contains (wFmt2 w)) then stFormatUnsupported
    else 0

/-- The first faulty instruction of a program in index order, with its status (R187, R207). -/
def programFault (prog : List DWord) : Option (Nat × Nat) :=
  (List.range prog.length).findSome? fun i =>
    let st := instrStatus prog.length i (prog.take i) (prog.getD i 0)
    if st = 0 then none else some (i, st)

/-! ## The launch descriptor (Table 6.8) -/

def drsUnitOf (b : List Byte) : Nat := bitsOf (fieldAt b 16 1) 5 0
def drsReuse (b : List Byte) : Bool := (fieldAt b 17 1).testBit 0
def drsLimit (s : State) (b : List Byte) : Nat :=
  if fieldAt b 20 4 = 0 then reg s rDrsIlimitDefault else fieldAt b 20 4
def drsProgLen (b : List Byte) : Nat := fieldAt b 24 2
def drsProgAddr (b : List Byte) : Nat := fieldAt b 32 8
def drsArgAddr (b : List Byte) : Nat := fieldAt b 40 8

/-- Orders 1 to 3 of Table 6.9, 0 where they pass. -/
def launchStatus (s : State) (ctx : Nat) (b : List Byte) : Nat :=
  if (reg s rDrsUnitOff).testBit (drsUnitOf b) then stUnitOff
  else if drsProgLen b = 0 ∨ 8192 < drsProgLen b ∨ drsProgAddr b % 8 ≠ 0 ∨ drsArgAddr b % 8 ≠ 0 then stProgramInvalid
  else if !permitted s ctx (drsProgAddr b) (8 * drsProgLen b) true false || !permitted s ctx (drsArgAddr b) 128 true false then
    stLengthExceeds
  else 0

end Sys2Proof.Machine
end

