-- ==== Sys2Proof/Machine/DresserRun.lean ====
section
/-!
DEFINITION. Running a Dresser program: launch, fetch, the instruction harness, watchdogs and completion (R184, R197,
R202 to R213 of spec/06_dresser_vector_engine.md).
-/
namespace Sys2Proof.Machine

/-! ## Units -/

def drsUnit (s : State) (u : Nat) : DrsUnit := tabGet {} s.drs u

def modDrs (u : Nat) (f : DrsUnit → DrsUnit) (s : State) : State := { s with drs := tabMod {} s.drs u f }

/-- Bytes 16 to 31 of a Dresser completion (Table 6.10). Bytes 30 and 31 show every stream that an executed store has named, whether or
not its record found room (R213, R341; DESIGN CHOICE, log entry 197). -/
def drsTail (r : DrsRun) (unit reason fault : Nat) : List Byte :=
  let flags := boolNat r.empty + 2 * boolNat r.permRange + 4 * boolNat r.events.overflow
    + 8 * boolNat r.events.clamped + 16 * boolNat r.events.replaced
  let streams := (r.streams.filter (·.2.isSome)).foldl (fun m e => m ||| 2 ^ e.1) 0
  leBytes 4 r.executed ++ leBytes 2 r.lastIdx ++ leBytes 1 flags ++ leBytes 1 reason ++ leBytes 4 fault
    ++ leBytes 1 unit ++ leBytes 1 0 ++ leBytes 2 streams

/-- Write a Dresser log entry for a launch. -/
def drsLog (j : DrsJob) (unit status action : Nat) (s : State) : State :=
  logEntry (({ code := status, source := 4, action := action, engine := unit } : LogEntry).naming j.ref) s

/-- The start state of a launch: registers as R184 states, the scalars from the argument block, then ARG values. -/
def newRun (s : State) (j : DrsJob) : DrsRun :=
  let args := (List.range 16).map fun i => BitVec.ofNat 64 (readNat s (drsArgAddr j.bytes + 8 * i) 8)
  { started := true, limit := drsLimit s j.bytes, s := j.args.foldl (fun t a => tabSet 0 t a.1 a.2) (tabSetList 0 [] 0 args) }

/-- The unit holds the checked program of this launch (R206). -/
def reuses (n : DrsUnit) (j : DrsJob) : Bool :=
  drsReuse j.bytes && (match n.held with
    | some h => h.ctx == j.ref.ctx && h.addr == drsProgAddr j.bytes && h.len == drsProgLen j.bytes
    | none => false)

/-- Start executing the launch at the head of a unit's queue (R205). -/
def startLaunch (u : Nat) (s : State) : State :=
  match (drsUnit s u).queue with
  | [] => s
  | j :: _ =>
    let s := noteRead ⟨4, u, some j.ref⟩ (drsArgAddr j.bytes) 128 s
    modDrs u (fun n => { n with run := newRun s j }) s

/-- The launch at the head of the queue begins: with the held copy it starts at once, else its program is fetched (R206). -/
def beginLaunch (u : Nat) (s : State) : State :=
  match (drsUnit s u).queue with
  | [] => s
  | j :: _ => if reuses (drsUnit s u) j then startLaunch u s else modDrs u (fun n => { n with run := {} }) s

/-- Drop the launch at the head of a unit's queue; the next begins. A launch that ends before its program has been checked leaves no
copy behind (R206). -/
def nextLaunch (u : Nat) (s : State) : State :=
  beginLaunch u (modDrs u (fun n => { n with
    queue := n.queue.drop 1, run := {}, held := if n.run.started then n.held else none }) s)

/-- The status of a program that stopped (R212). -/
def drsStatus (r : DrsRun) (watchdog fault : Bool) : Nat :=
  if watchdog then stWatchdog else if fault then stAccessFault
  else if r.events.overflow then stOutputOverflow else if r.permRange then stPermRange else 0

/-- End the launch of a unit: its histogram records by stream, its completion, and the next launch (R211 to R213). -/
def endLaunch (u : Nat) (watchdog fault : Bool) (reason faultAddr : Nat) (s : State) : State :=
  match (drsUnit s u).queue with
  | [] => s
  | j :: _ =>
    let r := (drsUnit s u).run
    let st := drsStatus r watchdog fault
    let s := r.streams.foldl (fun s e => match e.2 with
      | some h => emitHist j.ref j.noHist e.1 .dresser u h s
      | none => s) s
    let s := bump cDrsLaunches 1 s
    let out := statusOut s j.ref st
    let s := if out = stOutputOverflow ∧ regBit s rDrsCtrl 0 then drsLog j u st 0 s else s
    let s := if out = stPermRange ∧ regBit s rDrsCtrl 1 then drsLog j u st 0 s else s
    nextLaunch u (complete j.ref st (drsTail r u reason (faultAddr % 2 ^ 32)) s)

/-- DRS_LAUNCH: orders 1 to 3, then the unit's queue; an idle unit begins at once (R205 to R208). -/
def execDrsLaunch (ctx : Fin 16) (ring : Fin 8) (s : State) : Host.Outcome State Fault Refusal :=
  .next (dispatchOp ctx ring 0x41 (fun a s =>
    let u := drsUnitOf a.bytes
    let st := launchStatus s ctx a.bytes
    if st ≠ 0 then reject a.ref st (drsTail {} u 0 0) s
    else
      let idle := (drsUnit s u).queue.isEmpty
      let s := modDrs u (fun n => { n with queue := n.queue ++ [⟨a.ref, a.bytes, dNoHist a.bytes, a.args⟩] }) s
      if idle then beginLaunch u s else s) s)

/-- DRS_PROGRAM_FETCHED: the whole program is checked; the launch is rejected at its first faulty instruction, or starts
(R187, R207). -/
def execDrsProgramFetched (u : Fin 64) (s : State) : Host.Outcome State Fault Refusal :=
  let n := drsUnit s u
  match n.queue with
  | [] => .next s
  | j :: _ =>
    if n.run.started then .next s
    else
      let len := drsProgLen j.bytes
      let prog := (List.range len).map fun i => BitVec.ofNat 64 (readNat s (drsProgAddr j.bytes + 8 * i) 8)
      let s := noteRead ⟨4, u, some j.ref⟩ (drsProgAddr j.bytes) (8 * len) s
      match programFault prog with
      | some (i, st) =>
        let s := modDrs u (fun n => { n with held := none }) s
        .next (nextLaunch u (reject j.ref st (drsTail { lastIdx := i } u 0 0) s))
      | none =>
        .next (startLaunch u (modDrs u (fun n => { n with held := some ⟨j.ref.ctx, drsProgAddr j.bytes, len, prog⟩ }) s))

/-- DRS_TIME_WATCHDOG: WATCHDOG with reason 1, and the unit is reset (R209, R412). A device-level reset that waits includes this one
(R416); a unit whose launch a context reset dropped in this nanosecond has been reset with it (Table 14.8). -/
def execDrsTimeWatchdog (u : Fin 64) (s : State) : Host.Outcome State Fault Refusal :=
  let n := drsUnit s u
  match n.queue with
  | [] => .next s
  | j :: _ =>
    if resetWaits s || n.resets.head? == some s.mod.devTime then .next s
    else .next (endLaunch u true false 1 0 (drsReset u j (yieldToReset s)))

/-- The next instruction would exceed the limit that the launch took when it started (R209, R409). -/
def atLimit (r : DrsRun) : Bool := decide (r.limit ≤ r.executed)

/-- DRS_INSTR_LIMIT: WATCHDOG with reason 2; the unit is not reset (R209). -/
def execDrsInstrLimit (u : Fin 64) (s : State) : Host.Outcome State Fault Refusal :=
  let n := drsUnit s u
  match n.queue with
  | [] => .next s
  | j :: _ =>
    if n.run.started && atLimit n.run then
      .next (endLaunch u true false 2 0 (drsLog j u stWatchdog 0 (bump cDrsIlimit 1 (setFlag .drs 1 s))))
    else .next s

/-! ## Registers -/

/-- A tile of zeros. -/
def zeroTile : List Word := List.replicate 256 0

def rT (r : DrsRun) (n : Nat) : List Word := tabGet zeroTile r.tiles n
def rS (r : DrsRun) (n : Nat) : DWord := tabGet 0 r.s (n % 16)
def rM (r : DrsRun) (n : Nat) : BitVec 256 := tabGet 0 r.m (n % 8)
def lane (t : List Word) (i : Nat) : Word := t.getD i 0
def setT (n : Nat) (t : List Word) (r : DrsRun) : DrsRun := { r with tiles := tabSet zeroTile r.tiles n t }
def setS (n : Nat) (v : DWord) (r : DrsRun) : DrsRun := { r with s := tabSet 0 r.s (n % 16) v }
def setM (n : Nat) (v : BitVec 256) (r : DrsRun) : DrsRun := { r with m := tabSet 0 r.m (n % 8) v }

/-- Lane i is present: i < VL (R182). -/
def present (r : DrsRun) (i : Nat) : Bool := decide (i < r.vl)

/-- Bit i of the mask register that MSEL names. -/
def maskBit (r : DrsRun) (w : DWord) (i : Nat) : Bool := (rM r (wMsel w)).getLsbD i

/-- Lane i is active: present, and under MSK selected by the mask (R182). -/
def active (r : DrsRun) (w : DWord) (i : Nat) : Bool := present r i && (!wMsk w || maskBit r w i)

/-- The active lanes in rising order. -/
def activeLanes (r : DrsRun) (w : DWord) : List Nat := (List.range 256).filter (active r w)

/-- A destination tile: `f` in the lanes `sel` selects, zero or the old value in the others as ZERO says (R182). -/
def mergeLanes (w : DWord) (old : List Word) (sel : Nat → Bool) (f : Nat → Word) : List Word :=
  (List.range 256).map fun i => if sel i then f i else if wZero w then 0 else lane old i

/-- A destination mask, likewise by bits (R182). -/
def mergeBits (w : DWord) (old : BitVec 256) (sel f : Nat → Bool) : BitVec 256 :=
  (List.range 256).foldl (fun m i => if (if sel i then f i else if wZero w then false else old.getLsbD i) then m ||| (1 : BitVec 256) <<< i else m) 0

/-- Bits of the events that a set of elements had. -/
def addEvents (fl : ElemFlags) (r : DrsRun) : DrsRun := { r with events := r.events.or fl }

/-- The generator index of sub-element p of a lane, q sub-elements to a lane (R203). -/
def laneIndex (r : DrsRun) (q p i : Nat) : Nat :=
  (r.key.base.toNat + i / 16 * r.key.pitch.toNat + i % 16 * q + p) % 2 ^ 64

/-! ## The instruction harness -/

/-- What an instruction computes from. -/
structure InsnCtx where
  s : State
  unit : Nat
  ref : DRef
  w : DWord

/-- The rounding of an element at a generator index. -/
def InsnCtx.rnd (c : InsnCtx) (r : DrsRun) (index : Nat) : Rnd :=
  rndOf (wRnd c.w) (curStep c.s c.ref.ctx) r.key.tensor.toNat index

/-- What an instruction does: its registers, a branch, its memory accesses, or the address at which it faults. -/
structure InsnOut where
  run : DrsRun
  target : Option Nat := none
  reads : List (Nat × Nat) := []
  writes : List (Nat × List Byte) := []
  /-- M40 values stored, by address: they feed the master digest (R276). -/
  masters : List (Nat × Nat) := []
  fault : Option Nat := none
  /-- Permutation lanes out of range, and whether a reduction was empty. -/
  permLanes : Nat := 0
  emptied : Bool := false

/-- A register that an outstanding load writes: kind and number. -/
def LoadDest.blocks (l : LoadDest) (k : RegKind) (n : Nat) : Bool :=
  match l, k with
  | .tile d _, .tile => d == n
  | .tile d _, .pair => d == n || d == n + 1
  | .pair d _ _, .tile => n == d || n == d + 1
  | .pair d _ _, .pair => n == d
  | .scalar d _, .scalar => d == n % 16
  | .mask d _, .mask => d == n % 8
  | _, _ => false

/-- The instruction waits for an outstanding load of a register that it reads or writes, or for room for its own load (R204). -/
def mustWait (r : DrsRun) (w : DWord) : Bool :=
  match opInfo (wOp w) with
  | none => false
  | some o =>
    (r.loads.any fun l => l.blocks o.d (wD w) || l.blocks o.a (wA w) || l.blocks o.b (wB w) || l.blocks o.c (wC w)
      || (wMsk w && l.blocks .mask (wMsel w)))
    || (decide (16 ≤ r.loads.length) && [0x1B, 0x28, 0x29, 0x2A, 0x2B, 0x31, 0x33].contains (wOp w))

/-- The instruction a unit would execute next, when it may: the launch runs, the limit is not reached, no register is awaited. -/
def nextInsn (s : State) (u : Nat) : Option (DrsJob × DWord) :=
  let n := drsUnit s u
  match n.queue, n.held with
  | j :: _, some h =>
    match h.prog[n.run.pc]? with
    | some w => if n.run.started && !atLimit n.run && !mustWait n.run w then some (j, w) else none
    | none => none
  | _, _ => none

/-- Lane values stored as M40 add to the digest of the open step, where they lie in the master window (R276). -/
def digestMaster (ctx addr v : Nat) (s : State) : State :=
  let base := reg s (rRdxMasterBase ctx)
  let i := (addr - base) / 5
  if base ≤ addr ∧ addr + 5 ≤ base + reg s (rRdxMasterLen ctx) then
    modOpen ctx (fun o => if o.mode = 4 then o else { o with
      digest := (List.range 4).map fun j =>
        o.digest.getD j 0 + srMix (srMix (BitVec.ofNat 64 (4 * i + j)) ^^^ BitVec.ofNat 64 v) }) s
  else s

/-- ACCESS_FAULT_STOP: the program stops at the faulting instruction (R210). -/
def accessFault (u : Nat) (j : DrsJob) (addr : Nat) (s : State) : State :=
  let s := modDrs u (fun n => { n with run := { n.run with lastIdx := n.run.pc } }) s
  endLaunch u false true 0 addr (drsLog j u stAccessFault 0 (bump cDrsFaults 1 (setFlag .drs 2 s)))

/-- The memory accesses, flags and counters of an executed instruction. -/
def applyInsn (u : Nat) (j : DrsJob) (o : InsnOut) (s : State) : State :=
  let acc : Access := ⟨4, u, some j.ref⟩
  let s := o.reads.foldl (fun s a => noteRead acc a.1 a.2 s) s
  let s := o.writes.foldl (fun s a => writeMem acc a.1 a.2 s) s
  let s := o.masters.foldl (fun s m => digestMaster j.ref.ctx m.1 m.2 s) s
  let s := bump cDrsInstr 1 s
  let s := if o.permLanes ≠ 0 then setFlag .drs 4 (bump cDrsPerm o.permLanes s) else s
  if o.emptied then setFlag .drs 5 (bump cDrsEmpty 1 s) else s

/-- Execute the next instruction of a unit if its opcode is `op`; reaching PROG_LEN ends the program (R187, R204, R210). -/
def drsStep (op u : Nat) (body : InsnCtx → DrsRun → InsnOut) (s : State) : State :=
  match nextInsn s u with
  | none => s
  | some (j, w) =>
    if wOp w ≠ op then s
    else
      let r := (drsUnit s u).run
      let o := body ⟨s, u, j.ref, w⟩ { r with events := {} }
      match o.fault with
      | some a => accessFault u j a s
      | none =>
        let run := { o.run with
          events := r.events.or o.run.events, executed := r.executed + 1, lastIdx := r.pc, pc := o.target.getD (r.pc + 1)
          permRange := o.run.permRange || o.permLanes != 0, empty := o.run.empty || o.emptied }
        let s := applyInsn u j o s
        let s := if o.run.events.overflow then setFlag .drs 3 s else s
        let s := modDrs u (fun n => { n with run := run }) s
        if run.pc ≥ drsProgLen j.bytes then endLaunch u false false 0 0 s else s

/-- DRS_LOAD_RETURN: the oldest outstanding load of a unit delivers its data (R204). -/
def execDrsLoadReturn (u : Fin 64) (s : State) : Host.Outcome State Fault Refusal :=
  .next (modDrs u (fun n =>
    match n.run.loads with
    | [] => n
    | l :: ls =>
      let r := { n.run with loads := ls }
      { n with run := match l with
        | .tile d t => setT d t r
        | .pair d hi lo => setT d hi (setT (d + 1) lo r)
        | .scalar d v => setS d v r
        | .mask d v => setM d v r }) s)

end Sys2Proof.Machine
end

