-- ==== Sys2Proof/Machine/DresserLanes.lean ====
section
/-!
DEFINITION. Dresser lane instructions: moves, arithmetic, bitwise operations, conversions and comparison (R188 to R191,
Tables 6.4 and 6.5 of spec/06_dresser_vector_engine.md).
-/
namespace Sys2Proof.Machine

/-! ## Lanes and sub-elements (R183) -/

/-- Sub-element p of a lane of q sub-elements. -/
def subOf (q p : Nat) (v : Word) : Nat := v.toNat / 2 ^ (32 / q * p) % 2 ^ (32 / q)

/-- A lane made of sub-elements. -/
def joinSubs (q : Nat) (xs : List Nat) : Word := BitVec.ofNat 32 (xs.foldr (fun x acc => x + 2 ^ (32 / q) * acc) 0)

/-- A tile result in the active lanes; the others follow ZERO. -/
def tileTo (f : DrsRun → DWord → Nat → Word) (c : InsnCtx) (r : DrsRun) : InsnOut :=
  { run := setT (wD c.w) (mergeLanes c.w (rT r (wD c.w)) (active r c.w) (f r c.w)) r }

/-- A tile result whose elements carry events: sub-element p of lane i is `f i p`, q to a lane. -/
def codedTo (q : Nat) (f : Nat → Nat → Coded) (c : InsnCtx) (r : DrsRun) : InsnOut :=
  let fl := (activeLanes r c.w).foldl (fun a i => (List.range q).foldl (fun a p => a.or (f i p).flags) a) {}
  let t := mergeLanes c.w (rT r (wD c.w)) (active r c.w) fun i => joinSubs q ((List.range q).map fun p => (f i p).bits)
  { run := addEvents fl (setT (wD c.w) t r) }

/-- The value of sub-element p of lane i of a tile, in the instruction's format. -/
def elemVal (c : InsnCtx) (t : List Word) (i p : Nat) : XVal :=
  scalarDecode (wFmt c.w) (subOf (subCount (wFmt c.w)) p (lane t i))

/-- An element-wise operation in the instruction's format: an exact value per sub-element, rounded once under RND and OVF. -/
def arith (f : InsnCtx → DrsRun → Nat → Nat → XVal) (c : InsnCtx) (r : DrsRun) : InsnOut :=
  let q := subCount (wFmt c.w)
  codedTo q (fun i p => scalarEncode (wFmt c.w) (c.rnd r (laneIndex r q p i)) (wSat c.w) (f c r i p)) c r

/-- An operation of T[A]. -/
def arith1 (f : XVal → XVal) : InsnCtx → DrsRun → InsnOut := arith fun c r i p => f (elemVal c (rT r (wA c.w)) i p)

/-- An operation of T[A] and T[B]. -/
def arith2 (f : XVal → XVal → XVal) : InsnCtx → DrsRun → InsnOut :=
  arith fun c r i p => f (elemVal c (rT r (wA c.w)) i p) (elemVal c (rT r (wB c.w)) i p)

/-! ## Moves and bitwise operations -/

/-- TBC. -/
def execDrsTbc (u : Fin 64) (s : State) : Host.Outcome State Fault Refusal :=
  .next (drsStep 0x20 u (tileTo fun r w _ => (rS r (wA w)).truncate 32) s)

/-- TMOV. -/
def execDrsTmov (u : Fin 64) (s : State) : Host.Outcome State Fault Refusal :=
  .next (drsStep 0x21 u (tileTo fun r w i => lane (rT r (wA w)) i) s)

/-- TIOTA. -/
def execDrsTiota (u : Fin 64) (s : State) : Host.Outcome State Fault Refusal :=
  .next (drsStep 0x22 u (tileTo fun _ _ i => BitVec.ofNat 32 i) s)

/-- A bitwise operation on whole lanes. -/
def bitwise (f : Word → Word → Word) : InsnCtx → DrsRun → InsnOut :=
  tileTo fun r w i => f (lane (rT r (wA w)) i) (lane (rT r (wB w)) i)

/-- TAND. -/
def execDrsTand (u : Fin 64) (s : State) : Host.Outcome State Fault Refusal := .next (drsStep 0x50 u (bitwise (· &&& ·)) s)

/-- TOR. -/
def execDrsTor (u : Fin 64) (s : State) : Host.Outcome State Fault Refusal := .next (drsStep 0x51 u (bitwise (· ||| ·)) s)

/-- TXOR. -/
def execDrsTxor (u : Fin 64) (s : State) : Host.Outcome State Fault Refusal := .next (drsStep 0x52 u (bitwise (· ^^^ ·)) s)

/-- A shift by IMM[4:0]. -/
def shiftBy (f : Word → Nat → Word) : InsnCtx → DrsRun → InsnOut :=
  tileTo fun r w i => f (lane (rT r (wA w)) i) (wImmU w % 32)

/-- TSHL. -/
def execDrsTshl (u : Fin 64) (s : State) : Host.Outcome State Fault Refusal := .next (drsStep 0x53 u (shiftBy (· <<< ·)) s)

/-- TSHR. -/
def execDrsTshr (u : Fin 64) (s : State) : Host.Outcome State Fault Refusal := .next (drsStep 0x54 u (shiftBy (· >>> ·)) s)

/-- TSRA. -/
def execDrsTsra (u : Fin 64) (s : State) : Host.Outcome State Fault Refusal :=
  .next (drsStep 0x55 u (shiftBy fun x n => x.sshiftRight n) s)

/-- TSEL: T[A] where the mask bit is 1, else T[B], in present lanes; the lanes from VL on follow ZERO. -/
def execDrsTsel (u : Fin 64) (s : State) : Host.Outcome State Fault Refusal :=
  .next (drsStep 0x61 u (fun c r =>
    let f := fun i => if maskBit r c.w i then lane (rT r (wA c.w)) i else lane (rT r (wB c.w)) i
    { run := setT (wD c.w) (mergeLanes c.w (rT r (wD c.w)) (present r) f) r }) s)

/-! ## Arithmetic (R142, R188) -/

/-- TADD. -/
def execDrsTadd (u : Fin 64) (s : State) : Host.Outcome State Fault Refusal := .next (drsStep 0x40 u (arith2 .add) s)

/-- TSUB. -/
def execDrsTsub (u : Fin 64) (s : State) : Host.Outcome State Fault Refusal :=
  .next (drsStep 0x41 u (arith2 fun a b => a.add b.negate) s)

/-- TMUL. -/
def execDrsTmul (u : Fin 64) (s : State) : Host.Outcome State Fault Refusal := .next (drsStep 0x42 u (arith2 .mul) s)

/-- TFMA: A × B + C, rounded once. -/
def execDrsTfma (u : Fin 64) (s : State) : Host.Outcome State Fault Refusal :=
  .next (drsStep 0x43 u (arith fun c r i p =>
    ((elemVal c (rT r (wA c.w)) i p).mul (elemVal c (rT r (wB c.w)) i p)).add (elemVal c (rT r (wC c.w)) i p)) s)

/-- TMAX (R146). -/
def execDrsTmax (u : Fin 64) (s : State) : Host.Outcome State Fault Refusal := .next (drsStep 0x44 u (arith2 .maximum) s)

/-- TMIN (R146). -/
def execDrsTmin (u : Fin 64) (s : State) : Host.Outcome State Fault Refusal := .next (drsStep 0x45 u (arith2 .minimum) s)

/-- TABS. -/
def execDrsTabs (u : Fin 64) (s : State) : Host.Outcome State Fault Refusal := .next (drsStep 0x46 u (arith1 .abs) s)

/-- TNEG. -/
def execDrsTneg (u : Fin 64) (s : State) : Host.Outcome State Fault Refusal := .next (drsStep 0x47 u (arith1 .negate) s)

/-! ## Division and roots, correctly rounded (R189) -/

/-- TDIV. -/
def execDrsTdiv (u : Fin 64) (s : State) : Host.Outcome State Fault Refusal := .next (drsStep 0x48 u (arith2 .div) s)

/-- Whole square root, bit by bit from 2^(b − 1) down. -/
def isqrtFrom : Nat → Nat → Nat → Nat
  | 0, _, acc => acc
  | b + 1, n, acc => isqrtFrom b n (if (acc + 2 ^ b) * (acc + 2 ^ b) ≤ n then acc + 2 ^ b else acc)

/-- ⌊√n⌋. -/
def isqrt (n : Nat) : Nat := isqrtFrom (Nat.log2 n / 2 + 1) n 0

/-- √(num/den) as a ratio that every rounding of Table 4.8 treats as the exact root: about 100 bits, and a half unit
where the root is not exact. -/
def sqrtRatio (num den : Nat) : XVal :=
  if num = 0 then .zero
  else
    let k := (100 - XVal.ilog2 num den / 2).toNat
    let n := num * 2 ^ (2 * k)
    let r := isqrt (n / den)
    .fin false (2 * r + (if r * r * den = n then 0 else 1)) (2 ^ (k + 1))

/-- √x: −0 for −0, NaN below it, +∞ for +∞. -/
def xSqrt : XVal → XVal
  | .nan => .nan
  | .inf neg => if neg then .nan else .inf false
  | .fin neg n d => if n = 0 then .fin neg 0 1 else if neg then .nan else sqrtRatio n d

/-- 1 / √x: −∞ for −0, +∞ for +0, +0 for +∞, NaN below −0. -/
def xRsqrt : XVal → XVal
  | .nan => .nan
  | .inf neg => if neg then .nan else .zero
  | .fin neg n d => if n = 0 then .inf neg else if neg then .nan else sqrtRatio d n

/-- TSQRT. -/
def execDrsTsqrt (u : Fin 64) (s : State) : Host.Outcome State Fault Refusal := .next (drsStep 0x49 u (arith1 xSqrt) s)

/-- TRCP. -/
def execDrsTrcp (u : Fin 64) (s : State) : Host.Outcome State Fault Refusal :=
  .next (drsStep 0x4A u (arith1 fun x => (XVal.fin false 1 1).div x) s)

/-- TRSQ. -/
def execDrsTrsq (u : Fin 64) (s : State) : Host.Outcome State Fault Refusal := .next (drsStep 0x4B u (arith1 xRsqrt) s)

/-! ## Exponential and logarithm, within 1 unit in the last place (R189) -/

/-- The FP32 magnitudes within 1 unit in the last place of an irrational magnitude that lies strictly between lo/den and
(lo + 1)/den: the two neighbours, and below a power of two the next lower one where it is near enough. -/
def ulpCandidates (lo den : Nat) : List Nat :=
  let l := fpRoundMag fpFp32 .towardZero lo den
  let below := l % 2 ^ 23 == 0 && decide (2 * 2 ^ 23 ≤ l) && fpRoundMag fpFp32 .nearest (2 * lo + 1) (2 * den) == l
  if below then [l, l + 1, l - 1] else [l, l + 1]

/-- The candidate that the unit delivers, with an overflow where it lies beyond the largest finite value (R143). -/
def ulpPick (isExp : Bool) (x : Nat) (neg : Bool) (cands : List Nat) : Coded :=
  let e := cands.getD (Config.ulpChoice isExp x % cands.length) 0
  if e ≤ fpFp32.maxEnc then ⟨fpSigned fpFp32 neg e, {}⟩ else fpOverflow fpFp32 .nearest false neg

/-- Binary places of the fixed-point work. -/
abbrev logPlaces : Nat := 192

/-- 2^f below 2 for a fraction f = frac / 2^places, as a number of 2^−192: each set bit of f multiplies by a repeated
square root of 2, every operation cut off below. -/
def exp2Frac (places frac : Nat) : Nat :=
  let step := fun (acc : Nat × Nat) (k : Nat) =>
    let root := isqrt (acc.1 * 2 ^ logPlaces)
    (root, if frac.testBit (places - 1 - k) then acc.2 * root / 2 ^ logPlaces else acc.2)
  ((List.range places).foldl step (2 * 2 ^ logPlaces, 2 ^ logPlaces)).2

/-- TEX2 of FP32 bits x. -/
def ex2 (x : Nat) : Coded :=
  match fpDecode fpFp32 x with
  | .nan => ⟨fpFp32.nanEnc, {}⟩
  | .inf neg => ⟨if neg then 0 else 0x7F800000, {}⟩
  | .fin neg num den =>
    let v : Int := XVal.scaledNum neg num 1 1
    if (129 : Int) * den ≤ v then fpOverflow fpFp32 .nearest false false
    else if v ≤ (-150 : Int) * den then ulpPick true x false [0, 1]
    else
      let i := v / (den : Int)
      let f := (v % (den : Int)).toNat
      if f = 0 then fpEncode fpFp32 .nearest false (.dyadic false 1 i)
      else
        let m := exp2Frac (Nat.log2 den) f
        if 0 ≤ i then ulpPick true x false (ulpCandidates (m * 2 ^ i.toNat) (2 ^ logPlaces))
        else ulpPick true x false (ulpCandidates m (2 ^ logPlaces * 2 ^ (-i).toNat))

/-- The first `n` binary places of log2 (m / 2^192) for 1 ≤ m / 2^192 < 2, by repeated squaring. -/
def log2Frac (n m : Nat) : Nat :=
  ((List.range n).foldl (fun (acc : Nat × Nat) _ =>
    let sq := acc.1 * acc.1 / 2 ^ logPlaces
    if 2 * 2 ^ logPlaces ≤ sq then (sq / 2, 2 * acc.2 + 1) else (sq, 2 * acc.2)) (m, 0)).2

/-- TLG2 of FP32 bits x. -/
def lg2 (x : Nat) : Coded :=
  match fpDecode fpFp32 x with
  | .nan => ⟨fpFp32.nanEnc, {}⟩
  | .inf neg => ⟨if neg then fpFp32.nanEnc else 0x7F800000, {}⟩
  | .fin neg num den =>
    if num = 0 then ⟨0xFF800000, {}⟩
    else if neg then ⟨fpFp32.nanEnc, {}⟩
    else
      let e := XVal.ilog2 num den
      let m := if 0 ≤ e then num * 2 ^ logPlaces / (den * 2 ^ e.toNat) else num * 2 ^ (-e).toNat * 2 ^ logPlaces / den
      if m = 2 ^ logPlaces then fpEncode fpFp32 .nearest false (.ofInt e)
      else
        let k := 100
        let f := log2Frac k m
        if 0 ≤ e then ulpPick false x false (ulpCandidates (e.toNat * 2 ^ k + f) (2 ^ k))
        else ulpPick false x true (ulpCandidates ((-e).toNat * 2 ^ k - f - 1) (2 ^ k))

/-- An FP32 operation given by its coded result. -/
def codedFp32 (f : Nat → Coded) (c : InsnCtx) (r : DrsRun) : InsnOut :=
  codedTo 1 (fun i _ => f (lane (rT r (wA c.w)) i).toNat) c r

/-- TEX2. -/
def execDrsTex2 (u : Fin 64) (s : State) : Host.Outcome State Fault Refusal := .next (drsStep 0x4C u (codedFp32 ex2) s)

/-- TLG2. -/
def execDrsTlg2 (u : Fin 64) (s : State) : Host.Outcome State Fault Refusal := .next (drsStep 0x4D u (codedFp32 lg2) s)

/-! ## Conversions (R190) -/

/-- TCVT: from FMT2 to FMT. -/
def execDrsTcvt (u : Fin 64) (s : State) : Host.Outcome State Fault Refusal :=
  .next (drsStep 0x58 u (fun c r => codedTo 1 (fun i _ =>
    scalarEncode (wFmt c.w) (c.rnd r (laneIndex r 1 0 i)) (wSat c.w)
      (scalarDecode (wFmt2 c.w) (lane (rT r (wA c.w)) i).toNat)) c r) s)

/-- An FP32 value, which is exact, in FP32. -/
def fp32Exact (x : XVal) : Nat := (fpEncode fpFp32 .nearest false x).bits

/-- TRND: rounded to FMT, kept as FP32. -/
def execDrsTrnd (u : Fin 64) (s : State) : Host.Outcome State Fault Refusal :=
  .next (drsStep 0x59 u (fun c r => codedTo 1 (fun i _ =>
    let e := scalarEncode (wFmt c.w) (c.rnd r (laneIndex r 1 0 i)) (wSat c.w) (fpDecode fpFp32 (lane (rT r (wA c.w)) i).toNat)
    { e with bits := fp32Exact (scalarDecode (wFmt c.w) e.bits) }) c r) s)

/-- TUNPK: sub-element IMM[1:0] to FP32, exactly. -/
def execDrsTunpk (u : Fin 64) (s : State) : Host.Outcome State Fault Refusal :=
  .next (drsStep 0x5A u (tileTo fun r w i =>
    BitVec.ofNat 32 (fp32Exact (scalarDecode (wFmt w) (subOf (subCount (wFmt w)) (wImmU w % 4) (lane (rT r (wA w)) i))))) s)

/-- TPACK: an FP32 lane rounded into sub-element IMM[1:0] of T[D]; the other sub-elements stay. -/
def execDrsTpack (u : Fin 64) (s : State) : Host.Outcome State Fault Refusal :=
  .next (drsStep 0x5B u (fun c r =>
    let q := subCount (wFmt c.w)
    let k := wImmU c.w % 4
    let enc := fun i => scalarEncode (wFmt c.w) (c.rnd r (laneIndex r q k i)) (wSat c.w)
      (fpDecode fpFp32 (lane (rT r (wA c.w)) i).toNat)
    codedTo q (fun i p => if p = k then enc i else ⟨subOf q p (lane (rT r (wD c.w)) i), {}⟩) c r) s)

/-- A condition of Table 6.5 on two values. -/
def condition (cond : Nat) (a b : XVal) : Bool :=
  match cond with
  | 0 => a.eq b
  | 1 => !a.eq b
  | 2 => a.lt b
  | 3 => a.lt b || a.eq b
  | 4 => b.lt a
  | 5 => b.lt a || a.eq b
  | 6 => a.isNan || b.isNan
  | _ => !(a.isNan || b.isNan)

/-- TCMP. -/
def execDrsTcmp (u : Fin 64) (s : State) : Host.Outcome State Fault Refusal :=
  .next (drsStep 0x60 u (fun c r =>
    let bit := fun i => condition (wImmU c.w % 8) (elemVal c (rT r (wA c.w)) i 0) (elemVal c (rT r (wB c.w)) i 0)
    { run := setM (wD c.w) (mergeBits c.w (rM r (wD c.w)) (active r c.w) bit) r }) s)

/-! ## Masters (R125, R191) -/

/-- The M40 value of a lane of a pair: bits [39:8] in the even tile, [7:0] in the odd one (R186). -/
def pairLane (r : DrsRun) (n i : Nat) : Nat := (lane (rT r n) i).toNat * 256 + (lane (rT r (n + 1)) i).toNat % 256

/-- A pair result from M40 encodings. -/
def pairTo (f : Nat → Coded) (c : InsnCtx) (r : DrsRun) : InsnOut :=
  let d := wD c.w
  let fl := (activeLanes r c.w).foldl (fun a i => a.or (f i).flags) {}
  let hi := mergeLanes c.w (rT r d) (active r c.w) fun i => BitVec.ofNat 32 ((f i).bits / 256)
  let lo := mergeLanes c.w (rT r (d + 1)) (active r c.w) fun i => BitVec.ofNat 32 ((f i).bits % 256)
  { run := addEvents fl (setT (d + 1) lo (setT d hi r)) }

/-- WFMA: the exact A × B + C, rounded once to M40. -/
def execDrsWfma (u : Fin 64) (s : State) : Host.Outcome State Fault Refusal :=
  .next (drsStep 0x78 u (fun c r => pairTo (fun i =>
    fpEncode fpM40 (c.rnd r (laneIndex r 1 0 i)) false
      (((fpDecode fpM40 (pairLane r (wA c.w) i)).mul (fpDecode fpFp32 (lane (rT r (wB c.w)) i).toNat)).add
        (fpDecode fpFp32 (lane (rT r (wC c.w)) i).toNat))) c r) s)

/-- WCVT: M40 to FP32 under RND. -/
def execDrsWcvt (u : Fin 64) (s : State) : Host.Outcome State Fault Refusal :=
  .next (drsStep 0x79 u (fun c r => codedTo 1 (fun i _ =>
    fpEncode fpFp32 (c.rnd r (laneIndex r 1 0 i)) false (fpDecode fpM40 (pairLane r (wA c.w) i))) c r) s)

/-- WFROM: FP32 to M40, exact. -/
def execDrsWfrom (u : Fin 64) (s : State) : Host.Outcome State Fault Refusal :=
  .next (drsStep 0x7A u (fun c r => pairTo (fun i =>
    fpEncode fpM40 .nearest false (fpDecode fpFp32 (lane (rT r (wA c.w)) i).toNat)) c r) s)

end Sys2Proof.Machine
end

