-- ==== Sys2Proof/Machine/DresserMemory.lean ====
section
/-!
DEFINITION. Dresser loads and stores (R192 to R197, Table 6.6 of spec/06_dresser_vector_engine.md). A load takes its data
when it issues and delivers it with DRS_LOAD_RETURN; a store writes when it executes.
-/
namespace Sys2Proof.Machine

/-! ## Addresses and faults -/

/-- S[A] + IMM, modulo 2^64. -/
def baseAddr (c : InsnCtx) (r : DrsRun) : DWord := rS r (wA c.w) + BitVec.ofInt 64 (wImm c.w)

/-- The address of lane i: S[A] + IMM + a × S[B] + b × S[C], modulo 2^64 (R192). -/
def laneAddr (c : InsnCtx) (r : DrsRun) (i : Nat) : Nat :=
  (baseAddr c r + BitVec.ofNat 64 (i / 16) * rS r (wB c.w) + BitVec.ofNat 64 (i % 16) * rS r (wC c.w)).toNat

/-- An access of `n` bytes that must be aligned and permitted: the address at which it faults. -/
def accessAt (c : InsnCtx) (write : Bool) (align a n : Nat) : Option Nat :=
  if a % align ≠ 0 || !permitted c.s c.ref.ctx a n (!write) write then some a else none

/-- The faulting address of the lowest active lane that faults (R196, R210). -/
def lanesFault (c : InsnCtx) (r : DrsRun) (f : Nat → Option Nat) : Option Nat := (activeLanes r c.w).findSome? f

/-- The codewords that a set of accesses touches, each once (R192: bytes that several lanes address are read once). -/
def distinctReads (rs : List (Nat × Nat)) : List (Nat × Nat) :=
  (rs.flatMap fun a => if a.2 = 0 then [] else
    let lo := codeword a.1
    let hi := codeword (a.1 + a.2 - 1)
    (List.range ((hi.1 - lo.1) / lo.2 + 1)).map fun k => (lo.1 + k * lo.2, 1)).dedup

/-- Adjacent writes joined, in order. -/
def coalesce : List (Nat × List Byte) → List (Nat × List Byte)
  | [] => []
  | w :: ws => match coalesce ws with
    | [] => [w]
    | v :: vs => if w.1 + w.2.length = v.1 then (w.1, w.2 ++ v.2) :: vs else w :: v :: vs

/-- Stream k of a run, created by the first store that names it. -/
def streamOf (r : DrsRun) (w : DWord) (fmt : Nat) : Hist :=
  match tabGet none r.streams (wFmt2 w) with
  | some h => h
  | none => { fmt := fmt }

/-- A store: its bytes, and its elements added to the stream of FMT2 (R211). -/
def storeOut (c : InsnCtx) (r : DrsRun) (h : Hist) (fl : ElemFlags) (ws : List (Nat × List Byte)) : InsnOut :=
  { run := addEvents fl { r with streams := tabSet none r.streams (wFmt2 c.w) (some h) }, writes := coalesce ws }

/-! ## Scalars and masks -/

/-- SLD. -/
def execDrsSld (u : Fin 64) (s : State) : Host.Outcome State Fault Refusal :=
  .next (drsStep 0x1B u (fun c r =>
    let a := (baseAddr c r).toNat
    { run := { r with loads := r.loads ++ [.scalar (wD c.w) (BitVec.ofNat 64 (readNat c.s a 8))] }
      reads := [(a, 8)], fault := accessAt c false 8 a 8 }) s)

/-- SST. -/
def execDrsSst (u : Fin 64) (s : State) : Host.Outcome State Fault Refusal :=
  .next (drsStep 0x1C u (fun c r =>
    let a := (baseAddr c r).toNat
    { run := r, writes := [(a, leBytes 8 (rS r (wD c.w)).toNat)], fault := accessAt c true 8 a 8 }) s)

/-- MLD: the active bits are loaded, the others follow ZERO. -/
def execDrsMld (u : Fin 64) (s : State) : Host.Outcome State Fault Refusal :=
  .next (drsStep 0x33 u (fun c r =>
    let a := (baseAddr c r).toNat
    let v := readNat c.s a 32
    { run := { r with loads := r.loads ++ [.mask (wD c.w) (mergeBits c.w (rM r (wD c.w)) (active r c.w) v.testBit)] }
      reads := [(a, 32)], fault := accessAt c false 8 a 32 }) s)

/-- MST. -/
def execDrsMst (u : Fin 64) (s : State) : Host.Outcome State Fault Refusal :=
  .next (drsStep 0x34 u (fun c r =>
    let a := (baseAddr c r).toNat
    { run := r, writes := [(a, leBytes 32 (rM r (wD c.w)).toNat)], fault := accessAt c true 8 a 32 }) s)

/-! ## Tile loads -/

/-- A tile load: bytes and alignment of lane i's element, and the lane as converted. -/
def loadTile (n align : Nat) (conv : Nat → Coded) (c : InsnCtx) (r : DrsRun) : InsnOut :=
  let elem := fun i => conv (readNat c.s (laneAddr c r i) n)
  let fl := (activeLanes r c.w).foldl (fun a i => a.or (elem i).flags) {}
  let t := mergeLanes c.w (rT r (wD c.w)) (active r c.w) fun i => BitVec.ofNat 32 (elem i).bits
  { run := addEvents fl { r with loads := r.loads ++ [.tile (wD c.w) t] }
    reads := distinctReads ((activeLanes r c.w).map fun i => (laneAddr c r i, n))
    fault := lanesFault c r fun i => accessAt c false align (laneAddr c r i) n }

/-- TLD: 4 bytes a lane, not converted. -/
def execDrsTld (u : Fin 64) (s : State) : Host.Outcome State Fault Refusal :=
  .next (drsStep 0x28 u (loadTile 4 4 fun v => ⟨v, {}⟩) s)

/-- An element of TLDC in FP32; an invalid LV5 byte is level 0 and counts as replaced (R132). -/
def loadConvert (fmt v : Nat) : Coded :=
  if fmt = 0 then ⟨v, {}⟩
  else ⟨fp32Exact (scalarDecode fmt v), ⟨false, false, fmt == 10 && (lv5Decode v).isNone⟩⟩

/-- TLDC: one element per lane, converted exactly to FP32. -/
def execDrsTldc (u : Fin 64) (s : State) : Host.Outcome State Fault Refusal :=
  .next (drsStep 0x29 u (fun c r =>
    loadTile (elemBytes (wFmt c.w)) (elemBytes (wFmt c.w)) (loadConvert (wFmt c.w)) c r) s)

/-- Start of the stored row that holds lane i, and the element's place in it (R193). -/
def mxPlace (c : InsnCtx) (r : DrsRun) (i : Nat) : Nat × Nat :=
  ((baseAddr c r + BitVec.ofNat 64 (i / 32) * rS r (wB c.w)).toNat, (rS r (wC c.w)).toNat + i % 32)

/-- The addresses of lane i's element byte and scale byte (R193). -/
def mxAddrs (c : InsnCtx) (r : DrsRun) (i : Nat) : Nat × Nat :=
  let p := mxPlace c r i
  ((p.1 + mxElemOffset (wFmt c.w) p.2) % 2 ^ 64, (p.1 + mxScaleOffset (wFmt c.w) p.2) % 2 ^ 64)

/-- A lane of an MX access faults: h0 not a multiple of 32, or a byte of it is not permitted. The bytes that TSTX writes as +0 for inactive
lanes are not checked (DESIGN CHOICE, log entry 198). The address reported is that of the element byte, or of the scale byte where that
one alone is not permitted (R210; DESIGN CHOICE, log entry 199). -/
def mxFault (c : InsnCtx) (r : DrsRun) (write : Bool) (i : Nat) : Option Nat :=
  let a := mxAddrs c r i
  if (rS r (wC c.w)).toNat % 32 ≠ 0 then some a.1
  else (accessAt c write 1 a.1 1).orElse fun _ => accessAt c write 1 a.2 1

/-- TLDX: MX elements decoded to FP32; a value beyond FP32 overflows (R193). -/
def execDrsTldx (u : Fin 64) (s : State) : Host.Outcome State Fault Refusal :=
  .next (drsStep 0x2A u (fun c r =>
    let elem := fun i =>
      let a := mxAddrs c r i
      let enc := mxPick (wFmt c.w) (mxPlace c r i).2 (readNat c.s a.1 1)
      fpEncode fpFp32 (c.rnd r (laneIndex r 1 0 i)) false (mxDecode (wFmt c.w) (readNat c.s a.2 1) enc)
    let fl := (activeLanes r c.w).foldl (fun a i => a.or (elem i).flags) {}
    let t := mergeLanes c.w (rT r (wD c.w)) (active r c.w) fun i => BitVec.ofNat 32 (elem i).bits
    { run := addEvents fl { r with loads := r.loads ++ [.tile (wD c.w) t] }
      reads := distinctReads ((activeLanes r c.w).flatMap fun i => [((mxAddrs c r i).1, 1), ((mxAddrs c r i).2, 1)])
      fault := lanesFault c r (mxFault c r false) }) s)

/-- The address of the byte that holds lane i's sign code. -/
def signAddr (c : InsnCtx) (r : DrsRun) (i : Nat) : Nat := (baseAddr c r + BitVec.ofNat 64 (i / 4)).toNat

/-- A lane of TLDS or TSTS faults (R195). -/
def signFault (c : InsnCtx) (r : DrsRun) (write : Bool) (i : Nat) : Option Nat :=
  if (baseAddr c r).toNat % 8 ≠ 0 then some (signAddr c r i) else accessAt c write 1 (signAddr c r i) 1

/-- TLDS: sign codes as FP32 −1, +0 or +1; the reserved code is +0 and counts as replaced (R195). -/
def execDrsTlds (u : Fin 64) (s : State) : Host.Outcome State Fault Refusal :=
  .next (drsStep 0x2B u (fun c r =>
    let code := fun i => sgn2Decode (sgn2Code (readNat c.s (signAddr c r i) 1) i)
    let fl := (activeLanes r c.w).foldl (fun (a : ElemFlags) i => a.or ⟨false, false, (code i).2⟩) {}
    let t := mergeLanes c.w (rT r (wD c.w)) (active r c.w) fun i => BitVec.ofNat 32 (fp32Exact (.ofInt (code i).1))
    { run := addEvents fl { r with loads := r.loads ++ [.tile (wD c.w) t] }
      reads := distinctReads ((activeLanes r c.w).map fun i => (signAddr c r i, 1))
      fault := lanesFault c r (signFault c r false) }) s)

/-- WLD: M40 masters into a pair. -/
def execDrsWld (u : Fin 64) (s : State) : Host.Outcome State Fault Refusal :=
  .next (drsStep 0x31 u (fun c r =>
    let d := wD c.w
    let v := fun i => readNat c.s (laneAddr c r i) 5
    let hi := mergeLanes c.w (rT r d) (active r c.w) fun i => BitVec.ofNat 32 (v i / 256)
    let lo := mergeLanes c.w (rT r (d + 1)) (active r c.w) fun i => BitVec.ofNat 32 (v i % 256)
    { run := { r with loads := r.loads ++ [.pair d hi lo] }
      reads := distinctReads ((activeLanes r c.w).map fun i => (laneAddr c r i, 5))
      fault := lanesFault c r fun i => accessAt c false 1 (laneAddr c r i) 5 }) s)

/-! ## Tile stores -/

/-- TST: the active lanes, not converted; every sub-element counts in the stream. -/
def execDrsTst (u : Fin 64) (s : State) : Host.Outcome State Fault Refusal :=
  .next (drsStep 0x2C u (fun c r =>
    let q := subCount (wFmt c.w)
    let t := rT r (wD c.w)
    let h := (activeLanes r c.w).foldl (fun h i => (List.range q).foldl (fun h p =>
      h.countScalar (wFmt c.w) ⟨subOf q p (lane t i), {}⟩) h) (streamOf r c.w (wFmt c.w))
    { storeOut c r h {} ((activeLanes r c.w).map fun i => (laneAddr c r i, leBytes 4 (lane t i).toNat)) with
      fault := lanesFault c r fun i => accessAt c true 4 (laneAddr c r i) 4 }) s)

/-- TSTC: FP32 lanes rounded to FMT under RND and OVF. -/
def execDrsTstc (u : Fin 64) (s : State) : Host.Outcome State Fault Refusal :=
  .next (drsStep 0x2D u (fun c r =>
    let n := elemBytes (wFmt c.w)
    let elem := fun i => scalarEncode (wFmt c.w) (c.rnd r (laneIndex r 1 0 i)) (wSat c.w)
      (fpDecode fpFp32 (lane (rT r (wD c.w)) i).toNat)
    let ls := activeLanes r c.w
    let h := ls.foldl (fun h i => h.countScalar (wFmt c.w) (elem i)) (streamOf r c.w (wFmt c.w))
    { storeOut c r h (ls.foldl (fun a i => a.or (elem i).flags) {}) (ls.map fun i => (laneAddr c r i, leBytes n (elem i).bits)) with
      fault := lanesFault c r fun i => accessAt c true n (laneAddr c r i) n }) s)

/-- The FP32 values of `n` lanes from lane `i0`, none where a lane is inactive. -/
def blockVals (c : InsnCtx) (r : DrsRun) (i0 n : Nat) : List (Option XVal) :=
  (List.range n).map fun t => if active r c.w (i0 + t) then some (fpDecode fpFp32 (lane (rT r (wD c.w)) (i0 + t)).toNat) else none

/-- The elements of a block that active lanes wrote. -/
def writtenElems (vs : List (Option XVal)) (b : BlockOut) : List ElemOut :=
  ((vs.zip b.elems).filter (·.1.isSome)).map (·.2)

/-- A store of blocks of `n` lanes: `enc` converts a block that starts at a lane, `bytes` lays it out. Blocks with no
active lane are not written (R193, R194). -/
def storeBlocks (n fmt : Nat) (enc : Nat → List (Option XVal) → BlockOut) (bytes : Nat → BlockOut → List (Nat × List Byte))
    (c : InsnCtx) (r : DrsRun) : InsnOut :=
  let starts := ((List.range (256 / n)).map (n * ·)).filter fun i0 => (blockVals c r i0 n).any (·.isSome)
  let blocks := starts.map fun i0 => (i0, blockVals c r i0 n, enc i0 (blockVals c r i0 n))
  let elems := blocks.flatMap fun b => writtenElems b.2.1 b.2.2
  storeOut c r (elems.foldl Hist.countElem (streamOf r c.w fmt)) (elems.foldl (fun a e => a.or e.flags) {})
    (blocks.flatMap fun b => bytes b.1 b.2.2)

/-- TSTX: MX blocks over the active lanes (R193). -/
def execDrsTstx (u : Fin 64) (s : State) : Host.Outcome State Fault Refusal :=
  .next (drsStep 0x2E u (fun c r =>
    let f := wFmt c.w
    { storeBlocks 32 f (fun i0 vs => mxEncodeBlock f (fun t => c.rnd r (laneIndex r 1 0 (i0 + t))) vs)
        (fun i0 b => [((mxAddrs c r i0).2, [BitVec.ofNat 8 b.scale]), ((mxAddrs c r i0).1, mxBytes f b.elems)]) c r with
      fault := lanesFault c r (mxFault c r true) }) s)

/-- The address of DQ8 block k (R194). -/
def dq8Addr (c : InsnCtx) (r : DrsRun) (k : Nat) : Nat := (baseAddr c r + BitVec.ofNat 64 k * rS r (wB c.w)).toNat

/-- A lane of TSTQ faults: its block misaligned, its byte, or another byte of its block, not permitted. -/
def dq8Fault (c : InsnCtx) (r : DrsRun) (i : Nat) : Option Nat :=
  let a := dq8Addr c r (i / 128)
  if a % 16 ≠ 0 then some a
  else (accessAt c true 1 ((a + i % 128) % 2 ^ 64) 1).orElse fun _ =>
    if permitted c.s c.ref.ctx a 144 false true then none else some ((a + 128) % 2 ^ 64)

/-- TSTQ: two DQ8 blocks (R194). -/
def execDrsTstq (u : Fin 64) (s : State) : Host.Outcome State Fault Refusal :=
  .next (drsStep 0x2F u (fun c r =>
    { storeBlocks 128 9 (fun i0 vs => dq8EncodeBlock (fun t => c.rnd r (laneIndex r 1 0 (i0 + t))) vs)
        (fun i0 b => [(dq8Addr c r (i0 / 128), dq8Bytes b)]) c r with
      fault := lanesFault c r (dq8Fault c r) }) s)

/-- TSTS: sign codes; only the bytes that hold an active lane are written (R195). -/
def execDrsTsts (u : Fin 64) (s : State) : Host.Outcome State Fault Refusal :=
  .next (drsStep 0x30 u (fun c r =>
    let code := fun i => if active r c.w i then sgn2Encode (fpDecode fpFp32 (lane (rT r (wD c.w)) i).toNat) else (0, {})
    let ls := activeLanes r c.w
    let h := ls.foldl (fun h i => h.count (.ofInt (sgn2Decode (code i).1).1) false (code i).2) (streamOf r c.w 14)
    let used := (List.range 64).filter fun j => ls.any fun i => i / 4 == j
    { storeOut c r h (ls.foldl (fun a i => a.or (code i).2) {})
        (used.map fun j => (signAddr c r (4 * j), [BitVec.ofNat 8 (sgn2Byte ((List.range 4).map fun t => (code (4 * j + t)).1))])) with
      fault := lanesFault c r (signFault c r true) }) s)

/-- WST: M40 masters, which feed the master digest (R276). -/
def execDrsWst (u : Fin 64) (s : State) : Host.Outcome State Fault Refusal :=
  .next (drsStep 0x32 u (fun c r =>
    let ls := activeLanes r c.w
    let v := pairLane r (wD c.w)
    let h := ls.foldl (fun h i => h.countScalar 11 ⟨v i, {}⟩) (streamOf r c.w 11)
    { storeOut c r h {} (ls.map fun i => (laneAddr c r i, leBytes 5 (v i))) with
      masters := ls.map fun i => (laneAddr c r i, v i)
      fault := lanesFault c r fun i => accessAt c true 1 (laneAddr c r i) 5 }) s)

end Sys2Proof.Machine
end

