-- ==== Sys2Proof/Machine/DresserReduce.lean ====
section
/-!
DEFINITION. Dresser permutations, compress and expand, and reductions (R147 to R149, R198 to R203 of
spec/06_dresser_vector_engine.md).
-/
namespace Sys2Proof.Machine

/-! ## Permutations (R149, R198) -/

/-- A permutation that reads lane `src i` for lane i: all-zero bits where the source lies at or above VL. -/
def permute (src : DrsRun → DWord → Nat → Nat) (c : InsnCtx) (r : DrsRun) : InsnOut :=
  let j := src r c.w
  let a := rT r (wA c.w)
  let t := mergeLanes c.w (rT r (wD c.w)) (active r c.w) fun i => if j i < r.vl then lane a (j i) else 0
  { run := setT (wD c.w) t r, permLanes := ((activeLanes r c.w).filter fun i => decide (r.vl ≤ j i)).length }

/-- TPERM. -/
def execDrsTperm (u : Fin 64) (s : State) : Host.Outcome State Fault Refusal :=
  .next (drsStep 0x68 u (permute fun r w i => (lane (rT r (wB w)) i).toNat) s)

/-- TTRN. -/
def execDrsTtrn (u : Fin 64) (s : State) : Host.Outcome State Fault Refusal :=
  .next (drsStep 0x69 u (permute fun _ _ i => 16 * (i % 16) + i / 16) s)

/-- TBCL. -/
def execDrsTbcl (u : Fin 64) (s : State) : Host.Outcome State Fault Refusal :=
  .next (drsStep 0x6A u (permute fun _ w _ => wImmU w % 256) s)

/-- The present lanes whose mask bit is 1, in ascending order (R199). -/
def maskedLanes (r : DrsRun) (w : DWord) : List Nat := (List.range 256).filter fun i => present r i && maskBit r w i

/-- TCOMPRESS: the masked lanes to the front, zeros behind them, their number to S[B] (R199). -/
def execDrsTcompress (u : Fin 64) (s : State) : Host.Outcome State Fault Refusal :=
  .next (drsStep 0x6B u (fun c r =>
    let ls := maskedLanes r c.w
    let a := rT r (wA c.w)
    let t := ls.map (lane a) ++ List.replicate (256 - ls.length) 0
    { run := setS (wB c.w) (BitVec.ofNat 64 ls.length) (setT (wD c.w) t r) }) s)

/-- TEXPAND: the leading lanes of T[A] into the masked lanes of T[D]; the others follow ZERO (R199). -/
def execDrsTexpand (u : Fin 64) (s : State) : Host.Outcome State Fault Refusal :=
  .next (drsStep 0x6C u (fun c r =>
    let ls := maskedLanes r c.w
    let a := rT r (wA c.w)
    { run := setT (wD c.w) (mergeLanes c.w (rT r (wD c.w)) (ls.contains ·) fun i => lane a (ls.idxOf i)) r }) s)

/-! ## Reductions (R147, R148, R200, R201) -/

/-- What a reduction computes. -/
inductive Reduction
  | sum | max | min
deriving DecidableEq, Repr

/-- Two values reduced. -/
def Reduction.op : Reduction → XVal → XVal → XVal
  | .sum => .add
  | .max => .maximum
  | .min => .minimum

/-- The identity of Table 4.11: for integers the extreme value of the format. -/
def Reduction.identity (k : Reduction) (fmt : Nat) : XVal :=
  match k with
  | .sum => .zero
  | .max => if fmt = 12 then .ofInt (-2147483648) else if fmt = 13 then .zero else .inf true
  | .min => if fmt = 12 then .ofInt 2147483647 else if fmt = 13 then .ofInt 4294967295 else .inf false

/-- The exact reduction of values, starting from the first. -/
def Reduction.fold (k : Reduction) (fmt : Nat) : List XVal → XVal
  | [] => k.identity fmt
  | v :: vs => vs.foldl k.op v

/-- The lanes of a tile reduced, rounded once with a generator index. -/
def reduceLanes (k : Reduction) (c : InsnCtx) (r : DrsRun) (index : Nat) (ls : List Nat) : Coded :=
  scalarEncode (wFmt c.w) (c.rnd r index) (wSat c.w)
    (k.fold (wFmt c.w) (ls.map fun i => elemVal c (rT r (wA c.w)) i 0))

/-- A full reduction into S[D]. -/
def reduceAll (k : Reduction) (c : InsnCtx) (r : DrsRun) : InsnOut :=
  let ls := activeLanes r c.w
  let v := reduceLanes k c r r.key.base.toNat ls
  { run := addEvents v.flags (setS (wD c.w) (BitVec.ofNat 64 v.bits) r), emptied := ls.isEmpty }

/-- TRSUM. -/
def execDrsTrsum (u : Fin 64) (s : State) : Host.Outcome State Fault Refusal := .next (drsStep 0x70 u (reduceAll .sum) s)

/-- TRMAX. -/
def execDrsTrmax (u : Fin 64) (s : State) : Host.Outcome State Fault Refusal := .next (drsStep 0x71 u (reduceAll .max) s)

/-- TRMIN. -/
def execDrsTrmin (u : Fin 64) (s : State) : Host.Outcome State Fault Refusal := .next (drsStep 0x72 u (reduceAll .min) s)

/-- An arg-reduction: the value to S[D], the lowest lane that holds it to S[C]; all ones where no lane is active. -/
def argReduce (k : Reduction) (c : InsnCtx) (r : DrsRun) : InsnOut :=
  let ls := activeLanes r c.w
  let val := fun i => elemVal c (rT r (wA c.w)) i 0
  let v := reduceLanes k c r r.key.base.toNat ls
  let best := k.fold (wFmt c.w) (ls.map val)
  let i := match ls.find? fun i => val i == best with
    | some i => i
    | none => 0xFFFFFFFF
  { run := addEvents v.flags (setS (wC c.w) (BitVec.ofNat 64 i) (setS (wD c.w) (BitVec.ofNat 64 v.bits) r))
    emptied := ls.isEmpty }

/-- TRAMAX. -/
def execDrsTramax (u : Fin 64) (s : State) : Host.Outcome State Fault Refusal := .next (drsStep 0x73 u (argReduce .max) s)

/-- TRAMIN. -/
def execDrsTramin (u : Fin 64) (s : State) : Host.Outcome State Fault Refusal := .next (drsStep 0x74 u (argReduce .min) s)

/-- The active lanes of row a. -/
def rowLanes (r : DrsRun) (w : DWord) (a : Nat) : List Nat := (activeLanes r w).filter fun i => i / 16 == a

/-- A row reduction: each row's result to its active lanes; a row with no active lane sets EMPTY (R201). -/
def reduceRows (k : Reduction) (c : InsnCtx) (r : DrsRun) : InsnOut :=
  let row := fun a => reduceLanes k c r ((r.key.base.toNat + a * r.key.pitch.toNat) % 2 ^ 64) (rowLanes r c.w a)
  let fl := ((List.range 16).filter fun a => !(rowLanes r c.w a).isEmpty).foldl (fun f a => f.or (row a).flags) {}
  let t := mergeLanes c.w (rT r (wD c.w)) (active r c.w) fun i => BitVec.ofNat 32 (row (i / 16)).bits
  { run := addEvents fl (setT (wD c.w) t r), emptied := (List.range 16).any fun a => (rowLanes r c.w a).isEmpty }

/-- TRRSUM. -/
def execDrsTrrsum (u : Fin 64) (s : State) : Host.Outcome State Fault Refusal := .next (drsStep 0x75 u (reduceRows .sum) s)

/-- TRRMAX. -/
def execDrsTrrmax (u : Fin 64) (s : State) : Host.Outcome State Fault Refusal := .next (drsStep 0x76 u (reduceRows .max) s)

/-- TRRMIN. -/
def execDrsTrrmin (u : Fin 64) (s : State) : Host.Outcome State Fault Refusal := .next (drsStep 0x77 u (reduceRows .min) s)

end Sys2Proof.Machine
end

