-- ==== Sys2Proof/Machine/DresserScalar.lean ====
section
/-!
DEFINITION. Dresser control, scalar and mask instructions (Table 6.4 of spec/06_dresser_vector_engine.md). Each command
executes the unit's next instruction where that instruction has its opcode.
-/
namespace Sys2Proof.Machine

/-! ## Control -/

/-- NOP. -/
def execDrsNop (u : Fin 64) (s : State) : Host.Outcome State Fault Refusal := .next (drsStep 0x00 u (fun _ r => { run := r }) s)

/-- END: the program ends, as at index PROG_LEN. -/
def execDrsEnd (u : Fin 64) (s : State) : Host.Outcome State Fault Refusal :=
  .next (drsStep 0x01 u (fun _ r => { run := r, target := some 8192 }) s)

/-- VL clamped to 0 to 256. -/
def clampVl (x : Int) : Nat := if x < 0 then 0 else if 256 < x then 256 else x.toNat

/-- SETVL: VL = S[A] + IMM, clamped. -/
def execDrsSetvl (u : Fin 64) (s : State) : Host.Outcome State Fault Refusal :=
  .next (drsStep 0x02 u (fun c r => { run := { r with vl := clampVl ((rS r (wA c.w)).toInt + wImm c.w) } }) s)

/-- KEY: the stochastic key state. -/
def execDrsKey (u : Fin 64) (s : State) : Host.Outcome State Fault Refusal :=
  .next (drsStep 0x03 u (fun c r => { run := { r with
    key := ⟨(rS r (wA c.w)).truncate 32, rS r (wB c.w), (rS r (wC c.w)).truncate 32⟩ } }) s)

/-- The target PC + IMM, taken under a condition. -/
def branchIf (cond : Bool) (c : InsnCtx) (r : DrsRun) : InsnOut :=
  { run := r, target := if cond then some ((r.pc : Int) + wImm c.w).toNat else none }

/-- BR. -/
def execDrsBr (u : Fin 64) (s : State) : Host.Outcome State Fault Refusal := .next (drsStep 0x04 u (branchIf true) s)

/-- BEQ. -/
def execDrsBeq (u : Fin 64) (s : State) : Host.Outcome State Fault Refusal :=
  .next (drsStep 0x05 u (fun c r => branchIf (rS r (wA c.w) == rS r (wB c.w)) c r) s)

/-- BNE. -/
def execDrsBne (u : Fin 64) (s : State) : Host.Outcome State Fault Refusal :=
  .next (drsStep 0x06 u (fun c r => branchIf (rS r (wA c.w) != rS r (wB c.w)) c r) s)

/-- BLT, compared as signed. -/
def execDrsBlt (u : Fin 64) (s : State) : Host.Outcome State Fault Refusal :=
  .next (drsStep 0x07 u (fun c r => branchIf (decide ((rS r (wA c.w)).toInt < (rS r (wB c.w)).toInt)) c r) s)

/-- BGE, compared as signed. -/
def execDrsBge (u : Fin 64) (s : State) : Host.Outcome State Fault Refusal :=
  .next (drsStep 0x08 u (fun c r => branchIf (decide ((rS r (wB c.w)).toInt ≤ (rS r (wA c.w)).toInt)) c r) s)

/-! ## Scalars, 64 bits modulo 2^64 -/

/-- A scalar result. -/
def scalarTo (f : InsnCtx → DrsRun → DWord) (c : InsnCtx) (r : DrsRun) : InsnOut := { run := setS (wD c.w) (f c r) r }

/-- A scalar result of S[A] and S[B]. -/
def scalarBin (f : DWord → DWord → DWord) : InsnCtx → DrsRun → InsnOut :=
  scalarTo fun c r => f (rS r (wA c.w)) (rS r (wB c.w))

/-- SLI: IMM sign-extended. -/
def execDrsSli (u : Fin 64) (s : State) : Host.Outcome State Fault Refusal :=
  .next (drsStep 0x10 u (scalarTo fun c _ => BitVec.ofInt 64 (wImm c.w)) s)

/-- SADDI. -/
def execDrsSaddi (u : Fin 64) (s : State) : Host.Outcome State Fault Refusal :=
  .next (drsStep 0x11 u (scalarTo fun c r => rS r (wA c.w) + BitVec.ofInt 64 (wImm c.w)) s)

/-- SADD. -/
def execDrsSadd (u : Fin 64) (s : State) : Host.Outcome State Fault Refusal := .next (drsStep 0x12 u (scalarBin (· + ·)) s)

/-- SSUB. -/
def execDrsSsub (u : Fin 64) (s : State) : Host.Outcome State Fault Refusal := .next (drsStep 0x13 u (scalarBin (· - ·)) s)

/-- SMUL. -/
def execDrsSmul (u : Fin 64) (s : State) : Host.Outcome State Fault Refusal := .next (drsStep 0x14 u (scalarBin (· * ·)) s)

/-- SAND. -/
def execDrsSand (u : Fin 64) (s : State) : Host.Outcome State Fault Refusal := .next (drsStep 0x15 u (scalarBin (· &&& ·)) s)

/-- SOR. -/
def execDrsSor (u : Fin 64) (s : State) : Host.Outcome State Fault Refusal := .next (drsStep 0x16 u (scalarBin (· ||| ·)) s)

/-- SXOR. -/
def execDrsSxor (u : Fin 64) (s : State) : Host.Outcome State Fault Refusal := .next (drsStep 0x17 u (scalarBin (· ^^^ ·)) s)

/-- SSHLI: by IMM[5:0]. -/
def execDrsSshli (u : Fin 64) (s : State) : Host.Outcome State Fault Refusal :=
  .next (drsStep 0x18 u (scalarTo fun c r => rS r (wA c.w) <<< (wImmU c.w % 64)) s)

/-- SSHRI: by IMM[5:0], logical. -/
def execDrsSshri (u : Fin 64) (s : State) : Host.Outcome State Fault Refusal :=
  .next (drsStep 0x19 u (scalarTo fun c r => rS r (wA c.w) >>> (wImmU c.w % 64)) s)

/-- SORI: IMM zero-extended. -/
def execDrsSori (u : Fin 64) (s : State) : Host.Outcome State Fault Refusal :=
  .next (drsStep 0x1A u (scalarTo fun c r => rS r (wA c.w) ||| BitVec.ofNat 64 (wImmU c.w)) s)

/-- SEXT: lane IMM[7:0] of T[A], zero-extended, whatever VL and the masks. -/
def execDrsSext (u : Fin 64) (s : State) : Host.Outcome State Fault Refusal :=
  .next (drsStep 0x1D u (scalarTo fun c r => (lane (rT r (wA c.w)) (wImmU c.w % 256)).zeroExtend 64) s)

/-! ## Masks, on active bits -/

/-- A mask result. -/
def maskTo (f : DrsRun → DWord → Nat → Bool) (c : InsnCtx) (r : DrsRun) : InsnOut :=
  { run := setM (wD c.w) (mergeBits c.w (rM r (wD c.w)) (active r c.w) (f r c.w)) r }

/-- A mask result of M[A] and M[B], bit by bit. -/
def maskBin (f : Bool → Bool → Bool) : InsnCtx → DrsRun → InsnOut :=
  maskTo fun r w i => f ((rM r (wA w)).getLsbD i) ((rM r (wB w)).getLsbD i)

/-- MAND. -/
def execDrsMand (u : Fin 64) (s : State) : Host.Outcome State Fault Refusal := .next (drsStep 0x62 u (maskBin and) s)

/-- MOR. -/
def execDrsMor (u : Fin 64) (s : State) : Host.Outcome State Fault Refusal := .next (drsStep 0x63 u (maskBin or) s)

/-- MXOR. -/
def execDrsMxor (u : Fin 64) (s : State) : Host.Outcome State Fault Refusal := .next (drsStep 0x64 u (maskBin xor) s)

/-- MNOT. -/
def execDrsMnot (u : Fin 64) (s : State) : Host.Outcome State Fault Refusal :=
  .next (drsStep 0x65 u (maskTo fun r w i => !(rM r (wA w)).getLsbD i) s)

/-- MSET. -/
def execDrsMset (u : Fin 64) (s : State) : Host.Outcome State Fault Refusal := .next (drsStep 0x66 u (maskTo fun _ _ _ => true) s)

/-- MCNT: the present lanes whose bit in M[A] is 1. -/
def execDrsMcnt (u : Fin 64) (s : State) : Host.Outcome State Fault Refusal :=
  .next (drsStep 0x67 u (scalarTo fun c r =>
    BitVec.ofNat 64 ((List.range 256).filter fun i => present r i && (rM r (wA c.w)).getLsbD i).length) s)

end Sys2Proof.Machine
end

