-- ==== Sys2Proof/Machine/Firmware.lean ====
section
/-!
DEFINITION. Firmware update: staging, verification, activation and the PLDM path (R425 to R428, R432 to R438 of
spec/15_firmware_and_boot.md).
-/
namespace Sys2Proof.Machine

/-- A refusal under R433: the result, the REASON, the flag and the entry. -/
def fwuRefuse (reason : Nat) (s : State) : State :=
  logEntry { source := 12, code := stUpdateRefused }
    (setFlag .fwu 3 { s with fwu := { s.fwu with result := stUpdateRefused, reason := reason } })

/-- Put an image, or none, into a slot. -/
def setSlot (n : Nat) (i : Option Image) (f : Fwu) : Fwu := if n = 0 then { f with slot0 := i } else { f with slot1 := i }

/-- The slot that is not selected (R425). -/
def otherSlot (f : Fwu) : Nat := 1 - f.selector

/-- A state that STAGE leaves: every one but Staging, Verifying and Activating (Table 15.5). -/
def stageable (f : Fwu) : Bool :=
  match f.state with
  | .staging | .verifying | .activating => false
  | _ => true

/-- Begin staging into the unselected slot, which is invalid until staging ends. STAGE reads FWU_LENGTH bytes from FWU_SRC_ADDR as
the physical function; over PLDM the update agent sends the image (R432, R438). -/
def beginStaging (overMctp : Bool) (s : State) : State :=
  let s := { s with fwu := setSlot (otherSlot s.fwu) none { s.fwu with
    state := .staging, stageLength := reg s rFwuLength, reason := 0, result := 0, received := [], progress := 0, verified := false, overMctp := overMctp } }
  if overMctp then s else hostReads 0 (reg s rFwuSrcAddr) (reg s rFwuLength) s

/-- The STAGE command, over either path (R432, R433). -/
def stageCommand (overMctp : Bool) (s : State) : State :=
  if !stageable s.fwu then fwuRefuse 5 s
  else if s.fwu.ownerLock then fwuRefuse 3 s
  else beginStaging overMctp s

/-- STAGE: FWU command 1 (R432). -/
def execStage (s : State) : Host.Outcome State Fault Refusal :=
  if rcvOpen s then .next (stageCommand false s) else .next s

/-- A check fails: Failed, with its code and REASON (Table 15.5). -/
def fwuFail (code reason : Nat) (s : State) : State :=
  setFlag .fwu 1 { s with fwu := { s.fwu with state := .failed, result := code, reason := reason, verified := false } }

/-- Staging ends with this many blocks staged (Table 15.9). -/
def noteBlocksStaged (blocks : Nat) (s : State) : State :=
  setFlag .fwu 0 { s with fwu := { s.fwu with received := [], progress := blocks } }

/-- The checks of orders 1 and 2 as the parts of an image arrive: order 1 when the header is whole, then order 2 block by block (R428,
R432). Answers the blocks staged, and the code and REASON of a failure. -/
def stagingCheck (length : Nat) (i : Image) : Nat × Option (Nat × Nat) :=
  if i.bytes.length < 4096 ∨ headerBad length i then (0, some (stImageCrc, 1))
  else
    let k := goodBlocks i (min (imgBlocks i) ((i.bytes.length - 4096) / 65568))
    (k, if k < (i.bytes.length - 4096) / 65568 then some (stImageCrc, 2) else none)

/-- Every block has arrived: Staged, or Failed on order 1 or 2 (R428, R432). Over PLDM the check of orders 3 to 6 follows
by itself, since VerifyComplete reports it (R438). -/
def endStaging (bs : List Byte) (s : State) : State :=
  let i : Image := ⟨bs⟩
  let s := noteBlocksStaged (stagingCheck bs.length i).1 s
  match arrivalCheck i with
  | some (c, r) => fwuFail c r s
  | none => { s with fwu := setSlot (otherSlot s.fwu) (some i) { s.fwu with
      state := if s.fwu.overMctp then .verifying else .staged } }

/-- STAGING_DONE: the host's answer to the read of the bytes that STAGE asked for (R432). -/
def execStagingDone (reply : HostReply) (s : State) : Host.Outcome State Fault Refusal :=
  if !(rcvOpen s && s.fwu.state == .staging && !s.fwu.overMctp) then .next s
  else match reply with
    | .data bs => .next (endStaging (bs.take s.fwu.stageLength) s)
    | _ => .next (setFlag .fwu 0 { s with fwu := { s.fwu with state := .failed, result := stHostFault, reason := 0 } })

/-- VERIFY: FWU command 2 (Table 15.5). -/
def execVerify (s : State) : Host.Outcome State Fault Refusal :=
  if !rcvOpen s then .next s
  else if s.fwu.state = .staged then .next { s with fwu := { s.fwu with state := .verifying, reason := 0, result := 0 } }
  else .next (fwuRefuse 5 s)

/-- What a PLDM message shows of the last command: its status code in bits 15:0, its REASON above them (R438, R441; DESIGN CHOICE, log
entry 211). -/
def pldmResult (s : State) : Nat := s.fwu.result + 2 ^ 16 * s.fwu.reason

/-- The result of a transfer or of a verification: 0 for success, 1 for a failure (log entry 211). -/
def pldmCode (s : State) : Nat := if s.fwu.result = 0 then 0 else 1

/-- VERIFY_DONE: Verified or Failed (R428, Table 15.5); over PLDM, VerifyComplete and ApplyComplete report it (R438). -/
def execVerifyDone (crypto : Crypto) (s : State) : Host.Outcome State Fault Refusal :=
  if !(rcvOpen s && s.fwu.state == .verifying) then .next s
  else
    let report := fun (s : State) => if s.fwu.overMctp then emit (.pldm 0x17 (pldmCode s) (pldmResult s)) s else s
    match slotOf s.fwu (otherSlot s.fwu) with
    | none => .next (report (fwuFail stImageCrc 1 s))
    | some i => match cryptoCheck s.fwu i crypto with
      | some (c, r) => .next (report (fwuFail c r s))
      | none =>
        let s := report { s with fwu := { s.fwu with state := .verified, verified := true, reason := 0, result := 0 } }
        .next (if s.fwu.overMctp then emit (.pldm 0x18 0 0) s else s)

/-- The ACTIVATE command: refused, or fetch stops and the drain begins; in Recovery the selector is switched and a device
cold reset is performed (R433 to R435). -/
def activateCommand (s : State) : State :=
  let reason := activateReason s
  if reason ≠ 0 then fwuRefuse reason s
  else if s.mod.st = .recovery then
    deviceReset true s.fwu.overMctp 0 4 false { s with fwu := { s.fwu with selector := otherSlot s.fwu, verified := false } }
  else { s with
    fwu := { s.fwu with state := .activating, act := .draining, reason := 0, result := 0 }
    rcv := { s.rcv with hbSuspended := true, hbSuspendedAt := s.mod.nstNs } }

/-- ACTIVATE: FWU command 3 (R433, R434). -/
def execActivate (s : State) : Host.Outcome State Fault Refusal :=
  if rcvOpen s then .next (activateCommand s) else .next s

/-- Every dispatched descriptor that is in flight has completed (R434 step 2). -/
def drained (s : State) : Bool :=
  s.doors.all fun e => e.2.rings.all fun q => q.2.opened.all fun d => !(d.dispatched && d.counted)

/-- ACTIVATE_DRAIN_DONE: the pause begins, the selector switches and MIN_SVN, of 6 bits, may rise (R426, R434 step 3). The image in the slot
that is now unselected is no longer the one that was verified. -/
def execActivateDrainDone (s : State) : Host.Outcome State Fault Refusal :=
  if s.fwu.act = .draining ∧ drained s then
    let f := s.fwu
    let svn := match slotOf f (otherSlot f) with
      | some i => if (hdrField i 13 1).testBit 0 then min 63 (imgSvn i) else 0
      | none => 0
    .next { s with fwu := { f with selector := otherSlot f, minSvn := max f.minSvn svn, verified := false, act := .reloading } }
  else .next s

/-- Component c differs between the image in force and the selected one (R428). -/
def componentChanged (f : Fwu) (c : Nat) : Bool :=
  match f.active, slotOf f f.selector with
  | some a, some b => componentDigest a c != componentDigest b c
  | _, _ => true

/-- ACTIVATE_RELOAD_DONE: the cores and the changed microcode are reloaded, Chests with work in hand are deferred, fetch
resumes, and changed port microcode starts the reload of the ports one at a time (R434 steps 4 to 8). -/
def execActivateReloadDone (s : State) : Host.Outcome State Fault Refusal :=
  if s.fwu.act ≠ .reloading then .next s
  else
    let deferred := if componentChanged s.fwu 4 then (List.range 256).filter fun c => !chestIdle s c else s.fwu.pendingChests
    let ports := componentChanged s.fwu 5
    let s := { s with
      fwu := { s.fwu with
        pendingChests := deferred, active := slotOf s.fwu s.fwu.selector, activeSlot := s.fwu.selector, fallback := false,
        act := .ports, portsLeft := if ports then List.range 16 else [] }
      rcv := { s.rcv with hbSuspended := false, hbMisses := 0 } }
    .next (if ports then nextPortReload s else activationEnd s)

/-- ACTIVATE_WATCHDOG: the reloads have not completed within 1 s; a device cold reset follows (R436). -/
def execActivateWatchdog (s : State) : Host.Outcome State Fault Refusal :=
  if s.fwu.act = .reloading then .next (deviceReset true false 12 2 false s) else .next s

/-- The ABORT command: Staging, Verifying and Failed return to Idle, and an unfinished slot is left invalid (R432, Table 15.5). -/
def abortCommand (s : State) : State :=
  match s.fwu.state with
  | .staging | .verifying => { s with fwu := setSlot (otherSlot s.fwu) none { s.fwu with
      state := .idle, received := [], reason := 0, result := 0, verified := false, overMctp := false } }
  | .failed => { s with fwu := { s.fwu with state := .idle, reason := 0, result := 0, overMctp := false } }
  | _ => fwuRefuse 5 s

/-- FWU_ABORT: FWU command 4 (R432). -/
def execFwuAbort (s : State) : Host.Outcome State Fault Refusal :=
  if rcvOpen s then .next (abortCommand s) else .next s

/-- FWU_OWNER_SET: a write of FWU_OWNER.SET sets the owner lock (R438). -/
def execFwuOwnerSet (s : State) : Host.Outcome State Fault Refusal :=
  if rcvOpen s then .next { s with fwu := { s.fwu with ownerLock := true } } else .next s

/-! ## PLDM for Firmware Update (R438) -/

/-- The completion code for an activation that is not allowed, with which every refusal of R433 is answered: the PLDM standard's
SELF_CONTAINED_ACTIVATION_NOT_PERMITTED (R438; PRESUMED, log entry 212). -/
abbrev pldmNotAllowed : Nat := 0x8C

/-- The command was refused under R433: it was logged. -/
def refusedBetween (before after : State) : Bool := after.fwu.result == stUpdateRefused && before.logProd != after.logProd

/-- An answer to a PLDM update command: 0, or the code of a refusal with its status code and REASON (R438, R441). -/
def pldmAnswer (cmd : Nat) (before after : State) : State :=
  emit (if refusedBetween before after then .pldm cmd pldmNotAllowed (pldmResult after) else .pldm cmd 0 0) after

/-- REQUEST_UPDATE: an update starts over MCTP; only one is in progress at a time. -/
def execRequestUpdate (s : State) : Host.Outcome State Fault Refusal :=
  if !rcvOpen s then .next s
  else if stageable s.fwu then .next (emit (.pldm 0x10 0 0) { s with fwu := { s.fwu with requested := true, tablePassed := false } })
  else .next (pldmAnswer 0x10 s (fwuRefuse 5 s))

/-- PASS_COMPONENT_TABLE: the single component, the whole image. -/
def execPassComponentTable (s : State) : Host.Outcome State Fault Refusal :=
  if !rcvOpen s then .next s
  else if s.fwu.requested then .next (emit (.pldm 0x13 0 0) { s with fwu := { s.fwu with tablePassed := true } })
  else .next (pldmAnswer 0x13 s (fwuRefuse 5 s))

/-- UPDATE_COMPONENT: as STAGE; the first part is then requested. -/
def execUpdateComponent (s : State) : Host.Outcome State Fault Refusal :=
  if !rcvOpen s then .next s
  else if !(s.fwu.requested && s.fwu.tablePassed) then .next (pldmAnswer 0x14 s (fwuRefuse 5 s))
  else
    let t := stageCommand true s
    .next (if refusedBetween s t then pldmAnswer 0x14 s t else emit (.pldm 0x15 0 0) (pldmAnswer 0x14 s t))

/-- Bytes of the whole image, once its header has arrived. -/
def expectedLength (bs : List Byte) : Nat := 4096 + 65568 * fieldAt bs 14 2

/-- TransferComplete carries the result of staging (R438, R441). -/
def transferComplete (s : State) : State := emit (.pldm 0x16 (pldmCode s) (pldmResult s)) s

/-- FIRMWARE_DATA: 1,024 bytes arrive; the next part is requested, or staging ends (R432, R438). The header is checked once it is whole, and
each block as it is; the first failure ends staging. -/
def execFirmwareData (part : List Byte) (s : State) : Host.Outcome State Fault Refusal :=
  if !(rcvOpen s && s.fwu.state == .staging && s.fwu.overMctp) then .next s
  else
    let bs := s.fwu.received ++ part
    if bs.length < 4096 then .next (emit (.pldm 0x15 0 bs.length) { s with fwu := { s.fwu with received := bs } })
    else match stagingCheck (expectedLength bs) ⟨bs.take (expectedLength bs)⟩ with
      | (k, some (c, r)) => .next (transferComplete (fwuFail c r (noteBlocksStaged k s)))
      | (k, none) =>
        if expectedLength bs ≤ bs.length then .next (transferComplete (endStaging (bs.take (expectedLength bs)) s))
        else .next (emit (.pldm 0x15 0 bs.length) { s with fwu := { s.fwu with received := bs, progress := k } })

/-- ACTIVATE_FIRMWARE: as ACTIVATE. -/
def execActivateFirmware (s : State) : Host.Outcome State Fault Refusal :=
  if rcvOpen s then .next (pldmAnswer 0x1A s (activateCommand s)) else .next s

/-- GET_STATUS: the update state, with REASON and RESULT, laid out as FWU_STATE (R438, R441; DESIGN CHOICE, log entry 211). -/
def execGetStatus (s : State) : Host.Outcome State Fault Refusal :=
  if rcvOpen s then .next (emit (.pldm 0x1B 0 (s.fwu.state.code + 256 * s.fwu.reason + 2 ^ 16 * s.fwu.result)) s) else .next s

/-- CANCEL_UPDATE: as ABORT. -/
def execCancelUpdate (s : State) : Host.Outcome State Fault Refusal :=
  if rcvOpen s then
    let t := pldmAnswer 0x1D s (abortCommand s)
    .next { t with fwu := { t.fwu with requested := false, tablePassed := false } }
  else .next s

end Sys2Proof.Machine
end

