-- ==== Sys2Proof/Machine/Optics.lean ====
section
/-!
DEFINITION. The commands of the ports and laser bays: flits, link training, lanes, laser sources and port registers (R294 to
R315 of spec/09_optical_fabric.md; R434 of spec/15; R455 of spec/16).
-/
namespace Sys2Proof.Machine

/-! ## Flits (R292 to R297) -/

/-- A flit with a bad check value: discarded whole, NAK in the next flit sent, and data flits discarded until the expected one
arrives (R292, R294). -/
def badFlit (p : Nat) (s : State) : State :=
  sendIdle p (modPort p (fun q => { q with nak := true, discarding := true }) (bump cOptCrc 1 s))

/-- DATA_FLIT_RECEIVED: acknowledgement, credits and NAK take effect, the flit is accepted in order, and the answer leaves in
the next flit sent (R294, R297). -/
def execDataFlitReceived (p : Fin 16) (bytes : List Byte) (s : State) : Host.Outcome State Fault Refusal :=
  let h := fieldAt bytes 0 8
  if !(port s p).live then .next s
  else if !flitGood bytes then .next (badFlit p s)
  else if h % 4 ≠ 1 then .next s
  else .next (sendIdle p (pumpPair (pump p (acceptData p h bytes (takeFields p h (endPeerHold p s))))))

/-- Take a flit without data on a live link: one with a bad check value is discarded; else its acknowledgement, credits and NAK take
effect, and `k` does the rest (R292, R294, R297, R302). -/
def onManagement (p : Nat) (bytes : List Byte) (k : State → State) (s : State) : State :=
  if !(port s p).live then s
  else if !flitGood bytes then badFlit p s
  else pump p (k (takeFields p (fieldAt bytes 0 8) s))

/-- IDLE_FLIT_RECEIVED: its acknowledgement, credits and NAK take effect, and it ends a Hold of the peer (R294, R297, R310). A
link-management flit that reports the removal of a lane (code 7) comes by this command too (log entry 41). -/
def execIdleFlitReceived (p : Fin 16) (bytes : List Byte) (s : State) : Host.Outcome State Fault Refusal :=
  let kind := fieldAt bytes 0 8 % 4
  if kind = 0 then .next (pumpPair (onManagement p bytes id (if flitGood bytes then endPeerHold p s else s)))
  else if kind = 2 ∧ fieldAt bytes 8 1 = 7 then .next (onManagement p bytes (peerRemoved p (fieldAt bytes 9 4)) s)
  else .next s

/-- REPLAY_TIMEOUT: the oldest unacknowledged flit has waited 2 µs and twice the round trip (R294, R295). -/
def execReplayTimeout (p : Fin 16) (s : State) : Host.Outcome State Fault Refusal := .next (beginReplay p false s)

/-! ## Training and liveness (R300 to R303) -/

/-- HELLO: the neighbour's address and port and the round trip are kept; address 0 or the module's own fails training (R301). -/
def execHello (p : Fin 16) (addr : BitVec 20) (nport : Fin 16) (rtt : Nat) (s : State) : Host.Outcome State Fault Refusal :=
  if (port s p).st ≠ .training then .next s
  else if addr.toNat = 0 ∨ addr.toNat = selfAddr s then .next (portReloaded p (trainFail p stAddrConflict s))
  else .next (tellPeer p 8 (selfAddr s + 2 ^ 20 * p) (modPort p (fun q => { q with
    hello := true, neighbour := addr.toNat, neighPort := nport, rtt := min 65535 rtt }) s))

/-- LINK_HEARTBEAT_SEND: every live port sends a heartbeat (R302). -/
def execLinkHeartbeatSend (s : State) : Host.Outcome State Fault Refusal :=
  .next ((List.range 16).foldl (fun s p => if (port s p).live then tellPeer p 2 0 s else s) s)

/-- LINK_HEARTBEAT: silence counts from now (R302). -/
def execLinkHeartbeat (f : PortFlit) (s : State) : Host.Outcome State Fault Refusal :=
  .next (onManagement f.port f.bytes (modPort f.port (fun q => { q with heardAt := s.mod.devTime })) s)

/-- The NAK of a flit that arrives would begin the 64th retry (R295). -/
def exhaustsBy (s : State) (p : Nat) (bytes : List Byte) : Bool :=
  let h := fieldAt bytes 0 8
  flitGood bytes && h.testBit 56 && lastRetry ((port s p).takeAck h)

/-- The replay of a port is exhausted in this nanosecond by a command that waits in the queue: a timeout, or a flit that carries NAK
(R295, Table 9.7). -/
def exhaustionWaits (s : State) (p : Fin 16) : Bool :=
  s.pending.any fun i => match i with
    | .replayTimeout q => q == p && lastRetry (port s p)
    | .dataFlitReceived q b => q == p && fieldAt b 0 1 % 4 == 1 && exhaustsBy s p b
    | .idleFlitReceived q b => q == p && fieldAt b 0 1 % 4 == 0 && exhaustsBy s p b
    | .linkHeartbeat f => f.port == p && exhaustsBy s p f.bytes
    | .spareRequest f _ => f.port == p && exhaustsBy s p f.bytes
    | .spareAcknowledged f => f.port == p && exhaustsBy s p f.bytes
    | _ => false

/-- LINK_HEARTBEAT_TIMEOUT: 150 µs of silence, which does not count in Hold (R302). One that coincides with the exhaustion of the
replay is logged as REPLAY_EXHAUSTED (Table 9.7). -/
def execLinkHeartbeatTimeout (p : Fin 16) (s : State) : Host.Outcome State Fault Refusal :=
  .next (if !(port s p).usable then s
    else if exhaustionWaits s p then replayExhausted p s
    else linkLost p stLinkDown s)

/-- LANE_SIGNAL_LOSS: every receive lane has lost its signal (R302). -/
def execLaneSignalLoss (p : Fin 16) (s : State) : Host.Outcome State Fault Refusal :=
  if !(port s p).live then .next s
  else .next (linkLost p stLinkDown ((List.range 9).foldl (fun s w => modLane p w (fun l => { l with lock := false }) s) s))

/-- PEER_STARTS_TRAINING: the peer sends the training sequence on a live link (R302). -/
def execPeerStartsTraining (p : Fin 16) (s : State) : Host.Outcome State Fault Refusal := .next (linkLost p stLinkDown s)

/-- The eye of a wavelength passes training (R300). -/
def eyePasses (e : Byte × Byte) : Bool := decide (64 ≤ e.1.toNat) && decide (48 ≤ e.2.toNat)

/-- The lane map that training agrees: lane k on wavelength k where that passes. -/
def trainedMap (passes : Nat → Bool) : List Nat := (List.range 8).map fun k => if passes k then k else 15

/-- The receive lanes as training measured them (R300). -/
def trainedLanes (eyes : List (Byte × Byte)) (p : Nat) (s : State) : State :=
  (List.range 9).foldl (fun s w =>
    let e := eyes.getD w (0, 0)
    modLane p w (fun _ => { eyeW := e.1.toNat, eyeH := e.2.toNat, lock := true, failed := !eyePasses e, ser := 0 }) s) s

/-- TRAINING_PASS: every step of Table 9.5 has been reached. `tx` tells which transmit wavelengths passed at the peer, `eyes` the
eyes of the nine received ones. With too few lanes in a direction training fails; else the port is Up or Degraded, holds full
credit, and waiting packets leave (R297, R300, R303, R304, R462). -/
def execTrainingPass (p : Fin 16) (tx : BitVec 9) (eyes : List (Byte × Byte)) (s : State) : Host.Outcome State Fault Refusal :=
  let q := port s p
  if q.st ≠ .training ∨ !q.hello ∨ !groupLit s (p / 4) then .next s
  else
    let txMap := trainedMap tx.getLsbD
    let rxMap := trainedMap fun w => eyePasses (eyes.getD w (0, 0))
    let s := trainedLanes eyes p s
    if lanesIn txMap < minLanes s ∨ lanesIn rxMap < minLanes s then .next (portReloaded p (trainFail p stTrainFail s))
    else
      let st := if lanesIn txMap = 8 ∧ lanesIn rxMap = 8 then PortState.up else PortState.degraded
      let s := modPort p (fun q => { q with
        st := st, hello := false, txMap := txMap, rxMap := rxMap, credit0 := 4096, credit1 := 256, heardAt := s.mod.devTime }) s
      .next (portReloaded p (pumpPair (pump p s)))

/-- TRAINING_TIMEOUT: training is abandoned after 10 ms (R300, R304). -/
def execTrainingTimeout (p : Fin 16) (s : State) : Host.Outcome State Fault Refusal :=
  if (port s p).st = .training then .next (portReloaded p (trainFail p stTrainFail s)) else .next s

/-- DOWN_RETRAIN_TIMER: 10 ms after Down the port trains again (R303). -/
def execDownRetrainTimer (p : Fin 16) (s : State) : Host.Outcome State Fault Refusal :=
  if (port s p).st = .down then .next (startTraining p s) else .next s

/-! ## Lanes (R305 to R307) -/

/-- The wavelength fails in a window with these measurements (R305). -/
def laneFailing (s : State) (ser : List Word) (uncorr noLock : BitVec 9) (w : Nat) : Bool :=
  decide (reg s rOptSer < (ser.getD w 0).toNat) || uncorr.getLsbD w || noLock.getLsbD w

/-- The spare wavelength of the receive direction is free and not failing. -/
def spareFree (q : Port) (failing : Bool) : Bool :=
  !q.rxMap.contains 8 && q.spareAsked.isNone && !(tabGet {} q.lanes 8).failed && !failing

/-- Remove the logical lanes that cannot be spared, while the link lives. -/
def removeLanes (p : Nat) (ks : List Nat) (s : State) : State :=
  ks.foldl (fun s k => if (port s p).usable then removeLane p k s else s) s

/-- LANE_MONITOR_WINDOW: the lowest failing lane takes the spare where it may; the others are removed (R305 to R307). The operands
are the symbol error ratios by wavelength, those with an uncorrectable codeword, and those that lost lock. Lanes that fail in a window
that ends in Hold are handled in the first window after it (Table 9.7). -/
def execLaneMonitorWindow (p : Fin 16) (ser : List Word) (uncorr noLock : BitVec 9) (s : State) : Host.Outcome State Fault Refusal :=
  if !(port s p).live then .next s
  else
    let late := (port s p).failedHold
    let measured := 8 :: (port s p).rxMap.filter (fun w => decide (w < 8))
    let s := measured.foldl (fun s w => modLane p w (fun l => { l with
      ser := (ser.getD w 0).toNat, lock := !noLock.getLsbD w }) s) s
    let q := port s p
    let bad := (List.range 8).filter fun k =>
      let w := q.rxMap.getD k 15
      decide (w ≠ 15) && (laneFailing s ser uncorr noLock w || late.contains w) && q.spareAsked != some k
    if q.st = .hold then .next (modPort p (fun q => { q with failedHold := bad.map fun k => q.rxMap.getD k 15 }) s)
    else
    let s := modPort p (fun q => { q with failedHold := [] }) s
    match bad with
    | [] => .next s
    | k :: ks =>
      if regBit s rOptCtrl 20 && spareFree q (laneFailing s ser uncorr noLock 8) then
        .next (removeLanes p ks (tellPeer p 3 k (modPort p (fun q => { q with spareAsked := some k }) s)))
      else .next (removeLanes p bad s)

/-- SPARE_REQUEST: a peer's request for the transmit spare is acknowledged and the lane moves (R306). -/
def execSpareRequest (f : PortFlit) (k : Fin 8) (s : State) : Host.Outcome State Fault Refusal :=
  .next (onManagement f.port f.bytes (fun s =>
    let q := port s f.port
    if !q.usable || q.txMap.contains 8 || q.txMap.getD k 15 == 15 then s
    else logLink stLaneSpared f.port k (setFlag .opt 2 (modPort f.port (fun q => { q with txMap := q.txMap.set k 8 }) (tellPeer f.port 4 k s)))) s)

/-- SPARE_ACKNOWLEDGED: the requested lane moves onto wavelength 8, and its old wavelength is failed (R306, R307). -/
def execSpareAcknowledged (f : PortFlit) (s : State) : Host.Outcome State Fault Refusal :=
  .next (onManagement f.port f.bytes (fun s =>
    match (port s f.port).live, (port s f.port).spareAsked with
    | true, some k =>
      let s := modLane f.port ((port s f.port).rxMap.getD k 15) (fun l => { l with failed := true }) s
      logLink stLaneSpared f.port k (setFlag .opt 2 (modPort f.port (fun q => { q with rxMap := q.rxMap.set k 8, spareAsked := none }) s))
    | _, _ => s) s)

/-- EYE_REMEASURE: the eyes of lanes in service and of the spare, every 10 ms (R307); CAL_EYE_MIN follows them. -/
def execEyeRemeasure (samples : List (Fin 16 × Fin 9 × Byte × Byte)) (s : State) : Host.Outcome State Fault Refusal :=
  .next (samples.foldl (fun s e =>
    let q := port s e.1
    if q.live && (e.2.1.val == 8 || q.rxMap.contains e.2.1.val) then
      modLane e.1 e.2.1 (fun l => { l with eyeW := e.2.2.1.toNat, eyeH := e.2.2.2.toNat }) s
    else s) s)

/-! ## Laser sources (R308 to R310, R455) -/

/-- LASER_FAULT: an output of a bay falls below its limit, or the bay reports a fault (R308, R309). -/
def execLaserFault (b : Fin 5) (s : State) : Host.Outcome State Fault Refusal :=
  if s.mod.st ≠ .off ∧ (bay s b).present ∧ (bay s b).healthy then .next (pumpPair (bayFault b (modBay b (fun y => { y with healthy := false }) s)))
  else .next s

/-- LIGHT_RETURNS: the move of a group onto a spare completes and the map shows it (R309). -/
def execLightReturns (g : Fin 4) (s : State) : Host.Outcome State Fault Refusal :=
  match s.opt.moving.find? (·.1 == g.val) with
  | some (_, b) =>
    .next (refreshSpare (modBay b (fun y => { y with safe := false }) { s with opt := { s.opt with
      map := s.opt.map.set g b, moving := s.opt.moving.filter (·.1 != g.val) } }))
  | none => .next s

/-- A port enters Hold, for the peer or for the module's own transfer (R310). -/
def enterHold (peer : Bool) (p : Nat) (s : State) : State :=
  if (port s p).usable then modPort p (fun q => { q with prior := q.st, st := .hold, peerHold := peer }) s else s

/-- LASER_RELEASE: a planned transfer of the bay's group to the healthy spare starts, or is refused with result 2 or 3. It is
ignored while one runs, or while the group moves (R310). -/
def execLaserRelease (b : Fin 8) (s : State) : Host.Outcome State Fault Refusal :=
  if !inService s then .next s
  else
    let s := setReg rOptLaserCtrl b s
    if s.opt.transfer.isSome then .next s
    else match healthySpare s, groupOf s b with
      | none, _ => .next { s with opt := { s.opt with result := 2 } }
      | some _, none => .next { s with opt := { s.opt with result := 3 } }
      | some sp, some g =>
        if s.opt.moving.any (·.1 == g) then .next s
        else
          let s := { s with opt := { s.opt with transfer := some (g, b.val, sp), result := 0 } }
          .next ((groupPorts g).foldl (fun s p => if (port s p).usable then tellPeer p 5 0 (enterHold false p s) else s) s)

/-- HOLD_REQUEST: the peer asks for Hold (R310). -/
def execHoldRequest (f : PortFlit) (s : State) : Host.Outcome State Fault Refusal :=
  .next (onManagement f.port f.bytes (enterHold true f.port) s)

/-- LASER_TRANSFER: the crossbar move of a planned transfer completes (R310). -/
def execLaserTransfer (s : State) : Host.Outcome State Fault Refusal :=
  match s.opt.transfer with
  | some (g, b, sp) =>
    let s := { s with opt := { s.opt with map := s.opt.map.set g sp } }
    let s := modBay sp (fun y => { y with safe := false }) (modBay b (fun y => { y with safe := true }) s)
    let s := logEntry { code := stLaserTransfer, source := 6, engine := b, detail := 4 * g } s
    .next (pumpPair (refreshSpare (endTransfer 1 s)))
  | none => .next s

/-- HOLD_TIMEOUT: a port has been in Hold for 100 µs (R303). -/
def execHoldTimeout (p : Fin 16) (s : State) : Host.Outcome State Fault Refusal :=
  if (port s p).st = .hold then .next (linkLost p stLinkDown s) else .next s

/-- BAY_INSERTED: a source is fitted, in any state; it reads as present once its slot has standby power, and is a spare once it
reads healthy (R310, R455). -/
def execBayInserted (b : Fin 5) (healthy : Bool) (temp power : Byte) (s : State) : Host.Outcome State Fault Refusal :=
  if (bay s b).fitted then .next s
  else .next (refreshSpare (modBay b (fun _ => {
    fitted := true, present := s.mod.st != .off, healthy := healthy, safe := false, temp := temp.toNat, power := power.toNat }) s))

/-- BAY_INTERLOCK_OPEN: the bay's output is disabled; a serving bay that has not been released becomes faulty (R308, R455). -/
def execBayInterlockOpen (b : Fin 5) (s : State) : Host.Outcome State Fault Refusal :=
  let y := bay s b
  let s := modBay b (fun _ => {}) s
  if y.present && y.healthy then .next (pumpPair (bayFault b s)) else .next (if s.mod.st = .off then s else refreshSpare s)

/-! ## Port registers (R303, R307, R311, R315) -/

/-- RETRAIN: the link goes down and trains (R307). -/
def execRetrain (p : Fin 16) (s : State) : Host.Outcome State Fault Refusal :=
  if inService s then .next (retrainPort p s) else .next s

/-- PORT_RESET: replay buffer, credits, lane maps and neighbour entry are cleared, packets follow R304, and the port trains (R315). -/
def execPortReset (p : Fin 16) (s : State) : Host.Outcome State Fault Refusal :=
  if !inService s then .next s
  else
    let s := breakArrivals p s
    let ks := (port s p).allPackets
    let train := (port s p).st != .disabled
    let s := modPort p (fun q => { q.clearLink with
      st := if train then .training else .disabled, neighbour := 0, neighPort := 0
      txMap := ({} : Port).txMap, rxMap := ({} : Port).rxMap }) s
    .next (if train then requeue p ks (tellPeer p 6 0 s) else s)

/-- The value OPT_CTRL takes: PORT_EN stays while ADDR is 0, MIN_LANES outside 1 to 8 stays (R311, Table 9.10). -/
def optCtrlValue (s : State) (v : Nat) : Nat :=
  let old := reg s rOptCtrl
  let en := if selfAddr s = 0 then old % 65536 else v % 65536
  let lanes := bitsOf v 19 16
  en + (if 1 ≤ lanes ∧ lanes ≤ 8 then lanes else bitsOf old 19 16) * 65536 + bitsOf v 22 20 * 2 ^ 20 + bitsOf v 27 24 * 2 ^ 24

/-- A port follows its enable bit (Table 9.6). -/
def followEnable (en : Nat) (p : Nat) (s : State) : State :=
  if en.testBit p then (if (port s p).st = .disabled then startTraining p s else s)
  else if (port s p).st = .disabled then s
  else portReloaded p (leaveLink p .disabled s)

/-- A link with fewer than MIN_LANES lanes in a direction is lost (R302). -/
def checkLanes (p : Nat) (s : State) : State :=
  let q := port s p
  if q.live ∧ (lanesIn q.txMap < minLanes s ∨ lanesIn q.rxMap < minLanes s) then linkLost p stLinkDown s else s

/-- OPT_CTRL_WRITE (R303, R311). -/
def execOptCtrlWrite (value : Word) (s : State) : Host.Outcome State Fault Refusal :=
  if !inService s then .next s
  else
    let v := optCtrlValue s value.toNat
    let s := setReg rOptCtrl v s
    .next ((List.range 16).foldl (fun s p => checkLanes p (followEnable (v % 65536) p s)) s)

/-- OPT_SELF_WRITE: only while every PORT_EN bit is clear (R311). -/
def execOptSelfWrite (value : Word) (s : State) : Host.Outcome State Fault Refusal :=
  if inService s && reg s rOptCtrl % 65536 == 0 then .next (setReg rOptSelf (value.toNat % 2 ^ 20) s) else .next s

end Sys2Proof.Machine
end

