-- ==== Sys2Proof/Machine/Registers.lean ====
section
/-!
DEFINITION. Writes of event flags, of their event counters, and of the registers that have no command of their own (R6 of
spec/00_scope.md; R324 to R326 of spec/10_host_rings.md and the register tables of every chapter).
-/
namespace Sys2Proof.Machine

/-! ## Event flags (R325) -/

/-- For each W1C bit of a block's STATUS register, the byte of STATUS_EVT that counts its set-wins events. -/
def evtFields : Block → List Nat
  | .hif => [0, 1, 2, 3]
  | .drw => [0, 1, 2, 3, 3]
  | .pln => [0, 1, 2, 3, 3]
  | .trs => [0, 1, 2]
  | .drs => [0, 0, 1, 2, 3, 3]
  | .rdx => [0, 2, 1, 3, 1, 2, 3]
  | .opt => [0, 0, 1, 2, 2, 3, 0, 0]
  | .mem => [0, 1, 1, 2]
  | .cal => [0, 1, 2, 2, 3]
  | .nst => [0, 1, 2, 3, 2]
  | .rcv => [0, 1, 1, 2, 3]
  | .fwu => [0, 1, 2, 3]
  | .pwr => [0, 1, 2, 2, 3]

/-- The block whose STATUS or STATUS_EVT register lies at an offset. -/
def statusBlock (off : Nat) : Option Block := Block.all.find? fun b => b.base + b.statusAt == off
def evtBlock (off : Nat) : Option Block := Block.all.find? fun b => b.base + b.evtAt == off

/-- Add 1 to a byte of an event register; it stops at 255 (R325). -/
def countEvt (field : Nat) (r : StatusReg) : StatusReg :=
  let e := r.evt.toNat
  if bitsOf e (8 * field + 7) (8 * field) = 255 then r else { r with evt := BitVec.ofNat 32 (e + 2 ^ (8 * field)) }

/-- One written bit of a STATUS register: cleared, or set and counted where its event falls in the same cycle. -/
def w1cBit (b : Block) (v coincide : Nat) (r : StatusReg) (i : Nat) : StatusReg :=
  if !v.testBit i then r
  else if coincide.testBit i then
    countEvt ((evtFields b).getD i 0) { r with status := r.status ||| BitVec.ofNat 32 (2 ^ i) }
  else { r with status := r.status &&& ~~~(BitVec.ofNat 32 (2 ^ i)) }

/-- A written bit of DRW_WORN: the Drawer's flag is cleared, or set and counted in WORN_EVT (Tables 2.15 and 2.18). -/
def wornBit (d : Nat) (coincide : Bool) (s : State) : State :=
  if coincide then
    { modDrawer d (fun w => { w with worn := true }) s with flags := tabMod {} s.flags Block.drw.code (countEvt 2) }
  else modDrawer d (fun w => { w with worn := false }) s

/-- First byte of DRW_WORN. -/
abbrev rDrwWorn : Nat := 0x0220000

/-- W1C_WRITE: a write to a STATUS register or to DRW_WORN. `coincide` holds the bits whose hardware event falls in the cycle of
the write: a written one stays set and its counter counts 1 (R325). -/
def execW1cWrite (off : BitVec 26) (value coincide : DWord) (s : State) : Host.Outcome State Fault Refusal :=
  let o := off.toNat
  let v := value.toNat
  if !bar0Takes s o then .next s
  else match statusBlock o with
    | some b => .next { s with flags := tabMod {} s.flags b.code fun r =>
        (List.range (evtFields b).length).foldl (w1cBit b v coincide.toNat) r }
    | none =>
      if rDrwWorn ≤ o ∧ o < rDrwWorn + 2048 ∧ o % 4 = 0 then
        .next ((List.range 64).foldl (fun s i =>
          if v.testBit i ∧ 8 * (o - rDrwWorn) + i < 16384 then wornBit (8 * (o - rDrwWorn) + i) (coincide.toNat.testBit i) s else s) s)
      else .next s

/-- EVENT_COUNTER_WRITE: each byte of a STATUS_EVT register written 0 is cleared; a byte written otherwise is unchanged (R325). -/
def execEventCounterWrite (off : BitVec 26) (value : Word) (s : State) : Host.Outcome State Fault Refusal :=
  if !bar0Takes s off.toNat then .next s
  else match evtBlock off.toNat with
    | some b => .next { s with flags := tabMod {} s.flags b.code fun r =>
        let keep := fun k => if bitsOf value.toNat (8 * k + 7) (8 * k) = 0 then 0 else bitsOf r.evt.toNat (8 * k + 7) (8 * k)
        { r with evt := BitVec.ofNat 32 (keep 0 + keep 1 * 2 ^ 8 + keep 2 * 2 ^ 16 + keep 3 * 2 ^ 24) } }
    | none => .next s

/-! ## Registers with no command of their own (R6, R324) -/

/-- A value within its range, else the field's old value. -/
def inRange (lo hi v old : Nat) : Nat := if lo ≤ v ∧ v ≤ hi then v else old

/-- RDX_TIMER0 as written, where R286 permits it. -/
def timer0Value (old v : Nat) : Nat :=
  let d := bitsOf v 15 0
  let a := bitsOf v 31 16
  let l := bitsOf v 47 32
  let p := bitsOf v 63 48
  if 1000 ≤ d ∧ 10 ≤ a ∧ a ≤ 30000 ∧ 200 ≤ l ∧ l ≤ 10000 ∧ 200 ≤ p ∧ p ≤ 10000 ∧ l + p < d ∧ d < a * 1000 then v else old

/-- RDX_TIMER1 as written, where R286 permits it. -/
def timer1Value (old v : Nat) : Nat :=
  let h := bitsOf v 15 0
  let w := bitsOf v 31 16
  if 100 ≤ h ∧ h ≤ 10000 ∧ 1 ≤ w ∧ w ≤ 1000 then v else old

/-- One slice field of RCV_DUMP_CTRL with its enable bit: 95 and above leave the slice unchanged (Table 14.10). -/
def dumpSliceField (old v i : Nat) : Nat :=
  let k := bitsOf v (8 * i + 14) (8 * i + 8)
  ((if k ≤ 94 then k else bitsOf old (8 * i + 14) (8 * i + 8)) + 128 * bitsOf v (8 * i + 15) (8 * i + 15)) * 2 ^ (8 * i + 8)

/-- A per-context RDX_ register at offset `o` of its page: whether it is 64 bits wide, and its value. RDX_GROUPn is unchanged
while a step of any context is open (R289). -/
def rdxContextValue (s : State) (o old v : Nat) : Option (Bool × Nat) :=
  if o = 0x0 then some (true, if (List.range 16).any (stepOpen s) then old else v % 2 ^ 51)
  else if o = 0x20 then some (false, v)
  else if o = 0x28 ∨ o = 0x30 ∨ o = 0x40 ∨ o = 0x48 ∨ o = 0x50 ∨ o = 0x58 ∨ o = 0x60 ∨ o = 0x68 then some (true, v)
  else if 0x100 ≤ o ∧ o < 0x200 ∧ o % 4 = 0 then some (false, v &&& 0x800FFFFF)
  else none

/-- A 32-bit or 64-bit register of the physical function that has no command of its own: whether it is 64 bits wide, and the value
that a write of `v` leaves (Tables 2.12 to 16.9). -/
def plainValue (s : State) (off v : Nat) : Option (Bool × Nat) :=
  let old := reg s off
  if off = rHifCtrl then some (false, v % 2)
  else if rCapNext 0 ≤ off ∧ off ≤ rCapNext 3 ∧ off % 16 = 4 then
    some (false, old % 2 ^ 24 + inRange 1 1 (bitsOf v 31 24) (bitsOf old 31 24) * 2 ^ 24)
  else if rHifQuota 1 ≤ off ∧ off < rHifQuota 16 ∧ off % 4 = 0 then some (false, min 4096 (v % 8192))
  else if off = rDrwCtrl then some (false, v % 8)
  else if off = rDrwWornLimit then some (false, v % 2 ^ 24)
  else if off = 0x0200100 ∨ off = 0x0300100 ∨ off = rMemDsel then some (false, v % 16384)
  else if off = rPlnCtrl then some (false, v % 16)
  else if rPlnLagLimit 0 ≤ off ∧ off < rPlnLagLimit 16 ∧ off % 16 = 0 then some (false, v % 256)
  else if off = rTrsCtrl then some (false, v &&& 0xFFFF0003)
  else if off = rTrsWdogDefault ∨ off = rDrsWdogDefault then some (false, inRange 10 2550 (v % 4096) old)
  else if rTrsExtBase 0 ≤ off ∧ off < rTrsExtBase 16 ∧ off % 16 = 0 then some (true, v / 32 * 32)
  else if rTrsExtBase 0 ≤ off ∧ off < rTrsExtBase 16 ∧ off % 16 = 8 then some (false, min 65536 (v % 2 ^ 17))
  else if off = rDrsCtrl then some (false, v % 4)
  else if off = rDrsIlimitDefault then some (false, if v = 0 then old else v)
  else if off = rDrsUnitOff then some (true, v)
  else if off = rRdxCtrl then some (false, v % 256)
  else if off = rRdxTimer0 then some (true, timer0Value old v)
  else if off = rRdxTimer1 then some (false, timer1Value old v)
  else if rRdxCtx 0 ≤ off ∧ off < rRdxCtx 16 then rdxContextValue s ((off - rRdxCtx 0) % 0x1000) old v
  else if off = rOptSer then some (false, v)
  else if off = rOptLaserCtrl then some (false, v % 8)
  else if off = rMemCtrl then
    some (false, v % 4 + (if bitsOf v 31 16 = 0 then bitsOf old 31 16 else bitsOf v 31 16) * 2 ^ 16)
  else if off = rCalCtrl then some (false, v % 8)
  else if off = rCalTrig then some (false, inRange 8 160 (v % 256) old)
  else if off = rCalLimit then some (false, v % 64)
  else if off = rNstCtrl then some (false, v % 2 + 256 * inRange 1 64 (bitsOf v 14 8) (bitsOf old 14 8))
  else if off = rNstAdcSel then some (false, inRange 0 23 (v % 32) old)
  else if rNstFilt 0 ≤ off ∧ off < rNstFilt 24 ∧ off % 4 = 0 then some (false, inRange 0 12 (v % 16) old)
  else if off = rRcvCtrl then some (false, v % 16)
  else if off = rRcvDumpCtrl then some (false, v % 2 + dumpSliceField old v 0 + dumpSliceField old v 1 + dumpSliceField old v 2)
  else if rRcvCtxWdog 0 ≤ off ∧ off < rRcvCtxWdog 16 ∧ off % 4 = 0 then some (false, inRange 10 65535 (v % 65536) old)
  else if off = rFwuCtrl then some (false, v % 2)
  else if off = rFwuSrcAddr then some (true, v)
  else if off = rFwuLength then some (false, v)
  else if off = rPwrCtrl then some (false, v % 2)
  else none

/-- The width, 64 bits or not, of a register of the physical function that is read-only or has a command of its own (the register tables
of every chapter). -/
def fixedWide (off : Nat) : Option Bool :=
  let o := off % 0x100000
  let pick := fun (narrow wide : List Nat) => if narrow.contains o then some false else if wide.contains o then some true else none
  let cells := fun (lo step n : Nat) => decide (lo ≤ o) && decide (o < lo + step * n) && (o - lo) % step == 0
  match off / 0x100000 with
  | 0 =>
    if (0x100 ≤ o ∧ o < 0x13C ∧ o % 4 = 0) ∨ o = 0x1000 then some false
    else if cells 0x2000 8 512 then some true
    else pick [0x0, 0x10, 0x18, 0x20, 0x1040] [0x28, 0x40, 0x48, 0x50]
  | 2 => pick [0x10, 0x18, 0x108] [0x0, 0x40, 0x48, 0x50, 0x58, 0x60, 0x68, 0x70, 0x110]
  | 3 => if cells 0x2008 0x10 16 then some true
    else pick [0x10, 0x18, 0x20, 0x108, 0x118, 0x130] [0x0, 0x40, 0x48, 0x50, 0x58, 0x60, 0x68, 0x110, 0x120, 0x128, 0x138]
  | 4 => if cells 0x10000 8 16 then some true else pick [0x10, 0x18, 0x28] [0x0, 0x40, 0x48, 0x50, 0x58, 0x60]
  | 5 => if cells 0x10000 8 64 then some true else pick [0x10, 0x18] [0x0, 0x38, 0x40, 0x48, 0x50, 0x58, 0x60, 0x68, 0x70]
  | 6 => if cells 0x10008 0x1000 16 || cells 0x10038 0x1000 16 then some false
    else if cells 0x10010 0x1000 16 || cells 0x10018 0x1000 16 then some true
    else pick [0x10, 0x18, 0x38] [0x0, 0x30, 0x40, 0x48, 0x50, 0x58, 0x60, 0x68, 0x70, 0x78, 0x80, 0x88]
  | 7 => if cells 0x80000 8 16 || cells 0x10000 0x100 16 then some true
    else if 0x10000 ≤ o ∧ o < 0x11000 then
      (if [0x8, 0xC, 0x10, 0x18].contains (o % 0x100) then some false
       else if 0x40 ≤ o % 0x100 ∧ o % 0x100 < 0x88 ∧ o % 8 = 0 then some true else none)
    else if cells 0x20010 8 5 then some false
    else pick [0x8, 0x10, 0x18, 0x20, 0x20000] [0x0, 0x40, 0x48, 0x50, 0x58, 0x60, 0x68, 0x70, 0x78]
  | 8 => if cells 0x108 8 4 || cells 0x10000 8 1024 then some true
    else pick [0x10, 0x18, 0x20, 0x28] [0x0, 0x40, 0x48, 0x50, 0x58, 0x60, 0x68]
  | 9 => if cells 0x100 8 16 then some true else pick [0x10, 0x18, 0x30, 0x38, 0x60, 0x68] [0x0, 0x40, 0x48, 0x50, 0x58]
  | 10 => if cells 0x200 8 32 || cells 0x10000 8 4096 then some true
    else pick [0x10, 0x18, 0x28, 0x30, 0x40, 0x50] [0x0, 0x38, 0x48]
  | 11 => if cells 0x100 8 4 then some true else pick [0x10, 0x18, 0x20, 0x28] [0x0, 0x38, 0x40, 0x48, 0x50]
  | 12 => pick [0x10, 0x18, 0x20, 0x28, 0x40, 0x58, 0x60, 0x68] [0x0, 0x48, 0x50]
  | 13 => pick [0x10, 0x18, 0x20, 0x28, 0x30] [0x0, 0x40, 0x48]
  | _ => none

/-- The width of the register at an offset of the physical function. -/
def registerWide (s : State) (off : Nat) : Option Bool := ((plainValue s off 0).map (·.1)).or (fixedWide off)

/-- The width of the register at an offset of a doorbell page (Table 10.14). -/
def doorWide (o : Nat) : Option Bool :=
  if o < 0x200 then
    (if o % 0x40 = 0 ∨ o % 0x40 = 8 then some true
     else if o % 0x40 = 0x10 ∨ o % 0x40 = 0x14 ∨ o % 0x40 = 0x18 ∨ o % 0x40 = 0x1C then some false else none)
  else if o = 0x200 ∨ o = 0x218 then some true
  else if o = 0x208 ∨ o = 0x20C ∨ o = 0x210 ∨ o = 0x300 ∨ o = 0x304 ∨ (0x800 ≤ o ∧ o < 0xC00 ∧ o % 4 = 0) then some false
  else none

/-- An aligned access is of the wrong width: that of the register at its offset is another, or it reaches the upper half of a 64-bit
register alone (R324). -/
def wrongWidth (width : Nat → Option Bool) (off : Nat) (wide : Bool) : Bool :=
  width off == some (!wide) || (!wide && off % 8 == 4 && width (off - 4) == some true)

/-- A byte of an array register: its new value, or the old one where R6 or the table leaves it unchanged. -/
def scanByte (old v : Nat) : Nat := if v % 32 ≤ 23 then v % 32 else old

/-- Write `n` bytes of NST_SCAN (R396, Table 13.7). -/
def writeScan (j n v : Nat) (s : State) : State :=
  (List.range n).foldl (fun s k =>
    if j + k < 64 then setReg (rNstScan (j + k)) (scanByte (reg s (rNstScan (j + k))) (bitsOf v (8 * k + 7) (8 * k))) s else s) s

/-- Write `n` bytes of RDX_NEXT_OWNER of a context from byte `j` on; bit 6 of each byte is reserved (Table 8.17). -/
def writeOwners (ctx j n v : Nat) (s : State) : State :=
  let off := rRdxNextOwner ctx (j / 8)
  if n = 8 then setReg off (v &&& 0xBFBFBFBFBFBFBFBF) s
  else
    let old := reg s off
    let w := v &&& 0xBFBFBFBF
    setReg off (if j % 8 = 0 then old / 2 ^ 32 * 2 ^ 32 + w else old % 2 ^ 32 + w * 2 ^ 32) s

/-- An offset of NST_SCAN, of RDX_NEXT_OWNER or of OPT_PEER 16 and above: the write it makes of `n` bytes. -/
def arrayWrite (off n v : Nat) : Option (State → State) :=
  if rNstScan 0 ≤ off ∧ off < rNstScan 64 then some (writeScan (off - rNstScan 0) n v)
  else if rRdxCtx 0 ≤ off ∧ off < rRdxCtx 16 ∧ 0x240 ≤ (off - rRdxCtx 0) % 0x1000 ∧ (off - rRdxCtx 0) % 0x1000 < 0x280 then
    some (writeOwners ((off - rRdxCtx 0) / 0x1000) ((off - rRdxCtx 0) % 0x1000 - 0x240) n v)
  else none

/-- A write of OPT_PEERi, for i of 16 and above (R312, Table 9.13). -/
def writePeer (i v : Nat) (s : State) : State :=
  { s with opt := { s.opt with peers := tabSet 0 s.opt.peers i (BitVec.ofNat 64 (v &&& 0x8000000FFFFFFFFF)) } }

/-- A write to a base register of a doorbell page: unchanged while the ring it belongs to is enabled (R331, R341). -/
def writeDoor (ctx o v : Nat) (s : State) : State :=
  if o = 0x200 then
    modDoor ctx (fun d => if d.hist.enable then d else { d with hist := { d.hist with base := v / 64 * 64 } }) s
  else if o < 0x200 ∧ o % 0x40 = 0 then modRing ctx (o / 0x40) (fun q => if q.enable then q else { q with base := v / 64 * 64 }) s
  else if o < 0x200 ∧ o % 0x40 = 8 then modRing ctx (o / 0x40) (fun q => if q.enable then q else { q with comp := v / 32 * 32 }) s
  else s

/-- The offset lies in a doorbell page (Table 10.14). -/
def inDoors (off : Nat) : Bool := decide (0x0100000 ≤ off) && decide (off < 0x0110000)

/-- A doorbell offset that is a 64-bit base register. -/
def doorBase (o : Nat) : Bool := o == 0x200 || (decide (o < 0x200) && (o % 0x40 == 0 || o % 0x40 == 8))

/-- REGISTER_WRITE: a write of 64 bits where `wide`, else of 32, by function `fn` to a register that has no command of its own, at
its offset in the physical function's BAR0. A misaligned write or one of the wrong width is ignored and counted (R6, R324, R326). -/
def execRegisterWrite (fn : Fin 16) (off : BitVec 26) (wide : Bool) (value : DWord) (s : State) : Host.Outcome State Fault Refusal :=
  let o := off.toNat
  let v := if wide then value.toNat else value.toNat % 2 ^ 32
  let n := if wide then 8 else 4
  let bad := badAccess fn o false true 1 s
  if !bar0Takes s o then .next s
  else if o % n ≠ 0 then .next bad
  else if inDoors o then
    let ctx := (o - 0x0100000) / 0x1000
    if wrongWidth doorWide (o % 0x1000) wide then .next bad
    else if !doorWritable s fn ctx || !doorBase (o % 0x1000) then .next s
    else .next (writeDoor ctx (o % 0x1000) v s)
  else if fn.val ≠ 0 then .next s
  else match arrayWrite o n v with
    | some f => .next (f s)
    | none =>
      if 0x0780080 ≤ o ∧ o < 0x07A0000 then
        if wide then .next (writePeer ((o - 0x0780000) / 8) v s) else .next bad
      else if wrongWidth (registerWide s) o wide then .next bad
      else match plainValue s o v with
        | some (_, x) => .next (if o = rNstCtrl then writeNstCtrl x s else setReg o x s)
        | none => .next s

end Sys2Proof.Machine
end

