-- ==== Sys2Proof/Machine/Retire.lean ====
section
/-!
DEFINITION. MEM_RETIRE: retirement of memory and of Drawer lines (R366 to R369 of spec/11_memory_integrity.md; R80 of
spec/02_drawer_arrays.md).
-/
namespace Sys2Proof.Machine

/-- Fields of MEM_RETIRE (Table 11.4). -/
def retKind (b : List Byte) : Nat := fieldAt b 16 1 % 8
def retClear (b : List Byte) : Bool := (fieldAt b 16 1).testBit 3
def retDrawer (b : List Byte) : Nat := fieldAt b 18 2 % 16384
def retIndex (b : List Byte) : Nat := fieldAt b 20 2
def retAddress (b : List Byte) : Nat := fieldAt b 24 8

/-- A field of MEM_RETIRE is invalid (R367 order 1). -/
def retireInvalid (b : List Byte) : Bool :=
  let k := retKind b
  let a := retAddress b
  decide (6 ≤ k) || (decide (3 ≤ k) && retClear b) || ((k == 3 || k == 4) && decide (1023 < retIndex b))
    || (decide (k ≤ 2) && (!backed a || (decide (trimBase ≤ a) && decide (a < cupEnd)) || inDump a
          || (if k = 2 then decide (hbmBase ≤ a) else decide (a < hbmBase))))

/-- Bytes 16 to 31 of the completion: outcome, refusal reason, entries in use (R368). -/
def retireTail (s : State) (outcome reason : Nat) : List Byte := leBytes 1 outcome ++ leBytes 1 reason ++ leBytes 2 s.mem.rtab.length

/-- The outcome of a retirement, 0 to 3, or the reason of its refusal, with the new state (R366 to R368). -/
inductive RetireResult
  | done (outcome : Nat) (s : State)
  | refused (reason : Nat)
deriving DecidableEq, Repr

/-- Add or clear an entry of the retention table. -/
def retireMemory (b : List Byte) (s : State) : RetireResult :=
  let e := retirementOf (retKind b) (retAddress b)
  let t := s.mem.rtab
  if retClear b then
    if t.contains e then .done 2 { s with mem := { s.mem with rtab := t.erase e } } else .done 3 s
  else if t.contains e then .done 1 s
  else if 1024 ≤ t.length then .refused 2
  else .done 0 { s with mem := { s.mem with rtab := t ++ [e] } }

/-- Retire a row, a column or a whole Drawer (Table 11.5). -/
def retireLine (acc : Access) (b : List Byte) (s : State) : RetireResult :=
  let d := retDrawer b
  let i := retIndex b
  let w := drawer s d
  if retKind b = 3 then
    if w.retRows.contains i then .done 1 s
    else if 8 ≤ w.retRows.length then .refused 3
    else .done 0 (modDrawer d (fun w => { w with retLines := w.retLines ++ [(false, i)] }) s)
  else if retKind b = 4 then
    if w.retCols.contains i then .done 1 s
    else if 8 ≤ w.retCols.length then .refused 3
    else
      let s := modDrawer d (fun w => { w with retLines := w.retLines ++ [(true, i)] }) s
      .done 0 (clearTrim acc d i s)
  else if w.retired then .done 1 s
  else if plnBusy s d || decide (0 < w.planeA.hold) || decide (0 < w.planeB.hold) then .refused 4
  else
    let s := modDrawer d (fun w => { w with retired := true }) s
    let bit : BitVec 16384 := (1 : BitVec 16384) <<< d
    let byte : Byte := (1 : Byte) <<< (d % 8)
    let clear := fun (_ : Nat) (v : Option Byte) => v.map fun x => if x.getLsbD (d % 8) then x ^^^ byte else x
    let clearAt := fun (t : Tab (Option Byte)) => tabMod none t (d / 8) (clear 0)
    let s := { s with
      maps := tabMap 0 (fun _ m => m &&& ~~~bit) s.maps
      stagedMaps := tabMap [] (fun _ t => clearAt t) s.stagedMaps
      steps := tabMap {} (fun _ x => { x with opened := x.opened.map fun o => { o with mapsAt := clearAt o.mapsAt } }) s.steps
      cal := { s.cal with runs := s.cal.runs.map fun r => { r with todo := r.todo.filter (· != d) } } }
    .done 0 (finishRuns s)

/-- MEM_RETIRE: validated, then refused or executed; a change sets RETIRE_SEEN (R366 to R368). -/
def execMemRetire (ctx : Fin 16) (ring : Fin 8) (s : State) : Host.Outcome State Fault Refusal :=
  .next (dispatchOp ctx ring 0x62 (fun a s =>
    let b := a.bytes
    if retireInvalid b then reject a.ref stFieldInvalid (retireTail s 0 0) s
    else if functionOf s ctx ≠ 0 then reject a.ref stRetireRefused (retireTail s 0 1) s
    else match (if retKind b ≤ 2 then retireMemory b s else retireLine ⟨11, 0, some a.ref⟩ b s) with
      | .refused reason => complete a.ref stRetireRefused (retireTail s 0 reason) s
      | .done outcome s =>
        let s := if outcome % 2 = 0 then setFlag .mem 3 s else s
        complete a.ref 0 (retireTail s outcome 0) s) s)

end Sys2Proof.Machine
end

