-- ==== Sys2Proof/Machine/Dispatch.lean ====
section
/-!
DEFINITION. One arm for every command.
-/
namespace Sys2Proof.Machine

/-- The effect of a command on everything but the queue. -/
def exec (i : Instr) (s : State) : Host.Outcome State Fault Refusal :=
  match i with
  | .standbyPowerApplied sa => Sys2Proof.Machine.execStandbyPowerApplied sa s
  | .standbyPowerLost => Sys2Proof.Machine.execStandbyPowerLost s
  | .inputOvervoltage => Sys2Proof.Machine.execInputOvervoltage s
  | .powerOnRequest recovery => Sys2Proof.Machine.execPowerOnRequest recovery s
  | .powerOffRequest => Sys2Proof.Machine.execPowerOffRequest s
  | .releaseRetirement => Sys2Proof.Machine.execReleaseRetirement s
  | .mainRailsUp => Sys2Proof.Machine.execMainRailsUp s
  | .rootPllLocked => Sys2Proof.Machine.execRootPllLocked s
  | .fillComplete => Sys2Proof.Machine.execFillComplete s
  | .bootImageChecked crypto => Sys2Proof.Machine.execBootImageChecked crypto s
  | .bootComplete => Sys2Proof.Machine.execBootComplete s
  | .rootPllLossOfLock => Sys2Proof.Machine.execRootPllLossOfLock s
  | .refclkLost => Sys2Proof.Machine.execRefclkLost s
  | .refclkRestored => Sys2Proof.Machine.execRefclkRestored s
  | .perstAssert => Sys2Proof.Machine.execPerstAssert s
  | .perstDeassert => Sys2Proof.Machine.execPerstDeassert s
  | .pcieLinkLoss refclkGone => Sys2Proof.Machine.execPcieLinkLoss refclkGone s
  | .pwrHoldChange level => Sys2Proof.Machine.execPwrHoldChange level s
  | .mctpWarmReset => Sys2Proof.Machine.execMctpWarmReset s
  | .mctpColdReset => Sys2Proof.Machine.execMctpColdReset s
  | .setOwnerLock => Sys2Proof.Machine.execSetOwnerLock s
  | .clearOwnerLock => Sys2Proof.Machine.execClearOwnerLock s
  | .writeProvisioningRecord record => Sys2Proof.Machine.execWriteProvisioningRecord record s
  | .fwuOwnerSet => Sys2Proof.Machine.execFwuOwnerSet s
  | .pldmGetSensorReading sensor => Sys2Proof.Machine.execPldmGetSensorReading sensor s
  | .monitorConversion code vref => Sys2Proof.Machine.execMonitorConversion code vref s
  | .nstAdcStart => Sys2Proof.Machine.execNstAdcStart s
  | .powerMsBoundary => Sys2Proof.Machine.execPowerMsBoundary s
  | .throttleSourceTimer thermal raise => Sys2Proof.Machine.execThrottleSourceTimer thermal raise s
  | .nstRuleWrite rule value => Sys2Proof.Machine.execNstRuleWrite rule value s
  | .nstThrottleCapWrite cap => Sys2Proof.Machine.execNstThrottleCapWrite cap s
  | .hutchHeartbeat => Sys2Proof.Machine.execHutchHeartbeat s
  | .hutchHeartbeatMiss => Sys2Proof.Machine.execHutchHeartbeatMiss s
  | .hutchRestoreTimeout => Sys2Proof.Machine.execHutchRestoreTimeout s
  | .deviceWarmReset key dump => Sys2Proof.Machine.execDeviceWarmReset key dump s
  | .deviceColdReset key => Sys2Proof.Machine.execDeviceColdReset key s
  | .dumpClear => Sys2Proof.Machine.execDumpClear s
  | .contextStepWatchdog ctx ring => Sys2Proof.Machine.execContextStepWatchdog ctx ring s
  | .contextReset fn ctx => Sys2Proof.Machine.execContextReset fn ctx s
  | .hifRingTailWrite fn ctx ring tail => Sys2Proof.Machine.execHifRingTailWrite fn ctx ring tail s
  | .hifRingCtrlWrite fn ctx ring value => Sys2Proof.Machine.execHifRingCtrlWrite fn ctx ring value s
  | .hifHistCtrlWrite fn ctx value => Sys2Proof.Machine.execHifHistCtrlWrite fn ctx value s
  | .hifHistConsumedWrite fn ctx value => Sys2Proof.Machine.execHifHistConsumedWrite fn ctx value s
  | .hifSemWrite fn ctx sem value => Sys2Proof.Machine.execHifSemWrite fn ctx sem value s
  | .hifApertureWrite value => Sys2Proof.Machine.execHifApertureWrite value s
  | .bar2Read off len => Sys2Proof.Machine.execBar2Read off len s
  | .bar2Write off bytes => Sys2Proof.Machine.execBar2Write off bytes s
  | .bar0BadAccess fn off write => Sys2Proof.Machine.execBar0BadAccess fn off write s
  | .vfEnableSet v => Sys2Proof.Machine.execVfEnableSet v s
  | .vfEnableClear => Sys2Proof.Machine.execVfEnableClear s
  | .functionLevelReset fn => Sys2Proof.Machine.execFunctionLevelReset fn s
  | .descriptorFetch ctx ring reply => Sys2Proof.Machine.execDescriptorFetch ctx ring reply s
  | .hifNop ctx ring => Sys2Proof.Machine.execHifNop ctx ring s
  | .hifCopy ctx ring => Sys2Proof.Machine.execHifCopy ctx ring s
  | .copyDone ctx ring idx got reply => Sys2Proof.Machine.execCopyDone ctx ring idx got reply s
  | .w1cWrite off value coincide => Sys2Proof.Machine.execW1cWrite off value coincide s
  | .eventCounterWrite off value => Sys2Proof.Machine.execEventCounterWrite off value s
  | .registerWrite fn off wide value => Sys2Proof.Machine.execRegisterWrite fn off wide value s
  | .drwProduct ctx ring => Sys2Proof.Machine.execDrwProduct ctx ring s
  | .drwReadRows ctx ring => Sys2Proof.Machine.execDrwReadRows ctx ring s
  | .drwReadCols ctx ring => Sys2Proof.Machine.execDrwReadCols ctx ring s
  | .drwConversionDone d dev => Sys2Proof.Machine.execDrwConversionDone d dev s
  | .drwProductWatchdog d => Sys2Proof.Machine.execDrwProductWatchdog d s
  | .drwMapWrite ctx off bytes => Sys2Proof.Machine.execDrwMapWrite ctx off bytes s
  | .plnTarget ctx ring => Sys2Proof.Machine.execPlnTarget ctx ring s
  | .targetUnitDone c => Sys2Proof.Machine.execTargetUnitDone c s
  | .plnProgram ctx ring => Sys2Proof.Machine.execPlnProgram ctx ring s
  | .plnLaneStart c => Sys2Proof.Machine.execPlnLaneStart c s
  | .programBindingEnd c l => Sys2Proof.Machine.execProgramBindingEnd c l s
  | .programPreReadDone c l dev => Sys2Proof.Machine.execProgramPreReadDone c l dev s
  | .programPulse c l miss => Sys2Proof.Machine.execProgramPulse c l miss s
  | .programVerifyRead c l dev => Sys2Proof.Machine.execProgramVerifyRead c l dev s
  | .programClosingRead c l dev => Sys2Proof.Machine.execProgramClosingRead c l dev s
  | .programRowWatchdog c l => Sys2Proof.Machine.execProgramRowWatchdog c l s
  | .plnImage ctx ring => Sys2Proof.Machine.execPlnImage ctx ring s
  | .plnRemapCol ctx ring => Sys2Proof.Machine.execPlnRemapCol ctx ring s
  | .trsMatmul ctx ring => Sys2Proof.Machine.execTrsMatmul ctx ring s
  | .trsTileDone u => Sys2Proof.Machine.execTrsTileDone u s
  | .trsWatchdog u => Sys2Proof.Machine.execTrsWatchdog u s
  | .drsLaunch ctx ring => Sys2Proof.Machine.execDrsLaunch ctx ring s
  | .drsProgramFetched u => Sys2Proof.Machine.execDrsProgramFetched u s
  | .drsLoadReturn u => Sys2Proof.Machine.execDrsLoadReturn u s
  | .drsTimeWatchdog u => Sys2Proof.Machine.execDrsTimeWatchdog u s
  | .drsInstrLimit u => Sys2Proof.Machine.execDrsInstrLimit u s
  | .drsNop u => Sys2Proof.Machine.execDrsNop u s
  | .drsEnd u => Sys2Proof.Machine.execDrsEnd u s
  | .drsSetvl u => Sys2Proof.Machine.execDrsSetvl u s
  | .drsKey u => Sys2Proof.Machine.execDrsKey u s
  | .drsBr u => Sys2Proof.Machine.execDrsBr u s
  | .drsBeq u => Sys2Proof.Machine.execDrsBeq u s
  | .drsBne u => Sys2Proof.Machine.execDrsBne u s
  | .drsBlt u => Sys2Proof.Machine.execDrsBlt u s
  | .drsBge u => Sys2Proof.Machine.execDrsBge u s
  | .drsSli u => Sys2Proof.Machine.execDrsSli u s
  | .drsSaddi u => Sys2Proof.Machine.execDrsSaddi u s
  | .drsSadd u => Sys2Proof.Machine.execDrsSadd u s
  | .drsSsub u => Sys2Proof.Machine.execDrsSsub u s
  | .drsSmul u => Sys2Proof.Machine.execDrsSmul u s
  | .drsSand u => Sys2Proof.Machine.execDrsSand u s
  | .drsSor u => Sys2Proof.Machine.execDrsSor u s
  | .drsSxor u => Sys2Proof.Machine.execDrsSxor u s
  | .drsSshli u => Sys2Proof.Machine.execDrsSshli u s
  | .drsSshri u => Sys2Proof.Machine.execDrsSshri u s
  | .drsSori u => Sys2Proof.Machine.execDrsSori u s
  | .drsSld u => Sys2Proof.Machine.execDrsSld u s
  | .drsSst u => Sys2Proof.Machine.execDrsSst u s
  | .drsSext u => Sys2Proof.Machine.execDrsSext u s
  | .drsTbc u => Sys2Proof.Machine.execDrsTbc u s
  | .drsTmov u => Sys2Proof.Machine.execDrsTmov u s
  | .drsTiota u => Sys2Proof.Machine.execDrsTiota u s
  | .drsTld u => Sys2Proof.Machine.execDrsTld u s
  | .drsTldc u => Sys2Proof.Machine.execDrsTldc u s
  | .drsTldx u => Sys2Proof.Machine.execDrsTldx u s
  | .drsTlds u => Sys2Proof.Machine.execDrsTlds u s
  | .drsTst u => Sys2Proof.Machine.execDrsTst u s
  | .drsTstc u => Sys2Proof.Machine.execDrsTstc u s
  | .drsTstx u => Sys2Proof.Machine.execDrsTstx u s
  | .drsTstq u => Sys2Proof.Machine.execDrsTstq u s
  | .drsTsts u => Sys2Proof.Machine.execDrsTsts u s
  | .drsWld u => Sys2Proof.Machine.execDrsWld u s
  | .drsWst u => Sys2Proof.Machine.execDrsWst u s
  | .drsMld u => Sys2Proof.Machine.execDrsMld u s
  | .drsMst u => Sys2Proof.Machine.execDrsMst u s
  | .drsTadd u => Sys2Proof.Machine.execDrsTadd u s
  | .drsTsub u => Sys2Proof.Machine.execDrsTsub u s
  | .drsTmul u => Sys2Proof.Machine.execDrsTmul u s
  | .drsTfma u => Sys2Proof.Machine.execDrsTfma u s
  | .drsTmax u => Sys2Proof.Machine.execDrsTmax u s
  | .drsTmin u => Sys2Proof.Machine.execDrsTmin u s
  | .drsTabs u => Sys2Proof.Machine.execDrsTabs u s
  | .drsTneg u => Sys2Proof.Machine.execDrsTneg u s
  | .drsTdiv u => Sys2Proof.Machine.execDrsTdiv u s
  | .drsTsqrt u => Sys2Proof.Machine.execDrsTsqrt u s
  | .drsTrcp u => Sys2Proof.Machine.execDrsTrcp u s
  | .drsTrsq u => Sys2Proof.Machine.execDrsTrsq u s
  | .drsTex2 u => Sys2Proof.Machine.execDrsTex2 u s
  | .drsTlg2 u => Sys2Proof.Machine.execDrsTlg2 u s
  | .drsTand u => Sys2Proof.Machine.execDrsTand u s
  | .drsTor u => Sys2Proof.Machine.execDrsTor u s
  | .drsTxor u => Sys2Proof.Machine.execDrsTxor u s
  | .drsTshl u => Sys2Proof.Machine.execDrsTshl u s
  | .drsTshr u => Sys2Proof.Machine.execDrsTshr u s
  | .drsTsra u => Sys2Proof.Machine.execDrsTsra u s
  | .drsTcvt u => Sys2Proof.Machine.execDrsTcvt u s
  | .drsTrnd u => Sys2Proof.Machine.execDrsTrnd u s
  | .drsTunpk u => Sys2Proof.Machine.execDrsTunpk u s
  | .drsTpack u => Sys2Proof.Machine.execDrsTpack u s
  | .drsTcmp u => Sys2Proof.Machine.execDrsTcmp u s
  | .drsTsel u => Sys2Proof.Machine.execDrsTsel u s
  | .drsMand u => Sys2Proof.Machine.execDrsMand u s
  | .drsMor u => Sys2Proof.Machine.execDrsMor u s
  | .drsMxor u => Sys2Proof.Machine.execDrsMxor u s
  | .drsMnot u => Sys2Proof.Machine.execDrsMnot u s
  | .drsMset u => Sys2Proof.Machine.execDrsMset u s
  | .drsMcnt u => Sys2Proof.Machine.execDrsMcnt u s
  | .drsTperm u => Sys2Proof.Machine.execDrsTperm u s
  | .drsTtrn u => Sys2Proof.Machine.execDrsTtrn u s
  | .drsTbcl u => Sys2Proof.Machine.execDrsTbcl u s
  | .drsTcompress u => Sys2Proof.Machine.execDrsTcompress u s
  | .drsTexpand u => Sys2Proof.Machine.execDrsTexpand u s
  | .drsTrsum u => Sys2Proof.Machine.execDrsTrsum u s
  | .drsTrmax u => Sys2Proof.Machine.execDrsTrmax u s
  | .drsTrmin u => Sys2Proof.Machine.execDrsTrmin u s
  | .drsTramax u => Sys2Proof.Machine.execDrsTramax u s
  | .drsTramin u => Sys2Proof.Machine.execDrsTramin u s
  | .drsTrrsum u => Sys2Proof.Machine.execDrsTrrsum u s
  | .drsTrrmax u => Sys2Proof.Machine.execDrsTrrmax u s
  | .drsTrrmin u => Sys2Proof.Machine.execDrsTrrmin u s
  | .drsWfma u => Sys2Proof.Machine.execDrsWfma u s
  | .drsWcvt u => Sys2Proof.Machine.execDrsWcvt u s
  | .drsWfrom u => Sys2Proof.Machine.execDrsWfrom u s
  | .stepBegin ctx ring => Sys2Proof.Machine.execStepBegin ctx ring s
  | .ruleInputPresent ctx => Sys2Proof.Machine.execRuleInputPresent ctx s
  | .ruleInputStaleTimeout ctx => Sys2Proof.Machine.execRuleInputStaleTimeout ctx s
  | .stepGate ctx ring => Sys2Proof.Machine.execStepGate ctx ring s
  | .stepsizeTableCurrent ctx => Sys2Proof.Machine.execStepsizeTableCurrent ctx s
  | .stepsizeStaleTimeout ctx => Sys2Proof.Machine.execStepsizeStaleTimeout ctx s
  | .stepEnd ctx ring => Sys2Proof.Machine.execStepEnd ctx ring s
  | .rdxReduce ctx ring => Sys2Proof.Machine.execRdxReduce ctx ring s
  | .rdxGather ctx ring => Sys2Proof.Machine.execRdxGather ctx ring s
  | .bucketContrib => Sys2Proof.Machine.execContrib s
  | .bucketDeadline ctx tag taken => Sys2Proof.Machine.execBucketDeadline ctx tag taken s
  | .bucketAbortTimeout ctx tag => Sys2Proof.Machine.execBucketAbortTimeout ctx tag s
  | .partSumDone u => Sys2Proof.Machine.execPartSumDone u s
  | .bucketResult => Sys2Proof.Machine.execResult s
  | .bucketResultAck => Sys2Proof.Machine.execResultAck s
  | .bucketCodes => Sys2Proof.Machine.execCodes s
  | .bucketAbort => Sys2Proof.Machine.execAbort s
  | .pairHeartbeatSend => Sys2Proof.Machine.execPairHeartbeatSend s
  | .pairHeartbeat => Sys2Proof.Machine.execPairHeartbeat s
  | .pairLossTimeout => Sys2Proof.Machine.execPairLossTimeout s
  | .pairProbe => Sys2Proof.Machine.execProbe s
  | .pairProbeReply => Sys2Proof.Machine.execProbeReply s
  | .probeWindowExpiry => Sys2Proof.Machine.execProbeWindowExpiry s
  | .degradedProbeTimer => Sys2Proof.Machine.execDegradedProbeTimer s
  | .epochNotice => Sys2Proof.Machine.execEpochNotice s
  | .fencedNotice => Sys2Proof.Machine.execFencedNotice s
  | .pairDigest => Sys2Proof.Machine.execDigest s
  | .divergeWaitExpiry ctx => Sys2Proof.Machine.execDivergeWaitExpiry ctx s
  | .pairMirror => Sys2Proof.Machine.execMirror s
  | .epochHoldExpiry => Sys2Proof.Machine.execEpochHoldExpiry s
  | .rdxInstall ctx => Sys2Proof.Machine.execInstall ctx s
  | .rdxAdmit ctx => Sys2Proof.Machine.execAdmit ctx s
  | .rdxPairWrite value => Sys2Proof.Machine.execRdxPairWrite value s
  | .credenzaProgressWatchdog u => Sys2Proof.Machine.execCredenzaProgressWatchdog u s
  | .dataFlitReceived p bytes => Sys2Proof.Machine.execDataFlitReceived p bytes s
  | .replayTimeout p => Sys2Proof.Machine.execReplayTimeout p s
  | .hello p addr nport rtt => Sys2Proof.Machine.execHello p addr nport rtt s
  | .linkHeartbeatSend => Sys2Proof.Machine.execLinkHeartbeatSend s
  | .linkHeartbeat p => Sys2Proof.Machine.execLinkHeartbeat p s
  | .linkHeartbeatTimeout p => Sys2Proof.Machine.execLinkHeartbeatTimeout p s
  | .laneSignalLoss p => Sys2Proof.Machine.execLaneSignalLoss p s
  | .trainingPass p tx eyes => Sys2Proof.Machine.execTrainingPass p tx eyes s
  | .trainingTimeout p => Sys2Proof.Machine.execTrainingTimeout p s
  | .downRetrainTimer p => Sys2Proof.Machine.execDownRetrainTimer p s
  | .laneMonitorWindow p ser uncorr noLock => Sys2Proof.Machine.execLaneMonitorWindow p ser uncorr noLock s
  | .spareRequest p k => Sys2Proof.Machine.execSpareRequest p k s
  | .eyeRemeasure samples => Sys2Proof.Machine.execEyeRemeasure samples s
  | .laserFault b => Sys2Proof.Machine.execLaserFault b s
  | .laserRelease b => Sys2Proof.Machine.execLaserRelease b s
  | .holdRequest p => Sys2Proof.Machine.execHoldRequest p s
  | .laserTransfer => Sys2Proof.Machine.execLaserTransfer s
  | .holdTimeout p => Sys2Proof.Machine.execHoldTimeout p s
  | .bayInserted b healthy temp power => Sys2Proof.Machine.execBayInserted b healthy temp power s
  | .bayInterlockOpen b => Sys2Proof.Machine.execBayInterlockOpen b s
  | .retrain p => Sys2Proof.Machine.execRetrain p s
  | .portReset p => Sys2Proof.Machine.execPortReset p s
  | .optCtrlWrite value => Sys2Proof.Machine.execOptCtrlWrite value s
  | .optSelfWrite value => Sys2Proof.Machine.execOptSelfWrite value s
  | .memScrub ctx ring => Sys2Proof.Machine.execMemScrub ctx ring s
  | .scrubDone hbm => Sys2Proof.Machine.execScrubDone hbm s
  | .scrubWatchdog hbm reached => Sys2Proof.Machine.execScrubWatchdog hbm reached s
  | .memRetire ctx ring => Sys2Proof.Machine.execMemRetire ctx ring s
  | .calSave ctx ring => Sys2Proof.Machine.execCalSave ctx ring s
  | .calRestore ctx ring => Sys2Proof.Machine.execCalRestore ctx ring s
  | .calRun ctx ring vref => Sys2Proof.Machine.execCalRun ctx ring vref s
  | .calReq dies vref => Sys2Proof.Machine.execCalReq dies vref s
  | .calTempCheck vref => Sys2Proof.Machine.execCalTempCheck vref s
  | .drawerCalibration d dev codes => Sys2Proof.Machine.execDrawerCalibration d dev codes s
  | .calRunWatchdog run => Sys2Proof.Machine.execCalRunWatchdog run s
  | .fwuStage => Sys2Proof.Machine.execStage s
  | .stagingDone reply => Sys2Proof.Machine.execStagingDone reply s
  | .fwuVerify => Sys2Proof.Machine.execVerify s
  | .fwuVerifyDone crypto => Sys2Proof.Machine.execVerifyDone crypto s
  | .fwuActivate => Sys2Proof.Machine.execActivate s
  | .activateDrainDone => Sys2Proof.Machine.execActivateDrainDone s
  | .activateReloadDone => Sys2Proof.Machine.execActivateReloadDone s
  | .activateWatchdog => Sys2Proof.Machine.execActivateWatchdog s
  | .fwuAbort => Sys2Proof.Machine.execFwuAbort s
  | .requestUpdate => Sys2Proof.Machine.execRequestUpdate s
  | .passComponentTable => Sys2Proof.Machine.execPassComponentTable s
  | .updateComponent => Sys2Proof.Machine.execUpdateComponent s
  | .firmwareData part => Sys2Proof.Machine.execFirmwareData part s
  | .activateFirmware => Sys2Proof.Machine.execActivateFirmware s
  | .getStatus => Sys2Proof.Machine.execGetStatus s
  | .cancelUpdate => Sys2Proof.Machine.execCancelUpdate s
  | .peerStartsTraining p => Sys2Proof.Machine.execPeerStartsTraining p s
  | .idleFlitReceived p bytes => Sys2Proof.Machine.execIdleFlitReceived p bytes s
  | .spareAcknowledged p => Sys2Proof.Machine.execSpareAcknowledged p s
  | .lightReturns g => Sys2Proof.Machine.execLightReturns g s

end Sys2Proof.Machine
end

