-- ==== Sys2Proof/Machine/Views.lean ====
section
/-!
DEFINITION. What BAR0 reads give: the value of every register, computed from the state that holds it (R321, R322, R326, R327,
R345 to R349 of spec/10_host_rings.md, and the register tables of every chapter). Reading changes nothing, and no command of the
table reads a register of its own; these are the values that software sees.
-/
namespace Sys2Proof.Machine

/-! ## Doorbell pages and HIF_ (Tables 10.12 to 10.15) -/

/-- HIF_RINGr_STATE and CTRL. -/
def Ring.stateWord (q : Ring) : Nat := if q.error ≠ 0 then 2 + q.error * 2 ^ 16 else boolNat q.enable
def Ring.ctrlWord (q : Ring) : Nat := boolNat q.enable + 2 * q.sizeLog2 + 64 * q.vector

/-- HIF_CTX_STATUS. A context reset ends within its command, so RESETTING reads 0. -/
def ctxStatus (s : State) (ctx : Nat) : Nat := boolNat (stepOpen s ctx) + 2 * boolNat (resetting s ctx) + (door s ctx).inflight * 2 ^ 16

/-- A register of the doorbell page of a context, at an offset of the page; the page of CTX0 reads as 0, and so does what
lies behind the page of CTX15, where no register is (R322, R327). -/
def doorRead (s : State) (ctx o : Nat) : Nat :=
  let d := door s ctx
  if ctx = 0 ∨ 16 ≤ ctx then 0
  else if o < 0x200 then
    let q := ringOf s ctx (o / 0x40)
    match o % 0x40 with
    | 0x00 => q.base
    | 0x08 => q.comp
    | 0x10 => q.ctrlWord
    | 0x14 => q.tail
    | 0x18 => q.head
    | 0x1C => q.stateWord
    | _ => 0
  else if o = 0x200 then d.hist.base
  else if o = 0x208 then boolNat d.hist.enable + 2 * d.hist.sizeLog2
  else if o = 0x20C then d.hist.consumed
  else if o = 0x210 then d.hist.produced
  else if o = 0x218 then d.hist.lost
  else if o = 0x304 then ctxStatus s ctx
  else if 0x800 ≤ o ∧ o < 0xC00 ∧ o % 4 = 0 then (tabGet 0 d.sems ((o - 0x800) / 4)).toNat
  else 0

/-- The capability list: MODULE shows the variant and its HBM capacity, BINDING the contexts bound to virtual functions (R347). -/
def capRead (s : State) (off : Nat) : Nat :=
  if off = 0x118 then (if Config.hbm512 then 1 + 512 * 2 ^ 16 else 384 * 2 ^ 16)
  else if off = 0x138 then bitmapOf ((List.range 16).filter fun n => functionOf s n != 0)
  else reg s off

def hifRead (s : State) (off : Nat) : Nat :=
  if off = 0 then s.mod.st.code + 16 * boolNat s.mod.fenceMark
  else if off = cHifPeak then inflight s + counter s cHifPeak * 2 ^ 16
  else if 0x100 ≤ off ∧ off < 0x1000 then capRead s off
  else if 0x0100000 ≤ off then doorRead s ((off - 0x0100000) / 0x1000) (off % 0x1000)
  else if 0x40 ≤ off ∧ off < 0x58 then counter s off
  else reg s off

/-! ## Drawers and planes (Tables 2.18, 3.13 and 3.14) -/

/-- DRW_INFO of a Drawer. -/
def drwInfo (s : State) (d : Nat) : Nat :=
  let w := drawer s d
  let ctxs := bitmapOf ((List.range 16).filter fun n => mapped s n d)
  boolNat (ctxs != 0) + 2 * boolNat w.worn + 4 * boolNat w.retired + 8 * boolNat (trimsValid s d)
    + 16 * w.planeA.rowRemap.length + 256 * w.planeB.rowRemap.length + 4096 * w.colRemap.length + ctxs * 2 ^ 16

/-- The job that programs a Drawer on a lane, once its first row is begun. -/
def programming (s : State) (d : Nat) : Option PlnJob :=
  ((chest s (chestOf d)).lanes.filterMap (·.2)).find? fun j => j.drawer == d && j.phase.inProgramming

/-- PLN_INFO of a Drawer. -/
def plnInfo (s : State) (d : Nat) : Nat :=
  let w := drawer s d
  let p := w.plane w.activeIdx
  let at_ := ((programming s d).map fun j => (j.row, j.cycle)).getD (0, 0)
  w.planeA.st.code + 8 * w.planeB.st.code + 64 * boolNat w.activeB + 128 * boolNat w.planeA.imaged + 256 * boolNat w.planeB.imaged
    + 512 * boolNat (p.owner.isSome && p.mstep.isSome) + 1024 * p.owner.getD 0 + 2 ^ 14 * boolNat (plnBusy s d)
    + 2 ^ 15 * boolNat p.owner.isSome + 2 ^ 16 * at_.1 + 2 ^ 26 * at_.2

/-- Cycles of the most-cycled physical row of a Drawer (PLN_WEAR, R116). -/
def plnWear (w : Drawer) : Nat := (w.planeA.wear ++ w.planeB.wear).foldl (fun m e => max m e.2) 0

/-- Rows in programming now, in all Chests (PLN_ROWS_ACTIVE). -/
def rowsActive (s : State) : Nat :=
  (s.chests.map fun e => (e.2.lanes.filterMap (·.2)).countP fun j => j.phase.inProgramming).sum

def drwRead (s : State) (off : Nat) : Nat :=
  let d := reg s 0x0200100
  if off = 0x0200108 then drwInfo s d
  else if off = 0x0200110 then (drawer s d).planeA.margin + (drawer s d).planeB.margin * 2 ^ 24
  else if 0x0200040 ≤ off ∧ off < 0x0200078 then counter s off
  else reg s off

def plnRead (s : State) (off : Nat) : Nat :=
  let d := reg s 0x0300100
  let w := drawer s d
  match off - 0x0300000 with
  | 0x20 => rowsActive s
  | 0x108 => plnInfo s d
  | 0x110 => w.planeA.gen + w.planeB.gen * 2 ^ 32
  | 0x118 => w.planeA.hold + w.planeB.hold * 2 ^ 16
  | 0x120 => w.planeA.mstep.getD (2 ^ 64 - 1)
  | 0x128 => w.planeB.mstep.getD (2 ^ 64 - 1)
  | 0x130 => w.lastGen
  | 0x138 => plnWear w
  | _ => if 0x0300040 ≤ off ∧ off < 0x0300070 then counter s off else reg s off

/-! ## Engines (Tables 5.8, 6.12 and 8.13) -/

/-- Engines and units with a descriptor in execution: bit u for engine u (TRS_BUSY, DRS_BUSY). -/
def trsBusy (s : State) : Nat := bitmapOf ((List.range 16).filter fun u => !(tabGet {} s.trs u).queue.isEmpty)
def drsBusy (s : State) : Nat := bitmapOf ((List.range 64).filter fun u => !(tabGet {} s.drs u).queue.isEmpty)

def trsRead (s : State) (off : Nat) : Nat :=
  if off = 0x0400028 then trsBusy s
  else if 0x0410000 ≤ off ∧ off < 0x0410080 then (tabGet {} s.trs ((off - 0x0410000) / 8)).halfCycles / 2
  else if 0x0400040 ≤ off ∧ off < 0x0400068 then counter s off
  else reg s off

def drsRead (s : State) (off : Nat) : Nat :=
  if off = 0x0500038 then drsBusy s
  else if 0x0510000 ≤ off ∧ off < 0x0510200 then (tabGet {} s.drs ((off - 0x0510000) / 8)).halfCycles / 2
  else if 0x0500040 ≤ off ∧ off < 0x0500078 then counter s off
  else reg s off

/-- RDX_PAIR_STATUS. SILENCE_US counts from the last heartbeat, or from where silence began to count; with neither it reads 0. -/
def pairStatus (s : State) : Nat :=
  let p := s.rdx.pair
  let silence := (p.heard.map fun t => (s.mod.devTime - t) / 1000).getD 0
  p.st + 4 * boolNat p.diverged + 8 * boolNat p.mismatch + min 65535 silence * 2 ^ 16

/-- A register of a context's RDX_ page that is no plain register. -/
def rdxContextRead (s : State) (ctx o : Nat) : Option Nat :=
  match o with
  | 0x08 => some (group s ctx).epoch
  | 0x10 => some (group s ctx).live
  | 0x18 => some (partsOf s ctx (ownersNow s ctx) (ownRank s ctx))
  | 0x38 => some (4 * (group s ctx).result)
  | _ => none

def rdxRead (s : State) (off : Nat) : Nat :=
  if off = 0x0600038 then pairStatus s
  else if 0x0600040 ≤ off ∧ off < 0x0600090 then counter s off
  else if rRdxCtx 0 ≤ off ∧ off < rRdxCtx 16 then
    (rdxContextRead s ((off - rRdxCtx 0) / 0x1000) ((off - rRdxCtx 0) % 0x1000)).getD (reg s off)
  else reg s off

/-! ## Optics (Tables 9.9 to 9.13) -/

/-- A lane map, four bits a logical lane. -/
def laneMapWord (m : List Nat) : Nat := (m.zip (List.range 8)).foldl (fun v e => v + e.1 * 16 ^ e.2) 0

/-- OPT_PORT_STATUSp; lanes are in service while there is a link. -/
def Port.statusWord (q : Port) : Nat :=
  let n := fun (m : List Nat) => if q.live then lanesIn m else 0
  q.st.code + 8 * n q.txMap + 128 * n q.rxMap + 2 ^ 11 * boolNat (q.txMap.contains 8) + 2 ^ 12 * boolNat (q.rxMap.contains 8)
    + 2 ^ 16 * q.neighbour + 2 ^ 36 * q.neighPort + 2 ^ 40 * min 65535 q.downs

/-- OPT_LANEp_l: IN_USE where the wavelength carries a logical lane of a link. -/
def Port.laneWord (q : Port) (l : Nat) : Nat :=
  let x : OptLane := tabGet {} q.lanes l
  x.eyeW + 256 * x.eyeH + 2 ^ 16 * boolNat x.lock + 2 ^ 17 * boolNat x.failed
    + 2 ^ 18 * boolNat (q.live && q.rxMap.contains l) + 2 ^ 32 * min (2 ^ 32 - 1) x.ser

/-- OPT_BAYb. -/
def bayWord (s : State) (b : Nat) : Nat :=
  let y := bay s b
  boolNat y.present + 2 * boolNat y.healthy + 4 * boolNat (s.opt.map.contains b) + 8 * boolNat y.safe
    + 2 ^ 16 * (y.temp % 256) + 2 ^ 24 * (y.power % 256)

/-- OPT_PEERi: entry i below 16 is the neighbour of port i while there is a link (R312). -/
def peerWord (s : State) (i : Nat) : Nat :=
  if i < 16 then
    let q := port s i
    if q.live then q.neighbour + 2 ^ (20 + i) + 2 ^ 63 else 0
  else (tabGet 0 s.opt.peers i).toNat

def optRead (s : State) (off : Nat) : Nat :=
  if 0x0700040 ≤ off ∧ off < 0x0700080 then counter s off
  else if 0x0710000 ≤ off ∧ off < 0x0711000 then
    let q := port s ((off - 0x0710000) / 0x100)
    match off % 0x100 with
    | 0x00 => q.statusWord
    | 0x08 => laneMapWord q.txMap
    | 0x0C => laneMapWord q.rxMap
    | 0x18 => min 65535 q.rtt
    | o => if 0x40 ≤ o ∧ o < 0x88 ∧ o % 8 = 0 then q.laneWord ((o - 0x40) / 8) else 0
  else if off = 0x0720000 then (s.opt.map.zip (List.range 4)).foldl (fun v e => v + e.1 * 8 ^ e.2) (s.opt.spare * 2 ^ 12)
  else if off = rOptLaserCtrl then reg s off % 8 + 16 * s.opt.result
  else if 0x0720010 ≤ off ∧ off < 0x0720038 ∧ off % 8 = 0 then bayWord s ((off - 0x0720010) / 8)
  else if 0x0780000 ≤ off ∧ off < 0x07A0000 ∧ off % 8 = 0 then peerWord s ((off - 0x0780000) / 8)
  else reg s off

/-! ## Memory and calibration (Tables 11.7, 11.8, 12.9 to 12.11) -/

/-- Entry e of MEM_DRETk, k = e / 4: the retired lines of a Drawer in the order of their retirement. -/
def retEntry (w : Drawer) (e : Nat) : Nat :=
  match w.retLines[e]? with
  | some (col, i) => i + 2 ^ 14 * boolNat col + 2 ^ 15
  | none => 0

/-- MEM_RTABi: the entries in the order they were added. -/
def rtabWord (m : MemBlk) (i : Nat) : Nat :=
  match m.rtab[i]? with
  | some r => 1 + 2 * r.kind + r.addr / 256 * 256
  | none => 0

def memRead (s : State) (off : Nat) : Nat :=
  let w := drawer s (reg s rMemDsel)
  if off = 0x0800000 then (if Config.hbm512 then 0x0010040000400860 else 0x0010040000300860)
  else if off = 0x0800020 then s.mem.rtab.length
  else if off = 0x0800028 then min 65535 s.mod.fillUs + 2 ^ 16 * boolNat s.mod.fillWarm
  else if 0x0800040 ≤ off ∧ off < 0x0800070 then counter s off
  else if 0x0800108 ≤ off ∧ off < 0x0800128 ∧ off % 8 = 0 then
    let k := (off - 0x0800108) / 8
    retEntry w (4 * k) + retEntry w (4 * k + 1) * 2 ^ 16 + retEntry w (4 * k + 2) * 2 ^ 32 + retEntry w (4 * k + 3) * 2 ^ 48
  else if 0x0810000 ≤ off ∧ off < 0x0812000 ∧ off % 8 = 0 then rtabWord s.mem ((off - 0x0810000) / 8)
  else reg s off

/-- CAL_DIEd. -/
def dieWord (s : State) (d : Nat) : Nat :=
  unsigned 16 (dieReading s d) + 2 ^ 16 * unsigned 16 (dieCal s d).tRef + 2 ^ 32 * boolNat (dieCal s d).refValid
    + 2 ^ 33 * boolNat (dieRunning s d)

def calRead (s : State) (off : Nat) : Nat :=
  match off - 0x0900000 with
  | 0x30 => (s.cal.vref.map fun v => v.1 + 2 ^ 21 * v.2 + 2 ^ 31).getD 0
  | 0x60 => s.drawers.countP fun e => e.2.staged.isSome
  | 0x68 =>
    let w := leastEye s OptLane.eyeW
    let h := leastEye s OptLane.eyeH
    w.1 + 2 ^ 8 * h.1 + 2 ^ 16 * w.2 + 2 ^ 20 * h.2
  | _ =>
    if 0x0900040 ≤ off ∧ off < 0x0900060 then counter s off
    else if 0x0900100 ≤ off ∧ off < 0x0900180 then
      let d := (off - 0x0900100) / 16
      if off % 16 = 0 then dieWord s d else if off % 16 = 8 then (dieCal s d).last else 0
    else reg s off

/-! ## Nightstand, recovery, firmware, power (Tables 13.6, 13.7, 14.9, 14.10, 15.8, 15.9, 16.8, 16.9) -/

def nstRead (s : State) (off : Nat) : Nat :=
  match off - 0x0A00000 with
  | 0x20 => reg s off + 512 * boolNat s.nst.startPending.isSome
  | 0x28 => (s.nst.result.map fun r => r.2 + 2 ^ 16 * r.1 + 2 ^ 31).getD 0
  | 0x30 => s.nst.level + reg s off + 2 ^ 16 * s.nst.src
  | 0x38 => nstTime s
  | 0x40 => s.nst.prod % 2 ^ 32
  | 0x48 => counter s off
  | 0x50 => bitmapOf ((List.range 32).filter (ruleActive s))
  | o =>
    if 0x100 ≤ o ∧ o < 0x160 ∧ o % 4 = 0 then reg s off + filtOf s ((o - 0x100) / 4) * 2 ^ 16
    else if 0x10000 ≤ o ∧ o < 0x18000 ∧ o % 8 = 0 then (tabGet 0 s.nst.buf ((o - 0x10000) / 8)).toNat
    else reg s off

/-- The 32 bytes of an entry as written, with its sequence number (Table 14.4). -/
def LogEntry.bytes (e : LogEntry) (seq : Nat) : List Byte :=
  leBytes 8 e.time ++ leBytes 3 seq
    ++ leBytes 1 (boolNat e.descValid + 2 * boolNat e.summary.isSome + 4 * boolNat (!e.lost.isEmpty) + 8 * boolNat e.ctxValid + 16 * (e.gen % 16))
    ++ match e.summary with
      | some h => padTo 20 h
      | none => leBytes 2 e.code ++ leBytes 1 e.source ++ leBytes 1 e.action ++ leBytes 1 (e.ctx + 16 * e.ring) ++ leBytes 1 e.count8
          ++ leBytes 2 e.engine ++ leBytes 4 e.descIndex ++ leBytes 8 e.detail

/-- An entry as it is read: an uncorrectable 64-bit word is returned as 0xFF bytes (R405, R419). -/
def LogEntry.read (e : LogEntry) (seq : Nat) : List Byte :=
  (List.range 4).flatMap fun k => if e.lost.contains k then List.replicate 8 0xFF else ((e.bytes seq).drop (8 * k)).take 8

/-- RCV_LOGk: the newest of the entries j with j mod 4,096 = k (R418). A place never written since standby power reads as 0
(DESIGN CHOICE, log entry 46). -/
def logRead (s : State) (k : Nat) : List Byte :=
  let back := (s.logProd - 1 - k % 4096) % 4096
  match (if k % 4096 < s.logProd then s.log[back]? else none) with
  | some e => e.read (s.logProd - 1 - back)
  | none => zeros 32

def rcvRead (s : State) (off : Nat) : Nat :=
  match off - 0x0B00000 with
  | 0x28 => s.logProd % 2 ^ 32
  | 0x38 => boolNat s.rcv.dumpValid + 256 * s.rcv.dumpCause + 2 ^ 16 * (s.rcv.dumpTime % 2 ^ 48)
  | o =>
    if 0x40 ≤ o ∧ o < 0x58 then counter s off
    else if 0x100 ≤ o ∧ o < 0x120 ∧ o % 8 = 0 then s.mod.resetTimes.getD ((o - 0x100) / 8) 0
    else if o = 0x20 then 0
    else reg s off

/-- FWU_ACTIVE and FWU_STAGED but for bit 39. -/
def imageWord (i : Option Image) (slot : Nat) : Nat :=
  match i with
  | some i => imgVersion i + 2 ^ 32 * (imgSvn i % 64) + 2 ^ 38 * slot
  | none => 0

def fwuRead (s : State) (off : Nat) : Nat :=
  let f := s.fwu
  match off - 0x0C00000 with
  | 0x28 => f.state.code + 256 * f.reason + 2 ^ 16 * f.result
  | 0x40 => f.progress
  | 0x48 => imageWord f.active f.activeSlot + 2 ^ 39 * boolNat f.fallback
  | 0x50 => imageWord (slotOf f (1 - f.selector)) (1 - f.selector) + 2 ^ 39 * boolNat f.verified
  | 0x58 => boolNat f.ownerLock + 2 * boolNat s.mod.pwrHold + 4 * f.minSvn + 256 * f.keysRevoked
  | 0x60 => f.pendingChests.length
  | _ => reg s off

/-- PWR_PINS. -/
def pinsWord (s : State) : Nat :=
  let m := s.mod
  boolNat m.pwrHold + 2 * boolNat m.perst + 4 * boolNat m.pwrGood + 8 * boolNat (m.refclk && m.pllLocked) + 16 * boolNat m.pcieRefclk + 32 * m.sa

/-- PWR_INPUT: the filtered input voltage in mV and current in units of 10 mA (Table 13.1). -/
def inputWord (s : State) : Nat := min 65535 (5 * filtOf s 2 / 4) + 2 ^ 16 * min 65535 (5 * filtOf s 3 / 32)

def pwrRead (s : State) (off : Nat) : Nat :=
  match off - 0x0D00000 with
  | 0x20 => pinsWord s
  | 0x28 => s.mod.refuseReason + 2 ^ 16 * min 65535 s.mod.bootMs
  | 0x30 => inputWord s
  | 0x40 => s.nst.energy / 1000
  | 0x48 => counter s off
  | _ => reg s off

/-! ## One read -/

/-- The value of the register at an offset of the physical function's BAR0; an offset that holds no register reads as 0 (R322). -/
def registerRead (s : State) (off : Nat) : Nat :=
  match statusBlock off, evtBlock off with
  | some b, _ => (flagsOf s b).status.toNat
  | none, some b => (flagsOf s b).evt.toNat
  | none, none =>
    match off / 0x100000 with
    | 0 | 1 => hifRead s off
    | 2 => drwRead s off
    | 3 => plnRead s off
    | 4 => trsRead s off
    | 5 => drsRead s off
    | 6 => rdxRead s off
    | 7 => optRead s off
    | 8 => memRead s off
    | 9 => calRead s off
    | 10 => nstRead s off
    | 11 => rcvRead s off
    | 12 => fwuRead s off
    | 13 => pwrRead s off
    | _ => 0

/-- One bit for each Drawer from 8j on. -/
def drawerBits (s : State) (j : Nat) (f : Drawer → Bool) : Byte :=
  BitVec.ofNat 8 (bitmapOf ((List.range 8).filter fun i => f (drawer s (8 * j + i))))

/-- A byte of an array of BAR0: the Drawer maps, the Worn and retired flags, PLN_FAILCOL, the owner tables, NST_SCAN, RCV_LOG. -/
def arrayByte (s : State) (off : Nat) : Option Byte :=
  if 0x0210000 ≤ off ∧ off < 0x0218000 then
    some (BitVec.ofNat 8 (bitsOf (mapOf s ((off - 0x0210000) / 0x800)).toNat (8 * (off % 0x800) + 7) (8 * (off % 0x800))))
  else if rDrwWorn ≤ off ∧ off < rDrwWorn + 0x800 then some (drawerBits s (off - rDrwWorn) Drawer.worn)
  else if 0x0221000 ≤ off ∧ off < 0x0221800 then some (drawerBits s (off - 0x0221000) Drawer.retired)
  else if 0x0301000 ≤ off ∧ off < 0x0301000 + 1036 then
    some (BitVec.ofNat 8 (tabGet 0 (drawer s (reg s 0x0300100)).failCol (off - 0x0301000)))
  else if rRdxCtx 0 ≤ off ∧ off < rRdxCtx 16 ∧ 0x200 ≤ off % 0x1000 ∧ off % 0x1000 < 0x240 then
    let ctx := (off - rRdxCtx 0) / 0x1000
    some (BitVec.ofNat 8 ((ownersNow s ctx).getD (off % 0x1000 - 0x200) 0))
  else if rRdxCtx 0 ≤ off ∧ off < rRdxCtx 16 ∧ 0x240 ≤ off % 0x1000 ∧ off % 0x1000 < 0x280 then
    some (BitVec.ofNat 8 (bitsOf (reg s (off / 8 * 8)) (8 * (off % 8) + 7) (8 * (off % 8))))
  else if rNstScan 0 ≤ off ∧ off < rNstScan 64 then some (BitVec.ofNat 8 (reg s off))
  else if 0x0B10000 ≤ off ∧ off < 0x0B30000 then (logRead s ((off - 0x0B10000) / 32))[off % 32]?
  else none

/-- The offset in the physical function's BAR0 that a function's read reaches: a virtual function sees offsets below 0x1000 as the
physical function's, and its context's doorbell page at 0x1000 (R321). -/
def readOffset (s : State) (fn off : Nat) : Option Nat :=
  if fn = 0 then some off
  else if s.vfs < fn then none
  else if off < 0x1000 then some off
  else if off < 0x2000 then some (0x0100000 + 0x1000 * fn + (off - 0x1000))
  else none

/-- What an aligned read of 64 bits where `wide`, else of 32, gives a function (R321 to R327). Offsets that do not answer read as 0. -/
def bar0Read (s : State) (fn off : Nat) (wide : Bool) : Nat :=
  let n := if wide then 8 else 4
  match readOffset s fn off with
  | none => 0
  | some o =>
    if !bar0Answers s o then 0
    else match arrayByte s o with
      | some _ => leNat ((List.range n).map fun k => (arrayByte s (o + k)).getD 0)
      | none => registerRead s o % 2 ^ (8 * n)

end Sys2Proof.Machine
end

