-- ==== Sys2Proof/Safety.lean ====
section
/-!
DEFINITION. What the statements are told in: a command that completes, and the parts of the state with what it means that a part
is as before.
-/
namespace Sys2Proof.Machine

/-- The parts of the state that a frame speaks of. The queue of waiting commands is none of them: no command touches it. -/
inductive Area
  | module | log | registers | nightstand | recovery | firmware | doors | functions | copies | memory | errors | retirements
  | scrubs | trestle | dresser | steps | drawers | chests | maps | calibration | ports | bays | peers | inbox | groups | pair
  | units | held | output
  /-- STATUS and STATUS_EVT of a block. -/
  | flags (b : Block)
  /-- The event counters of a block. -/
  | counters (b : Block)
deriving DecidableEq, Repr

/-- The code of the block in whose window a BAR0 offset lies. -/
def blockCode (off : Nat) : Nat := off / 2 ^ 20 - 1

/-- The part is the same in both states. What leaves the module stands with what the fetch and the MSI-X vectors hold. -/
def Area.same : Area → State → State → Prop
  | .module, s, t => t.mod = s.mod
  | .log, s, t => t.log = s.log ∧ t.logProd = s.logProd
  | .registers, s, t => t.regs = s.regs
  | .nightstand, s, t => t.nst = s.nst
  | .recovery, s, t => t.rcv = s.rcv
  | .firmware, s, t => t.fwu = s.fwu
  | .doors, s, t => t.doors = s.doors
  | .functions, s, t => t.vfs = s.vfs
  | .copies, s, t => t.copies = s.copies
  | .memory, s, t => t.mem.cells = s.mem.cells
  | .errors, s, t => t.mem.errs = s.mem.errs ∧ t.mem.ceLogged = s.mem.ceLogged
  | .retirements, s, t => t.mem.rtab = s.mem.rtab
  | .scrubs, s, t => t.mem.scrubCup = s.mem.scrubCup ∧ t.mem.scrubHbm = s.mem.scrubHbm
  | .trestle, s, t => t.trs = s.trs
  | .dresser, s, t => t.drs = s.drs
  | .steps, s, t => t.steps = s.steps
  | .drawers, s, t => t.drawers = s.drawers
  | .chests, s, t => t.chests = s.chests
  | .maps, s, t => t.maps = s.maps ∧ t.stagedMaps = s.stagedMaps
  | .calibration, s, t => t.cal = s.cal
  | .ports, s, t => t.opt.ports = s.opt.ports
  | .bays, s, t => t.opt.bays = s.opt.bays ∧ t.opt.map = s.opt.map ∧ t.opt.spare = s.opt.spare ∧ t.opt.moving = s.opt.moving ∧
      t.opt.transfer = s.opt.transfer ∧ t.opt.result = s.opt.result
  | .peers, s, t => t.opt.peers = s.opt.peers
  | .inbox, s, t => t.opt.inbox = s.opt.inbox ∧ t.opt.dropLogged = s.opt.dropLogged
  | .groups, s, t => t.rdx.groups = s.rdx.groups
  | .pair, s, t => t.rdx.pair = s.rdx.pair
  | .units, s, t => t.rdx.units = s.rdx.units
  | .held, s, t => t.rdx.held = s.rdx.held ∧ t.rdx.replied = s.rdx.replied
  | .output, s, t => t.out = s.out ∧ t.hif = s.hif
  | .flags b, s, t => tabGet {} t.flags b.code = tabGet {} s.flags b.code
  | .counters b, s, t => ∀ off, blockCode off = b.code → tabGet 0 t.cnt off = tabGet 0 s.cnt off

/-- The tables of a doorbell page are in their canonical form. -/
def pageWf (d : Door) : Bool := tabWf {} d.rings && tabWf 0 d.sems

end Sys2Proof.Machine

namespace Sys2Proof.Safety
open Sys2Proof.Machine

/-- The command answers a next state, and that state is as `p` says. -/
def Completes (c : Instr) (s : State) (p : State → Prop) : Prop := ∃ t, exec c s = .next t ∧ p t

/-- Every table of the state, of the doorbell pages and of Nightstand is in its canonical form: indices rise, and no entry equals what
an unlisted index reads as. -/
def canonical (s : State) : Bool :=
  tabWf {} s.flags && tabWf 0 s.cnt && tabWf none s.regs && tabWf {} s.doors && Memory.wf s.mem && tabWf {} s.trs && tabWf {} s.drs
    && tabWf {} s.steps && tabWf {} s.drawers && tabWf {} s.chests && tabWf 0 s.maps && tabWf [] s.stagedMaps
    && tabWf {} s.cal.dies && tabWf {} s.opt.ports && tabWf {} s.opt.bays && tabWf 0 s.opt.peers && tabWf none s.opt.dropLogged
    && tabWf {} s.rdx.groups && tabWf {} s.rdx.units && tabWf none s.rdx.replied && (s.doors.all fun e => pageWf e.2)
    && tabWf 0 s.nst.lastEnd && tabWf 0 s.nst.filt && tabWf false s.nst.seen && tabWf 0 s.nst.buf && tabWf false s.nst.ruleActive
    && tabWf 0 s.nst.dwell && tabWf none s.hif.resetting

/-- The outcome is a next state: neither a fault nor a refusal. -/
def goesOn : Host.Outcome State Fault Refusal → Bool
  | .next _ => true
  | .fault _ => false
  | .refused _ => false

/-- A W1C bit of a block's STATUS register is set. -/
def flagUp (s : State) (b : Block) (i : Nat) : Bool := (flagsOf s b).status.getLsbD i

/-- Between the two states one entry has been written to the error log, with its time and reset generation. -/
def Logged (s t : State) (e : LogEntry) : Prop :=
  t.logProd = s.logProd + 1 ∧ t.log = (insertLog { e with time := s.mod.devTime, gen := s.mod.resetGen, seen := s.mod.nstNs } s.log).take 4096

/-- No entry has been written to the error log. -/
def Unlogged (s t : State) : Prop := t.logProd = s.logProd ∧ t.log = s.log

/-- An event counter, of 64 bits, has counted `n`. -/
def Counted (s t : State) (off n : Nat) : Prop := counter t off = (counter s off + n) % 2 ^ 64

/-- The completion record of descriptor `r` is among what has left the module since `s`: two posted writes, byte 3 last (R339). -/
def Reported (s t : State) (r : DRef) (b : List Byte) (status : Nat) (tail : List Byte) : Prop :=
  let whole := completionRecord s r b status tail
  let q := ringOf s r.ctx r.ring
  let addr := q.comp + 32 * (r.idx % q.size)
  .hostWrite (functionOf s r.ctx) addr whole (some 3) false ∈ t.out
    ∧ .hostWrite (functionOf s r.ctx) (addr + 3) [byteAt whole 3] none false ∈ t.out

/-- The descriptor that `s` holds open has completed in `t` with a status and the last 16 bytes of its record, those of Table 7.11
where a STEP_GATE or STEP_END gives none; ECC_UNCORRECTABLE takes the place of the status where it has read a codeword that is in error
(R357). -/
def Ended (s t : State) (r : DRef) (status : Nat) (tail : List Byte) : Prop :=
  ∃ d st, findDesc s r = some d
    ∧ (st = status ∨ st = stEccUncorrectable ∧ (d.poisoned = true ∨ s.mem.errs ≠ []))
    ∧ Reported s t r d.bytes st (tailOf s r d.bytes tail)

/-- The next descriptor of the ring can be dispatched now, it has this opcode, and the substitutions of the open step make `a` of it:
its name, its final bytes and the scalar registers that they set (R240, R241, R336). -/
def Dispatches (s : State) (ctx ring op : Nat) (a : Accepted) : Prop :=
  ∃ d, headFor s ctx ring op = some d ∧ substitute s ⟨⟨ctx, ring, d.idx⟩, d.bytes, []⟩ = .go a

/-! ## What each command changes -/

/-- Every part, but for those listed. -/
def allBut (l : List Area) : List Area :=
  (([.module, .log, .registers, .nightstand, .recovery, .firmware, .doors, .functions, .copies, .memory, .errors, .retirements,
    .scrubs, .trestle, .dresser, .steps, .drawers, .chests, .maps, .calibration, .ports, .bays, .peers, .inbox, .groups, .pair,
    .units, .held, .output] : List Area) ++ blocks.map Area.flags ++ blocks.map Area.counters).filter fun p => !l.contains p
where
  blocks : List Block := [.hif, .drw, .pln, .trs, .drs, .rdx, .opt, .mem, .cal, .nst, .rcv, .fwu, .pwr]

/-- What writing a completion record changes: the ring, the status counts of the step, the host; and the staged maps, where it ends a
STEP_BEGIN that begins no step (R80). -/
def completion : List Area :=
  [.doors, .steps, .maps, .output, .counters .hif]

/-- What reading memory changes where it meets an error. -/
def reading : List Area :=
  [.log, .errors, .flags .mem, .counters .mem]

/-- What the end or the change of a link changes. -/
def linkWork : List Area :=
  [.log, .ports, .inbox, .pair, .output, .flags .opt, .counters .opt]

/-- What sending a packet changes. -/
def sending : List Area :=
  [.steps, .ports, .output, .counters .rdx, .counters .opt]

/-- What an exchange at work changes. -/
def exchange : List Area :=
  [.log, .steps, .maps, .ports, .inbox, .output, .flags .rdx, .flags .opt, .counters .rdx, .counters .opt]

/-- What ending the work of a context changes. -/
def contexts : List Area :=
  [.module, .log, .registers, .firmware, .doors, .copies, .memory, .errors, .scrubs, .trestle, .dresser, .steps, .drawers,
    .chests, .maps, .calibration, .ports, .inbox, .groups, .units, .output, .flags .hif, .flags .drw, .flags .pln, .flags .drs,
    .flags .rdx, .flags .opt, .flags .mem, .flags .cal, .flags .rcv, .counters .hif, .counters .drw, .counters .pln,
    .counters .drs, .counters .rdx, .counters .opt, .counters .mem, .counters .cal, .counters .rcv]

/-- The parts that a command may change; it leaves every other part as it is. -/
def changes : Instr → List Area
  | .standbyPowerApplied _ => [.module, .nightstand, .bays, .flags .nst, .flags .pwr]
  | .standbyPowerLost | .inputOvervoltage => allBut []
  | .powerOnRequest _ => [.module, .log, .nightstand, .output, .flags .pwr, .counters .pwr]
  | .powerOffRequest =>
    allBut [.retirements, .flags .nst, .flags .rcv, .flags .pwr, .counters .nst, .counters .rcv, .counters .pwr]
  | .releaseRetirement => [.module, .output]
  | .mainRailsUp | .rootPllLocked | .refclkRestored | .perstDeassert => [.module]
  | .fillComplete => [.module, .registers, .memory, .errors]
  | .bootImageChecked _ => [.module, .log, .registers, .firmware, .flags .fwu]
  | .bootComplete => linkWork ++ [.module, .registers, .recovery]
  | .rootPllLossOfLock =>
    allBut [.retirements, .flags .nst, .flags .rcv, .flags .pwr, .counters .nst, .counters .rcv, .counters .pwr]
  | .refclkLost => allBut [.retirements, .flags .rcv, .counters .nst, .counters .rcv, .counters .pwr]
  | .perstAssert | .pcieLinkLoss _ => contexts ++ [.functions, .flags .pwr]
  | .pwrHoldChange _ => [.module, .log, .flags .pwr]
  | .mctpWarmReset | .mctpColdReset | .activateFirmware =>
    allBut [.retirements, .flags .nst, .flags .pwr, .counters .nst, .counters .rcv, .counters .pwr]
  | .setOwnerLock | .clearOwnerLock | .writeProvisioningRecord _ => [.firmware, .output]
  | .fwuOwnerSet | .activateDrainDone => [.firmware]
  | .pldmGetSensorReading _ | .getStatus => [.output]
  | .linkHeartbeatSend => [.ports, .output]
  | .monitorConversion _ _ => allBut [.retirements, .flags .rcv, .counters .rcv, .counters .pwr]
  | .nstAdcStart => [.nightstand]
  | .powerMsBoundary | .throttleSourceTimer _ _ => [.log, .nightstand, .flags .nst]
  | .nstRuleWrite _ _ | .nstThrottleCapWrite _ => [.log, .registers, .nightstand, .flags .nst]
  | .hutchHeartbeat | .dumpClear => [.recovery]
  | .hutchHeartbeatMiss => allBut [.retirements, .flags .nst, .flags .pwr, .counters .nst, .counters .pwr]
  | .hutchRestoreTimeout | .deviceWarmReset _ _ | .deviceColdReset _ | .fwuActivate | .activateWatchdog =>
    allBut [.retirements, .flags .nst, .flags .pwr, .counters .nst, .counters .rcv, .counters .pwr]
  | .contextStepWatchdog _ _ =>
    exchange ++ [.registers, .doors, .maps, .groups, .units, .flags .hif, .flags .rcv, .counters .hif, .counters .rcv]
  | .contextReset _ _ => contexts
  | .hifRingTailWrite _ _ _ _ => [.log, .doors, .flags .hif]
  | .hifRingCtrlWrite _ _ _ _ | .hifHistCtrlWrite _ _ _ | .hifHistConsumedWrite _ _ _ => [.doors]
  | .hifSemWrite _ _ _ _ => completion
  | .hifNop _ _ => completion ++ reading
  | .hifApertureWrite _ | .optSelfWrite _ => [.registers]
  | .bar2Read _ _ => reading ++ [.doors, .output, .flags .hif, .counters .hif]
  | .bar2Write _ _ => reading ++ [.memory, .flags .hif, .counters .hif]
  | .bar0BadAccess _ _ _ => [.log, .output, .flags .hif, .counters .hif]
  | .vfEnableSet _ | .vfEnableClear | .functionLevelReset _ => contexts ++ [.functions]
  | .descriptorFetch _ _ _ => completion ++ [.log, .flags .hif]
  | .hifCopy _ _ => completion ++ reading ++ [.copies]
  | .copyDone _ _ _ _ _ => completion ++ reading ++ [.copies, .memory, .flags .hif]
  | .w1cWrite _ _ _ =>
    [.drawers, .flags .hif, .flags .drw, .flags .pln, .flags .trs, .flags .drs, .flags .rdx, .flags .opt, .flags .mem,
      .flags .cal, .flags .nst, .flags .rcv, .flags .fwu, .flags .pwr]
  | .eventCounterWrite _ _ =>
    [.flags .hif, .flags .drw, .flags .pln, .flags .trs, .flags .drs, .flags .rdx, .flags .opt, .flags .mem, .flags .cal,
      .flags .nst, .flags .rcv, .flags .fwu, .flags .pwr]
  | .registerWrite _ _ _ _ => [.log, .registers, .nightstand, .doors, .peers, .flags .hif, .counters .hif]
  | .drwProduct _ _ | .drwReadRows _ _ | .drwReadCols _ _ | .drwConversionDone _ _ | .plnImage _ _ =>
    completion ++ reading ++ [.memory, .drawers, .flags .hif, .flags .drw, .flags .pln, .counters .drw]
  | .drwProductWatchdog _ =>
    completion ++ reading ++ [.firmware, .memory, .drawers, .chests, .calibration, .flags .hif, .flags .drw, .flags .pln,
      .flags .cal, .flags .rcv, .counters .drw, .counters .cal, .counters .rcv]
  | .drwMapWrite _ _ _ => [.log, .maps, .flags .hif, .counters .hif]
  | .plnTarget _ _ | .plnProgram _ _ | .plnRemapCol _ _ => completion ++ reading ++ [.chests]
  | .targetUnitDone _ => completion ++ reading ++ [.memory, .chests]
  | .plnLaneStart _ => completion ++ reading ++ [.firmware, .drawers, .chests]
  | .programBindingEnd _ _ => [.chests]
  | .programPreReadDone _ _ _ | .programVerifyRead _ _ _ | .programClosingRead _ _ _ =>
    completion ++ reading ++ [.module, .registers, .firmware, .memory, .drawers, .chests, .maps, .flags .pln, .counters .pln]
  | .programPulse _ _ _ => [.drawers, .chests, .counters .pln]
  | .programRowWatchdog _ _ =>
    completion ++ reading ++ [.firmware, .drawers, .chests, .calibration, .flags .hif, .flags .drw, .flags .pln, .flags .cal,
      .flags .rcv, .counters .pln, .counters .cal, .counters .rcv]
  | .trsMatmul _ _ => completion ++ reading ++ [.trestle, .flags .hif]
  | .trsTileDone _ => completion ++ reading ++ [.memory, .trestle, .flags .hif, .flags .trs, .counters .trs]
  | .trsWatchdog _ =>
    completion ++ [.log, .registers, .trestle, .flags .hif, .flags .trs, .flags .rcv, .counters .trs, .counters .rcv]
  | .drsLaunch _ _ | .drsProgramFetched _ => completion ++ reading ++ [.dresser]
  | .drsLoadReturn _ => [.dresser]
  | .drsTimeWatchdog _ =>
    completion ++ reading ++ [.registers, .dresser, .flags .hif, .flags .drs, .flags .rcv, .counters .drs, .counters .rcv]
  | .drsInstrLimit _ => completion ++ reading ++ [.dresser, .flags .hif, .flags .drs, .counters .drs]
  | .drsNop _ | .drsEnd _ | .drsSetvl _ | .drsKey _ | .drsBr _ | .drsBeq _ | .drsBne _ | .drsBlt _ | .drsBge _
  | .drsSli _ | .drsSaddi _ | .drsSadd _ | .drsSsub _ | .drsSmul _ | .drsSand _ | .drsSor _ | .drsSxor _ | .drsSshli _
  | .drsSshri _ | .drsSori _ | .drsSld _ | .drsSst _ | .drsSext _ | .drsTbc _ | .drsTmov _ | .drsTiota _ | .drsTld _
  | .drsTldc _ | .drsTldx _ | .drsTlds _ | .drsTst _ | .drsTstc _ | .drsTstx _ | .drsTstq _ | .drsTsts _ | .drsWld _
  | .drsWst _ | .drsMld _ | .drsMst _ | .drsTadd _ | .drsTsub _ | .drsTmul _ | .drsTfma _ | .drsTmax _ | .drsTmin _
  | .drsTabs _ | .drsTneg _ | .drsTdiv _ | .drsTsqrt _ | .drsTrcp _ | .drsTrsq _ | .drsTex2 _ | .drsTlg2 _ | .drsTand _
  | .drsTor _ | .drsTxor _ | .drsTshl _ | .drsTshr _ | .drsTsra _ | .drsTcvt _ | .drsTrnd _ | .drsTunpk _ | .drsTpack _
  | .drsTcmp _ | .drsTsel _ | .drsMand _ | .drsMor _ | .drsMxor _ | .drsMnot _ | .drsMset _ | .drsMcnt _ | .drsTperm _
  | .drsTtrn _ | .drsTbcl _ | .drsTcompress _ | .drsTexpand _ | .drsTrsum _ | .drsTrmax _ | .drsTrmin _ | .drsTramax _
  | .drsTramin _ | .drsTrrsum _ | .drsTrrmax _ | .drsTrrmin _ | .drsWfma _ | .drsWcvt _ | .drsWfrom _ =>
    completion ++ reading ++ [.memory, .dresser, .flags .hif, .flags .drs, .counters .drs]
  | .stepBegin _ _ => completion ++ reading ++ [.module, .registers, .memory, .drawers, .maps, .groups, .flags .pln]
  | .ruleInputPresent _ | .ruleInputStaleTimeout _ =>
    completion ++ reading ++ [.module, .registers, .memory, .drawers, .maps, .flags .pln]
  | .stepGate _ _ | .stepsizeTableCurrent _ | .stepsizeStaleTimeout _ | .calSave _ _ => completion ++ reading ++ [.memory]
  | .stepEnd _ _ | .epochNotice | .pairDigest | .divergeWaitExpiry _ =>
    exchange ++ reading ++ [.module, .nightstand, .firmware, .doors, .memory, .drawers, .chests, .groups, .pair, .units,
      .held, .flags .hif, .counters .hif]
  | .rdxReduce _ _ | .rdxGather _ _ | .partSumDone _ =>
    exchange ++ reading ++ [.doors, .memory, .groups, .pair, .units, .flags .hif, .counters .hif]
  | .bucketContrib | .bucketCodes =>
    exchange ++ reading ++ [.doors, .memory, .groups, .units, .held, .flags .hif, .counters .hif]
  | .bucketDeadline _ _ _ => completion ++ reading ++ [.memory, .groups, .units, .flags .hif, .counters .rdx]
  | .bucketAbortTimeout _ _ => exchange ++ reading ++ [.doors, .memory, .groups, .units, .held, .flags .hif, .counters .hif]
  | .bucketResult => exchange ++ reading ++ [.doors, .memory, .groups, .pair, .held, .flags .hif, .counters .hif]
  | .bucketResultAck => exchange ++ reading ++ [.doors, .memory, .held, .flags .hif, .counters .hif]
  | .bucketAbort => exchange ++ [.doors, .groups, .units, .held, .flags .hif, .counters .hif]
  | .pairHeartbeatSend | .degradedProbeTimer => sending
  | .pairHeartbeat | .pairProbeReply => exchange ++ [.pair, .held]
  | .pairLossTimeout => sending ++ [.pair]
  | .pairProbe => exchange ++ [.held]
  | .probeWindowExpiry | .rdxInstall _ =>
    exchange ++ reading ++ [.doors, .memory, .groups, .pair, .units, .held, .flags .hif, .counters .hif]
  | .fencedNotice =>
    exchange ++ [.module, .nightstand, .firmware, .doors, .drawers, .chests, .groups, .pair, .units, .held, .flags .hif,
      .counters .hif]
  | .pairMirror => exchange ++ reading ++ [.memory, .groups, .pair, .held]
  | .epochHoldExpiry => [.log, .held, .counters .rdx]
  | .rdxAdmit _ =>
    exchange ++ reading ++ [.module, .nightstand, .firmware, .doors, .memory, .drawers, .chests, .groups, .pair, .units, .held,
      .flags .hif, .counters .hif]
  | .rdxPairWrite _ => linkWork ++ [.registers, .steps, .pair, .counters .rdx]
  | .credenzaProgressWatchdog _ =>
    exchange ++ [.registers, .doors, .groups, .units, .flags .hif, .flags .rcv, .counters .hif, .counters .rcv]
  | .dataFlitReceived _ _ | .replayTimeout _ | .linkHeartbeatTimeout _ | .laneSignalLoss _ | .laneMonitorWindow _ _ _ _
  | .holdTimeout _ | .retrain _ | .portReset _ | .peerStartsTraining _ | .idleFlitReceived _ _ => linkWork
  | .hello _ _ _ _ | .trainingTimeout _ => linkWork ++ [.firmware, .flags .fwu]
  | .eyeRemeasure _ => [.ports]
  | .trainingPass _ _ _ => linkWork ++ [.firmware, .pair, .flags .fwu]
  | .downRetrainTimer _ => [.ports, .output]
  | .linkHeartbeat _ | .holdRequest _ | .spareRequest _ _ | .spareAcknowledged _ => linkWork
  | .laserFault _ | .bayInterlockOpen _ => linkWork ++ [.bays]
  | .laserRelease _ => [.registers, .ports, .bays, .output]
  | .laserTransfer => linkWork ++ [.bays, .pair]
  | .bayInserted _ _ _ _ | .lightReturns _ => [.bays]
  | .optCtrlWrite _ => linkWork ++ [.registers, .firmware, .flags .fwu]
  | .memScrub _ _ | .scrubDone _ | .scrubWatchdog _ _ => completion ++ reading ++ [.memory, .scrubs]
  | .memRetire _ _ =>
    completion ++ reading ++ [.memory, .retirements, .drawers, .maps, .calibration, .flags .cal, .counters .cal]
  | .calRestore _ _ => completion ++ reading ++ [.memory, .drawers, .calibration, .flags .cal]
  | .calRun _ _ _ => completion ++ reading ++ [.calibration, .flags .cal, .counters .cal]
  | .calReq _ _ | .calTempCheck _ | .calRunWatchdog _ =>
    completion ++ [.log, .calibration, .flags .cal, .counters .cal]
  | .drawerCalibration _ _ _ => completion ++ reading ++ [.memory, .drawers, .calibration, .flags .cal, .counters .cal]
  | .fwuStage => [.log, .firmware, .output, .flags .fwu]
  | .fwuVerify | .fwuAbort => [.log, .firmware, .flags .fwu]
  | .stagingDone _ => [.firmware, .flags .fwu]
  | .fwuVerifyDone _ | .firmwareData _ => [.firmware, .output, .flags .fwu]
  | .activateReloadDone => linkWork ++ [.recovery, .firmware, .flags .fwu]
  | .requestUpdate | .passComponentTable | .updateComponent | .cancelUpdate => [.log, .firmware, .output, .flags .fwu]


end Sys2Proof.Safety
end

