-- ==== Sys2Proof/Terms.lean ====
section
/-!
DEFINITION. The words in which the statements speak of a block's own matters: a Dresser instruction that executes, a message that
arrives, a link that is lost, an attempt at a commit, and the invariant of the machine.
-/
namespace Sys2Proof.Safety
open Sys2Proof.Machine

/-- The unit may execute its launch's next instruction now (it is running, below its limit, and waits for no register), its word is
`w`, its opcode `op`, and it is not the last of the program (R187, R204, R209). -/
def Issues (s : State) (u op : Nat) (j : DrsJob) (w : DWord) : Prop :=
  nextInsn s u = some (j, w) ∧ wOp w = op ∧ (drsUnit s u).run.pc + 1 < drsProgLen j.bytes

/-- From `s` to `t` the unit has executed one instruction: it is counted, its index is the last executed, the program goes on at
`pc`, what else the unit holds is as `r` says, and every other unit is as before (R187, R213). -/
def Executed (s t : State) (u : Nat) (r : DrsRun) (pc : Nat) : Prop :=
  drsUnit t u = { drsUnit s u with run := { r with executed := (drsUnit s u).run.executed + 1, lastIdx := (drsUnit s u).run.pc, pc := pc } }
    ∧ (∀ v, v ≠ u → drsUnit t v = drsUnit s v) ∧ Counted s t cDrsInstr 1

/-- A destination tile: `f` in the active lanes; the others keep what `old` has, or are 0 under ZERO (R182). -/
def Lanes (r : DrsRun) (w : DWord) (old x : List Word) (f : Nat → Word) : Prop :=
  ∀ i, i < 256 → lane x i = if active r w i then f i else if wZero w then 0 else lane old i

/-- A destination mask, likewise (R182). -/
def Bits (r : DrsRun) (w : DWord) (old x : BitVec 256) (f : Nat → Bool) : Prop :=
  ∀ i, i < 256 → x.getLsbD i = if active r w i then f i else if wZero w then false else old.getLsbD i

/-- The ring's descriptors that have not started are of valid opcodes and name its context: none of them is completed for its header when
it comes to the front (R335). -/
def GoodHeaders (s : State) (ctx ring : Nat) : Prop :=
  ∀ d ∈ (ringOf s ctx ring).unstarted, opcodeValid (dOpcode d.bytes) = true ∧ dContext d.bytes = ctx

/-- R107, R110, R221 to R223: what an attempt at the commit of step `n` of a context, begun by the descriptor `r`, leaves. The planes named
flip. Where the limit is 0 or not exceeded by the lag, the step begins: the module leaves Ready for Running and the STEP_BEGIN completes;
else it stalls, which STATUS shows. -/
def Attempted (s t : State) (ctx n : Nat) (r : DRef) (flips : Nat → Bool) : Prop :=
  let lag := (largestLag t ctx n).getD (0, 0)
  let limit := reg s (rPlnLagLimit ctx) % 256
  (∀ d, (drawer t d).planeA = (if flips d then (drawer s d).flip else drawer s d).planeA
    ∧ (drawer t d).planeB = (if flips d then (drawer s d).flip else drawer s d).planeB
    ∧ (drawer t d).activeB = (if flips d then (drawer s d).flip else drawer s d).activeB) ∧
  (limit = 0 ∨ lag.1 ≤ limit →
    (∃ o, (stepCtx t ctx).opened = some o ∧ o.num = n ∧ o.begun = true ∧ o.tBegin = s.mod.devTime)
      ∧ (stepCtx t ctx).last = some n ∧ (stepCtx t ctx).lastGate = false
      ∧ t.mod = { s.mod with st := if s.mod.st = .ready then .running else s.mod.st }
      ∧ ∃ tail, Ended s t r 0 (leBytes 8 n ++ tail)) ∧
  (limit ≠ 0 ∧ limit < lag.1 →
    (∃ o, (stepCtx t ctx).opened = some o ∧ o.num = n ∧ o.begun = false ∧ o.wait = .lag ∧ o.stalledAt.isSome = true)
      ∧ t.mod = s.mod ∧ (Safety.GoodHeaders s r.ctx r.ring → t.out = s.out) ∧ reg t (rPlnLagStatus ctx) = (min 255 lag.1 + lag.2 * 256 + 2 ^ 22) % 2 ^ 64)

/-- The oldest waiting packet of a message type is `b`, the staging area has room for it, and Table 8.9 has it processed: its sender is the
live rank `r` of the context's group, and its epoch is the module's. -/
def Arrives (s : State) (type ctx r : Nat) (b : List Byte) : Prop :=
  ∃ m, s.opt.inbox.find? (fun m => pkType m.pkt == type) = some m ∧ m.pkt = b ∧ screen s b = .process ctx r ∧ fitsStage s ctx b = true

/-- The oldest waiting packet of a pair message type is `m`, its sender is the partner, and the partner is not lost (R283). -/
def FromPartner (s : State) (type : Nat) (m : Inbound) : Prop :=
  s.opt.inbox.find? (fun m => pkType m.pkt == type) = some m ∧ canSend s = true ∧ pkSrc m.pkt = partnerAddr s ∧ s.rdx.pair.st ≠ 3

/-- The port carries data and has nothing to send: a control packet of one flit leaves it at once. -/
def Quiet (s : State) (p : Nat) : Prop :=
  (port s p).usable = true ∧ (port s p).queue0 = [] ∧ (port s p).queue1 = [] ∧ (port s p).idx1 = 0 ∧ 0 < (port s p).credit1
    ∧ (port s p).sent.length < 8192

/-- A control packet of one flit has left on a port, and is kept for replay. -/
def SentOn (s t : State) (p : Nat) (b : List Byte) : Prop :=
  (port t p).sent = (port s p).sent ++ [⟨(port s p).txSeq, ownPacket b 1, 0⟩] ∧ ∃ f lanes, .flit p f lanes ∈ t.out ∧ (f.drop 8).take b.length = b

/-- R302, R304: the live link of a port has been lost: it trains, the loss is counted, flagged and logged with its code, the replay buffer is
empty, and a packet that no other port can take waits on it, but for messages of the pair channel, which wait for its port, and those that
are not requeued (R28, R462). -/
def LinkLost (s t : State) (p code : Nat) : Prop :=
  (port t p).st = .training ∧ (port t p).sent = [] ∧ (port t p).downs = min 65535 ((port s p).downs + 1) ∧ flagUp t .opt 0 = true
    ∧ Logged s t { code := code, source := 6, action := 6, engine := p, detail := p + 256 * (port s p).neighbour }
    ∧ .peer p 6 0 ∈ t.out
    ∧ ((∀ k ∈ (port s p).queue0 ++ (port s p).queue1, k.arrival ≠ some p) → ∀ k ∈ (port s p).allPackets, notRequeued s k = false → isPairMessage s k = false → (∀ q ∈ usablePorts s (pkDest k.bytes) k.arrival, q = p) →
        k ∈ (port t p).queue0 ++ (port t p).queue1)

/-- A link-management flit with a code and an argument leaves a port as it is in `q` (DEDUCED: log entry 41 gives the payload's
layout). -/
def Told (q : Port) (p code arg : Nat) : Out := .flit p (flitBytes (2 + q.ackFields) (leBytes 1 code ++ leBytes 4 arg)) q.waves

/-- What every step keeps: each table, memory among them, in its canonical form; at most 4,096 log entries (R405) and four reset times
(R417); and no fence mark on a module that is Ready or Running (R27). -/
def Inv (s : State) : Prop :=
  canonical s = true ∧ s.log.length ≤ 4096 ∧ s.mod.resetTimes.length ≤ 4
    ∧ (s.mod.st = .ready ∨ s.mod.st = .running → s.mod.fenceMark = false)

end Sys2Proof.Safety
end

