-- ==== Sys2Proof/Certificates/Slice0/Obligations.lean ====
section
/-!
DEFINITION. The statements about the module, each from the numbered rules of the spec that it names; a statement of several parts is their
conjunction.
-/
open Sys2Proof Sys2Proof.Machine Sys2Proof.Safety

/-- DESIGN CHOICE (log entry 1): commands wait in a queue, first in, first out, and a step serves one. A step is the effect of the command
at the front of the queue on the state with the queue's rest; R26 says only that the module changes state on events. -/
def Obligations.StepRunsTheFrontCommand : Prop :=
  ∀ (c : Instr) (rest : List Instr) (s : State), step { s with pending := c :: rest } = exec c { s with pending := rest }

/-- DESIGN CHOICE (log entry 7): with no command waiting a step is 1 ns. Nightstand's time advances with standby power, device time with the
root PLL locked, and nothing but these two and the cycle counts of engines that execute changes. -/
def Obligations.TimePassesOnAnEmptyQueue : Prop :=
  ∀ s : State, s.pending = [] → ∃ t, step s = .next t ∧ t.pending = [] ∧
    t.mod = { s.mod with
      nstNs := s.mod.nstNs + (if s.mod.st = .off then 0 else 1), devTime := s.mod.devTime + (if s.mod.pllLocked then 1 else 0) } ∧
    (∀ p : Area, p ≠ .module → p ≠ .trestle → p ≠ .dresser → p.same s t) ∧
    (∀ u, (trsEngine t u).queue = (trsEngine s u).queue ∧ (trsEngine t u).resets = (trsEngine s u).resets) ∧
    ∀ u, (drsUnit t u).queue = (drsUnit s u).queue ∧ (drsUnit t u).run = (drsUnit s u).run

/-- Every command goes on, to a next state with the same commands waiting: the block has no fault and no refusal. R26 names the events that
change the module's state; that a command whose conditions do not hold changes nothing and goes on is the model's choice (log entry 10). -/
def Obligations.EveryCommandGoesOn : Prop :=
  ∀ (c : Instr) (s : State), ∃ t, exec c s = .next t ∧ t.pending = s.pending

/-- The frame of every command. It changes the parts of the state that `changes` lists for it, and leaves every other part as it is. The
list is derived from what the rules of each command write (R26, R325, R335, R357, R411, R414, R450 among them); no one rule states it. -/
def Obligations.CommandsKeepWhatTheyDoNotName : Prop :=
  ∀ (c : Instr) (s t : State), exec c s = .next t → ∀ p : Area, p ∉ changes c → p.same s t

/-- R27, R405, R417: every step from a state with the invariant ends in a state with it. The canonical form of the tables is the model's
own. -/
def Obligations.StepsKeepTheInvariant : Prop :=
  ∀ s : State, Safety.Inv s → ∃ t, step s = .next t ∧ Safety.Inv t

/-- The machine right after reset. From the spec: every Drawer with plane A Active at generation 0, plane B Empty and every weight at level
0 (R88), the ports disabled, OPT_CTRL 0x0354_0000, OPT_SER 100,000 and the laser groups on the bays in their order (R318, Table 9.9).
The model's choice: it starts in Off (log entry 8), with nothing in memory, in the log or waiting, no reset time and no fence mark (log
entry 9). It has the invariant. -/
def Obligations.ResetIsAsStated : Prop :=
  Safety.Inv State.reset ∧ State.reset.mod.st = .off ∧ State.reset.pending = [] ∧ State.reset.mem.cells = [] ∧ State.reset.log = [] ∧
    State.reset.mod.resetTimes = [] ∧ State.reset.mod.fenceMark = false ∧ reg State.reset rOptCtrl = 0x03540000 ∧
    reg State.reset rOptSer = 100000 ∧ State.reset.opt.map = [0, 1, 2, 3] ∧ (∀ p, (port State.reset p).st = .disabled) ∧
    (∀ d, (drawer State.reset d).planeA.st = .active ∧ (drawer State.reset d).planeA.gen = 0 ∧ (drawer State.reset d).planeB.st = .empty) ∧
    ∀ d r c, c < 1024 → (drawer State.reset d).weight 0 r c = 0

/-- R27, R30, R426, R438, Table 15.9: only ADMIT and the loss of the input clear the fence mark, only the release of retirement and the loss
of the input the reset times, only command 0x07 the owner lock; the minimum security version never falls. Device time is set at the
PLL's lock (R19); that it holds its value until then, through power-off and resets, and is 0 after a loss of the input is the model's
choice (log entry 11). -/
def Obligations.OnlyTheseEventsClear : Prop :=
  ∀ (c : Instr) (s t : State), exec c s = .next t →
    (s.mod.fenceMark = true → t.mod.fenceMark = false → c = .standbyPowerLost ∨ c = .inputOvervoltage ∨ ∃ n, c = .rdxAdmit n) ∧
    (s.mod.resetTimes ≠ [] → t.mod.resetTimes = [] → c = .standbyPowerLost ∨ c = .inputOvervoltage ∨ c = .releaseRetirement) ∧
    (s.fwu.ownerLock = true → t.fwu.ownerLock = false → c = .clearOwnerLock) ∧
    s.fwu.minSvn ≤ t.fwu.minSvn ∧
    (t.mod.devTime ≠ s.mod.devTime → c = .standbyPowerLost ∨ c = .inputOvervoltage ∨ c = .rootPllLocked)

/-- R417: each device-level reset puts its NST_TIME at the head of the list of the last four; where the oldest of four lies no more than
900,000,000 µs before it the module is Retired and main power is removed, else it is Booting. The release of retirement and the loss of
standby power empty the list. A reset is made unless a transition of higher precedence (R29) or a larger reset (R416) coincides. -/
def Obligations.ResetTimesRetire : Prop :=
  (∀ (cold mctp : Bool) (source cause : Nat) (dump : Bool) (s t : State),
    subsumed cold s = false → outranked (if retires (timesWithReset s) then 2 else 5) s = false → t = deviceReset cold mctp source cause dump s →
    t.mod.resetTimes = (nstTime s :: s.mod.resetTimes).take 4 ∧
    (3 ≤ s.mod.resetTimes.length ∧ nstTime s ≤ s.mod.resetTimes.getD 2 0 + 900000000 → t.mod.st = .retired ∧ t.mod.pwrGood = false
      ∧ t.mod.pllLocked = false ∧ t.mem.cells = []) ∧
    (s.mod.resetTimes.length < 3 ∨ s.mod.resetTimes.getD 2 0 + 900000000 < nstTime s → t.mod.st = .booting)) ∧
  (∀ s : State, s.mod.st = .retired → Completes .releaseRetirement s fun t => t.mod.resetTimes = []) ∧
  (∀ s : State, Completes .standbyPowerLost s fun t => t.mod.resetTimes = [])

/-- R70: a DRW_PRODUCT with VECTOR_COUNT 0 that passes validation, on a free Drawer, makes no conversion, writes no output and completes
with success. It still captures a generation and, with HOLD, takes a hold. VECTOR_COUNT 65,535 means 65,535 vectors. -/
def Obligations.ProductsOfNoVectorComplete : Prop :=
  (∀ b : List Byte, fieldAt b 32 2 = 65535 → dwVectors b = 65535) ∧
  ∀ (ctx : Fin 16) (ring : Fin 8) (p d : Nat) (a : Accepted) (s : State), Dispatches s ctx ring 0x21 a → dwVectors a.bytes = 0 →
    drwStatus s ctx a.bytes = 0 → d = dwDrawer a.bytes → selectPlane (drawer s d) a.bytes = some p → (drawer s d).queue = [] →
    Completes (.drwProduct ctx ring) s fun t =>
      (∃ tail, Ended s t a.ref 0 (leBytes 4 ((drawer s d).plane p).gen ++ tail)) ∧ (drawer t d).queue = []
        ∧ t.mem.cells = s.mem.cells ∧ ((drawer t d).plane p).hold = ((drawer s d).plane p).hold
          + (if dwHold a.bytes = true ∧ ((drawer s d).plane p).hold ≠ 65535 then 1 else 0)

/-- R37: a row read passes its check when, for each g, the residue of the sum of the levels read in group g equals the value read from check
column g, and no pair in the row is read with both cells above level 0; such a pair is a pair-form fault of its group, which fails that
group's check. -/
def Obligations.RowChecks : Prop :=
  ∀ (w : Drawer) (pos neg : List Int) (both : Nat → Prop) (residueHolds : Nat → Prop),
    (both = fun c => 0 < decideLevel (pos.getD (w.physCol c) 0) ∧ 0 < decideLevel (neg.getD (w.physCol c) 0)) →
    (residueHolds = fun g =>
      ((List.range 256).map fun j => pairWeight (pos.getD (w.physCol (4 * j + g)) 0) (neg.getD (w.physCol (4 * j + g)) 0)).sum % 31
        = pairWeight (pos.getD (1032 + g) 0) (neg.getD (1032 + g) 0) + 15) →
    ((decideRow w pos neg).passes = true ↔
      (∀ g, g < 4 → residueHolds g) ∧ (∀ c, c < 1024 → ¬both c) ∧ ∀ g, g < 4 → ¬both (1032 + g)) ∧
    ∀ g, g < 4 → ((decideRow w pos neg).faults.getD g false = true ↔ both (1032 + g) ∨ ∃ j, j < 256 ∧ both (4 * j + g))

/-- R146: maximum and minimum give the canonical NaN for a NaN operand, max(+0, −0) = +0 and min(+0, −0) = −0 in either order, and otherwise
the larger and the smaller operand. A NaN is unordered with every value, itself included, and +0 equals −0. -/
def Obligations.ExtremaAndComparisons : Prop :=
  (∀ x : XVal, x.maximum .nan = .nan ∧ XVal.nan.maximum x = .nan ∧ x.minimum .nan = .nan ∧ XVal.nan.minimum x = .nan) ∧
  (∀ d e : Nat, 0 < d → 0 < e →
    (XVal.fin false 0 d).maximum (.fin true 0 e) = .fin false 0 d ∧ (XVal.fin true 0 e).maximum (.fin false 0 d) = .fin false 0 d ∧
    (XVal.fin false 0 d).minimum (.fin true 0 e) = .fin true 0 e ∧ (XVal.fin true 0 e).minimum (.fin false 0 d) = .fin true 0 e ∧
    (XVal.fin false 0 d).eq (.fin true 0 e) = true ∧ (XVal.fin true 0 e).eq (.fin false 0 d) = true) ∧
  (∀ x y : XVal, x.lt y = true → x.maximum y = y ∧ y.maximum x = y ∧ x.minimum y = x ∧ y.minimum x = x) ∧
  (∀ x : XVal, x.lt .nan = false ∧ XVal.nan.lt x = false ∧ x.eq .nan = false ∧ XVal.nan.eq x = false)

/-- R253: the parts of a bucket of E elements begin at multiples of 256 elements, part k at 256 × ⌊k × ⌈E / 256⌉ / P⌋, and each element
belongs to exactly one part. -/
def Obligations.PartsTileTheBucket : Prop :=
  ∀ e p : Nat, 1 ≤ p → p ≤ 64 →
    (∀ k, k < p → (partSpan e p k).1 = min (256 * (k * ((e + 255) / 256) / p)) e) ∧
    (∀ i, i < e → ∃ k, k < p ∧ (partSpan e p k).1 ≤ i ∧ i < (partSpan e p k).1 + (partSpan e p k).2 ∧
      ∀ l, l < p → (partSpan e p l).1 ≤ i → i < (partSpan e p l).1 + (partSpan e p l).2 → l = k)

/-- R445, R26, R452: where standby power arrives in Off, the module enters Standby with SA read and Nightstand's time at 0, and the absence
of REFCLK shows in both blocks' flags; where standby power is lost, or the input protection disconnects the module, the module is Off
and what retention SRAM held is lost; the slot selector and the owner lock of the non-volatile store stay.

R447, R448, R458: a power-on request in Standby, with the filtered input in range, no sample outside it in its nanosecond, REFCLK
present, the trip latch clear and no POWER_DOWN rule active, is accepted: the module is Booting, the six main rails are enabled in their
order, and the power-on is counted.

R447, R458, Table 14.11: a power-on request is refused where one of the five reasons holds; the reason is recorded and answered,
ON_REFUSED_SEEN is set, and an entry with cause 1 is written. Where several hold, that the first of them by number is given is the
model's choice (log entry 214).

R450, R29, R30: a power-off request with main power on, and with no transition of higher precedence in its nanosecond, enters Standby
with PWR_GOOD low and memory lost, and its entry gives the cause 1; the fence mark, the retirements and the reset times stay; one that
is outranked is refused and has no other effect. The release of a Retired module enters Standby with no reset time. -/
def Obligations.PowerComesAndGoes : Prop :=
  ((∀ (sa : Fin 8) (s : State), s.mod.st = .off →
    Completes (.standbyPowerApplied sa) s fun t =>
      t.mod = { s.mod with st := .standby, sa := sa, nstNs := 0, onOscillator := !s.mod.refclk } ∧ t.mem = s.mem ∧ t.fwu = s.fwu
        ∧ (s.mod.refclk = false → flagUp t .nst 3 = true ∧ flagUp t .pwr 1 = true)) ∧
  (∀ (c : Instr) (s : State), c = .standbyPowerLost ∨ c = .inputOvervoltage → Completes c s fun t =>
    t.mod.st = .off ∧ t.mod.fenceMark = false ∧ t.mod.resetTimes = [] ∧ t.log = [] ∧ t.mem.rtab = [] ∧ t.mem.cells = []
      ∧ t.mod.pwrGood = false ∧ t.fwu.selector = s.fwu.selector ∧ t.fwu.ownerLock = s.fwu.ownerLock ∧ t.fwu.record = s.fwu.record)) ∧
  (∀ (recovery : Bool) (s : State), canonical s = true → s.mod.st = .standby → 32000 ≤ filtOf s 2 → filtOf s 2 ≤ 48000 →
    inputSampleWaits s = false → s.mod.refclk = true → s.mod.tripLatch = false →
    (∀ i, i < 32 → ruleActive s i = true → ruleAction s i ≠ 4) →
    Completes (.powerOnRequest recovery) s fun t =>
      t.mod.st = .booting ∧ t.mod.boot = .railsRising ∧ t.mod.wantRecovery = recovery ∧ Counted s t cPwrOn 1 ∧ Unlogged s t
        ∧ t.mod.rails = s.mod.rails ++ [.analogue, .core, .fabric, .hbm, .optics, .pcie]
        ∧ t.out = .mctp 1 0 0 :: .rail .pcie true :: .rail .optics true :: .rail .hbm true :: .rail .fabric true :: .rail .core true
            :: .rail .analogue true :: s.out) ∧
  (∀ (recovery : Bool) (s : State) (reason : Nat), s.mod.st ≠ .off → reason ≠ 0 →
    reason = (if s.mod.st ≠ .standby then 1
      else if filtOf s 2 < 32000 ∨ 48000 < filtOf s 2 ∨ inputSampleWaits s = true then 2
      else if s.mod.refclk = false then 3
      else if s.mod.tripLatch = true then 4
      else if (List.range 32).any (fun i => ruleActive s i && ruleAction s i == 4) then 5
      else 0) →
    ∃ t, exec (.powerOnRequest recovery) s = .next t ∧ t.mod = { s.mod with refuseReason := reason }
      ∧ flagUp t .pwr 3 = true ∧ t.out = .mctp 1 1 reason :: s.out ∧ Logged s t { source := 10, detail := reason }) ∧
  ((∀ s : State, mainPower s = true → outranked 4 s = false → Completes .powerOffRequest s fun t =>
    t.mod.st = .standby ∧ t.mod.pwrGood = false ∧ t.mod.pllLocked = false ∧ t.mem.cells = [] ∧ t.doors = []
      ∧ Logged s t { source := 10, detail := 1 } ∧ t.mod.fenceMark = s.mod.fenceMark ∧ t.mod.resetTimes = s.mod.resetTimes
      ∧ t.mem.rtab = s.mem.rtab ∧ t.fwu.selector = s.fwu.selector) ∧
  (∀ s : State, mainPower s = true → outranked 4 s = true →
    exec .powerOffRequest s = .next { s with out := .mctp 2 1 0 :: s.out }) ∧
  (∀ s : State, s.mod.st = .retired → Completes .releaseRetirement s fun t =>
    t = { s with mod := { s.mod with st := .standby, resetTimes := [] }, out := .mctp 3 0 0 :: s.out }))

/-- R448, R19, R359, R429, R27: the events of a power-on in their order. The rails' regulation raises PWR_GOOD; the PLL's lock starts device
time at 0 and the fill; the fill leaves zeros with valid check bits and goes to the image checks, or to Recovery where that was asked
for (that Recovery is entered then is the model's choice, log entry 163); an image that passes is loaded; the boot ends in Fenced where
the fence mark is set, else in Ready, with the windows locked.

R430: where the selected image fails, one entry is written and the other slot is checked; where that fails too, one more is written and
Recovery is entered; where it passes, it is loaded as the fallback. The selector does not change. A failing check sets CHECK_FAIL_SEEN
and shows its code and REASON (R428, Table 15.9). The fields of an entry besides its code are the model's choice (log entry 161). -/
def Obligations.BootRunsInItsOrder : Prop :=
  ((∀ s : State, s.mod.st = .booting → s.mod.boot = .railsRising → Completes .mainRailsUp s fun t =>
    t = { s with mod := { s.mod with pwrGood := true, boot := .pllLocking, configFrom := some s.mod.nstNs } }) ∧
  (∀ s : State, s.mod.st = .booting → s.mod.boot = .pllLocking → s.mod.refclk = true → Completes .rootPllLocked s fun t =>
    t.mod.pllLocked = true ∧ t.mod.devTime = 0 ∧ t.mod.boot = .filling ∧ t.mem = s.mem ∧ t.log = s.log) ∧
  (∀ s : State, s.mod.st = .booting → s.mod.boot = .filling → s.mod.warmBoot = false → Completes .fillComplete s fun t =>
    t.mem.cells = [] ∧ t.mem.errs = [] ∧ t.mod.st = (if s.mod.wantRecovery then .recovery else .booting)
      ∧ t.mod.boot = (if s.mod.wantRecovery then .idle else .checking)) ∧
  (∀ (crypto : Crypto) (s : State), s.mod.st = .booting → s.mod.boot = .checking →
    imageCheck s.fwu (slotOf s.fwu s.fwu.selector) crypto = none → Completes (.bootImageChecked crypto) s fun t =>
      t.mod.boot = .loading ∧ t.fwu.activeSlot = s.fwu.selector ∧ t.fwu.active = slotOf s.fwu s.fwu.selector
        ∧ t.fwu.fallback = false ∧ t.log = s.log) ∧
  (∀ s : State, canonical s = true → s.mod.st = .booting → s.mod.boot = .loading → Completes .bootComplete s fun t =>
    t.mod.st = (if s.mod.fenceMark then .fenced else .ready) ∧ t.rcv.hbArmed = true ∧ t.mod.fenceMark = s.mod.fenceMark
      ∧ (s.mod.warmBoot = false → reg t rHifWinLock = 1))) ∧
  (∀ (crypto : Crypto) (s : State), s.mod.st = .booting →
    (∀ code reason, s.mod.boot = .checking → imageCheck s.fwu (slotOf s.fwu s.fwu.selector) crypto = some (code, reason) →
      ∃ t, exec (.bootImageChecked crypto) s = .next t ∧ t.mod.st = .booting ∧ t.mod.boot = .checkingOther
        ∧ Logged s t { source := 12, code := code } ∧ flagUp t .fwu 1 = true ∧ t.fwu = { s.fwu with result := code, reason := reason }) ∧
    (∀ code reason, s.mod.boot = .checkingOther →
      imageCheck s.fwu (slotOf s.fwu (1 - s.fwu.selector)) crypto = some (code, reason) →
      ∃ t, exec (.bootImageChecked crypto) s = .next t ∧ t.mod.st = .recovery ∧ Logged s t { source := 12, code := code }
        ∧ flagUp t .fwu 1 = true ∧ t.fwu = { s.fwu with result := code, reason := reason }) ∧
    (s.mod.boot = .checkingOther → imageCheck s.fwu (slotOf s.fwu (1 - s.fwu.selector)) crypto = none →
      ∃ t, exec (.bootImageChecked crypto) s = .next t ∧ t.mod.boot = .loading ∧ t.fwu.fallback = true
        ∧ t.fwu.selector = s.fwu.selector ∧ t.log = s.log))

/-- R21, R452, R20, R29: the loss of the root PLL's lock, or of REFCLK, with main power on and with no loss of standby power and no
retirement in its nanosecond, ends in Standby with an entry of cause 4; without REFCLK Nightstand runs on its oscillator until it
returns.

R449, R459: with main power on, the assertion of PERST# and the loss of the link take the link down and set PERST_SEEN; the deassertion
of PERST# trains the link; a change of PWR_HOLD is seen and, under LOG_HOLD, logged. The model's choices: the fields of that entry (log
entry 25), VF Enable cleared with the link (log entry 140), the loss of the lock acted on in Recovery too (log entry 166), and
PCIE_REFCLK taken as present once PERST# is deasserted (log entry 208). -/
def Obligations.ClocksAndSignals : Prop :=
  ((∀ s : State, mainPower s = true → s.mod.pllLocked = true → outranked 3 s = false → Completes .rootPllLossOfLock s fun t =>
    t.mod.st = .standby ∧ t.mod.pllLocked = false ∧ t.mod.pwrGood = false ∧ Logged s t { source := 0, detail := 4 }) ∧
  (∀ s : State, mainPower s = true → outranked 3 s = false → Completes .refclkLost s fun t =>
    t.mod.st = .standby ∧ t.mod.refclk = false ∧ t.mod.onOscillator = true ∧ t.mod.pllLocked = false
      ∧ flagUp t .pwr 1 = true ∧ flagUp t .nst 3 = true ∧ Logged s t { source := 0, detail := 4 }) ∧
  (∀ s : State, Completes .refclkRestored s fun t =>
    t = { s with mod := { s.mod with refclk := true, onOscillator := false } })) ∧
  ((∀ s : State, mainPower s = true → s.mod.perst = false → Completes .perstAssert s fun t =>
    t.mod.perst = true ∧ t.mod.pcieLink = false ∧ t.vfs = 0 ∧ flagUp t .pwr 4 = true) ∧
  (∀ s : State, mainPower s = true → Completes .perstDeassert s fun t =>
    t.mod.perst = false ∧ t.mod.pcieLink = true ∧ t.mod.pcieRefclk = true ∧ t.vfs = s.vfs ∧ t.mem = s.mem ∧ t.regs = s.regs
      ∧ (s.mod.pwrGood = true → t.mod.configFrom = some s.mod.nstNs)) ∧
  (∀ (gone : Bool) (s : State), mainPower s = true → Completes (.pcieLinkLoss gone) s fun t =>
    t.mod.pcieLink = false ∧ t.vfs = 0 ∧ t.mod.pcieRefclk = (s.mod.pcieRefclk && !gone) ∧ flagUp t .pwr 4 = true) ∧
  (∀ (level : Bool) (s : State), s.mod.st ≠ .off → s.mod.pwrHold ≠ level → Completes (.pwrHoldChange level) s fun t =>
    t.mod = { s.mod with pwrHold := level } ∧ (level = true → flagUp t .pwr 0 = true)
      ∧ (regBit s rPwrCtrl 0 = true → Logged s t {}) ∧ (regBit s rPwrCtrl 0 = false → Unlogged s t)))

/-- R415, R417, R29: a device-level reset asked for over MCTP with main power on, or by register with the key 0xC9A7, and with no transition
of higher precedence in its nanosecond, enters Booting, or Retired where it is the fourth within 900,000,000 µs of NST_TIME. Its time
heads the list of the last four; the fence mark, the retirements and the slot selector stay.

R415: a write of RCV_RESET with any other KEY is ignored.

R431, R438, Table 15.9: commands 0x06 and 0x07 set and clear the owner lock in every state but Off; command 0x08 replaces the
provisioning record in Standby, Retired or Recovery while the lock is clear, and is refused elsewhere. -/
def Obligations.DeviceResetsAndNonVolatileStore : Prop :=
  (∀ (c : Instr) (s : State),
    (c = .mctpWarmReset ∨ c = .mctpColdReset) ∧ mainPower s = true
        ∨ ((∃ d, c = .deviceWarmReset 0xC9A7 d) ∨ c = .deviceColdReset 0xC9A7) ∧ (inService s = true ∨ s.mod.st = .recovery) →
    subsumed (match c with | .mctpColdReset | .deviceColdReset _ => true | _ => false) s = false →
    outranked (if retires (timesWithReset s) then 2 else 5) s = false → Completes c s fun t =>
      t.mod.resetTimes = (nstTime s :: s.mod.resetTimes).take 4
        ∧ (3 ≤ s.mod.resetTimes.length → nstTime s ≤ s.mod.resetTimes.getD 2 0 + 900000000 → t.mod.st = .retired)
        ∧ (s.mod.resetTimes.length < 3 ∨ s.mod.resetTimes.getD 2 0 + 900000000 < nstTime s → t.mod.st = .booting)
        ∧ t.mod.fenceMark = s.mod.fenceMark ∧ t.mem.rtab = s.mem.rtab ∧ t.fwu.selector = s.fwu.selector) ∧
  (∀ (key : Fin 65536) (dump : Bool) (s : State), key.val ≠ 0xC9A7 →
    exec (.deviceWarmReset key dump) s = .next s ∧ exec (.deviceColdReset key) s = .next s) ∧
  ((∀ s : State, s.mod.st ≠ .off →
    (Completes .setOwnerLock s fun t => t = { s with fwu := { s.fwu with ownerLock := true }, out := .mctp 6 0 0 :: s.out }) ∧
    (Completes .clearOwnerLock s fun t => t = { s with fwu := { s.fwu with ownerLock := false }, out := .mctp 7 0 0 :: s.out })) ∧
  (∀ (record : List Byte) (s : State), record.length = 3904 →
    (((s.mod.st = .standby ∨ s.mod.st = .retired ∨ s.mod.st = .recovery) ∧ s.fwu.ownerLock = false) →
      Completes (.writeProvisioningRecord record) s fun t =>
        (∀ k, k < 3904 → tabGet 0 t.fwu.record k = byteAt record k) ∧ t.fwu.ownerLock = false ∧ t.out = .mctp 8 0 0 :: s.out) ∧
    (s.mod.st ≠ .off → ¬((s.mod.st = .standby ∨ s.mod.st = .retired ∨ s.mod.st = .recovery) ∧ s.fwu.ownerLock = false) →
      exec (.writeProvisioningRecord record) s = .next { s with out := .mctp 8 1 0 :: s.out })))

/-- R397, R398: the end of a conversion leaves its result register, its entry in the result buffer with the conversion's time, and the
channel's filter: 16 times the code at the first conversion since standby power, v + ⌊(16k − v) / 2^SHIFT⌋ after it. -/
def Obligations.ConversionRecordedAndFiltered : Prop :=
  ∀ (code : Fin 4096) (vref : Fin 2097152) (c : Nat) (s : State), canonical s = true → s.mod.st ≠ .off → s.nst.cur = some c →
    Completes (.monitorConversion code vref) s fun t =>
      t.nst.result = some (c, code.val) ∧ t.nst.prod = (s.nst.prod + 1) % 2 ^ 32
        ∧ tabGet 0 t.nst.buf (s.nst.prod % 4096) = BitVec.ofNat 64 (code.val + 2 ^ 16 * c + 2 ^ 24 * (nstTime s % 2 ^ 40))
        ∧ lastEndOf t c = s.mod.nstNs
        ∧ (tabGet false s.nst.seen c = false → filtOf t c = 16 * code.val)
        ∧ (tabGet false s.nst.seen c = true →
            (filtOf t c : Int) = max 0 (filtOf s c + (16 * (code.val : Int) - filtOf s c) / 2 ^ (reg s (rNstFilt c) % 16)))
        ∧ (∀ d, d ≠ c → filtOf t d = filtOf s d ∧ lastEndOf t d = lastEndOf s d)

/-- R399, R400: a source moves at the end of a whole millisecond, or once its condition has held for 1 ms (lowering) or 10 ms (raising);
whatever has moved the throttle's sources, its level is the least of the four.

R396, R400, R404, R406: START inserts a conversion of the selected channel, which begins at once where the converter is idle and nothing
else is due; a valid rule value is stored and makes the rule inactive, an invalid one changes nothing; a cap from 4 to 16 becomes the
software throttle's, any other changes nothing; the sensors over PLDM read the filters in the quantities of Table 13.1, in billionths
(DESIGN CHOICE, log entry 44), the state code and the level. -/
def Obligations.ThrottleAndSettings : Prop :=
  (∀ (s : State), mainPower s = true →
    (Completes .powerMsBoundary s fun t =>
      t.nst.power = (if 2400 * 32000 * s.nst.msCount < s.nst.msSum then (if 8 ≤ s.nst.msOver + 1 then 4 else max 4 (s.nst.power - 1))
          else s.nst.power)
        ∧ t.nst.msOver = (if 2400 * 32000 * s.nst.msCount < s.nst.msSum then s.nst.msOver + 1 else 0) ∧ t.nst.msCount = 0
        ∧ t.nst.level = min (min t.nst.thermal t.nst.power) (min (ruleCap t) (softCap t))) ∧
    (s.nst.thermalHot = true → s.nst.thermalHotAt + 1000000 ≤ s.mod.nstNs → Completes (.throttleSourceTimer true false) s fun t =>
      t.nst.thermal = max 4 (s.nst.thermal - 1) ∧ t.nst.level = min (min t.nst.thermal t.nst.power) (min (ruleCap t) (softCap t))) ∧
    (s.nst.thermalCool = true → s.nst.thermalCoolAt + 10000000 ≤ s.mod.nstNs → Completes (.throttleSourceTimer true true) s fun t =>
      t.nst.thermal = min 16 (s.nst.thermal + 1) ∧ t.nst.level = min (min t.nst.thermal t.nst.power) (min (ruleCap t) (softCap t))) ∧
    (s.nst.powerCool = true → s.nst.powerCoolAt + 10000000 ≤ s.mod.nstNs → Completes (.throttleSourceTimer false true) s fun t =>
      t.nst.power = min 16 (s.nst.power + 1) ∧ t.nst.level = min (min t.nst.thermal t.nst.power) (min (ruleCap t) (softCap t)))) ∧
  ((∀ s : State, inService s = true →
    (s.nst.cur ≠ none → Completes .nstAdcStart s fun t =>
      t = { s with nst := { s.nst with startPending := some (reg s rNstAdcSel % 32) } }) ∧
    (s.nst.cur = none → (beginIdle s).nst.cur ≠ none → Completes .nstAdcStart s fun t =>
      t = { beginIdle s with nst := { (beginIdle s).nst with startPending := some (reg s rNstAdcSel % 32) } }) ∧
    (s.nst.cur = none → (beginIdle s).nst.cur = none → Completes .nstAdcStart s fun t =>
      t.nst.cur = some (reg s rNstAdcSel % 32) ∧ t.nst.startPending = s.nst.startPending ∧ t.regs = s.regs)) ∧
  (∀ (rule : Fin 32) (value : DWord) (s : State), canonical s = true → inService s = true →
    (ruleValid value.toNat = true → Completes (.nstRuleWrite rule value) s fun t =>
      reg t (rNstRule rule) = value.toNat &&& 0x80FFFFFFFFFF3FFF ∧ ruleActive t rule = false ∧ tabGet 0 t.nst.dwell rule = 0
        ∧ t.nst.level = min (min t.nst.thermal t.nst.power) (min (ruleCap t) (softCap t))) ∧
    (ruleValid value.toNat = false → exec (.nstRuleWrite rule value) s = .next s)) ∧
  (∀ (cap : Fin 32) (s : State), canonical s = true → inService s = true →
    (4 ≤ cap.val → cap.val ≤ 16 → Completes (.nstThrottleCapWrite cap) s fun t =>
      softCap t = cap ∧ t.nst.level = min (min s.nst.thermal s.nst.power) (min (ruleCap s) cap)) ∧
    (cap.val < 4 ∨ 16 < cap.val → exec (.nstThrottleCapWrite cap) s = .next s)) ∧
  (∀ (sensor : Fin 65536) (s : State), s.mod.st ≠ .off → Completes (.pldmGetSensorReading sensor) s fun t =>
    t = { s with out :=
      (if 0x0100 ≤ sensor.val ∧ sensor.val < 0x0118 then Out.pldm 0x11 0 (unsigned 64 (sensorValue (sensor.val - 0x0100) (filtOf s (sensor.val - 0x0100))))
        else if sensor.val = 0x0200 then .pldm 0x21 0 s.mod.st.code
        else if sensor.val = 0x0201 then .pldm 0x11 0 s.nst.level
        else .pldm 0x11 0x80 0) :: s.out }))

/-- R411: a heartbeat restarts the miss count, and after a Hutch reset arms the watchdog; a miss counts, unless an activation has suspended
the watchdog within the last second (R434); the third consecutive one resets the Hutch domain, which is counted and flagged, with every
context from 1 to 15 reset. The third Hutch reset within 600 s goes on: with AUTO_WARM 1 to a device warm reset, which is recorded and
ends in Booting or, as the fourth in 900 s, in Retired (R417), where no transition of higher precedence coincides (R29, R416); with
AUTO_WARM 0 to Booting with Hutch held in reset. That Hutch's watchdog rests while Hutch is held, and other points of the suspension,
are the model's choice (log entry 186).

R411, R422: 100 ms without a heartbeat after a Hutch reset end in a device warm reset, where no transition of higher precedence
coincides (R29), or, with AUTO_WARM 0, in Booting with Hutch held in reset; a write of DUMP_CLEAR gives up the dump.

R413: the context step watchdog is counted and flagged; a STEP_BEGIN that waits completes with WATCHDOG, or with PLANE_LAG where the lag
check holds it, and no step is begun; a step that is open is marked abandoned, and the context's rings are flushed up to their TAIL;
with no step, a ring whose next descriptor waits for its semaphore is flushed likewise, and that descriptor completes with WATCHDOG. -/
def Obligations.WatchdogsOfHutchAndContexts : Prop :=
  (∀ s : State, canonical s = true → inService s = true →
    (hutchDue s = true → exec .hutchHeartbeat s = .next s) ∧
    (hutchDue s = false → Completes .hutchHeartbeat s fun t =>
      t = { s with rcv := { s.rcv with
        hutchAwaited := false, hbArmed := (s.rcv.hutchAwaited || s.rcv.hbArmed), hbMisses := 0 } }) ∧
    (hbHeld s = true → Completes .hutchHeartbeatMiss s fun t => t = s) ∧
    (s.rcv.hbArmed = true → hbHeld s = false → (s.rcv.hbMisses < 2 ∨ resetWaits s = false) →
      (s.rcv.hbMisses < 2 → Completes .hutchHeartbeatMiss s fun t =>
        t = { s with rcv := { s.rcv with hbMisses := s.rcv.hbMisses + 1 } }) ∧
      (2 ≤ s.rcv.hbMisses → (s.rcv.hutchTimes.length < 2 ∨ s.rcv.hutchTimes.getD 1 0 + 600000000000 < s.mod.devTime) →
        Completes .hutchHeartbeatMiss s fun t =>
          t.rcv.hutchAwaited = true ∧ t.rcv.hbArmed = false ∧ t.rcv.hbMisses = 0 ∧ inService t = true
            ∧ t.rcv.hutchTimes = (s.mod.devTime :: s.rcv.hutchTimes).take 3 ∧ flagUp t .rcv 0 = true
            ∧ Counted s t cRcvHutch 1 ∧ (∀ c, 1 ≤ c → c ≤ 15 → door t c = {})) ∧
      (2 ≤ s.rcv.hbMisses → 2 ≤ s.rcv.hutchTimes.length → s.mod.devTime ≤ s.rcv.hutchTimes.getD 1 0 + 600000000000 →
        (regBit s rRcvCtrl 1 = true → subsumed false s = false → outranked (if retires (timesWithReset s) then 2 else 5) s = false →
          Completes .hutchHeartbeatMiss s fun t => t.mod.st = (if retires (timesWithReset s) then .retired else .booting)
            ∧ t.mod.resetTimes = (nstTime s :: s.mod.resetTimes).take 4 ∧ flagUp t .rcv 0 = true ∧ Counted s t cRcvHutch 1) ∧
        (regBit s rRcvCtrl 1 = false → Completes .hutchHeartbeatMiss s fun t => t.mod.st = .booting ∧ t.rcv.hutchHeld = true
            ∧ t.mod.resetTimes = s.mod.resetTimes ∧ flagUp t .rcv 0 = true ∧ Counted s t cRcvHutch 1)))) ∧
  ((∀ s : State, inService s = true → s.rcv.hutchAwaited = true →
    (regBit s rRcvCtrl 1 = true → subsumed false s = false → outranked (if retires (timesWithReset s) then 2 else 5) s = false → Completes .hutchRestoreTimeout s fun t =>
      (t.mod.st = .booting ∨ t.mod.st = .retired) ∧ t.mod.resetTimes = (nstTime s :: s.mod.resetTimes).take 4) ∧
    (regBit s rRcvCtrl 1 = false → resetWaits s = false → Completes .hutchRestoreTimeout s fun t =>
      t.mod.st = .booting ∧ t.rcv.hutchHeld = true ∧ t.mod.resetTimes = s.mod.resetTimes
        ∧ Logged s t { source := 11, detail := 2 })) ∧
  (∀ s : State, inService s = true ∨ s.mod.st = .recovery → Completes .dumpClear s fun t =>
    t = { s with rcv := { s.rcv with dumpValid := false } })) ∧
  (∀ (ctx : Fin 16) (ring : Fin 8) (s : State), canonical s = true →
    (∀ o, (stepCtx s ctx).opened = some o → o.begun = false → (findDesc s o.ref).isSome = true →
      Completes (.contextStepWatchdog ctx ring) s fun t =>
        (∃ tail, Ended s t o.ref (if o.wait = .lag then 0x0303 else 0x0C01) tail) ∧ (stepCtx t ctx).opened = none
          ∧ Counted s t cRcvCtxWdog 1 ∧ flagUp t .rcv 3 = true) ∧
    (∀ o, (stepCtx s ctx).opened = some o → o.begun = true → Completes (.contextStepWatchdog ctx ring) s fun t =>
      (∃ x, (stepCtx t ctx).opened = some x ∧ x.abandoned = true) ∧ Counted s t cRcvCtxWdog 1 ∧ flagUp t .rcv 3 = true
        ∧ ∀ r, r < 8 → Flush.below (ringOf s ctx r).tail 0x0C01 ∈ (ringOf t ctx r).flush) ∧
    ((stepCtx s ctx).opened = none → waiting s ctx ring = true → Completes (.contextStepWatchdog ctx ring) s fun t =>
      Counted s t cRcvCtxWdog 1 ∧ flagUp t .rcv 3 = true ∧ Flush.below (ringOf s ctx ring).tail 0x0C01 ∈ (ringOf t ctx ring).flush
        ∧ ∀ d, (ringOf s ctx ring).unstarted.head? = some d → (ringOf s ctx ring).flush = [] → follows (ringOf s ctx ring).tail d.idx = true →
            (∀ e ∈ (ringOf s ctx ring).opened, e.idx = d.idx → e = d) → Ended s t ⟨ctx, ring, d.idx⟩ 0x0C01 []))

/-- R414, R320: a context reset empties the context's doorbell page and its steps and drops its work; with nothing else in its nanosecond,
no record is written to host memory. RESETTING shows while work has a boundary to reach, and CTX_RESET_SEEN is set once there is none.
VF Enable, its clearing and a function-level reset reset the contexts they bind. The model's choices: a function-level reset of the
physical function resets every context and clears VF Enable (log entry 140), and map writes still staged are discarded (log entry 35). -/
def Obligations.ContextsAreResetAndBound : Prop :=
  ∀ s : State, canonical s = true → inService s = true → resetIncluded s = false →
    (∀ fn ctx : Fin 16, ctx ≠ 0 → functionOf s ctx = fn → Completes (.contextReset fn ctx) s fun t =>
      door t ctx = {} ∧ stepCtx t ctx = {} ∧ tabGet [] t.stagedMaps ctx = []
        ∧ t.copies = s.copies.map (fun (j : CopyJob) => if j.ref.ctx = ctx then { j with dropped := true } else j)
        ∧ resetting t ctx = stillStopping t ctx ∧ (stillStopping t ctx = false → flagUp t .hif 3 = true) ∧ t.vfs = s.vfs
        ∧ (s.pending = [] → ∀ f a b k p, Out.hostWrite f a b k p ∈ t.out → Out.hostWrite f a b k p ∈ s.out)) ∧
    (∀ v : Fin 16, 1 ≤ v.val → s.vfs = 0 → Completes (.vfEnableSet v) s fun t =>
      t.vfs = v ∧ (∀ c, 1 ≤ c → c ≤ v.val → door t c = {} ∧ functionOf t c = c)) ∧
    (Completes .vfEnableClear s fun t =>
      t.vfs = 0 ∧ (∀ c, 1 ≤ c → c ≤ min 15 s.vfs → door t c = {}) ∧ (∀ c, functionOf t c = 0)) ∧
    (∀ fn : Fin 16, 1 ≤ fn.val → fn.val ≤ s.vfs → Completes (.functionLevelReset fn) s fun t =>
      door t fn = {} ∧ stepCtx t fn = {} ∧ t.vfs = s.vfs) ∧
    (Completes (.functionLevelReset 0) s fun t => t.vfs = 0 ∧ ∀ c, 1 ≤ c → c ≤ 15 → door t c = {})

/-- R331, R332, R217: a TAIL within the ring's size of HEAD that goes forward is taken; any other new value puts the ring into Error with
RING_INVALID, flagged and logged; CTRL enables a disabled ring with HEAD and TAIL 0, and disables an enabled one whose HEAD equals its
TAIL. A page is not written while its context's reset is in progress (the model's choice, log entry 200).

R331, R337, R341: HIST_CTRL enables a disabled histogram ring with PRODUCED and CONSUMED 0 and disables an enabled one; CONSUMED takes
the value written; a semaphore takes the value written, and what that releases follows. -/
def Obligations.Doorbells : Prop :=
  (∀ (fn ctx : Fin 16) (ring : Fin 8) (s : State) (q : Ring), canonical s = true → inService s = true → ctx ≠ 0 →
    functionOf s ctx = fn → resetting s ctx = false → q = ringOf s ctx ring →
    (∀ tail : Word, q.enable = true → q.error = 0 → tail.toNat ≠ q.tail →
      ((tail.toNat + 2 ^ 32 - q.head) % 2 ^ 32 ≤ 2 ^ q.sizeLog2 → (tail.toNat + 2 ^ 32 - q.tail) % 2 ^ 32 < 2 ^ 31 →
        Completes (.hifRingTailWrite fn ctx ring tail) s fun t => ringOf t ctx ring = { q with
          tail := tail.toNat, posted := q.posted ++ [(tail.toNat, (door s ctx).posts)] }) ∧
      ((2 ^ q.sizeLog2 < (tail.toNat + 2 ^ 32 - q.head) % 2 ^ 32 ∨ 2 ^ 31 ≤ (tail.toNat + 2 ^ 32 - q.tail) % 2 ^ 32) →
        ∃ t, exec (.hifRingTailWrite fn ctx ring tail) s = .next t ∧ ringOf t ctx ring = { q with error := 0x0106 }
          ∧ flagUp t .hif 0 = true
          ∧ Logged s t { code := 0x0106, source := 7, ctxValid := true, ctx := ctx, ring := ring, detail := tail.toNat + 2 ^ 32 * q.head })) ∧
    (∀ value : Word, q.enable = false → value.toNat.testBit 0 = true → Completes (.hifRingCtrlWrite fn ctx ring value) s fun t =>
      (ringOf t ctx ring).enable = true ∧ (ringOf t ctx ring).tail = 0 ∧ (ringOf t ctx ring).fetched = 0
        ∧ (ringOf t ctx ring).error = 0 ∧ (ringOf t ctx ring).flush = [] ∧ (ringOf t ctx ring).base = q.base ∧ (ringOf t ctx ring).comp = q.comp
        ∧ (6 ≤ bitsOf value.toNat 5 1 → bitsOf value.toNat 5 1 ≤ 16 → (ringOf t ctx ring).sizeLog2 = bitsOf value.toNat 5 1)
        ∧ (bitsOf value.toNat 12 6 < (if fn = 0 then 128 else 16) → (ringOf t ctx ring).vector = bitsOf value.toNat 12 6)) ∧
    (∀ value : Word, q.enable = true → q.error = 0 → q.head = q.tail → value.toNat.testBit 0 = false →
      Completes (.hifRingCtrlWrite fn ctx ring value) s fun t => ringOf t ctx ring = { q with enable := false })) ∧
  (∀ (fn ctx : Fin 16) (value : Word) (s : State), canonical s = true → inService s = true → ctx ≠ 0 → functionOf s ctx = fn →
    resetting s ctx = false →
    ((door s ctx).hist.enable = false → value.toNat.testBit 0 = true → Completes (.hifHistCtrlWrite fn ctx value) s fun t =>
      (door t ctx).hist.enable = true ∧ (door t ctx).hist.produced = 0 ∧ (door t ctx).hist.consumed = 0
        ∧ (4 ≤ bitsOf value.toNat 4 1 → (door t ctx).hist.sizeLog2 = bitsOf value.toNat 4 1 ∨ 15 < bitsOf value.toNat 4 1)) ∧
    ((door s ctx).hist.enable = true → Completes (.hifHistCtrlWrite fn ctx value) s fun t =>
      (door t ctx).hist = { (door s ctx).hist with enable := value.toNat.testBit 0 }) ∧
    (Completes (.hifHistConsumedWrite fn ctx value) s fun t =>
      (door t ctx).hist = { (door s ctx).hist with consumed := value.toNat }) ∧
    (∀ i : Fin 256, ∃ u, exec (.hifSemWrite fn ctx i value) s = .next (settleAll u) ∧ sem u ctx i = value
      ∧ (∀ c j, c ≠ ctx.val ∨ j ≠ i.val → sem u c j = sem s c j) ∧ u.out = s.out))

/-- R323, R356, R422: with the aperture enabled, a read through BAR2 of backed memory outside a closed dump answers its bytes, marked
poisoned where a codeword is uncorrectable; disabled, it answers all ones. That it does so in Booting too is the model's choice: R326
speaks of BAR0 (log entry 215).

R323, R354, R355, R358: with the aperture enabled, a write through BAR2 of backed memory outside slice 95 and the dump stores its bytes
and leaves every other byte as it was; a codeword that is uncorrectable and written only in part still reads 0xFF.

R323, R324, R326: the aperture register keeps its writable bits; a misaligned or wrong-width access to BAR0 at an offset that answers is
counted and flagged, a write of it is ignored and a read of it answers all ones; at an offset that does not answer in Booting or
Recovery a read gives 0 and nothing else happens. -/
def Obligations.HostMemoryAccesses : Prop :=
  (∀ (off : BitVec 32) (len : Fin 4097) (s : State),
    (inService s = true ∨ s.mod.st = .recovery → regBit s rHifAperture 0 = true → rangeBacked (apertureAddr s off.toNat) len = true →
      (inDump (apertureAddr s off.toNat) = false ∧ inDump (apertureAddr s off.toNat + len - 1) = false ∨ regBit s rRcvDumpCtrl 0 = true) →
      Completes (.bar2Read off len) s fun t =>
        t.out = .readData ((List.range len).map fun i => bar2Byte s (apertureAddr s off.toNat + i))
          ((errorsIn s.mem (apertureAddr s off.toNat) len).any (·.2)) :: s.out ∧ t.mem.cells = s.mem.cells) ∧
    (mainPower s = true → regBit s rHifAperture 0 = false ∨ s.mod.st = .booting → ∃ t, exec (.bar2Read off len) s = .next t
      ∧ t.out = .readData (List.replicate len 0xFF) false :: s.out ∧ t.mem = s.mem)) ∧
  (∀ (off : BitVec 32) (bytes : List Byte) (s : State) (a : Nat), canonical s = true → inService s = true ∨ s.mod.st = .recovery →
    a = apertureAddr s off.toNat → bytes ≠ [] → regBit s rHifAperture 0 = true → rangeBacked a bytes.length = true →
    (cupEnd ≤ a ∨ a + bytes.length - 1 < trimBase) → inDump a = false → inDump (a + bytes.length - 1) = false →
    Completes (.bar2Write off bytes) s fun t =>
      (∀ x, x < a ∨ a + bytes.length ≤ x → memByte t.mem x = memByte s.mem x) ∧
      (∀ i, i < bytes.length → memByte t.mem (a + i) =
        if uncorrectable s.mem (a + i) ∧ ¬(a ≤ (codeword (a + i)).1 ∧ (codeword (a + i)).1 + (codeword (a + i)).2 ≤ a + bytes.length)
        then 0xFF else byteAt bytes i)) ∧
  ((∀ (value : DWord) (s : State), canonical s = true → inService s = true ∨ s.mod.st = .recovery →
    Completes (.hifApertureWrite value) s fun t => reg t rHifAperture = value.toNat &&& 0xFFFFFFFF00000001) ∧
  (∀ (fn : Fin 16) (off : BitVec 26) (write : Bool) (s : State), canonical s = true → bar0Answers s off.toNat = true →
    Completes (.bar0BadAccess fn off write) s fun t =>
      Counted s t cHifBadAccess 1 ∧ flagUp t .hif 1 = true ∧ t.regs = s.regs ∧ t.doors = s.doors
        ∧ t.out = (if write then s.out else .readData (List.replicate 8 0xFF) false :: s.out)
        ∧ (regBit s rHifCtrl 0 = false → Unlogged s t)) ∧
  (∀ (fn : Fin 16) (off : BitVec 26) (write : Bool) (s : State), mainPower s = true → bar0Answers s off.toNat = false →
    exec (.bar0BadAccess fn off write) s
      = .next (if write then s else { s with out := .readData (List.replicate 8 0) false :: s.out })))

/-- R330, R332, R338: the fetch serves the context and the ring whose turn it is in round robin: it reads the slot, the host's answer adds
the descriptor to what the ring holds open, under the index that HEAD counted to, and is counted; an answer with an error puts the ring
into Error with HOST_FAULT. That a fetch out of turn does nothing is the model's choice (log entry 10).

R335, R344: HIF_NOP completes with success. A HIF_COPY of no bytes does too, and one of some starts, with reads of a source in host
memory; when it is done its bytes stand where it copies to, and it completes with their number. R319 bounds the size of a host read and
a host write; that they are as long as it allows, 4,096 and 512 bytes from the copy's start on, is the model's choice (log entry 187). -/
def Obligations.DescriptorsAndCopies : Prop :=
  (∀ (ctx : Fin 16) (ring : Fin 8) (s : State) (q : Ring), canonical s = true → q = ringOf s ctx ring →
    (fetchTurn s = some (ctx.val, ring.val) → ∀ bytes : List Byte, bytes.length = 64 → ∃ u, exec (.descriptorFetch ctx ring (.data bytes)) s = .next (settleAll u)
      ∧ (∃ ps fs, ringOf u ctx ring = { q with
        fetched := (q.fetched + 1) % 2 ^ 32, opened := q.opened ++ [{ idx := q.fetched, bytes := bytes }], posted := ps, flush := fs })
      ∧ Counted s u cHifFetched 1 ∧ u.mem = s.mem
      ∧ u.out = .hostRead (functionOf s ctx) (q.base + 64 * (q.fetched % 2 ^ q.sizeLog2)) 64 :: s.out) ∧
    (∀ reply : HostReply, fetchTurn s ≠ some (ctx.val, ring.val) → exec (.descriptorFetch ctx ring reply) s = .next s) ∧
    (fetchTurn s = some (ctx.val, ring.val) → ∀ reply : HostReply, reply = .error ∨ reply = .poisoned → ∃ t, exec (.descriptorFetch ctx ring reply) s = .next t
      ∧ ringOf t ctx ring = { q with error := 0x0105 } ∧ flagUp t .hif 0 = true)) ∧
  ((∀ (ctx : Fin 16) (ring : Fin 8) (a : Accepted) (s : State), Dispatches s ctx ring 0x01 a →
    Completes (.hifNop ctx ring) s fun t => Ended s t a.ref 0 []) ∧
  (∀ (ctx : Fin 16) (ring : Fin 8) (a : Accepted) (j : CopyJob) (s : State), Dispatches s ctx ring 0x03 a →
    j = ⟨a.ref, (fieldAt a.bytes 16 1).testBit 0, (fieldAt a.bytes 16 1).testBit 1, fieldAt a.bytes 24 4, fieldAt a.bytes 32 8,
      fieldAt a.bytes 40 8, false⟩ → copyStatus s ctx j = 0 →
    (j.len = 0 → Completes (.hifCopy ctx ring) s fun t => Ended s t a.ref 0 []) ∧
    (j.len ≠ 0 → Completes (.hifCopy ctx ring) s fun t => t.copies = s.copies ++ [j]
        ∧ (Safety.GoodHeaders s ctx ring → t.out = (if j.srcHost then ((List.range (ceilDiv j.len 4096)).map fun i =>
            Out.hostRead (functionOf s a.ref.ctx) (j.src + 4096 * i) (min 4096 (j.len - 4096 * i))).reverse else []) ++ s.out))) ∧
  (∀ (ctx : Fin 16) (ring : Fin 8) (idx : Word) (got bytes : List Byte) (j : CopyJob) (s : State),
    s.copies.find? (fun j => j.ref == ⟨ctx, ring, idx.toNat⟩) = some j → j.dropped = false →
    (findDesc s j.ref).isSome = true → Completes (.copyDone ctx ring idx got (.data bytes)) s fun t =>
      Ended s t j.ref 0 (leBytes 4 j.len) ∧ t.copies = s.copies.filter (fun k => k.ref != j.ref)
        ∧ (j.srcHost = true → ∀ i, i < j.len → tabGet 0 t.mem.cells (j.dst + i) = byteAt (got ++ bytes) i)
        ∧ (j.srcHost = false → j.dstHost = true →
            (∀ i, i < ceilDiv j.len 512 → .hostWrite (functionOf s ctx) (j.dst + 512 * i)
              (readMem s (j.src + 512 * i) (min 512 (j.len - 512 * i))) none
              ((errorsIn s.mem (j.src + 512 * i) (min 512 (j.len - 512 * i))).any (·.2)) ∈ t.out)
              ∧ t.mem.cells = s.mem.cells)
        ∧ (j.srcHost = false → j.dstHost = false → ∀ i, i < j.len → tabGet 0 t.mem.cells (j.dst + i) = memByte s.mem (j.src + i))
        ∧ (j.srcHost = true ∨ j.dstHost = false → ∀ x, x < j.dst ∨ j.dst + j.len ≤ x → tabGet 0 t.mem.cells x = tabGet 0 s.mem.cells x)))

/-- R432, Table 15.5: STAGE, VERIFY and ABORT move between the update states. STAGE, with no owner lock, takes the unselected slot and
leaves it invalid until it is whole; VERIFY takes a Staged image; ABORT stops staging and verification and leaves the unselected slot
invalid, and clears Failed. STAGE reads FWU_LENGTH bytes from FWU_SRC_ADDR as the physical function, in reads of 4,096 bytes from its
start on (the model's choice, log entry 187). None of them touches the selected slot. FWU_OWNER.SET sets the owner lock.

R433, R439: ACTIVATE is refused where a reason holds: 5 no image verified, 1 a step under way or a STEP_BEGIN dispatched in its
nanosecond, 2 PWR_HOLD, 3 the owner lock; the reason and UPDATE_REFUSED are shown, flagged and logged. STAGE and VERIFY in a wrong
state, and ABORT where there is nothing to abort, are refused with 5. Which reason is given where several hold is the model's choice
(log entry 165).

R432, R428: staging ends with the bytes the host answers, as many as FWU_LENGTH said at STAGE. An image that passes orders 1 and 2 of
Table 15.3 is Staged in the unselected slot; another ends in Failed with its code and REASON and an invalid slot; a host error ends it
in Failed with HOST_FAULT.

R428, R426: verification checks the staged image by orders 3 to 6 of Table 15.3. It passes where its key is fused and not revoked, its
signature verifies under that key over the SHA-384 digest of header bytes 0 to 3,903 and every block, its version is at least the
minimum, every block opens under the image key with the nonce NONCE_BASE and j and header bytes 0 to 27 authenticated, and every
component lies within the image and has the digest of its entry; the first check that fails gives the code and REASON. What the
cryptographic functions answer is a free value (log entry 167). -/
def Obligations.ImagesAreStagedAndVerified : Prop :=
  (∀ s : State, inService s = true ∨ s.mod.st = .recovery →
    (s.fwu.state ≠ .staging → s.fwu.state ≠ .verifying → s.fwu.state ≠ .activating → s.fwu.ownerLock = false →
      Completes .fwuStage s fun t =>
        t.fwu.state = .staging ∧ slotOf t.fwu (otherSlot s.fwu) = none ∧ t.fwu.received = [] ∧ t.fwu.overMctp = false
          ∧ slotOf t.fwu s.fwu.selector = slotOf s.fwu s.fwu.selector ∧ t.fwu.selector = s.fwu.selector ∧ t.fwu.active = s.fwu.active
          ∧ t.out = ((List.range ((reg s rFwuLength + 4095) / 4096)).map fun i =>
              Out.hostRead 0 (reg s rFwuSrcAddr + 4096 * i) (min 4096 (reg s rFwuLength - 4096 * i))).reverse ++ s.out) ∧
    (s.fwu.state = .staged → Completes .fwuVerify s fun t =>
      t = { s with fwu := { s.fwu with state := .verifying, reason := 0, result := 0 } }) ∧
    (s.fwu.state = .staging ∨ s.fwu.state = .verifying → Completes .fwuAbort s fun t =>
      t.fwu.state = .idle ∧ slotOf t.fwu (otherSlot s.fwu) = none ∧ slotOf t.fwu s.fwu.selector = slotOf s.fwu s.fwu.selector
        ∧ t.fwu.selector = s.fwu.selector ∧ Unlogged s t) ∧
    (s.fwu.state = .failed → Completes .fwuAbort s fun t =>
      t.fwu.state = .idle ∧ t.fwu.slot0 = s.fwu.slot0 ∧ t.fwu.slot1 = s.fwu.slot1 ∧ Unlogged s t) ∧
    (Completes .fwuOwnerSet s fun t => t = { s with fwu := { s.fwu with ownerLock := true } })) ∧
  (∀ (c : Instr) (reason : Nat) (s : State), inService s = true ∨ s.mod.st = .recovery →
    (c = .fwuActivate ∧ reason = (if s.fwu.state ≠ .verified then 5
        else if stepBusy s ∨ beginDue s then 1 else if s.mod.pwrHold then 2 else if s.fwu.ownerLock then 3 else 0) ∧ reason ≠ 0)
      ∨ (c = .fwuStage ∧ reason = (if s.fwu.state = .staging ∨ s.fwu.state = .verifying ∨ s.fwu.state = .activating then 5
          else if s.fwu.ownerLock then 3 else 0) ∧ reason ≠ 0)
      ∨ (c = .fwuVerify ∧ s.fwu.state ≠ .staged ∧ reason = 5)
      ∨ (c = .fwuAbort ∧ (s.fwu.state = .idle ∨ s.fwu.state = .staged ∨ s.fwu.state = .verified ∨ s.fwu.state = .activating)
          ∧ reason = 5) →
    ∃ t, exec c s = .next t ∧ t.fwu = { s.fwu with result := 0x0B02, reason := reason } ∧ flagUp t .fwu 3 = true
      ∧ Logged s t { source := 12, code := 0x0B02 } ∧ t.mod = s.mod ∧ t.rcv = s.rcv) ∧
  (∀ (bs : List Byte) (i : Image) (s : State), inService s = true ∨ s.mod.st = .recovery → s.fwu.state = .staging →
    s.fwu.overMctp = false → i = ⟨bs.take s.fwu.stageLength⟩ →
    (arrivalCheck i = none → Completes (.stagingDone (.data bs)) s fun t =>
      t.fwu.state = .staged ∧ slotOf t.fwu (otherSlot s.fwu) = some i ∧ flagUp t .fwu 0 = true
        ∧ slotOf t.fwu s.fwu.selector = slotOf s.fwu s.fwu.selector) ∧
    (∀ code reason, arrivalCheck i = some (code, reason) → Completes (.stagingDone (.data bs)) s fun t =>
      t.fwu.state = .failed ∧ t.fwu.result = code ∧ t.fwu.reason = reason ∧ flagUp t .fwu 1 = true
        ∧ t.fwu.slot0 = s.fwu.slot0 ∧ t.fwu.slot1 = s.fwu.slot1) ∧
    (∀ reply : HostReply, reply = .error ∨ reply = .poisoned → Completes (.stagingDone reply) s fun t =>
      t.fwu.state = .failed ∧ t.fwu.result = 0x0105 ∧ t.fwu.slot0 = s.fwu.slot0 ∧ t.fwu.slot1 = s.fwu.slot1)) ∧
  (∀ (crypto : Crypto) (i : Image) (s : State), inService s = true ∨ s.mod.st = .recovery → s.fwu.state = .verifying →
    s.fwu.overMctp = false → slotOf s.fwu (otherSlot s.fwu) = some i →
    (∀ key digest, s.fwu.keyDigests[imgKey i]? = some (some key) → s.fwu.keysRevoked.testBit (imgKey i) = false →
      shaOf crypto (i.slice 0 3904 ++ i.slice 4096 (65568 * imgBlocks i)) = some digest → (key, digest, i.slice 3904 96) ∈ crypto.verifies →
      s.fwu.minSvn ≤ imgSvn i →
      (∀ j, j < imgBlocks i → (plainOf crypto ⟨s.fwu.imageKey, i.slice 16 8 ++ leBytes 4 j, i.slice 0 28, i.slice (4096 + 65568 * j) 65536,
        i.slice (4096 + 65568 * j + 65540) 16⟩).isSome = true) →
      (∀ k, k < 6 → compFirst i k + compBlocks i k ≤ imgBlocks i ∧ compLength i k ≤ 65536 * compBlocks i k
        ∧ ∃ d, shaOf crypto (componentPlain s.fwu i crypto k) = some d ∧ componentDigest i k = d.toNat) →
      Completes (.fwuVerifyDone crypto) s fun t =>
        t = { s with fwu := { s.fwu with state := .verified, verified := true, reason := 0, result := 0 } }) ∧
    (∀ code reason, cryptoCheck s.fwu i crypto = some (code, reason) → Completes (.fwuVerifyDone crypto) s fun t =>
      t.fwu = { s.fwu with state := .failed, result := code, reason := reason, verified := false } ∧ flagUp t .fwu 1 = true
        ∧ Unlogged s t))

/-- R434 to R436: an accepted ACTIVATE outside Recovery stops fetch and drains; once nothing dispatched is in flight the selector is
switched and the minimum version may rise; the watchdog of Hutch's heartbeat is suspended meanwhile; after the reloads the image in
force is the selected one and, with the port microcode unchanged, the update state is Idle, flagged and logged; reloads that take too
long end in a device cold reset. In Recovery an accepted ACTIVATE switches the selector and performs a device cold reset. A reset is
made unless a transition of higher precedence (R29) or a reset of the same size coincides (R416).

R438, R441: the PLDM path. RequestUpdate and PassComponentTable prepare, UpdateComponent corresponds to STAGE and asks for the first
part, each part but the last asks for the next unless the header or a block fails its check, and the last ends staging; TransferComplete
carries the result; ActivateFirmware corresponds to ACTIVATE and CancelUpdate to ABORT; GetStatus answers the update state with REASON
and RESULT. The model's choices: Verifying follows by itself (log entry 164), and the layout of what the messages carry (log entries 211
and 212). -/
def Obligations.ImagesAreActivated : Prop :=
  ((∀ s : State, inService s = true → s.fwu.state = .verified → stepBusy s = false → beginDue s = false → s.mod.pwrHold = false → s.fwu.ownerLock = false →
    Completes .fwuActivate s fun t =>
      t = { s with fwu := { s.fwu with state := .activating, act := .draining, reason := 0, result := 0 }
                   rcv := { s.rcv with hbSuspended := true, hbSuspendedAt := s.mod.nstNs } }) ∧
  (∀ s : State, s.mod.st = .recovery → s.fwu.state = .verified → stepBusy s = false → beginDue s = false → s.mod.pwrHold = false → s.fwu.ownerLock = false →
    subsumed true s = false → outranked (if retires (timesWithReset s) then 2 else 5) s = false → Completes .fwuActivate s fun t =>
      t.fwu.selector = 1 - s.fwu.selector ∧ (t.mod.st = .booting ∨ t.mod.st = .retired) ∧ t.mod.pllLocked = false
        ∧ t.mod.resetTimes = (nstTime s :: s.mod.resetTimes).take 4) ∧
  (∀ (i : Image) (s : State), s.fwu.act = .draining → slotOf s.fwu (otherSlot s.fwu) = some i →
    (∀ d ∈ s.doors, ∀ q ∈ d.2.rings, ∀ e ∈ q.2.opened, e.dispatched = true → e.counted = false) →
    Completes .activateDrainDone s fun t =>
      t = { s with fwu := { s.fwu with
        selector := otherSlot s.fwu, act := .reloading
        minSvn := max s.fwu.minSvn (if (hdrField i 13 1).testBit 0 then min 63 (imgSvn i) else 0), verified := false } }) ∧
  (∀ s : State, s.fwu.act = .reloading → componentChanged s.fwu 5 = false → Completes .activateReloadDone s fun t =>
    t.fwu.state = .idle ∧ t.fwu.act = .none ∧ t.fwu.active = slotOf s.fwu s.fwu.selector ∧ t.fwu.activeSlot = s.fwu.selector
      ∧ t.rcv.hbSuspended = false ∧ flagUp t .fwu 2 = true ∧ Logged s t { source := 12 }) ∧
  (∀ s : State, s.fwu.act = .reloading → componentChanged s.fwu 5 = true → (∀ p, p < 16 → (port s p).st = .disabled) →
    Completes .activateReloadDone s fun t => t.fwu.state = .idle ∧ t.fwu.active = slotOf s.fwu s.fwu.selector) ∧
  (∀ s : State, s.fwu.act = .reloading → subsumed true s = false → outranked (if retires (timesWithReset s) then 2 else 5) s = false →
    Completes .activateWatchdog s fun t =>
    (t.mod.st = .booting ∨ t.mod.st = .retired) ∧ t.mod.pllLocked = false ∧ t.fwu.selector = s.fwu.selector
      ∧ t.mod.resetTimes = (nstTime s :: s.mod.resetTimes).take 4)) ∧
  (∀ s : State, inService s = true ∨ s.mod.st = .recovery →
    (s.fwu.state ≠ .staging → s.fwu.state ≠ .verifying → s.fwu.state ≠ .activating → Completes .requestUpdate s fun t =>
      t.fwu = { s.fwu with requested := true, tablePassed := false } ∧ t.out = .pldm 0x10 0 0 :: s.out) ∧
    (s.fwu.requested = true → Completes .passComponentTable s fun t =>
      t.fwu = { s.fwu with tablePassed := true } ∧ t.out = .pldm 0x13 0 0 :: s.out) ∧
    (s.fwu.requested = true → s.fwu.tablePassed = true → s.fwu.state ≠ .staging → s.fwu.state ≠ .verifying →
      s.fwu.state ≠ .activating → s.fwu.ownerLock = false → Completes .updateComponent s fun t =>
        t.fwu.state = .staging ∧ t.fwu.overMctp = true ∧ slotOf t.fwu (otherSlot s.fwu) = none
          ∧ slotOf t.fwu s.fwu.selector = slotOf s.fwu s.fwu.selector ∧ t.out = .pldm 0x15 0 0 :: .pldm 0x14 0 0 :: s.out) ∧
    (∀ (part bs : List Byte), s.fwu.state = .staging → s.fwu.overMctp = true → bs = s.fwu.received ++ part →
      (bs.length < 4096 → Completes (.firmwareData part) s fun t =>
        t.fwu.received = bs ∧ t.fwu.state = .staging ∧ t.out = .pldm 0x15 0 bs.length :: s.out) ∧
      (∀ n, 4096 ≤ bs.length → n = 4096 + 65568 * fieldAt bs 14 2 →
        (bs.length < n → headerBad n ⟨bs⟩ = false → (∀ k, k < (bs.length - 4096) / 65568 → blockGood ⟨bs⟩ k = true) →
          Completes (.firmwareData part) s fun t => t.fwu.received = bs ∧ t.fwu.state = .staging
            ∧ t.fwu.progress = (bs.length - 4096) / 65568 ∧ t.out = .pldm 0x15 0 bs.length :: s.out) ∧
        (headerBad n ⟨bs.take n⟩ = true → Completes (.firmwareData part) s fun t => t.fwu.state = .failed ∧ t.fwu.result = 0x0B03
          ∧ t.fwu.reason = 1 ∧ t.fwu.slot0 = s.fwu.slot0 ∧ t.fwu.slot1 = s.fwu.slot1 ∧ t.out = .pldm 0x16 1 (0x0B03 + 2 ^ 16) :: s.out) ∧
        (n ≤ bs.length → arrivalCheck ⟨bs.take n⟩ = none → Completes (.firmwareData part) s fun t =>
          t.fwu.state = .verifying ∧ slotOf t.fwu (otherSlot s.fwu) = some ⟨bs.take n⟩
            ∧ slotOf t.fwu s.fwu.selector = slotOf s.fwu s.fwu.selector ∧ (s.fwu.result = 0 → s.fwu.reason = 0 → t.out = .pldm 0x16 0 0 :: s.out)))) ∧
    (inService s = true → s.fwu.state = .verified → stepBusy s = false → beginDue s = false → s.mod.pwrHold = false → s.fwu.ownerLock = false →
      Completes .activateFirmware s fun t =>
        t.fwu = { s.fwu with state := .activating, act := .draining, reason := 0, result := 0 }
          ∧ t.rcv.hbSuspended = true ∧ t.rcv.hbSuspendedAt = s.mod.nstNs ∧ t.out = .pldm 0x1A 0 0 :: s.out) ∧
    (Completes .getStatus s fun t =>
      t = { s with out := .pldm 0x1B 0 (s.fwu.state.code + 256 * s.fwu.reason + 65536 * s.fwu.result) :: s.out }) ∧
    (s.fwu.state = .staging ∨ s.fwu.state = .verifying ∨ s.fwu.state = .failed → Completes .cancelUpdate s fun t =>
      t.fwu.state = .idle ∧ t.fwu.requested = false ∧ t.fwu.tablePassed = false ∧ Unlogged s t
        ∧ slotOf t.fwu s.fwu.selector = slotOf s.fwu s.fwu.selector))

/-- R325: of each block's STATUS register, a bit written 1 is cleared, unless its event falls in the same cycle: then it is set and the
event counter that its block's table names counts 1, up to 255; a bit written 0 is as it was. So are the Drawers' worn bits.

R325: each event counter of a block written 0 becomes 0, and a write of any other value leaves it; the flags stay. -/
def Obligations.FlagsAndCounters : Prop :=
  ((∀ (b : Block) (value coincide : DWord) (s : State), canonical s = true → bar0Takes s (b.base + b.statusAt) = true →
    Completes (.w1cWrite (BitVec.ofNat 26 (b.base + b.statusAt)) value coincide) s fun t =>
      (∀ i, i < (evtFields b).length →
        flagUp t b i = if value.getLsbD i then coincide.getLsbD i else flagUp s b i) ∧
      (∀ k, k < 4 → bitsOf (flagsOf t b).evt.toNat (8 * k + 7) (8 * k) =
        min 255 (bitsOf (flagsOf s b).evt.toNat (8 * k + 7) (8 * k)
          + ((List.range (evtFields b).length).filter fun i =>
              value.getLsbD i && coincide.getLsbD i && (evtFields b).getD i 0 == k).length))) ∧
  (∀ (g : Fin 512) (value coincide : DWord) (s : State), canonical s = true → inService s = true →
    Completes (.w1cWrite (BitVec.ofNat 26 (rDrwWorn + 4 * g)) (value &&& 0xFFFFFFFF) coincide) s fun t =>
      ∀ d, (drawer t d).worn = if d / 32 = g ∧ value.getLsbD (d % 32) then coincide.getLsbD (d % 32) else (drawer s d).worn)) ∧
  (∀ (b : Block) (value : Word) (s : State), canonical s = true → bar0Takes s (b.base + b.evtAt) = true →
    Completes (.eventCounterWrite (BitVec.ofNat 26 (b.base + b.evtAt)) value) s fun t =>
      (flagsOf t b).status = (flagsOf s b).status ∧
      (∀ k, k < 4 → bitsOf (flagsOf t b).evt.toNat (8 * k + 7) (8 * k) =
        if bitsOf value.toNat (8 * k + 7) (8 * k) = 0 then 0 else bitsOf (flagsOf s b).evt.toNat (8 * k + 7) (8 * k)))

/-- R324, R6, R286, R312, R331, R338: a register without a command of its own keeps the writable bits of what is written, and a value its
table does not permit leaves the field; a ring's base stays while the ring is enabled; a write of the wrong width, or one that is not
aligned, changes nothing, is counted and is flagged.

R311, R303: OPT_SELF takes its 20 bits while every port enable is clear, and keeps its value otherwise; OPT_CTRL keeps its port enables
while the module has no address, and takes them otherwise: a port that is enabled trains, one that is not is Disabled.

R80, R324: outside a step an aligned write of 4 or 8 bytes of a context's Drawer map takes effect at once, though a retired Drawer's bit
stays 0; while a step of the context is in progress it is staged, and the map in force stays. Any other write changes no map, is counted
and is flagged.

R321, R326, R345, R347: the capability list reads as Table 10.9, for the physical function and for every virtual function that is
enabled, wherever it answers; BINDING shows the contexts bound to virtual functions. In Booting every offset outside the first page
reads as 0. -/
def Obligations.RegistersAndMaps : Prop :=
  (∀ (value : DWord) (s : State), canonical s = true → inService s = true →
    (∀ n : Fin 16, n ≠ 0 → Completes (.registerWrite 0 (BitVec.ofNat 26 (rHifQuota n)) false value) s fun t =>
      reg t (rHifQuota n) = min 4096 (value.toNat % 8192)) ∧
    (∀ n : Fin 16, Completes (.registerWrite 0 (BitVec.ofNat 26 (rPlnLagLimit n)) false value) s fun t =>
      reg t (rPlnLagLimit n) = value.toNat % 256) ∧
    (∀ n : Fin 16, Completes (.registerWrite 0 (BitVec.ofNat 26 (rTrsExtBase n)) true value) s fun t =>
      reg t (rTrsExtBase n) = value.toNat / 32 * 32) ∧
    (Completes (.registerWrite 0 (BitVec.ofNat 26 rDrsIlimitDefault) false value) s fun t =>
      reg t rDrsIlimitDefault = if value.toNat % 2 ^ 32 = 0 then reg s rDrsIlimitDefault else value.toNat % 2 ^ 32) ∧
    (Completes (.registerWrite 0 (BitVec.ofNat 26 rRdxTimer1) false value) s fun t =>
      reg t rRdxTimer1 = if 100 ≤ value.toNat % 65536 ∧ value.toNat % 65536 ≤ 10000 ∧ 1 ≤ value.toNat / 65536 % 65536
        ∧ value.toNat / 65536 % 65536 ≤ 1000 then value.toNat % 2 ^ 32 else reg s rRdxTimer1) ∧
    (∀ i : Fin 16384, 16 ≤ i.val → Completes (.registerWrite 0 (BitVec.ofNat 26 (0x0780000 + 8 * i)) true value) s fun t =>
      tabGet 0 t.opt.peers i = value &&& 0x8000000FFFFFFFFF) ∧
    (∀ (fn ctx : Fin 16) (ring : Fin 8), ctx ≠ 0 → functionOf s ctx = fn → resetting s ctx = false →
      Completes (.registerWrite fn (BitVec.ofNat 26 (0x0100000 + 0x1000 * ctx + 0x40 * ring)) true value) s fun t =>
        ringOf t ctx ring = if (ringOf s ctx ring).enable then ringOf s ctx ring
          else { ringOf s ctx ring with base := value.toNat / 64 * 64 }) ∧
    (∀ off : BitVec 26, off.toNat = rRdxTimer0 ∧ off.toNat % 4 = 0 ∨ off.toNat % 4 ≠ 0 →
      ∃ t, exec (.registerWrite 0 off false value) s = .next t ∧ Counted s t cHifBadAccess 1 ∧ flagUp t .hif 1 = true
        ∧ t.regs = s.regs ∧ t.doors = s.doors ∧ t.opt = s.opt)) ∧
  (∀ (value : Word) (s : State), canonical s = true → inService s = true →
    (reg s rOptCtrl % 65536 = 0 → Completes (.optSelfWrite value) s fun t => reg t rOptSelf = value.toNat % 2 ^ 20) ∧
    (reg s rOptCtrl % 65536 ≠ 0 → exec (.optSelfWrite value) s = .next s) ∧
    (selfAddr s = 0 → 1 ≤ value.toNat / 65536 % 16 → value.toNat / 65536 % 16 ≤ 8 → Completes (.optCtrlWrite value) s fun t =>
      reg t rOptCtrl = reg s rOptCtrl % 65536 + (value.toNat &&& 0x0F7F0000)) ∧
    (selfAddr s ≠ 0 → 1 ≤ value.toNat / 65536 % 16 → value.toNat / 65536 % 16 ≤ 8 → Completes (.optCtrlWrite value) s fun t =>
      reg t rOptCtrl = value.toNat &&& 0x0F7FFFFF
        ∧ (∀ p, p < 16 → value.toNat.testBit p = false → (port t p).st = .disabled)
        ∧ (∀ p, p < 16 → value.toNat.testBit p = true → (port s p).st = .disabled → (port t p).st = .training))) ∧
  (∀ (ctx : Fin 16) (off : Fin 2048) (bytes : List Byte) (s : State), canonical s = true → inService s = true →
    (bytes.length = 4 ∨ bytes.length = 8 → off.val % bytes.length = 0 →
      (executingStep s ctx = false → Completes (.drwMapWrite ctx off bytes) s fun t =>
        (∀ d, d < 16384 → (mapOf t ctx).getLsbD d =
          if off.val ≤ d / 8 ∧ d / 8 < off.val + bytes.length then (byteAt bytes (d / 8 - off)).getLsbD (d % 8) && !(drawer s d).retired
          else (mapOf s ctx).getLsbD d)
        ∧ t.stagedMaps = s.stagedMaps ∧ (∀ c, c ≠ ctx.val → mapOf t c = mapOf s c)) ∧
      (executingStep s ctx = true → Completes (.drwMapWrite ctx off bytes) s fun t =>
        t.maps = s.maps ∧ (∀ k, off.val ≤ k → k < off.val + bytes.length →
          tabGet none (tabGet [] t.stagedMaps ctx) k = some (byteAt bytes (k - off))))) ∧
    (bytes.length ≠ 4 ∧ bytes.length ≠ 8 ∨ off.val % bytes.length ≠ 0 → Completes (.drwMapWrite ctx off bytes) s fun t =>
      t.maps = s.maps ∧ t.stagedMaps = s.stagedMaps ∧ Counted s t cHifBadAccess 1 ∧ flagUp t .hif 1 = true)) ∧
  (∀ (fn : Fin 16) (s : State), fn.val ≤ s.vfs → bar0Answers s 0x100 = true →
    (∀ off, 0x100 ≤ off → off < 0x140 → reg s off = regReset off) →
    (∀ e ∈ [(0x100, 0x04010001), (0x104, 0x01000110), (0x108, 0x00000141), (0x110, 0x04010002), (0x114, 0x01000120), (0x120, 0x04010003),
        (0x124, 0x01000130), (0x128, 0x00100810), (0x12C, 0x10000100), (0x130, 0x03010004), (0x134, 0x01000000)],
      bar0Read s fn e.1 false = e.2) ∧
    (bar0Read s fn 0x118 false = (if Config.hbm512 then 1 + 512 * 2 ^ 16 else 384 * 2 ^ 16)) ∧
    (∀ n, n < 16 → (bar0Read s fn 0x138 false).testBit n = decide (functionOf s n ≠ 0)) ∧
    (s.mod.st = .booting → ∀ off wide, 0x1000 ≤ off → bar0Read s 0 off wide = 0))

/-- R69, R72, R73, R105: a product, a readout or a level image that passes validation joins the end of its Drawer's queue, bound to the
plane it selects and to that plane's generation, and nothing of it leaves the module yet; a product that takes a hold adds 1 to the
plane's count. Nothing else runs ahead of it where the queue's head has begun, or is no product.

R79: 1 ms without a conversion stops the descriptor in execution with WATCHDOG; the firing is counted and flagged, and the Drawer, with
nothing else queued, is free. -/
def Obligations.DrawerQueues : Prop :=
  (∀ (c : Instr) (op p d : Nat) (ctx : Fin 16) (ring : Fin 8) (a : Accepted) (s : State), Dispatches s ctx ring op a → d = dwDrawer a.bytes →
    ((c, op) ∈ [(Instr.drwProduct ctx ring, 0x21), (Instr.drwReadRows ctx ring, 0x22), (Instr.drwReadCols ctx ring, 0x23)]
        ∧ drwStatus s ctx a.bytes = 0 ∧ selectPlane (drawer s d) a.bytes = some p
      ∨ c = .plnImage ctx ring ∧ op = 0x26 ∧ mapped s ctx d = true ∧ permitted s ctx (dwOutAddr a.bytes) imageBytes false true = true
        ∧ retainedPlane (drawer s d) (fieldAt a.bytes 24 4) = some p) →
    (∀ j, (drawer s d).queue.head? = some j → j.begun = true ∨ isProduct j.bytes = false) →
    ((drawer s d).queue = [] → isProduct a.bytes = true → dwVectors a.bytes ≠ 0 ∧ regBit s rDrwCtrl 0 = false) →
    Completes c s fun t =>
      (∃ j, (drawer t d).queue = (drawer s d).queue ++ [j] ∧ j.ref = a.ref ∧ j.bytes = a.bytes ∧ j.plane = p
        ∧ j.gen = ((drawer s d).plane p).gen ∧ j.begun = false)
      ∧ ((drawer t d).plane p).hold = ((drawer s d).plane p).hold
          + (if op = 0x21 ∧ isProduct a.bytes ∧ dwHold a.bytes ∧ ((drawer s d).plane p).hold ≠ 65535 then 1 else 0)
      ∧ (Safety.GoodHeaders s ctx ring → t.out = s.out)) ∧
  (∀ (d : Fin 16384) (j : DrwJob) (s : State), (drawer s d).queue = [j] → dwDrawer j.bytes = d →
    j.dropped = false → resetWaits s = false → contextResetDue s j.ref.ctx = false → (findDesc s j.ref).isSome = true → (∀ t, (drawer s d).wdogAt = some t → t + 1000000000 < s.mod.devTime) →
    Completes (.drwProductWatchdog d) s fun t =>
      (∃ tail, Ended s t j.ref 0x0C01 tail) ∧ (drawer t d).queue = [] ∧ (drawer t d).wdogAt = some s.mod.devTime
        ∧ Counted s t cDrwWdog 1 ∧ flagUp t .drw 0 = true)

/-- R41, R44, R50, R51: a conversion of a product adds, to each column's accumulator, the term of its code, or nothing where every block is
zero (R45); the next conversion is of the low nibbles, then of the next row group. Where the last conversion of a vector has saturated
and its policy has a step left, the vector starts again with the row group halved.

R46, R47, R66, R71: after the last conversion of its last vector a product that has met no saturation writes each column's result,
rounded once to the output format, and completes; the Drawer is free. -/
def Obligations.ProductsAccumulateAndWrite : Prop :=
  (∀ (d : Fin 16384) (dev : Tab Int) (j : DrwJob) (js : List DrwJob) (w : Drawer) (p : ProductProgress) (s : State),
    w = drawer s d → w.queue = j :: js → isProduct j.bytes = true → j.begun = true →
    regBit s rDrwCtrl 0 = false → p = j.prod → p.acc.length = dwColCount j.bytes → j.trims.length = dwColCount j.bytes →
    ((nextPhase p).group < groupCount j.bytes p → Completes (.drwConversionDone d dev) s fun t =>
      ∃ k, (drawer t d).queue = k :: js ∧ k.prod.low = !p.low ∧ k.prod.group = (if p.low then p.group + 1 else p.group)
        ∧ ∀ i, i < dwColCount j.bytes → k.prod.acc.getD i 0 = p.acc.getD i 0
            + if (xMax p).isNone then 0 else convTerm p.low (if p.low then p.gLo else p.gHi) (trimOffset (j.trims.getD i 0))
                (convCode (charge w j (dwColStart j.bytes + i)) (if p.low then p.gLo else p.gHi)
                  (tabGet 0 dev (w.physCol (dwColStart j.bytes + i)))).1
                ((xMax p).getD (p.exps.getD (p.group * p.gSize / 128) 0) - p.exps.getD (p.group * p.gSize / 128) 0)) ∧
    (groupCount j.bytes p ≤ (nextPhase p).group → p.retries < dwRetryMax j.bytes → dwPolicy j.bytes = 1 ∨ dwPolicy j.bytes = 3 →
      16 < p.gSize → (∃ i, i < dwColCount j.bytes ∧ (convCode (charge w j (dwColStart j.bytes + i)) (if p.low then p.gLo else p.gHi)
        (tabGet 0 dev (w.physCol (dwColStart j.bytes + i)))).2 = true) → Completes (.drwConversionDone d dev) s fun t =>
          ∃ k, (drawer t d).queue = k :: js ∧ k.prod.retries = p.retries + 1 ∧ k.prod.gSize = p.gSize / 2 ∧ k.prod.group = 0
            ∧ k.prod.low = false ∧ k.prod.acc = List.replicate (dwColCount j.bytes) 0)) ∧
  (∀ (d : Fin 16384) (dev : Tab Int) (j : DrwJob) (w : Drawer) (p : ProductProgress) (base : Nat) (s : State),
    w = drawer s d → w.queue = [j] → isProduct j.bytes = true → dwDrawer j.bytes = d → j.begun = true → j.dropped = false →
    regBit s rDrwCtrl 0 = false → dwAccum j.bytes = false → (findDesc s j.ref).isSome = true →
    j.prod.acc.length = dwColCount j.bytes → j.trims.length = dwColCount j.bytes → j.scales.length = dwColCount j.bytes →
    p = (convert w j dev).1 → p.satHi = false → p.satLo = false → groupCount j.bytes p ≤ (nextPhase p).group →
    p.vec + 1 = dwVectors j.bytes → base = dwOutAddr j.bytes + p.vec * 16 * dwProdPitch j.bytes →
    Completes (.drwConversionDone d dev) s fun t =>
      (∃ tail, Ended s t j.ref (if p.exhausted ≠ 0 then 0x0401 else if (j.trims.any fun t => !t.getLsbD 31) then 0x0208
          else if p.saturated ≠ 0 then 0x0203 else 0) tail)
      ∧ (drawer t d).queue = []
      ∧ (∀ i k, i < dwColCount j.bytes → k < elemBytes (prodFmt j.bytes) →
          tabGet 0 t.mem.cells (base + elemBytes (prodFmt j.bytes) * i + k) =
            byteAt (leBytes (elemBytes (prodFmt j.bytes)) (scalarEncode (prodFmt j.bytes) .nearest false
              (productValue p (p.acc.getD i 0) (j.trims.getD i 0) (j.scales.getD i 0))).bits) k)
      ∧ (∀ x, x < base ∨ base + elemBytes (prodFmt j.bytes) * dwColCount j.bytes ≤ x → tabGet 0 t.mem.cells x = tabGet 0 s.mem.cells x))

/-- R57, R37, R62: a row-order readout takes the positive cells of a row, then the negative ones. A row that passes its check is written and
the next one is read, or the readout completes; a row that fails is read again once, and then is left uncorrected, counted, flagged and
logged: the entry has the generation, row and plane, and 1 in its count field (one entry for each row: the model's choice, log entry
32).

R58, R67, R68: a transposed readout takes a cell column in one conversion for each quarter that its rows touch, and one more where a row
of the range is remapped: the positive cells first, then the negative ones; the column's levels are then written where it belongs to the
range. -/
def Obligations.ReadoutsGiveLevels : Prop :=
  (∀ (d : Fin 16384) (dev : Tab Int) (j : DrwJob) (js : List DrwJob) (w : Drawer) (r : Nat) (s : State),
    w = drawer s d → w.queue = j :: js → dOpcode j.bytes = 0x22 → j.begun = true → j.dropped = false →
    r = dwRowStart j.bytes + j.read.pos → dwColStart j.bytes + dwColCount j.bytes ≤ 1024 →
    (j.read.neg = false → Completes (.drwConversionDone d dev) s fun t =>
      t.mem = s.mem ∧ ∃ k, (drawer t d).queue = k :: js ∧ k.read.neg = true
        ∧ k.read.posVals = rowReadings (w.plane j.plane) ((w.plane j.plane).physRow r) 0 dev) ∧
    (∀ x : RowRead, j.read.neg = true →
      x = decideRow w j.read.posVals (rowReadings (w.plane j.plane) ((w.plane j.plane).physRow r) 1 dev) →
      (x.passes = true → j.read.pos + 1 < dwRowCount j.bytes → dwReadFmt j.bytes = 0 → Completes (.drwConversionDone d dev) s fun t =>
        (∃ k, (drawer t d).queue = k :: js ∧ k.read.neg = false ∧ k.read.pos = j.read.pos + 1)
        ∧ ∀ i, i < dwColCount j.bytes → tabGet 0 t.mem.cells (dwOutAddr j.bytes + j.read.pos * 16 * dwReadPitch j.bytes + i) =
            BitVec.ofNat 8 (lv5Encode (x.levels.getD (dwColStart j.bytes + i) 0))) ∧
      (x.passes = true → j.read.reread = false → dwRowCount j.bytes ≤ j.read.pos + 1 → js = [] → dwDrawer j.bytes = d →
        (findDesc s j.ref).isSome = true → Completes (.drwConversionDone d dev) s fun t =>
          (drawer t d).queue = [] ∧ ∃ tail, Ended s t j.ref (if j.read.uncorrected = 0 then 0 else 0x0207) tail) ∧
      (x.passes = false → j.read.reread = false → Completes (.drwConversionDone d dev) s fun t =>
        t.mem = s.mem ∧ t.log = s.log ∧ ∃ k, (drawer t d).queue = k :: js ∧ k.read.reread = true ∧ k.read.pos = j.read.pos) ∧
      (x.passes = false → j.read.reread = true → j.read.pos + 1 < dwRowCount j.bytes → Completes (.drwConversionDone d dev) s fun t =>
        Counted s t cDrwUncorr 1 ∧ flagUp t .drw 1 = true
          ∧ (s.mem.errs = [] → Logged s t
              (({ code := 0x0207, source := 1, engine := dwDrawer j.bytes
                  detail := j.gen + r * 2 ^ 32 + j.plane * 2 ^ 48 + 2 ^ 49 } : LogEntry).naming j.ref))
          ∧ ∃ k, (drawer t d).queue = k :: js ∧ k.read.uncorrected = j.read.uncorrected + 1 ∧ k.read.pos = j.read.pos + 1))) ∧
  (∀ (d : Fin 16384) (dev : Tab Int) (j : DrwJob) (js : List DrwJob) (w : Drawer) (pl : Plane) (c : Nat) (new : List Int) (s : State),
    w = drawer s d → w.queue = j :: js → dOpcode j.bytes = 0x23 → j.begun = true → j.dropped = false → pl = w.plane j.plane →
    j.read.transposedDone = false → c = (readSet j.bytes).getD j.read.pos 0 →
    new = ((partRows pl j.bytes j.read.part).zip (List.range (partRows pl j.bytes j.read.part).length)).map (fun r =>
      pl.cell r.1 (w.physCol c) (boolNat j.read.neg) + tabGet 0 dev r.2) →
    (j.read.part + 1 < partCount pl j.bytes → Completes (.drwConversionDone d dev) s fun t =>
      t.mem = s.mem ∧ ∃ k, (drawer t d).queue = k :: js ∧ k.read.part = j.read.part + 1 ∧ k.read.curVals = j.read.curVals ++ new
        ∧ k.read.neg = j.read.neg ∧ k.read.pos = j.read.pos) ∧
    (partCount pl j.bytes ≤ j.read.part + 1 → j.read.neg = false → Completes (.drwConversionDone d dev) s fun t =>
      t.mem = s.mem ∧ ∃ k, (drawer t d).queue = k :: js ∧ k.read.part = 0 ∧ k.read.neg = true
        ∧ k.read.posVals = j.read.curVals ++ new ∧ k.read.curVals = []) ∧
    (partCount pl j.bytes ≤ j.read.part + 1 → j.read.neg = true → j.read.pos + 1 < (readSet j.bytes).length →
      Completes (.drwConversionDone d dev) s fun t =>
        (∃ k, (drawer t d).queue = k :: js ∧ k.read.pos = j.read.pos + 1 ∧ k.read.neg = false ∧ k.read.part = 0) ∧
        (dwTiled j.bytes = false → dwReadFmt j.bytes = 0 → dwColStart j.bytes ≤ c → c < dwColStart j.bytes + dwColCount j.bytes →
          c < 1036 → ∀ i, i < dwRowCount j.bytes →
            tabGet 0 t.mem.cells (dwOutAddr j.bytes + (c - dwColStart j.bytes) * 16 * dwReadPitch j.bytes + i) =
              BitVec.ofNat 8 (lv5Encode (pairWeight (columnReading pl j.bytes j.read.posVals (dwRowStart j.bytes + i))
                (columnReading pl j.bytes (j.read.curVals ++ new) (dwRowStart j.bytes + i)))))))

/-- R91: the level chosen for a weight. A scale that is zero, infinite or not a number, or a master that is not finite, gives the reference
level, 0 without one; a reference within 5/8 of a scale of the master is kept; else the level is the whole number nearest to master over
scale, ties to even, held to -15 to 15.

R91, R92, R118: a PLN_TARGET that passes validation joins its Chest's target unit; when the unit ends the oldest one, the target image
holds each weight's level, as the masters, the scales and the reference give it, and it completes. -/
def Obligations.TargetsAreChosenByRule : Prop :=
  (∀ (v sigma : XVal) (ref : Option Int),
    (scaleInvalid sigma = true ∨ v.isFinite = false → (chooseLevel v sigma ref).level = ref.getD 0) ∧
    (scaleInvalid sigma = false → v.isFinite = true → ∀ l, ref = some l →
      withinBand (v.add ((XVal.ofInt l).mul sigma).negate) sigma = true → (chooseLevel v sigma ref).level = l) ∧
    (scaleInvalid sigma = false → v.isFinite = true →
      (∀ l, ref = some l → withinBand (v.add ((XVal.ofInt l).mul sigma).negate) sigma = false) →
      ∀ neg n d, v.div sigma = .fin neg n d →
        (chooseLevel v sigma ref).level = max (-15) (min 15 (roundInt .nearest neg n d))
        ∧ ((chooseLevel v sigma ref).clamped = true ↔
            roundInt .nearest neg n d < -15 ∨ 15 < roundInt .nearest neg n d))) ∧
  ((∀ (ctx : Fin 16) (ring : Fin 8) (a : Accepted) (s : State), Dispatches s ctx ring 0x24 a →
    targetStatus s ctx a.bytes = 0 → Completes (.plnTarget ctx ring) s fun t =>
      (chest t (chestOf (plnDrawer a.bytes))).targets = (chest s (chestOf (plnDrawer a.bytes))).targets ++ [⟨a.ref, a.bytes⟩]
        ∧ (Safety.GoodHeaders s ctx ring → t.out = s.out) ∧ t.mem.cells = s.mem.cells) ∧
  (∀ (c : Fin 256) (j : TargetJob) (js : List TargetJob) (s : State), (chest s c).targets = j :: js →
    (findDesc s j.ref).isSome = true → (tgtFull j.bytes = true ∨ imageValid s (tgtRef j.bytes) = true) →
    Completes (.targetUnitDone c) s fun t =>
      (∃ tail, Ended s t j.ref 0 tail) ∧ (chest t c).targets = js
      ∧ (∀ r col, r < 1024 → col < 1024 → tabGet 0 t.mem.cells (tgtTarget j.bytes + 1024 * r + col) =
          BitVec.ofNat 8 (lv5Encode (chooseLevel (scalarDecode 11 (readNat s (tgtMaster j.bytes + r * tgtPitch j.bytes + 5 * col) 5))
            (scalarDecode 1 (readNat s (tgtScale j.bytes + 2 * col) 2))
            (if tgtFull j.bytes then none
             else some ((lv5Decode (readNat s (tgtRef j.bytes + 1024 * r + col) 1)).getD 0))).level))))

/-- R100, R119: a programming descriptor that passes validation joins its Chest's queue of 64 and is in flight no longer; while the queue is
full it stays undispatched and the Chest remembers it.

R94, R98, R102, R103, R114: the oldest programming descriptor starts on the lowest-numbered free lane. A plane that is held refuses it
with PLANE_HELD; otherwise the inactive plane is Programming under the next generation, owned by the context, with the master step of
the descriptor, and writing waits while descriptors are bound to it. A column move takes the lowest free spare column. That the lane is
the lowest free one (log entry 61) and that a column move waits for no binding (log entry 34) is the model's choice. -/
def Obligations.LanesTakeTheirWork : Prop :=
  (∀ (c : Instr) (op h : Nat) (ctx : Fin 16) (ring : Fin 8) (a : Accepted) (s : State), c = .plnProgram ctx ring ∧ op = 0x25 ∨ c = .plnRemapCol ctx ring ∧ op = 0x27 → Dispatches s ctx ring op a →
    h = chestOf (plnDrawer a.bytes) →
    ((chest s h).queue.length < 64 → programStatus s ctx a.bytes = 0 → Completes c s fun t =>
      (chest t h).queue = (chest s h).queue ++ [{ ref := a.ref, bytes := a.bytes }] ∧ (Safety.GoodHeaders s ctx ring → t.out = s.out)
        ∧ ∃ d, findDesc t a.ref = some d ∧ d.dispatched = true ∧ d.counted = false) ∧
    (64 ≤ (chest s h).queue.length → ∃ t, exec c s = .next t ∧ t.doors = s.doors ∧ t.out = s.out ∧ a.ref ∈ (chest t h).held
      ∧ (chest t h).queue = (chest s h).queue)) ∧
  (∀ (c : Fin 256) (l d p : Nat) (j : PlnJob) (js : List PlnJob) (w : Drawer) (s : State), (chest s c).queue = j :: js → freeLane (chest s c) = some l → (chest s c).held = [] → reloadBars s c = false → d = plnDrawer j.bytes → chestOf d = c →
    w = drawer s d → p = (if w.activeB then 0 else 1) → (findDesc s j.ref).isSome = true →
    (dOpcode j.bytes = 0x25 → (w.plane p).hold ≠ 0 → Completes (.plnLaneStart c) s fun t =>
      (∃ tail, Ended s t j.ref 0x0302 tail) ∧ (chest t c).queue = js ∧ laneJob t c l = none) ∧
    (dOpcode j.bytes = 0x25 → (w.plane p).hold = 0 → imageValid s (plnTargetAddr j.bytes) = true →
      Completes (.plnLaneStart c) s fun t =>
        ((drawer t d).plane p).st = .programming ∧ ((drawer t d).plane p).gen = (w.lastGen + 1) % 2 ^ 32
          ∧ (drawer t d).lastGen = (w.lastGen + 1) % 2 ^ 32 ∧ ((drawer t d).plane p).owner = some j.ref.ctx
          ∧ ((drawer t d).plane p).mstep = (if fieldAt j.bytes 24 8 = 2 ^ 64 - 1 then none else some (fieldAt j.bytes 24 8))
          ∧ ((drawer t d).plane p).imaged = false ∧ (chest t c).queue = js
          ∧ ∃ k, laneJob t c l = some k ∧ k.ref = j.ref ∧ k.row = 0 ∧ k.plane = p
            ∧ k.phase = (if w.queue.any (fun j => j.plane == p) then .binding else .preRead)) ∧
    (∀ k, dOpcode j.bytes = 0x27 → freeSpareCol w = some k → Completes (.plnLaneStart c) s fun t =>
      (chest t c).queue = js ∧ ∃ n, laneJob t c l = some n ∧ n.ref = j.ref ∧ n.spareCol = k ∧ n.plane = 0 ∧ n.row = 0
        ∧ n.phase = .preRead))

/-- R95, R96, R98, R103, R112, R116: the cycle of a row of PLN_PROGRAM. Writing begins once nothing is bound to the plane. The pre-read ends
a row that reads its targets and passes its check as unchanged, and else finds the cells to pulse. A pulse leaves each of those at the
nominal code of its level and what it misses it by, every other cell as it was, and counts the cycle. A verify read with no cell outside
its band goes on to the closing read, one with some to the next pulse; after cycle 32 the row has failed, and a free spare row is taken
where that is allowed; a fenced module takes none. A closing read that passes ends the row as written; after the last row the plane is
Ready and the descriptor completes. That a cycle is counted at its pulse is the model's choice (log entry 67).

R113: a row in programming for 10 ms stops its descriptor with WATCHDOG; the plane is Failed, and the firing is counted and flagged. -/
def Obligations.CyclesProgramRows : Prop :=
  (∀ (c : Fin 256) (l : Fin 16) (dev : Tab Int) (j : PlnJob) (w : Drawer) (s : State), laneJob s c l = some j → j.chest = c → dOpcode j.bytes = 0x25 → w = drawer s j.drawer →
    (j.phase = .binding → w.bound j.plane = false → Completes (.programBindingEnd c l) s fun t =>
      laneJob t c l = some { j with phase := .preRead } ∧ t.drawers = s.drawers) ∧
    (∀ k, j.phase = .preRead → j.spareRow = none →
      k = { j with target := (readMem s (plnTargetAddr j.bytes + 1024 * j.row) 1024).map fun b => imageLevel b.toNat } →
      (pairsEqual w k dev = true → rowChecks w k dev = true → j.row < 1023 → Completes (.programPreReadDone c l dev) s fun t =>
        laneJob t c l = some ({ k with unchanged := k.unchanged + 1 }.startRow (j.row + 1)) ∧ Counted s t cPlnUnchanged 1
          ∧ t.drawers = s.drawers) ∧
      (pairsEqual w k dev = false ∨ rowChecks w k dev = false → Completes (.programPreReadDone c l dev) s fun t =>
        laneJob t c l = some { k with phase := .pulse, outside := outsideBand w k dev } ∧ t.drawers = s.drawers)) ∧
    (j.phase = .pulse → Completes (.programPulse c l dev) s fun t =>
      laneJob t c l = some { j with phase := .verify, cycle := j.cycle + 1, largest := max j.largest (j.cycle + 1) }
        ∧ Counted s t cPlnCycles 1
        ∧ tabGet 0 ((drawer t j.drawer).plane j.plane).wear (jobRow w j) = tabGet 0 (w.plane j.plane).wear (jobRow w j) + 1
        ∧ ∀ row pair neg, pair < 1036 → neg < 2 → ((drawer t j.drawer).plane j.plane).cell row pair neg =
            match (rowTargets w j).find? (fun t => row = jobRow w j ∧ t.1 = pair ∧ 2 * pair + neg ∈ j.outside) with
            | some t => nominal t.2 neg + tabGet 0 dev (2 * pair + neg)
            | none => (w.plane j.plane).cell row pair neg) ∧
    (j.phase = .verify → j.stopping = true → outsideBand w j dev ≠ [] → 32 ≤ j.cycle → ∃ t, exec (.programVerifyRead c l dev) s = .next t
        ∧ Counted s t cPlnFails 1 ∧ flagUp t .pln 0 = true ∧ laneJob t c l = none
        ∧ (1024 ≤ jobRow w j → jobRow w j - 1024 ∈ ((drawer t j.drawer).plane j.plane).rowBad)) ∧
    (j.phase = .verify → j.stopping = false →
      (outsideBand w j dev = [] → Completes (.programVerifyRead c l dev) s fun t =>
        laneJob t c l = some { j with phase := .closing, outside := [] } ∧ t.drawers = s.drawers) ∧
      (outsideBand w j dev ≠ [] → j.cycle < 32 → Completes (.programVerifyRead c l dev) s fun t =>
        laneJob t c l = some { j with phase := .pulse, outside := outsideBand w j dev } ∧ t.drawers = s.drawers) ∧
      (outsideBand w j dev ≠ [] → 32 ≤ j.cycle → ∃ t, exec (.programVerifyRead c l dev) s = .next t
        ∧ Counted s t cPlnFails 1 ∧ flagUp t .pln 0 = true
        ∧ (1024 ≤ jobRow w j → jobRow w j - 1024 ∈ ((drawer t j.drawer).plane j.plane).rowBad)
        ∧ (∀ k, jobRow w j < 1024 → freeSpareRow (w.plane j.plane) = some k → regBit s rPlnCtrl 0 = true →
            j.tries < bitsOf (reg s rPlnCtrl) 2 1 → ∃ n, laneJob t c l = some n ∧ n.spareRow = some k ∧ n.row = j.row
              ∧ n.tries = j.tries + 1 ∧ n.cycle = 0 ∧ n.phase = .preRead))) ∧
    (j.phase = .closing → rowChecks w j dev = true →
      (j.row < 1023 → Completes (.programClosingRead c l dev) s fun t =>
        laneJob t c l = some ({ j with written := j.written + 1 }.startRow (j.row + 1)) ∧ Counted s t cPlnWritten 1
          ∧ (∀ k, j.spareRow = some k → tabGet none ((drawer t j.drawer).plane j.plane).rowRemap j.row = some k)) ∧
      (1023 ≤ j.row → (findDesc s j.ref).isSome = true → (stepCtx s j.ref.ctx).opened = none →
        Completes (.programClosingRead c l dev) s fun t =>
          laneJob t c l = none ∧ ((drawer t j.drawer).plane j.plane).st = .ready ∧ ∃ tail, Ended s t j.ref 0 tail))) ∧
  (∀ (c : Fin 256) (l : Fin 16) (j : PlnJob) (s : State), laneJob s c l = some j → j.chest = c →
    dOpcode j.bytes = 0x25 → j.phase ≠ .binding → j.phase ≠ .checkRead → (findDesc s j.ref).isSome = true →
    resetWaits s = false → contextResetDue s j.ref.ctx = false →
    (∀ t, tabGet none (chest s c).laneWdogAt l = some t → t + 60000000000 < s.mod.devTime) →
    Completes (.programRowWatchdog c l) s fun t =>
      (∃ tail, Ended s t j.ref 0x0C01 tail) ∧ laneJob t c l = none ∧ Counted s t cPlnWdog 1 ∧ flagUp t .pln 3 = true
        ∧ (((drawer s j.drawer).plane j.plane).st = .programming → ((drawer t j.drawer).plane j.plane).st = .failed))

/-- R174, R175: a matrix product that passes validation joins its engine's queue; one that finds it empty begins, and is keyed by the step
number then (DEDUCED, log entry 45: by the step in which its execution begins); one of an empty shape completes as soon as it is at the
head.

R176, R412: a Trestle descriptor that exceeds its TIMEOUT stops with WATCHDOG and the counts it has reached; the engine is reset, which
is counted and flagged, and after a third reset within 600 s it leaves service where AUTO_OFF allows. -/
def Obligations.MatrixProductsAreQueued : Prop :=
  (∀ (ctx : Fin 16) (ring : Fin 8) (a : Accepted) (ext : List Byte) (s : State), Dispatches s ctx ring 0x31 a →
    ext = (if extNeeded a.bytes ∧ trsExtIndex a.bytes < reg s (rTrsExtCount ctx)
        ∧ permitted s ctx (extAddr s ctx a.bytes) 32 true false = true
      then readMem s (extAddr s ctx a.bytes) 32 else []) →
    trsStatus s ctx a.bytes ext = 0 →
    (trsM a.bytes ≠ 0 ∧ trsN a.bytes ≠ 0 ∨ (trsEngine s (trsEngineOf a.bytes)).queue ≠ [] → Completes (.trsMatmul ctx ring) s fun t =>
      (trsEngine t (trsEngineOf a.bytes)).queue = (trsEngine s (trsEngineOf a.bytes)).queue
          ++ [{ ref := a.ref, bytes := a.bytes, ext := ext, noHist := dNoHist a.bytes
                step := if (trsEngine s (trsEngineOf a.bytes)).queue = [] then some (curStep s ctx) else none }]
        ∧ (Safety.GoodHeaders s ctx ring → t.out = s.out) ∧ t.mem.cells = s.mem.cells) ∧
    (trsM a.bytes = 0 ∨ trsN a.bytes = 0 → (trsEngine s (trsEngineOf a.bytes)).queue = [] → Completes (.trsMatmul ctx ring) s fun t => ∃ tail, Ended s t a.ref 0 tail)) ∧
  (∀ (u : Fin 16) (j : TrsJob) (js : List TrsJob) (s : State), (trsEngine s u).queue = j :: js → (findDesc s j.ref).isSome = true →
    j.dropped = false → resetWaits s = false → contextResetDue s j.ref.ctx = false → (∀ k ∈ js, tileCount k.bytes ≠ 0) → Completes (.trsWatchdog u) s fun t =>
      Ended s t j.ref 0x0C01 (leBytes 4 j.written ++ leBytes 4 j.retried ++ leBytes 4 j.exhausted ++ leBytes 1 j.largest
          ++ leBytes 1 (trsEngineOf j.bytes))
        ∧ (trsEngine t u).queue.map (fun k => { k with step := none }) = js.map (fun k => { k with step := none })
        ∧ (trsEngine t u).resets = (s.mod.devTime :: (trsEngine s u).resets).take 2
        ∧ Counted s t cTrsWdog 1 ∧ Counted s t cRcvEngine 1 ∧ flagUp t .trs 0 = true ∧ flagUp t .rcv 1 = true
        ∧ (regBit s rRcvCtrl 0 = true → 2 ≤ (trsEngine s u).resets.length →
            s.mod.devTime ≤ (trsEngine s u).resets.getD 1 0 + 600000000000 → regBit t rTrsCtrl (16 + u) = true))

/-- R163 to R165, R170, R171: an attempt at a tile that overflows within its retries leaves memory as it was and is retried at a scale lower
by 1; any other is written: each element holds the accumulation of its terms, rounded once to the output format, one that overflowed in
its sum as the overflow of a finite value (R143). The tile is counted, and after the last one the descriptor completes with
RETRY_EXHAUSTED, OUTPUT_OVERFLOW or success.

R164: the terms of an element are summed in FP32 in chunks of 32, each by a tree of pairs: four of them two by two, and the 33rd is
added to the sum of the first 32. -/
def Obligations.TilesAndTerms : Prop :=
  (∀ (u : Fin 16) (j : TrsJob) (js : List TrsJob) (ov : Bool) (c : Stored) (s : State), (trsEngine s u).queue = j :: js →
    j.dropped = false → tileCount j.bytes ≠ 0 → (∀ k ∈ js, tileCount k.bytes ≠ 0) → ov = (attemptElems (trsAttempt s j)).any (·.flags.overflow) → c = storedC j.bytes →
    (ov = true → mapWritten j.bytes = true → j.halvings < trsRetryMax j.bytes → Completes (.trsTileDone u) s fun t =>
      (trsEngine t u).queue = { j with halvings := j.halvings + 1 } :: js ∧ t.mem.cells = s.mem.cells ∧ t.out = s.out) ∧
    (ov = false ∨ mapWritten j.bytes = false ∨ trsRetryMax j.bytes ≤ j.halvings →
      (j.tile + 1 < tileCount j.bytes → Completes (.trsTileDone u) s fun t =>
        (∃ k, (trsEngine t u).queue = k :: js ∧ k.tile = j.tile + 1 ∧ k.halvings = 0 ∧ k.written = j.written + 1)
          ∧ Counted s t cTrsTiles 1 ∧ t.out = s.out) ∧
      (tileCount j.bytes ≤ j.tile + 1 → (findDesc s j.ref).isSome = true → Completes (.trsTileDone u) s fun t =>
        (trsEngine t u).queue.map (fun k => { k with step := none }) = js.map (fun k => { k with step := none })
          ∧ (∀ k, (trsEngine t u).queue.head? = some k → k.step.isSome = true) ∧ Counted s t cTrsTiles 1 ∧ ∃ tail, Ended s t j.ref
          (if j.exhausted ≠ 0 ∨ ov = true ∧ mapWritten j.bytes = true then 0x0401
           else if j.overflowed = true ∨ ov = true then 0x0402 else 0) tail) ∧
      (isMx c.fmt = false → c.tiled = false → pitchTooSmall c = false → mapWritten j.bytes = false →
        Completes (.trsTileDone u) s fun t =>
          ∀ x y k, x ∈ tileRows j.bytes (j.tile / tilesAcross j.bytes) → y ∈ tileCols j.bytes (j.tile % tilesAcross j.bytes) →
            k < elemBytes c.fmt → tabGet 0 t.mem.cells (c.addr + x * 16 * c.pitch + y * elemBytes c.fmt + k) =
              byteAt (leBytes (elemBytes c.fmt)
                (sumEncode c.fmt (trsRnd (j.stepNow s) j.bytes j.ext x y) (trsSat j.bytes)
                  ((trestleAcc s j.bytes (trsScale j.bytes - j.halvings) x y).2 && (!trsAccum j.bytes || (c.value s x y).isFinite))
                  (if trsAccum j.bytes then (c.value s x y).add (trestleAcc s j.bytes (trsScale j.bytes - j.halvings) x y).1
                   else (trestleAcc s j.bytes (trsScale j.bytes - j.halvings) x y).1)).bits) k))) ∧
  (∀ (b : List Byte) (scale : Int) (i k : Nat) (s : State),
    (trsK b = 1 → trestleAcc s b scale i k = trsTerm s b scale i k 0) ∧
    (trsK b = 4 → trestleAcc s b scale i k =
      accAdd (accAdd (trsTerm s b scale i k 0) (trsTerm s b scale i k 1)) (accAdd (trsTerm s b scale i k 2) (trsTerm s b scale i k 3))) ∧
    (∀ b' : List Byte, trsK b = 33 → trsK b' = 32 → (∀ n, n < 32 → trsTerm s b' scale i k n = trsTerm s b scale i k n) →
      trestleAcc s b scale i k = accAdd (trestleAcc s b' scale i k) (trsTerm s b scale i k 32)))

/-- R184, R205 to R207: a launch that passes orders 1 to 3 joins its unit's queue; on an idle unit without a program to reuse the program is
fetched. When it is there, a program that passes the check starts with every register as R184 says, the scalars from the argument block
and its instruction limit fixed (R209, R409); one that does not is rejected with the status and the index of its first faulty
instruction.

R187, R211 to R213: END ends the program, and so does the instruction at the last index: the launch completes with OUTPUT_OVERFLOW,
PERM_RANGE or success, is counted, and leaves the unit's queue.

R196, R210: an access that is misaligned or not permitted stops the launch with ACCESS_FAULT at its instruction: the completion carries
the instruction's index and the address, of a tile access that of the lowest active lane that faults; nothing is stored, and the fault
is counted, flagged and logged.

R209, R412: a launch that exceeds its TIMEOUT stops with WATCHDOG and reason 1, and its unit is reset; at the instruction limit it stops
with reason 2 and the unit is not reset. -/
def Obligations.LaunchesStartAndEnd : Prop :=
  ((∀ (ctx : Fin 16) (ring : Fin 8) (a : Accepted) (u : Nat) (s : State), Dispatches s ctx ring 0x41 a → u = drsUnitOf a.bytes →
    launchStatus s ctx a.bytes = 0 → Completes (.drsLaunch ctx ring) s fun t =>
      (drsUnit t u).queue = (drsUnit s u).queue ++ [⟨a.ref, a.bytes, dNoHist a.bytes, a.args⟩] ∧ (Safety.GoodHeaders s ctx ring → t.out = s.out)
        ∧ ((drsUnit s u).queue = [] → drsReuse a.bytes = false → (drsUnit t u).run = {})
        ∧ ((drsUnit s u).queue ≠ [] → (drsUnit t u).run = (drsUnit s u).run)) ∧
  (∀ (u : Fin 64) (j : DrsJob) (js : List DrsJob) (prog : List DWord) (s : State), (drsUnit s u).queue = j :: js →
    (drsUnit s u).run.started = false →
    prog = (List.range (drsProgLen j.bytes)).map (fun i => BitVec.ofNat 64 (readNat s (drsProgAddr j.bytes + 8 * i) 8)) →
    (programFault prog = none → Completes (.drsProgramFetched u) s fun t =>
      (drsUnit t u).queue = j :: js ∧ (drsUnit t u).held = some ⟨j.ref.ctx, drsProgAddr j.bytes, drsProgLen j.bytes, prog⟩
        ∧ (drsUnit t u).run.started = true ∧ (drsUnit t u).run.pc = 0 ∧ (drsUnit t u).run.vl = 256
        ∧ (drsUnit t u).run.limit = drsLimit s j.bytes
        ∧ (drsUnit t u).run.key = {} ∧ (drsUnit t u).run.loads = []
        ∧ (∀ n, n < 32 → rT (drsUnit t u).run n = zeroTile) ∧ (∀ n, n < 8 → rM (drsUnit t u).run n = 0)
        ∧ (j.args = [] → ∀ n, n < 16 → rS (drsUnit t u).run n = BitVec.ofNat 64 (readNat s (drsArgAddr j.bytes + 8 * n) 8))) ∧
    (∀ i st, programFault prog = some (i, st) → (findDesc s j.ref).isSome = true → Completes (.drsProgramFetched u) s fun t =>
      (∃ tail, Ended s t j.ref st tail ∧ (tail.drop 4).take 2 = leBytes 2 i) ∧ (drsUnit t u).queue = js))) ∧
  (∀ (c : Instr) (u : Fin 64) (j : DrsJob) (js : List DrsJob) (w : DWord) (r : DrsRun) (s : State), r = (drsUnit s u).run →
    (drsUnit s u).queue = j :: js → nextInsn s u = some (j, w) → (findDesc s j.ref).isSome = true → drsProgLen j.bytes ≤ 8192 →
    c = .drsEnd u ∧ wOp w = 0x01 ∨ c = .drsNop u ∧ wOp w = 0x00 ∧ drsProgLen j.bytes ≤ r.pc + 1 →
    Completes c s fun t => (drsUnit t u).queue = js ∧ Counted s t cDrsLaunches 1 ∧ Counted s t cDrsInstr 1 ∧
      ∃ tail, Ended s t j.ref (if r.events.overflow then 0x0402 else if r.permRange then 0x0403 else 0) tail
        ∧ tail.take 6 = leBytes 4 (r.executed + 1) ++ leBytes 2 r.pc) ∧
  (∀ (i : Instr) (op a : Nat) (u : Fin 64) (j : DrsJob) (js : List DrsJob) (w : DWord) (r : DrsRun) (c : InsnCtx) (s : State),
    r = (drsUnit s u).run → c = ⟨s, u, j.ref, w⟩ → nextInsn s u = some (j, w) → wOp w = op → (drsUnit s u).queue = j :: js →
    (findDesc s j.ref).isSome = true →
    (i = .drsSld u ∧ op = 0x1B ∧ a = (baseAddr c r).toNat ∧ (a % 8 ≠ 0 ∨ permitted s j.ref.ctx a 8 true false = false)
      ∨ i = .drsSst u ∧ op = 0x1C ∧ a = (baseAddr c r).toNat ∧ (a % 8 ≠ 0 ∨ permitted s j.ref.ctx a 8 false true = false)
      ∨ (∃ l rd, (i = .drsTld u ∧ op = 0x28 ∧ rd = true ∨ i = .drsTst u ∧ op = 0x2C ∧ rd = false) ∧ l < 256 ∧ active r w l = true
          ∧ a = laneAddr c r l ∧ (a % 4 ≠ 0 ∨ permitted s j.ref.ctx a 4 rd (!rd) = false)
          ∧ ∀ m, m < l → active r w m = true → laneAddr c r m % 4 = 0 ∧ permitted s j.ref.ctx (laneAddr c r m) 4 rd (!rd) = true)) →
    ∃ t, exec i s = .next t ∧ t.mem.cells = s.mem.cells ∧ Counted s t cDrsFaults 1 ∧ flagUp t .drs 2 = true ∧ (drsUnit t u).queue = js ∧
      (s.mem.errs = [] → Logged s t (({ code := 0x0603, source := 4, engine := u } : LogEntry).naming j.ref)) ∧
      ∃ tail, Ended s t j.ref 0x0603 tail ∧ (tail.drop 4).take 2 = leBytes 2 r.pc ∧ (tail.drop 8).take 4 = leBytes 4 a) ∧
  (∀ (u : Fin 64) (j : DrsJob) (js : List DrsJob) (s : State), (drsUnit s u).queue = j :: js → (findDesc s j.ref).isSome = true →
    (resetWaits s = false → contextResetDue s j.ref.ctx = false → (drsUnit s u).resets.head? ≠ some s.mod.devTime →
      Completes (.drsTimeWatchdog u) s fun t =>
      (drsUnit t u).queue = js ∧ (drsUnit t u).resets = (s.mod.devTime :: (drsUnit s u).resets).take 2
        ∧ Counted s t cDrsWdog 1 ∧ Counted s t cRcvEngine 1 ∧ flagUp t .drs 0 = true ∧ flagUp t .rcv 1 = true
        ∧ ∃ tail, Ended s t j.ref 0x0C01 tail ∧ byteAt tail 7 = 1) ∧
    ((drsUnit s u).run.started = true → (drsUnit s u).run.limit ≤ (drsUnit s u).run.executed →
      Completes (.drsInstrLimit u) s fun t =>
        (drsUnit t u).queue = js ∧ (drsUnit t u).resets = (drsUnit s u).resets ∧ Counted s t cDrsIlimit 1 ∧ flagUp t .drs 1 = true
          ∧ ∃ tail, Ended s t j.ref 0x0C01 tail ∧ byteAt tail 7 = 2))

/-- R187, Table 6.4: the control instructions. A branch goes on at its target, the others at the next index.

Table 6.4: the scalar instructions, of 64 bits modulo 2^64. Each writes S[D] and no other register. -/
def Obligations.ControlAndScalars : Prop :=
  (∀ (u : Fin 64) (j : DrsJob) (w : DWord) (r : DrsRun) (s : State), r = (drsUnit s u).run →
    (Issues s u 0x00 j w → Completes (.drsNop u) s fun t => Executed s t u r (r.pc + 1) ∧ t.mem = s.mem ∧ t.out = s.out) ∧
    (Issues s u 0x02 j w → Completes (.drsSetvl u) s fun t =>
      Executed s t u { r with vl := (max 0 (min 256 ((rS r (wA w)).toInt + wImm w))).toNat } (r.pc + 1) ∧ t.mem = s.mem) ∧
    (Issues s u 0x03 j w → Completes (.drsKey u) s fun t =>
      Executed s t u { r with key := ⟨(rS r (wA w)).truncate 32, rS r (wB w), (rS r (wC w)).truncate 32⟩ } (r.pc + 1) ∧ t.mem = s.mem) ∧
    (∀ (c : Instr) (op : Nat) (cond : Bool),
      (c, op, cond) ∈ [(Instr.drsBr u, 0x04, true), (.drsBeq u, 0x05, rS r (wA w) == rS r (wB w)),
        (.drsBne u, 0x06, rS r (wA w) != rS r (wB w)), (.drsBlt u, 0x07, decide ((rS r (wA w)).toInt < (rS r (wB w)).toInt)),
        (.drsBge u, 0x08, decide ((rS r (wB w)).toInt ≤ (rS r (wA w)).toInt))] →
      Issues s u op j w → (((r.pc : Int) + wImm w).toNat < drsProgLen j.bytes) → Completes c s fun t =>
        Executed s t u r (if cond then ((r.pc : Int) + wImm w).toNat else r.pc + 1) ∧ t.mem = s.mem ∧ t.out = s.out)) ∧
  (∀ (c : Instr) (op : Nat) (v : DWord) (u : Fin 64) (j : DrsJob) (w : DWord) (r : DrsRun) (s : State), r = (drsUnit s u).run →
    (c, op, v) ∈ [(Instr.drsSli u, 0x10, BitVec.ofInt 64 (wImm w)), (.drsSaddi u, 0x11, rS r (wA w) + BitVec.ofInt 64 (wImm w)),
      (.drsSadd u, 0x12, rS r (wA w) + rS r (wB w)), (.drsSsub u, 0x13, rS r (wA w) - rS r (wB w)),
      (.drsSmul u, 0x14, rS r (wA w) * rS r (wB w)), (.drsSand u, 0x15, rS r (wA w) &&& rS r (wB w)),
      (.drsSor u, 0x16, rS r (wA w) ||| rS r (wB w)), (.drsSxor u, 0x17, rS r (wA w) ^^^ rS r (wB w)),
      (.drsSshli u, 0x18, rS r (wA w) <<< (wImmU w % 64)), (.drsSshri u, 0x19, rS r (wA w) >>> (wImmU w % 64)),
      (.drsSori u, 0x1A, rS r (wA w) ||| BitVec.ofNat 64 (wImmU w)),
      (.drsSext u, 0x1D, (lane (rT r (wA w)) (wImmU w % 256)).zeroExtend 64),
      (.drsMcnt u, 0x67, BitVec.ofNat 64 (((List.range 256).filter fun i => decide (i < r.vl) && (rM r (wA w)).getLsbD i).length))] →
    Issues s u op j w → Completes c s fun t =>
      ∃ r', Executed s t u r' (r.pc + 1) ∧ (∀ n, n < 16 → rS r' n = if n = wD w % 16 then v else rS r n)
        ∧ r' = { r with s := r'.s } ∧ t.mem = s.mem ∧ t.out = s.out)

/-- R182, Tables 6.4 and 6.5: the mask instructions and TCMP write the active bits of M[D]; the others keep their value or are 0.

R149, R198, R199: a permutation gives each active lane the lane it names, or zeros where that lies at or above VL; each such lane is
counted in DRS_PERM_LANES (Table 6.12), and one sets PERM_RANGE. TCOMPRESS brings the masked lanes to the front in order, with zeros
behind and their number in S[B]; TEXPAND takes the leading lanes to the masked ones. -/
def Obligations.MasksAndPermutations : Prop :=
  (∀ (c : Instr) (op : Nat) (f : Nat → Bool) (u : Fin 64) (j : DrsJob) (w : DWord) (r : DrsRun) (s : State), r = (drsUnit s u).run →
    (c = .drsMand u ∧ op = 0x62 ∧ (f = fun i => (rM r (wA w)).getLsbD i && (rM r (wB w)).getLsbD i)
      ∨ c = .drsMor u ∧ op = 0x63 ∧ (f = fun i => (rM r (wA w)).getLsbD i || (rM r (wB w)).getLsbD i)
      ∨ c = .drsMxor u ∧ op = 0x64 ∧ (f = fun i => (rM r (wA w)).getLsbD i != (rM r (wB w)).getLsbD i)
      ∨ c = .drsMnot u ∧ op = 0x65 ∧ (f = fun i => !(rM r (wA w)).getLsbD i)
      ∨ c = .drsMset u ∧ op = 0x66 ∧ (f = fun _ => true)
      ∨ c = .drsTcmp u ∧ op = 0x60 ∧ (f = fun i => condition (wImmU w % 8) (scalarDecode (wFmt w) (lane (rT r (wA w)) i).toNat)
          (scalarDecode (wFmt w) (lane (rT r (wB w)) i).toNat)) ∧ subCount (wFmt w) = 1) →
    Issues s u op j w → Completes c s fun t =>
      ∃ m, Executed s t u (setM (wD w) m r) (r.pc + 1) ∧ Bits r w (rM r (wD w)) m f ∧ t.mem = s.mem ∧ t.out = s.out) ∧
  (∀ (u : Fin 64) (j : DrsJob) (w : DWord) (r : DrsRun) (s : State), r = (drsUnit s u).run →
    (∀ (c : Instr) (op : Nat) (src : Nat → Nat),
      (c = .drsTperm u ∧ op = 0x68 ∧ (src = fun i => (lane (rT r (wB w)) i).toNat)
        ∨ c = .drsTtrn u ∧ op = 0x69 ∧ (src = fun i => 16 * (i % 16) + i / 16)
        ∨ c = .drsTbcl u ∧ op = 0x6A ∧ (src = fun _ => wImmU w % 256)) →
      Issues s u op j w → Completes c s fun t =>
        ∃ x p, Executed s t u { setT (wD w) x r with permRange := r.permRange || p } (r.pc + 1)
          ∧ Lanes r w (rT r (wD w)) x (fun i => if src i < r.vl then lane (rT r (wA w)) (src i) else 0)
          ∧ (p = true ↔ ∃ i, i < 256 ∧ active r w i = true ∧ r.vl ≤ src i) ∧ (p = true → flagUp t .drs 4 = true)
          ∧ Counted s t cDrsPerm ((List.range 256).filter fun i => active r w i && decide (r.vl ≤ src i)).length
          ∧ t.mem = s.mem ∧ t.out = s.out) ∧
    (∀ ls : List Nat, (ls = (List.range 256).filter fun i => decide (i < r.vl) && (rM r (wMsel w)).getLsbD i) →
      (Issues s u 0x6B j w → Completes (.drsTcompress u) s fun t =>
        ∃ x, Executed s t u (setS (wB w) (BitVec.ofNat 64 ls.length) (setT (wD w) x r)) (r.pc + 1)
          ∧ (∀ i, i < 256 → lane x i = if i < ls.length then lane (rT r (wA w)) (ls.getD i 0) else 0) ∧ t.mem = s.mem) ∧
      (Issues s u 0x6C j w → Completes (.drsTexpand u) s fun t =>
        ∃ x, Executed s t u (setT (wD w) x r) (r.pc + 1) ∧ t.mem = s.mem
          ∧ (∀ k, k < ls.length → lane x (ls.getD k 0) = lane (rT r (wA w)) k)
          ∧ (∀ i, i < 256 → i ∉ ls → lane x i = if wZero w then 0 else lane (rT r (wD w)) i))))

/-- R182, Table 6.4: the moves, the bitwise operations and the shifts write the active lanes of T[D]; the others keep their value or are 0.
TSEL chooses by the mask in the lanes below VL, whatever is active. -/
def Obligations.LaneMoves : Prop :=
  ∀ (u : Fin 64) (j : DrsJob) (w : DWord) (r : DrsRun) (s : State), r = (drsUnit s u).run →
    (∀ (c : Instr) (op : Nat) (f : Nat → Word),
      (c = .drsTbc u ∧ op = 0x20 ∧ (f = fun _ => (rS r (wA w)).truncate 32)
        ∨ c = .drsTmov u ∧ op = 0x21 ∧ f = lane (rT r (wA w))
        ∨ c = .drsTiota u ∧ op = 0x22 ∧ f = BitVec.ofNat 32
        ∨ c = .drsTand u ∧ op = 0x50 ∧ (f = fun i => lane (rT r (wA w)) i &&& lane (rT r (wB w)) i)
        ∨ c = .drsTor u ∧ op = 0x51 ∧ (f = fun i => lane (rT r (wA w)) i ||| lane (rT r (wB w)) i)
        ∨ c = .drsTxor u ∧ op = 0x52 ∧ (f = fun i => lane (rT r (wA w)) i ^^^ lane (rT r (wB w)) i)
        ∨ c = .drsTshl u ∧ op = 0x53 ∧ (f = fun i => lane (rT r (wA w)) i <<< (wImmU w % 32))
        ∨ c = .drsTshr u ∧ op = 0x54 ∧ (f = fun i => lane (rT r (wA w)) i >>> (wImmU w % 32))
        ∨ c = .drsTsra u ∧ op = 0x55 ∧ (f = fun i => (lane (rT r (wA w)) i).sshiftRight (wImmU w % 32))
        ∨ c = .drsTunpk u ∧ op = 0x5A ∧ (f = fun i => BitVec.ofNat 32 (fp32Exact (scalarDecode (wFmt w)
            (subOf (subCount (wFmt w)) (wImmU w % 4) (lane (rT r (wA w)) i)))))) →
      Issues s u op j w → Completes c s fun t =>
        ∃ x, Executed s t u (setT (wD w) x r) (r.pc + 1) ∧ Lanes r w (rT r (wD w)) x f ∧ t.mem = s.mem ∧ t.out = s.out) ∧
    (Issues s u 0x61 j w → Completes (.drsTsel u) s fun t =>
      ∃ x, Executed s t u (setT (wD w) x r) (r.pc + 1) ∧ t.mem = s.mem ∧ t.out = s.out ∧
        ∀ i, i < 256 → lane x i = if i < r.vl then (if (rM r (wMsel w)).getLsbD i then lane (rT r (wA w)) i else lane (rT r (wB w)) i)
          else if wZero w then 0 else lane (rT r (wD w)) i)

/-- R142, R183, R188 to R190: lane arithmetic and conversion. Each sub-element of an active lane is the exact value rounded once to the
format, by RND and at the element's own generator index, with OVF; an overflow sets OVERFLOW and its flag. The index of TCVT (DEDUCED,
log entry 82) and the value of TEX2 and TLG2 within 1 ulp (R189; the model's choice, log entry 4) are not the spec's.

R190, R191, R125: TRND rounds an FP32 lane to a value of FMT and keeps it as FP32, TPACK rounds one into a sub-element and leaves the
lane's others; WFMA and WFROM write M40 values, bits 39 to 8 in the even tile of the pair and bits 7 to 0 in the odd one. The index of
TRND and TPACK (log entry 82) and what WFROM makes of a NaN (log entry 86) are DEDUCED. -/
def Obligations.LaneResultsAreRoundedOnce : Prop :=
  (∀ (c : Instr) (op q : Nat) (e : Nat → Nat → Coded) (v : Nat → Nat → XVal) (u : Fin 64) (j : DrsJob) (w : DWord) (r : DrsRun)
    (a b d : Nat → Nat → XVal) (s : State), r = (drsUnit s u).run →
    (a = fun i p => scalarDecode (wFmt w) (subOf (subCount (wFmt w)) p (lane (rT r (wA w)) i))) →
    (b = fun i p => scalarDecode (wFmt w) (subOf (subCount (wFmt w)) p (lane (rT r (wB w)) i))) →
    (d = fun i p => scalarDecode (wFmt w) (subOf (subCount (wFmt w)) p (lane (rT r (wC w)) i))) →
    ((q = subCount (wFmt w) ∧ (e = fun i p => scalarEncode (wFmt w)
        (rndOf (wRnd w) (curStep s j.ref.ctx) r.key.tensor.toNat (laneIndex r q p i)) (wSat w) (v i p)) ∧
        (c = .drsTadd u ∧ op = 0x40 ∧ (v = fun i p => (a i p).add (b i p))
          ∨ c = .drsTsub u ∧ op = 0x41 ∧ (v = fun i p => (a i p).add (b i p).negate)
          ∨ c = .drsTmul u ∧ op = 0x42 ∧ (v = fun i p => (a i p).mul (b i p))
          ∨ c = .drsTfma u ∧ op = 0x43 ∧ (v = fun i p => ((a i p).mul (b i p)).add (d i p))
          ∨ c = .drsTmax u ∧ op = 0x44 ∧ (v = fun i p => (a i p).maximum (b i p))
          ∨ c = .drsTmin u ∧ op = 0x45 ∧ (v = fun i p => (a i p).minimum (b i p))
          ∨ c = .drsTabs u ∧ op = 0x46 ∧ (v = fun i p => (a i p).abs)
          ∨ c = .drsTneg u ∧ op = 0x47 ∧ (v = fun i p => (a i p).negate)
          ∨ c = .drsTdiv u ∧ op = 0x48 ∧ (v = fun i p => (a i p).div (b i p))
          ∨ c = .drsTsqrt u ∧ op = 0x49 ∧ (v = fun i p => xSqrt (a i p))
          ∨ c = .drsTrcp u ∧ op = 0x4A ∧ (v = fun i p => (XVal.fin false 1 1).div (a i p))
          ∨ c = .drsTrsq u ∧ op = 0x4B ∧ (v = fun i p => xRsqrt (a i p))))
      ∨ (q = 1 ∧ (c = .drsTex2 u ∧ op = 0x4C ∧ (e = fun i _ => ex2 (lane (rT r (wA w)) i).toNat)
          ∨ c = .drsTlg2 u ∧ op = 0x4D ∧ (e = fun i _ => lg2 (lane (rT r (wA w)) i).toNat)
          ∨ c = .drsTcvt u ∧ op = 0x58 ∧ (e = fun i _ => scalarEncode (wFmt w)
              (rndOf (wRnd w) (curStep s j.ref.ctx) r.key.tensor.toNat (laneIndex r 1 0 i)) (wSat w)
              (scalarDecode (wFmt2 w) (lane (rT r (wA w)) i).toNat))
          ∨ c = .drsWcvt u ∧ op = 0x79 ∧ (e = fun i _ => fpEncode fpFp32
              (rndOf (wRnd w) (curStep s j.ref.ctx) r.key.tensor.toNat (laneIndex r 1 0 i)) false
              (fpDecode fpM40 ((lane (rT r (wA w)) i).toNat * 256 + (lane (rT r (wA w + 1)) i).toNat % 256)))))) →
    Issues s u op j w → Completes c s fun t =>
      ∃ x fl, Executed s t u (addEvents fl (setT (wD w) x r)) (r.pc + 1)
        ∧ Lanes r w (rT r (wD w)) x (fun i => joinSubs q ((List.range q).map fun p => (e i p).bits))
        ∧ (fl.overflow = true ↔ ∃ i p, i < 256 ∧ active r w i = true ∧ p < q ∧ (e i p).flags.overflow = true)
        ∧ (fl.overflow = true → flagUp t .drs 3 = true) ∧ t.mem = s.mem ∧ t.out = s.out) ∧
  (∀ (u : Fin 64) (j : DrsJob) (w : DWord) (r : DrsRun) (rnd : Nat → Rnd) (s : State), r = (drsUnit s u).run →
    (Issues s u 0x59 j w → (rnd = fun i => rndOf (wRnd w) (curStep s j.ref.ctx) r.key.tensor.toNat (laneIndex r 1 0 i)) →
      Completes (.drsTrnd u) s fun t =>
        ∃ x fl, Executed s t u (addEvents fl (setT (wD w) x r)) (r.pc + 1) ∧ t.mem = s.mem
          ∧ Lanes r w (rT r (wD w)) x (fun i => BitVec.ofNat 32 (fp32Exact (scalarDecode (wFmt w)
              (scalarEncode (wFmt w) (rnd i) (wSat w) (fpDecode fpFp32 (lane (rT r (wA w)) i).toNat)).bits)))) ∧
    (∀ k q, Issues s u 0x5B j w → q = subCount (wFmt w) → k = wImmU w % 4 → k < q →
      (rnd = fun i => rndOf (wRnd w) (curStep s j.ref.ctx) r.key.tensor.toNat (laneIndex r q k i)) →
      Completes (.drsTpack u) s fun t =>
        ∃ x fl, Executed s t u (addEvents fl (setT (wD w) x r)) (r.pc + 1) ∧ t.mem = s.mem
          ∧ Lanes r w (rT r (wD w)) x (fun i => joinSubs q ((List.range q).map fun p => if p = k then
              (scalarEncode (wFmt w) (rnd i) (wSat w) (fpDecode fpFp32 (lane (rT r (wA w)) i).toNat)).bits
              else subOf q p (lane (rT r (wD w)) i)))) ∧
    (∀ (c : Instr) (op : Nat) (e : Nat → Coded),
      (rnd = fun i => rndOf (wRnd w) (curStep s j.ref.ctx) r.key.tensor.toNat (laneIndex r 1 0 i)) →
      (c = .drsWfma u ∧ op = 0x78 ∧ (e = fun i => fpEncode fpM40 (rnd i) false
          (((fpDecode fpM40 ((lane (rT r (wA w)) i).toNat * 256 + (lane (rT r (wA w + 1)) i).toNat % 256)).mul
            (fpDecode fpFp32 (lane (rT r (wB w)) i).toNat)).add (fpDecode fpFp32 (lane (rT r (wC w)) i).toNat)))
        ∨ c = .drsWfrom u ∧ op = 0x7A ∧ (e = fun i => fpEncode fpM40 .nearest false (fpDecode fpFp32 (lane (rT r (wA w)) i).toNat))) →
      Issues s u op j w → Completes c s fun t =>
        ∃ hi lo fl, Executed s t u (addEvents fl (setT (wD w + 1) lo (setT (wD w) hi r))) (r.pc + 1) ∧ t.mem = s.mem
          ∧ Lanes r w (rT r (wD w)) hi (fun i => BitVec.ofNat 32 ((e i).bits / 256))
          ∧ Lanes r w (rT r (wD w + 1)) lo (fun i => BitVec.ofNat 32 ((e i).bits % 256))))

/-- R147, R148, R200, R201: a full reduction gives S[D] the active lanes' sum, maximum or minimum, rounded once, or the identity where none
is active, which sets EMPTY; an arg-reduction also gives S[C] the lowest lane that holds it, all ones where none is active; a row
reduction gives each active lane the reduction of its row. -/
def Obligations.Reductions : Prop :=
  ∀ (u : Fin 64) (j : DrsJob) (w : DWord) (r : DrsRun) (ls : List Nat) (val : Nat → XVal) (s : State), r = (drsUnit s u).run →
    (ls = (List.range 256).filter fun i => active r w i) → (val = fun i => scalarDecode (wFmt w) (lane (rT r (wA w)) i).toNat) →
    subCount (wFmt w) = 1 →
    (∀ (c : Instr) (op : Nat) (k : Reduction) (v : Coded),
      (c, op, k) ∈ [(Instr.drsTrsum u, 0x70, Reduction.sum), (.drsTrmax u, 0x71, .max), (.drsTrmin u, 0x72, .min)] →
      v = scalarEncode (wFmt w) (rndOf (wRnd w) (curStep s j.ref.ctx) r.key.tensor.toNat r.key.base.toNat) (wSat w)
        (k.fold (wFmt w) (ls.map val)) →
      Issues s u op j w → Completes c s fun t =>
        Executed s t u { addEvents v.flags (setS (wD w) (BitVec.ofNat 64 v.bits) r) with empty := r.empty || ls.isEmpty } (r.pc + 1)
          ∧ (ls = [] → flagUp t .drs 5 = true) ∧ t.mem = s.mem) ∧
    (∀ (c : Instr) (op : Nat) (k : Reduction) (v : Coded),
      (c, op, k) ∈ [(Instr.drsTramax u, 0x73, Reduction.max), (.drsTramin u, 0x74, .min)] →
      v = scalarEncode (wFmt w) (rndOf (wRnd w) (curStep s j.ref.ctx) r.key.tensor.toNat r.key.base.toNat) (wSat w)
        (k.fold (wFmt w) (ls.map val)) →
      Issues s u op j w → Completes c s fun t =>
        ∃ i, Executed s t u { addEvents v.flags (setS (wC w) (BitVec.ofNat 64 i) (setS (wD w) (BitVec.ofNat 64 v.bits) r)) with
            empty := r.empty || ls.isEmpty } (r.pc + 1)
          ∧ (ls = [] → i = 0xFFFFFFFF) ∧ t.mem = s.mem
          ∧ (ls ≠ [] → i ∈ ls ∧ val i = k.fold (wFmt w) (ls.map val) ∧ ∀ l ∈ ls, val l = k.fold (wFmt w) (ls.map val) → i ≤ l)) ∧
    (∀ (c : Instr) (op : Nat) (k : Reduction) (row : Nat → Coded),
      (c, op, k) ∈ [(Instr.drsTrrsum u, 0x75, Reduction.sum), (.drsTrrmax u, 0x76, .max), (.drsTrrmin u, 0x77, .min)] →
      (row = fun a => scalarEncode (wFmt w) (rndOf (wRnd w) (curStep s j.ref.ctx) r.key.tensor.toNat
        ((r.key.base.toNat + a * r.key.pitch.toNat) % 2 ^ 64)) (wSat w)
        (k.fold (wFmt w) ((ls.filter fun i => i / 16 == a).map val))) →
      Issues s u op j w → Completes c s fun t =>
        ∃ x fl e, Executed s t u { addEvents fl (setT (wD w) x r) with empty := r.empty || e } (r.pc + 1)
          ∧ Lanes r w (rT r (wD w)) x (fun i => BitVec.ofNat 32 (row (i / 16)).bits)
          ∧ (e = true ↔ ∃ a, a < 16 ∧ ∀ i ∈ ls, i / 16 ≠ a) ∧ t.mem = s.mem)

/-- R192, R193, R195, R204, Table 6.4: a load whose accesses are aligned and permitted takes its data at once and is outstanding until
DRS_LOAD_RETURN delivers the oldest one to its register. Memory is as it was. That a load takes its data at issue (log entry 80) and
which bits MLD loads (log entry 79) is DEDUCED.

R192, R196, R197, R211, Table 6.4: a store whose accesses are aligned and permitted writes its bytes when it executes, and no byte
outside them; a tile store adds its elements to its stream. The bytes of MST (log entry 79) and the index of TSTC (log entry 82) are
DEDUCED.

R193 to R195, R128, R132: the stores of blocks. TSTS writes each byte of sign codes that holds an active lane; TSTX and TSTQ write each
block that holds one: where the active lanes lie in one block, its scale and its elements stand in their places. -/
def Obligations.LoadsAndStores : Prop :=
  (∀ (u : Fin 64) (j : DrsJob) (w : DWord) (r : DrsRun) (c : InsnCtx) (a : Nat) (s : State), r = (drsUnit s u).run →
    c = ⟨s, u, j.ref, w⟩ → a = (rS r (wA w) + BitVec.ofInt 64 (wImm w)).toNat →
    (Issues s u 0x1B j w → a % 8 = 0 → permitted s j.ref.ctx a 8 true false = true → Completes (.drsSld u) s fun t =>
      Executed s t u { r with loads := r.loads ++ [.scalar (wD w) (BitVec.ofNat 64 (readNat s a 8))] } (r.pc + 1)
        ∧ t.mem.cells = s.mem.cells) ∧
    (Issues s u 0x33 j w → a % 8 = 0 → permitted s j.ref.ctx a 32 true false = true → Completes (.drsMld u) s fun t =>
      ∃ m, Executed s t u { r with loads := r.loads ++ [.mask (wD w) m] } (r.pc + 1)
        ∧ Bits r w (rM r (wD w)) m (fun i => (readNat s a 32).testBit i) ∧ t.mem.cells = s.mem.cells) ∧
    (∀ (i : Instr) (op n align : Nat) (conv : Nat → Nat),
      (i = .drsTld u ∧ op = 0x28 ∧ n = 4 ∧ align = 4 ∧ conv = id
        ∨ i = .drsTldc u ∧ op = 0x29 ∧ n = elemBytes (wFmt w) ∧ align = n
          ∧ (conv = fun v => if wFmt w = 0 then v else fp32Exact (scalarDecode (wFmt w) v))) →
      Issues s u op j w →
      (∀ l, l < 256 → active r w l = true → laneAddr c r l % align = 0 ∧ permitted s j.ref.ctx (laneAddr c r l) n true false = true) →
      Completes i s fun t =>
        ∃ x fl, Executed s t u (addEvents fl { r with loads := r.loads ++ [.tile (wD w) x] }) (r.pc + 1)
          ∧ Lanes r w (rT r (wD w)) x (fun l => BitVec.ofNat 32 (conv (readNat s (laneAddr c r l) n))) ∧ t.mem.cells = s.mem.cells) ∧
    (Issues s u 0x2A j w → (rS r (wC w)).toNat % 32 = 0 →
      (∀ l, l < 256 → active r w l = true → permitted s j.ref.ctx (mxAddrs c r l).1 1 true false = true
        ∧ permitted s j.ref.ctx (mxAddrs c r l).2 1 true false = true) → Completes (.drsTldx u) s fun t =>
        ∃ x fl, Executed s t u (addEvents fl { r with loads := r.loads ++ [.tile (wD w) x] }) (r.pc + 1)
          ∧ Lanes r w (rT r (wD w)) x (fun l => BitVec.ofNat 32 (fpEncode fpFp32
              (rndOf (wRnd w) (curStep s j.ref.ctx) r.key.tensor.toNat (laneIndex r 1 0 l)) false
              (mxDecode (wFmt w) (readNat s (mxAddrs c r l).2 1)
                (mxPick (wFmt w) (mxPlace c r l).2 (readNat s (mxAddrs c r l).1 1)))).bits)
          ∧ t.mem.cells = s.mem.cells) ∧
    (Issues s u 0x2B j w → a % 8 = 0 →
      (∀ l, l < 256 → active r w l = true → permitted s j.ref.ctx (signAddr c r l) 1 true false = true) →
      Completes (.drsTlds u) s fun t =>
        ∃ x fl, Executed s t u (addEvents fl { r with loads := r.loads ++ [.tile (wD w) x] }) (r.pc + 1)
          ∧ Lanes r w (rT r (wD w)) x (fun l => BitVec.ofNat 32 (fp32Exact
              (.ofInt (sgn2Decode (sgn2Code (readNat s (signAddr c r l) 1) l)).1)))
          ∧ t.mem.cells = s.mem.cells) ∧
    (Issues s u 0x31 j w →
      (∀ l, l < 256 → active r w l = true → permitted s j.ref.ctx (laneAddr c r l) 5 true false = true) →
      Completes (.drsWld u) s fun t =>
        ∃ hi lo, Executed s t u { r with loads := r.loads ++ [.pair (wD w) hi lo] } (r.pc + 1)
          ∧ Lanes r w (rT r (wD w)) hi (fun l => BitVec.ofNat 32 (readNat s (laneAddr c r l) 5 / 256))
          ∧ Lanes r w (rT r (wD w + 1)) lo (fun l => BitVec.ofNat 32 (readNat s (laneAddr c r l) 5 % 256)) ∧ t.mem.cells = s.mem.cells) ∧
    (∀ d ls, (∀ v, r.loads = .scalar d v :: ls → Completes (.drsLoadReturn u) s fun t =>
        (drsUnit t u).run = setS d v { r with loads := ls } ∧ t.mem = s.mem) ∧
      (∀ v, r.loads = .mask d v :: ls → Completes (.drsLoadReturn u) s fun t =>
        (drsUnit t u).run = setM d v { r with loads := ls } ∧ t.mem = s.mem) ∧
      (∀ x, r.loads = .tile d x :: ls → Completes (.drsLoadReturn u) s fun t =>
        (drsUnit t u).run = setT d x { r with loads := ls } ∧ t.mem = s.mem) ∧
      (∀ hi lo, r.loads = .pair d hi lo :: ls → Completes (.drsLoadReturn u) s fun t =>
        (drsUnit t u).run = setT d hi (setT (d + 1) lo { r with loads := ls }) ∧ t.mem = s.mem))) ∧
  (∀ (u : Fin 64) (j : DrsJob) (w : DWord) (r : DrsRun) (c : InsnCtx) (a : Nat) (s : State), r = (drsUnit s u).run →
    c = ⟨s, u, j.ref, w⟩ → a = (rS r (wA w) + BitVec.ofInt 64 (wImm w)).toNat →
    (∀ (i : Instr) (op n : Nat) (v : Nat),
      (i = .drsSst u ∧ op = 0x1C ∧ n = 8 ∧ v = (rS r (wD w)).toNat ∨ i = .drsMst u ∧ op = 0x34 ∧ n = 32 ∧ v = (rM r (wD w)).toNat) →
      Issues s u op j w → a % 8 = 0 → permitted s j.ref.ctx a n false true = true → Completes i s fun t =>
        Executed s t u r (r.pc + 1) ∧ (∀ k, k < n → tabGet 0 t.mem.cells (a + k) = byteAt (leBytes n v) k)
          ∧ (∀ x, x < a ∨ a + n ≤ x → tabGet 0 t.mem.cells x = tabGet 0 s.mem.cells x) ∧ t.out = s.out) ∧
    (∀ (i : Instr) (op n align : Nat) (v : Nat → Nat),
      (i = .drsTst u ∧ op = 0x2C ∧ n = 4 ∧ align = 4 ∧ (v = fun l => (lane (rT r (wD w)) l).toNat)
        ∨ i = .drsTstc u ∧ op = 0x2D ∧ n = elemBytes (wFmt w) ∧ align = n ∧ (v = fun l => (scalarEncode (wFmt w)
            (rndOf (wRnd w) (curStep s j.ref.ctx) r.key.tensor.toNat (laneIndex r 1 0 l)) (wSat w)
            (fpDecode fpFp32 (lane (rT r (wD w)) l).toNat)).bits)
        ∨ i = .drsWst u ∧ op = 0x32 ∧ n = 5 ∧ align = 1
          ∧ (v = fun l => (lane (rT r (wD w)) l).toNat * 256 + (lane (rT r (wD w + 1)) l).toNat % 256)) →
      Issues s u op j w →
      (∀ l, l < 256 → active r w l = true → laneAddr c r l % align = 0 ∧ permitted s j.ref.ctx (laneAddr c r l) n false true = true) →
      Completes i s fun t =>
        (∃ h fl, Executed s t u (addEvents fl { r with streams := tabSet none r.streams (wFmt2 w) (some h) }) (r.pc + 1))
          ∧ (∀ l k, l < 256 → active r w l = true → k < n →
              (∀ m, l < m → m < 256 → active r w m = true → laneAddr c r m + n ≤ laneAddr c r l ∨ laneAddr c r l + n ≤ laneAddr c r m) →
              tabGet 0 t.mem.cells (laneAddr c r l + k) = byteAt (leBytes n (v l)) k)
          ∧ (∀ x, (∀ l, l < 256 → active r w l = true → x < laneAddr c r l ∨ laneAddr c r l + n ≤ x) →
              tabGet 0 t.mem.cells x = tabGet 0 s.mem.cells x) ∧ t.out = s.out)) ∧
  (∀ (u : Fin 64) (j : DrsJob) (w : DWord) (r : DrsRun) (c : InsnCtx) (rnd : Nat → Rnd) (s : State), r = (drsUnit s u).run →
    c = ⟨s, u, j.ref, w⟩ → (rnd = fun l => rndOf (wRnd w) (curStep s j.ref.ctx) r.key.tensor.toNat (laneIndex r 1 0 l)) →
    (Issues s u 0x30 j w → (baseAddr c r).toNat % 8 = 0 →
      (∀ l, l < 256 → active r w l = true → permitted s j.ref.ctx (signAddr c r l) 1 false true = true) →
      Completes (.drsTsts u) s fun t =>
        (∃ h fl, Executed s t u (addEvents fl { r with streams := tabSet none r.streams (wFmt2 w) (some h) }) (r.pc + 1))
          ∧ (∀ b, b < 64 → (∃ l, l / 4 = b ∧ active r w l = true) → tabGet 0 t.mem.cells (signAddr c r (4 * b)) =
              BitVec.ofNat 8 (sgn2Byte ((List.range 4).map fun k =>
                if active r w (4 * b + k) then (sgn2Encode (fpDecode fpFp32 (lane (rT r (wD w)) (4 * b + k)).toNat)).1 else 0)))
          ∧ (∀ x, (∀ l, l < 256 → active r w l = true → x ≠ signAddr c r l) → tabGet 0 t.mem.cells x = tabGet 0 s.mem.cells x)) ∧
    (Issues s u 0x2F j w → (∀ l, l < 256 → active r w l = true → dq8Addr c r (l / 128) % 16 = 0
        ∧ permitted s j.ref.ctx (dq8Addr c r (l / 128)) 144 false true = true) → Completes (.drsTstq u) s fun t =>
        (∃ h fl, Executed s t u (addEvents fl { r with streams := tabSet none r.streams (wFmt2 w) (some h) }) (r.pc + 1))
          ∧ ∀ b, b < 2 → (∃ l, l < 256 ∧ active r w l = true) → (∀ l, l < 256 → active r w l = true → l / 128 = b) →
              ∀ k, k < 144 → tabGet 0 t.mem.cells (dq8Addr c r b + k) =
                byteAt (dq8Bytes (dq8EncodeBlock (fun k => rnd (128 * b + k)) (blockVals c r (128 * b) 128))) k) ∧
    (Issues s u 0x2E j w → (rS r (wC w)).toNat % 32 = 0 → (∀ l, l < 256 → active r w l = true →
        permitted s j.ref.ctx (mxAddrs c r l).1 1 false true = true ∧ permitted s j.ref.ctx (mxAddrs c r l).2 1 false true = true) →
      Completes (.drsTstx u) s fun t =>
        (∃ h fl, Executed s t u (addEvents fl { r with streams := tabSet none r.streams (wFmt2 w) (some h) }) (r.pc + 1))
          ∧ ∀ b blk, b < 8 → (∃ l, l < 256 ∧ active r w l = true) → (∀ l, l < 256 → active r w l = true → l / 32 = b) →
              blk = mxEncodeBlock (wFmt w) (fun k => rnd (32 * b + k)) (blockVals c r (32 * b) 32) →
              (mxAddrs c r (32 * b)).2 + 1 ≤ (mxAddrs c r (32 * b)).1 ∨ (mxAddrs c r (32 * b)).1 + 32 ≤ (mxAddrs c r (32 * b)).2 →
              tabGet 0 t.mem.cells (mxAddrs c r (32 * b)).2 = BitVec.ofNat 8 blk.scale
                ∧ ∀ k, k < (mxBytes (wFmt w) blk.elems).length →
                    tabGet 0 t.mem.cells ((mxAddrs c r (32 * b)).1 + k) = byteAt (mxBytes (wFmt w) blk.elems) k))

/-- R217, R220, R221: a STEP_BEGIN that passes validation (the first after a context reset fixes the step ring) stages its commit: the
attempt is made at once where the step has no rule or its rule input is present (R237: its stamp is the step and its checksum holds);
else the commit waits for that.

R221, R237, R238: a commit that waits for its rule input goes on where that is present, by its own command and at the end of STAMP_WAIT
alike, and the rules make their choices from it; where it is not present at the end of STAMP_WAIT, nothing is committed and the
STEP_BEGIN completes with RULE_INPUT_STALE. -/
def Obligations.StepsBeginWithTheirRule : Prop :=
  (∀ (ctx : Fin 16) (ring : Fin 8) (a : Accepted) (c : List Byte) (s : State), canonical s = true → Dispatches s ctx ring 0x11 a →
    (beginStatus (modStepCtx ctx (fun x => { x with ring := some (x.ring.getD ring) }) s) ctx ring a.bytes).1 = 0 →
    c = readMem s (stepCtrlAddr a.bytes) 128 →
    (ctrlRuleCount c = 0 → Completes (.stepBegin ctx ring) s fun t => (stepCtx t ctx).ring = some ring.val ∧
      Safety.Attempted s t ctx (stepNumber a.bytes) a.ref fun d => !stepRepeat a.bytes && readyFor ctx (drawer s d)) ∧
    (ctrlRuleCount c ≠ 0 → readNat s (ctrlRuleInputAddr c) 8 = stepNumber a.bytes →
      readNat s (ctrlRuleInputAddr c + 8) 4 = crc32c (readMem s (ctrlRuleInputAddr c + 64) (320 * ctrlRuleCount c)) →
      Completes (.stepBegin ctx ring) s fun t => (stepCtx t ctx).ring = some ring.val ∧
        Safety.Attempted s t ctx (stepNumber a.bytes) a.ref fun d => !stepRepeat a.bytes && readyFor ctx (drawer s d)) ∧
    (ctrlRuleCount c ≠ 0 → (readNat s (ctrlRuleInputAddr c) 8 ≠ stepNumber a.bytes ∨
        readNat s (ctrlRuleInputAddr c + 8) 4 ≠ crc32c (readMem s (ctrlRuleInputAddr c + 64) (320 * ctrlRuleCount c))) →
      Completes (.stepBegin ctx ring) s fun t =>
      (stepCtx t ctx).ring = some ring.val ∧ t.drawers = s.drawers ∧ t.mod = s.mod ∧ (Safety.GoodHeaders s ctx ring → t.out = s.out)
        ∧ ∃ o, (stepCtx t ctx).opened = some o ∧ o.num = stepNumber a.bytes ∧ o.begun = false ∧ o.wait = .ruleInput
          ∧ o.readyAt = readyDrawers s ctx ∧ o.trimsAt = stagedDrawers s ctx)) ∧
  (∀ (ctx : Fin 16) (o : OpenStep) (s : State), (stepCtx s ctx).opened = some o → o.begun = false → o.wait = .ruleInput →
    o.readyAt.Nodup → (findDesc s o.ref).isSome = true →
    (∀ (c : Instr) (body : List Byte), c = .ruleInputPresent ctx ∨ c = .ruleInputStaleTimeout ctx → ctrlRuleCount o.ctrl ≠ 0 →
      ruleInput s o = some body → Completes c s fun t =>
        Safety.Attempted s t ctx o.num o.ref (fun d => !o.repeated && o.readyAt.contains d && readyFor ctx (drawer s d))
          ∧ (o.trimsAt = [] → ∃ o', (stepCtx t ctx).opened = some o' ∧ o'.choices = (List.range (ctrlRuleCount o.ctrl)).map fun i =>
              evaluateRule (readMem s (ctrlRuleAddr o.ctrl + 32 * i) 32) ((body.drop (320 * i)).take 292))) ∧
    (ruleInput s o = none → Completes (.ruleInputStaleTimeout ctx) s fun t =>
      (stepCtx t ctx).opened = none ∧ t.drawers = s.drawers ∧ t.mod = s.mod ∧ ∃ tail, Ended s t o.ref 0x0186 (leBytes 8 o.num ++ tail)))

/-- R242, R243, R247, R357: a STEP_GATE of an open training step completes with success where the step-size table is captured, or is current
and passes its checks, and then, unless it read an uncorrectable codeword, the step is released; it completes with STEPSIZE_INVALID
where the table has its stamp and no valid COUNT, and waits where the stamp is another.

R242, R243: where the table becomes current, and no codeword is in error, the oldest waiting gate passes, and its completion says how
long it waited, in µs; at the end of STAMP_WAIT the same holds, and where the table is not current that gate completes with
STEPSIZE_STALE. -/
def Obligations.GatesPassOrWait : Prop :=
  (∀ (ctx : Fin 16) (ring : Fin 8) (a : Accepted) (o : OpenStep) (s : State), Dispatches s ctx ring 0x12 a →
    (stepCtx s ctx).opened = some o → (stepCtx s ctx).ring = some ring.val → o.begun = true → o.mode ≠ 4 →
    (∀ n crc, o.captured = some (n, crc) ∨ o.captured = none ∧ findSizes s o = .good n crc → Completes (.stepGate ctx ring) s fun t =>
      (∃ k, Ended s t a.ref 0 (leBytes 8 o.num ++ leBytes 4 0 ++ leBytes 2 k))
        ∧ (∃ o', (stepCtx t ctx).opened = some o' ∧ o'.captured = some (n, crc))
        ∧ (s.mem.errs = [] → (∀ d, findDesc s a.ref = some d → d.poisoned = false) →
            Ended s t a.ref 0 (leBytes 8 o.num ++ leBytes 4 0 ++ leBytes 2 n) ∧ (stepCtx t ctx).lastGate = true
              ∧ ∃ o', (stepCtx t ctx).opened = some o' ∧ o'.gatePassed = true)) ∧
    (o.captured = none → findSizes s o = .invalid → Completes (.stepGate ctx ring) s fun t =>
      Ended s t a.ref 0x0188 (leBytes 8 o.num ++ leBytes 4 0 ++ leBytes 2 0) ∧ (stepCtx t ctx).lastGate = (stepCtx s ctx).lastGate) ∧
    (o.captured = none → findSizes s o = .notCurrent → Completes (.stepGate ctx ring) s fun t =>
      (Safety.GoodHeaders s ctx ring → t.out = s.out) ∧ t.mem.cells = s.mem.cells ∧ ∃ o', (stepCtx t ctx).opened = some o' ∧ o'.gates = o.gates ++ [(a.ref, s.mod.devTime)])) ∧
  (∀ (ctx : Fin 16) (o : OpenStep) (g : DRef × Nat) (gs : List (DRef × Nat)) (s : State), (stepCtx s ctx).opened = some o →
    o.gates = g :: gs → (findDesc s g.1).isSome = true → o.captured = none → (∀ h ∈ gs, h.1 ≠ g.1) →
    (∀ (c : Instr) (n crc : Nat), c = .stepsizeTableCurrent ctx ∨ c = .stepsizeStaleTimeout ctx → findSizes s o = .good n crc →
      s.mem.errs = [] → (∀ d, findDesc s g.1 = some d → d.poisoned = false) → Completes c s fun t =>
        Ended s t g.1 0 (leBytes 8 o.num ++ leBytes 4 (min ((s.mod.devTime - g.2) / 1000) 0xFFFFFFFF) ++ leBytes 2 n)
          ∧ (stepCtx t ctx).lastGate = true) ∧
    (findSizes s o = .notCurrent → Completes (.stepsizeStaleTimeout ctx) s fun t =>
      Ended s t g.1 0x0187 (leBytes 8 o.num ++ leBytes 4 (min ((s.mod.devTime - g.2) / 1000) 0xFFFFFFFF) ++ leBytes 2 0)
        ∧ ∃ o', (stepCtx t ctx).opened = some o' ∧ o'.gates = gs ∧ o'.captured = none))

/-- R224, R247, R248: a STEP_END at the head of the step ring, with every earlier descriptor completed, closes the open step, whose buckets
are at an end or Reduced, and completes; its tail gives the step number and its error count. Every active slot of a decode step is
written back with its length and 1. Where the step sends no digest the module leaves Running with its last step. With no step open, and
every earlier descriptor of a step ring completed, it completes with STEP_SEQUENCE. -/
def Obligations.StepsEnd : Prop :=
  ∀ (ctx : Fin 16) (ring : Fin 8) (a : Accepted) (s : State), Dispatches s ctx ring 0x13 a →
    (stepCtx s ctx).ring = none ∨ (stepCtx s ctx).ring = some ring.val →
    (∀ o, (stepCtx s ctx).opened = some o → o.begun = true → earlierDone s ctx ring a.ref.idx = true →
      (∀ tag b, bucket s ctx tag = some b → b.active = true → b.st = .reduced) → Completes (.stepEnd ctx ring) s fun t =>
        (stepCtx t ctx).opened = none ∧ (stepCtx t ctx).last = (stepCtx s ctx).last
          ∧ Ended s t a.ref 0 (leBytes 8 o.num ++ leBytes 4 o.errCount ++ leBytes 2 o.firstErr)
          ∧ (o.mode = 4 ∨ o.abandoned = true ∨ (fieldAt a.bytes 24 1).testBit 0 = true ∨ groupOn s ctx = false → t.mod = { s.mod with
              st := if s.mod.st = .running ∧ (List.range 16).all (fun c => c == ctx.val || !stepOpen s c) then .ready else s.mod.st })
          ∧ ∀ i l k, o.mode = 4 → o.slots[i]? = some (some l) → k < 4 → tabGet 0 t.mem.cells (ctrlSlotAddr o.ctrl + 16 * i + k) =
              byteAt (leBytes 4 (if 65535 < l + 1 then l else l + 1)) k) ∧
    (stepOpen s ctx = false → (stepCtx s ctx).ring = none ∨ earlierDone s ctx ring a.ref.idx = true → Completes (.stepEnd ctx ring) s fun t => Ended s t a.ref 0x0182 [])

/-- R256, R258 to R261: an RDX_REDUCE that passes validation, in a group whose every part has a live owner and whose set can still be
reached, opens the bucket: the parts it owns are the module's, their contribution is staged, unless a set decided at once leaves it out,
and what is awaited is the forced set, the first N in MODE 0, or the live ranks below W.

R258, R259, R262: a contribution's part that is whole is staged, unless the set decided leaves it out; where it completes the arrival of
the N-th rank in MODE 0, the accepted set is the first N in the order of arrival, by rank within a nanosecond, and the sums are queued.
A late contribution is remembered and counted once, however many parts of it come (the memory of 4,096 of them is the model's choice,
log entry 118); a copy of one that has arrived is counted once likewise.

R259, R280: at the deadline of a MODE 0 bucket the first N that have arrived are accepted, or all of them where they are fewer but at
least MIN_ACCEPT; with fewer the bucket waits on. The parts taken over from the partner have a deadline of their own (R280), which
decides their set likewise. -/
def Obligations.BucketsCollect : Prop :=
  (∀ (ctx : Fin 16) (ring : Fin 8) (a : Accepted) (o : OpenStep) (expected : Option Nat) (s : State), Dispatches s ctx ring 0x51 a →
    reduceStatus s ctx a.bytes = 0 → (stepCtx s ctx).opened = some o → ownerless s ctx (ownersNow s ctx) = false →
    expected = (if rdxForced a.bytes then some (readNat s (rdxAccept a.bytes) 8) else if o.mode = 0 then none
      else some ((group s ctx).live % 2 ^ workers s ctx)) →
    (rdxForced a.bytes = true → ∀ r, r < 64 → (expected.getD 0).testBit r = true → (group s ctx).live.testBit r = true) →
    (expected = none → minAccept s ctx ≤ ((List.range (workers s ctx)).filter (group s ctx).live.testBit).length) →
    (∀ m ∈ (group s ctx).early, m.tag ≠ rdxTag a.bytes ∨ m.step ≠ curStep s ctx % 2 ^ 16) →
    Completes (.rdxReduce ctx ring) s fun t =>
      (∃ k, bucket t ctx (rdxTag a.bytes) = some k ∧ k.reduce = a.ref ∧ k.bytes = a.bytes ∧ k.openAt = s.mod.devTime ∧ k.gather = none
        ∧ k.own = partsOf s ctx (ownersNow s ctx) (ownRank s ctx) ∧ k.expected = expected ∧ k.forced = rdxForced a.bytes) ∧
      (∀ p, p < groupParts s ctx → entryOwner (ownersNow s ctx) p = some (ownRank s ctx) →
        stagedFor (group t ctx) (rdxTag a.bytes) (curStep s ctx) (ownRank s ctx) p = true
          ∨ ∃ k e, bucket t ctx (rdxTag a.bytes) = some k ∧ k.accepted = some e ∧ e.testBit (ownRank s ctx) = false) ∧
      (partsOf s ctx (ownersNow s ctx) (ownRank s ctx) ≠ 0 → t.mem.cells = s.mem.cells)) ∧
  (∀ (c r : Nat) (b : List Byte) (s : State), Safety.Arrives s 1 c r b →
    (∀ ps, contribFate s c r b = .stage → (assembleMsg c true b s).1 = some ps → Completes .bucketContrib s fun t =>
      (⟨pkTag b, pkStepLo b, r, pkPart b, pkEpoch b, s.mod.devTime, ps⟩ ∈ (group t c).staged
        ∨ ∃ k e, bucket t c (pkTag b) = some k ∧ (k.accepted = some e ∨ k.acceptedT = some e) ∧ e.testBit r = false) ∧
      ∀ g k l, g = { group s c with
          staged := (group s c).staged ++ [⟨pkTag b, pkStepLo b, r, pkPart b, pkEpoch b, s.mod.devTime, ps⟩] } → bucket s c (pkTag b) = some k → stepBitsNow s c b = true → k.st = .collecting → k.expected = none → k.accepted = none →
        k.own ≠ 0 → k.taken = 0 →
        l = (if !k.arrived.contains r && hasArrived g (pkTag b) (curStep s c) r k.own then
          putArrival g (pkTag b) (curStep s c) k.own s.mod.devTime r k.arrived else k.arrived) →
        required s c ≤ l.length → (∃ k', bucket t c (pkTag b) = some k' ∧ k'.accepted = some (bitmapOf (l.take (required s c)))
            ∧ k'.decidedAt = s.mod.devTime)
          ∧ (crzUnit t k.unit).queue = (crzUnit s k.unit).queue ++ ((members k.own).map fun p => ⟨c, pkTag b, p⟩).filter fun j =>
            !(crzUnit s k.unit).queue.contains j) ∧
    (contribFate s c r b = .late → Completes .bucketContrib s fun t =>
      Counted s t cRdxLate (if (pkTag b, pkStepLo b, r, pkEpoch b) ∈ (group s c).lateSeen then 0 else 1)
        ∧ (pkTag b, pkStepLo b, r, pkEpoch b) ∈ (group t c).lateSeen ∧ (group t c).staged = (group s c).staged) ∧
    (contribFate s c r b = .dup → pkLast b = true → rankArrived s c r b = true →
      (∀ e ∈ (group s c).dupSeen, e.1 ≠ (pkTag b, pkStepLo b, r, pkEpoch b)) → Completes .bucketContrib s fun t =>
      Counted s t cRdxDup 1 ∧ ((pkTag b, pkStepLo b, r, pkEpoch b), 2 ^ pkPart b) ∈ (group t c).dupSeen ∧ (group t c).staged = (group s c).staged)) ∧
  (∀ (ctx : Fin 16) (tag : Fin 1024) (k : Bucket) (s : State), bucket s ctx tag = some k → k.expected = none →
    (k.st = .collecting ∨ k.st = .reducing → k.acceptedT = none → k.taken ≠ 0 → k.own = 0 →
      min (required s ctx) (minAccept s ctx) ≤ k.arrivedT.length → Completes (.bucketDeadline ctx tag true) s fun t =>
        (∃ k', bucket t ctx tag = some k' ∧ k'.acceptedT = some (bitmapOf (k.arrivedT.take (if required s ctx ≤ k.arrivedT.length
            then required s ctx else k.arrivedT.length))) ∧ k'.deadlineT = true ∧ k'.decidedTAt = s.mod.devTime)
          ∧ (crzUnit t k.unit).queue = (crzUnit s k.unit).queue
              ++ ((members (without k.taken k.written)).map fun p => ⟨ctx, tag, p⟩).filter fun j => !(crzUnit s k.unit).queue.contains j) ∧
    (k.st = .collecting → k.accepted = none → k.own ≠ 0 → k.taken = 0 →
    (min (required s ctx) (minAccept s ctx) ≤ k.arrived.length → Completes (.bucketDeadline ctx tag false) s fun t =>
      (∃ k', bucket t ctx tag = some k' ∧ k'.accepted = some (bitmapOf (k.arrived.take (if required s ctx ≤ k.arrived.length
          then required s ctx else k.arrived.length))) ∧ k'.afterDeadline = true ∧ k'.decidedAt = s.mod.devTime)
        ∧ (crzUnit t k.unit).queue = (crzUnit s k.unit).queue ++ ((members k.own).map fun p => ⟨ctx, tag, p⟩).filter fun j =>
          !(crzUnit s k.unit).queue.contains j) ∧
    (k.arrived.length < min (required s ctx) (minAccept s ctx) → Completes (.bucketDeadline ctx tag false) s fun t =>
      bucket t ctx tag = some { k with deadline := true, deadlineAt := some s.mod.devTime } ∧ t.out = s.out ∧ t.rdx.units = s.rdx.units)))

/-- R267 to R269: a part that its unit has summed is written: each element holds the result of its terms. The part counts as written, and
where the bucket is then done, RDX_REDUCE completes with OUTPUT_OVERFLOW or success, the parts it covers written at PARTS_ADDR.

R269: the partner's result of a part, not yet here, is written where the part lies, and its acknowledgement is noted; a RESULT_ACK notes
that the partner has a part. With the last of either that the bucket awaits, RDX_REDUCE completes. The layout of RESULT's body, with the
data from byte 16 on, is the model's choice (log entry 97). -/
def Obligations.BucketsReduce : Prop :=
  (∀ (u : Fin 4) (j : SumJob) (js : List SumJob) (b : Bucket) (rs : List Coded) (w lo : Nat) (s : State),
    (crzUnit s u).queue = j :: js → bucket s j.ctx j.tag = some b → b.st = .reducing →
    w = elemBytes (rdxOutFmt b.bytes) → lo = rdxResult b.bytes + (partSpan (rdxElements b.bytes) (groupParts s j.ctx) j.part).1 * w →
    rs = partResults s j.ctx b.bytes j.tag (curStep s j.ctx) j.part
      (if b.taken.testBit j.part then b.acceptedT.getD 0 else b.accepted.getD 0) →
    Completes (.partSumDone u) s fun t =>
      (∃ k, bucket t j.ctx j.tag = some k ∧ k.written = b.written ||| 2 ^ j.part) ∧
      (rdxPartsAddr b.bytes + 8 ≤ lo ∨ lo + rs.length * w ≤ rdxPartsAddr b.bytes →
        ∀ i n c, rs[i]? = some c → n < w → tabGet 0 t.mem.cells (lo + i * w + n) = byteAt (leBytes w c.bits) n) ∧
      (reduceDone s j.ctx { b with written := b.written ||| 2 ^ j.part } = true → (findDesc s b.reduce).isSome = true →
        (∃ tail, Ended s t b.reduce (if b.overflowed = true ∨ rs.any (·.flags.overflow) = true then 0x0402 else 0) tail)
          ∧ ∀ i, i < 8 → tabGet 0 t.mem.cells (rdxPartsAddr b.bytes + i) = byteAt (leBytes 8 (b.written ||| 2 ^ j.part ||| b.received)) i)) ∧
  (∀ (c : Nat) (b : List Byte) (k : Bucket) (s : State), bucket s c (pkTag b) = some k → stepBitsNow s c b = true →
    stepBitsPast s c b = false → (findDesc s k.reduce).isSome = true →
    (∀ ps lo n w, Safety.Arrives s 2 c (partnerRank s c) b → (assembleMsg c false b s).1 = some ps → waitsEarly s c 2 b = false →
      k.st = .collecting ∨ k.st = .reducing → (k.received ||| k.written).testBit (pkPart b) = false →
      (lo, n) = partSpan (rdxElements k.bytes) (groupParts s c) (pkPart b) → w = elemBytes (rdxOutFmt k.bytes) →
      Completes .bucketResult s fun t =>
        (∃ k', bucket t c (pkTag b) = some k' ∧ k'.received = k.received ||| 2 ^ pkPart b) ∧
        (reduceDone s c { k with received := k.received ||| 2 ^ pkPart b } = false →
          ∀ i, i < n * w → tabGet 0 t.mem.cells (rdxResult k.bytes + lo * w + i) = byteAt ((messageBytes s ps).drop 16) i) ∧
        (reduceDone s c { k with received := k.received ||| 2 ^ pkPart b } = true →
          ∃ tail, Ended s t k.reduce (if k.overflowed then 0x0402 else 0) tail)) ∧
    (Safety.Arrives s 3 c (partnerRank s c) b → Completes .bucketResultAck s fun t =>
      (∃ k', bucket t c (pkTag b) = some k' ∧ k'.acked = k.acked ||| 2 ^ pkPart b) ∧
      (reduceDone s c { k with acked := k.acked ||| 2 ^ pkPart b } = true →
        ∃ tail, Ended s t k.reduce (if k.overflowed then 0x0402 else 0) tail)))

/-- R257, R270: an RDX_GATHER on a reduced bucket starts the gathering with the codes of the parts that the module owns and has; it
completes once the codes of every part are here. On an aborted bucket it completes with BUCKET_ABORT, on a stale one with EPOCH_STALE
(the model's choice, log entry 106).

R270: the first copy of the codes of a part is written where the part's codes lie, and with the last part RDX_GATHER completes; a later
copy is counted and changes no memory. -/
def Obligations.BucketsDeliver : Prop :=
  (∀ (ctx : Fin 16) (ring : Fin 8) (a : Accepted) (k : Bucket) (mine : Nat) (s : State), Dispatches s ctx ring 0x52 a →
    gatherStatus s ctx a.bytes = 0 → bucket s ctx (rdxTag a.bytes) = some k →
    mine = partsOf s ctx (ownersNow s ctx) (ownRank s ctx) &&& (k.written ||| k.received) →
    (∀ m ∈ (group s ctx).early, m.tag ≠ rdxTag a.bytes ∨ m.step ≠ curStep s ctx % 2 ^ 16) →
    (k.st = .reduced → Completes (.rdxGather ctx ring) s fun t =>
      (∃ k', bucket t ctx (rdxTag a.bytes) = some k' ∧ k'.gather = some a.ref ∧ k'.codes = k.codes ||| mine
        ∧ k'.codesAddr = fieldAt a.bytes 32 8
        ∧ k'.st = if (List.range (groupParts s ctx)).all (k.codes ||| mine).testBit then .delivered else .gathering) ∧
      ((List.range (groupParts s ctx)).all (k.codes ||| mine).testBit = true → groupParts s ctx ≤ 64 →
        Counted s t cRdxBuckets 1 ∧ ∃ tail, Ended s t a.ref 0 tail) ∧ t.mem.cells = s.mem.cells) ∧
    (k.st = .aborted ∨ k.st = .stale → k.gatherStatus = none → Completes (.rdxGather ctx ring) s fun t =>
      ∃ tail, Ended s t a.ref (if k.st = .stale then 0x0702 else 0x0701) tail)) ∧
  (∀ (c : Nat) (b : List Byte) (ps : List Piece) (k : Bucket) (g : DRef) (lo n : Nat) (s : State), Safety.Arrives s 4 c (pkRank b) b →
    bucket s c (pkTag b) = some k → stepBitsNow s c b = true → stepBitsPast s c b = false → k.st = .gathering → k.gather = some g →
    (findDesc s g).isSome = true → (lo, n) = partSpan (rdxElements k.bytes) (groupParts s c) (pkPart b) →
    (codesPresent s c b = false → (assembleMsg c false b s).1 = some ps → Completes .bucketCodes s fun t =>
      (∃ k', bucket t c (pkTag b) = some k' ∧ k'.codes = k.codes ||| 2 ^ pkPart b ∧ k'.codesFrom = k.codesFrom ||| 2 ^ pkPart b) ∧
      (∀ i, i < ceilDiv n 4 → tabGet 0 t.mem.cells (k.codesAddr + lo / 4 + i) = byteAt (messageBytes s ps) i) ∧
      ((List.range (groupParts s c)).all (k.codes ||| 2 ^ pkPart b).testBit = true → groupParts s c ≤ 64 →
        Counted s t cRdxBuckets 1 ∧ ∃ tail, Ended s t g 0 tail)) ∧
    (codesPresent s c b = true → pkLast b = true → Completes .bucketCodes s fun t =>
      Counted s t cRdxDup 1 ∧ t.mem.cells = s.mem.cells ∧ bucket t c (pkTag b) = some { k with dups := k.dups + 1 }))

/-- R263, R264: an active bucket aborts on ABORT_MS, where no contribution comes in that nanosecond, and on a member's ABORT message: that
is counted and flagged, and its descriptor completes with BUCKET_ABORT.

R412: a unit that makes no progress is reset and drops its work; that is counted and flagged, the bucket it was at aborts, and after a
third reset within 600 s the unit leaves service where AUTO_OFF allows. -/
def Obligations.BucketsFail : Prop :=
  (∀ (i : Instr) (c : Fin 16) (tag : Fin 1024) (k : Bucket) (s : State), bucket s c tag = some k → k.active = true →
    i = .bucketAbortTimeout c tag ∧ k.st ≠ .reduced ∧ .bucketContrib ∉ s.pending
      ∨ i = .bucketAbort ∧ (∃ b, Safety.Arrives s 5 c (pkRank b) b ∧ pkTag b = tag.val ∧ stepBitsNow s c b = true ∧ stepBitsPast s c b = false) →
    Completes i s fun t =>
      (∃ k', bucket t c tag = some k' ∧ k'.st = .aborted) ∧ flagUp t .rdx 0 = true ∧ Counted s t cRdxAborts 1 ∧
      ((findDesc s (k.gather.getD k.reduce)).isSome = true →
        (k.gather.isSome = true → k.gatherStatus = none) → (k.gather = none → k.reduceStatus = none) →
        ∃ tail, Ended s t (k.gather.getD k.reduce) 0x0701 tail)) ∧
  (∀ (u : Fin 4) (j : SumJob) (js : List SumJob) (s : State), (crzUnit s u).queue = j :: js →
    resetWaits s = false → (crzUnit s u).resets.head? ≠ some s.mod.devTime → Completes (.credenzaProgressWatchdog u) s fun t =>
      (crzUnit t u).queue = [] ∧ (crzUnit t u).resets = (s.mod.devTime :: (crzUnit s u).resets).take 2
        ∧ Counted s t cRcvEngine 1 ∧ flagUp t .rcv 1 = true
        ∧ (∀ k, bucket s j.ctx j.tag = some k → k.active = true → ∃ k', bucket t j.ctx j.tag = some k' ∧ k'.st = .aborted)
        ∧ (regBit s rRcvCtrl 0 = true → 2 ≤ (crzUnit s u).resets.length →
            s.mod.devTime ≤ (crzUnit s u).resets.getD 1 0 + 600000000000 → regBit t rRdxCtrl (4 + u) = true))

/-- R277, R279, R283: with the pair enabled, the partner not lost and its port Up or Degraded, PAIR_HEARTBEAT_SEND completes: a heartbeat of
32 bytes is sent (the count takes header and body: the model's choice, log entry 100), and leaves at once where the port has nothing
else to send. The first heartbeat that comes joins the pair, and each one ends a probing and is the time from which silence counts.

R279, R463: at PAIR_LOSS_US of silence PAIR_LOSS_TIMEOUT completes: the module probes its partner, on the designated port, or with
PAIR_FALLBACK on every other port with a route to it (DEDUCED, log entry 111); a degraded pair probes the designated port again. A probe
leaves at once where the port has nothing else to send.

R463, R279: a PROBE of the partner is answered with the same body on the port it came by. The first reply accepted moves the pair
channel to the port that the probe went by, and the pair is degraded; a reply to a probe of the designated port ends a degraded state,
or the probing. Silence still counts from the last heartbeat (DEDUCED, log entry 112).

R279, R280: where PROBE_US passes unanswered, with no result of the partner's in the same nanosecond, the partner is lost: that is
flagged and logged, with its address and AUTO_TAKEOVER, and nothing waits for it. With AUTO_TAKEOVER each context with an enabled group
adopts the next epoch, in which the partner is dead and its parts are the module's at once; that a change of ownership still to come is
then superseded is the model's choice (log entry 213). -/
def Obligations.PartnersAreWatched : Prop :=
  (∀ s : State, pairEnabled s = true →
    (canSend s = true → s.rdx.pair.st ≠ 3 → (port s (pairPort s)).usable = true → Completes .pairHeartbeatSend s fun t =>
      Counted s t cRdxSent 32 ∧ t.rdx = s.rdx ∧ (Safety.Quiet s (pairPort s) →
        Safety.SentOn s t (pairPort s) (packetHeader s { dest := partnerAddr s, type := 6 } true 0 0))) ∧
    (∀ m, Safety.FromPartner s 6 m → Completes .pairHeartbeat s fun t =>
      t.rdx.pair = { s.rdx.pair with
        st := if s.rdx.pair.st = 0 then 1 else s.rdx.pair.st, probing := false, heard := some s.mod.devTime })) ∧
  (∀ (s : State) (probe : Nat → List Byte), canSend s = true →
    (∀ p, probe p = packetHeader s { dest := partnerAddr s, type := 7 } true 16 0
        ++ leBytes 16 (p + 256 * (if p = pairDesignated s then 1 else 0))) →
    (pairEnabled s = true → s.rdx.pair.st = 1 ∨ s.rdx.pair.st = 2 → s.rdx.pair.probing = false →
      Completes .pairLossTimeout s fun t => t.rdx.pair = { s.rdx.pair with probing := true } ∧
        ∀ p, p ∈ usablePorts s (partnerAddr s) none → Safety.Quiet s p → (p = pairDesignated s ↔ regBit s rRdxCtrl 2 = false) →
          Safety.SentOn s t p (probe p)) ∧
    (s.rdx.pair.st = 2 → Completes .degradedProbeTimer s fun t => t.rdx.pair = s.rdx.pair ∧
      (pairDesignated s ∈ usablePorts s (partnerAddr s) none → Safety.Quiet s (pairDesignated s) →
        Safety.SentOn s t (pairDesignated s) (probe (pairDesignated s))))) ∧
  (∀ (m : Inbound) (s : State),
    (Safety.FromPartner s 7 m → (port s m.port).usable = true → m.pkt.length = 48 → pkBodyLen m.pkt = 16 → Completes .pairProbe s fun t =>
      Counted s t cRdxSent 48 ∧ t.rdx = s.rdx ∧ (Safety.Quiet s m.port →
        Safety.SentOn s t m.port (packetHeader s { dest := partnerAddr s, type := 8 } true 16 0 ++ m.pkt.drop 32))) ∧
    (Safety.FromPartner s 8 m →
      ((byteAt (pkBody m.pkt) 1).getLsbD 0 = false → s.rdx.pair.probing = true → Completes .pairProbeReply s fun t =>
        flagUp t .rdx 4 = true ∧ t.rdx.pair.st = 2 ∧ t.rdx.pair.route = (byteAt (pkBody m.pkt) 0).toNat % 16
          ∧ t.rdx.pair.probing = false ∧ t.rdx.pair.heard = s.rdx.pair.heard) ∧
      ((byteAt (pkBody m.pkt) 1).getLsbD 0 = true → s.rdx.pair.st = 2 ∨ s.rdx.pair.probing = true → Completes .pairProbeReply s fun t =>
        t.rdx.pair.st = (if s.rdx.pair.st = 2 then 1 else s.rdx.pair.st) ∧ t.rdx.pair.probing = false
          ∧ t.rdx.pair.heard = s.rdx.pair.heard))) ∧
  (∀ s : State, s.rdx.pair.probing = true → canSend s = true → .bucketResult ∉ s.pending → .bucketResultAck ∉ s.pending →
    Completes .probeWindowExpiry s fun t => t.rdx.pair.st = 3 ∧ t.rdx.pair.probing = false ∧ t.rdx.pair.wait = [] ∧ flagUp t .rdx 2 = true ∧
    (s.mem.errs = [] → (regBit s rRdxCtrl 3 = false ∨ s.rdx.held = [] ∧ ∀ c, c < 16 → (stepCtx s c).opened = none ∧
        ∀ r ∈ liveOthers s c, r = partnerRank s c) →
      Logged s t { source := 5, detail := partnerAddr s + boolNat (regBit s rRdxCtrl 3) * 2 ^ 20 }) ∧
    (∀ c, c < 16 → groupOn s c = true → regBit s rRdxCtrl 3 = false → group t c = group s c) ∧
    (∀ c, c < 16 → groupOn s c = true → regBit s rRdxCtrl 3 = true →
      (group t c).epoch = ((group s c).epoch + 1) % 2 ^ 32 ∧ (group t c).declarer = some (ownRank s c) ∧ (group t c).next = none
        ∧ (∀ r, r < 64 → (group t c).live.testBit r = ((group s c).live.testBit r && r != partnerRank s c))
        ∧ ∀ k, entryOwner (group t c).owners k =
            if entryOwner (ownersNow s c) k = some (partnerRank s c) then some (ownRank s c) else entryOwner (ownersNow s c) k))

/-- R277, R278: the partner's mirror block, once whole, is written in its place of the four. Its check values are compared when the module's
own of that step are known, and are kept until then (DEDUCED, log entry 116); one that differs sets MISMATCH.

R281: a member's digest is kept by step and rank. Where the partner's differs from the module's own of that step, that is flagged and
the digests of the other live members are awaited; at DIVERGE_WAIT_MS the module loses its partner where more of the others agree with
it than with its partner, and is fenced, with its fence mark, where no more do, unless a transition of higher precedence coincides
(R29). With the partner lost and dead already nothing is decided, and one that is lost is not lost again. The layout of DIGEST's body is
the model's choice (log entry 97). -/
def Obligations.PairsAgree : Prop :=
  (∀ (c n : Nat) (b body : List Byte) (ps : List Piece) (crcs : Nat × Nat × Nat) (s : State), Safety.Arrives s 12 c (partnerRank s c) b →
    (assembleMsg c false b s).1 = some ps → body = messageBytes s ps → n = fieldAt body 0 8 →
    crcs = (fieldAt body 2228 4, fieldAt body 2240 4, fieldAt body 2244 4) →
    Completes .pairMirror s fun t =>
      (∀ i, i < 36864 → tabGet 0 t.mem.cells (reg s (rRdxMirrorBase c) + n % 4 * 36864 + i) = byteAt body i) ∧
      ((group s c).ownCrcs.find? (·.1 == n) = none → (n, crcs) ∈ (group t c).mirrorCrcs) ∧
      ((∀ e ∈ (group s c).mirrorCrcs, (group s c).ownCrcs.find? (·.1 == e.1) = none) → ∀ own, (group s c).ownCrcs.find? (·.1 == n) = some own →
        t.rdx.pair.mismatch = (s.rdx.pair.mismatch || own.2 != crcs))) ∧
  (∀ (own : List Byte) (n : Nat) (c : Fin 16) (s : State), canSend s = true → (group s c).ownDigests.find? (·.1 == n) = some (n, own) →
    (∀ pk r, Safety.Arrives s 11 c r pk → (group s c).diverge = [] → r ≠ partnerRank s c → fieldAt (pkBody pk) 0 8 = n →
      (∀ e ∈ (group s c).ownDigests, digestOf (group s c) e.1 (partnerRank s c) = none) →
      Completes .pairDigest s fun t => digestOf (group t c) n r = some (padTo 32 ((pkBody pk).drop 8))
        ∧ t.mod = s.mod ∧ t.rdx.pair = s.rdx.pair) ∧
    (∀ pk, Safety.Arrives s 11 c (partnerRank s c) pk → (group s c).diverge = [] → fieldAt (pkBody pk) 0 8 = n →
      padTo 32 ((pkBody pk).drop 8) ≠ own → (∀ e ∈ (group s c).ownDigests, e.1 = n → e.2 = own) → partnerSettled s c = false →
      Completes .pairDigest s fun t => flagUp t .rdx 3 = true ∧ t.rdx.pair.diverged = true ∧
        ((∃ r ∈ liveOthers s c, r ≠ partnerRank s c ∧ digestOf (group s c) n r = none) →
          (∀ e ∈ (group s c).ownDigests, e.1 ≠ n → digestOf (group s c) e.1 (partnerRank s c) = none) →
          (group t c).diverge = [⟨n, padTo 32 ((pkBody pk).drop 8)⟩] ∧ t.mod = s.mod ∧ t.rdx.pair.st = s.rdx.pair.st)) ∧
    (∀ d ds agree, (group s c).diverge = d :: ds → d.step = n →
      agree = (fun v => ((List.range 64).filter fun r => r != ownRank s c && r != partnerRank s c && digestOf (group s c) n r == some v).length) →
      (agree d.partner < agree own → s.rdx.pair.st ≠ 3 → Completes (.divergeWaitExpiry c) s fun t =>
        t.rdx.pair.st = 3 ∧ t.mod = s.mod ∧ (group t c).diverge = ds.filter (·.step != n)) ∧
      (agree own ≤ agree d.partner → partnerSettled s c = false → outranked 6 s = false → Completes (.divergeWaitExpiry c) s fun t =>
        t.mod = { s.mod.withMark true with st := .fenced } ∧ (group t c).diverge = []) ∧
      (partnerSettled s c = true ∨ agree d.partner < agree own ∧ s.rdx.pair.st = 3 → Completes (.divergeWaitExpiry c) s fun t =>
        t.mod = s.mod ∧ (group t c).diverge = ds.filter (·.step != n))))

/-- R282, R284: an epoch notice that is newer than the module's epoch, or equal to it from a lower rank, and does not mark the module dead,
is adopted, by a fenced module too: membership at once, ownership at once where its effective step is 0 and at that step otherwise. One
that marks an unfenced module dead, and a fenced notice, both of an epoch that is not older, fence the module and set its fence mark,
unless a transition of higher precedence coincides (R29). A fenced notice of the same nanosecond counts first (R287). The layout of a
notice's body (log entry 97) is the model's choice, and how fencing and adoption come together is DEDUCED (log entry 108).

Table 8.9: a message held for a newer epoch is dropped at EPOCH_HOLD_US, and counted.

R254, Table 8.16: INSTALL adopts the NEXT_ state of a context where it is valid and newer, or nothing is installed (the model's choice,
log entry 109); RESULT tells why it is refused elsewhere, 3 before 2 (DEDUCED, log entry 110).

R26, R27, R285: ADMIT in Fenced, with every enabled group's NEXT_ state valid and newer, clears the fence mark, returns the module to
Ready, and adopts those states with the module's own rank as declarer; elsewhere RESULT tells why it is refused, and nothing else
changes. No epoch notice waits in the same nanosecond: its adoption would count first (R287).

R279, R289: with no step open RDX_PAIR takes the value written; enabling it, or another partner, starts the pair in state 0. With a step
open the write is ignored. -/
def Obligations.EpochsMoveOn : Prop :=
  (∀ (m : Inbound) (c : Nat) (live e : Nat) (owners : List Nat) (s : State), inService s = true → contextOf s (pkGroup m.pkt) = some c →
    live = fieldAt (pkBody m.pkt) 0 8 → e = fieldAt (pkBody m.pkt) 8 8 →
    owners = (List.range 64).map (fun k => fieldAt (pkBody m.pkt) (16 + k) 1 &&& 0xBF) →
    (s.opt.inbox.find? (fun m => pkType m.pkt == 9) = some m → .fencedNotice ∉ s.pending →
      (canSend s = true → live.testBit (ownRank s c) = true) →
      newerEpoch (pkEpoch m.pkt) (group s c).epoch = true
        ∨ pkEpoch m.pkt = (group s c).epoch ∧ (∀ d, (group s c).declarer = some d → fieldAt (pkBody m.pkt) 80 1 < d) →
      Completes .epochNotice s fun t =>
        (group t c).epoch = pkEpoch m.pkt % 2 ^ 32 ∧ (group t c).live = live
          ∧ (group t c).declarer = some (fieldAt (pkBody m.pkt) 80 1)
          ∧ (e = 0 → (group t c).owners = owners ∧ (group t c).next = none)
          ∧ (e ≠ 0 → (group t c).owners = ownersNow s c ∧ (group t c).next = some (owners, e)) ∧ t.mod = s.mod
          ∧ (s.rdx.pair.st = 3 → live.testBit (partnerRank s c) = true → t.rdx.pair.st = 0)) ∧
    (∀ i : Instr, canSend s = true → outranked 6 s = false → newerEpoch (group s c).epoch (pkEpoch m.pkt) = false →
      i = .fencedNotice ∧ s.opt.inbox.find? (fun m => pkType m.pkt == 10) = some m
        ∨ i = .epochNotice ∧ .fencedNotice ∉ s.pending ∧ s.opt.inbox.find? (fun m => pkType m.pkt == 9) = some m
          ∧ live.testBit (ownRank s c) = false →
      Completes i s fun t => t.mod = { s.mod.withMark true with st := .fenced } ∧ t.rdx.pair.wait = [] ∧ t.rdx.held = [])) ∧
  (∀ (m : Inbound) (ms : List Inbound) (s : State), s.rdx.held = m :: ms → Completes .epochHoldExpiry s fun t =>
    t.rdx = { s.rdx with held := ms } ∧ Counted s t cRdxHold 1 ∧ t.opt = s.opt) ∧
  (∀ (c : Fin 16) (s : State), inService s = true →
    (s.mod.st ≠ .fenced → configValid s c (nextOwners s c) = true → nextNewer s c = true → Completes (.rdxInstall c) s fun t =>
      (group t c).result = 1 ∧ (group t c).installed = true ∧ (group t c).epoch = reg s (rRdxNextEpoch c) % 2 ^ 32
        ∧ (group t c).live = reg s (rRdxNextLive c) ∧ (group t c).declarer = none
        ∧ (reg s (rRdxNextStep c) = 0 → (group t c).owners = nextOwners s c) ∧ t.rdx.pair.diverged = false
        ∧ t.rdx.pair.mismatch = false ∧ t.mod = s.mod) ∧
    (s.mod.st = .fenced ∨ configValid s c (nextOwners s c) = false → Completes (.rdxInstall c) s fun t =>
      t = { s with rdx := { s.rdx with groups := tabMod {} s.rdx.groups c fun g => { g with result := 3 } } }) ∧
    (s.mod.st ≠ .fenced → configValid s c (nextOwners s c) = true → nextNewer s c = false → Completes (.rdxInstall c) s fun t =>
      t = { s with rdx := { s.rdx with groups := tabMod {} s.rdx.groups c fun g => { g with result := 2 } } })) ∧
  (∀ (c : Fin 16) (s : State), inService s = true → .epochNotice ∉ s.pending →
    let groups := (List.range 16).filter fun k => regBit s (rRdxGroup k) 50
    (s.mod.st = .fenced → (∀ k ∈ groups, configValid s k (nextOwners s k) = true ∧ nextNewer s k = true) →
      Completes (.rdxAdmit c) s fun t =>
        t.mod = { s.mod.withMark false with st := .ready } ∧ (group t c).result = 1 ∧ t.rdx.pair.st = 0
          ∧ ∀ k ∈ groups, (group t k).installed = true ∧ (group t k).epoch = reg s (rRdxNextEpoch k) % 2 ^ 32
            ∧ (group t k).live = reg s (rRdxNextLive k) ∧ (group t k).declarer = some (ownRank s k)) ∧
    (s.mod.st ≠ .fenced ∨ (∃ k ∈ groups, configValid s k (nextOwners s k) = false) → Completes (.rdxAdmit c) s fun t =>
      t = { s with rdx := { s.rdx with groups := tabMod {} s.rdx.groups c fun g => { g with result := 3 } } }) ∧
    (s.mod.st = .fenced → (∀ k ∈ groups, configValid s k (nextOwners s k) = true) → (∃ k ∈ groups, nextNewer s k = false) →
      Completes (.rdxAdmit c) s fun t =>
        t = { s with rdx := { s.rdx with groups := tabMod {} s.rdx.groups c fun g => { g with result := 2 } } })) ∧
  (∀ (v : DWord) (s : State), inService s = true →
    ((∀ c, c < 16 → stepOpen s c = false) → Completes (.rdxPairWrite v) s fun t =>
      reg t rRdxPair = v.toNat % 2 ^ 25 ∧ (v.getLsbD 24 = false ∨ pairEnabled s = false ∨ partnerAddr s ≠ v.toNat % 2 ^ 20
        ∨ s.rdx.pair.st = 3 → t.rdx.pair.st = 0 ∧ t.rdx.pair.probing = false ∧ t.rdx.pair.heard = none)) ∧
    (∀ c, c < 16 → stepOpen s c = true → exec (.rdxPairWrite v) s = .next s))

/-- R292, R294, R297, R299, R314: a good data flit that a live link expects is accepted: the next number is expected, it is counted, and a
packet of one flit for the module is delivered, one for another address is queued with a hop less on a usable port of its destination
other than the one it came by, or has left on it. One ahead of the number expected is not accepted, and those after it are discarded
until that comes; one with a bad check value likewise, it is counted, and a flit with NAK leaves.

R294, R295, R297: a good idle flit on a live link with nothing to send acknowledges flits and returns credits, up to the whole buffers.
A replay timeout with flits unacknowledged sends them all again; the 64th retry without progress takes the link down instead. -/
def Obligations.FlitsPass : Prop :=
  (∀ (p : Fin 16) (b pkt : List Byte) (h : Nat) (s : State), (port s p).live = true → h = fieldAt b 0 8 →
    pkt = trimPacket ((b.drop 8).take 240) → (port s p).replayDue = false → (s.rdx.pair.wait = [] ∨ pairEnabled s = true) →
    (flitGood b = true → h % 4 = 1 → h.testBit 56 = false → bitsOf h 23 8 = (port s p).rxNext → Completes (.dataFlitReceived p b) s fun t =>
      (port t p).rxNext = ((port s p).rxNext + 1) % 65536 ∧ (port t p).discarding = false ∧ Counted s t cOptRx 1 ∧
      (h.testBit 3 = true → h.testBit 4 = true → pkDest pkt = selfAddr s → channelOf (pkType pkt) = some (bitsOf h 2 2) →
        t.opt.inbox = s.opt.inbox ++ [⟨p, pkt, true⟩]) ∧
      (h.testBit 3 = true → h.testBit 4 = true → pkDest pkt ≠ selfAddr s → regBit s rOptCtrl 22 = true → pkHops pkt ≠ 0 →
        usablePorts s (pkDest pkt) (some p.val) ≠ [] → Counted s t cOptFwd 1 ∧ t.opt.inbox = s.opt.inbox ∧
        ∀ k : Packet, k = ⟨leBytes 3 (pkDest pkt + (pkHops pkt - 1) * 2 ^ 20) ++ ((b.drop 8).take 240).drop 3, bitsOf h 2 2, some p.val, .whole⟩ →
          ∃ q ∈ usablePorts s (pkDest pkt) (some p.val), k ∈ (port t q).queue0 ++ (port t q).queue1 ∨ ∃ f ∈ (port t q).sent, f.pkt = k) ∧
      (h.testBit 4 = false → t.opt.inbox = s.opt.inbox)) ∧
    (flitGood b = true → h % 4 = 1 → h.testBit 56 = false → bitsOf h 23 8 ≠ (port s p).rxNext →
      seqBefore (bitsOf h 23 8) (port s p).rxNext = false → Completes (.dataFlitReceived p b) s fun t =>
        (port t p).rxNext = (port s p).rxNext ∧ (port t p).discarding = true ∧ t.opt.inbox = s.opt.inbox
          ∧ Counted s t cOptRx 0) ∧
    (flitGood b = false → Completes (.dataFlitReceived p b) s fun t =>
      (port t p).rxNext = (port s p).rxNext ∧ (port t p).discarding = true ∧ t.opt.inbox = s.opt.inbox ∧ Counted s t cOptCrc 1
        ∧ .flit p (flitBytes ({ port s p with nak := true }).ackFields []) (port s p).waves ∈ t.out)) ∧
  (∀ (p : Fin 16) (b : List Byte) (h : Nat) (s : State),
    ((port s p).live = true → h = fieldAt b 0 8 → flitGood b = true → h % 4 = 0 → h.testBit 56 = false → (port s p).queue0 = [] →
      (port s p).queue1 = [] → (port s p).replayDue = false → s.rdx.pair.wait = [] → Completes (.idleFlitReceived p b) s fun t =>
        (port t p).credit0 = min 4096 ((port s p).credit0 + 4 * bitsOf h 47 40)
          ∧ (port t p).credit1 = min 256 ((port s p).credit1 + bitsOf h 55 48)
          ∧ (port t p).sent = (port s p).sent.filter (fun f => seqBefore (bitsOf h 39 24) f.seq) ∧ (port t p).rxNext = (port s p).rxNext) ∧
    ((port s p).usable = true → (port s p).sent ≠ [] → (port s p).replayAt ≠ some (s.mod.devTime, true) →
      ((if (port s p).replayed then (port s p).retries + 1 else (port s p).retries) < 64 → Completes (.replayTimeout p) s fun t =>
        Counted s t cOptReplays 1 ∧ Counted s t cOptTx (port s p).sent.length ∧ (port t p).sent = (port s p).sent
          ∧ (port t p).replayed = true
          ∧ (port t p).retries = if (port s p).replayed then (port s p).retries + 1 else (port s p).retries) ∧
      (64 ≤ (if (port s p).replayed then (port s p).retries + 1 else (port s p).retries) → regBit s rOptCtrl 21 = false →
        Completes (.replayTimeout p) s fun t => Safety.LinkLost s t p 0x0802 ∧ flagUp t .opt 1 = true ∧ Counted s t cOptReplays 1)))

/-- R302, R303, R307, R315: a live link is lost where every lane has lost its signal, where the peer starts training or software writes
RETRAIN, after 150 µs without a heartbeat unless it is in Hold, and after 100 µs in Hold; a heartbeat timeout that coincides with the
last retry of a replay, by its timeout or by a NAK, is logged as its exhaustion (Table 9.7). That the end of a Hold by its timeout is
counted and logged as a loss is the model's choice (log entry 127). A port reset clears the port, and an enabled one trains. -/
def Obligations.LinksAreLost : Prop :=
  ∀ (p : Fin 16) (s : State),
    (∀ c : Instr, (port s p).live = true →
      c = .laneSignalLoss p ∨ c = .peerStartsTraining p ∨ c = .retrain p ∧ inService s = true
        ∨ c = .linkHeartbeatTimeout p ∧ (port s p).st ≠ .hold ∧ exhaustionWaits s p = false
        ∨ c = .holdTimeout p ∧ (port s p).st = .hold →
      Completes c s fun t => Safety.LinkLost s t p 0x0801) ∧
    ((port s p).usable = true → exhaustionWaits s p = true →
      Completes (.linkHeartbeatTimeout p) s fun t => Safety.LinkLost s t p 0x0802 ∧ flagUp t .opt 1 = true) ∧
    ((port s p).st = .hold → exec (.linkHeartbeatTimeout p) s = .next s) ∧
    (inService s = true → Completes (.portReset p) s fun t =>
      (port t p).st = (if (port s p).st = .disabled then .disabled else .training) ∧ (port t p).sent = [] ∧ (port t p).txSeq = 0
        ∧ (port t p).rxNext = 0 ∧ (port t p).neighbour = 0 ∧ (port t p).rxMap = [0, 1, 2, 3, 4, 5, 6, 7]
        ∧ (port t p).txMap = [0, 1, 2, 3, 4, 5, 6, 7] ∧ t.opt.peers = s.opt.peers
        ∧ ∀ q, q ≠ p.val → (port t q).st = (port s q).st)

/-- R300 to R303: HELLO in training keeps the neighbour's address, or fails on a conflict. Training passes with at least MIN_LANES lanes in
each direction: the port is Up with eight in each and Degraded with fewer, and holds full credit where nothing waits. Otherwise, and
after 10 ms, it is abandoned: the port is Down, and 10 ms later it trains again. Heartbeats leave on every live port, and one that comes
is the time from which silence counts; it brings an acknowledgement and credits too. The layout of a management flit's payload is
DEDUCED (log entry 41); that training needs a lit group and puts no lane on the spare is the model's choice (log entry 130). -/
def Obligations.LinksTrain : Prop :=
  ∀ (p : Fin 16) (s : State), s.fwu.act ≠ .ports →
    (∀ (addr : BitVec 20) (nport : Fin 16) (rtt : Nat), (port s p).st = .training →
      (addr.toNat ≠ 0 → addr.toNat ≠ selfAddr s → Completes (.hello p addr nport rtt) s fun t =>
        let q := { port s p with hello := true, neighbour := addr.toNat, neighPort := nport, rtt := min 65535 rtt }
        port t p = q.acked ∧ t.out = Safety.Told q p 8 (selfAddr s + 2 ^ 20 * p) :: s.out) ∧
      (addr.toNat = 0 ∨ addr.toNat = selfAddr s → Completes (.hello p addr nport rtt) s fun t =>
        (port t p).st = .down ∧ flagUp t .opt 7 = true
          ∧ Logged s t { code := 0x0806, source := 6, action := 6, engine := p, detail := p + 256 * (port s p).neighbour })) ∧
    (∀ (tx : BitVec 9) (eyes : List (Byte × Byte)) (txMap rxMap : List Nat), (port s p).st = .training → (port s p).hello = true →
      groupLit s (p / 4) = true → txMap = (List.range 8).map (fun k => if tx.getLsbD k then k else 15) →
      rxMap = (List.range 8).map (fun k =>
        if 64 ≤ (eyes.getD k (0, 0)).1.toNat ∧ 48 ≤ (eyes.getD k (0, 0)).2.toNat then k else 15) →
      (minLanes s ≤ lanesIn txMap → minLanes s ≤ lanesIn rxMap → Completes (.trainingPass p tx eyes) s fun t =>
        (port t p).st = (if lanesIn txMap = 8 ∧ lanesIn rxMap = 8 then .up else .degraded) ∧ (port t p).txMap = txMap
          ∧ (port t p).rxMap = rxMap ∧ (port t p).heardAt = s.mod.devTime
          ∧ ((port s p).queue0 = [] → (port s p).queue1 = [] → s.rdx.pair.wait = [] →
              (port t p).credit0 = 4096 ∧ (port t p).credit1 = 256)) ∧
      (lanesIn txMap < minLanes s ∨ lanesIn rxMap < minLanes s → Completes (.trainingPass p tx eyes) s fun t =>
        (port t p).st = .down ∧ flagUp t .opt 6 = true)) ∧
    ((port s p).st = .training → Completes (.trainingTimeout p) s fun t => (port t p).st = .down ∧ flagUp t .opt 6 = true
      ∧ Logged s t { code := 0x0805, source := 6, action := 6, engine := p, detail := p + 256 * (port s p).neighbour }) ∧
    ((port s p).st = .down → Completes (.downRetrainTimer p) s fun t =>
      port t p = { port s p with st := .training, hello := false } ∧ t.out = .peer p 6 0 :: s.out) ∧
    (Completes .linkHeartbeatSend s fun t => ∀ q, q < 16 → (port s q).live = true → Safety.Told (port s q) q 2 0 ∈ t.out) ∧
    (∀ (b : List Byte) (h : Nat), (port s p).live = true → flitGood b = true → h = fieldAt b 0 8 → h.testBit 56 = false →
      (port s p).queue0 = [] → (port s p).queue1 = [] → Completes (.linkHeartbeat ⟨p, b⟩) s fun t =>
        port t p = { (port s p).takeAck h with heardAt := s.mod.devTime })

/-- R305 to R307: at the end of a window each wavelength in service holds what was measured. The lowest failing lane asks for the spare
where AUTO_SPARE is set and the spare is free and good; else it is removed, the port is Degraded, and with fewer than MIN_LANES lanes
its link is lost. A lane that failed in a window of a Hold is handled in the first window after it (Table 9.7). A peer's request moves
our transmit lane onto wavelength 8, its acknowledgement our receive lane; a lane that the peer removes leaves our transmit lanes; and
eyes are measured again. The layout of a management flit's payload (log entry 41) and that a removed lane is logged at both ends (log
entry 134) are DEDUCED; that a lane whose spare request is pending stays is the model's choice (log entry 130). -/
def Obligations.LanesAreSpared : Prop :=
  ∀ (p : Fin 16) (ser : List Word) (uncorr noLock : BitVec 9) (bad : List Nat) (s : State), (port s p).usable = true →
    bad = (List.range 8).filter (fun k => decide ((port s p).rxMap.getD k 15 ≠ 15)
      && (laneFailing s ser uncorr noLock ((port s p).rxMap.getD k 15) || (port s p).failedHold.contains ((port s p).rxMap.getD k 15)) && (port s p).spareAsked != some k) →
    (bad = [] → Completes (.laneMonitorWindow p ser uncorr noLock) s fun t =>
      (port t p).rxMap = (port s p).rxMap ∧ (port t p).st = (port s p).st ∧ t.out = s.out
        ∧ ∀ w, w ∈ (port s p).rxMap → w < 8 → (optLane t p w).ser = (ser.getD w 0).toNat ∧ (optLane t p w).lock = !noLock.getLsbD w) ∧
    (∀ k, bad = [k] → regBit s rOptCtrl 20 = true → spareFree (port s p) (laneFailing s ser uncorr noLock 8) = true →
      Completes (.laneMonitorWindow p ser uncorr noLock) s fun t =>
        (port t p).spareAsked = some k ∧ (port t p).rxMap = (port s p).rxMap ∧ t.out = Safety.Told (port s p) p 3 k :: s.out) ∧
    (∀ k, bad = [k] → regBit s rOptCtrl 20 = false ∨ spareFree (port s p) (laneFailing s ser uncorr noLock 8) = false →
      Completes (.laneMonitorWindow p ser uncorr noLock) s fun t => flagUp t .opt 2 = true ∧
        (minLanes s ≤ lanesIn ((port s p).rxMap.set k 15) → (port t p).rxMap = (port s p).rxMap.set k 15 ∧ (port t p).st = .degraded
          ∧ Logged s t { code := 0x0804, source := 6, action := 6, engine := p, detail := p + 16 * k + 256 * (port s p).neighbour }) ∧
        (lanesIn ((port s p).rxMap.set k 15) < minLanes s → (port t p).st = .training ∧ flagUp t .opt 0 = true)) ∧
    (∀ (b : List Byte) (h : Nat) (q : Port), flitGood b = true → h = fieldAt b 0 8 → h.testBit 56 = false → q = (port s p).takeAck h →
    (∀ k : Fin 8, q.txMap.getD k 15 ≠ 15 → q.txMap.contains 8 = false → q.queue0 = [] → q.queue1 = [] →
      Completes (.spareRequest ⟨p, b⟩ k) s fun t =>
      port t p = { q.acked with txMap := q.txMap.set k 8 } ∧ t.out = Safety.Told q p 4 k :: s.out ∧ flagUp t .opt 2 = true
        ∧ Logged s t { code := 0x0803, source := 6, action := 6, engine := p, detail := p + 16 * k + 256 * (port s p).neighbour }) ∧
    (∀ k, (port s p).spareAsked = some k → Completes (.spareAcknowledged ⟨p, b⟩) s fun t =>
      (port t p).rxMap = (port s p).rxMap.set k 8 ∧ (port t p).spareAsked = none
        ∧ (optLane t p ((port s p).rxMap.getD k 15)).failed = true ∧ flagUp t .opt 2 = true
        ∧ Logged s t { code := 0x0803, source := 6, action := 6, engine := p, detail := p + 16 * k + 256 * (port s p).neighbour }) ∧
    (∀ k, h % 4 = 2 → fieldAt b 8 1 = 7 → fieldAt b 9 4 = k → q.txMap.getD k 15 ≠ 15 → minLanes s ≤ lanesIn (q.txMap.set k 15) →
      Completes (.idleFlitReceived p b) s fun t => (port t p).txMap = q.txMap.set k 15 ∧ (port t p).st = .degraded ∧ flagUp t .opt 2 = true
        ∧ Logged s t { code := 0x0804, source := 6, action := 6, engine := p, detail := p + 16 * k + 256 * q.neighbour })) ∧
    (∀ (w : Fin 9) (ew eh : Byte), w.val = 8 ∨ w.val ∈ (port s p).rxMap → Completes (.eyeRemeasure [(p, w, ew, eh)]) s fun t =>
      (optLane t p w).eyeW = ew.toNat ∧ (optLane t p w).eyeH = eh.toNat ∧ ∀ v, v ≠ w.val → optLane t p v = optLane s p v)

/-- R308, R309, R455: a present bay that fails is no longer healthy. Where it serves a group and a healthy spare is there, the group moves
onto the lowest such bay and its live links train; where none is, its live links go Down. When the light returns the map shows the new
bay, and a source fitted later reads as present where there is standby power. A bay whose interlock opens reads as not fitted, and one
that serves a group fails likewise.

R310: a RELEASE of a serving bay with a healthy spare starts a transfer: the group's usable ports ask their peers for Hold and enter it.
With no healthy spare it completes with result 2, and for a bay that serves no group with 3. The crossbar's move puts the group on the
spare, the released bay reads SAFE, and held ports return to their prior states. A peer's request holds a usable port too. The fields of
the LASER_TRANSFER entry (log entry 125) and what a release does while another runs (log entry 131) are the model's choice; the layout
of the Hold request is DEDUCED (log entry 41). -/
def Obligations.LasersServe : Prop :=
  (∀ (b : Fin 5) (s : State), s.mod.st ≠ .off →
    (∀ (c : Instr) (g : Nat) (s' : State), (bay s b).present = true → (bay s b).healthy = true → groupOf s b = some g →
      s.opt.transfer = none → s.opt.moving = [] → s.fwu.act ≠ .ports →
      c = .laserFault b ∧ s' = modBay b (fun y => { y with healthy := false }) s ∨ c = .bayInterlockOpen b ∧ s' = modBay b (fun _ => {}) s →
      Completes c s fun t => flagUp t .opt 5 = true ∧ bay t b = bay s' b ∧ t.opt.map = s.opt.map ∧
        (∀ sp, healthySpare s' = some sp → t.opt.moving = [(g, sp)]
          ∧ ∀ p ∈ groupPorts g, (port s p).live = true → (port t p).st = .training) ∧
        (healthySpare s' = none → t.opt.moving = [] ∧ ∀ p ∈ groupPorts g, (port s p).live = true → (port t p).st = .down)) ∧
    (∀ (g : Fin 4), s.opt.moving.find? (·.1 == g.val) = some (g.val, b.val) → Completes (.lightReturns g) s fun t =>
      t.opt.map = s.opt.map.set g b ∧ (bay t b).safe = false ∧ t.opt.moving = s.opt.moving.filter (·.1 != g.val)) ∧
    (∀ (healthy : Bool) (temp power : Byte), (bay s b).fitted = false → Completes (.bayInserted b healthy temp power) s fun t =>
      bay t b = { fitted := true, present := true, healthy := healthy, safe := false, temp := temp.toNat, power := power.toNat }
        ∧ t.opt.map = s.opt.map ∧ t.out = s.out)) ∧
  (∀ s : State,
    (∀ b : Fin 8, inService s = true → s.opt.transfer = none →
      (∀ g sp, healthySpare s = some sp → groupOf s b = some g → (∀ m ∈ s.opt.moving, m.1 ≠ g) → Completes (.laserRelease b) s fun t =>
        t.opt.transfer = some (g, b.val, sp) ∧ t.opt.result = 0 ∧ reg t rOptLaserCtrl = b.val ∧
          ∀ p ∈ groupPorts g, (port s p).usable = true →
            port t p = { (port s p).acked with prior := (port s p).st, st := .hold, peerHold := false }
              ∧ Safety.Told (port s p) p 5 0 ∈ t.out) ∧
      (healthySpare s = none → Completes (.laserRelease b) s fun t => t.opt = { s.opt with result := 2 }) ∧
      ((healthySpare s).isSome = true → groupOf s b = none → Completes (.laserRelease b) s fun t => t.opt = { s.opt with result := 3 })) ∧
    (∀ g b sp, s.opt.transfer = some (g, b, sp) → b ≠ sp → s.rdx.pair.wait = [] →
      (∀ p ∈ groupPorts g, (port s p).replayDue = false) → Completes .laserTransfer s fun t =>
      t.opt.map = s.opt.map.set g sp ∧ t.opt.transfer = none ∧ t.opt.result = 1 ∧ (bay t b).safe = true ∧ (bay t sp).safe = false
        ∧ Logged s t { code := 0x080A, source := 6, engine := b, detail := 4 * g }
        ∧ ∀ p ∈ groupPorts g, (port s p).st = .hold → (port s p).peerHold = false → (port t p).st = (port s p).prior) ∧
    (∀ (p : Fin 16) (b : List Byte) (h : Nat), (port s p).usable = true → flitGood b = true → h = fieldAt b 0 8 → h.testBit 56 = false →
      Completes (.holdRequest ⟨p, b⟩) s fun t =>
      port t p = { (port s p).takeAck h with prior := (port s p).st, st := .hold, peerHold := true } ∧ t.out = s.out))

/-- R362 to R365: a MEM_SCRUB that passes validation joins its scrubber's queue; a LENGTH of 0 completes as soon as it is at the head. The
scrubber's job ends at the end of its range, or after 10 ms without progress for the bytes it reached: the summary is written, the
single-bit errors outside the ranges retired at its acceptance are corrected where WRITEBACK is set, and the completion counts them,
with SCRUB_UNCORRECTABLE where a codeword could not be corrected and WATCHDOG after the wait; T_END is then the time 10 ms before
(DEDUCED, log entry 207: that of the last read). -/
def Obligations.ScrubsRun : Prop :=
  (∀ (ctx : Fin 16) (ring : Fin 8) (a : Accepted) (j : ScrubJob) (s : State), Dispatches s ctx ring 0x61 a →
    j = ⟨a.ref, fieldAt a.bytes 32 8, fieldAt a.bytes 24 8, (fieldAt a.bytes 16 1).testBit 0, fieldAt a.bytes 40 8, s.mod.devTime, s.mem.rtab⟩ →
    scrubStatus s j = 0 →
    (j.len ≠ 0 ∨ scrubQueue s (decide (hbmBase ≤ j.start)) ≠ [] → Completes (.memScrub ctx ring) s fun t =>
      scrubQueue t (decide (hbmBase ≤ j.start)) = scrubQueue s (decide (hbmBase ≤ j.start)) ++ [j] ∧ (Safety.GoodHeaders s ctx ring → t.out = s.out)
        ∧ t.mem.cells = s.mem.cells ∧ t.mem.errs = s.mem.errs) ∧
    (j.len = 0 → scrubQueue s (decide (hbmBase ≤ j.start)) = [] → Completes (.memScrub ctx ring) s fun t => Ended s t a.ref 0 (leBytes 4 0 ++ leBytes 4 0 ++ leBytes 8 0))) ∧
  (∀ (hbm wdog : Bool) (reached : DWord) (c : Instr) (j : ScrubJob) (js : List ScrubJob) (n : Nat) (good bad : List (Nat × Bool))
      (s : State), scrubQueue s hbm = j :: js → (findDesc s j.ref).isSome = true → (∀ k ∈ js, k.ref ≠ j.ref ∧ k.len ≠ 0) →
    c = (if wdog then .scrubWatchdog hbm reached else .scrubDone hbm) →
    n = (if wdog then min j.len (reached.toNat / scrubUnit hbm * scrubUnit hbm) else j.len) →
    good = (scrubErrors s j n).filter (fun e => !e.2) → bad = (scrubErrors s j n).filter (·.2) → Completes c s fun t =>
      (scrubQueue t hbm).map (·.ref) = js.map (·.ref) ∧ Counted s t cMemScrub (n - retiredBytes (scrubMem s j) j.start n) ∧
      Ended s t j.ref (if wdog then 0x0C01 else if bad = [] then 0 else 0x0901)
        (leBytes 4 (min good.length 0xFFFFFFFF) ++ leBytes 4 (min bad.length 0xFFFFFFFF)
          ++ leBytes 8 (n - retiredBytes (scrubMem s j) j.start n)) ∧
      (j.writeback = true → ∀ e ∈ good, tabGet none t.mem.errs e.1 = none) ∧ (bad ≠ [] → flagUp t .mem 2 = true) ∧
      ∀ i, i < 64 → tabGet 0 t.mem.cells (j.summary + i) = byteAt (scrubSummary j (n - retiredBytes (scrubMem s j) j.start n)
        (retiredBytes (scrubMem s j) j.start n) good.length bad.length (bad.head?.map (·.1))
        (if wdog then max j.tStart (s.mod.devTime - 10000000) else s.mod.devTime)) i)

/-- R366 to R368: a MEM_RETIRE of the physical function adds an entry to the retention table, or clears one; retires a row or a column that
has a line to spare, or a whole Drawer that is not busy, which leaves every map. Its completion gives the outcome: 0 added, 1 retired
before, 2 cleared, 3 not there; a change sets RETIRE_SEEN. -/
def Obligations.RetirementsAreMade : Prop :=
  ∀ (ctx : Fin 16) (ring : Fin 8) (a : Accepted) (e : Retirement) (s : State), Dispatches s ctx ring 0x62 a →
    retireInvalid a.bytes = false → functionOf s ctx = 0 → e = retirementOf (retKind a.bytes) (retAddress a.bytes) →
    (retKind a.bytes ≤ 2 → retClear a.bytes = false → e ∉ s.mem.rtab → s.mem.rtab.length < 1024 → Completes (.memRetire ctx ring) s fun t =>
      t.mem.rtab = s.mem.rtab ++ [e] ∧ flagUp t .mem 3 = true
        ∧ Ended s t a.ref 0 (leBytes 1 0 ++ leBytes 1 0 ++ leBytes 2 (s.mem.rtab.length + 1))) ∧
    (retKind a.bytes ≤ 2 → retClear a.bytes = false → e ∈ s.mem.rtab → Completes (.memRetire ctx ring) s fun t =>
      t.mem.rtab = s.mem.rtab ∧ Ended s t a.ref 0 (leBytes 1 1 ++ leBytes 1 0 ++ leBytes 2 s.mem.rtab.length)) ∧
    (retKind a.bytes ≤ 2 → retClear a.bytes = true → Completes (.memRetire ctx ring) s fun t =>
      t.mem.rtab = s.mem.rtab.erase e ∧ (e ∈ s.mem.rtab → flagUp t .mem 3 = true)
        ∧ Ended s t a.ref 0 (leBytes 1 (if e ∈ s.mem.rtab then 2 else 3) ++ leBytes 1 0 ++ leBytes 2 t.mem.rtab.length)) ∧
    (retKind a.bytes = 3 → retIndex a.bytes ∉ (drawer s (retDrawer a.bytes)).retRows → (drawer s (retDrawer a.bytes)).retRows.length < 8 →
      Completes (.memRetire ctx ring) s fun t =>
        (drawer t (retDrawer a.bytes)).retRows = (drawer s (retDrawer a.bytes)).retRows ++ [retIndex a.bytes]
          ∧ flagUp t .mem 3 = true ∧ ∃ tail, Ended s t a.ref 0 (leBytes 1 0 ++ tail)) ∧
    (retKind a.bytes = 4 → retIndex a.bytes ∉ (drawer s (retDrawer a.bytes)).retCols → (drawer s (retDrawer a.bytes)).retCols.length < 8 →
      Completes (.memRetire ctx ring) s fun t =>
        (drawer t (retDrawer a.bytes)).retCols = (drawer s (retDrawer a.bytes)).retCols ++ [retIndex a.bytes]
          ∧ (trimOf t (retDrawer a.bytes) (retIndex a.bytes)).getLsbD 31 = false ∧ flagUp t .mem 3 = true
          ∧ ∃ tail, Ended s t a.ref 0 (leBytes 1 0 ++ tail)) ∧
    (retKind a.bytes = 5 → (drawer s (retDrawer a.bytes)).retired = false → plnBusy s (retDrawer a.bytes) = false →
      (drawer s (retDrawer a.bytes)).planeA.hold = 0 → (drawer s (retDrawer a.bytes)).planeB.hold = 0 →
      canonical s = true → (∀ r ∈ s.cal.runs, r.ref ≠ some a.ref) → Completes (.memRetire ctx ring) s fun t =>
        (drawer t (retDrawer a.bytes)).retired = true ∧ (∀ n, mapped t n (retDrawer a.bytes) = false) ∧ flagUp t .mem 3 = true
          ∧ ∃ tail, Ended s t a.ref 0 (leBytes 1 0 ++ tail))

/-- R380, R384, R387, R391: a run that is asked for, by descriptor, by register, or by a temperature that has moved by more than DELTA from
its reference, starts with the Drawers in service of its range or die. Where CAL_VREF on a die is outside its limits the run does not
reach the Drawers of that die, and goes on with the others (the model's choice for a run over several dies, log entry 170); a CAL_RUN
left with none completes with CAL_VREF_FAULT.

R381, R382, R385: a Drawer that a run has to calibrate, at a gap between its descriptors, is calibrated for that run and counted: the
set staged, or in force where no step of a context that maps it is open, holds each column's fit, not valid where the column is retired
or was remapped after the run began (R378); a reference row that reads wrong leaves no entry valid (DEDUCED, log entry 173). With its
last Drawer the run ends, and its CAL_RUN completes. A run that reaches 1 s is stopped, and counted.

R388 to R390: CAL_SAVE writes the image of the range where it lies and completes with its count. CAL_RESTORE from a good image stages
the entries of each Drawer whose remap table is as it was, their reserved bit ignored and the columns held clear not valid; they are in
force at once where no step that maps the Drawer is open. That both act when they are accepted is DEDUCED (log entry 177). -/
def Obligations.CalibrationRuns : Prop :=
  ((∀ (ctx : Fin 16) (ring : Fin 8) (vref : List (Fin 2097152)) (a : Accepted) (ds reached : List Nat) (dies : Nat → Prop) (s : State),
    Dispatches s ctx ring 0x73 a → calStatus s ctx a.bytes = 0 → ds = inServiceDrawers s (calFirst a.bytes) (calCount a.bytes) →
    reached = ds.filter (fun d => vrefGood (vrefOf vref (dieOf d))) →
    (∀ die, dies die ↔ die < 8 ∧ dieOf (calFirst a.bytes) ≤ die ∧ die ≤ dieOf (calFirst a.bytes + calCount a.bytes - 1)) →
    (∀ r ∈ s.cal.runs, r.todo ≠ []) →
    ((∀ die, dies die → vrefGood (vrefOf vref die) = true) → ds ≠ [] → Completes (.calRun ctx ring vref) s fun t =>
      t.cal.runs = s.cal.runs ++
        [{ num := s.cal.begun, die := dieOf (calFirst a.bytes), ref := some a.ref, todo := ds, started := s.mod.devTime }]
          ∧ (Safety.GoodHeaders s ctx ring → t.out = s.out)) ∧
    (∀ die, dies die → vrefGood (vrefOf vref die) = false → Completes (.calRun ctx ring vref) s fun t => flagUp t .cal 2 = true ∧
      (reached ≠ [] → ∃ r, t.cal.runs = s.cal.runs ++ [r] ∧ r.ref = some a.ref ∧ r.todo = reached ∧ r.vrefFault = true
        ∧ r.notReached + reached.length = ds.length) ∧
      (reached = [] → t.cal.runs = s.cal.runs ∧ ∃ tail, Ended s t a.ref 0x0A02 tail))) ∧
  (∀ (c : Instr) (die : Fin 8) (dies : Byte) (vref : List (Fin 2097152)) (s : State), inService s = true →
    vrefGood (vrefOf vref die) = true → wholeDieRunning s die = false → inServiceDrawers s (2048 * die) 2048 ≠ [] →
    c = .calReq dies vref ∧ dies.getLsbD die = true
      ∨ c = .calTempCheck vref ∧ regBit s rCalCtrl 0 = true ∧ (dieCal s die).refValid = true ∧ dieRunning s die = false
        ∧ reg s rCalTrig % 256 < (dieReading s die - (dieCal s die).tRef).natAbs →
    Completes c s fun t => ∃ r ∈ t.cal.runs, r.ref = none ∧ r.die = die.val ∧ r.todo = inServiceDrawers s (2048 * die) 2048
      ∧ r.tRef = dieReading s die ∧ r.started = s.mod.devTime)) ∧
  ((∀ (d : Fin 16384) (dev : Tab Int) (refBad : Option Nat) (codes : Tab (List Int)) (r : CalRun) (rs : List CalRun) (s : State),
    s.cal.runs = r :: rs → r.todo.contains d.val = true → r ∉ rs → (∀ q ∈ rs, q.todo ≠ []) → atGap s d = true →
    refBad = refBadRow (drawer s d) dev → Completes (.drawerCalibration d dev codes) s fun t =>
      Counted s t cCalRuns 1 ∧
      (refBad = none → (∀ n, n < 16 → (mapped s n d && executingStep s n) = false) → (drawer t d).staged = none ∧ (drawer t d).unmeasured = (drawer s d).unmeasured.filter (fun e => decide (r.num < e.2))
        ∧ ∀ c, c < 1024 → trimOf t d c = (fitColumn (tabGet idealCodes codes c)).entry
            (decide (reg s rCalLimit % 64 < (fitColumn (tabGet idealCodes codes c)).quality))
            (!(decide (reg s rCalLimit % 64 < (fitColumn (tabGet idealCodes codes c)).quality) && regBit s rCalCtrl 1)
              && !heldInRun (drawer s d) r.num c)) ∧
      (∀ row, refBad = some row → flagUp t .cal 1 = true
        ∧ ((∀ n, n < 16 → (mapped s n d && executingStep s n) = false) → ∀ c, c < 1024 → trimOf t d c = 0)) ∧
      (r.todo.filter (· != d.val) ≠ [] → (∃ q ∈ t.cal.runs, q.todo = r.todo.filter (· != d.val) ∧ q.done = r.done ++ [d.val])
        ∧ t.out = s.out) ∧
      (r.todo.filter (· != d.val) = [] → t.cal.runs = rs ∧ flagUp t .cal 0 = true
        ∧ ∀ g, r.ref = some g → (findDesc s g).isSome = true → ∃ st tail, Ended s t g st tail ∧ (r.vrefFault = false → st = 0 ∨ st = 0x0A01))) ∧
  (∀ (i : Fin 64) (r : CalRun) (s : State), s.cal.runs[i.val]? = some r → Completes (.calRunWatchdog i) s fun t =>
    t.cal.runs = s.cal.runs.eraseIdx i ∧ Counted s t cCalWdog 1 ∧ flagUp t .cal 3 = true
      ∧ ∀ g, r.ref = some g → (findDesc s g).isSome = true → ∃ tail, Ended s t g 0x0C01 tail)) ∧
  (∀ (ctx : Fin 16) (ring : Fin 8) (a : Accepted) (s : State),
    (Dispatches s ctx ring 0x71 a → calStatus s ctx a.bytes = 0 → Completes (.calSave ctx ring) s fun t =>
      (∀ i, i < calImageBytes a.bytes → tabGet 0 t.mem.cells (calImage a.bytes + i) = byteAt (trimImage s a.bytes) i)
        ∧ ∃ tail, Ended s t a.ref 0 (leBytes 4 (calCount a.bytes) ++ tail)) ∧
    (Dispatches s ctx ring 0x72 a → calStatus s ctx a.bytes = 0 → calCount a.bytes = 1 → Completes (.calRestore ctx ring) s fun t =>
      (readNat s (calImage a.bytes + 68) 4 = remapCheck (drawer s (calFirst a.bytes)) →
        (∃ tail, Ended s t a.ref 0 (leBytes 4 1 ++ leBytes 4 0 ++ tail)) ∧
        ((∀ n, n < 16 → (mapped s n (calFirst a.bytes) && executingStep s n) = false) → ∀ c, c < 1024 →
          trimOf t (calFirst a.bytes) c = (let v := BitVec.ofNat 32 (readNat s (calImage a.bytes + 80 + 4 * c) 4) &&& 0xBFFFFFFF
            if heldClear (drawer s (calFirst a.bytes)) c then v &&& 0x7FFFFFFF else v))) ∧
      (readNat s (calImage a.bytes + 68) 4 ≠ remapCheck (drawer s (calFirst a.bytes)) →
        (∃ tail, Ended s t a.ref 0 (leBytes 4 0 ++ leBytes 4 1 ++ tail)) ∧ flagUp t .cal 4 = true ∧ t.drawers = s.drawers)))
end

