-- ==== Sys2Proof/Laws/Tables.lean ====
section
/-!
SUPPORT. Laws of the sparse tables: what is read after a write, and that every operation keeps the canonical form.
-/
namespace Sys2Proof

/-- What every step of a fold keeps, the fold keeps. -/
theorem foldl_keeps {σ α : Type} (p : σ → Prop) (f : σ → α → σ) (h : ∀ s a, p s → p (f s a)) (l : List α) (s : σ) (hs : p s) :
    p (l.foldl f s) := by
  induction l generalizing s with
  | nil => exact hs
  | cons a l ih => exact ih _ (h s a hs)

/-- What every step of a fold leaves alone, the fold leaves alone. -/
theorem foldl_same {σ α β : Type} (g : σ → β) (f : σ → α → σ) (h : ∀ s a, g (f s a) = g s) (l : List α) (s : σ) :
    g (l.foldl f s) = g s := by
  induction l generalizing s with
  | nil => rfl
  | cons a l ih => exact (ih _).trans (h s a)

/-- Every listed index is above `n`. -/
def tabAbove {α : Type} (n : Nat) (t : Tab α) : Prop := ∀ e ∈ t, n < e.1

theorem tabWf_cons {α : Type} [DecidableEq α] (d : α) (i : Nat) (v : α) (t : Tab α) :
    tabWf d ((i, v) :: t) = true ↔ v ≠ d ∧ tabAbove i t ∧ tabWf d t = true := by
  induction t generalizing i v with
  | nil => simp [tabWf, tabAbove]
  | cons e t ih =>
    obtain ⟨j, w⟩ := e
    rw [tabWf, Bool.and_eq_true, Bool.and_eq_true, decide_eq_true_eq, decide_eq_true_eq]
    constructor
    · rintro ⟨⟨hv, hij⟩, hw⟩
      refine ⟨hv, ?_, hw⟩
      intro e he
      rcases List.mem_cons.1 he with rfl | he
      · exact hij
      · exact Nat.lt_trans hij (((ih j w).1 hw).2.1 e he)
    · rintro ⟨hv, ha, hw⟩
      exact ⟨⟨hv, ha (j, w) (by simp)⟩, hw⟩

theorem tabWf_nil {α : Type} [DecidableEq α] (d : α) : tabWf d ([] : Tab α) = true := rfl

theorem tabGet_above {α : Type} (d : α) (t : Tab α) (n k : Nat) (h : tabAbove n t) (hk : k ≤ n) : tabGet d t k = d := by
  induction t with
  | nil => rfl
  | cons e t ih =>
    obtain ⟨i, v⟩ := e
    have hi : n < i := h (i, v) (by simp)
    rw [tabGet, if_neg (by omega)]
    exact ih fun e he => h e (by simp [he])

theorem tabGet_filter {α : Type} (d : α) (t : Tab α) (p : Nat × α → Bool) (k : Nat) (h : ∀ v, p (k, v) = true) :
    tabGet d (t.filter p) k = tabGet d t k := by
  induction t with
  | nil => rfl
  | cons e t ih =>
    obtain ⟨i, v⟩ := e
    rw [List.filter_cons]
    by_cases hi : i = k
    · subst hi; rw [if_pos (h v), tabGet, tabGet, if_pos rfl, if_pos rfl]
    · split
      · rw [tabGet, tabGet, if_neg hi, if_neg hi, ih]
      · rw [ih, tabGet, if_neg hi]

/-- Leaving entries out keeps the canonical form. -/
theorem tabWf_filter {α : Type} [DecidableEq α] (d : α) (t : Tab α) (p : Nat × α → Bool) (h : tabWf d t = true) :
    tabWf d (t.filter p) = true := by
  induction t with
  | nil => rfl
  | cons e t ih =>
    obtain ⟨i, v⟩ := e
    obtain ⟨hv, ha, ht⟩ := (tabWf_cons d i v t).1 h
    rw [List.filter_cons]
    split
    · exact (tabWf_cons ..).2 ⟨hv, fun e he => ha e (List.mem_filter.1 he).1, ih ht⟩
    · exact ih ht

/-- An index other than the one written reads as before. -/
theorem tabGet_tabSet_ne {α : Type} [DecidableEq α] (d : α) (t : Tab α) (k j : Nat) (v : α) (h : j ≠ k) :
    tabGet d (tabSet d t k v) j = tabGet d t j := by
  induction t with
  | nil =>
    rw [tabSet]; split
    · rfl
    · simp [tabGet, Ne.symm h]
  | cons e t ih =>
    obtain ⟨i, w⟩ := e
    rw [tabSet]
    split
    · simp only [tabGet, ih]
    · split
      · exact tabGet_filter d _ _ j fun v => by simpa using h
      · split
        · rename_i hik
          simp only [tabGet, if_neg (Ne.symm h), if_neg (show i ≠ j by omega)]
        · simp only [tabGet, if_neg (Ne.symm h)]

theorem tabGet_unlisted {α : Type} (d : α) (t : Tab α) (k : Nat) (h : ∀ e ∈ t, e.1 ≠ k) : tabGet d t k = d := by
  induction t with
  | nil => rfl
  | cons e t ih =>
    obtain ⟨i, v⟩ := e
    rw [tabGet, if_neg (h (i, v) (by simp))]
    exact ih fun e he => h e (by simp [he])

/-- The index written reads as the value written. -/
@[simp] theorem tabGet_tabSet_same {α : Type} [DecidableEq α] (d : α) (t : Tab α) (k : Nat) (v : α) :
    tabGet d (tabSet d t k v) k = v := by
  induction t with
  | nil =>
    rw [tabSet]; split
    · rename_i h; rw [tabGet, h]
    · simp [tabGet]
  | cons e t ih =>
    obtain ⟨i, w⟩ := e
    rw [tabSet]
    split
    · rename_i hik
      rw [tabGet, if_neg (by omega), ih]
    · split
      · rename_i hv
        rw [hv]
        exact tabGet_unlisted d _ k fun e he => by simpa using (List.mem_filter.mp he).2
      · split <;> simp [tabGet]

theorem tabGet_tabSet {α : Type} [DecidableEq α] (d : α) (t : Tab α) (k : Nat) (v : α) (_ : tabWf d t = true) :
    tabGet d (tabSet d t k v) k = v := tabGet_tabSet_same d t k v

/-- The index changed reads as its change. -/
@[simp] theorem tabGet_tabMod_same {α : Type} [DecidableEq α] (d : α) (t : Tab α) (k : Nat) (f : α → α) :
    tabGet d (tabMod d t k f) k = f (tabGet d t k) := tabGet_tabSet_same d t k _

theorem tabGet_tabMod_ne {α : Type} [DecidableEq α] (d : α) (t : Tab α) (k j : Nat) (f : α → α) (h : j ≠ k) :
    tabGet d (tabMod d t k f) j = tabGet d t j := tabGet_tabSet_ne d t k j _ h

theorem tabSet_above {α : Type} [DecidableEq α] (d : α) (t : Tab α) (n k : Nat) (v : α) (h : tabAbove n t) (hk : n < k) :
    tabAbove n (tabSet d t k v) := by
  induction t with
  | nil =>
    rw [tabSet]; split
    · exact h
    · intro e he; simp only [List.mem_singleton] at he; rw [he]; exact hk
  | cons e t ih =>
    obtain ⟨i, w⟩ := e
    have hi : n < i := h (i, w) (by simp)
    have ht : tabAbove n t := fun e he => h e (by simp [he])
    have cons : ∀ (a : Nat × α) (l : Tab α), n < a.1 → tabAbove n l → tabAbove n (a :: l) := by
      intro a l ha hl e he
      rcases List.mem_cons.1 he with rfl | he
      · exact ha
      · exact hl e he
    rw [tabSet]
    split
    · exact cons _ _ hi (ih ht)
    · split
      · exact fun e he => h e (List.mem_filter.mp he).1
      · split
        · exact cons _ _ hk ht
        · exact cons _ _ hk h

/-- A write keeps the canonical form. -/
theorem tabWf_tabSet {α : Type} [DecidableEq α] (d : α) (t : Tab α) (k : Nat) (v : α) (h : tabWf d t = true) :
    tabWf d (tabSet d t k v) = true := by
  induction t with
  | nil =>
    rw [tabSet]; split
    · rfl
    · rename_i hv; simp [tabWf, hv]
  | cons e t ih =>
    obtain ⟨i, w⟩ := e
    obtain ⟨hw, ha, ht⟩ := (tabWf_cons d i w t).1 h
    rw [tabSet]
    split
    · rename_i hik
      exact (tabWf_cons ..).2 ⟨hw, tabSet_above d t i k v ha hik, ih ht⟩
    · split
      · exact tabWf_filter d _ _ h
      · rename_i hv
        split
        · rename_i hik
          exact (tabWf_cons ..).2 ⟨hv, hik ▸ ha, ht⟩
        · refine (tabWf_cons ..).2 ⟨hv, ?_, h⟩
          intro e he
          rcases List.mem_cons.1 he with rfl | he
          · simp only; omega
          · have := ha e he; omega

theorem tabWf_tabMod {α : Type} [DecidableEq α] (d : α) (t : Tab α) (k : Nat) (f : α → α) (h : tabWf d t = true) :
    tabWf d (tabMod d t k f) = true := tabWf_tabSet d t k _ h

/-- Mapping a table keeps the canonical form. -/
theorem tabWf_tabMap {α : Type} [DecidableEq α] (d : α) (f : Nat → α → α) (t : Tab α) (h : tabWf d t = true) :
    tabWf d (tabMap d f t) = true := by
  have main : tabWf d (tabMap d f t) = true ∧ ∀ n, tabAbove n t → tabAbove n (tabMap d f t) := by
    induction t with
    | nil => exact ⟨rfl, fun _ _ e he => by cases he⟩
    | cons e t ih =>
      obtain ⟨i, v⟩ := e
      obtain ⟨_, ha, ht⟩ := (tabWf_cons d i v t).1 h
      obtain ⟨hw, hb⟩ := ih ht
      rw [tabMap]
      split
      · exact ⟨hw, fun n hn => hb n fun e he => hn e (List.mem_cons_of_mem _ he)⟩
      · rename_i hv
        refine ⟨(tabWf_cons ..).2 ⟨hv, hb i ha, hw⟩, ?_⟩
        intro n hn e he
        rcases List.mem_cons.1 he with rfl | he
        · exact hn (i, v) (List.mem_cons_self ..)
        · exact hb n (fun e he => hn e (List.mem_cons_of_mem _ he)) e he
  exact main.1

/-- Two canonical tables make one when every index of the first is below every index of the second. -/
theorem tabWf_append {α : Type} [DecidableEq α] (d : α) (t u : Tab α) (ht : tabWf d t = true) (hu : tabWf d u = true)
    (h : ∀ a ∈ t, ∀ b ∈ u, a.1 < b.1) : tabWf d (t ++ u) = true := by
  induction t with
  | nil => exact hu
  | cons e t ih =>
    obtain ⟨i, v⟩ := e
    obtain ⟨hv, ha, ht'⟩ := (tabWf_cons d i v t).1 ht
    refine (tabWf_cons ..).2 ⟨hv, ?_, ih ht' fun a ha' b hb => h a (by simp [ha']) b hb⟩
    intro e he
    rcases List.mem_append.1 he with he | he
    · exact ha e he
    · exact h (i, v) (by simp) e he

/-- Moving every index up by one amount keeps the canonical form, where the indices lie at or above `lo`. -/
theorem tabWf_shift {α : Type} [DecidableEq α] (d : α) (t : Tab α) (lo hi : Nat) (h : tabWf d t = true)
    (hlo : ∀ e ∈ t, lo ≤ e.1) : tabWf d (t.map fun e => (e.1 - lo + hi, e.2)) = true := by
  induction t with
  | nil => rfl
  | cons e t ih =>
    obtain ⟨i, v⟩ := e
    obtain ⟨hv, ha, ht⟩ := (tabWf_cons d i v t).1 h
    have hl : lo ≤ i := hlo (i, v) (by simp)
    refine (tabWf_cons ..).2 ⟨hv, ?_, ih ht fun e he => hlo e (by simp [he])⟩
    intro e he
    obtain ⟨x, hx, rfl⟩ := List.mem_map.1 he
    have := ha x hx
    simp only
    omega

theorem tabGet_nil {α : Type} (d : α) (k : Nat) : tabGet d [] k = d := rfl

theorem tabGet_append {α : Type} (d : α) (t u : Tab α) (k : Nat) (h : ∀ e ∈ t, e.1 ≠ k) :
    tabGet d (t ++ u) k = tabGet d u k := by
  induction t with
  | nil => rfl
  | cons e t ih =>
    obtain ⟨i, v⟩ := e
    have hi : i ≠ k := h (i, v) (by simp)
    rw [List.cons_append, tabGet, if_neg hi]
    exact ih fun e he => h e (by simp [he])

theorem tabGet_append_left {α : Type} (d : α) (t u : Tab α) (k : Nat) (h : ∀ e ∈ u, e.1 ≠ k) :
    tabGet d (t ++ u) k = tabGet d t k := by
  induction t with
  | nil =>
    rw [List.nil_append]
    have := tabGet_append d u [] k h
    rw [List.append_nil] at this
    rw [this]
  | cons e t ih =>
    obtain ⟨i, v⟩ := e
    rw [List.cons_append]
    simp only [tabGet, ih]

/-- What holds of every entry holds of every entry after one is set to a value it holds of. -/
theorem tabAll_tabSet {α : Type} [DecidableEq α] (p : α → Prop) (d : α) (t : Tab α) (k : Nat) (v : α) (h : ∀ e ∈ t, p e.2) (hv : p v) :
    ∀ e ∈ tabSet d t k v, p e.2 := by
  induction t with
  | nil =>
    intro e he
    unfold tabSet at he
    split at he
    · simp at he
    · simp only [List.mem_singleton] at he; subst he; exact hv
  | cons a t ih =>
    have hm : ∀ e ∈ t, p e.2 := fun e he => h e (List.mem_cons_of_mem _ he)
    have ha : p a.2 := h a List.mem_cons_self
    intro e he
    unfold tabSet at he
    split at he
    · rcases List.mem_cons.mp he with rfl | he
      · exact ha
      · exact ih hm e he
    · split at he
      · exact h e (List.mem_filter.mp he).1
      · split at he
        · rcases List.mem_cons.mp he with rfl | he
          · exact hv
          · exact hm e he
        · rcases List.mem_cons.mp he with rfl | he
          · exact hv
          · exact h e he

/-- What holds of every listed entry and of the default holds of any entry. -/
theorem tabAll_tabGet {α : Type} (p : α → Prop) (d : α) (t : Tab α) (k : Nat) (h : ∀ e ∈ t, p e.2) (hd : p d) : p (tabGet d t k) := by
  induction t with
  | nil => exact hd
  | cons a t ih =>
    unfold tabGet
    split
    · exact h a List.mem_cons_self
    · exact ih fun e he => h e (List.mem_cons_of_mem _ he)

end Sys2Proof
end

