-- ==== Sys2Proof/Laws/Memory.lean ====
section
/-!
SUPPORT. Laws of device memory: what is read after a store, and that every operation keeps the canonical form.
-/
namespace Sys2Proof.Machine

theorem wf_iff (m : MemBlk) : Memory.wf m = true ↔ tabWf 0 m.cells = true ∧ tabWf none m.errs = true := by
  rw [Memory.wf, Bool.and_eq_true]

theorem cellsOf_bounds (a : Nat) (bs : List Byte) : ∀ e ∈ cellsOf a bs, a ≤ e.1 ∧ e.1 < a + bs.length := by
  induction bs generalizing a with
  | nil => intro e he; simp [cellsOf] at he
  | cons b bs ih =>
    intro e he
    have step : ∀ e ∈ cellsOf (a + 1) bs, a ≤ e.1 ∧ e.1 < a + (bs.length + 1) := by
      intro e he
      have := ih (a + 1) e he
      omega
    rw [cellsOf] at he
    rw [List.length_cons]
    split at he
    · exact step e he
    · rcases List.mem_cons.1 he with rfl | he
      · simp only; omega
      · exact step e he

theorem tabWf_cellsOf (a : Nat) (bs : List Byte) : tabWf 0 (cellsOf a bs) = true := by
  induction bs generalizing a with
  | nil => rfl
  | cons b bs ih =>
    rw [cellsOf]
    split
    · exact ih (a + 1)
    · rename_i hb
      refine (tabWf_cons ..).2 ⟨hb, ?_, ih (a + 1)⟩
      intro e he
      have := cellsOf_bounds (a + 1) bs e he
      omega

/-- A store keeps the canonical form. -/
theorem tabWf_memStore (m : Tab Byte) (a : Nat) (bs : List Byte) (h : tabWf 0 m = true) : tabWf 0 (memStore m a bs) = true := by
  rw [memStore]
  refine tabWf_append _ _ _ (tabWf_append _ _ _ (tabWf_filter _ _ _ h) (tabWf_cellsOf a bs) ?_) (tabWf_filter _ _ _ h) ?_
  · intro x hx y hy
    have h1 := of_decide_eq_true (List.mem_filter.1 hx).2
    have h2 := cellsOf_bounds a bs y hy
    omega
  · intro x hx y hy
    have h3 := of_decide_eq_true (List.mem_filter.1 hy).2
    rcases List.mem_append.1 hx with hx | hx
    · have h1 := of_decide_eq_true (List.mem_filter.1 hx).2
      omega
    · have h2 := cellsOf_bounds a bs x hx
      omega

theorem tabGet_cellsOf (a : Nat) (bs : List Byte) (i : Nat) (h : i < bs.length) : tabGet 0 (cellsOf a bs) (a + i) = byteAt bs i := by
  induction bs generalizing a i with
  | nil => simp at h
  | cons b bs ih =>
    rw [List.length_cons] at h
    rw [cellsOf]
    cases i with
    | zero =>
      split
      · rename_i hb
        have hz : tabGet (0 : Byte) (cellsOf (a + 1) bs) (a + 0) = 0 :=
          tabGet_above 0 _ a _ (fun e he => by have := cellsOf_bounds (a + 1) bs e he; omega) (by omega)
        rw [hz]
        simp [byteAt, hb]
      · simp [tabGet, byteAt]
    | succ i =>
      have hi := ih (a + 1) i (by omega)
      rw [show a + 1 + i = a + (i + 1) by omega] at hi
      have hb : byteAt (b :: bs) (i + 1) = byteAt bs i := rfl
      split
      · rw [hi, hb]
      · rw [tabGet, if_neg (by omega), hi, hb]

/-- A byte stored reads back. -/
theorem memStore_read (m : Tab Byte) (a : Nat) (bs : List Byte) (i : Nat) (h : i < bs.length) :
    tabGet 0 (memStore m a bs) (a + i) = byteAt bs i := by
  rw [memStore]
  rw [tabGet_append_left, tabGet_append]
  · exact tabGet_cellsOf a bs i h
  · intro e he
    have := of_decide_eq_true (List.mem_filter.1 he).2
    omega
  · intro e he
    have := of_decide_eq_true (List.mem_filter.1 he).2
    omega

/-- A byte outside the stored range reads as before. -/
theorem memStore_other (m : Tab Byte) (a : Nat) (bs : List Byte) (x : Nat) (h : x < a ∨ a + bs.length ≤ x) :
    tabGet 0 (memStore m a bs) x = tabGet 0 m x := by
  rw [memStore]
  rcases h with h | h
  · rw [tabGet_append_left, tabGet_append_left]
    · exact tabGet_filter 0 m _ x fun v => by simp [h]
    · intro e he
      have := cellsOf_bounds a bs e he
      omega
    · intro e he
      have := of_decide_eq_true (List.mem_filter.1 he).2
      omega
  · rw [tabGet_append]
    · exact tabGet_filter 0 m _ x fun v => by simp [h]
    · intro e he
      rcases List.mem_append.1 he with he | he
      · have := of_decide_eq_true (List.mem_filter.1 he).2
        omega
      · have := cellsOf_bounds a bs e he
        omega

/-- The fill leaves memory in canonical form. -/
theorem fillMemory_wf (warm : Bool) (s : State) (h : Memory.wf s.mem = true) : Memory.wf (fillMemory warm s).mem = true := by
  rw [wf_iff] at h ⊢
  exact ⟨tabWf_filter _ _ _ h.1, tabWf_filter _ _ _ h.2⟩

theorem copyCells_wf (src dst n : Nat) (t m : Tab Byte) (ht : tabWf 0 t = true) (hm : tabWf 0 m = true) :
    tabWf 0 (copyCells src dst n t m) = true := by
  have inside : ∀ z ∈ t.filter (fun c => decide (src ≤ c.1) && decide (c.1 < src + n)), src ≤ z.1 ∧ z.1 < src + n := by
    intro z hz
    have := (List.mem_filter.1 hz).2
    simpa only [Bool.and_eq_true, decide_eq_true_eq] using this
  refine tabWf_append _ _ _ (tabWf_append _ _ _ (tabWf_filter _ _ _ hm)
    (tabWf_shift _ _ _ _ (tabWf_filter _ _ _ ht) fun e he => (inside e he).1) ?_) (tabWf_filter _ _ _ hm) ?_
  · intro x hx y hy
    have h1 := of_decide_eq_true (List.mem_filter.1 hx).2
    obtain ⟨z, hz, rfl⟩ := List.mem_map.1 hy
    have := inside z hz
    simp only
    omega
  · intro x hx y hy
    have h3 := of_decide_eq_true (List.mem_filter.1 hy).2
    rcases List.mem_append.1 hx with hx | hx
    · have h1 := of_decide_eq_true (List.mem_filter.1 hx).2
      omega
    · obtain ⟨z, hz, rfl⟩ := List.mem_map.1 hx
      have := inside z hz
      simp only
      omega

theorem storeSlice_wf (s : State) (i k : Nat) (m : Tab Byte) (hs : tabWf 0 s.mem.cells = true) (h : tabWf 0 m = true) :
    tabWf 0 (storeSlice s i k m) = true := by
  unfold storeSlice
  refine foldl_keeps (fun m => tabWf 0 m = true) _ ?_ _ _ (copyCells_wf _ _ _ _ _ hs h)
  intro m e hm
  split
  · exact tabWf_memStore _ _ _ hm
  · exact hm

/-- The dump leaves memory in canonical form. -/
theorem dumpCells_wf (s : State) (d cause : Nat) (h : tabWf 0 s.mem.cells = true) : tabWf 0 (dumpCells s d cause) = true := by
  unfold dumpCells
  refine foldl_keeps (fun m => tabWf 0 m = true) _ ?_ _ _
    (tabWf_memStore _ _ _ (tabWf_memStore _ _ _ (tabWf_memStore _ _ _ (tabWf_filter _ _ _ h))))
  intro m i hm
  split
  · exact storeSlice_wf _ _ _ _ h hm
  · exact hm

end Sys2Proof.Machine
end

