-- ==== Sys2Proof/Laws/Keeps.lean ====
section
/-!
SUPPORT. What every operation of the block but a few keeps: one relation between the state before and after, reflexive and
transitive, with the set of the parts that may change, and the ways to build it. The proofs that follow are many and small: they are
elaborated one after another.
-/
set_option Elab.async false

namespace Sys2Proof.Machine

/-- The bit of a part in a set of parts. -/
def Area.bit : Area → Nat
  | .module => 0
  | .log => 1
  | .registers => 2
  | .nightstand => 3
  | .recovery => 4
  | .firmware => 5
  | .doors => 6
  | .functions => 7
  | .copies => 8
  | .memory => 9
  | .errors => 10
  | .retirements => 11
  | .scrubs => 12
  | .trestle => 13
  | .dresser => 14
  | .steps => 15
  | .drawers => 16
  | .chests => 17
  | .maps => 18
  | .calibration => 19
  | .ports => 20
  | .bays => 21
  | .peers => 22
  | .inbox => 23
  | .groups => 24
  | .pair => 25
  | .units => 26
  | .held => 27
  | .output => 28
  | .flags b => 32 + b.code
  | .counters b => 48 + b.code

/-- The parts of `G` are among those of `F`. -/
abbrev Within (G F : Nat) : Prop := Nat.land G F = G

theorem Within.bit {G F : Nat} (h : Within G F) (i : Nat) (hf : F.testBit i = false) : G.testBit i = false := by
  have : (Nat.land G F).testBit i = (G.testBit i && F.testBit i) := Nat.testBit_and ..
  rw [h, hf, Bool.and_false] at this
  exact this

theorem Within.trans {H G F : Nat} (h : Within H G) (k : Within G F) : Within H F := by
  have a : H &&& G = H := h
  have b : G &&& F = G := k
  show H &&& F = H
  rw [← a, Nat.land_assoc, b]

/-- What no part outside `F` shows: the parts are the same. -/
def Frame (F : Nat) (s t : State) : Prop := ∀ p : Area, F.testBit p.bit = false → p.same s t

theorem Area.same_refl (p : Area) (s : State) : p.same s s := by
  cases p
  case counters => exact fun _ _ => rfl
  all_goals simp [Area.same]

theorem Area.same_trans {p : Area} {s x t : State} (h : p.same s x) (k : p.same x t) : p.same s t := by
  cases p
  case counters => exact fun off ho => (k off ho).trans (h off ho)
  all_goals simp_all [Area.same]

/-- A doorbell page returned to its reset values keeps every page's tables canonical. -/
theorem pages_fresh (t : Tab Door) (k : Nat) (h : ∀ e ∈ t, pageWf e.2 = true) : ∀ e ∈ tabSet {} t k {}, pageWf e.2 = true :=
  tabAll_tabSet (fun d => pageWf d = true) _ _ _ _ h rfl

theorem pages_nil : ∀ e ∈ ([] : Tab Door), pageWf e.2 = true := fun _ h => absurd h List.not_mem_nil

/-- The tables stay canonical. -/
structure Tables (s t : State) : Prop where
  flags : tabWf {} s.flags = true → tabWf {} t.flags = true
  cnt : tabWf 0 s.cnt = true → tabWf 0 t.cnt = true
  regs : tabWf none s.regs = true → tabWf none t.regs = true
  doors : tabWf {} s.doors = true → tabWf {} t.doors = true
  trs : tabWf {} s.trs = true → tabWf {} t.trs = true
  drs : tabWf {} s.drs = true → tabWf {} t.drs = true
  steps : tabWf {} s.steps = true → tabWf {} t.steps = true
  drawers : tabWf {} s.drawers = true → tabWf {} t.drawers = true
  chests : tabWf {} s.chests = true → tabWf {} t.chests = true
  maps : tabWf 0 s.maps = true → tabWf 0 t.maps = true
  staged : tabWf [] s.stagedMaps = true → tabWf [] t.stagedMaps = true
  dies : tabWf {} s.cal.dies = true → tabWf {} t.cal.dies = true
  ports : tabWf {} s.opt.ports = true → tabWf {} t.opt.ports = true
  bays : tabWf {} s.opt.bays = true → tabWf {} t.opt.bays = true
  peers : tabWf 0 s.opt.peers = true → tabWf 0 t.opt.peers = true
  dropped : tabWf none s.opt.dropLogged = true → tabWf none t.opt.dropLogged = true
  groups : tabWf {} s.rdx.groups = true → tabWf {} t.rdx.groups = true
  units : tabWf {} s.rdx.units = true → tabWf {} t.rdx.units = true
  replied : tabWf none s.rdx.replied = true → tabWf none t.rdx.replied = true
  pages : (∀ e ∈ s.doors, pageWf e.2 = true) → ∀ e ∈ t.doors, pageWf e.2 = true
  nstEnds : tabWf 0 s.nst.lastEnd = true → tabWf 0 t.nst.lastEnd = true
  nstFilters : tabWf 0 s.nst.filt = true → tabWf 0 t.nst.filt = true
  nstSeen : tabWf false s.nst.seen = true → tabWf false t.nst.seen = true
  nstBuffer : tabWf 0 s.nst.buf = true → tabWf 0 t.nst.buf = true
  nstActive : tabWf false s.nst.ruleActive = true → tabWf false t.nst.ruleActive = true
  nstDwell : tabWf 0 s.nst.dwell = true → tabWf 0 t.nst.dwell = true
  resetting : tabWf none s.hif.resetting = true → tabWf none t.hif.resetting = true

theorem Tables.refl (s : State) : Tables s s := by constructor <;> exact id

theorem Tables.trans {s x t : State} (h : Tables s x) (k : Tables x t) : Tables s t :=
  ⟨fun w => k.flags (h.flags w), fun w => k.cnt (h.cnt w), fun w => k.regs (h.regs w), fun w => k.doors (h.doors w), fun w => k.trs (h.trs w), fun w => k.drs (h.drs w), fun w => k.steps (h.steps w), fun w => k.drawers (h.drawers w), fun w => k.chests (h.chests w), fun w => k.maps (h.maps w), fun w => k.staged (h.staged w), fun w => k.dies (h.dies w), fun w => k.ports (h.ports w), fun w => k.bays (h.bays w), fun w => k.peers (h.peers w), fun w => k.dropped (h.dropped w), fun w => k.groups (h.groups w), fun w => k.units (h.units w), fun w => k.replied (h.replied w), fun w => k.pages (h.pages w), fun w => k.nstEnds (h.nstEnds w), fun w => k.nstFilters (h.nstFilters w), fun w => k.nstSeen (h.nstSeen w), fun w => k.nstBuffer (h.nstBuffer w), fun w => k.nstActive (h.nstActive w), fun w => k.nstDwell (h.nstDwell w), fun w => k.resetting (h.resetting w)⟩

/-- The tables of an update, each looked up. -/
theorem Tables.of {x t : State}
    (h : Tables x t := by constructor <;> first | with_reducible exact id | with_reducible exact fun h => tabWf_tabSet _ _ _ _ h | with_reducible exact fun h => tabWf_tabMod _ _ _ _ h | with_reducible exact fun h => tabWf_tabMap _ _ _ h | with_reducible exact fun h => tabWf_filter _ _ _ h | with_reducible exact fun _ => tabWf_nil _ | with_reducible exact fun h => pages_fresh _ _ h | with_reducible exact fun _ => pages_nil | exact fun _ => rfl | exact id | exact fun h => tabWf_tabSet _ _ _ _ h | exact fun h => tabWf_tabMod _ _ _ _ h | exact fun h => tabWf_tabMap _ _ _ h | exact fun h => tabWf_filter _ _ _ h) : Tables x t := h

/-- From `s` to `t` only parts of `F` change; the queue is the same; memory stays canonical; the log stays within 4,096 entries and
the reset times within four; a reset time, the fence mark and the owner lock are not lost; a Ready or Running module stays without a
fence mark; the minimum security version does not fall; neither device time nor Nightstand's time moves. -/
structure Keeps (F : Nat) (s t : State) : Prop where
  frame : Frame F s t
  tabs : Tables s t
  queue : t.pending = s.pending
  mem : Memory.wf s.mem = true → Memory.wf t.mem = true
  log : s.log.length ≤ 4096 → t.log.length ≤ 4096
  times : s.mod.resetTimes.length ≤ 4 → t.mod.resetTimes.length ≤ 4
  counted : s.mod.resetTimes ≠ [] → t.mod.resetTimes ≠ []
  mark : s.mod.fenceMark = true → t.mod.fenceMark = true
  ready : (s.mod.st = .ready ∨ s.mod.st = .running → s.mod.fenceMark = false) →
    (t.mod.st = .ready ∨ t.mod.st = .running → t.mod.fenceMark = false)
  lock : s.fwu.ownerLock = true → t.fwu.ownerLock = true
  svn : s.fwu.minSvn ≤ t.fwu.minSvn
  time : t.mod.devTime = s.mod.devTime
  nst : t.mod.nstNs = s.mod.nstNs

theorem Keeps.refl {F : Nat} (s : State) : Keeps F s s :=
  ⟨fun p _ => p.same_refl s, Tables.refl s, rfl, id, id, id, id, id, id, id, Nat.le_refl _, rfl, rfl⟩

theorem Keeps.trans {F : Nat} {s x t : State} (h : Keeps F s x) (k : Keeps F x t) : Keeps F s t :=
  ⟨fun p hp => Area.same_trans (h.frame p hp) (k.frame p hp), h.tabs.trans k.tabs, k.queue.trans h.queue, fun w => k.mem (h.mem w),
    fun w => k.log (h.log w), fun w => k.times (h.times w), fun w => k.counted (h.counted w), fun w => k.mark (h.mark w),
    fun w => k.ready (h.ready w), fun w => k.lock (h.lock w), Nat.le_trans h.svn k.svn, k.time.trans h.time, k.nst.trans h.nst⟩

theorem Keeps.mono {G F : Nat} {s t : State} (hF : Within G F) (h : Keeps G s t) : Keeps F s t :=
  ⟨fun p hp => h.frame p (hF.bit _ hp), h.tabs, h.queue, h.mem, h.log, h.times, h.counted, h.mark, h.ready, h.lock, h.svn, h.time, h.nst⟩

theorem Keeps.via {F : Nat} {s y t : State} (h : Keeps F s y) (k : Keeps F s y → Keeps F s t) : Keeps F s t := k h

/-- What every command keeps, those few too that keep less than `Keeps` says. -/
structure Safe (F : Nat) (s t : State) : Prop where
  frame : Frame F s t
  tabs : Tables s t
  queue : t.pending = s.pending
  mem : Memory.wf s.mem = true → Memory.wf t.mem = true
  log : s.log.length ≤ 4096 → t.log.length ≤ 4096
  times : s.mod.resetTimes.length ≤ 4 → t.mod.resetTimes.length ≤ 4
  ready : (s.mod.st = .ready ∨ s.mod.st = .running → s.mod.fenceMark = false) →
    (t.mod.st = .ready ∨ t.mod.st = .running → t.mod.fenceMark = false)

theorem Keeps.safe {F : Nat} {s t : State} (h : Keeps F s t) : Safe F s t := ⟨h.frame, h.tabs, h.queue, h.mem, h.log, h.times, h.ready⟩

theorem Safe.trans {F : Nat} {s x t : State} (h : Safe F s x) (k : Safe F x t) : Safe F s t :=
  ⟨fun p hp => Area.same_trans (h.frame p hp) (k.frame p hp), h.tabs.trans k.tabs, k.queue.trans h.queue, fun w => k.mem (h.mem w),
    fun w => k.log (h.log w), fun w => k.times (h.times w), fun w => k.ready (h.ready w)⟩

theorem Safe.mono {G F : Nat} {s t : State} (hF : Within G F) (h : Safe G s t) : Safe F s t :=
  ⟨fun p hp => h.frame p (hF.bit _ hp), h.tabs, h.queue, h.mem, h.log, h.times, h.ready⟩

/-- The module's own fields, the log, the flags and counters, memory's cells and errors apart: each field may change or is as before. -/
structure Rest (F : Nat) (x t : State) : Prop where
  log : F.testBit 1 = true ∨ t.logProd = x.logProd
  regs : F.testBit 2 = true ∨ t.regs = x.regs
  nst : F.testBit 3 = true ∨ t.nst = x.nst
  rcv : F.testBit 4 = true ∨ t.rcv = x.rcv
  fwu : F.testBit 5 = true ∨ t.fwu = x.fwu
  doors : F.testBit 6 = true ∨ t.doors = x.doors
  vfs : F.testBit 7 = true ∨ t.vfs = x.vfs
  copies : F.testBit 8 = true ∨ t.copies = x.copies
  ceLogged : F.testBit 10 = true ∨ t.mem.ceLogged = x.mem.ceLogged
  rtab : F.testBit 11 = true ∨ t.mem.rtab = x.mem.rtab
  scrubs : F.testBit 12 = true ∨ t.mem.scrubCup = x.mem.scrubCup ∧ t.mem.scrubHbm = x.mem.scrubHbm
  trs : F.testBit 13 = true ∨ t.trs = x.trs
  drs : F.testBit 14 = true ∨ t.drs = x.drs
  steps : F.testBit 15 = true ∨ t.steps = x.steps
  drawers : F.testBit 16 = true ∨ t.drawers = x.drawers
  chests : F.testBit 17 = true ∨ t.chests = x.chests
  maps : F.testBit 18 = true ∨ t.maps = x.maps ∧ t.stagedMaps = x.stagedMaps
  cal : F.testBit 19 = true ∨ t.cal = x.cal
  ports : F.testBit 20 = true ∨ t.opt.ports = x.opt.ports
  bays : F.testBit 21 = true ∨ t.opt.bays = x.opt.bays ∧ t.opt.map = x.opt.map ∧ t.opt.spare = x.opt.spare ∧ t.opt.moving = x.opt.moving ∧ t.opt.transfer = x.opt.transfer ∧ t.opt.result = x.opt.result
  peers : F.testBit 22 = true ∨ t.opt.peers = x.opt.peers
  inbox : F.testBit 23 = true ∨ t.opt.inbox = x.opt.inbox ∧ t.opt.dropLogged = x.opt.dropLogged
  groups : F.testBit 24 = true ∨ t.rdx.groups = x.rdx.groups
  pair : F.testBit 25 = true ∨ t.rdx.pair = x.rdx.pair
  units : F.testBit 26 = true ∨ t.rdx.units = x.rdx.units
  held : F.testBit 27 = true ∨ t.rdx.held = x.rdx.held ∧ t.rdx.replied = x.rdx.replied
  out : F.testBit 28 = true ∨ t.out = x.out ∧ t.hif = x.hif

/-- The frame of an update, field by field. -/
theorem Rest.frame {F : Nat} {x t : State} (h : Rest F x t) (hm : F.testBit 0 = true ∨ t.mod = x.mod)
    (hl : F.testBit 1 = true ∨ t.log = x.log) (hc : F.testBit 9 = true ∨ t.mem.cells = x.mem.cells)
    (he : F.testBit 10 = true ∨ t.mem.errs = x.mem.errs) (hf : Within 0x1FFF00000000 F ∨ t.flags = x.flags)
    (hn : Within 0x1FFF000000000000 F ∨ t.cnt = x.cnt) : Frame F x t := by
  intro p hp
  have no : ∀ {i : Nat} {q : Prop}, (F.testBit i = true ∨ q) → F.testBit i = false → q := by
    intro i q h k
    rcases h with h | h
    · rw [k] at h; cases h
    · exact h
  cases p
  case module => exact no hm hp
  case log => exact ⟨no hl hp, no h.log hp⟩
  case registers => exact no h.regs hp
  case nightstand => exact no h.nst hp
  case recovery => exact no h.rcv hp
  case firmware => exact no h.fwu hp
  case doors => exact no h.doors hp
  case functions => exact no h.vfs hp
  case copies => exact no h.copies hp
  case memory => exact no hc hp
  case errors => exact ⟨no he hp, no h.ceLogged hp⟩
  case retirements => exact no h.rtab hp
  case scrubs => exact no h.scrubs hp
  case trestle => exact no h.trs hp
  case dresser => exact no h.drs hp
  case steps => exact no h.steps hp
  case drawers => exact no h.drawers hp
  case chests => exact no h.chests hp
  case maps => exact no h.maps hp
  case calibration => exact no h.cal hp
  case ports => exact no h.ports hp
  case bays => exact no h.bays hp
  case peers => exact no h.peers hp
  case inbox => exact no h.inbox hp
  case groups => exact no h.groups hp
  case pair => exact no h.pair hp
  case units => exact no h.units hp
  case held => exact no h.held hp
  case output => exact no h.out hp
  case flags b =>
    rcases hf with hf | hf
    · exact absurd (hf.bit _ hp) (by cases b <;> decide)
    · simp only [Area.same, hf]
  case counters b =>
    rcases hn with hn | hn
    · exact absurd (hn.bit _ hp) (by cases b <;> decide)
    · intro off _
      rw [hn]

/-- The frame of an update, each field looked up. -/
theorem Frame.of {F : Nat} {x t : State}
    (hr : Rest F x t := by constructor <;> first | with_reducible exact Or.inr rfl | with_reducible exact Or.inr ⟨rfl, rfl⟩ | exact Or.inl (by decide) | exact Or.inr rfl | exact Or.inr ⟨rfl, rfl⟩ | exact Or.inr ⟨rfl, rfl, rfl, rfl, rfl, rfl⟩)
    (hf : Within 0x1FFF00000000 F ∨ t.flags = x.flags := by first | with_reducible exact Or.inr rfl | exact Or.inl (by decide) | exact Or.inr rfl)
    (hn : Within 0x1FFF000000000000 F ∨ t.cnt = x.cnt := by first | with_reducible exact Or.inr rfl | exact Or.inl (by decide) | exact Or.inr rfl)
    (hm : F.testBit 0 = true ∨ t.mod = x.mod := by first | with_reducible exact Or.inr rfl | exact Or.inl (by decide) | exact Or.inr rfl)
    (hl : F.testBit 1 = true ∨ t.log = x.log := by first | with_reducible exact Or.inr rfl | exact Or.inl (by decide) | exact Or.inr rfl)
    (hc : F.testBit 9 = true ∨ t.mem.cells = x.mem.cells := by first | with_reducible exact Or.inr rfl | exact Or.inl (by decide) | exact Or.inr rfl)
    (he : F.testBit 10 = true ∨ t.mem.errs = x.mem.errs := by first | with_reducible exact Or.inr rfl | exact Or.inl (by decide) | exact Or.inr rfl) : Frame F x t :=
  hr.frame hm hl hc he hf hn

/-- An update of other fields. -/
theorem Keeps.upd {F : Nat} {s x t : State} (h : Keeps F s x) (hq : t.pending = x.pending) (hc : t.mem.cells = x.mem.cells)
    (he : t.mem.errs = x.mem.errs) (hl : t.log = x.log) (hm : t.mod = x.mod) (hk : t.fwu.ownerLock = x.fwu.ownerLock)
    (hv : t.fwu.minSvn = x.fwu.minSvn)
    (ht : Tables x t := by constructor <;> first | with_reducible exact id | with_reducible exact fun h => tabWf_tabSet _ _ _ _ h | with_reducible exact fun h => tabWf_tabMod _ _ _ _ h | with_reducible exact fun h => tabWf_tabMap _ _ _ h | with_reducible exact fun h => tabWf_filter _ _ _ h | with_reducible exact fun _ => tabWf_nil _ | with_reducible exact fun h => pages_fresh _ _ h | with_reducible exact fun _ => pages_nil | exact fun _ => rfl | exact id | exact fun h => tabWf_tabSet _ _ _ _ h | exact fun h => tabWf_tabMod _ _ _ _ h | exact fun h => tabWf_tabMap _ _ _ h | exact fun h => tabWf_filter _ _ _ h)
    (hr : Rest F x t := by constructor <;> first | with_reducible exact Or.inr rfl | with_reducible exact Or.inr ⟨rfl, rfl⟩ | exact Or.inl (by decide) | exact Or.inr rfl | exact Or.inr ⟨rfl, rfl⟩ | exact Or.inr ⟨rfl, rfl, rfl, rfl, rfl, rfl⟩)
    (hf : Within 0x1FFF00000000 F ∨ t.flags = x.flags := by first | with_reducible exact Or.inr rfl | exact Or.inl (by decide) | exact Or.inr rfl)
    (hn : Within 0x1FFF000000000000 F ∨ t.cnt = x.cnt := by first | with_reducible exact Or.inr rfl | exact Or.inl (by decide) | exact Or.inr rfl) : Keeps F s t := by
  refine h.trans ⟨hr.frame (Or.inr hm) (Or.inr hl) (Or.inr hc) (Or.inr he) hf hn, ht, hq, ?_, ?_, ?_, ?_, ?_, ?_, ?_, ?_, ?_, ?_⟩
  · rw [Memory.wf, Memory.wf, hc, he]; exact id
  · rw [hl]; exact id
  all_goals first | (rw [hm]; done) | (rw [hm]; exact id) | (rw [hk]; exact id) | exact hv ▸ Nat.le_refl _

/-- An update of the module's own fields but for its state, its times and its mark. -/
theorem Keeps.updMod {F : Nat} {s x t : State} (h : Keeps F s x) (hq : t.pending = x.pending) (hc : t.mem.cells = x.mem.cells)
    (he : t.mem.errs = x.mem.errs) (hl : t.log = x.log) (hs : t.mod.st = x.mod.st) (hr' : t.mod.resetTimes = x.mod.resetTimes)
    (hf' : t.mod.fenceMark = x.mod.fenceMark) (hd : t.mod.devTime = x.mod.devTime) (hn' : t.mod.nstNs = x.mod.nstNs)
    (hk : t.fwu.ownerLock = x.fwu.ownerLock) (hv : t.fwu.minSvn = x.fwu.minSvn) (h0 : F.testBit 0 = true := by decide)
    (ht : Tables x t := by constructor <;> first | with_reducible exact id | with_reducible exact fun h => tabWf_tabSet _ _ _ _ h | with_reducible exact fun h => tabWf_tabMod _ _ _ _ h | with_reducible exact fun h => tabWf_tabMap _ _ _ h | with_reducible exact fun h => tabWf_filter _ _ _ h | with_reducible exact fun _ => tabWf_nil _ | with_reducible exact fun h => pages_fresh _ _ h | with_reducible exact fun _ => pages_nil | exact fun _ => rfl | exact id | exact fun h => tabWf_tabSet _ _ _ _ h | exact fun h => tabWf_tabMod _ _ _ _ h | exact fun h => tabWf_tabMap _ _ _ h | exact fun h => tabWf_filter _ _ _ h)
    (hr : Rest F x t := by constructor <;> first | with_reducible exact Or.inr rfl | with_reducible exact Or.inr ⟨rfl, rfl⟩ | exact Or.inl (by decide) | exact Or.inr rfl | exact Or.inr ⟨rfl, rfl⟩ | exact Or.inr ⟨rfl, rfl, rfl, rfl, rfl, rfl⟩)
    (hf : Within 0x1FFF00000000 F ∨ t.flags = x.flags := by first | with_reducible exact Or.inr rfl | exact Or.inl (by decide) | exact Or.inr rfl)
    (hn : Within 0x1FFF000000000000 F ∨ t.cnt = x.cnt := by first | with_reducible exact Or.inr rfl | exact Or.inl (by decide) | exact Or.inr rfl) : Keeps F s t := by
  refine h.trans ⟨hr.frame (Or.inl h0) (Or.inr hl) (Or.inr hc) (Or.inr he) hf hn, ht, hq, ?_, ?_, ?_, ?_, ?_, ?_, ?_, ?_, hd, hn'⟩
  · rw [Memory.wf, Memory.wf, hc, he]; exact id
  · rw [hl]; exact id
  · rw [hr']; exact id
  · rw [hr']; exact id
  · rw [hf']; exact id
  · rw [hs, hf']; exact id
  · rw [hk]; exact id
  · exact hv ▸ Nat.le_refl _

/-- As `updMod`, to a state that is neither Ready nor Running. -/
theorem Keeps.updTo {F : Nat} {s x t : State} (h : Keeps F s x) (hs : t.mod.st ≠ .ready ∧ t.mod.st ≠ .running)
    (hq : t.pending = x.pending) (hc : t.mem.cells = x.mem.cells) (he : t.mem.errs = x.mem.errs) (hl : t.log = x.log)
    (hr' : t.mod.resetTimes = x.mod.resetTimes) (hf' : x.mod.fenceMark = true → t.mod.fenceMark = true)
    (hd : t.mod.devTime = x.mod.devTime) (hn' : t.mod.nstNs = x.mod.nstNs)
    (hk : t.fwu.ownerLock = x.fwu.ownerLock) (hv : t.fwu.minSvn = x.fwu.minSvn) (h0 : F.testBit 0 = true := by decide)
    (ht : Tables x t := by constructor <;> first | with_reducible exact id | with_reducible exact fun h => tabWf_tabSet _ _ _ _ h | with_reducible exact fun h => tabWf_tabMod _ _ _ _ h | with_reducible exact fun h => tabWf_tabMap _ _ _ h | with_reducible exact fun h => tabWf_filter _ _ _ h | with_reducible exact fun _ => tabWf_nil _ | with_reducible exact fun h => pages_fresh _ _ h | with_reducible exact fun _ => pages_nil | exact fun _ => rfl | exact id | exact fun h => tabWf_tabSet _ _ _ _ h | exact fun h => tabWf_tabMod _ _ _ _ h | exact fun h => tabWf_tabMap _ _ _ h | exact fun h => tabWf_filter _ _ _ h)
    (hr : Rest F x t := by constructor <;> first | with_reducible exact Or.inr rfl | with_reducible exact Or.inr ⟨rfl, rfl⟩ | exact Or.inl (by decide) | exact Or.inr rfl | exact Or.inr ⟨rfl, rfl⟩ | exact Or.inr ⟨rfl, rfl, rfl, rfl, rfl, rfl⟩)
    (hf : Within 0x1FFF00000000 F ∨ t.flags = x.flags := by first | with_reducible exact Or.inr rfl | exact Or.inl (by decide) | exact Or.inr rfl)
    (hn : Within 0x1FFF000000000000 F ∨ t.cnt = x.cnt := by first | with_reducible exact Or.inr rfl | exact Or.inl (by decide) | exact Or.inr rfl) : Keeps F s t := by
  refine h.trans ⟨hr.frame (Or.inl h0) (Or.inr hl) (Or.inr hc) (Or.inr he) hf hn, ht, hq, ?_, ?_, ?_, ?_, hf', ?_, ?_, ?_, hd, hn'⟩
  · rw [Memory.wf, Memory.wf, hc, he]; exact id
  · rw [hl]; exact id
  · rw [hr']; exact id
  · rw [hr']; exact id
  · intro _ h
    rcases h with h | h
    · exact absurd h hs.1
    · exact absurd h hs.2
  · rw [hk]; exact id
  · exact hv ▸ Nat.le_refl _

/-- An update of other fields, as a literal. -/
theorem Keeps.lit {F : Nat} {s x : State} {logProd : Nat} {flags : Tab StatusReg} {cnt : Tab DWord} {regs : Tab (Option DWord)} {nst : Nst} {rcv : Rcv} {fwu : Fwu} {doors : Tab Door} {hif : Hif} {vfs : Nat} {copies : List CopyJob} {mem : MemBlk} {trs : Tab TrsEngine} {drs : Tab DrsUnit} {steps : Tab StepCtx} {drawers : Tab Drawer} {chests : Tab Chest} {maps : Tab (BitVec 16384)} {stagedMaps : Tab (Tab (Option Byte))} {cal : Cal} {opt : Opt} {rdx : Rdx} {out : List Out}
    (h : Keeps F s x) (hk : fwu.ownerLock = x.fwu.ownerLock) (hv : fwu.minSvn = x.fwu.minSvn)
    (hc : mem.cells = x.mem.cells) (he : mem.errs = x.mem.errs)
    (ht : Tables x (State.mk x.mod x.log logProd flags cnt regs nst rcv fwu doors hif vfs copies mem trs drs steps drawers chests maps stagedMaps cal opt rdx out x.pending) := by constructor <;> first | with_reducible exact id | with_reducible exact fun h => tabWf_tabSet _ _ _ _ h | with_reducible exact fun h => tabWf_tabMod _ _ _ _ h | with_reducible exact fun h => tabWf_tabMap _ _ _ h | with_reducible exact fun h => tabWf_filter _ _ _ h | with_reducible exact fun _ => tabWf_nil _ | with_reducible exact fun h => pages_fresh _ _ h | with_reducible exact fun _ => pages_nil | exact fun _ => rfl | exact id | exact fun h => tabWf_tabSet _ _ _ _ h | exact fun h => tabWf_tabMod _ _ _ _ h | exact fun h => tabWf_tabMap _ _ _ h | exact fun h => tabWf_filter _ _ _ h)
    (hr : Rest F x (State.mk x.mod x.log logProd flags cnt regs nst rcv fwu doors hif vfs copies mem trs drs steps drawers chests maps stagedMaps cal opt rdx out x.pending) := by constructor <;> first | with_reducible exact Or.inr rfl | with_reducible exact Or.inr ⟨rfl, rfl⟩ | exact Or.inl (by decide) | exact Or.inr rfl | exact Or.inr ⟨rfl, rfl⟩ | exact Or.inr ⟨rfl, rfl, rfl, rfl, rfl, rfl⟩)
    (hf : Within 0x1FFF00000000 F ∨ flags = x.flags := by first | with_reducible exact Or.inr rfl | exact Or.inl (by decide) | exact Or.inr rfl)
    (hn : Within 0x1FFF000000000000 F ∨ cnt = x.cnt := by first | with_reducible exact Or.inr rfl | exact Or.inl (by decide) | exact Or.inr rfl) :
    Keeps F s (State.mk x.mod x.log logProd flags cnt regs nst rcv fwu doors hif vfs copies mem trs drs steps drawers chests maps stagedMaps cal opt rdx out x.pending) :=
  h.upd rfl hc he rfl rfl hk hv ht hr hf hn

/-- An update of the module's own fields but for its state, its times and its mark, as a literal. -/
theorem Keeps.litMod {F : Nat} {s x : State} {m : Module} {logProd : Nat} {flags : Tab StatusReg} {cnt : Tab DWord} {regs : Tab (Option DWord)} {nst : Nst} {rcv : Rcv} {fwu : Fwu} {doors : Tab Door} {hif : Hif} {vfs : Nat} {copies : List CopyJob} {mem : MemBlk} {trs : Tab TrsEngine} {drs : Tab DrsUnit} {steps : Tab StepCtx} {drawers : Tab Drawer} {chests : Tab Chest} {maps : Tab (BitVec 16384)} {stagedMaps : Tab (Tab (Option Byte))} {cal : Cal} {opt : Opt} {rdx : Rdx} {out : List Out}
    (h : Keeps F s x) (hk : fwu.ownerLock = x.fwu.ownerLock) (hv : fwu.minSvn = x.fwu.minSvn)
    (hc : mem.cells = x.mem.cells) (he : mem.errs = x.mem.errs)
    (hs : m.st = x.mod.st) (hr' : m.resetTimes = x.mod.resetTimes) (hf' : m.fenceMark = x.mod.fenceMark)
    (hd : m.devTime = x.mod.devTime) (hn' : m.nstNs = x.mod.nstNs) (h0 : F.testBit 0 = true := by decide)
    (ht : Tables x (State.mk m x.log logProd flags cnt regs nst rcv fwu doors hif vfs copies mem trs drs steps drawers chests maps stagedMaps cal opt rdx out x.pending) := by constructor <;> first | with_reducible exact id | with_reducible exact fun h => tabWf_tabSet _ _ _ _ h | with_reducible exact fun h => tabWf_tabMod _ _ _ _ h | with_reducible exact fun h => tabWf_tabMap _ _ _ h | with_reducible exact fun h => tabWf_filter _ _ _ h | with_reducible exact fun _ => tabWf_nil _ | with_reducible exact fun h => pages_fresh _ _ h | with_reducible exact fun _ => pages_nil | exact fun _ => rfl | exact id | exact fun h => tabWf_tabSet _ _ _ _ h | exact fun h => tabWf_tabMod _ _ _ _ h | exact fun h => tabWf_tabMap _ _ _ h | exact fun h => tabWf_filter _ _ _ h)
    (hr : Rest F x (State.mk m x.log logProd flags cnt regs nst rcv fwu doors hif vfs copies mem trs drs steps drawers chests maps stagedMaps cal opt rdx out x.pending) := by constructor <;> first | with_reducible exact Or.inr rfl | with_reducible exact Or.inr ⟨rfl, rfl⟩ | exact Or.inl (by decide) | exact Or.inr rfl | exact Or.inr ⟨rfl, rfl⟩ | exact Or.inr ⟨rfl, rfl, rfl, rfl, rfl, rfl⟩)
    (hf : Within 0x1FFF00000000 F ∨ flags = x.flags := by first | with_reducible exact Or.inr rfl | exact Or.inl (by decide) | exact Or.inr rfl)
    (hn : Within 0x1FFF000000000000 F ∨ cnt = x.cnt := by first | with_reducible exact Or.inr rfl | exact Or.inl (by decide) | exact Or.inr rfl) :
    Keeps F s (State.mk m x.log logProd flags cnt regs nst rcv fwu doors hif vfs copies mem trs drs steps drawers chests maps stagedMaps cal opt rdx out x.pending) :=
  h.updMod rfl hc he rfl hs hr' hf' hd hn' hk hv h0 ht hr hf hn

/-- As `litMod`, to a state that is neither Ready nor Running. -/
theorem Keeps.litTo {F : Nat} {s x : State} {m : Module} {logProd : Nat} {flags : Tab StatusReg} {cnt : Tab DWord} {regs : Tab (Option DWord)} {nst : Nst} {rcv : Rcv} {fwu : Fwu} {doors : Tab Door} {hif : Hif} {vfs : Nat} {copies : List CopyJob} {mem : MemBlk} {trs : Tab TrsEngine} {drs : Tab DrsUnit} {steps : Tab StepCtx} {drawers : Tab Drawer} {chests : Tab Chest} {maps : Tab (BitVec 16384)} {stagedMaps : Tab (Tab (Option Byte))} {cal : Cal} {opt : Opt} {rdx : Rdx} {out : List Out}
    (h : Keeps F s x) (hk : fwu.ownerLock = x.fwu.ownerLock) (hv : fwu.minSvn = x.fwu.minSvn)
    (hc : mem.cells = x.mem.cells) (he : mem.errs = x.mem.errs)
    (hs : m.st ≠ .ready ∧ m.st ≠ .running) (hr' : m.resetTimes = x.mod.resetTimes)
    (hf' : x.mod.fenceMark = true → m.fenceMark = true) (hd : m.devTime = x.mod.devTime) (hn' : m.nstNs = x.mod.nstNs) (h0 : F.testBit 0 = true := by decide)
    (ht : Tables x (State.mk m x.log logProd flags cnt regs nst rcv fwu doors hif vfs copies mem trs drs steps drawers chests maps stagedMaps cal opt rdx out x.pending) := by constructor <;> first | with_reducible exact id | with_reducible exact fun h => tabWf_tabSet _ _ _ _ h | with_reducible exact fun h => tabWf_tabMod _ _ _ _ h | with_reducible exact fun h => tabWf_tabMap _ _ _ h | with_reducible exact fun h => tabWf_filter _ _ _ h | with_reducible exact fun _ => tabWf_nil _ | with_reducible exact fun h => pages_fresh _ _ h | with_reducible exact fun _ => pages_nil | exact fun _ => rfl | exact id | exact fun h => tabWf_tabSet _ _ _ _ h | exact fun h => tabWf_tabMod _ _ _ _ h | exact fun h => tabWf_tabMap _ _ _ h | exact fun h => tabWf_filter _ _ _ h)
    (hr : Rest F x (State.mk m x.log logProd flags cnt regs nst rcv fwu doors hif vfs copies mem trs drs steps drawers chests maps stagedMaps cal opt rdx out x.pending) := by constructor <;> first | with_reducible exact Or.inr rfl | with_reducible exact Or.inr ⟨rfl, rfl⟩ | exact Or.inl (by decide) | exact Or.inr rfl | exact Or.inr ⟨rfl, rfl⟩ | exact Or.inr ⟨rfl, rfl, rfl, rfl, rfl, rfl⟩)
    (hf : Within 0x1FFF00000000 F ∨ flags = x.flags := by first | with_reducible exact Or.inr rfl | exact Or.inl (by decide) | exact Or.inr rfl)
    (hn : Within 0x1FFF000000000000 F ∨ cnt = x.cnt := by first | with_reducible exact Or.inr rfl | exact Or.inl (by decide) | exact Or.inr rfl) :
    Keeps F s (State.mk m x.log logProd flags cnt regs nst rcv fwu doors hif vfs copies mem trs drs steps drawers chests maps stagedMaps cal opt rdx out x.pending) :=
  h.updTo hs rfl hc he rfl hr' hf' hd hn' hk hv h0 ht hr hf hn

theorem Keeps.ite {F : Nat} {s a b : State} {c : Prop} [Decidable c] (ha : Keeps F s a) (hb : Keeps F s b) :
    Keeps F s (if c then a else b) := by
  split
  · exact ha
  · exact hb

theorem Keeps.foldl {F : Nat} {α : Type} {s x : State} {f : State → α → State} (h : Keeps F s x) (k : ∀ y a, Keeps F y (f y a))
    (l : List α) : Keeps F s (l.foldl f x) := by
  induction l generalizing x with
  | nil => exact h
  | cons a l ih => exact ih (h.trans (k x a))

/-- An outcome that goes on and keeps. -/
def Goes (F : Nat) (s : State) (o : Host.Outcome State Fault Refusal) : Prop := ∃ t, o = .next t ∧ Keeps F s t

theorem Goes.next {F : Nat} {s t : State} (h : Keeps F s t) : Goes F s (.next t) := ⟨t, rfl, h⟩

theorem Goes.via {F : Nat} {s y : State} {o : Host.Outcome State Fault Refusal} (h : Keeps F s y) (k : Keeps F s y → Goes F s o) :
    Goes F s o := k h

theorem Goes.ite {F : Nat} {s : State} {a b : Host.Outcome State Fault Refusal} {c : Prop} [Decidable c] (ha : Goes F s a)
    (hb : Goes F s b) : Goes F s (if c then a else b) := by
  split
  · exact ha
  · exact hb

theorem Goes.mono {G F : Nat} {s : State} {o : Host.Outcome State Fault Refusal} (hF : Within G F) (h : Goes G s o) : Goes F s o :=
  let ⟨t, e, k⟩ := h
  ⟨t, e, k.mono hF⟩

/-- As `Goes`, for the few commands that keep less. -/
def SafeGoes (F : Nat) (s : State) (o : Host.Outcome State Fault Refusal) : Prop := ∃ t, o = .next t ∧ Safe F s t

theorem Goes.safe {F : Nat} {s : State} {o : Host.Outcome State Fault Refusal} (h : Goes F s o) : SafeGoes F s o :=
  let ⟨t, e, k⟩ := h
  ⟨t, e, k.safe⟩

theorem SafeGoes.mono {G F : Nat} {s : State} {o : Host.Outcome State Fault Refusal} (hF : Within G F) (h : SafeGoes G s o) :
    SafeGoes F s o :=
  let ⟨t, e, k⟩ := h
  ⟨t, e, k.mono hF⟩

theorem insertLog_length (e : LogEntry) (l : List LogEntry) : (insertLog e l).length = l.length + 1 := by
  induction l with
  | nil => rfl
  | cons f fs ih =>
    rw [insertLog]
    split
    · rw [List.length_cons, ih, List.length_cons]
    · rfl

theorem logEntry_keeps {F : Nat} (h : Within 2 F := by first | rfl | decide) (e : LogEntry) (s : State) : Keeps F s (logEntry e s) := by
  refine Keeps.mono h ⟨?_, Tables.of, rfl, id, fun _ => by simp only [logEntry, List.length_take]; omega, id, id, id, id, id, Nat.le_refl _, rfl, rfl⟩
  refine Rest.frame (F := 2) ?_ (Or.inr rfl) (Or.inl rfl) (Or.inr rfl) (Or.inr rfl) (Or.inr rfl) (Or.inr rfl)
  constructor <;> first | exact Or.inr rfl | exact Or.inr ⟨rfl, rfl⟩ | exact Or.inr ⟨rfl, rfl, rfl, rfl, rfl, rfl⟩ | exact Or.inl rfl

theorem setFlag_keeps {F : Nat} (b : Block) (bit : Nat) (s : State) (h : F.testBit (32 + b.code) = true := by first | rfl | decide) :
    Keeps F s (setFlag b bit s) := by
  refine ⟨?_, Tables.of, rfl, id, id, id, id, id, id, id, Nat.le_refl _, rfl, rfl⟩
  intro p hp
  cases p
  case flags c =>
    refine tabGet_tabSet_ne _ _ _ _ _ ?_
    intro e
    rw [Area.bit, e, h] at hp
    cases hp
  case counters => exact fun _ _ => rfl
  all_goals first | exact rfl | exact ⟨rfl, rfl⟩ | exact ⟨rfl, rfl, rfl, rfl, rfl, rfl⟩

theorem bump_keeps {F : Nat} (off n : Nat) (s : State)
    (h : F.testBit (48 + blockCode off) = true := by first | rfl | decide | (split <;> rfl)) : Keeps F s (bump off n s) := by
  refine ⟨?_, Tables.of, rfl, id, id, id, id, id, id, id, Nat.le_refl _, rfl, rfl⟩
  intro p hp
  cases p
  case counters c =>
    intro o ho
    refine tabGet_tabSet_ne _ _ _ _ _ ?_
    intro e
    rw [Area.bit, ← ho, e, h] at hp
    cases hp
  all_goals first | exact rfl | exact ⟨rfl, rfl⟩ | exact ⟨rfl, rfl, rfl, rfl, rfl, rfl⟩

end Sys2Proof.Machine
end

