-- ==== Sys2Proof/Laws/KeepsRegs.lean ====
section
/-!
SUPPORT. What the operations of Machine/Regs.lean keep.
-/
set_option Elab.async false

namespace Sys2Proof.Machine

theorem setReg_keeps {F : Nat} (off v : Nat) (s : State) (hF : Within 0x4 F := by first | rfl | decide) : Keeps F s (setReg off v s) := by
  refine Keeps.mono hF ?_
  unfold setReg
  repeat' (first
    | with_reducible exact Keeps.refl _
    | with_reducible assumption
    | intro _
    | fail_if_no_progress extract_lets +onlyGivenNames y
    | with_reducible refine Keeps.ite ?_ ?_
    | with_reducible refine Keeps.foldl ?_ ?_ _
    | fail_if_no_progress with_reducible refine Keeps.lit ?_ rfl rfl rfl rfl)

end Sys2Proof.Machine
end

