-- ==== Sys2Proof/Laws/KeepsOps.lean ====
section
/-!
SUPPORT. What the operations of Machine/Ops.lean keep.
-/
set_option Elab.async false

namespace Sys2Proof.Machine

/-- A change of a doorbell page that keeps its tables canonical. -/
theorem pageWf_rings (d : Door) (k : Nat) (f : Ring → Ring) (h : pageWf d = true) :
    pageWf { d with rings := tabMod {} d.rings k f } = true := by
  unfold pageWf at *
  rw [Bool.and_eq_true] at *
  exact ⟨tabWf_tabMod _ _ _ _ h.1, h.2⟩

theorem pageWf_sems (d : Door) (k : Nat) (v : Word) (h : pageWf d = true) : pageWf { d with sems := tabSet 0 d.sems k v } = true := by
  unfold pageWf at *
  rw [Bool.and_eq_true] at *
  exact ⟨h.1, tabWf_tabSet _ _ _ _ h.2⟩

theorem modDoor_keeps {F : Nat} (ctx : Nat) (f : Door → Door) (s : State) (hF : Within 0x40 F := by first | rfl | decide)
    (hf : ∀ d, pageWf d = true → pageWf (f d) = true := by
      first
      | with_unfolding_all exact fun _ h => h
      | exact fun _ h => pageWf_rings _ _ _ h
      | exact fun _ h => pageWf_sems _ _ _ h
      | (intro d h; dsimp only; split <;> with_unfolding_all exact h)) : Keeps F s (modDoor ctx f s) := by
  refine Keeps.mono hF ?_
  unfold modDoor
  refine Keeps.lit (Keeps.refl _) rfl rfl rfl rfl (ht := ?_)
  refine { Tables.refl s with doors := fun h => tabWf_tabMod _ _ _ _ h, pages := fun h => ?_ }
  exact tabAll_tabSet (fun d => pageWf d = true) _ _ _ _ h
    (hf _ (tabAll_tabGet (fun d => pageWf d = true) _ _ _ h rfl))

theorem modRing_keeps {F : Nat} (ctx ring : Nat) (f : Ring → Ring) (s : State) (hF : Within 0x40 F := by first | rfl | decide) : Keeps F s (modRing ctx ring f s) := by
  refine Keeps.mono hF ?_
  unfold modRing
  repeat' (first
    | with_reducible exact Keeps.refl _
    | with_reducible assumption
    | intro _
    | fail_if_no_progress extract_lets +onlyGivenNames y
    | with_reducible refine Keeps.ite ?_ ?_
    | with_reducible refine Keeps.foldl ?_ ?_ _
    | with_reducible refine Keeps.trans ?_ (modDoor_keeps ..))

theorem setSem_keeps {F : Nat} (ctx i : Nat) (v : Word) (s : State) (hF : Within 0x40 F := by first | rfl | decide) : Keeps F s (setSem ctx i v s) := by
  refine Keeps.mono hF ?_
  unfold setSem
  repeat' (first
    | with_reducible exact Keeps.refl _
    | with_reducible assumption
    | intro _
    | fail_if_no_progress extract_lets +onlyGivenNames y
    | with_reducible refine Keeps.ite ?_ ?_
    | with_reducible refine Keeps.foldl ?_ ?_ _
    | with_reducible refine Keeps.trans ?_ (modDoor_keeps ..))

theorem modStepCtx_keeps {F : Nat} (ctx : Nat) (f : StepCtx → StepCtx) (s : State) (hF : Within 0x8000 F := by first | rfl | decide) : Keeps F s (modStepCtx ctx f s) := by
  refine Keeps.mono hF ?_
  unfold modStepCtx
  repeat' (first
    | with_reducible exact Keeps.refl _
    | with_reducible assumption
    | intro _
    | fail_if_no_progress extract_lets +onlyGivenNames y
    | with_reducible refine Keeps.ite ?_ ?_
    | with_reducible refine Keeps.foldl ?_ ?_ _
    | fail_if_no_progress with_reducible refine Keeps.lit ?_ rfl rfl rfl rfl)

theorem beginTrs_keeps {F : Nat} (u : Nat) (s : State) (hF : Within 0x2000 F := by first | rfl | decide) : Keeps F s (beginTrs u s) := by
  refine Keeps.mono hF ?_
  unfold beginTrs
  repeat' (first
    | with_reducible exact Keeps.refl _
    | with_reducible assumption
    | intro _
    | (extract_lets +onlyGivenNames y
       refine Keeps.via (y := y) ?_ ?_
       on_goal 2 => (intro _; clear_value y)
       on_goal 1 => (dsimp -zeta only [y]; clear y))
    | fail_if_no_progress extract_lets +onlyGivenNames y
    | with_reducible refine Keeps.ite ?_ ?_
    | with_reducible refine Keeps.foldl ?_ ?_ _
    | fail_if_no_progress with_reducible refine Keeps.lit ?_ rfl rfl rfl rfl
    | fail_if_no_progress with_reducible refine Keeps.litMod ?_ rfl rfl rfl rfl rfl rfl rfl rfl rfl
    | split
    | fail_if_no_progress dsimp -zeta only
    | refine Keeps.lit ?_ rfl rfl rfl rfl
    | refine Keeps.litMod ?_ rfl rfl rfl rfl rfl rfl rfl rfl rfl
    | refine Keeps.litTo ?_ rfl rfl rfl rfl ⟨nofun, nofun⟩ rfl (fun h => h) rfl rfl)

theorem modOpen_keeps {F : Nat} (ctx : Nat) (f : OpenStep → OpenStep) (s : State) (hF : Within 0x8000 F := by first | rfl | decide) : Keeps F s (modOpen ctx f s) := by
  refine Keeps.mono hF ?_
  unfold modOpen
  repeat' (first
    | with_reducible exact Keeps.refl _
    | with_reducible assumption
    | intro _
    | fail_if_no_progress extract_lets +onlyGivenNames y
    | with_reducible refine Keeps.ite ?_ ?_
    | with_reducible refine Keeps.foldl ?_ ?_ _
    | with_reducible refine Keeps.trans ?_ (modStepCtx_keeps ..))

theorem emit_keeps {F : Nat} (o : Out) (s : State) (hF : Within 0x10000000 F := by first | rfl | decide) : Keeps F s (emit o s) := by
  refine Keeps.mono hF ?_
  unfold emit
  repeat' (first
    | with_reducible exact Keeps.refl _
    | with_reducible assumption
    | intro _
    | fail_if_no_progress extract_lets +onlyGivenNames y
    | with_reducible refine Keeps.ite ?_ ?_
    | with_reducible refine Keeps.foldl ?_ ?_ _
    | fail_if_no_progress with_reducible refine Keeps.lit ?_ rfl rfl rfl rfl)

theorem hostReads_keeps {F : Nat} (fn addr n : Nat) (s : State) (hF : Within 0x10000000 F := by first | rfl | decide) : Keeps F s (hostReads fn addr n s) := by
  refine Keeps.mono hF ?_
  unfold hostReads
  repeat' (first
    | with_reducible exact Keeps.refl _
    | with_reducible assumption
    | intro _
    | fail_if_no_progress with_reducible refine Keeps.lit ?_ rfl rfl rfl rfl)

theorem applyStagedMaps_keeps {F : Nat} (ctx : Nat) (s : State) (hF : Within 0x40000 F := by first | rfl | decide) : Keeps F s (applyStagedMaps ctx s) := by
  refine Keeps.mono hF ?_
  unfold applyStagedMaps
  repeat' (first
    | with_reducible exact Keeps.refl _
    | with_reducible assumption
    | intro _
    | fail_if_no_progress extract_lets +onlyGivenNames y
    | with_reducible refine Keeps.ite ?_ ?_
    | with_reducible refine Keeps.foldl ?_ ?_ _
    | fail_if_no_progress with_reducible refine Keeps.lit ?_ rfl rfl rfl rfl)

theorem markPoisoned_keeps {F : Nat} (r : DRef) (s : State) (hF : Within 0x40 F := by first | rfl | decide) : Keeps F s (markPoisoned r s) := by
  refine Keeps.mono hF ?_
  unfold markPoisoned
  repeat' (first
    | with_reducible exact Keeps.refl _
    | with_reducible assumption
    | intro _
    | fail_if_no_progress extract_lets +onlyGivenNames y
    | with_reducible refine Keeps.ite ?_ ?_
    | with_reducible refine Keeps.foldl ?_ ?_ _
    | with_reducible refine Keeps.trans ?_ (modRing_keeps ..))

theorem noteError_keeps {F : Nat} (acc : Access) (cw : Nat) (ue : Bool) (s : State) (hF : Within 0x80008000000402 F := by first | rfl | decide) : Keeps F s (noteError acc cw ue s) := by
  refine Keeps.mono hF ?_
  unfold noteError
  repeat' (first
    | with_reducible exact Keeps.refl _
    | with_reducible assumption
    | intro _
    | (extract_lets +onlyGivenNames y
       refine Keeps.via (y := y) ?_ ?_
       on_goal 2 => (intro _; clear_value y)
       on_goal 1 => (dsimp -zeta only [y]; clear y))
    | fail_if_no_progress extract_lets +onlyGivenNames y
    | with_reducible refine Keeps.ite ?_ ?_
    | with_reducible refine Keeps.foldl ?_ ?_ _
    | with_reducible refine Keeps.trans ?_ (logEntry_keeps ..)
    | with_reducible refine Keeps.trans ?_ (bump_keeps ..)
    | with_reducible refine Keeps.trans ?_ (setFlag_keeps ..)
    | fail_if_no_progress with_reducible refine Keeps.lit ?_ rfl rfl rfl rfl
    | fail_if_no_progress with_reducible refine Keeps.litMod ?_ rfl rfl rfl rfl rfl rfl rfl rfl rfl
    | split)

theorem noteErrors_keeps {F : Nat} (acc : Access) (es : List (Nat × Bool)) (s : State) (hF : Within 0x80008000000442 F := by first | rfl | decide) : Keeps F s (noteErrors acc es s) := by
  refine Keeps.mono hF ?_
  unfold noteErrors
  repeat' (first
    | with_reducible exact Keeps.refl _
    | with_reducible assumption
    | intro _
    | (extract_lets +onlyGivenNames y
       refine Keeps.via (y := y) ?_ ?_
       on_goal 2 => (intro _; clear_value y)
       on_goal 1 => (dsimp -zeta only [y]; clear y))
    | fail_if_no_progress extract_lets +onlyGivenNames y
    | with_reducible refine Keeps.ite ?_ ?_
    | with_reducible refine Keeps.foldl ?_ ?_ _
    | with_reducible refine Keeps.trans ?_ (noteError_keeps ..)
    | with_reducible refine Keeps.trans ?_ (markPoisoned_keeps ..)
    | fail_if_no_progress with_reducible refine Keeps.lit ?_ rfl rfl rfl rfl
    | fail_if_no_progress with_reducible refine Keeps.litMod ?_ rfl rfl rfl rfl rfl rfl rfl rfl rfl
    | split
    | fail_if_no_progress dsimp -zeta only
    | refine Keeps.lit ?_ rfl rfl rfl rfl
    | refine Keeps.litMod ?_ rfl rfl rfl rfl rfl rfl rfl rfl rfl
    | refine Keeps.litTo ?_ rfl rfl rfl rfl ⟨nofun, nofun⟩ rfl (fun h => h) rfl rfl)

theorem noteRead_keeps {F : Nat} (acc : Access) (a n : Nat) (s : State) (hF : Within 0x80008000000442 F := by first | rfl | decide) : Keeps F s (noteRead acc a n s) := by
  refine Keeps.mono hF ?_
  unfold noteRead
  repeat' (first
    | with_reducible exact Keeps.refl _
    | with_reducible assumption
    | intro _
    | (extract_lets +onlyGivenNames y
       refine Keeps.via (y := y) ?_ ?_
       on_goal 2 => (intro _; clear_value y)
       on_goal 1 => (dsimp -zeta only [y]; clear y))
    | fail_if_no_progress extract_lets +onlyGivenNames y
    | with_reducible refine Keeps.ite ?_ ?_
    | with_reducible refine Keeps.foldl ?_ ?_ _
    | with_reducible refine Keeps.trans ?_ (noteErrors_keeps ..)
    | fail_if_no_progress with_reducible refine Keeps.lit ?_ rfl rfl rfl rfl
    | fail_if_no_progress with_reducible refine Keeps.litMod ?_ rfl rfl rfl rfl rfl rfl rfl rfl rfl
    | split
    | fail_if_no_progress dsimp -zeta only
    | refine Keeps.lit ?_ rfl rfl rfl rfl
    | refine Keeps.litMod ?_ rfl rfl rfl rfl rfl rfl rfl rfl rfl
    | refine Keeps.litTo ?_ rfl rfl rfl rfl ⟨nofun, nofun⟩ rfl (fun h => h) rfl rfl)

theorem writeMem_keeps {F : Nat} (acc : Access) (a : Nat) (bs : List Byte) (s : State) (hF : Within 0x80008000000602 F := by first | rfl | decide) : Keeps F s (writeMem acc a bs s) := by
  refine Keeps.mono hF ?_
  unfold writeMem
  extract_lets n t
  have h : Keeps 0x80008000000602 s t := by
    refine Keeps.foldl (Keeps.refl s) ?_ _
    intro y e
    extract_lets whole u
    have hu : Keeps 0x80008000000602 y u := Keeps.ite (Keeps.refl y) (noteError_keeps acc e.1 e.2 y)
    clear_value u
    refine hu.trans (Keeps.ite ?_ (Keeps.refl u))
    refine ⟨Frame.of, Tables.of, rfl, ?_, id, id, id, id, id, id, Nat.le_refl _, rfl, rfl⟩
    rw [wf_iff, wf_iff]
    exact fun h => ⟨h.1, tabWf_tabSet _ _ _ _ h.2⟩
  refine h.trans ⟨Frame.of, Tables.of, rfl, ?_, id, id, id, id, id, id, Nat.le_refl _, rfl, rfl⟩
  rw [wf_iff, wf_iff]
  exact fun h => ⟨tabWf_memStore _ _ _ h.1, h.2⟩

theorem markDispatched_keeps {F : Nat} (ctx ring idx : Nat) (s : State) (hF : Within 0x40 F := by first | rfl | decide) : Keeps F s (markDispatched ctx ring idx s) := by
  refine Keeps.mono hF ?_
  unfold markDispatched
  repeat' (first
    | with_reducible exact Keeps.refl _
    | with_reducible assumption
    | intro _
    | fail_if_no_progress extract_lets +onlyGivenNames y
    | with_reducible refine Keeps.ite ?_ ?_
    | with_reducible refine Keeps.foldl ?_ ?_ _
    | with_reducible refine Keeps.trans ?_ (modRing_keeps ..))

theorem writeCompletion_keeps {F : Nat} (r : DRef) (b : List Byte) (status : Nat) (tail : List Byte) (s : State) (hF : Within 0x10000000 F := by first | rfl | decide) : Keeps F s (writeCompletion r b status tail s) := by
  refine Keeps.mono hF ?_
  unfold writeCompletion
  repeat' (first
    | with_reducible exact Keeps.refl _
    | with_reducible assumption
    | intro _
    | fail_if_no_progress extract_lets +onlyGivenNames y
    | with_reducible refine Keeps.ite ?_ ?_
    | with_reducible refine Keeps.foldl ?_ ?_ _
    | with_reducible refine Keeps.trans ?_ (emit_keeps ..))

theorem signalSem_keeps {F : Nat} (ctx : Nat) (b : List Byte) (s : State) (hF : Within 0x40 F := by first | rfl | decide) : Keeps F s (signalSem ctx b s) := by
  refine Keeps.mono hF ?_
  unfold signalSem
  repeat' (first
    | with_reducible exact Keeps.refl _
    | with_reducible assumption
    | intro _
    | fail_if_no_progress extract_lets +onlyGivenNames y
    | with_reducible refine Keeps.ite ?_ ?_
    | with_reducible refine Keeps.foldl ?_ ?_ _
    | with_reducible refine Keeps.trans ?_ (setSem_keeps ..))

theorem fireVector_keeps {F : Nat} (fn vector : Nat) (s : State) (hF : Within 0x10000000 F := by first | rfl | decide) : Keeps F s (fireVector fn vector s) := by
  refine Keeps.mono hF ?_
  unfold fireVector
  repeat' (first
    | with_reducible exact Keeps.refl _
    | with_reducible assumption
    | intro _
    | (extract_lets +onlyGivenNames y
       refine Keeps.via (y := y) ?_ ?_
       on_goal 2 => (intro _; clear_value y)
       on_goal 1 => (dsimp -zeta only [y]; clear y))
    | fail_if_no_progress extract_lets +onlyGivenNames y
    | with_reducible refine Keeps.ite ?_ ?_
    | with_reducible refine Keeps.foldl ?_ ?_ _
    | with_reducible refine Keeps.trans ?_ (emit_keeps ..)
    | fail_if_no_progress with_reducible refine Keeps.lit ?_ rfl rfl rfl rfl
    | fail_if_no_progress with_reducible refine Keeps.litMod ?_ rfl rfl rfl rfl rfl rfl rfl rfl rfl
    | split
    | fail_if_no_progress dsimp -zeta only
    | refine Keeps.lit ?_ rfl rfl rfl rfl
    | refine Keeps.litMod ?_ rfl rfl rfl rfl rfl rfl rfl rfl rfl
    | refine Keeps.litTo ?_ rfl rfl rfl rfl ⟨nofun, nofun⟩ rfl (fun h => h) rfl rfl)

theorem fireInterrupt_keeps {F : Nat} (r : DRef) (b : List Byte) (s : State) (hF : Within 0x10000000 F := by first | rfl | decide) : Keeps F s (fireInterrupt r b s) := by
  refine Keeps.mono hF ?_
  unfold fireInterrupt
  repeat' (first
    | with_reducible exact Keeps.refl _
    | with_reducible assumption
    | intro _
    | (extract_lets +onlyGivenNames y
       refine Keeps.via (y := y) ?_ ?_
       on_goal 2 => (intro _; clear_value y)
       on_goal 1 => (dsimp -zeta only [y]; clear y))
    | fail_if_no_progress extract_lets +onlyGivenNames y
    | with_reducible refine Keeps.ite ?_ ?_
    | with_reducible refine Keeps.foldl ?_ ?_ _
    | with_reducible refine Keeps.trans ?_ (fireVector_keeps ..)
    | fail_if_no_progress with_reducible refine Keeps.lit ?_ rfl rfl rfl rfl
    | fail_if_no_progress with_reducible refine Keeps.litMod ?_ rfl rfl rfl rfl rfl rfl rfl rfl rfl
    | split
    | fail_if_no_progress dsimp -zeta only
    | refine Keeps.lit ?_ rfl rfl rfl rfl
    | refine Keeps.litMod ?_ rfl rfl rfl rfl rfl rfl rfl rfl rfl
    | refine Keeps.litTo ?_ rfl rfl rfl rfl ⟨nofun, nofun⟩ rfl (fun h => h) rfl rfl)

theorem countStepStatus_keeps {F : Nat} (r : DRef) (status : Nat) (s : State) (hF : Within 0x8000 F := by first | rfl | decide) : Keeps F s (countStepStatus r status s) := by
  refine Keeps.mono hF ?_
  unfold countStepStatus
  repeat' (first
    | with_reducible exact Keeps.refl _
    | with_reducible assumption
    | intro _
    | (extract_lets +onlyGivenNames y
       refine Keeps.via (y := y) ?_ ?_
       on_goal 2 => (intro _; clear_value y)
       on_goal 1 => (dsimp -zeta only [y]; clear y))
    | fail_if_no_progress extract_lets +onlyGivenNames y
    | with_reducible refine Keeps.ite ?_ ?_
    | with_reducible refine Keeps.foldl ?_ ?_ _
    | with_reducible refine Keeps.trans ?_ (modOpen_keeps ..)
    | fail_if_no_progress with_reducible refine Keeps.lit ?_ rfl rfl rfl rfl
    | fail_if_no_progress with_reducible refine Keeps.litMod ?_ rfl rfl rfl rfl rfl rfl rfl rfl rfl
    | split
    | fail_if_no_progress dsimp -zeta only
    | refine Keeps.lit ?_ rfl rfl rfl rfl
    | refine Keeps.litMod ?_ rfl rfl rfl rfl rfl rfl rfl rfl rfl
    | refine Keeps.litTo ?_ rfl rfl rfl rfl ⟨nofun, nofun⟩ rfl (fun h => h) rfl rfl)

theorem noteGatherEnd_keeps {F : Nat} (r : DRef) (b : List Byte) (status : Nat) (s : State) (hF : Within 0x8000 F := by first | rfl | decide) : Keeps F s (noteGatherEnd r b status s) := by
  refine Keeps.mono hF ?_
  unfold noteGatherEnd
  repeat' (first
    | with_reducible exact Keeps.refl _
    | with_reducible assumption
    | intro _
    | (extract_lets +onlyGivenNames y
       refine Keeps.via (y := y) ?_ ?_
       on_goal 2 => (intro _; clear_value y)
       on_goal 1 => (dsimp -zeta only [y]; clear y))
    | fail_if_no_progress extract_lets +onlyGivenNames y
    | with_reducible refine Keeps.ite ?_ ?_
    | with_reducible refine Keeps.foldl ?_ ?_ _
    | with_reducible refine Keeps.trans ?_ (modOpen_keeps ..)
    | fail_if_no_progress with_reducible refine Keeps.lit ?_ rfl rfl rfl rfl
    | fail_if_no_progress with_reducible refine Keeps.litMod ?_ rfl rfl rfl rfl rfl rfl rfl rfl rfl
    | split
    | fail_if_no_progress dsimp -zeta only
    | refine Keeps.lit ?_ rfl rfl rfl rfl
    | refine Keeps.litMod ?_ rfl rfl rfl rfl rfl rfl rfl rfl rfl
    | refine Keeps.litTo ?_ rfl rfl rfl rfl ⟨nofun, nofun⟩ rfl (fun h => h) rfl rfl)

theorem closeDesc_keeps {F : Nat} (r : DRef) (b : List Byte) (status : Nat) (tail : List Byte) (s : State) (hF : Within 0x10048040 F := by first | rfl | decide) : Keeps F s (closeDesc r b status tail s) := by
  refine Keeps.mono hF ?_
  unfold closeDesc
  repeat' (first
    | with_reducible exact Keeps.refl _
    | with_reducible assumption
    | intro _
    | (extract_lets +onlyGivenNames y
       refine Keeps.via (y := y) ?_ ?_
       on_goal 2 => (intro _; clear_value y)
       on_goal 1 => (dsimp -zeta only [y]; clear y))
    | fail_if_no_progress extract_lets +onlyGivenNames y
    | with_reducible refine Keeps.ite ?_ ?_
    | with_reducible refine Keeps.foldl ?_ ?_ _
    | with_reducible refine Keeps.trans ?_ (noteGatherEnd_keeps ..)
    | with_reducible refine Keeps.trans ?_ (countStepStatus_keeps ..)
    | with_reducible refine Keeps.trans ?_ (writeCompletion_keeps ..)
    | with_reducible refine Keeps.trans ?_ (applyStagedMaps_keeps ..)
    | with_reducible refine Keeps.trans ?_ (modRing_keeps ..)
    | fail_if_no_progress with_reducible refine Keeps.lit ?_ rfl rfl rfl rfl
    | fail_if_no_progress with_reducible refine Keeps.litMod ?_ rfl rfl rfl rfl rfl rfl rfl rfl rfl
    | split
    | fail_if_no_progress dsimp -zeta only
    | refine Keeps.lit ?_ rfl rfl rfl rfl
    | refine Keeps.litMod ?_ rfl rfl rfl rfl rfl rfl rfl rfl rfl
    | refine Keeps.litTo ?_ rfl rfl rfl rfl ⟨nofun, nofun⟩ rfl (fun h => h) rfl rfl)

theorem afterClose_keeps {F : Nat} (r : DRef) (b : List Byte) (signal : Bool) (s : State) (hF : Within 0x10000040 F := by first | rfl | decide) : Keeps F s (afterClose r b signal s) := by
  refine Keeps.mono hF ?_
  unfold afterClose
  repeat' (first
    | with_reducible exact Keeps.refl _
    | with_reducible assumption
    | intro _
    | fail_if_no_progress extract_lets +onlyGivenNames y
    | with_reducible refine Keeps.ite ?_ ?_
    | with_reducible refine Keeps.foldl ?_ ?_ _
    | with_reducible refine Keeps.trans ?_ (fireInterrupt_keeps ..)
    | with_reducible refine Keeps.trans ?_ (signalSem_keeps ..))

theorem addFlush_keeps {F : Nat} (ctx ring : Nat) (f : Flush) (s : State) (hF : Within 0x40 F := by first | rfl | decide) : Keeps F s (addFlush ctx ring f s) := by
  refine Keeps.mono hF ?_
  unfold addFlush
  repeat' (first
    | with_reducible exact Keeps.refl _
    | with_reducible assumption
    | intro _
    | (extract_lets +onlyGivenNames y
       refine Keeps.via (y := y) ?_ ?_
       on_goal 2 => (intro _; clear_value y)
       on_goal 1 => (dsimp -zeta only [y]; clear y))
    | fail_if_no_progress extract_lets +onlyGivenNames y
    | with_reducible refine Keeps.ite ?_ ?_
    | with_reducible refine Keeps.foldl ?_ ?_ _
    | with_reducible refine Keeps.trans ?_ (modRing_keeps ..)
    | fail_if_no_progress with_reducible refine Keeps.lit ?_ rfl rfl rfl rfl
    | fail_if_no_progress with_reducible refine Keeps.litMod ?_ rfl rfl rfl rfl rfl rfl rfl rfl rfl
    | split
    | fail_if_no_progress dsimp -zeta only
    | refine Keeps.lit ?_ rfl rfl rfl rfl
    | refine Keeps.litMod ?_ rfl rfl rfl rfl rfl rfl rfl rfl rfl
    | refine Keeps.litTo ?_ rfl rfl rfl rfl ⟨nofun, nofun⟩ rfl (fun h => h) rfl rfl)

theorem startFlush_keeps {F : Nat} (r : DRef) (status : Nat) (s : State) (hF : Within 0x40 F := by first | rfl | decide) : Keeps F s (startFlush r status s) := by
  refine Keeps.mono hF ?_
  unfold startFlush
  repeat' (first
    | with_reducible exact Keeps.refl _
    | with_reducible assumption
    | intro _
    | (extract_lets +onlyGivenNames y
       refine Keeps.via (y := y) ?_ ?_
       on_goal 2 => (intro _; clear_value y)
       on_goal 1 => (dsimp -zeta only [y]; clear y))
    | fail_if_no_progress extract_lets +onlyGivenNames y
    | with_reducible refine Keeps.ite ?_ ?_
    | with_reducible refine Keeps.foldl ?_ ?_ _
    | with_reducible refine Keeps.trans ?_ (addFlush_keeps ..)
    | fail_if_no_progress with_reducible refine Keeps.lit ?_ rfl rfl rfl rfl
    | fail_if_no_progress with_reducible refine Keeps.litMod ?_ rfl rfl rfl rfl rfl rfl rfl rfl rfl
    | split
    | fail_if_no_progress dsimp -zeta only
    | refine Keeps.lit ?_ rfl rfl rfl rfl
    | refine Keeps.litMod ?_ rfl rfl rfl rfl rfl rfl rfl rfl rfl
    | refine Keeps.litTo ?_ rfl rfl rfl rfl ⟨nofun, nofun⟩ rfl (fun h => h) rfl rfl)

theorem closeCovered_keeps {F : Nat} (ctx ring : Nat) (s : State) (hF : Within 0x10048040 F := by first | rfl | decide) : Keeps F s (closeCovered ctx ring s) := by
  refine Keeps.mono hF ?_
  unfold closeCovered
  repeat' (first
    | with_reducible exact Keeps.refl _
    | with_reducible assumption
    | intro _
    | (extract_lets +onlyGivenNames y
       refine Keeps.via (y := y) ?_ ?_
       on_goal 2 => (intro _; clear_value y)
       on_goal 1 => (dsimp -zeta only [y]; clear y))
    | fail_if_no_progress extract_lets +onlyGivenNames y
    | with_reducible refine Keeps.ite ?_ ?_
    | with_reducible refine Keeps.foldl ?_ ?_ _
    | with_reducible refine Keeps.trans ?_ (closeDesc_keeps ..)
    | fail_if_no_progress with_reducible refine Keeps.lit ?_ rfl rfl rfl rfl
    | fail_if_no_progress with_reducible refine Keeps.litMod ?_ rfl rfl rfl rfl rfl rfl rfl rfl rfl
    | split
    | fail_if_no_progress dsimp -zeta only
    | refine Keeps.lit ?_ rfl rfl rfl rfl
    | refine Keeps.litMod ?_ rfl rfl rfl rfl rfl rfl rfl rfl rfl
    | refine Keeps.litTo ?_ rfl rfl rfl rfl ⟨nofun, nofun⟩ rfl (fun h => h) rfl rfl)

theorem signalCovered_keeps {F : Nat} (ctx ring : Nat) (ds : List (Desc × Nat)) (s : State) (hF : Within 0x10000040 F := by first | rfl | decide) : Keeps F s (signalCovered ctx ring ds s) := by
  refine Keeps.mono hF ?_
  unfold signalCovered
  repeat' (first
    | with_reducible exact Keeps.refl _
    | with_reducible assumption
    | intro _
    | (extract_lets +onlyGivenNames y
       refine Keeps.via (y := y) ?_ ?_
       on_goal 2 => (intro _; clear_value y)
       on_goal 1 => (dsimp -zeta only [y]; clear y))
    | fail_if_no_progress extract_lets +onlyGivenNames y
    | with_reducible refine Keeps.ite ?_ ?_
    | with_reducible refine Keeps.foldl ?_ ?_ _
    | with_reducible refine Keeps.trans ?_ (afterClose_keeps ..)
    | fail_if_no_progress with_reducible refine Keeps.lit ?_ rfl rfl rfl rfl
    | fail_if_no_progress with_reducible refine Keeps.litMod ?_ rfl rfl rfl rfl rfl rfl rfl rfl rfl
    | split
    | fail_if_no_progress dsimp -zeta only
    | refine Keeps.lit ?_ rfl rfl rfl rfl
    | refine Keeps.litMod ?_ rfl rfl rfl rfl rfl rfl rfl rfl rfl
    | refine Keeps.litTo ?_ rfl rfl rfl rfl ⟨nofun, nofun⟩ rfl (fun h => h) rfl rfl)

theorem closeOut_keeps {F : Nat} (signal flushes : Bool) (r : DRef) (b : List Byte) (status : Nat) (tail : List Byte) (s : State) (hF : Within 0x10048040 F := by first | rfl | decide) : Keeps F s (closeOut signal flushes r b status tail s) := by
  refine Keeps.mono hF ?_
  unfold closeOut
  repeat' (first
    | with_reducible exact Keeps.refl _
    | with_reducible assumption
    | intro _
    | (extract_lets +onlyGivenNames y
       refine Keeps.via (y := y) ?_ ?_
       on_goal 2 => (intro _; clear_value y)
       on_goal 1 => (dsimp -zeta only [y]; clear y))
    | fail_if_no_progress extract_lets +onlyGivenNames y
    | with_reducible refine Keeps.ite ?_ ?_
    | with_reducible refine Keeps.foldl ?_ ?_ _
    | with_reducible refine Keeps.trans ?_ (signalCovered_keeps ..)
    | with_reducible refine Keeps.trans ?_ (closeCovered_keeps ..)
    | with_reducible refine Keeps.trans ?_ (startFlush_keeps ..)
    | with_reducible refine Keeps.trans ?_ (afterClose_keeps ..)
    | with_reducible refine Keeps.trans ?_ (closeDesc_keeps ..)
    | fail_if_no_progress with_reducible refine Keeps.lit ?_ rfl rfl rfl rfl
    | fail_if_no_progress with_reducible refine Keeps.litMod ?_ rfl rfl rfl rfl rfl rfl rfl rfl rfl
    | split
    | fail_if_no_progress dsimp -zeta only
    | refine Keeps.lit ?_ rfl rfl rfl rfl
    | refine Keeps.litMod ?_ rfl rfl rfl rfl rfl rfl rfl rfl rfl
    | refine Keeps.litTo ?_ rfl rfl rfl rfl ⟨nofun, nofun⟩ rfl (fun h => h) rfl rfl)

theorem settle_keeps {F : Nat} (n : Nat) (s : State) (hF : Within 0x1000010048040 F := by first | rfl | decide) : Keeps F s (settle n s) := by
  refine Keeps.mono hF ?_
  induction n generalizing s with
  | zero => exact Keeps.refl _
  | succ n ih =>
    rw [settle]
    split
    · exact Keeps.refl _
    · refine Keeps.trans ?_ (ih _)
      refine Keeps.trans ?_ (closeOut_keeps ..)
      exact Keeps.ite (bump_keeps ..) (Keeps.refl _)

theorem settleAll_keeps {F : Nat} (s : State) (hF : Within 0x1000010048040 F := by first | rfl | decide) : Keeps F s (settleAll s) := by
  refine Keeps.mono hF ?_
  unfold settleAll
  repeat' (first
    | with_reducible exact Keeps.refl _
    | with_reducible assumption
    | intro _
    | fail_if_no_progress extract_lets +onlyGivenNames y
    | with_reducible refine Keeps.ite ?_ ?_
    | with_reducible refine Keeps.foldl ?_ ?_ _
    | with_reducible refine Keeps.trans ?_ (settle_keeps ..))

theorem settleBad_keeps {F : Nat} (ctx ring : Nat) (s : State) (hF : Within 0x1000010048040 F := by first | rfl | decide) : Keeps F s (settleBad ctx ring s) := by
  refine Keeps.mono hF ?_
  unfold settleBad
  repeat' (first
    | with_reducible exact Keeps.refl _
    | with_reducible assumption
    | intro _
    | (extract_lets +onlyGivenNames y
       refine Keeps.via (y := y) ?_ ?_
       on_goal 2 => (intro _; clear_value y)
       on_goal 1 => (dsimp -zeta only [y]; clear y))
    | fail_if_no_progress extract_lets +onlyGivenNames y
    | with_reducible refine Keeps.ite ?_ ?_
    | with_reducible refine Keeps.foldl ?_ ?_ _
    | with_reducible refine Keeps.trans ?_ (settleAll_keeps ..)
    | fail_if_no_progress with_reducible refine Keeps.lit ?_ rfl rfl rfl rfl
    | fail_if_no_progress with_reducible refine Keeps.litMod ?_ rfl rfl rfl rfl rfl rfl rfl rfl rfl
    | split
    | fail_if_no_progress dsimp -zeta only
    | refine Keeps.lit ?_ rfl rfl rfl rfl
    | refine Keeps.litMod ?_ rfl rfl rfl rfl rfl rfl rfl rfl rfl
    | refine Keeps.litTo ?_ rfl rfl rfl rfl ⟨nofun, nofun⟩ rfl (fun h => h) rfl rfl)

theorem completeWith_keeps {F : Nat} (signal rejected flushes : Bool) (r : DRef) (status : Nat) (tail : List Byte) (s : State) (hF : Within 0x1000010048040 F := by first | rfl | decide) : Keeps F s (completeWith signal rejected flushes r status tail s) := by
  refine Keeps.mono hF ?_
  unfold completeWith
  repeat' (first
    | with_reducible exact Keeps.refl _
    | with_reducible assumption
    | intro _
    | (extract_lets +onlyGivenNames y
       refine Keeps.via (y := y) ?_ ?_
       on_goal 2 => (intro _; clear_value y)
       on_goal 1 => (dsimp -zeta only [y]; clear y))
    | fail_if_no_progress extract_lets +onlyGivenNames y
    | with_reducible refine Keeps.ite ?_ ?_
    | with_reducible refine Keeps.foldl ?_ ?_ _
    | with_reducible refine Keeps.trans ?_ (settleAll_keeps ..)
    | with_reducible refine Keeps.trans ?_ (closeOut_keeps ..)
    | with_reducible refine Keeps.trans ?_ (bump_keeps ..)
    | fail_if_no_progress with_reducible refine Keeps.lit ?_ rfl rfl rfl rfl
    | fail_if_no_progress with_reducible refine Keeps.litMod ?_ rfl rfl rfl rfl rfl rfl rfl rfl rfl
    | split
    | fail_if_no_progress dsimp -zeta only
    | refine Keeps.lit ?_ rfl rfl rfl rfl
    | refine Keeps.litMod ?_ rfl rfl rfl rfl rfl rfl rfl rfl rfl
    | refine Keeps.litTo ?_ rfl rfl rfl rfl ⟨nofun, nofun⟩ rfl (fun h => h) rfl rfl)

theorem complete_keeps {F : Nat} (r : DRef) (status : Nat) (tail : List Byte) (s : State) (hF : Within 0x1000010048040 F := by first | rfl | decide) : Keeps F s (complete r status tail s) := by
  refine Keeps.mono hF ?_
  unfold complete
  repeat' (first
    | with_reducible exact Keeps.refl _
    | with_reducible assumption
    | intro _
    | fail_if_no_progress extract_lets +onlyGivenNames y
    | with_reducible refine Keeps.ite ?_ ?_
    | with_reducible refine Keeps.foldl ?_ ?_ _
    | with_reducible refine Keeps.trans ?_ (completeWith_keeps ..))

theorem reject_keeps {F : Nat} (r : DRef) (status : Nat) (tail : List Byte) (s : State) (hF : Within 0x1000010048040 F := by first | rfl | decide) : Keeps F s (reject r status tail s) := by
  refine Keeps.mono hF ?_
  unfold reject
  repeat' (first
    | with_reducible exact Keeps.refl _
    | with_reducible assumption
    | intro _
    | fail_if_no_progress extract_lets +onlyGivenNames y
    | with_reducible refine Keeps.ite ?_ ?_
    | with_reducible refine Keeps.foldl ?_ ?_ _
    | with_reducible refine Keeps.trans ?_ (completeWith_keeps ..))

theorem emitHist_keeps {F : Nat} (r : DRef) (noHist : Bool) (stream : Nat) (kind : EngineKind) (engine : Nat) (h : Hist) (s : State) (hF : Within 0x110000040 F := by first | rfl | decide) : Keeps F s (emitHist r noHist stream kind engine h s) := by
  refine Keeps.mono hF ?_
  unfold emitHist
  repeat' (first
    | with_reducible exact Keeps.refl _
    | with_reducible assumption
    | intro _
    | (extract_lets +onlyGivenNames y
       refine Keeps.via (y := y) ?_ ?_
       on_goal 2 => (intro _; clear_value y)
       on_goal 1 => (dsimp -zeta only [y]; clear y))
    | fail_if_no_progress extract_lets +onlyGivenNames y
    | with_reducible refine Keeps.ite ?_ ?_
    | with_reducible refine Keeps.foldl ?_ ?_ _
    | with_reducible refine Keeps.trans ?_ (emit_keeps ..)
    | with_reducible refine Keeps.trans ?_ (modDoor_keeps ..)
    | with_reducible refine Keeps.trans ?_ (setFlag_keeps ..)
    | fail_if_no_progress with_reducible refine Keeps.lit ?_ rfl rfl rfl rfl
    | fail_if_no_progress with_reducible refine Keeps.litMod ?_ rfl rfl rfl rfl rfl rfl rfl rfl rfl
    | split
    | fail_if_no_progress dsimp -zeta only
    | refine Keeps.lit ?_ rfl rfl rfl rfl
    | refine Keeps.litMod ?_ rfl rfl rfl rfl rfl rfl rfl rfl rfl
    | refine Keeps.litTo ?_ rfl rfl rfl rfl ⟨nofun, nofun⟩ rfl (fun h => h) rfl rfl)

theorem logBadAccess_keeps {F : Nat} (fn off : Nat) (bar2 write : Bool) (cause : Nat) (s : State) (hF : Within 0x2 F := by first | rfl | decide) : Keeps F s (logBadAccess fn off bar2 write cause s) := by
  refine Keeps.mono hF ?_
  unfold logBadAccess
  repeat' (first
    | with_reducible exact Keeps.refl _
    | with_reducible assumption
    | intro _
    | fail_if_no_progress extract_lets +onlyGivenNames y
    | with_reducible refine Keeps.ite ?_ ?_
    | with_reducible refine Keeps.foldl ?_ ?_ _
    | with_reducible refine Keeps.trans ?_ (logEntry_keeps ..))

theorem badAccess_keeps {F : Nat} (fn off : Nat) (bar2 write : Bool) (cause : Nat) (s : State) (hF : Within 0x1000100000002 F := by first | rfl | decide) : Keeps F s (badAccess fn off bar2 write cause s) := by
  refine Keeps.mono hF ?_
  unfold badAccess
  repeat' (first
    | with_reducible exact Keeps.refl _
    | with_reducible assumption
    | intro _
    | fail_if_no_progress extract_lets +onlyGivenNames y
    | with_reducible refine Keeps.ite ?_ ?_
    | with_reducible refine Keeps.foldl ?_ ?_ _
    | with_reducible refine Keeps.trans ?_ (logBadAccess_keeps ..)
    | with_reducible refine Keeps.trans ?_ (bump_keeps ..)
    | with_reducible refine Keeps.trans ?_ (setFlag_keeps ..))

theorem noteEngineReset_keeps {F : Nat} (s : State) (hF : Within 0x400040000000000 F := by first | rfl | decide) : Keeps F s (noteEngineReset s) := by
  refine Keeps.mono hF ?_
  unfold noteEngineReset
  repeat' (first
    | with_reducible exact Keeps.refl _
    | with_reducible assumption
    | intro _
    | fail_if_no_progress extract_lets +onlyGivenNames y
    | with_reducible refine Keeps.ite ?_ ?_
    | with_reducible refine Keeps.foldl ?_ ?_ _
    | with_reducible refine Keeps.trans ?_ (bump_keeps ..)
    | with_reducible refine Keeps.trans ?_ (setFlag_keeps ..))

theorem takeOutOfService_keeps {F : Nat} (regOff bit source unit : Nat) (s : State) (hF : Within 0x40000000006 F := by first | rfl | decide) : Keeps F s (takeOutOfService regOff bit source unit s) := by
  refine Keeps.mono hF ?_
  unfold takeOutOfService
  repeat' (first
    | with_reducible exact Keeps.refl _
    | with_reducible assumption
    | intro _
    | fail_if_no_progress extract_lets +onlyGivenNames y
    | with_reducible refine Keeps.ite ?_ ?_
    | with_reducible refine Keeps.foldl ?_ ?_ _
    | with_reducible refine Keeps.trans ?_ (logEntry_keeps ..)
    | with_reducible refine Keeps.trans ?_ (setFlag_keeps ..)
    | with_reducible refine Keeps.trans ?_ (setReg_keeps ..))

theorem drsReset_keeps {F : Nat} (u : Nat) (j : DrsJob) (s : State) (hF : Within 0x410041000004006 F := by first | rfl | decide) : Keeps F s (drsReset u j s) := by
  refine Keeps.mono hF ?_
  unfold drsReset
  repeat' (first
    | with_reducible exact Keeps.refl _
    | with_reducible assumption
    | intro _
    | (extract_lets +onlyGivenNames y
       refine Keeps.via (y := y) ?_ ?_
       on_goal 2 => (intro _; clear_value y)
       on_goal 1 => (dsimp -zeta only [y]; clear y))
    | fail_if_no_progress extract_lets +onlyGivenNames y
    | with_reducible refine Keeps.ite ?_ ?_
    | with_reducible refine Keeps.foldl ?_ ?_ _
    | with_reducible refine Keeps.trans ?_ (takeOutOfService_keeps ..)
    | with_reducible refine Keeps.trans ?_ (noteEngineReset_keeps ..)
    | with_reducible refine Keeps.trans ?_ (logEntry_keeps ..)
    | with_reducible refine Keeps.trans ?_ (bump_keeps ..)
    | with_reducible refine Keeps.trans ?_ (setFlag_keeps ..)
    | fail_if_no_progress with_reducible refine Keeps.lit ?_ rfl rfl rfl rfl
    | fail_if_no_progress with_reducible refine Keeps.litMod ?_ rfl rfl rfl rfl rfl rfl rfl rfl rfl
    | split
    | fail_if_no_progress dsimp -zeta only
    | refine Keeps.lit ?_ rfl rfl rfl rfl
    | refine Keeps.litMod ?_ rfl rfl rfl rfl rfl rfl rfl rfl rfl
    | refine Keeps.litTo ?_ rfl rfl rfl rfl ⟨nofun, nofun⟩ rfl (fun h => h) rfl rfl)

theorem endContextReset_keeps {F : Nat} (ctx : Nat) (s : State) (hF : Within 0x110000002 F := by first | rfl | decide) : Keeps F s (endContextReset ctx s) := by
  refine Keeps.mono hF ?_
  unfold endContextReset
  repeat' (first
    | with_reducible exact Keeps.refl _
    | with_reducible assumption
    | intro _
    | (extract_lets +onlyGivenNames y
       refine Keeps.via (y := y) ?_ ?_
       on_goal 2 => (intro _; clear_value y)
       on_goal 1 => (dsimp -zeta only [y]; clear y))
    | fail_if_no_progress extract_lets +onlyGivenNames y
    | with_reducible refine Keeps.ite ?_ ?_
    | with_reducible refine Keeps.foldl ?_ ?_ _
    | with_reducible refine Keeps.trans ?_ (logEntry_keeps ..)
    | with_reducible refine Keeps.trans ?_ (setFlag_keeps ..)
    | fail_if_no_progress with_reducible refine Keeps.lit ?_ rfl rfl rfl rfl
    | fail_if_no_progress with_reducible refine Keeps.litMod ?_ rfl rfl rfl rfl rfl rfl rfl rfl rfl
    | split
    | fail_if_no_progress dsimp -zeta only
    | refine Keeps.lit ?_ rfl rfl rfl rfl
    | refine Keeps.litMod ?_ rfl rfl rfl rfl rfl rfl rfl rfl rfl
    | refine Keeps.litTo ?_ rfl rfl rfl rfl ⟨nofun, nofun⟩ rfl (fun h => h) rfl rfl)

theorem noteStopped_keeps {F : Nat} (dropped : Bool) (r : DRef) (s : State) (hF : Within 0x110000002 F := by first | rfl | decide) : Keeps F s (noteStopped dropped r s) := by
  refine Keeps.mono hF ?_
  unfold noteStopped
  repeat' (first
    | with_reducible exact Keeps.refl _
    | with_reducible assumption
    | intro _
    | (extract_lets +onlyGivenNames y
       refine Keeps.via (y := y) ?_ ?_
       on_goal 2 => (intro _; clear_value y)
       on_goal 1 => (dsimp -zeta only [y]; clear y))
    | fail_if_no_progress extract_lets +onlyGivenNames y
    | with_reducible refine Keeps.ite ?_ ?_
    | with_reducible refine Keeps.foldl ?_ ?_ _
    | with_reducible refine Keeps.trans ?_ (endContextReset_keeps ..)
    | fail_if_no_progress with_reducible refine Keeps.lit ?_ rfl rfl rfl rfl
    | fail_if_no_progress with_reducible refine Keeps.litMod ?_ rfl rfl rfl rfl rfl rfl rfl rfl rfl
    | split
    | fail_if_no_progress dsimp -zeta only
    | refine Keeps.lit ?_ rfl rfl rfl rfl
    | refine Keeps.litMod ?_ rfl rfl rfl rfl rfl rfl rfl rfl rfl
    | refine Keeps.litTo ?_ rfl rfl rfl rfl ⟨nofun, nofun⟩ rfl (fun h => h) rfl rfl)

end Sys2Proof.Machine
end

