-- ==== Sys2Proof/Laws/KeepsPrecedence.lean ====
section
/-!
SUPPORT. What the operations of Machine/Precedence.lean keep.
-/
set_option Elab.async false

namespace Sys2Proof.Machine

theorem nextConversion_keeps {F : Nat} (s : State) (hF : Within 0x8 F := by first | rfl | decide) : Keeps F s (nextConversion s) := by
  refine Keeps.mono hF ?_
  unfold nextConversion
  split
  · exact Keeps.lit (Keeps.refl _) rfl rfl rfl rfl
  · refine Keeps.ite (Keeps.lit (Keeps.refl _) rfl rfl rfl rfl) ?_
    dsimp only
    split <;> exact Keeps.lit (Keeps.refl _) rfl rfl rfl rfl

theorem beginIdle_keeps {F : Nat} (s : State) (hF : Within 0x8 F := by first | rfl | decide) : Keeps F s (beginIdle s) := by
  refine Keeps.mono hF ?_
  unfold beginIdle
  repeat' (first
    | with_reducible exact Keeps.refl _
    | with_reducible assumption
    | intro _
    | (extract_lets +onlyGivenNames y
       refine Keeps.via (y := y) ?_ ?_
       on_goal 2 => (intro _; clear_value y)
       on_goal 1 => (dsimp -zeta only [y]; clear y))
    | fail_if_no_progress extract_lets +onlyGivenNames y
    | with_reducible refine Keeps.ite ?_ ?_
    | with_reducible refine Keeps.foldl ?_ ?_ _
    | with_reducible refine Keeps.trans ?_ (nextConversion_keeps ..)
    | fail_if_no_progress with_reducible refine Keeps.lit ?_ rfl rfl rfl rfl
    | fail_if_no_progress with_reducible refine Keeps.litMod ?_ rfl rfl rfl rfl rfl rfl rfl rfl rfl
    | split
    | fail_if_no_progress dsimp -zeta only
    | refine Keeps.lit ?_ rfl rfl rfl rfl
    | refine Keeps.litMod ?_ rfl rfl rfl rfl rfl rfl rfl rfl rfl
    | refine Keeps.litTo ?_ rfl rfl rfl rfl ⟨nofun, nofun⟩ rfl (fun h => h) rfl rfl)

theorem pageWf_map (d : Door) (f : Nat → Ring → Ring) (h : pageWf d = true) : pageWf { d with rings := tabMap {} f d.rings } = true := by
  unfold pageWf at *
  rw [Bool.and_eq_true] at *
  exact ⟨tabWf_tabMap _ _ _ h.1, h.2⟩

theorem yieldToReset_keeps {F : Nat} (s : State) (hF : Within 0x40 F := by first | rfl | decide) : Keeps F s (yieldToReset s) := by
  refine Keeps.mono hF (Keeps.foldl (Keeps.refl s) (fun y c => ?_) _)
  exact Keeps.ite (modDoor_keeps _ _ _ (hf := fun _ h => pageWf_map _ _ h)) (Keeps.refl y)

end Sys2Proof.Machine
end

