-- ==== Sys2Proof/Laws/KeepsDispatching.lean ====
section
/-!
SUPPORT. What the operations of Machine/Dispatching.lean keep.
-/
set_option Elab.async false

namespace Sys2Proof.Machine

theorem noteGens_keeps {F : Nat} (a : Accepted) (s : State) (hF : Within 0x80008000000442 F := by first | rfl | decide) : Keeps F s (noteGens a s) := by
  refine Keeps.mono hF ?_
  unfold noteGens
  repeat' (first
    | with_reducible exact Keeps.refl _
    | with_reducible assumption
    | intro _
    | (extract_lets +onlyGivenNames y
       refine Keeps.via (y := y) ?_ ?_
       on_goal 2 => (intro _; clear_value y)
       on_goal 1 => (dsimp -zeta only [y]; clear y))
    | fail_if_no_progress extract_lets +onlyGivenNames y
    | with_reducible refine Keeps.ite ?_ ?_
    | with_reducible refine Keeps.foldl ?_ ?_ _
    | with_reducible refine Keeps.trans ?_ (noteRead_keeps ..)
    | fail_if_no_progress with_reducible refine Keeps.lit ?_ rfl rfl rfl rfl
    | fail_if_no_progress with_reducible refine Keeps.litMod ?_ rfl rfl rfl rfl rfl rfl rfl rfl rfl
    | split
    | fail_if_no_progress dsimp -zeta only
    | refine Keeps.lit ?_ rfl rfl rfl rfl
    | refine Keeps.litMod ?_ rfl rfl rfl rfl rfl rfl rfl rfl rfl
    | refine Keeps.litTo ?_ rfl rfl rfl rfl ⟨nofun, nofun⟩ rfl (fun h => h) rfl rfl)

theorem noteTable_keeps {F : Nat} (r : DRef) (s : State) (hF : Within 0x80008000000442 F := by first | rfl | decide) : Keeps F s (noteTable r s) := by
  refine Keeps.mono hF ?_
  unfold noteTable
  repeat' (first
    | with_reducible exact Keeps.refl _
    | with_reducible assumption
    | intro _
    | (extract_lets +onlyGivenNames y
       refine Keeps.via (y := y) ?_ ?_
       on_goal 2 => (intro _; clear_value y)
       on_goal 1 => (dsimp -zeta only [y]; clear y))
    | fail_if_no_progress extract_lets +onlyGivenNames y
    | with_reducible refine Keeps.ite ?_ ?_
    | with_reducible refine Keeps.foldl ?_ ?_ _
    | with_reducible refine Keeps.trans ?_ (noteRead_keeps ..)
    | fail_if_no_progress with_reducible refine Keeps.lit ?_ rfl rfl rfl rfl
    | fail_if_no_progress with_reducible refine Keeps.litMod ?_ rfl rfl rfl rfl rfl rfl rfl rfl rfl
    | split
    | fail_if_no_progress dsimp -zeta only
    | refine Keeps.lit ?_ rfl rfl rfl rfl
    | refine Keeps.litMod ?_ rfl rfl rfl rfl rfl rfl rfl rfl rfl
    | refine Keeps.litTo ?_ rfl rfl rfl rfl ⟨nofun, nofun⟩ rfl (fun h => h) rfl rfl)

theorem dispatchOp_keeps {F : Nat} (ctx ring op : Nat) (k : Accepted → State → State) (s : State) (hk : ∀ a s, Keeps F s (k a s)) (hF : Within 0x81008010048442 F := by first | rfl | decide) : Keeps F s (dispatchOp ctx ring op k s) := by
  unfold dispatchOp
  repeat' (first
    | with_reducible exact Keeps.refl _
    | with_reducible assumption
    | intro _
    | (extract_lets +onlyGivenNames y
       refine Keeps.via (y := y) ?_ ?_
       on_goal 2 => (intro _; clear_value y)
       on_goal 1 => (dsimp -zeta only [y]; clear y))
    | fail_if_no_progress extract_lets +onlyGivenNames y
    | with_reducible refine Keeps.ite ?_ ?_
    | with_reducible refine Keeps.foldl ?_ ?_ _
    | with_reducible refine Keeps.trans ?_ (hk ..)
    | with_reducible refine Keeps.trans ?_ (Keeps.mono hF (noteTable_keeps ..))
    | with_reducible refine Keeps.trans ?_ (Keeps.mono hF (noteGens_keeps ..))
    | with_reducible refine Keeps.trans ?_ (Keeps.mono hF (completeWith_keeps ..))
    | with_reducible refine Keeps.trans ?_ (Keeps.mono hF (settleBad_keeps ..))
    | with_reducible refine Keeps.trans ?_ (Keeps.mono hF (markDispatched_keeps ..))
    | fail_if_no_progress with_reducible refine Keeps.trans ?_ (Keeps.mono hF (Keeps.lit (Keeps.refl _) rfl rfl rfl rfl))
    | fail_if_no_progress with_reducible refine Keeps.litMod ?_ rfl rfl rfl rfl rfl rfl rfl rfl rfl
    | split
    | fail_if_no_progress dsimp -zeta only
    | refine Keeps.trans ?_ (Keeps.mono hF (Keeps.lit (Keeps.refl _) rfl rfl rfl rfl))
    | refine Keeps.litMod ?_ rfl rfl rfl rfl rfl rfl rfl rfl rfl
    | refine Keeps.litTo ?_ rfl rfl rfl rfl ⟨nofun, nofun⟩ rfl (fun h => h) rfl rfl)

end Sys2Proof.Machine
end

