-- ==== Sys2Proof/Laws/KeepsDrawerOps.lean ====
section
/-!
SUPPORT. What the operations of Machine/DrawerOps.lean keep.
-/
set_option Elab.async false

namespace Sys2Proof.Machine

theorem modDrawer_keeps {F : Nat} (d : Nat) (f : Drawer → Drawer) (s : State) (hF : Within 0x10000 F := by first | rfl | decide) : Keeps F s (modDrawer d f s) := by
  refine Keeps.mono hF ?_
  unfold modDrawer
  repeat' (first
    | with_reducible exact Keeps.refl _
    | with_reducible assumption
    | intro _
    | fail_if_no_progress extract_lets +onlyGivenNames y
    | with_reducible refine Keeps.ite ?_ ?_
    | with_reducible refine Keeps.foldl ?_ ?_ _
    | fail_if_no_progress with_reducible refine Keeps.lit ?_ rfl rfl rfl rfl)

theorem modChest_keeps {F : Nat} (c : Nat) (f : Chest → Chest) (s : State) (hF : Within 0x20000 F := by first | rfl | decide) : Keeps F s (modChest c f s) := by
  refine Keeps.mono hF ?_
  unfold modChest
  repeat' (first
    | with_reducible exact Keeps.refl _
    | with_reducible assumption
    | intro _
    | fail_if_no_progress extract_lets +onlyGivenNames y
    | with_reducible refine Keeps.ite ?_ ?_
    | with_reducible refine Keeps.foldl ?_ ?_ _
    | fail_if_no_progress with_reducible refine Keeps.lit ?_ rfl rfl rfl rfl)

theorem modPlane_keeps {F : Nat} (d p : Nat) (f : Plane → Plane) (s : State) (hF : Within 0x10000 F := by first | rfl | decide) : Keeps F s (modPlane d p f s) := by
  refine Keeps.mono hF ?_
  unfold modPlane
  repeat' (first
    | with_reducible exact Keeps.refl _
    | with_reducible assumption
    | intro _
    | fail_if_no_progress extract_lets +onlyGivenNames y
    | with_reducible refine Keeps.ite ?_ ?_
    | with_reducible refine Keeps.foldl ?_ ?_ _
    | with_reducible refine Keeps.trans ?_ (modDrawer_keeps ..))

theorem reloadTrims_keeps {F : Nat} (acc : Access) (d c0 : Nat) (trims : List Word) (s : State) (hF : Within 0x80008000010442 F := by first | rfl | decide) : Keeps F s (reloadTrims acc d c0 trims s) := by
  refine Keeps.mono hF ?_
  unfold reloadTrims
  repeat' (first
    | with_reducible exact Keeps.refl _
    | with_reducible assumption
    | intro _
    | (extract_lets +onlyGivenNames y
       refine Keeps.via (y := y) ?_ ?_
       on_goal 2 => (intro _; clear_value y)
       on_goal 1 => (dsimp -zeta only [y]; clear y))
    | fail_if_no_progress extract_lets +onlyGivenNames y
    | with_reducible refine Keeps.ite ?_ ?_
    | with_reducible refine Keeps.foldl ?_ ?_ _
    | with_reducible refine Keeps.trans ?_ (modDrawer_keeps ..)
    | with_reducible refine Keeps.trans ?_ (noteRead_keeps ..)
    | fail_if_no_progress with_reducible refine Keeps.lit ?_ rfl rfl rfl rfl
    | fail_if_no_progress with_reducible refine Keeps.litMod ?_ rfl rfl rfl rfl rfl rfl rfl rfl rfl
    | split
    | fail_if_no_progress dsimp -zeta only
    | refine Keeps.lit ?_ rfl rfl rfl rfl
    | refine Keeps.litMod ?_ rfl rfl rfl rfl rfl rfl rfl rfl rfl
    | refine Keeps.litTo ?_ rfl rfl rfl rfl ⟨nofun, nofun⟩ rfl (fun h => h) rfl rfl)

theorem writeTrim_keeps {F : Nat} (acc : Access) (d c : Nat) (v : Word) (s : State) (hF : Within 0x80008000000602 F := by first | rfl | decide) : Keeps F s (writeTrim acc d c v s) := by
  refine Keeps.mono hF ?_
  unfold writeTrim
  repeat' (first
    | with_reducible exact Keeps.refl _
    | with_reducible assumption
    | intro _
    | (extract_lets +onlyGivenNames y
       refine Keeps.via (y := y) ?_ ?_
       on_goal 2 => (intro _; clear_value y)
       on_goal 1 => (dsimp -zeta only [y]; clear y))
    | fail_if_no_progress extract_lets +onlyGivenNames y
    | with_reducible refine Keeps.ite ?_ ?_
    | with_reducible refine Keeps.foldl ?_ ?_ _
    | with_reducible refine Keeps.trans ?_ (writeMem_keeps ..)
    | fail_if_no_progress with_reducible refine Keeps.lit ?_ rfl rfl rfl rfl
    | fail_if_no_progress with_reducible refine Keeps.litMod ?_ rfl rfl rfl rfl rfl rfl rfl rfl rfl
    | split
    | fail_if_no_progress dsimp -zeta only
    | refine Keeps.lit ?_ rfl rfl rfl rfl
    | refine Keeps.litMod ?_ rfl rfl rfl rfl rfl rfl rfl rfl rfl
    | refine Keeps.litTo ?_ rfl rfl rfl rfl ⟨nofun, nofun⟩ rfl (fun h => h) rfl rfl)

theorem clearTrim_keeps {F : Nat} (acc : Access) (d c : Nat) (s : State) (hF : Within 0x80008000010602 F := by first | rfl | decide) : Keeps F s (clearTrim acc d c s) := by
  refine Keeps.mono hF ?_
  unfold clearTrim
  repeat' (first
    | with_reducible exact Keeps.refl _
    | with_reducible assumption
    | intro _
    | (extract_lets +onlyGivenNames y
       refine Keeps.via (y := y) ?_ ?_
       on_goal 2 => (intro _; clear_value y)
       on_goal 1 => (dsimp -zeta only [y]; clear y))
    | fail_if_no_progress extract_lets +onlyGivenNames y
    | with_reducible refine Keeps.ite ?_ ?_
    | with_reducible refine Keeps.foldl ?_ ?_ _
    | with_reducible refine Keeps.trans ?_ (writeTrim_keeps ..)
    | with_reducible refine Keeps.trans ?_ (modDrawer_keeps ..)
    | fail_if_no_progress with_reducible refine Keeps.lit ?_ rfl rfl rfl rfl
    | fail_if_no_progress with_reducible refine Keeps.litMod ?_ rfl rfl rfl rfl rfl rfl rfl rfl rfl
    | split
    | fail_if_no_progress dsimp -zeta only
    | refine Keeps.lit ?_ rfl rfl rfl rfl
    | refine Keeps.litMod ?_ rfl rfl rfl rfl rfl rfl rfl rfl rfl
    | refine Keeps.litTo ?_ rfl rfl rfl rfl ⟨nofun, nofun⟩ rfl (fun h => h) rfl rfl)

theorem stagedInForce_keeps {F : Nat} (d : Nat) (s : State) (hF : Within 0x80008000010602 F := by first | rfl | decide) : Keeps F s (stagedInForce d s) := by
  refine Keeps.mono hF ?_
  unfold stagedInForce
  repeat' (first
    | with_reducible exact Keeps.refl _
    | with_reducible assumption
    | intro _
    | fail_if_no_progress extract_lets +onlyGivenNames y
    | with_reducible refine Keeps.ite ?_ ?_
    | with_reducible refine Keeps.foldl ?_ ?_ _
    | with_reducible refine Keeps.trans ?_ (modDrawer_keeps ..)
    | with_reducible refine Keeps.trans ?_ (writeMem_keeps ..)
    | fail_if_no_progress with_reducible refine Keeps.lit ?_ rfl rfl rfl rfl
    | fail_if_no_progress with_reducible refine Keeps.litMod ?_ rfl rfl rfl rfl rfl rfl rfl rfl rfl
    | split)

theorem dropFromCommits_keeps {F : Nat} (d : Nat) (s : State) (hF : Within 0x8000 F := by first | rfl | decide) : Keeps F s (dropFromCommits d s) := by
  refine Keeps.mono hF ?_
  unfold dropFromCommits
  repeat' (first
    | with_reducible exact Keeps.refl _
    | with_reducible assumption
    | intro _
    | (extract_lets +onlyGivenNames y
       refine Keeps.via (y := y) ?_ ?_
       on_goal 2 => (intro _; clear_value y)
       on_goal 1 => (dsimp -zeta only [y]; clear y))
    | fail_if_no_progress extract_lets +onlyGivenNames y
    | with_reducible refine Keeps.ite ?_ ?_
    | with_reducible refine Keeps.foldl ?_ ?_ _
    | fail_if_no_progress with_reducible refine Keeps.lit ?_ rfl rfl rfl rfl
    | fail_if_no_progress with_reducible refine Keeps.litMod ?_ rfl rfl rfl rfl rfl rfl rfl rfl rfl
    | split
    | fail_if_no_progress dsimp -zeta only
    | refine Keeps.lit ?_ rfl rfl rfl rfl
    | refine Keeps.litMod ?_ rfl rfl rfl rfl rfl rfl rfl rfl rfl
    | refine Keeps.litTo ?_ rfl rfl rfl rfl ⟨nofun, nofun⟩ rfl (fun h => h) rfl rfl)

theorem stageTrims_keeps {F : Nat} (d : Nat) (t : Tab Word) (s : State) (hF : Within 0x80008000018602 F := by first | rfl | decide) : Keeps F s (stageTrims d t s) := by
  refine Keeps.mono hF ?_
  unfold stageTrims
  repeat' (first
    | with_reducible exact Keeps.refl _
    | with_reducible assumption
    | intro _
    | (extract_lets +onlyGivenNames y
       refine Keeps.via (y := y) ?_ ?_
       on_goal 2 => (intro _; clear_value y)
       on_goal 1 => (dsimp -zeta only [y]; clear y))
    | fail_if_no_progress extract_lets +onlyGivenNames y
    | with_reducible refine Keeps.ite ?_ ?_
    | with_reducible refine Keeps.foldl ?_ ?_ _
    | with_reducible refine Keeps.trans ?_ (dropFromCommits_keeps ..)
    | with_reducible refine Keeps.trans ?_ (stagedInForce_keeps ..)
    | with_reducible refine Keeps.trans ?_ (modDrawer_keeps ..)
    | fail_if_no_progress with_reducible refine Keeps.lit ?_ rfl rfl rfl rfl
    | fail_if_no_progress with_reducible refine Keeps.litMod ?_ rfl rfl rfl rfl rfl rfl rfl rfl rfl
    | split
    | fail_if_no_progress dsimp -zeta only
    | refine Keeps.lit ?_ rfl rfl rfl rfl
    | refine Keeps.litMod ?_ rfl rfl rfl rfl rfl rfl rfl rfl rfl
    | refine Keeps.litTo ?_ rfl rfl rfl rfl ⟨nofun, nofun⟩ rfl (fun h => h) rfl rfl)

theorem countHold_keeps {F : Nat} (ctx : Nat) (release : Bool) (n : Nat) (s : State) (hF : Within 0x8000 F := by first | rfl | decide) : Keeps F s (countHold ctx release n s) := by
  refine Keeps.mono hF ?_
  unfold countHold
  repeat' (first
    | with_reducible exact Keeps.refl _
    | with_reducible assumption
    | intro _
    | fail_if_no_progress extract_lets +onlyGivenNames y
    | with_reducible refine Keeps.ite ?_ ?_
    | with_reducible refine Keeps.foldl ?_ ?_ _
    | with_reducible refine Keeps.trans ?_ (modOpen_keeps ..))

theorem takeHold_keeps {F : Nat} (ctx d p : Nat) (s : State) (hF : Within 0x400018000 F := by first | rfl | decide) : Keeps F s (takeHold ctx d p s).2 := by
  refine Keeps.mono hF ?_
  unfold takeHold
  repeat' (first
    | with_reducible exact Keeps.refl _
    | with_reducible assumption
    | intro _
    | fail_if_no_progress extract_lets +onlyGivenNames y
    | with_reducible refine Keeps.ite ?_ ?_
    | with_reducible refine Keeps.foldl ?_ ?_ _
    | fail_if_no_progress with_reducible refine Keeps.lit ?_ rfl rfl rfl rfl
    | fail_if_no_progress with_reducible refine Keeps.litMod ?_ rfl rfl rfl rfl rfl rfl rfl rfl rfl
    | split
    | fail_if_no_progress dsimp -zeta only
    | with_reducible refine Keeps.trans ?_ (countHold_keeps ..)
    | with_reducible refine Keeps.trans ?_ (modPlane_keeps ..)
    | with_reducible refine Keeps.trans ?_ (setFlag_keeps ..))

theorem takeHold_keeps_eq {ctx d p : Nat} {s : State} {pa pt} {F : Nat} (h : takeHold ctx d p s = (pa, pt)) (hF : Within 0x400018000 F := by first | rfl | decide) : Keeps F s pt := by
  have := takeHold_keeps ctx d p s (hF := hF)
  rwa [h] at this

theorem releaseHold_keeps {F : Nat} (ctx d p : Nat) (s : State) (hF : Within 0x400018000 F := by first | rfl | decide) : Keeps F s (releaseHold ctx d p s) := by
  refine Keeps.mono hF ?_
  unfold releaseHold
  repeat' (first
    | with_reducible exact Keeps.refl _
    | with_reducible assumption
    | intro _
    | fail_if_no_progress extract_lets +onlyGivenNames y
    | with_reducible refine Keeps.ite ?_ ?_
    | with_reducible refine Keeps.foldl ?_ ?_ _
    | with_reducible refine Keeps.trans ?_ (countHold_keeps ..)
    | with_reducible refine Keeps.trans ?_ (modPlane_keeps ..)
    | with_reducible refine Keeps.trans ?_ (setFlag_keeps ..))

end Sys2Proof.Machine
end

