-- ==== Sys2Proof/Laws/KeepsDrawerRun.lean ====
section
/-!
SUPPORT. What the operations of Machine/DrawerRun.lean keep.
-/
set_option Elab.async false

namespace Sys2Proof.Machine

theorem noteBegin_keeps {F : Nat} (j : DrwJob) (s : State) (hF : Within 0x80008200010442 F := by first | rfl | decide) : Keeps F s (noteBegin j s) := by
  refine Keeps.mono hF ?_
  unfold noteBegin
  repeat' (first
    | with_reducible exact Keeps.refl _
    | with_reducible assumption
    | intro _
    | (extract_lets +onlyGivenNames y
       refine Keeps.via (y := y) ?_ ?_
       on_goal 2 => (intro _; clear_value y)
       on_goal 1 => (dsimp -zeta only [y]; clear y))
    | fail_if_no_progress extract_lets +onlyGivenNames y
    | with_reducible refine Keeps.ite ?_ ?_
    | with_reducible refine Keeps.foldl ?_ ?_ _
    | with_reducible refine Keeps.trans ?_ (reloadTrims_keeps ..)
    | with_reducible refine Keeps.trans ?_ (noteRead_keeps ..)
    | with_reducible refine Keeps.trans ?_ (setFlag_keeps ..)
    | fail_if_no_progress with_reducible refine Keeps.lit ?_ rfl rfl rfl rfl
    | fail_if_no_progress with_reducible refine Keeps.litMod ?_ rfl rfl rfl rfl rfl rfl rfl rfl rfl
    | split
    | fail_if_no_progress dsimp -zeta only
    | refine Keeps.lit ?_ rfl rfl rfl rfl
    | refine Keeps.litMod ?_ rfl rfl rfl rfl rfl rfl rfl rfl rfl
    | refine Keeps.litTo ?_ rfl rfl rfl rfl ⟨nofun, nofun⟩ rfl (fun h => h) rfl rfl)

theorem writeVector_keeps {F : Nat} (j : DrwJob) (s : State) (hF : Within 0x80008000000642 F := by first | rfl | decide) : Keeps F s (writeVector j s).2 := by
  refine Keeps.mono hF ?_
  unfold writeVector
  repeat' (first
    | with_reducible exact Keeps.refl _
    | with_reducible assumption
    | intro _
    | (extract_lets +onlyGivenNames y
       refine Keeps.via (y := y) ?_ ?_
       on_goal 2 => (intro _; clear_value y)
       on_goal 1 => (dsimp -zeta only [y]; clear y))
    | fail_if_no_progress extract_lets +onlyGivenNames y
    | with_reducible refine Keeps.ite ?_ ?_
    | with_reducible refine Keeps.foldl ?_ ?_ _
    | fail_if_no_progress with_reducible refine Keeps.lit ?_ rfl rfl rfl rfl
    | fail_if_no_progress with_reducible refine Keeps.litMod ?_ rfl rfl rfl rfl rfl rfl rfl rfl rfl
    | split
    | fail_if_no_progress dsimp -zeta only
    | with_reducible refine Keeps.trans ?_ (writeMem_keeps ..)
    | with_reducible refine Keeps.trans ?_ (noteRead_keeps ..))

theorem writeVector_keeps_eq {j : DrwJob} {s : State} {pa pt} {F : Nat} (h : writeVector j s = (pa, pt)) (hF : Within 0x80008000000642 F := by first | rfl | decide) : Keeps F s pt := by
  have := writeVector_keeps j s (hF := hF)
  rwa [h] at this

theorem endVector_keeps {F : Nat} (exhausted : Bool) (j : DrwJob) (s : State) (hF : Within 0x82008000000642 F := by first | rfl | decide) : Keeps F s (endVector exhausted j s).2 := by
  refine Keeps.mono hF ?_
  unfold endVector
  repeat' (first
    | with_reducible exact Keeps.refl _
    | with_reducible assumption
    | intro _
    | fail_if_no_progress extract_lets +onlyGivenNames y
    | with_reducible refine Keeps.ite ?_ ?_
    | with_reducible refine Keeps.foldl ?_ ?_ _
    | fail_if_no_progress with_reducible refine Keeps.lit ?_ rfl rfl rfl rfl
    | fail_if_no_progress with_reducible refine Keeps.litMod ?_ rfl rfl rfl rfl rfl rfl rfl rfl rfl
    | split
    | fail_if_no_progress dsimp -zeta only
    | with_reducible refine Keeps.trans ?_ (bump_keeps ..)
    | with_reducible refine Keeps.trans ?_ (writeVector_keeps_eq ‹_›)
    | with_reducible refine Keeps.trans ?_ (writeVector_keeps ..))

theorem endVector_keeps_eq {exhausted : Bool} {j : DrwJob} {s : State} {pa pt} {F : Nat} (h : endVector exhausted j s = (pa, pt)) (hF : Within 0x82008000000642 F := by first | rfl | decide) : Keeps F s pt := by
  have := endVector_keeps exhausted j s (hF := hF)
  rwa [h] at this

theorem startVectors_keeps {F : Nat} (n : Nat) (j : DrwJob) (s : State) (hF : Within 0x82008000000642 F := by first | rfl | decide) : Keeps F s (startVectors n j s).2.1 := by
  refine Keeps.mono hF ?_
  induction n generalizing j s with
  | zero => exact Keeps.refl _
  | succ n ih =>
    unfold startVectors
    repeat' (first
      | with_reducible exact Keeps.refl _
      | with_reducible assumption
      | intro _
      | (extract_lets +onlyGivenNames y
         refine Keeps.via (y := y) ?_ ?_
         on_goal 2 => (intro _; clear_value y)
         on_goal 1 => (dsimp -zeta only [y]; clear y))
      | fail_if_no_progress extract_lets +onlyGivenNames y
      | with_reducible refine Keeps.ite ?_ ?_
      | with_reducible refine Keeps.foldl ?_ ?_ _
      | split
      | fail_if_no_progress dsimp -zeta only
      | with_reducible refine Keeps.trans ?_ (endVector_keeps_eq ‹_›)
      | with_reducible refine Keeps.trans ?_ (endVector_keeps ..)
      | with_reducible refine Keeps.trans ?_ (noteRead_keeps ..)
      | with_reducible refine Keeps.trans ?_ (bump_keeps ..)
      | with_reducible refine Keeps.trans ?_ (ih ..))

theorem startVectors_keeps_eq {F : Nat} {n : Nat} {j : DrwJob} {s : State} {a t b} (h : startVectors n j s = (a, t, b)) (hF : Within 0x82008000000642 F := by first | rfl | decide) : Keeps F s t := by
  refine Keeps.mono hF ?_
  have := startVectors_keeps n j s (F := 0x82008000000642)
  rwa [h] at this

theorem skipTo_keeps {F : Nat} (b : List Byte) (p : ProductProgress) (s : State) (hF : Within 0x2000000000000 F := by first | rfl | decide) : Keeps F s (skipTo b p s).2 := by
  refine Keeps.mono hF ?_
  unfold skipTo
  repeat' (first
    | with_reducible exact Keeps.refl _
    | with_reducible assumption
    | intro _
    | fail_if_no_progress extract_lets +onlyGivenNames y
    | with_reducible refine Keeps.ite ?_ ?_
    | with_reducible refine Keeps.foldl ?_ ?_ _
    | fail_if_no_progress with_reducible refine Keeps.lit ?_ rfl rfl rfl rfl
    | fail_if_no_progress with_reducible refine Keeps.litMod ?_ rfl rfl rfl rfl rfl rfl rfl rfl rfl
    | split
    | fail_if_no_progress dsimp -zeta only
    | with_reducible refine Keeps.trans ?_ (bump_keeps ..))

theorem skipTo_keeps_eq {b : List Byte} {p : ProductProgress} {s : State} {pa pt} {F : Nat} (h : skipTo b p s = (pa, pt)) (hF : Within 0x2000000000000 F := by first | rfl | decide) : Keeps F s pt := by
  have := skipTo_keeps b p s (hF := hF)
  rwa [h] at this

theorem retryOrEnd_keeps {F : Nat} (retry : Option ProductProgress) (exhausted : Bool) (j : DrwJob) (s : State) (hF : Within 0x82008000000642 F := by first | rfl | decide) : Keeps F s (retryOrEnd retry exhausted j s).2.1 := by
  refine Keeps.mono hF ?_
  unfold retryOrEnd
  repeat' (first
    | with_reducible exact Keeps.refl _
    | with_reducible assumption
    | intro _
    | (extract_lets +onlyGivenNames y
       refine Keeps.via (y := y) ?_ ?_
       on_goal 2 => (intro _; clear_value y)
       on_goal 1 => (dsimp -zeta only [y]; clear y))
    | fail_if_no_progress extract_lets +onlyGivenNames y
    | with_reducible refine Keeps.ite ?_ ?_
    | with_reducible refine Keeps.foldl ?_ ?_ _
    | fail_if_no_progress with_reducible refine Keeps.lit ?_ rfl rfl rfl rfl
    | fail_if_no_progress with_reducible refine Keeps.litMod ?_ rfl rfl rfl rfl rfl rfl rfl rfl rfl
    | split
    | fail_if_no_progress dsimp -zeta only
    | with_reducible refine Keeps.trans ?_ (skipTo_keeps_eq ‹_›)
    | with_reducible refine Keeps.trans ?_ (startVectors_keeps_eq ‹_›)
    | with_reducible refine Keeps.trans ?_ (endVector_keeps_eq ‹_›)
    | with_reducible refine Keeps.trans ?_ (skipTo_keeps ..)
    | with_reducible refine Keeps.trans ?_ (startVectors_keeps ..)
    | with_reducible refine Keeps.trans ?_ (endVector_keeps ..)
    | refine Keeps.lit ?_ rfl rfl rfl rfl
    | refine Keeps.litMod ?_ rfl rfl rfl rfl rfl rfl rfl rfl rfl
    | refine Keeps.litTo ?_ rfl rfl rfl rfl ⟨nofun, nofun⟩ rfl (fun h => h) rfl rfl)

theorem retryOrEnd_keeps_eq {retry : Option ProductProgress} {exhausted : Bool} {j : DrwJob} {s : State} {pa pb pt} {F : Nat} (h : retryOrEnd retry exhausted j s = (pa, pt, pb)) (hF : Within 0x82008000000642 F := by first | rfl | decide) : Keeps F s pt := by
  have := retryOrEnd_keeps retry exhausted j s (hF := hF)
  rwa [h] at this

theorem afterConversion_keeps {F : Nat} (j : DrwJob) (s : State) (hF : Within 0x82008000000642 F := by first | rfl | decide) : Keeps F s (afterConversion j s).2.1 := by
  refine Keeps.mono hF ?_
  unfold afterConversion
  repeat' (first
    | with_reducible exact Keeps.refl _
    | with_reducible assumption
    | intro _
    | fail_if_no_progress extract_lets +onlyGivenNames y
    | with_reducible refine Keeps.ite ?_ ?_
    | with_reducible refine Keeps.foldl ?_ ?_ _
    | fail_if_no_progress with_reducible refine Keeps.lit ?_ rfl rfl rfl rfl
    | fail_if_no_progress with_reducible refine Keeps.litMod ?_ rfl rfl rfl rfl rfl rfl rfl rfl rfl
    | split
    | fail_if_no_progress dsimp -zeta only
    | with_reducible refine Keeps.trans ?_ (retryOrEnd_keeps_eq ‹_›)
    | with_reducible refine Keeps.trans ?_ (skipTo_keeps_eq ‹_›)
    | with_reducible refine Keeps.trans ?_ (retryOrEnd_keeps ..))

theorem afterConversion_keeps_eq {j : DrwJob} {s : State} {pa pb pt} {F : Nat} (h : afterConversion j s = (pa, pt, pb)) (hF : Within 0x82008000000642 F := by first | rfl | decide) : Keeps F s pt := by
  have := afterConversion_keeps j s (hF := hF)
  rwa [h] at this

theorem writeRow_keeps {F : Nat} (j : DrwJob) (r : Nat) (s : State) (hF : Within 0x80008000000602 F := by first | rfl | decide) : Keeps F s (writeRow j r s) := by
  refine Keeps.mono hF ?_
  unfold writeRow
  repeat' (first
    | with_reducible exact Keeps.refl _
    | with_reducible assumption
    | intro _
    | fail_if_no_progress extract_lets +onlyGivenNames y
    | with_reducible refine Keeps.ite ?_ ?_
    | with_reducible refine Keeps.foldl ?_ ?_ _
    | with_reducible refine Keeps.trans ?_ (writeMem_keeps ..))

theorem writeColumn_keeps {F : Nat} (j : DrwJob) (c : Nat) (s : State) (hF : Within 0x80008000000602 F := by first | rfl | decide) : Keeps F s (writeColumn j c s) := by
  refine Keeps.mono hF ?_
  unfold writeColumn
  repeat' (first
    | with_reducible exact Keeps.refl _
    | with_reducible assumption
    | intro _
    | (extract_lets +onlyGivenNames y
       refine Keeps.via (y := y) ?_ ?_
       on_goal 2 => (intro _; clear_value y)
       on_goal 1 => (dsimp -zeta only [y]; clear y))
    | fail_if_no_progress extract_lets +onlyGivenNames y
    | with_reducible refine Keeps.ite ?_ ?_
    | with_reducible refine Keeps.foldl ?_ ?_ _
    | with_reducible refine Keeps.trans ?_ (writeMem_keeps ..))

theorem rowUncorrected_keeps {F : Nat} (j : DrwJob) (r : Nat) (s : State) (hF : Within 0x2000200000002 F := by first | rfl | decide) : Keeps F s (rowUncorrected j r s) := by
  refine Keeps.mono hF ?_
  unfold rowUncorrected
  repeat' (first
    | with_reducible exact Keeps.refl _
    | with_reducible assumption
    | intro _
    | fail_if_no_progress extract_lets +onlyGivenNames y
    | with_reducible refine Keeps.ite ?_ ?_
    | with_reducible refine Keeps.foldl ?_ ?_ _
    | with_reducible refine Keeps.trans ?_ (logEntry_keeps ..)
    | with_reducible refine Keeps.trans ?_ (bump_keeps ..)
    | with_reducible refine Keeps.trans ?_ (setFlag_keeps ..))

theorem rowReadDone_keeps {F : Nat} (w : Drawer) (r : Nat) (neg : List Int) (j : DrwJob) (s : State) (hF : Within 0x2000200000002 F := by first | rfl | decide) : Keeps F s (rowReadDone w r neg j s).2.1 := by
  refine Keeps.mono hF ?_
  unfold rowReadDone
  repeat' (first
    | with_reducible exact Keeps.refl _
    | with_reducible assumption
    | intro _
    | fail_if_no_progress extract_lets +onlyGivenNames y
    | with_reducible refine Keeps.ite ?_ ?_
    | with_reducible refine Keeps.foldl ?_ ?_ _
    | fail_if_no_progress with_reducible refine Keeps.lit ?_ rfl rfl rfl rfl
    | fail_if_no_progress with_reducible refine Keeps.litMod ?_ rfl rfl rfl rfl rfl rfl rfl rfl rfl
    | split
    | fail_if_no_progress dsimp -zeta only
    | with_reducible refine Keeps.trans ?_ (rowUncorrected_keeps ..)
    | with_reducible refine Keeps.trans ?_ (bump_keeps ..))

theorem rowReadDone_keeps_eq {w : Drawer} {r : Nat} {neg : List Int} {j : DrwJob} {s : State} {pa pb pt} {F : Nat} (h : rowReadDone w r neg j s = (pa, pt, pb)) (hF : Within 0x2000200000002 F := by first | rfl | decide) : Keeps F s pt := by
  have := rowReadDone_keeps w r neg j s (hF := hF)
  rwa [h] at this

theorem readRowConversion_keeps {F : Nat} (w : Drawer) (dev : Tab Int) (j : DrwJob) (s : State) (hF : Within 0x82008200000602 F := by first | rfl | decide) : Keeps F s (readRowConversion w dev j s).2.1 := by
  refine Keeps.mono hF ?_
  unfold readRowConversion
  repeat' (first
    | with_reducible exact Keeps.refl _
    | with_reducible assumption
    | intro _
    | (extract_lets +onlyGivenNames y
       refine Keeps.via (y := y) ?_ ?_
       on_goal 2 => (intro _; clear_value y)
       on_goal 1 => (dsimp -zeta only [y]; clear y))
    | fail_if_no_progress extract_lets +onlyGivenNames y
    | with_reducible refine Keeps.ite ?_ ?_
    | with_reducible refine Keeps.foldl ?_ ?_ _
    | fail_if_no_progress with_reducible refine Keeps.lit ?_ rfl rfl rfl rfl
    | fail_if_no_progress with_reducible refine Keeps.litMod ?_ rfl rfl rfl rfl rfl rfl rfl rfl rfl
    | split
    | fail_if_no_progress dsimp -zeta only
    | with_reducible refine Keeps.trans ?_ (writeRow_keeps ..)
    | with_reducible refine Keeps.trans ?_ (rowReadDone_keeps_eq ‹_›))

theorem readRowConversion_keeps_eq {w : Drawer} {dev : Tab Int} {j : DrwJob} {s : State} {pa pb pt} {F : Nat} (h : readRowConversion w dev j s = (pa, pt, pb)) (hF : Within 0x82008200000602 F := by first | rfl | decide) : Keeps F s pt := by
  have := readRowConversion_keeps w dev j s (hF := hF)
  rwa [h] at this

theorem rewriteRow_keeps {F : Nat} (j : DrwJob) (r : Nat) (s : State) (hF : Within 0x80008000000602 F := by first | rfl | decide) : Keeps F s (rewriteRow j r s) := by
  refine Keeps.mono hF ?_
  unfold rewriteRow
  repeat' (first
    | with_reducible exact Keeps.refl _
    | with_reducible assumption
    | intro _
    | fail_if_no_progress extract_lets +onlyGivenNames y
    | with_reducible refine Keeps.ite ?_ ?_
    | with_reducible refine Keeps.foldl ?_ ?_ _
    | with_reducible refine Keeps.trans ?_ (writeMem_keeps ..))

theorem transposedEnd_keeps {F : Nat} (j : DrwJob) (s : State) (hF : Within 0x2000200000002 F := by first | rfl | decide) : Keeps F s (transposedEnd j s).2.1 := by
  refine Keeps.mono hF ?_
  unfold transposedEnd
  repeat' (first
    | with_reducible exact Keeps.refl _
    | with_reducible assumption
    | intro _
    | fail_if_no_progress extract_lets +onlyGivenNames y
    | with_reducible refine Keeps.ite ?_ ?_
    | with_reducible refine Keeps.foldl ?_ ?_ _
    | fail_if_no_progress with_reducible refine Keeps.lit ?_ rfl rfl rfl rfl
    | fail_if_no_progress with_reducible refine Keeps.litMod ?_ rfl rfl rfl rfl rfl rfl rfl rfl rfl
    | split
    | fail_if_no_progress dsimp -zeta only
    | with_reducible refine Keeps.trans ?_ (rowUncorrected_keeps ..))

theorem transposedEnd_keeps_eq {j : DrwJob} {s : State} {pa pb pt} {F : Nat} (h : transposedEnd j s = (pa, pt, pb)) (hF : Within 0x2000200000002 F := by first | rfl | decide) : Keeps F s pt := by
  have := transposedEnd_keeps j s (hF := hF)
  rwa [h] at this

theorem rereadConversion_keeps {F : Nat} (w : Drawer) (dev : Tab Int) (j : DrwJob) (s : State) (hF : Within 0x82008200000602 F := by first | rfl | decide) : Keeps F s (rereadConversion w dev j s).2.1 := by
  refine Keeps.mono hF ?_
  unfold rereadConversion
  repeat' (first
    | with_reducible exact Keeps.refl _
    | with_reducible assumption
    | intro _
    | fail_if_no_progress extract_lets +onlyGivenNames y
    | with_reducible refine Keeps.ite ?_ ?_
    | with_reducible refine Keeps.foldl ?_ ?_ _
    | fail_if_no_progress with_reducible refine Keeps.lit ?_ rfl rfl rfl rfl
    | fail_if_no_progress with_reducible refine Keeps.litMod ?_ rfl rfl rfl rfl rfl rfl rfl rfl rfl
    | split
    | fail_if_no_progress dsimp -zeta only
    | with_reducible refine Keeps.trans ?_ (rewriteRow_keeps ..)
    | with_reducible refine Keeps.trans ?_ (rowReadDone_keeps_eq ‹_›))

theorem rereadConversion_keeps_eq {w : Drawer} {dev : Tab Int} {j : DrwJob} {s : State} {pa pb pt} {F : Nat} (h : rereadConversion w dev j s = (pa, pt, pb)) (hF : Within 0x82008200000602 F := by first | rfl | decide) : Keeps F s pt := by
  have := rereadConversion_keeps w dev j s (hF := hF)
  rwa [h] at this

theorem readColConversion_keeps {F : Nat} (w : Drawer) (dev : Tab Int) (j : DrwJob) (s : State) (hF : Within 0x82008200000602 F := by first | rfl | decide) : Keeps F s (readColConversion w dev j s).2.1 := by
  refine Keeps.mono hF ?_
  unfold readColConversion
  repeat' (first
    | with_reducible exact Keeps.refl _
    | with_reducible assumption
    | intro _
    | (extract_lets +onlyGivenNames y
       refine Keeps.via (y := y) ?_ ?_
       on_goal 2 => (intro _; clear_value y)
       on_goal 1 => (dsimp -zeta only [y]; clear y))
    | fail_if_no_progress extract_lets +onlyGivenNames y
    | with_reducible refine Keeps.ite ?_ ?_
    | with_reducible refine Keeps.foldl ?_ ?_ _
    | fail_if_no_progress with_reducible refine Keeps.lit ?_ rfl rfl rfl rfl
    | fail_if_no_progress with_reducible refine Keeps.litMod ?_ rfl rfl rfl rfl rfl rfl rfl rfl rfl
    | split
    | fail_if_no_progress dsimp -zeta only
    | with_reducible refine Keeps.trans ?_ (writeColumn_keeps ..)
    | with_reducible refine Keeps.trans ?_ (rereadConversion_keeps_eq ‹_›)
    | with_reducible refine Keeps.trans ?_ (transposedEnd_keeps_eq ‹_›)
    | with_reducible refine Keeps.trans ?_ (rereadConversion_keeps ..)
    | with_reducible refine Keeps.trans ?_ (transposedEnd_keeps ..)
    | refine Keeps.lit ?_ rfl rfl rfl rfl
    | refine Keeps.litMod ?_ rfl rfl rfl rfl rfl rfl rfl rfl rfl
    | refine Keeps.litTo ?_ rfl rfl rfl rfl ⟨nofun, nofun⟩ rfl (fun h => h) rfl rfl)

theorem readColConversion_keeps_eq {w : Drawer} {dev : Tab Int} {j : DrwJob} {s : State} {pa pb pt} {F : Nat} (h : readColConversion w dev j s = (pa, pt, pb)) (hF : Within 0x82008200000602 F := by first | rfl | decide) : Keeps F s pt := by
  have := readColConversion_keeps w dev j s (hF := hF)
  rwa [h] at this

theorem fullPlaneEnd_keeps {F : Nat} (j : DrwJob) (s : State) (hF : Within 0x200010002 F := by first | rfl | decide) : Keeps F s (fullPlaneEnd j s) := by
  refine Keeps.mono hF ?_
  unfold fullPlaneEnd
  repeat' (first
    | with_reducible exact Keeps.refl _
    | with_reducible assumption
    | intro _
    | (extract_lets +onlyGivenNames y
       refine Keeps.via (y := y) ?_ ?_
       on_goal 2 => (intro _; clear_value y)
       on_goal 1 => (dsimp -zeta only [y]; clear y))
    | fail_if_no_progress extract_lets +onlyGivenNames y
    | with_reducible refine Keeps.ite ?_ ?_
    | with_reducible refine Keeps.foldl ?_ ?_ _
    | with_reducible refine Keeps.trans ?_ (modPlane_keeps ..)
    | with_reducible refine Keeps.trans ?_ (modDrawer_keeps ..)
    | with_reducible refine Keeps.trans ?_ (logEntry_keeps ..)
    | with_reducible refine Keeps.trans ?_ (setFlag_keeps ..))

theorem finishDrw_keeps {F : Nat} (j : DrwJob) (status : Nat) (s : State) (hF : Within 0x1000710058042 F := by first | rfl | decide) : Keeps F s (finishDrw j status s) := by
  refine Keeps.mono hF ?_
  unfold finishDrw
  repeat' (first
    | with_reducible exact Keeps.refl _
    | with_reducible assumption
    | intro _
    | (extract_lets +onlyGivenNames y
       refine Keeps.via (y := y) ?_ ?_
       on_goal 2 => (intro _; clear_value y)
       on_goal 1 => (dsimp -zeta only [y]; clear y))
    | fail_if_no_progress extract_lets +onlyGivenNames y
    | with_reducible refine Keeps.ite ?_ ?_
    | with_reducible refine Keeps.foldl ?_ ?_ _
    | with_reducible refine Keeps.trans ?_ (releaseHold_keeps ..)
    | with_reducible refine Keeps.trans ?_ (countHold_keeps ..)
    | with_reducible refine Keeps.trans ?_ (modPlane_keeps ..)
    | with_reducible refine Keeps.trans ?_ (emitHist_keeps ..)
    | with_reducible refine Keeps.trans ?_ (complete_keeps ..)
    | with_reducible refine Keeps.trans ?_ (logEntry_keeps ..)
    | with_reducible refine Keeps.trans ?_ (setFlag_keeps ..)
    | fail_if_no_progress with_reducible refine Keeps.lit ?_ rfl rfl rfl rfl
    | fail_if_no_progress with_reducible refine Keeps.litMod ?_ rfl rfl rfl rfl rfl rfl rfl rfl rfl
    | split
    | fail_if_no_progress dsimp -zeta only
    | refine Keeps.lit ?_ rfl rfl rfl rfl
    | refine Keeps.litMod ?_ rfl rfl rfl rfl rfl rfl rfl rfl rfl
    | refine Keeps.litTo ?_ rfl rfl rfl rfl ⟨nofun, nofun⟩ rfl (fun h => h) rfl rfl)

theorem settleDrawer_keeps {F : Nat} (n d : Nat) (s : State) (hF : Within 0x83008710058642 F := by first | rfl | decide) : Keeps F s (settleDrawer n d s) := by
  refine Keeps.mono hF ?_
  induction n generalizing s with
  | zero => exact Keeps.refl _
  | succ n ih =>
    unfold settleDrawer
    repeat' (first
      | with_reducible exact Keeps.refl _
      | with_reducible assumption
      | intro _
      | fail_if_no_progress extract_lets +onlyGivenNames y
      | with_reducible refine Keeps.ite ?_ ?_
      | with_reducible refine Keeps.foldl ?_ ?_ _
      | split
      | fail_if_no_progress dsimp -zeta only
      | with_reducible refine Keeps.trans ?_ (startVectors_keeps_eq ‹_›)
      | with_reducible refine Keeps.trans ?_ (startVectors_keeps ..)
      | with_reducible refine Keeps.trans ?_ (noteBegin_keeps ..)
      | with_reducible refine Keeps.trans ?_ (finishDrw_keeps ..)
      | with_reducible refine Keeps.trans ?_ (modDrawer_keeps ..)
      | with_reducible refine Keeps.trans ?_ (ih ..))

theorem popDrawer_keeps {F : Nat} (d : Nat) (j : DrwJob) (status : Nat) (s : State) (hF : Within 0x83008710058642 F := by first | rfl | decide) : Keeps F s (popDrawer d j status s) := by
  refine Keeps.mono hF ?_
  unfold popDrawer
  repeat' (first
    | with_reducible exact Keeps.refl _
    | with_reducible assumption
    | intro _
    | (extract_lets +onlyGivenNames y
       refine Keeps.via (y := y) ?_ ?_
       on_goal 2 => (intro _; clear_value y)
       on_goal 1 => (dsimp -zeta only [y]; clear y))
    | fail_if_no_progress extract_lets +onlyGivenNames y
    | with_reducible refine Keeps.ite ?_ ?_
    | with_reducible refine Keeps.foldl ?_ ?_ _
    | with_reducible refine Keeps.trans ?_ (settleDrawer_keeps ..)
    | with_reducible refine Keeps.trans ?_ (finishDrw_keeps ..)
    | with_reducible refine Keeps.trans ?_ (modDrawer_keeps ..)
    | with_reducible refine Keeps.trans ?_ (noteStopped_keeps ..)
    | fail_if_no_progress with_reducible refine Keeps.lit ?_ rfl rfl rfl rfl
    | fail_if_no_progress with_reducible refine Keeps.litMod ?_ rfl rfl rfl rfl rfl rfl rfl rfl rfl
    | split
    | fail_if_no_progress dsimp -zeta only
    | refine Keeps.lit ?_ rfl rfl rfl rfl
    | refine Keeps.litMod ?_ rfl rfl rfl rfl rfl rfl rfl rfl rfl
    | refine Keeps.litTo ?_ rfl rfl rfl rfl ⟨nofun, nofun⟩ rfl (fun h => h) rfl rfl)

theorem headJob_keeps_eq {F : Nat} {d : Nat} {s : State} {a t b} (h : headJob d s = some (a, t, b)) (hF : Within 0x82008200010642 F := by first | rfl | decide) : Keeps F s t := by
  refine Keeps.mono hF ?_
  unfold headJob at h
  split at h
  · simp at h
  · split at h
    · simp only [Option.some.injEq, Prod.mk.injEq] at h
      exact h.2.1 ▸ Keeps.refl _
    · split at h
      · exact (noteBegin_keeps ..).trans (startVectors_keeps_eq (Option.some.inj h))
      · simp only [Option.some.injEq, Prod.mk.injEq] at h
        exact h.2.1 ▸ noteBegin_keeps ..

theorem jobConversion_keeps {F : Nat} (w : Drawer) (dev : Tab Int) (j : DrwJob) (s : State) (hF : Within 0x82008200000642 F := by first | rfl | decide) : Keeps F s (jobConversion w dev j s).2.1 := by
  refine Keeps.mono hF ?_
  unfold jobConversion
  repeat' (first
    | with_reducible exact Keeps.refl _
    | with_reducible assumption
    | intro _
    | fail_if_no_progress extract_lets +onlyGivenNames y
    | with_reducible refine Keeps.ite ?_ ?_
    | with_reducible refine Keeps.foldl ?_ ?_ _
    | fail_if_no_progress with_reducible refine Keeps.lit ?_ rfl rfl rfl rfl
    | fail_if_no_progress with_reducible refine Keeps.litMod ?_ rfl rfl rfl rfl rfl rfl rfl rfl rfl
    | split
    | fail_if_no_progress dsimp -zeta only
    | with_reducible refine Keeps.trans ?_ (bump_keeps ..)
    | with_reducible refine Keeps.trans ?_ (readColConversion_keeps_eq ‹_›)
    | with_reducible refine Keeps.trans ?_ (readRowConversion_keeps_eq ‹_›)
    | with_reducible refine Keeps.trans ?_ (afterConversion_keeps_eq ‹_›)
    | with_reducible refine Keeps.trans ?_ (readColConversion_keeps ..)
    | with_reducible refine Keeps.trans ?_ (readRowConversion_keeps ..)
    | with_reducible refine Keeps.trans ?_ (afterConversion_keeps ..))

theorem jobConversion_keeps_eq {w : Drawer} {dev : Tab Int} {j : DrwJob} {s : State} {pa pb pt} {F : Nat} (h : jobConversion w dev j s = (pa, pt, pb)) (hF : Within 0x82008200000642 F := by first | rfl | decide) : Keeps F s pt := by
  have := jobConversion_keeps w dev j s (hF := hF)
  rwa [h] at this

theorem conversionDone_keeps {F : Nat} (d : Nat) (dev : Tab Int) (s : State) (hF : Within 0x83008710058642 F := by first | rfl | decide) : Keeps F s (conversionDone d dev s) := by
  refine Keeps.mono hF ?_
  unfold conversionDone
  cases h : headJob d s with
  | none => exact Keeps.refl _
  | some x =>
    obtain ⟨j, t, b⟩ := x
    have ht := headJob_keeps_eq h (F := 0x83008710058642)
    cases b with
    | true => exact ht.trans (popDrawer_keeps ..)
    | false =>
      dsimp only
      have hu := ht.trans (jobConversion_keeps (drawer t d) dev j t)
      generalize jobConversion (drawer t d) dev j t = r at hu
      obtain ⟨j', u, b'⟩ := r
      refine Keeps.ite (Keeps.trans ?_ (popDrawer_keeps ..)) (hu.trans (modDrawer_keeps ..))
      exact Keeps.ite hu (hu.trans (fullPlaneEnd_keeps ..))

end Sys2Proof.Machine
end

