-- ==== Sys2Proof/Laws/KeepsCommit.lean ====
section
/-!
SUPPORT. What the operations of Machine/Commit.lean keep.
-/
set_option Elab.async false

namespace Sys2Proof.Machine

theorem noteRuleInput_keeps {F : Nat} (o : OpenStep) (s : State) (hF : Within 0x80008000000442 F := by first | rfl | decide) : Keeps F s (noteRuleInput o s) := by
  refine Keeps.mono hF ?_
  unfold noteRuleInput
  repeat' (first
    | with_reducible exact Keeps.refl _
    | with_reducible assumption
    | intro _
    | (extract_lets +onlyGivenNames y
       refine Keeps.via (y := y) ?_ ?_
       on_goal 2 => (intro _; clear_value y)
       on_goal 1 => (dsimp -zeta only [y]; clear y))
    | fail_if_no_progress extract_lets +onlyGivenNames y
    | with_reducible refine Keeps.ite ?_ ?_
    | with_reducible refine Keeps.foldl ?_ ?_ _
    | with_reducible refine Keeps.trans ?_ (noteRead_keeps ..)
    | fail_if_no_progress with_reducible refine Keeps.lit ?_ rfl rfl rfl rfl
    | fail_if_no_progress with_reducible refine Keeps.litMod ?_ rfl rfl rfl rfl rfl rfl rfl rfl rfl
    | split
    | fail_if_no_progress dsimp -zeta only
    | refine Keeps.lit ?_ rfl rfl rfl rfl
    | refine Keeps.litMod ?_ rfl rfl rfl rfl rfl rfl rfl rfl rfl
    | refine Keeps.litTo ?_ rfl rfl rfl rfl ⟨nofun, nofun⟩ rfl (fun h => h) rfl rfl)

theorem evaluateRules_keeps {F : Nat} (o : OpenStep) (input : List Byte) (s : State) (hF : Within 0x80008000000642 F := by first | rfl | decide) : Keeps F s (evaluateRules o input s).2 := by
  refine Keeps.mono hF ?_
  unfold evaluateRules
  repeat' (first
    | with_reducible exact Keeps.refl _
    | with_reducible assumption
    | intro _
    | (extract_lets +onlyGivenNames y
       refine Keeps.via (y := y) ?_ ?_
       on_goal 2 => (intro _; clear_value y)
       on_goal 1 => (dsimp -zeta only [y]; clear y))
    | fail_if_no_progress extract_lets +onlyGivenNames y
    | with_reducible refine Keeps.ite ?_ ?_
    | with_reducible refine Keeps.foldl ?_ ?_ _
    | fail_if_no_progress with_reducible refine Keeps.lit ?_ rfl rfl rfl rfl
    | fail_if_no_progress with_reducible refine Keeps.litMod ?_ rfl rfl rfl rfl rfl rfl rfl rfl rfl
    | split
    | fail_if_no_progress dsimp -zeta only
    | with_reducible refine Keeps.trans ?_ (writeMem_keeps ..)
    | with_reducible refine Keeps.trans ?_ (noteRead_keeps ..)
    | refine Keeps.lit ?_ rfl rfl rfl rfl
    | refine Keeps.litMod ?_ rfl rfl rfl rfl rfl rfl rfl rfl rfl
    | refine Keeps.litTo ?_ rfl rfl rfl rfl ⟨nofun, nofun⟩ rfl (fun h => h) rfl rfl)

theorem evaluateRules_keeps_eq {o : OpenStep} {input : List Byte} {s : State} {pa pt} {F : Nat} (h : evaluateRules o input s = (pa, pt)) (hF : Within 0x80008000000642 F := by first | rfl | decide) : Keeps F s pt := by
  have := evaluateRules_keeps o input s (hF := hF)
  rwa [h] at this

theorem applyMapBytes_keeps {F : Nat} (ctx : Nat) (bytes : Tab (Option Byte)) (s : State) (hF : Within 0x40000 F := by first | rfl | decide) : Keeps F s (applyMapBytes ctx bytes s) := by
  refine Keeps.mono hF ?_
  unfold applyMapBytes
  repeat' (first
    | with_reducible exact Keeps.refl _
    | with_reducible assumption
    | intro _
    | fail_if_no_progress extract_lets +onlyGivenNames y
    | with_reducible refine Keeps.ite ?_ ?_
    | with_reducible refine Keeps.foldl ?_ ?_ _
    | fail_if_no_progress with_reducible refine Keeps.lit ?_ rfl rfl rfl rfl)

theorem noteSizes_keeps {F : Nat} (r : DRef) (o : OpenStep) (s : State) (hF : Within 0x80008000000442 F := by first | rfl | decide) : Keeps F s (noteSizes r o s) := by
  refine Keeps.mono hF ?_
  unfold noteSizes
  repeat' (first
    | with_reducible exact Keeps.refl _
    | with_reducible assumption
    | intro _
    | (extract_lets +onlyGivenNames y
       refine Keeps.via (y := y) ?_ ?_
       on_goal 2 => (intro _; clear_value y)
       on_goal 1 => (dsimp -zeta only [y]; clear y))
    | fail_if_no_progress extract_lets +onlyGivenNames y
    | with_reducible refine Keeps.ite ?_ ?_
    | with_reducible refine Keeps.foldl ?_ ?_ _
    | with_reducible refine Keeps.trans ?_ (noteRead_keeps ..)
    | fail_if_no_progress with_reducible refine Keeps.lit ?_ rfl rfl rfl rfl
    | fail_if_no_progress with_reducible refine Keeps.litMod ?_ rfl rfl rfl rfl rfl rfl rfl rfl rfl
    | split
    | fail_if_no_progress dsimp -zeta only
    | refine Keeps.lit ?_ rfl rfl rfl rfl
    | refine Keeps.litMod ?_ rfl rfl rfl rfl rfl rfl rfl rfl rfl
    | refine Keeps.litTo ?_ rfl rfl rfl rfl ⟨nofun, nofun⟩ rfl (fun h => h) rfl rfl)

theorem captureSizes_keeps {F : Nat} (r : DRef) (o : OpenStep) (count : Nat) (s : State) (hF : Within 0x80008000000642 F := by first | rfl | decide) : Keeps F s (captureSizes r o count s) := by
  refine Keeps.mono hF ?_
  unfold captureSizes
  repeat' (first
    | with_reducible exact Keeps.refl _
    | with_reducible assumption
    | intro _
    | (extract_lets +onlyGivenNames y
       refine Keeps.via (y := y) ?_ ?_
       on_goal 2 => (intro _; clear_value y)
       on_goal 1 => (dsimp -zeta only [y]; clear y))
    | fail_if_no_progress extract_lets +onlyGivenNames y
    | with_reducible refine Keeps.ite ?_ ?_
    | with_reducible refine Keeps.foldl ?_ ?_ _
    | with_reducible refine Keeps.trans ?_ (writeMem_keeps ..)
    | fail_if_no_progress with_reducible refine Keeps.lit ?_ rfl rfl rfl rfl
    | fail_if_no_progress with_reducible refine Keeps.litMod ?_ rfl rfl rfl rfl rfl rfl rfl rfl rfl
    | split
    | fail_if_no_progress dsimp -zeta only
    | refine Keeps.lit ?_ rfl rfl rfl rfl
    | refine Keeps.litMod ?_ rfl rfl rfl rfl rfl rfl rfl rfl rfl
    | refine Keeps.litTo ?_ rfl rfl rfl rfl ⟨nofun, nofun⟩ rfl (fun h => h) rfl rfl)

theorem writeHeader_keeps {F : Nat} (ctx : Nat) (o : OpenStep) (s : State) (hF : Within 0x80008000000602 F := by first | rfl | decide) : Keeps F s (writeHeader ctx o s) := by
  refine Keeps.mono hF ?_
  unfold writeHeader
  repeat' (first
    | with_reducible exact Keeps.refl _
    | with_reducible assumption
    | intro _
    | fail_if_no_progress extract_lets +onlyGivenNames y
    | with_reducible refine Keeps.ite ?_ ?_
    | with_reducible refine Keeps.foldl ?_ ?_ _
    | with_reducible refine Keeps.trans ?_ (writeMem_keeps ..))

theorem clearStalled_keeps {F : Nat} (ctx : Nat) (s : State) (hF : Within 0x4 F := by first | rfl | decide) : Keeps F s (clearStalled ctx s) := by
  refine Keeps.mono hF ?_
  unfold clearStalled
  repeat' (first
    | with_reducible exact Keeps.refl _
    | with_reducible assumption
    | intro _
    | fail_if_no_progress extract_lets +onlyGivenNames y
    | with_reducible refine Keeps.ite ?_ ?_
    | with_reducible refine Keeps.foldl ?_ ?_ _
    | with_reducible refine Keeps.trans ?_ (setReg_keeps ..))

theorem nowRunning_keeps {F : Nat} (s : State) (hF : Within 0x1 F := by first | rfl | decide) : Keeps F s (nowRunning s) := by
  refine Keeps.mono hF ?_
  unfold nowRunning
  split
  · rename_i h
    refine ⟨Frame.of, Tables.of, rfl, id, id, id, id, id, ?_, id, Nat.le_refl _, rfl, rfl⟩
    intro k _
    exact k (Or.inl h)
  · exact Keeps.refl s

theorem beginStep_keeps {F : Nat} (ctx : Nat) (o : OpenStep) (s : State) (hF : Within 0x81008010048643 F := by first | rfl | decide) : Keeps F s (beginStep ctx o s) := by
  refine Keeps.mono hF ?_
  unfold beginStep
  repeat' (first
    | with_reducible exact Keeps.refl _
    | with_reducible assumption
    | intro _
    | (extract_lets +onlyGivenNames y
       refine Keeps.via (y := y) ?_ ?_
       on_goal 2 => (intro _; clear_value y)
       on_goal 1 => (dsimp -zeta only [y]; clear y))
    | fail_if_no_progress extract_lets +onlyGivenNames y
    | with_reducible refine Keeps.ite ?_ ?_
    | with_reducible refine Keeps.foldl ?_ ?_ _
    | with_reducible refine Keeps.trans ?_ (nowRunning_keeps ..)
    | with_reducible refine Keeps.trans ?_ (writeHeader_keeps ..)
    | with_reducible refine Keeps.trans ?_ (complete_keeps ..)
    | with_reducible refine Keeps.trans ?_ (modStepCtx_keeps ..))

theorem lagCheck_keeps {F : Nat} (ctx : Nat) (o : OpenStep) (s : State) (hF : Within 0x81008410048647 F := by first | rfl | decide) : Keeps F s (lagCheck ctx o s) := by
  refine Keeps.mono hF ?_
  unfold lagCheck
  repeat' (first
    | with_reducible exact Keeps.refl _
    | with_reducible assumption
    | intro _
    | (extract_lets +onlyGivenNames y
       refine Keeps.via (y := y) ?_ ?_
       on_goal 2 => (intro _; clear_value y)
       on_goal 1 => (dsimp -zeta only [y]; clear y))
    | fail_if_no_progress extract_lets +onlyGivenNames y
    | with_reducible refine Keeps.ite ?_ ?_
    | with_reducible refine Keeps.foldl ?_ ?_ _
    | with_reducible refine Keeps.trans ?_ (beginStep_keeps ..)
    | with_reducible refine Keeps.trans ?_ (modStepCtx_keeps ..)
    | with_reducible refine Keeps.trans ?_ (logEntry_keeps ..)
    | with_reducible refine Keeps.trans ?_ (setFlag_keeps ..)
    | with_reducible refine Keeps.trans ?_ (setReg_keeps ..))

theorem takeStaged_keeps {F : Nat} (ctx : Nat) (flips trims : List Nat) (maps : Tab (Option Byte)) (s : State) (hF : Within 0x80008000050602 F := by first | rfl | decide) : Keeps F s (takeStaged ctx flips trims maps s) := by
  refine Keeps.mono hF ?_
  unfold takeStaged
  repeat' (first
    | with_reducible exact Keeps.refl _
    | with_reducible assumption
    | intro _
    | fail_if_no_progress extract_lets +onlyGivenNames y
    | with_reducible refine Keeps.ite ?_ ?_
    | with_reducible refine Keeps.foldl ?_ ?_ _
    | with_reducible refine Keeps.trans ?_ (applyMapBytes_keeps ..)
    | with_reducible refine Keeps.trans ?_ (stagedInForce_keeps ..)
    | with_reducible refine Keeps.trans ?_ (modDrawer_keeps ..))

theorem applyRules_keeps {F : Nat} (o : OpenStep) (input : Option (List Byte)) (s : State) (hF : Within 0x80008000000642 F := by first | rfl | decide) : Keeps F s (applyRules o input s).2 := by
  refine Keeps.mono hF ?_
  unfold applyRules
  repeat' (first
    | with_reducible exact Keeps.refl _
    | with_reducible assumption
    | intro _
    | fail_if_no_progress extract_lets +onlyGivenNames y
    | with_reducible refine Keeps.ite ?_ ?_
    | with_reducible refine Keeps.foldl ?_ ?_ _
    | fail_if_no_progress with_reducible refine Keeps.lit ?_ rfl rfl rfl rfl
    | fail_if_no_progress with_reducible refine Keeps.litMod ?_ rfl rfl rfl rfl rfl rfl rfl rfl rfl
    | split
    | fail_if_no_progress dsimp -zeta only
    | with_reducible refine Keeps.trans ?_ (evaluateRules_keeps_eq ‹_›)
    | with_reducible refine Keeps.trans ?_ (evaluateRules_keeps ..))

theorem applyRules_keeps_eq {o : OpenStep} {input : Option (List Byte)} {s : State} {pa pt} {F : Nat} (h : applyRules o input s = (pa, pt)) (hF : Within 0x80008000000642 F := by first | rfl | decide) : Keeps F s pt := by
  have := applyRules_keeps o input s (hF := hF)
  rwa [h] at this

theorem captureAtCommit_keeps {F : Nat} (o : OpenStep) (s : State) (hF : Within 0x80008000000642 F := by first | rfl | decide) : Keeps F s (captureAtCommit o s).2 := by
  refine Keeps.mono hF ?_
  unfold captureAtCommit
  repeat' (first
    | with_reducible exact Keeps.refl _
    | with_reducible assumption
    | intro _
    | (extract_lets +onlyGivenNames y
       refine Keeps.via (y := y) ?_ ?_
       on_goal 2 => (intro _; clear_value y)
       on_goal 1 => (dsimp -zeta only [y]; clear y))
    | fail_if_no_progress extract_lets +onlyGivenNames y
    | with_reducible refine Keeps.ite ?_ ?_
    | with_reducible refine Keeps.foldl ?_ ?_ _
    | fail_if_no_progress with_reducible refine Keeps.lit ?_ rfl rfl rfl rfl
    | fail_if_no_progress with_reducible refine Keeps.litMod ?_ rfl rfl rfl rfl rfl rfl rfl rfl rfl
    | split
    | fail_if_no_progress dsimp -zeta only
    | with_reducible refine Keeps.trans ?_ (captureSizes_keeps ..)
    | with_reducible refine Keeps.trans ?_ (noteSizes_keeps ..)
    | refine Keeps.lit ?_ rfl rfl rfl rfl
    | refine Keeps.litMod ?_ rfl rfl rfl rfl rfl rfl rfl rfl rfl
    | refine Keeps.litTo ?_ rfl rfl rfl rfl ⟨nofun, nofun⟩ rfl (fun h => h) rfl rfl)

theorem captureAtCommit_keeps_eq {o : OpenStep} {s : State} {pa pt} {F : Nat} (h : captureAtCommit o s = (pa, pt)) (hF : Within 0x80008000000642 F := by first | rfl | decide) : Keeps F s pt := by
  have := captureAtCommit_keeps o s (hF := hF)
  rwa [h] at this

theorem writeRecord_keeps {F : Nat} (ctx : Nat) (o : OpenStep) (opens : Bool) (s : State) (hF : Within 0x80008000000602 F := by first | rfl | decide) : Keeps F s (writeRecord ctx o opens s) := by
  refine Keeps.mono hF ?_
  unfold writeRecord
  exact Keeps.ite (writeMem_keeps ..) (writeHeader_keeps ..)

theorem runAttempt_keeps {F : Nat} (ctx : Nat) (o : OpenStep) (flips trims : List Nat) (maps : Tab (Option Byte)) (input : Option (List Byte)) (opens : Bool) (s : State) (hF : Within 0x81008410058647 F := by first | rfl | decide) : Keeps F s (runAttempt ctx o flips trims maps input opens s) := by
  refine Keeps.mono hF ?_
  unfold runAttempt
  repeat' (first
    | with_reducible exact Keeps.refl _
    | with_reducible assumption
    | intro _
    | (extract_lets +onlyGivenNames y
       refine Keeps.via (y := y) ?_ ?_
       on_goal 2 => (intro _; clear_value y)
       on_goal 1 => (dsimp -zeta only [y]; clear y))
    | fail_if_no_progress extract_lets +onlyGivenNames y
    | with_reducible refine Keeps.ite ?_ ?_
    | with_reducible refine Keeps.foldl ?_ ?_ _
    | with_reducible refine Keeps.trans ?_ (writeRecord_keeps ..)
    | with_reducible refine Keeps.trans ?_ (takeStaged_keeps ..)
    | with_reducible refine Keeps.trans ?_ (lagCheck_keeps ..)
    | with_reducible refine Keeps.trans ?_ (writeMem_keeps ..)
    | with_reducible refine Keeps.trans ?_ (captureAtCommit_keeps_eq ‹_›)
    | with_reducible refine Keeps.trans ?_ (applyRules_keeps_eq ‹_›)
    | with_reducible refine Keeps.trans ?_ (captureAtCommit_keeps ..)
    | with_reducible refine Keeps.trans ?_ (applyRules_keeps ..))

theorem firstAttempt_keeps {F : Nat} (ctx : Nat) (o : OpenStep) (input : Option (List Byte)) (s : State) (hF : Within 0x81008410058647 F := by first | rfl | decide) : Keeps F s (firstAttempt ctx o input s) := by
  refine Keeps.mono hF ?_
  unfold firstAttempt
  repeat' (first
    | with_reducible exact Keeps.refl _
    | with_reducible assumption
    | intro _
    | (extract_lets +onlyGivenNames y
       refine Keeps.via (y := y) ?_ ?_
       on_goal 2 => (intro _; clear_value y)
       on_goal 1 => (dsimp -zeta only [y]; clear y))
    | fail_if_no_progress extract_lets +onlyGivenNames y
    | with_reducible refine Keeps.ite ?_ ?_
    | with_reducible refine Keeps.foldl ?_ ?_ _
    | with_reducible refine Keeps.trans ?_ (runAttempt_keeps ..)
    | with_reducible refine Keeps.trans ?_ (noteRead_keeps ..))

theorem retryCommit_keeps {F : Nat} (ctx : Nat) (s : State) (hF : Within 0x81008410058647 F := by first | rfl | decide) : Keeps F s (retryCommit ctx s) := by
  refine Keeps.mono hF ?_
  unfold retryCommit
  repeat' (first
    | with_reducible exact Keeps.refl _
    | with_reducible assumption
    | intro _
    | fail_if_no_progress extract_lets +onlyGivenNames y
    | with_reducible refine Keeps.ite ?_ ?_
    | with_reducible refine Keeps.foldl ?_ ?_ _
    | with_reducible refine Keeps.trans ?_ (runAttempt_keeps ..)
    | fail_if_no_progress with_reducible refine Keeps.lit ?_ rfl rfl rfl rfl
    | fail_if_no_progress with_reducible refine Keeps.litMod ?_ rfl rfl rfl rfl rfl rfl rfl rfl rfl
    | split)

theorem tryCommit_keeps {F : Nat} (ctx : Nat) (s : State) (hF : Within 0x81008410058647 F := by first | rfl | decide) : Keeps F s (tryCommit ctx s) := by
  refine Keeps.mono hF ?_
  unfold tryCommit
  repeat' (first
    | with_reducible exact Keeps.refl _
    | with_reducible assumption
    | intro _
    | (extract_lets +onlyGivenNames y
       refine Keeps.via (y := y) ?_ ?_
       on_goal 2 => (intro _; clear_value y)
       on_goal 1 => (dsimp -zeta only [y]; clear y))
    | fail_if_no_progress extract_lets +onlyGivenNames y
    | with_reducible refine Keeps.ite ?_ ?_
    | with_reducible refine Keeps.foldl ?_ ?_ _
    | fail_if_no_progress with_reducible refine Keeps.lit ?_ rfl rfl rfl rfl
    | fail_if_no_progress with_reducible refine Keeps.litMod ?_ rfl rfl rfl rfl rfl rfl rfl rfl rfl
    | split
    | fail_if_no_progress dsimp -zeta only
    | with_reducible refine Keeps.trans ?_ (firstAttempt_keeps ..)
    | with_reducible refine Keeps.trans ?_ (noteRuleInput_keeps ..)
    | with_reducible refine Keeps.trans ?_ (modOpen_keeps ..)
    | refine Keeps.lit ?_ rfl rfl rfl rfl
    | refine Keeps.litMod ?_ rfl rfl rfl rfl rfl rfl rfl rfl rfl
    | refine Keeps.litTo ?_ rfl rfl rfl rfl ⟨nofun, nofun⟩ rfl (fun h => h) rfl rfl)

theorem endUnbegun_keeps {F : Nat} (ctx : Nat) (o : OpenStep) (status : Nat) (s : State) (hF : Within 0x1000010048044 F := by first | rfl | decide) : Keeps F s (endUnbegun ctx o status s) := by
  refine Keeps.mono hF ?_
  unfold endUnbegun
  repeat' (first
    | with_reducible exact Keeps.refl _
    | with_reducible assumption
    | intro _
    | (extract_lets +onlyGivenNames y
       refine Keeps.via (y := y) ?_ ?_
       on_goal 2 => (intro _; clear_value y)
       on_goal 1 => (dsimp -zeta only [y]; clear y))
    | fail_if_no_progress extract_lets +onlyGivenNames y
    | with_reducible refine Keeps.ite ?_ ?_
    | with_reducible refine Keeps.foldl ?_ ?_ _
    | with_reducible refine Keeps.trans ?_ (clearStalled_keeps ..)
    | with_reducible refine Keeps.trans ?_ (applyMapBytes_keeps ..)
    | with_reducible refine Keeps.trans ?_ (applyStagedMaps_keeps ..)
    | with_reducible refine Keeps.trans ?_ (complete_keeps ..)
    | with_reducible refine Keeps.trans ?_ (modStepCtx_keeps ..))

end Sys2Proof.Machine
end

