-- ==== Sys2Proof/Laws/KeepsCalibration.lean ====
section
/-!
SUPPORT. What the operations of Machine/Calibration.lean keep.
-/
set_option Elab.async false

namespace Sys2Proof.Machine

theorem calRuns_keeps {F : Nat} (f : List CalRun → List CalRun) (s : State) (hF : Within 0x80000 F := by first | rfl | decide) : Keeps F s (calRuns f s) := by
  refine Keeps.mono hF ?_
  unfold calRuns
  repeat' (first
    | with_reducible exact Keeps.refl _
    | with_reducible assumption
    | intro _
    | fail_if_no_progress extract_lets +onlyGivenNames y
    | with_reducible refine Keeps.ite ?_ ?_
    | with_reducible refine Keeps.foldl ?_ ?_ _
    | fail_if_no_progress with_reducible refine Keeps.lit ?_ rfl rfl rfl rfl)

theorem modDie_keeps {F : Nat} (die : Nat) (f : DieCal → DieCal) (s : State) (hF : Within 0x80000 F := by first | rfl | decide) : Keeps F s (modDie die f s) := by
  refine Keeps.mono hF ?_
  unfold modDie
  repeat' (first
    | with_reducible exact Keeps.refl _
    | with_reducible assumption
    | intro _
    | fail_if_no_progress extract_lets +onlyGivenNames y
    | with_reducible refine Keeps.ite ?_ ?_
    | with_reducible refine Keeps.foldl ?_ ?_ _
    | fail_if_no_progress with_reducible refine Keeps.lit ?_ rfl rfl rfl rfl)

theorem finishRun_keeps {F : Nat} (wdog : Bool) (r : CalRun) (s : State) (hF : Within 0x1010100100c8042 F := by first | rfl | decide) : Keeps F s (finishRun wdog r s) := by
  refine Keeps.mono hF ?_
  unfold finishRun
  repeat' (first
    | with_reducible exact Keeps.refl _
    | with_reducible assumption
    | intro _
    | (extract_lets +onlyGivenNames y
       refine Keeps.via (y := y) ?_ ?_
       on_goal 2 => (intro _; clear_value y)
       on_goal 1 => (dsimp -zeta only [y]; clear y))
    | fail_if_no_progress extract_lets +onlyGivenNames y
    | with_reducible refine Keeps.ite ?_ ?_
    | with_reducible refine Keeps.foldl ?_ ?_ _
    | with_reducible refine Keeps.trans ?_ (modDie_keeps ..)
    | with_reducible refine Keeps.trans ?_ (complete_keeps ..)
    | with_reducible refine Keeps.trans ?_ (logEntry_keeps ..)
    | with_reducible refine Keeps.trans ?_ (bump_keeps ..)
    | with_reducible refine Keeps.trans ?_ (setFlag_keeps ..)
    | fail_if_no_progress with_reducible refine Keeps.lit ?_ rfl rfl rfl rfl
    | fail_if_no_progress with_reducible refine Keeps.litMod ?_ rfl rfl rfl rfl rfl rfl rfl rfl rfl
    | split)

theorem finishRuns_keeps {F : Nat} (s : State) (hF : Within 0x1010100100c8042 F := by first | rfl | decide) : Keeps F s (finishRuns s) := by
  refine Keeps.mono hF ?_
  unfold finishRuns
  repeat' (first
    | with_reducible exact Keeps.refl _
    | with_reducible assumption
    | intro _
    | fail_if_no_progress extract_lets +onlyGivenNames y
    | with_reducible refine Keeps.ite ?_ ?_
    | with_reducible refine Keeps.foldl ?_ ?_ _
    | with_reducible refine Keeps.trans ?_ (finishRun_keeps ..)
    | with_reducible refine Keeps.trans ?_ (calRuns_keeps ..))

theorem measureDie_keeps {F : Nat} (vref die : Nat) (r : CalRun) (s : State) (hF : Within 0x10000080002 F := by first | rfl | decide) : Keeps F s (measureDie vref die r s).2 := by
  refine Keeps.mono hF ?_
  unfold measureDie
  repeat' (first
    | with_reducible exact Keeps.refl _
    | with_reducible assumption
    | intro _
    | (extract_lets +onlyGivenNames y
       refine Keeps.via (y := y) ?_ ?_
       on_goal 2 => (intro _; clear_value y)
       on_goal 1 => (dsimp -zeta only [y]; clear y))
    | fail_if_no_progress extract_lets +onlyGivenNames y
    | with_reducible refine Keeps.ite ?_ ?_
    | with_reducible refine Keeps.foldl ?_ ?_ _
    | fail_if_no_progress with_reducible refine Keeps.lit ?_ rfl rfl rfl rfl
    | fail_if_no_progress with_reducible refine Keeps.litMod ?_ rfl rfl rfl rfl rfl rfl rfl rfl rfl
    | split
    | fail_if_no_progress dsimp -zeta only
    | with_reducible refine Keeps.trans ?_ (logEntry_keeps ..)
    | with_reducible refine Keeps.trans ?_ (setFlag_keeps ..)
    | refine Keeps.lit ?_ rfl rfl rfl rfl
    | refine Keeps.litMod ?_ rfl rfl rfl rfl rfl rfl rfl rfl rfl
    | refine Keeps.litTo ?_ rfl rfl rfl rfl ⟨nofun, nofun⟩ rfl (fun h => h) rfl rfl)

theorem measureDie_keeps_eq {vref die : Nat} {r : CalRun} {s : State} {pa pt} {F : Nat} (h : measureDie vref die r s = (pa, pt)) (hF : Within 0x10000080002 F := by first | rfl | decide) : Keeps F s pt := by
  have := measureDie_keeps vref die r s (hF := hF)
  rwa [h] at this

theorem measureVref_keeps {F : Nat} (vref : List (Fin 2097152)) (dies : List Nat) (r : CalRun) (s : State) (hF : Within 0x10000080002 F := by first | rfl | decide) : Keeps F s (measureVref vref dies r s).2 := by
  refine Keeps.mono hF ?_
  unfold measureVref
  induction dies generalizing r s with
  | nil => exact Keeps.refl _
  | cons a l ih => exact Keeps.trans (measureDie_keeps ..) (ih (measureDie (vrefOf vref a) a r s).1 (measureDie (vrefOf vref a) a r s).2)

theorem measureVref_keeps_eq {vref : List (Fin 2097152)} {dies : List Nat} {r : CalRun} {s : State} {pa pt} {F : Nat} (h : measureVref vref dies r s = (pa, pt)) (hF : Within 0x10000080002 F := by first | rfl | decide) : Keeps F s pt := by
  have := measureVref_keeps vref dies r s (hF := hF)
  rwa [h] at this

theorem startRun_keeps {F : Nat} (vref : List (Fin 2097152)) (dies : List Nat) (r : CalRun) (s : State) (hF : Within 0x1010100100c8042 F := by first | rfl | decide) : Keeps F s (startRun vref dies r s) := by
  refine Keeps.mono hF ?_
  unfold startRun
  repeat' (first
    | with_reducible exact Keeps.refl _
    | with_reducible assumption
    | intro _
    | (extract_lets +onlyGivenNames y
       refine Keeps.via (y := y) ?_ ?_
       on_goal 2 => (intro _; clear_value y)
       on_goal 1 => (dsimp -zeta only [y]; clear y))
    | fail_if_no_progress extract_lets +onlyGivenNames y
    | with_reducible refine Keeps.ite ?_ ?_
    | with_reducible refine Keeps.foldl ?_ ?_ _
    | with_reducible refine Keeps.trans ?_ (finishRuns_keeps ..)
    | with_reducible refine Keeps.trans ?_ (calRuns_keeps ..)
    | with_reducible refine Keeps.trans ?_ (measureVref_keeps_eq ‹_›)
    | with_reducible refine Keeps.trans ?_ (measureVref_keeps ..)
    | fail_if_no_progress with_reducible refine Keeps.lit ?_ rfl rfl rfl rfl
    | fail_if_no_progress with_reducible refine Keeps.litMod ?_ rfl rfl rfl rfl rfl rfl rfl rfl rfl
    | split
    | fail_if_no_progress dsimp -zeta only
    | refine Keeps.lit ?_ rfl rfl rfl rfl
    | refine Keeps.litMod ?_ rfl rfl rfl rfl rfl rfl rfl rfl rfl
    | refine Keeps.litTo ?_ rfl rfl rfl rfl ⟨nofun, nofun⟩ rfl (fun h => h) rfl rfl)

theorem wholeDieRun_keeps {F : Nat} (vref : List (Fin 2097152)) (die : Nat) (s : State) (hF : Within 0x1010100100c8042 F := by first | rfl | decide) : Keeps F s (wholeDieRun vref die s) := by
  refine Keeps.mono hF ?_
  unfold wholeDieRun
  repeat' (first
    | with_reducible exact Keeps.refl _
    | with_reducible assumption
    | intro _
    | (extract_lets +onlyGivenNames y
       refine Keeps.via (y := y) ?_ ?_
       on_goal 2 => (intro _; clear_value y)
       on_goal 1 => (dsimp -zeta only [y]; clear y))
    | fail_if_no_progress extract_lets +onlyGivenNames y
    | with_reducible refine Keeps.ite ?_ ?_
    | with_reducible refine Keeps.foldl ?_ ?_ _
    | with_reducible refine Keeps.trans ?_ (startRun_keeps ..)
    | fail_if_no_progress with_reducible refine Keeps.lit ?_ rfl rfl rfl rfl
    | fail_if_no_progress with_reducible refine Keeps.litMod ?_ rfl rfl rfl rfl rfl rfl rfl rfl rfl
    | split
    | fail_if_no_progress dsimp -zeta only
    | refine Keeps.lit ?_ rfl rfl rfl rfl
    | refine Keeps.litMod ?_ rfl rfl rfl rfl rfl rfl rfl rfl rfl
    | refine Keeps.litTo ?_ rfl rfl rfl rfl ⟨nofun, nofun⟩ rfl (fun h => h) rfl rfl)

theorem badReference_keeps {F : Nat} (r : CalRun) (d row : Nat) (s : State) (hF : Within 0x80018000018602 F := by first | rfl | decide) : Keeps F s (badReference r d row s).2 := by
  refine Keeps.mono hF ?_
  unfold badReference
  repeat' (first
    | with_reducible exact Keeps.refl _
    | with_reducible assumption
    | intro _
    | fail_if_no_progress extract_lets +onlyGivenNames y
    | with_reducible refine Keeps.ite ?_ ?_
    | with_reducible refine Keeps.foldl ?_ ?_ _
    | fail_if_no_progress with_reducible refine Keeps.lit ?_ rfl rfl rfl rfl
    | fail_if_no_progress with_reducible refine Keeps.litMod ?_ rfl rfl rfl rfl rfl rfl rfl rfl rfl
    | split
    | fail_if_no_progress dsimp -zeta only
    | with_reducible refine Keeps.trans ?_ (stageTrims_keeps ..)
    | with_reducible refine Keeps.trans ?_ (logEntry_keeps ..)
    | with_reducible refine Keeps.trans ?_ (setFlag_keeps ..))

theorem badReference_keeps_eq {r : CalRun} {d row : Nat} {s : State} {pa pt} {F : Nat} (h : badReference r d row s = (pa, pt)) (hF : Within 0x80018000018602 F := by first | rfl | decide) : Keeps F s pt := by
  have := badReference_keeps r d row s (hF := hF)
  rwa [h] at this

theorem logResidual_keeps {F : Nat} (r : CalRun) (d : Nat) (high : List Nat) (s : State) (hF : Within 0x10000000002 F := by first | rfl | decide) : Keeps F s (logResidual r d high s) := by
  refine Keeps.mono hF ?_
  unfold logResidual
  repeat' (first
    | with_reducible exact Keeps.refl _
    | with_reducible assumption
    | intro _
    | fail_if_no_progress extract_lets +onlyGivenNames y
    | with_reducible refine Keeps.ite ?_ ?_
    | with_reducible refine Keeps.foldl ?_ ?_ _
    | with_reducible refine Keeps.trans ?_ (logEntry_keeps ..)
    | with_reducible refine Keeps.trans ?_ (setFlag_keeps ..)
    | fail_if_no_progress with_reducible refine Keeps.lit ?_ rfl rfl rfl rfl
    | fail_if_no_progress with_reducible refine Keeps.litMod ?_ rfl rfl rfl rfl rfl rfl rfl rfl rfl
    | split)

theorem stageFits_keeps {F : Nat} (r : CalRun) (d : Nat) (codes : Tab (List Int)) (s : State) (hF : Within 0x180018000018602 F := by first | rfl | decide) : Keeps F s (stageFits r d codes s).2 := by
  refine Keeps.mono hF ?_
  unfold stageFits
  extract_lets fits ret entries high clamped s1 s2 s3
  have h1 : Keeps 0x180018000018602 s s1 := modDrawer_keeps ..
  have h2 : Keeps 0x180018000018602 s1 s2 := (bump_keeps ..).trans (bump_keeps ..)
  have h3 : Keeps 0x180018000018602 s2 s3 := logResidual_keeps ..
  dsimp only
  exact ((h1.trans h2).trans h3).trans (stageTrims_keeps ..)

theorem measureDrawer_keeps {F : Nat} (r : CalRun) (d : Nat) (dev : Tab Int) (codes : Tab (List Int)) (s : State) (hF : Within 0x180018000018602 F := by first | rfl | decide) :
    Keeps F s (measureDrawer r d dev codes s).2 := by
  refine Keeps.mono hF ?_
  unfold measureDrawer
  split
  · exact badReference_keeps ..
  · exact stageFits_keeps ..

theorem execDrawerCalibration_keeps (d : Fin 16384) (dev : Tab Int) (codes : Tab (List Int)) (s : State) :
    Goes 0x1810180100d8642 s (execDrawerCalibration d dev codes s) := by
  unfold execDrawerCalibration
  split
  · exact ⟨_, rfl, Keeps.refl _⟩
  · split
    · exact ⟨_, rfl, Keeps.refl _⟩
    · exact ⟨_, rfl, (((measureDrawer_keeps ..).trans (calRuns_keeps ..)).trans (bump_keeps ..)).trans (finishRuns_keeps ..)⟩

theorem execCalRunWatchdog_keeps (run : Fin 64) (s : State) : Goes 0x1010100100c8042 s (execCalRunWatchdog run s) := by
  unfold execCalRunWatchdog
  repeat' (first
    | with_reducible exact Keeps.refl _
    | with_reducible assumption
    | intro _
    | with_reducible refine Goes.next ?_
    | with_reducible refine Goes.ite ?_ ?_
    | fail_if_no_progress extract_lets +onlyGivenNames y
    | with_reducible refine Keeps.ite ?_ ?_
    | with_reducible refine Keeps.foldl ?_ ?_ _
    | with_reducible refine Keeps.trans ?_ (finishRun_keeps ..)
    | with_reducible refine Keeps.trans ?_ (calRuns_keeps ..)
    | fail_if_no_progress with_reducible refine Keeps.lit ?_ rfl rfl rfl rfl
    | fail_if_no_progress with_reducible refine Keeps.litMod ?_ rfl rfl rfl rfl rfl rfl rfl rfl rfl
    | split)

theorem execCalReq_keeps (dies : Byte) (vref : List (Fin 2097152)) (s : State) : Goes 0x1010100100c8042 s (execCalReq dies vref s) := by
  unfold execCalReq
  repeat' (first
    | with_reducible exact Keeps.refl _
    | with_reducible assumption
    | intro _
    | with_reducible refine Goes.next ?_
    | (extract_lets +onlyGivenNames y
       refine Goes.via (y := y) ?_ ?_
       on_goal 2 => (intro _; clear_value y)
       on_goal 1 => (dsimp -zeta only [y]; clear y))
    | with_reducible refine Goes.ite ?_ ?_
    | (extract_lets +onlyGivenNames y
       refine Keeps.via (y := y) ?_ ?_
       on_goal 2 => (intro _; clear_value y)
       on_goal 1 => (dsimp -zeta only [y]; clear y))
    | fail_if_no_progress extract_lets +onlyGivenNames y
    | with_reducible refine Keeps.ite ?_ ?_
    | with_reducible refine Keeps.foldl ?_ ?_ _
    | with_reducible refine Keeps.trans ?_ (wholeDieRun_keeps ..)
    | fail_if_no_progress with_reducible refine Keeps.lit ?_ rfl rfl rfl rfl
    | fail_if_no_progress with_reducible refine Keeps.litMod ?_ rfl rfl rfl rfl rfl rfl rfl rfl rfl
    | split
    | fail_if_no_progress dsimp -zeta only
    | refine Keeps.lit ?_ rfl rfl rfl rfl
    | refine Keeps.litMod ?_ rfl rfl rfl rfl rfl rfl rfl rfl rfl
    | refine Keeps.litTo ?_ rfl rfl rfl rfl ⟨nofun, nofun⟩ rfl (fun h => h) rfl rfl)

theorem execCalTempCheck_keeps (vref : List (Fin 2097152)) (s : State) : Goes 0x1010100100c8042 s (execCalTempCheck vref s) := by
  unfold execCalTempCheck
  repeat' (first
    | with_reducible exact Keeps.refl _
    | with_reducible assumption
    | intro _
    | with_reducible refine Goes.next ?_
    | (extract_lets +onlyGivenNames y
       refine Goes.via (y := y) ?_ ?_
       on_goal 2 => (intro _; clear_value y)
       on_goal 1 => (dsimp -zeta only [y]; clear y))
    | with_reducible refine Goes.ite ?_ ?_
    | (extract_lets +onlyGivenNames y
       refine Keeps.via (y := y) ?_ ?_
       on_goal 2 => (intro _; clear_value y)
       on_goal 1 => (dsimp -zeta only [y]; clear y))
    | fail_if_no_progress extract_lets +onlyGivenNames y
    | with_reducible refine Keeps.ite ?_ ?_
    | with_reducible refine Keeps.foldl ?_ ?_ _
    | with_reducible refine Keeps.trans ?_ (wholeDieRun_keeps ..)
    | fail_if_no_progress with_reducible refine Keeps.lit ?_ rfl rfl rfl rfl
    | fail_if_no_progress with_reducible refine Keeps.litMod ?_ rfl rfl rfl rfl rfl rfl rfl rfl rfl
    | split
    | fail_if_no_progress dsimp -zeta only
    | refine Keeps.lit ?_ rfl rfl rfl rfl
    | refine Keeps.litMod ?_ rfl rfl rfl rfl rfl rfl rfl rfl rfl
    | refine Keeps.litTo ?_ rfl rfl rfl rfl ⟨nofun, nofun⟩ rfl (fun h => h) rfl rfl)

theorem execCalSave_keeps (ctx : Fin 16) (ring : Fin 8) (s : State) : Goes 0x81008010048642 s (execCalSave ctx ring s) := by
  unfold execCalSave
  repeat' (first
    | with_reducible exact Keeps.refl _
    | with_reducible assumption
    | intro _
    | with_reducible refine Goes.next ?_
    | with_reducible refine Goes.ite ?_ ?_
    | (extract_lets +onlyGivenNames y
       refine Keeps.via (y := y) ?_ ?_
       on_goal 2 => (intro _; clear_value y)
       on_goal 1 => (dsimp -zeta only [y]; clear y))
    | fail_if_no_progress extract_lets +onlyGivenNames y
    | with_reducible refine Keeps.ite ?_ ?_
    | with_reducible refine Keeps.foldl ?_ ?_ _
    | with_reducible refine Keeps.trans ?_ (dispatchOp_keeps _ _ _ _ _ ?_)
    | with_reducible refine Keeps.trans ?_ (reject_keeps ..)
    | with_reducible refine Keeps.trans ?_ (complete_keeps ..)
    | with_reducible refine Keeps.trans ?_ (writeMem_keeps ..)
    | with_reducible refine Keeps.trans ?_ (noteRead_keeps ..))

theorem restoreDrawer_keeps {F : Nat} (b : List Byte) (i : Nat) (s : State) (hF : Within 0x80018000018602 F := by first | rfl | decide) : Keeps F s (restoreDrawer b i s).2.2 := by
  refine Keeps.mono hF ?_
  unfold restoreDrawer
  repeat' (first
    | with_reducible exact Keeps.refl _
    | with_reducible assumption
    | intro _
    | (extract_lets +onlyGivenNames y
       refine Keeps.via (y := y) ?_ ?_
       on_goal 2 => (intro _; clear_value y)
       on_goal 1 => (dsimp -zeta only [y]; clear y))
    | fail_if_no_progress extract_lets +onlyGivenNames y
    | with_reducible refine Keeps.ite ?_ ?_
    | with_reducible refine Keeps.foldl ?_ ?_ _
    | fail_if_no_progress with_reducible refine Keeps.lit ?_ rfl rfl rfl rfl
    | fail_if_no_progress with_reducible refine Keeps.litMod ?_ rfl rfl rfl rfl rfl rfl rfl rfl rfl
    | split
    | fail_if_no_progress dsimp -zeta only
    | with_reducible refine Keeps.trans ?_ (stageTrims_keeps ..)
    | with_reducible refine Keeps.trans ?_ (setFlag_keeps ..)
    | refine Keeps.lit ?_ rfl rfl rfl rfl
    | refine Keeps.litMod ?_ rfl rfl rfl rfl rfl rfl rfl rfl rfl
    | refine Keeps.litTo ?_ rfl rfl rfl rfl ⟨nofun, nofun⟩ rfl (fun h => h) rfl rfl)

theorem restoreDrawer_keeps_eq {b : List Byte} {i : Nat} {s : State} {pa pb pt} {F : Nat} (h : restoreDrawer b i s = (pa, pb, pt)) (hF : Within 0x80018000018602 F := by first | rfl | decide) : Keeps F s pt := by
  have := restoreDrawer_keeps b i s (hF := hF)
  rwa [h] at this

theorem restoreRange_keeps {F : Nat} (b : List Byte) (n : Nat) (s : State) (hF : Within 0x80018000018602 F := by first | rfl | decide) : Keeps F s (restoreRange b n s).2.2 := by
  refine Keeps.mono hF ?_
  induction n generalizing s with
  | zero => exact Keeps.refl _
  | succ n ih => exact (ih s).trans (restoreDrawer_keeps ..)

theorem restoreRange_keeps_eq {F : Nat} {b : List Byte} {n : Nat} {s : State} {pa pb pt} (h : restoreRange b n s = (pa, pb, pt)) (hF : Within 0x80018000018602 F := by first | rfl | decide) :
    Keeps F s pt := by
  refine Keeps.mono hF ?_
  have := restoreRange_keeps b n s (F := 0x80018000018602)
  rwa [h] at this

theorem restoreDie_keeps {F : Nat} (staged : List Nat) (temp : Option Int) (die : Nat) (s : State) (hF : Within 0x80000 F := by first | rfl | decide) : Keeps F s (restoreDie staged temp die s) := by
  refine Keeps.mono hF ?_
  unfold restoreDie
  repeat' (first
    | with_reducible exact Keeps.refl _
    | with_reducible assumption
    | intro _
    | fail_if_no_progress extract_lets +onlyGivenNames y
    | with_reducible refine Keeps.ite ?_ ?_
    | with_reducible refine Keeps.foldl ?_ ?_ _
    | with_reducible refine Keeps.trans ?_ (modDie_keeps ..))

theorem execCalRestore_keeps (ctx : Fin 16) (ring : Fin 8) (s : State) : Goes 0x810180100d8642 s (execCalRestore ctx ring s) := by
  refine ⟨_, rfl, dispatchOp_keeps _ _ _ _ _ ?_⟩
  intro a s
  extract_lets b st s0 s1
  have h1 : Keeps 0x810180100d8642 s s1 := Keeps.ite (noteRead_keeps ..) (Keeps.refl s)
  clear_value s1
  refine Keeps.ite (h1.trans (reject_keeps ..)) ?_
  dsimp only
  refine Keeps.trans ?_ (complete_keeps ..)
  refine Keeps.foldl (h1.trans (restoreRange_keeps ..)) ?_ _
  exact fun y die => restoreDie_keeps ..

theorem execCalRun_keeps (ctx : Fin 16) (ring : Fin 8) (vref : List (Fin 2097152)) (s : State) : Goes 0x1810180100c8442 s (execCalRun ctx ring vref s) := by
  unfold execCalRun
  repeat' (first
    | with_reducible exact Keeps.refl _
    | with_reducible assumption
    | intro _
    | with_reducible refine Goes.next ?_
    | (extract_lets +onlyGivenNames y
       refine Goes.via (y := y) ?_ ?_
       on_goal 2 => (intro _; clear_value y)
       on_goal 1 => (dsimp -zeta only [y]; clear y))
    | with_reducible refine Goes.ite ?_ ?_
    | (extract_lets +onlyGivenNames y
       refine Keeps.via (y := y) ?_ ?_
       on_goal 2 => (intro _; clear_value y)
       on_goal 1 => (dsimp -zeta only [y]; clear y))
    | fail_if_no_progress extract_lets +onlyGivenNames y
    | with_reducible refine Keeps.ite ?_ ?_
    | with_reducible refine Keeps.foldl ?_ ?_ _
    | with_reducible refine Keeps.trans ?_ (startRun_keeps ..)
    | with_reducible refine Keeps.trans ?_ (dispatchOp_keeps _ _ _ _ _ ?_)
    | with_reducible refine Keeps.trans ?_ (reject_keeps ..)
    | fail_if_no_progress with_reducible refine Keeps.lit ?_ rfl rfl rfl rfl
    | fail_if_no_progress with_reducible refine Keeps.litMod ?_ rfl rfl rfl rfl rfl rfl rfl rfl rfl
    | split
    | fail_if_no_progress dsimp -zeta only
    | refine Keeps.lit ?_ rfl rfl rfl rfl
    | refine Keeps.litMod ?_ rfl rfl rfl rfl rfl rfl rfl rfl rfl
    | refine Keeps.litTo ?_ rfl rfl rfl rfl ⟨nofun, nofun⟩ rfl (fun h => h) rfl rfl)

end Sys2Proof.Machine
end

