-- ==== Sys2Proof/Laws/KeepsChestOps.lean ====
section
/-!
SUPPORT. What the operations of Machine/ChestOps.lean keep.
-/
set_option Elab.async false

namespace Sys2Proof.Machine

theorem setLane_keeps {F : Nat} (c l : Nat) (j : Option PlnJob) (s : State) (hF : Within 0x20000 F := by first | rfl | decide) : Keeps F s (setLane c l j s) := by
  refine Keeps.mono hF ?_
  unfold setLane
  repeat' (first
    | with_reducible exact Keeps.refl _
    | with_reducible assumption
    | intro _
    | fail_if_no_progress extract_lets +onlyGivenNames y
    | with_reducible refine Keeps.ite ?_ ?_
    | with_reducible refine Keeps.foldl ?_ ?_ _
    | with_reducible refine Keeps.trans ?_ (modChest_keeps ..))

theorem reloadPending_keeps {F : Nat} (c : Nat) (s : State) (hF : Within 0x20 F := by first | rfl | decide) : Keeps F s (reloadPending c s) := by
  refine Keeps.mono hF ?_
  unfold reloadPending
  repeat' (first
    | with_reducible exact Keeps.refl _
    | with_reducible assumption
    | intro _
    | fail_if_no_progress extract_lets +onlyGivenNames y
    | with_reducible refine Keeps.ite ?_ ?_
    | with_reducible refine Keeps.foldl ?_ ?_ _
    | fail_if_no_progress with_reducible refine Keeps.lit ?_ rfl rfl rfl rfl)

theorem failPlane_keeps {F : Nat} (j : PlnJob) (s : State) (hF : Within 0x10000 F := by first | rfl | decide) : Keeps F s (failPlane j s) := by
  refine Keeps.mono hF ?_
  unfold failPlane
  repeat' (first
    | with_reducible exact Keeps.refl _
    | with_reducible assumption
    | intro _
    | fail_if_no_progress extract_lets +onlyGivenNames y
    | with_reducible refine Keeps.ite ?_ ?_
    | with_reducible refine Keeps.foldl ?_ ?_ _
    | with_reducible refine Keeps.trans ?_ (modPlane_keeps ..))

theorem clearLane_keeps {F : Nat} (c l : Nat) (s : State) (hF : Within 0x20000 F := by first | rfl | decide) : Keeps F s (clearLane c l s) := by
  refine Keeps.mono hF ?_
  unfold clearLane
  repeat' (first
    | with_reducible exact Keeps.refl _
    | with_reducible assumption
    | intro _
    | (extract_lets +onlyGivenNames y
       refine Keeps.via (y := y) ?_ ?_
       on_goal 2 => (intro _; clear_value y)
       on_goal 1 => (dsimp -zeta only [y]; clear y))
    | fail_if_no_progress extract_lets +onlyGivenNames y
    | with_reducible refine Keeps.ite ?_ ?_
    | with_reducible refine Keeps.foldl ?_ ?_ _
    | with_reducible refine Keeps.trans ?_ (setLane_keeps ..)
    | with_reducible refine Keeps.trans ?_ (modChest_keeps ..)
    | fail_if_no_progress with_reducible refine Keeps.lit ?_ rfl rfl rfl rfl
    | fail_if_no_progress with_reducible refine Keeps.litMod ?_ rfl rfl rfl rfl rfl rfl rfl rfl rfl
    | split
    | fail_if_no_progress dsimp -zeta only
    | refine Keeps.lit ?_ rfl rfl rfl rfl
    | refine Keeps.litMod ?_ rfl rfl rfl rfl rfl rfl rfl rfl rfl
    | refine Keeps.litTo ?_ rfl rfl rfl rfl ⟨nofun, nofun⟩ rfl (fun h => h) rfl rfl)

theorem endJob_keeps {F : Nat} (l : Nat) (j : PlnJob) (status : Nat) (reached : Bool) (s : State) (hF : Within 0x1000010068060 F := by first | rfl | decide) : Keeps F s (endJob l j status reached s) := by
  refine Keeps.mono hF ?_
  unfold endJob
  repeat' (first
    | with_reducible exact Keeps.refl _
    | with_reducible assumption
    | intro _
    | (extract_lets +onlyGivenNames y
       refine Keeps.via (y := y) ?_ ?_
       on_goal 2 => (intro _; clear_value y)
       on_goal 1 => (dsimp -zeta only [y]; clear y))
    | fail_if_no_progress extract_lets +onlyGivenNames y
    | with_reducible refine Keeps.ite ?_ ?_
    | with_reducible refine Keeps.foldl ?_ ?_ _
    | with_reducible refine Keeps.trans ?_ (clearLane_keeps ..)
    | with_reducible refine Keeps.trans ?_ (reloadPending_keeps ..)
    | with_reducible refine Keeps.trans ?_ (complete_keeps ..)
    | fail_if_no_progress with_reducible refine Keeps.lit ?_ rfl rfl rfl rfl
    | fail_if_no_progress with_reducible refine Keeps.litMod ?_ rfl rfl rfl rfl rfl rfl rfl rfl rfl
    | split
    | fail_if_no_progress dsimp -zeta only
    | refine Keeps.lit ?_ rfl rfl rfl rfl
    | refine Keeps.litMod ?_ rfl rfl rfl rfl rfl rfl rfl rfl rfl
    | refine Keeps.litTo ?_ rfl rfl rfl rfl ⟨nofun, nofun⟩ rfl (fun h => h) rfl rfl)

theorem stopJob_keeps {F : Nat} (l : Nat) (j : PlnJob) (status : Nat) (s : State) (hF : Within 0x1000010078060 F := by first | rfl | decide) : Keeps F s (stopJob l j status s) := by
  refine Keeps.mono hF ?_
  unfold stopJob
  repeat' (first
    | with_reducible exact Keeps.refl _
    | with_reducible assumption
    | intro _
    | fail_if_no_progress extract_lets +onlyGivenNames y
    | with_reducible refine Keeps.ite ?_ ?_
    | with_reducible refine Keeps.foldl ?_ ?_ _
    | with_reducible refine Keeps.trans ?_ (endJob_keeps ..)
    | with_reducible refine Keeps.trans ?_ (failPlane_keeps ..))

theorem readTargets_keeps {F : Nat} (j : PlnJob) (s : State) (hF : Within 0x80008000000442 F := by first | rfl | decide) : Keeps F s (readTargets j s).2 := by
  refine Keeps.mono hF ?_
  unfold readTargets
  repeat' (first
    | with_reducible exact Keeps.refl _
    | with_reducible assumption
    | intro _
    | fail_if_no_progress extract_lets +onlyGivenNames y
    | with_reducible refine Keeps.ite ?_ ?_
    | with_reducible refine Keeps.foldl ?_ ?_ _
    | fail_if_no_progress with_reducible refine Keeps.lit ?_ rfl rfl rfl rfl
    | fail_if_no_progress with_reducible refine Keeps.litMod ?_ rfl rfl rfl rfl rfl rfl rfl rfl rfl
    | split
    | fail_if_no_progress dsimp -zeta only
    | with_reducible refine Keeps.trans ?_ (noteRead_keeps ..))

theorem readTargets_keeps_eq {j : PlnJob} {s : State} {pa pt} {F : Nat} (h : readTargets j s = (pa, pt)) (hF : Within 0x80008000000442 F := by first | rfl | decide) : Keeps F s pt := by
  have := readTargets_keeps j s (hF := hF)
  rwa [h] at this

theorem planeReady_keeps {F : Nat} (l : Nat) (j : PlnJob) (s : State) (hF : Within 0x81008410078667 F := by first | rfl | decide) : Keeps F s (planeReady l j s) := by
  refine Keeps.mono hF ?_
  unfold planeReady
  repeat' (first
    | with_reducible exact Keeps.refl _
    | with_reducible assumption
    | intro _
    | (extract_lets +onlyGivenNames y
       refine Keeps.via (y := y) ?_ ?_
       on_goal 2 => (intro _; clear_value y)
       on_goal 1 => (dsimp -zeta only [y]; clear y))
    | fail_if_no_progress extract_lets +onlyGivenNames y
    | with_reducible refine Keeps.ite ?_ ?_
    | with_reducible refine Keeps.foldl ?_ ?_ _
    | with_reducible refine Keeps.trans ?_ (endJob_keeps ..)
    | with_reducible refine Keeps.trans ?_ (retryCommit_keeps ..)
    | with_reducible refine Keeps.trans ?_ (modPlane_keeps ..))

theorem writeColRemap_keeps {F : Nat} (l : Nat) (j : PlnJob) (s : State) (hF : Within 0x81008010078662 F := by first | rfl | decide) : Keeps F s (writeColRemap l j s) := by
  refine Keeps.mono hF ?_
  unfold writeColRemap
  exact ((modDrawer_keeps ..).trans (clearTrim_keeps ..)).trans (endJob_keeps ..)

theorem toCheck_keeps {F : Nat} (l p r : Nat) (j : PlnJob) (s : State) (hF : Within 0x81008010078662 F := by first | rfl | decide) : Keeps F s (toCheck l p r j s) := by
  refine Keeps.mono hF ?_
  unfold toCheck
  repeat' (first
    | with_reducible exact Keeps.refl _
    | with_reducible assumption
    | intro _
    | fail_if_no_progress extract_lets +onlyGivenNames y
    | with_reducible refine Keeps.ite ?_ ?_
    | with_reducible refine Keeps.foldl ?_ ?_ _
    | with_reducible refine Keeps.trans ?_ (writeColRemap_keeps ..)
    | with_reducible refine Keeps.trans ?_ (setLane_keeps ..)
    | fail_if_no_progress with_reducible refine Keeps.lit ?_ rfl rfl rfl rfl
    | fail_if_no_progress with_reducible refine Keeps.litMod ?_ rfl rfl rfl rfl rfl rfl rfl rfl rfl
    | split)

theorem rowDone_keeps {F : Nat} (l : Nat) (j : PlnJob) (s : State) (hF : Within 0x81008410078667 F := by first | rfl | decide) : Keeps F s (rowDone l j s) := by
  refine Keeps.mono hF ?_
  unfold rowDone
  repeat' (first
    | with_reducible exact Keeps.refl _
    | with_reducible assumption
    | intro _
    | (extract_lets +onlyGivenNames y
       refine Keeps.via (y := y) ?_ ?_
       on_goal 2 => (intro _; clear_value y)
       on_goal 1 => (dsimp -zeta only [y]; clear y))
    | fail_if_no_progress extract_lets +onlyGivenNames y
    | with_reducible refine Keeps.ite ?_ ?_
    | with_reducible refine Keeps.foldl ?_ ?_ _
    | with_reducible refine Keeps.trans ?_ (toCheck_keeps ..)
    | with_reducible refine Keeps.trans ?_ (planeReady_keeps ..)
    | with_reducible refine Keeps.trans ?_ (setLane_keeps ..)
    | with_reducible refine Keeps.trans ?_ (modPlane_keeps ..)
    | fail_if_no_progress with_reducible refine Keeps.lit ?_ rfl rfl rfl rfl
    | fail_if_no_progress with_reducible refine Keeps.litMod ?_ rfl rfl rfl rfl rfl rfl rfl rfl rfl
    | split)

theorem rowPassed_keeps {F : Nat} (l : Nat) (written : Bool) (j : PlnJob) (s : State) (hF : Within 0x85008410078667 F := by first | rfl | decide) : Keeps F s (rowPassed l written j s) := by
  refine Keeps.mono hF ?_
  unfold rowPassed
  repeat' (first
    | with_reducible exact Keeps.refl _
    | with_reducible assumption
    | intro _
    | fail_if_no_progress extract_lets +onlyGivenNames y
    | with_reducible refine Keeps.ite ?_ ?_
    | with_reducible refine Keeps.foldl ?_ ?_ _
    | with_reducible refine Keeps.trans ?_ (rowDone_keeps ..)
    | with_reducible refine Keeps.trans ?_ (bump_keeps ..)
    | fail_if_no_progress with_reducible refine Keeps.lit ?_ rfl rfl rfl rfl
    | fail_if_no_progress with_reducible refine Keeps.litMod ?_ rfl rfl rfl rfl rfl rfl rfl rfl rfl
    | split)

theorem recordFailure_keeps {F : Nat} (j : PlnJob) (gen : Nat) (cells : List Nat) (s : State) (hF : Within 0x4000400010002 F := by first | rfl | decide) : Keeps F s (recordFailure j gen cells s) := by
  refine Keeps.mono hF ?_
  unfold recordFailure
  repeat' (first
    | with_reducible exact Keeps.refl _
    | with_reducible assumption
    | intro _
    | (extract_lets +onlyGivenNames y
       refine Keeps.via (y := y) ?_ ?_
       on_goal 2 => (intro _; clear_value y)
       on_goal 1 => (dsimp -zeta only [y]; clear y))
    | fail_if_no_progress extract_lets +onlyGivenNames y
    | with_reducible refine Keeps.ite ?_ ?_
    | with_reducible refine Keeps.foldl ?_ ?_ _
    | with_reducible refine Keeps.trans ?_ (modDrawer_keeps ..)
    | with_reducible refine Keeps.trans ?_ (logEntry_keeps ..)
    | with_reducible refine Keeps.trans ?_ (bump_keeps ..)
    | with_reducible refine Keeps.trans ?_ (setFlag_keeps ..))

theorem failRemap_keeps {F : Nat} (l : Nat) (j : PlnJob) (s : State) (hF : Within 0x1000010078060 F := by first | rfl | decide) : Keeps F s (failRemap l j s) := by
  refine Keeps.mono hF ?_
  unfold failRemap
  repeat' (first
    | with_reducible exact Keeps.refl _
    | with_reducible assumption
    | intro _
    | fail_if_no_progress extract_lets +onlyGivenNames y
    | with_reducible refine Keeps.ite ?_ ?_
    | with_reducible refine Keeps.foldl ?_ ?_ _
    | with_reducible refine Keeps.trans ?_ (endJob_keeps ..)
    | with_reducible refine Keeps.trans ?_ (modDrawer_keeps ..))

theorem takeSpareRow_keeps {F : Nat} (l k : Nat) (j : PlnJob) (s : State) (hF : Within 0x4000400020002 F := by first | rfl | decide) : Keeps F s (takeSpareRow l k j s) := by
  refine Keeps.mono hF ?_
  unfold takeSpareRow
  extract_lets t e u
  have ht : Keeps 0x4000400020002 s t := (bump_keeps ..).trans (setFlag_keeps ..)
  have hu : Keeps 0x4000400020002 s u := Keeps.ite (ht.trans (logEntry_keeps ..)) ht
  exact hu.trans (setLane_keeps ..)

theorem rowFailed_keeps {F : Nat} (l : Nat) (cells : List Nat) (j : PlnJob) (s : State) (hF : Within 0x5000410078062 F := by first | rfl | decide) : Keeps F s (rowFailed l cells j s) := by
  refine Keeps.mono hF ?_
  unfold rowFailed
  extract_lets d j1 phys s1 s2 ctl
  refine Keeps.ite ((recordFailure_keeps ..).trans (failRemap_keeps ..)) ?_
  have h1 : Keeps 0x5000410078062 s s1 := recordFailure_keeps ..
  have h2 : Keeps 0x5000410078062 s s2 := Keeps.ite (h1.trans (modPlane_keeps ..)) h1
  clear_value s2
  split
  · exact Keeps.ite (Keeps.ite (h2.trans (stopJob_keeps ..)) (h2.trans (takeSpareRow_keeps ..))) (h2.trans (stopJob_keeps ..))
  · exact h2.trans (stopJob_keeps ..)

theorem uncount_keeps {F : Nat} (r : DRef) (s : State) (hF : Within 0x40 F := by first | rfl | decide) : Keeps F s (uncount r s) := by
  refine Keeps.mono hF ?_
  unfold uncount
  repeat' (first
    | with_reducible exact Keeps.refl _
    | with_reducible assumption
    | intro _
    | fail_if_no_progress extract_lets +onlyGivenNames y
    | with_reducible refine Keeps.ite ?_ ?_
    | with_reducible refine Keeps.foldl ?_ ?_ _
    | with_reducible refine Keeps.trans ?_ (modRing_keeps ..))

theorem acceptProgram_keeps {F : Nat} (a : Accepted) (s : State) (hF : Within 0x1000010068040 F := by first | rfl | decide) : Keeps F s (acceptProgram a s) := by
  refine Keeps.mono hF ?_
  unfold acceptProgram
  repeat' (first
    | with_reducible exact Keeps.refl _
    | with_reducible assumption
    | intro _
    | fail_if_no_progress extract_lets +onlyGivenNames y
    | with_reducible refine Keeps.ite ?_ ?_
    | with_reducible refine Keeps.foldl ?_ ?_ _
    | with_reducible refine Keeps.trans ?_ (uncount_keeps ..)
    | with_reducible refine Keeps.trans ?_ (modChest_keeps ..)
    | with_reducible refine Keeps.trans ?_ (reject_keeps ..))

theorem offerProgram_keeps {F : Nat} (ctx ring op : Nat) (s : State) (hF : Within 0x81008010068442 F := by first | rfl | decide) : Keeps F s (offerProgram ctx ring op s) := by
  refine Keeps.mono hF ?_
  unfold offerProgram
  repeat' (first
    | with_reducible exact Keeps.refl _
    | with_reducible assumption
    | intro _
    | (extract_lets +onlyGivenNames y
       refine Keeps.via (y := y) ?_ ?_
       on_goal 2 => (intro _; clear_value y)
       on_goal 1 => (dsimp -zeta only [y]; clear y))
    | fail_if_no_progress extract_lets +onlyGivenNames y
    | with_reducible refine Keeps.ite ?_ ?_
    | with_reducible refine Keeps.foldl ?_ ?_ _
    | with_reducible refine Keeps.trans ?_ (acceptProgram_keeps ..)
    | with_reducible refine Keeps.trans ?_ (modChest_keeps ..)
    | with_reducible refine Keeps.trans ?_ (dispatchOp_keeps _ _ _ _ _ ?_)
    | with_reducible refine Keeps.trans ?_ (settleBad_keeps ..)
    | fail_if_no_progress with_reducible refine Keeps.lit ?_ rfl rfl rfl rfl
    | fail_if_no_progress with_reducible refine Keeps.litMod ?_ rfl rfl rfl rfl rfl rfl rfl rfl rfl
    | split
    | fail_if_no_progress dsimp -zeta only
    | refine Keeps.lit ?_ rfl rfl rfl rfl
    | refine Keeps.litMod ?_ rfl rfl rfl rfl rfl rfl rfl rfl rfl
    | refine Keeps.litTo ?_ rfl rfl rfl rfl ⟨nofun, nofun⟩ rfl (fun h => h) rfl rfl)

theorem acceptSome_keeps {F : Nat} (n c : Nat) (s : State) (hF : Within 0x81008010068442 F := by first | rfl | decide) : Keeps F s (acceptSome n c s) := by
  refine Keeps.mono hF ?_
  induction n generalizing s with
  | zero => exact Keeps.refl _
  | succ n ih =>
    rw [acceptSome]
    split
    · exact Keeps.refl _
    · refine Keeps.ite (Keeps.refl _) ?_
      extract_lets y
      have hy : Keeps 0x81008010068442 s y := modChest_keeps ..
      clear_value y
      split
      · exact hy.trans (ih _)
      · refine Keeps.trans ?_ (ih _)
        exact Keeps.ite hy (hy.trans (offerProgram_keeps ..))

theorem acceptHeld_keeps {F : Nat} (c : Nat) (s : State) (hF : Within 0x81008010068442 F := by first | rfl | decide) : Keeps F s (acceptHeld c s) := by
  refine Keeps.mono hF ?_
  unfold acceptHeld
  repeat' (first
    | with_reducible exact Keeps.refl _
    | with_reducible assumption
    | intro _
    | (extract_lets +onlyGivenNames y
       refine Keeps.via (y := y) ?_ ?_
       on_goal 2 => (intro _; clear_value y)
       on_goal 1 => (dsimp -zeta only [y]; clear y))
    | fail_if_no_progress extract_lets +onlyGivenNames y
    | with_reducible refine Keeps.ite ?_ ?_
    | with_reducible refine Keeps.foldl ?_ ?_ _
    | with_reducible refine Keeps.trans ?_ (acceptSome_keeps ..)
    | fail_if_no_progress with_reducible refine Keeps.lit ?_ rfl rfl rfl rfl
    | fail_if_no_progress with_reducible refine Keeps.litMod ?_ rfl rfl rfl rfl rfl rfl rfl rfl rfl
    | split
    | fail_if_no_progress dsimp -zeta only
    | refine Keeps.lit ?_ rfl rfl rfl rfl
    | refine Keeps.litMod ?_ rfl rfl rfl rfl rfl rfl rfl rfl rfl
    | refine Keeps.litTo ?_ rfl rfl rfl rfl ⟨nofun, nofun⟩ rfl (fun h => h) rfl rfl)

theorem fenceProgramming_keeps {F : Nat} (s : State) (hF : Within 0x1000010078060 F := by first | rfl | decide) : Keeps F s (fenceProgramming s) := by
  refine Keeps.mono hF ?_
  unfold fenceProgramming
  repeat' (first
    | with_reducible exact Keeps.refl _
    | with_reducible assumption
    | intro _
    | fail_if_no_progress extract_lets +onlyGivenNames y
    | with_reducible refine Keeps.ite ?_ ?_
    | with_reducible refine Keeps.foldl ?_ ?_ _
    | with_reducible refine Keeps.trans ?_ (stopJob_keeps ..)
    | with_reducible refine Keeps.trans ?_ (setLane_keeps ..)
    | fail_if_no_progress with_reducible refine Keeps.lit ?_ rfl rfl rfl rfl
    | fail_if_no_progress with_reducible refine Keeps.litMod ?_ rfl rfl rfl rfl rfl rfl rfl rfl rfl
    | split)

theorem abortQueues_keeps {F : Nat} (c : Nat) (s : State) (hF : Within 0x1000010068040 F := by first | rfl | decide) : Keeps F s (abortQueues c s) := by
  refine Keeps.mono hF ?_
  unfold abortQueues
  repeat' (first
    | with_reducible exact Keeps.refl _
    | with_reducible assumption
    | intro _
    | (extract_lets +onlyGivenNames y
       refine Keeps.via (y := y) ?_ ?_
       on_goal 2 => (intro _; clear_value y)
       on_goal 1 => (dsimp -zeta only [y]; clear y))
    | fail_if_no_progress extract_lets +onlyGivenNames y
    | with_reducible refine Keeps.ite ?_ ?_
    | with_reducible refine Keeps.foldl ?_ ?_ _
    | with_reducible refine Keeps.trans ?_ (modChest_keeps ..)
    | with_reducible refine Keeps.trans ?_ (complete_keeps ..))

theorem abortDrawer_keeps {F : Nat} (d : Nat) (s : State) (hF : Within 0x1000710058042 F := by first | rfl | decide) : Keeps F s (abortDrawer d s) := by
  refine Keeps.mono hF ?_
  unfold abortDrawer
  repeat' (first
    | with_reducible exact Keeps.refl _
    | with_reducible assumption
    | intro _
    | (extract_lets +onlyGivenNames y
       refine Keeps.via (y := y) ?_ ?_
       on_goal 2 => (intro _; clear_value y)
       on_goal 1 => (dsimp -zeta only [y]; clear y))
    | fail_if_no_progress extract_lets +onlyGivenNames y
    | with_reducible refine Keeps.ite ?_ ?_
    | with_reducible refine Keeps.foldl ?_ ?_ _
    | with_reducible refine Keeps.trans ?_ (finishDrw_keeps ..)
    | with_reducible refine Keeps.trans ?_ (modDrawer_keeps ..)
    | with_reducible refine Keeps.trans ?_ (noteStopped_keeps ..)
    | fail_if_no_progress with_reducible refine Keeps.lit ?_ rfl rfl rfl rfl
    | fail_if_no_progress with_reducible refine Keeps.litMod ?_ rfl rfl rfl rfl rfl rfl rfl rfl rfl
    | split
    | fail_if_no_progress dsimp -zeta only
    | refine Keeps.lit ?_ rfl rfl rfl rfl
    | refine Keeps.litMod ?_ rfl rfl rfl rfl rfl rfl rfl rfl rfl
    | refine Keeps.litTo ?_ rfl rfl rfl rfl ⟨nofun, nofun⟩ rfl (fun h => h) rfl rfl)

theorem chestReset_keeps {F : Nat} (c : Nat) (s : State) (hF : Within 0x5810587100f8462 F := by first | rfl | decide) : Keeps F s (chestReset c s) := by
  refine Keeps.mono hF ?_
  unfold chestReset
  extract_lets s1 s2 s3 src s4
  have h1 : Keeps 0x5810587100f8462 s s1 := by
    refine Keeps.foldl (Keeps.refl s) ?_ _
    intro y l
    split
    · exact stopJob_keeps ..
    · exact Keeps.refl y
  have h2 : Keeps 0x5810587100f8462 s s2 := h1.trans (abortQueues_keeps ..)
  have h3 : Keeps 0x5810587100f8462 s s3 := Keeps.foldl h2 (fun y d => (abortDrawer_keeps d y).trans (modDrawer_keeps ..)) _
  clear_value s3
  have h4 : Keeps 0x5810587100f8462 s s4 := h3.upd rfl rfl rfl rfl rfl rfl rfl
  exact (((h4.trans (finishRuns_keeps ..)).trans (noteEngineReset_keeps ..)).trans (reloadPending_keeps ..)).trans (acceptHeld_keeps ..)

theorem rowWatchdog_keeps {F : Nat} (c l : Nat) (j : PlnJob) (s : State) (hF : Within 0x4000400020002 F := by first | rfl | decide) : Keeps F s (rowWatchdog c l j s).2 := by
  refine Keeps.mono hF ?_
  unfold rowWatchdog
  repeat' (first
    | with_reducible exact Keeps.refl _
    | with_reducible assumption
    | intro _
    | (extract_lets +onlyGivenNames y
       refine Keeps.via (y := y) ?_ ?_
       on_goal 2 => (intro _; clear_value y)
       on_goal 1 => (dsimp -zeta only [y]; clear y))
    | fail_if_no_progress extract_lets +onlyGivenNames y
    | with_reducible refine Keeps.ite ?_ ?_
    | with_reducible refine Keeps.foldl ?_ ?_ _
    | fail_if_no_progress with_reducible refine Keeps.lit ?_ rfl rfl rfl rfl
    | fail_if_no_progress with_reducible refine Keeps.litMod ?_ rfl rfl rfl rfl rfl rfl rfl rfl rfl
    | split
    | fail_if_no_progress dsimp -zeta only
    | with_reducible refine Keeps.trans ?_ (modChest_keeps ..)
    | with_reducible refine Keeps.trans ?_ (logEntry_keeps ..)
    | with_reducible refine Keeps.trans ?_ (bump_keeps ..)
    | with_reducible refine Keeps.trans ?_ (setFlag_keeps ..)
    | refine Keeps.lit ?_ rfl rfl rfl rfl
    | refine Keeps.litMod ?_ rfl rfl rfl rfl rfl rfl rfl rfl rfl
    | refine Keeps.litTo ?_ rfl rfl rfl rfl ⟨nofun, nofun⟩ rfl (fun h => h) rfl rfl)

theorem rowWatchdog_keeps_eq {c l : Nat} {j : PlnJob} {s : State} {pa pt} {F : Nat} (h : rowWatchdog c l j s = (pa, pt)) (hF : Within 0x4000400020002 F := by first | rfl | decide) : Keeps F s pt := by
  have := rowWatchdog_keeps c l j s (hF := hF)
  rwa [h] at this

theorem dropLane_keeps {F : Nat} (c l : Nat) (j : PlnJob) (s : State) (hF : Within 0x5850587100f8462 F := by first | rfl | decide) : Keeps F s (dropLane c l j s) := by
  refine Keeps.mono hF ?_
  unfold dropLane
  extract_lets fires s1
  have h1 : Keeps 0x5850587100f8462 s s1 := (failPlane_keeps ..).trans (clearLane_keeps ..)
  clear_value s1
  refine Keeps.ite ?_ h1
  split
  rename_i again t h
  exact Keeps.ite ((h1.trans (rowWatchdog_keeps_eq h)).trans (chestReset_keeps ..)) (h1.trans (rowWatchdog_keeps_eq h))

theorem dropProgramming_keeps {F : Nat} (ctx : Nat) (s : State) (hF : Within 0x5850587100f8462 F := by first | rfl | decide) : Keeps F s (dropProgramming ctx s) := by
  refine Keeps.mono hF ?_
  unfold dropProgramming
  repeat' (first
    | with_reducible exact Keeps.refl _
    | with_reducible assumption
    | intro _
    | (extract_lets +onlyGivenNames y
       refine Keeps.via (y := y) ?_ ?_
       on_goal 2 => (intro _; clear_value y)
       on_goal 1 => (dsimp -zeta only [y]; clear y))
    | fail_if_no_progress extract_lets +onlyGivenNames y
    | with_reducible refine Keeps.ite ?_ ?_
    | with_reducible refine Keeps.foldl ?_ ?_ _
    | with_reducible refine Keeps.trans ?_ (dropLane_keeps ..)
    | with_reducible refine Keeps.trans ?_ (acceptHeld_keeps ..)
    | with_reducible refine Keeps.trans ?_ (reloadPending_keeps ..)
    | with_reducible refine Keeps.trans ?_ (modChest_keeps ..)
    | fail_if_no_progress with_reducible refine Keeps.lit ?_ rfl rfl rfl rfl
    | fail_if_no_progress with_reducible refine Keeps.litMod ?_ rfl rfl rfl rfl rfl rfl rfl rfl rfl
    | split
    | fail_if_no_progress dsimp -zeta only
    | refine Keeps.lit ?_ rfl rfl rfl rfl
    | refine Keeps.litMod ?_ rfl rfl rfl rfl rfl rfl rfl rfl rfl
    | refine Keeps.litTo ?_ rfl rfl rfl rfl ⟨nofun, nofun⟩ rfl (fun h => h) rfl rfl)

end Sys2Proof.Machine
end

