-- ==== Sys2Proof/Laws/KeepsDrawers.lean ====
section
/-!
SUPPORT. What the operations of Machine/Drawers.lean keep.
-/
set_option Elab.async false

namespace Sys2Proof.Machine

theorem queueDrawer_keeps {F : Nat} (a : Accepted) (p : Nat) (held : Bool) (s : State) (hF : Within 0x83008710058642 F := by first | rfl | decide) : Keeps F s (queueDrawer a p held s) := by
  refine Keeps.mono hF ?_
  unfold queueDrawer
  repeat' (first
    | with_reducible exact Keeps.refl _
    | with_reducible assumption
    | intro _
    | (extract_lets +onlyGivenNames y
       refine Keeps.via (y := y) ?_ ?_
       on_goal 2 => (intro _; clear_value y)
       on_goal 1 => (dsimp -zeta only [y]; clear y))
    | fail_if_no_progress extract_lets +onlyGivenNames y
    | with_reducible refine Keeps.ite ?_ ?_
    | with_reducible refine Keeps.foldl ?_ ?_ _
    | with_reducible refine Keeps.trans ?_ (settleDrawer_keeps ..)
    | with_reducible refine Keeps.trans ?_ (modDrawer_keeps ..)
    | fail_if_no_progress with_reducible refine Keeps.lit ?_ rfl rfl rfl rfl
    | fail_if_no_progress with_reducible refine Keeps.litMod ?_ rfl rfl rfl rfl rfl rfl rfl rfl rfl
    | split
    | fail_if_no_progress dsimp -zeta only
    | refine Keeps.lit ?_ rfl rfl rfl rfl
    | refine Keeps.litMod ?_ rfl rfl rfl rfl rfl rfl rfl rfl rfl
    | refine Keeps.litTo ?_ rfl rfl rfl rfl ⟨nofun, nofun⟩ rfl (fun h => h) rfl rfl)

theorem acceptDrawer_keeps {F : Nat} (a : Accepted) (s : State) (hF : Within 0x83008710058642 F := by first | rfl | decide) : Keeps F s (acceptDrawer a s) := by
  refine Keeps.mono hF ?_
  unfold acceptDrawer
  repeat' (first
    | with_reducible exact Keeps.refl _
    | with_reducible assumption
    | intro _
    | fail_if_no_progress extract_lets +onlyGivenNames y
    | with_reducible refine Keeps.ite ?_ ?_
    | with_reducible refine Keeps.foldl ?_ ?_ _
    | with_reducible refine Keeps.trans ?_ (queueDrawer_keeps ..)
    | with_reducible refine Keeps.trans ?_ (reject_keeps ..)
    | with_reducible refine Keeps.trans ?_ (takeHold_keeps_eq ‹_›)
    | with_reducible refine Keeps.trans ?_ (takeHold_keeps ..)
    | fail_if_no_progress with_reducible refine Keeps.lit ?_ rfl rfl rfl rfl
    | fail_if_no_progress with_reducible refine Keeps.litMod ?_ rfl rfl rfl rfl rfl rfl rfl rfl rfl
    | split)

theorem execDrwProduct_keeps (ctx : Fin 16) (ring : Fin 8) (s : State) : Goes 0x83008710058642 s (execDrwProduct ctx ring s) := by
  unfold execDrwProduct
  repeat' (first
    | with_reducible exact Keeps.refl _
    | with_reducible assumption
    | intro _
    | with_reducible refine Goes.next ?_
    | with_reducible refine Goes.ite ?_ ?_
    | fail_if_no_progress extract_lets +onlyGivenNames y
    | with_reducible refine Keeps.ite ?_ ?_
    | with_reducible refine Keeps.foldl ?_ ?_ _
    | with_reducible refine Keeps.trans ?_ (acceptDrawer_keeps ..)
    | with_reducible refine Keeps.trans ?_ (dispatchOp_keeps _ _ _ _ _ ?_))

theorem execDrwReadRows_keeps (ctx : Fin 16) (ring : Fin 8) (s : State) : Goes 0x83008710058642 s (execDrwReadRows ctx ring s) := by
  unfold execDrwReadRows
  repeat' (first
    | with_reducible exact Keeps.refl _
    | with_reducible assumption
    | intro _
    | with_reducible refine Goes.next ?_
    | with_reducible refine Goes.ite ?_ ?_
    | fail_if_no_progress extract_lets +onlyGivenNames y
    | with_reducible refine Keeps.ite ?_ ?_
    | with_reducible refine Keeps.foldl ?_ ?_ _
    | with_reducible refine Keeps.trans ?_ (acceptDrawer_keeps ..)
    | with_reducible refine Keeps.trans ?_ (dispatchOp_keeps _ _ _ _ _ ?_))

theorem execDrwReadCols_keeps (ctx : Fin 16) (ring : Fin 8) (s : State) : Goes 0x83008710058642 s (execDrwReadCols ctx ring s) := by
  unfold execDrwReadCols
  repeat' (first
    | with_reducible exact Keeps.refl _
    | with_reducible assumption
    | intro _
    | with_reducible refine Goes.next ?_
    | with_reducible refine Goes.ite ?_ ?_
    | fail_if_no_progress extract_lets +onlyGivenNames y
    | with_reducible refine Keeps.ite ?_ ?_
    | with_reducible refine Keeps.foldl ?_ ?_ _
    | with_reducible refine Keeps.trans ?_ (acceptDrawer_keeps ..)
    | with_reducible refine Keeps.trans ?_ (dispatchOp_keeps _ _ _ _ _ ?_))

theorem execPlnImage_keeps (ctx : Fin 16) (ring : Fin 8) (s : State) : Goes 0x83008710058642 s (execPlnImage ctx ring s) := by
  unfold execPlnImage
  repeat' (first
    | with_reducible exact Keeps.refl _
    | with_reducible assumption
    | intro _
    | with_reducible refine Goes.next ?_
    | with_reducible refine Goes.ite ?_ ?_
    | fail_if_no_progress extract_lets +onlyGivenNames y
    | with_reducible refine Keeps.ite ?_ ?_
    | with_reducible refine Keeps.foldl ?_ ?_ _
    | with_reducible refine Keeps.trans ?_ (queueDrawer_keeps ..)
    | with_reducible refine Keeps.trans ?_ (dispatchOp_keeps _ _ _ _ _ ?_)
    | with_reducible refine Keeps.trans ?_ (reject_keeps ..)
    | fail_if_no_progress with_reducible refine Keeps.lit ?_ rfl rfl rfl rfl
    | fail_if_no_progress with_reducible refine Keeps.litMod ?_ rfl rfl rfl rfl rfl rfl rfl rfl rfl
    | split)

theorem execDrwConversionDone_keeps (d : Fin 16384) (dev : Tab Int) (s : State) : Goes 0x83008710058642 s (execDrwConversionDone d dev s) := by
  unfold execDrwConversionDone
  repeat' (first
    | with_reducible exact Keeps.refl _
    | with_reducible assumption
    | intro _
    | with_reducible refine Goes.next ?_
    | with_reducible refine Goes.ite ?_ ?_
    | fail_if_no_progress extract_lets +onlyGivenNames y
    | with_reducible refine Keeps.ite ?_ ?_
    | with_reducible refine Keeps.foldl ?_ ?_ _
    | with_reducible refine Keeps.trans ?_ (conversionDone_keeps ..))

theorem execDrwProductWatchdog_keeps (d : Fin 16384) (s : State) : Goes 0x5830587100f8662 s (execDrwProductWatchdog d s) := by
  unfold execDrwProductWatchdog
  split
  · exact Goes.next (Keeps.refl s)
  · refine Goes.ite (Goes.next (Keeps.refl s)) ?_
    extract_lets s0 again s1 e s2
    have h0 : Keeps 0x5830587100f8662 s s0 := yieldToReset_keeps ..
    clear_value s0
    have h1 : Keeps 0x5830587100f8662 s s1 := ((h0.trans (bump_keeps ..)).trans (setFlag_keeps ..)).trans (modDrawer_keeps ..)
    have h2 : Keeps 0x5830587100f8662 s s2 := ((h1.trans (logEntry_keeps ..)).trans (modDrawer_keeps ..)).trans (finishDrw_keeps ..)
    clear_value s2
    exact Goes.next ((Keeps.ite (h2.trans (chestReset_keeps ..)) (h2.trans (settleDrawer_keeps ..))).trans (noteStopped_keeps ..))

theorem writeMap_keeps {F : Nat} (ctx off : Nat) (bytes : List Byte) (s : State) (hF : Within 0x40000 F := by first | rfl | decide) : Keeps F s (writeMap ctx off bytes s) := by
  refine Keeps.mono hF ?_
  unfold writeMap
  repeat' (first
    | with_reducible exact Keeps.refl _
    | with_reducible assumption
    | intro _
    | fail_if_no_progress extract_lets +onlyGivenNames y
    | with_reducible refine Keeps.ite ?_ ?_
    | with_reducible refine Keeps.foldl ?_ ?_ _
    | fail_if_no_progress with_reducible refine Keeps.lit ?_ rfl rfl rfl rfl)

theorem execDrwMapWrite_keeps (ctx : Fin 16) (off : Fin 2048) (bytes : List Byte) (s : State) : Goes 0x1000100040002 s (execDrwMapWrite ctx off bytes s) := by
  unfold execDrwMapWrite
  repeat' (first
    | with_reducible exact Keeps.refl _
    | with_reducible assumption
    | intro _
    | with_reducible refine Goes.next ?_
    | (extract_lets +onlyGivenNames y
       refine Goes.via (y := y) ?_ ?_
       on_goal 2 => (intro _; clear_value y)
       on_goal 1 => (dsimp -zeta only [y]; clear y))
    | with_reducible refine Goes.ite ?_ ?_
    | (extract_lets +onlyGivenNames y
       refine Keeps.via (y := y) ?_ ?_
       on_goal 2 => (intro _; clear_value y)
       on_goal 1 => (dsimp -zeta only [y]; clear y))
    | fail_if_no_progress extract_lets +onlyGivenNames y
    | with_reducible refine Keeps.ite ?_ ?_
    | with_reducible refine Keeps.foldl ?_ ?_ _
    | with_reducible refine Keeps.trans ?_ (writeMap_keeps ..)
    | with_reducible refine Keeps.trans ?_ (badAccess_keeps ..)
    | fail_if_no_progress with_reducible refine Keeps.lit ?_ rfl rfl rfl rfl
    | fail_if_no_progress with_reducible refine Keeps.litMod ?_ rfl rfl rfl rfl rfl rfl rfl rfl rfl
    | split
    | fail_if_no_progress dsimp -zeta only
    | refine Keeps.lit ?_ rfl rfl rfl rfl
    | refine Keeps.litMod ?_ rfl rfl rfl rfl rfl rfl rfl rfl rfl
    | refine Keeps.litTo ?_ rfl rfl rfl rfl ⟨nofun, nofun⟩ rfl (fun h => h) rfl rfl)

end Sys2Proof.Machine
end

