-- ==== Sys2Proof/Laws/KeepsChests.lean ====
section
/-!
SUPPORT. What the operations of Machine/Chests.lean keep.
-/
set_option Elab.async false

namespace Sys2Proof.Machine

theorem execPlnTarget_keeps (ctx : Fin 16) (ring : Fin 8) (s : State) : Goes 0x81008010068442 s (execPlnTarget ctx ring s) := by
  unfold execPlnTarget
  repeat' (first
    | with_reducible exact Keeps.refl _
    | with_reducible assumption
    | intro _
    | with_reducible refine Goes.next ?_
    | with_reducible refine Goes.ite ?_ ?_
    | fail_if_no_progress extract_lets +onlyGivenNames y
    | with_reducible refine Keeps.ite ?_ ?_
    | with_reducible refine Keeps.foldl ?_ ?_ _
    | with_reducible refine Keeps.trans ?_ (modChest_keeps ..)
    | with_reducible refine Keeps.trans ?_ (dispatchOp_keeps _ _ _ _ _ ?_)
    | with_reducible refine Keeps.trans ?_ (reject_keeps ..))

theorem noteTargetReads_keeps {F : Nat} (acc : Access) (b : List Byte) (s : State) (hF : Within 0x80008000000442 F := by first | rfl | decide) : Keeps F s (noteTargetReads acc b s) := by
  refine Keeps.mono hF ?_
  unfold noteTargetReads
  repeat' (first
    | with_reducible exact Keeps.refl _
    | with_reducible assumption
    | intro _
    | (extract_lets +onlyGivenNames y
       refine Keeps.via (y := y) ?_ ?_
       on_goal 2 => (intro _; clear_value y)
       on_goal 1 => (dsimp -zeta only [y]; clear y))
    | fail_if_no_progress extract_lets +onlyGivenNames y
    | with_reducible refine Keeps.ite ?_ ?_
    | with_reducible refine Keeps.foldl ?_ ?_ _
    | with_reducible refine Keeps.trans ?_ (noteRead_keeps ..))

theorem execTargetUnitDone_keeps (c : Fin 256) (s : State) : Goes 0x81008010068642 s (execTargetUnitDone c s) := by
  unfold execTargetUnitDone
  split
  · exact Goes.next (Keeps.refl s)
  · extract_lets b acc s1 rows tail bytes
    have h1 : Keeps 0x81008010068642 s s1 := (modChest_keeps ..).trans (noteTargetReads_keeps ..)
    clear_value s1
    exact Goes.ite (Goes.next (h1.trans (complete_keeps ..)))
      (Goes.next ((h1.trans (writeMem_keeps ..)).trans (complete_keeps ..)))

theorem execPlnProgram_keeps (ctx : Fin 16) (ring : Fin 8) (s : State) : Goes 0x81008010068442 s (execPlnProgram ctx ring s) := by
  unfold execPlnProgram
  repeat' (first
    | with_reducible exact Keeps.refl _
    | with_reducible assumption
    | intro _
    | with_reducible refine Goes.next ?_
    | with_reducible refine Goes.ite ?_ ?_
    | fail_if_no_progress extract_lets +onlyGivenNames y
    | with_reducible refine Keeps.ite ?_ ?_
    | with_reducible refine Keeps.foldl ?_ ?_ _
    | with_reducible refine Keeps.trans ?_ (offerProgram_keeps ..))

theorem execPlnRemapCol_keeps (ctx : Fin 16) (ring : Fin 8) (s : State) : Goes 0x81008010068442 s (execPlnRemapCol ctx ring s) := by
  unfold execPlnRemapCol
  repeat' (first
    | with_reducible exact Keeps.refl _
    | with_reducible assumption
    | intro _
    | with_reducible refine Goes.next ?_
    | with_reducible refine Goes.ite ?_ ?_
    | fail_if_no_progress extract_lets +onlyGivenNames y
    | with_reducible refine Keeps.ite ?_ ?_
    | with_reducible refine Keeps.foldl ?_ ?_ _
    | with_reducible refine Keeps.trans ?_ (offerProgram_keeps ..))

theorem startProgram_keeps {F : Nat} (l : Nat) (j : PlnJob) (s : State) (hF : Within 0x81008010078462 F := by first | rfl | decide) : Keeps F s (startProgram l j s) := by
  refine Keeps.mono hF ?_
  unfold startProgram
  repeat' (first
    | with_reducible exact Keeps.refl _
    | with_reducible assumption
    | intro _
    | (extract_lets +onlyGivenNames y
       refine Keeps.via (y := y) ?_ ?_
       on_goal 2 => (intro _; clear_value y)
       on_goal 1 => (dsimp -zeta only [y]; clear y))
    | fail_if_no_progress extract_lets +onlyGivenNames y
    | with_reducible refine Keeps.ite ?_ ?_
    | with_reducible refine Keeps.foldl ?_ ?_ _
    | with_reducible refine Keeps.trans ?_ (endJob_keeps ..)
    | with_reducible refine Keeps.trans ?_ (setLane_keeps ..)
    | with_reducible refine Keeps.trans ?_ (modPlane_keeps ..)
    | with_reducible refine Keeps.trans ?_ (modDrawer_keeps ..)
    | with_reducible refine Keeps.trans ?_ (noteRead_keeps ..))

theorem startRemap_keeps {F : Nat} (l : Nat) (j : PlnJob) (s : State) (hF : Within 0x1000010068060 F := by first | rfl | decide) : Keeps F s (startRemap l j s) := by
  refine Keeps.mono hF ?_
  unfold startRemap
  repeat' (first
    | with_reducible exact Keeps.refl _
    | with_reducible assumption
    | intro _
    | fail_if_no_progress extract_lets +onlyGivenNames y
    | with_reducible refine Keeps.ite ?_ ?_
    | with_reducible refine Keeps.foldl ?_ ?_ _
    | with_reducible refine Keeps.trans ?_ (endJob_keeps ..)
    | with_reducible refine Keeps.trans ?_ (setLane_keeps ..)
    | fail_if_no_progress with_reducible refine Keeps.lit ?_ rfl rfl rfl rfl
    | fail_if_no_progress with_reducible refine Keeps.litMod ?_ rfl rfl rfl rfl rfl rfl rfl rfl rfl
    | split)

theorem execPlnLaneStart_keeps (c : Fin 256) (s : State) : Goes 0x81008010078462 s (execPlnLaneStart c s) := by
  unfold execPlnLaneStart
  repeat' (first
    | with_reducible exact Keeps.refl _
    | with_reducible assumption
    | intro _
    | with_reducible refine Goes.next ?_
    | (extract_lets +onlyGivenNames y
       refine Goes.via (y := y) ?_ ?_
       on_goal 2 => (intro _; clear_value y)
       on_goal 1 => (dsimp -zeta only [y]; clear y))
    | with_reducible refine Goes.ite ?_ ?_
    | (extract_lets +onlyGivenNames y
       refine Keeps.via (y := y) ?_ ?_
       on_goal 2 => (intro _; clear_value y)
       on_goal 1 => (dsimp -zeta only [y]; clear y))
    | fail_if_no_progress extract_lets +onlyGivenNames y
    | with_reducible refine Keeps.ite ?_ ?_
    | with_reducible refine Keeps.foldl ?_ ?_ _
    | with_reducible refine Keeps.trans ?_ (startRemap_keeps ..)
    | with_reducible refine Keeps.trans ?_ (startProgram_keeps ..)
    | with_reducible refine Keeps.trans ?_ (acceptHeld_keeps ..)
    | with_reducible refine Keeps.trans ?_ (setLane_keeps ..)
    | with_reducible refine Keeps.trans ?_ (modChest_keeps ..)
    | fail_if_no_progress with_reducible refine Keeps.lit ?_ rfl rfl rfl rfl
    | fail_if_no_progress with_reducible refine Keeps.litMod ?_ rfl rfl rfl rfl rfl rfl rfl rfl rfl
    | split
    | fail_if_no_progress dsimp -zeta only
    | refine Keeps.lit ?_ rfl rfl rfl rfl
    | refine Keeps.litMod ?_ rfl rfl rfl rfl rfl rfl rfl rfl rfl
    | refine Keeps.litTo ?_ rfl rfl rfl rfl ⟨nofun, nofun⟩ rfl (fun h => h) rfl rfl)

theorem execProgramBindingEnd_keeps (c : Fin 256) (l : Fin 16) (s : State) : Goes 0x20000 s (execProgramBindingEnd c l s) := by
  unfold execProgramBindingEnd
  repeat' (first
    | with_reducible exact Keeps.refl _
    | with_reducible assumption
    | intro _
    | with_reducible refine Goes.next ?_
    | with_reducible refine Goes.ite ?_ ?_
    | fail_if_no_progress extract_lets +onlyGivenNames y
    | with_reducible refine Keeps.ite ?_ ?_
    | with_reducible refine Keeps.foldl ?_ ?_ _
    | with_reducible refine Keeps.trans ?_ (setLane_keeps ..)
    | fail_if_no_progress with_reducible refine Keeps.lit ?_ rfl rfl rfl rfl
    | fail_if_no_progress with_reducible refine Keeps.litMod ?_ rfl rfl rfl rfl rfl rfl rfl rfl rfl
    | split)

theorem execProgramPreReadDone_keeps (c : Fin 256) (l : Fin 16) (dev : Tab Int) (s : State) : Goes 0x85008410078667 s (execProgramPreReadDone c l dev s) := by
  unfold execProgramPreReadDone
  repeat' (first
    | with_reducible exact Keeps.refl _
    | with_reducible assumption
    | intro _
    | with_reducible refine Goes.next ?_
    | with_reducible refine Goes.ite ?_ ?_
    | fail_if_no_progress extract_lets +onlyGivenNames y
    | with_reducible refine Keeps.ite ?_ ?_
    | with_reducible refine Keeps.foldl ?_ ?_ _
    | with_reducible refine Keeps.trans ?_ (rowPassed_keeps ..)
    | with_reducible refine Keeps.trans ?_ (setLane_keeps ..)
    | with_reducible refine Keeps.trans ?_ (readTargets_keeps_eq ‹_›)
    | with_reducible refine Keeps.trans ?_ (readTargets_keeps ..)
    | fail_if_no_progress with_reducible refine Keeps.lit ?_ rfl rfl rfl rfl
    | fail_if_no_progress with_reducible refine Keeps.litMod ?_ rfl rfl rfl rfl rfl rfl rfl rfl rfl
    | split)

theorem execProgramPulse_keeps (c : Fin 256) (l : Fin 16) (miss : Tab Int) (s : State) : Goes 0x4000000030000 s (execProgramPulse c l miss s) := by
  unfold execProgramPulse
  repeat' (first
    | with_reducible exact Keeps.refl _
    | with_reducible assumption
    | intro _
    | with_reducible refine Goes.next ?_
    | with_reducible refine Goes.ite ?_ ?_
    | fail_if_no_progress extract_lets +onlyGivenNames y
    | with_reducible refine Keeps.ite ?_ ?_
    | with_reducible refine Keeps.foldl ?_ ?_ _
    | with_reducible refine Keeps.trans ?_ (setLane_keeps ..)
    | with_reducible refine Keeps.trans ?_ (modPlane_keeps ..)
    | with_reducible refine Keeps.trans ?_ (bump_keeps ..)
    | fail_if_no_progress with_reducible refine Keeps.lit ?_ rfl rfl rfl rfl
    | fail_if_no_progress with_reducible refine Keeps.litMod ?_ rfl rfl rfl rfl rfl rfl rfl rfl rfl
    | split)

theorem execProgramVerifyRead_keeps (c : Fin 256) (l : Fin 16) (dev : Tab Int) (s : State) : Goes 0x85008410078667 s (execProgramVerifyRead c l dev s) := by
  unfold execProgramVerifyRead
  repeat' (first
    | with_reducible exact Keeps.refl _
    | with_reducible assumption
    | intro _
    | with_reducible refine Goes.next ?_
    | (extract_lets +onlyGivenNames y
       refine Goes.via (y := y) ?_ ?_
       on_goal 2 => (intro _; clear_value y)
       on_goal 1 => (dsimp -zeta only [y]; clear y))
    | with_reducible refine Goes.ite ?_ ?_
    | (extract_lets +onlyGivenNames y
       refine Keeps.via (y := y) ?_ ?_
       on_goal 2 => (intro _; clear_value y)
       on_goal 1 => (dsimp -zeta only [y]; clear y))
    | fail_if_no_progress extract_lets +onlyGivenNames y
    | with_reducible refine Keeps.ite ?_ ?_
    | with_reducible refine Keeps.foldl ?_ ?_ _
    | with_reducible refine Keeps.trans ?_ (rowFailed_keeps ..)
    | with_reducible refine Keeps.trans ?_ (rowPassed_keeps ..)
    | with_reducible refine Keeps.trans ?_ (stopJob_keeps ..)
    | with_reducible refine Keeps.trans ?_ (setLane_keeps ..)
    | fail_if_no_progress with_reducible refine Keeps.lit ?_ rfl rfl rfl rfl
    | fail_if_no_progress with_reducible refine Keeps.litMod ?_ rfl rfl rfl rfl rfl rfl rfl rfl rfl
    | split
    | fail_if_no_progress dsimp -zeta only
    | refine Keeps.lit ?_ rfl rfl rfl rfl
    | refine Keeps.litMod ?_ rfl rfl rfl rfl rfl rfl rfl rfl rfl
    | refine Keeps.litTo ?_ rfl rfl rfl rfl ⟨nofun, nofun⟩ rfl (fun h => h) rfl rfl)

theorem execProgramClosingRead_keeps (c : Fin 256) (l : Fin 16) (dev : Tab Int) (s : State) : Goes 0x85008410078667 s (execProgramClosingRead c l dev s) := by
  unfold execProgramClosingRead
  repeat' (first
    | with_reducible exact Keeps.refl _
    | with_reducible assumption
    | intro _
    | with_reducible refine Goes.next ?_
    | with_reducible refine Goes.ite ?_ ?_
    | fail_if_no_progress extract_lets +onlyGivenNames y
    | with_reducible refine Keeps.ite ?_ ?_
    | with_reducible refine Keeps.foldl ?_ ?_ _
    | with_reducible refine Keeps.trans ?_ (rowFailed_keeps ..)
    | with_reducible refine Keeps.trans ?_ (failRemap_keeps ..)
    | with_reducible refine Keeps.trans ?_ (rowPassed_keeps ..)
    | with_reducible refine Keeps.trans ?_ (toCheck_keeps ..)
    | with_reducible refine Keeps.trans ?_ (setLane_keeps ..)
    | with_reducible refine Keeps.trans ?_ (setFlag_keeps ..)
    | fail_if_no_progress with_reducible refine Keeps.lit ?_ rfl rfl rfl rfl
    | fail_if_no_progress with_reducible refine Keeps.litMod ?_ rfl rfl rfl rfl rfl rfl rfl rfl rfl
    | split)

theorem execProgramRowWatchdog_keeps (c : Fin 256) (l : Fin 16) (s : State) : Goes 0x5850587100f8462 s (execProgramRowWatchdog c l s) := by
  unfold execProgramRowWatchdog
  split
  · exact Goes.next (Keeps.refl s)
  · refine Goes.ite (Goes.next (Keeps.refl s)) ?_
    split
    rename_i again t h
    have h1 : Keeps 0x5850587100f8462 s t := Keeps.trans (yieldToReset_keeps ..) (rowWatchdog_keeps_eq h)
    extract_lets s2
    have h2 : Keeps 0x5850587100f8462 s s2 := h1.trans (stopJob_keeps ..)
    clear_value s2
    exact Goes.next (Keeps.ite (h2.trans (chestReset_keeps ..)) h2)

end Sys2Proof.Machine
end

