-- ==== Sys2Proof/Laws/KeepsOptOps.lean ====
section
/-!
SUPPORT. What the operations of Machine/OptOps.lean keep.
-/
set_option Elab.async false

namespace Sys2Proof.Machine

theorem modPort_keeps {F : Nat} (p : Nat) (f : Port → Port) (s : State) (hF : Within 0x100000 F := by first | rfl | decide) : Keeps F s (modPort p f s) := by
  refine Keeps.mono hF ?_
  unfold modPort
  repeat' (first
    | with_reducible exact Keeps.refl _
    | with_reducible assumption
    | intro _
    | fail_if_no_progress extract_lets +onlyGivenNames y
    | with_reducible refine Keeps.ite ?_ ?_
    | with_reducible refine Keeps.foldl ?_ ?_ _
    | fail_if_no_progress with_reducible refine Keeps.lit ?_ rfl rfl rfl rfl)

theorem sendFlit_keeps {F : Nat} (p h : Nat) (payload : List Byte) (s : State) (hF : Within 0x10100000 F := by first | rfl | decide) : Keeps F s (sendFlit p h payload s) := by
  refine Keeps.mono hF ?_
  unfold sendFlit
  repeat' (first
    | with_reducible exact Keeps.refl _
    | with_reducible assumption
    | intro _
    | (extract_lets +onlyGivenNames y
       refine Keeps.via (y := y) ?_ ?_
       on_goal 2 => (intro _; clear_value y)
       on_goal 1 => (dsimp -zeta only [y]; clear y))
    | fail_if_no_progress extract_lets +onlyGivenNames y
    | with_reducible refine Keeps.ite ?_ ?_
    | with_reducible refine Keeps.foldl ?_ ?_ _
    | with_reducible refine Keeps.trans ?_ (modPort_keeps ..)
    | with_reducible refine Keeps.trans ?_ (emit_keeps ..)
    | fail_if_no_progress with_reducible refine Keeps.lit ?_ rfl rfl rfl rfl
    | fail_if_no_progress with_reducible refine Keeps.litMod ?_ rfl rfl rfl rfl rfl rfl rfl rfl rfl
    | split
    | fail_if_no_progress dsimp -zeta only
    | refine Keeps.lit ?_ rfl rfl rfl rfl
    | refine Keeps.litMod ?_ rfl rfl rfl rfl rfl rfl rfl rfl rfl
    | refine Keeps.litTo ?_ rfl rfl rfl rfl ⟨nofun, nofun⟩ rfl (fun h => h) rfl rfl)

theorem sendIdle_keeps {F : Nat} (p : Nat) (s : State) (hF : Within 0x10100000 F := by first | rfl | decide) : Keeps F s (sendIdle p s) := by
  refine Keeps.mono hF ?_
  unfold sendIdle
  repeat' (first
    | with_reducible exact Keeps.refl _
    | with_reducible assumption
    | intro _
    | (extract_lets +onlyGivenNames y
       refine Keeps.via (y := y) ?_ ?_
       on_goal 2 => (intro _; clear_value y)
       on_goal 1 => (dsimp -zeta only [y]; clear y))
    | fail_if_no_progress extract_lets +onlyGivenNames y
    | with_reducible refine Keeps.ite ?_ ?_
    | with_reducible refine Keeps.foldl ?_ ?_ _
    | with_reducible refine Keeps.trans ?_ (sendFlit_keeps ..)
    | fail_if_no_progress with_reducible refine Keeps.lit ?_ rfl rfl rfl rfl
    | fail_if_no_progress with_reducible refine Keeps.litMod ?_ rfl rfl rfl rfl rfl rfl rfl rfl rfl
    | split
    | fail_if_no_progress dsimp -zeta only
    | refine Keeps.lit ?_ rfl rfl rfl rfl
    | refine Keeps.litMod ?_ rfl rfl rfl rfl rfl rfl rfl rfl rfl
    | refine Keeps.litTo ?_ rfl rfl rfl rfl ⟨nofun, nofun⟩ rfl (fun h => h) rfl rfl)

theorem tellPeer_keeps {F : Nat} (p code arg : Nat) (s : State) (hF : Within 0x10100000 F := by first | rfl | decide) : Keeps F s (tellPeer p code arg s) := by
  refine Keeps.mono hF ?_
  unfold tellPeer
  repeat' (first
    | with_reducible exact Keeps.refl _
    | with_reducible assumption
    | intro _
    | (extract_lets +onlyGivenNames y
       refine Keeps.via (y := y) ?_ ?_
       on_goal 2 => (intro _; clear_value y)
       on_goal 1 => (dsimp -zeta only [y]; clear y))
    | fail_if_no_progress extract_lets +onlyGivenNames y
    | with_reducible refine Keeps.ite ?_ ?_
    | with_reducible refine Keeps.foldl ?_ ?_ _
    | with_reducible refine Keeps.trans ?_ (sendFlit_keeps ..)
    | with_reducible refine Keeps.trans ?_ (emit_keeps ..)
    | fail_if_no_progress with_reducible refine Keeps.lit ?_ rfl rfl rfl rfl
    | fail_if_no_progress with_reducible refine Keeps.litMod ?_ rfl rfl rfl rfl rfl rfl rfl rfl rfl
    | split
    | fail_if_no_progress dsimp -zeta only
    | refine Keeps.lit ?_ rfl rfl rfl rfl
    | refine Keeps.litMod ?_ rfl rfl rfl rfl rfl rfl rfl rfl rfl
    | refine Keeps.litTo ?_ rfl rfl rfl rfl ⟨nofun, nofun⟩ rfl (fun h => h) rfl rfl)

theorem sendData_keeps {F : Nat} (p : Nat) (f : SentFlit) (s : State) (hF : Within 0x40000010100000 F := by first | rfl | decide) : Keeps F s (sendData p f s) := by
  refine Keeps.mono hF ?_
  unfold sendData
  repeat' (first
    | with_reducible exact Keeps.refl _
    | with_reducible assumption
    | intro _
    | (extract_lets +onlyGivenNames y
       refine Keeps.via (y := y) ?_ ?_
       on_goal 2 => (intro _; clear_value y)
       on_goal 1 => (dsimp -zeta only [y]; clear y))
    | fail_if_no_progress extract_lets +onlyGivenNames y
    | with_reducible refine Keeps.ite ?_ ?_
    | with_reducible refine Keeps.foldl ?_ ?_ _
    | with_reducible refine Keeps.trans ?_ (sendFlit_keeps ..)
    | with_reducible refine Keeps.trans ?_ (bump_keeps ..)
    | fail_if_no_progress with_reducible refine Keeps.lit ?_ rfl rfl rfl rfl
    | fail_if_no_progress with_reducible refine Keeps.litMod ?_ rfl rfl rfl rfl rfl rfl rfl rfl rfl
    | split
    | fail_if_no_progress dsimp -zeta only
    | refine Keeps.lit ?_ rfl rfl rfl rfl
    | refine Keeps.litMod ?_ rfl rfl rfl rfl rfl rfl rfl rfl rfl
    | refine Keeps.litTo ?_ rfl rfl rfl rfl ⟨nofun, nofun⟩ rfl (fun h => h) rfl rfl)

theorem pumpLoop_keeps {F : Nat} (n p : Nat) (s : State) (hF : Within 0x40000010100000 F := by first | rfl | decide) : Keeps F s (pumpLoop n p s) := by
  refine Keeps.mono hF ?_
  induction n generalizing s with
  | zero => exact Keeps.refl _
  | succ n ih =>
    rw [pumpLoop]
    refine Keeps.ite (Keeps.refl _) ?_
    split
    · exact Keeps.refl _
    · exact (((sendData_keeps ..).trans (modPort_keeps ..)).trans (ih _))

theorem pump_keeps {F : Nat} (p : Nat) (s : State) (hF : Within 0x40000010100000 F := by first | rfl | decide) : Keeps F s (pump p s) := by
  refine Keeps.mono hF ?_
  unfold pump
  repeat' (first
    | with_reducible exact Keeps.refl _
    | with_reducible assumption
    | intro _
    | fail_if_no_progress extract_lets +onlyGivenNames y
    | with_reducible refine Keeps.ite ?_ ?_
    | with_reducible refine Keeps.foldl ?_ ?_ _
    | with_reducible refine Keeps.trans ?_ (pumpLoop_keeps ..))

theorem logDrop_keeps {F : Nat} (code : Nat) (k : Packet) (s : State) (hF : Within 0x800002 F := by first | rfl | decide) : Keeps F s (logDrop code k s) := by
  refine Keeps.mono hF ?_
  unfold logDrop
  repeat' (first
    | with_reducible exact Keeps.refl _
    | with_reducible assumption
    | intro _
    | fail_if_no_progress extract_lets +onlyGivenNames y
    | with_reducible refine Keeps.ite ?_ ?_
    | with_reducible refine Keeps.foldl ?_ ?_ _
    | with_reducible refine Keeps.trans ?_ (logEntry_keeps ..)
    | fail_if_no_progress with_reducible refine Keeps.lit ?_ rfl rfl rfl rfl)

theorem dropNoRoute_keeps {F : Nat} (k : Packet) (s : State) (hF : Within 0x40004000800002 F := by first | rfl | decide) : Keeps F s (dropNoRoute k s) := by
  refine Keeps.mono hF ?_
  unfold dropNoRoute
  repeat' (first
    | with_reducible exact Keeps.refl _
    | with_reducible assumption
    | intro _
    | fail_if_no_progress extract_lets +onlyGivenNames y
    | with_reducible refine Keeps.ite ?_ ?_
    | with_reducible refine Keeps.foldl ?_ ?_ _
    | with_reducible refine Keeps.trans ?_ (logDrop_keeps ..)
    | with_reducible refine Keeps.trans ?_ (bump_keeps ..)
    | with_reducible refine Keeps.trans ?_ (setFlag_keeps ..))

theorem queueOn_keeps {F : Nat} (p : Nat) (k : Packet) (s : State) (hF : Within 0x40000010100000 F := by first | rfl | decide) : Keeps F s (queueOn p k s) := by
  refine Keeps.mono hF ?_
  unfold queueOn
  repeat' (first
    | with_reducible exact Keeps.refl _
    | with_reducible assumption
    | intro _
    | fail_if_no_progress extract_lets +onlyGivenNames y
    | with_reducible refine Keeps.ite ?_ ?_
    | with_reducible refine Keeps.foldl ?_ ?_ _
    | with_reducible refine Keeps.trans ?_ (pump_keeps ..)
    | with_reducible refine Keeps.trans ?_ (modPort_keeps ..))

theorem routePacket_keeps {F : Nat} (k : Packet) (s : State) (hF : Within 0x40004010900002 F := by first | rfl | decide) : Keeps F s (routePacket k s) := by
  refine Keeps.mono hF ?_
  unfold routePacket
  extract_lets b src us
  refine Keeps.ite (Keeps.ite ?_ (bump_keeps ..)) ?_
  · exact (Keeps.refl s).lit rfl rfl rfl rfl
  · clear_value us
    cases us with
    | nil => exact dropNoRoute_keeps ..
    | cons u us => exact queueOn_keeps ..

theorem freeBuffer_keeps {F : Nat} (p vc n : Nat) (s : State) (hF : Within 0x100000 F := by first | rfl | decide) : Keeps F s (freeBuffer p vc n s) := by
  refine Keeps.mono hF ?_
  unfold freeBuffer
  repeat' (first
    | with_reducible exact Keeps.refl _
    | with_reducible assumption
    | intro _
    | fail_if_no_progress extract_lets +onlyGivenNames y
    | with_reducible refine Keeps.ite ?_ ?_
    | with_reducible refine Keeps.foldl ?_ ?_ _
    | with_reducible refine Keeps.trans ?_ (modPort_keeps ..))

theorem arrivePacket_keeps {F : Nat} (p vc : Nat) (b : List Byte) (s : State) (hF : Within 0x40004010900002 F := by first | rfl | decide) : Keeps F s (arrivePacket p vc b s) := by
  refine Keeps.mono hF ?_
  unfold arrivePacket
  repeat' (first
    | with_reducible exact Keeps.refl _
    | with_reducible assumption
    | intro _
    | (extract_lets +onlyGivenNames y
       refine Keeps.via (y := y) ?_ ?_
       on_goal 2 => (intro _; clear_value y)
       on_goal 1 => (dsimp -zeta only [y]; clear y))
    | fail_if_no_progress extract_lets +onlyGivenNames y
    | with_reducible refine Keeps.ite ?_ ?_
    | with_reducible refine Keeps.foldl ?_ ?_ _
    | with_reducible refine Keeps.trans ?_ (freeBuffer_keeps ..)
    | with_reducible refine Keeps.trans ?_ (bump_keeps ..)
    | fail_if_no_progress with_reducible refine Keeps.lit ?_ rfl rfl rfl rfl
    | fail_if_no_progress with_reducible refine Keeps.litMod ?_ rfl rfl rfl rfl rfl rfl rfl rfl rfl
    | split
    | fail_if_no_progress dsimp -zeta only
    | refine Keeps.lit ?_ rfl rfl rfl rfl
    | refine Keeps.litMod ?_ rfl rfl rfl rfl rfl rfl rfl rfl rfl
    | refine Keeps.litTo ?_ rfl rfl rfl rfl ⟨nofun, nofun⟩ rfl (fun h => h) rfl rfl)

theorem forwardPacket_keeps {F : Nat} (p vc : Nat) (last : Bool) (b : List Byte) (s : State) (hF : Within 0x40004010900002 F := by first | rfl | decide) : Keeps F s (forwardPacket p vc last b s) := by
  refine Keeps.mono hF ?_
  unfold forwardPacket
  repeat' (first
    | with_reducible exact Keeps.refl _
    | with_reducible assumption
    | intro _
    | (extract_lets +onlyGivenNames y
       refine Keeps.via (y := y) ?_ ?_
       on_goal 2 => (intro _; clear_value y)
       on_goal 1 => (dsimp -zeta only [y]; clear y))
    | fail_if_no_progress extract_lets +onlyGivenNames y
    | with_reducible refine Keeps.ite ?_ ?_
    | with_reducible refine Keeps.foldl ?_ ?_ _
    | with_reducible refine Keeps.trans ?_ (routePacket_keeps ..)
    | with_reducible refine Keeps.trans ?_ (dropNoRoute_keeps ..)
    | with_reducible refine Keeps.trans ?_ (logDrop_keeps ..)
    | with_reducible refine Keeps.trans ?_ (bump_keeps ..)
    | with_reducible refine Keeps.trans ?_ (setFlag_keeps ..)
    | fail_if_no_progress with_reducible refine Keeps.lit ?_ rfl rfl rfl rfl
    | fail_if_no_progress with_reducible refine Keeps.litMod ?_ rfl rfl rfl rfl rfl rfl rfl rfl rfl
    | split
    | fail_if_no_progress dsimp -zeta only
    | refine Keeps.lit ?_ rfl rfl rfl rfl
    | refine Keeps.litMod ?_ rfl rfl rfl rfl rfl rfl rfl rfl rfl
    | refine Keeps.litTo ?_ rfl rfl rfl rfl ⟨nofun, nofun⟩ rfl (fun h => h) rfl rfl)

theorem growTransit_keeps {F : Nat} (p vc : Nat) (last : Bool) (payload : List Byte) (s : State) (hF : Within 0x40000010100000 F := by first | rfl | decide) : Keeps F s (growTransit p vc last payload s) := by
  refine Keeps.mono hF ?_
  unfold growTransit
  repeat' (first
    | with_reducible exact Keeps.refl _
    | with_reducible assumption
    | intro _
    | (extract_lets +onlyGivenNames y
       refine Keeps.via (y := y) ?_ ?_
       on_goal 2 => (intro _; clear_value y)
       on_goal 1 => (dsimp -zeta only [y]; clear y))
    | fail_if_no_progress extract_lets +onlyGivenNames y
    | with_reducible refine Keeps.ite ?_ ?_
    | with_reducible refine Keeps.foldl ?_ ?_ _
    | with_reducible refine Keeps.trans ?_ (pump_keeps ..)
    | with_reducible refine Keeps.trans ?_ (modPort_keeps ..)
    | fail_if_no_progress with_reducible refine Keeps.lit ?_ rfl rfl rfl rfl
    | fail_if_no_progress with_reducible refine Keeps.litMod ?_ rfl rfl rfl rfl rfl rfl rfl rfl rfl
    | split
    | fail_if_no_progress dsimp -zeta only
    | refine Keeps.lit ?_ rfl rfl rfl rfl
    | refine Keeps.litMod ?_ rfl rfl rfl rfl rfl rfl rfl rfl rfl
    | refine Keeps.litTo ?_ rfl rfl rfl rfl ⟨nofun, nofun⟩ rfl (fun h => h) rfl rfl)

theorem breakTransit_keeps {F : Nat} (p vc : Nat) (s : State) (hF : Within 0x40000010100000 F := by first | rfl | decide) : Keeps F s (breakTransit p vc s) := by
  refine Keeps.mono hF ?_
  unfold breakTransit
  repeat' (first
    | with_reducible exact Keeps.refl _
    | with_reducible assumption
    | intro _
    | (extract_lets +onlyGivenNames y
       refine Keeps.via (y := y) ?_ ?_
       on_goal 2 => (intro _; clear_value y)
       on_goal 1 => (dsimp -zeta only [y]; clear y))
    | fail_if_no_progress extract_lets +onlyGivenNames y
    | with_reducible refine Keeps.ite ?_ ?_
    | with_reducible refine Keeps.foldl ?_ ?_ _
    | with_reducible refine Keeps.trans ?_ (pump_keeps ..)
    | with_reducible refine Keeps.trans ?_ (modPort_keeps ..)
    | fail_if_no_progress with_reducible refine Keeps.lit ?_ rfl rfl rfl rfl
    | fail_if_no_progress with_reducible refine Keeps.litMod ?_ rfl rfl rfl rfl rfl rfl rfl rfl rfl
    | split
    | fail_if_no_progress dsimp -zeta only
    | refine Keeps.lit ?_ rfl rfl rfl rfl
    | refine Keeps.litMod ?_ rfl rfl rfl rfl rfl rfl rfl rfl rfl
    | refine Keeps.litTo ?_ rfl rfl rfl rfl ⟨nofun, nofun⟩ rfl (fun h => h) rfl rfl)

theorem requeue_keeps {F : Nat} (p : Nat) (ks : List Packet) (s : State) (hF : Within 0x40004012900002 F := by first | rfl | decide) : Keeps F s (requeue p ks s) := by
  refine Keeps.mono hF ?_
  unfold requeue
  repeat' (first
    | with_reducible exact Keeps.refl _
    | with_reducible assumption
    | intro _
    | (extract_lets +onlyGivenNames y
       refine Keeps.via (y := y) ?_ ?_
       on_goal 2 => (intro _; clear_value y)
       on_goal 1 => (dsimp -zeta only [y]; clear y))
    | fail_if_no_progress extract_lets +onlyGivenNames y
    | with_reducible refine Keeps.ite ?_ ?_
    | with_reducible refine Keeps.foldl ?_ ?_ _
    | with_reducible refine Keeps.trans ?_ (routePacket_keeps ..)
    | with_reducible refine Keeps.trans ?_ (queueOn_keeps ..)
    | with_reducible refine Keeps.trans ?_ (modPort_keeps ..)
    | with_reducible refine Keeps.trans ?_ (bump_keeps ..)
    | fail_if_no_progress with_reducible refine Keeps.lit ?_ rfl rfl rfl rfl
    | fail_if_no_progress with_reducible refine Keeps.litMod ?_ rfl rfl rfl rfl rfl rfl rfl rfl rfl
    | split
    | fail_if_no_progress dsimp -zeta only
    | refine Keeps.lit ?_ rfl rfl rfl rfl
    | refine Keeps.litMod ?_ rfl rfl rfl rfl rfl rfl rfl rfl rfl
    | refine Keeps.litTo ?_ rfl rfl rfl rfl ⟨nofun, nofun⟩ rfl (fun h => h) rfl rfl)

theorem dropWaiting_keeps {F : Nat} (p : Nat) (s : State) (hF : Within 0x40000000100000 F := by first | rfl | decide) : Keeps F s (dropWaiting p s) := by
  refine Keeps.mono hF ?_
  unfold dropWaiting
  repeat' (first
    | with_reducible exact Keeps.refl _
    | with_reducible assumption
    | intro _
    | (extract_lets +onlyGivenNames y
       refine Keeps.via (y := y) ?_ ?_
       on_goal 2 => (intro _; clear_value y)
       on_goal 1 => (dsimp -zeta only [y]; clear y))
    | fail_if_no_progress extract_lets +onlyGivenNames y
    | with_reducible refine Keeps.ite ?_ ?_
    | with_reducible refine Keeps.foldl ?_ ?_ _
    | with_reducible refine Keeps.trans ?_ (modPort_keeps ..)
    | with_reducible refine Keeps.trans ?_ (bump_keeps ..)
    | fail_if_no_progress with_reducible refine Keeps.lit ?_ rfl rfl rfl rfl
    | fail_if_no_progress with_reducible refine Keeps.litMod ?_ rfl rfl rfl rfl rfl rfl rfl rfl rfl
    | split
    | fail_if_no_progress dsimp -zeta only
    | refine Keeps.lit ?_ rfl rfl rfl rfl
    | refine Keeps.litMod ?_ rfl rfl rfl rfl rfl rfl rfl rfl rfl
    | refine Keeps.litTo ?_ rfl rfl rfl rfl ⟨nofun, nofun⟩ rfl (fun h => h) rfl rfl)

theorem breakArrivals_keeps {F : Nat} (p : Nat) (s : State) (hF : Within 0x40000010100000 F := by first | rfl | decide) : Keeps F s (breakArrivals p s) := by
  refine Keeps.mono hF ?_
  unfold breakArrivals
  repeat' (first
    | with_reducible exact Keeps.refl _
    | with_reducible assumption
    | intro _
    | (extract_lets +onlyGivenNames y
       refine Keeps.via (y := y) ?_ ?_
       on_goal 2 => (intro _; clear_value y)
       on_goal 1 => (dsimp -zeta only [y]; clear y))
    | fail_if_no_progress extract_lets +onlyGivenNames y
    | with_reducible refine Keeps.ite ?_ ?_
    | with_reducible refine Keeps.foldl ?_ ?_ _
    | with_reducible refine Keeps.trans ?_ (breakTransit_keeps ..)
    | fail_if_no_progress with_reducible refine Keeps.lit ?_ rfl rfl rfl rfl
    | fail_if_no_progress with_reducible refine Keeps.litMod ?_ rfl rfl rfl rfl rfl rfl rfl rfl rfl
    | split
    | fail_if_no_progress dsimp -zeta only
    | refine Keeps.lit ?_ rfl rfl rfl rfl
    | refine Keeps.litMod ?_ rfl rfl rfl rfl rfl rfl rfl rfl rfl
    | refine Keeps.litTo ?_ rfl rfl rfl rfl ⟨nofun, nofun⟩ rfl (fun h => h) rfl rfl)

theorem leaveLink_keeps {F : Nat} (p : Nat) (st : PortState) (s : State) (hF : Within 0x40004012900002 F := by first | rfl | decide) : Keeps F s (leaveLink p st s) := by
  refine Keeps.mono hF ?_
  unfold leaveLink
  extract_lets s0 ks had s1 s2 s3
  have h0 : Keeps 0x40004012900002 s s0 := breakArrivals_keeps ..
  clear_value s0
  have h1 : Keeps 0x40004012900002 s s1 := h0.trans (modPort_keeps ..)
  have h2 : Keeps 0x40004012900002 s s2 := Keeps.ite (h1.trans (tellPeer_keeps ..)) h1
  clear_value s2
  have h3 : Keeps 0x40004012900002 s s3 := Keeps.ite (h2.trans (requeue_keeps ..)) (h2.trans (bump_keeps ..))
  clear_value s3
  exact Keeps.ite h3 (h3.trans (dropWaiting_keeps ..))

theorem logLink_keeps {F : Nat} (code p lane : Nat) (s : State) (hF : Within 0x2 F := by first | rfl | decide) : Keeps F s (logLink code p lane s) := by
  refine Keeps.mono hF ?_
  unfold logLink
  repeat' (first
    | with_reducible exact Keeps.refl _
    | with_reducible assumption
    | intro _
    | fail_if_no_progress extract_lets +onlyGivenNames y
    | with_reducible refine Keeps.ite ?_ ?_
    | with_reducible refine Keeps.foldl ?_ ?_ _
    | with_reducible refine Keeps.trans ?_ (logEntry_keeps ..))

theorem linkLost_keeps {F : Nat} (p code : Nat) (s : State) (hF : Within 0x40004012900002 F := by first | rfl | decide) : Keeps F s (linkLost p code s) := by
  refine Keeps.mono hF ?_
  unfold linkLost
  refine Keeps.ite (Keeps.refl s) ?_
  extract_lets s1
  have h1 : Keeps 0x40004012900002 s s1 := Keeps.trans (setFlag_keeps ..) (logLink_keeps ..)
  clear_value s1
  exact Keeps.trans (h1.trans (modPort_keeps ..)) (leaveLink_keeps ..)

theorem replayExhausted_keeps {F : Nat} (p : Nat) (s : State) (hF : Within 0x40004012900002 F := by first | rfl | decide) : Keeps F s (replayExhausted p s) := by
  refine Keeps.mono hF ?_
  unfold replayExhausted
  repeat' (first
    | with_reducible exact Keeps.refl _
    | with_reducible assumption
    | intro _
    | fail_if_no_progress extract_lets +onlyGivenNames y
    | with_reducible refine Keeps.ite ?_ ?_
    | with_reducible refine Keeps.foldl ?_ ?_ _
    | with_reducible refine Keeps.trans ?_ (linkLost_keeps ..)
    | with_reducible refine Keeps.trans ?_ (setFlag_keeps ..))

theorem beginReplay_keeps {F : Nat} (p : Nat) (nak : Bool) (s : State) (hF : Within 0x40004012900002 F := by first | rfl | decide) : Keeps F s (beginReplay p nak s) := by
  refine Keeps.mono hF ?_
  unfold beginReplay
  repeat' (first
    | with_reducible exact Keeps.refl _
    | with_reducible assumption
    | intro _
    | (extract_lets +onlyGivenNames y
       refine Keeps.via (y := y) ?_ ?_
       on_goal 2 => (intro _; clear_value y)
       on_goal 1 => (dsimp -zeta only [y]; clear y))
    | fail_if_no_progress extract_lets +onlyGivenNames y
    | with_reducible refine Keeps.ite ?_ ?_
    | with_reducible refine Keeps.foldl ?_ ?_ _
    | with_reducible refine Keeps.trans ?_ (replayExhausted_keeps ..)
    | with_reducible refine Keeps.trans ?_ (sendData_keeps ..)
    | with_reducible refine Keeps.trans ?_ (modPort_keeps ..)
    | with_reducible refine Keeps.trans ?_ (logEntry_keeps ..)
    | with_reducible refine Keeps.trans ?_ (bump_keeps ..)
    | fail_if_no_progress with_reducible refine Keeps.lit ?_ rfl rfl rfl rfl
    | fail_if_no_progress with_reducible refine Keeps.litMod ?_ rfl rfl rfl rfl rfl rfl rfl rfl rfl
    | split
    | fail_if_no_progress dsimp -zeta only
    | refine Keeps.lit ?_ rfl rfl rfl rfl
    | refine Keeps.litMod ?_ rfl rfl rfl rfl rfl rfl rfl rfl rfl
    | refine Keeps.litTo ?_ rfl rfl rfl rfl ⟨nofun, nofun⟩ rfl (fun h => h) rfl rfl)

theorem leaveHold_keeps {F : Nat} (p : Nat) (s : State) (hF : Within 0x40004012900002 F := by first | rfl | decide) : Keeps F s (leaveHold p s) := by
  refine Keeps.mono hF ?_
  unfold leaveHold
  repeat' (first
    | with_reducible exact Keeps.refl _
    | with_reducible assumption
    | intro _
    | (extract_lets +onlyGivenNames y
       refine Keeps.via (y := y) ?_ ?_
       on_goal 2 => (intro _; clear_value y)
       on_goal 1 => (dsimp -zeta only [y]; clear y))
    | fail_if_no_progress extract_lets +onlyGivenNames y
    | with_reducible refine Keeps.ite ?_ ?_
    | with_reducible refine Keeps.foldl ?_ ?_ _
    | with_reducible refine Keeps.trans ?_ (beginReplay_keeps ..)
    | with_reducible refine Keeps.trans ?_ (pump_keeps ..)
    | with_reducible refine Keeps.trans ?_ (modPort_keeps ..)
    | fail_if_no_progress with_reducible refine Keeps.lit ?_ rfl rfl rfl rfl
    | fail_if_no_progress with_reducible refine Keeps.litMod ?_ rfl rfl rfl rfl rfl rfl rfl rfl rfl
    | split
    | fail_if_no_progress dsimp -zeta only
    | refine Keeps.lit ?_ rfl rfl rfl rfl
    | refine Keeps.litMod ?_ rfl rfl rfl rfl rfl rfl rfl rfl rfl
    | refine Keeps.litTo ?_ rfl rfl rfl rfl ⟨nofun, nofun⟩ rfl (fun h => h) rfl rfl)

theorem breakOff_keeps {F : Nat} (p vc : Nat) (old : Option (List Byte)) (s : State) (hF : Within 0x40000010100000 F := by first | rfl | decide) : Keeps F s (breakOff p vc old s) := by
  refine Keeps.mono hF ?_
  unfold breakOff
  repeat' (first
    | with_reducible exact Keeps.refl _
    | with_reducible assumption
    | intro _
    | (extract_lets +onlyGivenNames y
       refine Keeps.via (y := y) ?_ ?_
       on_goal 2 => (intro _; clear_value y)
       on_goal 1 => (dsimp -zeta only [y]; clear y))
    | fail_if_no_progress extract_lets +onlyGivenNames y
    | with_reducible refine Keeps.ite ?_ ?_
    | with_reducible refine Keeps.foldl ?_ ?_ _
    | with_reducible refine Keeps.trans ?_ (breakTransit_keeps ..)
    | with_reducible refine Keeps.trans ?_ (freeBuffer_keeps ..)
    | fail_if_no_progress with_reducible refine Keeps.lit ?_ rfl rfl rfl rfl
    | fail_if_no_progress with_reducible refine Keeps.litMod ?_ rfl rfl rfl rfl rfl rfl rfl rfl rfl
    | split
    | fail_if_no_progress dsimp -zeta only
    | refine Keeps.lit ?_ rfl rfl rfl rfl
    | refine Keeps.litMod ?_ rfl rfl rfl rfl rfl rfl rfl rfl rfl
    | refine Keeps.litTo ?_ rfl rfl rfl rfl ⟨nofun, nofun⟩ rfl (fun h => h) rfl rfl)

theorem takeFields_keeps {F : Nat} (p h : Nat) (s : State) (hF : Within 0x40004012900002 F := by first | rfl | decide) : Keeps F s (takeFields p h s) := by
  refine Keeps.mono hF ?_
  unfold takeFields
  repeat' (first
    | with_reducible exact Keeps.refl _
    | with_reducible assumption
    | intro _
    | (extract_lets +onlyGivenNames y
       refine Keeps.via (y := y) ?_ ?_
       on_goal 2 => (intro _; clear_value y)
       on_goal 1 => (dsimp -zeta only [y]; clear y))
    | fail_if_no_progress extract_lets +onlyGivenNames y
    | with_reducible refine Keeps.ite ?_ ?_
    | with_reducible refine Keeps.foldl ?_ ?_ _
    | with_reducible refine Keeps.trans ?_ (beginReplay_keeps ..)
    | with_reducible refine Keeps.trans ?_ (modPort_keeps ..))

theorem endPeerHold_keeps {F : Nat} (p : Nat) (s : State) (hF : Within 0x40004012900002 F := by first | rfl | decide) : Keeps F s (endPeerHold p s) := by
  refine Keeps.mono hF ?_
  unfold endPeerHold
  repeat' (first
    | with_reducible exact Keeps.refl _
    | with_reducible assumption
    | intro _
    | (extract_lets +onlyGivenNames y
       refine Keeps.via (y := y) ?_ ?_
       on_goal 2 => (intro _; clear_value y)
       on_goal 1 => (dsimp -zeta only [y]; clear y))
    | fail_if_no_progress extract_lets +onlyGivenNames y
    | with_reducible refine Keeps.ite ?_ ?_
    | with_reducible refine Keeps.foldl ?_ ?_ _
    | with_reducible refine Keeps.trans ?_ (leaveHold_keeps ..)
    | fail_if_no_progress with_reducible refine Keeps.lit ?_ rfl rfl rfl rfl
    | fail_if_no_progress with_reducible refine Keeps.litMod ?_ rfl rfl rfl rfl rfl rfl rfl rfl rfl
    | split
    | fail_if_no_progress dsimp -zeta only
    | refine Keeps.lit ?_ rfl rfl rfl rfl
    | refine Keeps.litMod ?_ rfl rfl rfl rfl rfl rfl rfl rfl rfl
    | refine Keeps.litTo ?_ rfl rfl rfl rfl ⟨nofun, nofun⟩ rfl (fun h => h) rfl rfl)

theorem takeFlit_keeps {F : Nat} (p vc : Nat) (first last : Bool) (payload k : List Byte) (s : State) (hF : Within 0x40004010900002 F := by first | rfl | decide) : Keeps F s (takeFlit p vc first last payload k s) := by
  refine Keeps.mono hF ?_
  unfold takeFlit
  repeat' (first
    | with_reducible exact Keeps.refl _
    | with_reducible assumption
    | intro _
    | (extract_lets +onlyGivenNames y
       refine Keeps.via (y := y) ?_ ?_
       on_goal 2 => (intro _; clear_value y)
       on_goal 1 => (dsimp -zeta only [y]; clear y))
    | fail_if_no_progress extract_lets +onlyGivenNames y
    | with_reducible refine Keeps.ite ?_ ?_
    | with_reducible refine Keeps.foldl ?_ ?_ _
    | with_reducible refine Keeps.trans ?_ (growTransit_keeps ..)
    | with_reducible refine Keeps.trans ?_ (forwardPacket_keeps ..)
    | with_reducible refine Keeps.trans ?_ (arrivePacket_keeps ..)
    | with_reducible refine Keeps.trans ?_ (freeBuffer_keeps ..)
    | fail_if_no_progress with_reducible refine Keeps.lit ?_ rfl rfl rfl rfl
    | fail_if_no_progress with_reducible refine Keeps.litMod ?_ rfl rfl rfl rfl rfl rfl rfl rfl rfl
    | split
    | fail_if_no_progress dsimp -zeta only
    | refine Keeps.lit ?_ rfl rfl rfl rfl
    | refine Keeps.litMod ?_ rfl rfl rfl rfl rfl rfl rfl rfl rfl
    | refine Keeps.litTo ?_ rfl rfl rfl rfl ⟨nofun, nofun⟩ rfl (fun h => h) rfl rfl)

theorem acceptData_keeps {F : Nat} (p h : Nat) (b : List Byte) (s : State) (hF : Within 0x40004010900002 F := by first | rfl | decide) : Keeps F s (acceptData p h b s) := by
  refine Keeps.mono hF ?_
  unfold acceptData
  repeat' (first
    | with_reducible exact Keeps.refl _
    | with_reducible assumption
    | intro _
    | (extract_lets +onlyGivenNames y
       refine Keeps.via (y := y) ?_ ?_
       on_goal 2 => (intro _; clear_value y)
       on_goal 1 => (dsimp -zeta only [y]; clear y))
    | fail_if_no_progress extract_lets +onlyGivenNames y
    | with_reducible refine Keeps.ite ?_ ?_
    | with_reducible refine Keeps.foldl ?_ ?_ _
    | with_reducible refine Keeps.trans ?_ (takeFlit_keeps ..)
    | with_reducible refine Keeps.trans ?_ (breakOff_keeps ..)
    | with_reducible refine Keeps.trans ?_ (freeBuffer_keeps ..)
    | with_reducible refine Keeps.trans ?_ (modPort_keeps ..)
    | with_reducible refine Keeps.trans ?_ (bump_keeps ..)
    | fail_if_no_progress with_reducible refine Keeps.lit ?_ rfl rfl rfl rfl
    | fail_if_no_progress with_reducible refine Keeps.litMod ?_ rfl rfl rfl rfl rfl rfl rfl rfl rfl
    | split
    | fail_if_no_progress dsimp -zeta only
    | refine Keeps.lit ?_ rfl rfl rfl rfl
    | refine Keeps.litMod ?_ rfl rfl rfl rfl rfl rfl rfl rfl rfl
    | refine Keeps.litTo ?_ rfl rfl rfl rfl ⟨nofun, nofun⟩ rfl (fun h => h) rfl rfl)

theorem modLane_keeps {F : Nat} (p w : Nat) (f : OptLane → OptLane) (s : State) (hF : Within 0x100000 F := by first | rfl | decide) : Keeps F s (modLane p w f s) := by
  refine Keeps.mono hF ?_
  unfold modLane
  repeat' (first
    | with_reducible exact Keeps.refl _
    | with_reducible assumption
    | intro _
    | fail_if_no_progress extract_lets +onlyGivenNames y
    | with_reducible refine Keeps.ite ?_ ?_
    | with_reducible refine Keeps.foldl ?_ ?_ _
    | with_reducible refine Keeps.trans ?_ (modPort_keeps ..))

theorem removeLane_keeps {F : Nat} (p k : Nat) (s : State) (hF : Within 0x40004012900002 F := by first | rfl | decide) : Keeps F s (removeLane p k s) := by
  refine Keeps.mono hF ?_
  unfold removeLane
  repeat' (first
    | with_reducible exact Keeps.refl _
    | with_reducible assumption
    | intro _
    | (extract_lets +onlyGivenNames y
       refine Keeps.via (y := y) ?_ ?_
       on_goal 2 => (intro _; clear_value y)
       on_goal 1 => (dsimp -zeta only [y]; clear y))
    | fail_if_no_progress extract_lets +onlyGivenNames y
    | with_reducible refine Keeps.ite ?_ ?_
    | with_reducible refine Keeps.foldl ?_ ?_ _
    | with_reducible refine Keeps.trans ?_ (modLane_keeps ..)
    | with_reducible refine Keeps.trans ?_ (linkLost_keeps ..)
    | with_reducible refine Keeps.trans ?_ (logLink_keeps ..)
    | with_reducible refine Keeps.trans ?_ (tellPeer_keeps ..)
    | with_reducible refine Keeps.trans ?_ (modPort_keeps ..)
    | with_reducible refine Keeps.trans ?_ (setFlag_keeps ..))

theorem peerRemoved_keeps {F : Nat} (p k : Nat) (s : State) (hF : Within 0x40004012900002 F := by first | rfl | decide) : Keeps F s (peerRemoved p k s) := by
  refine Keeps.mono hF ?_
  unfold peerRemoved
  repeat' (first
    | with_reducible exact Keeps.refl _
    | with_reducible assumption
    | intro _
    | (extract_lets +onlyGivenNames y
       refine Keeps.via (y := y) ?_ ?_
       on_goal 2 => (intro _; clear_value y)
       on_goal 1 => (dsimp -zeta only [y]; clear y))
    | fail_if_no_progress extract_lets +onlyGivenNames y
    | with_reducible refine Keeps.ite ?_ ?_
    | with_reducible refine Keeps.foldl ?_ ?_ _
    | with_reducible refine Keeps.trans ?_ (linkLost_keeps ..)
    | with_reducible refine Keeps.trans ?_ (logLink_keeps ..)
    | with_reducible refine Keeps.trans ?_ (modPort_keeps ..)
    | with_reducible refine Keeps.trans ?_ (setFlag_keeps ..)
    | fail_if_no_progress with_reducible refine Keeps.lit ?_ rfl rfl rfl rfl
    | fail_if_no_progress with_reducible refine Keeps.litMod ?_ rfl rfl rfl rfl rfl rfl rfl rfl rfl
    | split
    | fail_if_no_progress dsimp -zeta only
    | refine Keeps.lit ?_ rfl rfl rfl rfl
    | refine Keeps.litMod ?_ rfl rfl rfl rfl rfl rfl rfl rfl rfl
    | refine Keeps.litTo ?_ rfl rfl rfl rfl ⟨nofun, nofun⟩ rfl (fun h => h) rfl rfl)

theorem startTraining_keeps {F : Nat} (p : Nat) (s : State) (hF : Within 0x10100000 F := by first | rfl | decide) : Keeps F s (startTraining p s) := by
  refine Keeps.mono hF ?_
  unfold startTraining
  repeat' (first
    | with_reducible exact Keeps.refl _
    | with_reducible assumption
    | intro _
    | fail_if_no_progress extract_lets +onlyGivenNames y
    | with_reducible refine Keeps.ite ?_ ?_
    | with_reducible refine Keeps.foldl ?_ ?_ _
    | with_reducible refine Keeps.trans ?_ (tellPeer_keeps ..)
    | with_reducible refine Keeps.trans ?_ (modPort_keeps ..))

theorem trainFail_keeps {F : Nat} (p code : Nat) (s : State) (hF : Within 0x40004012900002 F := by first | rfl | decide) : Keeps F s (trainFail p code s) := by
  refine Keeps.mono hF ?_
  have h1 : Keeps 0x40004012900002 s (logLink code p 0 (setFlag .opt (if code = 0x0806 then 7 else 6) s)) := Keeps.trans (setFlag_keeps ..) (logLink_keeps ..)
  exact h1.trans (leaveLink_keeps ..)

theorem retrainPort_keeps {F : Nat} (p : Nat) (s : State) (hF : Within 0x40004012900002 F := by first | rfl | decide) : Keeps F s (retrainPort p s) := by
  refine Keeps.mono hF ?_
  unfold retrainPort
  repeat' (first
    | with_reducible exact Keeps.refl _
    | with_reducible assumption
    | intro _
    | fail_if_no_progress extract_lets +onlyGivenNames y
    | with_reducible refine Keeps.ite ?_ ?_
    | with_reducible refine Keeps.foldl ?_ ?_ _
    | with_reducible refine Keeps.trans ?_ (startTraining_keeps ..)
    | with_reducible refine Keeps.trans ?_ (linkLost_keeps ..))

theorem modBay_keeps {F : Nat} (b : Nat) (f : Bay → Bay) (s : State) (hF : Within 0x200000 F := by first | rfl | decide) : Keeps F s (modBay b f s) := by
  refine Keeps.mono hF ?_
  unfold modBay
  repeat' (first
    | with_reducible exact Keeps.refl _
    | with_reducible assumption
    | intro _
    | fail_if_no_progress extract_lets +onlyGivenNames y
    | with_reducible refine Keeps.ite ?_ ?_
    | with_reducible refine Keeps.foldl ?_ ?_ _
    | fail_if_no_progress with_reducible refine Keeps.lit ?_ rfl rfl rfl rfl)

theorem refreshSpare_keeps {F : Nat} (s : State) (hF : Within 0x200000 F := by first | rfl | decide) : Keeps F s (refreshSpare s) := by
  refine Keeps.mono hF ?_
  unfold refreshSpare
  repeat' (first
    | with_reducible exact Keeps.refl _
    | with_reducible assumption
    | intro _
    | fail_if_no_progress extract_lets +onlyGivenNames y
    | with_reducible refine Keeps.ite ?_ ?_
    | with_reducible refine Keeps.foldl ?_ ?_ _
    | fail_if_no_progress with_reducible refine Keeps.lit ?_ rfl rfl rfl rfl)

theorem darken_keeps {F : Nat} (spare : Bool) (p : Nat) (s : State) (hF : Within 0x40004012900002 F := by first | rfl | decide) : Keeps F s (darken spare p s) := by
  refine Keeps.mono hF ?_
  unfold darken
  have h := linkLost_keeps p 0x0801 s (F := 0x40004012900002)
  exact Keeps.ite (Keeps.ite h (h.trans (leaveLink_keeps ..))) (Keeps.ite (trainFail_keeps ..) (Keeps.refl s))

theorem endTransfer_keeps {F : Nat} (result : Nat) (s : State) (hF : Within 0x40004012b00002 F := by first | rfl | decide) : Keeps F s (endTransfer result s) := by
  refine Keeps.mono hF ?_
  unfold endTransfer
  repeat' (first
    | with_reducible exact Keeps.refl _
    | with_reducible assumption
    | intro _
    | (extract_lets +onlyGivenNames y
       refine Keeps.via (y := y) ?_ ?_
       on_goal 2 => (intro _; clear_value y)
       on_goal 1 => (dsimp -zeta only [y]; clear y))
    | fail_if_no_progress extract_lets +onlyGivenNames y
    | with_reducible refine Keeps.ite ?_ ?_
    | with_reducible refine Keeps.foldl ?_ ?_ _
    | with_reducible refine Keeps.trans ?_ (leaveHold_keeps ..)
    | fail_if_no_progress with_reducible refine Keeps.lit ?_ rfl rfl rfl rfl
    | fail_if_no_progress with_reducible refine Keeps.litMod ?_ rfl rfl rfl rfl rfl rfl rfl rfl rfl
    | split
    | fail_if_no_progress dsimp -zeta only
    | refine Keeps.lit ?_ rfl rfl rfl rfl
    | refine Keeps.litMod ?_ rfl rfl rfl rfl rfl rfl rfl rfl rfl
    | refine Keeps.litTo ?_ rfl rfl rfl rfl ⟨nofun, nofun⟩ rfl (fun h => h) rfl rfl)

theorem failGroup_keeps {F : Nat} (g : Nat) (s : State) (hF : Within 0x40004012b00002 F := by first | rfl | decide) : Keeps F s (failGroup g s) := by
  refine Keeps.mono hF ?_
  unfold failGroup
  repeat' (first
    | with_reducible exact Keeps.refl _
    | with_reducible assumption
    | intro _
    | (extract_lets +onlyGivenNames y
       refine Keeps.via (y := y) ?_ ?_
       on_goal 2 => (intro _; clear_value y)
       on_goal 1 => (dsimp -zeta only [y]; clear y))
    | fail_if_no_progress extract_lets +onlyGivenNames y
    | with_reducible refine Keeps.ite ?_ ?_
    | with_reducible refine Keeps.foldl ?_ ?_ _
    | with_reducible refine Keeps.trans ?_ (darken_keeps ..)
    | fail_if_no_progress with_reducible refine Keeps.lit ?_ rfl rfl rfl rfl
    | fail_if_no_progress with_reducible refine Keeps.litMod ?_ rfl rfl rfl rfl rfl rfl rfl rfl rfl
    | split)

theorem bayFault_keeps {F : Nat} (b : Nat) (s : State) (hF : Within 0x40004012b00002 F := by first | rfl | decide) : Keeps F s (bayFault b s) := by
  refine Keeps.mono hF ?_
  unfold bayFault
  repeat' (first
    | with_reducible exact Keeps.refl _
    | with_reducible assumption
    | intro _
    | (extract_lets +onlyGivenNames y
       refine Keeps.via (y := y) ?_ ?_
       on_goal 2 => (intro _; clear_value y)
       on_goal 1 => (dsimp -zeta only [y]; clear y))
    | fail_if_no_progress extract_lets +onlyGivenNames y
    | with_reducible refine Keeps.ite ?_ ?_
    | with_reducible refine Keeps.foldl ?_ ?_ _
    | with_reducible refine Keeps.trans ?_ (failGroup_keeps ..)
    | with_reducible refine Keeps.trans ?_ (endTransfer_keeps ..)
    | with_reducible refine Keeps.trans ?_ (refreshSpare_keeps ..)
    | with_reducible refine Keeps.trans ?_ (logEntry_keeps ..)
    | with_reducible refine Keeps.trans ?_ (setFlag_keeps ..)
    | fail_if_no_progress with_reducible refine Keeps.lit ?_ rfl rfl rfl rfl
    | fail_if_no_progress with_reducible refine Keeps.litMod ?_ rfl rfl rfl rfl rfl rfl rfl rfl rfl
    | split
    | fail_if_no_progress dsimp -zeta only
    | refine Keeps.lit ?_ rfl rfl rfl rfl
    | refine Keeps.litMod ?_ rfl rfl rfl rfl rfl rfl rfl rfl rfl
    | refine Keeps.litTo ?_ rfl rfl rfl rfl ⟨nofun, nofun⟩ rfl (fun h => h) rfl rfl)

theorem baysAtPower_keeps {F : Nat} (s : State) (hF : Within 0x200000 F := by first | rfl | decide) : Keeps F s (baysAtPower s) := by
  refine Keeps.mono hF ?_
  unfold baysAtPower
  repeat' (first
    | with_reducible exact Keeps.refl _
    | with_reducible assumption
    | intro _
    | fail_if_no_progress extract_lets +onlyGivenNames y
    | with_reducible refine Keeps.ite ?_ ?_
    | with_reducible refine Keeps.foldl ?_ ?_ _
    | with_reducible refine Keeps.trans ?_ (modBay_keeps ..)
    | fail_if_no_progress with_reducible refine Keeps.lit ?_ rfl rfl rfl rfl)

theorem baysDark_keeps {F : Nat} (s : State) (hF : Within 0x200000 F := by first | rfl | decide) : Keeps F s (baysDark s) := by
  refine Keeps.mono hF ?_
  unfold baysDark
  repeat' (first
    | with_reducible exact Keeps.refl _
    | with_reducible assumption
    | intro _
    | fail_if_no_progress extract_lets +onlyGivenNames y
    | with_reducible refine Keeps.ite ?_ ?_
    | with_reducible refine Keeps.foldl ?_ ?_ _
    | with_reducible refine Keeps.trans ?_ (modBay_keeps ..)
    | fail_if_no_progress with_reducible refine Keeps.lit ?_ rfl rfl rfl rfl)

end Sys2Proof.Machine
end

