-- ==== Sys2Proof/Laws/KeepsRdxOps.lean ====
section
/-!
SUPPORT. What the operations of Machine/RdxOps.lean keep.
-/
set_option Elab.async false

namespace Sys2Proof.Machine

theorem modGroup_keeps {F : Nat} (ctx : Nat) (f : Group → Group) (s : State) (hF : Within 0x1000000 F := by first | rfl | decide) : Keeps F s (modGroup ctx f s) := by
  refine Keeps.mono hF ?_
  unfold modGroup
  repeat' (first
    | with_reducible exact Keeps.refl _
    | with_reducible assumption
    | intro _
    | fail_if_no_progress extract_lets +onlyGivenNames y
    | with_reducible refine Keeps.ite ?_ ?_
    | with_reducible refine Keeps.foldl ?_ ?_ _
    | fail_if_no_progress with_reducible refine Keeps.lit ?_ rfl rfl rfl rfl)

theorem modPair_keeps {F : Nat} (f : Pair → Pair) (s : State) (hF : Within 0x2000000 F := by first | rfl | decide) : Keeps F s (modPair f s) := by
  refine Keeps.mono hF ?_
  unfold modPair
  repeat' (first
    | with_reducible exact Keeps.refl _
    | with_reducible assumption
    | intro _
    | fail_if_no_progress extract_lets +onlyGivenNames y
    | with_reducible refine Keeps.ite ?_ ?_
    | with_reducible refine Keeps.foldl ?_ ?_ _
    | fail_if_no_progress with_reducible refine Keeps.lit ?_ rfl rfl rfl rfl)

theorem addExch_keeps {F : Nat} (ctx : Nat) (f : ExchCounts → ExchCounts) (s : State) (hF : Within 0x8000 F := by first | rfl | decide) : Keeps F s (addExch ctx f s) := by
  refine Keeps.mono hF ?_
  unfold addExch
  repeat' (first
    | with_reducible exact Keeps.refl _
    | with_reducible assumption
    | intro _
    | fail_if_no_progress extract_lets +onlyGivenNames y
    | with_reducible refine Keeps.ite ?_ ?_
    | with_reducible refine Keeps.foldl ?_ ?_ _
    | with_reducible refine Keeps.trans ?_ (modOpen_keeps ..))

theorem countSent_keeps {F : Nat} (ctx : Option Nat) (pks : List (List Byte)) (s : State) (hF : Within 0x20000000008000 F := by first | rfl | decide) : Keeps F s (countSent ctx pks s) := by
  refine Keeps.mono hF ?_
  unfold countSent
  repeat' (first
    | with_reducible exact Keeps.refl _
    | with_reducible assumption
    | intro _
    | (extract_lets +onlyGivenNames y
       refine Keeps.via (y := y) ?_ ?_
       on_goal 2 => (intro _; clear_value y)
       on_goal 1 => (dsimp -zeta only [y]; clear y))
    | fail_if_no_progress extract_lets +onlyGivenNames y
    | with_reducible refine Keeps.ite ?_ ?_
    | with_reducible refine Keeps.foldl ?_ ?_ _
    | with_reducible refine Keeps.trans ?_ (addExch_keeps ..)
    | with_reducible refine Keeps.trans ?_ (bump_keeps ..)
    | fail_if_no_progress with_reducible refine Keeps.lit ?_ rfl rfl rfl rfl
    | fail_if_no_progress with_reducible refine Keeps.litMod ?_ rfl rfl rfl rfl rfl rfl rfl rfl rfl
    | split)

theorem sendRouted_keeps {F : Nat} (ctx : Option Nat) (h : MsgHead) (body : List Byte) (s : State) (hF : Within 0x60004010908002 F := by first | rfl | decide) : Keeps F s (sendRouted ctx h body s) := by
  refine Keeps.mono hF ?_
  unfold sendRouted
  repeat' (first
    | with_reducible exact Keeps.refl _
    | with_reducible assumption
    | intro _
    | (extract_lets +onlyGivenNames y
       refine Keeps.via (y := y) ?_ ?_
       on_goal 2 => (intro _; clear_value y)
       on_goal 1 => (dsimp -zeta only [y]; clear y))
    | fail_if_no_progress extract_lets +onlyGivenNames y
    | with_reducible refine Keeps.ite ?_ ?_
    | with_reducible refine Keeps.foldl ?_ ?_ _
    | with_reducible refine Keeps.trans ?_ (countSent_keeps ..)
    | with_reducible refine Keeps.trans ?_ (routePacket_keeps ..)
    | fail_if_no_progress with_reducible refine Keeps.lit ?_ rfl rfl rfl rfl
    | fail_if_no_progress with_reducible refine Keeps.litMod ?_ rfl rfl rfl rfl rfl rfl rfl rfl rfl
    | split
    | fail_if_no_progress dsimp -zeta only
    | refine Keeps.lit ?_ rfl rfl rfl rfl
    | refine Keeps.litMod ?_ rfl rfl rfl rfl rfl rfl rfl rfl rfl
    | refine Keeps.litTo ?_ rfl rfl rfl rfl ⟨nofun, nofun⟩ rfl (fun h => h) rfl rfl)

theorem pumpPair_keeps {F : Nat} (s : State) (hF : Within 0x40004012900002 F := by first | rfl | decide) : Keeps F s (pumpPair s) := by
  refine Keeps.mono hF ?_
  unfold pumpPair
  repeat' (first
    | with_reducible exact Keeps.refl _
    | with_reducible assumption
    | intro _
    | (extract_lets +onlyGivenNames y
       refine Keeps.via (y := y) ?_ ?_
       on_goal 2 => (intro _; clear_value y)
       on_goal 1 => (dsimp -zeta only [y]; clear y))
    | fail_if_no_progress extract_lets +onlyGivenNames y
    | with_reducible refine Keeps.ite ?_ ?_
    | with_reducible refine Keeps.foldl ?_ ?_ _
    | with_reducible refine Keeps.trans ?_ (modPair_keeps ..)
    | with_reducible refine Keeps.trans ?_ (routePacket_keeps ..)
    | with_reducible refine Keeps.trans ?_ (queueOn_keeps ..)
    | fail_if_no_progress with_reducible refine Keeps.lit ?_ rfl rfl rfl rfl
    | fail_if_no_progress with_reducible refine Keeps.litMod ?_ rfl rfl rfl rfl rfl rfl rfl rfl rfl
    | split
    | fail_if_no_progress dsimp -zeta only
    | refine Keeps.lit ?_ rfl rfl rfl rfl
    | refine Keeps.litMod ?_ rfl rfl rfl rfl rfl rfl rfl rfl rfl
    | refine Keeps.litTo ?_ rfl rfl rfl rfl ⟨nofun, nofun⟩ rfl (fun h => h) rfl rfl)

theorem sendPair_keeps {F : Nat} (ctx : Option Nat) (h : MsgHead) (body : List Byte) (s : State) (hF : Within 0x60004012908002 F := by first | rfl | decide) : Keeps F s (sendPair ctx h body s) := by
  refine Keeps.mono hF ?_
  unfold sendPair
  repeat' (first
    | with_reducible exact Keeps.refl _
    | with_reducible assumption
    | intro _
    | fail_if_no_progress extract_lets +onlyGivenNames y
    | with_reducible refine Keeps.ite ?_ ?_
    | with_reducible refine Keeps.foldl ?_ ?_ _
    | with_reducible refine Keeps.trans ?_ (pumpPair_keeps ..)
    | with_reducible refine Keeps.trans ?_ (countSent_keeps ..)
    | with_reducible refine Keeps.trans ?_ (modPair_keeps ..))

theorem sendRank_keeps {F : Nat} (ctx type rank part tag step : Nat) (body : List Byte) (s : State) (hF : Within 0x60004010908002 F := by first | rfl | decide) : Keeps F s (sendRank ctx type rank part tag step body s) := by
  refine Keeps.mono hF ?_
  unfold sendRank
  repeat' (first
    | with_reducible exact Keeps.refl _
    | with_reducible assumption
    | intro _
    | fail_if_no_progress extract_lets +onlyGivenNames y
    | with_reducible refine Keeps.ite ?_ ?_
    | with_reducible refine Keeps.foldl ?_ ?_ _
    | with_reducible refine Keeps.trans ?_ (sendRouted_keeps ..)
    | fail_if_no_progress with_reducible refine Keeps.lit ?_ rfl rfl rfl rfl
    | fail_if_no_progress with_reducible refine Keeps.litMod ?_ rfl rfl rfl rfl rfl rfl rfl rfl rfl
    | split)

theorem sendPartner_keeps {F : Nat} (ctx type part tag step : Nat) (body : List Byte) (s : State) (hF : Within 0x60004012908002 F := by first | rfl | decide) : Keeps F s (sendPartner ctx type part tag step body s) := by
  refine Keeps.mono hF ?_
  unfold sendPartner
  repeat' (first
    | with_reducible exact Keeps.refl _
    | with_reducible assumption
    | intro _
    | fail_if_no_progress extract_lets +onlyGivenNames y
    | with_reducible refine Keeps.ite ?_ ?_
    | with_reducible refine Keeps.foldl ?_ ?_ _
    | with_reducible refine Keeps.trans ?_ (sendPair_keeps ..))

theorem sendNotice_keeps {F : Nat} (ctx dest : Nat) (s : State) (hF : Within 0x60004010908002 F := by first | rfl | decide) : Keeps F s (sendNotice ctx dest s) := by
  refine Keeps.mono hF ?_
  unfold sendNotice
  repeat' (first
    | with_reducible exact Keeps.refl _
    | with_reducible assumption
    | intro _
    | fail_if_no_progress extract_lets +onlyGivenNames y
    | with_reducible refine Keeps.ite ?_ ?_
    | with_reducible refine Keeps.foldl ?_ ?_ _
    | with_reducible refine Keeps.trans ?_ (sendRouted_keeps ..))

theorem sendNotices_keeps {F : Nat} (ctx : Nat) (s : State) (hF : Within 0x60004010908002 F := by first | rfl | decide) : Keeps F s (sendNotices ctx s) := by
  refine Keeps.mono hF ?_
  unfold sendNotices
  repeat' (first
    | with_reducible exact Keeps.refl _
    | with_reducible assumption
    | intro _
    | fail_if_no_progress extract_lets +onlyGivenNames y
    | with_reducible refine Keeps.ite ?_ ?_
    | with_reducible refine Keeps.foldl ?_ ?_ _
    | with_reducible refine Keeps.trans ?_ (sendNotice_keeps ..)
    | fail_if_no_progress with_reducible refine Keeps.lit ?_ rfl rfl rfl rfl
    | fail_if_no_progress with_reducible refine Keeps.litMod ?_ rfl rfl rfl rfl rfl rfl rfl rfl rfl
    | split)

theorem sendFencedNotice_keeps {F : Nat} (ctx dest : Nat) (s : State) (hF : Within 0x60006010908002 F := by first | rfl | decide) : Keeps F s (sendFencedNotice ctx dest s) := by
  refine Keeps.mono hF ?_
  unfold sendFencedNotice
  repeat' (first
    | with_reducible exact Keeps.refl _
    | with_reducible assumption
    | intro _
    | fail_if_no_progress extract_lets +onlyGivenNames y
    | with_reducible refine Keeps.ite ?_ ?_
    | with_reducible refine Keeps.foldl ?_ ?_ _
    | with_reducible refine Keeps.trans ?_ (sendRouted_keeps ..)
    | with_reducible refine Keeps.trans ?_ (setFlag_keeps ..))

theorem replyTo_keeps {F : Nat} (addr : Nat) (k : State → State) (s : State) (hk : ∀ s, Keeps F s (k s)) (hF : Within 0x8000000 F := by first | rfl | decide) : Keeps F s (replyTo addr k s) := by
  unfold replyTo
  repeat' (first
    | with_reducible exact Keeps.refl _
    | with_reducible assumption
    | intro _
    | fail_if_no_progress extract_lets +onlyGivenNames y
    | with_reducible refine Keeps.ite ?_ ?_
    | with_reducible refine Keeps.foldl ?_ ?_ _
    | with_reducible refine Keeps.trans ?_ (hk ..)
    | fail_if_no_progress with_reducible refine Keeps.trans ?_ (Keeps.mono hF (Keeps.lit (Keeps.refl _) rfl rfl rfl rfl)))

theorem sendHeartbeat_keeps {F : Nat} (s : State) (hF : Within 0x60000010108000 F := by first | rfl | decide) : Keeps F s (sendHeartbeat s) := by
  refine Keeps.mono hF ?_
  unfold sendHeartbeat
  repeat' (first
    | with_reducible exact Keeps.refl _
    | with_reducible assumption
    | intro _
    | (extract_lets +onlyGivenNames y
       refine Keeps.via (y := y) ?_ ?_
       on_goal 2 => (intro _; clear_value y)
       on_goal 1 => (dsimp -zeta only [y]; clear y))
    | fail_if_no_progress extract_lets +onlyGivenNames y
    | with_reducible refine Keeps.ite ?_ ?_
    | with_reducible refine Keeps.foldl ?_ ?_ _
    | with_reducible refine Keeps.trans ?_ (countSent_keeps ..)
    | with_reducible refine Keeps.trans ?_ (queueOn_keeps ..)
    | fail_if_no_progress with_reducible refine Keeps.lit ?_ rfl rfl rfl rfl
    | fail_if_no_progress with_reducible refine Keeps.litMod ?_ rfl rfl rfl rfl rfl rfl rfl rfl rfl
    | split
    | fail_if_no_progress dsimp -zeta only
    | refine Keeps.lit ?_ rfl rfl rfl rfl
    | refine Keeps.litMod ?_ rfl rfl rfl rfl rfl rfl rfl rfl rfl
    | refine Keeps.litTo ?_ rfl rfl rfl rfl ⟨nofun, nofun⟩ rfl (fun h => h) rfl rfl)

theorem sendProbe_keeps {F : Nat} (p : Nat) (designated : Bool) (s : State) (hF : Within 0x60000010108000 F := by first | rfl | decide) : Keeps F s (sendProbe p designated s) := by
  refine Keeps.mono hF ?_
  unfold sendProbe
  repeat' (first
    | with_reducible exact Keeps.refl _
    | with_reducible assumption
    | intro _
    | (extract_lets +onlyGivenNames y
       refine Keeps.via (y := y) ?_ ?_
       on_goal 2 => (intro _; clear_value y)
       on_goal 1 => (dsimp -zeta only [y]; clear y))
    | fail_if_no_progress extract_lets +onlyGivenNames y
    | with_reducible refine Keeps.ite ?_ ?_
    | with_reducible refine Keeps.foldl ?_ ?_ _
    | with_reducible refine Keeps.trans ?_ (countSent_keeps ..)
    | with_reducible refine Keeps.trans ?_ (queueOn_keeps ..)
    | fail_if_no_progress with_reducible refine Keeps.lit ?_ rfl rfl rfl rfl
    | fail_if_no_progress with_reducible refine Keeps.litMod ?_ rfl rfl rfl rfl rfl rfl rfl rfl rfl
    | split
    | fail_if_no_progress dsimp -zeta only
    | refine Keeps.lit ?_ rfl rfl rfl rfl
    | refine Keeps.litMod ?_ rfl rfl rfl rfl rfl rfl rfl rfl rfl
    | refine Keeps.litTo ?_ rfl rfl rfl rfl ⟨nofun, nofun⟩ rfl (fun h => h) rfl rfl)

theorem setBucket_keeps {F : Nat} (ctx tag : Nat) (b : Bucket) (s : State) (hF : Within 0x8000 F := by first | rfl | decide) : Keeps F s (setBucket ctx tag b s) := by
  refine Keeps.mono hF ?_
  unfold setBucket
  repeat' (first
    | with_reducible exact Keeps.refl _
    | with_reducible assumption
    | intro _
    | fail_if_no_progress extract_lets +onlyGivenNames y
    | with_reducible refine Keeps.ite ?_ ?_
    | with_reducible refine Keeps.foldl ?_ ?_ _
    | with_reducible refine Keeps.trans ?_ (modOpen_keeps ..))

theorem modBucket_keeps {F : Nat} (ctx tag : Nat) (f : Bucket → Bucket) (s : State) (hF : Within 0x8000 F := by first | rfl | decide) : Keeps F s (modBucket ctx tag f s) := by
  refine Keeps.mono hF ?_
  unfold modBucket
  repeat' (first
    | with_reducible exact Keeps.refl _
    | with_reducible assumption
    | intro _
    | fail_if_no_progress extract_lets +onlyGivenNames y
    | with_reducible refine Keeps.ite ?_ ?_
    | with_reducible refine Keeps.foldl ?_ ?_ _
    | with_reducible refine Keeps.trans ?_ (setBucket_keeps ..)
    | fail_if_no_progress with_reducible refine Keeps.lit ?_ rfl rfl rfl rfl
    | fail_if_no_progress with_reducible refine Keeps.litMod ?_ rfl rfl rfl rfl rfl rfl rfl rfl rfl
    | split)

theorem noteContrib_keeps {F : Nat} (ctx : Nat) (k : Bucket) (parts : Nat) (s : State) (hF : Within 0x80008000000442 F := by first | rfl | decide) : Keeps F s (noteContrib ctx k parts s) := by
  refine Keeps.mono hF ?_
  unfold noteContrib
  repeat' (first
    | with_reducible exact Keeps.refl _
    | with_reducible assumption
    | intro _
    | (extract_lets +onlyGivenNames y
       refine Keeps.via (y := y) ?_ ?_
       on_goal 2 => (intro _; clear_value y)
       on_goal 1 => (dsimp -zeta only [y]; clear y))
    | fail_if_no_progress extract_lets +onlyGivenNames y
    | with_reducible refine Keeps.ite ?_ ?_
    | with_reducible refine Keeps.foldl ?_ ?_ _
    | with_reducible refine Keeps.trans ?_ (noteRead_keeps ..)
    | fail_if_no_progress with_reducible refine Keeps.lit ?_ rfl rfl rfl rfl
    | fail_if_no_progress with_reducible refine Keeps.litMod ?_ rfl rfl rfl rfl rfl rfl rfl rfl rfl
    | split
    | fail_if_no_progress dsimp -zeta only
    | refine Keeps.lit ?_ rfl rfl rfl rfl
    | refine Keeps.litMod ?_ rfl rfl rfl rfl rfl rfl rfl rfl rfl
    | refine Keeps.litTo ?_ rfl rfl rfl rfl ⟨nofun, nofun⟩ rfl (fun h => h) rfl rfl)

theorem dropBucketWork_keeps {F : Nat} (ctx tag : Nat) (s : State) (hF : Within 0x5000000 F := by first | rfl | decide) : Keeps F s (dropBucketWork ctx tag s) := by
  refine Keeps.mono hF ?_
  unfold dropBucketWork
  repeat' (first
    | with_reducible exact Keeps.refl _
    | with_reducible assumption
    | intro _
    | (extract_lets +onlyGivenNames y
       refine Keeps.via (y := y) ?_ ?_
       on_goal 2 => (intro _; clear_value y)
       on_goal 1 => (dsimp -zeta only [y]; clear y))
    | fail_if_no_progress extract_lets +onlyGivenNames y
    | with_reducible refine Keeps.ite ?_ ?_
    | with_reducible refine Keeps.foldl ?_ ?_ _
    | with_reducible refine Keeps.trans ?_ (modGroup_keeps ..)
    | fail_if_no_progress with_reducible refine Keeps.lit ?_ rfl rfl rfl rfl)

theorem endDescriptor_keeps {F : Nat} (ctx tag status : Nat) (s : State) (hF : Within 0x1000110048040 F := by first | rfl | decide) : Keeps F s (endDescriptor ctx tag status s) := by
  refine Keeps.mono hF ?_
  unfold endDescriptor
  repeat' (first
    | with_reducible exact Keeps.refl _
    | with_reducible assumption
    | intro _
    | (extract_lets +onlyGivenNames y
       refine Keeps.via (y := y) ?_ ?_
       on_goal 2 => (intro _; clear_value y)
       on_goal 1 => (dsimp -zeta only [y]; clear y))
    | fail_if_no_progress extract_lets +onlyGivenNames y
    | with_reducible refine Keeps.ite ?_ ?_
    | with_reducible refine Keeps.foldl ?_ ?_ _
    | with_reducible refine Keeps.trans ?_ (setBucket_keeps ..)
    | with_reducible refine Keeps.trans ?_ (emitHist_keeps ..)
    | with_reducible refine Keeps.trans ?_ (completeWith_keeps ..)
    | fail_if_no_progress with_reducible refine Keeps.lit ?_ rfl rfl rfl rfl
    | fail_if_no_progress with_reducible refine Keeps.litMod ?_ rfl rfl rfl rfl rfl rfl rfl rfl rfl
    | split
    | fail_if_no_progress dsimp -zeta only
    | refine Keeps.lit ?_ rfl rfl rfl rfl
    | refine Keeps.litMod ?_ rfl rfl rfl rfl rfl rfl rfl rfl rfl
    | refine Keeps.litTo ?_ rfl rfl rfl rfl ⟨nofun, nofun⟩ rfl (fun h => h) rfl rfl)

theorem abortBucket_keeps {F : Nat} (ctx tag : Nat) (s : State) (hF : Within 0x61006115948042 F := by first | rfl | decide) : Keeps F s (abortBucket ctx tag s) := by
  refine Keeps.mono hF ?_
  unfold abortBucket
  repeat' (first
    | with_reducible exact Keeps.refl _
    | with_reducible assumption
    | intro _
    | (extract_lets +onlyGivenNames y
       refine Keeps.via (y := y) ?_ ?_
       on_goal 2 => (intro _; clear_value y)
       on_goal 1 => (dsimp -zeta only [y]; clear y))
    | fail_if_no_progress extract_lets +onlyGivenNames y
    | with_reducible refine Keeps.ite ?_ ?_
    | with_reducible refine Keeps.foldl ?_ ?_ _
    | with_reducible refine Keeps.trans ?_ (endDescriptor_keeps ..)
    | with_reducible refine Keeps.trans ?_ (dropBucketWork_keeps ..)
    | with_reducible refine Keeps.trans ?_ (setBucket_keeps ..)
    | with_reducible refine Keeps.trans ?_ (sendRank_keeps ..)
    | with_reducible refine Keeps.trans ?_ (logEntry_keeps ..)
    | with_reducible refine Keeps.trans ?_ (bump_keeps ..)
    | with_reducible refine Keeps.trans ?_ (setFlag_keeps ..)
    | fail_if_no_progress with_reducible refine Keeps.lit ?_ rfl rfl rfl rfl
    | fail_if_no_progress with_reducible refine Keeps.litMod ?_ rfl rfl rfl rfl rfl rfl rfl rfl rfl
    | split)

theorem modCrz_keeps {F : Nat} (u : Nat) (f : CrzUnit → CrzUnit) (s : State) (hF : Within 0x4000000 F := by first | rfl | decide) : Keeps F s (modCrz u f s) := by
  refine Keeps.mono hF ?_
  unfold modCrz
  repeat' (first
    | with_reducible exact Keeps.refl _
    | with_reducible assumption
    | intro _
    | fail_if_no_progress extract_lets +onlyGivenNames y
    | with_reducible refine Keeps.ite ?_ ?_
    | with_reducible refine Keeps.foldl ?_ ?_ _
    | fail_if_no_progress with_reducible refine Keeps.lit ?_ rfl rfl rfl rfl)

theorem queueSums_keeps {F : Nat} (ctx tag unit parts : Nat) (s : State) (hF : Within 0x4000000 F := by first | rfl | decide) : Keeps F s (queueSums ctx tag unit parts s) := by
  refine Keeps.mono hF ?_
  unfold queueSums
  repeat' (first
    | with_reducible exact Keeps.refl _
    | with_reducible assumption
    | intro _
    | (extract_lets +onlyGivenNames y
       refine Keeps.via (y := y) ?_ ?_
       on_goal 2 => (intro _; clear_value y)
       on_goal 1 => (dsimp -zeta only [y]; clear y))
    | fail_if_no_progress extract_lets +onlyGivenNames y
    | with_reducible refine Keeps.ite ?_ ?_
    | with_reducible refine Keeps.foldl ?_ ?_ _
    | with_reducible refine Keeps.trans ?_ (modCrz_keeps ..)
    | fail_if_no_progress with_reducible refine Keeps.lit ?_ rfl rfl rfl rfl
    | fail_if_no_progress with_reducible refine Keeps.litMod ?_ rfl rfl rfl rfl rfl rfl rfl rfl rfl
    | split
    | fail_if_no_progress dsimp -zeta only
    | refine Keeps.lit ?_ rfl rfl rfl rfl
    | refine Keeps.litMod ?_ rfl rfl rfl rfl rfl rfl rfl rfl rfl
    | refine Keeps.litTo ?_ rfl rfl rfl rfl ⟨nofun, nofun⟩ rfl (fun h => h) rfl rfl)

theorem dropSums_keeps {F : Nat} (ctx tag keep : Nat) (s : State) (hF : Within 0x4000000 F := by first | rfl | decide) : Keeps F s (dropSums ctx tag keep s) := by
  refine Keeps.mono hF ?_
  unfold dropSums
  repeat' (first
    | with_reducible exact Keeps.refl _
    | with_reducible assumption
    | intro _
    | (extract_lets +onlyGivenNames y
       refine Keeps.via (y := y) ?_ ?_
       on_goal 2 => (intro _; clear_value y)
       on_goal 1 => (dsimp -zeta only [y]; clear y))
    | fail_if_no_progress extract_lets +onlyGivenNames y
    | with_reducible refine Keeps.ite ?_ ?_
    | with_reducible refine Keeps.foldl ?_ ?_ _
    | fail_if_no_progress with_reducible refine Keeps.lit ?_ rfl rfl rfl rfl
    | fail_if_no_progress with_reducible refine Keeps.litMod ?_ rfl rfl rfl rfl rfl rfl rfl rfl rfl
    | split
    | fail_if_no_progress dsimp -zeta only
    | refine Keeps.lit ?_ rfl rfl rfl rfl
    | refine Keeps.litMod ?_ rfl rfl rfl rfl rfl rfl rfl rfl rfl
    | refine Keeps.litTo ?_ rfl rfl rfl rfl ⟨nofun, nofun⟩ rfl (fun h => h) rfl rfl)

theorem unstage_keeps {F : Nat} (ctx tag step rank parts : Nat) (s : State) (hF : Within 0x1000000 F := by first | rfl | decide) : Keeps F s (unstage ctx tag step rank parts s) := by
  refine Keeps.mono hF ?_
  unfold unstage
  repeat' (first
    | with_reducible exact Keeps.refl _
    | with_reducible assumption
    | intro _
    | (extract_lets +onlyGivenNames y
       refine Keeps.via (y := y) ?_ ?_
       on_goal 2 => (intro _; clear_value y)
       on_goal 1 => (dsimp -zeta only [y]; clear y))
    | fail_if_no_progress extract_lets +onlyGivenNames y
    | with_reducible refine Keeps.ite ?_ ?_
    | with_reducible refine Keeps.foldl ?_ ?_ _
    | with_reducible refine Keeps.trans ?_ (modGroup_keeps ..)
    | fail_if_no_progress with_reducible refine Keeps.lit ?_ rfl rfl rfl rfl
    | fail_if_no_progress with_reducible refine Keeps.litMod ?_ rfl rfl rfl rfl rfl rfl rfl rfl rfl
    | split
    | fail_if_no_progress dsimp -zeta only
    | refine Keeps.lit ?_ rfl rfl rfl rfl
    | refine Keeps.litMod ?_ rfl rfl rfl rfl rfl rfl rfl rfl rfl
    | refine Keeps.litTo ?_ rfl rfl rfl rfl ⟨nofun, nofun⟩ rfl (fun h => h) rfl rfl)

theorem noteLate_keeps {F : Nat} (ctx tag rank step epoch : Nat) (s : State) (hF : Within 0x20000001008002 F := by first | rfl | decide) : Keeps F s (noteLate ctx tag rank step epoch s) := by
  refine Keeps.mono hF ?_
  unfold noteLate
  repeat' (first
    | with_reducible exact Keeps.refl _
    | with_reducible assumption
    | intro _
    | (extract_lets +onlyGivenNames y
       refine Keeps.via (y := y) ?_ ?_
       on_goal 2 => (intro _; clear_value y)
       on_goal 1 => (dsimp -zeta only [y]; clear y))
    | fail_if_no_progress extract_lets +onlyGivenNames y
    | with_reducible refine Keeps.ite ?_ ?_
    | with_reducible refine Keeps.foldl ?_ ?_ _
    | with_reducible refine Keeps.trans ?_ (modBucket_keeps ..)
    | with_reducible refine Keeps.trans ?_ (addExch_keeps ..)
    | with_reducible refine Keeps.trans ?_ (modGroup_keeps ..)
    | with_reducible refine Keeps.trans ?_ (logEntry_keeps ..)
    | with_reducible refine Keeps.trans ?_ (bump_keeps ..)
    | fail_if_no_progress with_reducible refine Keeps.lit ?_ rfl rfl rfl rfl
    | fail_if_no_progress with_reducible refine Keeps.litMod ?_ rfl rfl rfl rfl rfl rfl rfl rfl rfl
    | split
    | fail_if_no_progress dsimp -zeta only
    | refine Keeps.lit ?_ rfl rfl rfl rfl
    | refine Keeps.litMod ?_ rfl rfl rfl rfl rfl rfl rfl rfl rfl
    | refine Keeps.litTo ?_ rfl rfl rfl rfl ⟨nofun, nofun⟩ rfl (fun h => h) rfl rfl)

theorem noteDup_keeps {F : Nat} (ctx tag rank step epoch part : Nat) (s : State) (hF : Within 0x20000001000000 F := by first | rfl | decide) : Keeps F s (noteDup ctx tag rank step epoch part s) := by
  refine Keeps.mono hF ?_
  unfold noteDup
  repeat' (first
    | with_reducible exact Keeps.refl _
    | with_reducible assumption
    | intro _
    | (extract_lets +onlyGivenNames y
       refine Keeps.via (y := y) ?_ ?_
       on_goal 2 => (intro _; clear_value y)
       on_goal 1 => (dsimp -zeta only [y]; clear y))
    | fail_if_no_progress extract_lets +onlyGivenNames y
    | with_reducible refine Keeps.ite ?_ ?_
    | with_reducible refine Keeps.foldl ?_ ?_ _
    | with_reducible refine Keeps.trans ?_ (modGroup_keeps ..)
    | with_reducible refine Keeps.trans ?_ (bump_keeps ..)
    | fail_if_no_progress with_reducible refine Keeps.lit ?_ rfl rfl rfl rfl
    | fail_if_no_progress with_reducible refine Keeps.litMod ?_ rfl rfl rfl rfl rfl rfl rfl rfl rfl
    | split
    | fail_if_no_progress dsimp -zeta only
    | refine Keeps.lit ?_ rfl rfl rfl rfl
    | refine Keeps.litMod ?_ rfl rfl rfl rfl rfl rfl rfl rfl rfl
    | refine Keeps.litTo ?_ rfl rfl rfl rfl ⟨nofun, nofun⟩ rfl (fun h => h) rfl rfl)

theorem acceptSet_keeps {F : Nat} (ctx tag : Nat) (taken : Bool) (a : Nat) (b : Bucket) (s : State) (hF : Within 0x4008000 F := by first | rfl | decide) : Keeps F s (acceptSet ctx tag taken a b s) := by
  refine Keeps.mono hF ?_
  unfold acceptSet
  repeat' (first
    | with_reducible exact Keeps.refl _
    | with_reducible assumption
    | intro _
    | (extract_lets +onlyGivenNames y
       refine Keeps.via (y := y) ?_ ?_
       on_goal 2 => (intro _; clear_value y)
       on_goal 1 => (dsimp -zeta only [y]; clear y))
    | fail_if_no_progress extract_lets +onlyGivenNames y
    | with_reducible refine Keeps.ite ?_ ?_
    | with_reducible refine Keeps.foldl ?_ ?_ _
    | with_reducible refine Keeps.trans ?_ (queueSums_keeps ..)
    | with_reducible refine Keeps.trans ?_ (setBucket_keeps ..)
    | fail_if_no_progress with_reducible refine Keeps.lit ?_ rfl rfl rfl rfl
    | fail_if_no_progress with_reducible refine Keeps.litMod ?_ rfl rfl rfl rfl rfl rfl rfl rfl rfl
    | split
    | fail_if_no_progress dsimp -zeta only
    | refine Keeps.lit ?_ rfl rfl rfl rfl
    | refine Keeps.litMod ?_ rfl rfl rfl rfl rfl rfl rfl rfl rfl
    | refine Keeps.litTo ?_ rfl rfl rfl rfl ⟨nofun, nofun⟩ rfl (fun h => h) rfl rfl)

theorem decideParts_keeps {F : Nat} (ctx tag : Nat) (taken : Bool) (s : State) (hF : Within 0x20000005008002 F := by first | rfl | decide) : Keeps F s (decideParts ctx tag taken s) := by
  refine Keeps.mono hF ?_
  unfold decideParts
  repeat' (first
    | with_reducible exact Keeps.refl _
    | with_reducible assumption
    | intro _
    | (extract_lets +onlyGivenNames y
       refine Keeps.via (y := y) ?_ ?_
       on_goal 2 => (intro _; clear_value y)
       on_goal 1 => (dsimp -zeta only [y]; clear y))
    | fail_if_no_progress extract_lets +onlyGivenNames y
    | with_reducible refine Keeps.ite ?_ ?_
    | with_reducible refine Keeps.foldl ?_ ?_ _
    | with_reducible refine Keeps.trans ?_ (acceptSet_keeps ..)
    | with_reducible refine Keeps.trans ?_ (noteLate_keeps ..)
    | with_reducible refine Keeps.trans ?_ (unstage_keeps ..)
    | fail_if_no_progress with_reducible refine Keeps.lit ?_ rfl rfl rfl rfl
    | fail_if_no_progress with_reducible refine Keeps.litMod ?_ rfl rfl rfl rfl rfl rfl rfl rfl rfl
    | split
    | fail_if_no_progress dsimp -zeta only
    | refine Keeps.lit ?_ rfl rfl rfl rfl
    | refine Keeps.litMod ?_ rfl rfl rfl rfl rfl rfl rfl rfl rfl
    | refine Keeps.litTo ?_ rfl rfl rfl rfl ⟨nofun, nofun⟩ rfl (fun h => h) rfl rfl)

theorem tryDecide_keeps {F : Nat} (ctx tag : Nat) (s : State) (hF : Within 0x20000005008002 F := by first | rfl | decide) : Keeps F s (tryDecide ctx tag s) := by
  refine Keeps.mono hF ?_
  unfold tryDecide
  repeat' (first
    | with_reducible exact Keeps.refl _
    | with_reducible assumption
    | intro _
    | (extract_lets +onlyGivenNames y
       refine Keeps.via (y := y) ?_ ?_
       on_goal 2 => (intro _; clear_value y)
       on_goal 1 => (dsimp -zeta only [y]; clear y))
    | fail_if_no_progress extract_lets +onlyGivenNames y
    | with_reducible refine Keeps.ite ?_ ?_
    | with_reducible refine Keeps.foldl ?_ ?_ _
    | fail_if_no_progress with_reducible refine Keeps.lit ?_ rfl rfl rfl rfl
    | fail_if_no_progress with_reducible refine Keeps.litMod ?_ rfl rfl rfl rfl rfl rfl rfl rfl rfl
    | split
    | fail_if_no_progress dsimp -zeta only
    | with_reducible refine Keeps.trans ?_ (decideParts_keeps ..)
    | refine Keeps.lit ?_ rfl rfl rfl rfl
    | refine Keeps.litMod ?_ rfl rfl rfl rfl rfl rfl rfl rfl rfl
    | refine Keeps.litTo ?_ rfl rfl rfl rfl ⟨nofun, nofun⟩ rfl (fun h => h) rfl rfl)

theorem checkReduced_keeps {F : Nat} (ctx tag : Nat) (s : State) (hF : Within 0x81008110048642 F := by first | rfl | decide) : Keeps F s (checkReduced ctx tag s) := by
  refine Keeps.mono hF ?_
  unfold checkReduced
  repeat' (first
    | with_reducible exact Keeps.refl _
    | with_reducible assumption
    | intro _
    | (extract_lets +onlyGivenNames y
       refine Keeps.via (y := y) ?_ ?_
       on_goal 2 => (intro _; clear_value y)
       on_goal 1 => (dsimp -zeta only [y]; clear y))
    | fail_if_no_progress extract_lets +onlyGivenNames y
    | with_reducible refine Keeps.ite ?_ ?_
    | with_reducible refine Keeps.foldl ?_ ?_ _
    | with_reducible refine Keeps.trans ?_ (setBucket_keeps ..)
    | with_reducible refine Keeps.trans ?_ (emitHist_keeps ..)
    | with_reducible refine Keeps.trans ?_ (complete_keeps ..)
    | with_reducible refine Keeps.trans ?_ (writeMem_keeps ..)
    | fail_if_no_progress with_reducible refine Keeps.lit ?_ rfl rfl rfl rfl
    | fail_if_no_progress with_reducible refine Keeps.litMod ?_ rfl rfl rfl rfl rfl rfl rfl rfl rfl
    | split)

theorem noteStaged_keeps {F : Nat} (acc : Access) (ps : List Piece) (s : State) (hF : Within 0x80008000000442 F := by first | rfl | decide) : Keeps F s (noteStaged acc ps s) := by
  refine Keeps.mono hF ?_
  unfold noteStaged
  repeat' (first
    | with_reducible exact Keeps.refl _
    | with_reducible assumption
    | intro _
    | (extract_lets +onlyGivenNames y
       refine Keeps.via (y := y) ?_ ?_
       on_goal 2 => (intro _; clear_value y)
       on_goal 1 => (dsimp -zeta only [y]; clear y))
    | fail_if_no_progress extract_lets +onlyGivenNames y
    | with_reducible refine Keeps.ite ?_ ?_
    | with_reducible refine Keeps.foldl ?_ ?_ _
    | with_reducible refine Keeps.trans ?_ (noteRead_keeps ..)
    | fail_if_no_progress with_reducible refine Keeps.lit ?_ rfl rfl rfl rfl
    | fail_if_no_progress with_reducible refine Keeps.litMod ?_ rfl rfl rfl rfl rfl rfl rfl rfl rfl
    | split
    | fail_if_no_progress dsimp -zeta only
    | refine Keeps.lit ?_ rfl rfl rfl rfl
    | refine Keeps.litMod ?_ rfl rfl rfl rfl rfl rfl rfl rfl rfl
    | refine Keeps.litTo ?_ rfl rfl rfl rfl ⟨nofun, nofun⟩ rfl (fun h => h) rfl rfl)

theorem stageLocal_keeps {F : Nat} (ctx tag step : Nat) (b : List Byte) (parts : Nat) (s : State) (hF : Within 0x1000000 F := by first | rfl | decide) : Keeps F s (stageLocal ctx tag step b parts s) := by
  refine Keeps.mono hF ?_
  unfold stageLocal
  repeat' (first
    | with_reducible exact Keeps.refl _
    | with_reducible assumption
    | intro _
    | (extract_lets +onlyGivenNames y
       refine Keeps.via (y := y) ?_ ?_
       on_goal 2 => (intro _; clear_value y)
       on_goal 1 => (dsimp -zeta only [y]; clear y))
    | fail_if_no_progress extract_lets +onlyGivenNames y
    | with_reducible refine Keeps.ite ?_ ?_
    | with_reducible refine Keeps.foldl ?_ ?_ _
    | with_reducible refine Keeps.trans ?_ (modGroup_keeps ..)
    | fail_if_no_progress with_reducible refine Keeps.lit ?_ rfl rfl rfl rfl
    | fail_if_no_progress with_reducible refine Keeps.litMod ?_ rfl rfl rfl rfl rfl rfl rfl rfl rfl
    | split
    | fail_if_no_progress dsimp -zeta only
    | refine Keeps.lit ?_ rfl rfl rfl rfl
    | refine Keeps.litMod ?_ rfl rfl rfl rfl rfl rfl rfl rfl rfl
    | refine Keeps.litTo ?_ rfl rfl rfl rfl ⟨nofun, nofun⟩ rfl (fun h => h) rfl rfl)

theorem sendCodes_keeps {F : Nat} (ctx tag step : Nat) (parts : Nat) (s : State) (hF : Within 0xe000c010908442 F := by first | rfl | decide) : Keeps F s (sendCodes ctx tag step parts s) := by
  refine Keeps.mono hF ?_
  unfold sendCodes
  repeat' (first
    | with_reducible exact Keeps.refl _
    | with_reducible assumption
    | intro _
    | (extract_lets +onlyGivenNames y
       refine Keeps.via (y := y) ?_ ?_
       on_goal 2 => (intro _; clear_value y)
       on_goal 1 => (dsimp -zeta only [y]; clear y))
    | fail_if_no_progress extract_lets +onlyGivenNames y
    | with_reducible refine Keeps.ite ?_ ?_
    | with_reducible refine Keeps.foldl ?_ ?_ _
    | with_reducible refine Keeps.trans ?_ (modBucket_keeps ..)
    | with_reducible refine Keeps.trans ?_ (sendRank_keeps ..)
    | with_reducible refine Keeps.trans ?_ (noteRead_keeps ..)
    | fail_if_no_progress with_reducible refine Keeps.lit ?_ rfl rfl rfl rfl
    | fail_if_no_progress with_reducible refine Keeps.litMod ?_ rfl rfl rfl rfl rfl rfl rfl rfl rfl
    | split
    | fail_if_no_progress dsimp -zeta only
    | refine Keeps.lit ?_ rfl rfl rfl rfl
    | refine Keeps.litMod ?_ rfl rfl rfl rfl rfl rfl rfl rfl rfl
    | refine Keeps.litTo ?_ rfl rfl rfl rfl ⟨nofun, nofun⟩ rfl (fun h => h) rfl rfl)

theorem checkGathered_keeps {F : Nat} (ctx tag : Nat) (s : State) (hF : Within 0x21000115048040 F := by first | rfl | decide) : Keeps F s (checkGathered ctx tag s) := by
  refine Keeps.mono hF ?_
  unfold checkGathered
  repeat' (first
    | with_reducible exact Keeps.refl _
    | with_reducible assumption
    | intro _
    | (extract_lets +onlyGivenNames y
       refine Keeps.via (y := y) ?_ ?_
       on_goal 2 => (intro _; clear_value y)
       on_goal 1 => (dsimp -zeta only [y]; clear y))
    | fail_if_no_progress extract_lets +onlyGivenNames y
    | with_reducible refine Keeps.ite ?_ ?_
    | with_reducible refine Keeps.foldl ?_ ?_ _
    | with_reducible refine Keeps.trans ?_ (dropBucketWork_keeps ..)
    | with_reducible refine Keeps.trans ?_ (setBucket_keeps ..)
    | with_reducible refine Keeps.trans ?_ (emitHist_keeps ..)
    | with_reducible refine Keeps.trans ?_ (complete_keeps ..)
    | with_reducible refine Keeps.trans ?_ (bump_keeps ..)
    | fail_if_no_progress with_reducible refine Keeps.lit ?_ rfl rfl rfl rfl
    | fail_if_no_progress with_reducible refine Keeps.litMod ?_ rfl rfl rfl rfl rfl rfl rfl rfl rfl
    | split)

theorem resendParts_keeps {F : Nat} (ctx tag step : Nat) (b : Bucket) (s : State) (hF : Within 0xe000c010908442 F := by first | rfl | decide) : Keeps F s (resendParts ctx tag step b s) := by
  refine Keeps.mono hF ?_
  unfold resendParts
  extract_lets t known
  refine Keeps.foldl (Keeps.refl s) (fun y k => ?_) _
  split
  · exact Keeps.ite (Keeps.refl y) (Keeps.trans (noteContrib_keeps ..) (sendRank_keeps ..))
  · exact Keeps.refl y

theorem bucketAfterAdoption_keeps {F : Nat} (newer : Bool) (ctx tag : Nat) (s : State) (hF : Within 0xe100e115948642 F := by first | rfl | decide) : Keeps F s (bucketAfterAdoption newer ctx tag s) := by
  refine Keeps.mono hF ?_
  unfold bucketAfterAdoption
  repeat' (first
    | with_reducible exact Keeps.refl _
    | with_reducible assumption
    | intro _
    | (extract_lets +onlyGivenNames y
       refine Keeps.via (y := y) ?_ ?_
       on_goal 2 => (intro _; clear_value y)
       on_goal 1 => (dsimp -zeta only [y]; clear y))
    | fail_if_no_progress extract_lets +onlyGivenNames y
    | with_reducible refine Keeps.ite ?_ ?_
    | with_reducible refine Keeps.foldl ?_ ?_ _
    | fail_if_no_progress with_reducible refine Keeps.lit ?_ rfl rfl rfl rfl
    | fail_if_no_progress with_reducible refine Keeps.litMod ?_ rfl rfl rfl rfl rfl rfl rfl rfl rfl
    | split
    | fail_if_no_progress dsimp -zeta only
    | with_reducible refine Keeps.trans ?_ (resendParts_keeps ..)
    | with_reducible refine Keeps.trans ?_ (checkGathered_keeps ..)
    | with_reducible refine Keeps.trans ?_ (sendCodes_keeps ..)
    | with_reducible refine Keeps.trans ?_ (stageLocal_keeps ..)
    | with_reducible refine Keeps.trans ?_ (checkReduced_keeps ..)
    | with_reducible refine Keeps.trans ?_ (tryDecide_keeps ..)
    | with_reducible refine Keeps.trans ?_ (dropSums_keeps ..)
    | with_reducible refine Keeps.trans ?_ (abortBucket_keeps ..)
    | with_reducible refine Keeps.trans ?_ (noteContrib_keeps ..)
    | with_reducible refine Keeps.trans ?_ (setBucket_keeps ..)
    | refine Keeps.lit ?_ rfl rfl rfl rfl
    | refine Keeps.litMod ?_ rfl rfl rfl rfl rfl rfl rfl rfl rfl
    | refine Keeps.litTo ?_ rfl rfl rfl rfl ⟨nofun, nofun⟩ rfl (fun h => h) rfl rfl)

theorem logExchDrop_keeps {F : Nat} (kind : Nat) (ctx : Option Nat) (b : List Byte) (s : State) (hF : Within 0x2 F := by first | rfl | decide) : Keeps F s (logExchDrop kind ctx b s) := by
  refine Keeps.mono hF ?_
  unfold logExchDrop
  repeat' (first
    | with_reducible exact Keeps.refl _
    | with_reducible assumption
    | intro _
    | fail_if_no_progress extract_lets +onlyGivenNames y
    | with_reducible refine Keeps.ite ?_ ?_
    | with_reducible refine Keeps.foldl ?_ ?_ _
    | with_reducible refine Keeps.trans ?_ (logEntry_keeps ..))

theorem holdDrop_keeps {F : Nat} (ctx : Option Nat) (b : List Byte) (s : State) (hF : Within 0x20000000000002 F := by first | rfl | decide) : Keeps F s (holdDrop ctx b s) := by
  refine Keeps.mono hF ?_
  unfold holdDrop
  repeat' (first
    | with_reducible exact Keeps.refl _
    | with_reducible assumption
    | intro _
    | (extract_lets +onlyGivenNames y
       refine Keeps.via (y := y) ?_ ?_
       on_goal 2 => (intro _; clear_value y)
       on_goal 1 => (dsimp -zeta only [y]; clear y))
    | fail_if_no_progress extract_lets +onlyGivenNames y
    | with_reducible refine Keeps.ite ?_ ?_
    | with_reducible refine Keeps.foldl ?_ ?_ _
    | with_reducible refine Keeps.trans ?_ (logExchDrop_keeps ..)
    | with_reducible refine Keeps.trans ?_ (bump_keeps ..)
    | fail_if_no_progress with_reducible refine Keeps.lit ?_ rfl rfl rfl rfl
    | fail_if_no_progress with_reducible refine Keeps.litMod ?_ rfl rfl rfl rfl rfl rfl rfl rfl rfl
    | split
    | fail_if_no_progress dsimp -zeta only
    | refine Keeps.lit ?_ rfl rfl rfl rfl
    | refine Keeps.litMod ?_ rfl rfl rfl rfl rfl rfl rfl rfl rfl
    | refine Keeps.litTo ?_ rfl rfl rfl rfl ⟨nofun, nofun⟩ rfl (fun h => h) rfl rfl)

theorem releaseHeld_keeps {F : Nat} (ctx : Nat) (s : State) (hF : Within 0x20000008800002 F := by first | rfl | decide) : Keeps F s (releaseHeld ctx s) := by
  refine Keeps.mono hF ?_
  unfold releaseHeld
  repeat' (first
    | with_reducible exact Keeps.refl _
    | with_reducible assumption
    | intro _
    | (extract_lets +onlyGivenNames y
       refine Keeps.via (y := y) ?_ ?_
       on_goal 2 => (intro _; clear_value y)
       on_goal 1 => (dsimp -zeta only [y]; clear y))
    | fail_if_no_progress extract_lets +onlyGivenNames y
    | with_reducible refine Keeps.ite ?_ ?_
    | with_reducible refine Keeps.foldl ?_ ?_ _
    | with_reducible refine Keeps.trans ?_ (holdDrop_keeps ..)
    | fail_if_no_progress with_reducible refine Keeps.lit ?_ rfl rfl rfl rfl
    | fail_if_no_progress with_reducible refine Keeps.litMod ?_ rfl rfl rfl rfl rfl rfl rfl rfl rfl
    | split
    | fail_if_no_progress dsimp -zeta only
    | refine Keeps.lit ?_ rfl rfl rfl rfl
    | refine Keeps.litMod ?_ rfl rfl rfl rfl rfl rfl rfl rfl rfl
    | refine Keeps.litTo ?_ rfl rfl rfl rfl ⟨nofun, nofun⟩ rfl (fun h => h) rfl rfl)

theorem adoptEpoch_keeps {F : Nat} (newer : Bool) (ctx epoch : Nat) (declarer : Option Nat) (live : Nat) (owners : List Nat) (effective : Nat) (s : State) (hF : Within 0xe100e11d948642 F := by first | rfl | decide) : Keeps F s (adoptEpoch newer ctx epoch declarer live owners effective s) := by
  refine Keeps.mono hF ?_
  unfold adoptEpoch
  repeat' (first
    | with_reducible exact Keeps.refl _
    | with_reducible assumption
    | intro _
    | (extract_lets +onlyGivenNames y
       refine Keeps.via (y := y) ?_ ?_
       on_goal 2 => (intro _; clear_value y)
       on_goal 1 => (dsimp -zeta only [y]; clear y))
    | fail_if_no_progress extract_lets +onlyGivenNames y
    | with_reducible refine Keeps.ite ?_ ?_
    | with_reducible refine Keeps.foldl ?_ ?_ _
    | with_reducible refine Keeps.trans ?_ (releaseHeld_keeps ..)
    | with_reducible refine Keeps.trans ?_ (bucketAfterAdoption_keeps ..)
    | with_reducible refine Keeps.trans ?_ (modGroup_keeps ..)
    | fail_if_no_progress with_reducible refine Keeps.lit ?_ rfl rfl rfl rfl
    | fail_if_no_progress with_reducible refine Keeps.litMod ?_ rfl rfl rfl rfl rfl rfl rfl rfl rfl
    | split
    | fail_if_no_progress dsimp -zeta only
    | refine Keeps.lit ?_ rfl rfl rfl rfl
    | refine Keeps.litMod ?_ rfl rfl rfl rfl rfl rfl rfl rfl rfl
    | refine Keeps.litTo ?_ rfl rfl rfl rfl ⟨nofun, nofun⟩ rfl (fun h => h) rfl rfl)

theorem rejoinPair_keeps {F : Nat} (s : State) (hF : Within 0x60000012108000 F := by first | rfl | decide) : Keeps F s (rejoinPair s) := by
  refine Keeps.mono hF ?_
  unfold rejoinPair
  repeat' (first
    | with_reducible exact Keeps.refl _
    | with_reducible assumption
    | intro _
    | fail_if_no_progress extract_lets +onlyGivenNames y
    | with_reducible refine Keeps.ite ?_ ?_
    | with_reducible refine Keeps.foldl ?_ ?_ _
    | with_reducible refine Keeps.trans ?_ (sendHeartbeat_keeps ..)
    | with_reducible refine Keeps.trans ?_ (modPair_keeps ..))

theorem staleBucket_keeps {F : Nat} (ctx tag : Nat) (s : State) (hF : Within 0x1000115048040 F := by first | rfl | decide) : Keeps F s (staleBucket ctx tag s) := by
  refine Keeps.mono hF ?_
  unfold staleBucket
  repeat' (first
    | with_reducible exact Keeps.refl _
    | with_reducible assumption
    | intro _
    | fail_if_no_progress extract_lets +onlyGivenNames y
    | with_reducible refine Keeps.ite ?_ ?_
    | with_reducible refine Keeps.foldl ?_ ?_ _
    | with_reducible refine Keeps.trans ?_ (endDescriptor_keeps ..)
    | with_reducible refine Keeps.trans ?_ (dropBucketWork_keeps ..)
    | with_reducible refine Keeps.trans ?_ (setBucket_keeps ..)
    | fail_if_no_progress with_reducible refine Keeps.lit ?_ rfl rfl rfl rfl
    | fail_if_no_progress with_reducible refine Keeps.litMod ?_ rfl rfl rfl rfl rfl rfl rfl rfl rfl
    | split)

theorem dropOriginated_keeps {F : Nat} (s : State) (hF : Within 0x100000 F := by first | rfl | decide) : Keeps F s (dropOriginated s) := by
  refine Keeps.mono hF ?_
  unfold dropOriginated
  repeat' (first
    | with_reducible exact Keeps.refl _
    | with_reducible assumption
    | intro _
    | (extract_lets +onlyGivenNames y
       refine Keeps.via (y := y) ?_ ?_
       on_goal 2 => (intro _; clear_value y)
       on_goal 1 => (dsimp -zeta only [y]; clear y))
    | fail_if_no_progress extract_lets +onlyGivenNames y
    | with_reducible refine Keeps.ite ?_ ?_
    | with_reducible refine Keeps.foldl ?_ ?_ _
    | fail_if_no_progress with_reducible refine Keeps.lit ?_ rfl rfl rfl rfl
    | fail_if_no_progress with_reducible refine Keeps.litMod ?_ rfl rfl rfl rfl rfl rfl rfl rfl rfl
    | split
    | fail_if_no_progress dsimp -zeta only
    | refine Keeps.lit ?_ rfl rfl rfl rfl
    | refine Keeps.litMod ?_ rfl rfl rfl rfl rfl rfl rfl rfl rfl
    | refine Keeps.litTo ?_ rfl rfl rfl rfl ⟨nofun, nofun⟩ rfl (fun h => h) rfl rfl)

theorem staleStep_keeps {F : Nat} (ctx : Nat) (s : State) (hF : Within 0x10048040 F := by first | rfl | decide) : Keeps F s (staleStep ctx s) := by
  refine Keeps.mono hF ?_
  unfold staleStep
  repeat' (first
    | with_reducible exact Keeps.refl _
    | with_reducible assumption
    | intro _
    | (extract_lets +onlyGivenNames y
       refine Keeps.via (y := y) ?_ ?_
       on_goal 2 => (intro _; clear_value y)
       on_goal 1 => (dsimp -zeta only [y]; clear y))
    | fail_if_no_progress extract_lets +onlyGivenNames y
    | with_reducible refine Keeps.ite ?_ ?_
    | with_reducible refine Keeps.foldl ?_ ?_ _
    | with_reducible refine Keeps.trans ?_ (signalCovered_keeps ..)
    | with_reducible refine Keeps.trans ?_ (closeCovered_keeps ..)
    | with_reducible refine Keeps.trans ?_ (startFlush_keeps ..)
    | fail_if_no_progress with_reducible refine Keeps.lit ?_ rfl rfl rfl rfl
    | fail_if_no_progress with_reducible refine Keeps.litMod ?_ rfl rfl rfl rfl rfl rfl rfl rfl rfl
    | split
    | fail_if_no_progress dsimp -zeta only
    | refine Keeps.lit ?_ rfl rfl rfl rfl
    | refine Keeps.litMod ?_ rfl rfl rfl rfl rfl rfl rfl rfl rfl
    | refine Keeps.litTo ?_ rfl rfl rfl rfl ⟨nofun, nofun⟩ rfl (fun h => h) rfl rfl)

theorem enterFenced_keeps {F : Nat} (s : State) (hF : Within 0x100011f178069 F := by first | rfl | decide) : Keeps F s (enterFenced s) := by
  refine Keeps.mono hF ?_
  unfold enterFenced
  refine Keeps.ite ?_ (Keeps.refl s)
  extract_lets m s1 s2 s3 x s4
  have h1 : Keeps 0x100011f178069 s s1 := Keeps.litTo (Keeps.refl s) rfl rfl rfl rfl ⟨nofun, nofun⟩ rfl (fun _ => rfl) rfl rfl
  have h2 : Keeps 0x100011f178069 s s2 := (h1.trans (modPair_keeps ..)).trans (dropOriginated_keeps ..)
  have h3 : Keeps 0x100011f178069 s s3 := by
    refine Keeps.foldl h2 ?_ _
    intro y c
    refine Keeps.trans ?_ (modGroup_keeps ..)
    have hb : Keeps 0x100011f178069 y ((usedTags y c).foldl (fun s tag => staleBucket c tag s) y) :=
      Keeps.foldl (Keeps.refl y) (fun z tag => staleBucket_keeps ..) _
    exact hb.trans (staleStep_keeps ..)
  clear_value s3
  have h4 : Keeps 0x100011f178069 s s4 := h3.upd rfl rfl rfl rfl rfl rfl rfl
  exact h4.trans (fenceProgramming_keeps ..)

theorem takeOver_keeps {F : Nat} (ctx : Nat) (s : State) (hF : Within 0xe100e11d948642 F := by first | rfl | decide) : Keeps F s (takeOver ctx s) := by
  refine Keeps.mono hF ?_
  unfold takeOver
  repeat' (first
    | with_reducible exact Keeps.refl _
    | with_reducible assumption
    | intro _
    | (extract_lets +onlyGivenNames y
       refine Keeps.via (y := y) ?_ ?_
       on_goal 2 => (intro _; clear_value y)
       on_goal 1 => (dsimp -zeta only [y]; clear y))
    | fail_if_no_progress extract_lets +onlyGivenNames y
    | with_reducible refine Keeps.ite ?_ ?_
    | with_reducible refine Keeps.foldl ?_ ?_ _
    | with_reducible refine Keeps.trans ?_ (adoptEpoch_keeps ..)
    | with_reducible refine Keeps.trans ?_ (sendNotices_keeps ..)
    | with_reducible refine Keeps.trans ?_ (addExch_keeps ..)
    | with_reducible refine Keeps.trans ?_ (bump_keeps ..)
    | fail_if_no_progress with_reducible refine Keeps.lit ?_ rfl rfl rfl rfl
    | fail_if_no_progress with_reducible refine Keeps.litMod ?_ rfl rfl rfl rfl rfl rfl rfl rfl rfl
    | split
    | fail_if_no_progress dsimp -zeta only
    | refine Keeps.lit ?_ rfl rfl rfl rfl
    | refine Keeps.litMod ?_ rfl rfl rfl rfl rfl rfl rfl rfl rfl
    | refine Keeps.litTo ?_ rfl rfl rfl rfl ⟨nofun, nofun⟩ rfl (fun h => h) rfl rfl)

theorem partnerLost_keeps {F : Nat} (s : State) (hF : Within 0xe100e11f948642 F := by first | rfl | decide) : Keeps F s (partnerLost s) := by
  refine Keeps.mono hF ?_
  unfold partnerLost
  repeat' (first
    | with_reducible exact Keeps.refl _
    | with_reducible assumption
    | intro _
    | (extract_lets +onlyGivenNames y
       refine Keeps.via (y := y) ?_ ?_
       on_goal 2 => (intro _; clear_value y)
       on_goal 1 => (dsimp -zeta only [y]; clear y))
    | fail_if_no_progress extract_lets +onlyGivenNames y
    | with_reducible refine Keeps.ite ?_ ?_
    | with_reducible refine Keeps.foldl ?_ ?_ _
    | with_reducible refine Keeps.trans ?_ (takeOver_keeps ..)
    | with_reducible refine Keeps.trans ?_ (checkReduced_keeps ..)
    | with_reducible refine Keeps.trans ?_ (modBucket_keeps ..)
    | with_reducible refine Keeps.trans ?_ (modPair_keeps ..)
    | with_reducible refine Keeps.trans ?_ (logEntry_keeps ..)
    | with_reducible refine Keeps.trans ?_ (bump_keeps ..)
    | with_reducible refine Keeps.trans ?_ (setFlag_keeps ..))

theorem fenceDrop_keeps {F : Nat} (ctx : Option Nat) (b : List Byte) (s : State) (hF : Within 0x20000000008002 F := by first | rfl | decide) : Keeps F s (fenceDrop ctx b s) := by
  refine Keeps.mono hF ?_
  unfold fenceDrop
  repeat' (first
    | with_reducible exact Keeps.refl _
    | with_reducible assumption
    | intro _
    | (extract_lets +onlyGivenNames y
       refine Keeps.via (y := y) ?_ ?_
       on_goal 2 => (intro _; clear_value y)
       on_goal 1 => (dsimp -zeta only [y]; clear y))
    | fail_if_no_progress extract_lets +onlyGivenNames y
    | with_reducible refine Keeps.ite ?_ ?_
    | with_reducible refine Keeps.foldl ?_ ?_ _
    | with_reducible refine Keeps.trans ?_ (logExchDrop_keeps ..)
    | with_reducible refine Keeps.trans ?_ (addExch_keeps ..)
    | with_reducible refine Keeps.trans ?_ (bump_keeps ..)
    | fail_if_no_progress with_reducible refine Keeps.lit ?_ rfl rfl rfl rfl
    | fail_if_no_progress with_reducible refine Keeps.litMod ?_ rfl rfl rfl rfl rfl rfl rfl rfl rfl
    | split)

theorem consume_keeps {F : Nat} (m : Inbound) (s : State) (hF : Within 0x20000010908000 F := by first | rfl | decide) : Keeps F s (consume m s) := by
  refine Keeps.mono hF ?_
  unfold consume
  repeat' (first
    | with_reducible exact Keeps.refl _
    | with_reducible assumption
    | intro _
    | (extract_lets +onlyGivenNames y
       refine Keeps.via (y := y) ?_ ?_
       on_goal 2 => (intro _; clear_value y)
       on_goal 1 => (dsimp -zeta only [y]; clear y))
    | fail_if_no_progress extract_lets +onlyGivenNames y
    | with_reducible refine Keeps.ite ?_ ?_
    | with_reducible refine Keeps.foldl ?_ ?_ _
    | with_reducible refine Keeps.trans ?_ (addExch_keeps ..)
    | with_reducible refine Keeps.trans ?_ (freeBuffer_keeps ..)
    | with_reducible refine Keeps.trans ?_ (sendIdle_keeps ..)
    | with_reducible refine Keeps.trans ?_ (bump_keeps ..)
    | fail_if_no_progress with_reducible refine Keeps.lit ?_ rfl rfl rfl rfl
    | fail_if_no_progress with_reducible refine Keeps.litMod ?_ rfl rfl rfl rfl rfl rfl rfl rfl rfl
    | split)

theorem onMessage_keeps {F : Nat} (type : Nat) (ready : State → List Byte → Bool) (k : Nat → Nat → List Byte → State → State) (s : State)
    (hk : ∀ a b c s, Keeps F s (k a b c s)) (hF : Within 0x60006018908002 F := by first | rfl | decide) : Keeps F s (onMessage type ready k s) := by
  unfold onMessage
  split
  · exact Keeps.refl s
  · rename_i m _
    extract_lets b s1
    have h1 : Keeps F s s1 := Keeps.mono hF (consume_keeps ..)
    clear_value s1
    split
    · exact h1
    · exact h1.trans (Keeps.mono hF (Keeps.upd (Keeps.refl _) rfl rfl rfl rfl rfl rfl rfl))
    · extract_lets s2
      have h2 : Keeps F s s2 := h1.trans (Keeps.mono hF ((bump_keeps ..).trans (logExchDrop_keeps ..)))
      exact h2.trans (Keeps.mono hF ((addExch_keeps ..).trans (replyTo_keeps _ _ _ fun y => sendNotice_keeps ..)))
    · extract_lets s2
      have h2 : Keeps F s s2 := h1.trans (Keeps.mono hF (fenceDrop_keeps ..))
      split
      · exact h2.trans (Keeps.mono hF (replyTo_keeps _ _ _ fun y => sendFencedNotice_keeps ..))
      · exact h2
    · exact h1.trans (hk ..)

theorem dropPartial_keeps {F : Nat} (ctx : Nat) (b : List Byte) (s : State) (hF : Within 0x1000000 F := by first | rfl | decide) : Keeps F s (dropPartial ctx b s) := by
  refine Keeps.mono hF ?_
  unfold dropPartial
  repeat' (first
    | with_reducible exact Keeps.refl _
    | with_reducible assumption
    | intro _
    | (extract_lets +onlyGivenNames y
       refine Keeps.via (y := y) ?_ ?_
       on_goal 2 => (intro _; clear_value y)
       on_goal 1 => (dsimp -zeta only [y]; clear y))
    | fail_if_no_progress extract_lets +onlyGivenNames y
    | with_reducible refine Keeps.ite ?_ ?_
    | with_reducible refine Keeps.foldl ?_ ?_ _
    | with_reducible refine Keeps.trans ?_ (modGroup_keeps ..)
    | fail_if_no_progress with_reducible refine Keeps.lit ?_ rfl rfl rfl rfl
    | fail_if_no_progress with_reducible refine Keeps.litMod ?_ rfl rfl rfl rfl rfl rfl rfl rfl rfl
    | split
    | fail_if_no_progress dsimp -zeta only
    | refine Keeps.lit ?_ rfl rfl rfl rfl
    | refine Keeps.litMod ?_ rfl rfl rfl rfl rfl rfl rfl rfl rfl
    | refine Keeps.litTo ?_ rfl rfl rfl rfl ⟨nofun, nofun⟩ rfl (fun h => h) rfl rfl)

theorem pieceOf_keeps {F : Nat} (ctx : Nat) (stage : Bool) (b : List Byte) (s : State) (hF : Within 0x80008000000602 F := by first | rfl | decide) : Keeps F s (pieceOf ctx stage b s).2 := by
  refine Keeps.mono hF ?_
  unfold pieceOf
  repeat' (first
    | with_reducible exact Keeps.refl _
    | with_reducible assumption
    | intro _
    | (extract_lets +onlyGivenNames y
       refine Keeps.via (y := y) ?_ ?_
       on_goal 2 => (intro _; clear_value y)
       on_goal 1 => (dsimp -zeta only [y]; clear y))
    | fail_if_no_progress extract_lets +onlyGivenNames y
    | with_reducible refine Keeps.ite ?_ ?_
    | with_reducible refine Keeps.foldl ?_ ?_ _
    | fail_if_no_progress with_reducible refine Keeps.lit ?_ rfl rfl rfl rfl
    | fail_if_no_progress with_reducible refine Keeps.litMod ?_ rfl rfl rfl rfl rfl rfl rfl rfl rfl
    | split
    | fail_if_no_progress dsimp -zeta only
    | with_reducible refine Keeps.trans ?_ (writeMem_keeps ..)
    | refine Keeps.lit ?_ rfl rfl rfl rfl
    | refine Keeps.litMod ?_ rfl rfl rfl rfl rfl rfl rfl rfl rfl
    | refine Keeps.litTo ?_ rfl rfl rfl rfl ⟨nofun, nofun⟩ rfl (fun h => h) rfl rfl)

theorem pieceOf_keeps_eq {ctx : Nat} {stage : Bool} {b : List Byte} {s : State} {pa pt} {F : Nat} (h : pieceOf ctx stage b s = (pa, pt)) (hF : Within 0x80008000000602 F := by first | rfl | decide) : Keeps F s pt := by
  have := pieceOf_keeps ctx stage b s (hF := hF)
  rwa [h] at this

theorem assembleMsg_keeps {F : Nat} (ctx : Nat) (stage : Bool) (b : List Byte) (s : State) (hF : Within 0x80008001000602 F := by first | rfl | decide) : Keeps F s (assembleMsg ctx stage b s).2 := by
  refine Keeps.mono hF ?_
  unfold assembleMsg
  repeat' (first
    | with_reducible exact Keeps.refl _
    | with_reducible assumption
    | intro _
    | (extract_lets +onlyGivenNames y
       refine Keeps.via (y := y) ?_ ?_
       on_goal 2 => (intro _; clear_value y)
       on_goal 1 => (dsimp -zeta only [y]; clear y))
    | fail_if_no_progress extract_lets +onlyGivenNames y
    | with_reducible refine Keeps.ite ?_ ?_
    | with_reducible refine Keeps.foldl ?_ ?_ _
    | fail_if_no_progress with_reducible refine Keeps.lit ?_ rfl rfl rfl rfl
    | fail_if_no_progress with_reducible refine Keeps.litMod ?_ rfl rfl rfl rfl rfl rfl rfl rfl rfl
    | split
    | fail_if_no_progress dsimp -zeta only
    | with_reducible refine Keeps.trans ?_ (dropPartial_keeps ..)
    | with_reducible refine Keeps.trans ?_ (modGroup_keeps ..)
    | with_reducible refine Keeps.trans ?_ (pieceOf_keeps_eq ‹_›)
    | with_reducible refine Keeps.trans ?_ (pieceOf_keeps ..)
    | refine Keeps.lit ?_ rfl rfl rfl rfl
    | refine Keeps.litMod ?_ rfl rfl rfl rfl rfl rfl rfl rfl rfl
    | refine Keeps.litTo ?_ rfl rfl rfl rfl ⟨nofun, nofun⟩ rfl (fun h => h) rfl rfl)

theorem assembleMsg_keeps_eq {ctx : Nat} {stage : Bool} {b : List Byte} {s : State} {pa pt} {F : Nat} (h : assembleMsg ctx stage b s = (pa, pt)) (hF : Within 0x80008001000602 F := by first | rfl | decide) : Keeps F s pt := by
  have := assembleMsg_keeps ctx stage b s (hF := hF)
  rwa [h] at this

theorem keepEarly_keeps {F : Nat} (ctx rank : Nat) (b : List Byte) (ps : List Piece) (s : State) (hF : Within 0x1000000 F := by first | rfl | decide) : Keeps F s (keepEarly ctx rank b ps s) := by
  refine Keeps.mono hF ?_
  unfold keepEarly
  repeat' (first
    | with_reducible exact Keeps.refl _
    | with_reducible assumption
    | intro _
    | (extract_lets +onlyGivenNames y
       refine Keeps.via (y := y) ?_ ?_
       on_goal 2 => (intro _; clear_value y)
       on_goal 1 => (dsimp -zeta only [y]; clear y))
    | fail_if_no_progress extract_lets +onlyGivenNames y
    | with_reducible refine Keeps.ite ?_ ?_
    | with_reducible refine Keeps.foldl ?_ ?_ _
    | with_reducible refine Keeps.trans ?_ (modGroup_keeps ..)
    | fail_if_no_progress with_reducible refine Keeps.lit ?_ rfl rfl rfl rfl
    | fail_if_no_progress with_reducible refine Keeps.litMod ?_ rfl rfl rfl rfl rfl rfl rfl rfl rfl
    | split
    | fail_if_no_progress dsimp -zeta only
    | refine Keeps.lit ?_ rfl rfl rfl rfl
    | refine Keeps.litMod ?_ rfl rfl rfl rfl rfl rfl rfl rfl rfl
    | refine Keeps.litTo ?_ rfl rfl rfl rfl ⟨nofun, nofun⟩ rfl (fun h => h) rfl rfl)

end Sys2Proof.Machine
end

