-- ==== Sys2Proof/Laws/KeepsRdx.lean ====
section
/-!
SUPPORT. What the operations of Machine/Rdx.lean keep.
-/
set_option Elab.async false

namespace Sys2Proof.Machine

theorem crzReject_keeps {F : Nat} (r : DRef) (status : Nat) (s : State) (hF : Within 0x1000010048040 F := by first | rfl | decide) : Keeps F s (crzReject r status s) := by
  refine Keeps.mono hF ?_
  unfold crzReject
  repeat' (first
    | with_reducible exact Keeps.refl _
    | with_reducible assumption
    | intro _
    | fail_if_no_progress extract_lets +onlyGivenNames y
    | with_reducible refine Keeps.ite ?_ ?_
    | with_reducible refine Keeps.foldl ?_ ?_ _
    | with_reducible refine Keeps.trans ?_ (completeWith_keeps ..))

theorem applyResult_keeps {F : Nat} (ctx tag part : Nat) (ps : List Piece) (s : State) (hF : Within 0xe100c112948642 F := by first | rfl | decide) : Keeps F s (applyResult ctx tag part ps s) := by
  refine Keeps.mono hF ?_
  unfold applyResult
  repeat' (first
    | with_reducible exact Keeps.refl _
    | with_reducible assumption
    | intro _
    | (extract_lets +onlyGivenNames y
       refine Keeps.via (y := y) ?_ ?_
       on_goal 2 => (intro _; clear_value y)
       on_goal 1 => (dsimp -zeta only [y]; clear y))
    | fail_if_no_progress extract_lets +onlyGivenNames y
    | with_reducible refine Keeps.ite ?_ ?_
    | with_reducible refine Keeps.foldl ?_ ?_ _
    | with_reducible refine Keeps.trans ?_ (noteStaged_keeps ..)
    | with_reducible refine Keeps.trans ?_ (checkReduced_keeps ..)
    | with_reducible refine Keeps.trans ?_ (modBucket_keeps ..)
    | with_reducible refine Keeps.trans ?_ (sendPartner_keeps ..)
    | with_reducible refine Keeps.trans ?_ (writeMem_keeps ..)
    | fail_if_no_progress with_reducible refine Keeps.lit ?_ rfl rfl rfl rfl
    | fail_if_no_progress with_reducible refine Keeps.litMod ?_ rfl rfl rfl rfl rfl rfl rfl rfl rfl
    | split
    | fail_if_no_progress dsimp -zeta only
    | refine Keeps.lit ?_ rfl rfl rfl rfl
    | refine Keeps.litMod ?_ rfl rfl rfl rfl rfl rfl rfl rfl rfl
    | refine Keeps.litTo ?_ rfl rfl rfl rfl ⟨nofun, nofun⟩ rfl (fun h => h) rfl rfl)

theorem applyCodes_keeps {F : Nat} (ctx tag part : Nat) (ps : List Piece) (s : State) (hF : Within 0xa1008115048642 F := by first | rfl | decide) : Keeps F s (applyCodes ctx tag part ps s) := by
  refine Keeps.mono hF ?_
  unfold applyCodes
  repeat' (first
    | with_reducible exact Keeps.refl _
    | with_reducible assumption
    | intro _
    | (extract_lets +onlyGivenNames y
       refine Keeps.via (y := y) ?_ ?_
       on_goal 2 => (intro _; clear_value y)
       on_goal 1 => (dsimp -zeta only [y]; clear y))
    | fail_if_no_progress extract_lets +onlyGivenNames y
    | with_reducible refine Keeps.ite ?_ ?_
    | with_reducible refine Keeps.foldl ?_ ?_ _
    | with_reducible refine Keeps.trans ?_ (checkGathered_keeps ..)
    | with_reducible refine Keeps.trans ?_ (noteStaged_keeps ..)
    | with_reducible refine Keeps.trans ?_ (modBucket_keeps ..)
    | with_reducible refine Keeps.trans ?_ (writeMem_keeps ..)
    | fail_if_no_progress with_reducible refine Keeps.lit ?_ rfl rfl rfl rfl
    | fail_if_no_progress with_reducible refine Keeps.litMod ?_ rfl rfl rfl rfl rfl rfl rfl rfl rfl
    | split
    | fail_if_no_progress dsimp -zeta only
    | refine Keeps.lit ?_ rfl rfl rfl rfl
    | refine Keeps.litMod ?_ rfl rfl rfl rfl rfl rfl rfl rfl rfl
    | refine Keeps.litTo ?_ rfl rfl rfl rfl ⟨nofun, nofun⟩ rfl (fun h => h) rfl rfl)

theorem applyEarly_keeps {F : Nat} (ctx tag : Nat) (types : List Nat) (s : State) (hF : Within 0xe100e117948642 F := by first | rfl | decide) : Keeps F s (applyEarly ctx tag types s) := by
  refine Keeps.mono hF ?_
  unfold applyEarly
  repeat' (first
    | with_reducible exact Keeps.refl _
    | with_reducible assumption
    | intro _
    | (extract_lets +onlyGivenNames y
       refine Keeps.via (y := y) ?_ ?_
       on_goal 2 => (intro _; clear_value y)
       on_goal 1 => (dsimp -zeta only [y]; clear y))
    | fail_if_no_progress extract_lets +onlyGivenNames y
    | with_reducible refine Keeps.ite ?_ ?_
    | with_reducible refine Keeps.foldl ?_ ?_ _
    | with_reducible refine Keeps.trans ?_ (applyCodes_keeps ..)
    | with_reducible refine Keeps.trans ?_ (applyResult_keeps ..)
    | with_reducible refine Keeps.trans ?_ (abortBucket_keeps ..)
    | with_reducible refine Keeps.trans ?_ (modGroup_keeps ..)
    | fail_if_no_progress with_reducible refine Keeps.lit ?_ rfl rfl rfl rfl
    | fail_if_no_progress with_reducible refine Keeps.litMod ?_ rfl rfl rfl rfl rfl rfl rfl rfl rfl
    | split
    | fail_if_no_progress dsimp -zeta only
    | refine Keeps.lit ?_ rfl rfl rfl rfl
    | refine Keeps.litMod ?_ rfl rfl rfl rfl rfl rfl rfl rfl rfl
    | refine Keeps.litTo ?_ rfl rfl rfl rfl ⟨nofun, nofun⟩ rfl (fun h => h) rfl rfl)

theorem openBucket_keeps {F : Nat} (ctx : Nat) (r : DRef) (b : List Byte) (s : State) (hF : Within 0xe100e117948642 F := by first | rfl | decide) : Keeps F s (openBucket ctx r b s) := by
  refine Keeps.mono hF ?_
  unfold openBucket
  repeat' (first
    | with_reducible exact Keeps.refl _
    | with_reducible assumption
    | intro _
    | (extract_lets +onlyGivenNames y
       refine Keeps.via (y := y) ?_ ?_
       on_goal 2 => (intro _; clear_value y)
       on_goal 1 => (dsimp -zeta only [y]; clear y))
    | fail_if_no_progress extract_lets +onlyGivenNames y
    | with_reducible refine Keeps.ite ?_ ?_
    | with_reducible refine Keeps.foldl ?_ ?_ _
    | fail_if_no_progress with_reducible refine Keeps.lit ?_ rfl rfl rfl rfl
    | fail_if_no_progress with_reducible refine Keeps.litMod ?_ rfl rfl rfl rfl rfl rfl rfl rfl rfl
    | split
    | fail_if_no_progress dsimp -zeta only
    | with_reducible refine Keeps.trans ?_ (applyEarly_keeps ..)
    | with_reducible refine Keeps.trans ?_ (stageLocal_keeps ..)
    | with_reducible refine Keeps.trans ?_ (checkReduced_keeps ..)
    | with_reducible refine Keeps.trans ?_ (tryDecide_keeps ..)
    | with_reducible refine Keeps.trans ?_ (abortBucket_keeps ..)
    | with_reducible refine Keeps.trans ?_ (modBucket_keeps ..)
    | with_reducible refine Keeps.trans ?_ (setBucket_keeps ..)
    | with_reducible refine Keeps.trans ?_ (sendRank_keeps ..)
    | with_reducible refine Keeps.trans ?_ (noteRead_keeps ..)
    | refine Keeps.lit ?_ rfl rfl rfl rfl
    | refine Keeps.litMod ?_ rfl rfl rfl rfl rfl rfl rfl rfl rfl
    | refine Keeps.litTo ?_ rfl rfl rfl rfl ⟨nofun, nofun⟩ rfl (fun h => h) rfl rfl)

theorem execRdxReduce_keeps (ctx : Fin 16) (ring : Fin 8) (s : State) : Goes 0xe100e117948642 s (execRdxReduce ctx ring s) := by
  unfold execRdxReduce
  repeat' (first
    | with_reducible exact Keeps.refl _
    | with_reducible assumption
    | intro _
    | with_reducible refine Goes.next ?_
    | (extract_lets +onlyGivenNames y
       refine Goes.via (y := y) ?_ ?_
       on_goal 2 => (intro _; clear_value y)
       on_goal 1 => (dsimp -zeta only [y]; clear y))
    | with_reducible refine Goes.ite ?_ ?_
    | (extract_lets +onlyGivenNames y
       refine Keeps.via (y := y) ?_ ?_
       on_goal 2 => (intro _; clear_value y)
       on_goal 1 => (dsimp -zeta only [y]; clear y))
    | fail_if_no_progress extract_lets +onlyGivenNames y
    | with_reducible refine Keeps.ite ?_ ?_
    | with_reducible refine Keeps.foldl ?_ ?_ _
    | with_reducible refine Keeps.trans ?_ (openBucket_keeps ..)
    | with_reducible refine Keeps.trans ?_ (crzReject_keeps ..)
    | with_reducible refine Keeps.trans ?_ (setBucket_keeps ..)
    | with_reducible refine Keeps.trans ?_ (dispatchOp_keeps _ _ _ _ _ ?_)
    | with_reducible refine Keeps.trans ?_ (noteRead_keeps ..)
    | fail_if_no_progress with_reducible refine Keeps.lit ?_ rfl rfl rfl rfl
    | fail_if_no_progress with_reducible refine Keeps.litMod ?_ rfl rfl rfl rfl rfl rfl rfl rfl rfl
    | split
    | fail_if_no_progress dsimp -zeta only
    | refine Keeps.lit ?_ rfl rfl rfl rfl
    | refine Keeps.litMod ?_ rfl rfl rfl rfl rfl rfl rfl rfl rfl
    | refine Keeps.litTo ?_ rfl rfl rfl rfl ⟨nofun, nofun⟩ rfl (fun h => h) rfl rfl)

theorem startGather_keeps {F : Nat} (ctx : Nat) (r : DRef) (b : List Byte) (s : State) (hF : Within 0xe100e117948642 F := by first | rfl | decide) : Keeps F s (startGather ctx r b s) := by
  refine Keeps.mono hF ?_
  unfold startGather
  repeat' (first
    | with_reducible exact Keeps.refl _
    | with_reducible assumption
    | intro _
    | (extract_lets +onlyGivenNames y
       refine Keeps.via (y := y) ?_ ?_
       on_goal 2 => (intro _; clear_value y)
       on_goal 1 => (dsimp -zeta only [y]; clear y))
    | fail_if_no_progress extract_lets +onlyGivenNames y
    | with_reducible refine Keeps.ite ?_ ?_
    | with_reducible refine Keeps.foldl ?_ ?_ _
    | with_reducible refine Keeps.trans ?_ (applyEarly_keeps ..)
    | with_reducible refine Keeps.trans ?_ (checkGathered_keeps ..)
    | with_reducible refine Keeps.trans ?_ (sendCodes_keeps ..)
    | with_reducible refine Keeps.trans ?_ (endDescriptor_keeps ..)
    | with_reducible refine Keeps.trans ?_ (setBucket_keeps ..)
    | fail_if_no_progress with_reducible refine Keeps.lit ?_ rfl rfl rfl rfl
    | fail_if_no_progress with_reducible refine Keeps.litMod ?_ rfl rfl rfl rfl rfl rfl rfl rfl rfl
    | split
    | fail_if_no_progress dsimp -zeta only
    | refine Keeps.lit ?_ rfl rfl rfl rfl
    | refine Keeps.litMod ?_ rfl rfl rfl rfl rfl rfl rfl rfl rfl
    | refine Keeps.litTo ?_ rfl rfl rfl rfl ⟨nofun, nofun⟩ rfl (fun h => h) rfl rfl)

theorem execRdxGather_keeps (ctx : Fin 16) (ring : Fin 8) (s : State) : Goes 0xe100e117948642 s (execRdxGather ctx ring s) := by
  unfold execRdxGather
  repeat' (first
    | with_reducible exact Keeps.refl _
    | with_reducible assumption
    | intro _
    | with_reducible refine Goes.next ?_
    | with_reducible refine Goes.ite ?_ ?_
    | fail_if_no_progress extract_lets +onlyGivenNames y
    | with_reducible refine Keeps.ite ?_ ?_
    | with_reducible refine Keeps.foldl ?_ ?_ _
    | with_reducible refine Keeps.trans ?_ (startGather_keeps ..)
    | with_reducible refine Keeps.trans ?_ (crzReject_keeps ..)
    | with_reducible refine Keeps.trans ?_ (dispatchOp_keeps _ _ _ _ _ ?_))

theorem stagePart_keeps {F : Nat} (ctx rank : Nat) (b : List Byte) (ps : List Piece) (s : State) (hF : Within 0xa1008115048642 F := by first | rfl | decide) :
    Keeps F s (stagePart ctx rank b ps s) := by
  refine Keeps.mono hF ?_
  unfold stagePart
  extract_lets +onlyGivenNames tag s2
  have h2 : Keeps 0xa1008115048642 s s2 := modGroup_keeps ..
  clear_value s2
  refine Keeps.ite h2 ?_
  split
  · exact h2
  · extract_lets +onlyGivenNames step add s3
    have h3 : Keeps 0xa1008115048642 s s3 := h2.trans (setBucket_keeps ..)
    clear_value s3
    exact (h3.trans (tryDecide_keeps ..)).trans (checkReduced_keeps ..)

theorem whileWaiting_keeps {F : Nat} (kinds : List Instr) (k : Instr → State → State) (s : State) (hk : ∀ i s, Keeps F s (k i s)) :
    Keeps F s (whileWaiting kinds k s) := Keeps.foldl (Keeps.refl s) (fun y i => hk i y) _

theorem takeContrib_keeps {F : Nat} (s : State) (hF : Within 0xe100e11d948642 F := by first | rfl | decide) : Keeps F s (takeContrib s) := by
  refine Keeps.mono hF ?_
  unfold takeContrib
  repeat' (first
    | with_reducible exact Keeps.refl _
    | with_reducible assumption
    | intro _
    | (extract_lets +onlyGivenNames y
       refine Keeps.via (y := y) ?_ ?_
       on_goal 2 => (intro _; clear_value y)
       on_goal 1 => (dsimp -zeta only [y]; clear y))
    | fail_if_no_progress extract_lets +onlyGivenNames y
    | with_reducible refine Keeps.ite ?_ ?_
    | with_reducible refine Keeps.foldl ?_ ?_ _
    | with_reducible refine Keeps.trans ?_ (stagePart_keeps ..)
    | with_reducible refine Keeps.trans ?_ (dropPartial_keeps ..)
    | with_reducible refine Keeps.trans ?_ (onMessage_keeps _ _ _ _ ?_)
    | with_reducible refine Keeps.trans ?_ (noteDup_keeps ..)
    | with_reducible refine Keeps.trans ?_ (noteLate_keeps ..)
    | with_reducible refine Keeps.trans ?_ (assembleMsg_keeps_eq ‹_›)
    | with_reducible refine Keeps.trans ?_ (assembleMsg_keeps ..)
    | fail_if_no_progress with_reducible refine Keeps.lit ?_ rfl rfl rfl rfl
    | fail_if_no_progress with_reducible refine Keeps.litMod ?_ rfl rfl rfl rfl rfl rfl rfl rfl rfl
    | split
    | fail_if_no_progress dsimp -zeta only
    | refine Keeps.lit ?_ rfl rfl rfl rfl
    | refine Keeps.litMod ?_ rfl rfl rfl rfl rfl rfl rfl rfl rfl
    | refine Keeps.litTo ?_ rfl rfl rfl rfl ⟨nofun, nofun⟩ rfl (fun h => h) rfl rfl)

theorem execContrib_keeps (s : State) : Goes 0xe100e11d948642 s (execContrib s) := by
  unfold execContrib
  repeat' (first
    | with_reducible exact Keeps.refl _
    | with_reducible assumption
    | intro _
    | with_reducible refine Goes.next ?_
    | (extract_lets +onlyGivenNames y
       refine Goes.via (y := y) ?_ ?_
       on_goal 2 => (intro _; clear_value y)
       on_goal 1 => (dsimp -zeta only [y]; clear y))
    | with_reducible refine Goes.ite ?_ ?_
    | (extract_lets +onlyGivenNames y
       refine Keeps.via (y := y) ?_ ?_
       on_goal 2 => (intro _; clear_value y)
       on_goal 1 => (dsimp -zeta only [y]; clear y))
    | fail_if_no_progress extract_lets +onlyGivenNames y
    | with_reducible refine Keeps.ite ?_ ?_
    | with_reducible refine Keeps.foldl ?_ ?_ _
    | with_reducible refine Keeps.trans ?_ (takeContrib_keeps ..)
    | fail_if_no_progress with_reducible refine Keeps.lit ?_ rfl rfl rfl rfl
    | fail_if_no_progress with_reducible refine Keeps.litMod ?_ rfl rfl rfl rfl rfl rfl rfl rfl rfl
    | split
    | fail_if_no_progress dsimp -zeta only
    | refine Keeps.lit ?_ rfl rfl rfl rfl
    | refine Keeps.litMod ?_ rfl rfl rfl rfl rfl rfl rfl rfl rfl
    | refine Keeps.litTo ?_ rfl rfl rfl rfl ⟨nofun, nofun⟩ rfl (fun h => h) rfl rfl)

theorem execBucketDeadline_keeps (ctx : Fin 16) (tag : Fin 1024) (taken : Bool) (s : State) : Goes 0xa1008115048642 s (execBucketDeadline ctx tag taken s) := by
  unfold execBucketDeadline
  repeat' (first
    | with_reducible exact Keeps.refl _
    | with_reducible assumption
    | intro _
    | with_reducible refine Goes.next ?_
    | (extract_lets +onlyGivenNames y
       refine Goes.via (y := y) ?_ ?_
       on_goal 2 => (intro _; clear_value y)
       on_goal 1 => (dsimp -zeta only [y]; clear y))
    | with_reducible refine Goes.ite ?_ ?_
    | (extract_lets +onlyGivenNames y
       refine Keeps.via (y := y) ?_ ?_
       on_goal 2 => (intro _; clear_value y)
       on_goal 1 => (dsimp -zeta only [y]; clear y))
    | fail_if_no_progress extract_lets +onlyGivenNames y
    | with_reducible refine Keeps.ite ?_ ?_
    | with_reducible refine Keeps.foldl ?_ ?_ _
    | with_reducible refine Keeps.trans ?_ (checkReduced_keeps ..)
    | with_reducible refine Keeps.trans ?_ (tryDecide_keeps ..)
    | with_reducible refine Keeps.trans ?_ (setBucket_keeps ..)
    | fail_if_no_progress with_reducible refine Keeps.lit ?_ rfl rfl rfl rfl
    | fail_if_no_progress with_reducible refine Keeps.litMod ?_ rfl rfl rfl rfl rfl rfl rfl rfl rfl
    | split
    | fail_if_no_progress dsimp -zeta only
    | refine Keeps.lit ?_ rfl rfl rfl rfl
    | refine Keeps.litMod ?_ rfl rfl rfl rfl rfl rfl rfl rfl rfl
    | refine Keeps.litTo ?_ rfl rfl rfl rfl ⟨nofun, nofun⟩ rfl (fun h => h) rfl rfl)

theorem execBucketAbortTimeout_keeps (ctx : Fin 16) (tag : Fin 1024) (s : State) : Goes 0xe100e11d948642 s (execBucketAbortTimeout ctx tag s) := by
  unfold execBucketAbortTimeout
  repeat' (first
    | with_reducible exact Keeps.refl _
    | with_reducible assumption
    | intro _
    | with_reducible refine Goes.next ?_
    | (extract_lets +onlyGivenNames y
       refine Goes.via (y := y) ?_ ?_
       on_goal 2 => (intro _; clear_value y)
       on_goal 1 => (dsimp -zeta only [y]; clear y))
    | with_reducible refine Goes.ite ?_ ?_
    | (extract_lets +onlyGivenNames y
       refine Keeps.via (y := y) ?_ ?_
       on_goal 2 => (intro _; clear_value y)
       on_goal 1 => (dsimp -zeta only [y]; clear y))
    | fail_if_no_progress extract_lets +onlyGivenNames y
    | with_reducible refine Keeps.ite ?_ ?_
    | with_reducible refine Keeps.foldl ?_ ?_ _
    | with_reducible refine Keeps.trans ?_ (takeContrib_keeps ..)
    | with_reducible refine Keeps.trans ?_ (whileWaiting_keeps _ _ _ ?_)
    | with_reducible refine Keeps.trans ?_ (abortBucket_keeps ..)
    | fail_if_no_progress with_reducible refine Keeps.lit ?_ rfl rfl rfl rfl
    | fail_if_no_progress with_reducible refine Keeps.litMod ?_ rfl rfl rfl rfl rfl rfl rfl rfl rfl
    | split
    | fail_if_no_progress dsimp -zeta only
    | refine Keeps.lit ?_ rfl rfl rfl rfl
    | refine Keeps.litMod ?_ rfl rfl rfl rfl rfl rfl rfl rfl rfl
    | refine Keeps.litTo ?_ rfl rfl rfl rfl ⟨nofun, nofun⟩ rfl (fun h => h) rfl rfl)

theorem partDone_keeps {F : Nat} (ctx tag part : Nat) (b : Bucket) (s : State) (hF : Within 0xe100e113948642 F := by first | rfl | decide) : Keeps F s (partDone ctx tag part b s) := by
  refine Keeps.mono hF ?_
  unfold partDone
  repeat' (first
    | with_reducible exact Keeps.refl _
    | with_reducible assumption
    | intro _
    | (extract_lets +onlyGivenNames y
       refine Keeps.via (y := y) ?_ ?_
       on_goal 2 => (intro _; clear_value y)
       on_goal 1 => (dsimp -zeta only [y]; clear y))
    | fail_if_no_progress extract_lets +onlyGivenNames y
    | with_reducible refine Keeps.ite ?_ ?_
    | with_reducible refine Keeps.foldl ?_ ?_ _
    | with_reducible refine Keeps.trans ?_ (noteStaged_keeps ..)
    | with_reducible refine Keeps.trans ?_ (checkReduced_keeps ..)
    | with_reducible refine Keeps.trans ?_ (setBucket_keeps ..)
    | with_reducible refine Keeps.trans ?_ (sendPartner_keeps ..)
    | with_reducible refine Keeps.trans ?_ (modGroup_keeps ..)
    | with_reducible refine Keeps.trans ?_ (writeMem_keeps ..)
    | with_reducible refine Keeps.trans ?_ (setFlag_keeps ..)
    | fail_if_no_progress with_reducible refine Keeps.lit ?_ rfl rfl rfl rfl
    | fail_if_no_progress with_reducible refine Keeps.litMod ?_ rfl rfl rfl rfl rfl rfl rfl rfl rfl
    | split
    | fail_if_no_progress dsimp -zeta only
    | refine Keeps.lit ?_ rfl rfl rfl rfl
    | refine Keeps.litMod ?_ rfl rfl rfl rfl rfl rfl rfl rfl rfl
    | refine Keeps.litTo ?_ rfl rfl rfl rfl ⟨nofun, nofun⟩ rfl (fun h => h) rfl rfl)

theorem execPartSumDone_keeps (u : Fin 4) (s : State) : Goes 0xe100e117948642 s (execPartSumDone u s) := by
  unfold execPartSumDone
  repeat' (first
    | with_reducible exact Keeps.refl _
    | with_reducible assumption
    | intro _
    | with_reducible refine Goes.next ?_
    | (extract_lets +onlyGivenNames y
       refine Goes.via (y := y) ?_ ?_
       on_goal 2 => (intro _; clear_value y)
       on_goal 1 => (dsimp -zeta only [y]; clear y))
    | with_reducible refine Goes.ite ?_ ?_
    | (extract_lets +onlyGivenNames y
       refine Keeps.via (y := y) ?_ ?_
       on_goal 2 => (intro _; clear_value y)
       on_goal 1 => (dsimp -zeta only [y]; clear y))
    | fail_if_no_progress extract_lets +onlyGivenNames y
    | with_reducible refine Keeps.ite ?_ ?_
    | with_reducible refine Keeps.foldl ?_ ?_ _
    | with_reducible refine Keeps.trans ?_ (partDone_keeps ..)
    | with_reducible refine Keeps.trans ?_ (modCrz_keeps ..)
    | fail_if_no_progress with_reducible refine Keeps.lit ?_ rfl rfl rfl rfl
    | fail_if_no_progress with_reducible refine Keeps.litMod ?_ rfl rfl rfl rfl rfl rfl rfl rfl rfl
    | split)

theorem takeResult_keeps {F : Nat} (s : State) (hF : Within 0xe100e11b948642 F := by first | rfl | decide) : Keeps F s (takeResult s) := by
  refine Keeps.mono hF ?_
  unfold takeResult
  repeat' (first
    | with_reducible exact Keeps.refl _
    | with_reducible assumption
    | intro _
    | (extract_lets +onlyGivenNames y
       refine Keeps.via (y := y) ?_ ?_
       on_goal 2 => (intro _; clear_value y)
       on_goal 1 => (dsimp -zeta only [y]; clear y))
    | fail_if_no_progress extract_lets +onlyGivenNames y
    | with_reducible refine Keeps.ite ?_ ?_
    | with_reducible refine Keeps.foldl ?_ ?_ _
    | with_reducible refine Keeps.trans ?_ (applyResult_keeps ..)
    | with_reducible refine Keeps.trans ?_ (keepEarly_keeps ..)
    | with_reducible refine Keeps.trans ?_ (dropPartial_keeps ..)
    | with_reducible refine Keeps.trans ?_ (onMessage_keeps _ _ _ _ ?_)
    | with_reducible refine Keeps.trans ?_ (assembleMsg_keeps_eq ‹_›)
    | with_reducible refine Keeps.trans ?_ (assembleMsg_keeps ..)
    | fail_if_no_progress with_reducible refine Keeps.lit ?_ rfl rfl rfl rfl
    | fail_if_no_progress with_reducible refine Keeps.litMod ?_ rfl rfl rfl rfl rfl rfl rfl rfl rfl
    | split
    | fail_if_no_progress dsimp -zeta only
    | refine Keeps.lit ?_ rfl rfl rfl rfl
    | refine Keeps.litMod ?_ rfl rfl rfl rfl rfl rfl rfl rfl rfl
    | refine Keeps.litTo ?_ rfl rfl rfl rfl ⟨nofun, nofun⟩ rfl (fun h => h) rfl rfl)

theorem execResult_keeps (s : State) : Goes 0xe100e11b948642 s (execResult s) := by
  unfold execResult
  repeat' (first
    | with_reducible exact Keeps.refl _
    | with_reducible assumption
    | intro _
    | with_reducible refine Goes.next ?_
    | (extract_lets +onlyGivenNames y
       refine Goes.via (y := y) ?_ ?_
       on_goal 2 => (intro _; clear_value y)
       on_goal 1 => (dsimp -zeta only [y]; clear y))
    | with_reducible refine Goes.ite ?_ ?_
    | (extract_lets +onlyGivenNames y
       refine Keeps.via (y := y) ?_ ?_
       on_goal 2 => (intro _; clear_value y)
       on_goal 1 => (dsimp -zeta only [y]; clear y))
    | fail_if_no_progress extract_lets +onlyGivenNames y
    | with_reducible refine Keeps.ite ?_ ?_
    | with_reducible refine Keeps.foldl ?_ ?_ _
    | with_reducible refine Keeps.trans ?_ (takeResult_keeps ..)
    | fail_if_no_progress with_reducible refine Keeps.lit ?_ rfl rfl rfl rfl
    | fail_if_no_progress with_reducible refine Keeps.litMod ?_ rfl rfl rfl rfl rfl rfl rfl rfl rfl
    | split
    | fail_if_no_progress dsimp -zeta only
    | refine Keeps.lit ?_ rfl rfl rfl rfl
    | refine Keeps.litMod ?_ rfl rfl rfl rfl rfl rfl rfl rfl rfl
    | refine Keeps.litTo ?_ rfl rfl rfl rfl ⟨nofun, nofun⟩ rfl (fun h => h) rfl rfl)

theorem takeResultAck_keeps {F : Nat} (s : State) (hF : Within 0xe100e118948642 F := by first | rfl | decide) : Keeps F s (takeResultAck s) := by
  refine Keeps.mono hF ?_
  unfold takeResultAck
  repeat' (first
    | with_reducible exact Keeps.refl _
    | with_reducible assumption
    | intro _
    | (extract_lets +onlyGivenNames y
       refine Keeps.via (y := y) ?_ ?_
       on_goal 2 => (intro _; clear_value y)
       on_goal 1 => (dsimp -zeta only [y]; clear y))
    | fail_if_no_progress extract_lets +onlyGivenNames y
    | with_reducible refine Keeps.ite ?_ ?_
    | with_reducible refine Keeps.foldl ?_ ?_ _
    | with_reducible refine Keeps.trans ?_ (onMessage_keeps _ _ _ _ ?_)
    | with_reducible refine Keeps.trans ?_ (checkReduced_keeps ..)
    | with_reducible refine Keeps.trans ?_ (modBucket_keeps ..)
    | fail_if_no_progress with_reducible refine Keeps.lit ?_ rfl rfl rfl rfl
    | fail_if_no_progress with_reducible refine Keeps.litMod ?_ rfl rfl rfl rfl rfl rfl rfl rfl rfl
    | split
    | fail_if_no_progress dsimp -zeta only
    | refine Keeps.lit ?_ rfl rfl rfl rfl
    | refine Keeps.litMod ?_ rfl rfl rfl rfl rfl rfl rfl rfl rfl
    | refine Keeps.litTo ?_ rfl rfl rfl rfl ⟨nofun, nofun⟩ rfl (fun h => h) rfl rfl)

theorem execResultAck_keeps (s : State) : Goes 0xe100e118948642 s (execResultAck s) := by
  unfold execResultAck
  repeat' (first
    | with_reducible exact Keeps.refl _
    | with_reducible assumption
    | intro _
    | with_reducible refine Goes.next ?_
    | (extract_lets +onlyGivenNames y
       refine Goes.via (y := y) ?_ ?_
       on_goal 2 => (intro _; clear_value y)
       on_goal 1 => (dsimp -zeta only [y]; clear y))
    | with_reducible refine Goes.ite ?_ ?_
    | (extract_lets +onlyGivenNames y
       refine Keeps.via (y := y) ?_ ?_
       on_goal 2 => (intro _; clear_value y)
       on_goal 1 => (dsimp -zeta only [y]; clear y))
    | fail_if_no_progress extract_lets +onlyGivenNames y
    | with_reducible refine Keeps.ite ?_ ?_
    | with_reducible refine Keeps.foldl ?_ ?_ _
    | with_reducible refine Keeps.trans ?_ (takeResultAck_keeps ..)
    | fail_if_no_progress with_reducible refine Keeps.lit ?_ rfl rfl rfl rfl
    | fail_if_no_progress with_reducible refine Keeps.litMod ?_ rfl rfl rfl rfl rfl rfl rfl rfl rfl
    | split
    | fail_if_no_progress dsimp -zeta only
    | refine Keeps.lit ?_ rfl rfl rfl rfl
    | refine Keeps.litMod ?_ rfl rfl rfl rfl rfl rfl rfl rfl rfl
    | refine Keeps.litTo ?_ rfl rfl rfl rfl ⟨nofun, nofun⟩ rfl (fun h => h) rfl rfl)

theorem declareLost_keeps {F : Nat} (s : State) (hF : Within 0xe100e11f948642 F := by first | rfl | decide) : Keeps F s (declareLost s) := by
  refine Keeps.mono hF ?_
  unfold declareLost
  repeat' (first
    | with_reducible exact Keeps.refl _
    | with_reducible assumption
    | intro _
    | (extract_lets +onlyGivenNames y
       refine Keeps.via (y := y) ?_ ?_
       on_goal 2 => (intro _; clear_value y)
       on_goal 1 => (dsimp -zeta only [y]; clear y))
    | fail_if_no_progress extract_lets +onlyGivenNames y
    | with_reducible refine Keeps.ite ?_ ?_
    | with_reducible refine Keeps.foldl ?_ ?_ _
    | with_reducible refine Keeps.trans ?_ (takeResultAck_keeps ..)
    | with_reducible refine Keeps.trans ?_ (takeResult_keeps ..)
    | with_reducible refine Keeps.trans ?_ (whileWaiting_keeps _ _ _ ?_)
    | with_reducible refine Keeps.trans ?_ (partnerLost_keeps ..)
    | fail_if_no_progress with_reducible refine Keeps.lit ?_ rfl rfl rfl rfl
    | fail_if_no_progress with_reducible refine Keeps.litMod ?_ rfl rfl rfl rfl rfl rfl rfl rfl rfl
    | split
    | fail_if_no_progress dsimp -zeta only
    | refine Keeps.lit ?_ rfl rfl rfl rfl
    | refine Keeps.litMod ?_ rfl rfl rfl rfl rfl rfl rfl rfl rfl
    | refine Keeps.litTo ?_ rfl rfl rfl rfl ⟨nofun, nofun⟩ rfl (fun h => h) rfl rfl)

theorem execCodes_keeps (s : State) : Goes 0xe100e11d948642 s (execCodes s) := by
  unfold execCodes
  repeat' (first
    | with_reducible exact Keeps.refl _
    | with_reducible assumption
    | intro _
    | with_reducible refine Goes.next ?_
    | (extract_lets +onlyGivenNames y
       refine Goes.via (y := y) ?_ ?_
       on_goal 2 => (intro _; clear_value y)
       on_goal 1 => (dsimp -zeta only [y]; clear y))
    | with_reducible refine Goes.ite ?_ ?_
    | (extract_lets +onlyGivenNames y
       refine Keeps.via (y := y) ?_ ?_
       on_goal 2 => (intro _; clear_value y)
       on_goal 1 => (dsimp -zeta only [y]; clear y))
    | fail_if_no_progress extract_lets +onlyGivenNames y
    | with_reducible refine Keeps.ite ?_ ?_
    | with_reducible refine Keeps.foldl ?_ ?_ _
    | with_reducible refine Keeps.trans ?_ (applyCodes_keeps ..)
    | with_reducible refine Keeps.trans ?_ (keepEarly_keeps ..)
    | with_reducible refine Keeps.trans ?_ (dropPartial_keeps ..)
    | with_reducible refine Keeps.trans ?_ (onMessage_keeps _ _ _ _ ?_)
    | with_reducible refine Keeps.trans ?_ (modBucket_keeps ..)
    | with_reducible refine Keeps.trans ?_ (bump_keeps ..)
    | with_reducible refine Keeps.trans ?_ (assembleMsg_keeps_eq ‹_›)
    | with_reducible refine Keeps.trans ?_ (assembleMsg_keeps ..)
    | fail_if_no_progress with_reducible refine Keeps.lit ?_ rfl rfl rfl rfl
    | fail_if_no_progress with_reducible refine Keeps.litMod ?_ rfl rfl rfl rfl rfl rfl rfl rfl rfl
    | split
    | fail_if_no_progress dsimp -zeta only
    | refine Keeps.lit ?_ rfl rfl rfl rfl
    | refine Keeps.litMod ?_ rfl rfl rfl rfl rfl rfl rfl rfl rfl
    | refine Keeps.litTo ?_ rfl rfl rfl rfl ⟨nofun, nofun⟩ rfl (fun h => h) rfl rfl)

theorem execAbort_keeps (s : State) : Goes 0x6100611d948042 s (execAbort s) := by
  unfold execAbort
  repeat' (first
    | with_reducible exact Keeps.refl _
    | with_reducible assumption
    | intro _
    | with_reducible refine Goes.next ?_
    | with_reducible refine Goes.ite ?_ ?_
    | fail_if_no_progress extract_lets +onlyGivenNames y
    | with_reducible refine Keeps.ite ?_ ?_
    | with_reducible refine Keeps.foldl ?_ ?_ _
    | with_reducible refine Keeps.trans ?_ (keepEarly_keeps ..)
    | with_reducible refine Keeps.trans ?_ (onMessage_keeps _ _ _ _ ?_)
    | with_reducible refine Keeps.trans ?_ (abortBucket_keeps ..))

theorem execPairHeartbeatSend_keeps (s : State) : Goes 0x60000010108000 s (execPairHeartbeatSend s) := by
  unfold execPairHeartbeatSend
  repeat' (first
    | with_reducible exact Keeps.refl _
    | with_reducible assumption
    | intro _
    | with_reducible refine Goes.next ?_
    | with_reducible refine Goes.ite ?_ ?_
    | fail_if_no_progress extract_lets +onlyGivenNames y
    | with_reducible refine Keeps.ite ?_ ?_
    | with_reducible refine Keeps.foldl ?_ ?_ _
    | with_reducible refine Keeps.trans ?_ (sendHeartbeat_keeps ..))

theorem onPairMessage_keeps {F : Nat} (type : Nat) (k : Inbound → State → State) (s : State) (hk : ∀ a s, Keeps F s (k a s)) (hF : Within 0x60006018908002 F := by first | rfl | decide) : Keeps F s (onPairMessage type k s) := by
  unfold onPairMessage
  repeat' (first
    | with_reducible exact Keeps.refl _
    | with_reducible assumption
    | intro _
    | (extract_lets +onlyGivenNames y
       refine Keeps.via (y := y) ?_ ?_
       on_goal 2 => (intro _; clear_value y)
       on_goal 1 => (dsimp -zeta only [y]; clear y))
    | fail_if_no_progress extract_lets +onlyGivenNames y
    | with_reducible refine Keeps.ite ?_ ?_
    | with_reducible refine Keeps.foldl ?_ ?_ _
    | with_reducible refine Keeps.trans ?_ (hk ..)
    | with_reducible refine Keeps.trans ?_ (Keeps.mono hF (consume_keeps ..))
    | with_reducible refine Keeps.trans ?_ (Keeps.mono hF (fenceDrop_keeps ..))
    | with_reducible refine Keeps.trans ?_ (replyTo_keeps _ _ _ ?_ (by exact Within.trans (by decide) hF))
    | with_reducible refine Keeps.trans ?_ (Keeps.mono hF (sendFencedNotice_keeps ..))
    | with_reducible refine Keeps.trans ?_ (Keeps.mono hF (bump_keeps ..))
    | fail_if_no_progress with_reducible refine Keeps.trans ?_ (Keeps.mono hF (Keeps.lit (Keeps.refl _) rfl rfl rfl rfl))
    | fail_if_no_progress with_reducible refine Keeps.litMod ?_ rfl rfl rfl rfl rfl rfl rfl rfl rfl
    | split)

theorem execPairHeartbeat_keeps (s : State) : Goes 0x6000601a908002 s (execPairHeartbeat s) := by
  unfold execPairHeartbeat
  repeat' (first
    | with_reducible exact Keeps.refl _
    | with_reducible assumption
    | intro _
    | with_reducible refine Goes.next ?_
    | with_reducible refine Goes.ite ?_ ?_
    | fail_if_no_progress extract_lets +onlyGivenNames y
    | with_reducible refine Keeps.ite ?_ ?_
    | with_reducible refine Keeps.foldl ?_ ?_ _
    | with_reducible refine Keeps.trans ?_ (onPairMessage_keeps _ _ _ ?_)
    | with_reducible refine Keeps.trans ?_ (modPair_keeps ..))

theorem execPairLossTimeout_keeps (s : State) : Goes 0x60000012108000 s (execPairLossTimeout s) := by
  unfold execPairLossTimeout
  repeat' (first
    | with_reducible exact Keeps.refl _
    | with_reducible assumption
    | intro _
    | with_reducible refine Goes.next ?_
    | (extract_lets +onlyGivenNames y
       refine Goes.via (y := y) ?_ ?_
       on_goal 2 => (intro _; clear_value y)
       on_goal 1 => (dsimp -zeta only [y]; clear y))
    | with_reducible refine Goes.ite ?_ ?_
    | (extract_lets +onlyGivenNames y
       refine Keeps.via (y := y) ?_ ?_
       on_goal 2 => (intro _; clear_value y)
       on_goal 1 => (dsimp -zeta only [y]; clear y))
    | fail_if_no_progress extract_lets +onlyGivenNames y
    | with_reducible refine Keeps.ite ?_ ?_
    | with_reducible refine Keeps.foldl ?_ ?_ _
    | with_reducible refine Keeps.trans ?_ (sendProbe_keeps ..)
    | with_reducible refine Keeps.trans ?_ (modPair_keeps ..))

theorem execProbe_keeps (s : State) : Goes 0x60006018908002 s (execProbe s) := by
  unfold execProbe
  refine Goes.next (onPairMessage_keeps _ _ _ (fun m y => ?_))
  extract_lets +onlyGivenNames b y1
  have h1 : Keeps 0x60006018908002 y y1 := countSent_keeps ..
  clear_value y1 b
  exact Keeps.ite (h1.trans (queueOn_keeps ..)) (h1.trans (routePacket_keeps ..))

theorem execProbeReply_keeps (s : State) : Goes 0x6000601a908002 s (execProbeReply s) := by
  unfold execProbeReply
  refine Goes.next (onPairMessage_keeps _ _ _ (fun m y => ?_))
  extract_lets +onlyGivenNames b p d r
  clear_value p d r
  refine Keeps.ite (Keeps.ite ?_ (Keeps.ite (modPair_keeps ..) (Keeps.refl _))) (Keeps.ite ?_ (Keeps.refl _))
  · exact Keeps.trans (modPair_keeps ..) (pumpPair_keeps ..)
  · exact Keeps.trans (Keeps.trans (modPair_keeps ..) (setFlag_keeps ..)) (pumpPair_keeps ..)

theorem execProbeWindowExpiry_keeps (s : State) : Goes 0xe100e11f948642 s (execProbeWindowExpiry s) := by
  unfold execProbeWindowExpiry
  repeat' (first
    | with_reducible exact Keeps.refl _
    | with_reducible assumption
    | intro _
    | with_reducible refine Goes.next ?_
    | (extract_lets +onlyGivenNames y
       refine Goes.via (y := y) ?_ ?_
       on_goal 2 => (intro _; clear_value y)
       on_goal 1 => (dsimp -zeta only [y]; clear y))
    | with_reducible refine Goes.ite ?_ ?_
    | (extract_lets +onlyGivenNames y
       refine Keeps.via (y := y) ?_ ?_
       on_goal 2 => (intro _; clear_value y)
       on_goal 1 => (dsimp -zeta only [y]; clear y))
    | fail_if_no_progress extract_lets +onlyGivenNames y
    | with_reducible refine Keeps.ite ?_ ?_
    | with_reducible refine Keeps.foldl ?_ ?_ _
    | with_reducible refine Keeps.trans ?_ (declareLost_keeps ..)
    | fail_if_no_progress with_reducible refine Keeps.lit ?_ rfl rfl rfl rfl
    | fail_if_no_progress with_reducible refine Keeps.litMod ?_ rfl rfl rfl rfl rfl rfl rfl rfl rfl
    | split
    | fail_if_no_progress dsimp -zeta only
    | refine Keeps.lit ?_ rfl rfl rfl rfl
    | refine Keeps.litMod ?_ rfl rfl rfl rfl rfl rfl rfl rfl rfl
    | refine Keeps.litTo ?_ rfl rfl rfl rfl ⟨nofun, nofun⟩ rfl (fun h => h) rfl rfl)

theorem execDegradedProbeTimer_keeps (s : State) : Goes 0x60000010108000 s (execDegradedProbeTimer s) := by
  unfold execDegradedProbeTimer
  repeat' (first
    | with_reducible exact Keeps.refl _
    | with_reducible assumption
    | intro _
    | with_reducible refine Goes.next ?_
    | with_reducible refine Goes.ite ?_ ?_
    | fail_if_no_progress extract_lets +onlyGivenNames y
    | with_reducible refine Keeps.ite ?_ ?_
    | with_reducible refine Keeps.foldl ?_ ?_ _
    | with_reducible refine Keeps.trans ?_ (sendProbe_keeps ..))

theorem execRdxPairWrite_keeps (value : DWord) (s : State) : Goes 0x60004012908006 s (execRdxPairWrite value s) := by
  unfold execRdxPairWrite
  repeat' (first
    | with_reducible exact Keeps.refl _
    | with_reducible assumption
    | intro _
    | with_reducible refine Goes.next ?_
    | with_reducible refine Goes.ite ?_ ?_
    | fail_if_no_progress extract_lets +onlyGivenNames y
    | with_reducible refine Keeps.ite ?_ ?_
    | with_reducible refine Keeps.foldl ?_ ?_ _
    | with_reducible refine Keeps.trans ?_ (sendHeartbeat_keeps ..)
    | with_reducible refine Keeps.trans ?_ (pumpPair_keeps ..)
    | with_reducible refine Keeps.trans ?_ (modPair_keeps ..)
    | with_reducible refine Keeps.trans ?_ (setReg_keeps ..))

theorem compareCrcs_keeps {F : Nat} (ctx : Nat) (m : Nat × Nat × Nat × Nat) (s : State) (hF : Within 0x3000002 F := by first | rfl | decide) : Keeps F s (compareCrcs ctx m s) := by
  refine Keeps.mono hF ?_
  unfold compareCrcs
  repeat' (first
    | with_reducible exact Keeps.refl _
    | with_reducible assumption
    | intro _
    | (extract_lets +onlyGivenNames y
       refine Keeps.via (y := y) ?_ ?_
       on_goal 2 => (intro _; clear_value y)
       on_goal 1 => (dsimp -zeta only [y]; clear y))
    | fail_if_no_progress extract_lets +onlyGivenNames y
    | with_reducible refine Keeps.ite ?_ ?_
    | with_reducible refine Keeps.foldl ?_ ?_ _
    | with_reducible refine Keeps.trans ?_ (modPair_keeps ..)
    | with_reducible refine Keeps.trans ?_ (modGroup_keeps ..)
    | with_reducible refine Keeps.trans ?_ (logEntry_keeps ..)
    | fail_if_no_progress with_reducible refine Keeps.lit ?_ rfl rfl rfl rfl
    | fail_if_no_progress with_reducible refine Keeps.litMod ?_ rfl rfl rfl rfl rfl rfl rfl rfl rfl
    | split
    | fail_if_no_progress dsimp -zeta only
    | refine Keeps.lit ?_ rfl rfl rfl rfl
    | refine Keeps.litMod ?_ rfl rfl rfl rfl rfl rfl rfl rfl rfl
    | refine Keeps.litTo ?_ rfl rfl rfl rfl ⟨nofun, nofun⟩ rfl (fun h => h) rfl rfl)

theorem checkMirror_keeps {F : Nat} (ctx : Nat) (s : State) (hF : Within 0x3000002 F := by first | rfl | decide) : Keeps F s (checkMirror ctx s) := by
  refine Keeps.mono hF ?_
  unfold checkMirror
  repeat' (first
    | with_reducible exact Keeps.refl _
    | with_reducible assumption
    | intro _
    | (extract_lets +onlyGivenNames y
       refine Keeps.via (y := y) ?_ ?_
       on_goal 2 => (intro _; clear_value y)
       on_goal 1 => (dsimp -zeta only [y]; clear y))
    | fail_if_no_progress extract_lets +onlyGivenNames y
    | with_reducible refine Keeps.ite ?_ ?_
    | with_reducible refine Keeps.foldl ?_ ?_ _
    | with_reducible refine Keeps.trans ?_ (compareCrcs_keeps ..)
    | fail_if_no_progress with_reducible refine Keeps.lit ?_ rfl rfl rfl rfl
    | fail_if_no_progress with_reducible refine Keeps.litMod ?_ rfl rfl rfl rfl rfl rfl rfl rfl rfl
    | split
    | fail_if_no_progress dsimp -zeta only
    | refine Keeps.lit ?_ rfl rfl rfl rfl
    | refine Keeps.litMod ?_ rfl rfl rfl rfl rfl rfl rfl rfl rfl
    | refine Keeps.litTo ?_ rfl rfl rfl rfl ⟨nofun, nofun⟩ rfl (fun h => h) rfl rfl)

theorem execMirror_keeps (s : State) : Goes 0xe000e01b908602 s (execMirror s) := by
  unfold execMirror
  repeat' (first
    | with_reducible exact Keeps.refl _
    | with_reducible assumption
    | intro _
    | with_reducible refine Goes.next ?_
    | (extract_lets +onlyGivenNames y
       refine Goes.via (y := y) ?_ ?_
       on_goal 2 => (intro _; clear_value y)
       on_goal 1 => (dsimp -zeta only [y]; clear y))
    | with_reducible refine Goes.ite ?_ ?_
    | (extract_lets +onlyGivenNames y
       refine Keeps.via (y := y) ?_ ?_
       on_goal 2 => (intro _; clear_value y)
       on_goal 1 => (dsimp -zeta only [y]; clear y))
    | fail_if_no_progress extract_lets +onlyGivenNames y
    | with_reducible refine Keeps.ite ?_ ?_
    | with_reducible refine Keeps.foldl ?_ ?_ _
    | with_reducible refine Keeps.trans ?_ (checkMirror_keeps ..)
    | with_reducible refine Keeps.trans ?_ (onMessage_keeps _ _ _ _ ?_)
    | with_reducible refine Keeps.trans ?_ (modGroup_keeps ..)
    | with_reducible refine Keeps.trans ?_ (writeMem_keeps ..)
    | with_reducible refine Keeps.trans ?_ (assembleMsg_keeps_eq ‹_›)
    | with_reducible refine Keeps.trans ?_ (assembleMsg_keeps ..)
    | fail_if_no_progress with_reducible refine Keeps.lit ?_ rfl rfl rfl rfl
    | fail_if_no_progress with_reducible refine Keeps.litMod ?_ rfl rfl rfl rfl rfl rfl rfl rfl rfl
    | split
    | fail_if_no_progress dsimp -zeta only
    | refine Keeps.lit ?_ rfl rfl rfl rfl
    | refine Keeps.litMod ?_ rfl rfl rfl rfl rfl rfl rfl rfl rfl
    | refine Keeps.litTo ?_ rfl rfl rfl rfl ⟨nofun, nofun⟩ rfl (fun h => h) rfl rfl)

theorem decideDivergence_keeps {F : Nat} (ctx n : Nat) (s : State) (hF : Within 0xe100e11f97866b F := by first | rfl | decide) : Keeps F s (decideDivergence ctx n s) := by
  refine Keeps.mono hF ?_
  unfold decideDivergence
  repeat' (first
    | with_reducible exact Keeps.refl _
    | with_reducible assumption
    | intro _
    | (extract_lets +onlyGivenNames y
       refine Keeps.via (y := y) ?_ ?_
       on_goal 2 => (intro _; clear_value y)
       on_goal 1 => (dsimp -zeta only [y]; clear y))
    | fail_if_no_progress extract_lets +onlyGivenNames y
    | with_reducible refine Keeps.ite ?_ ?_
    | with_reducible refine Keeps.foldl ?_ ?_ _
    | with_reducible refine Keeps.trans ?_ (declareLost_keeps ..)
    | with_reducible refine Keeps.trans ?_ (enterFenced_keeps ..)
    | with_reducible refine Keeps.trans ?_ (modGroup_keeps ..)
    | fail_if_no_progress with_reducible refine Keeps.lit ?_ rfl rfl rfl rfl
    | fail_if_no_progress with_reducible refine Keeps.litMod ?_ rfl rfl rfl rfl rfl rfl rfl rfl rfl
    | split
    | fail_if_no_progress dsimp -zeta only
    | refine Keeps.lit ?_ rfl rfl rfl rfl
    | refine Keeps.litMod ?_ rfl rfl rfl rfl rfl rfl rfl rfl rfl
    | refine Keeps.litTo ?_ rfl rfl rfl rfl ⟨nofun, nofun⟩ rfl (fun h => h) rfl rfl)

theorem compareDigest_keeps {F : Nat} (ctx n : Nat) (own : List Byte) (s : State) (hF : Within 0x2003000002 F := by first | rfl | decide) : Keeps F s (compareDigest ctx n own s) := by
  refine Keeps.mono hF ?_
  unfold compareDigest
  repeat' (first
    | with_reducible exact Keeps.refl _
    | with_reducible assumption
    | intro _
    | (extract_lets +onlyGivenNames y
       refine Keeps.via (y := y) ?_ ?_
       on_goal 2 => (intro _; clear_value y)
       on_goal 1 => (dsimp -zeta only [y]; clear y))
    | fail_if_no_progress extract_lets +onlyGivenNames y
    | with_reducible refine Keeps.ite ?_ ?_
    | with_reducible refine Keeps.foldl ?_ ?_ _
    | with_reducible refine Keeps.trans ?_ (modPair_keeps ..)
    | with_reducible refine Keeps.trans ?_ (modGroup_keeps ..)
    | with_reducible refine Keeps.trans ?_ (logEntry_keeps ..)
    | with_reducible refine Keeps.trans ?_ (setFlag_keeps ..)
    | fail_if_no_progress with_reducible refine Keeps.lit ?_ rfl rfl rfl rfl
    | fail_if_no_progress with_reducible refine Keeps.litMod ?_ rfl rfl rfl rfl rfl rfl rfl rfl rfl
    | split
    | fail_if_no_progress dsimp -zeta only
    | refine Keeps.lit ?_ rfl rfl rfl rfl
    | refine Keeps.litMod ?_ rfl rfl rfl rfl rfl rfl rfl rfl rfl
    | refine Keeps.litTo ?_ rfl rfl rfl rfl ⟨nofun, nofun⟩ rfl (fun h => h) rfl rfl)

theorem checkDiverge_keeps {F : Nat} (ctx : Nat) (s : State) (hF : Within 0xe100e11f97866b F := by first | rfl | decide) : Keeps F s (checkDiverge ctx s) := by
  refine Keeps.mono hF ?_
  unfold checkDiverge
  repeat' (first
    | with_reducible exact Keeps.refl _
    | with_reducible assumption
    | intro _
    | (extract_lets +onlyGivenNames y
       refine Keeps.via (y := y) ?_ ?_
       on_goal 2 => (intro _; clear_value y)
       on_goal 1 => (dsimp -zeta only [y]; clear y))
    | fail_if_no_progress extract_lets +onlyGivenNames y
    | with_reducible refine Keeps.ite ?_ ?_
    | with_reducible refine Keeps.foldl ?_ ?_ _
    | with_reducible refine Keeps.trans ?_ (compareDigest_keeps ..)
    | with_reducible refine Keeps.trans ?_ (decideDivergence_keeps ..)
    | fail_if_no_progress with_reducible refine Keeps.lit ?_ rfl rfl rfl rfl
    | fail_if_no_progress with_reducible refine Keeps.litMod ?_ rfl rfl rfl rfl rfl rfl rfl rfl rfl
    | split
    | fail_if_no_progress dsimp -zeta only
    | refine Keeps.lit ?_ rfl rfl rfl rfl
    | refine Keeps.litMod ?_ rfl rfl rfl rfl rfl rfl rfl rfl rfl
    | refine Keeps.litTo ?_ rfl rfl rfl rfl ⟨nofun, nofun⟩ rfl (fun h => h) rfl rfl)

theorem execDigest_keeps (s : State) : Goes 0xe100e11f97866b s (execDigest s) := by
  unfold execDigest
  repeat' (first
    | with_reducible exact Keeps.refl _
    | with_reducible assumption
    | intro _
    | with_reducible refine Goes.next ?_
    | with_reducible refine Goes.ite ?_ ?_
    | fail_if_no_progress extract_lets +onlyGivenNames y
    | with_reducible refine Keeps.ite ?_ ?_
    | with_reducible refine Keeps.foldl ?_ ?_ _
    | with_reducible refine Keeps.trans ?_ (checkDiverge_keeps ..)
    | with_reducible refine Keeps.trans ?_ (onMessage_keeps _ _ _ _ ?_)
    | with_reducible refine Keeps.trans ?_ (modGroup_keeps ..))

theorem execDivergeWaitExpiry_keeps (ctx : Fin 16) (s : State) : Goes 0xe100e11f97866b s (execDivergeWaitExpiry ctx s) := by
  unfold execDivergeWaitExpiry
  repeat' (first
    | with_reducible exact Keeps.refl _
    | with_reducible assumption
    | intro _
    | with_reducible refine Goes.next ?_
    | (extract_lets +onlyGivenNames y
       refine Goes.via (y := y) ?_ ?_
       on_goal 2 => (intro _; clear_value y)
       on_goal 1 => (dsimp -zeta only [y]; clear y))
    | with_reducible refine Goes.ite ?_ ?_
    | (extract_lets +onlyGivenNames y
       refine Keeps.via (y := y) ?_ ?_
       on_goal 2 => (intro _; clear_value y)
       on_goal 1 => (dsimp -zeta only [y]; clear y))
    | fail_if_no_progress extract_lets +onlyGivenNames y
    | with_reducible refine Keeps.ite ?_ ?_
    | with_reducible refine Keeps.foldl ?_ ?_ _
    | with_reducible refine Keeps.trans ?_ (decideDivergence_keeps ..)
    | fail_if_no_progress with_reducible refine Keeps.lit ?_ rfl rfl rfl rfl
    | fail_if_no_progress with_reducible refine Keeps.litMod ?_ rfl rfl rfl rfl rfl rfl rfl rfl rfl
    | split
    | fail_if_no_progress dsimp -zeta only
    | refine Keeps.lit ?_ rfl rfl rfl rfl
    | refine Keeps.litMod ?_ rfl rfl rfl rfl rfl rfl rfl rfl rfl
    | refine Keeps.litTo ?_ rfl rfl rfl rfl ⟨nofun, nofun⟩ rfl (fun h => h) rfl rfl)

theorem onNotice_keeps {F : Nat} (type : Nat) (k : Nat → List Byte → State → State) (s : State) (hk : ∀ a b s, Keeps F s (k a b s)) (hF : Within 0x20000010908000 F := by first | rfl | decide) : Keeps F s (onNotice type k s) := by
  unfold onNotice
  repeat' (first
    | with_reducible exact Keeps.refl _
    | with_reducible assumption
    | intro _
    | (extract_lets +onlyGivenNames y
       refine Keeps.via (y := y) ?_ ?_
       on_goal 2 => (intro _; clear_value y)
       on_goal 1 => (dsimp -zeta only [y]; clear y))
    | fail_if_no_progress extract_lets +onlyGivenNames y
    | with_reducible refine Keeps.ite ?_ ?_
    | with_reducible refine Keeps.foldl ?_ ?_ _
    | with_reducible refine Keeps.trans ?_ (hk ..)
    | with_reducible refine Keeps.trans ?_ (Keeps.mono hF (consume_keeps ..))
    | fail_if_no_progress with_reducible refine Keeps.trans ?_ (Keeps.mono hF (Keeps.lit (Keeps.refl _) rfl rfl rfl rfl))
    | fail_if_no_progress with_reducible refine Keeps.litMod ?_ rfl rfl rfl rfl rfl rfl rfl rfl rfl
    | split)

theorem fencedNotice_keeps {F : Nat} (ctx : Nat) (b : List Byte) (s : State) (hF : Within 0x6100411f97806b F := by first | rfl | decide) : Keeps F s (fencedNotice ctx b s) := by
  refine Keeps.mono hF ?_
  unfold fencedNotice
  repeat' (first
    | with_reducible exact Keeps.refl _
    | with_reducible assumption
    | intro _
    | fail_if_no_progress extract_lets +onlyGivenNames y
    | with_reducible refine Keeps.ite ?_ ?_
    | with_reducible refine Keeps.foldl ?_ ?_ _
    | with_reducible refine Keeps.trans ?_ (enterFenced_keeps ..)
    | with_reducible refine Keeps.trans ?_ (replyTo_keeps _ _ _ ?_)
    | with_reducible refine Keeps.trans ?_ (sendNotice_keeps ..))

theorem epochNotice_keeps {F : Nat} (ctx : Nat) (b : List Byte) (s : State) (hF : Within 0xe100e11f97866b F := by first | rfl | decide) : Keeps F s (epochNotice ctx b s) := by
  refine Keeps.mono hF ?_
  unfold epochNotice
  repeat' (first
    | with_reducible exact Keeps.refl _
    | with_reducible assumption
    | intro _
    | (extract_lets +onlyGivenNames y
       refine Keeps.via (y := y) ?_ ?_
       on_goal 2 => (intro _; clear_value y)
       on_goal 1 => (dsimp -zeta only [y]; clear y))
    | fail_if_no_progress extract_lets +onlyGivenNames y
    | with_reducible refine Keeps.ite ?_ ?_
    | with_reducible refine Keeps.foldl ?_ ?_ _
    | with_reducible refine Keeps.trans ?_ (fencedNotice_keeps ..)
    | with_reducible refine Keeps.trans ?_ (rejoinPair_keeps ..)
    | with_reducible refine Keeps.trans ?_ (adoptEpoch_keeps ..)
    | with_reducible refine Keeps.trans ?_ (setFlag_keeps ..)
    | fail_if_no_progress with_reducible refine Keeps.lit ?_ rfl rfl rfl rfl
    | fail_if_no_progress with_reducible refine Keeps.litMod ?_ rfl rfl rfl rfl rfl rfl rfl rfl rfl
    | split
    | fail_if_no_progress dsimp -zeta only
    | refine Keeps.lit ?_ rfl rfl rfl rfl
    | refine Keeps.litMod ?_ rfl rfl rfl rfl rfl rfl rfl rfl rfl
    | refine Keeps.litTo ?_ rfl rfl rfl rfl ⟨nofun, nofun⟩ rfl (fun h => h) rfl rfl)

theorem takeFencedNotice_keeps {F : Nat} (s : State) (hF : Within 0x6100611f97806b F := by first | rfl | decide) : Keeps F s (takeFencedNotice s) := by
  refine Keeps.mono hF ?_
  unfold takeFencedNotice
  repeat' (first
    | with_reducible exact Keeps.refl _
    | with_reducible assumption
    | intro _
    | (extract_lets +onlyGivenNames y
       refine Keeps.via (y := y) ?_ ?_
       on_goal 2 => (intro _; clear_value y)
       on_goal 1 => (dsimp -zeta only [y]; clear y))
    | fail_if_no_progress extract_lets +onlyGivenNames y
    | with_reducible refine Keeps.ite ?_ ?_
    | with_reducible refine Keeps.foldl ?_ ?_ _
    | with_reducible refine Keeps.trans ?_ (fencedNotice_keeps ..)
    | with_reducible refine Keeps.trans ?_ (onNotice_keeps _ _ _ ?_)
    | with_reducible refine Keeps.trans ?_ (setFlag_keeps ..)
    | fail_if_no_progress with_reducible refine Keeps.lit ?_ rfl rfl rfl rfl
    | fail_if_no_progress with_reducible refine Keeps.litMod ?_ rfl rfl rfl rfl rfl rfl rfl rfl rfl
    | split
    | fail_if_no_progress dsimp -zeta only
    | refine Keeps.lit ?_ rfl rfl rfl rfl
    | refine Keeps.litMod ?_ rfl rfl rfl rfl rfl rfl rfl rfl rfl
    | refine Keeps.litTo ?_ rfl rfl rfl rfl ⟨nofun, nofun⟩ rfl (fun h => h) rfl rfl)

theorem takeEpochNotice_keeps {F : Nat} (s : State) (hF : Within 0xe100e11f97866b F := by first | rfl | decide) : Keeps F s (takeEpochNotice s) := by
  refine Keeps.mono hF ?_
  unfold takeEpochNotice
  repeat' (first
    | with_reducible exact Keeps.refl _
    | with_reducible assumption
    | intro _
    | (extract_lets +onlyGivenNames y
       refine Keeps.via (y := y) ?_ ?_
       on_goal 2 => (intro _; clear_value y)
       on_goal 1 => (dsimp -zeta only [y]; clear y))
    | fail_if_no_progress extract_lets +onlyGivenNames y
    | with_reducible refine Keeps.ite ?_ ?_
    | with_reducible refine Keeps.foldl ?_ ?_ _
    | with_reducible refine Keeps.trans ?_ (takeFencedNotice_keeps ..)
    | with_reducible refine Keeps.trans ?_ (epochNotice_keeps ..)
    | with_reducible refine Keeps.trans ?_ (fencedNotice_keeps ..)
    | with_reducible refine Keeps.trans ?_ (onNotice_keeps _ _ _ ?_)
    | with_reducible refine Keeps.trans ?_ (whileWaiting_keeps _ _ _ ?_)
    | fail_if_no_progress with_reducible refine Keeps.lit ?_ rfl rfl rfl rfl
    | fail_if_no_progress with_reducible refine Keeps.litMod ?_ rfl rfl rfl rfl rfl rfl rfl rfl rfl
    | split
    | fail_if_no_progress dsimp -zeta only
    | refine Keeps.lit ?_ rfl rfl rfl rfl
    | refine Keeps.litMod ?_ rfl rfl rfl rfl rfl rfl rfl rfl rfl
    | refine Keeps.litTo ?_ rfl rfl rfl rfl ⟨nofun, nofun⟩ rfl (fun h => h) rfl rfl)

theorem execEpochNotice_keeps (s : State) : Goes 0xe100e11f97866b s (execEpochNotice s) := by
  unfold execEpochNotice
  repeat' (first
    | with_reducible exact Keeps.refl _
    | with_reducible assumption
    | intro _
    | with_reducible refine Goes.next ?_
    | (extract_lets +onlyGivenNames y
       refine Goes.via (y := y) ?_ ?_
       on_goal 2 => (intro _; clear_value y)
       on_goal 1 => (dsimp -zeta only [y]; clear y))
    | with_reducible refine Goes.ite ?_ ?_
    | (extract_lets +onlyGivenNames y
       refine Keeps.via (y := y) ?_ ?_
       on_goal 2 => (intro _; clear_value y)
       on_goal 1 => (dsimp -zeta only [y]; clear y))
    | fail_if_no_progress extract_lets +onlyGivenNames y
    | with_reducible refine Keeps.ite ?_ ?_
    | with_reducible refine Keeps.foldl ?_ ?_ _
    | with_reducible refine Keeps.trans ?_ (takeEpochNotice_keeps ..)
    | fail_if_no_progress with_reducible refine Keeps.lit ?_ rfl rfl rfl rfl
    | fail_if_no_progress with_reducible refine Keeps.litMod ?_ rfl rfl rfl rfl rfl rfl rfl rfl rfl
    | split
    | fail_if_no_progress dsimp -zeta only
    | refine Keeps.lit ?_ rfl rfl rfl rfl
    | refine Keeps.litMod ?_ rfl rfl rfl rfl rfl rfl rfl rfl rfl
    | refine Keeps.litTo ?_ rfl rfl rfl rfl ⟨nofun, nofun⟩ rfl (fun h => h) rfl rfl)

theorem execFencedNotice_keeps (s : State) : Goes 0x6100611f97806b s (execFencedNotice s) := by
  unfold execFencedNotice
  repeat' (first
    | with_reducible exact Keeps.refl _
    | with_reducible assumption
    | intro _
    | with_reducible refine Goes.next ?_
    | (extract_lets +onlyGivenNames y
       refine Goes.via (y := y) ?_ ?_
       on_goal 2 => (intro _; clear_value y)
       on_goal 1 => (dsimp -zeta only [y]; clear y))
    | with_reducible refine Goes.ite ?_ ?_
    | (extract_lets +onlyGivenNames y
       refine Keeps.via (y := y) ?_ ?_
       on_goal 2 => (intro _; clear_value y)
       on_goal 1 => (dsimp -zeta only [y]; clear y))
    | fail_if_no_progress extract_lets +onlyGivenNames y
    | with_reducible refine Keeps.ite ?_ ?_
    | with_reducible refine Keeps.foldl ?_ ?_ _
    | with_reducible refine Keeps.trans ?_ (takeFencedNotice_keeps ..)
    | fail_if_no_progress with_reducible refine Keeps.lit ?_ rfl rfl rfl rfl
    | fail_if_no_progress with_reducible refine Keeps.litMod ?_ rfl rfl rfl rfl rfl rfl rfl rfl rfl
    | split
    | fail_if_no_progress dsimp -zeta only
    | refine Keeps.lit ?_ rfl rfl rfl rfl
    | refine Keeps.litMod ?_ rfl rfl rfl rfl rfl rfl rfl rfl rfl
    | refine Keeps.litTo ?_ rfl rfl rfl rfl ⟨nofun, nofun⟩ rfl (fun h => h) rfl rfl)

theorem execEpochHoldExpiry_keeps (s : State) : Goes 0x20000008000002 s (execEpochHoldExpiry s) := by
  unfold execEpochHoldExpiry
  repeat' (first
    | with_reducible exact Keeps.refl _
    | with_reducible assumption
    | intro _
    | with_reducible refine Goes.next ?_
    | (extract_lets +onlyGivenNames y
       refine Goes.via (y := y) ?_ ?_
       on_goal 2 => (intro _; clear_value y)
       on_goal 1 => (dsimp -zeta only [y]; clear y))
    | with_reducible refine Goes.ite ?_ ?_
    | (extract_lets +onlyGivenNames y
       refine Keeps.via (y := y) ?_ ?_
       on_goal 2 => (intro _; clear_value y)
       on_goal 1 => (dsimp -zeta only [y]; clear y))
    | fail_if_no_progress extract_lets +onlyGivenNames y
    | with_reducible refine Keeps.ite ?_ ?_
    | with_reducible refine Keeps.foldl ?_ ?_ _
    | with_reducible refine Keeps.trans ?_ (holdDrop_keeps ..)
    | fail_if_no_progress with_reducible refine Keeps.lit ?_ rfl rfl rfl rfl
    | fail_if_no_progress with_reducible refine Keeps.litMod ?_ rfl rfl rfl rfl rfl rfl rfl rfl rfl
    | split
    | fail_if_no_progress dsimp -zeta only
    | refine Keeps.lit ?_ rfl rfl rfl rfl
    | refine Keeps.litMod ?_ rfl rfl rfl rfl rfl rfl rfl rfl rfl
    | refine Keeps.litTo ?_ rfl rfl rfl rfl ⟨nofun, nofun⟩ rfl (fun h => h) rfl rfl)

theorem adoptNext_keeps {F : Nat} (ctx : Nat) (declarer : Option Nat) (s : State) (hF : Within 0xe100e11d948642 F := by first | rfl | decide) : Keeps F s (adoptNext ctx declarer s) := by
  refine Keeps.mono hF ?_
  unfold adoptNext
  repeat' (first
    | with_reducible exact Keeps.refl _
    | with_reducible assumption
    | intro _
    | (extract_lets +onlyGivenNames y
       refine Keeps.via (y := y) ?_ ?_
       on_goal 2 => (intro _; clear_value y)
       on_goal 1 => (dsimp -zeta only [y]; clear y))
    | fail_if_no_progress extract_lets +onlyGivenNames y
    | with_reducible refine Keeps.ite ?_ ?_
    | with_reducible refine Keeps.foldl ?_ ?_ _
    | with_reducible refine Keeps.trans ?_ (adoptEpoch_keeps ..)
    | fail_if_no_progress with_reducible refine Keeps.lit ?_ rfl rfl rfl rfl
    | fail_if_no_progress with_reducible refine Keeps.litMod ?_ rfl rfl rfl rfl rfl rfl rfl rfl rfl
    | split
    | fail_if_no_progress dsimp -zeta only
    | refine Keeps.lit ?_ rfl rfl rfl rfl
    | refine Keeps.litMod ?_ rfl rfl rfl rfl rfl rfl rfl rfl rfl
    | refine Keeps.litTo ?_ rfl rfl rfl rfl ⟨nofun, nofun⟩ rfl (fun h => h) rfl rfl)

theorem setAdmitResult_keeps {F : Nat} (ctx v : Nat) (s : State) (hF : Within 0x1000000 F := by first | rfl | decide) : Keeps F s (setAdmitResult ctx v s) := by
  refine Keeps.mono hF ?_
  unfold setAdmitResult
  repeat' (first
    | with_reducible exact Keeps.refl _
    | with_reducible assumption
    | intro _
    | fail_if_no_progress extract_lets +onlyGivenNames y
    | with_reducible refine Keeps.ite ?_ ?_
    | with_reducible refine Keeps.foldl ?_ ?_ _
    | with_reducible refine Keeps.trans ?_ (modGroup_keeps ..))

theorem execInstall_keeps (ctx : Fin 16) (s : State) : Goes 0xe100e11f948642 s (execInstall ctx s) := by
  unfold execInstall
  repeat' (first
    | with_reducible exact Keeps.refl _
    | with_reducible assumption
    | intro _
    | with_reducible refine Goes.next ?_
    | (extract_lets +onlyGivenNames y
       refine Goes.via (y := y) ?_ ?_
       on_goal 2 => (intro _; clear_value y)
       on_goal 1 => (dsimp -zeta only [y]; clear y))
    | with_reducible refine Goes.ite ?_ ?_
    | (extract_lets +onlyGivenNames y
       refine Keeps.via (y := y) ?_ ?_
       on_goal 2 => (intro _; clear_value y)
       on_goal 1 => (dsimp -zeta only [y]; clear y))
    | fail_if_no_progress extract_lets +onlyGivenNames y
    | with_reducible refine Keeps.ite ?_ ?_
    | with_reducible refine Keeps.foldl ?_ ?_ _
    | with_reducible refine Keeps.trans ?_ (setAdmitResult_keeps ..)
    | with_reducible refine Keeps.trans ?_ (adoptNext_keeps ..)
    | with_reducible refine Keeps.trans ?_ (modPair_keeps ..))

theorem execAdmit_safe (ctx : Fin 16) (s : State) : SafeGoes 0xe100e11f97866b s (execAdmit ctx s) := by
  unfold execAdmit
  extract_lets +onlyGivenNames s0
  have h0 : Keeps 0xe100e11f97866b s s0 := Keeps.ite (whileWaiting_keeps _ _ _ fun _ _ => takeEpochNotice_keeps ..) (Keeps.refl s)
  clear_value s0
  split
  · exact (Goes.next h0).safe
  · split
    · exact (Goes.next (h0.trans (setAdmitResult_keeps ..))).safe
    · split
      · exact (Goes.next (h0.trans (setAdmitResult_keeps ..))).safe
      · extract_lets +onlyGivenNames cs m s1 s2 s3 s4
        have h1 : Safe 0xe100e11f97866b s0 s1 := ⟨Frame.of, Tables.of, rfl, id, id, id, fun _ _ => rfl⟩
        have h2 : Keeps 0xe100e11f97866b s1 s2 := Keeps.foldl (Keeps.refl s1) (fun y c => adoptNext_keeps ..) _
        have h3 : Keeps 0xe100e11f97866b s1 s3 := Keeps.foldl h2 (fun y c => sendNotices_keeps ..) _
        have h4 : Keeps 0xe100e11f97866b s1 s4 := h3.trans (modPair_keeps ..)
        exact ⟨_, rfl, h0.safe.trans (h1.trans ((h4.trans (sendHeartbeat_keeps ..)).trans (setAdmitResult_keeps ..)).safe)⟩

theorem crzReset_keeps {F : Nat} (u : Nat) (j : SumJob) (s : State) (hF : Within 0x400040004000006 F := by first | rfl | decide) : Keeps F s (crzReset u j s) := by
  refine Keeps.mono hF ?_
  unfold crzReset
  repeat' (first
    | with_reducible exact Keeps.refl _
    | with_reducible assumption
    | intro _
    | (extract_lets +onlyGivenNames y
       refine Keeps.via (y := y) ?_ ?_
       on_goal 2 => (intro _; clear_value y)
       on_goal 1 => (dsimp -zeta only [y]; clear y))
    | fail_if_no_progress extract_lets +onlyGivenNames y
    | with_reducible refine Keeps.ite ?_ ?_
    | with_reducible refine Keeps.foldl ?_ ?_ _
    | with_reducible refine Keeps.trans ?_ (modCrz_keeps ..)
    | with_reducible refine Keeps.trans ?_ (takeOutOfService_keeps ..)
    | with_reducible refine Keeps.trans ?_ (noteEngineReset_keeps ..)
    | with_reducible refine Keeps.trans ?_ (logEntry_keeps ..)
    | fail_if_no_progress with_reducible refine Keeps.lit ?_ rfl rfl rfl rfl
    | fail_if_no_progress with_reducible refine Keeps.litMod ?_ rfl rfl rfl rfl rfl rfl rfl rfl rfl
    | split
    | fail_if_no_progress dsimp -zeta only
    | refine Keeps.lit ?_ rfl rfl rfl rfl
    | refine Keeps.litMod ?_ rfl rfl rfl rfl rfl rfl rfl rfl rfl
    | refine Keeps.litTo ?_ rfl rfl rfl rfl ⟨nofun, nofun⟩ rfl (fun h => h) rfl rfl)

theorem execCredenzaProgressWatchdog_keeps (u : Fin 4) (s : State) : Goes 0x461046115948046 s (execCredenzaProgressWatchdog u s) := by
  unfold execCredenzaProgressWatchdog
  cases (crzUnit s u).queue with
  | nil => exact Goes.next (Keeps.refl s)
  | cons j js =>
    dsimp only
    refine Goes.ite (Goes.next (Keeps.refl s)) (Goes.next ?_)
    have h : Keeps 0x461046115948046 s (crzReset u j (yieldToReset s)) := Keeps.trans (yieldToReset_keeps ..) (crzReset_keeps ..)
    generalize crzReset u j (yieldToReset s) = y at h
    exact Keeps.foldl h (fun z k => abortBucket_keeps ..) _

end Sys2Proof.Machine
end

