-- ==== Sys2Proof/Laws/KeepsSteps.lean ====
section
/-!
SUPPORT. What the operations of Machine/Steps.lean keep.
-/
set_option Elab.async false

namespace Sys2Proof.Machine

theorem dropOldMessages_keeps {F : Nat} (ctx step : Nat) (repeated : Bool) (s : State) (hF : Within 0x1000000 F := by first | rfl | decide) : Keeps F s (dropOldMessages ctx step repeated s) := by
  refine Keeps.mono hF ?_
  unfold dropOldMessages
  repeat' (first
    | with_reducible exact Keeps.refl _
    | with_reducible assumption
    | intro _
    | fail_if_no_progress extract_lets +onlyGivenNames y
    | with_reducible refine Keeps.ite ?_ ?_
    | with_reducible refine Keeps.foldl ?_ ?_ _
    | with_reducible refine Keeps.trans ?_ (modGroup_keeps ..))

theorem startCommit_keeps {F : Nat} (ctx : Nat) (r : DRef) (b : List Byte) (s : State) (hF : Within 0x81008411058647 F := by first | rfl | decide) : Keeps F s (startCommit ctx r b s) := by
  refine Keeps.mono hF ?_
  unfold startCommit
  repeat' (first
    | with_reducible exact Keeps.refl _
    | with_reducible assumption
    | intro _
    | (extract_lets +onlyGivenNames y
       refine Keeps.via (y := y) ?_ ?_
       on_goal 2 => (intro _; clear_value y)
       on_goal 1 => (dsimp -zeta only [y]; clear y))
    | fail_if_no_progress extract_lets +onlyGivenNames y
    | with_reducible refine Keeps.ite ?_ ?_
    | with_reducible refine Keeps.foldl ?_ ?_ _
    | with_reducible refine Keeps.trans ?_ (dropOldMessages_keeps ..)
    | with_reducible refine Keeps.trans ?_ (tryCommit_keeps ..)
    | with_reducible refine Keeps.trans ?_ (modStepCtx_keeps ..)
    | fail_if_no_progress with_reducible refine Keeps.lit ?_ rfl rfl rfl rfl
    | fail_if_no_progress with_reducible refine Keeps.litMod ?_ rfl rfl rfl rfl rfl rfl rfl rfl rfl
    | split
    | fail_if_no_progress dsimp -zeta only
    | refine Keeps.lit ?_ rfl rfl rfl rfl
    | refine Keeps.litMod ?_ rfl rfl rfl rfl rfl rfl rfl rfl rfl
    | refine Keeps.litTo ?_ rfl rfl rfl rfl ⟨nofun, nofun⟩ rfl (fun h => h) rfl rfl)

theorem execStepBegin_keeps (ctx : Fin 16) (ring : Fin 8) (s : State) : Goes 0x81008411058647 s (execStepBegin ctx ring s) := by
  unfold execStepBegin
  refine Goes.next (dispatchOp_keeps _ _ _ _ _ ?_)
  intro a s
  extract_lets s1 st s2 s3
  have h1 : Keeps 0x81008411058647 s s1 := modStepCtx_keeps ..
  clear_value s1 st
  have h2 : Keeps 0x81008411058647 s s2 := Keeps.foldl h1 (fun y e => noteRead_keeps ..) _
  clear_value s2
  refine Keeps.ite (h2.trans (startCommit_keeps ..)) ?_
  have h3 : Keeps 0x81008411058647 s s3 := Keeps.ite (h2.trans (applyStagedMaps_keeps ..)) h2
  exact h3.trans (reject_keeps ..)

theorem execRuleInputPresent_keeps (ctx : Fin 16) (s : State) : Goes 0x81008410058647 s (execRuleInputPresent ctx s) := by
  unfold execRuleInputPresent
  repeat' (first
    | with_reducible exact Keeps.refl _
    | with_reducible assumption
    | intro _
    | with_reducible refine Goes.next ?_
    | with_reducible refine Goes.ite ?_ ?_
    | fail_if_no_progress extract_lets +onlyGivenNames y
    | with_reducible refine Keeps.ite ?_ ?_
    | with_reducible refine Keeps.foldl ?_ ?_ _
    | with_reducible refine Keeps.trans ?_ (tryCommit_keeps ..))

theorem execRuleInputStaleTimeout_keeps (ctx : Fin 16) (s : State) : Goes 0x81008410058647 s (execRuleInputStaleTimeout ctx s) := by
  unfold execRuleInputStaleTimeout
  repeat' (first
    | with_reducible exact Keeps.refl _
    | with_reducible assumption
    | intro _
    | with_reducible refine Goes.next ?_
    | with_reducible refine Goes.ite ?_ ?_
    | fail_if_no_progress extract_lets +onlyGivenNames y
    | with_reducible refine Keeps.ite ?_ ?_
    | with_reducible refine Keeps.foldl ?_ ?_ _
    | with_reducible refine Keeps.trans ?_ (endUnbegun_keeps ..)
    | with_reducible refine Keeps.trans ?_ (tryCommit_keeps ..)
    | fail_if_no_progress with_reducible refine Keeps.lit ?_ rfl rfl rfl rfl
    | fail_if_no_progress with_reducible refine Keeps.litMod ?_ rfl rfl rfl rfl rfl rfl rfl rfl rfl
    | split)

theorem endGate_keeps {F : Nat} (ctx : Nat) (r : DRef) (since status : Nat) (s : State) (hF : Within 0x81008010048642 F := by first | rfl | decide) : Keeps F s (endGate ctx r since status s) := by
  refine Keeps.mono hF ?_
  unfold endGate
  repeat' (first
    | with_reducible exact Keeps.refl _
    | with_reducible assumption
    | intro _
    | (extract_lets +onlyGivenNames y
       refine Keeps.via (y := y) ?_ ?_
       on_goal 2 => (intro _; clear_value y)
       on_goal 1 => (dsimp -zeta only [y]; clear y))
    | fail_if_no_progress extract_lets +onlyGivenNames y
    | with_reducible refine Keeps.ite ?_ ?_
    | with_reducible refine Keeps.foldl ?_ ?_ _
    | with_reducible refine Keeps.trans ?_ (writeHeader_keeps ..)
    | with_reducible refine Keeps.trans ?_ (completeWith_keeps ..)
    | with_reducible refine Keeps.trans ?_ (modOpen_keeps ..)
    | with_reducible refine Keeps.trans ?_ (modStepCtx_keeps ..)
    | fail_if_no_progress with_reducible refine Keeps.lit ?_ rfl rfl rfl rfl
    | fail_if_no_progress with_reducible refine Keeps.litMod ?_ rfl rfl rfl rfl rfl rfl rfl rfl rfl
    | split
    | fail_if_no_progress dsimp -zeta only
    | refine Keeps.lit ?_ rfl rfl rfl rfl
    | refine Keeps.litMod ?_ rfl rfl rfl rfl rfl rfl rfl rfl rfl
    | refine Keeps.litTo ?_ rfl rfl rfl rfl ⟨nofun, nofun⟩ rfl (fun h => h) rfl rfl)

theorem pollGate_keeps {F : Nat} (ctx : Nat) (r : DRef) (since : Nat) (s : State) (hF : Within 0x81008010048642 F := by first | rfl | decide) : Keeps F s (pollGate ctx r since s) := by
  refine Keeps.mono hF ?_
  unfold pollGate
  repeat' (first
    | with_reducible exact Keeps.refl _
    | with_reducible assumption
    | intro _
    | (extract_lets +onlyGivenNames y
       refine Keeps.via (y := y) ?_ ?_
       on_goal 2 => (intro _; clear_value y)
       on_goal 1 => (dsimp -zeta only [y]; clear y))
    | fail_if_no_progress extract_lets +onlyGivenNames y
    | with_reducible refine Keeps.ite ?_ ?_
    | with_reducible refine Keeps.foldl ?_ ?_ _
    | fail_if_no_progress with_reducible refine Keeps.lit ?_ rfl rfl rfl rfl
    | fail_if_no_progress with_reducible refine Keeps.litMod ?_ rfl rfl rfl rfl rfl rfl rfl rfl rfl
    | split
    | fail_if_no_progress dsimp -zeta only
    | with_reducible refine Keeps.trans ?_ (endGate_keeps ..)
    | with_reducible refine Keeps.trans ?_ (captureSizes_keeps ..)
    | with_reducible refine Keeps.trans ?_ (noteSizes_keeps ..)
    | with_reducible refine Keeps.trans ?_ (modOpen_keeps ..)
    | refine Keeps.lit ?_ rfl rfl rfl rfl
    | refine Keeps.litMod ?_ rfl rfl rfl rfl rfl rfl rfl rfl rfl
    | refine Keeps.litTo ?_ rfl rfl rfl rfl ⟨nofun, nofun⟩ rfl (fun h => h) rfl rfl)

theorem execStepGate_keeps (ctx : Fin 16) (ring : Fin 8) (s : State) : Goes 0x81008010048642 s (execStepGate ctx ring s) := by
  unfold execStepGate
  repeat' (first
    | with_reducible exact Keeps.refl _
    | with_reducible assumption
    | intro _
    | with_reducible refine Goes.next ?_
    | with_reducible refine Goes.ite ?_ ?_
    | fail_if_no_progress extract_lets +onlyGivenNames y
    | with_reducible refine Keeps.ite ?_ ?_
    | with_reducible refine Keeps.foldl ?_ ?_ _
    | with_reducible refine Keeps.trans ?_ (pollGate_keeps ..)
    | with_reducible refine Keeps.trans ?_ (dispatchOp_keeps _ _ _ _ _ ?_)
    | with_reducible refine Keeps.trans ?_ (completeWith_keeps ..)
    | with_reducible refine Keeps.trans ?_ (modOpen_keeps ..)
    | fail_if_no_progress with_reducible refine Keeps.lit ?_ rfl rfl rfl rfl
    | fail_if_no_progress with_reducible refine Keeps.litMod ?_ rfl rfl rfl rfl rfl rfl rfl rfl rfl
    | split)

theorem execStepsizeTableCurrent_keeps (ctx : Fin 16) (s : State) : Goes 0x81008010048642 s (execStepsizeTableCurrent ctx s) := by
  unfold execStepsizeTableCurrent
  repeat' (first
    | with_reducible exact Keeps.refl _
    | with_reducible assumption
    | intro _
    | with_reducible refine Goes.next ?_
    | with_reducible refine Goes.ite ?_ ?_
    | fail_if_no_progress extract_lets +onlyGivenNames y
    | with_reducible refine Keeps.ite ?_ ?_
    | with_reducible refine Keeps.foldl ?_ ?_ _
    | with_reducible refine Keeps.trans ?_ (pollGate_keeps ..)
    | fail_if_no_progress with_reducible refine Keeps.lit ?_ rfl rfl rfl rfl
    | fail_if_no_progress with_reducible refine Keeps.litMod ?_ rfl rfl rfl rfl rfl rfl rfl rfl rfl
    | split)

theorem execStepsizeStaleTimeout_keeps (ctx : Fin 16) (s : State) : Goes 0x81008010048642 s (execStepsizeStaleTimeout ctx s) := by
  unfold execStepsizeStaleTimeout
  repeat' (first
    | with_reducible exact Keeps.refl _
    | with_reducible assumption
    | intro _
    | with_reducible refine Goes.next ?_
    | (extract_lets +onlyGivenNames y
       refine Goes.via (y := y) ?_ ?_
       on_goal 2 => (intro _; clear_value y)
       on_goal 1 => (dsimp -zeta only [y]; clear y))
    | with_reducible refine Goes.ite ?_ ?_
    | (extract_lets +onlyGivenNames y
       refine Keeps.via (y := y) ?_ ?_
       on_goal 2 => (intro _; clear_value y)
       on_goal 1 => (dsimp -zeta only [y]; clear y))
    | fail_if_no_progress extract_lets +onlyGivenNames y
    | with_reducible refine Keeps.ite ?_ ?_
    | with_reducible refine Keeps.foldl ?_ ?_ _
    | with_reducible refine Keeps.trans ?_ (pollGate_keeps ..)
    | with_reducible refine Keeps.trans ?_ (endGate_keeps ..)
    | fail_if_no_progress with_reducible refine Keeps.lit ?_ rfl rfl rfl rfl
    | fail_if_no_progress with_reducible refine Keeps.litMod ?_ rfl rfl rfl rfl rfl rfl rfl rfl rfl
    | split)

theorem writeSlots_keeps {F : Nat} (o : OpenStep) (s : State) (hF : Within 0x80008000000602 F := by first | rfl | decide) : Keeps F s (writeSlots o s) := by
  refine Keeps.mono hF ?_
  unfold writeSlots
  repeat' (first
    | with_reducible exact Keeps.refl _
    | with_reducible assumption
    | intro _
    | fail_if_no_progress extract_lets +onlyGivenNames y
    | with_reducible refine Keeps.ite ?_ ?_
    | with_reducible refine Keeps.foldl ?_ ?_ _
    | with_reducible refine Keeps.trans ?_ (writeMem_keeps ..)
    | fail_if_no_progress with_reducible refine Keeps.lit ?_ rfl rfl rfl rfl
    | fail_if_no_progress with_reducible refine Keeps.litMod ?_ rfl rfl rfl rfl rfl rfl rfl rfl rfl
    | split)

theorem sendClosing_keeps {F : Nat} (ctx : Nat) (r : DRef) (o : OpenStep) (s : State) (hF : Within 0xe100e11f97866b F := by first | rfl | decide) : Keeps F s (sendClosing ctx r o s) := by
  refine Keeps.mono hF ?_
  unfold sendClosing
  repeat' (first
    | with_reducible exact Keeps.refl _
    | with_reducible assumption
    | intro _
    | (extract_lets +onlyGivenNames y
       refine Keeps.via (y := y) ?_ ?_
       on_goal 2 => (intro _; clear_value y)
       on_goal 1 => (dsimp -zeta only [y]; clear y))
    | fail_if_no_progress extract_lets +onlyGivenNames y
    | with_reducible refine Keeps.ite ?_ ?_
    | with_reducible refine Keeps.foldl ?_ ?_ _
    | with_reducible refine Keeps.trans ?_ (checkDiverge_keeps ..)
    | with_reducible refine Keeps.trans ?_ (checkMirror_keeps ..)
    | with_reducible refine Keeps.trans ?_ (sendPartner_keeps ..)
    | with_reducible refine Keeps.trans ?_ (sendRank_keeps ..)
    | with_reducible refine Keeps.trans ?_ (modGroup_keeps ..)
    | with_reducible refine Keeps.trans ?_ (noteRead_keeps ..)
    | fail_if_no_progress with_reducible refine Keeps.lit ?_ rfl rfl rfl rfl
    | fail_if_no_progress with_reducible refine Keeps.litMod ?_ rfl rfl rfl rfl rfl rfl rfl rfl rfl
    | split
    | fail_if_no_progress dsimp -zeta only
    | refine Keeps.lit ?_ rfl rfl rfl rfl
    | refine Keeps.litMod ?_ rfl rfl rfl rfl rfl rfl rfl rfl rfl
    | refine Keeps.litTo ?_ rfl rfl rfl rfl ⟨nofun, nofun⟩ rfl (fun h => h) rfl rfl)

theorem closeStep_keeps {F : Nat} (ctx ring : Nat) (r : DRef) (abandon : Bool) (s : State) (hF : Within 0xe100e11f97866b F := by first | rfl | decide) : Keeps F s (closeStep ctx ring r abandon s) := by
  refine Keeps.mono hF ?_
  unfold closeStep
  extract_lets s1 s2
  have h1 : Keeps 0xe100e11f97866b s s1 := by
    refine Keeps.foldl (Keeps.refl s) ?_ _
    intro y tag
    split
    · exact Keeps.ite (Keeps.refl y) (abortBucket_keeps ..)
    · exact Keeps.refl y
  have h2 : Keeps 0xe100e11f97866b s s2 := h1.trans (modOpen_keeps ..)
  clear_value s2
  split
  · exact h2
  · extract_lets head s3 s4 s5 s6 s7 m s8
    have h5 : Keeps 0xe100e11f97866b s2 s5 := ((writeMem_keeps ..).trans (writeSlots_keeps ..)).trans (modStepCtx_keeps ..)
    have h7 : Keeps 0xe100e11f97866b s2 s7 := (h5.trans (modRing_keeps ..)).trans (sendClosing_keeps ..)
    clear_value s7
    have h8 : Keeps 0xe100e11f97866b s7 s8 := by
      dsimp only [s8, m]
      split
      · rename_i h
        exact ⟨Frame.of, Tables.of, rfl, id, id, id, id, id, fun k _ => k (Or.inr h.1), id, Nat.le_refl _, rfl, rfl⟩
      · exact Keeps.refl s7
    exact (((h2.trans h7).trans h8).trans (complete_keeps ..))

theorem execStepEnd_keeps (ctx : Fin 16) (ring : Fin 8) (s : State) : Goes 0xe100e11f97866b s (execStepEnd ctx ring s) := by
  unfold execStepEnd
  repeat' (first
    | with_reducible exact Keeps.refl _
    | with_reducible assumption
    | intro _
    | with_reducible refine Goes.next ?_
    | (extract_lets +onlyGivenNames y
       refine Goes.via (y := y) ?_ ?_
       on_goal 2 => (intro _; clear_value y)
       on_goal 1 => (dsimp -zeta only [y]; clear y))
    | with_reducible refine Goes.ite ?_ ?_
    | (extract_lets +onlyGivenNames y
       refine Keeps.via (y := y) ?_ ?_
       on_goal 2 => (intro _; clear_value y)
       on_goal 1 => (dsimp -zeta only [y]; clear y))
    | fail_if_no_progress extract_lets +onlyGivenNames y
    | with_reducible refine Keeps.ite ?_ ?_
    | with_reducible refine Keeps.foldl ?_ ?_ _
    | with_reducible refine Keeps.trans ?_ (closeStep_keeps ..)
    | with_reducible refine Keeps.trans ?_ (dispatchOp_keeps _ _ _ _ _ ?_)
    | with_reducible refine Keeps.trans ?_ (reject_keeps ..)
    | with_reducible refine Keeps.trans ?_ (complete_keeps ..)
    | with_reducible refine Keeps.trans ?_ (settleBad_keeps ..)
    | fail_if_no_progress with_reducible refine Keeps.lit ?_ rfl rfl rfl rfl
    | fail_if_no_progress with_reducible refine Keeps.litMod ?_ rfl rfl rfl rfl rfl rfl rfl rfl rfl
    | split
    | fail_if_no_progress dsimp -zeta only
    | refine Keeps.lit ?_ rfl rfl rfl rfl
    | refine Keeps.litMod ?_ rfl rfl rfl rfl rfl rfl rfl rfl rfl
    | refine Keeps.litTo ?_ rfl rfl rfl rfl ⟨nofun, nofun⟩ rfl (fun h => h) rfl rfl)

theorem noteCtxWatchdog_keeps {F : Nat} (ctx : Nat) (s : State) (hF : Within 0x400040000000002 F := by first | rfl | decide) : Keeps F s (noteCtxWatchdog ctx s) := by
  refine Keeps.mono hF ?_
  unfold noteCtxWatchdog
  repeat' (first
    | with_reducible exact Keeps.refl _
    | with_reducible assumption
    | intro _
    | fail_if_no_progress extract_lets +onlyGivenNames y
    | with_reducible refine Keeps.ite ?_ ?_
    | with_reducible refine Keeps.foldl ?_ ?_ _
    | with_reducible refine Keeps.trans ?_ (logEntry_keeps ..)
    | with_reducible refine Keeps.trans ?_ (bump_keeps ..)
    | with_reducible refine Keeps.trans ?_ (setFlag_keeps ..))

theorem flushRing_keeps {F : Nat} (ctx ring : Nat) (s : State) (hF : Within 0x40 F := by first | rfl | decide) : Keeps F s (flushRing ctx ring s) := by
  refine Keeps.mono hF ?_
  unfold flushRing
  repeat' (first
    | with_reducible exact Keeps.refl _
    | with_reducible assumption
    | intro _
    | (extract_lets +onlyGivenNames y
       refine Keeps.via (y := y) ?_ ?_
       on_goal 2 => (intro _; clear_value y)
       on_goal 1 => (dsimp -zeta only [y]; clear y))
    | fail_if_no_progress extract_lets +onlyGivenNames y
    | with_reducible refine Keeps.ite ?_ ?_
    | with_reducible refine Keeps.foldl ?_ ?_ _
    | with_reducible refine Keeps.trans ?_ (addFlush_keeps ..)
    | fail_if_no_progress with_reducible refine Keeps.lit ?_ rfl rfl rfl rfl
    | fail_if_no_progress with_reducible refine Keeps.litMod ?_ rfl rfl rfl rfl rfl rfl rfl rfl rfl
    | split
    | fail_if_no_progress dsimp -zeta only
    | refine Keeps.lit ?_ rfl rfl rfl rfl
    | refine Keeps.litMod ?_ rfl rfl rfl rfl rfl rfl rfl rfl rfl
    | refine Keeps.litTo ?_ rfl rfl rfl rfl ⟨nofun, nofun⟩ rfl (fun h => h) rfl rfl)

theorem execContextStepWatchdog_keeps (ctx : Fin 16) (ring : Fin 8) (s : State) : Goes 0x461046115948046 s (execContextStepWatchdog ctx ring s) := by
  unfold execContextStepWatchdog
  repeat' (first
    | with_reducible exact Keeps.refl _
    | with_reducible assumption
    | intro _
    | with_reducible refine Goes.next ?_
    | (extract_lets +onlyGivenNames y
       refine Goes.via (y := y) ?_ ?_
       on_goal 2 => (intro _; clear_value y)
       on_goal 1 => (dsimp -zeta only [y]; clear y))
    | with_reducible refine Goes.ite ?_ ?_
    | (extract_lets +onlyGivenNames y
       refine Keeps.via (y := y) ?_ ?_
       on_goal 2 => (intro _; clear_value y)
       on_goal 1 => (dsimp -zeta only [y]; clear y))
    | fail_if_no_progress extract_lets +onlyGivenNames y
    | with_reducible refine Keeps.ite ?_ ?_
    | with_reducible refine Keeps.foldl ?_ ?_ _
    | with_reducible refine Keeps.trans ?_ (flushRing_keeps ..)
    | with_reducible refine Keeps.trans ?_ (noteCtxWatchdog_keeps ..)
    | with_reducible refine Keeps.trans ?_ (endUnbegun_keeps ..)
    | with_reducible refine Keeps.trans ?_ (settleAll_keeps ..)
    | with_reducible refine Keeps.trans ?_ (modOpen_keeps ..)
    | fail_if_no_progress with_reducible refine Keeps.lit ?_ rfl rfl rfl rfl
    | fail_if_no_progress with_reducible refine Keeps.litMod ?_ rfl rfl rfl rfl rfl rfl rfl rfl rfl
    | split
    | fail_if_no_progress dsimp -zeta only
    | refine Keeps.lit ?_ rfl rfl rfl rfl
    | refine Keeps.litMod ?_ rfl rfl rfl rfl rfl rfl rfl rfl rfl
    | refine Keeps.litTo ?_ rfl rfl rfl rfl ⟨nofun, nofun⟩ rfl (fun h => h) rfl rfl)

end Sys2Proof.Machine
end

