-- ==== Sys2Proof/Laws/KeepsRetire.lean ====
section
/-!
SUPPORT. What the operations of Machine/Retire.lean keep.
-/
set_option Elab.async false

namespace Sys2Proof.Machine

theorem retireMemory_keeps {F : Nat} {b : List Byte} {s t : State} {n : Nat} (h : retireMemory b s = .done n t) (hF : Within 0x800 F := by first | rfl | decide) : Keeps F s t := by
  refine Keeps.mono hF ?_
  unfold retireMemory at h
  dsimp only at h
  repeat' split at h
  all_goals cases h
  all_goals first | exact Keeps.refl _ | exact Keeps.upd (Keeps.refl _) rfl rfl rfl rfl rfl rfl rfl

theorem retireLine_keeps {F : Nat} {acc : Access} {b : List Byte} {s t : State} {n : Nat} (h : retireLine acc b s = .done n t) (hF : Within 0x1810180100d8642 F := by first | rfl | decide) : Keeps F s t := by
  refine Keeps.mono hF ?_
  unfold retireLine at h
  dsimp only at h
  repeat' split at h
  all_goals cases h
  all_goals first
    | exact Keeps.refl _
    | exact modDrawer_keeps ..
    | exact (modDrawer_keeps ..).trans (clearTrim_keeps ..)
    | (refine Keeps.trans ?_ (finishRuns_keeps _)
       refine Keeps.trans (modDrawer_keeps (retDrawer b) (fun w => { w with retired := true }) s) ?_
       exact Keeps.upd (Keeps.refl _) rfl rfl rfl rfl rfl rfl rfl)

theorem execMemRetire_keeps (ctx : Fin 16) (ring : Fin 8) (s : State) : Goes 0x1810180100d8e42 s (execMemRetire ctx ring s) := by
  unfold execMemRetire
  refine Goes.next (dispatchOp_keeps _ _ _ _ _ ?_)
  intro a s
  extract_lets b
  refine Keeps.ite (reject_keeps ..) (Keeps.ite (reject_keeps ..) ?_)
  have h : ∀ {n t}, (if retKind b ≤ 2 then retireMemory b s else retireLine ⟨11, 0, some a.ref⟩ b s) = .done n t → Keeps 0x1810180100d8e42 s t := by
    intro n t h
    split at h
    · exact retireMemory_keeps h
    · exact retireLine_keeps h
  generalize (if retKind b ≤ 2 then retireMemory b s else retireLine ⟨11, 0, some a.ref⟩ b s) = r at h
  cases r with
  | refused reason => exact complete_keeps ..
  | done n t =>
    dsimp only
    refine Keeps.trans ?_ (complete_keeps ..)
    exact Keeps.ite ((h rfl).trans (setFlag_keeps ..)) (h rfl)

end Sys2Proof.Machine
end

