-- ==== Sys2Proof/Laws/KeepsReset.lean ====
section
/-!
SUPPORT. What the operations of Machine/Reset.lean keep.
-/
set_option Elab.async false

namespace Sys2Proof.Machine

theorem resetWithContext_keeps {F : Nat} (ctx u : Nat) (s : State) (hF : Within 0x410041000004006 F := by first | rfl | decide) : Keeps F s (resetWithContext ctx u s) := by
  refine Keeps.mono hF ?_
  unfold resetWithContext
  repeat' (first
    | with_reducible exact Keeps.refl _
    | with_reducible assumption
    | intro _
    | (extract_lets +onlyGivenNames y
       refine Keeps.via (y := y) ?_ ?_
       on_goal 2 => (intro _; clear_value y)
       on_goal 1 => (dsimp -zeta only [y]; clear y))
    | fail_if_no_progress extract_lets +onlyGivenNames y
    | with_reducible refine Keeps.ite ?_ ?_
    | with_reducible refine Keeps.foldl ?_ ?_ _
    | with_reducible refine Keeps.trans ?_ (drsReset_keeps ..)
    | fail_if_no_progress with_reducible refine Keeps.lit ?_ rfl rfl rfl rfl
    | fail_if_no_progress with_reducible refine Keeps.litMod ?_ rfl rfl rfl rfl rfl rfl rfl rfl rfl
    | split
    | fail_if_no_progress dsimp -zeta only
    | refine Keeps.lit ?_ rfl rfl rfl rfl
    | refine Keeps.litMod ?_ rfl rfl rfl rfl rfl rfl rfl rfl rfl
    | refine Keeps.litTo ?_ rfl rfl rfl rfl ⟨nofun, nofun⟩ rfl (fun h => h) rfl rfl)

theorem dropLaunches_keeps {F : Nat} (ctx u : Nat) (s : State) (hF : Within 0x410041000004006 F := by first | rfl | decide) : Keeps F s (dropLaunches ctx u s) := by
  refine Keeps.mono hF ?_
  unfold dropLaunches
  repeat' (first
    | with_reducible exact Keeps.refl _
    | with_reducible assumption
    | intro _
    | (extract_lets +onlyGivenNames y
       refine Keeps.via (y := y) ?_ ?_
       on_goal 2 => (intro _; clear_value y)
       on_goal 1 => (dsimp -zeta only [y]; clear y))
    | fail_if_no_progress extract_lets +onlyGivenNames y
    | with_reducible refine Keeps.ite ?_ ?_
    | with_reducible refine Keeps.foldl ?_ ?_ _
    | with_reducible refine Keeps.trans ?_ (resetWithContext_keeps ..)
    | fail_if_no_progress with_reducible refine Keeps.lit ?_ rfl rfl rfl rfl
    | fail_if_no_progress with_reducible refine Keeps.litMod ?_ rfl rfl rfl rfl rfl rfl rfl rfl rfl
    | split
    | fail_if_no_progress dsimp -zeta only
    | refine Keeps.lit ?_ rfl rfl rfl rfl
    | refine Keeps.litMod ?_ rfl rfl rfl rfl rfl rfl rfl rfl rfl
    | refine Keeps.litTo ?_ rfl rfl rfl rfl ⟨nofun, nofun⟩ rfl (fun h => h) rfl rfl)

theorem dropContextWork_keeps {F : Nat} (ctx : Nat) (s : State) (hF : Within 0x5970597100ff766 F := by first | rfl | decide) : Keeps F s (dropContextWork ctx s) := by
  refine Keeps.mono hF ?_
  unfold dropContextWork
  repeat' (first
    | with_reducible exact Keeps.refl _
    | with_reducible assumption
    | intro _
    | (extract_lets +onlyGivenNames y
       refine Keeps.via (y := y) ?_ ?_
       on_goal 2 => (intro _; clear_value y)
       on_goal 1 => (dsimp -zeta only [y]; clear y))
    | fail_if_no_progress extract_lets +onlyGivenNames y
    | with_reducible refine Keeps.ite ?_ ?_
    | with_reducible refine Keeps.foldl ?_ ?_ _
    | with_reducible refine Keeps.trans ?_ (dropLaunches_keeps ..)
    | with_reducible refine Keeps.trans ?_ (dropProgramming_keeps ..)
    | with_reducible refine Keeps.trans ?_ (calRuns_keeps ..)
    | fail_if_no_progress with_reducible refine Keeps.lit ?_ rfl rfl rfl rfl
    | fail_if_no_progress with_reducible refine Keeps.litMod ?_ rfl rfl rfl rfl rfl rfl rfl rfl rfl
    | split
    | fail_if_no_progress dsimp -zeta only
    | refine Keeps.lit ?_ rfl rfl rfl rfl
    | refine Keeps.litMod ?_ rfl rfl rfl rfl rfl rfl rfl rfl rfl
    | refine Keeps.litTo ?_ rfl rfl rfl rfl ⟨nofun, nofun⟩ rfl (fun h => h) rfl rfl)

theorem resetUnitWith_keeps {F : Nat} (ctx u : Nat) (s : State) (hF : Within 0x400040004000006 F := by first | rfl | decide) : Keeps F s (resetUnitWith ctx u s) := by
  refine Keeps.mono hF ?_
  unfold resetUnitWith
  repeat' (first
    | with_reducible exact Keeps.refl _
    | with_reducible assumption
    | intro _
    | (extract_lets +onlyGivenNames y
       refine Keeps.via (y := y) ?_ ?_
       on_goal 2 => (intro _; clear_value y)
       on_goal 1 => (dsimp -zeta only [y]; clear y))
    | fail_if_no_progress extract_lets +onlyGivenNames y
    | with_reducible refine Keeps.ite ?_ ?_
    | with_reducible refine Keeps.foldl ?_ ?_ _
    | with_reducible refine Keeps.trans ?_ (crzReset_keeps ..)
    | fail_if_no_progress with_reducible refine Keeps.lit ?_ rfl rfl rfl rfl
    | fail_if_no_progress with_reducible refine Keeps.litMod ?_ rfl rfl rfl rfl rfl rfl rfl rfl rfl
    | split
    | fail_if_no_progress dsimp -zeta only
    | refine Keeps.lit ?_ rfl rfl rfl rfl
    | refine Keeps.litMod ?_ rfl rfl rfl rfl rfl rfl rfl rfl rfl
    | refine Keeps.litTo ?_ rfl rfl rfl rfl ⟨nofun, nofun⟩ rfl (fun h => h) rfl rfl)

theorem dropExchange_keeps {F : Nat} (ctx : Nat) (s : State) (hF : Within 0x5000004 F := by first | rfl | decide) : Keeps F s (dropExchange ctx s) := by
  refine Keeps.mono hF ?_
  unfold dropExchange
  repeat' (first
    | with_reducible exact Keeps.refl _
    | with_reducible assumption
    | intro _
    | fail_if_no_progress extract_lets +onlyGivenNames y
    | with_reducible refine Keeps.ite ?_ ?_
    | with_reducible refine Keeps.foldl ?_ ?_ _
    | fail_if_no_progress with_reducible refine Keeps.lit ?_ rfl rfl rfl rfl)

/-- A running module that falls to Ready. -/
theorem toReady_keeps {F : Nat} (c : Prop) [Decidable c] (s : State) (hF : Within 1 F := by first | rfl | decide) :
    Keeps F s (if s.mod.st = .running ∧ c then { s with mod := { s.mod with st := .ready } } else s) := by
  refine Keeps.mono hF ?_
  split
  · rename_i h
    exact ⟨Frame.of, Tables.of, rfl, id, id, id, id, id, fun k _ => k (Or.inr h.1), id, Nat.le_refl _, rfl, rfl⟩
  · exact Keeps.refl s

theorem readyIfIdle_keeps {F : Nat} (s : State) (hF : Within 1 F := by first | rfl | decide) : Keeps F s (readyIfIdle s) := by
  unfold readyIfIdle
  exact toReady_keeps (hF := hF) ..

theorem contextResetOf_keeps {F : Nat} (requester ctx : Nat) (s : State) (hF : Within 0x5f705f7159ff767 F := by first | rfl | decide) : Keeps F s (contextResetOf requester ctx s) := by
  refine Keeps.mono hF ?_
  unfold contextResetOf
  extract_lets h s0 s1 s2 s3 s4
  have h0 : Keeps 0x5f705f7159ff767 s s0 := Keeps.lit (Keeps.refl s) rfl rfl rfl rfl
  clear_value s0
  have h1 : Keeps 0x5f705f7159ff767 s s1 := Keeps.foldl h0 (fun y u => resetUnitWith_keeps ..) _
  clear_value s1
  have h2 : Keeps 0x5f705f7159ff767 s s2 := Keeps.foldl h1 (fun y tag => abortBucket_keeps ..) _
  clear_value s2
  have h3 : Keeps 0x5f705f7159ff767 s s3 := (h2.trans (dropContextWork_keeps ..)).trans (dropExchange_keeps ..)
  clear_value s3
  have h4 : Keeps 0x5f705f7159ff767 s s4 := (Keeps.lit h3 rfl rfl rfl rfl).trans (clearStalled_keeps ..)
  clear_value s4
  exact (h4.trans (readyIfIdle_keeps ..)).trans (endContextReset_keeps ..)

theorem resetAllContexts_keeps {F : Nat} (requester : Nat) (s : State) (hF : Within 0x5f705f7159ff767 F := by first | rfl | decide) : Keeps F s (resetAllContexts requester s) := by
  refine Keeps.mono hF ?_
  unfold resetAllContexts
  repeat' (first
    | with_reducible exact Keeps.refl _
    | with_reducible assumption
    | intro _
    | fail_if_no_progress extract_lets +onlyGivenNames y
    | with_reducible refine Keeps.ite ?_ ?_
    | with_reducible refine Keeps.foldl ?_ ?_ _
    | with_reducible refine Keeps.trans ?_ (contextResetOf_keeps ..))

theorem dropMain_keeps {F : Nat} (s : State) (hF : Within 0x1f0ff5f0 F := by first | rfl | decide) : Keeps F s (dropMain s) := by
  refine Keeps.mono hF ?_
  unfold dropMain
  repeat' (first
    | with_reducible exact Keeps.refl _
    | with_reducible assumption
    | intro _
    | (extract_lets +onlyGivenNames y
       refine Keeps.via (y := y) ?_ ?_
       on_goal 2 => (intro _; clear_value y)
       on_goal 1 => (dsimp -zeta only [y]; clear y))
    | fail_if_no_progress extract_lets +onlyGivenNames y
    | with_reducible refine Keeps.ite ?_ ?_
    | with_reducible refine Keeps.foldl ?_ ?_ _
    | fail_if_no_progress with_reducible refine Keeps.lit ?_ rfl rfl rfl rfl
    | fail_if_no_progress with_reducible refine Keeps.litMod ?_ rfl rfl rfl rfl rfl rfl rfl rfl rfl
    | split
    | fail_if_no_progress dsimp -zeta only
    | refine Keeps.lit ?_ rfl rfl rfl rfl
    | refine Keeps.litMod ?_ rfl rfl rfl rfl rfl rfl rfl rfl rfl
    | refine Keeps.litTo ?_ rfl rfl rfl rfl ⟨nofun, nofun⟩ rfl (fun h => h) rfl rfl)

theorem resetRegs_keeps {F : Nat} (keep keepFlag : Nat → Bool) (s : State) (hF : Within 0x9ff00000004 F := by first | rfl | decide) : Keeps F s (resetRegs keep keepFlag s) := by
  refine Keeps.mono hF ?_
  refine ⟨?_, Tables.of, rfl, id, id, id, id, id, id, id, Nat.le_refl _, rfl, rfl⟩
  intro p hp
  cases p
  case registers => cases hp
  case flags b =>
    refine tabGet_filter _ _ _ _ ?_
    intro _
    cases b
    case nst => exact by simp [Block.code]
    case rcv => exact by simp [Block.code]
    case pwr => exact by simp [Block.code]
    all_goals cases hp
  case counters => exact fun _ _ => rfl
  all_goals first | exact rfl | exact ⟨rfl, rfl⟩ | exact ⟨rfl, rfl, rfl, rfl, rfl, rfl⟩

theorem alwaysOn_of_code {b : Block} {off : Nat} (h : blockCode off = b.code) (hb : b = .nst ∨ b = .rcv ∨ b = .pwr) :
    alwaysOn off = true := by
  unfold blockCode at h
  unfold alwaysOn
  rcases hb with rfl | rfl | rfl
  all_goals
    simp only [Block.code] at h
    simp only [Bool.or_eq_true, Bool.and_eq_true, decide_eq_true_eq]
    omega

theorem clearCycles_keeps {F : Nat} (s : State) (hF : Within 0x9ff000000006000 F := by first | rfl | decide) : Keeps F s (clearCycles s) := by
  refine Keeps.mono hF ?_
  refine ⟨?_, Tables.of, rfl, id, id, id, id, id, id, id, Nat.le_refl _, rfl, rfl⟩
  intro p hp
  cases p
  case trestle => cases hp
  case dresser => cases hp
  case counters b =>
    intro off ho
    refine tabGet_filter _ _ _ _ fun _ => alwaysOn_of_code ho ?_
    cases b
    case nst => exact Or.inl rfl
    case rcv => exact Or.inr (Or.inl rfl)
    case pwr => exact Or.inr (Or.inr rfl)
    all_goals cases hp
  all_goals first | exact rfl | exact ⟨rfl, rfl⟩ | exact ⟨rfl, rfl, rfl, rfl, rfl, rfl⟩

theorem darkPorts_keeps {F : Nat} (s : State) (hF : Within 0xf00000 F := by first | rfl | decide) : Keeps F s (darkPorts s) := by
  refine Keeps.mono hF ?_
  unfold darkPorts
  repeat' (first
    | with_reducible exact Keeps.refl _
    | with_reducible assumption
    | intro _
    | fail_if_no_progress extract_lets +onlyGivenNames y
    | with_reducible refine Keeps.ite ?_ ?_
    | with_reducible refine Keeps.foldl ?_ ?_ _
    | fail_if_no_progress with_reducible refine Keeps.lit ?_ rfl rfl rfl rfl)

theorem removeRails_keeps {F : Nat} (s : State) (hF : Within 0x10000001 F := by first | rfl | decide) : Keeps F s (removeRails s) := by
  refine Keeps.mono hF ?_
  unfold removeRails
  repeat' (first
    | with_reducible exact Keeps.refl _
    | with_reducible assumption
    | intro _
    | (extract_lets +onlyGivenNames y
       refine Keeps.via (y := y) ?_ ?_
       on_goal 2 => (intro _; clear_value y)
       on_goal 1 => (dsimp -zeta only [y]; clear y))
    | fail_if_no_progress extract_lets +onlyGivenNames y
    | with_reducible refine Keeps.ite ?_ ?_
    | with_reducible refine Keeps.foldl ?_ ?_ _
    | with_reducible refine Keeps.trans ?_ (emit_keeps ..)
    | fail_if_no_progress with_reducible refine Keeps.lit ?_ rfl rfl rfl rfl
    | fail_if_no_progress with_reducible refine Keeps.litMod ?_ rfl rfl rfl rfl rfl rfl rfl rfl rfl
    | split
    | fail_if_no_progress dsimp -zeta only
    | refine Keeps.lit ?_ rfl rfl rfl rfl
    | refine Keeps.litMod ?_ rfl rfl rfl rfl rfl rfl rfl rfl rfl
    | refine Keeps.litTo ?_ rfl rfl rfl rfl ⟨nofun, nofun⟩ rfl (fun h => h) rfl rfl)

theorem powerDown_keeps {F : Nat} (s : State) (hF : Within 0x9ff09ff1ffff7f5 F := by first | rfl | decide) : Keeps F s (powerDown s) := by
  refine Keeps.mono hF ?_
  unfold powerDown
  extract_lets s0 s1 m r f e
  have h0 : Keeps 0x9ff09ff1ffff7f5 s s0 := removeRails_keeps ..
  clear_value s0
  have h1 : Keeps 0x9ff09ff1ffff7f5 s s1 := (((h0.trans (dropMain_keeps ..)).trans (resetRegs_keeps ..)).trans (clearCycles_keeps ..)).trans (darkPorts_keeps ..)
  clear_value s1
  refine (h1.trans ?_).trans (setReg_keeps ..)
  refine ⟨Frame.of, Tables.of, rfl, ?_, id, id, id, id, id, id, Nat.le_refl _, rfl, rfl⟩
  intro _
  rfl

theorem enterStandby_keeps {F : Nat} (cause engine code : Nat) (s : State) (hF : Within 0x9ff09ff1ffff7ff F := by first | rfl | decide) : Keeps F s (enterStandby cause engine code s) := by
  refine Keeps.mono hF ?_
  unfold enterStandby
  repeat' (first
    | with_reducible exact Keeps.refl _
    | with_reducible assumption
    | intro _
    | (extract_lets +onlyGivenNames y
       refine Keeps.via (y := y) ?_ ?_
       on_goal 2 => (intro _; clear_value y)
       on_goal 1 => (dsimp -zeta only [y]; clear y))
    | fail_if_no_progress extract_lets +onlyGivenNames y
    | with_reducible refine Keeps.ite ?_ ?_
    | with_reducible refine Keeps.foldl ?_ ?_ _
    | with_reducible refine Keeps.trans ?_ (powerDown_keeps ..)
    | with_reducible refine Keeps.trans ?_ (logEntry_keeps ..)
    | fail_if_no_progress with_reducible refine Keeps.lit ?_ rfl rfl rfl rfl
    | fail_if_no_progress with_reducible refine Keeps.litMod ?_ rfl rfl rfl rfl rfl rfl rfl rfl rfl
    | split
    | fail_if_no_progress dsimp -zeta only
    | refine Keeps.lit ?_ rfl rfl rfl rfl
    | refine Keeps.litMod ?_ rfl rfl rfl rfl rfl rfl rfl rfl rfl
    | refine Keeps.litTo ?_ rfl rfl rfl rfl ⟨nofun, nofun⟩ rfl (fun h => h) rfl rfl)

theorem fillMemory_keeps {F : Nat} (warm : Bool) (s : State) (hF : Within 0x600 F := by first | rfl | decide) : Keeps F s (fillMemory warm s) :=
Keeps.mono hF (⟨Frame.of, Tables.of, rfl, fillMemory_wf warm s, id, id, id, id, id, id, Nat.le_refl _, rfl, rfl⟩)

theorem summaryEntries_keeps {F : Nat} (h : List Byte) (s : State) (hF : Within 0x2 F := by first | rfl | decide) : Keeps F s (summaryEntries h s) := by
  refine Keeps.mono hF ?_
  unfold summaryEntries
  repeat' (first
    | with_reducible exact Keeps.refl _
    | with_reducible assumption
    | intro _
    | fail_if_no_progress extract_lets +onlyGivenNames y
    | with_reducible refine Keeps.ite ?_ ?_
    | with_reducible refine Keeps.foldl ?_ ?_ _
    | with_reducible refine Keeps.trans ?_ (logEntry_keeps ..))

theorem noteSlices_keeps {F : Nat} (s : State) (hF : Within 0x80008000000442 F := by first | rfl | decide) : Keeps F s (noteSlices s) := by
  refine Keeps.mono hF ?_
  unfold noteSlices
  repeat' (first
    | with_reducible exact Keeps.refl _
    | with_reducible assumption
    | intro _
    | (extract_lets +onlyGivenNames y
       refine Keeps.via (y := y) ?_ ?_
       on_goal 2 => (intro _; clear_value y)
       on_goal 1 => (dsimp -zeta only [y]; clear y))
    | fail_if_no_progress extract_lets +onlyGivenNames y
    | with_reducible refine Keeps.ite ?_ ?_
    | with_reducible refine Keeps.foldl ?_ ?_ _
    | with_reducible refine Keeps.trans ?_ (noteRead_keeps ..)
    | fail_if_no_progress with_reducible refine Keeps.lit ?_ rfl rfl rfl rfl
    | fail_if_no_progress with_reducible refine Keeps.litMod ?_ rfl rfl rfl rfl rfl rfl rfl rfl rfl
    | split
    | fail_if_no_progress dsimp -zeta only
    | refine Keeps.lit ?_ rfl rfl rfl rfl
    | refine Keeps.litMod ?_ rfl rfl rfl rfl rfl rfl rfl rfl rfl
    | refine Keeps.litTo ?_ rfl rfl rfl rfl ⟨nofun, nofun⟩ rfl (fun h => h) rfl rfl)

theorem crashDump_keeps {F : Nat} (cause : Nat) (s : State) (hF : Within 0x80048000000652 F := by first | rfl | decide) : Keeps F s (crashDump cause s) := by
  refine Keeps.mono hF ?_
  unfold crashDump
  refine Keeps.ite (Keeps.refl s) ?_
  extract_lets d h cells s1 m r t
  have h1 : Keeps 0x80048000000652 s s1 := noteSlices_keeps ..
  have hc : s1.mem.cells = s.mem.cells := (noteSlices_keeps (F := 0x80008000000442) s).frame .memory rfl
  have ht : Keeps 0x80048000000652 s1 t := by
    refine ⟨Frame.of, Tables.of, rfl, ?_, id, id, id, id, id, id, Nat.le_refl _, rfl, rfl⟩
    rw [wf_iff, wf_iff]
    exact fun w => ⟨dumpCells_wf _ _ _ (hc ▸ w.1), tabWf_filter _ _ _ w.2⟩
  clear_value t s1
  exact ((h1.trans ht).trans (setFlag_keeps ..)).trans (summaryEntries_keeps ..)

theorem warmReset_keeps {F : Nat} (s : State) (hF : Within 0x9ff1f9ff5f5 F := by first | rfl | decide) : Keeps F s (warmReset s) := by
  refine Keeps.mono hF ?_
  unfold warmReset
  repeat' (first
    | with_reducible exact Keeps.refl _
    | with_reducible assumption
    | intro _
    | (extract_lets +onlyGivenNames y
       refine Keeps.via (y := y) ?_ ?_
       on_goal 2 => (intro _; clear_value y)
       on_goal 1 => (dsimp -zeta only [y]; clear y))
    | fail_if_no_progress extract_lets +onlyGivenNames y
    | with_reducible refine Keeps.ite ?_ ?_
    | with_reducible refine Keeps.foldl ?_ ?_ _
    | with_reducible refine Keeps.trans ?_ (resetRegs_keeps ..)
    | with_reducible refine Keeps.trans ?_ (dropMain_keeps ..)
    | fail_if_no_progress with_reducible refine Keeps.lit ?_ rfl rfl rfl rfl
    | fail_if_no_progress with_reducible refine Keeps.litMod ?_ rfl rfl rfl rfl rfl rfl rfl rfl rfl
    | split
    | fail_if_no_progress dsimp -zeta only
    | refine Keeps.lit ?_ rfl rfl rfl rfl
    | refine Keeps.litMod ?_ rfl rfl rfl rfl rfl rfl rfl rfl rfl
    | refine Keeps.litTo ?_ rfl rfl rfl rfl ⟨nofun, nofun⟩ rfl (fun h => h) rfl rfl)

theorem coldReset_keeps {F : Nat} (s : State) (hF : Within 0x9ff09ff1ffff5f5 F := by first | rfl | decide) : Keeps F s (coldReset s) := by
  refine Keeps.mono hF ?_
  unfold coldReset
  repeat' (first
    | with_reducible exact Keeps.refl _
    | with_reducible assumption
    | intro _
    | (extract_lets +onlyGivenNames y
       refine Keeps.via (y := y) ?_ ?_
       on_goal 2 => (intro _; clear_value y)
       on_goal 1 => (dsimp -zeta only [y]; clear y))
    | fail_if_no_progress extract_lets +onlyGivenNames y
    | with_reducible refine Keeps.ite ?_ ?_
    | with_reducible refine Keeps.foldl ?_ ?_ _
    | with_reducible refine Keeps.trans ?_ (darkPorts_keeps ..)
    | with_reducible refine Keeps.trans ?_ (clearCycles_keeps ..)
    | with_reducible refine Keeps.trans ?_ (resetRegs_keeps ..)
    | with_reducible refine Keeps.trans ?_ (dropMain_keeps ..)
    | fail_if_no_progress with_reducible refine Keeps.lit ?_ rfl rfl rfl rfl
    | fail_if_no_progress with_reducible refine Keeps.litMod ?_ rfl rfl rfl rfl rfl rfl rfl rfl rfl
    | split
    | fail_if_no_progress dsimp -zeta only
    | refine Keeps.lit ?_ rfl rfl rfl rfl
    | refine Keeps.litMod ?_ rfl rfl rfl rfl rfl rfl rfl rfl rfl
    | refine Keeps.litTo ?_ rfl rfl rfl rfl ⟨nofun, nofun⟩ rfl (fun h => h) rfl rfl)

theorem deviceReset_keeps {F : Nat} (cold mctp : Bool) (source cause : Nat) (dump : Bool) (s : State) (hF : Within 0x9ff0dff1ffff7ff F := by first | rfl | decide) :
    Keeps F s (deviceReset cold mctp source cause dump s) := by
  refine Keeps.mono hF ?_
  unfold deviceReset
  extract_lets +onlyGivenNames times counted
  refine Keeps.ite (Keeps.refl s) (Keeps.ite (Keeps.ite ?_ (Keeps.refl s)) ?_)
  · refine ⟨Frame.of, Tables.of, rfl, id, id, ?_, ?_, id, id, id, Nat.le_refl _, rfl, rfl⟩
    · exact fun _ => List.length_take_le _ _
    · exact fun _ => List.cons_ne_nil _ _
  extract_lets +onlyGivenNames s1 action s2 m s3
  have h1 : Keeps 0x9ff0dff1ffff7ff s s1 := Keeps.ite (crashDump_keeps ..) (Keeps.refl s)
  have h2 : Keeps 0x9ff0dff1ffff7ff s s2 := h1.trans (logEntry_keeps ..)
  have h3 : Keeps 0x9ff0dff1ffff7ff s2 s3 := by
    refine ⟨Frame.of, Tables.of, rfl, id, id, ?_, ?_, id, id, id, Nat.le_refl _, rfl, rfl⟩
    · exact fun _ => List.length_take_le _ _
    · exact fun _ => List.cons_ne_nil _ _
  refine Keeps.ite ?_ (Keeps.ite ((h2.trans h3).trans (coldReset_keeps ..)) ((h2.trans h3).trans (warmReset_keeps ..)))
  extract_lets +onlyGivenNames s4
  have h4 : Keeps 0x9ff0dff1ffff7ff s s4 := (h2.trans h3).trans (powerDown_keeps ..)
  clear_value s4
  exact Keeps.litTo h4 rfl rfl rfl rfl ⟨nofun, nofun⟩ rfl (fun h => h) rfl rfl

theorem reloadPort_keeps {F : Nat} (p : Nat) (s : State) (hF : Within 0x40004012900002 F := by first | rfl | decide) : Keeps F s (reloadPort p s) := by
  refine Keeps.mono hF ?_
  unfold reloadPort
  repeat' (first
    | with_reducible exact Keeps.refl _
    | with_reducible assumption
    | intro _
    | (extract_lets +onlyGivenNames y
       refine Keeps.via (y := y) ?_ ?_
       on_goal 2 => (intro _; clear_value y)
       on_goal 1 => (dsimp -zeta only [y]; clear y))
    | fail_if_no_progress extract_lets +onlyGivenNames y
    | with_reducible refine Keeps.ite ?_ ?_
    | with_reducible refine Keeps.foldl ?_ ?_ _
    | with_reducible refine Keeps.trans ?_ (retrainPort_keeps ..)
    | with_reducible refine Keeps.trans ?_ (modPort_keeps ..))

theorem retrainPorts_keeps {F : Nat} (s : State) (hF : Within 0x40004012900002 F := by first | rfl | decide) : Keeps F s (retrainPorts s) := by
  refine Keeps.mono hF ?_
  unfold retrainPorts
  repeat' (first
    | with_reducible exact Keeps.refl _
    | with_reducible assumption
    | intro _
    | fail_if_no_progress extract_lets +onlyGivenNames y
    | with_reducible refine Keeps.ite ?_ ?_
    | with_reducible refine Keeps.foldl ?_ ?_ _
    | with_reducible refine Keeps.trans ?_ (reloadPort_keeps ..))

theorem activationEnd_keeps {F : Nat} (s : State) (hF : Within 0x80000000022 F := by first | rfl | decide) : Keeps F s (activationEnd s) := by
  refine Keeps.mono hF ?_
  unfold activationEnd
  repeat' (first
    | with_reducible exact Keeps.refl _
    | with_reducible assumption
    | intro _
    | fail_if_no_progress extract_lets +onlyGivenNames y
    | with_reducible refine Keeps.ite ?_ ?_
    | with_reducible refine Keeps.foldl ?_ ?_ _
    | with_reducible refine Keeps.trans ?_ (logEntry_keeps ..)
    | with_reducible refine Keeps.trans ?_ (setFlag_keeps ..)
    | fail_if_no_progress with_reducible refine Keeps.lit ?_ rfl rfl rfl rfl)

theorem reloadFrom_keeps {F : Nat} (l : List Nat) (s : State) (hF : Within 0x40084012900022 F := by first | rfl | decide) : Keeps F s (reloadFrom l s) := by
  refine Keeps.mono hF ?_
  induction l generalizing s with
  | nil => exact activationEnd_keeps s
  | cons p ps ih =>
    unfold reloadFrom
    refine Keeps.ite (ih s) ?_
    have h : Keeps 0x40084012900022 s { s with fwu := { s.fwu with portsLeft := p :: ps } } := Keeps.upd (Keeps.refl s) rfl rfl rfl rfl rfl rfl rfl
    exact h.trans (reloadPort_keeps ..)

theorem nextPortReload_keeps {F : Nat} (s : State) (hF : Within 0x40084012900022 F := by first | rfl | decide) : Keeps F s (nextPortReload s) := by
  refine Keeps.mono hF ?_
  unfold nextPortReload
  repeat' (first
    | with_reducible exact Keeps.refl _
    | with_reducible assumption
    | intro _
    | fail_if_no_progress extract_lets +onlyGivenNames y
    | with_reducible refine Keeps.ite ?_ ?_
    | with_reducible refine Keeps.foldl ?_ ?_ _
    | with_reducible refine Keeps.trans ?_ (reloadFrom_keeps ..))

theorem portReloaded_keeps {F : Nat} (p : Nat) (s : State) (hF : Within 0x40084012900022 F := by first | rfl | decide) : Keeps F s (portReloaded p s) := by
  refine Keeps.mono hF ?_
  unfold portReloaded
  repeat' (first
    | with_reducible exact Keeps.refl _
    | with_reducible assumption
    | intro _
    | fail_if_no_progress extract_lets +onlyGivenNames y
    | with_reducible refine Keeps.ite ?_ ?_
    | with_reducible refine Keeps.foldl ?_ ?_ _
    | with_reducible refine Keeps.trans ?_ (reloadFrom_keeps ..))

end Sys2Proof.Machine
end

