-- ==== Sys2Proof/Laws/KeepsPower.lean ====
section
/-!
SUPPORT. What the operations of Machine/Power.lean keep.
-/
set_option Elab.async false

namespace Sys2Proof.Machine

theorem mctpAnswer_keeps {F : Nat} (cmd code value : Nat) (s : State) (hF : Within 0x10000000 F := by first | rfl | decide) : Keeps F s (mctpAnswer cmd code value s) := by
  refine Keeps.mono hF ?_
  unfold mctpAnswer
  repeat' (first
    | with_reducible exact Keeps.refl _
    | with_reducible assumption
    | intro _
    | fail_if_no_progress extract_lets +onlyGivenNames y
    | with_reducible refine Keeps.ite ?_ ?_
    | with_reducible refine Keeps.foldl ?_ ?_ _
    | with_reducible refine Keeps.trans ?_ (emit_keeps ..))

theorem execStandbyPowerApplied_safe (sa : Fin 8) (s : State) : SafeGoes 0x120000200009 s (execStandbyPowerApplied sa s) := by
  unfold execStandbyPowerApplied
  split
  · extract_lets +onlyGivenNames m s1 s2
    have h1 : Safe 0x120000200009 s s1 := by
      refine Safe.trans ?_ (baysAtPower_keeps _).safe
      exact ⟨Frame.of, Tables.of, rfl, id, id, id, fun _ h => by rcases h with h | h <;> cases h⟩
    clear_value s1
    have h2 : Safe 0x120000200009 s s2 := h1.trans (nextConversion_keeps ..).safe
    clear_value s2
    refine ⟨_, rfl, h2.trans ?_⟩
    split
    · exact (Keeps.refl s2).safe
    · exact (Keeps.trans (setFlag_keeps ..) (setFlag_keeps ..)).safe
  · exact (Goes.next (Keeps.refl s)).safe

theorem standbyLost_safe {F : Nat} (s : State) (hF : Within 0x1fff1fff1fffffff F := by first | rfl | decide) : Safe F s (standbyLost s) := by
  refine Safe.mono hF ?_
  unfold standbyLost
  extract_lets s1 m b
  have h1 : Keeps 0x1fff1fff1fffffff s s1 := (powerDown_keeps ..).trans (baysDark_keeps ..)
  clear_value s1
  exact h1.safe.trans ⟨Frame.of, Tables.of, rfl, id, fun _ => Nat.zero_le _, fun _ => Nat.zero_le _, fun _ h => by rcases h with h | h <;> cases h⟩

theorem execStandbyPowerLost_safe (s : State) : SafeGoes 0x1fff1fff1fffffff s (execStandbyPowerLost s) := ⟨_, rfl, standbyLost_safe s⟩

theorem execInputOvervoltage_safe (s : State) : SafeGoes 0x1fff1fff1fffffff s (execInputOvervoltage s) := ⟨_, rfl, standbyLost_safe s⟩

theorem enableRails_keeps {F : Nat} (s : State) (hF : Within 0x10000001 F := by first | rfl | decide) : Keeps F s (enableRails s) := by
  refine Keeps.mono hF ?_
  unfold enableRails
  repeat' (first
    | with_reducible exact Keeps.refl _
    | with_reducible assumption
    | intro _
    | (extract_lets +onlyGivenNames y
       refine Keeps.via (y := y) ?_ ?_
       on_goal 2 => (intro _; clear_value y)
       on_goal 1 => (dsimp -zeta only [y]; clear y))
    | fail_if_no_progress extract_lets +onlyGivenNames y
    | with_reducible refine Keeps.ite ?_ ?_
    | with_reducible refine Keeps.foldl ?_ ?_ _
    | with_reducible refine Keeps.trans ?_ (emit_keeps ..)
    | fail_if_no_progress with_reducible refine Keeps.lit ?_ rfl rfl rfl rfl
    | fail_if_no_progress with_reducible refine Keeps.litMod ?_ rfl rfl rfl rfl rfl rfl rfl rfl rfl
    | split
    | fail_if_no_progress dsimp -zeta only
    | refine Keeps.lit ?_ rfl rfl rfl rfl
    | refine Keeps.litMod ?_ rfl rfl rfl rfl rfl rfl rfl rfl rfl
    | refine Keeps.litTo ?_ rfl rfl rfl rfl ⟨nofun, nofun⟩ rfl (fun h => h) rfl rfl)

theorem execPowerOnRequest_keeps (recovery : Bool) (s : State) : Goes 0x100010001000000b s (execPowerOnRequest recovery s) := by
  unfold execPowerOnRequest
  extract_lets reason
  refine Goes.ite (Goes.next (Keeps.refl s)) (Goes.ite (Goes.next ?_) (Goes.next ?_))
  · refine Keeps.trans ?_ (mctpAnswer_keeps ..)
    refine Keeps.trans ?_ (enableRails_keeps ..)
    refine Keeps.trans ?_ (bump_keeps ..)
    exact Keeps.litTo (Keeps.refl s) rfl rfl rfl rfl ⟨nofun, nofun⟩ rfl (fun h => h) rfl rfl
  · refine Keeps.trans ?_ (mctpAnswer_keeps ..)
    refine Keeps.trans ?_ (logEntry_keeps ..)
    refine Keeps.trans ?_ (setFlag_keeps ..)
    exact Keeps.litMod (Keeps.refl s) rfl rfl rfl rfl rfl rfl rfl rfl rfl

theorem execPowerOffRequest_keeps (s : State) : Goes 0x9ff09ff1ffff7ff s (execPowerOffRequest s) := by
  unfold execPowerOffRequest
  repeat' (first
    | with_reducible exact Keeps.refl _
    | with_reducible assumption
    | intro _
    | with_reducible refine Goes.next ?_
    | (extract_lets +onlyGivenNames y
       refine Goes.via (y := y) ?_ ?_
       on_goal 2 => (intro _; clear_value y)
       on_goal 1 => (dsimp -zeta only [y]; clear y))
    | with_reducible refine Goes.ite ?_ ?_
    | (extract_lets +onlyGivenNames y
       refine Keeps.via (y := y) ?_ ?_
       on_goal 2 => (intro _; clear_value y)
       on_goal 1 => (dsimp -zeta only [y]; clear y))
    | fail_if_no_progress extract_lets +onlyGivenNames y
    | with_reducible refine Keeps.ite ?_ ?_
    | with_reducible refine Keeps.foldl ?_ ?_ _
    | with_reducible refine Keeps.trans ?_ (mctpAnswer_keeps ..)
    | with_reducible refine Keeps.trans ?_ (enterStandby_keeps ..)
    | fail_if_no_progress with_reducible refine Keeps.lit ?_ rfl rfl rfl rfl
    | fail_if_no_progress with_reducible refine Keeps.litMod ?_ rfl rfl rfl rfl rfl rfl rfl rfl rfl
    | split
    | fail_if_no_progress dsimp -zeta only
    | refine Keeps.lit ?_ rfl rfl rfl rfl
    | refine Keeps.litMod ?_ rfl rfl rfl rfl rfl rfl rfl rfl rfl
    | refine Keeps.litTo ?_ rfl rfl rfl rfl ⟨nofun, nofun⟩ rfl (fun h => h) rfl rfl)

theorem execReleaseRetirement_safe (s : State) : SafeGoes 0x10000001 s (execReleaseRetirement s) := by
  unfold execReleaseRetirement
  split
  · refine ⟨_, rfl, Safe.trans ?_ (mctpAnswer_keeps ..).safe⟩
    exact ⟨Frame.of, Tables.of, rfl, id, id, fun _ => Nat.zero_le _, fun _ h => by rcases h with h | h <;> cases h⟩
  · split
    · exact (Goes.next (mctpAnswer_keeps ..)).safe
    · exact (Goes.next (Keeps.refl s)).safe

theorem execMainRailsUp_keeps (s : State) : Goes 0x1 s (execMainRailsUp s) := by
  unfold execMainRailsUp
  repeat' (first
    | with_reducible exact Keeps.refl _
    | with_reducible assumption
    | intro _
    | with_reducible refine Goes.next ?_
    | (extract_lets +onlyGivenNames y
       refine Goes.via (y := y) ?_ ?_
       on_goal 2 => (intro _; clear_value y)
       on_goal 1 => (dsimp -zeta only [y]; clear y))
    | with_reducible refine Goes.ite ?_ ?_
    | (extract_lets +onlyGivenNames y
       refine Keeps.via (y := y) ?_ ?_
       on_goal 2 => (intro _; clear_value y)
       on_goal 1 => (dsimp -zeta only [y]; clear y))
    | fail_if_no_progress extract_lets +onlyGivenNames y
    | with_reducible refine Keeps.ite ?_ ?_
    | with_reducible refine Keeps.foldl ?_ ?_ _
    | fail_if_no_progress with_reducible refine Keeps.lit ?_ rfl rfl rfl rfl
    | fail_if_no_progress with_reducible refine Keeps.litMod ?_ rfl rfl rfl rfl rfl rfl rfl rfl rfl
    | split
    | fail_if_no_progress dsimp -zeta only
    | refine Keeps.lit ?_ rfl rfl rfl rfl
    | refine Keeps.litMod ?_ rfl rfl rfl rfl rfl rfl rfl rfl rfl
    | refine Keeps.litTo ?_ rfl rfl rfl rfl ⟨nofun, nofun⟩ rfl (fun h => h) rfl rfl)

theorem execRootPllLocked_safe (s : State) : SafeGoes 0x1 s (execRootPllLocked s) := by
  unfold execRootPllLocked
  split
  · exact ⟨_, rfl, Frame.of, Tables.of, rfl, id, id, id, id⟩
  · exact (Goes.next (Keeps.refl s)).safe

theorem enterRecovery_keeps {F : Nat} (s : State) (hF : Within 0x5 F := by first | rfl | decide) : Keeps F s (enterRecovery s) := by
  refine Keeps.mono hF ?_
  unfold enterRecovery
  repeat' (first
    | with_reducible exact Keeps.refl _
    | with_reducible assumption
    | intro _
    | (extract_lets +onlyGivenNames y
       refine Keeps.via (y := y) ?_ ?_
       on_goal 2 => (intro _; clear_value y)
       on_goal 1 => (dsimp -zeta only [y]; clear y))
    | fail_if_no_progress extract_lets +onlyGivenNames y
    | with_reducible refine Keeps.ite ?_ ?_
    | with_reducible refine Keeps.foldl ?_ ?_ _
    | with_reducible refine Keeps.trans ?_ (setReg_keeps ..)
    | fail_if_no_progress with_reducible refine Keeps.lit ?_ rfl rfl rfl rfl
    | fail_if_no_progress with_reducible refine Keeps.litMod ?_ rfl rfl rfl rfl rfl rfl rfl rfl rfl
    | split
    | fail_if_no_progress dsimp -zeta only
    | refine Keeps.lit ?_ rfl rfl rfl rfl
    | refine Keeps.litMod ?_ rfl rfl rfl rfl rfl rfl rfl rfl rfl
    | refine Keeps.litTo ?_ rfl rfl rfl rfl ⟨nofun, nofun⟩ rfl (fun h => h) rfl rfl)

theorem execFillComplete_keeps (s : State) : Goes 0x605 s (execFillComplete s) := by
  unfold execFillComplete
  repeat' (first
    | with_reducible exact Keeps.refl _
    | with_reducible assumption
    | intro _
    | with_reducible refine Goes.next ?_
    | (extract_lets +onlyGivenNames y
       refine Goes.via (y := y) ?_ ?_
       on_goal 2 => (intro _; clear_value y)
       on_goal 1 => (dsimp -zeta only [y]; clear y))
    | with_reducible refine Goes.ite ?_ ?_
    | fail_if_no_progress extract_lets +onlyGivenNames y
    | with_reducible refine Keeps.ite ?_ ?_
    | with_reducible refine Keeps.foldl ?_ ?_ _
    | with_reducible refine Keeps.trans ?_ (enterRecovery_keeps ..)
    | with_reducible refine Keeps.trans ?_ (fillMemory_keeps ..)
    | fail_if_no_progress with_reducible refine Keeps.lit ?_ rfl rfl rfl rfl
    | fail_if_no_progress with_reducible refine Keeps.litMod ?_ rfl rfl rfl rfl rfl rfl rfl rfl rfl)

theorem execBootImageChecked_keeps (crypto : Crypto) (s : State) : Goes 0x80000000027 s (execBootImageChecked crypto s) := by
  unfold execBootImageChecked
  repeat' (first
    | with_reducible exact Keeps.refl _
    | with_reducible assumption
    | intro _
    | with_reducible refine Goes.next ?_
    | (extract_lets +onlyGivenNames y
       refine Goes.via (y := y) ?_ ?_
       on_goal 2 => (intro _; clear_value y)
       on_goal 1 => (dsimp -zeta only [y]; clear y))
    | with_reducible refine Goes.ite ?_ ?_
    | (extract_lets +onlyGivenNames y
       refine Keeps.via (y := y) ?_ ?_
       on_goal 2 => (intro _; clear_value y)
       on_goal 1 => (dsimp -zeta only [y]; clear y))
    | fail_if_no_progress extract_lets +onlyGivenNames y
    | with_reducible refine Keeps.ite ?_ ?_
    | with_reducible refine Keeps.foldl ?_ ?_ _
    | with_reducible refine Keeps.trans ?_ (enterRecovery_keeps ..)
    | with_reducible refine Keeps.trans ?_ (logEntry_keeps ..)
    | with_reducible refine Keeps.trans ?_ (setFlag_keeps ..)
    | fail_if_no_progress with_reducible refine Keeps.lit ?_ rfl rfl rfl rfl
    | fail_if_no_progress with_reducible refine Keeps.litMod ?_ rfl rfl rfl rfl rfl rfl rfl rfl rfl
    | split
    | fail_if_no_progress dsimp -zeta only
    | refine Keeps.lit ?_ rfl rfl rfl rfl
    | refine Keeps.litMod ?_ rfl rfl rfl rfl rfl rfl rfl rfl rfl
    | refine Keeps.litTo ?_ rfl rfl rfl rfl ⟨nofun, nofun⟩ rfl (fun h => h) rfl rfl)

theorem writeWindow_keeps {F : Nat} (n w : Nat) (s : State) (hF : Within 0x6 F := by first | rfl | decide) : Keeps F s (writeWindow n w s) := by
  refine Keeps.mono hF ?_
  unfold writeWindow
  repeat' (first
    | with_reducible exact Keeps.refl _
    | with_reducible assumption
    | intro _
    | fail_if_no_progress extract_lets +onlyGivenNames y
    | with_reducible refine Keeps.ite ?_ ?_
    | with_reducible refine Keeps.foldl ?_ ?_ _
    | with_reducible refine Keeps.trans ?_ (logEntry_keeps ..)
    | with_reducible refine Keeps.trans ?_ (setReg_keeps ..))

theorem writeWindows_keeps {F : Nat} (s : State) (hF : Within 0x6 F := by first | rfl | decide) : Keeps F s (writeWindows s) := by
  refine Keeps.mono hF ?_
  unfold writeWindows
  refine Keeps.trans ?_ (setReg_keeps ..)
  refine Keeps.ite (Keeps.foldl (Keeps.refl s) (fun y k => writeWindow_keeps ..) _) (Keeps.trans ?_ (logEntry_keeps ..))
  exact Keeps.foldl (Keeps.refl s) (fun y k => (setReg_keeps ..).trans (setReg_keeps ..)) _

theorem execBootComplete_keeps (s : State) : Goes 0x40004012900017 s (execBootComplete s) := by
  unfold execBootComplete
  refine Goes.ite ?_ (Goes.next (Keeps.refl s))
  extract_lets s1 m r
  have h1 : Keeps 0x40004012900017 s s1 := Keeps.ite (retrainPorts_keeps ..) (writeWindows_keeps ..)
  clear_value s1
  refine Goes.next (h1.trans ⟨Frame.of, Tables.of, rfl, id, id, id, id, id, ?_, id, Nat.le_refl _, rfl, rfl⟩)
  intro _ hst
  dsimp only [m] at hst ⊢
  cases hf : s1.mod.fenceMark with
  | false => exact hf
  | true => simp only [hf, if_true] at hst; rcases hst with h | h <;> cases h

theorem execRootPllLossOfLock_keeps (s : State) : Goes 0x9ff09ff1ffff7ff s (execRootPllLossOfLock s) := by
  unfold execRootPllLossOfLock
  repeat' (first
    | with_reducible exact Keeps.refl _
    | with_reducible assumption
    | intro _
    | with_reducible refine Goes.next ?_
    | with_reducible refine Goes.ite ?_ ?_
    | fail_if_no_progress extract_lets +onlyGivenNames y
    | with_reducible refine Keeps.ite ?_ ?_
    | with_reducible refine Keeps.foldl ?_ ?_ _
    | with_reducible refine Keeps.trans ?_ (enterStandby_keeps ..))

theorem execRefclkLost_keeps (s : State) : Goes 0x9ff1bff1ffff7ff s (execRefclkLost s) := by
  unfold execRefclkLost
  repeat' (first
    | with_reducible exact Keeps.refl _
    | with_reducible assumption
    | intro _
    | with_reducible refine Goes.next ?_
    | with_reducible refine Goes.ite ?_ ?_
    | fail_if_no_progress extract_lets +onlyGivenNames y
    | with_reducible refine Keeps.ite ?_ ?_
    | with_reducible refine Keeps.foldl ?_ ?_ _
    | with_reducible refine Keeps.trans ?_ (enterStandby_keeps ..)
    | with_reducible refine Keeps.trans ?_ (setFlag_keeps ..)
    | fail_if_no_progress with_reducible refine Keeps.lit ?_ rfl rfl rfl rfl
    | fail_if_no_progress with_reducible refine Keeps.litMod ?_ rfl rfl rfl rfl rfl rfl rfl rfl rfl)

theorem execRefclkRestored_keeps (s : State) : Goes 0x1 s (execRefclkRestored s) := by
  unfold execRefclkRestored
  repeat' (first
    | with_reducible exact Keeps.refl _
    | with_reducible assumption
    | intro _
    | with_reducible refine Goes.next ?_
    | with_reducible refine Goes.ite ?_ ?_
    | fail_if_no_progress extract_lets +onlyGivenNames y
    | with_reducible refine Keeps.ite ?_ ?_
    | with_reducible refine Keeps.foldl ?_ ?_ _
    | fail_if_no_progress with_reducible refine Keeps.lit ?_ rfl rfl rfl rfl
    | fail_if_no_progress with_reducible refine Keeps.litMod ?_ rfl rfl rfl rfl rfl rfl rfl rfl rfl)

theorem pcieDown_keeps {F : Nat} (s : State) (hF : Within 0x5f715f7159ff7e7 F := by first | rfl | decide) : Keeps F s (pcieDown s) := by
  refine Keeps.mono hF ?_
  unfold pcieDown
  refine Keeps.ite ?_ (Keeps.refl s)
  extract_lets m s1 t
  have h2 : Keeps 0x5f715f7159ff7e7 s s1 := by
    refine Keeps.trans ?_ (setFlag_keeps ..)
    exact Keeps.updMod (Keeps.refl s) rfl rfl rfl rfl rfl rfl rfl rfl rfl rfl rfl
  clear_value s1
  have h1 : Keeps 0x5f715f7159ff7e7 s t := Keeps.ite h2 (h2.trans (resetAllContexts_keeps ..))
  clear_value t
  exact h1.upd rfl rfl rfl rfl rfl rfl rfl

theorem execPerstAssert_keeps (s : State) : Goes 0x5f715f7159ff7e7 s (execPerstAssert s) := by
  unfold execPerstAssert
  repeat' (first
    | with_reducible exact Keeps.refl _
    | with_reducible assumption
    | intro _
    | with_reducible refine Goes.next ?_
    | with_reducible refine Goes.ite ?_ ?_
    | fail_if_no_progress extract_lets +onlyGivenNames y
    | with_reducible refine Keeps.ite ?_ ?_
    | with_reducible refine Keeps.foldl ?_ ?_ _
    | with_reducible refine Keeps.trans ?_ (pcieDown_keeps ..)
    | fail_if_no_progress with_reducible refine Keeps.lit ?_ rfl rfl rfl rfl
    | fail_if_no_progress with_reducible refine Keeps.litMod ?_ rfl rfl rfl rfl rfl rfl rfl rfl rfl)

theorem execPerstDeassert_keeps (s : State) : Goes 0x1 s (execPerstDeassert s) := by
  unfold execPerstDeassert
  repeat' (first
    | with_reducible exact Keeps.refl _
    | with_reducible assumption
    | intro _
    | with_reducible refine Goes.next ?_
    | (extract_lets +onlyGivenNames y
       refine Goes.via (y := y) ?_ ?_
       on_goal 2 => (intro _; clear_value y)
       on_goal 1 => (dsimp -zeta only [y]; clear y))
    | with_reducible refine Goes.ite ?_ ?_
    | (extract_lets +onlyGivenNames y
       refine Keeps.via (y := y) ?_ ?_
       on_goal 2 => (intro _; clear_value y)
       on_goal 1 => (dsimp -zeta only [y]; clear y))
    | fail_if_no_progress extract_lets +onlyGivenNames y
    | with_reducible refine Keeps.ite ?_ ?_
    | with_reducible refine Keeps.foldl ?_ ?_ _
    | fail_if_no_progress with_reducible refine Keeps.lit ?_ rfl rfl rfl rfl
    | fail_if_no_progress with_reducible refine Keeps.litMod ?_ rfl rfl rfl rfl rfl rfl rfl rfl rfl
    | split
    | fail_if_no_progress dsimp -zeta only
    | refine Keeps.lit ?_ rfl rfl rfl rfl
    | refine Keeps.litMod ?_ rfl rfl rfl rfl rfl rfl rfl rfl rfl
    | refine Keeps.litTo ?_ rfl rfl rfl rfl ⟨nofun, nofun⟩ rfl (fun h => h) rfl rfl)

theorem execPcieLinkLoss_keeps (refclkGone : Bool) (s : State) : Goes 0x5f715f7159ff7e7 s (execPcieLinkLoss refclkGone s) := by
  unfold execPcieLinkLoss
  repeat' (first
    | with_reducible exact Keeps.refl _
    | with_reducible assumption
    | intro _
    | with_reducible refine Goes.next ?_
    | with_reducible refine Goes.ite ?_ ?_
    | fail_if_no_progress extract_lets +onlyGivenNames y
    | with_reducible refine Keeps.ite ?_ ?_
    | with_reducible refine Keeps.foldl ?_ ?_ _
    | with_reducible refine Keeps.trans ?_ (pcieDown_keeps ..)
    | fail_if_no_progress with_reducible refine Keeps.lit ?_ rfl rfl rfl rfl
    | fail_if_no_progress with_reducible refine Keeps.litMod ?_ rfl rfl rfl rfl rfl rfl rfl rfl rfl)

theorem execPwrHoldChange_keeps (level : Bool) (s : State) : Goes 0x100000000003 s (execPwrHoldChange level s) := by
  unfold execPwrHoldChange
  repeat' (first
    | with_reducible exact Keeps.refl _
    | with_reducible assumption
    | intro _
    | with_reducible refine Goes.next ?_
    | with_reducible refine Goes.ite ?_ ?_
    | fail_if_no_progress extract_lets +onlyGivenNames y
    | with_reducible refine Keeps.ite ?_ ?_
    | with_reducible refine Keeps.foldl ?_ ?_ _
    | with_reducible refine Keeps.trans ?_ (logEntry_keeps ..)
    | with_reducible refine Keeps.trans ?_ (setFlag_keeps ..)
    | fail_if_no_progress with_reducible refine Keeps.lit ?_ rfl rfl rfl rfl
    | fail_if_no_progress with_reducible refine Keeps.litMod ?_ rfl rfl rfl rfl rfl rfl rfl rfl rfl)

theorem execMctpWarmReset_keeps (s : State) : Goes 0x9ff0dff1ffff7ff s (execMctpWarmReset s) := by
  unfold execMctpWarmReset
  repeat' (first
    | with_reducible exact Keeps.refl _
    | with_reducible assumption
    | intro _
    | with_reducible refine Goes.next ?_
    | with_reducible refine Goes.ite ?_ ?_
    | fail_if_no_progress extract_lets +onlyGivenNames y
    | with_reducible refine Keeps.ite ?_ ?_
    | with_reducible refine Keeps.foldl ?_ ?_ _
    | with_reducible refine Keeps.trans ?_ (mctpAnswer_keeps ..)
    | with_reducible refine Keeps.trans ?_ (deviceReset_keeps ..))

theorem execMctpColdReset_keeps (s : State) : Goes 0x9ff0dff1ffff7ff s (execMctpColdReset s) := by
  unfold execMctpColdReset
  repeat' (first
    | with_reducible exact Keeps.refl _
    | with_reducible assumption
    | intro _
    | with_reducible refine Goes.next ?_
    | with_reducible refine Goes.ite ?_ ?_
    | fail_if_no_progress extract_lets +onlyGivenNames y
    | with_reducible refine Keeps.ite ?_ ?_
    | with_reducible refine Keeps.foldl ?_ ?_ _
    | with_reducible refine Keeps.trans ?_ (mctpAnswer_keeps ..)
    | with_reducible refine Keeps.trans ?_ (deviceReset_keeps ..))

theorem execSetOwnerLock_keeps (s : State) : Goes 0x10000020 s (execSetOwnerLock s) := by
  unfold execSetOwnerLock
  refine Goes.ite (Goes.next (Keeps.trans ?_ (mctpAnswer_keeps ..))) (Goes.next (Keeps.refl s))
  exact ⟨Frame.of, Tables.of, rfl, id, id, id, id, id, id, fun _ => rfl, Nat.le_refl _, rfl, rfl⟩

theorem execClearOwnerLock_safe (s : State) : SafeGoes 0x10000020 s (execClearOwnerLock s) := by
  unfold execClearOwnerLock
  split
  · refine ⟨_, rfl, Safe.trans ?_ (mctpAnswer_keeps ..).safe⟩
    exact ⟨Frame.of, Tables.of, rfl, id, id, id, id⟩
  · exact (Goes.next (Keeps.refl s)).safe

theorem execWriteProvisioningRecord_keeps (record : List Byte) (s : State) : Goes 0x10000020 s (execWriteProvisioningRecord record s) := by
  unfold execWriteProvisioningRecord
  repeat' (first
    | with_reducible exact Keeps.refl _
    | with_reducible assumption
    | intro _
    | with_reducible refine Goes.next ?_
    | with_reducible refine Goes.ite ?_ ?_
    | fail_if_no_progress extract_lets +onlyGivenNames y
    | with_reducible refine Keeps.ite ?_ ?_
    | with_reducible refine Keeps.foldl ?_ ?_ _
    | with_reducible refine Keeps.trans ?_ (mctpAnswer_keeps ..)
    | fail_if_no_progress with_reducible refine Keeps.lit ?_ rfl rfl rfl rfl)

end Sys2Proof.Machine
end

