-- ==== Sys2Proof/Laws/KeepsRecovery.lean ====
section
/-!
SUPPORT. What the operations of Machine/Recovery.lean keep.
-/
set_option Elab.async false

namespace Sys2Proof.Machine

theorem escalateHutch_keeps {F : Nat} (cause : Nat) (s : State) (hF : Within 0x9ff0dff1ffff7ff F := by first | rfl | decide) : Keeps F s (escalateHutch cause s) := by
  refine Keeps.mono hF ?_
  unfold escalateHutch
  repeat' (first
    | with_reducible exact Keeps.refl _
    | with_reducible assumption
    | intro _
    | (extract_lets +onlyGivenNames y
       refine Keeps.via (y := y) ?_ ?_
       on_goal 2 => (intro _; clear_value y)
       on_goal 1 => (dsimp -zeta only [y]; clear y))
    | fail_if_no_progress extract_lets +onlyGivenNames y
    | with_reducible refine Keeps.ite ?_ ?_
    | with_reducible refine Keeps.foldl ?_ ?_ _
    | with_reducible refine Keeps.trans ?_ (deviceReset_keeps ..)
    | with_reducible refine Keeps.trans ?_ (logEntry_keeps ..)
    | fail_if_no_progress with_reducible refine Keeps.lit ?_ rfl rfl rfl rfl
    | fail_if_no_progress with_reducible refine Keeps.litMod ?_ rfl rfl rfl rfl rfl rfl rfl rfl rfl
    | split
    | fail_if_no_progress dsimp -zeta only
    | refine Keeps.lit ?_ rfl rfl rfl rfl
    | refine Keeps.litMod ?_ rfl rfl rfl rfl rfl rfl rfl rfl rfl
    | refine Keeps.litTo ?_ rfl rfl rfl rfl ⟨nofun, nofun⟩ rfl (fun h => h) rfl rfl)

theorem noteHutchReset_keeps {F : Nat} (s : State) (hF : Within 0x400040000000010 F := by first | rfl | decide) : Keeps F s (noteHutchReset s) := by
  refine Keeps.mono hF ?_
  unfold noteHutchReset
  repeat' (first
    | with_reducible exact Keeps.refl _
    | with_reducible assumption
    | intro _
    | (extract_lets +onlyGivenNames y
       refine Keeps.via (y := y) ?_ ?_
       on_goal 2 => (intro _; clear_value y)
       on_goal 1 => (dsimp -zeta only [y]; clear y))
    | fail_if_no_progress extract_lets +onlyGivenNames y
    | with_reducible refine Keeps.ite ?_ ?_
    | with_reducible refine Keeps.foldl ?_ ?_ _
    | with_reducible refine Keeps.trans ?_ (bump_keeps ..)
    | with_reducible refine Keeps.trans ?_ (setFlag_keeps ..)
    | fail_if_no_progress with_reducible refine Keeps.lit ?_ rfl rfl rfl rfl
    | fail_if_no_progress with_reducible refine Keeps.litMod ?_ rfl rfl rfl rfl rfl rfl rfl rfl rfl
    | split
    | fail_if_no_progress dsimp -zeta only
    | refine Keeps.lit ?_ rfl rfl rfl rfl
    | refine Keeps.litMod ?_ rfl rfl rfl rfl rfl rfl rfl rfl rfl
    | refine Keeps.litTo ?_ rfl rfl rfl rfl ⟨nofun, nofun⟩ rfl (fun h => h) rfl rfl)

theorem hutchReset_keeps {F : Nat} (s : State) (hF : Within 0x5f705f7159ff777 F := by first | rfl | decide) : Keeps F s (hutchReset s) := by
  refine Keeps.mono hF ?_
  unfold hutchReset
  extract_lets s1 s2
  have h1 : Keeps 0x5f705f7159ff777 s s1 := Keeps.ite (crashDump_keeps ..) (Keeps.refl s)
  have h2 : Keeps 0x5f705f7159ff777 s s2 := h1.trans (resetAllContexts_keeps ..)
  clear_value s2
  exact (h2.trans (logEntry_keeps ..)).trans (noteHutchReset_keeps ..)

theorem execHutchHeartbeat_keeps (s : State) : Goes 0x10 s (execHutchHeartbeat s) := by
  unfold execHutchHeartbeat
  repeat' (first
    | with_reducible exact Keeps.refl _
    | with_reducible assumption
    | intro _
    | with_reducible refine Goes.next ?_
    | with_reducible refine Goes.ite ?_ ?_
    | fail_if_no_progress extract_lets +onlyGivenNames y
    | with_reducible refine Keeps.ite ?_ ?_
    | with_reducible refine Keeps.foldl ?_ ?_ _
    | fail_if_no_progress with_reducible refine Keeps.lit ?_ rfl rfl rfl rfl)

theorem execHutchHeartbeatMiss_keeps (s : State) : Goes 0xdff0dff1ffff7ff s (execHutchHeartbeatMiss s) := by
  unfold execHutchHeartbeatMiss
  refine Goes.ite (Goes.next (Keeps.refl s)) (Goes.ite (Goes.next ?_) (Goes.ite (Goes.next ?_) (Goes.next ?_)))
  · exact Keeps.upd (Keeps.refl s) rfl rfl rfl rfl rfl rfl rfl
  · exact Keeps.trans (noteHutchReset_keeps ..) (escalateHutch_keeps ..)
  · exact Keeps.ite ((hutchReset_keeps s).trans (escalateHutch_keeps ..)) (hutchReset_keeps s)

theorem execHutchRestoreTimeout_keeps (s : State) : Goes 0x9ff0dff1ffff7ff s (execHutchRestoreTimeout s) := by
  unfold execHutchRestoreTimeout
  repeat' (first
    | with_reducible exact Keeps.refl _
    | with_reducible assumption
    | intro _
    | with_reducible refine Goes.next ?_
    | with_reducible refine Goes.ite ?_ ?_
    | fail_if_no_progress extract_lets +onlyGivenNames y
    | with_reducible refine Keeps.ite ?_ ?_
    | with_reducible refine Keeps.foldl ?_ ?_ _
    | with_reducible refine Keeps.trans ?_ (escalateHutch_keeps ..))

theorem execDeviceWarmReset_keeps (key : Fin 65536) (dump : Bool) (s : State) : Goes 0x9ff0dff1ffff7ff s (execDeviceWarmReset key dump s) := by
  unfold execDeviceWarmReset
  repeat' (first
    | with_reducible exact Keeps.refl _
    | with_reducible assumption
    | intro _
    | with_reducible refine Goes.next ?_
    | with_reducible refine Goes.ite ?_ ?_
    | fail_if_no_progress extract_lets +onlyGivenNames y
    | with_reducible refine Keeps.ite ?_ ?_
    | with_reducible refine Keeps.foldl ?_ ?_ _
    | with_reducible refine Keeps.trans ?_ (deviceReset_keeps ..))

theorem execDeviceColdReset_keeps (key : Fin 65536) (s : State) : Goes 0x9ff0dff1ffff7ff s (execDeviceColdReset key s) := by
  unfold execDeviceColdReset
  repeat' (first
    | with_reducible exact Keeps.refl _
    | with_reducible assumption
    | intro _
    | with_reducible refine Goes.next ?_
    | with_reducible refine Goes.ite ?_ ?_
    | fail_if_no_progress extract_lets +onlyGivenNames y
    | with_reducible refine Keeps.ite ?_ ?_
    | with_reducible refine Keeps.foldl ?_ ?_ _
    | with_reducible refine Keeps.trans ?_ (deviceReset_keeps ..))

theorem execDumpClear_keeps (s : State) : Goes 0x10 s (execDumpClear s) := by
  unfold execDumpClear
  repeat' (first
    | with_reducible exact Keeps.refl _
    | with_reducible assumption
    | intro _
    | with_reducible refine Goes.next ?_
    | with_reducible refine Goes.ite ?_ ?_
    | fail_if_no_progress extract_lets +onlyGivenNames y
    | with_reducible refine Keeps.ite ?_ ?_
    | with_reducible refine Keeps.foldl ?_ ?_ _
    | fail_if_no_progress with_reducible refine Keeps.lit ?_ rfl rfl rfl rfl)

end Sys2Proof.Machine
end

