-- ==== Sys2Proof/Laws/KeepsFirmware.lean ====
section
/-!
SUPPORT. What the operations of Machine/Firmware.lean keep.
-/
set_option Elab.async false

namespace Sys2Proof.Machine

theorem fwuRefuse_keeps {F : Nat} (reason : Nat) (s : State) (hF : Within 0x80000000022 F := by first | rfl | decide) : Keeps F s (fwuRefuse reason s) := by
  refine Keeps.mono hF ?_
  unfold fwuRefuse
  repeat' (first
    | with_reducible exact Keeps.refl _
    | with_reducible assumption
    | intro _
    | fail_if_no_progress extract_lets +onlyGivenNames y
    | with_reducible refine Keeps.ite ?_ ?_
    | with_reducible refine Keeps.foldl ?_ ?_ _
    | with_reducible refine Keeps.trans ?_ (logEntry_keeps ..)
    | with_reducible refine Keeps.trans ?_ (setFlag_keeps ..)
    | fail_if_no_progress with_reducible refine Keeps.lit ?_ rfl rfl rfl rfl)

theorem setSlot_lock (n : Nat) (i : Option Image) (f : Fwu) : (setSlot n i f).ownerLock = f.ownerLock := by
  unfold setSlot
  split <;> rfl

theorem setSlot_svn (n : Nat) (i : Option Image) (f : Fwu) : (setSlot n i f).minSvn = f.minSvn := by
  unfold setSlot
  split <;> rfl

theorem slotUpd_keeps {F : Nat} {s x : State} (n : Nat) (i : Option Image) (f : Fwu) (h : Keeps F s x) (hk : f.ownerLock = x.fwu.ownerLock)
    (hv : f.minSvn = x.fwu.minSvn) (hF : Within 0x20 F := by first | rfl | decide) : Keeps F s { x with fwu := setSlot n i f } :=
  h.trans (Keeps.mono hF (Keeps.upd (Keeps.refl x) rfl rfl rfl rfl rfl ((setSlot_lock ..).trans hk) ((setSlot_svn ..).trans hv)))

theorem beginStaging_keeps {F : Nat} (overMctp : Bool) (s : State) (hF : Within 0x10000020 F := by first | rfl | decide) : Keeps F s (beginStaging overMctp s) := by
  refine Keeps.mono hF ?_
  unfold beginStaging
  split
  · exact slotUpd_keeps _ _ _ (Keeps.refl s) rfl rfl
  · refine Keeps.trans ?_ (hostReads_keeps ..)
    exact slotUpd_keeps _ _ _ (Keeps.refl s) rfl rfl

theorem stageCommand_keeps {F : Nat} (overMctp : Bool) (s : State) (hF : Within 0x80010000022 F := by first | rfl | decide) : Keeps F s (stageCommand overMctp s) := by
  refine Keeps.mono hF ?_
  unfold stageCommand
  repeat' (first
    | with_reducible exact Keeps.refl _
    | with_reducible assumption
    | intro _
    | fail_if_no_progress extract_lets +onlyGivenNames y
    | with_reducible refine Keeps.ite ?_ ?_
    | with_reducible refine Keeps.foldl ?_ ?_ _
    | with_reducible refine Keeps.trans ?_ (beginStaging_keeps ..)
    | with_reducible refine Keeps.trans ?_ (fwuRefuse_keeps ..))

theorem execStage_keeps (s : State) : Goes 0x80010000022 s (execStage s) := by
  unfold execStage
  repeat' (first
    | with_reducible exact Keeps.refl _
    | with_reducible assumption
    | intro _
    | with_reducible refine Goes.next ?_
    | with_reducible refine Goes.ite ?_ ?_
    | fail_if_no_progress extract_lets +onlyGivenNames y
    | with_reducible refine Keeps.ite ?_ ?_
    | with_reducible refine Keeps.foldl ?_ ?_ _
    | with_reducible refine Keeps.trans ?_ (stageCommand_keeps ..))

theorem fwuFail_keeps {F : Nat} (code reason : Nat) (s : State) (hF : Within 0x80000000020 F := by first | rfl | decide) : Keeps F s (fwuFail code reason s) := by
  refine Keeps.mono hF ?_
  unfold fwuFail
  repeat' (first
    | with_reducible exact Keeps.refl _
    | with_reducible assumption
    | intro _
    | fail_if_no_progress extract_lets +onlyGivenNames y
    | with_reducible refine Keeps.ite ?_ ?_
    | with_reducible refine Keeps.foldl ?_ ?_ _
    | with_reducible refine Keeps.trans ?_ (setFlag_keeps ..)
    | fail_if_no_progress with_reducible refine Keeps.lit ?_ rfl rfl rfl rfl)

theorem noteBlocksStaged_keeps {F : Nat} (blocks : Nat) (s : State) (hF : Within 0x80000000020 F := by first | rfl | decide) : Keeps F s (noteBlocksStaged blocks s) := by
  refine Keeps.mono hF ?_
  unfold noteBlocksStaged
  repeat' (first
    | with_reducible exact Keeps.refl _
    | with_reducible assumption
    | intro _
    | (extract_lets +onlyGivenNames y
       refine Keeps.via (y := y) ?_ ?_
       on_goal 2 => (intro _; clear_value y)
       on_goal 1 => (dsimp -zeta only [y]; clear y))
    | fail_if_no_progress extract_lets +onlyGivenNames y
    | with_reducible refine Keeps.ite ?_ ?_
    | with_reducible refine Keeps.foldl ?_ ?_ _
    | with_reducible refine Keeps.trans ?_ (setFlag_keeps ..)
    | fail_if_no_progress with_reducible refine Keeps.lit ?_ rfl rfl rfl rfl
    | fail_if_no_progress with_reducible refine Keeps.litMod ?_ rfl rfl rfl rfl rfl rfl rfl rfl rfl
    | split
    | fail_if_no_progress dsimp -zeta only
    | refine Keeps.lit ?_ rfl rfl rfl rfl
    | refine Keeps.litMod ?_ rfl rfl rfl rfl rfl rfl rfl rfl rfl
    | refine Keeps.litTo ?_ rfl rfl rfl rfl ⟨nofun, nofun⟩ rfl (fun h => h) rfl rfl)

theorem endStaging_keeps {F : Nat} (bs : List Byte) (s : State) (hF : Within 0x80000000020 F := by first | rfl | decide) : Keeps F s (endStaging bs s) := by
  refine Keeps.mono hF ?_
  unfold endStaging
  extract_lets i s1
  have h1 : Keeps 0x80000000020 s s1 := noteBlocksStaged_keeps ..
  clear_value s1
  split
  · exact h1.trans (fwuFail_keeps ..)
  · exact slotUpd_keeps _ _ _ h1 rfl rfl

theorem execStagingDone_keeps (reply : HostReply) (s : State) : Goes 0x80000000020 s (execStagingDone reply s) := by
  unfold execStagingDone
  refine Goes.ite (Goes.next (Keeps.refl s)) ?_
  split
  · exact Goes.next (endStaging_keeps ..)
  · refine Goes.next (Keeps.trans ?_ (setFlag_keeps ..))
    exact Keeps.upd (Keeps.refl s) rfl rfl rfl rfl rfl rfl rfl

theorem execVerify_keeps (s : State) : Goes 0x80000000022 s (execVerify s) := by
  unfold execVerify
  repeat' (first
    | with_reducible exact Keeps.refl _
    | with_reducible assumption
    | intro _
    | with_reducible refine Goes.next ?_
    | with_reducible refine Goes.ite ?_ ?_
    | fail_if_no_progress extract_lets +onlyGivenNames y
    | with_reducible refine Keeps.ite ?_ ?_
    | with_reducible refine Keeps.foldl ?_ ?_ _
    | with_reducible refine Keeps.trans ?_ (fwuRefuse_keeps ..)
    | fail_if_no_progress with_reducible refine Keeps.lit ?_ rfl rfl rfl rfl)

theorem execVerifyDone_keeps (crypto : Crypto) (s : State) : Goes 0x80010000020 s (execVerifyDone crypto s) := by
  unfold execVerifyDone
  repeat' (first
    | with_reducible exact Keeps.refl _
    | with_reducible assumption
    | intro _
    | with_reducible refine Goes.next ?_
    | (extract_lets +onlyGivenNames y
       refine Goes.via (y := y) ?_ ?_
       on_goal 2 => (intro _; clear_value y)
       on_goal 1 => (dsimp -zeta only [y]; clear y))
    | with_reducible refine Goes.ite ?_ ?_
    | (extract_lets +onlyGivenNames y
       refine Keeps.via (y := y) ?_ ?_
       on_goal 2 => (intro _; clear_value y)
       on_goal 1 => (dsimp -zeta only [y]; clear y))
    | fail_if_no_progress extract_lets +onlyGivenNames y
    | with_reducible refine Keeps.ite ?_ ?_
    | with_reducible refine Keeps.foldl ?_ ?_ _
    | with_reducible refine Keeps.trans ?_ (fwuFail_keeps ..)
    | with_reducible refine Keeps.trans ?_ (emit_keeps ..)
    | fail_if_no_progress with_reducible refine Keeps.lit ?_ rfl rfl rfl rfl
    | fail_if_no_progress with_reducible refine Keeps.litMod ?_ rfl rfl rfl rfl rfl rfl rfl rfl rfl
    | split
    | fail_if_no_progress dsimp -zeta only
    | refine Keeps.lit ?_ rfl rfl rfl rfl
    | refine Keeps.litMod ?_ rfl rfl rfl rfl rfl rfl rfl rfl rfl
    | refine Keeps.litTo ?_ rfl rfl rfl rfl ⟨nofun, nofun⟩ rfl (fun h => h) rfl rfl)

theorem activateCommand_keeps {F : Nat} (s : State) (hF : Within 0x9ff0dff1ffff7ff F := by first | rfl | decide) : Keeps F s (activateCommand s) := by
  refine Keeps.mono hF ?_
  unfold activateCommand
  repeat' (first
    | with_reducible exact Keeps.refl _
    | with_reducible assumption
    | intro _
    | (extract_lets +onlyGivenNames y
       refine Keeps.via (y := y) ?_ ?_
       on_goal 2 => (intro _; clear_value y)
       on_goal 1 => (dsimp -zeta only [y]; clear y))
    | fail_if_no_progress extract_lets +onlyGivenNames y
    | with_reducible refine Keeps.ite ?_ ?_
    | with_reducible refine Keeps.foldl ?_ ?_ _
    | with_reducible refine Keeps.trans ?_ (fwuRefuse_keeps ..)
    | with_reducible refine Keeps.trans ?_ (deviceReset_keeps ..)
    | fail_if_no_progress with_reducible refine Keeps.lit ?_ rfl rfl rfl rfl
    | fail_if_no_progress with_reducible refine Keeps.litMod ?_ rfl rfl rfl rfl rfl rfl rfl rfl rfl
    | split
    | fail_if_no_progress dsimp -zeta only
    | refine Keeps.lit ?_ rfl rfl rfl rfl
    | refine Keeps.litMod ?_ rfl rfl rfl rfl rfl rfl rfl rfl rfl
    | refine Keeps.litTo ?_ rfl rfl rfl rfl ⟨nofun, nofun⟩ rfl (fun h => h) rfl rfl)

theorem execActivate_keeps (s : State) : Goes 0x9ff0dff1ffff7ff s (execActivate s) := by
  unfold execActivate
  repeat' (first
    | with_reducible exact Keeps.refl _
    | with_reducible assumption
    | intro _
    | with_reducible refine Goes.next ?_
    | with_reducible refine Goes.ite ?_ ?_
    | fail_if_no_progress extract_lets +onlyGivenNames y
    | with_reducible refine Keeps.ite ?_ ?_
    | with_reducible refine Keeps.foldl ?_ ?_ _
    | with_reducible refine Keeps.trans ?_ (activateCommand_keeps ..))

theorem execActivateDrainDone_keeps (s : State) : Goes 0x20 s (execActivateDrainDone s) := by
  unfold execActivateDrainDone
  refine Goes.ite ?_ (Goes.next (Keeps.refl s))
  exact Goes.next ⟨Frame.of, Tables.of, rfl, id, id, id, id, id, id, id, Nat.le_max_left _ _, rfl, rfl⟩

theorem execActivateReloadDone_keeps (s : State) : Goes 0x40084012900032 s (execActivateReloadDone s) := by
  unfold execActivateReloadDone
  repeat' (first
    | with_reducible exact Keeps.refl _
    | with_reducible assumption
    | intro _
    | with_reducible refine Goes.next ?_
    | with_reducible refine Goes.ite ?_ ?_
    | fail_if_no_progress extract_lets +onlyGivenNames y
    | with_reducible refine Keeps.ite ?_ ?_
    | with_reducible refine Keeps.foldl ?_ ?_ _
    | with_reducible refine Keeps.trans ?_ (nextPortReload_keeps ..)
    | with_reducible refine Keeps.trans ?_ (activationEnd_keeps ..)
    | fail_if_no_progress with_reducible refine Keeps.lit ?_ rfl rfl rfl rfl)

theorem execActivateWatchdog_keeps (s : State) : Goes 0x9ff0dff1ffff7ff s (execActivateWatchdog s) := by
  unfold execActivateWatchdog
  repeat' (first
    | with_reducible exact Keeps.refl _
    | with_reducible assumption
    | intro _
    | with_reducible refine Goes.next ?_
    | with_reducible refine Goes.ite ?_ ?_
    | fail_if_no_progress extract_lets +onlyGivenNames y
    | with_reducible refine Keeps.ite ?_ ?_
    | with_reducible refine Keeps.foldl ?_ ?_ _
    | with_reducible refine Keeps.trans ?_ (deviceReset_keeps ..))

theorem abortCommand_keeps {F : Nat} (s : State) (hF : Within 0x80000000022 F := by first | rfl | decide) : Keeps F s (abortCommand s) := by
  refine Keeps.mono hF ?_
  unfold abortCommand
  split
  · exact slotUpd_keeps _ _ _ (Keeps.refl s) rfl rfl
  · exact slotUpd_keeps _ _ _ (Keeps.refl s) rfl rfl
  · exact Keeps.upd (Keeps.refl s) rfl rfl rfl rfl rfl rfl rfl
  · exact fwuRefuse_keeps ..

theorem execFwuAbort_keeps (s : State) : Goes 0x80000000022 s (execFwuAbort s) := by
  unfold execFwuAbort
  repeat' (first
    | with_reducible exact Keeps.refl _
    | with_reducible assumption
    | intro _
    | with_reducible refine Goes.next ?_
    | with_reducible refine Goes.ite ?_ ?_
    | fail_if_no_progress extract_lets +onlyGivenNames y
    | with_reducible refine Keeps.ite ?_ ?_
    | with_reducible refine Keeps.foldl ?_ ?_ _
    | with_reducible refine Keeps.trans ?_ (abortCommand_keeps ..))

theorem execFwuOwnerSet_keeps (s : State) : Goes 0x20 s (execFwuOwnerSet s) := by
  unfold execFwuOwnerSet
  refine Goes.ite (Goes.next ?_) (Goes.next (Keeps.refl s))
  exact ⟨Frame.of, Tables.of, rfl, id, id, id, id, id, id, fun _ => rfl, Nat.le_refl _, rfl, rfl⟩

theorem pldmAnswer_keeps {F : Nat} (cmd : Nat) (before : State) {s after : State} (h : Keeps F s after)
    (hF : Within 0x10000000 F := by first | rfl | decide) : Keeps F s (pldmAnswer cmd before after) :=
  h.trans (Keeps.mono hF (emit_keeps ..))

theorem execRequestUpdate_keeps (s : State) : Goes 0x80010000022 s (execRequestUpdate s) := by
  unfold execRequestUpdate
  repeat' (first
    | with_reducible exact Keeps.refl _
    | with_reducible assumption
    | intro _
    | with_reducible refine Goes.next ?_
    | with_reducible refine Goes.ite ?_ ?_
    | fail_if_no_progress extract_lets +onlyGivenNames y
    | with_reducible refine Keeps.ite ?_ ?_
    | with_reducible refine Keeps.foldl ?_ ?_ _
    | with_reducible refine Keeps.trans ?_ (pldmAnswer_keeps ..)
    | with_reducible refine Keeps.trans ?_ (fwuRefuse_keeps ..)
    | with_reducible refine Keeps.trans ?_ (emit_keeps ..)
    | fail_if_no_progress with_reducible refine Keeps.lit ?_ rfl rfl rfl rfl)

theorem execPassComponentTable_keeps (s : State) : Goes 0x80010000022 s (execPassComponentTable s) := by
  unfold execPassComponentTable
  repeat' (first
    | with_reducible exact Keeps.refl _
    | with_reducible assumption
    | intro _
    | with_reducible refine Goes.next ?_
    | with_reducible refine Goes.ite ?_ ?_
    | fail_if_no_progress extract_lets +onlyGivenNames y
    | with_reducible refine Keeps.ite ?_ ?_
    | with_reducible refine Keeps.foldl ?_ ?_ _
    | with_reducible refine Keeps.trans ?_ (pldmAnswer_keeps ..)
    | with_reducible refine Keeps.trans ?_ (fwuRefuse_keeps ..)
    | with_reducible refine Keeps.trans ?_ (emit_keeps ..)
    | fail_if_no_progress with_reducible refine Keeps.lit ?_ rfl rfl rfl rfl)

theorem execUpdateComponent_keeps (s : State) : Goes 0x80010000022 s (execUpdateComponent s) := by
  unfold execUpdateComponent
  repeat' (first
    | with_reducible exact Keeps.refl _
    | with_reducible assumption
    | intro _
    | with_reducible refine Goes.next ?_
    | (extract_lets +onlyGivenNames y
       refine Goes.via (y := y) ?_ ?_
       on_goal 2 => (intro _; clear_value y)
       on_goal 1 => (dsimp -zeta only [y]; clear y))
    | with_reducible refine Goes.ite ?_ ?_
    | (extract_lets +onlyGivenNames y
       refine Keeps.via (y := y) ?_ ?_
       on_goal 2 => (intro _; clear_value y)
       on_goal 1 => (dsimp -zeta only [y]; clear y))
    | fail_if_no_progress extract_lets +onlyGivenNames y
    | with_reducible refine Keeps.ite ?_ ?_
    | with_reducible refine Keeps.foldl ?_ ?_ _
    | with_reducible refine Keeps.trans ?_ (pldmAnswer_keeps ..)
    | with_reducible refine Keeps.trans ?_ (stageCommand_keeps ..)
    | with_reducible refine Keeps.trans ?_ (fwuRefuse_keeps ..)
    | with_reducible refine Keeps.trans ?_ (emit_keeps ..)
    | fail_if_no_progress with_reducible refine Keeps.lit ?_ rfl rfl rfl rfl
    | fail_if_no_progress with_reducible refine Keeps.litMod ?_ rfl rfl rfl rfl rfl rfl rfl rfl rfl
    | split
    | fail_if_no_progress dsimp -zeta only
    | refine Keeps.lit ?_ rfl rfl rfl rfl
    | refine Keeps.litMod ?_ rfl rfl rfl rfl rfl rfl rfl rfl rfl
    | refine Keeps.litTo ?_ rfl rfl rfl rfl ⟨nofun, nofun⟩ rfl (fun h => h) rfl rfl)

theorem transferComplete_keeps {F : Nat} (s : State) (hF : Within 0x10000000 F := by first | rfl | decide) : Keeps F s (transferComplete s) := by
  refine Keeps.mono hF ?_
  unfold transferComplete
  repeat' (first
    | with_reducible exact Keeps.refl _
    | with_reducible assumption
    | intro _
    | (extract_lets +onlyGivenNames y
       refine Keeps.via (y := y) ?_ ?_
       on_goal 2 => (intro _; clear_value y)
       on_goal 1 => (dsimp -zeta only [y]; clear y))
    | fail_if_no_progress extract_lets +onlyGivenNames y
    | with_reducible refine Keeps.ite ?_ ?_
    | with_reducible refine Keeps.foldl ?_ ?_ _
    | with_reducible refine Keeps.trans ?_ (emit_keeps ..)
    | fail_if_no_progress with_reducible refine Keeps.lit ?_ rfl rfl rfl rfl
    | fail_if_no_progress with_reducible refine Keeps.litMod ?_ rfl rfl rfl rfl rfl rfl rfl rfl rfl
    | split
    | fail_if_no_progress dsimp -zeta only
    | refine Keeps.lit ?_ rfl rfl rfl rfl
    | refine Keeps.litMod ?_ rfl rfl rfl rfl rfl rfl rfl rfl rfl
    | refine Keeps.litTo ?_ rfl rfl rfl rfl ⟨nofun, nofun⟩ rfl (fun h => h) rfl rfl)

theorem execFirmwareData_keeps (part : List Byte) (s : State) : Goes 0x80010000020 s (execFirmwareData part s) := by
  unfold execFirmwareData
  refine Goes.ite (Goes.next (Keeps.refl s)) ?_
  extract_lets bs
  refine Goes.ite (Goes.next (Keeps.trans ?_ (emit_keeps ..))) ?_
  · exact Keeps.upd (Keeps.refl s) rfl rfl rfl rfl rfl rfl rfl
  · split
    · exact Goes.next ((Keeps.trans (noteBlocksStaged_keeps ..) (fwuFail_keeps ..)).trans (transferComplete_keeps ..))
    · refine Goes.ite (Goes.next (Keeps.trans (endStaging_keeps ..) (transferComplete_keeps ..))) (Goes.next (Keeps.trans ?_ (emit_keeps ..)))
      exact Keeps.upd (Keeps.refl s) rfl rfl rfl rfl rfl rfl rfl

theorem execActivateFirmware_keeps (s : State) : Goes 0x9ff0dff1ffff7ff s (execActivateFirmware s) := by
  unfold execActivateFirmware
  repeat' (first
    | with_reducible exact Keeps.refl _
    | with_reducible assumption
    | intro _
    | with_reducible refine Goes.next ?_
    | with_reducible refine Goes.ite ?_ ?_
    | fail_if_no_progress extract_lets +onlyGivenNames y
    | with_reducible refine Keeps.ite ?_ ?_
    | with_reducible refine Keeps.foldl ?_ ?_ _
    | with_reducible refine Keeps.trans ?_ (pldmAnswer_keeps ..)
    | with_reducible refine Keeps.trans ?_ (activateCommand_keeps ..)
    | fail_if_no_progress with_reducible refine Keeps.lit ?_ rfl rfl rfl rfl
    | fail_if_no_progress with_reducible refine Keeps.litMod ?_ rfl rfl rfl rfl rfl rfl rfl rfl rfl
    | split
    | fail_if_no_progress dsimp -zeta only
    | refine Keeps.lit ?_ rfl rfl rfl rfl)

theorem execGetStatus_keeps (s : State) : Goes 0x10000000 s (execGetStatus s) := by
  unfold execGetStatus
  repeat' (first
    | with_reducible exact Keeps.refl _
    | with_reducible assumption
    | intro _
    | with_reducible refine Goes.next ?_
    | (extract_lets +onlyGivenNames y
       refine Goes.via (y := y) ?_ ?_
       on_goal 2 => (intro _; clear_value y)
       on_goal 1 => (dsimp -zeta only [y]; clear y))
    | with_reducible refine Goes.ite ?_ ?_
    | (extract_lets +onlyGivenNames y
       refine Keeps.via (y := y) ?_ ?_
       on_goal 2 => (intro _; clear_value y)
       on_goal 1 => (dsimp -zeta only [y]; clear y))
    | fail_if_no_progress extract_lets +onlyGivenNames y
    | with_reducible refine Keeps.ite ?_ ?_
    | with_reducible refine Keeps.foldl ?_ ?_ _
    | with_reducible refine Keeps.trans ?_ (emit_keeps ..)
    | fail_if_no_progress with_reducible refine Keeps.lit ?_ rfl rfl rfl rfl
    | fail_if_no_progress with_reducible refine Keeps.litMod ?_ rfl rfl rfl rfl rfl rfl rfl rfl rfl
    | split
    | fail_if_no_progress dsimp -zeta only
    | refine Keeps.lit ?_ rfl rfl rfl rfl
    | refine Keeps.litMod ?_ rfl rfl rfl rfl rfl rfl rfl rfl rfl
    | refine Keeps.litTo ?_ rfl rfl rfl rfl ⟨nofun, nofun⟩ rfl (fun h => h) rfl rfl)

theorem execCancelUpdate_keeps (s : State) : Goes 0x80010000022 s (execCancelUpdate s) := by
  unfold execCancelUpdate
  repeat' (first
    | with_reducible exact Keeps.refl _
    | with_reducible assumption
    | intro _
    | with_reducible refine Goes.next ?_
    | (extract_lets +onlyGivenNames y
       refine Goes.via (y := y) ?_ ?_
       on_goal 2 => (intro _; clear_value y)
       on_goal 1 => (dsimp -zeta only [y]; clear y))
    | with_reducible refine Goes.ite ?_ ?_
    | fail_if_no_progress extract_lets +onlyGivenNames y
    | with_reducible refine Keeps.ite ?_ ?_
    | with_reducible refine Keeps.foldl ?_ ?_ _
    | with_reducible refine Keeps.trans ?_ (pldmAnswer_keeps ..)
    | with_reducible refine Keeps.trans ?_ (abortCommand_keeps ..)
    | fail_if_no_progress with_reducible refine Keeps.lit ?_ rfl rfl rfl rfl
    | fail_if_no_progress with_reducible refine Keeps.litMod ?_ rfl rfl rfl rfl rfl rfl rfl rfl rfl
    | split
    | fail_if_no_progress dsimp -zeta only
    | refine Keeps.lit ?_ rfl rfl rfl rfl)

end Sys2Proof.Machine
end

