-- ==== Sys2Proof/Laws/KeepsScrub.lean ====
section
/-!
SUPPORT. What the operations of Machine/Scrub.lean keep.
-/
set_option Elab.async false

namespace Sys2Proof.Machine

theorem setScrubQueue_keeps {F : Nat} (hbm : Bool) (q : List ScrubJob) (s : State) (hF : Within 0x1000 F := by first | rfl | decide) : Keeps F s (setScrubQueue hbm q s) := by
  refine Keeps.mono hF ?_
  unfold setScrubQueue
  repeat' (first
    | with_reducible exact Keeps.refl _
    | with_reducible assumption
    | intro _
    | fail_if_no_progress extract_lets +onlyGivenNames y
    | with_reducible refine Keeps.ite ?_ ?_
    | with_reducible refine Keeps.foldl ?_ ?_ _
    | fail_if_no_progress with_reducible refine Keeps.lit ?_ rfl rfl rfl rfl
    | fail_if_no_progress with_reducible refine Keeps.litMod ?_ rfl rfl rfl rfl rfl rfl rfl rfl rfl
    | split)

theorem endScrub_keeps {F : Nat} (hbm watchdog : Bool) (j : ScrubJob) (reached : Nat) (s : State) (hF : Within 0x81008010049642 F := by first | rfl | decide) :
    Keeps F s (endScrub hbm watchdog j reached s) := by
  refine Keeps.mono hF ?_
  unfold endScrub
  extract_lets +onlyGivenNames tEnd acc errs skipped scanned good bad s1
  have h1 : Keeps 0x81008010049642 s s1 := Keeps.foldl (Keeps.refl s) (fun y e => noteError_keeps ..) _
  clear_value s1
  extract_lets +onlyGivenNames m s2
  have h2 : Keeps 0x81008010049642 s1 s2 := by
    refine Keeps.ite ?_ (Keeps.refl s1)
    refine ⟨Frame.of, Tables.of, rfl, ?_, id, id, id, id, id, id, Nat.le_refl _, rfl, rfl⟩
    rw [wf_iff, wf_iff]
    exact fun w => ⟨w.1, foldl_keeps (fun t => tabWf none t = true) _ (fun t e h => tabWf_tabSet _ _ _ _ h) _ _ w.2⟩
  clear_value s2
  extract_lets +onlyGivenNames s3 s4
  have h4 : Keeps 0x81008010049642 s s4 := Keeps.ite ((h1.trans h2).trans (bump_keeps ..)) (((h1.trans h2).trans (bump_keeps ..)).trans (setFlag_keeps ..))
  clear_value s4
  extract_lets +onlyGivenNames s5
  have h5 : Keeps 0x81008010049642 s s5 := h4.trans (writeMem_keeps ..)
  clear_value s5
  extract_lets +onlyGivenNames st s6 s7
  have h6 : Keeps 0x81008010049642 s s6 := Keeps.ite (h5.trans (logEntry_keeps ..)) h5
  have h7 : Keeps 0x81008010049642 s s7 := h6.trans (setScrubQueue_keeps ..)
  exact h7.trans (complete_keeps ..)

theorem startScrub_keeps {F : Nat} (n : Nat) (hbm : Bool) (s : State) (hF : Within 0x81008010049642 F := by first | rfl | decide) : Keeps F s (startScrub n hbm s) := by
  refine Keeps.mono hF ?_
  induction n generalizing s with
  | zero => exact Keeps.refl _
  | succ n ih =>
    cases hq : scrubQueue s hbm with
    | nil =>
      rw [startScrub.eq_def, hq]
      exact Keeps.refl _
    | cons j js =>
      rw [startScrub.eq_def, hq]
      dsimp only
      refine Keeps.ite ?_ (setScrubQueue_keeps ..)
      refine Keeps.trans ?_ (ih _)
      exact Keeps.trans (setScrubQueue_keeps ..) (endScrub_keeps ..)

theorem finishScrub_keeps {F : Nat} (hbm watchdog : Bool) (j : ScrubJob) (reached : Nat) (s : State) (hF : Within 0x81008010049642 F := by first | rfl | decide) :
    Keeps F s (finishScrub hbm watchdog j reached s) := by
  refine Keeps.mono hF ?_
  unfold finishScrub
  exact (endScrub_keeps ..).trans (startScrub_keeps ..)

theorem execMemScrub_keeps (ctx : Fin 16) (ring : Fin 8) (s : State) : Goes 0x81008010049642 s (execMemScrub ctx ring s) := by
  unfold execMemScrub
  repeat' (first
    | with_reducible exact Keeps.refl _
    | with_reducible assumption
    | intro _
    | with_reducible refine Goes.next ?_
    | (extract_lets +onlyGivenNames y
       refine Goes.via (y := y) ?_ ?_
       on_goal 2 => (intro _; clear_value y)
       on_goal 1 => (dsimp -zeta only [y]; clear y))
    | with_reducible refine Goes.ite ?_ ?_
    | (extract_lets +onlyGivenNames y
       refine Keeps.via (y := y) ?_ ?_
       on_goal 2 => (intro _; clear_value y)
       on_goal 1 => (dsimp -zeta only [y]; clear y))
    | fail_if_no_progress extract_lets +onlyGivenNames y
    | with_reducible refine Keeps.ite ?_ ?_
    | with_reducible refine Keeps.foldl ?_ ?_ _
    | with_reducible refine Keeps.trans ?_ (startScrub_keeps ..)
    | with_reducible refine Keeps.trans ?_ (setScrubQueue_keeps ..)
    | with_reducible refine Keeps.trans ?_ (dispatchOp_keeps _ _ _ _ _ ?_)
    | with_reducible refine Keeps.trans ?_ (reject_keeps ..)
    | fail_if_no_progress with_reducible refine Keeps.lit ?_ rfl rfl rfl rfl
    | fail_if_no_progress with_reducible refine Keeps.litMod ?_ rfl rfl rfl rfl rfl rfl rfl rfl rfl
    | split
    | fail_if_no_progress dsimp -zeta only
    | refine Keeps.lit ?_ rfl rfl rfl rfl
    | refine Keeps.litMod ?_ rfl rfl rfl rfl rfl rfl rfl rfl rfl
    | refine Keeps.litTo ?_ rfl rfl rfl rfl ⟨nofun, nofun⟩ rfl (fun h => h) rfl rfl)

theorem execScrubDone_keeps (hbm : Bool) (s : State) : Goes 0x81008010049642 s (execScrubDone hbm s) := by
  unfold execScrubDone
  repeat' (first
    | with_reducible exact Keeps.refl _
    | with_reducible assumption
    | intro _
    | with_reducible refine Goes.next ?_
    | with_reducible refine Goes.ite ?_ ?_
    | fail_if_no_progress extract_lets +onlyGivenNames y
    | with_reducible refine Keeps.ite ?_ ?_
    | with_reducible refine Keeps.foldl ?_ ?_ _
    | with_reducible refine Keeps.trans ?_ (finishScrub_keeps ..)
    | fail_if_no_progress with_reducible refine Keeps.lit ?_ rfl rfl rfl rfl
    | fail_if_no_progress with_reducible refine Keeps.litMod ?_ rfl rfl rfl rfl rfl rfl rfl rfl rfl
    | split)

theorem execScrubWatchdog_keeps (hbm : Bool) (reached : DWord) (s : State) : Goes 0x81008010049642 s (execScrubWatchdog hbm reached s) := by
  unfold execScrubWatchdog
  repeat' (first
    | with_reducible exact Keeps.refl _
    | with_reducible assumption
    | intro _
    | with_reducible refine Goes.next ?_
    | (extract_lets +onlyGivenNames y
       refine Goes.via (y := y) ?_ ?_
       on_goal 2 => (intro _; clear_value y)
       on_goal 1 => (dsimp -zeta only [y]; clear y))
    | with_reducible refine Goes.ite ?_ ?_
    | (extract_lets +onlyGivenNames y
       refine Keeps.via (y := y) ?_ ?_
       on_goal 2 => (intro _; clear_value y)
       on_goal 1 => (dsimp -zeta only [y]; clear y))
    | fail_if_no_progress extract_lets +onlyGivenNames y
    | with_reducible refine Keeps.ite ?_ ?_
    | with_reducible refine Keeps.foldl ?_ ?_ _
    | with_reducible refine Keeps.trans ?_ (finishScrub_keeps ..)
    | fail_if_no_progress with_reducible refine Keeps.lit ?_ rfl rfl rfl rfl
    | fail_if_no_progress with_reducible refine Keeps.litMod ?_ rfl rfl rfl rfl rfl rfl rfl rfl rfl
    | split
    | fail_if_no_progress dsimp -zeta only
    | refine Keeps.lit ?_ rfl rfl rfl rfl
    | refine Keeps.litMod ?_ rfl rfl rfl rfl rfl rfl rfl rfl rfl
    | refine Keeps.litTo ?_ rfl rfl rfl rfl ⟨nofun, nofun⟩ rfl (fun h => h) rfl rfl)

end Sys2Proof.Machine
end

