-- ==== Sys2Proof/Laws/KeepsTrestle.lean ====
section
/-!
SUPPORT. What the operations of Machine/Trestle.lean keep.
-/
set_option Elab.async false

namespace Sys2Proof.Machine

theorem writeMxRow_keeps {F : Nat} (acc : Access) (c : Stored) (q i : Nat) (blocks : List BlockOut) (s : State) (hF : Within 0x80008000000602 F := by first | rfl | decide) : Keeps F s (writeMxRow acc c q i blocks s) := by
  refine Keeps.mono hF ?_
  unfold writeMxRow
  repeat' (first
    | with_reducible exact Keeps.refl _
    | with_reducible assumption
    | intro _
    | (extract_lets +onlyGivenNames y
       refine Keeps.via (y := y) ?_ ?_
       on_goal 2 => (intro _; clear_value y)
       on_goal 1 => (dsimp -zeta only [y]; clear y))
    | fail_if_no_progress extract_lets +onlyGivenNames y
    | with_reducible refine Keeps.ite ?_ ?_
    | with_reducible refine Keeps.foldl ?_ ?_ _
    | with_reducible refine Keeps.trans ?_ (writeMem_keeps ..))

theorem writeTile_keeps {F : Nat} (acc : Access) (b : List Byte) (tile : Nat) (rows : List (Nat × List BlockOut)) (s : State) (hF : Within 0x80008000000602 F := by first | rfl | decide) : Keeps F s (writeTile acc b tile rows s) := by
  refine Keeps.mono hF ?_
  unfold writeTile
  repeat' (first
    | with_reducible exact Keeps.refl _
    | with_reducible assumption
    | intro _
    | fail_if_no_progress extract_lets +onlyGivenNames y
    | with_reducible refine Keeps.ite ?_ ?_
    | with_reducible refine Keeps.foldl ?_ ?_ _
    | with_reducible refine Keeps.trans ?_ (writeMxRow_keeps ..)
    | with_reducible refine Keeps.trans ?_ (writeMem_keeps ..))

theorem noteTileReads_keeps {F : Nat} (acc : Access) (j : TrsJob) (s : State) (hF : Within 0x80008000000442 F := by first | rfl | decide) : Keeps F s (noteTileReads acc j s) := by
  refine Keeps.mono hF ?_
  unfold noteTileReads
  repeat' (first
    | with_reducible exact Keeps.refl _
    | with_reducible assumption
    | intro _
    | (extract_lets +onlyGivenNames y
       refine Keeps.via (y := y) ?_ ?_
       on_goal 2 => (intro _; clear_value y)
       on_goal 1 => (dsimp -zeta only [y]; clear y))
    | fail_if_no_progress extract_lets +onlyGivenNames y
    | with_reducible refine Keeps.ite ?_ ?_
    | with_reducible refine Keeps.foldl ?_ ?_ _
    | with_reducible refine Keeps.trans ?_ (noteErrors_keeps ..)
    | fail_if_no_progress with_reducible refine Keeps.lit ?_ rfl rfl rfl rfl
    | fail_if_no_progress with_reducible refine Keeps.litMod ?_ rfl rfl rfl rfl rfl rfl rfl rfl rfl
    | split
    | fail_if_no_progress dsimp -zeta only
    | refine Keeps.lit ?_ rfl rfl rfl rfl
    | refine Keeps.litMod ?_ rfl rfl rfl rfl rfl rfl rfl rfl rfl
    | refine Keeps.litTo ?_ rfl rfl rfl rfl ⟨nofun, nofun⟩ rfl (fun h => h) rfl rfl)

theorem modTrs_keeps {F : Nat} (u : Nat) (f : TrsEngine → TrsEngine) (s : State) (hF : Within 0x2000 F := by first | rfl | decide) : Keeps F s (modTrs u f s) := by
  refine Keeps.mono hF ?_
  unfold modTrs
  repeat' (first
    | with_reducible exact Keeps.refl _
    | with_reducible assumption
    | intro _
    | fail_if_no_progress extract_lets +onlyGivenNames y
    | with_reducible refine Keeps.ite ?_ ?_
    | with_reducible refine Keeps.foldl ?_ ?_ _
    | fail_if_no_progress with_reducible refine Keeps.lit ?_ rfl rfl rfl rfl)

theorem trsLog_keeps {F : Nat} (j : TrsJob) (status action : Nat) (s : State) (hF : Within 0x2 F := by first | rfl | decide) : Keeps F s (trsLog j status action s) := by
  refine Keeps.mono hF ?_
  unfold trsLog
  repeat' (first
    | with_reducible exact Keeps.refl _
    | with_reducible assumption
    | intro _
    | fail_if_no_progress extract_lets +onlyGivenNames y
    | with_reducible refine Keeps.ite ?_ ?_
    | with_reducible refine Keeps.foldl ?_ ?_ _
    | with_reducible refine Keeps.trans ?_ (logEntry_keeps ..))

theorem trsFinish_keeps {F : Nat} (j : TrsJob) (status : Nat) (s : State) (hF : Within 0x1000110048042 F := by first | rfl | decide) : Keeps F s (trsFinish j status s) := by
  refine Keeps.mono hF ?_
  unfold trsFinish
  repeat' (first
    | with_reducible exact Keeps.refl _
    | with_reducible assumption
    | intro _
    | (extract_lets +onlyGivenNames y
       refine Keeps.via (y := y) ?_ ?_
       on_goal 2 => (intro _; clear_value y)
       on_goal 1 => (dsimp -zeta only [y]; clear y))
    | fail_if_no_progress extract_lets +onlyGivenNames y
    | with_reducible refine Keeps.ite ?_ ?_
    | with_reducible refine Keeps.foldl ?_ ?_ _
    | with_reducible refine Keeps.trans ?_ (trsLog_keeps ..)
    | with_reducible refine Keeps.trans ?_ (emitHist_keeps ..)
    | with_reducible refine Keeps.trans ?_ (complete_keeps ..)
    | fail_if_no_progress with_reducible refine Keeps.lit ?_ rfl rfl rfl rfl
    | fail_if_no_progress with_reducible refine Keeps.litMod ?_ rfl rfl rfl rfl rfl rfl rfl rfl rfl
    | split
    | fail_if_no_progress dsimp -zeta only
    | refine Keeps.lit ?_ rfl rfl rfl rfl
    | refine Keeps.litMod ?_ rfl rfl rfl rfl rfl rfl rfl rfl rfl
    | refine Keeps.litTo ?_ rfl rfl rfl rfl ⟨nofun, nofun⟩ rfl (fun h => h) rfl rfl)

theorem settleTrs_keeps {F : Nat} (n u : Nat) (s : State) (hF : Within 0x100011004a042 F := by first | rfl | decide) : Keeps F s (settleTrs n u s) := by
  refine Keeps.mono hF ?_
  induction n generalizing s with
  | zero => exact Keeps.refl _
  | succ n ih =>
    cases hq : (trsEngine s u).queue with
    | nil =>
      rw [settleTrs.eq_def, hq]
      exact Keeps.refl _
    | cons j js =>
      rw [settleTrs.eq_def, hq]
      dsimp only
      refine Keeps.ite ?_ (beginTrs_keeps ..)
      refine Keeps.trans ?_ (ih _)
      exact Keeps.trans (modTrs_keeps ..) (trsFinish_keeps ..)

theorem popTrs_keeps {F : Nat} (u : Nat) (j : TrsJob) (js : List TrsJob) (status : Nat) (s : State) (hF : Within 0x100011004a042 F := by first | rfl | decide) : Keeps F s (popTrs u j js status s) := by
  refine Keeps.mono hF ?_
  unfold popTrs
  repeat' (first
    | with_reducible exact Keeps.refl _
    | with_reducible assumption
    | intro _
    | (extract_lets +onlyGivenNames y
       refine Keeps.via (y := y) ?_ ?_
       on_goal 2 => (intro _; clear_value y)
       on_goal 1 => (dsimp -zeta only [y]; clear y))
    | fail_if_no_progress extract_lets +onlyGivenNames y
    | with_reducible refine Keeps.ite ?_ ?_
    | with_reducible refine Keeps.foldl ?_ ?_ _
    | with_reducible refine Keeps.trans ?_ (settleTrs_keeps ..)
    | with_reducible refine Keeps.trans ?_ (trsFinish_keeps ..)
    | with_reducible refine Keeps.trans ?_ (modTrs_keeps ..)
    | with_reducible refine Keeps.trans ?_ (noteStopped_keeps ..)
    | fail_if_no_progress with_reducible refine Keeps.lit ?_ rfl rfl rfl rfl
    | fail_if_no_progress with_reducible refine Keeps.litMod ?_ rfl rfl rfl rfl rfl rfl rfl rfl rfl
    | split
    | fail_if_no_progress dsimp -zeta only
    | refine Keeps.lit ?_ rfl rfl rfl rfl
    | refine Keeps.litMod ?_ rfl rfl rfl rfl rfl rfl rfl rfl rfl
    | refine Keeps.litTo ?_ rfl rfl rfl rfl ⟨nofun, nofun⟩ rfl (fun h => h) rfl rfl)

theorem execTrsMatmul_keeps (ctx : Fin 16) (ring : Fin 8) (s : State) : Goes 0x8100811004a442 s (execTrsMatmul ctx ring s) := by
  unfold execTrsMatmul
  repeat' (first
    | with_reducible exact Keeps.refl _
    | with_reducible assumption
    | intro _
    | with_reducible refine Goes.next ?_
    | (extract_lets +onlyGivenNames y
       refine Goes.via (y := y) ?_ ?_
       on_goal 2 => (intro _; clear_value y)
       on_goal 1 => (dsimp -zeta only [y]; clear y))
    | with_reducible refine Goes.ite ?_ ?_
    | (extract_lets +onlyGivenNames y
       refine Keeps.via (y := y) ?_ ?_
       on_goal 2 => (intro _; clear_value y)
       on_goal 1 => (dsimp -zeta only [y]; clear y))
    | fail_if_no_progress extract_lets +onlyGivenNames y
    | with_reducible refine Keeps.ite ?_ ?_
    | with_reducible refine Keeps.foldl ?_ ?_ _
    | with_reducible refine Keeps.trans ?_ (settleTrs_keeps ..)
    | with_reducible refine Keeps.trans ?_ (modTrs_keeps ..)
    | with_reducible refine Keeps.trans ?_ (dispatchOp_keeps _ _ _ _ _ ?_)
    | with_reducible refine Keeps.trans ?_ (reject_keeps ..)
    | with_reducible refine Keeps.trans ?_ (noteRead_keeps ..)
    | fail_if_no_progress with_reducible refine Keeps.lit ?_ rfl rfl rfl rfl
    | fail_if_no_progress with_reducible refine Keeps.litMod ?_ rfl rfl rfl rfl rfl rfl rfl rfl rfl
    | split
    | fail_if_no_progress dsimp -zeta only
    | refine Keeps.lit ?_ rfl rfl rfl rfl
    | refine Keeps.litMod ?_ rfl rfl rfl rfl rfl rfl rfl rfl rfl
    | refine Keeps.litTo ?_ rfl rfl rfl rfl ⟨nofun, nofun⟩ rfl (fun h => h) rfl rfl)

theorem trsCount_keeps {F : Nat} (old : TrsJob) (elems : List ElemOut) (ov exh : Bool) (s : State) (hF : Within 0x8000800000000 F := by first | rfl | decide) : Keeps F s (trsCount old elems ov exh s) := by
  refine Keeps.mono hF ?_
  unfold trsCount
  repeat' (first
    | with_reducible exact Keeps.refl _
    | with_reducible assumption
    | intro _
    | (extract_lets +onlyGivenNames y
       refine Keeps.via (y := y) ?_ ?_
       on_goal 2 => (intro _; clear_value y)
       on_goal 1 => (dsimp -zeta only [y]; clear y))
    | fail_if_no_progress extract_lets +onlyGivenNames y
    | with_reducible refine Keeps.ite ?_ ?_
    | with_reducible refine Keeps.foldl ?_ ?_ _
    | with_reducible refine Keeps.trans ?_ (bump_keeps ..)
    | with_reducible refine Keeps.trans ?_ (setFlag_keeps ..))

theorem execTrsTileDone_keeps (u : Fin 16) (s : State) : Goes 0x8900891004a642 s (execTrsTileDone u s) := by
  unfold execTrsTileDone
  split
  · exact Goes.next (Keeps.refl s)
  · refine Goes.ite (Goes.next (popTrs_keeps ..)) ?_
    extract_lets +onlyGivenNames acc rows elems ov s1
    have h1 : Keeps 0x8900891004a642 s s1 := noteTileReads_keeps ..
    clear_value s1
    refine Goes.ite (Goes.next (h1.trans (modTrs_keeps ..))) ?_
    extract_lets +onlyGivenNames exh s2 s3 s4 j'
    have h2 : Keeps 0x8900891004a642 s s2 := h1.trans (writeTile_keeps ..)
    clear_value s2
    have h3 : Keeps 0x8900891004a642 s s3 := Keeps.ite (h2.trans (writeMem_keeps ..)) h2
    clear_value s3
    have h4 : Keeps 0x8900891004a642 s s4 := h3.trans (trsCount_keeps ..)
    clear_value s4
    exact Goes.ite (Goes.next (h4.trans (modTrs_keeps ..))) (Goes.next (h4.trans (popTrs_keeps ..)))

theorem execTrsWatchdog_keeps (u : Fin 16) (s : State) : Goes 0x40904091004a046 s (execTrsWatchdog u s) := by
  unfold execTrsWatchdog
  cases hq : (trsEngine s u).queue with
  | nil => exact Goes.next (Keeps.refl s)
  | cons j js =>
    dsimp -zeta only
    refine Goes.ite (Goes.next (Keeps.refl s)) ?_
    extract_lets +onlyGivenNames s1 now off s2 s3 s4
    have h1 : Keeps 0x40904091004a046 s s1 := yieldToReset_keeps ..
    clear_value s1
    have h2 : Keeps 0x40904091004a046 s s2 := h1.trans (modTrs_keeps ..)
    clear_value s2
    have h3 : Keeps 0x40904091004a046 s s3 := (((h2.trans (setFlag_keeps ..)).trans (bump_keeps ..)).trans (noteEngineReset_keeps ..)).trans (trsLog_keeps ..)
    clear_value s3
    have h4 : Keeps 0x40904091004a046 s s4 := Keeps.ite (h3.trans (takeOutOfService_keeps ..)) h3
    clear_value s4
    exact Goes.next (((h4.trans (trsFinish_keeps ..)).trans (settleTrs_keeps ..)).trans (noteStopped_keeps ..))

end Sys2Proof.Machine
end

