-- ==== Sys2Proof/Laws/KeepsDresserRun.lean ====
section
/-!
SUPPORT. What the operations of Machine/DresserRun.lean keep.
-/
set_option Elab.async false

namespace Sys2Proof.Machine

theorem modDrs_keeps {F : Nat} (u : Nat) (f : DrsUnit → DrsUnit) (s : State) (hF : Within 0x4000 F := by first | rfl | decide) : Keeps F s (modDrs u f s) := by
  refine Keeps.mono hF ?_
  unfold modDrs
  repeat' (first
    | with_reducible exact Keeps.refl _
    | with_reducible assumption
    | intro _
    | fail_if_no_progress extract_lets +onlyGivenNames y
    | with_reducible refine Keeps.ite ?_ ?_
    | with_reducible refine Keeps.foldl ?_ ?_ _
    | fail_if_no_progress with_reducible refine Keeps.lit ?_ rfl rfl rfl rfl)

theorem drsLog_keeps {F : Nat} (j : DrsJob) (unit status action : Nat) (s : State) (hF : Within 0x2 F := by first | rfl | decide) : Keeps F s (drsLog j unit status action s) := by
  refine Keeps.mono hF ?_
  unfold drsLog
  repeat' (first
    | with_reducible exact Keeps.refl _
    | with_reducible assumption
    | intro _
    | fail_if_no_progress extract_lets +onlyGivenNames y
    | with_reducible refine Keeps.ite ?_ ?_
    | with_reducible refine Keeps.foldl ?_ ?_ _
    | with_reducible refine Keeps.trans ?_ (logEntry_keeps ..))

theorem startLaunch_keeps {F : Nat} (u : Nat) (s : State) (hF : Within 0x80008000004442 F := by first | rfl | decide) : Keeps F s (startLaunch u s) := by
  refine Keeps.mono hF ?_
  unfold startLaunch
  repeat' (first
    | with_reducible exact Keeps.refl _
    | with_reducible assumption
    | intro _
    | (extract_lets +onlyGivenNames y
       refine Keeps.via (y := y) ?_ ?_
       on_goal 2 => (intro _; clear_value y)
       on_goal 1 => (dsimp -zeta only [y]; clear y))
    | fail_if_no_progress extract_lets +onlyGivenNames y
    | with_reducible refine Keeps.ite ?_ ?_
    | with_reducible refine Keeps.foldl ?_ ?_ _
    | with_reducible refine Keeps.trans ?_ (modDrs_keeps ..)
    | with_reducible refine Keeps.trans ?_ (noteRead_keeps ..)
    | fail_if_no_progress with_reducible refine Keeps.lit ?_ rfl rfl rfl rfl
    | fail_if_no_progress with_reducible refine Keeps.litMod ?_ rfl rfl rfl rfl rfl rfl rfl rfl rfl
    | split)

theorem beginLaunch_keeps {F : Nat} (u : Nat) (s : State) (hF : Within 0x80008000004442 F := by first | rfl | decide) : Keeps F s (beginLaunch u s) := by
  refine Keeps.mono hF ?_
  unfold beginLaunch
  repeat' (first
    | with_reducible exact Keeps.refl _
    | with_reducible assumption
    | intro _
    | fail_if_no_progress extract_lets +onlyGivenNames y
    | with_reducible refine Keeps.ite ?_ ?_
    | with_reducible refine Keeps.foldl ?_ ?_ _
    | with_reducible refine Keeps.trans ?_ (startLaunch_keeps ..)
    | with_reducible refine Keeps.trans ?_ (modDrs_keeps ..)
    | fail_if_no_progress with_reducible refine Keeps.lit ?_ rfl rfl rfl rfl
    | fail_if_no_progress with_reducible refine Keeps.litMod ?_ rfl rfl rfl rfl rfl rfl rfl rfl rfl
    | split)

theorem nextLaunch_keeps {F : Nat} (u : Nat) (s : State) (hF : Within 0x80008000004442 F := by first | rfl | decide) : Keeps F s (nextLaunch u s) := by
  refine Keeps.mono hF ?_
  unfold nextLaunch
  repeat' (first
    | with_reducible exact Keeps.refl _
    | with_reducible assumption
    | intro _
    | (extract_lets +onlyGivenNames y
       refine Keeps.via (y := y) ?_ ?_
       on_goal 2 => (intro _; clear_value y)
       on_goal 1 => (dsimp -zeta only [y]; clear y))
    | fail_if_no_progress extract_lets +onlyGivenNames y
    | with_reducible refine Keeps.ite ?_ ?_
    | with_reducible refine Keeps.foldl ?_ ?_ _
    | with_reducible refine Keeps.trans ?_ (beginLaunch_keeps ..)
    | with_reducible refine Keeps.trans ?_ (modDrs_keeps ..)
    | fail_if_no_progress with_reducible refine Keeps.lit ?_ rfl rfl rfl rfl
    | fail_if_no_progress with_reducible refine Keeps.litMod ?_ rfl rfl rfl rfl rfl rfl rfl rfl rfl
    | split
    | fail_if_no_progress dsimp -zeta only
    | refine Keeps.lit ?_ rfl rfl rfl rfl
    | refine Keeps.litMod ?_ rfl rfl rfl rfl rfl rfl rfl rfl rfl
    | refine Keeps.litTo ?_ rfl rfl rfl rfl ⟨nofun, nofun⟩ rfl (fun h => h) rfl rfl)

theorem endLaunch_keeps {F : Nat} (u : Nat) (watchdog fault : Bool) (reason faultAddr : Nat) (s : State) (hF : Within 0x9100811004c442 F := by first | rfl | decide) : Keeps F s (endLaunch u watchdog fault reason faultAddr s) := by
  refine Keeps.mono hF ?_
  unfold endLaunch
  repeat' (first
    | with_reducible exact Keeps.refl _
    | with_reducible assumption
    | intro _
    | (extract_lets +onlyGivenNames y
       refine Keeps.via (y := y) ?_ ?_
       on_goal 2 => (intro _; clear_value y)
       on_goal 1 => (dsimp -zeta only [y]; clear y))
    | fail_if_no_progress extract_lets +onlyGivenNames y
    | with_reducible refine Keeps.ite ?_ ?_
    | with_reducible refine Keeps.foldl ?_ ?_ _
    | with_reducible refine Keeps.trans ?_ (nextLaunch_keeps ..)
    | with_reducible refine Keeps.trans ?_ (drsLog_keeps ..)
    | with_reducible refine Keeps.trans ?_ (emitHist_keeps ..)
    | with_reducible refine Keeps.trans ?_ (complete_keeps ..)
    | with_reducible refine Keeps.trans ?_ (bump_keeps ..)
    | fail_if_no_progress with_reducible refine Keeps.lit ?_ rfl rfl rfl rfl
    | fail_if_no_progress with_reducible refine Keeps.litMod ?_ rfl rfl rfl rfl rfl rfl rfl rfl rfl
    | split
    | fail_if_no_progress dsimp -zeta only
    | refine Keeps.lit ?_ rfl rfl rfl rfl
    | refine Keeps.litMod ?_ rfl rfl rfl rfl rfl rfl rfl rfl rfl
    | refine Keeps.litTo ?_ rfl rfl rfl rfl ⟨nofun, nofun⟩ rfl (fun h => h) rfl rfl)

theorem execDrsLaunch_keeps (ctx : Fin 16) (ring : Fin 8) (s : State) : Goes 0x8100801004c442 s (execDrsLaunch ctx ring s) := by
  unfold execDrsLaunch
  repeat' (first
    | with_reducible exact Keeps.refl _
    | with_reducible assumption
    | intro _
    | with_reducible refine Goes.next ?_
    | with_reducible refine Goes.ite ?_ ?_
    | (extract_lets +onlyGivenNames y
       refine Keeps.via (y := y) ?_ ?_
       on_goal 2 => (intro _; clear_value y)
       on_goal 1 => (dsimp -zeta only [y]; clear y))
    | fail_if_no_progress extract_lets +onlyGivenNames y
    | with_reducible refine Keeps.ite ?_ ?_
    | with_reducible refine Keeps.foldl ?_ ?_ _
    | with_reducible refine Keeps.trans ?_ (beginLaunch_keeps ..)
    | with_reducible refine Keeps.trans ?_ (modDrs_keeps ..)
    | with_reducible refine Keeps.trans ?_ (dispatchOp_keeps _ _ _ _ _ ?_)
    | with_reducible refine Keeps.trans ?_ (reject_keeps ..))

theorem execDrsProgramFetched_keeps (u : Fin 64) (s : State) : Goes 0x8100801004c442 s (execDrsProgramFetched u s) := by
  unfold execDrsProgramFetched
  repeat' (first
    | with_reducible exact Keeps.refl _
    | with_reducible assumption
    | intro _
    | with_reducible refine Goes.next ?_
    | (extract_lets +onlyGivenNames y
       refine Goes.via (y := y) ?_ ?_
       on_goal 2 => (intro _; clear_value y)
       on_goal 1 => (dsimp -zeta only [y]; clear y))
    | with_reducible refine Goes.ite ?_ ?_
    | (extract_lets +onlyGivenNames y
       refine Keeps.via (y := y) ?_ ?_
       on_goal 2 => (intro _; clear_value y)
       on_goal 1 => (dsimp -zeta only [y]; clear y))
    | fail_if_no_progress extract_lets +onlyGivenNames y
    | with_reducible refine Keeps.ite ?_ ?_
    | with_reducible refine Keeps.foldl ?_ ?_ _
    | with_reducible refine Keeps.trans ?_ (nextLaunch_keeps ..)
    | with_reducible refine Keeps.trans ?_ (startLaunch_keeps ..)
    | with_reducible refine Keeps.trans ?_ (modDrs_keeps ..)
    | with_reducible refine Keeps.trans ?_ (reject_keeps ..)
    | with_reducible refine Keeps.trans ?_ (noteRead_keeps ..)
    | fail_if_no_progress with_reducible refine Keeps.lit ?_ rfl rfl rfl rfl
    | fail_if_no_progress with_reducible refine Keeps.litMod ?_ rfl rfl rfl rfl rfl rfl rfl rfl rfl
    | split)

theorem execDrsTimeWatchdog_keeps (u : Fin 64) (s : State) : Goes 0x49104911004c446 s (execDrsTimeWatchdog u s) := by
  unfold execDrsTimeWatchdog
  extract_lets n
  cases n.queue with
  | nil => exact Goes.next (Keeps.refl s)
  | cons j js =>
    exact Goes.ite (Goes.next (Keeps.refl s))
      (Goes.next (((yieldToReset_keeps s).trans (drsReset_keeps ..)).trans (endLaunch_keeps ..)))

theorem execDrsInstrLimit_keeps (u : Fin 64) (s : State) : Goes 0x9100911004c442 s (execDrsInstrLimit u s) := by
  unfold execDrsInstrLimit
  repeat' (first
    | with_reducible exact Keeps.refl _
    | with_reducible assumption
    | intro _
    | with_reducible refine Goes.next ?_
    | (extract_lets +onlyGivenNames y
       refine Goes.via (y := y) ?_ ?_
       on_goal 2 => (intro _; clear_value y)
       on_goal 1 => (dsimp -zeta only [y]; clear y))
    | with_reducible refine Goes.ite ?_ ?_
    | (extract_lets +onlyGivenNames y
       refine Keeps.via (y := y) ?_ ?_
       on_goal 2 => (intro _; clear_value y)
       on_goal 1 => (dsimp -zeta only [y]; clear y))
    | fail_if_no_progress extract_lets +onlyGivenNames y
    | with_reducible refine Keeps.ite ?_ ?_
    | with_reducible refine Keeps.foldl ?_ ?_ _
    | with_reducible refine Keeps.trans ?_ (endLaunch_keeps ..)
    | with_reducible refine Keeps.trans ?_ (drsLog_keeps ..)
    | with_reducible refine Keeps.trans ?_ (bump_keeps ..)
    | with_reducible refine Keeps.trans ?_ (setFlag_keeps ..)
    | fail_if_no_progress with_reducible refine Keeps.lit ?_ rfl rfl rfl rfl
    | fail_if_no_progress with_reducible refine Keeps.litMod ?_ rfl rfl rfl rfl rfl rfl rfl rfl rfl
    | split
    | fail_if_no_progress dsimp -zeta only
    | refine Keeps.lit ?_ rfl rfl rfl rfl
    | refine Keeps.litMod ?_ rfl rfl rfl rfl rfl rfl rfl rfl rfl
    | refine Keeps.litTo ?_ rfl rfl rfl rfl ⟨nofun, nofun⟩ rfl (fun h => h) rfl rfl)

theorem digestMaster_keeps {F : Nat} (ctx addr v : Nat) (s : State) (hF : Within 0x8000 F := by first | rfl | decide) : Keeps F s (digestMaster ctx addr v s) := by
  refine Keeps.mono hF ?_
  unfold digestMaster
  repeat' (first
    | with_reducible exact Keeps.refl _
    | with_reducible assumption
    | intro _
    | fail_if_no_progress extract_lets +onlyGivenNames y
    | with_reducible refine Keeps.ite ?_ ?_
    | with_reducible refine Keeps.foldl ?_ ?_ _
    | with_reducible refine Keeps.trans ?_ (modOpen_keeps ..))

theorem accessFault_keeps {F : Nat} (u : Nat) (j : DrsJob) (addr : Nat) (s : State) (hF : Within 0x9100911004c442 F := by first | rfl | decide) : Keeps F s (accessFault u j addr s) := by
  refine Keeps.mono hF ?_
  unfold accessFault
  repeat' (first
    | with_reducible exact Keeps.refl _
    | with_reducible assumption
    | intro _
    | (extract_lets +onlyGivenNames y
       refine Keeps.via (y := y) ?_ ?_
       on_goal 2 => (intro _; clear_value y)
       on_goal 1 => (dsimp -zeta only [y]; clear y))
    | fail_if_no_progress extract_lets +onlyGivenNames y
    | with_reducible refine Keeps.ite ?_ ?_
    | with_reducible refine Keeps.foldl ?_ ?_ _
    | with_reducible refine Keeps.trans ?_ (endLaunch_keeps ..)
    | with_reducible refine Keeps.trans ?_ (drsLog_keeps ..)
    | with_reducible refine Keeps.trans ?_ (modDrs_keeps ..)
    | with_reducible refine Keeps.trans ?_ (bump_keeps ..)
    | with_reducible refine Keeps.trans ?_ (setFlag_keeps ..))

theorem applyInsn_keeps {F : Nat} (u : Nat) (j : DrsJob) (o : InsnOut) (s : State) (hF : Within 0x90009000008642 F := by first | rfl | decide) : Keeps F s (applyInsn u j o s) := by
  refine Keeps.mono hF ?_
  unfold applyInsn
  repeat' (first
    | with_reducible exact Keeps.refl _
    | with_reducible assumption
    | intro _
    | (extract_lets +onlyGivenNames y
       refine Keeps.via (y := y) ?_ ?_
       on_goal 2 => (intro _; clear_value y)
       on_goal 1 => (dsimp -zeta only [y]; clear y))
    | fail_if_no_progress extract_lets +onlyGivenNames y
    | with_reducible refine Keeps.ite ?_ ?_
    | with_reducible refine Keeps.foldl ?_ ?_ _
    | with_reducible refine Keeps.trans ?_ (digestMaster_keeps ..)
    | with_reducible refine Keeps.trans ?_ (writeMem_keeps ..)
    | with_reducible refine Keeps.trans ?_ (noteRead_keeps ..)
    | with_reducible refine Keeps.trans ?_ (bump_keeps ..)
    | with_reducible refine Keeps.trans ?_ (setFlag_keeps ..))

theorem drsStep_keeps {F : Nat} (op u : Nat) (body : InsnCtx → DrsRun → InsnOut) (s : State) (hF : Within 0x9100911004c642 F := by first | rfl | decide) : Keeps F s (drsStep op u body s) := by
  refine Keeps.mono hF ?_
  unfold drsStep
  split
  · exact Keeps.refl s
  · refine Keeps.ite (Keeps.refl s) ?_
    extract_lets r o src run s1 s2 s3
    clear_value o
    split
    · exact accessFault_keeps ..
    · have h1 : Keeps 0x9100911004c642 s s1 := applyInsn_keeps ..
      have h2 : Keeps 0x9100911004c642 s s2 := Keeps.ite (h1.trans (setFlag_keeps ..)) h1
      have h3 : Keeps 0x9100911004c642 s s3 := h2.trans (modDrs_keeps ..)
      exact Keeps.ite (h3.trans (endLaunch_keeps ..)) h3

theorem execDrsLoadReturn_keeps (u : Fin 64) (s : State) : Goes 0x4000 s (execDrsLoadReturn u s) := by
  unfold execDrsLoadReturn
  repeat' (first
    | with_reducible exact Keeps.refl _
    | with_reducible assumption
    | intro _
    | with_reducible refine Goes.next ?_
    | with_reducible refine Goes.ite ?_ ?_
    | fail_if_no_progress extract_lets +onlyGivenNames y
    | with_reducible refine Keeps.ite ?_ ?_
    | with_reducible refine Keeps.foldl ?_ ?_ _
    | with_reducible refine Keeps.trans ?_ (modDrs_keeps ..))

end Sys2Proof.Machine
end

