-- ==== Sys2Proof/Laws/KeepsDresserScalar.lean ====
section
/-!
SUPPORT. What the operations of Machine/DresserScalar.lean keep.
-/
set_option Elab.async false

namespace Sys2Proof.Machine

theorem execDrsNop_keeps (u : Fin 64) (s : State) : Goes 0x9100911004c642 s (execDrsNop u s) := by
  unfold execDrsNop
  repeat' (first
    | with_reducible exact Keeps.refl _
    | with_reducible assumption
    | intro _
    | with_reducible refine Goes.next ?_
    | with_reducible refine Goes.ite ?_ ?_
    | fail_if_no_progress extract_lets +onlyGivenNames y
    | with_reducible refine Keeps.ite ?_ ?_
    | with_reducible refine Keeps.foldl ?_ ?_ _
    | with_reducible refine Keeps.trans ?_ (drsStep_keeps ..))

theorem execDrsEnd_keeps (u : Fin 64) (s : State) : Goes 0x9100911004c642 s (execDrsEnd u s) := by
  unfold execDrsEnd
  repeat' (first
    | with_reducible exact Keeps.refl _
    | with_reducible assumption
    | intro _
    | with_reducible refine Goes.next ?_
    | with_reducible refine Goes.ite ?_ ?_
    | fail_if_no_progress extract_lets +onlyGivenNames y
    | with_reducible refine Keeps.ite ?_ ?_
    | with_reducible refine Keeps.foldl ?_ ?_ _
    | with_reducible refine Keeps.trans ?_ (drsStep_keeps ..))

theorem execDrsSetvl_keeps (u : Fin 64) (s : State) : Goes 0x9100911004c642 s (execDrsSetvl u s) := by
  unfold execDrsSetvl
  repeat' (first
    | with_reducible exact Keeps.refl _
    | with_reducible assumption
    | intro _
    | with_reducible refine Goes.next ?_
    | with_reducible refine Goes.ite ?_ ?_
    | fail_if_no_progress extract_lets +onlyGivenNames y
    | with_reducible refine Keeps.ite ?_ ?_
    | with_reducible refine Keeps.foldl ?_ ?_ _
    | with_reducible refine Keeps.trans ?_ (drsStep_keeps ..))

theorem execDrsKey_keeps (u : Fin 64) (s : State) : Goes 0x9100911004c642 s (execDrsKey u s) := by
  unfold execDrsKey
  repeat' (first
    | with_reducible exact Keeps.refl _
    | with_reducible assumption
    | intro _
    | with_reducible refine Goes.next ?_
    | with_reducible refine Goes.ite ?_ ?_
    | fail_if_no_progress extract_lets +onlyGivenNames y
    | with_reducible refine Keeps.ite ?_ ?_
    | with_reducible refine Keeps.foldl ?_ ?_ _
    | with_reducible refine Keeps.trans ?_ (drsStep_keeps ..))

theorem execDrsBr_keeps (u : Fin 64) (s : State) : Goes 0x9100911004c642 s (execDrsBr u s) := by
  unfold execDrsBr
  repeat' (first
    | with_reducible exact Keeps.refl _
    | with_reducible assumption
    | intro _
    | with_reducible refine Goes.next ?_
    | with_reducible refine Goes.ite ?_ ?_
    | fail_if_no_progress extract_lets +onlyGivenNames y
    | with_reducible refine Keeps.ite ?_ ?_
    | with_reducible refine Keeps.foldl ?_ ?_ _
    | with_reducible refine Keeps.trans ?_ (drsStep_keeps ..))

theorem execDrsBeq_keeps (u : Fin 64) (s : State) : Goes 0x9100911004c642 s (execDrsBeq u s) := by
  unfold execDrsBeq
  repeat' (first
    | with_reducible exact Keeps.refl _
    | with_reducible assumption
    | intro _
    | with_reducible refine Goes.next ?_
    | with_reducible refine Goes.ite ?_ ?_
    | fail_if_no_progress extract_lets +onlyGivenNames y
    | with_reducible refine Keeps.ite ?_ ?_
    | with_reducible refine Keeps.foldl ?_ ?_ _
    | with_reducible refine Keeps.trans ?_ (drsStep_keeps ..))

theorem execDrsBne_keeps (u : Fin 64) (s : State) : Goes 0x9100911004c642 s (execDrsBne u s) := by
  unfold execDrsBne
  repeat' (first
    | with_reducible exact Keeps.refl _
    | with_reducible assumption
    | intro _
    | with_reducible refine Goes.next ?_
    | with_reducible refine Goes.ite ?_ ?_
    | fail_if_no_progress extract_lets +onlyGivenNames y
    | with_reducible refine Keeps.ite ?_ ?_
    | with_reducible refine Keeps.foldl ?_ ?_ _
    | with_reducible refine Keeps.trans ?_ (drsStep_keeps ..))

theorem execDrsBlt_keeps (u : Fin 64) (s : State) : Goes 0x9100911004c642 s (execDrsBlt u s) := by
  unfold execDrsBlt
  repeat' (first
    | with_reducible exact Keeps.refl _
    | with_reducible assumption
    | intro _
    | with_reducible refine Goes.next ?_
    | with_reducible refine Goes.ite ?_ ?_
    | fail_if_no_progress extract_lets +onlyGivenNames y
    | with_reducible refine Keeps.ite ?_ ?_
    | with_reducible refine Keeps.foldl ?_ ?_ _
    | with_reducible refine Keeps.trans ?_ (drsStep_keeps ..))

theorem execDrsBge_keeps (u : Fin 64) (s : State) : Goes 0x9100911004c642 s (execDrsBge u s) := by
  unfold execDrsBge
  repeat' (first
    | with_reducible exact Keeps.refl _
    | with_reducible assumption
    | intro _
    | with_reducible refine Goes.next ?_
    | with_reducible refine Goes.ite ?_ ?_
    | fail_if_no_progress extract_lets +onlyGivenNames y
    | with_reducible refine Keeps.ite ?_ ?_
    | with_reducible refine Keeps.foldl ?_ ?_ _
    | with_reducible refine Keeps.trans ?_ (drsStep_keeps ..))

theorem execDrsSli_keeps (u : Fin 64) (s : State) : Goes 0x9100911004c642 s (execDrsSli u s) := by
  unfold execDrsSli
  repeat' (first
    | with_reducible exact Keeps.refl _
    | with_reducible assumption
    | intro _
    | with_reducible refine Goes.next ?_
    | with_reducible refine Goes.ite ?_ ?_
    | fail_if_no_progress extract_lets +onlyGivenNames y
    | with_reducible refine Keeps.ite ?_ ?_
    | with_reducible refine Keeps.foldl ?_ ?_ _
    | with_reducible refine Keeps.trans ?_ (drsStep_keeps ..))

theorem execDrsSaddi_keeps (u : Fin 64) (s : State) : Goes 0x9100911004c642 s (execDrsSaddi u s) := by
  unfold execDrsSaddi
  repeat' (first
    | with_reducible exact Keeps.refl _
    | with_reducible assumption
    | intro _
    | with_reducible refine Goes.next ?_
    | with_reducible refine Goes.ite ?_ ?_
    | fail_if_no_progress extract_lets +onlyGivenNames y
    | with_reducible refine Keeps.ite ?_ ?_
    | with_reducible refine Keeps.foldl ?_ ?_ _
    | with_reducible refine Keeps.trans ?_ (drsStep_keeps ..))

theorem execDrsSadd_keeps (u : Fin 64) (s : State) : Goes 0x9100911004c642 s (execDrsSadd u s) := by
  unfold execDrsSadd
  repeat' (first
    | with_reducible exact Keeps.refl _
    | with_reducible assumption
    | intro _
    | with_reducible refine Goes.next ?_
    | with_reducible refine Goes.ite ?_ ?_
    | fail_if_no_progress extract_lets +onlyGivenNames y
    | with_reducible refine Keeps.ite ?_ ?_
    | with_reducible refine Keeps.foldl ?_ ?_ _
    | with_reducible refine Keeps.trans ?_ (drsStep_keeps ..))

theorem execDrsSsub_keeps (u : Fin 64) (s : State) : Goes 0x9100911004c642 s (execDrsSsub u s) := by
  unfold execDrsSsub
  repeat' (first
    | with_reducible exact Keeps.refl _
    | with_reducible assumption
    | intro _
    | with_reducible refine Goes.next ?_
    | with_reducible refine Goes.ite ?_ ?_
    | fail_if_no_progress extract_lets +onlyGivenNames y
    | with_reducible refine Keeps.ite ?_ ?_
    | with_reducible refine Keeps.foldl ?_ ?_ _
    | with_reducible refine Keeps.trans ?_ (drsStep_keeps ..))

theorem execDrsSmul_keeps (u : Fin 64) (s : State) : Goes 0x9100911004c642 s (execDrsSmul u s) := by
  unfold execDrsSmul
  repeat' (first
    | with_reducible exact Keeps.refl _
    | with_reducible assumption
    | intro _
    | with_reducible refine Goes.next ?_
    | with_reducible refine Goes.ite ?_ ?_
    | fail_if_no_progress extract_lets +onlyGivenNames y
    | with_reducible refine Keeps.ite ?_ ?_
    | with_reducible refine Keeps.foldl ?_ ?_ _
    | with_reducible refine Keeps.trans ?_ (drsStep_keeps ..))

theorem execDrsSand_keeps (u : Fin 64) (s : State) : Goes 0x9100911004c642 s (execDrsSand u s) := by
  unfold execDrsSand
  repeat' (first
    | with_reducible exact Keeps.refl _
    | with_reducible assumption
    | intro _
    | with_reducible refine Goes.next ?_
    | with_reducible refine Goes.ite ?_ ?_
    | fail_if_no_progress extract_lets +onlyGivenNames y
    | with_reducible refine Keeps.ite ?_ ?_
    | with_reducible refine Keeps.foldl ?_ ?_ _
    | with_reducible refine Keeps.trans ?_ (drsStep_keeps ..))

theorem execDrsSor_keeps (u : Fin 64) (s : State) : Goes 0x9100911004c642 s (execDrsSor u s) := by
  unfold execDrsSor
  repeat' (first
    | with_reducible exact Keeps.refl _
    | with_reducible assumption
    | intro _
    | with_reducible refine Goes.next ?_
    | with_reducible refine Goes.ite ?_ ?_
    | fail_if_no_progress extract_lets +onlyGivenNames y
    | with_reducible refine Keeps.ite ?_ ?_
    | with_reducible refine Keeps.foldl ?_ ?_ _
    | with_reducible refine Keeps.trans ?_ (drsStep_keeps ..))

theorem execDrsSxor_keeps (u : Fin 64) (s : State) : Goes 0x9100911004c642 s (execDrsSxor u s) := by
  unfold execDrsSxor
  repeat' (first
    | with_reducible exact Keeps.refl _
    | with_reducible assumption
    | intro _
    | with_reducible refine Goes.next ?_
    | with_reducible refine Goes.ite ?_ ?_
    | fail_if_no_progress extract_lets +onlyGivenNames y
    | with_reducible refine Keeps.ite ?_ ?_
    | with_reducible refine Keeps.foldl ?_ ?_ _
    | with_reducible refine Keeps.trans ?_ (drsStep_keeps ..))

theorem execDrsSshli_keeps (u : Fin 64) (s : State) : Goes 0x9100911004c642 s (execDrsSshli u s) := by
  unfold execDrsSshli
  repeat' (first
    | with_reducible exact Keeps.refl _
    | with_reducible assumption
    | intro _
    | with_reducible refine Goes.next ?_
    | with_reducible refine Goes.ite ?_ ?_
    | fail_if_no_progress extract_lets +onlyGivenNames y
    | with_reducible refine Keeps.ite ?_ ?_
    | with_reducible refine Keeps.foldl ?_ ?_ _
    | with_reducible refine Keeps.trans ?_ (drsStep_keeps ..))

theorem execDrsSshri_keeps (u : Fin 64) (s : State) : Goes 0x9100911004c642 s (execDrsSshri u s) := by
  unfold execDrsSshri
  repeat' (first
    | with_reducible exact Keeps.refl _
    | with_reducible assumption
    | intro _
    | with_reducible refine Goes.next ?_
    | with_reducible refine Goes.ite ?_ ?_
    | fail_if_no_progress extract_lets +onlyGivenNames y
    | with_reducible refine Keeps.ite ?_ ?_
    | with_reducible refine Keeps.foldl ?_ ?_ _
    | with_reducible refine Keeps.trans ?_ (drsStep_keeps ..))

theorem execDrsSori_keeps (u : Fin 64) (s : State) : Goes 0x9100911004c642 s (execDrsSori u s) := by
  unfold execDrsSori
  repeat' (first
    | with_reducible exact Keeps.refl _
    | with_reducible assumption
    | intro _
    | with_reducible refine Goes.next ?_
    | with_reducible refine Goes.ite ?_ ?_
    | fail_if_no_progress extract_lets +onlyGivenNames y
    | with_reducible refine Keeps.ite ?_ ?_
    | with_reducible refine Keeps.foldl ?_ ?_ _
    | with_reducible refine Keeps.trans ?_ (drsStep_keeps ..))

theorem execDrsSext_keeps (u : Fin 64) (s : State) : Goes 0x9100911004c642 s (execDrsSext u s) := by
  unfold execDrsSext
  repeat' (first
    | with_reducible exact Keeps.refl _
    | with_reducible assumption
    | intro _
    | with_reducible refine Goes.next ?_
    | with_reducible refine Goes.ite ?_ ?_
    | fail_if_no_progress extract_lets +onlyGivenNames y
    | with_reducible refine Keeps.ite ?_ ?_
    | with_reducible refine Keeps.foldl ?_ ?_ _
    | with_reducible refine Keeps.trans ?_ (drsStep_keeps ..))

theorem execDrsMand_keeps (u : Fin 64) (s : State) : Goes 0x9100911004c642 s (execDrsMand u s) := by
  unfold execDrsMand
  repeat' (first
    | with_reducible exact Keeps.refl _
    | with_reducible assumption
    | intro _
    | with_reducible refine Goes.next ?_
    | with_reducible refine Goes.ite ?_ ?_
    | fail_if_no_progress extract_lets +onlyGivenNames y
    | with_reducible refine Keeps.ite ?_ ?_
    | with_reducible refine Keeps.foldl ?_ ?_ _
    | with_reducible refine Keeps.trans ?_ (drsStep_keeps ..))

theorem execDrsMor_keeps (u : Fin 64) (s : State) : Goes 0x9100911004c642 s (execDrsMor u s) := by
  unfold execDrsMor
  repeat' (first
    | with_reducible exact Keeps.refl _
    | with_reducible assumption
    | intro _
    | with_reducible refine Goes.next ?_
    | with_reducible refine Goes.ite ?_ ?_
    | fail_if_no_progress extract_lets +onlyGivenNames y
    | with_reducible refine Keeps.ite ?_ ?_
    | with_reducible refine Keeps.foldl ?_ ?_ _
    | with_reducible refine Keeps.trans ?_ (drsStep_keeps ..))

theorem execDrsMxor_keeps (u : Fin 64) (s : State) : Goes 0x9100911004c642 s (execDrsMxor u s) := by
  unfold execDrsMxor
  repeat' (first
    | with_reducible exact Keeps.refl _
    | with_reducible assumption
    | intro _
    | with_reducible refine Goes.next ?_
    | with_reducible refine Goes.ite ?_ ?_
    | fail_if_no_progress extract_lets +onlyGivenNames y
    | with_reducible refine Keeps.ite ?_ ?_
    | with_reducible refine Keeps.foldl ?_ ?_ _
    | with_reducible refine Keeps.trans ?_ (drsStep_keeps ..))

theorem execDrsMnot_keeps (u : Fin 64) (s : State) : Goes 0x9100911004c642 s (execDrsMnot u s) := by
  unfold execDrsMnot
  repeat' (first
    | with_reducible exact Keeps.refl _
    | with_reducible assumption
    | intro _
    | with_reducible refine Goes.next ?_
    | with_reducible refine Goes.ite ?_ ?_
    | fail_if_no_progress extract_lets +onlyGivenNames y
    | with_reducible refine Keeps.ite ?_ ?_
    | with_reducible refine Keeps.foldl ?_ ?_ _
    | with_reducible refine Keeps.trans ?_ (drsStep_keeps ..))

theorem execDrsMset_keeps (u : Fin 64) (s : State) : Goes 0x9100911004c642 s (execDrsMset u s) := by
  unfold execDrsMset
  repeat' (first
    | with_reducible exact Keeps.refl _
    | with_reducible assumption
    | intro _
    | with_reducible refine Goes.next ?_
    | with_reducible refine Goes.ite ?_ ?_
    | fail_if_no_progress extract_lets +onlyGivenNames y
    | with_reducible refine Keeps.ite ?_ ?_
    | with_reducible refine Keeps.foldl ?_ ?_ _
    | with_reducible refine Keeps.trans ?_ (drsStep_keeps ..))

theorem execDrsMcnt_keeps (u : Fin 64) (s : State) : Goes 0x9100911004c642 s (execDrsMcnt u s) := by
  unfold execDrsMcnt
  repeat' (first
    | with_reducible exact Keeps.refl _
    | with_reducible assumption
    | intro _
    | with_reducible refine Goes.next ?_
    | with_reducible refine Goes.ite ?_ ?_
    | fail_if_no_progress extract_lets +onlyGivenNames y
    | with_reducible refine Keeps.ite ?_ ?_
    | with_reducible refine Keeps.foldl ?_ ?_ _
    | with_reducible refine Keeps.trans ?_ (drsStep_keeps ..))

end Sys2Proof.Machine
end

