-- ==== Sys2Proof/Laws/KeepsDresserLanes.lean ====
section
/-!
SUPPORT. What the operations of Machine/DresserLanes.lean keep.
-/
set_option Elab.async false

namespace Sys2Proof.Machine

theorem execDrsTbc_keeps (u : Fin 64) (s : State) : Goes 0x9100911004c642 s (execDrsTbc u s) := by
  unfold execDrsTbc
  repeat' (first
    | with_reducible exact Keeps.refl _
    | with_reducible assumption
    | intro _
    | with_reducible refine Goes.next ?_
    | with_reducible refine Goes.ite ?_ ?_
    | fail_if_no_progress extract_lets +onlyGivenNames y
    | with_reducible refine Keeps.ite ?_ ?_
    | with_reducible refine Keeps.foldl ?_ ?_ _
    | with_reducible refine Keeps.trans ?_ (drsStep_keeps ..))

theorem execDrsTmov_keeps (u : Fin 64) (s : State) : Goes 0x9100911004c642 s (execDrsTmov u s) := by
  unfold execDrsTmov
  repeat' (first
    | with_reducible exact Keeps.refl _
    | with_reducible assumption
    | intro _
    | with_reducible refine Goes.next ?_
    | with_reducible refine Goes.ite ?_ ?_
    | fail_if_no_progress extract_lets +onlyGivenNames y
    | with_reducible refine Keeps.ite ?_ ?_
    | with_reducible refine Keeps.foldl ?_ ?_ _
    | with_reducible refine Keeps.trans ?_ (drsStep_keeps ..))

theorem execDrsTiota_keeps (u : Fin 64) (s : State) : Goes 0x9100911004c642 s (execDrsTiota u s) := by
  unfold execDrsTiota
  repeat' (first
    | with_reducible exact Keeps.refl _
    | with_reducible assumption
    | intro _
    | with_reducible refine Goes.next ?_
    | with_reducible refine Goes.ite ?_ ?_
    | fail_if_no_progress extract_lets +onlyGivenNames y
    | with_reducible refine Keeps.ite ?_ ?_
    | with_reducible refine Keeps.foldl ?_ ?_ _
    | with_reducible refine Keeps.trans ?_ (drsStep_keeps ..))

theorem execDrsTand_keeps (u : Fin 64) (s : State) : Goes 0x9100911004c642 s (execDrsTand u s) := by
  unfold execDrsTand
  repeat' (first
    | with_reducible exact Keeps.refl _
    | with_reducible assumption
    | intro _
    | with_reducible refine Goes.next ?_
    | with_reducible refine Goes.ite ?_ ?_
    | fail_if_no_progress extract_lets +onlyGivenNames y
    | with_reducible refine Keeps.ite ?_ ?_
    | with_reducible refine Keeps.foldl ?_ ?_ _
    | with_reducible refine Keeps.trans ?_ (drsStep_keeps ..))

theorem execDrsTor_keeps (u : Fin 64) (s : State) : Goes 0x9100911004c642 s (execDrsTor u s) := by
  unfold execDrsTor
  repeat' (first
    | with_reducible exact Keeps.refl _
    | with_reducible assumption
    | intro _
    | with_reducible refine Goes.next ?_
    | with_reducible refine Goes.ite ?_ ?_
    | fail_if_no_progress extract_lets +onlyGivenNames y
    | with_reducible refine Keeps.ite ?_ ?_
    | with_reducible refine Keeps.foldl ?_ ?_ _
    | with_reducible refine Keeps.trans ?_ (drsStep_keeps ..))

theorem execDrsTxor_keeps (u : Fin 64) (s : State) : Goes 0x9100911004c642 s (execDrsTxor u s) := by
  unfold execDrsTxor
  repeat' (first
    | with_reducible exact Keeps.refl _
    | with_reducible assumption
    | intro _
    | with_reducible refine Goes.next ?_
    | with_reducible refine Goes.ite ?_ ?_
    | fail_if_no_progress extract_lets +onlyGivenNames y
    | with_reducible refine Keeps.ite ?_ ?_
    | with_reducible refine Keeps.foldl ?_ ?_ _
    | with_reducible refine Keeps.trans ?_ (drsStep_keeps ..))

theorem execDrsTshl_keeps (u : Fin 64) (s : State) : Goes 0x9100911004c642 s (execDrsTshl u s) := by
  unfold execDrsTshl
  repeat' (first
    | with_reducible exact Keeps.refl _
    | with_reducible assumption
    | intro _
    | with_reducible refine Goes.next ?_
    | with_reducible refine Goes.ite ?_ ?_
    | fail_if_no_progress extract_lets +onlyGivenNames y
    | with_reducible refine Keeps.ite ?_ ?_
    | with_reducible refine Keeps.foldl ?_ ?_ _
    | with_reducible refine Keeps.trans ?_ (drsStep_keeps ..))

theorem execDrsTshr_keeps (u : Fin 64) (s : State) : Goes 0x9100911004c642 s (execDrsTshr u s) := by
  unfold execDrsTshr
  repeat' (first
    | with_reducible exact Keeps.refl _
    | with_reducible assumption
    | intro _
    | with_reducible refine Goes.next ?_
    | with_reducible refine Goes.ite ?_ ?_
    | fail_if_no_progress extract_lets +onlyGivenNames y
    | with_reducible refine Keeps.ite ?_ ?_
    | with_reducible refine Keeps.foldl ?_ ?_ _
    | with_reducible refine Keeps.trans ?_ (drsStep_keeps ..))

theorem execDrsTsra_keeps (u : Fin 64) (s : State) : Goes 0x9100911004c642 s (execDrsTsra u s) := by
  unfold execDrsTsra
  repeat' (first
    | with_reducible exact Keeps.refl _
    | with_reducible assumption
    | intro _
    | with_reducible refine Goes.next ?_
    | with_reducible refine Goes.ite ?_ ?_
    | fail_if_no_progress extract_lets +onlyGivenNames y
    | with_reducible refine Keeps.ite ?_ ?_
    | with_reducible refine Keeps.foldl ?_ ?_ _
    | with_reducible refine Keeps.trans ?_ (drsStep_keeps ..))

theorem execDrsTsel_keeps (u : Fin 64) (s : State) : Goes 0x9100911004c642 s (execDrsTsel u s) := by
  unfold execDrsTsel
  repeat' (first
    | with_reducible exact Keeps.refl _
    | with_reducible assumption
    | intro _
    | with_reducible refine Goes.next ?_
    | with_reducible refine Goes.ite ?_ ?_
    | fail_if_no_progress extract_lets +onlyGivenNames y
    | with_reducible refine Keeps.ite ?_ ?_
    | with_reducible refine Keeps.foldl ?_ ?_ _
    | with_reducible refine Keeps.trans ?_ (drsStep_keeps ..))

theorem execDrsTadd_keeps (u : Fin 64) (s : State) : Goes 0x9100911004c642 s (execDrsTadd u s) := by
  unfold execDrsTadd
  repeat' (first
    | with_reducible exact Keeps.refl _
    | with_reducible assumption
    | intro _
    | with_reducible refine Goes.next ?_
    | with_reducible refine Goes.ite ?_ ?_
    | fail_if_no_progress extract_lets +onlyGivenNames y
    | with_reducible refine Keeps.ite ?_ ?_
    | with_reducible refine Keeps.foldl ?_ ?_ _
    | with_reducible refine Keeps.trans ?_ (drsStep_keeps ..))

theorem execDrsTsub_keeps (u : Fin 64) (s : State) : Goes 0x9100911004c642 s (execDrsTsub u s) := by
  unfold execDrsTsub
  repeat' (first
    | with_reducible exact Keeps.refl _
    | with_reducible assumption
    | intro _
    | with_reducible refine Goes.next ?_
    | with_reducible refine Goes.ite ?_ ?_
    | fail_if_no_progress extract_lets +onlyGivenNames y
    | with_reducible refine Keeps.ite ?_ ?_
    | with_reducible refine Keeps.foldl ?_ ?_ _
    | with_reducible refine Keeps.trans ?_ (drsStep_keeps ..))

theorem execDrsTmul_keeps (u : Fin 64) (s : State) : Goes 0x9100911004c642 s (execDrsTmul u s) := by
  unfold execDrsTmul
  repeat' (first
    | with_reducible exact Keeps.refl _
    | with_reducible assumption
    | intro _
    | with_reducible refine Goes.next ?_
    | with_reducible refine Goes.ite ?_ ?_
    | fail_if_no_progress extract_lets +onlyGivenNames y
    | with_reducible refine Keeps.ite ?_ ?_
    | with_reducible refine Keeps.foldl ?_ ?_ _
    | with_reducible refine Keeps.trans ?_ (drsStep_keeps ..))

theorem execDrsTfma_keeps (u : Fin 64) (s : State) : Goes 0x9100911004c642 s (execDrsTfma u s) := by
  unfold execDrsTfma
  repeat' (first
    | with_reducible exact Keeps.refl _
    | with_reducible assumption
    | intro _
    | with_reducible refine Goes.next ?_
    | with_reducible refine Goes.ite ?_ ?_
    | fail_if_no_progress extract_lets +onlyGivenNames y
    | with_reducible refine Keeps.ite ?_ ?_
    | with_reducible refine Keeps.foldl ?_ ?_ _
    | with_reducible refine Keeps.trans ?_ (drsStep_keeps ..))

theorem execDrsTmax_keeps (u : Fin 64) (s : State) : Goes 0x9100911004c642 s (execDrsTmax u s) := by
  unfold execDrsTmax
  repeat' (first
    | with_reducible exact Keeps.refl _
    | with_reducible assumption
    | intro _
    | with_reducible refine Goes.next ?_
    | with_reducible refine Goes.ite ?_ ?_
    | fail_if_no_progress extract_lets +onlyGivenNames y
    | with_reducible refine Keeps.ite ?_ ?_
    | with_reducible refine Keeps.foldl ?_ ?_ _
    | with_reducible refine Keeps.trans ?_ (drsStep_keeps ..))

theorem execDrsTmin_keeps (u : Fin 64) (s : State) : Goes 0x9100911004c642 s (execDrsTmin u s) := by
  unfold execDrsTmin
  repeat' (first
    | with_reducible exact Keeps.refl _
    | with_reducible assumption
    | intro _
    | with_reducible refine Goes.next ?_
    | with_reducible refine Goes.ite ?_ ?_
    | fail_if_no_progress extract_lets +onlyGivenNames y
    | with_reducible refine Keeps.ite ?_ ?_
    | with_reducible refine Keeps.foldl ?_ ?_ _
    | with_reducible refine Keeps.trans ?_ (drsStep_keeps ..))

theorem execDrsTabs_keeps (u : Fin 64) (s : State) : Goes 0x9100911004c642 s (execDrsTabs u s) := by
  unfold execDrsTabs
  repeat' (first
    | with_reducible exact Keeps.refl _
    | with_reducible assumption
    | intro _
    | with_reducible refine Goes.next ?_
    | with_reducible refine Goes.ite ?_ ?_
    | fail_if_no_progress extract_lets +onlyGivenNames y
    | with_reducible refine Keeps.ite ?_ ?_
    | with_reducible refine Keeps.foldl ?_ ?_ _
    | with_reducible refine Keeps.trans ?_ (drsStep_keeps ..))

theorem execDrsTneg_keeps (u : Fin 64) (s : State) : Goes 0x9100911004c642 s (execDrsTneg u s) := by
  unfold execDrsTneg
  repeat' (first
    | with_reducible exact Keeps.refl _
    | with_reducible assumption
    | intro _
    | with_reducible refine Goes.next ?_
    | with_reducible refine Goes.ite ?_ ?_
    | fail_if_no_progress extract_lets +onlyGivenNames y
    | with_reducible refine Keeps.ite ?_ ?_
    | with_reducible refine Keeps.foldl ?_ ?_ _
    | with_reducible refine Keeps.trans ?_ (drsStep_keeps ..))

theorem execDrsTdiv_keeps (u : Fin 64) (s : State) : Goes 0x9100911004c642 s (execDrsTdiv u s) := by
  unfold execDrsTdiv
  repeat' (first
    | with_reducible exact Keeps.refl _
    | with_reducible assumption
    | intro _
    | with_reducible refine Goes.next ?_
    | with_reducible refine Goes.ite ?_ ?_
    | fail_if_no_progress extract_lets +onlyGivenNames y
    | with_reducible refine Keeps.ite ?_ ?_
    | with_reducible refine Keeps.foldl ?_ ?_ _
    | with_reducible refine Keeps.trans ?_ (drsStep_keeps ..))

theorem execDrsTsqrt_keeps (u : Fin 64) (s : State) : Goes 0x9100911004c642 s (execDrsTsqrt u s) := by
  unfold execDrsTsqrt
  repeat' (first
    | with_reducible exact Keeps.refl _
    | with_reducible assumption
    | intro _
    | with_reducible refine Goes.next ?_
    | with_reducible refine Goes.ite ?_ ?_
    | fail_if_no_progress extract_lets +onlyGivenNames y
    | with_reducible refine Keeps.ite ?_ ?_
    | with_reducible refine Keeps.foldl ?_ ?_ _
    | with_reducible refine Keeps.trans ?_ (drsStep_keeps ..))

theorem execDrsTrcp_keeps (u : Fin 64) (s : State) : Goes 0x9100911004c642 s (execDrsTrcp u s) := by
  unfold execDrsTrcp
  repeat' (first
    | with_reducible exact Keeps.refl _
    | with_reducible assumption
    | intro _
    | with_reducible refine Goes.next ?_
    | with_reducible refine Goes.ite ?_ ?_
    | fail_if_no_progress extract_lets +onlyGivenNames y
    | with_reducible refine Keeps.ite ?_ ?_
    | with_reducible refine Keeps.foldl ?_ ?_ _
    | with_reducible refine Keeps.trans ?_ (drsStep_keeps ..))

theorem execDrsTrsq_keeps (u : Fin 64) (s : State) : Goes 0x9100911004c642 s (execDrsTrsq u s) := by
  unfold execDrsTrsq
  repeat' (first
    | with_reducible exact Keeps.refl _
    | with_reducible assumption
    | intro _
    | with_reducible refine Goes.next ?_
    | with_reducible refine Goes.ite ?_ ?_
    | fail_if_no_progress extract_lets +onlyGivenNames y
    | with_reducible refine Keeps.ite ?_ ?_
    | with_reducible refine Keeps.foldl ?_ ?_ _
    | with_reducible refine Keeps.trans ?_ (drsStep_keeps ..))

theorem execDrsTex2_keeps (u : Fin 64) (s : State) : Goes 0x9100911004c642 s (execDrsTex2 u s) := by
  unfold execDrsTex2
  repeat' (first
    | with_reducible exact Keeps.refl _
    | with_reducible assumption
    | intro _
    | with_reducible refine Goes.next ?_
    | with_reducible refine Goes.ite ?_ ?_
    | fail_if_no_progress extract_lets +onlyGivenNames y
    | with_reducible refine Keeps.ite ?_ ?_
    | with_reducible refine Keeps.foldl ?_ ?_ _
    | with_reducible refine Keeps.trans ?_ (drsStep_keeps ..))

theorem execDrsTlg2_keeps (u : Fin 64) (s : State) : Goes 0x9100911004c642 s (execDrsTlg2 u s) := by
  unfold execDrsTlg2
  repeat' (first
    | with_reducible exact Keeps.refl _
    | with_reducible assumption
    | intro _
    | with_reducible refine Goes.next ?_
    | with_reducible refine Goes.ite ?_ ?_
    | fail_if_no_progress extract_lets +onlyGivenNames y
    | with_reducible refine Keeps.ite ?_ ?_
    | with_reducible refine Keeps.foldl ?_ ?_ _
    | with_reducible refine Keeps.trans ?_ (drsStep_keeps ..))

theorem execDrsTcvt_keeps (u : Fin 64) (s : State) : Goes 0x9100911004c642 s (execDrsTcvt u s) := by
  unfold execDrsTcvt
  repeat' (first
    | with_reducible exact Keeps.refl _
    | with_reducible assumption
    | intro _
    | with_reducible refine Goes.next ?_
    | with_reducible refine Goes.ite ?_ ?_
    | fail_if_no_progress extract_lets +onlyGivenNames y
    | with_reducible refine Keeps.ite ?_ ?_
    | with_reducible refine Keeps.foldl ?_ ?_ _
    | with_reducible refine Keeps.trans ?_ (drsStep_keeps ..))

theorem execDrsTrnd_keeps (u : Fin 64) (s : State) : Goes 0x9100911004c642 s (execDrsTrnd u s) := by
  unfold execDrsTrnd
  repeat' (first
    | with_reducible exact Keeps.refl _
    | with_reducible assumption
    | intro _
    | with_reducible refine Goes.next ?_
    | with_reducible refine Goes.ite ?_ ?_
    | fail_if_no_progress extract_lets +onlyGivenNames y
    | with_reducible refine Keeps.ite ?_ ?_
    | with_reducible refine Keeps.foldl ?_ ?_ _
    | with_reducible refine Keeps.trans ?_ (drsStep_keeps ..))

theorem execDrsTunpk_keeps (u : Fin 64) (s : State) : Goes 0x9100911004c642 s (execDrsTunpk u s) := by
  unfold execDrsTunpk
  repeat' (first
    | with_reducible exact Keeps.refl _
    | with_reducible assumption
    | intro _
    | with_reducible refine Goes.next ?_
    | with_reducible refine Goes.ite ?_ ?_
    | fail_if_no_progress extract_lets +onlyGivenNames y
    | with_reducible refine Keeps.ite ?_ ?_
    | with_reducible refine Keeps.foldl ?_ ?_ _
    | with_reducible refine Keeps.trans ?_ (drsStep_keeps ..))

theorem execDrsTpack_keeps (u : Fin 64) (s : State) : Goes 0x9100911004c642 s (execDrsTpack u s) := by
  unfold execDrsTpack
  repeat' (first
    | with_reducible exact Keeps.refl _
    | with_reducible assumption
    | intro _
    | with_reducible refine Goes.next ?_
    | with_reducible refine Goes.ite ?_ ?_
    | fail_if_no_progress extract_lets +onlyGivenNames y
    | with_reducible refine Keeps.ite ?_ ?_
    | with_reducible refine Keeps.foldl ?_ ?_ _
    | with_reducible refine Keeps.trans ?_ (drsStep_keeps ..))

theorem execDrsTcmp_keeps (u : Fin 64) (s : State) : Goes 0x9100911004c642 s (execDrsTcmp u s) := by
  unfold execDrsTcmp
  repeat' (first
    | with_reducible exact Keeps.refl _
    | with_reducible assumption
    | intro _
    | with_reducible refine Goes.next ?_
    | with_reducible refine Goes.ite ?_ ?_
    | fail_if_no_progress extract_lets +onlyGivenNames y
    | with_reducible refine Keeps.ite ?_ ?_
    | with_reducible refine Keeps.foldl ?_ ?_ _
    | with_reducible refine Keeps.trans ?_ (drsStep_keeps ..))

theorem execDrsWfma_keeps (u : Fin 64) (s : State) : Goes 0x9100911004c642 s (execDrsWfma u s) := by
  unfold execDrsWfma
  repeat' (first
    | with_reducible exact Keeps.refl _
    | with_reducible assumption
    | intro _
    | with_reducible refine Goes.next ?_
    | with_reducible refine Goes.ite ?_ ?_
    | fail_if_no_progress extract_lets +onlyGivenNames y
    | with_reducible refine Keeps.ite ?_ ?_
    | with_reducible refine Keeps.foldl ?_ ?_ _
    | with_reducible refine Keeps.trans ?_ (drsStep_keeps ..))

theorem execDrsWcvt_keeps (u : Fin 64) (s : State) : Goes 0x9100911004c642 s (execDrsWcvt u s) := by
  unfold execDrsWcvt
  repeat' (first
    | with_reducible exact Keeps.refl _
    | with_reducible assumption
    | intro _
    | with_reducible refine Goes.next ?_
    | with_reducible refine Goes.ite ?_ ?_
    | fail_if_no_progress extract_lets +onlyGivenNames y
    | with_reducible refine Keeps.ite ?_ ?_
    | with_reducible refine Keeps.foldl ?_ ?_ _
    | with_reducible refine Keeps.trans ?_ (drsStep_keeps ..))

theorem execDrsWfrom_keeps (u : Fin 64) (s : State) : Goes 0x9100911004c642 s (execDrsWfrom u s) := by
  unfold execDrsWfrom
  repeat' (first
    | with_reducible exact Keeps.refl _
    | with_reducible assumption
    | intro _
    | with_reducible refine Goes.next ?_
    | with_reducible refine Goes.ite ?_ ?_
    | fail_if_no_progress extract_lets +onlyGivenNames y
    | with_reducible refine Keeps.ite ?_ ?_
    | with_reducible refine Keeps.foldl ?_ ?_ _
    | with_reducible refine Keeps.trans ?_ (drsStep_keeps ..))

end Sys2Proof.Machine
end

