-- ==== Sys2Proof/Laws/KeepsDresserReduce.lean ====
section
/-!
SUPPORT. What the operations of Machine/DresserReduce.lean keep.
-/
set_option Elab.async false

namespace Sys2Proof.Machine

theorem execDrsTperm_keeps (u : Fin 64) (s : State) : Goes 0x9100911004c642 s (execDrsTperm u s) := by
  unfold execDrsTperm
  repeat' (first
    | with_reducible exact Keeps.refl _
    | with_reducible assumption
    | intro _
    | with_reducible refine Goes.next ?_
    | with_reducible refine Goes.ite ?_ ?_
    | fail_if_no_progress extract_lets +onlyGivenNames y
    | with_reducible refine Keeps.ite ?_ ?_
    | with_reducible refine Keeps.foldl ?_ ?_ _
    | with_reducible refine Keeps.trans ?_ (drsStep_keeps ..))

theorem execDrsTtrn_keeps (u : Fin 64) (s : State) : Goes 0x9100911004c642 s (execDrsTtrn u s) := by
  unfold execDrsTtrn
  repeat' (first
    | with_reducible exact Keeps.refl _
    | with_reducible assumption
    | intro _
    | with_reducible refine Goes.next ?_
    | with_reducible refine Goes.ite ?_ ?_
    | fail_if_no_progress extract_lets +onlyGivenNames y
    | with_reducible refine Keeps.ite ?_ ?_
    | with_reducible refine Keeps.foldl ?_ ?_ _
    | with_reducible refine Keeps.trans ?_ (drsStep_keeps ..))

theorem execDrsTbcl_keeps (u : Fin 64) (s : State) : Goes 0x9100911004c642 s (execDrsTbcl u s) := by
  unfold execDrsTbcl
  repeat' (first
    | with_reducible exact Keeps.refl _
    | with_reducible assumption
    | intro _
    | with_reducible refine Goes.next ?_
    | with_reducible refine Goes.ite ?_ ?_
    | fail_if_no_progress extract_lets +onlyGivenNames y
    | with_reducible refine Keeps.ite ?_ ?_
    | with_reducible refine Keeps.foldl ?_ ?_ _
    | with_reducible refine Keeps.trans ?_ (drsStep_keeps ..))

theorem execDrsTcompress_keeps (u : Fin 64) (s : State) : Goes 0x9100911004c642 s (execDrsTcompress u s) := by
  unfold execDrsTcompress
  repeat' (first
    | with_reducible exact Keeps.refl _
    | with_reducible assumption
    | intro _
    | with_reducible refine Goes.next ?_
    | with_reducible refine Goes.ite ?_ ?_
    | fail_if_no_progress extract_lets +onlyGivenNames y
    | with_reducible refine Keeps.ite ?_ ?_
    | with_reducible refine Keeps.foldl ?_ ?_ _
    | with_reducible refine Keeps.trans ?_ (drsStep_keeps ..))

theorem execDrsTexpand_keeps (u : Fin 64) (s : State) : Goes 0x9100911004c642 s (execDrsTexpand u s) := by
  unfold execDrsTexpand
  repeat' (first
    | with_reducible exact Keeps.refl _
    | with_reducible assumption
    | intro _
    | with_reducible refine Goes.next ?_
    | with_reducible refine Goes.ite ?_ ?_
    | fail_if_no_progress extract_lets +onlyGivenNames y
    | with_reducible refine Keeps.ite ?_ ?_
    | with_reducible refine Keeps.foldl ?_ ?_ _
    | with_reducible refine Keeps.trans ?_ (drsStep_keeps ..))

theorem execDrsTrsum_keeps (u : Fin 64) (s : State) : Goes 0x9100911004c642 s (execDrsTrsum u s) := by
  unfold execDrsTrsum
  repeat' (first
    | with_reducible exact Keeps.refl _
    | with_reducible assumption
    | intro _
    | with_reducible refine Goes.next ?_
    | with_reducible refine Goes.ite ?_ ?_
    | fail_if_no_progress extract_lets +onlyGivenNames y
    | with_reducible refine Keeps.ite ?_ ?_
    | with_reducible refine Keeps.foldl ?_ ?_ _
    | with_reducible refine Keeps.trans ?_ (drsStep_keeps ..))

theorem execDrsTrmax_keeps (u : Fin 64) (s : State) : Goes 0x9100911004c642 s (execDrsTrmax u s) := by
  unfold execDrsTrmax
  repeat' (first
    | with_reducible exact Keeps.refl _
    | with_reducible assumption
    | intro _
    | with_reducible refine Goes.next ?_
    | with_reducible refine Goes.ite ?_ ?_
    | fail_if_no_progress extract_lets +onlyGivenNames y
    | with_reducible refine Keeps.ite ?_ ?_
    | with_reducible refine Keeps.foldl ?_ ?_ _
    | with_reducible refine Keeps.trans ?_ (drsStep_keeps ..))

theorem execDrsTrmin_keeps (u : Fin 64) (s : State) : Goes 0x9100911004c642 s (execDrsTrmin u s) := by
  unfold execDrsTrmin
  repeat' (first
    | with_reducible exact Keeps.refl _
    | with_reducible assumption
    | intro _
    | with_reducible refine Goes.next ?_
    | with_reducible refine Goes.ite ?_ ?_
    | fail_if_no_progress extract_lets +onlyGivenNames y
    | with_reducible refine Keeps.ite ?_ ?_
    | with_reducible refine Keeps.foldl ?_ ?_ _
    | with_reducible refine Keeps.trans ?_ (drsStep_keeps ..))

theorem execDrsTramax_keeps (u : Fin 64) (s : State) : Goes 0x9100911004c642 s (execDrsTramax u s) := by
  unfold execDrsTramax
  repeat' (first
    | with_reducible exact Keeps.refl _
    | with_reducible assumption
    | intro _
    | with_reducible refine Goes.next ?_
    | with_reducible refine Goes.ite ?_ ?_
    | fail_if_no_progress extract_lets +onlyGivenNames y
    | with_reducible refine Keeps.ite ?_ ?_
    | with_reducible refine Keeps.foldl ?_ ?_ _
    | with_reducible refine Keeps.trans ?_ (drsStep_keeps ..))

theorem execDrsTramin_keeps (u : Fin 64) (s : State) : Goes 0x9100911004c642 s (execDrsTramin u s) := by
  unfold execDrsTramin
  repeat' (first
    | with_reducible exact Keeps.refl _
    | with_reducible assumption
    | intro _
    | with_reducible refine Goes.next ?_
    | with_reducible refine Goes.ite ?_ ?_
    | fail_if_no_progress extract_lets +onlyGivenNames y
    | with_reducible refine Keeps.ite ?_ ?_
    | with_reducible refine Keeps.foldl ?_ ?_ _
    | with_reducible refine Keeps.trans ?_ (drsStep_keeps ..))

theorem execDrsTrrsum_keeps (u : Fin 64) (s : State) : Goes 0x9100911004c642 s (execDrsTrrsum u s) := by
  unfold execDrsTrrsum
  repeat' (first
    | with_reducible exact Keeps.refl _
    | with_reducible assumption
    | intro _
    | with_reducible refine Goes.next ?_
    | with_reducible refine Goes.ite ?_ ?_
    | fail_if_no_progress extract_lets +onlyGivenNames y
    | with_reducible refine Keeps.ite ?_ ?_
    | with_reducible refine Keeps.foldl ?_ ?_ _
    | with_reducible refine Keeps.trans ?_ (drsStep_keeps ..))

theorem execDrsTrrmax_keeps (u : Fin 64) (s : State) : Goes 0x9100911004c642 s (execDrsTrrmax u s) := by
  unfold execDrsTrrmax
  repeat' (first
    | with_reducible exact Keeps.refl _
    | with_reducible assumption
    | intro _
    | with_reducible refine Goes.next ?_
    | with_reducible refine Goes.ite ?_ ?_
    | fail_if_no_progress extract_lets +onlyGivenNames y
    | with_reducible refine Keeps.ite ?_ ?_
    | with_reducible refine Keeps.foldl ?_ ?_ _
    | with_reducible refine Keeps.trans ?_ (drsStep_keeps ..))

theorem execDrsTrrmin_keeps (u : Fin 64) (s : State) : Goes 0x9100911004c642 s (execDrsTrrmin u s) := by
  unfold execDrsTrrmin
  repeat' (first
    | with_reducible exact Keeps.refl _
    | with_reducible assumption
    | intro _
    | with_reducible refine Goes.next ?_
    | with_reducible refine Goes.ite ?_ ?_
    | fail_if_no_progress extract_lets +onlyGivenNames y
    | with_reducible refine Keeps.ite ?_ ?_
    | with_reducible refine Keeps.foldl ?_ ?_ _
    | with_reducible refine Keeps.trans ?_ (drsStep_keeps ..))

end Sys2Proof.Machine
end

