-- ==== Sys2Proof/Laws/KeepsDresserMemory.lean ====
section
/-!
SUPPORT. What the operations of Machine/DresserMemory.lean keep.
-/
set_option Elab.async false

namespace Sys2Proof.Machine

theorem execDrsSld_keeps (u : Fin 64) (s : State) : Goes 0x9100911004c642 s (execDrsSld u s) := by
  unfold execDrsSld
  repeat' (first
    | with_reducible exact Keeps.refl _
    | with_reducible assumption
    | intro _
    | with_reducible refine Goes.next ?_
    | with_reducible refine Goes.ite ?_ ?_
    | fail_if_no_progress extract_lets +onlyGivenNames y
    | with_reducible refine Keeps.ite ?_ ?_
    | with_reducible refine Keeps.foldl ?_ ?_ _
    | with_reducible refine Keeps.trans ?_ (drsStep_keeps ..))

theorem execDrsSst_keeps (u : Fin 64) (s : State) : Goes 0x9100911004c642 s (execDrsSst u s) := by
  unfold execDrsSst
  repeat' (first
    | with_reducible exact Keeps.refl _
    | with_reducible assumption
    | intro _
    | with_reducible refine Goes.next ?_
    | with_reducible refine Goes.ite ?_ ?_
    | fail_if_no_progress extract_lets +onlyGivenNames y
    | with_reducible refine Keeps.ite ?_ ?_
    | with_reducible refine Keeps.foldl ?_ ?_ _
    | with_reducible refine Keeps.trans ?_ (drsStep_keeps ..))

theorem execDrsMld_keeps (u : Fin 64) (s : State) : Goes 0x9100911004c642 s (execDrsMld u s) := by
  unfold execDrsMld
  repeat' (first
    | with_reducible exact Keeps.refl _
    | with_reducible assumption
    | intro _
    | with_reducible refine Goes.next ?_
    | with_reducible refine Goes.ite ?_ ?_
    | fail_if_no_progress extract_lets +onlyGivenNames y
    | with_reducible refine Keeps.ite ?_ ?_
    | with_reducible refine Keeps.foldl ?_ ?_ _
    | with_reducible refine Keeps.trans ?_ (drsStep_keeps ..))

theorem execDrsMst_keeps (u : Fin 64) (s : State) : Goes 0x9100911004c642 s (execDrsMst u s) := by
  unfold execDrsMst
  repeat' (first
    | with_reducible exact Keeps.refl _
    | with_reducible assumption
    | intro _
    | with_reducible refine Goes.next ?_
    | with_reducible refine Goes.ite ?_ ?_
    | fail_if_no_progress extract_lets +onlyGivenNames y
    | with_reducible refine Keeps.ite ?_ ?_
    | with_reducible refine Keeps.foldl ?_ ?_ _
    | with_reducible refine Keeps.trans ?_ (drsStep_keeps ..))

theorem execDrsTld_keeps (u : Fin 64) (s : State) : Goes 0x9100911004c642 s (execDrsTld u s) := by
  unfold execDrsTld
  repeat' (first
    | with_reducible exact Keeps.refl _
    | with_reducible assumption
    | intro _
    | with_reducible refine Goes.next ?_
    | with_reducible refine Goes.ite ?_ ?_
    | fail_if_no_progress extract_lets +onlyGivenNames y
    | with_reducible refine Keeps.ite ?_ ?_
    | with_reducible refine Keeps.foldl ?_ ?_ _
    | with_reducible refine Keeps.trans ?_ (drsStep_keeps ..))

theorem execDrsTldc_keeps (u : Fin 64) (s : State) : Goes 0x9100911004c642 s (execDrsTldc u s) := by
  unfold execDrsTldc
  repeat' (first
    | with_reducible exact Keeps.refl _
    | with_reducible assumption
    | intro _
    | with_reducible refine Goes.next ?_
    | with_reducible refine Goes.ite ?_ ?_
    | fail_if_no_progress extract_lets +onlyGivenNames y
    | with_reducible refine Keeps.ite ?_ ?_
    | with_reducible refine Keeps.foldl ?_ ?_ _
    | with_reducible refine Keeps.trans ?_ (drsStep_keeps ..))

theorem execDrsTldx_keeps (u : Fin 64) (s : State) : Goes 0x9100911004c642 s (execDrsTldx u s) := by
  unfold execDrsTldx
  repeat' (first
    | with_reducible exact Keeps.refl _
    | with_reducible assumption
    | intro _
    | with_reducible refine Goes.next ?_
    | with_reducible refine Goes.ite ?_ ?_
    | fail_if_no_progress extract_lets +onlyGivenNames y
    | with_reducible refine Keeps.ite ?_ ?_
    | with_reducible refine Keeps.foldl ?_ ?_ _
    | with_reducible refine Keeps.trans ?_ (drsStep_keeps ..))

theorem execDrsTlds_keeps (u : Fin 64) (s : State) : Goes 0x9100911004c642 s (execDrsTlds u s) := by
  unfold execDrsTlds
  repeat' (first
    | with_reducible exact Keeps.refl _
    | with_reducible assumption
    | intro _
    | with_reducible refine Goes.next ?_
    | with_reducible refine Goes.ite ?_ ?_
    | fail_if_no_progress extract_lets +onlyGivenNames y
    | with_reducible refine Keeps.ite ?_ ?_
    | with_reducible refine Keeps.foldl ?_ ?_ _
    | with_reducible refine Keeps.trans ?_ (drsStep_keeps ..))

theorem execDrsWld_keeps (u : Fin 64) (s : State) : Goes 0x9100911004c642 s (execDrsWld u s) := by
  unfold execDrsWld
  repeat' (first
    | with_reducible exact Keeps.refl _
    | with_reducible assumption
    | intro _
    | with_reducible refine Goes.next ?_
    | with_reducible refine Goes.ite ?_ ?_
    | fail_if_no_progress extract_lets +onlyGivenNames y
    | with_reducible refine Keeps.ite ?_ ?_
    | with_reducible refine Keeps.foldl ?_ ?_ _
    | with_reducible refine Keeps.trans ?_ (drsStep_keeps ..))

theorem execDrsTst_keeps (u : Fin 64) (s : State) : Goes 0x9100911004c642 s (execDrsTst u s) := by
  unfold execDrsTst
  repeat' (first
    | with_reducible exact Keeps.refl _
    | with_reducible assumption
    | intro _
    | with_reducible refine Goes.next ?_
    | with_reducible refine Goes.ite ?_ ?_
    | fail_if_no_progress extract_lets +onlyGivenNames y
    | with_reducible refine Keeps.ite ?_ ?_
    | with_reducible refine Keeps.foldl ?_ ?_ _
    | with_reducible refine Keeps.trans ?_ (drsStep_keeps ..))

theorem execDrsTstc_keeps (u : Fin 64) (s : State) : Goes 0x9100911004c642 s (execDrsTstc u s) := by
  unfold execDrsTstc
  repeat' (first
    | with_reducible exact Keeps.refl _
    | with_reducible assumption
    | intro _
    | with_reducible refine Goes.next ?_
    | with_reducible refine Goes.ite ?_ ?_
    | fail_if_no_progress extract_lets +onlyGivenNames y
    | with_reducible refine Keeps.ite ?_ ?_
    | with_reducible refine Keeps.foldl ?_ ?_ _
    | with_reducible refine Keeps.trans ?_ (drsStep_keeps ..))

theorem execDrsTstx_keeps (u : Fin 64) (s : State) : Goes 0x9100911004c642 s (execDrsTstx u s) := by
  unfold execDrsTstx
  repeat' (first
    | with_reducible exact Keeps.refl _
    | with_reducible assumption
    | intro _
    | with_reducible refine Goes.next ?_
    | with_reducible refine Goes.ite ?_ ?_
    | fail_if_no_progress extract_lets +onlyGivenNames y
    | with_reducible refine Keeps.ite ?_ ?_
    | with_reducible refine Keeps.foldl ?_ ?_ _
    | with_reducible refine Keeps.trans ?_ (drsStep_keeps ..))

theorem execDrsTstq_keeps (u : Fin 64) (s : State) : Goes 0x9100911004c642 s (execDrsTstq u s) := by
  unfold execDrsTstq
  repeat' (first
    | with_reducible exact Keeps.refl _
    | with_reducible assumption
    | intro _
    | with_reducible refine Goes.next ?_
    | with_reducible refine Goes.ite ?_ ?_
    | fail_if_no_progress extract_lets +onlyGivenNames y
    | with_reducible refine Keeps.ite ?_ ?_
    | with_reducible refine Keeps.foldl ?_ ?_ _
    | with_reducible refine Keeps.trans ?_ (drsStep_keeps ..))

theorem execDrsTsts_keeps (u : Fin 64) (s : State) : Goes 0x9100911004c642 s (execDrsTsts u s) := by
  unfold execDrsTsts
  repeat' (first
    | with_reducible exact Keeps.refl _
    | with_reducible assumption
    | intro _
    | with_reducible refine Goes.next ?_
    | with_reducible refine Goes.ite ?_ ?_
    | fail_if_no_progress extract_lets +onlyGivenNames y
    | with_reducible refine Keeps.ite ?_ ?_
    | with_reducible refine Keeps.foldl ?_ ?_ _
    | with_reducible refine Keeps.trans ?_ (drsStep_keeps ..))

theorem execDrsWst_keeps (u : Fin 64) (s : State) : Goes 0x9100911004c642 s (execDrsWst u s) := by
  unfold execDrsWst
  repeat' (first
    | with_reducible exact Keeps.refl _
    | with_reducible assumption
    | intro _
    | with_reducible refine Goes.next ?_
    | with_reducible refine Goes.ite ?_ ?_
    | fail_if_no_progress extract_lets +onlyGivenNames y
    | with_reducible refine Keeps.ite ?_ ?_
    | with_reducible refine Keeps.foldl ?_ ?_ _
    | with_reducible refine Keeps.trans ?_ (drsStep_keeps ..))

end Sys2Proof.Machine
end

