-- ==== Sys2Proof/Laws/KeepsOptics.lean ====
section
/-!
SUPPORT. What the operations of Machine/Optics.lean keep.
-/
set_option Elab.async false

namespace Sys2Proof.Machine

theorem badFlit_keeps {F : Nat} (p : Nat) (s : State) (hF : Within 0x40000010100000 F := by first | rfl | decide) : Keeps F s (badFlit p s) := by
  refine Keeps.mono hF ?_
  unfold badFlit
  repeat' (first
    | with_reducible exact Keeps.refl _
    | with_reducible assumption
    | intro _
    | fail_if_no_progress extract_lets +onlyGivenNames y
    | with_reducible refine Keeps.ite ?_ ?_
    | with_reducible refine Keeps.foldl ?_ ?_ _
    | with_reducible refine Keeps.trans ?_ (sendIdle_keeps ..)
    | with_reducible refine Keeps.trans ?_ (modPort_keeps ..)
    | with_reducible refine Keeps.trans ?_ (bump_keeps ..))

theorem execDataFlitReceived_keeps (p : Fin 16) (bytes : List Byte) (s : State) : Goes 0x40004012900002 s (execDataFlitReceived p bytes s) := by
  unfold execDataFlitReceived
  refine Goes.ite (Goes.next (Keeps.refl s)) (Goes.ite (Goes.next (badFlit_keeps ..)) (Goes.ite (Goes.next (Keeps.refl s)) ?_))
  exact Goes.next ((((((endPeerHold_keeps ..).trans (takeFields_keeps ..)).trans (acceptData_keeps ..)).trans (pump_keeps ..)).trans
    (pumpPair_keeps ..)).trans (sendIdle_keeps ..))

theorem onManagement_keeps {F : Nat} (p : Nat) (bytes : List Byte) (k : State → State) (s : State) (hk : ∀ s, Keeps F s (k s))
    (hF : Within 0x40004012900002 F := by first | rfl | decide) : Keeps F s (onManagement p bytes k s) := by
  unfold onManagement
  refine Keeps.ite (Keeps.refl s) (Keeps.ite (Keeps.mono hF (badFlit_keeps ..)) ?_)
  exact ((Keeps.mono hF (takeFields_keeps ..)).trans (hk _)).trans (Keeps.mono hF (pump_keeps ..))

theorem execIdleFlitReceived_keeps (p : Fin 16) (bytes : List Byte) (s : State) : Goes 0x40004012900002 s (execIdleFlitReceived p bytes s) := by
  unfold execIdleFlitReceived
  extract_lets kind
  clear_value kind
  refine Goes.ite (Goes.next ?_) (Goes.ite (Goes.next (onManagement_keeps _ _ _ _ fun _ => peerRemoved_keeps ..)) (Goes.next (Keeps.refl s)))
  exact ((Keeps.ite (endPeerHold_keeps ..) (Keeps.refl s)).trans (onManagement_keeps _ _ _ _ Keeps.refl)).trans (pumpPair_keeps ..)

theorem execReplayTimeout_keeps (p : Fin 16) (s : State) : Goes 0x40004012900002 s (execReplayTimeout p s) := by
  unfold execReplayTimeout
  repeat' (first
    | with_reducible exact Keeps.refl _
    | with_reducible assumption
    | intro _
    | with_reducible refine Goes.next ?_
    | with_reducible refine Goes.ite ?_ ?_
    | fail_if_no_progress extract_lets +onlyGivenNames y
    | with_reducible refine Keeps.ite ?_ ?_
    | with_reducible refine Keeps.foldl ?_ ?_ _
    | with_reducible refine Keeps.trans ?_ (beginReplay_keeps ..))

theorem execHello_keeps (p : Fin 16) (addr : BitVec 20) (nport : Fin 16) (rtt : Nat) (s : State) :
    Goes 0x40084012900022 s (execHello p addr nport rtt s) := by
  unfold execHello
  exact Goes.ite (Goes.next (Keeps.refl s)) (Goes.ite
    (Goes.next ((trainFail_keeps ..).trans (portReloaded_keeps ..)))
    (Goes.next ((modPort_keeps ..).trans (tellPeer_keeps ..))))

theorem execLinkHeartbeatSend_keeps (s : State) : Goes 0x10100000 s (execLinkHeartbeatSend s) := by
  unfold execLinkHeartbeatSend
  repeat' (first
    | with_reducible exact Keeps.refl _
    | with_reducible assumption
    | intro _
    | with_reducible refine Goes.next ?_
    | with_reducible refine Goes.ite ?_ ?_
    | fail_if_no_progress extract_lets +onlyGivenNames y
    | with_reducible refine Keeps.ite ?_ ?_
    | with_reducible refine Keeps.foldl ?_ ?_ _
    | with_reducible refine Keeps.trans ?_ (tellPeer_keeps ..))

theorem execLinkHeartbeat_keeps (f : PortFlit) (s : State) : Goes 0x40004012900002 s (execLinkHeartbeat f s) := by
  unfold execLinkHeartbeat
  repeat' (first
    | with_reducible exact Keeps.refl _
    | with_reducible assumption
    | intro _
    | with_reducible refine Goes.next ?_
    | (extract_lets +onlyGivenNames y
       refine Goes.via (y := y) ?_ ?_
       on_goal 2 => (intro _; clear_value y)
       on_goal 1 => (dsimp -zeta only [y]; clear y))
    | with_reducible refine Goes.ite ?_ ?_
    | (extract_lets +onlyGivenNames y
       refine Keeps.via (y := y) ?_ ?_
       on_goal 2 => (intro _; clear_value y)
       on_goal 1 => (dsimp -zeta only [y]; clear y))
    | fail_if_no_progress extract_lets +onlyGivenNames y
    | with_reducible refine Keeps.ite ?_ ?_
    | with_reducible refine Keeps.foldl ?_ ?_ _
    | with_reducible refine Keeps.trans ?_ (onManagement_keeps _ _ _ _ ?_)
    | with_reducible refine Keeps.trans ?_ (modPort_keeps ..)
    | fail_if_no_progress with_reducible refine Keeps.lit ?_ rfl rfl rfl rfl
    | fail_if_no_progress with_reducible refine Keeps.litMod ?_ rfl rfl rfl rfl rfl rfl rfl rfl rfl
    | split
    | fail_if_no_progress dsimp -zeta only
    | refine Keeps.lit ?_ rfl rfl rfl rfl
    | refine Keeps.litMod ?_ rfl rfl rfl rfl rfl rfl rfl rfl rfl
    | refine Keeps.litTo ?_ rfl rfl rfl rfl ⟨nofun, nofun⟩ rfl (fun h => h) rfl rfl)

theorem execLinkHeartbeatTimeout_keeps (p : Fin 16) (s : State) : Goes 0x40004012900002 s (execLinkHeartbeatTimeout p s) := by
  unfold execLinkHeartbeatTimeout
  exact Goes.next (Keeps.ite (Keeps.refl s) (Keeps.ite (replayExhausted_keeps ..) (linkLost_keeps ..)))

theorem execLaneSignalLoss_keeps (p : Fin 16) (s : State) : Goes 0x40004012900002 s (execLaneSignalLoss p s) := by
  unfold execLaneSignalLoss
  refine Goes.ite (Goes.next (Keeps.refl s)) (Goes.next (Keeps.trans ?_ (linkLost_keeps ..)))
  exact Keeps.foldl (Keeps.refl s) (fun y w => modLane_keeps ..) _

theorem execPeerStartsTraining_keeps (p : Fin 16) (s : State) : Goes 0x40004012900002 s (execPeerStartsTraining p s) := by
  unfold execPeerStartsTraining
  repeat' (first
    | with_reducible exact Keeps.refl _
    | with_reducible assumption
    | intro _
    | with_reducible refine Goes.next ?_
    | with_reducible refine Goes.ite ?_ ?_
    | fail_if_no_progress extract_lets +onlyGivenNames y
    | with_reducible refine Keeps.ite ?_ ?_
    | with_reducible refine Keeps.foldl ?_ ?_ _
    | with_reducible refine Keeps.trans ?_ (linkLost_keeps ..))

theorem trainedLanes_keeps {F : Nat} (eyes : List (Byte × Byte)) (p : Nat) (s : State) (hF : Within 0x100000 F := by first | rfl | decide) : Keeps F s (trainedLanes eyes p s) := by
  refine Keeps.mono hF ?_
  unfold trainedLanes
  repeat' (first
    | with_reducible exact Keeps.refl _
    | with_reducible assumption
    | intro _
    | fail_if_no_progress extract_lets +onlyGivenNames y
    | with_reducible refine Keeps.ite ?_ ?_
    | with_reducible refine Keeps.foldl ?_ ?_ _
    | with_reducible refine Keeps.trans ?_ (modLane_keeps ..))

theorem execTrainingPass_keeps (p : Fin 16) (tx : BitVec 9) (eyes : List (Byte × Byte)) (s : State) :
    Goes 0x40084012900022 s (execTrainingPass p tx eyes s) := by
  unfold execTrainingPass
  extract_lets q txMap rxMap s1 st s2
  refine Goes.ite (Goes.next (Keeps.refl s)) ?_
  have h1 : Keeps 0x40084012900022 s s1 := trainedLanes_keeps ..
  clear_value s1
  refine Goes.ite (Goes.next ((h1.trans (trainFail_keeps ..)).trans (portReloaded_keeps ..))) ?_
  have h2 : Keeps 0x40084012900022 s s2 := h1.trans (modPort_keeps ..)
  clear_value s2
  exact Goes.next (((h2.trans (pump_keeps ..)).trans (pumpPair_keeps ..)).trans (portReloaded_keeps ..))

theorem execTrainingTimeout_keeps (p : Fin 16) (s : State) : Goes 0x40084012900022 s (execTrainingTimeout p s) := by
  unfold execTrainingTimeout
  exact Goes.ite (Goes.next ((trainFail_keeps ..).trans (portReloaded_keeps ..))) (Goes.next (Keeps.refl s))

theorem execDownRetrainTimer_keeps (p : Fin 16) (s : State) : Goes 0x10100000 s (execDownRetrainTimer p s) := by
  unfold execDownRetrainTimer
  repeat' (first
    | with_reducible exact Keeps.refl _
    | with_reducible assumption
    | intro _
    | with_reducible refine Goes.next ?_
    | with_reducible refine Goes.ite ?_ ?_
    | fail_if_no_progress extract_lets +onlyGivenNames y
    | with_reducible refine Keeps.ite ?_ ?_
    | with_reducible refine Keeps.foldl ?_ ?_ _
    | with_reducible refine Keeps.trans ?_ (startTraining_keeps ..))

theorem removeLanes_keeps {F : Nat} (p : Nat) (ks : List Nat) (s : State) (hF : Within 0x40004012900002 F := by first | rfl | decide) : Keeps F s (removeLanes p ks s) := by
  refine Keeps.mono hF ?_
  unfold removeLanes
  repeat' (first
    | with_reducible exact Keeps.refl _
    | with_reducible assumption
    | intro _
    | fail_if_no_progress extract_lets +onlyGivenNames y
    | with_reducible refine Keeps.ite ?_ ?_
    | with_reducible refine Keeps.foldl ?_ ?_ _
    | with_reducible refine Keeps.trans ?_ (removeLane_keeps ..))

theorem execLaneMonitorWindow_keeps (p : Fin 16) (ser : List Word) (uncorr noLock : BitVec 9) (s : State) :
    Goes 0x40004012900002 s (execLaneMonitorWindow p ser uncorr noLock s) := by
  unfold execLaneMonitorWindow
  refine Goes.ite (Goes.next (Keeps.refl s)) ?_
  extract_lets +onlyGivenNames late measured s1 q bad
  have h1 : Keeps 0x40004012900002 s s1 := Keeps.foldl (Keeps.refl s) (fun y w => modLane_keeps ..) _
  clear_value s1 bad
  refine Goes.ite (Goes.next (h1.trans (modPort_keeps ..))) ?_
  extract_lets +onlyGivenNames s2
  have h2 : Keeps 0x40004012900002 s s2 := h1.trans (modPort_keeps ..)
  clear_value s2
  split
  · exact Goes.next h2
  · exact Goes.ite (Goes.next (((h2.trans (modPort_keeps ..)).trans (tellPeer_keeps ..)).trans (removeLanes_keeps ..)))
      (Goes.next (h2.trans (removeLanes_keeps ..)))

theorem execSpareRequest_keeps (f : PortFlit) (k : Fin 8) (s : State) : Goes 0x40004012900002 s (execSpareRequest f k s) := by
  unfold execSpareRequest
  repeat' (first
    | with_reducible exact Keeps.refl _
    | with_reducible assumption
    | intro _
    | with_reducible refine Goes.next ?_
    | (extract_lets +onlyGivenNames y
       refine Goes.via (y := y) ?_ ?_
       on_goal 2 => (intro _; clear_value y)
       on_goal 1 => (dsimp -zeta only [y]; clear y))
    | with_reducible refine Goes.ite ?_ ?_
    | (extract_lets +onlyGivenNames y
       refine Keeps.via (y := y) ?_ ?_
       on_goal 2 => (intro _; clear_value y)
       on_goal 1 => (dsimp -zeta only [y]; clear y))
    | fail_if_no_progress extract_lets +onlyGivenNames y
    | with_reducible refine Keeps.ite ?_ ?_
    | with_reducible refine Keeps.foldl ?_ ?_ _
    | with_reducible refine Keeps.trans ?_ (onManagement_keeps _ _ _ _ ?_)
    | with_reducible refine Keeps.trans ?_ (logLink_keeps ..)
    | with_reducible refine Keeps.trans ?_ (tellPeer_keeps ..)
    | with_reducible refine Keeps.trans ?_ (modPort_keeps ..)
    | with_reducible refine Keeps.trans ?_ (setFlag_keeps ..)
    | fail_if_no_progress with_reducible refine Keeps.lit ?_ rfl rfl rfl rfl
    | fail_if_no_progress with_reducible refine Keeps.litMod ?_ rfl rfl rfl rfl rfl rfl rfl rfl rfl
    | split
    | fail_if_no_progress dsimp -zeta only
    | refine Keeps.lit ?_ rfl rfl rfl rfl
    | refine Keeps.litMod ?_ rfl rfl rfl rfl rfl rfl rfl rfl rfl
    | refine Keeps.litTo ?_ rfl rfl rfl rfl ⟨nofun, nofun⟩ rfl (fun h => h) rfl rfl)

theorem execSpareAcknowledged_keeps (f : PortFlit) (s : State) : Goes 0x40004012900002 s (execSpareAcknowledged f s) := by
  unfold execSpareAcknowledged
  repeat' (first
    | with_reducible exact Keeps.refl _
    | with_reducible assumption
    | intro _
    | with_reducible refine Goes.next ?_
    | (extract_lets +onlyGivenNames y
       refine Goes.via (y := y) ?_ ?_
       on_goal 2 => (intro _; clear_value y)
       on_goal 1 => (dsimp -zeta only [y]; clear y))
    | with_reducible refine Goes.ite ?_ ?_
    | (extract_lets +onlyGivenNames y
       refine Keeps.via (y := y) ?_ ?_
       on_goal 2 => (intro _; clear_value y)
       on_goal 1 => (dsimp -zeta only [y]; clear y))
    | fail_if_no_progress extract_lets +onlyGivenNames y
    | with_reducible refine Keeps.ite ?_ ?_
    | with_reducible refine Keeps.foldl ?_ ?_ _
    | with_reducible refine Keeps.trans ?_ (onManagement_keeps _ _ _ _ ?_)
    | with_reducible refine Keeps.trans ?_ (modLane_keeps ..)
    | with_reducible refine Keeps.trans ?_ (logLink_keeps ..)
    | with_reducible refine Keeps.trans ?_ (modPort_keeps ..)
    | with_reducible refine Keeps.trans ?_ (setFlag_keeps ..)
    | fail_if_no_progress with_reducible refine Keeps.lit ?_ rfl rfl rfl rfl
    | fail_if_no_progress with_reducible refine Keeps.litMod ?_ rfl rfl rfl rfl rfl rfl rfl rfl rfl
    | split
    | fail_if_no_progress dsimp -zeta only
    | refine Keeps.lit ?_ rfl rfl rfl rfl
    | refine Keeps.litMod ?_ rfl rfl rfl rfl rfl rfl rfl rfl rfl
    | refine Keeps.litTo ?_ rfl rfl rfl rfl ⟨nofun, nofun⟩ rfl (fun h => h) rfl rfl)

theorem execEyeRemeasure_keeps (samples : List (Fin 16 × Fin 9 × Byte × Byte)) (s : State) : Goes 0x100000 s (execEyeRemeasure samples s) := by
  unfold execEyeRemeasure
  repeat' (first
    | with_reducible exact Keeps.refl _
    | with_reducible assumption
    | intro _
    | with_reducible refine Goes.next ?_
    | with_reducible refine Goes.ite ?_ ?_
    | fail_if_no_progress extract_lets +onlyGivenNames y
    | with_reducible refine Keeps.ite ?_ ?_
    | with_reducible refine Keeps.foldl ?_ ?_ _
    | with_reducible refine Keeps.trans ?_ (modLane_keeps ..))

theorem execLaserFault_keeps (b : Fin 5) (s : State) : Goes 0x40004012b00002 s (execLaserFault b s) := by
  unfold execLaserFault
  repeat' (first
    | with_reducible exact Keeps.refl _
    | with_reducible assumption
    | intro _
    | with_reducible refine Goes.next ?_
    | (extract_lets +onlyGivenNames y
       refine Goes.via (y := y) ?_ ?_
       on_goal 2 => (intro _; clear_value y)
       on_goal 1 => (dsimp -zeta only [y]; clear y))
    | with_reducible refine Goes.ite ?_ ?_
    | (extract_lets +onlyGivenNames y
       refine Keeps.via (y := y) ?_ ?_
       on_goal 2 => (intro _; clear_value y)
       on_goal 1 => (dsimp -zeta only [y]; clear y))
    | fail_if_no_progress extract_lets +onlyGivenNames y
    | with_reducible refine Keeps.ite ?_ ?_
    | with_reducible refine Keeps.foldl ?_ ?_ _
    | with_reducible refine Keeps.trans ?_ (pumpPair_keeps ..)
    | with_reducible refine Keeps.trans ?_ (bayFault_keeps ..)
    | with_reducible refine Keeps.trans ?_ (modBay_keeps ..)
    | fail_if_no_progress with_reducible refine Keeps.lit ?_ rfl rfl rfl rfl
    | fail_if_no_progress with_reducible refine Keeps.litMod ?_ rfl rfl rfl rfl rfl rfl rfl rfl rfl
    | split
    | fail_if_no_progress dsimp -zeta only
    | refine Keeps.lit ?_ rfl rfl rfl rfl
    | refine Keeps.litMod ?_ rfl rfl rfl rfl rfl rfl rfl rfl rfl
    | refine Keeps.litTo ?_ rfl rfl rfl rfl ⟨nofun, nofun⟩ rfl (fun h => h) rfl rfl)

theorem execLightReturns_keeps (g : Fin 4) (s : State) : Goes 0x200000 s (execLightReturns g s) := by
  unfold execLightReturns
  repeat' (first
    | with_reducible exact Keeps.refl _
    | with_reducible assumption
    | intro _
    | with_reducible refine Goes.next ?_
    | with_reducible refine Goes.ite ?_ ?_
    | fail_if_no_progress extract_lets +onlyGivenNames y
    | with_reducible refine Keeps.ite ?_ ?_
    | with_reducible refine Keeps.foldl ?_ ?_ _
    | with_reducible refine Keeps.trans ?_ (refreshSpare_keeps ..)
    | with_reducible refine Keeps.trans ?_ (modBay_keeps ..)
    | fail_if_no_progress with_reducible refine Keeps.lit ?_ rfl rfl rfl rfl
    | fail_if_no_progress with_reducible refine Keeps.litMod ?_ rfl rfl rfl rfl rfl rfl rfl rfl rfl
    | split)

theorem enterHold_keeps {F : Nat} (peer : Bool) (p : Nat) (s : State) (hF : Within 0x100000 F := by first | rfl | decide) : Keeps F s (enterHold peer p s) := by
  refine Keeps.mono hF ?_
  unfold enterHold
  repeat' (first
    | with_reducible exact Keeps.refl _
    | with_reducible assumption
    | intro _
    | fail_if_no_progress extract_lets +onlyGivenNames y
    | with_reducible refine Keeps.ite ?_ ?_
    | with_reducible refine Keeps.foldl ?_ ?_ _
    | with_reducible refine Keeps.trans ?_ (modPort_keeps ..))

theorem execLaserRelease_keeps (b : Fin 8) (s : State) : Goes 0x10300004 s (execLaserRelease b s) := by
  unfold execLaserRelease
  repeat' (first
    | with_reducible exact Keeps.refl _
    | with_reducible assumption
    | intro _
    | with_reducible refine Goes.next ?_
    | (extract_lets +onlyGivenNames y
       refine Goes.via (y := y) ?_ ?_
       on_goal 2 => (intro _; clear_value y)
       on_goal 1 => (dsimp -zeta only [y]; clear y))
    | with_reducible refine Goes.ite ?_ ?_
    | (extract_lets +onlyGivenNames y
       refine Keeps.via (y := y) ?_ ?_
       on_goal 2 => (intro _; clear_value y)
       on_goal 1 => (dsimp -zeta only [y]; clear y))
    | fail_if_no_progress extract_lets +onlyGivenNames y
    | with_reducible refine Keeps.ite ?_ ?_
    | with_reducible refine Keeps.foldl ?_ ?_ _
    | with_reducible refine Keeps.trans ?_ (enterHold_keeps ..)
    | with_reducible refine Keeps.trans ?_ (tellPeer_keeps ..)
    | with_reducible refine Keeps.trans ?_ (setReg_keeps ..)
    | fail_if_no_progress with_reducible refine Keeps.lit ?_ rfl rfl rfl rfl
    | fail_if_no_progress with_reducible refine Keeps.litMod ?_ rfl rfl rfl rfl rfl rfl rfl rfl rfl
    | split)

theorem execHoldRequest_keeps (f : PortFlit) (s : State) : Goes 0x40004012900002 s (execHoldRequest f s) := by
  unfold execHoldRequest
  repeat' (first
    | with_reducible exact Keeps.refl _
    | with_reducible assumption
    | intro _
    | with_reducible refine Goes.next ?_
    | (extract_lets +onlyGivenNames y
       refine Goes.via (y := y) ?_ ?_
       on_goal 2 => (intro _; clear_value y)
       on_goal 1 => (dsimp -zeta only [y]; clear y))
    | with_reducible refine Goes.ite ?_ ?_
    | (extract_lets +onlyGivenNames y
       refine Keeps.via (y := y) ?_ ?_
       on_goal 2 => (intro _; clear_value y)
       on_goal 1 => (dsimp -zeta only [y]; clear y))
    | fail_if_no_progress extract_lets +onlyGivenNames y
    | with_reducible refine Keeps.ite ?_ ?_
    | with_reducible refine Keeps.foldl ?_ ?_ _
    | with_reducible refine Keeps.trans ?_ (enterHold_keeps ..)
    | with_reducible refine Keeps.trans ?_ (onManagement_keeps _ _ _ _ ?_)
    | fail_if_no_progress with_reducible refine Keeps.lit ?_ rfl rfl rfl rfl
    | fail_if_no_progress with_reducible refine Keeps.litMod ?_ rfl rfl rfl rfl rfl rfl rfl rfl rfl
    | split
    | fail_if_no_progress dsimp -zeta only
    | refine Keeps.lit ?_ rfl rfl rfl rfl
    | refine Keeps.litMod ?_ rfl rfl rfl rfl rfl rfl rfl rfl rfl
    | refine Keeps.litTo ?_ rfl rfl rfl rfl ⟨nofun, nofun⟩ rfl (fun h => h) rfl rfl)

theorem execLaserTransfer_keeps (s : State) : Goes 0x40004012b00002 s (execLaserTransfer s) := by
  unfold execLaserTransfer
  repeat' (first
    | with_reducible exact Keeps.refl _
    | with_reducible assumption
    | intro _
    | with_reducible refine Goes.next ?_
    | with_reducible refine Goes.ite ?_ ?_
    | fail_if_no_progress extract_lets +onlyGivenNames y
    | with_reducible refine Keeps.ite ?_ ?_
    | with_reducible refine Keeps.foldl ?_ ?_ _
    | with_reducible refine Keeps.trans ?_ (pumpPair_keeps ..)
    | with_reducible refine Keeps.trans ?_ (endTransfer_keeps ..)
    | with_reducible refine Keeps.trans ?_ (refreshSpare_keeps ..)
    | with_reducible refine Keeps.trans ?_ (modBay_keeps ..)
    | with_reducible refine Keeps.trans ?_ (logEntry_keeps ..)
    | fail_if_no_progress with_reducible refine Keeps.lit ?_ rfl rfl rfl rfl
    | fail_if_no_progress with_reducible refine Keeps.litMod ?_ rfl rfl rfl rfl rfl rfl rfl rfl rfl
    | split)

theorem execHoldTimeout_keeps (p : Fin 16) (s : State) : Goes 0x40004012900002 s (execHoldTimeout p s) := by
  unfold execHoldTimeout
  repeat' (first
    | with_reducible exact Keeps.refl _
    | with_reducible assumption
    | intro _
    | with_reducible refine Goes.next ?_
    | with_reducible refine Goes.ite ?_ ?_
    | fail_if_no_progress extract_lets +onlyGivenNames y
    | with_reducible refine Keeps.ite ?_ ?_
    | with_reducible refine Keeps.foldl ?_ ?_ _
    | with_reducible refine Keeps.trans ?_ (linkLost_keeps ..))

theorem execBayInserted_keeps (b : Fin 5) (healthy : Bool) (temp power : Byte) (s : State) : Goes 0x200000 s (execBayInserted b healthy temp power s) := by
  unfold execBayInserted
  repeat' (first
    | with_reducible exact Keeps.refl _
    | with_reducible assumption
    | intro _
    | with_reducible refine Goes.next ?_
    | with_reducible refine Goes.ite ?_ ?_
    | fail_if_no_progress extract_lets +onlyGivenNames y
    | with_reducible refine Keeps.ite ?_ ?_
    | with_reducible refine Keeps.foldl ?_ ?_ _
    | with_reducible refine Keeps.trans ?_ (refreshSpare_keeps ..)
    | with_reducible refine Keeps.trans ?_ (modBay_keeps ..))

theorem execBayInterlockOpen_keeps (b : Fin 5) (s : State) : Goes 0x40004012b00002 s (execBayInterlockOpen b s) := by
  unfold execBayInterlockOpen
  repeat' (first
    | with_reducible exact Keeps.refl _
    | with_reducible assumption
    | intro _
    | with_reducible refine Goes.next ?_
    | (extract_lets +onlyGivenNames y
       refine Goes.via (y := y) ?_ ?_
       on_goal 2 => (intro _; clear_value y)
       on_goal 1 => (dsimp -zeta only [y]; clear y))
    | with_reducible refine Goes.ite ?_ ?_
    | (extract_lets +onlyGivenNames y
       refine Keeps.via (y := y) ?_ ?_
       on_goal 2 => (intro _; clear_value y)
       on_goal 1 => (dsimp -zeta only [y]; clear y))
    | fail_if_no_progress extract_lets +onlyGivenNames y
    | with_reducible refine Keeps.ite ?_ ?_
    | with_reducible refine Keeps.foldl ?_ ?_ _
    | with_reducible refine Keeps.trans ?_ (pumpPair_keeps ..)
    | with_reducible refine Keeps.trans ?_ (bayFault_keeps ..)
    | with_reducible refine Keeps.trans ?_ (refreshSpare_keeps ..)
    | with_reducible refine Keeps.trans ?_ (modBay_keeps ..)
    | fail_if_no_progress with_reducible refine Keeps.lit ?_ rfl rfl rfl rfl
    | fail_if_no_progress with_reducible refine Keeps.litMod ?_ rfl rfl rfl rfl rfl rfl rfl rfl rfl
    | split
    | fail_if_no_progress dsimp -zeta only
    | refine Keeps.lit ?_ rfl rfl rfl rfl
    | refine Keeps.litMod ?_ rfl rfl rfl rfl rfl rfl rfl rfl rfl
    | refine Keeps.litTo ?_ rfl rfl rfl rfl ⟨nofun, nofun⟩ rfl (fun h => h) rfl rfl)

theorem execRetrain_keeps (p : Fin 16) (s : State) : Goes 0x40004012900002 s (execRetrain p s) := by
  unfold execRetrain
  repeat' (first
    | with_reducible exact Keeps.refl _
    | with_reducible assumption
    | intro _
    | with_reducible refine Goes.next ?_
    | with_reducible refine Goes.ite ?_ ?_
    | fail_if_no_progress extract_lets +onlyGivenNames y
    | with_reducible refine Keeps.ite ?_ ?_
    | with_reducible refine Keeps.foldl ?_ ?_ _
    | with_reducible refine Keeps.trans ?_ (retrainPort_keeps ..))

theorem execPortReset_keeps (p : Fin 16) (s : State) : Goes 0x40004012900002 s (execPortReset p s) := by
  unfold execPortReset
  repeat' (first
    | with_reducible exact Keeps.refl _
    | with_reducible assumption
    | intro _
    | with_reducible refine Goes.next ?_
    | (extract_lets +onlyGivenNames y
       refine Goes.via (y := y) ?_ ?_
       on_goal 2 => (intro _; clear_value y)
       on_goal 1 => (dsimp -zeta only [y]; clear y))
    | with_reducible refine Goes.ite ?_ ?_
    | (extract_lets +onlyGivenNames y
       refine Keeps.via (y := y) ?_ ?_
       on_goal 2 => (intro _; clear_value y)
       on_goal 1 => (dsimp -zeta only [y]; clear y))
    | fail_if_no_progress extract_lets +onlyGivenNames y
    | with_reducible refine Keeps.ite ?_ ?_
    | with_reducible refine Keeps.foldl ?_ ?_ _
    | with_reducible refine Keeps.trans ?_ (breakArrivals_keeps ..)
    | with_reducible refine Keeps.trans ?_ (requeue_keeps ..)
    | with_reducible refine Keeps.trans ?_ (tellPeer_keeps ..)
    | with_reducible refine Keeps.trans ?_ (modPort_keeps ..)
    | fail_if_no_progress with_reducible refine Keeps.lit ?_ rfl rfl rfl rfl
    | fail_if_no_progress with_reducible refine Keeps.litMod ?_ rfl rfl rfl rfl rfl rfl rfl rfl rfl
    | split
    | fail_if_no_progress dsimp -zeta only
    | refine Keeps.lit ?_ rfl rfl rfl rfl
    | refine Keeps.litMod ?_ rfl rfl rfl rfl rfl rfl rfl rfl rfl
    | refine Keeps.litTo ?_ rfl rfl rfl rfl ⟨nofun, nofun⟩ rfl (fun h => h) rfl rfl)

theorem followEnable_keeps {F : Nat} (en p : Nat) (s : State) (hF : Within 0x40084012900022 F := by first | rfl | decide) : Keeps F s (followEnable en p s) := by
  refine Keeps.mono hF ?_
  unfold followEnable
  exact Keeps.ite (Keeps.ite (startTraining_keeps ..) (Keeps.refl s))
    (Keeps.ite (Keeps.refl s) ((leaveLink_keeps ..).trans (portReloaded_keeps ..)))

theorem checkLanes_keeps {F : Nat} (p : Nat) (s : State) (hF : Within 0x40004012900002 F := by first | rfl | decide) : Keeps F s (checkLanes p s) := by
  refine Keeps.mono hF ?_
  unfold checkLanes
  repeat' (first
    | with_reducible exact Keeps.refl _
    | with_reducible assumption
    | intro _
    | fail_if_no_progress extract_lets +onlyGivenNames y
    | with_reducible refine Keeps.ite ?_ ?_
    | with_reducible refine Keeps.foldl ?_ ?_ _
    | with_reducible refine Keeps.trans ?_ (linkLost_keeps ..))

theorem execOptCtrlWrite_keeps (value : Word) (s : State) : Goes 0x40084012900026 s (execOptCtrlWrite value s) := by
  unfold execOptCtrlWrite
  repeat' (first
    | with_reducible exact Keeps.refl _
    | with_reducible assumption
    | intro _
    | with_reducible refine Goes.next ?_
    | with_reducible refine Goes.ite ?_ ?_
    | fail_if_no_progress extract_lets +onlyGivenNames y
    | with_reducible refine Keeps.ite ?_ ?_
    | with_reducible refine Keeps.foldl ?_ ?_ _
    | with_reducible refine Keeps.trans ?_ (checkLanes_keeps ..)
    | with_reducible refine Keeps.trans ?_ (followEnable_keeps ..)
    | with_reducible refine Keeps.trans ?_ (setReg_keeps ..))

theorem execOptSelfWrite_keeps (value : Word) (s : State) : Goes 0x4 s (execOptSelfWrite value s) := by
  unfold execOptSelfWrite
  repeat' (first
    | with_reducible exact Keeps.refl _
    | with_reducible assumption
    | intro _
    | with_reducible refine Goes.next ?_
    | with_reducible refine Goes.ite ?_ ?_
    | fail_if_no_progress extract_lets +onlyGivenNames y
    | with_reducible refine Keeps.ite ?_ ?_
    | with_reducible refine Keeps.foldl ?_ ?_ _
    | with_reducible refine Keeps.trans ?_ (setReg_keeps ..))

end Sys2Proof.Machine
end

