-- ==== Sys2Proof/Laws/KeepsRegisters.lean ====
section
/-!
SUPPORT. What the operations of Machine/Registers.lean keep.
-/
set_option Elab.async false

namespace Sys2Proof.Machine

theorem drwEvt_keeps {F : Nat} (f : StatusReg → StatusReg) (s : State) (hF : F.testBit 33 = true := by first | rfl | decide) :
    Keeps F s { s with flags := tabMod {} s.flags Block.drw.code f } := by
  refine ⟨?_, Tables.of, rfl, id, id, id, id, id, id, id, Nat.le_refl _, rfl, rfl⟩
  intro p hp
  cases p
  case flags c =>
    refine tabGet_tabSet_ne _ _ _ _ _ ?_
    intro e
    rw [Area.bit, e, show 32 + Block.drw.code = 33 from rfl, hF] at hp
    cases hp
  case counters => exact fun _ _ => rfl
  all_goals first | exact rfl | exact ⟨rfl, rfl⟩ | exact ⟨rfl, rfl, rfl, rfl, rfl, rfl⟩

theorem wornBit_keeps {F : Nat} (d : Nat) (coincide : Bool) (s : State) (hF : Within 0x200010000 F := by first | rfl | decide) :
    Keeps F s (wornBit d coincide s) := by
  refine Keeps.mono hF ?_
  unfold wornBit
  refine Keeps.ite ?_ (modDrawer_keeps ..)
  exact (modDrawer_keeps d (fun w => { w with worn := true }) s).trans (drwEvt_keeps ..)

theorem execW1cWrite_keeps (off : BitVec 26) (value coincide : DWord) (s : State) : Goes 0x1fff00010000 s (execW1cWrite off value coincide s) := by
  unfold execW1cWrite
  repeat' (first
    | with_reducible exact Keeps.refl _
    | with_reducible assumption
    | intro _
    | with_reducible refine Goes.next ?_
    | (extract_lets +onlyGivenNames y
       refine Goes.via (y := y) ?_ ?_
       on_goal 2 => (intro _; clear_value y)
       on_goal 1 => (dsimp -zeta only [y]; clear y))
    | with_reducible refine Goes.ite ?_ ?_
    | (extract_lets +onlyGivenNames y
       refine Keeps.via (y := y) ?_ ?_
       on_goal 2 => (intro _; clear_value y)
       on_goal 1 => (dsimp -zeta only [y]; clear y))
    | fail_if_no_progress extract_lets +onlyGivenNames y
    | with_reducible refine Keeps.ite ?_ ?_
    | with_reducible refine Keeps.foldl ?_ ?_ _
    | with_reducible refine Keeps.trans ?_ (wornBit_keeps ..)
    | fail_if_no_progress with_reducible refine Keeps.lit ?_ rfl rfl rfl rfl
    | fail_if_no_progress with_reducible refine Keeps.litMod ?_ rfl rfl rfl rfl rfl rfl rfl rfl rfl
    | split
    | fail_if_no_progress dsimp -zeta only
    | refine Keeps.lit ?_ rfl rfl rfl rfl
    | refine Keeps.litMod ?_ rfl rfl rfl rfl rfl rfl rfl rfl rfl
    | refine Keeps.litTo ?_ rfl rfl rfl rfl ⟨nofun, nofun⟩ rfl (fun h => h) rfl rfl)

theorem execEventCounterWrite_keeps (off : BitVec 26) (value : Word) (s : State) : Goes 0x1fff00000000 s (execEventCounterWrite off value s) := by
  unfold execEventCounterWrite
  repeat' (first
    | with_reducible exact Keeps.refl _
    | with_reducible assumption
    | intro _
    | with_reducible refine Goes.next ?_
    | (extract_lets +onlyGivenNames y
       refine Goes.via (y := y) ?_ ?_
       on_goal 2 => (intro _; clear_value y)
       on_goal 1 => (dsimp -zeta only [y]; clear y))
    | with_reducible refine Goes.ite ?_ ?_
    | (extract_lets +onlyGivenNames y
       refine Keeps.via (y := y) ?_ ?_
       on_goal 2 => (intro _; clear_value y)
       on_goal 1 => (dsimp -zeta only [y]; clear y))
    | fail_if_no_progress extract_lets +onlyGivenNames y
    | with_reducible refine Keeps.ite ?_ ?_
    | with_reducible refine Keeps.foldl ?_ ?_ _
    | fail_if_no_progress with_reducible refine Keeps.lit ?_ rfl rfl rfl rfl
    | fail_if_no_progress with_reducible refine Keeps.litMod ?_ rfl rfl rfl rfl rfl rfl rfl rfl rfl
    | split
    | fail_if_no_progress dsimp -zeta only
    | refine Keeps.lit ?_ rfl rfl rfl rfl
    | refine Keeps.litMod ?_ rfl rfl rfl rfl rfl rfl rfl rfl rfl
    | refine Keeps.litTo ?_ rfl rfl rfl rfl ⟨nofun, nofun⟩ rfl (fun h => h) rfl rfl)

theorem writeScan_keeps {F : Nat} (j n v : Nat) (s : State) (hF : Within 0x4 F := by first | rfl | decide) : Keeps F s (writeScan j n v s) := by
  refine Keeps.mono hF ?_
  unfold writeScan
  repeat' (first
    | with_reducible exact Keeps.refl _
    | with_reducible assumption
    | intro _
    | fail_if_no_progress extract_lets +onlyGivenNames y
    | with_reducible refine Keeps.ite ?_ ?_
    | with_reducible refine Keeps.foldl ?_ ?_ _
    | with_reducible refine Keeps.trans ?_ (setReg_keeps ..))

theorem writeOwners_keeps {F : Nat} (ctx j n v : Nat) (s : State) (hF : Within 0x4 F := by first | rfl | decide) : Keeps F s (writeOwners ctx j n v s) := by
  refine Keeps.mono hF ?_
  unfold writeOwners
  repeat' (first
    | with_reducible exact Keeps.refl _
    | with_reducible assumption
    | intro _
    | fail_if_no_progress extract_lets +onlyGivenNames y
    | with_reducible refine Keeps.ite ?_ ?_
    | with_reducible refine Keeps.foldl ?_ ?_ _
    | with_reducible refine Keeps.trans ?_ (setReg_keeps ..))

theorem arrayWrite_keeps {F : Nat} {off n v : Nat} {f : State → State} (h : arrayWrite off n v = some f) (s : State) (hF : Within 0x4 F := by first | rfl | decide) : Keeps F s (f s) := by
  refine Keeps.mono hF ?_
  unfold arrayWrite at h
  split at h
  · cases h; exact writeScan_keeps ..
  · split at h
    · cases h; exact writeOwners_keeps ..
    · cases h

theorem writePeer_keeps {F : Nat} (i v : Nat) (s : State) (hF : Within 0x400000 F := by first | rfl | decide) : Keeps F s (writePeer i v s) := by
  refine Keeps.mono hF ?_
  unfold writePeer
  repeat' (first
    | with_reducible exact Keeps.refl _
    | with_reducible assumption
    | intro _
    | fail_if_no_progress extract_lets +onlyGivenNames y
    | with_reducible refine Keeps.ite ?_ ?_
    | with_reducible refine Keeps.foldl ?_ ?_ _
    | fail_if_no_progress with_reducible refine Keeps.lit ?_ rfl rfl rfl rfl)

theorem writeDoor_keeps {F : Nat} (ctx o v : Nat) (s : State) (hF : Within 0x40 F := by first | rfl | decide) : Keeps F s (writeDoor ctx o v s) := by
  refine Keeps.mono hF ?_
  unfold writeDoor
  repeat' (first
    | with_reducible exact Keeps.refl _
    | with_reducible assumption
    | intro _
    | fail_if_no_progress extract_lets +onlyGivenNames y
    | with_reducible refine Keeps.ite ?_ ?_
    | with_reducible refine Keeps.foldl ?_ ?_ _
    | with_reducible refine Keeps.trans ?_ (modRing_keeps ..)
    | with_reducible refine Keeps.trans ?_ (modDoor_keeps ..))

theorem execRegisterWrite_keeps (fn : Fin 16) (off : BitVec 26) (wide : Bool) (value : DWord) (s : State) :
    Goes 0x100010040004e s (execRegisterWrite fn off wide value s) := by
  unfold execRegisterWrite
  extract_lets o v n bad ctx
  have hb : Keeps 0x100010040004e s bad := badAccess_keeps ..
  clear_value bad
  refine Goes.ite (Goes.next (Keeps.refl s)) (Goes.ite (Goes.next hb) (Goes.ite ?_ (Goes.ite (Goes.next (Keeps.refl s)) ?_)))
  · exact Goes.ite (Goes.next hb) (Goes.ite (Goes.next (Keeps.refl s)) (Goes.next (writeDoor_keeps ..)))
  · split
    · rename_i f hf
      exact Goes.next (arrayWrite_keeps hf s)
    · refine Goes.ite (Goes.ite (Goes.next (writePeer_keeps ..)) (Goes.next hb)) (Goes.ite (Goes.next hb) ?_)
      split
      · exact Goes.next (Keeps.ite (writeNstCtrl_keeps ..) (setReg_keeps ..))
      · exact Goes.next (Keeps.refl s)

end Sys2Proof.Machine
end

