-- ==== Sys2Proof/Laws/Exec.lean ====
section
/-!
SUPPORT. Every command goes on; what it may change, and what it keeps: all but seven keep what `Keeps` says, and those seven what
`Safe` says.
-/
set_option Elab.async false

namespace Sys2Proof.Machine

/-- A list of parts as a set. -/
def maskOf : List Area → Nat
  | [] => 0
  | p :: ps => 2 ^ p.bit ||| maskOf ps

theorem Area.bit_inj {p q : Area} (h : p.bit = q.bit) : p = q := by
  have hc : ∀ b : Block, b.code < 13 := by intro b; cases b <;> decide
  have hi : ∀ {b c : Block}, b.code = c.code → b = c := by intro b c; cases b <;> cases c <;> simp [Block.code]
  cases p <;> cases q <;> simp only [Area.bit] at h
  all_goals first
    | rfl
    | (exfalso; omega)
    | (exfalso; have := hc ‹Block›; omega)
    | (rename_i b c; have := hc b; have := hc c; first | (exfalso; omega) | (rw [hi (Nat.add_left_cancel h)]))

/-- A part outside a list is outside its set. -/
theorem maskOf_out {l : List Area} {p : Area} (h : p ∉ l) : (maskOf l).testBit p.bit = false := by
  induction l with
  | nil => exact Nat.zero_testBit _
  | cons q l ih =>
    rw [List.mem_cons, not_or] at h
    rw [maskOf, Nat.testBit_or, ih h.2, Bool.or_false, Nat.testBit_two_pow_of_ne]
    exact fun e => h.1 (Area.bit_inj e.symm)

/-- The seven commands that give the Stack or Nightstand a new start, or take back a mark, a lock or the reset times. -/
def startsOver : Instr → Bool
  | .standbyPowerApplied _ => true
  | .standbyPowerLost => true
  | .inputOvervoltage => true
  | .releaseRetirement => true
  | .rootPllLocked => true
  | .clearOwnerLock => true
  | .rdxAdmit _ => true
  | _ => false

open Safety in
/-- Every other command goes on, changes only its own parts, and keeps what `Keeps` says. -/
theorem exec_keeps (c : Instr) (s : State) (h : startsOver c = false) : Goes (maskOf (changes c)) s (exec c s) :=
  match c, h with
  | .powerOnRequest _, _ => (execPowerOnRequest_keeps ..).mono
      (show Within 0x100010001000000b (maskOf [.module, .log, .nightstand, .output, .flags .pwr, .counters .pwr]) from by decide)
  | .powerOffRequest, _ => (execPowerOffRequest_keeps ..).mono
      (show Within 0x9ff09ff1ffff7ff (maskOf (allBut [.retirements, .flags .nst, .flags .rcv, .flags .pwr, .counters .nst,
      .counters .rcv, .counters .pwr])) from by decide)
  | .mainRailsUp, _ => (execMainRailsUp_keeps ..).mono (show Within 0x1 (maskOf [.module]) from by decide)
  | .fillComplete, _ => (execFillComplete_keeps ..).mono
      (show Within 0x605 (maskOf [.module, .registers, .memory, .errors]) from by decide)
  | .bootImageChecked _, _ => (execBootImageChecked_keeps ..).mono
      (show Within 0x80000000027 (maskOf [.module, .log, .registers, .firmware, .flags .fwu]) from by decide)
  | .bootComplete, _ => (execBootComplete_keeps ..).mono
      (show Within 0x40004012900017 (maskOf (linkWork ++ [.module, .registers, .recovery])) from by decide)
  | .rootPllLossOfLock, _ => (execRootPllLossOfLock_keeps ..).mono
      (show Within 0x9ff09ff1ffff7ff (maskOf (allBut [.retirements, .flags .nst, .flags .rcv, .flags .pwr, .counters .nst,
      .counters .rcv, .counters .pwr])) from by decide)
  | .refclkLost, _ => (execRefclkLost_keeps ..).mono
      (show Within 0x9ff1bff1ffff7ff (maskOf (allBut [.retirements, .flags .rcv, .counters .nst, .counters .rcv, .counters .pwr]))
      from by decide)
  | .refclkRestored, _ => (execRefclkRestored_keeps ..).mono (show Within 0x1 (maskOf [.module]) from by decide)
  | .perstAssert, _ => (execPerstAssert_keeps ..).mono
      (show Within 0x5f715f7159ff7e7 (maskOf (contexts ++ [.functions, .flags .pwr])) from by decide)
  | .perstDeassert, _ => (execPerstDeassert_keeps ..).mono (show Within 0x1 (maskOf [.module]) from by decide)
  | .pcieLinkLoss _, _ => (execPcieLinkLoss_keeps ..).mono
      (show Within 0x5f715f7159ff7e7 (maskOf (contexts ++ [.functions, .flags .pwr])) from by decide)
  | .pwrHoldChange _, _ => (execPwrHoldChange_keeps ..).mono
      (show Within 0x100000000003 (maskOf [.module, .log, .flags .pwr]) from by decide)
  | .mctpWarmReset, _ => (execMctpWarmReset_keeps ..).mono
      (show Within 0x9ff0dff1ffff7ff (maskOf (allBut [.retirements, .flags .nst, .flags .pwr, .counters .nst, .counters .rcv,
      .counters .pwr])) from by decide)
  | .mctpColdReset, _ => (execMctpColdReset_keeps ..).mono
      (show Within 0x9ff0dff1ffff7ff (maskOf (allBut [.retirements, .flags .nst, .flags .pwr, .counters .nst, .counters .rcv,
      .counters .pwr])) from by decide)
  | .setOwnerLock, _ => (execSetOwnerLock_keeps ..).mono (show Within 0x10000020 (maskOf [.firmware, .output]) from by decide)
  | .writeProvisioningRecord _, _ => (execWriteProvisioningRecord_keeps ..).mono
      (show Within 0x10000020 (maskOf [.firmware, .output]) from by decide)
  | .fwuOwnerSet, _ => (execFwuOwnerSet_keeps ..).mono (show Within 0x20 (maskOf [.firmware]) from by decide)
  | .pldmGetSensorReading _, _ => (execPldmGetSensorReading_keeps ..).mono
      (show Within 0x10000000 (maskOf [.output]) from by decide)
  | .monitorConversion _ _, _ => (execMonitorConversion_keeps ..).mono
      (show Within 0xbff1bff1ffff7ff (maskOf (allBut [.retirements, .flags .rcv, .counters .rcv, .counters .pwr])) from by decide)
  | .nstAdcStart, _ => (execNstAdcStart_keeps ..).mono (show Within 0x8 (maskOf [.nightstand]) from by decide)
  | .powerMsBoundary, _ => (execPowerMsBoundary_keeps ..).mono
      (show Within 0x2000000000a (maskOf [.log, .nightstand, .flags .nst]) from by decide)
  | .throttleSourceTimer _ _, _ => (execThrottleSourceTimer_keeps ..).mono
      (show Within 0x2000000000a (maskOf [.log, .nightstand, .flags .nst]) from by decide)
  | .nstRuleWrite _ _, _ => (execNstRuleWrite_keeps ..).mono
      (show Within 0x2000000000e (maskOf [.log, .registers, .nightstand, .flags .nst]) from by decide)
  | .nstThrottleCapWrite _, _ => (execNstThrottleCapWrite_keeps ..).mono
      (show Within 0x2000000000e (maskOf [.log, .registers, .nightstand, .flags .nst]) from by decide)
  | .hutchHeartbeat, _ => (execHutchHeartbeat_keeps ..).mono (show Within 0x10 (maskOf [.recovery]) from by decide)
  | .hutchHeartbeatMiss, _ => (execHutchHeartbeatMiss_keeps ..).mono
      (show Within 0xdff0dff1ffff7ff (maskOf (allBut [.retirements, .flags .nst, .flags .pwr, .counters .nst, .counters .pwr]))
      from by decide)
  | .hutchRestoreTimeout, _ => (execHutchRestoreTimeout_keeps ..).mono
      (show Within 0x9ff0dff1ffff7ff (maskOf (allBut [.retirements, .flags .nst, .flags .pwr, .counters .nst, .counters .rcv,
      .counters .pwr])) from by decide)
  | .deviceWarmReset _ _, _ => (execDeviceWarmReset_keeps ..).mono
      (show Within 0x9ff0dff1ffff7ff (maskOf (allBut [.retirements, .flags .nst, .flags .pwr, .counters .nst, .counters .rcv,
      .counters .pwr])) from by decide)
  | .deviceColdReset _, _ => (execDeviceColdReset_keeps ..).mono
      (show Within 0x9ff0dff1ffff7ff (maskOf (allBut [.retirements, .flags .nst, .flags .pwr, .counters .nst, .counters .rcv,
      .counters .pwr])) from by decide)
  | .dumpClear, _ => (execDumpClear_keeps ..).mono (show Within 0x10 (maskOf [.recovery]) from by decide)
  | .contextStepWatchdog _ _, _ => (execContextStepWatchdog_keeps ..).mono
      (show Within 0x461046115948046 (maskOf (exchange ++ [.registers, .doors, .maps, .groups, .units, .flags .hif, .flags .rcv,
      .counters .hif, .counters .rcv])) from by decide)
  | .contextReset _ _, _ => (execContextReset_keeps ..).mono (show Within 0x5f705f7159ff767 (maskOf contexts) from by decide)
  | .hifRingTailWrite _ _ _ _, _ => (execHifRingTailWrite_keeps ..).mono
      (show Within 0x100000042 (maskOf [.log, .doors, .flags .hif]) from by decide)
  | .hifRingCtrlWrite _ _ _ _, _ => (execHifRingCtrlWrite_keeps ..).mono (show Within 0x40 (maskOf [.doors]) from by decide)
  | .hifHistCtrlWrite _ _ _, _ => (execHifHistCtrlWrite_keeps ..).mono (show Within 0x40 (maskOf [.doors]) from by decide)
  | .hifHistConsumedWrite _ _ _, _ => (execHifHistConsumedWrite_keeps ..).mono
      (show Within 0x40 (maskOf [.doors]) from by decide)
  | .hifSemWrite _ _ _ _, _ => (execHifSemWrite_keeps ..).mono (show Within 0x1000010048040 (maskOf completion) from by decide)
  | .hifApertureWrite _, _ => (execHifApertureWrite_keeps ..).mono (show Within 0x4 (maskOf [.registers]) from by decide)
  | .bar2Read _ _, _ => (execBar2Read_keeps ..).mono
      (show Within 0x81008110000442 (maskOf (reading ++ [.doors, .output, .flags .hif, .counters .hif])) from by decide)
  | .bar2Write _ _, _ => (execBar2Write_keeps ..).mono
      (show Within 0x81008100000602 (maskOf (reading ++ [.memory, .flags .hif, .counters .hif])) from by decide)
  | .bar0BadAccess _ _ _, _ => (execBar0BadAccess_keeps ..).mono
      (show Within 0x1000110000002 (maskOf [.log, .output, .flags .hif, .counters .hif]) from by decide)
  | .vfEnableSet _, _ => (execVfEnableSet_keeps ..).mono
      (show Within 0x5f705f7159ff7e7 (maskOf (contexts ++ [.functions])) from by decide)
  | .vfEnableClear, _ => (execVfEnableClear_keeps ..).mono
      (show Within 0x5f705f7159ff7e7 (maskOf (contexts ++ [.functions])) from by decide)
  | .functionLevelReset _, _ => (execFunctionLevelReset_keeps ..).mono
      (show Within 0x5f705f7159ff7e7 (maskOf (contexts ++ [.functions])) from by decide)
  | .descriptorFetch _ _ _, _ => (execDescriptorFetch_keeps ..).mono
      (show Within 0x1000110048042 (maskOf (completion ++ [.log, .flags .hif])) from by decide)
  | .hifNop _ _, _ => (execHifNop_keeps ..).mono (show Within 0x81008010048442 (maskOf (completion ++ reading)) from by decide)
  | .hifCopy _ _, _ => (execHifCopy_keeps ..).mono
      (show Within 0x81008010048542 (maskOf (completion ++ reading ++ [.copies])) from by decide)
  | .copyDone _ _ _ _ _, _ => (execCopyDone_keeps ..).mono
      (show Within 0x81008110048742 (maskOf (completion ++ reading ++ [.copies, .memory, .flags .hif])) from by decide)
  | .w1cWrite _ _ _, _ => (execW1cWrite_keeps ..).mono
      (show Within 0x1fff00010000 (maskOf [.drawers, .flags .hif, .flags .drw, .flags .pln, .flags .trs, .flags .drs, .flags .rdx,
      .flags .opt, .flags .mem, .flags .cal, .flags .nst, .flags .rcv, .flags .fwu, .flags .pwr]) from by decide)
  | .eventCounterWrite _ _, _ => (execEventCounterWrite_keeps ..).mono
      (show Within 0x1fff00000000 (maskOf [.flags .hif, .flags .drw, .flags .pln, .flags .trs, .flags .drs, .flags .rdx, .flags
      .opt, .flags .mem, .flags .cal, .flags .nst, .flags .rcv, .flags .fwu, .flags .pwr]) from by decide)
  | .registerWrite _ _ _ _, _ => (execRegisterWrite_keeps ..).mono
      (show Within 0x100010040004e (maskOf [.log, .registers, .nightstand, .doors, .peers, .flags .hif, .counters .hif]) from by
      decide)
  | .drwProduct _ _, _ => (execDrwProduct_keeps ..).mono
      (show Within 0x83008710058642 (maskOf (completion ++ reading ++ [.memory, .drawers, .flags .hif, .flags .drw, .flags .pln,
      .counters .drw])) from by decide)
  | .drwReadRows _ _, _ => (execDrwReadRows_keeps ..).mono
      (show Within 0x83008710058642 (maskOf (completion ++ reading ++ [.memory, .drawers, .flags .hif, .flags .drw, .flags .pln,
      .counters .drw])) from by decide)
  | .drwReadCols _ _, _ => (execDrwReadCols_keeps ..).mono
      (show Within 0x83008710058642 (maskOf (completion ++ reading ++ [.memory, .drawers, .flags .hif, .flags .drw, .flags .pln,
      .counters .drw])) from by decide)
  | .drwConversionDone _ _, _ => (execDrwConversionDone_keeps ..).mono
      (show Within 0x83008710058642 (maskOf (completion ++ reading ++ [.memory, .drawers, .flags .hif, .flags .drw, .flags .pln,
      .counters .drw])) from by decide)
  | .drwProductWatchdog _, _ => (execDrwProductWatchdog_keeps ..).mono
      (show Within 0x5830587100f8662 (maskOf (completion ++ reading ++ [.firmware, .memory, .drawers, .chests, .calibration,
      .flags .hif, .flags .drw, .flags .pln, .flags .cal, .flags .rcv, .counters .drw, .counters .cal, .counters .rcv])) from by
      decide)
  | .drwMapWrite _ _ _, _ => (execDrwMapWrite_keeps ..).mono
      (show Within 0x1000100040002 (maskOf [.log, .maps, .flags .hif, .counters .hif]) from by decide)
  | .plnTarget _ _, _ => (execPlnTarget_keeps ..).mono
      (show Within 0x81008010068442 (maskOf (completion ++ reading ++ [.chests])) from by decide)
  | .targetUnitDone _, _ => (execTargetUnitDone_keeps ..).mono
      (show Within 0x81008010068642 (maskOf (completion ++ reading ++ [.memory, .chests])) from by decide)
  | .plnProgram _ _, _ => (execPlnProgram_keeps ..).mono
      (show Within 0x81008010068442 (maskOf (completion ++ reading ++ [.chests])) from by decide)
  | .plnLaneStart _, _ => (execPlnLaneStart_keeps ..).mono
      (show Within 0x81008010078462 (maskOf (completion ++ reading ++ [.firmware, .drawers, .chests])) from by decide)
  | .programBindingEnd _ _, _ => (execProgramBindingEnd_keeps ..).mono (show Within 0x20000 (maskOf [.chests]) from by decide)
  | .programPreReadDone _ _ _, _ => (execProgramPreReadDone_keeps ..).mono
      (show Within 0x85008410078667 (maskOf (completion ++ reading ++ [.module, .registers, .firmware, .memory, .drawers, .chests,
      .maps, .flags .pln, .counters .pln])) from by decide)
  | .programPulse _ _ _, _ => (execProgramPulse_keeps ..).mono
      (show Within 0x4000000030000 (maskOf [.drawers, .chests, .counters .pln]) from by decide)
  | .programVerifyRead _ _ _, _ => (execProgramVerifyRead_keeps ..).mono
      (show Within 0x85008410078667 (maskOf (completion ++ reading ++ [.module, .registers, .firmware, .memory, .drawers, .chests,
      .maps, .flags .pln, .counters .pln])) from by decide)
  | .programClosingRead _ _ _, _ => (execProgramClosingRead_keeps ..).mono
      (show Within 0x85008410078667 (maskOf (completion ++ reading ++ [.module, .registers, .firmware, .memory, .drawers, .chests,
      .maps, .flags .pln, .counters .pln])) from by decide)
  | .programRowWatchdog _ _, _ => (execProgramRowWatchdog_keeps ..).mono
      (show Within 0x5850587100f8462 (maskOf (completion ++ reading ++ [.firmware, .drawers, .chests, .calibration, .flags .hif,
      .flags .drw, .flags .pln, .flags .cal, .flags .rcv, .counters .pln, .counters .cal, .counters .rcv])) from by decide)
  | .plnImage _ _, _ => (execPlnImage_keeps ..).mono
      (show Within 0x83008710058642 (maskOf (completion ++ reading ++ [.memory, .drawers, .flags .hif, .flags .drw, .flags .pln,
      .counters .drw])) from by decide)
  | .plnRemapCol _ _, _ => (execPlnRemapCol_keeps ..).mono
      (show Within 0x81008010068442 (maskOf (completion ++ reading ++ [.chests])) from by decide)
  | .trsMatmul _ _, _ => (execTrsMatmul_keeps ..).mono
      (show Within 0x8100811004a442 (maskOf (completion ++ reading ++ [.trestle, .flags .hif])) from by decide)
  | .trsTileDone _, _ => (execTrsTileDone_keeps ..).mono
      (show Within 0x8900891004a642 (maskOf (completion ++ reading ++ [.memory, .trestle, .flags .hif, .flags .trs, .counters
      .trs])) from by decide)
  | .trsWatchdog _, _ => (execTrsWatchdog_keeps ..).mono
      (show Within 0x40904091004a046 (maskOf (completion ++ [.log, .registers, .trestle, .flags .hif, .flags .trs, .flags .rcv,
      .counters .trs, .counters .rcv])) from by decide)
  | .drsLaunch _ _, _ => (execDrsLaunch_keeps ..).mono
      (show Within 0x8100801004c442 (maskOf (completion ++ reading ++ [.dresser])) from by decide)
  | .drsProgramFetched _, _ => (execDrsProgramFetched_keeps ..).mono
      (show Within 0x8100801004c442 (maskOf (completion ++ reading ++ [.dresser])) from by decide)
  | .drsLoadReturn _, _ => (execDrsLoadReturn_keeps ..).mono (show Within 0x4000 (maskOf [.dresser]) from by decide)
  | .drsTimeWatchdog _, _ => (execDrsTimeWatchdog_keeps ..).mono
      (show Within 0x49104911004c446 (maskOf (completion ++ reading ++ [.registers, .dresser, .flags .hif, .flags .drs, .flags
      .rcv, .counters .drs, .counters .rcv])) from by decide)
  | .drsInstrLimit _, _ => (execDrsInstrLimit_keeps ..).mono
      (show Within 0x9100911004c442 (maskOf (completion ++ reading ++ [.dresser, .flags .hif, .flags .drs, .counters .drs])) from
      by decide)
  | .drsNop _, _ => (execDrsNop_keeps ..).mono
      (show Within 0x9100911004c642 (maskOf (completion ++ reading ++ [.memory, .dresser, .flags .hif, .flags .drs, .counters
      .drs])) from by decide)
  | .drsEnd _, _ => (execDrsEnd_keeps ..).mono
      (show Within 0x9100911004c642 (maskOf (completion ++ reading ++ [.memory, .dresser, .flags .hif, .flags .drs, .counters
      .drs])) from by decide)
  | .drsSetvl _, _ => (execDrsSetvl_keeps ..).mono
      (show Within 0x9100911004c642 (maskOf (completion ++ reading ++ [.memory, .dresser, .flags .hif, .flags .drs, .counters
      .drs])) from by decide)
  | .drsKey _, _ => (execDrsKey_keeps ..).mono
      (show Within 0x9100911004c642 (maskOf (completion ++ reading ++ [.memory, .dresser, .flags .hif, .flags .drs, .counters
      .drs])) from by decide)
  | .drsBr _, _ => (execDrsBr_keeps ..).mono
      (show Within 0x9100911004c642 (maskOf (completion ++ reading ++ [.memory, .dresser, .flags .hif, .flags .drs, .counters
      .drs])) from by decide)
  | .drsBeq _, _ => (execDrsBeq_keeps ..).mono
      (show Within 0x9100911004c642 (maskOf (completion ++ reading ++ [.memory, .dresser, .flags .hif, .flags .drs, .counters
      .drs])) from by decide)
  | .drsBne _, _ => (execDrsBne_keeps ..).mono
      (show Within 0x9100911004c642 (maskOf (completion ++ reading ++ [.memory, .dresser, .flags .hif, .flags .drs, .counters
      .drs])) from by decide)
  | .drsBlt _, _ => (execDrsBlt_keeps ..).mono
      (show Within 0x9100911004c642 (maskOf (completion ++ reading ++ [.memory, .dresser, .flags .hif, .flags .drs, .counters
      .drs])) from by decide)
  | .drsBge _, _ => (execDrsBge_keeps ..).mono
      (show Within 0x9100911004c642 (maskOf (completion ++ reading ++ [.memory, .dresser, .flags .hif, .flags .drs, .counters
      .drs])) from by decide)
  | .drsSli _, _ => (execDrsSli_keeps ..).mono
      (show Within 0x9100911004c642 (maskOf (completion ++ reading ++ [.memory, .dresser, .flags .hif, .flags .drs, .counters
      .drs])) from by decide)
  | .drsSaddi _, _ => (execDrsSaddi_keeps ..).mono
      (show Within 0x9100911004c642 (maskOf (completion ++ reading ++ [.memory, .dresser, .flags .hif, .flags .drs, .counters
      .drs])) from by decide)
  | .drsSadd _, _ => (execDrsSadd_keeps ..).mono
      (show Within 0x9100911004c642 (maskOf (completion ++ reading ++ [.memory, .dresser, .flags .hif, .flags .drs, .counters
      .drs])) from by decide)
  | .drsSsub _, _ => (execDrsSsub_keeps ..).mono
      (show Within 0x9100911004c642 (maskOf (completion ++ reading ++ [.memory, .dresser, .flags .hif, .flags .drs, .counters
      .drs])) from by decide)
  | .drsSmul _, _ => (execDrsSmul_keeps ..).mono
      (show Within 0x9100911004c642 (maskOf (completion ++ reading ++ [.memory, .dresser, .flags .hif, .flags .drs, .counters
      .drs])) from by decide)
  | .drsSand _, _ => (execDrsSand_keeps ..).mono
      (show Within 0x9100911004c642 (maskOf (completion ++ reading ++ [.memory, .dresser, .flags .hif, .flags .drs, .counters
      .drs])) from by decide)
  | .drsSor _, _ => (execDrsSor_keeps ..).mono
      (show Within 0x9100911004c642 (maskOf (completion ++ reading ++ [.memory, .dresser, .flags .hif, .flags .drs, .counters
      .drs])) from by decide)
  | .drsSxor _, _ => (execDrsSxor_keeps ..).mono
      (show Within 0x9100911004c642 (maskOf (completion ++ reading ++ [.memory, .dresser, .flags .hif, .flags .drs, .counters
      .drs])) from by decide)
  | .drsSshli _, _ => (execDrsSshli_keeps ..).mono
      (show Within 0x9100911004c642 (maskOf (completion ++ reading ++ [.memory, .dresser, .flags .hif, .flags .drs, .counters
      .drs])) from by decide)
  | .drsSshri _, _ => (execDrsSshri_keeps ..).mono
      (show Within 0x9100911004c642 (maskOf (completion ++ reading ++ [.memory, .dresser, .flags .hif, .flags .drs, .counters
      .drs])) from by decide)
  | .drsSori _, _ => (execDrsSori_keeps ..).mono
      (show Within 0x9100911004c642 (maskOf (completion ++ reading ++ [.memory, .dresser, .flags .hif, .flags .drs, .counters
      .drs])) from by decide)
  | .drsSld _, _ => (execDrsSld_keeps ..).mono
      (show Within 0x9100911004c642 (maskOf (completion ++ reading ++ [.memory, .dresser, .flags .hif, .flags .drs, .counters
      .drs])) from by decide)
  | .drsSst _, _ => (execDrsSst_keeps ..).mono
      (show Within 0x9100911004c642 (maskOf (completion ++ reading ++ [.memory, .dresser, .flags .hif, .flags .drs, .counters
      .drs])) from by decide)
  | .drsSext _, _ => (execDrsSext_keeps ..).mono
      (show Within 0x9100911004c642 (maskOf (completion ++ reading ++ [.memory, .dresser, .flags .hif, .flags .drs, .counters
      .drs])) from by decide)
  | .drsTbc _, _ => (execDrsTbc_keeps ..).mono
      (show Within 0x9100911004c642 (maskOf (completion ++ reading ++ [.memory, .dresser, .flags .hif, .flags .drs, .counters
      .drs])) from by decide)
  | .drsTmov _, _ => (execDrsTmov_keeps ..).mono
      (show Within 0x9100911004c642 (maskOf (completion ++ reading ++ [.memory, .dresser, .flags .hif, .flags .drs, .counters
      .drs])) from by decide)
  | .drsTiota _, _ => (execDrsTiota_keeps ..).mono
      (show Within 0x9100911004c642 (maskOf (completion ++ reading ++ [.memory, .dresser, .flags .hif, .flags .drs, .counters
      .drs])) from by decide)
  | .drsTld _, _ => (execDrsTld_keeps ..).mono
      (show Within 0x9100911004c642 (maskOf (completion ++ reading ++ [.memory, .dresser, .flags .hif, .flags .drs, .counters
      .drs])) from by decide)
  | .drsTldc _, _ => (execDrsTldc_keeps ..).mono
      (show Within 0x9100911004c642 (maskOf (completion ++ reading ++ [.memory, .dresser, .flags .hif, .flags .drs, .counters
      .drs])) from by decide)
  | .drsTldx _, _ => (execDrsTldx_keeps ..).mono
      (show Within 0x9100911004c642 (maskOf (completion ++ reading ++ [.memory, .dresser, .flags .hif, .flags .drs, .counters
      .drs])) from by decide)
  | .drsTlds _, _ => (execDrsTlds_keeps ..).mono
      (show Within 0x9100911004c642 (maskOf (completion ++ reading ++ [.memory, .dresser, .flags .hif, .flags .drs, .counters
      .drs])) from by decide)
  | .drsTst _, _ => (execDrsTst_keeps ..).mono
      (show Within 0x9100911004c642 (maskOf (completion ++ reading ++ [.memory, .dresser, .flags .hif, .flags .drs, .counters
      .drs])) from by decide)
  | .drsTstc _, _ => (execDrsTstc_keeps ..).mono
      (show Within 0x9100911004c642 (maskOf (completion ++ reading ++ [.memory, .dresser, .flags .hif, .flags .drs, .counters
      .drs])) from by decide)
  | .drsTstx _, _ => (execDrsTstx_keeps ..).mono
      (show Within 0x9100911004c642 (maskOf (completion ++ reading ++ [.memory, .dresser, .flags .hif, .flags .drs, .counters
      .drs])) from by decide)
  | .drsTstq _, _ => (execDrsTstq_keeps ..).mono
      (show Within 0x9100911004c642 (maskOf (completion ++ reading ++ [.memory, .dresser, .flags .hif, .flags .drs, .counters
      .drs])) from by decide)
  | .drsTsts _, _ => (execDrsTsts_keeps ..).mono
      (show Within 0x9100911004c642 (maskOf (completion ++ reading ++ [.memory, .dresser, .flags .hif, .flags .drs, .counters
      .drs])) from by decide)
  | .drsWld _, _ => (execDrsWld_keeps ..).mono
      (show Within 0x9100911004c642 (maskOf (completion ++ reading ++ [.memory, .dresser, .flags .hif, .flags .drs, .counters
      .drs])) from by decide)
  | .drsWst _, _ => (execDrsWst_keeps ..).mono
      (show Within 0x9100911004c642 (maskOf (completion ++ reading ++ [.memory, .dresser, .flags .hif, .flags .drs, .counters
      .drs])) from by decide)
  | .drsMld _, _ => (execDrsMld_keeps ..).mono
      (show Within 0x9100911004c642 (maskOf (completion ++ reading ++ [.memory, .dresser, .flags .hif, .flags .drs, .counters
      .drs])) from by decide)
  | .drsMst _, _ => (execDrsMst_keeps ..).mono
      (show Within 0x9100911004c642 (maskOf (completion ++ reading ++ [.memory, .dresser, .flags .hif, .flags .drs, .counters
      .drs])) from by decide)
  | .drsTadd _, _ => (execDrsTadd_keeps ..).mono
      (show Within 0x9100911004c642 (maskOf (completion ++ reading ++ [.memory, .dresser, .flags .hif, .flags .drs, .counters
      .drs])) from by decide)
  | .drsTsub _, _ => (execDrsTsub_keeps ..).mono
      (show Within 0x9100911004c642 (maskOf (completion ++ reading ++ [.memory, .dresser, .flags .hif, .flags .drs, .counters
      .drs])) from by decide)
  | .drsTmul _, _ => (execDrsTmul_keeps ..).mono
      (show Within 0x9100911004c642 (maskOf (completion ++ reading ++ [.memory, .dresser, .flags .hif, .flags .drs, .counters
      .drs])) from by decide)
  | .drsTfma _, _ => (execDrsTfma_keeps ..).mono
      (show Within 0x9100911004c642 (maskOf (completion ++ reading ++ [.memory, .dresser, .flags .hif, .flags .drs, .counters
      .drs])) from by decide)
  | .drsTmax _, _ => (execDrsTmax_keeps ..).mono
      (show Within 0x9100911004c642 (maskOf (completion ++ reading ++ [.memory, .dresser, .flags .hif, .flags .drs, .counters
      .drs])) from by decide)
  | .drsTmin _, _ => (execDrsTmin_keeps ..).mono
      (show Within 0x9100911004c642 (maskOf (completion ++ reading ++ [.memory, .dresser, .flags .hif, .flags .drs, .counters
      .drs])) from by decide)
  | .drsTabs _, _ => (execDrsTabs_keeps ..).mono
      (show Within 0x9100911004c642 (maskOf (completion ++ reading ++ [.memory, .dresser, .flags .hif, .flags .drs, .counters
      .drs])) from by decide)
  | .drsTneg _, _ => (execDrsTneg_keeps ..).mono
      (show Within 0x9100911004c642 (maskOf (completion ++ reading ++ [.memory, .dresser, .flags .hif, .flags .drs, .counters
      .drs])) from by decide)
  | .drsTdiv _, _ => (execDrsTdiv_keeps ..).mono
      (show Within 0x9100911004c642 (maskOf (completion ++ reading ++ [.memory, .dresser, .flags .hif, .flags .drs, .counters
      .drs])) from by decide)
  | .drsTsqrt _, _ => (execDrsTsqrt_keeps ..).mono
      (show Within 0x9100911004c642 (maskOf (completion ++ reading ++ [.memory, .dresser, .flags .hif, .flags .drs, .counters
      .drs])) from by decide)
  | .drsTrcp _, _ => (execDrsTrcp_keeps ..).mono
      (show Within 0x9100911004c642 (maskOf (completion ++ reading ++ [.memory, .dresser, .flags .hif, .flags .drs, .counters
      .drs])) from by decide)
  | .drsTrsq _, _ => (execDrsTrsq_keeps ..).mono
      (show Within 0x9100911004c642 (maskOf (completion ++ reading ++ [.memory, .dresser, .flags .hif, .flags .drs, .counters
      .drs])) from by decide)
  | .drsTex2 _, _ => (execDrsTex2_keeps ..).mono
      (show Within 0x9100911004c642 (maskOf (completion ++ reading ++ [.memory, .dresser, .flags .hif, .flags .drs, .counters
      .drs])) from by decide)
  | .drsTlg2 _, _ => (execDrsTlg2_keeps ..).mono
      (show Within 0x9100911004c642 (maskOf (completion ++ reading ++ [.memory, .dresser, .flags .hif, .flags .drs, .counters
      .drs])) from by decide)
  | .drsTand _, _ => (execDrsTand_keeps ..).mono
      (show Within 0x9100911004c642 (maskOf (completion ++ reading ++ [.memory, .dresser, .flags .hif, .flags .drs, .counters
      .drs])) from by decide)
  | .drsTor _, _ => (execDrsTor_keeps ..).mono
      (show Within 0x9100911004c642 (maskOf (completion ++ reading ++ [.memory, .dresser, .flags .hif, .flags .drs, .counters
      .drs])) from by decide)
  | .drsTxor _, _ => (execDrsTxor_keeps ..).mono
      (show Within 0x9100911004c642 (maskOf (completion ++ reading ++ [.memory, .dresser, .flags .hif, .flags .drs, .counters
      .drs])) from by decide)
  | .drsTshl _, _ => (execDrsTshl_keeps ..).mono
      (show Within 0x9100911004c642 (maskOf (completion ++ reading ++ [.memory, .dresser, .flags .hif, .flags .drs, .counters
      .drs])) from by decide)
  | .drsTshr _, _ => (execDrsTshr_keeps ..).mono
      (show Within 0x9100911004c642 (maskOf (completion ++ reading ++ [.memory, .dresser, .flags .hif, .flags .drs, .counters
      .drs])) from by decide)
  | .drsTsra _, _ => (execDrsTsra_keeps ..).mono
      (show Within 0x9100911004c642 (maskOf (completion ++ reading ++ [.memory, .dresser, .flags .hif, .flags .drs, .counters
      .drs])) from by decide)
  | .drsTcvt _, _ => (execDrsTcvt_keeps ..).mono
      (show Within 0x9100911004c642 (maskOf (completion ++ reading ++ [.memory, .dresser, .flags .hif, .flags .drs, .counters
      .drs])) from by decide)
  | .drsTrnd _, _ => (execDrsTrnd_keeps ..).mono
      (show Within 0x9100911004c642 (maskOf (completion ++ reading ++ [.memory, .dresser, .flags .hif, .flags .drs, .counters
      .drs])) from by decide)
  | .drsTunpk _, _ => (execDrsTunpk_keeps ..).mono
      (show Within 0x9100911004c642 (maskOf (completion ++ reading ++ [.memory, .dresser, .flags .hif, .flags .drs, .counters
      .drs])) from by decide)
  | .drsTpack _, _ => (execDrsTpack_keeps ..).mono
      (show Within 0x9100911004c642 (maskOf (completion ++ reading ++ [.memory, .dresser, .flags .hif, .flags .drs, .counters
      .drs])) from by decide)
  | .drsTcmp _, _ => (execDrsTcmp_keeps ..).mono
      (show Within 0x9100911004c642 (maskOf (completion ++ reading ++ [.memory, .dresser, .flags .hif, .flags .drs, .counters
      .drs])) from by decide)
  | .drsTsel _, _ => (execDrsTsel_keeps ..).mono
      (show Within 0x9100911004c642 (maskOf (completion ++ reading ++ [.memory, .dresser, .flags .hif, .flags .drs, .counters
      .drs])) from by decide)
  | .drsMand _, _ => (execDrsMand_keeps ..).mono
      (show Within 0x9100911004c642 (maskOf (completion ++ reading ++ [.memory, .dresser, .flags .hif, .flags .drs, .counters
      .drs])) from by decide)
  | .drsMor _, _ => (execDrsMor_keeps ..).mono
      (show Within 0x9100911004c642 (maskOf (completion ++ reading ++ [.memory, .dresser, .flags .hif, .flags .drs, .counters
      .drs])) from by decide)
  | .drsMxor _, _ => (execDrsMxor_keeps ..).mono
      (show Within 0x9100911004c642 (maskOf (completion ++ reading ++ [.memory, .dresser, .flags .hif, .flags .drs, .counters
      .drs])) from by decide)
  | .drsMnot _, _ => (execDrsMnot_keeps ..).mono
      (show Within 0x9100911004c642 (maskOf (completion ++ reading ++ [.memory, .dresser, .flags .hif, .flags .drs, .counters
      .drs])) from by decide)
  | .drsMset _, _ => (execDrsMset_keeps ..).mono
      (show Within 0x9100911004c642 (maskOf (completion ++ reading ++ [.memory, .dresser, .flags .hif, .flags .drs, .counters
      .drs])) from by decide)
  | .drsMcnt _, _ => (execDrsMcnt_keeps ..).mono
      (show Within 0x9100911004c642 (maskOf (completion ++ reading ++ [.memory, .dresser, .flags .hif, .flags .drs, .counters
      .drs])) from by decide)
  | .drsTperm _, _ => (execDrsTperm_keeps ..).mono
      (show Within 0x9100911004c642 (maskOf (completion ++ reading ++ [.memory, .dresser, .flags .hif, .flags .drs, .counters
      .drs])) from by decide)
  | .drsTtrn _, _ => (execDrsTtrn_keeps ..).mono
      (show Within 0x9100911004c642 (maskOf (completion ++ reading ++ [.memory, .dresser, .flags .hif, .flags .drs, .counters
      .drs])) from by decide)
  | .drsTbcl _, _ => (execDrsTbcl_keeps ..).mono
      (show Within 0x9100911004c642 (maskOf (completion ++ reading ++ [.memory, .dresser, .flags .hif, .flags .drs, .counters
      .drs])) from by decide)
  | .drsTcompress _, _ => (execDrsTcompress_keeps ..).mono
      (show Within 0x9100911004c642 (maskOf (completion ++ reading ++ [.memory, .dresser, .flags .hif, .flags .drs, .counters
      .drs])) from by decide)
  | .drsTexpand _, _ => (execDrsTexpand_keeps ..).mono
      (show Within 0x9100911004c642 (maskOf (completion ++ reading ++ [.memory, .dresser, .flags .hif, .flags .drs, .counters
      .drs])) from by decide)
  | .drsTrsum _, _ => (execDrsTrsum_keeps ..).mono
      (show Within 0x9100911004c642 (maskOf (completion ++ reading ++ [.memory, .dresser, .flags .hif, .flags .drs, .counters
      .drs])) from by decide)
  | .drsTrmax _, _ => (execDrsTrmax_keeps ..).mono
      (show Within 0x9100911004c642 (maskOf (completion ++ reading ++ [.memory, .dresser, .flags .hif, .flags .drs, .counters
      .drs])) from by decide)
  | .drsTrmin _, _ => (execDrsTrmin_keeps ..).mono
      (show Within 0x9100911004c642 (maskOf (completion ++ reading ++ [.memory, .dresser, .flags .hif, .flags .drs, .counters
      .drs])) from by decide)
  | .drsTramax _, _ => (execDrsTramax_keeps ..).mono
      (show Within 0x9100911004c642 (maskOf (completion ++ reading ++ [.memory, .dresser, .flags .hif, .flags .drs, .counters
      .drs])) from by decide)
  | .drsTramin _, _ => (execDrsTramin_keeps ..).mono
      (show Within 0x9100911004c642 (maskOf (completion ++ reading ++ [.memory, .dresser, .flags .hif, .flags .drs, .counters
      .drs])) from by decide)
  | .drsTrrsum _, _ => (execDrsTrrsum_keeps ..).mono
      (show Within 0x9100911004c642 (maskOf (completion ++ reading ++ [.memory, .dresser, .flags .hif, .flags .drs, .counters
      .drs])) from by decide)
  | .drsTrrmax _, _ => (execDrsTrrmax_keeps ..).mono
      (show Within 0x9100911004c642 (maskOf (completion ++ reading ++ [.memory, .dresser, .flags .hif, .flags .drs, .counters
      .drs])) from by decide)
  | .drsTrrmin _, _ => (execDrsTrrmin_keeps ..).mono
      (show Within 0x9100911004c642 (maskOf (completion ++ reading ++ [.memory, .dresser, .flags .hif, .flags .drs, .counters
      .drs])) from by decide)
  | .drsWfma _, _ => (execDrsWfma_keeps ..).mono
      (show Within 0x9100911004c642 (maskOf (completion ++ reading ++ [.memory, .dresser, .flags .hif, .flags .drs, .counters
      .drs])) from by decide)
  | .drsWcvt _, _ => (execDrsWcvt_keeps ..).mono
      (show Within 0x9100911004c642 (maskOf (completion ++ reading ++ [.memory, .dresser, .flags .hif, .flags .drs, .counters
      .drs])) from by decide)
  | .drsWfrom _, _ => (execDrsWfrom_keeps ..).mono
      (show Within 0x9100911004c642 (maskOf (completion ++ reading ++ [.memory, .dresser, .flags .hif, .flags .drs, .counters
      .drs])) from by decide)
  | .stepBegin _ _, _ => (execStepBegin_keeps ..).mono
      (show Within 0x81008411058647 (maskOf (completion ++ reading ++ [.module, .registers, .memory, .drawers, .maps, .groups,
      .flags .pln])) from by decide)
  | .ruleInputPresent _, _ => (execRuleInputPresent_keeps ..).mono
      (show Within 0x81008410058647 (maskOf (completion ++ reading ++ [.module, .registers, .memory, .drawers, .maps, .flags
      .pln])) from by decide)
  | .ruleInputStaleTimeout _, _ => (execRuleInputStaleTimeout_keeps ..).mono
      (show Within 0x81008410058647 (maskOf (completion ++ reading ++ [.module, .registers, .memory, .drawers, .maps, .flags
      .pln])) from by decide)
  | .stepGate _ _, _ => (execStepGate_keeps ..).mono
      (show Within 0x81008010048642 (maskOf (completion ++ reading ++ [.memory])) from by decide)
  | .stepsizeTableCurrent _, _ => (execStepsizeTableCurrent_keeps ..).mono
      (show Within 0x81008010048642 (maskOf (completion ++ reading ++ [.memory])) from by decide)
  | .stepsizeStaleTimeout _, _ => (execStepsizeStaleTimeout_keeps ..).mono
      (show Within 0x81008010048642 (maskOf (completion ++ reading ++ [.memory])) from by decide)
  | .stepEnd _ _, _ => (execStepEnd_keeps ..).mono
      (show Within 0xe100e11f97866b (maskOf (exchange ++ reading ++ [.module, .nightstand, .firmware, .doors, .memory, .drawers,
      .chests, .groups, .pair, .units, .held, .flags .hif, .counters .hif])) from by decide)
  | .rdxReduce _ _, _ => (execRdxReduce_keeps ..).mono
      (show Within 0xe100e117948642 (maskOf (exchange ++ reading ++ [.doors, .memory, .groups, .pair, .units, .flags .hif,
      .counters .hif])) from by decide)
  | .rdxGather _ _, _ => (execRdxGather_keeps ..).mono
      (show Within 0xe100e117948642 (maskOf (exchange ++ reading ++ [.doors, .memory, .groups, .pair, .units, .flags .hif,
      .counters .hif])) from by decide)
  | .bucketContrib, _ => (execContrib_keeps ..).mono
      (show Within 0xe100e11d948642 (maskOf (exchange ++ reading ++ [.doors, .memory, .groups, .units, .held, .flags .hif,
      .counters .hif])) from by decide)
  | .bucketDeadline _ _ _, _ => (execBucketDeadline_keeps ..).mono
      (show Within 0xa1008115048642 (maskOf (completion ++ reading ++ [.memory, .groups, .units, .flags .hif, .counters .rdx]))
      from by decide)
  | .bucketAbortTimeout _ _, _ => (execBucketAbortTimeout_keeps ..).mono
      (show Within 0xe100e11d948642 (maskOf (exchange ++ reading ++ [.doors, .memory, .groups, .units, .held, .flags .hif,
      .counters .hif])) from by decide)
  | .partSumDone _, _ => (execPartSumDone_keeps ..).mono
      (show Within 0xe100e117948642 (maskOf (exchange ++ reading ++ [.doors, .memory, .groups, .pair, .units, .flags .hif,
      .counters .hif])) from by decide)
  | .bucketResult, _ => (execResult_keeps ..).mono
      (show Within 0xe100e11b948642 (maskOf (exchange ++ reading ++ [.doors, .memory, .groups, .pair, .held, .flags .hif,
      .counters .hif])) from by decide)
  | .bucketResultAck, _ => (execResultAck_keeps ..).mono
      (show Within 0xe100e118948642 (maskOf (exchange ++ reading ++ [.doors, .memory, .held, .flags .hif, .counters .hif])) from
      by decide)
  | .bucketCodes, _ => (execCodes_keeps ..).mono
      (show Within 0xe100e11d948642 (maskOf (exchange ++ reading ++ [.doors, .memory, .groups, .units, .held, .flags .hif,
      .counters .hif])) from by decide)
  | .bucketAbort, _ => (execAbort_keeps ..).mono
      (show Within 0x6100611d948042 (maskOf (exchange ++ [.doors, .groups, .units, .held, .flags .hif, .counters .hif])) from by
      decide)
  | .pairHeartbeatSend, _ => (execPairHeartbeatSend_keeps ..).mono
      (show Within 0x60000010108000 (maskOf sending) from by decide)
  | .pairHeartbeat, _ => (execPairHeartbeat_keeps ..).mono
      (show Within 0x6000601a908002 (maskOf (exchange ++ [.pair, .held])) from by decide)
  | .pairLossTimeout, _ => (execPairLossTimeout_keeps ..).mono
      (show Within 0x60000012108000 (maskOf (sending ++ [.pair])) from by decide)
  | .pairProbe, _ => (execProbe_keeps ..).mono (show Within 0x60006018908002 (maskOf (exchange ++ [.held])) from by decide)
  | .pairProbeReply, _ => (execProbeReply_keeps ..).mono
      (show Within 0x6000601a908002 (maskOf (exchange ++ [.pair, .held])) from by decide)
  | .probeWindowExpiry, _ => (execProbeWindowExpiry_keeps ..).mono
      (show Within 0xe100e11f948642 (maskOf (exchange ++ reading ++ [.doors, .memory, .groups, .pair, .units, .held, .flags .hif,
      .counters .hif])) from by decide)
  | .degradedProbeTimer, _ => (execDegradedProbeTimer_keeps ..).mono
      (show Within 0x60000010108000 (maskOf sending) from by decide)
  | .epochNotice, _ => (execEpochNotice_keeps ..).mono
      (show Within 0xe100e11f97866b (maskOf (exchange ++ reading ++ [.module, .nightstand, .firmware, .doors, .memory, .drawers,
      .chests, .groups, .pair, .units, .held, .flags .hif, .counters .hif])) from by decide)
  | .fencedNotice, _ => (execFencedNotice_keeps ..).mono
      (show Within 0x6100611f97806b (maskOf (exchange ++ [.module, .nightstand, .firmware, .doors, .drawers, .chests, .groups,
      .pair, .units, .held, .flags .hif, .counters .hif])) from by decide)
  | .pairDigest, _ => (execDigest_keeps ..).mono
      (show Within 0xe100e11f97866b (maskOf (exchange ++ reading ++ [.module, .nightstand, .firmware, .doors, .memory, .drawers,
      .chests, .groups, .pair, .units, .held, .flags .hif, .counters .hif])) from by decide)
  | .divergeWaitExpiry _, _ => (execDivergeWaitExpiry_keeps ..).mono
      (show Within 0xe100e11f97866b (maskOf (exchange ++ reading ++ [.module, .nightstand, .firmware, .doors, .memory, .drawers,
      .chests, .groups, .pair, .units, .held, .flags .hif, .counters .hif])) from by decide)
  | .pairMirror, _ => (execMirror_keeps ..).mono
      (show Within 0xe000e01b908602 (maskOf (exchange ++ reading ++ [.memory, .groups, .pair, .held])) from by decide)
  | .epochHoldExpiry, _ => (execEpochHoldExpiry_keeps ..).mono
      (show Within 0x20000008000002 (maskOf [.log, .held, .counters .rdx]) from by decide)
  | .rdxInstall _, _ => (execInstall_keeps ..).mono
      (show Within 0xe100e11f948642 (maskOf (exchange ++ reading ++ [.doors, .memory, .groups, .pair, .units, .held, .flags .hif,
      .counters .hif])) from by decide)
  | .rdxPairWrite _, _ => (execRdxPairWrite_keeps ..).mono
      (show Within 0x60004012908006 (maskOf (linkWork ++ [.registers, .steps, .pair, .counters .rdx])) from by decide)
  | .credenzaProgressWatchdog _, _ => (execCredenzaProgressWatchdog_keeps ..).mono
      (show Within 0x461046115948046 (maskOf (exchange ++ [.registers, .doors, .groups, .units, .flags .hif, .flags .rcv,
      .counters .hif, .counters .rcv])) from by decide)
  | .dataFlitReceived _ _, _ => (execDataFlitReceived_keeps ..).mono
      (show Within 0x40004012900002 (maskOf linkWork) from by decide)
  | .replayTimeout _, _ => (execReplayTimeout_keeps ..).mono (show Within 0x40004012900002 (maskOf linkWork) from by decide)
  | .hello _ _ _ _, _ => (execHello_keeps ..).mono
      (show Within 0x40084012900022 (maskOf (linkWork ++ [.firmware, .flags .fwu])) from by decide)
  | .linkHeartbeatSend, _ => (execLinkHeartbeatSend_keeps ..).mono
      (show Within 0x10100000 (maskOf [.ports, .output]) from by decide)
  | .linkHeartbeat _, _ => (execLinkHeartbeat_keeps ..).mono (show Within 0x40004012900002 (maskOf linkWork) from by decide)
  | .linkHeartbeatTimeout _, _ => (execLinkHeartbeatTimeout_keeps ..).mono
      (show Within 0x40004012900002 (maskOf linkWork) from by decide)
  | .laneSignalLoss _, _ => (execLaneSignalLoss_keeps ..).mono (show Within 0x40004012900002 (maskOf linkWork) from by decide)
  | .trainingPass _ _ _, _ => (execTrainingPass_keeps ..).mono
      (show Within 0x40084012900022 (maskOf (linkWork ++ [.firmware, .pair, .flags .fwu])) from by decide)
  | .trainingTimeout _, _ => (execTrainingTimeout_keeps ..).mono
      (show Within 0x40084012900022 (maskOf (linkWork ++ [.firmware, .flags .fwu])) from by decide)
  | .downRetrainTimer _, _ => (execDownRetrainTimer_keeps ..).mono
      (show Within 0x10100000 (maskOf [.ports, .output]) from by decide)
  | .laneMonitorWindow _ _ _ _, _ => (execLaneMonitorWindow_keeps ..).mono
      (show Within 0x40004012900002 (maskOf linkWork) from by decide)
  | .spareRequest _ _, _ => (execSpareRequest_keeps ..).mono (show Within 0x40004012900002 (maskOf linkWork) from by decide)
  | .eyeRemeasure _, _ => (execEyeRemeasure_keeps ..).mono (show Within 0x100000 (maskOf [.ports]) from by decide)
  | .laserFault _, _ => (execLaserFault_keeps ..).mono
      (show Within 0x40004012b00002 (maskOf (linkWork ++ [.bays])) from by decide)
  | .laserRelease _, _ => (execLaserRelease_keeps ..).mono
      (show Within 0x10300004 (maskOf [.registers, .ports, .bays, .output]) from by decide)
  | .holdRequest _, _ => (execHoldRequest_keeps ..).mono (show Within 0x40004012900002 (maskOf linkWork) from by decide)
  | .laserTransfer, _ => (execLaserTransfer_keeps ..).mono
      (show Within 0x40004012b00002 (maskOf (linkWork ++ [.bays, .pair])) from by decide)
  | .holdTimeout _, _ => (execHoldTimeout_keeps ..).mono (show Within 0x40004012900002 (maskOf linkWork) from by decide)
  | .bayInserted _ _ _ _, _ => (execBayInserted_keeps ..).mono (show Within 0x200000 (maskOf [.bays]) from by decide)
  | .bayInterlockOpen _, _ => (execBayInterlockOpen_keeps ..).mono
      (show Within 0x40004012b00002 (maskOf (linkWork ++ [.bays])) from by decide)
  | .retrain _, _ => (execRetrain_keeps ..).mono (show Within 0x40004012900002 (maskOf linkWork) from by decide)
  | .portReset _, _ => (execPortReset_keeps ..).mono (show Within 0x40004012900002 (maskOf linkWork) from by decide)
  | .optCtrlWrite _, _ => (execOptCtrlWrite_keeps ..).mono
      (show Within 0x40084012900026 (maskOf (linkWork ++ [.registers, .firmware, .flags .fwu])) from by decide)
  | .optSelfWrite _, _ => (execOptSelfWrite_keeps ..).mono (show Within 0x4 (maskOf [.registers]) from by decide)
  | .memScrub _ _, _ => (execMemScrub_keeps ..).mono
      (show Within 0x81008010049642 (maskOf (completion ++ reading ++ [.memory, .scrubs])) from by decide)
  | .scrubDone _, _ => (execScrubDone_keeps ..).mono
      (show Within 0x81008010049642 (maskOf (completion ++ reading ++ [.memory, .scrubs])) from by decide)
  | .scrubWatchdog _ _, _ => (execScrubWatchdog_keeps ..).mono
      (show Within 0x81008010049642 (maskOf (completion ++ reading ++ [.memory, .scrubs])) from by decide)
  | .memRetire _ _, _ => (execMemRetire_keeps ..).mono
      (show Within 0x1810180100d8e42 (maskOf (completion ++ reading ++ [.memory, .retirements, .drawers, .maps, .calibration,
      .flags .cal, .counters .cal])) from by decide)
  | .calSave _ _, _ => (execCalSave_keeps ..).mono
      (show Within 0x81008010048642 (maskOf (completion ++ reading ++ [.memory])) from by decide)
  | .calRestore _ _, _ => (execCalRestore_keeps ..).mono
      (show Within 0x810180100d8642 (maskOf (completion ++ reading ++ [.memory, .drawers, .calibration, .flags .cal])) from by
      decide)
  | .calRun _ _ _, _ => (execCalRun_keeps ..).mono
      (show Within 0x1810180100c8442 (maskOf (completion ++ reading ++ [.calibration, .flags .cal, .counters .cal])) from by
      decide)
  | .calReq _ _, _ => (execCalReq_keeps ..).mono
      (show Within 0x1010100100c8042 (maskOf (completion ++ [.log, .calibration, .flags .cal, .counters .cal])) from by decide)
  | .calTempCheck _, _ => (execCalTempCheck_keeps ..).mono
      (show Within 0x1010100100c8042 (maskOf (completion ++ [.log, .calibration, .flags .cal, .counters .cal])) from by decide)
  | .drawerCalibration _ _ _, _ => (execDrawerCalibration_keeps ..).mono
      (show Within 0x1810180100d8642 (maskOf (completion ++ reading ++ [.memory, .drawers, .calibration, .flags .cal, .counters
      .cal])) from by decide)
  | .calRunWatchdog _, _ => (execCalRunWatchdog_keeps ..).mono
      (show Within 0x1010100100c8042 (maskOf (completion ++ [.log, .calibration, .flags .cal, .counters .cal])) from by decide)
  | .fwuStage, _ => (execStage_keeps ..).mono
      (show Within 0x80010000022 (maskOf [.log, .firmware, .output, .flags .fwu]) from by decide)
  | .stagingDone _, _ => (execStagingDone_keeps ..).mono
      (show Within 0x80000000020 (maskOf [.firmware, .flags .fwu]) from by decide)
  | .fwuVerify, _ => (execVerify_keeps ..).mono
      (show Within 0x80000000022 (maskOf [.log, .firmware, .flags .fwu]) from by decide)
  | .fwuVerifyDone _, _ => (execVerifyDone_keeps ..).mono
      (show Within 0x80010000020 (maskOf [.firmware, .output, .flags .fwu]) from by decide)
  | .fwuActivate, _ => (execActivate_keeps ..).mono
      (show Within 0x9ff0dff1ffff7ff (maskOf (allBut [.retirements, .flags .nst, .flags .pwr, .counters .nst, .counters .rcv,
      .counters .pwr])) from by decide)
  | .activateDrainDone, _ => (execActivateDrainDone_keeps ..).mono (show Within 0x20 (maskOf [.firmware]) from by decide)
  | .activateReloadDone, _ => (execActivateReloadDone_keeps ..).mono
      (show Within 0x40084012900032 (maskOf (linkWork ++ [.recovery, .firmware, .flags .fwu])) from by decide)
  | .activateWatchdog, _ => (execActivateWatchdog_keeps ..).mono
      (show Within 0x9ff0dff1ffff7ff (maskOf (allBut [.retirements, .flags .nst, .flags .pwr, .counters .nst, .counters .rcv,
      .counters .pwr])) from by decide)
  | .fwuAbort, _ => (execFwuAbort_keeps ..).mono
      (show Within 0x80000000022 (maskOf [.log, .firmware, .flags .fwu]) from by decide)
  | .requestUpdate, _ => (execRequestUpdate_keeps ..).mono
      (show Within 0x80010000022 (maskOf [.log, .firmware, .output, .flags .fwu]) from by decide)
  | .passComponentTable, _ => (execPassComponentTable_keeps ..).mono
      (show Within 0x80010000022 (maskOf [.log, .firmware, .output, .flags .fwu]) from by decide)
  | .updateComponent, _ => (execUpdateComponent_keeps ..).mono
      (show Within 0x80010000022 (maskOf [.log, .firmware, .output, .flags .fwu]) from by decide)
  | .firmwareData _, _ => (execFirmwareData_keeps ..).mono
      (show Within 0x80010000020 (maskOf [.firmware, .output, .flags .fwu]) from by decide)
  | .activateFirmware, _ => (execActivateFirmware_keeps ..).mono
      (show Within 0x9ff0dff1ffff7ff (maskOf (allBut [.retirements, .flags .nst, .flags .pwr, .counters .nst, .counters .rcv,
      .counters .pwr])) from by decide)
  | .getStatus, _ => (execGetStatus_keeps ..).mono (show Within 0x10000000 (maskOf [.output]) from by decide)
  | .cancelUpdate, _ => (execCancelUpdate_keeps ..).mono
      (show Within 0x80010000022 (maskOf [.log, .firmware, .output, .flags .fwu]) from by decide)
  | .peerStartsTraining _, _ => (execPeerStartsTraining_keeps ..).mono
      (show Within 0x40004012900002 (maskOf linkWork) from by decide)
  | .idleFlitReceived _ _, _ => (execIdleFlitReceived_keeps ..).mono
      (show Within 0x40004012900002 (maskOf linkWork) from by decide)
  | .spareAcknowledged _, _ => (execSpareAcknowledged_keeps ..).mono
      (show Within 0x40004012900002 (maskOf linkWork) from by decide)
  | .lightReturns _, _ => (execLightReturns_keeps ..).mono (show Within 0x200000 (maskOf [.bays]) from by decide)

open Safety in
/-- Every command goes on, changes only its own parts, and keeps what `Safe` says. -/
theorem exec_safe (c : Instr) (s : State) : SafeGoes (maskOf (changes c)) s (exec c s) := by
  cases h : startsOver c with
  | false => exact (exec_keeps c s h).safe
  | true =>
    exact match c, h with
    | .standbyPowerApplied _, _ => (execStandbyPowerApplied_safe ..).mono
        (show Within 0x120000200009 (maskOf [.module, .nightstand, .bays, .flags .nst, .flags .pwr]) from by decide)
    | .standbyPowerLost, _ => (execStandbyPowerLost_safe ..).mono
        (show Within 0x1fff1fff1fffffff (maskOf (allBut [])) from by decide)
    | .inputOvervoltage, _ => (execInputOvervoltage_safe ..).mono
        (show Within 0x1fff1fff1fffffff (maskOf (allBut [])) from by decide)
    | .releaseRetirement, _ => (execReleaseRetirement_safe ..).mono
        (show Within 0x10000001 (maskOf [.module, .output]) from by decide)
    | .rootPllLocked, _ => (execRootPllLocked_safe ..).mono (show Within 0x1 (maskOf [.module]) from by decide)
    | .clearOwnerLock, _ => (execClearOwnerLock_safe ..).mono
        (show Within 0x10000020 (maskOf [.firmware, .output]) from by decide)
    | .rdxAdmit _, _ => (execAdmit_safe ..).mono
        (show Within 0xe100e11f97866b (maskOf (exchange ++ reading ++ [.module, .nightstand, .firmware, .doors, .memory, .drawers,
        .chests, .groups, .pair, .units, .held, .flags .hif, .counters .hif])) from by decide)

end Sys2Proof.Machine
end

