-- ==== Sys2Proof/Laws/State.lean ====
section
/-!
SUPPORT. The fields that each primitive update leaves alone.
-/
namespace Sys2Proof.Machine

/-! `setReg` -/

@[simp] theorem setReg_mod (off v : Nat) (s : State) : (setReg off v s).mod = s.mod := rfl
@[simp] theorem setReg_log (off v : Nat) (s : State) : (setReg off v s).log = s.log := rfl
@[simp] theorem setReg_logProd (off v : Nat) (s : State) : (setReg off v s).logProd = s.logProd := rfl
@[simp] theorem setReg_flags (off v : Nat) (s : State) : (setReg off v s).flags = s.flags := rfl
@[simp] theorem setReg_cnt (off v : Nat) (s : State) : (setReg off v s).cnt = s.cnt := rfl
@[simp] theorem setReg_nst (off v : Nat) (s : State) : (setReg off v s).nst = s.nst := rfl
@[simp] theorem setReg_rcv (off v : Nat) (s : State) : (setReg off v s).rcv = s.rcv := rfl
@[simp] theorem setReg_fwu (off v : Nat) (s : State) : (setReg off v s).fwu = s.fwu := rfl
@[simp] theorem setReg_doors (off v : Nat) (s : State) : (setReg off v s).doors = s.doors := rfl
@[simp] theorem setReg_vfs (off v : Nat) (s : State) : (setReg off v s).vfs = s.vfs := rfl
@[simp] theorem setReg_hif (off v : Nat) (s : State) : (setReg off v s).hif = s.hif := rfl
@[simp] theorem setReg_copies (off v : Nat) (s : State) : (setReg off v s).copies = s.copies := rfl
@[simp] theorem setReg_mem (off v : Nat) (s : State) : (setReg off v s).mem = s.mem := rfl
@[simp] theorem setReg_trs (off v : Nat) (s : State) : (setReg off v s).trs = s.trs := rfl
@[simp] theorem setReg_drs (off v : Nat) (s : State) : (setReg off v s).drs = s.drs := rfl
@[simp] theorem setReg_steps (off v : Nat) (s : State) : (setReg off v s).steps = s.steps := rfl
@[simp] theorem setReg_drawers (off v : Nat) (s : State) : (setReg off v s).drawers = s.drawers := rfl
@[simp] theorem setReg_chests (off v : Nat) (s : State) : (setReg off v s).chests = s.chests := rfl
@[simp] theorem setReg_maps (off v : Nat) (s : State) : (setReg off v s).maps = s.maps := rfl
@[simp] theorem setReg_stagedMaps (off v : Nat) (s : State) : (setReg off v s).stagedMaps = s.stagedMaps := rfl
@[simp] theorem setReg_cal (off v : Nat) (s : State) : (setReg off v s).cal = s.cal := rfl
@[simp] theorem setReg_opt (off v : Nat) (s : State) : (setReg off v s).opt = s.opt := rfl
@[simp] theorem setReg_rdx (off v : Nat) (s : State) : (setReg off v s).rdx = s.rdx := rfl
@[simp] theorem setReg_out (off v : Nat) (s : State) : (setReg off v s).out = s.out := rfl
@[simp] theorem setReg_pending (off v : Nat) (s : State) : (setReg off v s).pending = s.pending := rfl

/-! `setFlag` -/

@[simp] theorem setFlag_mod (b : Block) (bit : Nat) (s : State) : (setFlag b bit s).mod = s.mod := rfl
@[simp] theorem setFlag_log (b : Block) (bit : Nat) (s : State) : (setFlag b bit s).log = s.log := rfl
@[simp] theorem setFlag_logProd (b : Block) (bit : Nat) (s : State) : (setFlag b bit s).logProd = s.logProd := rfl
@[simp] theorem setFlag_cnt (b : Block) (bit : Nat) (s : State) : (setFlag b bit s).cnt = s.cnt := rfl
@[simp] theorem setFlag_regs (b : Block) (bit : Nat) (s : State) : (setFlag b bit s).regs = s.regs := rfl
@[simp] theorem setFlag_nst (b : Block) (bit : Nat) (s : State) : (setFlag b bit s).nst = s.nst := rfl
@[simp] theorem setFlag_rcv (b : Block) (bit : Nat) (s : State) : (setFlag b bit s).rcv = s.rcv := rfl
@[simp] theorem setFlag_fwu (b : Block) (bit : Nat) (s : State) : (setFlag b bit s).fwu = s.fwu := rfl
@[simp] theorem setFlag_doors (b : Block) (bit : Nat) (s : State) : (setFlag b bit s).doors = s.doors := rfl
@[simp] theorem setFlag_vfs (b : Block) (bit : Nat) (s : State) : (setFlag b bit s).vfs = s.vfs := rfl
@[simp] theorem setFlag_hif (b : Block) (bit : Nat) (s : State) : (setFlag b bit s).hif = s.hif := rfl
@[simp] theorem setFlag_copies (b : Block) (bit : Nat) (s : State) : (setFlag b bit s).copies = s.copies := rfl
@[simp] theorem setFlag_mem (b : Block) (bit : Nat) (s : State) : (setFlag b bit s).mem = s.mem := rfl
@[simp] theorem setFlag_trs (b : Block) (bit : Nat) (s : State) : (setFlag b bit s).trs = s.trs := rfl
@[simp] theorem setFlag_drs (b : Block) (bit : Nat) (s : State) : (setFlag b bit s).drs = s.drs := rfl
@[simp] theorem setFlag_steps (b : Block) (bit : Nat) (s : State) : (setFlag b bit s).steps = s.steps := rfl
@[simp] theorem setFlag_drawers (b : Block) (bit : Nat) (s : State) : (setFlag b bit s).drawers = s.drawers := rfl
@[simp] theorem setFlag_chests (b : Block) (bit : Nat) (s : State) : (setFlag b bit s).chests = s.chests := rfl
@[simp] theorem setFlag_maps (b : Block) (bit : Nat) (s : State) : (setFlag b bit s).maps = s.maps := rfl
@[simp] theorem setFlag_stagedMaps (b : Block) (bit : Nat) (s : State) : (setFlag b bit s).stagedMaps = s.stagedMaps := rfl
@[simp] theorem setFlag_cal (b : Block) (bit : Nat) (s : State) : (setFlag b bit s).cal = s.cal := rfl
@[simp] theorem setFlag_opt (b : Block) (bit : Nat) (s : State) : (setFlag b bit s).opt = s.opt := rfl
@[simp] theorem setFlag_rdx (b : Block) (bit : Nat) (s : State) : (setFlag b bit s).rdx = s.rdx := rfl
@[simp] theorem setFlag_out (b : Block) (bit : Nat) (s : State) : (setFlag b bit s).out = s.out := rfl
@[simp] theorem setFlag_pending (b : Block) (bit : Nat) (s : State) : (setFlag b bit s).pending = s.pending := rfl

/-! `bump` -/

@[simp] theorem bump_mod (off n : Nat) (s : State) : (bump off n s).mod = s.mod := rfl
@[simp] theorem bump_log (off n : Nat) (s : State) : (bump off n s).log = s.log := rfl
@[simp] theorem bump_logProd (off n : Nat) (s : State) : (bump off n s).logProd = s.logProd := rfl
@[simp] theorem bump_flags (off n : Nat) (s : State) : (bump off n s).flags = s.flags := rfl
@[simp] theorem bump_regs (off n : Nat) (s : State) : (bump off n s).regs = s.regs := rfl
@[simp] theorem bump_nst (off n : Nat) (s : State) : (bump off n s).nst = s.nst := rfl
@[simp] theorem bump_rcv (off n : Nat) (s : State) : (bump off n s).rcv = s.rcv := rfl
@[simp] theorem bump_fwu (off n : Nat) (s : State) : (bump off n s).fwu = s.fwu := rfl
@[simp] theorem bump_doors (off n : Nat) (s : State) : (bump off n s).doors = s.doors := rfl
@[simp] theorem bump_vfs (off n : Nat) (s : State) : (bump off n s).vfs = s.vfs := rfl
@[simp] theorem bump_hif (off n : Nat) (s : State) : (bump off n s).hif = s.hif := rfl
@[simp] theorem bump_copies (off n : Nat) (s : State) : (bump off n s).copies = s.copies := rfl
@[simp] theorem bump_mem (off n : Nat) (s : State) : (bump off n s).mem = s.mem := rfl
@[simp] theorem bump_trs (off n : Nat) (s : State) : (bump off n s).trs = s.trs := rfl
@[simp] theorem bump_drs (off n : Nat) (s : State) : (bump off n s).drs = s.drs := rfl
@[simp] theorem bump_steps (off n : Nat) (s : State) : (bump off n s).steps = s.steps := rfl
@[simp] theorem bump_drawers (off n : Nat) (s : State) : (bump off n s).drawers = s.drawers := rfl
@[simp] theorem bump_chests (off n : Nat) (s : State) : (bump off n s).chests = s.chests := rfl
@[simp] theorem bump_maps (off n : Nat) (s : State) : (bump off n s).maps = s.maps := rfl
@[simp] theorem bump_stagedMaps (off n : Nat) (s : State) : (bump off n s).stagedMaps = s.stagedMaps := rfl
@[simp] theorem bump_cal (off n : Nat) (s : State) : (bump off n s).cal = s.cal := rfl
@[simp] theorem bump_opt (off n : Nat) (s : State) : (bump off n s).opt = s.opt := rfl
@[simp] theorem bump_rdx (off n : Nat) (s : State) : (bump off n s).rdx = s.rdx := rfl
@[simp] theorem bump_out (off n : Nat) (s : State) : (bump off n s).out = s.out := rfl
@[simp] theorem bump_pending (off n : Nat) (s : State) : (bump off n s).pending = s.pending := rfl

/-! `logEntry` -/

@[simp] theorem logEntry_mod (e : LogEntry) (s : State) : (logEntry e s).mod = s.mod := rfl
@[simp] theorem logEntry_flags (e : LogEntry) (s : State) : (logEntry e s).flags = s.flags := rfl
@[simp] theorem logEntry_cnt (e : LogEntry) (s : State) : (logEntry e s).cnt = s.cnt := rfl
@[simp] theorem logEntry_regs (e : LogEntry) (s : State) : (logEntry e s).regs = s.regs := rfl
@[simp] theorem logEntry_nst (e : LogEntry) (s : State) : (logEntry e s).nst = s.nst := rfl
@[simp] theorem logEntry_rcv (e : LogEntry) (s : State) : (logEntry e s).rcv = s.rcv := rfl
@[simp] theorem logEntry_fwu (e : LogEntry) (s : State) : (logEntry e s).fwu = s.fwu := rfl
@[simp] theorem logEntry_doors (e : LogEntry) (s : State) : (logEntry e s).doors = s.doors := rfl
@[simp] theorem logEntry_vfs (e : LogEntry) (s : State) : (logEntry e s).vfs = s.vfs := rfl
@[simp] theorem logEntry_hif (e : LogEntry) (s : State) : (logEntry e s).hif = s.hif := rfl
@[simp] theorem logEntry_copies (e : LogEntry) (s : State) : (logEntry e s).copies = s.copies := rfl
@[simp] theorem logEntry_mem (e : LogEntry) (s : State) : (logEntry e s).mem = s.mem := rfl
@[simp] theorem logEntry_trs (e : LogEntry) (s : State) : (logEntry e s).trs = s.trs := rfl
@[simp] theorem logEntry_drs (e : LogEntry) (s : State) : (logEntry e s).drs = s.drs := rfl
@[simp] theorem logEntry_steps (e : LogEntry) (s : State) : (logEntry e s).steps = s.steps := rfl
@[simp] theorem logEntry_drawers (e : LogEntry) (s : State) : (logEntry e s).drawers = s.drawers := rfl
@[simp] theorem logEntry_chests (e : LogEntry) (s : State) : (logEntry e s).chests = s.chests := rfl
@[simp] theorem logEntry_maps (e : LogEntry) (s : State) : (logEntry e s).maps = s.maps := rfl
@[simp] theorem logEntry_stagedMaps (e : LogEntry) (s : State) : (logEntry e s).stagedMaps = s.stagedMaps := rfl
@[simp] theorem logEntry_cal (e : LogEntry) (s : State) : (logEntry e s).cal = s.cal := rfl
@[simp] theorem logEntry_opt (e : LogEntry) (s : State) : (logEntry e s).opt = s.opt := rfl
@[simp] theorem logEntry_rdx (e : LogEntry) (s : State) : (logEntry e s).rdx = s.rdx := rfl
@[simp] theorem logEntry_out (e : LogEntry) (s : State) : (logEntry e s).out = s.out := rfl
@[simp] theorem logEntry_pending (e : LogEntry) (s : State) : (logEntry e s).pending = s.pending := rfl

/-! `emit` -/

@[simp] theorem emit_mod (o : Out) (s : State) : (emit o s).mod = s.mod := rfl
@[simp] theorem emit_log (o : Out) (s : State) : (emit o s).log = s.log := rfl
@[simp] theorem emit_logProd (o : Out) (s : State) : (emit o s).logProd = s.logProd := rfl
@[simp] theorem emit_flags (o : Out) (s : State) : (emit o s).flags = s.flags := rfl
@[simp] theorem emit_cnt (o : Out) (s : State) : (emit o s).cnt = s.cnt := rfl
@[simp] theorem emit_regs (o : Out) (s : State) : (emit o s).regs = s.regs := rfl
@[simp] theorem emit_nst (o : Out) (s : State) : (emit o s).nst = s.nst := rfl
@[simp] theorem emit_rcv (o : Out) (s : State) : (emit o s).rcv = s.rcv := rfl
@[simp] theorem emit_fwu (o : Out) (s : State) : (emit o s).fwu = s.fwu := rfl
@[simp] theorem emit_doors (o : Out) (s : State) : (emit o s).doors = s.doors := rfl
@[simp] theorem emit_vfs (o : Out) (s : State) : (emit o s).vfs = s.vfs := rfl
@[simp] theorem emit_hif (o : Out) (s : State) : (emit o s).hif = s.hif := rfl
@[simp] theorem emit_copies (o : Out) (s : State) : (emit o s).copies = s.copies := rfl
@[simp] theorem emit_mem (o : Out) (s : State) : (emit o s).mem = s.mem := rfl
@[simp] theorem emit_trs (o : Out) (s : State) : (emit o s).trs = s.trs := rfl
@[simp] theorem emit_drs (o : Out) (s : State) : (emit o s).drs = s.drs := rfl
@[simp] theorem emit_steps (o : Out) (s : State) : (emit o s).steps = s.steps := rfl
@[simp] theorem emit_drawers (o : Out) (s : State) : (emit o s).drawers = s.drawers := rfl
@[simp] theorem emit_chests (o : Out) (s : State) : (emit o s).chests = s.chests := rfl
@[simp] theorem emit_maps (o : Out) (s : State) : (emit o s).maps = s.maps := rfl
@[simp] theorem emit_stagedMaps (o : Out) (s : State) : (emit o s).stagedMaps = s.stagedMaps := rfl
@[simp] theorem emit_cal (o : Out) (s : State) : (emit o s).cal = s.cal := rfl
@[simp] theorem emit_opt (o : Out) (s : State) : (emit o s).opt = s.opt := rfl
@[simp] theorem emit_rdx (o : Out) (s : State) : (emit o s).rdx = s.rdx := rfl
@[simp] theorem emit_pending (o : Out) (s : State) : (emit o s).pending = s.pending := rfl

@[simp] theorem hostReads_mod (fn addr n : Nat) (s : State) : (hostReads fn addr n s).mod = s.mod := rfl
@[simp] theorem hostReads_log (fn addr n : Nat) (s : State) : (hostReads fn addr n s).log = s.log := rfl
@[simp] theorem hostReads_logProd (fn addr n : Nat) (s : State) : (hostReads fn addr n s).logProd = s.logProd := rfl
@[simp] theorem hostReads_flags (fn addr n : Nat) (s : State) : (hostReads fn addr n s).flags = s.flags := rfl
@[simp] theorem hostReads_cnt (fn addr n : Nat) (s : State) : (hostReads fn addr n s).cnt = s.cnt := rfl
@[simp] theorem hostReads_regs (fn addr n : Nat) (s : State) : (hostReads fn addr n s).regs = s.regs := rfl
@[simp] theorem hostReads_nst (fn addr n : Nat) (s : State) : (hostReads fn addr n s).nst = s.nst := rfl
@[simp] theorem hostReads_rcv (fn addr n : Nat) (s : State) : (hostReads fn addr n s).rcv = s.rcv := rfl
@[simp] theorem hostReads_fwu (fn addr n : Nat) (s : State) : (hostReads fn addr n s).fwu = s.fwu := rfl
@[simp] theorem hostReads_doors (fn addr n : Nat) (s : State) : (hostReads fn addr n s).doors = s.doors := rfl
@[simp] theorem hostReads_vfs (fn addr n : Nat) (s : State) : (hostReads fn addr n s).vfs = s.vfs := rfl
@[simp] theorem hostReads_hif (fn addr n : Nat) (s : State) : (hostReads fn addr n s).hif = s.hif := rfl
@[simp] theorem hostReads_copies (fn addr n : Nat) (s : State) : (hostReads fn addr n s).copies = s.copies := rfl
@[simp] theorem hostReads_mem (fn addr n : Nat) (s : State) : (hostReads fn addr n s).mem = s.mem := rfl
@[simp] theorem hostReads_trs (fn addr n : Nat) (s : State) : (hostReads fn addr n s).trs = s.trs := rfl
@[simp] theorem hostReads_drs (fn addr n : Nat) (s : State) : (hostReads fn addr n s).drs = s.drs := rfl
@[simp] theorem hostReads_steps (fn addr n : Nat) (s : State) : (hostReads fn addr n s).steps = s.steps := rfl
@[simp] theorem hostReads_drawers (fn addr n : Nat) (s : State) : (hostReads fn addr n s).drawers = s.drawers := rfl
@[simp] theorem hostReads_chests (fn addr n : Nat) (s : State) : (hostReads fn addr n s).chests = s.chests := rfl
@[simp] theorem hostReads_maps (fn addr n : Nat) (s : State) : (hostReads fn addr n s).maps = s.maps := rfl
@[simp] theorem hostReads_stagedMaps (fn addr n : Nat) (s : State) : (hostReads fn addr n s).stagedMaps = s.stagedMaps := rfl
@[simp] theorem hostReads_cal (fn addr n : Nat) (s : State) : (hostReads fn addr n s).cal = s.cal := rfl
@[simp] theorem hostReads_opt (fn addr n : Nat) (s : State) : (hostReads fn addr n s).opt = s.opt := rfl
@[simp] theorem hostReads_rdx (fn addr n : Nat) (s : State) : (hostReads fn addr n s).rdx = s.rdx := rfl
@[simp] theorem hostReads_pending (fn addr n : Nat) (s : State) : (hostReads fn addr n s).pending = s.pending := rfl

/-! `modDoor` -/

@[simp] theorem modDoor_mod (ctx : Nat) (f : Door → Door) (s : State) : (modDoor ctx f s).mod = s.mod := rfl
@[simp] theorem modDoor_log (ctx : Nat) (f : Door → Door) (s : State) : (modDoor ctx f s).log = s.log := rfl
@[simp] theorem modDoor_logProd (ctx : Nat) (f : Door → Door) (s : State) : (modDoor ctx f s).logProd = s.logProd := rfl
@[simp] theorem modDoor_flags (ctx : Nat) (f : Door → Door) (s : State) : (modDoor ctx f s).flags = s.flags := rfl
@[simp] theorem modDoor_cnt (ctx : Nat) (f : Door → Door) (s : State) : (modDoor ctx f s).cnt = s.cnt := rfl
@[simp] theorem modDoor_regs (ctx : Nat) (f : Door → Door) (s : State) : (modDoor ctx f s).regs = s.regs := rfl
@[simp] theorem modDoor_nst (ctx : Nat) (f : Door → Door) (s : State) : (modDoor ctx f s).nst = s.nst := rfl
@[simp] theorem modDoor_rcv (ctx : Nat) (f : Door → Door) (s : State) : (modDoor ctx f s).rcv = s.rcv := rfl
@[simp] theorem modDoor_fwu (ctx : Nat) (f : Door → Door) (s : State) : (modDoor ctx f s).fwu = s.fwu := rfl
@[simp] theorem modDoor_vfs (ctx : Nat) (f : Door → Door) (s : State) : (modDoor ctx f s).vfs = s.vfs := rfl
@[simp] theorem modDoor_hif (ctx : Nat) (f : Door → Door) (s : State) : (modDoor ctx f s).hif = s.hif := rfl
@[simp] theorem modDoor_copies (ctx : Nat) (f : Door → Door) (s : State) : (modDoor ctx f s).copies = s.copies := rfl
@[simp] theorem modDoor_mem (ctx : Nat) (f : Door → Door) (s : State) : (modDoor ctx f s).mem = s.mem := rfl
@[simp] theorem modDoor_trs (ctx : Nat) (f : Door → Door) (s : State) : (modDoor ctx f s).trs = s.trs := rfl
@[simp] theorem modDoor_drs (ctx : Nat) (f : Door → Door) (s : State) : (modDoor ctx f s).drs = s.drs := rfl
@[simp] theorem modDoor_steps (ctx : Nat) (f : Door → Door) (s : State) : (modDoor ctx f s).steps = s.steps := rfl
@[simp] theorem modDoor_drawers (ctx : Nat) (f : Door → Door) (s : State) : (modDoor ctx f s).drawers = s.drawers := rfl
@[simp] theorem modDoor_chests (ctx : Nat) (f : Door → Door) (s : State) : (modDoor ctx f s).chests = s.chests := rfl
@[simp] theorem modDoor_maps (ctx : Nat) (f : Door → Door) (s : State) : (modDoor ctx f s).maps = s.maps := rfl
@[simp] theorem modDoor_stagedMaps (ctx : Nat) (f : Door → Door) (s : State) : (modDoor ctx f s).stagedMaps = s.stagedMaps := rfl
@[simp] theorem modDoor_cal (ctx : Nat) (f : Door → Door) (s : State) : (modDoor ctx f s).cal = s.cal := rfl
@[simp] theorem modDoor_opt (ctx : Nat) (f : Door → Door) (s : State) : (modDoor ctx f s).opt = s.opt := rfl
@[simp] theorem modDoor_rdx (ctx : Nat) (f : Door → Door) (s : State) : (modDoor ctx f s).rdx = s.rdx := rfl
@[simp] theorem modDoor_out (ctx : Nat) (f : Door → Door) (s : State) : (modDoor ctx f s).out = s.out := rfl
@[simp] theorem modDoor_pending (ctx : Nat) (f : Door → Door) (s : State) : (modDoor ctx f s).pending = s.pending := rfl

/-! `modRing` -/

@[simp] theorem modRing_mod (ctx ring : Nat) (f : Ring → Ring) (s : State) : (modRing ctx ring f s).mod = s.mod := rfl
@[simp] theorem modRing_log (ctx ring : Nat) (f : Ring → Ring) (s : State) : (modRing ctx ring f s).log = s.log := rfl
@[simp] theorem modRing_logProd (ctx ring : Nat) (f : Ring → Ring) (s : State) : (modRing ctx ring f s).logProd = s.logProd := rfl
@[simp] theorem modRing_flags (ctx ring : Nat) (f : Ring → Ring) (s : State) : (modRing ctx ring f s).flags = s.flags := rfl
@[simp] theorem modRing_cnt (ctx ring : Nat) (f : Ring → Ring) (s : State) : (modRing ctx ring f s).cnt = s.cnt := rfl
@[simp] theorem modRing_regs (ctx ring : Nat) (f : Ring → Ring) (s : State) : (modRing ctx ring f s).regs = s.regs := rfl
@[simp] theorem modRing_nst (ctx ring : Nat) (f : Ring → Ring) (s : State) : (modRing ctx ring f s).nst = s.nst := rfl
@[simp] theorem modRing_rcv (ctx ring : Nat) (f : Ring → Ring) (s : State) : (modRing ctx ring f s).rcv = s.rcv := rfl
@[simp] theorem modRing_fwu (ctx ring : Nat) (f : Ring → Ring) (s : State) : (modRing ctx ring f s).fwu = s.fwu := rfl
@[simp] theorem modRing_vfs (ctx ring : Nat) (f : Ring → Ring) (s : State) : (modRing ctx ring f s).vfs = s.vfs := rfl
@[simp] theorem modRing_hif (ctx ring : Nat) (f : Ring → Ring) (s : State) : (modRing ctx ring f s).hif = s.hif := rfl
@[simp] theorem modRing_copies (ctx ring : Nat) (f : Ring → Ring) (s : State) : (modRing ctx ring f s).copies = s.copies := rfl
@[simp] theorem modRing_mem (ctx ring : Nat) (f : Ring → Ring) (s : State) : (modRing ctx ring f s).mem = s.mem := rfl
@[simp] theorem modRing_trs (ctx ring : Nat) (f : Ring → Ring) (s : State) : (modRing ctx ring f s).trs = s.trs := rfl
@[simp] theorem modRing_drs (ctx ring : Nat) (f : Ring → Ring) (s : State) : (modRing ctx ring f s).drs = s.drs := rfl
@[simp] theorem modRing_steps (ctx ring : Nat) (f : Ring → Ring) (s : State) : (modRing ctx ring f s).steps = s.steps := rfl
@[simp] theorem modRing_drawers (ctx ring : Nat) (f : Ring → Ring) (s : State) : (modRing ctx ring f s).drawers = s.drawers := rfl
@[simp] theorem modRing_chests (ctx ring : Nat) (f : Ring → Ring) (s : State) : (modRing ctx ring f s).chests = s.chests := rfl
@[simp] theorem modRing_maps (ctx ring : Nat) (f : Ring → Ring) (s : State) : (modRing ctx ring f s).maps = s.maps := rfl
@[simp] theorem modRing_stagedMaps (ctx ring : Nat) (f : Ring → Ring) (s : State) : (modRing ctx ring f s).stagedMaps = s.stagedMaps := rfl
@[simp] theorem modRing_cal (ctx ring : Nat) (f : Ring → Ring) (s : State) : (modRing ctx ring f s).cal = s.cal := rfl
@[simp] theorem modRing_opt (ctx ring : Nat) (f : Ring → Ring) (s : State) : (modRing ctx ring f s).opt = s.opt := rfl
@[simp] theorem modRing_rdx (ctx ring : Nat) (f : Ring → Ring) (s : State) : (modRing ctx ring f s).rdx = s.rdx := rfl
@[simp] theorem modRing_out (ctx ring : Nat) (f : Ring → Ring) (s : State) : (modRing ctx ring f s).out = s.out := rfl
@[simp] theorem modRing_pending (ctx ring : Nat) (f : Ring → Ring) (s : State) : (modRing ctx ring f s).pending = s.pending := rfl

@[simp] theorem addFlush_mod (ctx ring : Nat) (f : Flush) (s : State) : (addFlush ctx ring f s).mod = s.mod := rfl
@[simp] theorem addFlush_log (ctx ring : Nat) (f : Flush) (s : State) : (addFlush ctx ring f s).log = s.log := rfl
@[simp] theorem addFlush_logProd (ctx ring : Nat) (f : Flush) (s : State) : (addFlush ctx ring f s).logProd = s.logProd := rfl
@[simp] theorem addFlush_flags (ctx ring : Nat) (f : Flush) (s : State) : (addFlush ctx ring f s).flags = s.flags := rfl
@[simp] theorem addFlush_cnt (ctx ring : Nat) (f : Flush) (s : State) : (addFlush ctx ring f s).cnt = s.cnt := rfl
@[simp] theorem addFlush_regs (ctx ring : Nat) (f : Flush) (s : State) : (addFlush ctx ring f s).regs = s.regs := rfl
@[simp] theorem addFlush_nst (ctx ring : Nat) (f : Flush) (s : State) : (addFlush ctx ring f s).nst = s.nst := rfl
@[simp] theorem addFlush_rcv (ctx ring : Nat) (f : Flush) (s : State) : (addFlush ctx ring f s).rcv = s.rcv := rfl
@[simp] theorem addFlush_fwu (ctx ring : Nat) (f : Flush) (s : State) : (addFlush ctx ring f s).fwu = s.fwu := rfl
@[simp] theorem addFlush_vfs (ctx ring : Nat) (f : Flush) (s : State) : (addFlush ctx ring f s).vfs = s.vfs := rfl
@[simp] theorem addFlush_hif (ctx ring : Nat) (f : Flush) (s : State) : (addFlush ctx ring f s).hif = s.hif := rfl
@[simp] theorem addFlush_copies (ctx ring : Nat) (f : Flush) (s : State) : (addFlush ctx ring f s).copies = s.copies := rfl
@[simp] theorem addFlush_mem (ctx ring : Nat) (f : Flush) (s : State) : (addFlush ctx ring f s).mem = s.mem := rfl
@[simp] theorem addFlush_trs (ctx ring : Nat) (f : Flush) (s : State) : (addFlush ctx ring f s).trs = s.trs := rfl
@[simp] theorem addFlush_drs (ctx ring : Nat) (f : Flush) (s : State) : (addFlush ctx ring f s).drs = s.drs := rfl
@[simp] theorem addFlush_steps (ctx ring : Nat) (f : Flush) (s : State) : (addFlush ctx ring f s).steps = s.steps := rfl
@[simp] theorem addFlush_drawers (ctx ring : Nat) (f : Flush) (s : State) : (addFlush ctx ring f s).drawers = s.drawers := rfl
@[simp] theorem addFlush_chests (ctx ring : Nat) (f : Flush) (s : State) : (addFlush ctx ring f s).chests = s.chests := rfl
@[simp] theorem addFlush_maps (ctx ring : Nat) (f : Flush) (s : State) : (addFlush ctx ring f s).maps = s.maps := rfl
@[simp] theorem addFlush_stagedMaps (ctx ring : Nat) (f : Flush) (s : State) : (addFlush ctx ring f s).stagedMaps = s.stagedMaps := rfl
@[simp] theorem addFlush_cal (ctx ring : Nat) (f : Flush) (s : State) : (addFlush ctx ring f s).cal = s.cal := rfl
@[simp] theorem addFlush_opt (ctx ring : Nat) (f : Flush) (s : State) : (addFlush ctx ring f s).opt = s.opt := rfl
@[simp] theorem addFlush_rdx (ctx ring : Nat) (f : Flush) (s : State) : (addFlush ctx ring f s).rdx = s.rdx := rfl
@[simp] theorem addFlush_out (ctx ring : Nat) (f : Flush) (s : State) : (addFlush ctx ring f s).out = s.out := rfl
@[simp] theorem addFlush_pending (ctx ring : Nat) (f : Flush) (s : State) : (addFlush ctx ring f s).pending = s.pending := rfl

/-! `setSem` -/

@[simp] theorem setSem_mod (ctx i : Nat) (v : Word) (s : State) : (setSem ctx i v s).mod = s.mod := rfl
@[simp] theorem setSem_log (ctx i : Nat) (v : Word) (s : State) : (setSem ctx i v s).log = s.log := rfl
@[simp] theorem setSem_logProd (ctx i : Nat) (v : Word) (s : State) : (setSem ctx i v s).logProd = s.logProd := rfl
@[simp] theorem setSem_flags (ctx i : Nat) (v : Word) (s : State) : (setSem ctx i v s).flags = s.flags := rfl
@[simp] theorem setSem_cnt (ctx i : Nat) (v : Word) (s : State) : (setSem ctx i v s).cnt = s.cnt := rfl
@[simp] theorem setSem_regs (ctx i : Nat) (v : Word) (s : State) : (setSem ctx i v s).regs = s.regs := rfl
@[simp] theorem setSem_nst (ctx i : Nat) (v : Word) (s : State) : (setSem ctx i v s).nst = s.nst := rfl
@[simp] theorem setSem_rcv (ctx i : Nat) (v : Word) (s : State) : (setSem ctx i v s).rcv = s.rcv := rfl
@[simp] theorem setSem_fwu (ctx i : Nat) (v : Word) (s : State) : (setSem ctx i v s).fwu = s.fwu := rfl
@[simp] theorem setSem_vfs (ctx i : Nat) (v : Word) (s : State) : (setSem ctx i v s).vfs = s.vfs := rfl
@[simp] theorem setSem_hif (ctx i : Nat) (v : Word) (s : State) : (setSem ctx i v s).hif = s.hif := rfl
@[simp] theorem setSem_copies (ctx i : Nat) (v : Word) (s : State) : (setSem ctx i v s).copies = s.copies := rfl
@[simp] theorem setSem_mem (ctx i : Nat) (v : Word) (s : State) : (setSem ctx i v s).mem = s.mem := rfl
@[simp] theorem setSem_trs (ctx i : Nat) (v : Word) (s : State) : (setSem ctx i v s).trs = s.trs := rfl
@[simp] theorem setSem_drs (ctx i : Nat) (v : Word) (s : State) : (setSem ctx i v s).drs = s.drs := rfl
@[simp] theorem setSem_steps (ctx i : Nat) (v : Word) (s : State) : (setSem ctx i v s).steps = s.steps := rfl
@[simp] theorem setSem_drawers (ctx i : Nat) (v : Word) (s : State) : (setSem ctx i v s).drawers = s.drawers := rfl
@[simp] theorem setSem_chests (ctx i : Nat) (v : Word) (s : State) : (setSem ctx i v s).chests = s.chests := rfl
@[simp] theorem setSem_maps (ctx i : Nat) (v : Word) (s : State) : (setSem ctx i v s).maps = s.maps := rfl
@[simp] theorem setSem_stagedMaps (ctx i : Nat) (v : Word) (s : State) : (setSem ctx i v s).stagedMaps = s.stagedMaps := rfl
@[simp] theorem setSem_cal (ctx i : Nat) (v : Word) (s : State) : (setSem ctx i v s).cal = s.cal := rfl
@[simp] theorem setSem_opt (ctx i : Nat) (v : Word) (s : State) : (setSem ctx i v s).opt = s.opt := rfl
@[simp] theorem setSem_rdx (ctx i : Nat) (v : Word) (s : State) : (setSem ctx i v s).rdx = s.rdx := rfl
@[simp] theorem setSem_out (ctx i : Nat) (v : Word) (s : State) : (setSem ctx i v s).out = s.out := rfl
@[simp] theorem setSem_pending (ctx i : Nat) (v : Word) (s : State) : (setSem ctx i v s).pending = s.pending := rfl

/-! `modStepCtx` -/

@[simp] theorem modStepCtx_mod (ctx : Nat) (f : StepCtx → StepCtx) (s : State) : (modStepCtx ctx f s).mod = s.mod := rfl
@[simp] theorem modStepCtx_log (ctx : Nat) (f : StepCtx → StepCtx) (s : State) : (modStepCtx ctx f s).log = s.log := rfl
@[simp] theorem modStepCtx_logProd (ctx : Nat) (f : StepCtx → StepCtx) (s : State) : (modStepCtx ctx f s).logProd = s.logProd := rfl
@[simp] theorem modStepCtx_flags (ctx : Nat) (f : StepCtx → StepCtx) (s : State) : (modStepCtx ctx f s).flags = s.flags := rfl
@[simp] theorem modStepCtx_cnt (ctx : Nat) (f : StepCtx → StepCtx) (s : State) : (modStepCtx ctx f s).cnt = s.cnt := rfl
@[simp] theorem modStepCtx_regs (ctx : Nat) (f : StepCtx → StepCtx) (s : State) : (modStepCtx ctx f s).regs = s.regs := rfl
@[simp] theorem modStepCtx_nst (ctx : Nat) (f : StepCtx → StepCtx) (s : State) : (modStepCtx ctx f s).nst = s.nst := rfl
@[simp] theorem modStepCtx_rcv (ctx : Nat) (f : StepCtx → StepCtx) (s : State) : (modStepCtx ctx f s).rcv = s.rcv := rfl
@[simp] theorem modStepCtx_fwu (ctx : Nat) (f : StepCtx → StepCtx) (s : State) : (modStepCtx ctx f s).fwu = s.fwu := rfl
@[simp] theorem modStepCtx_doors (ctx : Nat) (f : StepCtx → StepCtx) (s : State) : (modStepCtx ctx f s).doors = s.doors := rfl
@[simp] theorem modStepCtx_vfs (ctx : Nat) (f : StepCtx → StepCtx) (s : State) : (modStepCtx ctx f s).vfs = s.vfs := rfl
@[simp] theorem modStepCtx_hif (ctx : Nat) (f : StepCtx → StepCtx) (s : State) : (modStepCtx ctx f s).hif = s.hif := rfl
@[simp] theorem modStepCtx_copies (ctx : Nat) (f : StepCtx → StepCtx) (s : State) : (modStepCtx ctx f s).copies = s.copies := rfl
@[simp] theorem modStepCtx_mem (ctx : Nat) (f : StepCtx → StepCtx) (s : State) : (modStepCtx ctx f s).mem = s.mem := rfl
@[simp] theorem modStepCtx_trs (ctx : Nat) (f : StepCtx → StepCtx) (s : State) : (modStepCtx ctx f s).trs = s.trs := rfl
@[simp] theorem modStepCtx_drs (ctx : Nat) (f : StepCtx → StepCtx) (s : State) : (modStepCtx ctx f s).drs = s.drs := rfl
@[simp] theorem modStepCtx_drawers (ctx : Nat) (f : StepCtx → StepCtx) (s : State) : (modStepCtx ctx f s).drawers = s.drawers := rfl
@[simp] theorem modStepCtx_chests (ctx : Nat) (f : StepCtx → StepCtx) (s : State) : (modStepCtx ctx f s).chests = s.chests := rfl
@[simp] theorem modStepCtx_maps (ctx : Nat) (f : StepCtx → StepCtx) (s : State) : (modStepCtx ctx f s).maps = s.maps := rfl
@[simp] theorem modStepCtx_stagedMaps (ctx : Nat) (f : StepCtx → StepCtx) (s : State) : (modStepCtx ctx f s).stagedMaps = s.stagedMaps := rfl
@[simp] theorem modStepCtx_cal (ctx : Nat) (f : StepCtx → StepCtx) (s : State) : (modStepCtx ctx f s).cal = s.cal := rfl
@[simp] theorem modStepCtx_opt (ctx : Nat) (f : StepCtx → StepCtx) (s : State) : (modStepCtx ctx f s).opt = s.opt := rfl
@[simp] theorem modStepCtx_rdx (ctx : Nat) (f : StepCtx → StepCtx) (s : State) : (modStepCtx ctx f s).rdx = s.rdx := rfl
@[simp] theorem modStepCtx_out (ctx : Nat) (f : StepCtx → StepCtx) (s : State) : (modStepCtx ctx f s).out = s.out := rfl
@[simp] theorem modStepCtx_pending (ctx : Nat) (f : StepCtx → StepCtx) (s : State) : (modStepCtx ctx f s).pending = s.pending := rfl

/-! `modOpen` -/

@[simp] theorem modOpen_mod (ctx : Nat) (f : OpenStep → OpenStep) (s : State) : (modOpen ctx f s).mod = s.mod := rfl
@[simp] theorem modOpen_log (ctx : Nat) (f : OpenStep → OpenStep) (s : State) : (modOpen ctx f s).log = s.log := rfl
@[simp] theorem modOpen_logProd (ctx : Nat) (f : OpenStep → OpenStep) (s : State) : (modOpen ctx f s).logProd = s.logProd := rfl
@[simp] theorem modOpen_flags (ctx : Nat) (f : OpenStep → OpenStep) (s : State) : (modOpen ctx f s).flags = s.flags := rfl
@[simp] theorem modOpen_cnt (ctx : Nat) (f : OpenStep → OpenStep) (s : State) : (modOpen ctx f s).cnt = s.cnt := rfl
@[simp] theorem modOpen_regs (ctx : Nat) (f : OpenStep → OpenStep) (s : State) : (modOpen ctx f s).regs = s.regs := rfl
@[simp] theorem modOpen_nst (ctx : Nat) (f : OpenStep → OpenStep) (s : State) : (modOpen ctx f s).nst = s.nst := rfl
@[simp] theorem modOpen_rcv (ctx : Nat) (f : OpenStep → OpenStep) (s : State) : (modOpen ctx f s).rcv = s.rcv := rfl
@[simp] theorem modOpen_fwu (ctx : Nat) (f : OpenStep → OpenStep) (s : State) : (modOpen ctx f s).fwu = s.fwu := rfl
@[simp] theorem modOpen_doors (ctx : Nat) (f : OpenStep → OpenStep) (s : State) : (modOpen ctx f s).doors = s.doors := rfl
@[simp] theorem modOpen_vfs (ctx : Nat) (f : OpenStep → OpenStep) (s : State) : (modOpen ctx f s).vfs = s.vfs := rfl
@[simp] theorem modOpen_hif (ctx : Nat) (f : OpenStep → OpenStep) (s : State) : (modOpen ctx f s).hif = s.hif := rfl
@[simp] theorem modOpen_copies (ctx : Nat) (f : OpenStep → OpenStep) (s : State) : (modOpen ctx f s).copies = s.copies := rfl
@[simp] theorem modOpen_mem (ctx : Nat) (f : OpenStep → OpenStep) (s : State) : (modOpen ctx f s).mem = s.mem := rfl
@[simp] theorem modOpen_trs (ctx : Nat) (f : OpenStep → OpenStep) (s : State) : (modOpen ctx f s).trs = s.trs := rfl
@[simp] theorem modOpen_drs (ctx : Nat) (f : OpenStep → OpenStep) (s : State) : (modOpen ctx f s).drs = s.drs := rfl
@[simp] theorem modOpen_drawers (ctx : Nat) (f : OpenStep → OpenStep) (s : State) : (modOpen ctx f s).drawers = s.drawers := rfl
@[simp] theorem modOpen_chests (ctx : Nat) (f : OpenStep → OpenStep) (s : State) : (modOpen ctx f s).chests = s.chests := rfl
@[simp] theorem modOpen_maps (ctx : Nat) (f : OpenStep → OpenStep) (s : State) : (modOpen ctx f s).maps = s.maps := rfl
@[simp] theorem modOpen_stagedMaps (ctx : Nat) (f : OpenStep → OpenStep) (s : State) : (modOpen ctx f s).stagedMaps = s.stagedMaps := rfl
@[simp] theorem modOpen_cal (ctx : Nat) (f : OpenStep → OpenStep) (s : State) : (modOpen ctx f s).cal = s.cal := rfl
@[simp] theorem modOpen_opt (ctx : Nat) (f : OpenStep → OpenStep) (s : State) : (modOpen ctx f s).opt = s.opt := rfl
@[simp] theorem modOpen_rdx (ctx : Nat) (f : OpenStep → OpenStep) (s : State) : (modOpen ctx f s).rdx = s.rdx := rfl
@[simp] theorem modOpen_out (ctx : Nat) (f : OpenStep → OpenStep) (s : State) : (modOpen ctx f s).out = s.out := rfl
@[simp] theorem modOpen_pending (ctx : Nat) (f : OpenStep → OpenStep) (s : State) : (modOpen ctx f s).pending = s.pending := rfl

/-! `modDrawer` -/

@[simp] theorem modDrawer_mod (d : Nat) (f : Drawer → Drawer) (s : State) : (modDrawer d f s).mod = s.mod := rfl
@[simp] theorem modDrawer_log (d : Nat) (f : Drawer → Drawer) (s : State) : (modDrawer d f s).log = s.log := rfl
@[simp] theorem modDrawer_logProd (d : Nat) (f : Drawer → Drawer) (s : State) : (modDrawer d f s).logProd = s.logProd := rfl
@[simp] theorem modDrawer_flags (d : Nat) (f : Drawer → Drawer) (s : State) : (modDrawer d f s).flags = s.flags := rfl
@[simp] theorem modDrawer_cnt (d : Nat) (f : Drawer → Drawer) (s : State) : (modDrawer d f s).cnt = s.cnt := rfl
@[simp] theorem modDrawer_regs (d : Nat) (f : Drawer → Drawer) (s : State) : (modDrawer d f s).regs = s.regs := rfl
@[simp] theorem modDrawer_nst (d : Nat) (f : Drawer → Drawer) (s : State) : (modDrawer d f s).nst = s.nst := rfl
@[simp] theorem modDrawer_rcv (d : Nat) (f : Drawer → Drawer) (s : State) : (modDrawer d f s).rcv = s.rcv := rfl
@[simp] theorem modDrawer_fwu (d : Nat) (f : Drawer → Drawer) (s : State) : (modDrawer d f s).fwu = s.fwu := rfl
@[simp] theorem modDrawer_doors (d : Nat) (f : Drawer → Drawer) (s : State) : (modDrawer d f s).doors = s.doors := rfl
@[simp] theorem modDrawer_vfs (d : Nat) (f : Drawer → Drawer) (s : State) : (modDrawer d f s).vfs = s.vfs := rfl
@[simp] theorem modDrawer_hif (d : Nat) (f : Drawer → Drawer) (s : State) : (modDrawer d f s).hif = s.hif := rfl
@[simp] theorem modDrawer_copies (d : Nat) (f : Drawer → Drawer) (s : State) : (modDrawer d f s).copies = s.copies := rfl
@[simp] theorem modDrawer_mem (d : Nat) (f : Drawer → Drawer) (s : State) : (modDrawer d f s).mem = s.mem := rfl
@[simp] theorem modDrawer_trs (d : Nat) (f : Drawer → Drawer) (s : State) : (modDrawer d f s).trs = s.trs := rfl
@[simp] theorem modDrawer_drs (d : Nat) (f : Drawer → Drawer) (s : State) : (modDrawer d f s).drs = s.drs := rfl
@[simp] theorem modDrawer_steps (d : Nat) (f : Drawer → Drawer) (s : State) : (modDrawer d f s).steps = s.steps := rfl
@[simp] theorem modDrawer_chests (d : Nat) (f : Drawer → Drawer) (s : State) : (modDrawer d f s).chests = s.chests := rfl
@[simp] theorem modDrawer_maps (d : Nat) (f : Drawer → Drawer) (s : State) : (modDrawer d f s).maps = s.maps := rfl
@[simp] theorem modDrawer_stagedMaps (d : Nat) (f : Drawer → Drawer) (s : State) : (modDrawer d f s).stagedMaps = s.stagedMaps := rfl
@[simp] theorem modDrawer_cal (d : Nat) (f : Drawer → Drawer) (s : State) : (modDrawer d f s).cal = s.cal := rfl
@[simp] theorem modDrawer_opt (d : Nat) (f : Drawer → Drawer) (s : State) : (modDrawer d f s).opt = s.opt := rfl
@[simp] theorem modDrawer_rdx (d : Nat) (f : Drawer → Drawer) (s : State) : (modDrawer d f s).rdx = s.rdx := rfl
@[simp] theorem modDrawer_out (d : Nat) (f : Drawer → Drawer) (s : State) : (modDrawer d f s).out = s.out := rfl
@[simp] theorem modDrawer_pending (d : Nat) (f : Drawer → Drawer) (s : State) : (modDrawer d f s).pending = s.pending := rfl

/-! `modPlane` -/

@[simp] theorem modPlane_mod (d p : Nat) (f : Plane → Plane) (s : State) : (modPlane d p f s).mod = s.mod := rfl
@[simp] theorem modPlane_log (d p : Nat) (f : Plane → Plane) (s : State) : (modPlane d p f s).log = s.log := rfl
@[simp] theorem modPlane_logProd (d p : Nat) (f : Plane → Plane) (s : State) : (modPlane d p f s).logProd = s.logProd := rfl
@[simp] theorem modPlane_flags (d p : Nat) (f : Plane → Plane) (s : State) : (modPlane d p f s).flags = s.flags := rfl
@[simp] theorem modPlane_cnt (d p : Nat) (f : Plane → Plane) (s : State) : (modPlane d p f s).cnt = s.cnt := rfl
@[simp] theorem modPlane_regs (d p : Nat) (f : Plane → Plane) (s : State) : (modPlane d p f s).regs = s.regs := rfl
@[simp] theorem modPlane_nst (d p : Nat) (f : Plane → Plane) (s : State) : (modPlane d p f s).nst = s.nst := rfl
@[simp] theorem modPlane_rcv (d p : Nat) (f : Plane → Plane) (s : State) : (modPlane d p f s).rcv = s.rcv := rfl
@[simp] theorem modPlane_fwu (d p : Nat) (f : Plane → Plane) (s : State) : (modPlane d p f s).fwu = s.fwu := rfl
@[simp] theorem modPlane_doors (d p : Nat) (f : Plane → Plane) (s : State) : (modPlane d p f s).doors = s.doors := rfl
@[simp] theorem modPlane_vfs (d p : Nat) (f : Plane → Plane) (s : State) : (modPlane d p f s).vfs = s.vfs := rfl
@[simp] theorem modPlane_hif (d p : Nat) (f : Plane → Plane) (s : State) : (modPlane d p f s).hif = s.hif := rfl
@[simp] theorem modPlane_copies (d p : Nat) (f : Plane → Plane) (s : State) : (modPlane d p f s).copies = s.copies := rfl
@[simp] theorem modPlane_mem (d p : Nat) (f : Plane → Plane) (s : State) : (modPlane d p f s).mem = s.mem := rfl
@[simp] theorem modPlane_trs (d p : Nat) (f : Plane → Plane) (s : State) : (modPlane d p f s).trs = s.trs := rfl
@[simp] theorem modPlane_drs (d p : Nat) (f : Plane → Plane) (s : State) : (modPlane d p f s).drs = s.drs := rfl
@[simp] theorem modPlane_steps (d p : Nat) (f : Plane → Plane) (s : State) : (modPlane d p f s).steps = s.steps := rfl
@[simp] theorem modPlane_chests (d p : Nat) (f : Plane → Plane) (s : State) : (modPlane d p f s).chests = s.chests := rfl
@[simp] theorem modPlane_maps (d p : Nat) (f : Plane → Plane) (s : State) : (modPlane d p f s).maps = s.maps := rfl
@[simp] theorem modPlane_stagedMaps (d p : Nat) (f : Plane → Plane) (s : State) : (modPlane d p f s).stagedMaps = s.stagedMaps := rfl
@[simp] theorem modPlane_cal (d p : Nat) (f : Plane → Plane) (s : State) : (modPlane d p f s).cal = s.cal := rfl
@[simp] theorem modPlane_opt (d p : Nat) (f : Plane → Plane) (s : State) : (modPlane d p f s).opt = s.opt := rfl
@[simp] theorem modPlane_rdx (d p : Nat) (f : Plane → Plane) (s : State) : (modPlane d p f s).rdx = s.rdx := rfl
@[simp] theorem modPlane_out (d p : Nat) (f : Plane → Plane) (s : State) : (modPlane d p f s).out = s.out := rfl
@[simp] theorem modPlane_pending (d p : Nat) (f : Plane → Plane) (s : State) : (modPlane d p f s).pending = s.pending := rfl

/-! `modChest` -/

@[simp] theorem modChest_mod (c : Nat) (f : Chest → Chest) (s : State) : (modChest c f s).mod = s.mod := rfl
@[simp] theorem modChest_log (c : Nat) (f : Chest → Chest) (s : State) : (modChest c f s).log = s.log := rfl
@[simp] theorem modChest_logProd (c : Nat) (f : Chest → Chest) (s : State) : (modChest c f s).logProd = s.logProd := rfl
@[simp] theorem modChest_flags (c : Nat) (f : Chest → Chest) (s : State) : (modChest c f s).flags = s.flags := rfl
@[simp] theorem modChest_cnt (c : Nat) (f : Chest → Chest) (s : State) : (modChest c f s).cnt = s.cnt := rfl
@[simp] theorem modChest_regs (c : Nat) (f : Chest → Chest) (s : State) : (modChest c f s).regs = s.regs := rfl
@[simp] theorem modChest_nst (c : Nat) (f : Chest → Chest) (s : State) : (modChest c f s).nst = s.nst := rfl
@[simp] theorem modChest_rcv (c : Nat) (f : Chest → Chest) (s : State) : (modChest c f s).rcv = s.rcv := rfl
@[simp] theorem modChest_fwu (c : Nat) (f : Chest → Chest) (s : State) : (modChest c f s).fwu = s.fwu := rfl
@[simp] theorem modChest_doors (c : Nat) (f : Chest → Chest) (s : State) : (modChest c f s).doors = s.doors := rfl
@[simp] theorem modChest_vfs (c : Nat) (f : Chest → Chest) (s : State) : (modChest c f s).vfs = s.vfs := rfl
@[simp] theorem modChest_hif (c : Nat) (f : Chest → Chest) (s : State) : (modChest c f s).hif = s.hif := rfl
@[simp] theorem modChest_copies (c : Nat) (f : Chest → Chest) (s : State) : (modChest c f s).copies = s.copies := rfl
@[simp] theorem modChest_mem (c : Nat) (f : Chest → Chest) (s : State) : (modChest c f s).mem = s.mem := rfl
@[simp] theorem modChest_trs (c : Nat) (f : Chest → Chest) (s : State) : (modChest c f s).trs = s.trs := rfl
@[simp] theorem modChest_drs (c : Nat) (f : Chest → Chest) (s : State) : (modChest c f s).drs = s.drs := rfl
@[simp] theorem modChest_steps (c : Nat) (f : Chest → Chest) (s : State) : (modChest c f s).steps = s.steps := rfl
@[simp] theorem modChest_drawers (c : Nat) (f : Chest → Chest) (s : State) : (modChest c f s).drawers = s.drawers := rfl
@[simp] theorem modChest_maps (c : Nat) (f : Chest → Chest) (s : State) : (modChest c f s).maps = s.maps := rfl
@[simp] theorem modChest_stagedMaps (c : Nat) (f : Chest → Chest) (s : State) : (modChest c f s).stagedMaps = s.stagedMaps := rfl
@[simp] theorem modChest_cal (c : Nat) (f : Chest → Chest) (s : State) : (modChest c f s).cal = s.cal := rfl
@[simp] theorem modChest_opt (c : Nat) (f : Chest → Chest) (s : State) : (modChest c f s).opt = s.opt := rfl
@[simp] theorem modChest_rdx (c : Nat) (f : Chest → Chest) (s : State) : (modChest c f s).rdx = s.rdx := rfl
@[simp] theorem modChest_out (c : Nat) (f : Chest → Chest) (s : State) : (modChest c f s).out = s.out := rfl
@[simp] theorem modChest_pending (c : Nat) (f : Chest → Chest) (s : State) : (modChest c f s).pending = s.pending := rfl

/-! `modPort` -/

@[simp] theorem modPort_mod (p : Nat) (f : Port → Port) (s : State) : (modPort p f s).mod = s.mod := rfl
@[simp] theorem modPort_log (p : Nat) (f : Port → Port) (s : State) : (modPort p f s).log = s.log := rfl
@[simp] theorem modPort_logProd (p : Nat) (f : Port → Port) (s : State) : (modPort p f s).logProd = s.logProd := rfl
@[simp] theorem modPort_flags (p : Nat) (f : Port → Port) (s : State) : (modPort p f s).flags = s.flags := rfl
@[simp] theorem modPort_cnt (p : Nat) (f : Port → Port) (s : State) : (modPort p f s).cnt = s.cnt := rfl
@[simp] theorem modPort_regs (p : Nat) (f : Port → Port) (s : State) : (modPort p f s).regs = s.regs := rfl
@[simp] theorem modPort_nst (p : Nat) (f : Port → Port) (s : State) : (modPort p f s).nst = s.nst := rfl
@[simp] theorem modPort_rcv (p : Nat) (f : Port → Port) (s : State) : (modPort p f s).rcv = s.rcv := rfl
@[simp] theorem modPort_fwu (p : Nat) (f : Port → Port) (s : State) : (modPort p f s).fwu = s.fwu := rfl
@[simp] theorem modPort_doors (p : Nat) (f : Port → Port) (s : State) : (modPort p f s).doors = s.doors := rfl
@[simp] theorem modPort_vfs (p : Nat) (f : Port → Port) (s : State) : (modPort p f s).vfs = s.vfs := rfl
@[simp] theorem modPort_hif (p : Nat) (f : Port → Port) (s : State) : (modPort p f s).hif = s.hif := rfl
@[simp] theorem modPort_copies (p : Nat) (f : Port → Port) (s : State) : (modPort p f s).copies = s.copies := rfl
@[simp] theorem modPort_mem (p : Nat) (f : Port → Port) (s : State) : (modPort p f s).mem = s.mem := rfl
@[simp] theorem modPort_trs (p : Nat) (f : Port → Port) (s : State) : (modPort p f s).trs = s.trs := rfl
@[simp] theorem modPort_drs (p : Nat) (f : Port → Port) (s : State) : (modPort p f s).drs = s.drs := rfl
@[simp] theorem modPort_steps (p : Nat) (f : Port → Port) (s : State) : (modPort p f s).steps = s.steps := rfl
@[simp] theorem modPort_drawers (p : Nat) (f : Port → Port) (s : State) : (modPort p f s).drawers = s.drawers := rfl
@[simp] theorem modPort_chests (p : Nat) (f : Port → Port) (s : State) : (modPort p f s).chests = s.chests := rfl
@[simp] theorem modPort_maps (p : Nat) (f : Port → Port) (s : State) : (modPort p f s).maps = s.maps := rfl
@[simp] theorem modPort_stagedMaps (p : Nat) (f : Port → Port) (s : State) : (modPort p f s).stagedMaps = s.stagedMaps := rfl
@[simp] theorem modPort_cal (p : Nat) (f : Port → Port) (s : State) : (modPort p f s).cal = s.cal := rfl
@[simp] theorem modPort_rdx (p : Nat) (f : Port → Port) (s : State) : (modPort p f s).rdx = s.rdx := rfl
@[simp] theorem modPort_out (p : Nat) (f : Port → Port) (s : State) : (modPort p f s).out = s.out := rfl
@[simp] theorem modPort_pending (p : Nat) (f : Port → Port) (s : State) : (modPort p f s).pending = s.pending := rfl

/-! `modLane` -/

@[simp] theorem modLane_mod (p w : Nat) (f : OptLane → OptLane) (s : State) : (modLane p w f s).mod = s.mod := rfl
@[simp] theorem modLane_log (p w : Nat) (f : OptLane → OptLane) (s : State) : (modLane p w f s).log = s.log := rfl
@[simp] theorem modLane_logProd (p w : Nat) (f : OptLane → OptLane) (s : State) : (modLane p w f s).logProd = s.logProd := rfl
@[simp] theorem modLane_flags (p w : Nat) (f : OptLane → OptLane) (s : State) : (modLane p w f s).flags = s.flags := rfl
@[simp] theorem modLane_cnt (p w : Nat) (f : OptLane → OptLane) (s : State) : (modLane p w f s).cnt = s.cnt := rfl
@[simp] theorem modLane_regs (p w : Nat) (f : OptLane → OptLane) (s : State) : (modLane p w f s).regs = s.regs := rfl
@[simp] theorem modLane_nst (p w : Nat) (f : OptLane → OptLane) (s : State) : (modLane p w f s).nst = s.nst := rfl
@[simp] theorem modLane_rcv (p w : Nat) (f : OptLane → OptLane) (s : State) : (modLane p w f s).rcv = s.rcv := rfl
@[simp] theorem modLane_fwu (p w : Nat) (f : OptLane → OptLane) (s : State) : (modLane p w f s).fwu = s.fwu := rfl
@[simp] theorem modLane_doors (p w : Nat) (f : OptLane → OptLane) (s : State) : (modLane p w f s).doors = s.doors := rfl
@[simp] theorem modLane_vfs (p w : Nat) (f : OptLane → OptLane) (s : State) : (modLane p w f s).vfs = s.vfs := rfl
@[simp] theorem modLane_hif (p w : Nat) (f : OptLane → OptLane) (s : State) : (modLane p w f s).hif = s.hif := rfl
@[simp] theorem modLane_copies (p w : Nat) (f : OptLane → OptLane) (s : State) : (modLane p w f s).copies = s.copies := rfl
@[simp] theorem modLane_mem (p w : Nat) (f : OptLane → OptLane) (s : State) : (modLane p w f s).mem = s.mem := rfl
@[simp] theorem modLane_trs (p w : Nat) (f : OptLane → OptLane) (s : State) : (modLane p w f s).trs = s.trs := rfl
@[simp] theorem modLane_drs (p w : Nat) (f : OptLane → OptLane) (s : State) : (modLane p w f s).drs = s.drs := rfl
@[simp] theorem modLane_steps (p w : Nat) (f : OptLane → OptLane) (s : State) : (modLane p w f s).steps = s.steps := rfl
@[simp] theorem modLane_drawers (p w : Nat) (f : OptLane → OptLane) (s : State) : (modLane p w f s).drawers = s.drawers := rfl
@[simp] theorem modLane_chests (p w : Nat) (f : OptLane → OptLane) (s : State) : (modLane p w f s).chests = s.chests := rfl
@[simp] theorem modLane_maps (p w : Nat) (f : OptLane → OptLane) (s : State) : (modLane p w f s).maps = s.maps := rfl
@[simp] theorem modLane_stagedMaps (p w : Nat) (f : OptLane → OptLane) (s : State) : (modLane p w f s).stagedMaps = s.stagedMaps := rfl
@[simp] theorem modLane_cal (p w : Nat) (f : OptLane → OptLane) (s : State) : (modLane p w f s).cal = s.cal := rfl
@[simp] theorem modLane_rdx (p w : Nat) (f : OptLane → OptLane) (s : State) : (modLane p w f s).rdx = s.rdx := rfl
@[simp] theorem modLane_out (p w : Nat) (f : OptLane → OptLane) (s : State) : (modLane p w f s).out = s.out := rfl
@[simp] theorem modLane_pending (p w : Nat) (f : OptLane → OptLane) (s : State) : (modLane p w f s).pending = s.pending := rfl

/-! `modBay` -/

@[simp] theorem modBay_mod (b : Nat) (f : Bay → Bay) (s : State) : (modBay b f s).mod = s.mod := rfl
@[simp] theorem modBay_log (b : Nat) (f : Bay → Bay) (s : State) : (modBay b f s).log = s.log := rfl
@[simp] theorem modBay_logProd (b : Nat) (f : Bay → Bay) (s : State) : (modBay b f s).logProd = s.logProd := rfl
@[simp] theorem modBay_flags (b : Nat) (f : Bay → Bay) (s : State) : (modBay b f s).flags = s.flags := rfl
@[simp] theorem modBay_cnt (b : Nat) (f : Bay → Bay) (s : State) : (modBay b f s).cnt = s.cnt := rfl
@[simp] theorem modBay_regs (b : Nat) (f : Bay → Bay) (s : State) : (modBay b f s).regs = s.regs := rfl
@[simp] theorem modBay_nst (b : Nat) (f : Bay → Bay) (s : State) : (modBay b f s).nst = s.nst := rfl
@[simp] theorem modBay_rcv (b : Nat) (f : Bay → Bay) (s : State) : (modBay b f s).rcv = s.rcv := rfl
@[simp] theorem modBay_fwu (b : Nat) (f : Bay → Bay) (s : State) : (modBay b f s).fwu = s.fwu := rfl
@[simp] theorem modBay_doors (b : Nat) (f : Bay → Bay) (s : State) : (modBay b f s).doors = s.doors := rfl
@[simp] theorem modBay_vfs (b : Nat) (f : Bay → Bay) (s : State) : (modBay b f s).vfs = s.vfs := rfl
@[simp] theorem modBay_hif (b : Nat) (f : Bay → Bay) (s : State) : (modBay b f s).hif = s.hif := rfl
@[simp] theorem modBay_copies (b : Nat) (f : Bay → Bay) (s : State) : (modBay b f s).copies = s.copies := rfl
@[simp] theorem modBay_mem (b : Nat) (f : Bay → Bay) (s : State) : (modBay b f s).mem = s.mem := rfl
@[simp] theorem modBay_trs (b : Nat) (f : Bay → Bay) (s : State) : (modBay b f s).trs = s.trs := rfl
@[simp] theorem modBay_drs (b : Nat) (f : Bay → Bay) (s : State) : (modBay b f s).drs = s.drs := rfl
@[simp] theorem modBay_steps (b : Nat) (f : Bay → Bay) (s : State) : (modBay b f s).steps = s.steps := rfl
@[simp] theorem modBay_drawers (b : Nat) (f : Bay → Bay) (s : State) : (modBay b f s).drawers = s.drawers := rfl
@[simp] theorem modBay_chests (b : Nat) (f : Bay → Bay) (s : State) : (modBay b f s).chests = s.chests := rfl
@[simp] theorem modBay_maps (b : Nat) (f : Bay → Bay) (s : State) : (modBay b f s).maps = s.maps := rfl
@[simp] theorem modBay_stagedMaps (b : Nat) (f : Bay → Bay) (s : State) : (modBay b f s).stagedMaps = s.stagedMaps := rfl
@[simp] theorem modBay_cal (b : Nat) (f : Bay → Bay) (s : State) : (modBay b f s).cal = s.cal := rfl
@[simp] theorem modBay_rdx (b : Nat) (f : Bay → Bay) (s : State) : (modBay b f s).rdx = s.rdx := rfl
@[simp] theorem modBay_out (b : Nat) (f : Bay → Bay) (s : State) : (modBay b f s).out = s.out := rfl
@[simp] theorem modBay_pending (b : Nat) (f : Bay → Bay) (s : State) : (modBay b f s).pending = s.pending := rfl

/-! `modGroup` -/

@[simp] theorem modGroup_mod (ctx : Nat) (f : Group → Group) (s : State) : (modGroup ctx f s).mod = s.mod := rfl
@[simp] theorem modGroup_log (ctx : Nat) (f : Group → Group) (s : State) : (modGroup ctx f s).log = s.log := rfl
@[simp] theorem modGroup_logProd (ctx : Nat) (f : Group → Group) (s : State) : (modGroup ctx f s).logProd = s.logProd := rfl
@[simp] theorem modGroup_flags (ctx : Nat) (f : Group → Group) (s : State) : (modGroup ctx f s).flags = s.flags := rfl
@[simp] theorem modGroup_cnt (ctx : Nat) (f : Group → Group) (s : State) : (modGroup ctx f s).cnt = s.cnt := rfl
@[simp] theorem modGroup_regs (ctx : Nat) (f : Group → Group) (s : State) : (modGroup ctx f s).regs = s.regs := rfl
@[simp] theorem modGroup_nst (ctx : Nat) (f : Group → Group) (s : State) : (modGroup ctx f s).nst = s.nst := rfl
@[simp] theorem modGroup_rcv (ctx : Nat) (f : Group → Group) (s : State) : (modGroup ctx f s).rcv = s.rcv := rfl
@[simp] theorem modGroup_fwu (ctx : Nat) (f : Group → Group) (s : State) : (modGroup ctx f s).fwu = s.fwu := rfl
@[simp] theorem modGroup_doors (ctx : Nat) (f : Group → Group) (s : State) : (modGroup ctx f s).doors = s.doors := rfl
@[simp] theorem modGroup_vfs (ctx : Nat) (f : Group → Group) (s : State) : (modGroup ctx f s).vfs = s.vfs := rfl
@[simp] theorem modGroup_hif (ctx : Nat) (f : Group → Group) (s : State) : (modGroup ctx f s).hif = s.hif := rfl
@[simp] theorem modGroup_copies (ctx : Nat) (f : Group → Group) (s : State) : (modGroup ctx f s).copies = s.copies := rfl
@[simp] theorem modGroup_mem (ctx : Nat) (f : Group → Group) (s : State) : (modGroup ctx f s).mem = s.mem := rfl
@[simp] theorem modGroup_trs (ctx : Nat) (f : Group → Group) (s : State) : (modGroup ctx f s).trs = s.trs := rfl
@[simp] theorem modGroup_drs (ctx : Nat) (f : Group → Group) (s : State) : (modGroup ctx f s).drs = s.drs := rfl
@[simp] theorem modGroup_steps (ctx : Nat) (f : Group → Group) (s : State) : (modGroup ctx f s).steps = s.steps := rfl
@[simp] theorem modGroup_drawers (ctx : Nat) (f : Group → Group) (s : State) : (modGroup ctx f s).drawers = s.drawers := rfl
@[simp] theorem modGroup_chests (ctx : Nat) (f : Group → Group) (s : State) : (modGroup ctx f s).chests = s.chests := rfl
@[simp] theorem modGroup_maps (ctx : Nat) (f : Group → Group) (s : State) : (modGroup ctx f s).maps = s.maps := rfl
@[simp] theorem modGroup_stagedMaps (ctx : Nat) (f : Group → Group) (s : State) : (modGroup ctx f s).stagedMaps = s.stagedMaps := rfl
@[simp] theorem modGroup_cal (ctx : Nat) (f : Group → Group) (s : State) : (modGroup ctx f s).cal = s.cal := rfl
@[simp] theorem modGroup_opt (ctx : Nat) (f : Group → Group) (s : State) : (modGroup ctx f s).opt = s.opt := rfl
@[simp] theorem modGroup_out (ctx : Nat) (f : Group → Group) (s : State) : (modGroup ctx f s).out = s.out := rfl
@[simp] theorem modGroup_pending (ctx : Nat) (f : Group → Group) (s : State) : (modGroup ctx f s).pending = s.pending := rfl

/-! `modPair` -/

@[simp] theorem modPair_mod (f : Pair → Pair) (s : State) : (modPair f s).mod = s.mod := rfl
@[simp] theorem modPair_log (f : Pair → Pair) (s : State) : (modPair f s).log = s.log := rfl
@[simp] theorem modPair_logProd (f : Pair → Pair) (s : State) : (modPair f s).logProd = s.logProd := rfl
@[simp] theorem modPair_flags (f : Pair → Pair) (s : State) : (modPair f s).flags = s.flags := rfl
@[simp] theorem modPair_cnt (f : Pair → Pair) (s : State) : (modPair f s).cnt = s.cnt := rfl
@[simp] theorem modPair_regs (f : Pair → Pair) (s : State) : (modPair f s).regs = s.regs := rfl
@[simp] theorem modPair_nst (f : Pair → Pair) (s : State) : (modPair f s).nst = s.nst := rfl
@[simp] theorem modPair_rcv (f : Pair → Pair) (s : State) : (modPair f s).rcv = s.rcv := rfl
@[simp] theorem modPair_fwu (f : Pair → Pair) (s : State) : (modPair f s).fwu = s.fwu := rfl
@[simp] theorem modPair_doors (f : Pair → Pair) (s : State) : (modPair f s).doors = s.doors := rfl
@[simp] theorem modPair_vfs (f : Pair → Pair) (s : State) : (modPair f s).vfs = s.vfs := rfl
@[simp] theorem modPair_hif (f : Pair → Pair) (s : State) : (modPair f s).hif = s.hif := rfl
@[simp] theorem modPair_copies (f : Pair → Pair) (s : State) : (modPair f s).copies = s.copies := rfl
@[simp] theorem modPair_mem (f : Pair → Pair) (s : State) : (modPair f s).mem = s.mem := rfl
@[simp] theorem modPair_trs (f : Pair → Pair) (s : State) : (modPair f s).trs = s.trs := rfl
@[simp] theorem modPair_drs (f : Pair → Pair) (s : State) : (modPair f s).drs = s.drs := rfl
@[simp] theorem modPair_steps (f : Pair → Pair) (s : State) : (modPair f s).steps = s.steps := rfl
@[simp] theorem modPair_drawers (f : Pair → Pair) (s : State) : (modPair f s).drawers = s.drawers := rfl
@[simp] theorem modPair_chests (f : Pair → Pair) (s : State) : (modPair f s).chests = s.chests := rfl
@[simp] theorem modPair_maps (f : Pair → Pair) (s : State) : (modPair f s).maps = s.maps := rfl
@[simp] theorem modPair_stagedMaps (f : Pair → Pair) (s : State) : (modPair f s).stagedMaps = s.stagedMaps := rfl
@[simp] theorem modPair_cal (f : Pair → Pair) (s : State) : (modPair f s).cal = s.cal := rfl
@[simp] theorem modPair_opt (f : Pair → Pair) (s : State) : (modPair f s).opt = s.opt := rfl
@[simp] theorem modPair_out (f : Pair → Pair) (s : State) : (modPair f s).out = s.out := rfl
@[simp] theorem modPair_pending (f : Pair → Pair) (s : State) : (modPair f s).pending = s.pending := rfl

/-! `modCrz` -/

@[simp] theorem modCrz_mod (u : Nat) (f : CrzUnit → CrzUnit) (s : State) : (modCrz u f s).mod = s.mod := rfl
@[simp] theorem modCrz_log (u : Nat) (f : CrzUnit → CrzUnit) (s : State) : (modCrz u f s).log = s.log := rfl
@[simp] theorem modCrz_logProd (u : Nat) (f : CrzUnit → CrzUnit) (s : State) : (modCrz u f s).logProd = s.logProd := rfl
@[simp] theorem modCrz_flags (u : Nat) (f : CrzUnit → CrzUnit) (s : State) : (modCrz u f s).flags = s.flags := rfl
@[simp] theorem modCrz_cnt (u : Nat) (f : CrzUnit → CrzUnit) (s : State) : (modCrz u f s).cnt = s.cnt := rfl
@[simp] theorem modCrz_regs (u : Nat) (f : CrzUnit → CrzUnit) (s : State) : (modCrz u f s).regs = s.regs := rfl
@[simp] theorem modCrz_nst (u : Nat) (f : CrzUnit → CrzUnit) (s : State) : (modCrz u f s).nst = s.nst := rfl
@[simp] theorem modCrz_rcv (u : Nat) (f : CrzUnit → CrzUnit) (s : State) : (modCrz u f s).rcv = s.rcv := rfl
@[simp] theorem modCrz_fwu (u : Nat) (f : CrzUnit → CrzUnit) (s : State) : (modCrz u f s).fwu = s.fwu := rfl
@[simp] theorem modCrz_doors (u : Nat) (f : CrzUnit → CrzUnit) (s : State) : (modCrz u f s).doors = s.doors := rfl
@[simp] theorem modCrz_vfs (u : Nat) (f : CrzUnit → CrzUnit) (s : State) : (modCrz u f s).vfs = s.vfs := rfl
@[simp] theorem modCrz_hif (u : Nat) (f : CrzUnit → CrzUnit) (s : State) : (modCrz u f s).hif = s.hif := rfl
@[simp] theorem modCrz_copies (u : Nat) (f : CrzUnit → CrzUnit) (s : State) : (modCrz u f s).copies = s.copies := rfl
@[simp] theorem modCrz_mem (u : Nat) (f : CrzUnit → CrzUnit) (s : State) : (modCrz u f s).mem = s.mem := rfl
@[simp] theorem modCrz_trs (u : Nat) (f : CrzUnit → CrzUnit) (s : State) : (modCrz u f s).trs = s.trs := rfl
@[simp] theorem modCrz_drs (u : Nat) (f : CrzUnit → CrzUnit) (s : State) : (modCrz u f s).drs = s.drs := rfl
@[simp] theorem modCrz_steps (u : Nat) (f : CrzUnit → CrzUnit) (s : State) : (modCrz u f s).steps = s.steps := rfl
@[simp] theorem modCrz_drawers (u : Nat) (f : CrzUnit → CrzUnit) (s : State) : (modCrz u f s).drawers = s.drawers := rfl
@[simp] theorem modCrz_chests (u : Nat) (f : CrzUnit → CrzUnit) (s : State) : (modCrz u f s).chests = s.chests := rfl
@[simp] theorem modCrz_maps (u : Nat) (f : CrzUnit → CrzUnit) (s : State) : (modCrz u f s).maps = s.maps := rfl
@[simp] theorem modCrz_stagedMaps (u : Nat) (f : CrzUnit → CrzUnit) (s : State) : (modCrz u f s).stagedMaps = s.stagedMaps := rfl
@[simp] theorem modCrz_cal (u : Nat) (f : CrzUnit → CrzUnit) (s : State) : (modCrz u f s).cal = s.cal := rfl
@[simp] theorem modCrz_opt (u : Nat) (f : CrzUnit → CrzUnit) (s : State) : (modCrz u f s).opt = s.opt := rfl
@[simp] theorem modCrz_out (u : Nat) (f : CrzUnit → CrzUnit) (s : State) : (modCrz u f s).out = s.out := rfl
@[simp] theorem modCrz_pending (u : Nat) (f : CrzUnit → CrzUnit) (s : State) : (modCrz u f s).pending = s.pending := rfl

/-! `modDrs` -/

@[simp] theorem modDrs_mod (u : Nat) (f : DrsUnit → DrsUnit) (s : State) : (modDrs u f s).mod = s.mod := rfl
@[simp] theorem modDrs_log (u : Nat) (f : DrsUnit → DrsUnit) (s : State) : (modDrs u f s).log = s.log := rfl
@[simp] theorem modDrs_logProd (u : Nat) (f : DrsUnit → DrsUnit) (s : State) : (modDrs u f s).logProd = s.logProd := rfl
@[simp] theorem modDrs_flags (u : Nat) (f : DrsUnit → DrsUnit) (s : State) : (modDrs u f s).flags = s.flags := rfl
@[simp] theorem modDrs_cnt (u : Nat) (f : DrsUnit → DrsUnit) (s : State) : (modDrs u f s).cnt = s.cnt := rfl
@[simp] theorem modDrs_regs (u : Nat) (f : DrsUnit → DrsUnit) (s : State) : (modDrs u f s).regs = s.regs := rfl
@[simp] theorem modDrs_nst (u : Nat) (f : DrsUnit → DrsUnit) (s : State) : (modDrs u f s).nst = s.nst := rfl
@[simp] theorem modDrs_rcv (u : Nat) (f : DrsUnit → DrsUnit) (s : State) : (modDrs u f s).rcv = s.rcv := rfl
@[simp] theorem modDrs_fwu (u : Nat) (f : DrsUnit → DrsUnit) (s : State) : (modDrs u f s).fwu = s.fwu := rfl
@[simp] theorem modDrs_doors (u : Nat) (f : DrsUnit → DrsUnit) (s : State) : (modDrs u f s).doors = s.doors := rfl
@[simp] theorem modDrs_vfs (u : Nat) (f : DrsUnit → DrsUnit) (s : State) : (modDrs u f s).vfs = s.vfs := rfl
@[simp] theorem modDrs_hif (u : Nat) (f : DrsUnit → DrsUnit) (s : State) : (modDrs u f s).hif = s.hif := rfl
@[simp] theorem modDrs_copies (u : Nat) (f : DrsUnit → DrsUnit) (s : State) : (modDrs u f s).copies = s.copies := rfl
@[simp] theorem modDrs_mem (u : Nat) (f : DrsUnit → DrsUnit) (s : State) : (modDrs u f s).mem = s.mem := rfl
@[simp] theorem modDrs_trs (u : Nat) (f : DrsUnit → DrsUnit) (s : State) : (modDrs u f s).trs = s.trs := rfl
@[simp] theorem modDrs_steps (u : Nat) (f : DrsUnit → DrsUnit) (s : State) : (modDrs u f s).steps = s.steps := rfl
@[simp] theorem modDrs_drawers (u : Nat) (f : DrsUnit → DrsUnit) (s : State) : (modDrs u f s).drawers = s.drawers := rfl
@[simp] theorem modDrs_chests (u : Nat) (f : DrsUnit → DrsUnit) (s : State) : (modDrs u f s).chests = s.chests := rfl
@[simp] theorem modDrs_maps (u : Nat) (f : DrsUnit → DrsUnit) (s : State) : (modDrs u f s).maps = s.maps := rfl
@[simp] theorem modDrs_stagedMaps (u : Nat) (f : DrsUnit → DrsUnit) (s : State) : (modDrs u f s).stagedMaps = s.stagedMaps := rfl
@[simp] theorem modDrs_cal (u : Nat) (f : DrsUnit → DrsUnit) (s : State) : (modDrs u f s).cal = s.cal := rfl
@[simp] theorem modDrs_opt (u : Nat) (f : DrsUnit → DrsUnit) (s : State) : (modDrs u f s).opt = s.opt := rfl
@[simp] theorem modDrs_rdx (u : Nat) (f : DrsUnit → DrsUnit) (s : State) : (modDrs u f s).rdx = s.rdx := rfl
@[simp] theorem modDrs_out (u : Nat) (f : DrsUnit → DrsUnit) (s : State) : (modDrs u f s).out = s.out := rfl
@[simp] theorem modDrs_pending (u : Nat) (f : DrsUnit → DrsUnit) (s : State) : (modDrs u f s).pending = s.pending := rfl

/-! `modTrs` -/

@[simp] theorem modTrs_mod (u : Nat) (f : TrsEngine → TrsEngine) (s : State) : (modTrs u f s).mod = s.mod := rfl
@[simp] theorem modTrs_log (u : Nat) (f : TrsEngine → TrsEngine) (s : State) : (modTrs u f s).log = s.log := rfl
@[simp] theorem modTrs_logProd (u : Nat) (f : TrsEngine → TrsEngine) (s : State) : (modTrs u f s).logProd = s.logProd := rfl
@[simp] theorem modTrs_flags (u : Nat) (f : TrsEngine → TrsEngine) (s : State) : (modTrs u f s).flags = s.flags := rfl
@[simp] theorem modTrs_cnt (u : Nat) (f : TrsEngine → TrsEngine) (s : State) : (modTrs u f s).cnt = s.cnt := rfl
@[simp] theorem modTrs_regs (u : Nat) (f : TrsEngine → TrsEngine) (s : State) : (modTrs u f s).regs = s.regs := rfl
@[simp] theorem modTrs_nst (u : Nat) (f : TrsEngine → TrsEngine) (s : State) : (modTrs u f s).nst = s.nst := rfl
@[simp] theorem modTrs_rcv (u : Nat) (f : TrsEngine → TrsEngine) (s : State) : (modTrs u f s).rcv = s.rcv := rfl
@[simp] theorem modTrs_fwu (u : Nat) (f : TrsEngine → TrsEngine) (s : State) : (modTrs u f s).fwu = s.fwu := rfl
@[simp] theorem modTrs_doors (u : Nat) (f : TrsEngine → TrsEngine) (s : State) : (modTrs u f s).doors = s.doors := rfl
@[simp] theorem modTrs_vfs (u : Nat) (f : TrsEngine → TrsEngine) (s : State) : (modTrs u f s).vfs = s.vfs := rfl
@[simp] theorem modTrs_hif (u : Nat) (f : TrsEngine → TrsEngine) (s : State) : (modTrs u f s).hif = s.hif := rfl
@[simp] theorem modTrs_copies (u : Nat) (f : TrsEngine → TrsEngine) (s : State) : (modTrs u f s).copies = s.copies := rfl
@[simp] theorem modTrs_mem (u : Nat) (f : TrsEngine → TrsEngine) (s : State) : (modTrs u f s).mem = s.mem := rfl
@[simp] theorem modTrs_drs (u : Nat) (f : TrsEngine → TrsEngine) (s : State) : (modTrs u f s).drs = s.drs := rfl
@[simp] theorem modTrs_steps (u : Nat) (f : TrsEngine → TrsEngine) (s : State) : (modTrs u f s).steps = s.steps := rfl
@[simp] theorem modTrs_drawers (u : Nat) (f : TrsEngine → TrsEngine) (s : State) : (modTrs u f s).drawers = s.drawers := rfl
@[simp] theorem modTrs_chests (u : Nat) (f : TrsEngine → TrsEngine) (s : State) : (modTrs u f s).chests = s.chests := rfl
@[simp] theorem modTrs_maps (u : Nat) (f : TrsEngine → TrsEngine) (s : State) : (modTrs u f s).maps = s.maps := rfl
@[simp] theorem modTrs_stagedMaps (u : Nat) (f : TrsEngine → TrsEngine) (s : State) : (modTrs u f s).stagedMaps = s.stagedMaps := rfl
@[simp] theorem modTrs_cal (u : Nat) (f : TrsEngine → TrsEngine) (s : State) : (modTrs u f s).cal = s.cal := rfl
@[simp] theorem modTrs_opt (u : Nat) (f : TrsEngine → TrsEngine) (s : State) : (modTrs u f s).opt = s.opt := rfl
@[simp] theorem modTrs_rdx (u : Nat) (f : TrsEngine → TrsEngine) (s : State) : (modTrs u f s).rdx = s.rdx := rfl
@[simp] theorem modTrs_out (u : Nat) (f : TrsEngine → TrsEngine) (s : State) : (modTrs u f s).out = s.out := rfl
@[simp] theorem modTrs_pending (u : Nat) (f : TrsEngine → TrsEngine) (s : State) : (modTrs u f s).pending = s.pending := rfl

/-! `modDie` -/

@[simp] theorem modDie_mod (die : Nat) (f : DieCal → DieCal) (s : State) : (modDie die f s).mod = s.mod := rfl
@[simp] theorem modDie_log (die : Nat) (f : DieCal → DieCal) (s : State) : (modDie die f s).log = s.log := rfl
@[simp] theorem modDie_logProd (die : Nat) (f : DieCal → DieCal) (s : State) : (modDie die f s).logProd = s.logProd := rfl
@[simp] theorem modDie_flags (die : Nat) (f : DieCal → DieCal) (s : State) : (modDie die f s).flags = s.flags := rfl
@[simp] theorem modDie_cnt (die : Nat) (f : DieCal → DieCal) (s : State) : (modDie die f s).cnt = s.cnt := rfl
@[simp] theorem modDie_regs (die : Nat) (f : DieCal → DieCal) (s : State) : (modDie die f s).regs = s.regs := rfl
@[simp] theorem modDie_nst (die : Nat) (f : DieCal → DieCal) (s : State) : (modDie die f s).nst = s.nst := rfl
@[simp] theorem modDie_rcv (die : Nat) (f : DieCal → DieCal) (s : State) : (modDie die f s).rcv = s.rcv := rfl
@[simp] theorem modDie_fwu (die : Nat) (f : DieCal → DieCal) (s : State) : (modDie die f s).fwu = s.fwu := rfl
@[simp] theorem modDie_doors (die : Nat) (f : DieCal → DieCal) (s : State) : (modDie die f s).doors = s.doors := rfl
@[simp] theorem modDie_vfs (die : Nat) (f : DieCal → DieCal) (s : State) : (modDie die f s).vfs = s.vfs := rfl
@[simp] theorem modDie_hif (die : Nat) (f : DieCal → DieCal) (s : State) : (modDie die f s).hif = s.hif := rfl
@[simp] theorem modDie_copies (die : Nat) (f : DieCal → DieCal) (s : State) : (modDie die f s).copies = s.copies := rfl
@[simp] theorem modDie_mem (die : Nat) (f : DieCal → DieCal) (s : State) : (modDie die f s).mem = s.mem := rfl
@[simp] theorem modDie_trs (die : Nat) (f : DieCal → DieCal) (s : State) : (modDie die f s).trs = s.trs := rfl
@[simp] theorem modDie_drs (die : Nat) (f : DieCal → DieCal) (s : State) : (modDie die f s).drs = s.drs := rfl
@[simp] theorem modDie_steps (die : Nat) (f : DieCal → DieCal) (s : State) : (modDie die f s).steps = s.steps := rfl
@[simp] theorem modDie_drawers (die : Nat) (f : DieCal → DieCal) (s : State) : (modDie die f s).drawers = s.drawers := rfl
@[simp] theorem modDie_chests (die : Nat) (f : DieCal → DieCal) (s : State) : (modDie die f s).chests = s.chests := rfl
@[simp] theorem modDie_maps (die : Nat) (f : DieCal → DieCal) (s : State) : (modDie die f s).maps = s.maps := rfl
@[simp] theorem modDie_stagedMaps (die : Nat) (f : DieCal → DieCal) (s : State) : (modDie die f s).stagedMaps = s.stagedMaps := rfl
@[simp] theorem modDie_opt (die : Nat) (f : DieCal → DieCal) (s : State) : (modDie die f s).opt = s.opt := rfl
@[simp] theorem modDie_rdx (die : Nat) (f : DieCal → DieCal) (s : State) : (modDie die f s).rdx = s.rdx := rfl
@[simp] theorem modDie_out (die : Nat) (f : DieCal → DieCal) (s : State) : (modDie die f s).out = s.out := rfl
@[simp] theorem modDie_pending (die : Nat) (f : DieCal → DieCal) (s : State) : (modDie die f s).pending = s.pending := rfl

/-! `calRuns` -/

@[simp] theorem calRuns_mod (f : List CalRun → List CalRun) (s : State) : (calRuns f s).mod = s.mod := rfl
@[simp] theorem calRuns_log (f : List CalRun → List CalRun) (s : State) : (calRuns f s).log = s.log := rfl
@[simp] theorem calRuns_logProd (f : List CalRun → List CalRun) (s : State) : (calRuns f s).logProd = s.logProd := rfl
@[simp] theorem calRuns_flags (f : List CalRun → List CalRun) (s : State) : (calRuns f s).flags = s.flags := rfl
@[simp] theorem calRuns_cnt (f : List CalRun → List CalRun) (s : State) : (calRuns f s).cnt = s.cnt := rfl
@[simp] theorem calRuns_regs (f : List CalRun → List CalRun) (s : State) : (calRuns f s).regs = s.regs := rfl
@[simp] theorem calRuns_nst (f : List CalRun → List CalRun) (s : State) : (calRuns f s).nst = s.nst := rfl
@[simp] theorem calRuns_rcv (f : List CalRun → List CalRun) (s : State) : (calRuns f s).rcv = s.rcv := rfl
@[simp] theorem calRuns_fwu (f : List CalRun → List CalRun) (s : State) : (calRuns f s).fwu = s.fwu := rfl
@[simp] theorem calRuns_doors (f : List CalRun → List CalRun) (s : State) : (calRuns f s).doors = s.doors := rfl
@[simp] theorem calRuns_vfs (f : List CalRun → List CalRun) (s : State) : (calRuns f s).vfs = s.vfs := rfl
@[simp] theorem calRuns_hif (f : List CalRun → List CalRun) (s : State) : (calRuns f s).hif = s.hif := rfl
@[simp] theorem calRuns_copies (f : List CalRun → List CalRun) (s : State) : (calRuns f s).copies = s.copies := rfl
@[simp] theorem calRuns_mem (f : List CalRun → List CalRun) (s : State) : (calRuns f s).mem = s.mem := rfl
@[simp] theorem calRuns_trs (f : List CalRun → List CalRun) (s : State) : (calRuns f s).trs = s.trs := rfl
@[simp] theorem calRuns_drs (f : List CalRun → List CalRun) (s : State) : (calRuns f s).drs = s.drs := rfl
@[simp] theorem calRuns_steps (f : List CalRun → List CalRun) (s : State) : (calRuns f s).steps = s.steps := rfl
@[simp] theorem calRuns_drawers (f : List CalRun → List CalRun) (s : State) : (calRuns f s).drawers = s.drawers := rfl
@[simp] theorem calRuns_chests (f : List CalRun → List CalRun) (s : State) : (calRuns f s).chests = s.chests := rfl
@[simp] theorem calRuns_maps (f : List CalRun → List CalRun) (s : State) : (calRuns f s).maps = s.maps := rfl
@[simp] theorem calRuns_stagedMaps (f : List CalRun → List CalRun) (s : State) : (calRuns f s).stagedMaps = s.stagedMaps := rfl
@[simp] theorem calRuns_opt (f : List CalRun → List CalRun) (s : State) : (calRuns f s).opt = s.opt := rfl
@[simp] theorem calRuns_rdx (f : List CalRun → List CalRun) (s : State) : (calRuns f s).rdx = s.rdx := rfl
@[simp] theorem calRuns_out (f : List CalRun → List CalRun) (s : State) : (calRuns f s).out = s.out := rfl
@[simp] theorem calRuns_pending (f : List CalRun → List CalRun) (s : State) : (calRuns f s).pending = s.pending := rfl

/-! `setBucket` -/

@[simp] theorem setBucket_mod (ctx tag : Nat) (b : Bucket) (s : State) : (setBucket ctx tag b s).mod = s.mod := rfl
@[simp] theorem setBucket_log (ctx tag : Nat) (b : Bucket) (s : State) : (setBucket ctx tag b s).log = s.log := rfl
@[simp] theorem setBucket_logProd (ctx tag : Nat) (b : Bucket) (s : State) : (setBucket ctx tag b s).logProd = s.logProd := rfl
@[simp] theorem setBucket_flags (ctx tag : Nat) (b : Bucket) (s : State) : (setBucket ctx tag b s).flags = s.flags := rfl
@[simp] theorem setBucket_cnt (ctx tag : Nat) (b : Bucket) (s : State) : (setBucket ctx tag b s).cnt = s.cnt := rfl
@[simp] theorem setBucket_regs (ctx tag : Nat) (b : Bucket) (s : State) : (setBucket ctx tag b s).regs = s.regs := rfl
@[simp] theorem setBucket_nst (ctx tag : Nat) (b : Bucket) (s : State) : (setBucket ctx tag b s).nst = s.nst := rfl
@[simp] theorem setBucket_rcv (ctx tag : Nat) (b : Bucket) (s : State) : (setBucket ctx tag b s).rcv = s.rcv := rfl
@[simp] theorem setBucket_fwu (ctx tag : Nat) (b : Bucket) (s : State) : (setBucket ctx tag b s).fwu = s.fwu := rfl
@[simp] theorem setBucket_doors (ctx tag : Nat) (b : Bucket) (s : State) : (setBucket ctx tag b s).doors = s.doors := rfl
@[simp] theorem setBucket_vfs (ctx tag : Nat) (b : Bucket) (s : State) : (setBucket ctx tag b s).vfs = s.vfs := rfl
@[simp] theorem setBucket_hif (ctx tag : Nat) (b : Bucket) (s : State) : (setBucket ctx tag b s).hif = s.hif := rfl
@[simp] theorem setBucket_copies (ctx tag : Nat) (b : Bucket) (s : State) : (setBucket ctx tag b s).copies = s.copies := rfl
@[simp] theorem setBucket_mem (ctx tag : Nat) (b : Bucket) (s : State) : (setBucket ctx tag b s).mem = s.mem := rfl
@[simp] theorem setBucket_trs (ctx tag : Nat) (b : Bucket) (s : State) : (setBucket ctx tag b s).trs = s.trs := rfl
@[simp] theorem setBucket_drs (ctx tag : Nat) (b : Bucket) (s : State) : (setBucket ctx tag b s).drs = s.drs := rfl
@[simp] theorem setBucket_drawers (ctx tag : Nat) (b : Bucket) (s : State) : (setBucket ctx tag b s).drawers = s.drawers := rfl
@[simp] theorem setBucket_chests (ctx tag : Nat) (b : Bucket) (s : State) : (setBucket ctx tag b s).chests = s.chests := rfl
@[simp] theorem setBucket_maps (ctx tag : Nat) (b : Bucket) (s : State) : (setBucket ctx tag b s).maps = s.maps := rfl
@[simp] theorem setBucket_stagedMaps (ctx tag : Nat) (b : Bucket) (s : State) : (setBucket ctx tag b s).stagedMaps = s.stagedMaps := rfl
@[simp] theorem setBucket_cal (ctx tag : Nat) (b : Bucket) (s : State) : (setBucket ctx tag b s).cal = s.cal := rfl
@[simp] theorem setBucket_opt (ctx tag : Nat) (b : Bucket) (s : State) : (setBucket ctx tag b s).opt = s.opt := rfl
@[simp] theorem setBucket_rdx (ctx tag : Nat) (b : Bucket) (s : State) : (setBucket ctx tag b s).rdx = s.rdx := rfl
@[simp] theorem setBucket_out (ctx tag : Nat) (b : Bucket) (s : State) : (setBucket ctx tag b s).out = s.out := rfl
@[simp] theorem setBucket_pending (ctx tag : Nat) (b : Bucket) (s : State) : (setBucket ctx tag b s).pending = s.pending := rfl

/-! `setLane` -/

@[simp] theorem setLane_mod (c l : Nat) (j : Option PlnJob) (s : State) : (setLane c l j s).mod = s.mod := rfl
@[simp] theorem setLane_log (c l : Nat) (j : Option PlnJob) (s : State) : (setLane c l j s).log = s.log := rfl
@[simp] theorem setLane_logProd (c l : Nat) (j : Option PlnJob) (s : State) : (setLane c l j s).logProd = s.logProd := rfl
@[simp] theorem setLane_flags (c l : Nat) (j : Option PlnJob) (s : State) : (setLane c l j s).flags = s.flags := rfl
@[simp] theorem setLane_cnt (c l : Nat) (j : Option PlnJob) (s : State) : (setLane c l j s).cnt = s.cnt := rfl
@[simp] theorem setLane_regs (c l : Nat) (j : Option PlnJob) (s : State) : (setLane c l j s).regs = s.regs := rfl
@[simp] theorem setLane_nst (c l : Nat) (j : Option PlnJob) (s : State) : (setLane c l j s).nst = s.nst := rfl
@[simp] theorem setLane_rcv (c l : Nat) (j : Option PlnJob) (s : State) : (setLane c l j s).rcv = s.rcv := rfl
@[simp] theorem setLane_fwu (c l : Nat) (j : Option PlnJob) (s : State) : (setLane c l j s).fwu = s.fwu := rfl
@[simp] theorem setLane_doors (c l : Nat) (j : Option PlnJob) (s : State) : (setLane c l j s).doors = s.doors := rfl
@[simp] theorem setLane_vfs (c l : Nat) (j : Option PlnJob) (s : State) : (setLane c l j s).vfs = s.vfs := rfl
@[simp] theorem setLane_hif (c l : Nat) (j : Option PlnJob) (s : State) : (setLane c l j s).hif = s.hif := rfl
@[simp] theorem setLane_copies (c l : Nat) (j : Option PlnJob) (s : State) : (setLane c l j s).copies = s.copies := rfl
@[simp] theorem setLane_mem (c l : Nat) (j : Option PlnJob) (s : State) : (setLane c l j s).mem = s.mem := rfl
@[simp] theorem setLane_trs (c l : Nat) (j : Option PlnJob) (s : State) : (setLane c l j s).trs = s.trs := rfl
@[simp] theorem setLane_drs (c l : Nat) (j : Option PlnJob) (s : State) : (setLane c l j s).drs = s.drs := rfl
@[simp] theorem setLane_steps (c l : Nat) (j : Option PlnJob) (s : State) : (setLane c l j s).steps = s.steps := rfl
@[simp] theorem setLane_drawers (c l : Nat) (j : Option PlnJob) (s : State) : (setLane c l j s).drawers = s.drawers := rfl
@[simp] theorem setLane_maps (c l : Nat) (j : Option PlnJob) (s : State) : (setLane c l j s).maps = s.maps := rfl
@[simp] theorem setLane_stagedMaps (c l : Nat) (j : Option PlnJob) (s : State) : (setLane c l j s).stagedMaps = s.stagedMaps := rfl
@[simp] theorem setLane_cal (c l : Nat) (j : Option PlnJob) (s : State) : (setLane c l j s).cal = s.cal := rfl
@[simp] theorem setLane_opt (c l : Nat) (j : Option PlnJob) (s : State) : (setLane c l j s).opt = s.opt := rfl
@[simp] theorem setLane_rdx (c l : Nat) (j : Option PlnJob) (s : State) : (setLane c l j s).rdx = s.rdx := rfl
@[simp] theorem setLane_out (c l : Nat) (j : Option PlnJob) (s : State) : (setLane c l j s).out = s.out := rfl
@[simp] theorem setLane_pending (c l : Nat) (j : Option PlnJob) (s : State) : (setLane c l j s).pending = s.pending := rfl

/-! `setScrubQueue` -/

@[simp] theorem setScrubQueue_mod (hbm : Bool) (q : List ScrubJob) (s : State) : (setScrubQueue hbm q s).mod = s.mod := rfl
@[simp] theorem setScrubQueue_log (hbm : Bool) (q : List ScrubJob) (s : State) : (setScrubQueue hbm q s).log = s.log := rfl
@[simp] theorem setScrubQueue_logProd (hbm : Bool) (q : List ScrubJob) (s : State) : (setScrubQueue hbm q s).logProd = s.logProd := rfl
@[simp] theorem setScrubQueue_flags (hbm : Bool) (q : List ScrubJob) (s : State) : (setScrubQueue hbm q s).flags = s.flags := rfl
@[simp] theorem setScrubQueue_cnt (hbm : Bool) (q : List ScrubJob) (s : State) : (setScrubQueue hbm q s).cnt = s.cnt := rfl
@[simp] theorem setScrubQueue_regs (hbm : Bool) (q : List ScrubJob) (s : State) : (setScrubQueue hbm q s).regs = s.regs := rfl
@[simp] theorem setScrubQueue_nst (hbm : Bool) (q : List ScrubJob) (s : State) : (setScrubQueue hbm q s).nst = s.nst := rfl
@[simp] theorem setScrubQueue_rcv (hbm : Bool) (q : List ScrubJob) (s : State) : (setScrubQueue hbm q s).rcv = s.rcv := rfl
@[simp] theorem setScrubQueue_fwu (hbm : Bool) (q : List ScrubJob) (s : State) : (setScrubQueue hbm q s).fwu = s.fwu := rfl
@[simp] theorem setScrubQueue_doors (hbm : Bool) (q : List ScrubJob) (s : State) : (setScrubQueue hbm q s).doors = s.doors := rfl
@[simp] theorem setScrubQueue_vfs (hbm : Bool) (q : List ScrubJob) (s : State) : (setScrubQueue hbm q s).vfs = s.vfs := rfl
@[simp] theorem setScrubQueue_hif (hbm : Bool) (q : List ScrubJob) (s : State) : (setScrubQueue hbm q s).hif = s.hif := rfl
@[simp] theorem setScrubQueue_copies (hbm : Bool) (q : List ScrubJob) (s : State) : (setScrubQueue hbm q s).copies = s.copies := rfl
@[simp] theorem setScrubQueue_trs (hbm : Bool) (q : List ScrubJob) (s : State) : (setScrubQueue hbm q s).trs = s.trs := rfl
@[simp] theorem setScrubQueue_drs (hbm : Bool) (q : List ScrubJob) (s : State) : (setScrubQueue hbm q s).drs = s.drs := rfl
@[simp] theorem setScrubQueue_steps (hbm : Bool) (q : List ScrubJob) (s : State) : (setScrubQueue hbm q s).steps = s.steps := rfl
@[simp] theorem setScrubQueue_drawers (hbm : Bool) (q : List ScrubJob) (s : State) : (setScrubQueue hbm q s).drawers = s.drawers := rfl
@[simp] theorem setScrubQueue_chests (hbm : Bool) (q : List ScrubJob) (s : State) : (setScrubQueue hbm q s).chests = s.chests := rfl
@[simp] theorem setScrubQueue_maps (hbm : Bool) (q : List ScrubJob) (s : State) : (setScrubQueue hbm q s).maps = s.maps := rfl
@[simp] theorem setScrubQueue_stagedMaps (hbm : Bool) (q : List ScrubJob) (s : State) : (setScrubQueue hbm q s).stagedMaps = s.stagedMaps := rfl
@[simp] theorem setScrubQueue_cal (hbm : Bool) (q : List ScrubJob) (s : State) : (setScrubQueue hbm q s).cal = s.cal := rfl
@[simp] theorem setScrubQueue_opt (hbm : Bool) (q : List ScrubJob) (s : State) : (setScrubQueue hbm q s).opt = s.opt := rfl
@[simp] theorem setScrubQueue_rdx (hbm : Bool) (q : List ScrubJob) (s : State) : (setScrubQueue hbm q s).rdx = s.rdx := rfl
@[simp] theorem setScrubQueue_out (hbm : Bool) (q : List ScrubJob) (s : State) : (setScrubQueue hbm q s).out = s.out := rfl
@[simp] theorem setScrubQueue_pending (hbm : Bool) (q : List ScrubJob) (s : State) : (setScrubQueue hbm q s).pending = s.pending := rfl

end Sys2Proof.Machine
end

