-- ==== Sys2Proof/Laws/Reads.lean ====
section
/-!
SUPPORT. What is read after an update: the place that was changed reads as its change, every other place as before.
-/
namespace Sys2Proof.Machine
open Sys2Proof.Safety

theorem door_modDoor (c : Nat) (g : Door → Door) (s : State) (k : Nat) :
    door (modDoor c g s) k = if k = c then g (door s k) else door s k := by
  unfold door modDoor
  split
  · rename_i h; subst h; exact tabGet_tabMod_same ..
  · rename_i h; exact tabGet_tabMod_ne _ _ _ _ _ h

theorem ringOf_modRing (c q : Nat) (f : Ring → Ring) (s : State) (c' q' : Nat) :
    ringOf (modRing c q f s) c' q' = if c' = c ∧ q' = q then f (ringOf s c' q') else ringOf s c' q' := by
  unfold ringOf modRing
  rw [door_modDoor]
  by_cases hc : c' = c
  · subst hc
    by_cases hq : q' = q
    · subst hq; simp
    · simp [hq, tabGet_tabMod_ne]
  · simp [hc]

theorem sem_setSem (c i : Nat) (v : Word) (s : State) (c' i' : Nat) :
    sem (setSem c i v s) c' i' = if c' = c ∧ i' = i then v else sem s c' i' := by
  unfold sem setSem
  rw [door_modDoor]
  by_cases hc : c' = c
  · subst hc
    by_cases hi : i' = i
    · subst hi; simp
    · simp [hi, tabGet_tabSet_ne]
  · simp [hc]

theorem stepCtx_modStepCtx (c : Nat) (f : StepCtx → StepCtx) (s : State) (k : Nat) :
    stepCtx (modStepCtx c f s) k = if k = c then f (stepCtx s k) else stepCtx s k := by
  unfold stepCtx modStepCtx
  split
  · rename_i h; subst h; exact tabGet_tabMod_same ..
  · rename_i h; exact tabGet_tabMod_ne _ _ _ _ _ h

theorem drawer_modDrawer (d : Nat) (f : Drawer → Drawer) (s : State) (k : Nat) :
    drawer (modDrawer d f s) k = if k = d then f (drawer s k) else drawer s k := by
  unfold drawer modDrawer
  split
  · rename_i h; subst h; exact tabGet_tabMod_same ..
  · rename_i h; exact tabGet_tabMod_ne _ _ _ _ _ h

theorem chest_modChest (c : Nat) (f : Chest → Chest) (s : State) (k : Nat) :
    chest (modChest c f s) k = if k = c then f (chest s k) else chest s k := by
  unfold chest modChest
  split
  · rename_i h; subst h; exact tabGet_tabMod_same ..
  · rename_i h; exact tabGet_tabMod_ne _ _ _ _ _ h

theorem laneJob_setLane (c l : Nat) (j : Option PlnJob) (s : State) (c' l' : Nat) :
    laneJob (setLane c l j s) c' l' = if c' = c ∧ l' = l then j else laneJob s c' l' := by
  unfold laneJob setLane
  rw [chest_modChest]
  by_cases hc : c' = c
  · subst hc
    by_cases hl : l' = l
    · subst hl; simp
    · simp [hl, tabGet_tabSet_ne]
  · simp [hc]

theorem trs_modTrs (u : Nat) (f : TrsEngine → TrsEngine) (s : State) (k : Nat) :
    tabGet {} (modTrs u f s).trs k = if k = u then f (tabGet {} s.trs k) else tabGet {} s.trs k := by
  unfold modTrs
  split
  · rename_i h; subst h; exact tabGet_tabMod_same ..
  · rename_i h; exact tabGet_tabMod_ne _ _ _ _ _ h

theorem drs_modDrs (u : Nat) (f : DrsUnit → DrsUnit) (s : State) (k : Nat) :
    tabGet {} (modDrs u f s).drs k = if k = u then f (tabGet {} s.drs k) else tabGet {} s.drs k := by
  unfold modDrs
  split
  · rename_i h; subst h; exact tabGet_tabMod_same ..
  · rename_i h; exact tabGet_tabMod_ne _ _ _ _ _ h

theorem port_modPort (p : Nat) (f : Port → Port) (s : State) (k : Nat) :
    port (modPort p f s) k = if k = p then f (port s k) else port s k := by
  unfold port modPort
  split
  · rename_i h; subst h; exact tabGet_tabMod_same ..
  · rename_i h; exact tabGet_tabMod_ne _ _ _ _ _ h

theorem group_modGroup (c : Nat) (f : Group → Group) (s : State) (k : Nat) :
    group (modGroup c f s) k = if k = c then f (group s k) else group s k := by
  unfold group modGroup
  split
  · rename_i h; subst h; exact tabGet_tabMod_same ..
  · rename_i h; exact tabGet_tabMod_ne _ _ _ _ _ h

theorem reg_setReg (off v : Nat) (s : State) (k : Nat) (hv : v < 2 ^ 64) :
    reg (setReg off v s) k = if k = off then v else reg s k := by
  unfold reg setReg
  dsimp only
  by_cases h : k = off
  · subst h
    rw [tabGet_tabSet_same, if_pos rfl]
    by_cases hr : v = regReset k
    · rw [if_pos hr]; exact hr.symm
    · rw [if_neg hr]
      show (BitVec.ofNat 64 v).toNat = v
      rw [BitVec.toNat_ofNat, Nat.mod_eq_of_lt hv]
  · rw [tabGet_tabSet_ne _ _ _ _ _ h, if_neg h]

theorem flagsOf_setFlag (b : Block) (i : Nat) (s : State) (c : Block) :
    flagsOf (setFlag b i s) c =
      if c = b then { flagsOf s c with status := (flagsOf s c).status ||| BitVec.ofNat 32 (2 ^ i) } else flagsOf s c := by
  have inj : ∀ {x y : Block}, x.code = y.code → x = y := by intro x y; cases x <;> cases y <;> simp [Block.code]
  unfold flagsOf setFlag
  dsimp only
  split
  · rename_i h; subst h; rw [tabGet_tabMod_same]
  · rename_i h; rw [tabGet_tabMod_ne _ _ _ _ _ fun e => h (inj e)]

/-- A flag that an event sets is up, and every flag that was up stays up. -/
theorem flagUp_setFlag (b : Block) (i : Nat) (s : State) (c : Block) (k : Nat) (hk : k < 32) :
    flagUp (setFlag b i s) c k = (flagUp s c k || decide (c = b ∧ k = i)) := by
  unfold flagUp
  rw [flagsOf_setFlag]
  split
  · rename_i h; subst h
    show ((flagsOf s c).status ||| BitVec.ofNat 32 (2 ^ i)).getLsbD k = _
    rw [BitVec.getLsbD_or, BitVec.getLsbD_ofNat]
    congr 1
    simp only [hk, decide_true, Bool.true_and, true_and, Nat.testBit_two_pow]
    rcases Nat.decEq i k with h | h
    · simp [h, Ne.symm h]
    · simp [h]
  · rename_i h; simp [h]

theorem counted_bump (off n : Nat) (s : State) : Counted s (bump off n s) off n := by
  unfold Counted counter bump
  simp [BitVec.toNat_add, BitVec.toNat_ofNat, Nat.add_mod]

theorem counter_bump_ne (off n : Nat) (s : State) (k : Nat) (h : k ≠ off) : counter (bump off n s) k = counter s k := by
  unfold counter bump
  dsimp only
  rw [tabGet_tabMod_ne _ _ _ _ _ h]

theorem logged_logEntry (e : LogEntry) (s : State) : Logged s (logEntry e s) e := ⟨rfl, rfl⟩

end Sys2Proof.Machine
end

