-- ==== Sys2Proof/Laws/Reports.lean ====
section
/-!
SUPPORT. An open descriptor from its dispatch to its completion: what lies between keeps it open, and its completion record leaves the
module.
-/
set_option Elab.async false

namespace Sys2Proof.Machine
open Sys2Proof.Safety

/-- From `s` to `t` the open descriptor `r` stays open, and its record goes to the same place at the same time. -/
structure Onward (r : DRef) (s t : State) : Prop where
  time : t.mod.devTime = s.mod.devTime
  vfs : t.vfs = s.vfs
  steps : t.steps = s.steps
  comp : (ringOf t r.ctx r.ring).comp = (ringOf s r.ctx r.ring).comp
  size : (ringOf t r.ctx r.ring).sizeLog2 = (ringOf s r.ctx r.ring).sizeLog2
  out : s.out <:+ t.out
  clean : s.mem.errs = [] → t.mem.errs = []
  desc : ∀ d, findDesc s r = some d →
    ∃ d', findDesc t r = some d' ∧ d'.bytes = d.bytes ∧ (s.mem.errs = [] → d'.poisoned = d.poisoned)

theorem Onward.refl (r : DRef) (s : State) : Onward r s s :=
  ⟨rfl, rfl, rfl, rfl, rfl, List.suffix_refl _, id, fun d h => ⟨d, h, rfl, fun _ => rfl⟩⟩

theorem Onward.trans {r : DRef} {s x t : State} (h : Onward r s x) (k : Onward r x t) (hd : (findDesc s r).isSome = true) :
    Onward r s t := by
  obtain ⟨d, hd⟩ := Option.isSome_iff_exists.mp hd
  obtain ⟨d', hd', hb, hp⟩ := h.desc d hd
  refine ⟨k.time.trans h.time, k.vfs.trans h.vfs, k.steps.trans h.steps, k.comp.trans h.comp, k.size.trans h.size,
    h.out.trans k.out, fun c => k.clean (h.clean c), fun e he => ?_⟩
  obtain ⟨e', he', hb', hp'⟩ := h.desc e he
  obtain ⟨e'', he'', hb'', hp''⟩ := k.desc e' he'
  exact ⟨e'', he'', hb''.trans hb', fun c => (hp'' (h.clean c)).trans (hp' c)⟩

/-- An operation that leaves the doorbell pages, the functions and the output alone. -/
theorem Onward.of_keeps {F : Nat} {r : DRef} {s t : State} (k : Keeps F s t) (hd : F.testBit 6 = false) (hv : F.testBit 7 = false)
    (hs : F.testBit 15 = false) (ho : F.testBit 28 = false) (hc : s.mem.errs = [] → t.mem.errs = []) : Onward r s t := by
  have d : t.doors = s.doors := k.frame .doors hd
  have rg : ringOf t r.ctx r.ring = ringOf s r.ctx r.ring := by unfold ringOf door; rw [d]
  have o : t.out = s.out := (k.frame .output ho).1
  refine ⟨k.time, k.frame .functions hv, k.frame .steps hs, by rw [rg], by rw [rg], by rw [o], hc, ?_⟩
  intro e he
  exact ⟨e, by unfold findDesc at he ⊢; rw [rg]; exact he, rfl, fun _ => rfl⟩

/-- An operation on a ring that keeps where its records go and what is open. -/
theorem Onward.modRing (r : DRef) (c q : Nat) (f : Ring → Ring) (s : State)
    (hf : ∀ x, (f x).comp = x.comp ∧ (f x).sizeLog2 = x.sizeLog2)
    (ho : ∀ x : Ring, ∀ d, x.opened.find? (·.idx == r.idx) = some d →
      ∃ d', (f x).opened.find? (·.idx == r.idx) = some d' ∧ d'.bytes = d.bytes ∧ (s.mem.errs = [] → d'.poisoned = d.poisoned))
    (h : (findDesc s r).isSome = true) : Onward r s (modRing c q f s) := by
  obtain ⟨d, hd⟩ := Option.isSome_iff_exists.mp h
  have rg := ringOf_modRing c q f s r.ctx r.ring
  refine ⟨rfl, rfl, rfl, ?_, ?_, List.suffix_refl _, id, ?_⟩
  · rw [rg]; split
    · exact (hf _).1
    · rfl
  · rw [rg]; split
    · exact (hf _).2
    · rfl
  · intro e he
    unfold findDesc at he ⊢
    rw [rg]
    split
    · exact ho _ e he
    · exact ⟨e, he, rfl, fun _ => rfl⟩

theorem find_map_idx (f : Desc → Desc) (hf : ∀ d, (f d).idx = d.idx) (n : Nat) (l : List Desc) :
    (l.map f).find? (·.idx == n) = (l.find? (·.idx == n)).map f := by
  induction l with
  | nil => rfl
  | cons a l ih =>
    rw [List.map_cons, List.find?_cons, List.find?_cons, hf]
    cases h : a.idx == n
    · exact ih
    · rfl

theorem markDispatched_onward (r : DRef) (c q i : Nat) (s : State) (h : (findDesc s r).isSome = true) :
    Onward r s (markDispatched c q i s) := by
  refine Onward.modRing r c q _ s (fun x => ⟨rfl, rfl⟩) (fun x d hd => ?_) h
  refine ⟨(fun d => if d.idx = i then { d with dispatched := true } else d) d, ?_, ?_, fun _ => ?_⟩
  · show (x.opened.map _).find? _ = _
    rw [find_map_idx _ (fun d => by split <;> rfl), hd]; rfl
  · dsimp only; split <;> rfl
  · dsimp only; split <;> rfl

theorem emit_onward (r : DRef) (o : Out) (s : State) : Onward r s (emit o s) :=
  ⟨rfl, rfl, rfl, rfl, rfl, List.suffix_cons _ _, id, fun d h => ⟨d, h, rfl, fun _ => rfl⟩⟩

theorem errorsIn_nil (m : MemBlk) (a n : Nat) (h : m.errs = []) : errorsIn m a n = [] := by unfold errorsIn; rw [h]; rfl

theorem noteError_errs (acc : Access) (cw : Nat) (ue : Bool) (s : State) : (noteError acc cw ue s).mem.errs = s.mem.errs := by
  unfold noteError logEntry bump setFlag
  dsimp only
  repeat' split
  all_goals rfl

/-- Errors listed in memory keep a list of them empty where it is empty. -/
theorem foldl_onward {α : Type} (r : DRef) (f : State → α → State) (h : ∀ s a, (findDesc s r).isSome = true → Onward r s (f s a))
    (l : List α) (s : State) (hs : (findDesc s r).isSome = true) : Onward r s (l.foldl f s) := by
  induction l generalizing s with
  | nil => exact Onward.refl r s
  | cons a l ih =>
    have k := h s a hs
    obtain ⟨d, hd⟩ := Option.isSome_iff_exists.mp hs
    obtain ⟨d', hd', _⟩ := k.desc d hd
    exact k.trans (ih _ (by rw [hd']; rfl)) hs

theorem noteRead_onward (r : DRef) (acc : Access) (a n : Nat) (s : State) (h : (findDesc s r).isSome = true) :
    Onward r s (noteRead acc a n s) := by
  by_cases he : s.mem.errs = []
  · have : noteRead acc a n s = s := by unfold noteRead noteErrors; rw [errorsIn_nil _ _ _ he]; rfl
    rw [this]; exact Onward.refl r s
  · have weak : ∀ (l : List (Nat × Bool)) (x : State), x.mem.errs = s.mem.errs → (findDesc x r).isSome = true →
        Onward r x (l.foldl (fun s e =>
          let s := noteError acc e.1 e.2 s
          match acc.ref, e.2 with
          | some r, true => markPoisoned r s
          | _, _ => s) x) := by
      intro l
      induction l with
      | nil => intro x _ _; exact Onward.refl r x
      | cons e l ih =>
        intro x hx hs
        have k1 : Onward r x (noteError acc e.1 e.2 x) :=
          Onward.of_keeps (noteError_keeps acc e.1 e.2 x (F := 0x80008000000402)) (by decide) (by decide) (by decide) (by decide)
            (fun c => by rw [noteError_errs]; exact c)
        have hx1 : (noteError acc e.1 e.2 x).mem.errs = s.mem.errs := (noteError_errs ..).trans hx
        have hs1 : (findDesc (noteError acc e.1 e.2 x) r).isSome = true := by
          obtain ⟨d, hd⟩ := Option.isSome_iff_exists.mp hs
          obtain ⟨d', hd', _⟩ := k1.desc d hd
          rw [hd']; rfl
        have k2 : Onward r (noteError acc e.1 e.2 x)
            (match acc.ref, e.2 with | some r, true => markPoisoned r (noteError acc e.1 e.2 x) | _, _ => noteError acc e.1 e.2 x)
            ∧ (match acc.ref, e.2 with | some r, true => markPoisoned r (noteError acc e.1 e.2 x) | _, _ => noteError acc e.1 e.2 x).mem.errs = s.mem.errs := by
          generalize noteError acc e.1 e.2 x = y at hx1 hs1
          split
          · rename_i q _ _
            refine ⟨Onward.modRing r q.ctx q.ring _ y (fun x => ⟨rfl, rfl⟩) (fun x d hd => ?_) hs1, hx1⟩
            refine ⟨(fun d => if d.idx = q.idx then { d with poisoned := true } else d) d, ?_, ?_, fun c => absurd (hx1.symm.trans c) he⟩
            · show (x.opened.map _).find? _ = _
              rw [find_map_idx _ (fun d => by split <;> rfl), hd]; rfl
            · dsimp only; split <;> rfl
          · exact ⟨Onward.refl r y, hx1⟩
        have k := k1.trans k2.1 hs
        have hs2 : (findDesc (match acc.ref, e.2 with | some r, true => markPoisoned r (noteError acc e.1 e.2 x) | _, _ => noteError acc e.1 e.2 x) r).isSome = true := by
          obtain ⟨d, hd⟩ := Option.isSome_iff_exists.mp hs
          obtain ⟨d', hd', _⟩ := k.desc d hd
          rw [hd']; rfl
        exact k.trans (ih _ k2.2 hs2) hs
    exact weak _ s rfl h

theorem writeMem_clean (acc : Access) (a : Nat) (bs : List Byte) (s : State) (h : s.mem.errs = []) : (writeMem acc a bs s).mem.errs = [] := by
  unfold writeMem; dsimp only; rw [errorsIn_nil _ _ _ h]; exact h

theorem writeMem_onward (r : DRef) (acc : Access) (a : Nat) (bs : List Byte) (s : State) : Onward r s (writeMem acc a bs s) :=
  Onward.of_keeps (writeMem_keeps acc a bs s (F := 0x80008000000602)) (by decide) (by decide) (by decide) (by decide) (writeMem_clean acc a bs s)

theorem emitHist_onward (r q : DRef) (noHist : Bool) (stream : Nat) (kind : EngineKind) (engine : Nat) (h : Hist) (s : State)
    (hs : (findDesc s r).isSome = true) : Onward r s (emitHist q noHist stream kind engine h s) := by
  have hist : ∀ (f : HistRing → HistRing) (x : State), (findDesc x r).isSome = true →
      Onward r x (modDoor q.ctx (fun d => { d with hist := f d.hist }) x) := by
    intro f x hx
    obtain ⟨d, hd⟩ := Option.isSome_iff_exists.mp hx
    have rg : ringOf (modDoor q.ctx (fun d => { d with hist := f d.hist }) x) r.ctx r.ring = ringOf x r.ctx r.ring := by
      unfold ringOf
      rw [door_modDoor]
      split <;> rfl
    refine ⟨rfl, rfl, rfl, by rw [rg], by rw [rg], List.suffix_refl _, id, ?_⟩
    intro e he
    exact ⟨e, by unfold findDesc at he ⊢; rw [rg]; exact he, rfl, fun _ => rfl⟩
  unfold emitHist
  dsimp only
  split
  · exact Onward.refl r s
  · split
    · refine ((emit_onward r _ s).trans (emit_onward r _ _) hs).trans (hist (fun h => { h with produced := ((door s q.ctx).hist.produced + 1) % 2 ^ 32 }) _ hs) hs
    · refine (hist (fun h => { h with lost := h.lost + 1 }) s hs).trans ?_ hs
      exact Onward.of_keeps (F := 0x100000000) (setFlag_keeps .hif 2 _ (by decide)) (by decide) (by decide) (by decide) (by decide) id

theorem Onward.found {r : DRef} {s t : State} (k : Onward r s t) (h : (findDesc s r).isSome = true) : (findDesc t r).isSome = true := by
  obtain ⟨d, hd⟩ := Option.isSome_iff_exists.mp h
  obtain ⟨d', hd', _⟩ := k.desc d hd
  rw [hd']; rfl

theorem completionRecord_same {r : DRef} {s t : State} (b : List Byte) (status : Nat) (tail : List Byte)
    (ht : t.mod.devTime = s.mod.devTime) (hz : (ringOf t r.ctx r.ring).sizeLog2 = (ringOf s r.ctx r.ring).sizeLog2) :
    completionRecord t r b status tail = completionRecord s r b status tail := by
  unfold completionRecord Ring.size; rw [ht, hz]

/-- What closing a descriptor sends out is its record. -/
theorem closeDesc_out (r : DRef) (b : List Byte) (st : Nat) (tail : List Byte) (s : State) :
    (closeDesc r b st tail s).out = (writeCompletion r b st (tailOf s r b tail) s).out := by
  have g : ∀ x, (noteGatherEnd r b st x).out = x.out := by intro x; unfold noteGatherEnd; split <;> rfl
  have c : ∀ x, (countStepStatus r st x).out = x.out := by intro x; unfold countStepStatus; split <;> rfl
  unfold closeDesc
  dsimp only
  split
  · show (countStepStatus r st _).out = _
    rw [c]
    exact g _
  · rw [c]
    exact g _

/-! What follows the record only adds to what leaves the module. -/

theorem closeDesc_adds (r : DRef) (b : List Byte) (st : Nat) (tail : List Byte) (s : State) : s.out <:+ (closeDesc r b st tail s).out := by
  rw [closeDesc_out]
  exact (List.suffix_cons _ _).trans (List.suffix_cons _ _)

theorem afterClose_adds (r : DRef) (b : List Byte) (signal : Bool) (s : State) : s.out <:+ (afterClose r b signal s).out := by
  have f : ∀ x : State, x.out <:+ (fireInterrupt r b x).out := by
    intro x
    unfold fireInterrupt fireVector
    repeat' split
    · exact List.suffix_refl _
    · exact List.suffix_cons _ _
    · exact List.suffix_refl _
  unfold afterClose
  refine List.IsSuffix.trans ?_ (f _)
  split <;> exact List.suffix_refl _

theorem foldl_out {α : Type} (f : State → α → State) (h : ∀ s a, s.out <:+ (f s a).out) (l : List α) (s : State) :
    s.out <:+ (l.foldl f s).out := by
  induction l generalizing s with
  | nil => exact List.suffix_refl _
  | cons a l ih => exact (h s a).trans (ih _)

/-- What closing out a descriptor does to the outputs: the record's two writes, then others. -/
theorem closeOut_adds (signal flushes : Bool) (r : DRef) (b : List Byte) (st : Nat) (tail : List Byte) (s : State) :
    (writeCompletion r b st (tailOf s r b tail) s).out <:+ (closeOut signal flushes r b st tail s).out := by
  unfold closeOut
  dsimp only
  rw [← closeDesc_out]
  split
  · unfold signalCovered
    refine List.IsSuffix.trans ?_ (foldl_out _ (fun s a => afterClose_adds ..) _ _)
    refine List.IsSuffix.trans ?_ (afterClose_adds ..)
    unfold closeCovered
    refine List.IsSuffix.trans ?_ (foldl_out _ (fun s a => closeDesc_adds ..) _ _)
    unfold startFlush
    split <;> exact List.suffix_refl _
  · exact afterClose_adds ..

theorem settle_out (n : Nat) (s : State) : s.out <:+ (settle n s).out := by
  induction n generalizing s with
  | zero => exact List.suffix_refl _
  | succ n ih =>
    unfold settle
    split
    · exact List.suffix_refl _
    · rename_i r d st rej _
      refine List.IsSuffix.trans ?_ (ih _)
      refine List.IsSuffix.trans ?_ (closeOut_adds ..)
      refine List.IsSuffix.trans ?_ ((List.suffix_cons _ _).trans (List.suffix_cons _ _))
      cases rej <;> exact List.suffix_refl _

/-- What a completion does to the outputs: the record's two writes, then others. -/
theorem completeWith_out (signal rejected flushes : Bool) (r : DRef) (status : Nat) (tail : List Byte) (s : State) (d : Desc)
    (h : findDesc s r = some d) :
    (writeCompletion r d.bytes (finalStatus d rejected status) (tailOf s r d.bytes tail) s).out
      <:+ (completeWith signal rejected flushes r status tail s).out := by
  unfold completeWith
  rw [h]
  dsimp only
  refine List.IsSuffix.trans ?_ (settle_out _ _)
  refine List.IsSuffix.trans ?_ (closeOut_adds ..)
  cases rejected <;> exact List.suffix_refl _

theorem reported_of {r : DRef} {s x t : State} (k : Onward r s x) (d : Desc) (status : Nat) (tail : List Byte)
    (ho : (writeCompletion r d.bytes status tail x).out <:+ t.out) : Reported s t r d.bytes status tail := by
  have hr := completionRecord_same d.bytes status tail k.time k.size
  have hc := k.comp
  have hz : (ringOf x r.ctx r.ring).size = (ringOf s r.ctx r.ring).size := by unfold Ring.size; rw [k.size]
  have hf : functionOf x r.ctx = functionOf s r.ctx := by unfold functionOf; rw [k.vfs]
  have hm := ho.subset
  unfold writeCompletion emit at hm
  dsimp only at hm
  rw [hr, hc, hz, hf] at hm
  unfold Reported
  exact ⟨hm (by simp), hm (by simp)⟩

/-- A descriptor completes with its status; ECC_UNCORRECTABLE takes its place only where a codeword in error has been read. -/
theorem completeWith_ended {r : DRef} {s x : State} (k : Onward r s x) (h : (findDesc s r).isSome = true)
    (signal rejected flushes : Bool) (status : Nat) (tail : List Byte) :
    Ended s (completeWith signal rejected flushes r status tail x) r status tail := by
  obtain ⟨d, hd⟩ := Option.isSome_iff_exists.mp h
  obtain ⟨d', hd', hb, hp⟩ := k.desc d hd
  refine ⟨d, finalStatus d' rejected status, hd, ?_, reported_of k d _ _ ?_⟩
  · unfold finalStatus
    split
    · rename_i hc
      right
      refine ⟨rfl, ?_⟩
      by_cases he : s.mem.errs = []
      · left; rw [← hp he]; simp at hc; exact hc.1.1
      · right; exact he
    · left; rfl
  · have e : tailOf s r d.bytes tail = tailOf x r d'.bytes tail := by
      unfold tailOf stepOpen curStep stepCtx; rw [hb, k.steps]
    rw [e, ← hb]; exact completeWith_out _ _ _ _ _ _ _ d' hd'

theorem complete_ended {r : DRef} {s x : State} (k : Onward r s x) (h : (findDesc s r).isSome = true) (status : Nat) (tail : List Byte) :
    Ended s (complete r status tail x) r status tail := completeWith_ended k h _ _ _ _ _

theorem reject_ended {r : DRef} {s x : State} (k : Onward r s x) (h : (findDesc s r).isSome = true) (status : Nat) (tail : List Byte) :
    Ended s (reject r status tail x) r status tail := completeWith_ended k h _ _ _ _ _

end Sys2Proof.Machine
end

