-- ==== Sys2Proof/WellFormed.lean ====
section
/-!
DEFINITION. Which operands a command may carry: the lengths and ranges that the spec gives them. Every other operand is bounded by
its type. The machine gives a command a meaning whether or not it is well formed.
-/
namespace Sys2Proof

/-- A flit is 256 bytes (R292). -/
def flitSized (bytes : List Byte) : Bool := bytes.length == 256

/-- A provisioning record is 3,904 bytes (R431). -/
def recordSized (record : List Byte) : Bool := record.length == 3904

/-- A fetched descriptor is 64 bytes (R334). -/
def descriptorSized : HostReply → Bool
  | .data bytes => bytes.length == 64
  | _ => true

/-- A part of an image over MCTP is 1 to 1,024 bytes (R438). -/
def partSized (part : List Byte) : Bool := decide (1 ≤ part.length) && decide (part.length ≤ 1024)

/-- A host access through BAR2 moves 1 to 4,096 bytes (R323). -/
def hostSized (n : Nat) : Bool := decide (1 ≤ n) && decide (n ≤ 4096)

/-- A write of a byte array is one aligned access of 4 or 8 bytes (R324). -/
def arrayAccess (off n : Nat) : Bool := (n == 4 || n == 8) && off % n == 0

/-- Deviations are listed by rising place, none of them 0. -/
def deviationsListed (dev : Tab Int) : Bool := tabWf 0 dev

/-- A Drawer's calibration gives 64 codes for each column it lists (R381). -/
def codesListed (codes : Tab (List Int)) : Bool := codes.all fun e => decide (e.1 < 1024) && e.2.length == 64

/-- NumVFs is 1 to 15 (R320). -/
def vfsListed (v : Nat) : Bool := decide (1 ≤ v)

/-- The power source has no lowering interval (Table 13.2). -/
def timerExists (thermal raise : Bool) : Bool := thermal || raise

/-- One value for each of nine wavelengths (R290). -/
def perWave (n : Nat) : Bool := n == 9

/-- One measurement of CAL_VREF for each of eight dies (R380). -/
def perDie (n : Nat) : Bool := n == 8

/-- The command is well formed. -/
def Instr.wellFormed : Instr → Bool
  | .writeProvisioningRecord record => recordSized record
  | .throttleSourceTimer thermal raise => timerExists thermal raise
  | .bar2Read _ len => hostSized len
  | .bar2Write _ bytes => hostSized bytes.length
  | .vfEnableSet v => vfsListed v
  | .descriptorFetch _ _ reply => descriptorSized reply
  | .drwConversionDone _ dev => deviationsListed dev
  | .drwMapWrite _ off bytes => arrayAccess off bytes.length
  | .programPreReadDone _ _ dev => deviationsListed dev
  | .programPulse _ _ miss => deviationsListed miss
  | .programVerifyRead _ _ dev => deviationsListed dev
  | .programClosingRead _ _ dev => deviationsListed dev
  | .drawerCalibration _ dev codes => deviationsListed dev && codesListed codes
  | .calRun _ _ vref => perDie vref.length
  | .calReq _ vref => perDie vref.length
  | .calTempCheck vref => perDie vref.length
  | .firmwareData part => partSized part
  | .dataFlitReceived _ bytes => flitSized bytes
  | .linkHeartbeat p => flitSized p.bytes
  | .spareRequest p _ => flitSized p.bytes
  | .holdRequest p => flitSized p.bytes
  | .spareAcknowledged p => flitSized p.bytes
  | .idleFlitReceived _ bytes => flitSized bytes
  | .trainingPass _ _ eyes => perWave eyes.length
  | .laneMonitorWindow _ ser _ _ => perWave ser.length
  | _ => true

end Sys2Proof
end

