-- ==== Sys2Proof/Tests/Slice0.lean ====
section
/-!
SUPPORT. The model's own tests: what well-formedness refuses, for every statement a state and operands that meet its hypotheses, and a few
single steps whose results are worked out from the spec by hand.
-/
namespace Sys2Proof.Tests
set_option Elab.async false
open Sys2Proof.Machine Sys2Proof.Safety

/-! ## Small states -/

/-- The next state of a command. -/
def after (c : Instr) (s : State) : State :=
  match exec c s with
  | .next t => t
  | _ => s

/-- Bytes of a record: zeros, with a little-endian value of so many bytes at each offset. -/
def record (n : Nat) (fs : List (Nat × Nat × Nat)) : List Byte :=
  fs.foldl (fun b f => b.take f.1 ++ leBytes f.2.1 f.2.2 ++ b.drop (f.1 + f.2.1)) (zeros n)

/-- A descriptor: opcode, context and fields. -/
def desc (op ctx : Nat) (fs : List (Nat × Nat × Nat)) : List Byte := record 64 ([(0, 1, op), (1, 1, ctx)] ++ fs)

/-- A module in service at device time 1,000 ns, contexts 0 and 1 with every address open to them and every Drawer mapped. -/
def served : State :=
  let s := { State.reset with mod := { State.reset.mod with st := .ready, pllLocked := true, pwrGood := true, devTime := 1000 } }
  let s := [0, 1].foldl (fun s n => setReg (rHifWinLimit n 0) 0xFFFFFFFFFFFFF000 (setReg (rHifWinBase n 0) 3 s)) s
  { s with maps := [(0, BitVec.allOnes 16384), (1, BitVec.allOnes 16384)] }

/-- An enabled ring that holds these descriptors open, none dispatched. -/
def ringOn (ctx ring : Nat) (ds : List (List Byte)) (s : State) : State :=
  modRing ctx ring (fun q => { q with
    base := 0x1000, comp := 0x8000, enable := true, tail := ds.length, fetched := ds.length
    opened := (ds.zip (List.range ds.length)).map fun d => { idx := d.2, bytes := d.1 } }) s

/-- Bytes put into memory. -/
def put (a : Nat) (bs : List Byte) (s : State) : State := { s with mem := { s.mem with cells := memStore s.mem.cells a bs } }

/-- What dispatching the ring's next descriptor of an opcode hands to its command. -/
def accepted (s : State) (ctx ring op : Nat) : Option Accepted :=
  match headFor s ctx ring op with
  | none => none
  | some d => match substitute s ⟨⟨ctx, ring, d.idx⟩, d.bytes, []⟩ with
    | .go a => some a
    | .done _ _ => none

theorem dispatches_of_accepted (s : State) (ctx ring op : Nat) (a : Accepted) (h : accepted s ctx ring op = some a) :
    Dispatches s ctx ring op a := by
  unfold accepted at h
  split at h
  · cases h
  · rename_i d hd
    split at h
    · rename_i b hb
      cases h
      exact ⟨d, hd, hb⟩
    · cases h

/-- What the command of the ring's only descriptor, open in context 1, is handed. -/
def given (b : List Byte) : Accepted := ⟨⟨1, 0, 0⟩, b, []⟩

/-! ## Dresser -/

/-- An instruction word of Table 6.2: opcode and the fields that are not 0, as (lowest bit, value). -/
def insn (op : Nat) (fs : List (Nat × Nat)) : DWord := BitVec.ofNat 64 (op * 2 ^ 56 + (fs.map fun f => f.2 * 2 ^ f.1).sum)

/-- A launch of context 1 for unit 0: two instructions at 0x10000, arguments at 0x20000, at most 100 instructions. -/
def launch : List Byte := desc 0x41 1 [(20, 4, 100), (24, 2, 2), (32, 8, 0x10000), (40, 8, 0x20000)]

def launched : DrsJob := ⟨⟨1, 0, 0⟩, launch, false, []⟩

/-- Unit 0 about to execute `w`, which stands at both indices of its program. -/
def running (w : DWord) (r : DrsRun := {}) (pc : Nat := 0) (done : Nat := 0) : State :=
  { ringOn 1 0 [launch] served with
    drs := [(0, { queue := [launched], held := some ⟨1, 0x10000, 2, [w, w]⟩
                  run := { r with started := true, limit := 100, pc := pc, executed := done, loads := [] } })] }

/-- Registers for accesses: S1 holds 0x100000, S2 a row pitch of 1,024 bytes and S3 an element pitch of 4. -/
def addressing : DrsRun := { s := [(1, 0x100000), (2, 1024), (3, 4)] }

/-- What a row reads whose cells hold what they hold on delivery, check column 0 misread by `e` at its positive cell. -/
def Delivered (w : Drawer) (pos neg : List Int) (e : Int) : Prop :=
  w.colRemap = [] ∧ (∀ c, c < 1036 → pos.getD c 0 = if c = 1032 then 2000 + e else 2000) ∧
    ∀ c, c < 1036 → neg.getD c 0 = if c < 1032 then 2000 else 62000

theorem delivered_groups (w : Drawer) (pos neg : List Int) (e : Int) (h : Delivered w pos neg e) (g : Nat) (hg : g < 4) :
    checkValue (decideRow w pos neg).levels g = 0 := by
  obtain ⟨hw, hp, hn⟩ := h
  have hl : ∀ c, c < 1024 → (decideRow w pos neg).levels.getD c 0 = 0 := fun c h => by
    have hc : w.physCol c = c := by simp [Drawer.physCol, hw, tabGet]
    have h0 : pairWeight (pos.getD c 0) (neg.getD c 0) = 0 := by
      rw [hp c (by omega), hn c (by omega), if_neg (by omega), if_pos (by omega)]; rfl
    simp only [decideRow]
    rw [List.getD_eq_getElem?_getD, List.getElem?_map, List.getElem?_range h]
    simpa [hc] using h0
  have : (List.range 256).map (fun j => (decideRow w pos neg).levels.getD (4 * j + g) 0) = (List.range 256).map fun _ => 0 :=
    List.map_congr_left fun j hj => hl _ (by have := List.mem_range.1 hj; omega)
  rw [checkValue, groupSum, this]; decide +kernel

theorem delivered_checks (w : Drawer) (pos neg : List Int) (e : Int) (h : Delivered w pos neg e) (g : Nat) (hg : g < 4) :
    (decideRow w pos neg).checks.getD g 0 = pairWeight (if g = 0 then 2000 + e else 2000) 62000 := by
  obtain ⟨hw, hp, hn⟩ := h
  have hc : w.physCol (1032 + g) = 1032 + g := by
    unfold Drawer.physCol; rw [if_pos (by omega)]
  simp only [decideRow]
  rw [List.getD_eq_getElem?_getD, List.getElem?_map, List.getElem?_range hg]
  simp only [Option.map_some, Option.getD_some, hc]
  rw [hp _ (by omega), hn _ (by omega), if_neg (show ¬(1032 + g < 1032) by omega)]
  by_cases h0 : g = 0
  · subst h0; rfl
  · rw [if_neg (by omega), if_neg h0]

/-- A row as delivered passes its check. -/
theorem delivered_passes (w : Drawer) (pos neg : List Int) (h : Delivered w pos neg 0) : (decideRow w pos neg).passes = true := by
  have hf : ∀ g, g < 4 → (decideRow w pos neg).faults.getD g false = false := fun g hg => by
    obtain ⟨hw, hp, hn⟩ := h
    have hc : ∀ c, w.physCol c = c := fun c => by simp [Drawer.physCol, hw, tabGet]
    simp only [decideRow]
    rw [List.getD_eq_getElem?_getD, List.getElem?_map, List.getElem?_range hg]
    simp only [Option.map_some, Option.getD_some, hc, Bool.or_eq_false_iff, List.any_eq_false, List.mem_range]
    refine ⟨?_, fun j hj => ?_⟩
    · rw [hp _ (by omega)]; split <;> rfl
    · rw [hp _ (by omega), if_neg (by omega)]; simp; intro h; exact absurd h (by decide)
  rw [RowRead.passes, List.all_eq_true]
  intro g hg
  have hg := List.mem_range.1 hg
  rw [delivered_groups w pos neg 0 h g hg, delivered_checks w pos neg 0 h g hg, hf g hg]
  split <;> rfl

/-- One that is misread by more than a level does not. -/
theorem misread_fails (w : Drawer) (pos neg : List Int) (h : Delivered w pos neg 5000) : (decideRow w pos neg).passes = false := by
  rw [RowRead.passes, List.all_eq_false]
  refine ⟨0, by simp, ?_⟩
  rw [delivered_groups w pos neg 5000 h 0 (by omega), delivered_checks w pos neg 5000 h 0 (by omega)]
  intro h; revert h; simp; intro h; exact absurd h (by decide)

/-- The readings of a row of a plane as delivered. -/
theorem delivered_readings (w : Drawer) (pl : Plane) (row : Nat) (e : Int) (hw : w.colRemap = []) (hc : pl.cells = []) :
    Delivered w (rowReadings pl row 0 (if e = 0 then [] else [(1032, e)])) (rowReadings pl row 1 []) e := by
  have hcell : ∀ pair neg, pl.cell row pair neg = cellDefault pair neg := fun pair neg => by simp [Plane.cell, hc, tabGet]
  refine ⟨hw, fun c hl => ?_, fun c hl => ?_⟩ <;>
    rw [rowReadings, List.getD_eq_getElem?_getD, List.getElem?_map, List.getElem?_range hl] <;>
    simp only [Option.map_some, Option.getD_some, hcell, cellDefault]
  · by_cases h1 : c = 1032 <;> by_cases h2 : e = 0 <;> simp [tabGet, h1, h2, eq_comm (a := (1032 : Nat))]
  · simp [tabGet]; split <;> split <;> omega

/-! ## Bytes that were put and are read back -/

theorem readMem_put (a i n : Nat) (bs : List Byte) (s : State) (he : s.mem.errs = []) (h : i + n ≤ bs.length) :
    readMem (put a bs s) (a + i) n = (bs.drop i).take n := by
  refine List.ext_getElem (by simp [readMem]; omega) fun k h1 h2 => ?_
  have hk : k < n := by simpa [readMem] using h1
  have hu : uncorrectable (put a bs s).mem (a + i + k) = false := by simp [uncorrectable, put, he, tabGet]
  simp only [readMem, List.getElem_map, List.getElem_range, memByte, hu, Bool.false_eq_true, if_false, List.getElem_take, List.getElem_drop]
  rw [show a + i + k = a + (i + k) by omega, put]
  exact (memStore_read _ _ _ _ (by omega)).trans (by simp [byteAt, List.getD_eq_getElem?_getD, List.getElem?_eq_getElem (show i + k < bs.length by omega)])

theorem leBytes_length (n v : Nat) : (leBytes n v).length = n := by induction n generalizing v <;> simp [leBytes, *]

theorem leNat_leBytes (n v : Nat) : leNat (leBytes n v) = v % 256 ^ n := by
  induction n generalizing v with
  | zero => simp [leBytes, leNat, Nat.mod_one]
  | succ n ih =>
    simp only [leBytes, leNat, ih, BitVec.toNat_ofNat, Nat.reducePow]
    rw [Nat.pow_succ', Nat.mod_mul]

theorem crc32c_lt (l : List Byte) : crc32c l < 2 ^ 32 := by
  have bit : ∀ c, c < 2 ^ 32 → crcBit c < 2 ^ 32 := fun c h => by
    unfold crcBit
    split
    · exact Nat.xor_lt_two_pow (by omega) (by decide)
    · omega
  have all : ∀ (l : List Byte) (c : Nat), c < 2 ^ 32 → l.foldl crcByte c < 2 ^ 32 := fun l => by
    induction l with
    | nil => exact fun _ h => h
    | cons b l ih =>
      refine fun c h => ih _ ?_
      have hb : c ^^^ b.toNat < 2 ^ 32 := Nat.xor_lt_two_pow h (Nat.lt_of_lt_of_le b.isLt (by decide))
      exact bit _ (bit _ (bit _ (bit _ (bit _ (bit _ (bit _ (bit _ hb)))))))
  exact Nat.xor_lt_two_pow (all _ _ (by decide)) (by decide)

/-! ## An image that passes its checks -/

/-- An image of one block with this HEADER_CRC: MAGIC, FORMAT 1, key 0, SVN 1 with COMMIT_SVN; the block and its check value. -/
def imageStart : List Byte := record 28 [(0, 4, 0x43465731), (4, 2, 1), (12, 1, 1), (13, 1, 1), (14, 2, 1)]
def imageBlock : List Byte := zeros 65536 ++ (leBytes 4 (crc32c (zeros 65536)) ++ zeros 28)
def wholeBytes (c : Nat) : List Byte := imageStart ++ (leBytes 4 c ++ (zeros 4064 ++ imageBlock))

theorem zeros_length (n : Nat) : (zeros n).length = n := List.length_replicate

theorem imageStart_length : imageStart.length = 28 := by decide

theorem imageBlock_length : imageBlock.length = 65568 := by
  simp only [imageBlock, List.length_append, leBytes_length, zeros_length]

theorem wholeBytes_length (c : Nat) : (wholeBytes c).length = 69664 := by
  simp only [wholeBytes, List.length_append, imageStart_length, leBytes_length, zeros_length, imageBlock_length]

/-- A slice that ends within the first of two lists, and one that begins behind it. -/
theorem slice_left (xs ys : List Byte) (a n : Nat) (h : a + n ≤ xs.length) : ((xs ++ ys).drop a).take n = (xs.drop a).take n := by
  rw [List.drop_append_of_le_length (by omega), List.take_append_of_le_length (by rw [List.length_drop]; omega)]

theorem slice_right (xs ys : List Byte) (a n : Nat) : ((xs ++ ys).drop (xs.length + a)).take n = (ys.drop a).take n := by
  rw [List.drop_append, List.drop_eq_nil_of_le (by omega), List.nil_append, Nat.add_sub_cancel_left]

theorem image_low (c a n : Nat) (h : a + n ≤ 28) : ((wholeBytes c).drop a).take n = (imageStart.drop a).take n :=
  slice_left _ _ _ _ (by rw [imageStart_length]; exact h)

theorem image_high (c k n : Nat) : ((wholeBytes c).drop (32 + k)).take n = ((zeros 4064 ++ imageBlock).drop k).take n := by
  have hl : (imageStart ++ leBytes 4 c).length = 32 := by rw [List.length_append, imageStart_length, leBytes_length]
  rw [wholeBytes, ← List.append_assoc, ← hl, slice_right]

theorem image_zeros (c k n : Nat) (h : k + n ≤ 4064) : ((wholeBytes c).drop (32 + k)).take n = zeros n := by
  rw [image_high, slice_left _ _ _ _ (by rw [zeros_length]; exact h), zeros, List.drop_replicate, List.take_replicate, zeros]
  congr 1; omega

theorem leNat_zeros (n : Nat) : leNat (zeros n) = 0 := by
  induction n with
  | zero => rfl
  | succ n ih => rw [zeros, List.replicate_succ, leNat]; rw [zeros] at ih; rw [ih]; rfl

theorem image_field (c a n : Nat) (h : a + n ≤ 28) : hdrField ⟨wholeBytes c⟩ a n = leNat ((imageStart.drop a).take n) := by
  rw [hdrField, fieldAt, image_low c a n h]

theorem image_zero (c a n : Nat) (h1 : 32 ≤ a) (h : a + n ≤ 4096) : hdrField ⟨wholeBytes c⟩ a n = 0 := by
  obtain ⟨k, rfl⟩ := Nat.exists_eq_add_of_le h1
  rw [hdrField, fieldAt, image_zeros c k n (by omega), leNat_zeros]

/-- The check value of the header, which does not depend on the value it holds. -/
def imageCrc : Nat := crc32c (imageStart ++ zeros 3968)

theorem image_crc (c : Nat) : headerCrc ⟨wholeBytes c⟩ = imageCrc := by
  rw [headerCrc, Image.slice, Image.slice, image_low c 0 28 (by omega), show 32 = 32 + 0 from rfl, image_zeros c 0 3968 (by omega), imageCrc,
    List.drop_zero, List.take_of_length_le (Nat.le_of_eq imageStart_length)]

theorem image_crc_field (c : Nat) (h : c < 2 ^ 32) : hdrField ⟨wholeBytes c⟩ 28 4 = c := by
  rw [hdrField, fieldAt, wholeBytes, show 28 = imageStart.length + 0 by rw [imageStart_length], slice_right, List.drop_zero,
    List.take_left' (leBytes_length _ _), leNat_leBytes, show 256 ^ 4 = 2 ^ 32 from rfl, Nat.mod_eq_of_lt h]

theorem image_block (c k n : Nat) : ((wholeBytes c).drop (4096 + k)).take n = (imageBlock.drop k).take n := by
  rw [show 4096 + k = 32 + (4064 + k) by omega, image_high, show 4064 + k = (zeros 4064).length + k by rw [zeros_length], slice_right]

theorem image_blocks (c : Nat) : blockGood ⟨wholeBytes c⟩ 0 = true := by
  rw [blockGood, Image.block, Image.block, Image.slice, Image.slice, show 4096 + 65568 * 0 + 65536 = 4096 + 65536 from rfl,
    show 4096 + 65568 * 0 + 0 = 4096 + 0 from rfl, image_block, image_block, List.drop_zero, imageBlock,
    List.drop_left' (zeros_length _), List.take_left' (zeros_length _), List.take_left' (leBytes_length _ _), leNat_leBytes,
    show 256 ^ 4 = 2 ^ 32 from rfl, Nat.mod_eq_of_lt (crc32c_lt _)]
  exact beq_self_eq_true _

theorem imageCrc_lt : imageCrc < 2 ^ 32 := crc32c_lt _

/-- The bytes of an image with its check value. -/
def goodBytes : List Byte := wholeBytes imageCrc
def goodImage : Image := ⟨goodBytes⟩

theorem goodBytes_length : goodBytes.length = 69664 := wholeBytes_length _

theorem good_blocks : imgBlocks goodImage = 1 := by
  rw [imgBlocks, goodImage, goodBytes, image_field _ 14 2 (by omega)]; decide +kernel

theorem good_header : headerBad goodBytes.length goodImage = false := by
  have hb := good_blocks
  unfold headerBad
  rw [hb, goodBytes_length]
  rw [goodImage, goodBytes, image_crc, image_crc_field _ imageCrc_lt, image_field _ 0 4 (by omega), image_field _ 4 2 (by omega),
    show leNat ((imageStart.drop 0).take 4) = 0x43465731 by decide +kernel, show leNat ((imageStart.drop 4).take 2) = 1 by decide +kernel]
  simp

/-- The image passes orders 1 and 2 of Table 15.3. -/
theorem good_arrives : arrivalCheck goodImage = none := by
  have hg : goodBlocks goodImage 1 = 1 := by
    have h := image_blocks imageCrc
    rw [goodBlocks, show List.range 1 = [0] from rfl, List.takeWhile_cons_of_pos (by exact h)]; rfl
  rw [arrivalCheck, show goodImage.bytes.length = goodBytes.length from rfl, good_header, good_blocks, hg]
  simp

theorem good_key : imgKey goodImage = 0 := by
  rw [imgKey, goodImage, goodBytes, image_field _ 6 2 (by omega)]; decide +kernel

theorem good_svn : imgSvn goodImage = 1 := by
  rw [imgSvn, goodImage, goodBytes, image_field _ 12 1 (by omega)]; decide +kernel

/-- The digest fused for vendor key 0. -/
def goodKey : BitVec 384 := 1

/-- Answers of the cryptographic functions under which the image verifies with key 0 of these fuses and every block opens. -/
def goodCrypto (f : Fwu) : Crypto :=
  { sha384 := [(signedBytes goodImage, 0), ([], 0)], verifies := [(goodKey, 0, goodImage.slice 3904 96)], opens := [(blockQuery f goodImage 0, [])] }

theorem good_component (f : Fwu) (k : Nat) (h : k < 6) : componentGood f goodImage (goodCrypto f) k = true := by
  have h0 : compFirst goodImage k = 0 := image_zero _ _ 2 (by omega) (by omega)
  have h1 : compBlocks goodImage k = 0 := image_zero _ _ 2 (by omega) (by omega)
  have h2 : compLength goodImage k = 0 := image_zero _ _ 4 (by omega) (by omega)
  have h3 : componentDigest goodImage k = 0 := image_zero _ _ 48 (by omega) (by omega)
  have hs : shaOf (goodCrypto f) [] = some 0 := by
    simp only [shaOf, goodCrypto, List.find?_cons]
    split <;> simp
  simp [componentGood, componentFits, componentPlain, h0, h1, h2, h3, hs]

theorem good_key_usable (f : Fwu) (hf : f.keyDigests.head? = some (some goodKey)) (hr : f.keysRevoked = 0) :
    usableKey f (imgKey goodImage) = some goodKey := by
  rw [List.head?_eq_getElem?] at hf
  rw [usableKey, good_key, hr, hf, Nat.zero_testBit, if_neg Bool.false_ne_true, Option.join_some]

theorem sha_head (c : Crypto) (m : List Byte) (d : BitVec 384) (es : List (List Byte × BitVec 384)) (h : c.sha384 = (m, d) :: es) :
    shaOf c m = some d := by
  rw [shaOf, h]; simp

theorem good_digest (f : Fwu) : shaOf (goodCrypto f) (signedBytes goodImage) = some 0 := sha_head _ _ _ [([], 0)] rfl

theorem good_signature (f : Fwu) : signatureGood goodKey goodImage (goodCrypto f) = true := by
  rw [signatureGood, good_digest, goodCrypto]
  simp only [List.contains_cons, beq_self_eq_true, Bool.true_or]

theorem good_opens (f : Fwu) : blocksOpen f goodImage (goodCrypto f) = true := by
  rw [blocksOpen, good_blocks, show List.range 1 = [0] from rfl, List.all_cons, List.all_nil, Bool.and_true, plainOf, goodCrypto]
  simp only [List.find?_cons, beq_self_eq_true, Option.map_some, Option.isSome_some]

/-- With its key fused it passes the rest. -/
theorem good_verifies (f : Fwu) (hf : f.keyDigests.head? = some (some goodKey)) (hr : f.keysRevoked = 0) (hm : f.minSvn ≤ 1) :
    cryptoCheck f goodImage (goodCrypto f) = none := by
  have hc : (List.range 6).all (componentGood f goodImage (goodCrypto f)) = true :=
    List.all_eq_true.2 fun k hk => good_component f k (List.mem_range.1 hk)
  rw [cryptoCheck, good_key_usable f hf hr]
  simp only [good_signature, good_opens, hc, good_svn, Bool.not_true, Bool.or_false, if_neg (Nat.not_lt.2 hm), Bool.false_eq_true, if_false]

/-- Every instruction may execute there, whatever the registers hold: a state for each of the statements about Dresser instructions. -/
theorem running_issues (w : DWord) (r : DrsRun) : Issues (running w r) 0 (wOp w) launched w := by
  have hw : mustWait { r with started := true, limit := 100, pc := 0, executed := 0, loads := [] } w = false := by
    unfold mustWait; split <;> simp
  have hp : drsProgLen launched.bytes = 2 := by decide +kernel
  have hu : drsUnit (running w r) 0 = ⟨[launched], { r with started := true, limit := 100, pc := 0, executed := 0, loads := [] },
      some ⟨1, 0x10000, 2, [w, w]⟩, [], 0⟩ := rfl
  refine ⟨?_, rfl, ?_⟩
  · unfold nextInsn
    simp [hu, hw, atLimit]
  · rw [hu, hp]; exact Nat.lt_succ_self 1

/-- ControlInstructions: a branch to the last index, and one to itself. -/
theorem meets_ControlInstructions : (((0 : Nat) : Int) + wImm (insn 0x04 [(0, 1)])).toNat < drsProgLen launched.bytes
    ∧ (((0 : Nat) : Int) + wImm (insn 0x05 [])).toNat < drsProgLen launched.bytes := by decide +kernel

/-- LaunchesStart: a launch on an idle unit, and one behind another; a program that passes, and one with an opcode that Table 6.4 lacks. -/
theorem meets_LaunchesStart :
    Dispatches (ringOn 1 0 [launch] served) 1 0 0x41 (given launch) ∧ launchStatus (ringOn 1 0 [launch] served) 1 launch = 0
      ∧ (drsUnit (ringOn 1 0 [launch] served) 0).queue = [] ∧ (drsUnit (running 0) 0).queue ≠ []
      ∧ programFault [insn 0x00 [], insn 0x01 []] = none ∧ programFault [insn 0x00 [], insn 0x09 []] = some (1, 0x0602)
      ∧ (findDesc (running 0) launched.ref).isSome = true :=
  ⟨dispatches_of_accepted _ _ _ _ _ (by decide +kernel), by decide +kernel⟩

/-- ProgramsEnd: an END at index 0, and a NOP at the last index. -/
theorem meets_ProgramsEnd :
    (drsUnit (running (insn 0x01 [])) 0).queue = [launched] ∧ nextInsn (running (insn 0x01 [])) 0 = some (launched, insn 0x01 [])
      ∧ nextInsn (running 0 {} 1) 0 = some (launched, 0) ∧ (findDesc (running 0 {} 1) launched.ref).isSome = true
      ∧ drsProgLen launched.bytes ≤ 1 + 1 := by decide +kernel

/-- MaskInstructions, LaneArithmetic, RoundedAndMasterLanes, Reductions: formats of one sub-element, and the last of two. -/
theorem meets_lane_formats :
    subCount (wFmt (insn 0x60 [])) = 1 ∧ subCount (wFmt (insn 0x70 [(44, 13)])) = 1 ∧ wImmU (insn 0x5B [(44, 1), (0, 1)]) % 4 < 2 := by
  decide +kernel

/-- What a load or store that names S1, S2 and S3 computes its addresses from. -/
def accessing (w : DWord) (s : State) : InsnCtx := ⟨s, 0, launched.ref, w⟩

/-- Loads: scalars, masks and tiles of 1, 4 and 5 bytes a lane, aligned and permitted, and a load of each kind that is outstanding. -/
theorem meets_Loads :
    (let w := insn 0x1B [(30, 1)]; (rS addressing (wA w) + BitVec.ofInt 64 (wImm w)).toNat % 8 = 0
      ∧ permitted (running w addressing) 1 (rS addressing (wA w) + BitVec.ofInt 64 (wImm w)).toNat 32 true false = true) ∧
    (let w := insn 0x28 [(30, 1), (25, 2), (20, 3)]; ∀ l, l < 256 → active addressing w l = true →
      laneAddr (accessing w (running w addressing)) addressing l % 4 = 0
        ∧ permitted (running w addressing) 1 (laneAddr (accessing w (running w addressing)) addressing l) 5 true false = true) ∧
    (let w := insn 0x2B [(30, 1)]; ∀ l, l < 256 → active addressing w l = true →
      permitted (running w addressing) 1 (signAddr (accessing w (running w addressing)) addressing l) 1 true false = true) ∧
    (let w := insn 0x2A [(44, 7), (30, 1), (25, 2)]; (rS addressing (wC w)).toNat % 32 = 0 ∧ ∀ l, l < 256 → active addressing w l = true →
      permitted (running w addressing) 1 (mxAddrs (accessing w (running w addressing)) addressing l).1 1 true false = true
        ∧ permitted (running w addressing) 1 (mxAddrs (accessing w (running w addressing)) addressing l).2 1 true false = true) := by
  decide +kernel

/-- LaneStores, BlockStores: the same addresses may be written; the blocks of TSTQ lie at multiples of 16. -/
theorem meets_stores :
    (let w := insn 0x2C [(30, 1), (25, 2), (20, 3)]; ∀ l, l < 256 → active addressing w l = true →
      laneAddr (accessing w (running w addressing)) addressing l % 4 = 0
        ∧ permitted (running w addressing) 1 (laneAddr (accessing w (running w addressing)) addressing l) 5 false true = true) ∧
    (let w := insn 0x2F [(30, 1), (25, 2)]; ∀ l, l < 256 → active addressing w l = true →
      dq8Addr (accessing w (running w addressing)) addressing (l / 128) % 16 = 0
        ∧ permitted (running w addressing) 1 (dq8Addr (accessing w (running w addressing)) addressing (l / 128)) 144 false true = true) ∧
    (let w := insn 0x30 [(30, 1)]; (baseAddr (accessing w (running w addressing)) addressing).toNat % 8 = 0 ∧ ∀ l, l < 256 →
      permitted (running w addressing) 1 (signAddr (accessing w (running w addressing)) addressing l) 1 false true = true) ∧
    (let w := insn 0x2E [(44, 7), (30, 1), (25, 2)]; let r : DrsRun := { addressing with vl := 32 }
      (∀ l, l < 256 → active r w l = true → l / 32 = 0)
        ∧ (mxAddrs (accessing w (running w r)) r 0).2 + 1 ≤ (mxAddrs (accessing w (running w r)) r 0).1) := by decide +kernel

/-- AccessFaultsStop: a scalar and a tile access off their alignment, lane 0 of the tile the lowest active one. -/
theorem meets_AccessFaultsStop :
    (let w := insn 0x1B [(30, 1), (0, 4)]; nextInsn (running w addressing) 0 = some (launched, w)
      ∧ (baseAddr (accessing w (running w addressing)) addressing).toNat % 8 ≠ 0) ∧
    (let w := insn 0x28 [(30, 1), (25, 2), (20, 3), (0, 2)]; nextInsn (running w addressing) 0 = some (launched, w)
      ∧ active addressing w 0 = true ∧ laneAddr (accessing w (running w addressing)) addressing 0 % 4 ≠ 0) := by decide +kernel

/-- DresserWatchdogsStop: a program in execution, and one at its limit of 100 instructions. -/
theorem meets_DresserWatchdogsStop :
    (drsUnit (running 0 {} 0 100) 0).queue = [launched] ∧ (findDesc (running 0 {} 0 100) launched.ref).isSome = true
      ∧ (drsUnit (running 0 {} 0 100) 0).run.limit ≤ (drsUnit (running 0 {} 0 100) 0).run.executed ∧ resetWaits (running 0 {} 0 100) = false
      ∧ contextResetDue (running 0 {} 0 100) launched.ref.ctx = false ∧ (drsUnit (running 0 {} 0 100) 0).resets.head? ≠ some 1000 := by decide +kernel

/-! ## Trestle -/

/-- A product of context 1 on engine 0: FP32, M × N × 1, each matrix 0x1000 bytes after the one before, up to `tries` retries. -/
def matmul (m n tries : Nat) : List Byte :=
  desc 0x31 1 [(18, 1, 16 * tries), (22, 2, m), (24, 2, n), (26, 2, 1), (28, 2, 1), (30, 2, 256), (32, 2, 256),
    (40, 8, 0x100000), (48, 8, 0x200000), (56, 8, 0x300000)]

/-- MatmulAccepted: a shape of one tile, and an empty one. -/
theorem meets_MatmulAccepted :
    (Dispatches (ringOn 1 0 [matmul 1 1 0] served) 1 0 0x31 (given (matmul 1 1 0))
      ∧ trsStatus (ringOn 1 0 [matmul 1 1 0] served) 1 (matmul 1 1 0) [] = 0 ∧ extNeeded (matmul 1 1 0) = false
      ∧ trsM (matmul 1 1 0) ≠ 0 ∧ trsN (matmul 1 1 0) ≠ 0) ∧
    (Dispatches (ringOn 1 0 [matmul 0 1 0] served) 1 0 0x31 (given (matmul 0 1 0))
      ∧ trsStatus (ringOn 1 0 [matmul 0 1 0] served) 1 (matmul 0 1 0) [] = 0 ∧ trsM (matmul 0 1 0) = 0) :=
  ⟨⟨dispatches_of_accepted _ _ _ _ _ (by decide +kernel), by decide +kernel⟩,
    ⟨dispatches_of_accepted _ _ _ _ _ (by decide +kernel), by decide +kernel⟩⟩

/-- A product in execution on engine 0. -/
def multiplying (halvings : Nat) (bytes : List Byte) : State :=
  { ringOn 1 0 [bytes] served with trs := [(0, { queue := [{ ref := ⟨1, 0, 0⟩, bytes := bytes, ext := [], noHist := false, halvings := halvings }] })] }

/-- TilesAreWritten: the only tile of a shape, the first of two, one that overflows within its retries and one past them. -/
theorem meets_TilesAreWritten :
    (let s := multiplying 0 (matmul 1 1 0); ∃ j, (trsEngine s 0).queue = [j] ∧ j.dropped = false
      ∧ (attemptElems (trsAttempt s j)).any (·.flags.overflow) = false ∧ tileCount j.bytes ≤ j.tile + 1 ∧ (findDesc s j.ref).isSome = true
      ∧ isMx (storedC j.bytes).fmt = false ∧ (storedC j.bytes).tiled = false ∧ pitchTooSmall (storedC j.bytes) = false
      ∧ mapWritten j.bytes = false ∧ 0 ∈ tileRows j.bytes 0 ∧ 0 ∈ tileCols j.bytes 0) ∧
    (let s := multiplying 0 (matmul 1 257 0); ∃ j, (trsEngine s 0).queue = [j] ∧ j.tile + 1 < tileCount j.bytes
      ∧ (attemptElems (trsAttempt s j)).any (·.flags.overflow) = false) ∧
    (let s := put 0x100000 [0, 0, 0, 0x7F] (put 0x200000 [0, 0, 0, 0x7F] (multiplying 0 (matmul 1 1 1)))
      ∃ j, (trsEngine s 0).queue = [j] ∧ (attemptElems (trsAttempt s j)).any (·.flags.overflow) = true ∧ mapWritten j.bytes = true
        ∧ j.halvings < trsRetryMax j.bytes) ∧
    (let s := multiplying 1 (matmul 1 1 1); ∃ j, (trsEngine s 0).queue = [j] ∧ trsRetryMax j.bytes ≤ j.halvings
      ∧ mapWritten j.bytes = true) := by
  refine ⟨⟨_, rfl, ?_⟩, ⟨_, rfl, ?_⟩, ⟨_, rfl, ?_⟩, ⟨_, rfl, ?_⟩⟩ <;> decide +kernel

/-- TermsSumByPairs: products of 1, 4, 32 and 33 terms, those of the last two equal, being zeros. -/
theorem meets_TermsSumByPairs : trsK (desc 0x31 1 [(26, 2, 1)]) = 1 ∧ trsK (desc 0x31 1 [(26, 2, 4)]) = 4
    ∧ trsK (desc 0x31 1 [(26, 2, 33)]) = 33 ∧ trsK (desc 0x31 1 [(26, 2, 32)]) = 32 ∧ ∀ n, n < 32 →
      trsTerm served (desc 0x31 1 [(26, 2, 32)]) 0 0 0 n = trsTerm served (desc 0x31 1 [(26, 2, 33)]) 0 0 0 n := by decide +kernel

/-- TrestleWatchdogStops: the descriptor in execution is open. -/
theorem meets_TrestleWatchdogStops : ∃ j, (trsEngine (multiplying 0 (matmul 1 1 0)) 0).queue = [j]
    ∧ (findDesc (multiplying 0 (matmul 1 1 0)) j.ref).isSome = true ∧ j.dropped = false ∧ resetWaits (multiplying 0 (matmul 1 1 0)) = false
    ∧ contextResetDue (multiplying 0 (matmul 1 1 0)) j.ref.ctx = false := ⟨_, rfl, by decide +kernel⟩

/-! ## Drawers -/

/-- A product of 16 rows and 4 columns on Drawer 5, of so many vectors. -/
def product (vectors hold : Nat) : List Byte :=
  desc 0x21 1 [(16, 2, 5), (19, 1, hold), (26, 2, 16), (28, 2, 2), (30, 2, 4), (32, 2, vectors), (36, 1, 5), (38, 2, 1),
    (40, 8, 0x10000000000), (48, 8, 0x10000002000), (56, 8, 0x10000004000)]

/-- A readout of rows 3 and 4, or of rows 250 to 259 by columns, columns 2 to 5, in LV5. -/
def readRows : List Byte := desc 0x22 1 [(16, 2, 5), (24, 2, 3), (26, 2, 2), (28, 2, 2), (30, 2, 4), (34, 2, 1), (48, 8, 0x10000006000)]
def readCols : List Byte := desc 0x23 1 [(16, 2, 5), (24, 2, 250), (26, 2, 10), (28, 2, 2), (30, 2, 4), (34, 2, 1), (48, 8, 0x10000007000)]

/-- The level image of generation 0. -/
def image : List Byte := desc 0x26 1 [(16, 2, 5), (48, 8, 0x10000100000)]

/-- A module that logs no invalid trims, and one whose Drawer 5 has plane A Retained. -/
def lenient : State := setReg rDrwCtrl 2 served
def retaining : State := { served with drawers := [(5, { planeA := { st := .retained }, planeB := { st := .active, gen := 1 }, activeB := true })] }

/-- Drawer 5 with this descriptor at the head of its queue, as far as `f` says. -/
def onDrawer (b : List Byte) (f : DrwJob → DrwJob) : State :=
  { ringOn 1 0 [b] lenient with
    drawers := [(5, { queue := [f { ref := ⟨1, 0, 0⟩, bytes := b, noHist := false, plane := 0, gen := 0, begun := true }] })] }

/-- DrawerDescriptorsAccepted: each of the four kinds on a free Drawer. -/
theorem meets_DrawerDescriptorsAccepted :
    (Dispatches (ringOn 1 0 [product 1 1] lenient) 1 0 0x21 (given (product 1 1)) ∧ drwStatus (ringOn 1 0 [product 1 1] lenient) 1 (product 1 1) = 0
      ∧ selectPlane (drawer lenient 5) (product 1 1) = some 0 ∧ (drawer lenient 5).queue = [] ∧ dwVectors (product 1 1) ≠ 0
      ∧ regBit lenient rDrwCtrl 0 = false) ∧
    (Dispatches (ringOn 1 0 [readRows] served) 1 0 0x22 (given readRows) ∧ drwStatus (ringOn 1 0 [readRows] served) 1 readRows = 0
      ∧ selectPlane (drawer served 5) readRows = some 0) ∧
    (Dispatches (ringOn 1 0 [readCols] served) 1 0 0x23 (given readCols) ∧ drwStatus (ringOn 1 0 [readCols] served) 1 readCols = 0) ∧
    (Dispatches (ringOn 1 0 [image] retaining) 1 0 0x26 (given image) ∧ mapped retaining 1 5 = true
      ∧ permitted retaining 1 (dwOutAddr image) imageBytes false true = true
      ∧ retainedPlane (drawer retaining 5) (fieldAt image 24 4) = some 0) :=
  ⟨⟨dispatches_of_accepted _ _ _ _ _ (by decide +kernel), by decide +kernel⟩,
    ⟨dispatches_of_accepted _ _ _ _ _ (by decide +kernel), by decide +kernel⟩,
    ⟨dispatches_of_accepted _ _ _ _ _ (by decide +kernel), by decide +kernel⟩,
    ⟨dispatches_of_accepted _ _ _ _ _ (by decide +kernel), by decide +kernel⟩⟩

/-- ProductsOfNoVectorComplete: a product of no vector that takes a hold, on a free Drawer, and the largest vector count. -/
theorem meets_ProductsOfNoVectorComplete : fieldAt (product 65535 0) 32 2 = 65535 ∧
    (Dispatches (ringOn 1 0 [product 0 1] served) 1 0 0x21 (given (product 0 1)) ∧ dwVectors (product 0 1) = 0
      ∧ drwStatus (ringOn 1 0 [product 0 1] served) 1 (product 0 1) = 0 ∧ dwHold (product 0 1) = true ∧ (drawer served 5).queue = []) :=
  ⟨by decide +kernel, dispatches_of_accepted _ _ _ _ _ (by decide +kernel), by decide +kernel⟩

/-- A product at its first, or its last, conversion; a row group of 32 where it may be halved. -/
def converting (last : Bool) (j : DrwJob) : DrwJob :=
  { j with trims := List.replicate 4 0x80000800, scales := List.replicate 4 0x3F80
           prod := { j.prod with gSize := 32, low := last, acc := List.replicate 4 0, elems := List.replicate 16 0, exps := [0] } }

/-- ProductConversionAccumulates, ProductWritesItsVector: a conversion of the high nibbles, the last one of the only vector, and one that a
converter's error saturates. -/
theorem meets_products :
    (let s := onDrawer (product 1 0) (converting false); ∃ j, (drawer s 5).queue = [j] ∧ isProduct j.bytes = true ∧ j.begun = true
      ∧ regBit s rDrwCtrl 0 = false ∧ j.prod.acc.length = dwColCount j.bytes ∧ j.trims.length = dwColCount j.bytes
      ∧ (nextPhase j.prod).group < groupCount j.bytes j.prod) ∧
    (let s := onDrawer (product 1 0) (converting true); ∃ j, (drawer s 5).queue = [j] ∧ dwDrawer j.bytes = 5 ∧ j.dropped = false ∧ dwAccum j.bytes = false
      ∧ (findDesc s j.ref).isSome = true ∧ j.scales.length = dwColCount j.bytes ∧ (convert (drawer s 5) j []).1.satHi = false
      ∧ (convert (drawer s 5) j []).1.satLo = false
      ∧ groupCount j.bytes (convert (drawer s 5) j []).1 ≤ (nextPhase (convert (drawer s 5) j []).1).group
      ∧ (convert (drawer s 5) j []).1.vec + 1 = dwVectors j.bytes) ∧
    (let s := onDrawer (product 1 0) (converting true); ∃ j, (drawer s 5).queue = [j] ∧ j.prod.retries < dwRetryMax j.bytes
      ∧ dwPolicy j.bytes = 1 ∧ 16 < j.prod.gSize ∧ groupCount j.bytes j.prod ≤ (nextPhase j.prod).group
      ∧ (convCode (charge (drawer s 5) j 2) (if j.prod.low then j.prod.gLo else j.prod.gHi) 9000000).2 = true) := by
  refine ⟨⟨_, rfl, ?_⟩, ⟨_, rfl, ?_⟩, ⟨_, rfl, ?_⟩⟩ <;> decide +kernel

/-- RowsAreReadOut: the positive cells, then the negative ones of a row that passes, the first and the last; a row that fails, read again. -/
theorem meets_RowsAreReadOut :
    (∃ j, (drawer (onDrawer readRows id) 5).queue = [j] ∧ dOpcode j.bytes = 0x22 ∧ j.begun = true ∧ j.dropped = false ∧ j.read.neg = false
      ∧ dwColStart j.bytes + dwColCount j.bytes ≤ 1024) ∧
    (decideRow (drawer (onDrawer readRows id) 5) (rowReadings (drawer (onDrawer readRows id) 5).planeA 3 0 [])
      (rowReadings (drawer (onDrawer readRows id) 5).planeA 3 1 [])).passes = true ∧
    (decideRow (drawer (onDrawer readRows id) 5) (rowReadings (drawer (onDrawer readRows id) 5).planeA 3 0 [(1032, 5000)])
      (rowReadings (drawer (onDrawer readRows id) 5).planeA 3 1 [])).passes = false ∧
    dwReadFmt readRows = 0 ∧ 0 + 1 < dwRowCount readRows ∧ dwRowCount readRows ≤ 1 + 1 ∧ dwDrawer readRows = 5
      ∧ (findDesc (onDrawer readRows id) ⟨1, 0, 0⟩).isSome = true := by
  exact ⟨⟨_, rfl, by decide +kernel⟩, delivered_passes _ _ _ (delivered_readings _ _ 3 0 rfl rfl),
    misread_fails _ _ _ (delivered_readings _ _ 3 5000 rfl rfl), by decide +kernel⟩

/-- ColumnsAreReadOut: rows that touch two quarters, columns of the range and of the check beyond it. -/
theorem meets_ColumnsAreReadOut :
    ∃ j, (drawer (onDrawer readCols id) 5).queue = [j] ∧ dOpcode j.bytes = 0x23 ∧ j.begun = true ∧ j.dropped = false ∧ j.read.transposedDone = false
      ∧ j.read.part + 1 < partCount (drawer (onDrawer readCols id) 5).planeA j.bytes
      ∧ partCount (drawer (onDrawer readCols id) 5).planeA j.bytes ≤ 1 + 1 ∧ 0 + 1 < (readSet j.bytes).length
      ∧ dwColStart j.bytes ≤ (readSet j.bytes).getD 2 0 ∧ (readSet j.bytes).getD 2 0 < dwColStart j.bytes + dwColCount j.bytes
      ∧ dwTiled j.bytes = false ∧ dwReadFmt j.bytes = 0 := ⟨_, rfl, by decide +kernel⟩

/-- DrawerWatchdogStops: a descriptor in execution on a Drawer whose watchdog has not fired. -/
theorem meets_DrawerWatchdogStops : ∃ j, (drawer (onDrawer readRows id) 5).queue = [j] ∧ dwDrawer j.bytes = 5
    ∧ (findDesc (onDrawer readRows id) j.ref).isSome = true ∧ (drawer (onDrawer readRows id) 5).wdogAt = none ∧ j.dropped = false
    ∧ resetWaits (onDrawer readRows id) = false ∧ contextResetDue (onDrawer readRows id) j.ref.ctx = false := ⟨_, rfl, by decide +kernel⟩

/-- The statements about descriptors that are dispatched: each ring of these holds nothing behind its head. -/
theorem meets_GoodHeaders : ∀ b ∈ [product 1 1, readRows, readCols, image], GoodHeaders (ringOn 1 0 [b] served) 1 0 := by
  unfold GoodHeaders; decide +kernel

/-! ## Chests -/

/-- PLN_TARGET, PLN_PROGRAM and PLN_REMAP_COL for Drawer 5, of Chest 0. -/
def target : List Byte := desc 0x24 1 [(16, 2, 5), (18, 1, 1), (20, 2, 320), (32, 8, 0x10000000000), (40, 8, 0x10000200000), (48, 8, 0x10001000000)]
def program : List Byte := desc 0x25 1 [(16, 2, 5), (24, 8, 7), (56, 8, 0x10000000000)]
def remap : List Byte := desc 0x27 1 [(16, 2, 5), (20, 2, 1023), (48, 8, 0x10000000000), (56, 8, 0x10000200000)]

/-- Chest 0 with so many descriptors queued. -/
def queued (b : List Byte) (n : Nat) : State :=
  { ringOn 1 0 [b] served with chests := [(0, { queue := List.replicate n { ref := ⟨1, 0, 0⟩, bytes := b } })]
                               maps := [(1, BitVec.allOnes 16384)] }

/-- Lane 0 of Chest 0 at this job, for plane 1 of Drawer 5. -/
def onLane (j : PlnJob) : State :=
  { ringOn 1 0 [j.bytes] served with
    chests := [(0, { lanes := [(0, some j)] })], drawers := [(5, { planeB := { st := .programming, gen := 1 } })] }

def job (phase : RowPhase) (row cycle : Nat) (outside : List Nat) : PlnJob :=
  { ref := ⟨1, 0, 0⟩, bytes := program, phase := phase, plane := 1, row := row, cycle := cycle, outside := outside }

/-- TargetLevelRule: a scale of 0, a master that is no number, one within the band of its reference, and one beyond the largest level. -/
theorem meets_TargetLevelRule : scaleInvalid .zero = true ∧ XVal.nan.isFinite = false
    ∧ withinBand ((XVal.fin false 2 1).add ((XVal.ofInt 2).mul (.fin false 1 1)).negate) (.fin false 1 1) = true
    ∧ withinBand ((XVal.fin false 20 1).add ((XVal.ofInt 2).mul (.fin false 1 1)).negate) (.fin false 1 1) = false
    ∧ (XVal.fin false 20 1).div (.fin false 1 1) = .fin false 20 1 := by decide +kernel

/-- TargetsAreChosen: a PLN_TARGET that passes validation, and one that its Chest's unit is at. -/
theorem meets_TargetsAreChosen :
    (Dispatches (ringOn 1 0 [target] served) 1 0 0x24 (given target) ∧ targetStatus (ringOn 1 0 [target] served) 1 target = 0
      ∧ tgtFull target = true) ∧
    (let s := { ringOn 1 0 [target] served with chests := [(0, { targets := [⟨⟨1, 0, 0⟩, target⟩] })] };
      (chest s 0).targets = [⟨⟨1, 0, 0⟩, target⟩] ∧ (findDesc s ⟨1, 0, 0⟩).isSome = true) :=
  ⟨⟨dispatches_of_accepted _ _ _ _ _ (by decide +kernel), by decide +kernel⟩, by decide +kernel⟩

/-- ProgrammingIsQueued: a queue of one free entry, and a full one. -/
theorem meets_ProgrammingIsQueued :
    (Dispatches (queued program 0) 1 0 0x25 (given program) ∧ programStatus (queued program 0) 1 program = 0
      ∧ (chest (queued program 0) (chestOf (plnDrawer program))).queue.length < 64) ∧
    (Dispatches (queued remap 0) 1 0 0x27 (given remap) ∧ programStatus (queued remap 0) 1 remap = 0) ∧
    (Dispatches (queued program 64) 1 0 0x25 (given program) ∧ 64 ≤ (chest (queued program 64) 0).queue.length) :=
  ⟨⟨dispatches_of_accepted _ _ _ _ _ (by decide +kernel), by decide +kernel⟩,
    ⟨dispatches_of_accepted _ _ _ _ _ (by decide +kernel), by decide +kernel⟩,
    ⟨dispatches_of_accepted _ _ _ _ _ (by decide +kernel), by decide +kernel⟩⟩

/-- In a memory of zeros every byte of an image is level 0. -/
theorem imageValid_zeros (s : State) (a : Nat) (hc : s.mem.cells = []) (he : s.mem.errs = []) : imageValid s a = true := by
  rw [imageValid, List.all_eq_true]
  intro i _
  have hu : uncorrectable s.mem (a + i) = false := by simp [uncorrectable, he, tabGet]
  simp [memByte, hu, hc, tabGet]
  decide

/-- LaneStarts: a descriptor whose plane is held, one whose plane is free and one that moves a column. -/
theorem meets_LaneStarts :
    (∃ j, (chest (queued program 1) 0).queue = [j] ∧ freeLane (chest (queued program 1) 0) = some 0 ∧ (chest (queued program 1) 0).held = []
      ∧ reloadBars (queued program 1) 0 = false
      ∧ chestOf (plnDrawer j.bytes) = 0 ∧ (findDesc (queued program 1) j.ref).isSome = true ∧ dOpcode j.bytes = 0x25
      ∧ ((drawer (queued program 1) 5).plane 1).hold = 0) ∧
    imageValid (queued program 1) (plnTargetAddr program) = true ∧
    ((drawer { queued program 1 with drawers := [(5, { planeB := { hold := 1 } })] } 5).plane 1).hold ≠ 0 ∧
    (∃ j, (chest (queued remap 1) 0).queue = [j] ∧ dOpcode j.bytes = 0x27 ∧ reloadBars (queued remap 1) 0 = false
      ∧ freeSpareCol (drawer (queued remap 1) 5) = some 0) := by
  refine ⟨⟨_, rfl, ?_⟩, imageValid_zeros _ _ rfl rfl, ?_, ⟨_, rfl, ?_⟩⟩ <;> decide +kernel

/-- A row of the plane as delivered reads as `misread_fails` and `delivered_passes` say. -/
theorem delivered_row (j : PlnJob) (e : Int) (hp : j.plane = 1) (hd : plnDrawer j.bytes = 5) :
    Delivered (drawer (onLane j) j.drawer)
      ((List.range 1036).map fun p => jobReading (drawer (onLane j) j.drawer) j (if e = 0 then [] else [(2064, e)]) p 0)
      ((List.range 1036).map fun p => jobReading (drawer (onLane j) j.drawer) j (if e = 0 then [] else [(2064, e)]) p 1) e := by
  have hw : drawer (onLane j) j.drawer = { planeB := { st := .programming, gen := 1 } } := by
    unfold PlnJob.drawer; rw [hd]; rfl
  have hcell : ∀ dev pair neg, jobReading (drawer (onLane j) j.drawer) j dev pair neg = cellDefault pair neg + tabGet 0 dev (2 * pair + neg) :=
    fun dev pair neg => by simp [jobReading, hw, hp, Drawer.plane, Plane.cell, tabGet]
  refine ⟨by rw [hw], fun c hl => ?_, fun c hl => ?_⟩ <;>
    rw [List.getD_eq_getElem?_getD, List.getElem?_map, List.getElem?_range hl] <;>
    simp only [Option.map_some, Option.getD_some, hcell, cellDefault]
  · by_cases h1 : c = 1032 <;> by_cases h2 : e = 0 <;> simp [tabGet, h1, h2, show (2064 = 2 * c) ↔ c = 1032 by omega]
  · by_cases h2 : e = 0 <;> simp [tabGet, h2, show ¬(2064 = 2 * c + 1) by omega] <;> split <;> split <;> omega

/-- Row 0's targets as its pre-read takes them from an image of level 0. -/
def read0 : PlnJob :=
  { job .preRead 0 0 [] with target := (readMem (onLane (job .preRead 0 0 [])) (plnTargetAddr program + 1024 * 0) 1024).map fun b => imageLevel b.toNat }

theorem read0_target (c : Nat) : read0.target.getD c 0 = 0 := by
  have hb : ∀ a, memByte (onLane (job .preRead 0 0 [])).mem a = 0 := fun a => by
    have hu : uncorrectable (onLane (job .preRead 0 0 [])).mem a = false := by
      simp [uncorrectable, show (onLane (job .preRead 0 0 [])).mem.errs = [] from rfl, tabGet]
    simp [memByte, hu, show (onLane (job .preRead 0 0 [])).mem.cells = [] from rfl, tabGet]
  rw [read0, readMem, List.map_map, List.getD_eq_getElem?_getD, List.getElem?_map]
  by_cases h : c < 1024
  · rw [List.getElem?_range h]
    simp only [Option.map_some, Option.getD_some, Function.comp, hb]; decide
  · rw [List.getElem?_eq_none (by simpa using h)]; rfl

/-- A row as delivered reads the targets of an image of level 0. -/
theorem read0_equal : pairsEqual (drawer (onLane (job .preRead 0 0 [])) 5) read0 [] = true := by
  have hw : drawer (onLane (job .preRead 0 0 [])) 5 = { planeB := { st := .programming, gen := 1 } } := rfl
  have hr : ∀ pair neg, jobReading (drawer (onLane (job .preRead 0 0 [])) 5) read0 [] pair neg = cellDefault pair neg := fun pair neg => by
    simp [jobReading, hw, show read0.plane = 1 from rfl, Drawer.plane, Plane.cell, tabGet]
  have hc : ∀ g, checkValue read0.target g = 0 := fun g => by
    have : (List.range 256).map (fun j => read0.target.getD (4 * j + g) 0) = (List.range 256).map fun _ => 0 :=
      List.map_congr_left fun j _ => read0_target _
    rw [checkValue, groupSum, this]; decide +kernel
  rw [pairsEqual, List.all_eq_true]
  intro t ht
  rw [hr, hr, beq_iff_eq]
  rw [rowTargets, if_neg (by decide +kernel), programTargets, List.append_assoc, List.mem_append, List.mem_append] at ht
  rcases ht with ht | ht | ht
  · obtain ⟨c, hc, h⟩ := List.mem_filterMap.1 ht
    have hc := List.mem_range.1 hc
    rw [if_neg (by simp [hw, tabGet])] at h
    rw [← Option.some.inj h, read0_target, cellDefault, cellDefault, if_neg (by omega), if_neg (by omega)]; rfl
  · obtain ⟨k, hk, h⟩ := List.mem_map.1 ht
    have hk := List.mem_range.1 hk
    rw [← h]
    simp only [hw, List.find?_nil]
    rw [cellDefault, cellDefault, if_neg (by omega), if_neg (by omega)]; rfl
  · obtain ⟨g, hg, h⟩ := List.mem_map.1 ht
    rw [← h, hc]
    simp only
    rw [cellDefault, cellDefault, if_neg (by omega), if_pos (by omega)]; rfl

/-- RowsAreProgrammed: each phase of a row, of the last row too, with readings that end the phase in each way. -/
theorem meets_RowsAreProgrammed :
    (∀ p, p ∈ [job .binding 0 0 [], job .preRead 0 0 [], job .preRead 1022 0 [], job .pulse 0 0 [0], job .verify 0 32 [0], job .verify 0 31 [0],
        job .closing 0 1 [], job .closing 1023 1 []] →
      laneJob (onLane p) 0 0 = some p ∧ p.chest = 0 ∧ dOpcode p.bytes = 0x25 ∧ p.stopping = false ∧ p.spareRow = none
        ∧ (findDesc (onLane p) p.ref).isSome = true ∧ (stepCtx (onLane p) p.ref.ctx).opened = none
        ∧ (drawer (onLane p) p.drawer).bound p.plane = false) ∧
    (let p := job .verify 0 32 [0]; outsideBand (drawer (onLane p) p.drawer) p [] = []
      ∧ outsideBand (drawer (onLane p) p.drawer) p [(0, 1400)] = [] ∧ outsideBand (drawer (onLane p) p.drawer) p [(0, 1401)] ≠ []) ∧
    (let p := { job .verify 0 32 [0] with stopping := true }; laneJob (onLane p) 0 0 = some p ∧ p.chest = 0
      ∧ outsideBand (drawer (onLane p) p.drawer) p [(0, 1401)] ≠ []) ∧
    rowChecks (drawer (onLane (job .closing 0 1 [])) 5) (job .closing 0 1 []) [] = true ∧
    pairsEqual (drawer (onLane (job .preRead 0 0 [])) 5) read0 [] = true ∧
    rowChecks (drawer (onLane (job .preRead 0 0 [])) 5) (job .preRead 0 0 []) [] = true ∧
    rowChecks (drawer (onLane (job .preRead 0 0 [])) 5) (job .preRead 0 0 []) [(2064, 5000)] = false := by
  refine ⟨by decide +kernel, by decide +kernel, by decide +kernel, ?_, read0_equal, ?_, ?_⟩
  · rw [rowChecks, Bool.or_eq_true]
    exact .inr (delivered_passes _ _ _ (delivered_row (job .closing 0 1 []) 0 rfl (by decide +kernel)))
  · rw [rowChecks, Bool.or_eq_true]
    exact .inr (delivered_passes _ _ _ (delivered_row (job .preRead 0 0 []) 0 rfl (by decide +kernel)))
  · rw [rowChecks, Bool.or_eq_false_iff]
    exact ⟨by decide +kernel, misread_fails _ _ _ (delivered_row (job .preRead 0 0 []) 5000 rfl (by decide +kernel))⟩

/-- RowWatchdogStops: a row between its pulse and its verify read, on a lane whose watchdog has not fired. -/
theorem meets_RowWatchdogStops : (job .verify 0 1 [0]).phase ≠ .binding ∧ (job .verify 0 1 [0]).phase ≠ .checkRead
    ∧ tabGet none (chest (onLane (job .verify 0 1 [0])) 0).laneWdogAt 0 = none
    ∧ resetWaits (onLane (job .verify 0 1 [0])) = false ∧ contextResetDue (onLane (job .verify 0 1 [0])) 1 = false
    ∧ ((drawer (onLane (job .verify 0 1 [0])) 5).plane 1).st = .programming := by decide +kernel

/-! ## Optics -/

/-- Port 0 as given and port 1 Up to the module 0x12345, self address 0x00777, every bay fitted and healthy. -/
def linked (q : Port) : State :=
  setReg rOptSelf 0x777 { served with opt := { served.opt with
    ports := [(0, q), (1, { st := .up, neighbour := 0x12345 })]
    bays := (List.range 5).map fun b => (b, { fitted := true, present := true, healthy := true }) } }

/-- A packet header of Table 9.3 for a destination: hops left and message type. -/
def packet (dest hops type : Nat) : List Byte := record 32 [(0, 3, dest + hops * 2 ^ 20), (6, 1, type)]

/-- A data flit that carries a packet of one flit on channel 1, with sequence number 0xFFFF; and an idle flit. -/
def dataFlit (b : List Byte) : List Byte := flitBytes (1 + 4 + 8 + 16 + 256 * 0xFFFF) b
def idleFlit : List Byte := flitBytes (2 ^ 40 * 255 + 2 ^ 48 * 255) []

/-- A link-management flit with the largest credits: a code and an argument. -/
def told (code arg : Nat) : List Byte := flitBytes (2 + 2 ^ 40 * 255 + 2 ^ 48 * 255) (leBytes 1 code ++ leBytes 4 arg)

def toldOk (code arg : Nat) : Bool :=
  flitGood (told code arg) && decide (fieldAt (told code arg) 0 8 % 4 = 2) && !(fieldAt (told code arg) 0 8).testBit 56
    && fieldAt (told code arg) 8 1 == code && fieldAt (told code arg) 9 4 == arg

def flitOk (b : List Byte) (q : Port) : Bool :=
  flitGood b && decide (fieldAt b 0 8 % 4 = 1) && !(fieldAt b 0 8).testBit 56 && bitsOf (fieldAt b 0 8) 23 8 == q.rxNext
    && (fieldAt b 0 8).testBit 3 && (fieldAt b 0 8).testBit 4 && q.live

/-- DataFlitsArrive: the last sequence number is expected; a packet for the module and one to be forwarded; a flit ahead; a bad one. -/
theorem meets_DataFlitsArrive :
    flitOk (dataFlit (packet 0x777 0 6)) { st := .up, rxNext := 0xFFFF } = true ∧
    (let pkt := trimPacket (((dataFlit (packet 0x777 0 6)).drop 8).take 240);
      pkDest pkt = selfAddr (linked {}) ∧ channelOf (pkType pkt) = some (bitsOf (fieldAt (dataFlit (packet 0x777 0 6)) 0 8) 2 2)) ∧
    flitOk (dataFlit (packet 0x12345 1 6)) { st := .up, rxNext := 0xFFFF } = true ∧
    (let pkt := trimPacket (((dataFlit (packet 0x12345 1 6)).drop 8).take 240);
      pkDest pkt ≠ selfAddr (linked {}) ∧ pkHops pkt ≠ 0 ∧ usablePorts (linked { st := .up }) (pkDest pkt) (some 0) ≠ []
        ∧ regBit (linked {}) rOptCtrl 22 = true) ∧
    (port (linked { st := .up, rxNext := 0xFFFF }) 0).replayDue = false ∧ (linked { st := .up }).rdx.pair.wait = [] ∧
    seqBefore 0xFFFF 0xFFFE = false ∧ flitGood (zeros 256) = false := by decide +kernel

/-- FlitsAreAcknowledged: an idle flit with the largest credits; a replay timeout, and one at the 63rd retry. -/
theorem meets_FlitsAreAcknowledged :
    flitGood idleFlit = true ∧ fieldAt idleFlit 0 8 % 4 = 0 ∧ (fieldAt idleFlit 0 8).testBit 56 = false ∧
    (let q : Port := { st := .degraded, sent := [⟨0, ownPacket [] 1, 0⟩] };
      q.usable = true ∧ q.sent ≠ [] ∧ q.replayAt ≠ some (1000, true) ∧ (if q.replayed then q.retries + 1 else q.retries) < 64) ∧
    (let q : Port := { st := .degraded, sent := [⟨0, ownPacket [] 1, 0⟩], replayed := true, retries := 63 };
      lastRetry q = true ∧ q.replayDue = false ∧ 64 ≤ (if q.replayed then q.retries + 1 else q.retries) ∧ regBit (linked q) rOptCtrl 21 = false) := by decide +kernel

/-- LinksAreLost: a live link, one with its last retry due in the same nanosecond, one in Hold and an enabled port. -/
theorem meets_LinksAreLost : exhaustionWaits (linked { st := .up }) 0 = false
    ∧ (let s := { linked { st := .up, sent := [⟨0, ownPacket [] 1, 0⟩], replayed := true, retries := 63 } with pending := [.replayTimeout 0] }
      exhaustionWaits s 0 = true ∧ (port s 0).usable = true)
    ∧ (let s := { linked { st := .up, sent := [⟨0, ownPacket [] 1, 0⟩], replayed := true, retries := 63 } with
          pending := [.idleFlitReceived 0 (flitBytes (2 ^ 56 + 256 * (2 ^ 24 * 0xFFFF)) [])] }
      exhaustionWaits s 0 = true ∧ (port s 0).usable = true)
    ∧ (∀ k ∈ (port (linked { st := .up }) 1).queue0 ++ (port (linked { st := .up }) 1).queue1, k.arrival ≠ some 0)
    ∧ (port (linked { st := .up }) 0).live = true ∧ (port (linked { st := .up }) 0).st ≠ .hold
    ∧ (port (linked { st := .hold }) 0).live = true ∧ (port (linked { st := .hold }) 0).st = .hold ∧ inService (linked { st := .up }) = true := by
  decide +kernel

/-- LinksTrain: HELLO from another module and from the own address; training with every eye at its limit, and with none; Down. -/
theorem meets_LinksTrain :
    (linked {}).fwu.act ≠ .ports ∧ (0x12345#20).toNat ≠ 0 ∧ (0x12345#20).toNat ≠ selfAddr (linked {}) ∧ (0x777#20).toNat = selfAddr (linked {}) ∧
    (let s := linked { st := .training, hello := true };
      (port s 0).st = .training ∧ groupLit s (0 / 4) = true ∧ (port s 0).queue0 = [] ∧ s.rdx.pair.wait = [] ∧
      minLanes s ≤ lanesIn ((List.range 8).map (fun k => if (0x1FF#9).getLsbD k then k else 15)) ∧
      minLanes s ≤ lanesIn ((List.range 8).map (fun k =>
        if 64 ≤ ((List.replicate 9 ((64 : Byte), (48 : Byte))).getD k (0, 0)).1.toNat ∧ 48 ≤ ((List.replicate 9 ((64 : Byte), (48 : Byte))).getD k (0, 0)).2.toNat
        then k else 15)) ∧
      lanesIn ((List.range 8).map (fun k => if (0#9).getLsbD k then k else 15)) < minLanes s) ∧
    toldOk 2 0 = true ∧ (port (linked { st := .down }) 0).st = .down := by decide +kernel

/-- LanesAreSpared: no lane fails; lane 7 fails with the spare free, without it, and with as many lanes as MIN_LANES. -/
theorem meets_LanesAreSpared :
    toldOk 3 7 = true ∧ toldOk 4 0 = true ∧ toldOk 7 7 = true ∧
    (∀ e ∈ ([({ st := .up }, [], 0, []), ({ st := .up }, [], 0x80, [7]), ({ st := .up, failedHold := [7] }, [], 0, [7]),
        ({ st := .up }, [0, 0, 0, 0, 0, 0, 0, 100001], 0, [7])] : List (Port × List Word × BitVec 9 × List Nat)),
      e.1.usable = true ∧ e.2.2.2 = (List.range 8).filter (fun k => decide (e.1.rxMap.getD k 15 ≠ 15)
        && (laneFailing (linked e.1) e.2.1 0 e.2.2.1 (e.1.rxMap.getD k 15) || e.1.failedHold.contains (e.1.rxMap.getD k 15)) && e.1.spareAsked != some k)) ∧
    regBit (linked {}) rOptCtrl 20 = true ∧ spareFree {} (laneFailing (linked {}) [] 0 0x80 8) = true
      ∧ spareFree {} (laneFailing (linked {}) [] 0 0x180 8) = false ∧
    (minLanes (linked {}) ≤ lanesIn (([0, 1, 2, 3, 4, 5, 6, 7] : List Nat).set 7 15)
      ∧ lanesIn (([15, 15, 15, 15, 4, 5, 6, 7] : List Nat).set 7 15) < minLanes (linked {})) ∧
    (({} : Port).txMap.getD 7 15 ≠ 15 ∧ ({} : Port).txMap.contains 8 = false) ∧
    (port (linked { st := .up, spareAsked := some 7 }) 0).spareAsked = some 7 := by decide +kernel

/-- BaysFail: bay 0 serves group 0 with the spare healthy, and without it; group 0 moves onto bay 4; and an empty slot. -/
theorem meets_BaysFail :
    (let s := linked { st := .up }; s.mod.st ≠ .off ∧ (bay s 0).present = true ∧ (bay s 0).healthy = true ∧ groupOf s 0 = some 0
      ∧ s.opt.transfer = none ∧ s.opt.moving = [] ∧ s.fwu.act ≠ .ports
      ∧ healthySpare (modBay 0 (fun y => { y with healthy := false }) s) = some 4
      ∧ healthySpare (modBay 0 (fun y => { y with healthy := false }) (modBay 4 (fun _ => {}) s)) = none) ∧
    [((0 : Nat), (4 : Nat))].find? (·.1 == (0 : Fin 4).val) = some ((0 : Fin 4).val, (4 : Fin 5).val) ∧
    (bay (modBay 4 (fun _ => {}) (linked {})) 4).fitted = false := by decide +kernel

/-- LasersAreTransferred: a release of a serving bay, with no spare, of the spare itself; a transfer that runs; a usable port. -/
theorem meets_LasersAreTransferred :
    (let s := linked { st := .up }; inService s = true ∧ s.opt.transfer = none ∧ healthySpare s = some 4 ∧ groupOf s 0 = some 0
      ∧ (∀ m ∈ s.opt.moving, m.1 ≠ 0) ∧ healthySpare (modBay 4 (fun _ => {}) s) = none ∧ groupOf s 4 = none ∧ (port s 0).usable = true
      ∧ s.rdx.pair.wait = []) ∧
    toldOk 5 0 = true ∧ (∀ p ∈ groupPorts 0, (port (linked { st := .hold, prior := .up }) p).replayDue = false) ∧
    (port (linked { st := .hold, prior := .up }) 0).peerHold = false := by decide +kernel

/-! ## The exchange -/

/-- Context 1 in group 9 of four ranks: the module's own, 0, its partner and two others, all live; three are required, two at least; part
0 is the module's, part 1 the partner's; port 1 leads to the partner. Its step 7 is open in the given mode, with these buckets. -/
def exchanging (mode : Nat) (g : Group) (bs : Tab (Option Bucket)) : State :=
  let s := linked { st := .up }
  let s := [(0, 0x777), (1, 0x12345), (2, 0x333), (3, 0x444)].foldl (fun s m => setReg (rRdxMember 1 m.1) (2 ^ 31 + m.2) s) s
  let s := setReg (rRdxGroup 1) (9 + 4 * 2 ^ 22 + 3 * 2 ^ 29 + 2 * 2 ^ 36 + 2 * 2 ^ 43 + 2 ^ 50) s
  let s := setReg rRdxPair (0x12345 + 2 ^ 20 + 2 ^ 24) (setReg (rRdxStageSize 1) 0x10000 s)
  let s := modGroup 1 (fun _ => { g with installed := true, epoch := 5, live := 15, owners := [0x80, 0x81] }) s
  let o : OpenStep := { num := 7, mode := mode, begun := true, ref := ⟨1, 0, 9⟩, beginIdx := 9, ctrl := zeros 128, buckets := bs };
  { modStepCtx 1 (fun x => { x with opened := some o, last := some 7, ring := some 0 }) s with mod := { s.mod with st := .running } }

/-- An RDX_REDUCE of 512 E4M3 elements under tag 5; with `forced` 1, of the set at its ACCEPT_ADDR. -/
def reduceDesc (forced : Nat) : List Byte :=
  desc 0x51 1 [(16, 2, 5), (18, 1, 0x33), (20, 1, 32 * forced), (24, 4, 512), (32, 8, 0x10000010000), (40, 8, 0x10000011000), (48, 8, 0x10000012000),
    (56, 8, 0x10000013000)]

/-- An RDX_GATHER of its codes. -/
def gatherDesc : List Byte := desc 0x52 1 [(16, 2, 5), (24, 4, 512), (32, 8, 0x10000014000)]

/-- The bucket of tag 5, as the descriptor at ring index 0 opened it. -/
def opened5 : Bucket := { reduce := ⟨1, 0, 0⟩, bytes := reduceDesc 0, own := 1, arrived := [0] }

/-- A message of the group: type, sender (address and rank), part with the LAST bit, step bits and body, under tag 5. -/
def message (type src rank part step : Nat) (body : List Byte) : Inbound :=
  ⟨1, record 32 [(0, 3, 0x777), (3, 3, src), (6, 1, type), (7, 1, part), (8, 2, 9), (10, 2, 5 + 1024 * rank), (12, 4, 5), (16, 2, step),
    (18, 2, body.length)] ++ body, true⟩

def inboxed (m : Inbound) (s : State) : State := { s with opt := { s.opt with inbox := [m] } }

/-- The context, the rank and the packet of the oldest message of a type, where Table 8.9 has it processed. -/
def arrival (s : State) (type : Nat) : Option (Nat × Nat × List Byte) :=
  match s.opt.inbox.find? (fun m => pkType m.pkt == type) with
  | none => none
  | some m => match screen s m.pkt with
    | .process c r => if fitsStage s c m.pkt = true then some (c, r, m.pkt) else none
    | _ => none

theorem arrives_of (s : State) (type c r : Nat) (b : List Byte) (h : arrival s type = some (c, r, b)) : Arrives s type c r b := by
  unfold arrival at h
  split at h
  · cases h
  · rename_i m hm
    split at h
    · rename_i c' r' hs
      split at h
      · rename_i hf
        cases h
        exact ⟨m, hm, rfl, hs, hf⟩
      · cases h
    · cases h

/-- BucketsOpen: in MODE 0, in MODE 1, and of the forced set 0b1111. -/
theorem meets_BucketsOpen :
    (let s := ringOn 1 0 [reduceDesc 0] (exchanging 0 {} []);
      Dispatches s 1 0 0x51 (given (reduceDesc 0)) ∧ reduceStatus s 1 (reduceDesc 0) = 0 ∧ (stepCtx s 1).opened.isSome = true ∧
      ownerless s 1 (ownersNow s 1) = false ∧ (∀ m ∈ (group s 1).early, m.tag ≠ rdxTag (reduceDesc 0) ∨ m.step ≠ curStep s 1 % 2 ^ 16) ∧
      minAccept s 1 ≤ ((List.range (workers s 1)).filter (group s 1).live.testBit).length ∧ partsOf s 1 (ownersNow s 1) (ownRank s 1) ≠ 0) ∧
    (let s := ringOn 1 0 [reduceDesc 0] (exchanging 1 {} []); Dispatches s 1 0 0x51 (given (reduceDesc 0))
      ∧ reduceStatus s 1 (reduceDesc 0) = 0) ∧
    (let s := put 0x10000013000 [15] (ringOn 1 0 [reduceDesc 1] (exchanging 0 {} []));
      Dispatches s 1 0 0x51 (given (reduceDesc 1)) ∧ reduceStatus s 1 (reduceDesc 1) = 0 ∧ readNat s (rdxAccept (reduceDesc 1)) 8 = 15
        ∧ (group s 1).live = 15) :=
  ⟨⟨dispatches_of_accepted _ _ _ _ _ (by decide +kernel), by decide +kernel⟩,
    ⟨dispatches_of_accepted _ _ _ _ _ (by decide +kernel), by decide +kernel⟩,
    ⟨dispatches_of_accepted _ _ _ _ _ (by decide +kernel), by decide +kernel⟩⟩

/-- ContributionsArrive: the third rank's contribution decides the bucket; one with the step bits before; and a second copy. -/
theorem meets_ContributionsArrive :
    (let s := inboxed (message 1 0x444 3 64 7 (zeros 256)) (exchanging 0
        { staged := [⟨5, 7, 0, 0, 5, 0, [⟨0, none, zeros 256⟩]⟩, ⟨5, 7, 2, 0, 5, 0, [⟨0, none, zeros 256⟩]⟩] } [(5, some { opened5 with arrived := [0, 2] })])
      let b := (message 1 0x444 3 64 7 (zeros 256)).pkt;
      Arrives s 1 1 3 b ∧ contribFate s 1 3 b = .stage ∧ (assembleMsg 1 true b s).1.isSome = true ∧ stepBitsNow s 1 b = true ∧
      bucket s 1 5 = some { opened5 with arrived := [0, 2] } ∧ hasArrived (group s 1) 5 7 3 1 = false ∧ required s 1 = 3) ∧
    (let s := inboxed (message 1 0x444 3 64 7 (zeros 256)) (exchanging 0 { staged := [⟨5, 7, 3, 0, 5, 0, [⟨0, none, zeros 256⟩]⟩] }
          [(5, some { opened5 with arrived := [0, 3] })])
      let b := (message 1 0x444 3 64 7 (zeros 256)).pkt;
      Arrives s 1 1 3 b ∧ contribFate s 1 3 b = .dup ∧ pkLast b = true ∧ rankArrived s 1 3 b = true ∧ (group s 1).dupSeen = []) ∧
    (let s := inboxed (message 1 0x444 3 64 6 (zeros 256)) (exchanging 0 {} [])
      let b := (message 1 0x444 3 64 6 (zeros 256)).pkt;
      Arrives s 1 1 3 b ∧ contribFate s 1 3 b = .late ∧ pkLast b = true) :=
  ⟨⟨arrives_of _ _ _ _ _ (by decide +kernel), by decide +kernel⟩, ⟨arrives_of _ _ _ _ _ (by decide +kernel), by decide +kernel⟩,
    ⟨arrives_of _ _ _ _ _ (by decide +kernel), by decide +kernel⟩⟩

/-- DeadlinesDecide: with the minimum of two arrived, and with one; and taken-over parts with two arrived. -/
theorem meets_DeadlinesDecide :
    (∀ l ∈ ([[0, 2], [0]] : List (List Nat)), bucket (exchanging 0 {} [(5, some { opened5 with arrived := l })]) 1 5
      = some { opened5 with arrived := l }) ∧ opened5.st = .collecting ∧ opened5.expected = none ∧ opened5.accepted = none ∧ opened5.own ≠ 0
      ∧ opened5.taken = 0 ∧ min (required (exchanging 0 {} []) 1) (minAccept (exchanging 0 {} []) 1) = 2
      ∧ (let k : Bucket := { opened5 with own := 0, taken := 2, arrivedT := [0, 2] };
          bucket (exchanging 0 {} [(5, some k)]) 1 5 = some k ∧ k.expected = none ∧ k.acceptedT = none ∧ k.st = .collecting) := by decide +kernel

/-- PartsAreSummed: the module's part of a bucket whose other part has come, its sums 1 + 1 from two ranks; the bucket is then done. -/
theorem meets_PartsAreSummed :
    (let b : Bucket := { opened5 with st := .reducing, accepted := some 5, received := 2, acked := 1 }
      let s := ringOn 1 0 [reduceDesc 0] (exchanging 0 { staged := [⟨5, 7, 0, 0, 5, 0, [⟨0, none, List.replicate 256 0x38⟩]⟩,
        ⟨5, 7, 2, 0, 5, 0, [⟨0, none, List.replicate 256 0x38⟩]⟩] } [(5, some b)])
      let s := { s with rdx := { s.rdx with units := [(0, { queue := [⟨1, 5, 0⟩] })] } };
      (crzUnit s 0).queue = [⟨1, 5, 0⟩] ∧ bucket s 1 5 = some b ∧ b.st = .reducing ∧ (findDesc s b.reduce).isSome = true ∧
      reduceDone s 1 { b with written := b.written ||| 2 ^ 0 } = true ∧ partSpan 512 2 0 = (0, 256) ∧
      (partResults s 1 b.bytes 5 7 0 5)[255]?.map (·.bits) = some 0x40 ∧ rdxPartsAddr b.bytes + 8 ≤ 0x10000013000
        ∧ rdxResult b.bytes + 256 ≤ rdxPartsAddr b.bytes) := by decide +kernel

/-- ResultsAreExchanged: the partner's part with the module's own still to be acknowledged, and as the last; the acknowledgement. -/
theorem meets_ResultsAreExchanged :
    (let k : Bucket := { opened5 with st := .reducing, accepted := some 5, written := 1 }
      let st := fun (m : Inbound) (k : Bucket) => inboxed m (ringOn 1 0 [reduceDesc 0] (exchanging 0 {} [(5, some k)]))
      let r := message 2 0x12345 1 65 7 (zeros 272)
      let a := message 3 0x12345 1 64 7 []
      let s := st r k;
      Arrives s 2 1 (partnerRank s 1) r.pkt ∧ Arrives (st r { k with acked := 1 }) 2 1 1 r.pkt ∧
      Arrives (st a { k with received := 2 }) 3 1 1 a.pkt ∧
      ((assembleMsg 1 false r.pkt s).1.isSome = true ∧ waitsEarly s 1 2 r.pkt = false ∧ stepBitsNow s 1 r.pkt = true ∧ stepBitsPast s 1 r.pkt = false ∧
      (findDesc s k.reduce).isSome = true ∧ bucket s 1 5 = some k ∧ (k.received ||| k.written).testBit (pkPart r.pkt) = false ∧
      reduceDone s 1 { k with received := k.received ||| 2 ^ pkPart r.pkt } = false ∧
      reduceDone (st r { k with acked := 1 }) 1 { k with acked := 1, received := k.received ||| 2 ^ pkPart r.pkt } = true ∧
      reduceDone (st a { k with received := 2 }) 1 { k with received := 2, acked := k.acked ||| 2 ^ pkPart a.pkt } = true)) :=
  ⟨arrives_of _ _ _ _ _ (by decide +kernel), arrives_of _ _ _ _ _ (by decide +kernel), arrives_of _ _ _ _ _ (by decide +kernel),
    by decide +kernel⟩

/-- BucketsGather: a reduced bucket with the codes of the other part here; an aborted one, and a stale one. -/
theorem meets_BucketsGather :
    (let k : Bucket := { opened5 with st := .reduced, accepted := some 5, written := 1, received := 2, acked := 1, codes := 2, reduceStatus := some 0 };
      ∀ q ∈ [k, { k with codes := 0 }, { k with st := .aborted }, { k with st := .stale }],
      (let s := ringOn 1 0 [gatherDesc] (exchanging 0 {} [(5, some q)]);
      accepted s 1 0 0x52 = some (given gatherDesc) ∧ gatherStatus s 1 gatherDesc = 0 ∧ bucket s 1 (rdxTag gatherDesc) = some q ∧
      (group s 1).early = [] ∧ q.gatherStatus = none ∧ groupParts s 1 ≤ 64)) := by decide +kernel

/-- CodesArrive: the codes of part 1, the last, and then a second copy of them. -/
theorem meets_CodesArrive :
    (let k : Bucket := { opened5 with st := .gathering, gather := some ⟨1, 0, 1⟩, codes := 1, codesAddr := 0x10000014000 }
      let m := message 4 0x12345 1 65 7 (zeros 64)
      let s := inboxed m (ringOn 1 0 [reduceDesc 0, gatherDesc] (exchanging 0 {} [(5, some k)]))
      let s2 := inboxed m (ringOn 1 0 [reduceDesc 0, gatherDesc] (exchanging 0 {} [(5, some { k with codes := 2 })]));
      Arrives s 4 1 (pkRank m.pkt) m.pkt ∧ Arrives s2 4 1 (pkRank m.pkt) m.pkt ∧
      (bucket s 1 (pkTag m.pkt) = some k ∧ stepBitsNow s 1 m.pkt = true ∧ stepBitsPast s 1 m.pkt = false ∧ (findDesc s ⟨1, 0, 1⟩).isSome = true ∧
      codesPresent s 1 m.pkt = false ∧ codesPresent s2 1 m.pkt = true ∧ pkLast m.pkt = true ∧
      (assembleMsg 1 false m.pkt s).1.isSome = true ∧ (List.range (groupParts s 1)).all (k.codes ||| 2 ^ pkPart m.pkt).testBit = true)) :=
  ⟨arrives_of _ _ _ _ _ (by decide +kernel), arrives_of _ _ _ _ _ (by decide +kernel), by decide +kernel⟩

/-- BucketsAbort: at ABORT_MS, and by the message of rank 2. -/
theorem meets_BucketsAbort :
    (let m := message 5 0x333 2 64 7 []
      let s := inboxed m (ringOn 1 0 [reduceDesc 0] (exchanging 0 {} [(5, some opened5)]));
      Arrives s 5 1 (pkRank m.pkt) m.pkt ∧ (pkTag m.pkt = 5 ∧ stepBitsNow s 1 m.pkt = true ∧ stepBitsPast s 1 m.pkt = false ∧
      bucket s 1 5 = some opened5 ∧ opened5.active = true ∧ opened5.st ≠ .reduced ∧ Instr.bucketContrib ∉ s.pending ∧ (findDesc s opened5.reduce).isSome = true)) :=
  ⟨arrives_of _ _ _ _ _ (by decide +kernel), by decide +kernel⟩

/-- CredenzaWatchdogActs: unit 0 at a part of the bucket, its third reset within 600 s. -/
theorem meets_CredenzaWatchdogActs :
    (let s := exchanging 0 {} [(5, some { opened5 with st := .reducing })]
      let s := setReg rRcvCtrl 1 { s with rdx := { s.rdx with units := [(0, { queue := [⟨1, 5, 0⟩], resets := [900, 800] })] } };
      (crzUnit s 0).queue = [⟨1, 5, 0⟩] ∧ (bucket s 1 5).isSome = true ∧ resetWaits s = false ∧ (crzUnit s 0).resets.head? ≠ some s.mod.devTime
        ∧ regBit s rRcvCtrl 0 = true ∧ 2 ≤ (crzUnit s 0).resets.length
        ∧ s.mod.devTime ≤ (crzUnit s 0).resets.getD 1 0 + 600000000000) := by decide +kernel

/-! ## The pair channel and epochs -/

/-- The pair in a state, in a context with no step open. -/
def paired (p : Pair) (g : Group) : State :=
  let s := exchanging 0 g [];
  modPair (fun _ => p) { modStepCtx 1 (fun x => { x with opened := none }) s with mod := { s.mod with st := .ready } }

/-- A message of the pair itself, from the partner. -/
def pairMessage (type : Nat) (body : List Byte) : Inbound :=
  ⟨1, record 32 [(0, 3, 0x777), (3, 3, 0x12345), (6, 1, type), (18, 2, body.length)] ++ body, true⟩

/-- The oldest packet of a pair message type, where it is its sender's to send (R283). -/
def fromPartner (s : State) (type : Nat) : Option Inbound :=
  (s.opt.inbox.find? (fun m => pkType m.pkt == type)).filter fun m => canSend s && pkSrc m.pkt == partnerAddr s && s.rdx.pair.st != 3

theorem from_partner_of (s : State) (type : Nat) (m : Inbound) (h : fromPartner s type = some m) : FromPartner s type m := by
  unfold fromPartner at h
  obtain ⟨hm, hp⟩ := Option.filter_eq_some_iff.mp h
  simp at hp
  exact ⟨hm, hp.1.1, hp.1.2, hp.2⟩

def quiet (s : State) (p : Nat) : Bool :=
  (port s p).usable && (port s p).queue0.isEmpty && (port s p).queue1.isEmpty && (port s p).idx1 == 0 && decide (0 < (port s p).credit1)
    && decide ((port s p).sent.length < 8192)

theorem quiet_of (s : State) (p : Nat) (h : quiet s p = true) : Quiet s p := by
  simp [quiet] at h
  obtain ⟨⟨⟨⟨⟨a, b⟩, c⟩, d⟩, e⟩, f⟩ := h
  exact ⟨a, b, c, d, e, f⟩

/-- Every port with room for a packet on either channel. -/
def credited (s : State) : State := modPort 1 (fun q => { q with credit0 := 100, credit1 := 100 }) s

/-- HeartbeatsPass. -/
theorem meets_HeartbeatsPass :
    (let s := credited (inboxed (pairMessage 6 []) (paired {} {}));
      Quiet s (pairPort s) ∧ FromPartner s 6 (pairMessage 6 []) ∧ (pairEnabled s = true ∧ canSend s = true ∧ s.rdx.pair.st ≠ 3)) :=
  ⟨quiet_of _ _ (by decide +kernel), from_partner_of _ _ _ (by decide +kernel), by decide +kernel⟩

/-- ProbesLeave: on the designated port without PAIR_FALLBACK, on another with it, and on the designated port of a degraded pair. -/
theorem meets_ProbesLeave :
    (∀ st ∈ ([1, 2] : List Nat), (let s := credited (paired { st := st } {});
      quiet s 1 = true ∧ canSend s = true ∧ 1 ∈ usablePorts s (partnerAddr s) none ∧ pairEnabled s = true
      ∧ (1 = pairDesignated s ↔ regBit (setReg rRdxCtrl 8 s) rRdxCtrl 2 = false))) ∧
    (let s := setReg rRdxPair (0x12345 + 2 * 2 ^ 20 + 2 ^ 24) (paired { st := 1 } {});
      (1 = pairDesignated s ↔ regBit s rRdxCtrl 2 = false) ∧ 1 ∈ usablePorts s (partnerAddr s) none) := by decide +kernel

/-- ProbesAreAnswered: a probe; a reply to one of another port, and of the designated port to a degraded pair. -/
theorem meets_ProbesAreAnswered :
    (let m := pairMessage 7 (leBytes 16 1)
      let s := credited (inboxed m (paired { st := 1 } {}));
      FromPartner s 7 m ∧ Quiet s m.port ∧ (m.pkt.length = 48 ∧ pkBodyLen m.pkt = 16)) ∧
    (let m := pairMessage 8 (leBytes 16 2)
      let s := inboxed m (paired { st := 1, probing := true } {});
      FromPartner s 8 m ∧ ((byteAt (pkBody m.pkt) 1).getLsbD 0 = false ∧ s.rdx.pair.wait = [])) ∧
    (let m := pairMessage 8 (leBytes 16 0x101)
      let s := inboxed m (paired { st := 2, route := 2 } {});
      FromPartner s 8 m ∧ ((byteAt (pkBody m.pkt) 1).getLsbD 0 = true ∧ s.rdx.pair.wait = [])) :=
  ⟨⟨from_partner_of _ _ _ (by decide +kernel), quiet_of _ _ (by decide +kernel), by decide +kernel⟩,
    ⟨from_partner_of _ _ _ (by decide +kernel), by decide +kernel⟩, ⟨from_partner_of _ _ _ (by decide +kernel), by decide +kernel⟩⟩

/-- PartnersAreLost: with AUTO_TAKEOVER, and without it. -/
theorem meets_PartnersAreLost :
    (let s := paired { st := 1, probing := true } {};
      canSend s = true ∧ groupOn s 1 = true ∧ regBit s rRdxCtrl 3 = true ∧ regBit (setReg rRdxCtrl 4 s) rRdxCtrl 3 = false
      ∧ Instr.bucketResult ∉ s.pending ∧ Instr.bucketResultAck ∉ s.pending ∧ s.mem.errs = [] ∧ s.rdx.held = []
      ∧ (∀ c, c < 16 → (stepCtx s c).opened = none)) ∧
    (let s := modGroup 1 (fun g => { g with live := 3 }) (paired { st := 1, probing := true } {});
      s.rdx.held = [] ∧ ∀ c, c < 16 → (stepCtx s c).opened = none ∧ ∀ r ∈ liveOthers s c, r = partnerRank s c) := by
  decide +kernel

/-- MirrorsAreKept: a block of step 7 whose check values are zeros, those of the module not. -/
theorem meets_MirrorsAreKept :
    (let b := record 32 [(0, 3, 0x777), (3, 3, 0x12345), (6, 1, 12), (7, 1, 64), (8, 2, 9), (10, 2, 1024), (12, 4, 5), (16, 2, 7), (18, 2, 1984),
        (20, 4, 2180)] ++ zeros 1984
      let part : Partial := { type := 12, src := 0x12345, tag := 0, part := 0, epoch := 5, step := 7, pieces := [⟨0, none, leBytes 8 7 ++ zeros 34872⟩] }
      let s := setReg (rRdxMirrorBase 1) 0x10000100000 (inboxed ⟨1, b, true⟩
        (paired { st := 1 } { ownCrcs := [(7, 1, 2, 3)], partials := [part] }));
      Arrives s 12 1 (partnerRank s 1) b ∧ (assembleMsg 1 false b s).1.isSome = true ∧ (group s 1).ownCrcs.find? (·.1 == 7) = some (7, 1, 2, 3)
        ∧ (group s 1).mirrorCrcs = [] ∧ (group s 1).ownCrcs.find? (·.1 == 8) = none) :=
  ⟨arrives_of _ _ _ _ _ (by decide +kernel), by decide +kernel⟩

/-- DivergenceIsSettled: a digest of rank 2; the partner's, which differs; and a divergence in which two ranks agree with the module, or one
with its partner. -/
theorem meets_DivergenceIsSettled :
    (let s := inboxed (message 11 0x333 2 64 7 (leBytes 8 7 ++ List.replicate 32 1)) (paired { st := 1 } { ownDigests := [(7, zeros 32)] });
      Arrives s 11 1 2 (message 11 0x333 2 64 7 (leBytes 8 7 ++ List.replicate 32 1)).pkt ∧ ((group s 1).diverge = []
        ∧ (∀ e ∈ (group s 1).ownDigests, digestOf (group s 1) e.1 (partnerRank s 1) = none) ∧ 2 ≠ partnerRank s 1 ∧ canSend s = true
        ∧ (group s 1).ownDigests.find? (·.1 == 7) = some (7, zeros 32)
        ∧ fieldAt (pkBody (message 11 0x333 2 64 7 (leBytes 8 7 ++ List.replicate 32 1)).pkt) 0 8 = 7)) ∧
    (let s := inboxed (message 11 0x12345 1 64 7 (leBytes 8 7 ++ List.replicate 32 1)) (paired { st := 1 } { ownDigests := [(7, zeros 32)] });
      Arrives s 11 1 (partnerRank s 1) (message 11 0x12345 1 64 7 (leBytes 8 7 ++ List.replicate 32 1)).pkt ∧
        (padTo 32 ((pkBody (message 11 0x12345 1 64 7 (leBytes 8 7 ++ List.replicate 32 1)).pkt).drop 8) ≠ zeros 32
        ∧ (∀ e ∈ (group s 1).ownDigests, e.1 = 7 → e.2 = zeros 32) ∧ partnerSettled s 1 = false
        ∧ ∃ r ∈ liveOthers s 1, r ≠ partnerRank s 1 ∧ digestOf (group s 1) 7 r = none)) ∧
    (let g : Group := { ownDigests := [(7, zeros 32)], diverge := [⟨7, List.replicate 32 1⟩] }
      let s := setReg rRdxCtrl 4 (paired { st := 1 } { g with digests := [(7, 2, zeros 32), (7, 3, zeros 32)] })
      let s2 := paired { st := 1 } { g with digests := [(7, 2, List.replicate 32 1)] }
      let agree := fun (s : State) (v : List Byte) =>
        ((List.range 64).filter fun r => r != ownRank s 1 && r != partnerRank s 1 && digestOf (group s 1) 7 r == some v).length;
      agree s (List.replicate 32 1) < agree s (zeros 32) ∧ regBit s rRdxCtrl 3 = false ∧
      agree s2 (zeros 32) ≤ agree s2 (List.replicate 32 1) ∧ canSend s2 = true ∧ outranked 6 s2 = false ∧ s.rdx.pair.st ≠ 3 ∧ partnerSettled s2 1 = false ∧
      (let s3 := modGroup 1 (fun g => { g with live := 13 }) (modPair (fun p => { p with st := 3 }) s2); partnerSettled s3 1 = true
        ∧ canSend s3 = true)) :=
  ⟨⟨arrives_of _ _ _ _ _ (by decide +kernel), by decide +kernel⟩, ⟨arrives_of _ _ _ _ _ (by decide +kernel), by decide +kernel⟩,
    by decide +kernel⟩

/-- An epoch notice of rank 2: the epoch, the live ranks, the effective step and the owners of the module's configuration. -/
def noticed (type epoch live step : Nat) : Inbound :=
  ⟨1, record 32 [(0, 3, 0x777), (3, 3, 0x333), (6, 1, type), (7, 1, 64), (8, 2, 9), (10, 2, 2048), (12, 4, epoch), (18, 2, 81)]
    ++ leBytes 8 live ++ leBytes 8 step ++ leBytes 2 0x8180 ++ zeros 62 ++ leBytes 1 2, true⟩

/-- NoticesAreAdopted: a newer epoch at once and at step 9, the newest that is newer; an equal one from a lower rank; one that marks the
module dead; and a fenced notice of the module's epoch. -/
theorem meets_NoticesAreAdopted :
    (∀ m ∈ [noticed 9 6 13 0, noticed 9 (5 + 2 ^ 31 - 1) 13 9], (let s := inboxed m (paired { st := 1 } {});
      inService s = true ∧ Instr.fencedNotice ∉ s.pending ∧ contextOf s (pkGroup m.pkt) = some 1 ∧ (fieldAt (pkBody m.pkt) 0 8).testBit (ownRank s 1) = true
        ∧ newerEpoch (pkEpoch m.pkt) (group s 1).epoch = true)) ∧
    (let s := inboxed (noticed 9 5 13 0) (paired { st := 1 } { declarer := some 3 });
      pkEpoch (noticed 9 5 13 0).pkt = 5 ∧ (group s 1).epoch = 5 ∧ (group s 1).declarer = some 3 ∧ fieldAt (pkBody (noticed 9 5 13 0).pkt) 80 1 < 3) ∧
    (let s := inboxed (noticed 9 6 14 0) (paired { st := 1 } {});
      canSend s = true ∧ outranked 6 s = false ∧ newerEpoch (group s 1).epoch (pkEpoch (noticed 9 6 14 0).pkt) = false
        ∧ (fieldAt (pkBody (noticed 9 6 14 0).pkt) 0 8).testBit (ownRank s 1) = false) ∧
    (let s := inboxed (noticed 10 5 14 0) (paired { st := 1 } {});
      newerEpoch (group s 1).epoch (pkEpoch (noticed 10 5 14 0).pkt) = false ∧ pkType (noticed 10 5 14 0).pkt = 10
        ∧ contextOf s (pkGroup (noticed 10 5 14 0).pkt) = some 1) := by decide +kernel

/-- HeldMessagesExpire. -/
theorem meets_HeldMessagesExpire :
    (let s := paired { st := 1 } {}; ({ s with rdx := { s.rdx with held := [noticed 9 6 13 0] } } : State).rdx.held = [noticed 9 6 13 0]) := by
  decide +kernel

/-- The NEXT_ state of context 1: an epoch, ranks 0 to 2 live, the owners of the module's configuration. -/
def nextState (epoch : Nat) (s : State) : State :=
  setReg (rRdxNextOwner 1 0) 0x8180 (setReg (rRdxNextLive 1) 7 (setReg (rRdxNextEpoch 1) epoch s))

/-- GroupsAreInstalled: the newer epoch 6; the epoch in force; a configuration without its member 3; and a fenced module. -/
theorem meets_GroupsAreInstalled :
    (let s := nextState 6 (paired { st := 1 } {});
      inService s = true ∧ s.mod.st ≠ .fenced ∧ configValid s 1 (nextOwners s 1) = true ∧ nextNewer s 1 = true) ∧
    (let s := nextState 5 (paired { st := 1 } {}); configValid s 1 (nextOwners s 1) = true ∧ nextNewer s 1 = false) ∧
    (let s := setReg (rRdxMember 1 3) 0x444 (nextState 6 (paired { st := 1 } {})); configValid s 1 (nextOwners s 1) = false) := by
  decide +kernel

/-- ModulesAreAdmitted: a fenced module whose one enabled group is valid and newer; one that is not fenced. -/
theorem meets_ModulesAreAdmitted :
    (let s := nextState 6 (paired { st := 1 } {})
      let f := { s with mod := { s.mod.withMark true with st := .fenced } }
      let groups := (List.range 16).filter fun k => regBit f (rRdxGroup k) 50;
      inService f = true ∧ Instr.epochNotice ∉ f.pending ∧ (∀ k ∈ groups, configValid f k (nextOwners f k) = true ∧ nextNewer f k = true)
        ∧ 1 ∈ groups ∧ inService s = true ∧ s.mod.st ≠ .fenced
        ∧ nextNewer (setReg (rRdxNextEpoch 1) 5 f) 1 = false ∧ configValid (setReg (rRdxNextEpoch 1) 5 f) 1 (nextOwners f 1) = true
        ∧ configValid (setReg (rRdxMember 1 3) 0x444 f) 1 (nextOwners f 1) = false) := by decide +kernel

/-- PairsAreSet: with no step open, and with the one of context 1. -/
theorem meets_PairsAreSet :
    inService (paired { st := 3 } {}) = true ∧ (∀ c, c < 16 → stepOpen (paired { st := 3 } {}) c = false) ∧
    inService (exchanging 0 {} []) = true ∧ stepOpen (exchanging 0 {} []) 1 = true := by decide +kernel

/-! ## Memory and calibration -/

/-- A MEM_SCRUB of so many bytes of Cupboard or HBM with WRITEBACK. -/
def scrub (start len : Nat) : List Byte := desc 0x61 1 [(16, 1, 1), (24, 8, len), (32, 8, start), (40, 8, 0x10000000040)]
def scrubJob (start len : Nat) : ScrubJob := ⟨⟨1, 0, 0⟩, start, len, true, 0x10000000040, 1000, []⟩

/-- ScrubsRun: the last 64 bytes below slice 95, and none; a range with a corrected and an uncorrectable word, to its end and as far as
the first. -/
theorem meets_ScrubsRun :
    (∀ n ∈ ([64, 0] : List Nat), accepted (ringOn 1 0 [scrub 0x17BFFFFC0 n] served) 1 0 0x61 = some (given (scrub 0x17BFFFFC0 n))
      ∧ scrubStatus (ringOn 1 0 [scrub 0x17BFFFFC0 n] served) (scrubJob 0x17BFFFFC0 n) = 0) ∧
    (let s0 := ringOn 1 0 [scrub 0x10000001000 64] served
      let s := { s0 with mem := { s0.mem with scrubHbm := [scrubJob 0x10000001000 64], errs := [(0x10000001000, some false), (0x10000001020, some true)] } };
      scrubQueue s true = [scrubJob 0x10000001000 64] ∧ (findDesc s ⟨1, 0, 0⟩).isSome = true ∧
      scrubErrors s (scrubJob 0x10000001000 64) 64 = [(0x10000001000, false), (0x10000001020, true)] ∧
      scrubErrors s (scrubJob 0x10000001000 64) (min 64 ((0x3F#64).toNat / scrubUnit true * scrubUnit true)) = [(0x10000001000, false)]
      ∧ scrubQueue (ringOn 1 0 [scrub 0x17BFFFFC0 0] served) (decide (hbmBase ≤ 0x17BFFFFC0)) = []) := by decide +kernel

/-- A MEM_RETIRE: kind with the CLEAR bit, Drawer, index, address. -/
def retire (kind d i a : Nat) : List Byte := desc 0x62 1 [(16, 1, kind), (18, 2, d), (20, 2, i), (24, 8, a)]

/-- What a MEM_RETIRE names is valid, wherever the HBM of the module ends. -/
theorem retire_valid (k : List Byte) (h : k ∈ [retire 0 0 0 0x10000000000, retire 1 0 0 0x10000001FFF, retire 2 0 0 0x17BFFFFFF,
    retire 8 0 0 0x10000000000, retire 3 16383 1023 0, retire 4 16383 1023 0, retire 5 16383 0 0]) : retireInvalid k = false := by
  have hd : ∀ a, a < 0x10000002000 → inDump a = false := fun a h => by
    simp only [inDump, dumpBase]
    split <;> simp <;> omega
  have hb : ∀ a, (a < cupEnd ∨ hbmBase ≤ a ∧ a < 0x10000002000) → backed a = true := fun a h => by
    simp only [backed, slotBacked]
    rcases h with h | h
    · simp [h]
    · simp only [Bool.or_eq_true, Bool.and_eq_true, decide_eq_true_eq]
      exact .inr ⟨⟨h.1, by simp [hbmBase, hbmSlot]; omega⟩, .inl (by simp only [hbmBase, hbmSlot] at *; omega)⟩
  have ha : ∀ k' ∈ [retire 0 0 0 0x10000000000, retire 1 0 0 0x10000001FFF, retire 2 0 0 0x17BFFFFFF, retire 8 0 0 0x10000000000,
      retire 3 16383 1023 0, retire 4 16383 1023 0, retire 5 16383 0 0], retAddress k' < 0x10000002000
        ∧ (retAddress k' < cupEnd ∨ hbmBase ≤ retAddress k' ∧ retAddress k' < 0x10000002000) := by decide +kernel
  have h1 := ha k h
  simp only [retireInvalid, hd _ h1.1, hb _ h1.2]
  clear h1 ha hb hd
  revert k
  decide +kernel

/-- RetirementsAreMade: the last HBM page below the dump region, a bank and a block, new and retired before; each cleared; a row, a column
and the last Drawer. -/
theorem meets_RetirementsAreMade :
    (∀ k ∈ [retire 0 0 0 0x10000000000, retire 1 0 0 0x10000001FFF, retire 2 0 0 0x17BFFFFFF, retire 8 0 0 0x10000000000, retire 3 16383 1023 0,
        retire 4 16383 1023 0, retire 5 16383 0 0], (let s := ringOn 1 0 [k] served;
      accepted s 1 0 0x62 = some (given k) ∧ functionOf s 1 = 0 ∧
      retirementOf (retKind k) (retAddress k) ∉ s.mem.rtab ∧ (drawer s (retDrawer k)).retRows = [] ∧ (drawer s (retDrawer k)).retCols = []
      ∧ (drawer s (retDrawer k)).retired = false ∧ plnBusy s (retDrawer k) = false ∧ (drawer s (retDrawer k)).planeA.hold = 0
      ∧ canonical s = true ∧ s.cal.runs = [])) ∧
    (∀ k ∈ [retire 0 0 0 0x10000000000, retire 8 0 0 0x10000000000],
      (let s := { ringOn 1 0 [k] served with mem := { served.mem with rtab := [⟨0, 0x10000000000⟩] } };
      accepted s 1 0 0x62 = some (given k) ∧ retirementOf (retKind k) (retAddress k) ∈ s.mem.rtab)) := by decide +kernel

/-- A CAL_ descriptor of one Drawer, and one of the last two. -/
def calDesc (op first count : Nat) : List Byte := desc op 1 [(16, 2, first), (18, 2, count), (24, 8, if op = 0x73 then 0 else 0x10000020000)]

/-- A module whose die 3 has moved from its reference temperature. -/
def warmed : State := setReg rCalCtrl 1 { served with cal := { served.cal with dies := [(3, { refValid := true, tRef := 0 })] } }

/-- RunsStart: the last two Drawers at both limits of CAL_VREF; die 3 by register and by temperature. -/
theorem meets_RunsStart :
    (let s := ringOn 1 0 [calDesc 0x73 16382 2] served;
      accepted s 1 0 0x73 = some (given (calDesc 0x73 16382 2)) ∧ calStatus s 1 (calDesc 0x73 16382 2) = 0 ∧
      inServiceDrawers s 16382 2 = [16382, 16383] ∧ s.cal.runs = []) ∧
    ((∀ die, die < 8 → vrefGood (vrefOf (List.replicate 8 1237500) die) = true ∧ vrefGood (vrefOf (List.replicate 8 1262500) die) = true)
      ∧ vrefGood (vrefOf (List.replicate 8 1237499) 7) = false) ∧
    (inService warmed = true ∧ wholeDieRunning warmed 3 = false ∧ inServiceDrawers warmed (2048 * 3) 2048 ≠ [] ∧ (0x08#8).getLsbD 3 = true
      ∧ regBit warmed rCalCtrl 0 = true ∧ (dieCal warmed 3).refValid = true ∧ dieRunning warmed 3 = false
      ∧ reg warmed rCalTrig % 256 < (dieReading warmed 3 - (dieCal warmed 3).tRef).natAbs) := by decide +kernel

/-- RunsCalibrate: Drawer 5, the first of two and the last one of a run that a descriptor asked for. -/
theorem meets_RunsCalibrate :
    (∀ todo ∈ ([[5, 6], [5]] : List (List Nat)),
      (let r : CalRun := { ref := some ⟨1, 0, 0⟩, todo := todo, started := 900 }
      let s := { ringOn 1 0 [calDesc 0x73 5 2] served with cal := { served.cal with runs := [r] } };
      refBadRow (drawer s 5) [] = none ∧ refBadRow (drawer s 5) [(0, -9000)] = some 0 ∧ s.cal.runs = [r] ∧ r.todo.contains (5 : Fin 16384).val = true ∧ atGap s 5 = true ∧ (∀ n, n < 16 → (mapped s n 5 && executingStep s n) = false)
      ∧ (findDesc s ⟨1, 0, 0⟩).isSome = true ∧ s.cal.runs[(0 : Fin 64).val]? = some r)) ∧ ([5, 6] : List Nat).filter (· != 5) ≠ [] := by
  decide +kernel

/-- A trim image of Drawer 5: entries of 0, with this check value of its remap table. -/
def trimBody (x : Nat) : List Byte := leBytes 2 5 ++ zeros 2 ++ leBytes 4 x ++ zeros 4104
def trimStart : List Byte := leBytes 4 0x43545231 ++ leBytes 2 1 ++ leBytes 2 5 ++ leBytes 2 1 ++ zeros 2
def trimHead (c : Nat) : List Byte := trimStart ++ (leBytes 4 c ++ zeros 48)
def saved (x : Nat) : State := put 0x10000020000 (trimHead (crc32c (trimBody x)) ++ trimBody x) (ringOn 1 0 [calDesc 0x72 5 1] served)

theorem head_length (c : Nat) : (trimHead c).length = 64 := by
  simp only [trimHead, trimStart, List.length_append, leBytes_length, zeros, List.length_replicate]

theorem body_length (x : Nat) : (trimBody x).length = 4112 := by
  simp only [trimBody, List.length_append, leBytes_length, zeros, List.length_replicate]

theorem image_bytes (x i n : Nat) (h : i + n ≤ 4176) :
    readMem (saved x) (0x10000020000 + i) n = ((trimHead (crc32c (trimBody x)) ++ trimBody x).drop i).take n :=
  readMem_put _ _ _ _ _ rfl (by rw [List.length_append, head_length, body_length]; exact h)

/-- The image is one that CAL_RESTORE takes, whatever its check value. -/
theorem image_good (x : Nat) : imageGood (saved x) (calDesc 0x72 5 1) = true := by
  have ha : calImage (calDesc 0x72 5 1) = 0x10000020000 := by decide +kernel
  have hf : calFirst (calDesc 0x72 5 1) = 5 := by decide +kernel
  have hc : calCount (calDesc 0x72 5 1) = 1 := by decide +kernel
  have hb : ((trimHead (crc32c (trimBody x)) ++ trimBody x).drop 64).take 4112 = trimBody x := by
    rw [List.drop_left' (head_length _)]
    exact List.take_of_length_le (Nat.le_of_eq (body_length _))
  have h4 : ((trimHead (crc32c (trimBody x)) ++ trimBody x).drop 12).take 4 = leBytes 4 (crc32c (trimBody x)) := by
    rw [trimHead, List.append_assoc, List.drop_left' (by decide), List.append_assoc, List.take_left' (leBytes_length _ _)]
  have hh : ∀ i n, i + n ≤ 12 → ((trimHead (crc32c (trimBody x)) ++ trimBody x).drop i).take n = ((trimHead 0).drop i).take n := fun i n h => by
    have l : trimStart.length = 12 := by decide
    have e : ∀ r : List Byte, ((trimStart ++ r).drop i).take n = (trimStart.drop i).take n := fun r => by
      rw [List.drop_append_of_le_length (by omega), List.take_append_of_le_length (by rw [List.length_drop]; omega)]
    rw [trimHead, trimHead, List.append_assoc, e, e]
  simp only [imageGood, ha, hf, hc, readNat, Nat.mul_one]
  rw [image_bytes x 64 4112 (by omega), hb, image_bytes x 4 2 (by omega), image_bytes x 6 2 (by omega), image_bytes x 8 2 (by omega),
    image_bytes x 12 4 (by omega), show readMem (saved x) 0x10000020000 4 = _ from image_bytes x 0 4 (by omega), h4, hh 0 4 (by omega),
    hh 4 2 (by omega), hh 6 2 (by omega), hh 8 2 (by omega), leNat_leBytes, show 256 ^ 4 = 2 ^ 32 from rfl, Nat.mod_eq_of_lt (crc32c_lt _)]
  simp only [beq_self_eq_true, Bool.and_true]
  decide +kernel

/-- What a restore finds as the check value is the image's. -/
theorem image_check (x : Nat) (h : x < 2 ^ 32) : readNat (saved x) (calImage (calDesc 0x72 5 1) + 68) 4 = x := by
  have ha : calImage (calDesc 0x72 5 1) = 0x10000020000 := by decide +kernel
  rw [ha, readNat, image_bytes x 68 4 (by omega), ← List.drop_drop (i := 4) (j := 64), List.drop_left' (head_length _), trimBody,
    List.append_assoc, List.drop_left' (by decide), List.take_left' (leBytes_length _ _), leNat_leBytes,
    show 256 ^ 4 = 2 ^ 32 from rfl, Nat.mod_eq_of_lt h]

/-- The check value of Drawer 5's remap table, whatever it is. -/
def check5 : Nat := remapCheck (drawer (ringOn 1 0 [calDesc 0x72 5 1] served) 5)

theorem restore_status : ∀ x ∈ [check5, 0, 1], calStatus (saved x) 1 (calDesc 0x72 5 1) = 0 := fun x h => by
  unfold calStatus
  rw [if_neg (by decide +kernel), image_good]
  revert x
  decide +kernel

/-- TrimsAreSavedAndRestored: a save of the last two Drawers; a restore of Drawer 5, its remap table as in the image, and not. -/
theorem meets_TrimsAreSavedAndRestored :
    (Dispatches (ringOn 1 0 [calDesc 0x71 16382 2] served) 1 0 0x71 (given (calDesc 0x71 16382 2))
      ∧ calStatus (ringOn 1 0 [calDesc 0x71 16382 2] served) 1 (calDesc 0x71 16382 2) = 0) ∧
    (∀ x ∈ [check5, 0, 1], Dispatches (saved x) 1 0 0x72 (given (calDesc 0x72 5 1)) ∧ calStatus (saved x) 1 (calDesc 0x72 5 1) = 0) ∧
    (calCount (calDesc 0x72 5 1) = 1 ∧ ∀ x ∈ [check5, 0, 1], ∀ n, n < 16 →
      (mapped (saved x) n (calFirst (calDesc 0x72 5 1)) && executingStep (saved x) n) = false) ∧
    readNat (saved check5) (calImage (calDesc 0x72 5 1) + 68) 4 = remapCheck (drawer (saved check5) (calFirst (calDesc 0x72 5 1))) ∧
    ∃ x ∈ [check5, 0, 1], readNat (saved x) (calImage (calDesc 0x72 5 1) + 68) 4
      ≠ remapCheck (drawer (saved x) (calFirst (calDesc 0x72 5 1))) := by
  have hf : calFirst (calDesc 0x72 5 1) = 5 := by decide +kernel
  have hd : ∀ x, remapCheck (drawer (saved x) (calFirst (calDesc 0x72 5 1))) = check5 := fun x => by rw [hf]; rfl
  have hr : check5 < 2 ^ 32 := BitVec.isLt _
  have ha : ∀ x ∈ [check5, 0, 1], accepted (saved x) 1 0 0x72 = some (given (calDesc 0x72 5 1)) := by decide +kernel
  refine ⟨⟨dispatches_of_accepted _ _ _ _ _ (by decide +kernel), by decide +kernel⟩,
    fun x h => ⟨dispatches_of_accepted _ _ _ _ _ (ha x h), restore_status x h⟩, by decide +kernel, ?_, ?_⟩
  · rw [image_check _ hr, hd]
  · by_cases h : check5 = 0
    · exact ⟨1, by simp, by rw [image_check _ (by decide), hd, h]; decide⟩
    · exact ⟨0, by simp, by rw [image_check _ (by decide), hd]; exact fun e => h e.symm⟩

/-! ## Steps -/

/-- The step control block of a step with this many rules, its tables apart from one another. -/
def ctrl (rules : Nat) : List Byte :=
  record 128 ((List.range 8).map (fun i => (8 * i, 8, 0x10000011000 + 0x1000 * i)) ++
    [(64, 8, 0x10000110000), (72, 8, 0x10000210000), (80, 2, rules), (86, 2, 1)])

/-- STEP_BEGIN of step 7, STEP_GATE and STEP_END. -/
def stepBegin : List Byte := desc 0x11 1 [(16, 8, 7), (24, 1, 16), (32, 8, 0x10000010000)]
def stepGate : List Byte := desc 0x12 1 []
def stepEnd : List Byte := desc 0x13 1 []

/-- Context 1 with Drawer 5 to flip and step 7 at the head of its ring. -/
def beginning (rules limit : Nat) : State :=
  setReg (rPlnLagLimit 1) limit (ringOn 1 0 [stepBegin] (put 0x10000011000 [1, 0, 0, 0, 0, 0, 0, 0, 3] (put 0x10000010000 (ctrl rules) { served with
    drawers := [(5, { planeA := { st := .active, gen := 7, owner := some 1, mstep := some 3 }, planeB := { st := .ready, gen := 8, owner := some 1, mstep := some 6 } }),
      (6, { planeA := { owner := some 1, mstep := some 3, imaged := true } })] })))

/-- Step 7 of context 1, open in a mode on its ring, which holds these descriptors. -/
def stepping (o : OpenStep) (ds : List (List Byte)) : State :=
  modStepCtx 1 (fun x => { x with opened := some o, ring := some 0, last := if o.begun then some 7 else none })
    { beginning 0 0 with doors := (ringOn 1 0 ds served).doors, mod := { served.mod with st := .running } }

/-- Step 7 with its commit still to be made, for a rule of which the input is awaited. -/
def awaiting : OpenStep :=
  { num := 7, mode := 0, wait := .ruleInput, ref := ⟨1, 0, 0⟩, beginIdx := 0, ctrl := ctrl 1, readyAt := [5] }

/-- Step 7 as begun. -/
def begun (mode : Nat) : OpenStep := { num := 7, mode := mode, begun := true, ref := ⟨1, 0, 0⟩, beginIdx := 0, ctrl := ctrl 0 }

/-- A stamped table of a body with its check value: so many bytes of zeros, with COUNT. -/
def stamped (step count : Nat) (body : List Byte) : List Byte :=
  leBytes 8 step ++ leBytes 4 (crc32c body) ++ leBytes 2 count ++ zeros 50 ++ body

/-- StepsBegin: a step with no rule, no lag limit, a limit of the lag and a limit below it; one with a rule whose input is
not there. -/
theorem meets_StepsBegin :
    (∀ l ∈ ([0, 3, 2] : List Nat), accepted (beginning 0 l) 1 0 0x11 = some (given stepBegin) ∧ canonical (beginning 0 l) = true
      ∧ (beginStatus (modStepCtx 1 (fun x => { x with ring := some (x.ring.getD (0 : Fin 8)) }) (beginning 0 l)) (1 : Fin 16) (0 : Fin 8) stepBegin).1 = 0
      ∧ readyFor 1 (drawer (beginning 0 l) 5) = true ∧ ctrlRuleCount (readMem (beginning 0 l) (stepCtrlAddr stepBegin) 128) = 0) ∧
    (accepted (beginning 1 0) 1 0 0x11 = some (given stepBegin) ∧ (beginStatus (modStepCtx 1 (fun x => { x with ring := some 0 }) (beginning 1 0)) 1 0 stepBegin).1 = 0
      ∧ readNat (beginning 1 0) (ctrlRuleInputAddr (readMem (beginning 1 0) (stepCtrlAddr stepBegin) 128)) 8 ≠ 7) := by decide +kernel

theorem stamped_reads (a n count : Nat) (body : List Byte) (s : State) (he : s.mem.errs = []) (hn : n < 2 ^ 64) :
    readNat (put a (stamped n count body) s) a 8 = n ∧ readNat (put a (stamped n count body) s) (a + 8) 4 = crc32c body
      ∧ readMem (put a (stamped n count body) s) (a + 64) body.length = body := by
  have hl : (stamped n count body).length = 64 + body.length := by
    simp only [stamped, List.length_append, leBytes_length, zeros, List.length_replicate]
  refine ⟨?_, ?_, ?_⟩
  · rw [show a = a + 0 from rfl, readNat, show a + 0 = a from rfl, show readMem (put a (stamped n count body) s) a 8 = _ from
      readMem_put a 0 8 _ s he (by omega), List.drop_zero, stamped, List.append_assoc, List.append_assoc, List.append_assoc,
      List.take_left' (leBytes_length _ _), leNat_leBytes, show 256 ^ 8 = 2 ^ 64 from rfl, Nat.mod_eq_of_lt hn]
  · rw [readNat, readMem_put a 8 4 _ s he (by omega), stamped, List.append_assoc, List.append_assoc, List.append_assoc,
      List.drop_left' (leBytes_length _ _), List.take_left' (leBytes_length _ _), leNat_leBytes, show 256 ^ 4 = 2 ^ 32 from rfl,
      Nat.mod_eq_of_lt (crc32c_lt _)]
  · rw [readMem_put a 64 _ _ s he (by omega), stamped, List.drop_left' (by
      simp only [List.length_append, leBytes_length, zeros, List.length_replicate])]
    exact List.take_of_length_le (Nat.le_refl _)

/-- RuleInputs: the input present, and not. -/
theorem meets_RuleInputs :
    (let s := put 0x10000012000 (stamped 7 0 (zeros 320)) (stepping awaiting [stepBegin])
      let u := stepping awaiting [stepBegin];
      ruleInput s awaiting = some (zeros 320) ∧
      ((stepCtx s 1).opened = some awaiting ∧ awaiting.begun = false ∧ awaiting.wait = .ruleInput ∧ awaiting.readyAt.Nodup
      ∧ (findDesc s awaiting.ref).isSome = true ∧ ctrlRuleCount awaiting.ctrl ≠ 0
      ∧ (stepCtx u 1).opened = some awaiting ∧ ruleInput u awaiting = none)) := by
  obtain ⟨h1, h2, h3⟩ := stamped_reads 0x10000012000 7 0 (zeros 320) (stepping awaiting [stepBegin]) rfl (by decide)
  have ha : ctrlRuleInputAddr awaiting.ctrl = 0x10000012000 := by decide +kernel
  have hc : 320 * ctrlRuleCount awaiting.ctrl = (zeros 320).length := by rw [zeros, List.length_replicate]; decide +kernel
  refine ⟨?_, by decide +kernel⟩
  simp only [ruleInput, ha, hc, h1, h2, h3, show awaiting.num = 7 from rfl, and_self, if_true]

/-- The check value of a rule input of zeros, in two halves. -/
theorem crc_zeros_320 : crc32c (zeros 320) = 0xFC2A5DCC := by
  have h1 : (zeros 160).foldl crcByte 0xFFFFFFFF = 0x1C545C65 := by decide +kernel
  have h2 : (zeros 160).foldl crcByte 0x1C545C65 ^^^ 0xFFFFFFFF = 0xFC2A5DCC := by decide +kernel
  rw [crc32c, show zeros 320 = zeros 160 ++ zeros 160 from by rw [zeros, zeros, List.replicate_append_replicate], List.foldl_append, h1, h2]

/-- StepsBegin: a step with a rule whose input is there, and there with another check value. -/
theorem meets_StepsBegin_input :
    (let s := put 0x10000012000 (stamped 7 0 (zeros 320)) (beginning 1 0);
      (accepted s 1 0 0x11 = some (given stepBegin) ∧ (beginStatus (modStepCtx 1 (fun x => { x with ring := some 0 }) s) 1 0 stepBegin).1 = 0
        ∧ ctrlRuleInputAddr (readMem s (stepCtrlAddr stepBegin) 128) = 0x10000012000
        ∧ ctrlRuleCount (readMem s (stepCtrlAddr stepBegin) 128) = 1 ∧ canonical s = true) ∧
      readNat s 0x10000012000 8 = 7 ∧ readNat s (0x10000012000 + 8) 4 = crc32c (readMem s (0x10000012000 + 64) 320)) ∧
    (let s := put 0x10000012000 (leBytes 8 7 ++ leBytes 4 0 ++ zeros 372) (beginning 1 0);
      (accepted s 1 0 0x11 = some (given stepBegin) ∧ (beginStatus (modStepCtx 1 (fun x => { x with ring := some 0 }) s) 1 0 stepBegin).1 = 0) ∧
      readNat s 0x10000012000 8 = 7 ∧ readNat s (0x10000012000 + 8) 4 ≠ crc32c (readMem s (0x10000012000 + 64) 320)) := by
  obtain ⟨h1, h2, h3⟩ := stamped_reads 0x10000012000 7 0 (zeros 320) (beginning 1 0) rfl (by decide)
  have hl : (zeros 320).length = 320 := List.length_replicate
  rw [hl] at h3
  have h4 : readMem (put 0x10000012000 (leBytes 8 7 ++ leBytes 4 0 ++ zeros 372) (beginning 1 0)) (0x10000012000 + 64) 320 = zeros 320 := by
    rw [readMem_put _ 64 320 _ _ rfl (by rw [List.length_append, List.length_append, leBytes_length, leBytes_length, zeros, List.length_replicate])]
    rw [List.drop_append, List.drop_eq_nil_of_le (by rw [List.length_append, leBytes_length, leBytes_length]; decide), List.nil_append]
    rw [List.length_append, leBytes_length, leBytes_length, zeros, List.drop_replicate, List.take_replicate]; rfl
  refine ⟨⟨?_, h1, ?_⟩, by decide +kernel, by decide +kernel, ?_⟩
  · rw [show stamped 7 0 (zeros 320) = leBytes 8 7 ++ leBytes 4 0xFC2A5DCC ++ leBytes 2 0 ++ zeros 50 ++ zeros 320 by rw [stamped, crc_zeros_320]]
    decide +kernel
  · rw [h2, h3]
  · rw [h4, crc_zeros_320]; decide +kernel

/-- GatesPass: a captured table; a current one of 1.0 and −0.0; one with no count; one of another step. -/
theorem meets_GatesPass :
    (accepted (stepping { begun 0 with captured := some (256, 9) } [stepGate]) 1 0 0x12 = some (given stepGate)
      ∧ (stepCtx (stepping { begun 0 with captured := some (256, 9) } [stepGate]) 1).opened = some { begun 0 with captured := some (256, 9) }) ∧
    (accepted (stepping (begun 3) [stepGate]) 1 0 0x12 = some (given stepGate) ∧ (begun 3).mode ≠ 4 ∧ (begun 3).captured = none) ∧
    (let s := put 0x10000014000 (stamped 7 1 (leBytes 4 0x3F800000 ++ leBytes 4 0)) (stepping (begun 3) [stepGate]);
      accepted s 1 0 0x12 = some (given stepGate) ∧ (stepCtx s 1).ring = some 0
        ∧ findSizes s (begun 3) = .good 1 (crc32c (leBytes 4 0x3F800000 ++ leBytes 4 0))) ∧
    findSizes (put 0x10000014000 (stamped 7 0 []) (stepping (begun 3) [stepGate])) (begun 3) = .invalid ∧
    findSizes (put 0x10000014000 (stamped 6 1 (zeros 8)) (stepping (begun 3) [stepGate])) (begun 3) = .notCurrent := by decide +kernel

/-- GatesWait: two gates that wait, with the table good and of another step. -/
theorem meets_GatesWait :
    (let o : OpenStep := { begun 0 with gates := [(⟨1, 0, 0⟩, 5), (⟨1, 0, 1⟩, 6)] }
      let s := stepping o [stepGate, stepGate];
      (stepCtx s 1).opened = some o ∧ (findDesc s ⟨1, 0, 0⟩).isSome = true ∧ o.captured = none ∧ findSizes s o = .notCurrent
      ∧ findSizes (put 0x10000014000 (stamped 7 1 (zeros 8)) s) o = .good 1 (crc32c (zeros 8))) := by decide +kernel

/-- StepsEnd: a step of mode 4 with an active slot, an abandoned one, one of a group that sends a digest, one with a bucket that is
Reduced; and none. -/
theorem meets_StepsEnd :
    (∀ o ∈ [{ begun 4 with slots := [none, some 5] }, { begun 0 with abandoned := true }, begun 0,
        { begun 0 with buckets := [(5, some { opened5 with st := .reduced })] }], (let s := stepping o [stepEnd];
      accepted s 1 0 0x13 = some (given stepEnd) ∧ (stepCtx s 1).ring = some 0 ∧ (stepCtx s 1).opened = some o ∧ o.begun = true
      ∧ earlierDone s 1 0 0 = true ∧ ∀ e ∈ o.buckets, e.2 = some { opened5 with st := .reduced })) ∧
    (let s := ringOn 1 0 [stepEnd] served; accepted s 1 0 0x13 = some (given stepEnd) ∧ stepOpen s 1 = false ∧ (stepCtx s 1).ring = none) := by
  decide +kernel

/-! ## Power, clocks and resets -/

/-- A module in Standby with channel 2 at this filter value and a trip latch, rule 0 active in POWER_DOWN where asked. -/
def standing (v : Nat) (latch rule : Bool) : State :=
  setReg (rNstRule 0) (2 ^ 63 + 4 * 64) { State.reset with
    mod := { State.reset.mod with st := .standby, tripLatch := latch }
    nst := { State.reset.nst with filt := [(2, v)], ruleActive := if rule then [(0, true)] else [] } }

/-- A module in a state and a boot phase, with the root PLL locked from the fill on. -/
def bootingAt (p : BootPhase) : State :=
  { State.reset with mod := { State.reset.mod with st := .booting, boot := p, pwrGood := p != .railsRising, pllLocked := p != .railsRising && p != .pllLocking } }

/-- StandbyPowerComesAndGoes. -/
theorem meets_StandbyPowerComesAndGoes : State.reset.mod.st = .off := by decide +kernel

/-- PowerOnAccepted: at both limits of the input. -/
theorem meets_PowerOnAccepted : ∀ v ∈ ([32000, 48000] : List Nat), (let s := standing v false false;
    canonical s = true ∧ s.mod.st = .standby ∧ 32000 ≤ filtOf s 2 ∧ filtOf s 2 ≤ 48000 ∧ inputSampleWaits s = false ∧ s.mod.refclk = true ∧ s.mod.tripLatch = false
      ∧ (∀ i, i < 32 → ruleActive s i = true → ruleAction s i ≠ 4)) := by decide +kernel

/-- PowerOnRefused: for each reason alone. -/
theorem meets_PowerOnRefused : ∀ e ∈ ([(served, 1), (standing 31999 false false, 2), (standing 48001 false false, 2),
      ({ standing 32000 false false with nst := { (standing 32000 false false).nst with cur := some 2 }, pending := [.monitorConversion 4095 1000000] }, 2),
      ({ standing 32000 true true with mod := { (standing 32000 true true).mod with refclk := false } }, 3), (standing 32000 true true, 4),
      (standing 32000 false true, 5)] : List (State × Nat)),
    e.1.mod.st ≠ .off ∧ e.2 = (if e.1.mod.st ≠ .standby then 1
      else if filtOf e.1 2 < 32000 ∨ 48000 < filtOf e.1 2 ∨ inputSampleWaits e.1 = true then 2
      else if e.1.mod.refclk = false then 3 else if e.1.mod.tripLatch = true then 4
      else if (List.range 32).any (fun i => ruleActive e.1 i && ruleAction e.1 i == 4) then 5 else 0) := by decide +kernel

/-- PowerOffAndRelease: a request alone, one with a trip in its nanosecond, and a Retired module. -/
theorem meets_PowerOffAndRelease : mainPower served = true ∧ outranked 4 served = false
    ∧ outranked 4 { served with pending := [.rootPllLossOfLock] } = true
    ∧ ({ served with mod := { served.mod with st := .retired, resetTimes := [4, 3, 2, 1] } } : State).mod.st = .retired := by decide +kernel

/-- Fuses with vendor key 0 and a minimum security version of 1. -/
def goodFuses : Fwu := { keyDigests := [some goodKey, none, none, none], minSvn := 1 }

theorem image_passes (f : Fwu) (im : Image) (c : Crypto) (h : arrivalCheck im = none) : imageCheck f (some im) c = cryptoCheck f im c := by
  simp [imageCheck, h]

/-- BootProceeds: each phase; an image that passes every check. -/
theorem meets_BootProceeds :
    (∀ p ∈ [BootPhase.railsRising, .pllLocking, .filling, .checking, .loading], (bootingAt p).mod.st = .booting ∧ (bootingAt p).mod.boot = p
      ∧ (bootingAt p).mod.refclk = true ∧ (bootingAt p).mod.warmBoot = false) ∧ canonical (bootingAt .loading) = true ∧
    imageCheck goodFuses (some goodImage) (goodCrypto goodFuses) = none :=
  ⟨by decide +kernel, by decide +kernel, (image_passes _ _ _ good_arrives).trans (good_verifies _ rfl rfl (by decide))⟩

/-- BootFallsBack: empty slots, whichever is selected; and a good image in the other. -/
theorem meets_BootFallsBack :
    (∀ p ∈ [BootPhase.checking, .checkingOther], (bootingAt p).mod.boot = p
      ∧ imageCheck (bootingAt p).fwu (slotOf (bootingAt p).fwu (bootingAt p).fwu.selector) {} = some (stImageCrc, 1)
      ∧ imageCheck (bootingAt p).fwu (slotOf (bootingAt p).fwu (1 - (bootingAt p).fwu.selector)) {} = some (stImageCrc, 1)) ∧
    slotOf { slot1 := some goodImage } (1 - 0) = some goodImage := ⟨by decide +kernel, rfl⟩

/-- ClocksLostAndRestored. -/
theorem meets_ClocksLostAndRestored : mainPower served = true ∧ outranked 3 served = false ∧ served.mod.pllLocked = true := by decide +kernel

/-- EdgeSignals: PERST# high; PWR_HOLD about to rise and to fall, logged and not. -/
theorem meets_EdgeSignals :
    (let s := { served with mod := { served.mod with perst := false } }; mainPower s = true ∧ s.mod.perst = false) ∧
    (served.mod.st ≠ .off ∧ served.mod.pwrHold ≠ true ∧ regBit (setReg rPwrCtrl 1 served) rPwrCtrl 0 = true
      ∧ regBit (setReg rPwrCtrl 0 served) rPwrCtrl 0 = false
      ∧ ({ served with mod := { served.mod with pwrHold := true } } : State).mod.pwrHold ≠ false) := by decide +kernel

/-- DeviceResetsBootOrRetire: the fourth reset 900,000,000 µs after the oldest of three, and 1 µs later; a third; and in Recovery. -/
theorem meets_DeviceResetsBootOrRetire :
    (∀ e ∈ ([(900000005, true), (900000006, false)] : List (Nat × Bool)),
      (let s := { served with mod := { served.mod with nstNs := 1000 * e.1, resetTimes := [7, 6, 5] } };
      mainPower s = true ∧ inService s = true ∧ (∀ b, subsumed b s = false) ∧ outranked (if retires (timesWithReset s) then 2 else 5) s = false
        ∧ 3 ≤ s.mod.resetTimes.length ∧ decide (nstTime s ≤ s.mod.resetTimes.getD 2 0 + 900000000) = e.2)) ∧
    ({ served with mod := { served.mod with resetTimes := [7, 6] } } : State).mod.resetTimes.length < 3 ∧
    ({ served with mod := { served.mod with st := .recovery } } : State).mod.st = .recovery := by decide +kernel

/-- WrongResetKeyIgnored: the keys next to the right one. -/
theorem meets_WrongResetKeyIgnored : (0xC9A6 : Fin 65536).val ≠ 0xC9A7 ∧ (0xC9A8 : Fin 65536).val ≠ 0xC9A7 := by decide

/-- LockAndRecord: a record, with the lock clear in Standby and set there, and in service. -/
theorem meets_LockAndRecord :
    (zeros 3904).length = 3904 ∧ (standing 0 false false).mod.st = .standby ∧ (standing 0 false false).fwu.ownerLock = false ∧
    ({ standing 0 false false with fwu := { ownerLock := true } } : State).fwu.ownerLock = true ∧ served.mod.st ≠ .off ∧
    ¬((served.mod.st = .standby ∨ served.mod.st = .retired ∨ served.mod.st = .recovery) ∧ served.fwu.ownerLock = false) :=
  ⟨zeros_length _, by decide +kernel⟩

/-! ## Nightstand -/

/-- ConversionRecordedAndFiltered: the first conversion of channel 2, and a later one. -/
theorem meets_ConversionRecordedAndFiltered :
    ∀ b ∈ [false, true], (let s := { standing 32000 false false with nst := { (standing 32000 false false).nst with cur := some 2, seen := if b then [(2, true)] else [] } };
      canonical s = true ∧ s.mod.st ≠ .off ∧ s.nst.cur = some 2 ∧ tabGet false s.nst.seen 2 = b) := by decide +kernel

/-- ThrottleFollowsItsSources: a millisecond above 2,400 W, the eighth, and one at it; each running interval. -/
theorem meets_ThrottleFollowsItsSources : mainPower served = true ∧
    (∀ e ∈ ([(1, 0), (1, 7)] : List (Nat × Nat)), (let s := { served with nst := { served.nst with msSum := 76800001, msCount := e.1, msOver := e.2 } };
      2400 * 32000 * s.nst.msCount < s.nst.msSum)) ∧ ¬2400 * 32000 * 1 < 76800000 ∧
    (let s := { served with mod := { served.mod with nstNs := 10000000 }, nst := { served.nst with thermalHot := true, thermalCool := true, powerCool := true, thermal := 4, power := 16 } };
      s.nst.thermalHot = true ∧ s.nst.thermalCool = true ∧ s.nst.powerCool = true
        ∧ s.nst.thermalHotAt + 1000000 ≤ s.mod.nstNs ∧ s.nst.thermalCoolAt + 10000000 ≤ s.mod.nstNs ∧ s.nst.powerCoolAt + 10000000 ≤ s.mod.nstNs) := by decide +kernel

/-- NightstandSettings: a rule of channel 23 with a cap of 4, and one with a cap of 17; a cap of 16, and of 17; START while the
converter converts, while channel 3 is due, and while it is idle. -/
theorem meets_NightstandSettings : inService served = true ∧ canonical served = true ∧
    ruleValid (23 + 2 * 64 + 4 * 512) = true ∧ ruleValid (23 + 2 * 64 + 17 * 512) = false ∧ ruleValid 24 = false ∧
    (4 ≤ (16 : Fin 32).val ∧ (16 : Fin 32).val ≤ 16 ∧ 16 < (17 : Fin 32).val ∧ (3 : Fin 32).val < 4) ∧
    served.nst.cur = none ∧ (beginIdle { served with mod := { served.mod with nstNs := 5000 } }).nst.cur ≠ none ∧
    (beginIdle (setReg rNstCtrl 0 served)).nst.cur = none := by decide +kernel

/-! ## Hutch, contexts and the host interface -/

/-- A module whose Hutch has missed so many heartbeats and was last reset at these device times. -/
def beating (misses : Nat) (times : List Nat) : State :=
  { served with rcv := { served.rcv with hbArmed := true, hbMisses := misses, hutchTimes := times } }

/-- HutchWatchdogActs: a heartbeat alone and beside the third miss; misses one to three, the third as a third reset too, 600 s after the
first. -/
theorem meets_HutchWatchdogActs :
    hutchDue { beating 2 [] with pending := [.hutchHeartbeatMiss] } = true ∧
    (∀ s ∈ [beating 1 [], beating 2 [], beating 2 [900, 0], beating 2 [600000000001, 1]],
      canonical s = true ∧ inService s = true ∧ hutchDue s = false ∧ s.rcv.hbArmed = true ∧ hbHeld s = false ∧ resetWaits s = false
      ∧ subsumed false s = false ∧ outranked (if retires (timesWithReset s) then 2 else 5) s = false) ∧
    (∀ now ∈ ([0, 1000000000] : List Nat), hbHeld { beating 2 [] with
      mod := { served.mod with nstNs := now }, rcv := { served.rcv with hbSuspended := true } } = decide (now = 0)) ∧
    served.mod.devTime ≤ (beating 2 [900, 0]).rcv.hutchTimes.getD 1 0 + 600000000000 := by decide +kernel

/-- HutchNotRestoredAndDumpCleared: with AUTO_WARM, and without it. -/
theorem meets_HutchNotRestoredAndDumpCleared :
    (∀ v ∈ ([7, 0] : List Nat), (let s := setReg rRcvCtrl v { served with rcv := { served.rcv with hutchAwaited := true } };
      inService s = true ∧ s.rcv.hutchAwaited = true ∧ regBit s rRcvCtrl 1 = (v == 7) ∧ resetWaits s = false ∧ subsumed false s = false
      ∧ outranked (if retires (timesWithReset s) then 2 else 5) s = false)) ∧ inService served = true := by decide +kernel

/-- ContextStepWatchdogActs: a STEP_BEGIN that waits for its rule input, and one at the lag check; a step that is open; and a ring whose
next descriptor waits for semaphore 3. -/
theorem meets_ContextStepWatchdogActs :
    (∀ w ∈ [StepWait.ruleInput, .lag], (let o : OpenStep := { num := 7, mode := 0, wait := w, ref := ⟨1, 0, 0⟩, beginIdx := 0, ctrl := zeros 128 }
      let s := modStepCtx 1 (fun x => { x with opened := some o, ring := some 0 }) (ringOn 1 0 [desc 0x11 1 []] served);
      canonical s = true ∧ (stepCtx s 1).opened = some o ∧ o.begun = false ∧ (findDesc s o.ref).isSome = true)) ∧
    (let o : OpenStep := { num := 7, mode := 0, begun := true, ref := ⟨1, 0, 0⟩, beginIdx := 0, ctrl := zeros 128 };
      (stepCtx (modStepCtx 1 (fun x => { x with opened := some o }) served) 1).opened = some o) ∧
    (let s := ringOn 1 0 [desc 0x01 1 [(2, 1, 1), (3, 1, 3), (8, 4, 9)]] served; (stepCtx s 1).opened = none ∧ waiting s 1 0 = true
      ∧ (∃ d, (ringOf s 1 0).unstarted.head? = some d ∧ (ringOf s 1 0).flush = [] ∧ follows (ringOf s 1 0).tail d.idx = true
        ∧ (∀ e ∈ (ringOf s 1 0).opened, e.idx = d.idx → e = d))) := by
  refine ⟨by decide +kernel, by decide +kernel, by decide +kernel, by decide +kernel, ⟨_, rfl, ?_⟩⟩
  decide +kernel

/-- ContextsAreResetAndBound: no virtual function, and fifteen. -/
theorem meets_ContextsAreResetAndBound :
    canonical served = true ∧ inService served = true ∧ resetIncluded served = false ∧ stillStopping served 15 = false ∧ served.pending = [] ∧ functionOf served 15 = (0 : Fin 16).val ∧ served.vfs = 0 ∧
    (let s := { served with vfs := 15 }; resetIncluded s = false ∧ functionOf s 15 = (15 : Fin 16).val ∧ (15 : Fin 16).val ≤ s.vfs) := by
  decide +kernel

/-- ContextsAreResetAndBound: no Chest holds a descriptor of another context, and no bucket names one. -/
theorem meets_ContextsAreResetAndBound_quiet :
    (∀ h ∈ served.chests, ∀ r ∈ h.2.held, r.ctx = (15 : Fin 16).val) ∧
    (∀ tag b, bucket served 15 tag = some b → b.reduce.ctx = 15 ∧ ∀ g, b.gather = some g → g.ctx = 15) :=
  ⟨by decide +kernel, fun tag b h => by rw [show bucket served 15 tag = none from rfl] at h; cases h⟩

/-- RingDoorbells: a TAIL of HEAD plus the size, and one more; a TAIL that goes back; a ring that is disabled, and one that is idle. -/
theorem meets_RingDoorbells :
    (let s := modRing 1 0 (fun q => { q with enable := true, tail := 1, fetched := 1 }) served
      let q := ringOf s 1 0;
      canonical s = true ∧ inService s = true ∧ functionOf s 1 = (0 : Fin 16).val ∧ resetting s 1 = false ∧ q.enable = true ∧ q.error = 0 ∧ q.head = 1 ∧ q.tail = 1 ∧ q.sizeLog2 = 6) ∧
    (((65 : Word).toNat + 2 ^ 32 - 1) % 2 ^ 32 ≤ 2 ^ 6 ∧ ((65 : Word).toNat + 2 ^ 32 - 1) % 2 ^ 32 < 2 ^ 31 ∧
      2 ^ 6 < ((66 : Word).toNat + 2 ^ 32 - 1) % 2 ^ 32 ∧ 2 ^ 31 ≤ ((0 : Word).toNat + 2 ^ 32 - 1) % 2 ^ 32) ∧
    (ringOf served 1 0).enable = false ∧ (0x100D : Word).toNat.testBit 0 = true ∧ 6 ≤ bitsOf (0x100D : Word).toNat 5 1
      ∧ bitsOf (0x100D : Word).toNat 12 6 < 128 := by decide +kernel

/-- HistogramAndSemaphoreDoorbells: a histogram ring that is disabled, and one that is not. -/
theorem meets_HistogramAndSemaphoreDoorbells :
    canonical served = true ∧ (door served 1).hist.enable = false ∧ (9 : Word).toNat.testBit 0 = true ∧ 4 ≤ bitsOf (9 : Word).toNat 4 1 ∧
    (let s := modDoor 1 (fun p => { p with hist := { p.hist with enable := true } }) served;
      canonical s = true ∧ inService s = true ∧ functionOf s 1 = (0 : Fin 16).val ∧ resetting s 1 = false ∧ (door s 1).hist.enable = true) := by decide +kernel

/-- The aperture at 2^40, where HBM begins. -/
def apertured : State := setReg rHifAperture (2 ^ 40 + 1) served

/-- What BAR2 reaches from the start of HBM, wherever HBM ends. -/
theorem aperture_backed (n : Nat) (h : n ≤ 4096) :
    rangeBacked 0x10000000000 n = true ∧ inDump 0x10000000000 = false ∧ inDump (0x10000000000 + n - 1) = false := by
  have hd : ∀ a, a < 0x10000002000 → inDump a = false := fun a h => by
    simp only [inDump, dumpBase]
    split <;> simp <;> omega
  have hb : ∀ a, hbmBase ≤ a → a < 0x10000002000 → backed a = true := fun a h1 h2 => by
    simp only [backed, slotBacked, Bool.or_eq_true, Bool.and_eq_true, decide_eq_true_eq]
    exact .inr ⟨⟨h1, by simp [hbmBase, hbmSlot]; omega⟩, .inl (by simp only [hbmBase, hbmSlot] at *; omega)⟩
  refine ⟨?_, hd _ (by omega), hd _ (by omega)⟩
  unfold rangeBacked
  simp only [hbmBase, hbmSlot, cupEnd, Bool.or_eq_true, Bool.and_eq_true, decide_eq_true_eq]
  by_cases h0 : n = 0
  · simp [h0]
  · refine .inr ⟨⟨⟨hb _ (by simp [hbmBase]) (by omega), hb _ (by simp only [hbmBase]; omega) (by omega)⟩, by omega⟩, by omega⟩

/-- Bar2Reads: 4,096 bytes from the start of HBM; with the aperture disabled, and in Booting. -/
theorem meets_Bar2Reads :
    inService apertured = true ∧ regBit apertured rHifAperture 0 = true ∧ apertureAddr apertured (0#32).toNat = 0x10000000000 ∧
    (rangeBacked 0x10000000000 4096 = true ∧ inDump 0x10000000000 = false ∧ inDump (0x10000000000 + 4096 - 1) = false) ∧
    mainPower served = true ∧ regBit served rHifAperture 0 = false ∧ mainPower (bootingAt .filling) = true ∧ (bootingAt .filling).mod.st = .booting :=
  ⟨by decide +kernel, by decide +kernel, by decide +kernel, aperture_backed 4096 (by decide), by decide +kernel⟩

/-- Bar2WritesExactly: eight bytes at the start of HBM, and with its second codeword uncorrectable. -/
theorem meets_Bar2WritesExactly :
    (∀ s ∈ [apertured, { apertured with mem := { apertured.mem with errs := [(0x10000000020, some true)] } }],
      canonical s = true ∧ inService s = true ∧ apertureAddr s (0#32).toNat = 0x10000000000 ∧ regBit s rHifAperture 0 = true) ∧
    (List.replicate 40 (1 : Byte) ≠ [] ∧ cupEnd ≤ 0x10000000000) ∧
    rangeBacked 0x10000000000 40 = true ∧ inDump 0x10000000000 = false ∧ inDump (0x10000000000 + 40 - 1) = false :=
  ⟨by decide +kernel, by decide +kernel, aperture_backed 40 (by decide)⟩

/-- ApertureAndBadAccess: an offset that answers, in service; one that answers nothing while the module boots. -/
theorem meets_ApertureAndBadAccess :
    canonical served = true ∧ inService served = true ∧ bar0Answers served (9#26).toNat = true ∧
    mainPower (bootingAt .filling) = true ∧ bar0Answers (bootingAt .filling) (9#26).toNat = false := by decide +kernel

/-- DescriptorsAreFetched: a ring with one descriptor posted, and one with none. -/
theorem meets_DescriptorsAreFetched :
    (let s := modRing 1 0 (fun q => { q with base := 0x1000, enable := true, tail := 1 }) served;
      canonical s = true ∧ fetchTurn s = some ((1 : Fin 16).val, (0 : Fin 8).val)) ∧ (zeros 64).length = 64 ∧
    fetchTurn served ≠ some ((1 : Fin 16).val, (0 : Fin 8).val) := by decide +kernel

/-- A HIF_COPY of so many bytes: bit 0 from the host, bit 1 to it. -/
def copyDesc (dir len : Nat) : List Byte := desc 0x03 1 [(16, 1, dir), (24, 4, len), (32, 8, 0x10000), (40, 8, 0x20000)]
def copyJob (dir len : Nat) : CopyJob := ⟨⟨1, 0, 0⟩, dir.testBit 0, dir.testBit 1, len, 0x10000, 0x20000, false⟩

/-- NopAndCopyComplete: copies of no byte and of the most, within the module, from the host and to it. -/
theorem meets_NopAndCopyComplete :
    Dispatches (ringOn 1 0 [desc 0x01 1 []] served) 1 0 0x01 (given (desc 0x01 1 [])) ∧
    (∀ e ∈ ([(0, 0), (0, 8192), (1, 8192), (2, 8192)] : List (Nat × Nat)),
      (let s := ringOn 1 0 [copyDesc e.1 e.2] served;
      accepted s 1 0 0x03 = some (given (copyDesc e.1 e.2)) ∧ copyStatus s 1 (copyJob e.1 e.2) = 0) ∧
      (let s := { ringOn 1 0 [copyDesc e.1 e.2] served with copies := [copyJob e.1 e.2] };
      s.copies.find? (fun j => j.ref == ⟨1, 0, (0 : Word).toNat⟩) = some (copyJob e.1 e.2) ∧ (findDesc s ⟨1, 0, 0⟩).isSome = true)) :=
  ⟨dispatches_of_accepted _ _ _ _ _ (by decide +kernel), by decide +kernel⟩

/-! ## Firmware update and registers -/

/-- A module with this update controller, in service and in Recovery. -/
def updating (f : Fwu) : State := { served with fwu := f }
def recovering (f : Fwu) : State := { served with fwu := f, mod := { served.mod with st := .recovery } }

/-- StageVerifyAbort: each update state, in service and in Recovery. -/
theorem meets_StageVerifyAbort : inService served = true ∧ (recovering {}).mod.st = .recovery ∧
    (∀ u ∈ [FwuState.idle, .staged, .verified, .failed], ({ state := u } : Fwu).state ≠ .staging ∧ ({ state := u } : Fwu).state ≠ .verifying
      ∧ ({ state := u } : Fwu).state ≠ .activating ∧ ({ state := u } : Fwu).ownerLock = false) ∧
    (updating { state := .staged }).fwu.state = .staged ∧ (updating { state := .staging }).fwu.state = .staging
      ∧ (updating { state := .verifying }).fwu.state = .verifying ∧ (updating { state := .failed }).fwu.state = .failed := by decide +kernel

/-- UpdateRefusals: each reason of ACTIVATE; STAGE in a wrong state and under the owner lock; VERIFY and ABORT in a wrong state. -/
theorem meets_UpdateRefusals :
    (∀ e ∈ ([(updating {}, 5), (modStepCtx 1 (fun x => { x with opened := some { num := 7, mode := 0, begun := true, ref := ⟨1, 0, 0⟩, beginIdx := 0, ctrl := zeros 128 } })
          (updating { state := .verified }), 1),
        ({ updating { state := .verified } with mod := { served.mod with pwrHold := true } }, 2), (updating { state := .verified, ownerLock := true }, 3)] : List (State × Nat)),
      inService e.1 = true ∧ e.2 = (if e.1.fwu.state ≠ .verified then 5 else if stepBusy e.1 ∨ beginDue e.1 then 1 else if e.1.mod.pwrHold then 2
        else if e.1.fwu.ownerLock then 3 else 0) ∧ e.2 ≠ 0) ∧
    (∀ e ∈ ([({ state := .staging }, 5), ({ ownerLock := true }, 3)] : List (Fwu × Nat)),
      e.2 = (if e.1.state = .staging ∨ e.1.state = .verifying ∨ e.1.state = .activating then 5 else if e.1.ownerLock then 3 else 0) ∧ e.2 ≠ 0) ∧
    (updating {}).fwu.state ≠ .staged ∧ (updating {}).fwu.state = .idle := by decide +kernel

/-- A module that stages an image of the length of `goodBytes`. -/
def staging : State := updating { state := .staging, stageLength := 69664 }

/-- StagingEnds: a good image, one with no bytes, and an error of the host. -/
theorem meets_StagingEnds :
    inService staging = true ∧ staging.fwu.state = .staging ∧ staging.fwu.overMctp = false ∧
    arrivalCheck ⟨goodBytes.take staging.fwu.stageLength⟩ = none ∧
    arrivalCheck ⟨([] : List Byte).take staging.fwu.stageLength⟩ = some (stImageCrc, 1) := by
  refine ⟨by decide +kernel, by decide +kernel, by decide +kernel, ?_, by decide +kernel⟩
  rw [List.take_of_length_le (by rw [goodBytes_length]; exact Nat.le_refl _)]
  exact good_arrives

/-- VerificationEnds: the good image, and answers under which its signature fails. -/
theorem meets_VerificationEnds :
    (let s := updating { goodFuses with state := .verifying, slot1 := some goodImage }
      let crypto := goodCrypto s.fwu;
      inService s = true ∧ s.fwu.state = .verifying ∧ s.fwu.overMctp = false ∧ slotOf s.fwu (otherSlot s.fwu) = some goodImage
      ∧ s.fwu.keyDigests[imgKey goodImage]? = some (some goodKey) ∧ s.fwu.keysRevoked.testBit (imgKey goodImage) = false
      ∧ shaOf crypto (signedBytes goodImage) = some 0 ∧ (goodKey, 0, goodImage.slice 3904 96) ∈ crypto.verifies
      ∧ s.fwu.minSvn ≤ imgSvn goodImage ∧ blocksOpen s.fwu goodImage crypto = true
      ∧ (∀ k, k < 6 → componentGood s.fwu goodImage crypto k = true)
      ∧ cryptoCheck s.fwu goodImage {} = some (stImageSignature, 2)) := by
  refine ⟨by decide +kernel, rfl, rfl, rfl, ?_, ?_, good_digest _, List.mem_singleton.2 rfl, by rw [good_svn]; exact Nat.le_refl 1, good_opens _,
    fun k hk => good_component _ k hk, ?_⟩
  · rw [good_key]; rfl
  · rw [good_key]; rfl
  · rw [cryptoCheck, good_key_usable _ rfl rfl]; rfl

/-- ActivationProceeds: in service, in Recovery; draining and reloading, with the port microcode the same and changed. -/
theorem meets_ActivationProceeds :
    (let s := updating { state := .verified };
      inService s = true ∧ s.fwu.state = .verified ∧ stepBusy s = false ∧ beginDue s = false ∧ s.mod.pwrHold = false ∧ s.fwu.ownerLock = false) ∧
    (let s := recovering { state := .verified };
      s.mod.st = .recovery ∧ s.fwu.state = .verified ∧ stepBusy s = false ∧ beginDue s = false ∧ s.mod.pwrHold = false ∧ s.fwu.ownerLock = false
      ∧ subsumed true s = false ∧ outranked (if retires (timesWithReset s) then 2 else 5) s = false) ∧
    slotOf (updating { act := .draining, slot1 := some goodImage }).fwu 1 = some goodImage ∧
    (updating { act := .draining }).doors.all (fun d => d.2.rings.all fun q => q.2.opened.all fun e => !e.dispatched || !e.counted) = true ∧
    (let i : Image := ⟨zeros 4⟩
      let s := updating { act := .reloading, slot0 := some i, active := some i };
      s.fwu.act = .reloading ∧ componentChanged s.fwu 5 = false) ∧
    (let s := updating { act := .reloading };
      s.fwu.act = .reloading ∧ componentChanged s.fwu 5 = true ∧ (∀ p, p < 16 → (port s p).st = .disabled)
      ∧ subsumed true s = false ∧ outranked (if retires (timesWithReset s) then 2 else 5) s = false) :=
  ⟨by decide +kernel, by decide +kernel, rfl, by decide +kernel, ⟨rfl, by simp [componentChanged, updating, slotOf]⟩, by decide +kernel⟩

/-- PldmUpdate: before and after RequestUpdate; a short first part and a whole image; a verified one; and a state that CancelUpdate leaves. -/
theorem meets_PldmUpdate :
    inService (updating {}) = true ∧ (updating {}).fwu.state = .idle ∧
    (let f := (updating { requested := true, tablePassed := true }).fwu; f.requested = true ∧ f.tablePassed = true ∧ f.state = .idle ∧ f.ownerLock = false) ∧
    (let f := (updating { state := .staging, overMctp := true }).fwu; f.state = .staging ∧ f.overMctp = true ∧ (f.received ++ zeros 1).length < 4096) ∧
    (4096 ≤ goodBytes.length ∧ fieldAt goodBytes 14 2 = 1 ∧ 4096 + 65568 * 1 ≤ goodBytes.length
      ∧ arrivalCheck ⟨goodBytes.take (4096 + 65568 * 1)⟩ = none ∧ headerBad (4096 + 65568) ⟨([] : List Byte).take (4096 + 65568)⟩ = true
      ∧ headerBad goodBytes.length goodImage = false) ∧
    (let s := updating { state := .verified }; stepBusy s = false ∧ beginDue s = false ∧ s.mod.pwrHold = false) := by
  refine ⟨by decide +kernel, rfl, by decide +kernel, by decide +kernel, ?_, by decide +kernel⟩
  rw [goodBytes_length, List.take_of_length_le (by rw [goodBytes_length])]
  refine ⟨by omega, ?_, by omega, good_arrives, by decide +kernel, by have h := good_header; rwa [goodBytes_length] at h⟩
  rw [fieldAt, goodBytes, image_low _ 14 2 (by omega)]
  decide +kernel

/-- FlagsClearOnOnes and EventCountersClearOnZero: every block takes writes, and the worn bits do. -/
theorem meets_FlagsAndEventCounters : canonical served = true ∧ inService served = true ∧
    (∀ b ∈ Block.all, bar0Takes served (b.base + b.statusAt) = true ∧ bar0Takes served (b.base + b.evtAt) = true) := by decide +kernel

/-- RegistersKeepTheirRanges: context 1 of the physical function; a narrow write of a wide register, and an offset that is not aligned. -/
theorem meets_RegistersKeepTheirRanges : canonical served = true ∧ inService served = true ∧ (1 : Fin 16) ≠ 0 ∧ functionOf served 1 = (0 : Fin 16).val ∧ resetting served 1 = false ∧
    ((BitVec.ofNat 26 rRdxTimer0).toNat = rRdxTimer0 ∧ (BitVec.ofNat 26 rRdxTimer0).toNat % 4 = 0) ∧ (3#26).toNat % 4 ≠ 0 ∧ (16 : Fin 16384).val ≥ 16 := by
  decide +kernel

/-- FabricAddressAndEnables: no port enabled, and one; an address, with MIN_LANES at both ends. -/
theorem meets_FabricAddressAndEnables :
    canonical served = true ∧ inService served = true ∧ reg served rOptCtrl % 65536 = 0 ∧ reg (setReg rOptCtrl 0x00010001 served) rOptCtrl % 65536 ≠ 0 ∧
    selfAddr served = 0 ∧ selfAddr (linked { st := .up }) ≠ 0 ∧ canonical (linked { st := .up }) = true ∧ inService (linked { st := .up }) = true ∧
    (0x00010001 : Word).toNat / 65536 % 16 = 1 ∧ (0x00080000 : Word).toNat / 65536 % 16 = 8 := by decide +kernel

/-- DrawerMapsWrittenOrStaged: the last aligned places of both widths, with a step in progress and without; a width and a place that are not. -/
theorem meets_DrawerMapsWrittenOrStaged :
    canonical served = true ∧ inService served = true ∧ executingStep served 1 = false ∧
    (let s := stepping awaiting []; canonical s = true ∧ inService s = true ∧ executingStep s 1 = true) ∧
    ((2044 : Fin 2048).val % (zeros 4).length = 0 ∧ (zeros 4).length = 4) ∧ ((2040 : Fin 2048).val % (zeros 8).length = 0 ∧ (zeros 8).length = 8) ∧
    (zeros 3).length ≠ 4 ∧ (zeros 3).length ≠ 8 ∧ (2046 : Fin 2048).val % (zeros 4).length ≠ 0 := by decide +kernel

/-- CapabilityListReads: in service and in Booting. -/
theorem meets_CapabilityListReads : (0 : Fin 16).val ≤ served.vfs ∧ bar0Answers served 0x100 = true ∧
    bar0Answers (bootingAt .filling) 0x100 = true ∧ (∀ k, k < 0x40 → reg served (0x100 + k) = regReset (0x100 + k)) ∧ (bootingAt .filling).mod.st = .booting := by decide +kernel

/-! ## Single rules and the whole block -/

/-- ResetTimesRetire: in `meets_DeviceResetsBootOrRetire` the resets; here a Retired module. -/
theorem meets_ResetTimesRetire : ({ served with mod := { served.mod with st := .retired } } : State).mod.st = .retired := rfl

/-- ExtremaAndComparisons: a smaller and a larger value. -/
theorem meets_ExtremaAndComparisons : (XVal.fin true 1 1).lt (.fin false 1 1) = true ∧ (XVal.fin false 1 1).lt (.fin false 2 1) = true := by
  decide +kernel

/-- PartsTileTheBucket: the ends of the range of parts; the last element. -/
theorem meets_PartsTileTheBucket : 1 ≤ 1 ∧ 1 ≤ 64 ∧ 64 ≤ 64 ∧ 9999 < 10000 := by decide

/-- The machine right after reset has the invariant, and a module in service has. -/
theorem reset_inv : Safety.Inv State.reset := ⟨by decide +kernel, by decide +kernel, by decide +kernel, by decide +kernel⟩
theorem served_inv : Safety.Inv served := ⟨by decide +kernel, by decide +kernel, by decide +kernel, by decide +kernel⟩

/-- TimePassesOnAnEmptyQueue: no command waits. -/
theorem meets_TimePassesOnAnEmptyQueue : State.reset.pending = [] ∧ served.pending = [] := ⟨rfl, rfl⟩

/-- CommandsKeepWhatTheyDoNotName and OnlyTheseEventsClear: a fence mark and the owner lock that a command clears, reset times that the
release clears, and the lock of the PLL. -/
theorem meets_OnlyTheseEventsClear :
    (let s := { served with mod := { served.mod with mark0 := true, mark1 := true, mark2 := true } }; exec .standbyPowerLost s = .next (after .standbyPowerLost s)
      ∧ s.mod.fenceMark = true ∧ (after .standbyPowerLost s).mod.fenceMark = false) ∧
    (let s := { served with mod := { served.mod with st := .retired, resetTimes := [4, 3, 2, 1] } }; exec .releaseRetirement s = .next (after .releaseRetirement s)
      ∧ s.mod.resetTimes ≠ [] ∧ (after .releaseRetirement s).mod.resetTimes = []) ∧
    (let s := { standing 0 false false with fwu := { ownerLock := true } }; exec .clearOwnerLock s = .next (after .clearOwnerLock s)
      ∧ s.fwu.ownerLock = true ∧ (after .clearOwnerLock s).fwu.ownerLock = false) ∧
    (let s := { bootingAt .pllLocking with mod := { (bootingAt .pllLocking).mod with devTime := 9 } }; exec .rootPllLocked s = .next (after .rootPllLocked s)
      ∧ (after .rootPllLocked s).mod.devTime ≠ s.mod.devTime) :=
  ⟨⟨rfl, by decide +kernel, by decide +kernel⟩, ⟨rfl, by decide +kernel, by decide +kernel⟩, ⟨rfl, by decide +kernel, by decide +kernel⟩,
    rfl, by decide +kernel⟩

/-! ## What well-formedness refuses: for each check a command that fails it beside one that passes -/

theorem smoke_record : (Instr.writeProvisioningRecord (zeros 3903)).wellFormed = false ∧ (Instr.writeProvisioningRecord (zeros 3904)).wellFormed = true := by
  simp only [Instr.wellFormed, recordSized, zeros, List.length_replicate]; decide
theorem smoke_timer : (Instr.throttleSourceTimer false false).wellFormed = false ∧ (Instr.throttleSourceTimer false true).wellFormed = true := by decide
theorem smoke_host : (Instr.bar2Write 0 []).wellFormed = false ∧ (Instr.bar2Write 0 [1]).wellFormed = true := by decide
theorem smoke_vfs : (Instr.vfEnableSet 0).wellFormed = false ∧ (Instr.vfEnableSet 15).wellFormed = true := by decide
theorem smoke_descriptor : (Instr.descriptorFetch 1 0 (.data (zeros 63))).wellFormed = false
    ∧ (Instr.descriptorFetch 1 0 (.data (zeros 64))).wellFormed = true := by decide
theorem smoke_deviations : (Instr.drwConversionDone 0 [(1, 2), (0, 3)]).wellFormed = false
    ∧ (Instr.drwConversionDone 0 [(0, 3), (1, 2)]).wellFormed = true := by decide
theorem smoke_array : (Instr.drwMapWrite 1 2 (zeros 4)).wellFormed = false ∧ (Instr.drwMapWrite 1 4 (zeros 3)).wellFormed = false
    ∧ (Instr.drwMapWrite 1 4 (zeros 4)).wellFormed = true := by decide
theorem smoke_codes : codesListed [(0, List.replicate 63 5)] = false ∧ codesListed [(1024, List.replicate 64 5)] = false
    ∧ codesListed [(0, List.replicate 64 5)] = true := by decide
theorem smoke_part : (Instr.firmwareData []).wellFormed = false ∧ (Instr.firmwareData [1]).wellFormed = true := by decide
theorem smoke_flit : (Instr.idleFlitReceived 0 (zeros 255)).wellFormed = false ∧ (Instr.idleFlitReceived 0 (zeros 256)).wellFormed = true := by
  simp only [Instr.wellFormed, flitSized, zeros, List.length_replicate]; decide
theorem smoke_waves : perWave 8 = false ∧ perWave 9 = true := by decide
theorem smoke_dies : (Instr.calReq 1 (List.replicate 7 0)).wellFormed = false ∧ (Instr.calReq 1 (List.replicate 8 0)).wellFormed = true := by decide

/-! ## Single steps, with results worked out from the spec by hand -/

/-- R26: a step takes the front command only. -/
theorem test_step_front : (match step { State.reset with pending := [.standbyPowerApplied 3, .standbyPowerLost] } with
    | .next t => decide (t.mod.st = .standby) && decide (t.mod.sa = 3) && decide (t.pending = [.standbyPowerLost])
    | _ => false) = true := by decide +kernel

/-- R19: device time stands still without the root PLL, while Nightstand's counts. -/
theorem test_idle_standby : (match step { State.reset with mod := { State.reset.mod with st := .standby, devTime := 5 } } with
    | .next t => decide (t.mod.devTime = 5) && decide (t.mod.nstNs = 1)
    | _ => false) = true := by decide +kernel

/-- R326: nothing is written in Booting. -/
theorem test_booting_ignores : (after (.registerWrite 0 (BitVec.ofNat 26 rDrsIlimitDefault) false 9) (bootingAt .filling)).regs = (bootingAt .filling).regs := by
  decide +kernel

end Sys2Proof.Tests
end

/-!
SUPPORT. Port states: which operations of the fabric leave every port in its state, and what enabling and disabling ports does
(R302 to R304, Table 9.6).
-/
namespace Sys2Proof.Machine
open Sys2Proof.Safety

/-- The state of every port. -/
def portStates (s : State) (p : Nat) : PortState := (port s p).st

theorem portStates_of_ports {s t : State} (h : t.opt.ports = s.opt.ports) : portStates t = portStates s := by
  funext p; unfold portStates port; rw [h]

/-- What leaves the ports alone leaves their states alone. -/
theorem portStates_of_keeps {F : Nat} {s t : State} (h : Keeps F s t) (hF : F.testBit 20 = false) : portStates t = portStates s :=
  portStates_of_ports (h.frame .ports hF)

@[simp] theorem portStates_bump (off n : Nat) (s : State) : portStates (bump off n s) = portStates s := rfl
@[simp] theorem portStates_emit (o : Out) (s : State) : portStates (emit o s) = portStates s := rfl
@[simp] theorem portStates_setReg (off v : Nat) (s : State) : portStates (setReg off v s) = portStates s := rfl
@[simp] theorem portStates_setFlag (b : Block) (i : Nat) (s : State) : portStates (setFlag b i s) = portStates s := rfl
@[simp] theorem portStates_logLink (code p lane : Nat) (s : State) : portStates (logLink code p lane s) = portStates s := rfl
@[simp] theorem portStates_activationEnd (s : State) : portStates (activationEnd s) = portStates s := rfl

theorem portStates_modPort (p : Nat) (f : Port → Port) (s : State) :
    portStates (modPort p f s) = Function.update (portStates s) p (f (port s p)).st := by
  funext q
  unfold portStates
  rw [port_modPort]
  by_cases h : q = p
  · subst h; simp
  · simp [h]

/-- A change of a port that is none of its state. -/
theorem portStates_modPort_same (p : Nat) (f : Port → Port) (s : State) (h : ∀ q, (f q).st = q.st) :
    portStates (modPort p f s) = portStates s := by
  rw [portStates_modPort, h]; exact Function.update_eq_self p (portStates s)

/-! ## Packets and flits leave every port in its state -/

@[simp] theorem portStates_sendFlit (p h : Nat) (payload : List Byte) (s : State) : portStates (sendFlit p h payload s) = portStates s :=
  portStates_modPort_same _ _ _ fun _ => rfl

@[simp] theorem portStates_tellPeer (p code arg : Nat) (s : State) : portStates (tellPeer p code arg s) = portStates s := by
  unfold tellPeer; split
  · rfl
  · exact portStates_sendFlit ..

@[simp] theorem portStates_sendData (p : Nat) (f : SentFlit) (s : State) : portStates (sendData p f s) = portStates s := portStates_sendFlit ..

theorem afterNew_st (q : Port) (f : SentFlit) : (q.afterNew f).st = q.st := by unfold Port.afterNew; split <;> rfl

@[simp] theorem portStates_pump (p : Nat) (s : State) : portStates (pump p s) = portStates s := by
  unfold pump
  generalize (((port s p).queue0 ++ (port s p).queue1).map fun k => flitCount k.bytes).sum = n
  induction n generalizing s with
  | zero => rfl
  | succ n ih =>
    rw [pumpLoop]
    split
    · rfl
    · split
      · rfl
      · rw [ih, portStates_modPort_same _ _ _ fun q => afterNew_st q.turn _, portStates_sendData]

/-- A packet put at the end of its channel's queue leaves the port in its state. -/
theorem enqueue_st (k : Packet) (q : Port) :
    (if k.vc = 1 then { q with queue1 := q.queue1 ++ [k] } else { q with queue0 := q.queue0 ++ [k] } : Port).st = q.st := by
  split <;> rfl

@[simp] theorem portStates_queueOn (p : Nat) (k : Packet) (s : State) : portStates (queueOn p k s) = portStates s := by
  unfold queueOn
  rw [portStates_pump, portStates_modPort_same _ _ _ (enqueue_st k)]

@[simp] theorem portStates_dropNoRoute (k : Packet) (s : State) : portStates (dropNoRoute k s) = portStates s :=
  portStates_of_keeps (F := 0x40004000800002) (dropNoRoute_keeps k s) rfl

@[simp] theorem portStates_routePacket (k : Packet) (s : State) : portStates (routePacket k s) = portStates s := by
  unfold routePacket
  dsimp only
  split
  · split <;> rfl
  · split
    · exact portStates_dropNoRoute ..
    · exact portStates_queueOn ..

@[simp] theorem portStates_requeue (p : Nat) (ks : List Packet) (s : State) : portStates (requeue p ks s) = portStates s := by
  unfold requeue
  dsimp only
  rw [foldl_same portStates]
  · split
    · rfl
    · split
      · exact foldl_same portStates _ (fun s k => portStates_queueOn _ k s) _ s
      · rfl
  · intro s k
    split
    · exact portStates_modPort_same _ _ _ (enqueue_st k)
    · exact portStates_routePacket k s

@[simp] theorem portStates_breakTransit (p vc : Nat) (s : State) : portStates (breakTransit p vc s) = portStates s := by
  unfold breakTransit
  split
  · rfl
  · rw [portStates_pump, portStates_modPort_same]
    exact fun _ => rfl

@[simp] theorem portStates_breakArrivals (p : Nat) (s : State) : portStates (breakArrivals p s) = portStates s := by
  simp [breakArrivals]

@[simp] theorem portStates_dropWaiting (p : Nat) (s : State) : portStates (dropWaiting p s) = portStates s :=
  portStates_modPort_same _ _ _ fun _ => rfl

/-! ## Links lost and trained -/

theorem portStates_leaveLink (p : Nat) (st : PortState) (s : State) :
    portStates (leaveLink p st s) = Function.update (portStates s) p st := by
  unfold leaveLink
  dsimp only
  have h (b : Bool) (ks : List Packet) (x : State) :
      portStates (if b then requeue p ks x else bump cOptNoRoute ks.length x) = portStates x := by cases b <;> simp
  by_cases hst : st = .training <;> simp [hst, h, portStates_modPort]

theorem not_disabled_of_live {q : Port} (h : q.live = true) : q.st ≠ .disabled := by
  rintro e; simp [Port.live, Port.usable, e] at h

theorem not_training_of_live {q : Port} (h : q.live = true) : q.st ≠ .training := by
  rintro e; simp [Port.live, Port.usable, e] at h

theorem portStates_linkLost (p code : Nat) (s : State) :
    portStates (linkLost p code s) = if (port s p).live then Function.update (portStates s) p .training else portStates s := by
  unfold linkLost
  cases (port s p).live
  · rfl
  · simp only [Bool.not_true, Bool.false_eq_true, if_false, if_true]
    rw [portStates_leaveLink, portStates_modPort_same, portStates_logLink, portStates_setFlag]
    exact fun _ => rfl

theorem portStates_startTraining (p : Nat) (s : State) : portStates (startTraining p s) = Function.update (portStates s) p .training := by
  unfold startTraining
  rw [portStates_tellPeer, portStates_modPort]

theorem portStates_reloadPort (p : Nat) (s : State) (h : portStates s p ≠ .disabled) :
    portStates (reloadPort p s) = Function.update (portStates s) p .training := by
  have hr : portStates (retrainPort p s) = Function.update (portStates s) p .training := by
    unfold retrainPort
    by_cases hl : (port s p).live
    · rw [if_pos hl, portStates_linkLost, if_pos hl]
    · rw [if_neg hl, if_neg (show (port s p).st ≠ .disabled from h), portStates_startTraining]
  unfold reloadPort
  dsimp only
  split
  · rw [portStates_modPort_same, hr]
    exact fun _ => rfl
  · exact hr

/-! ## Ports at rest -/

/-- The port is Disabled or in Training: nothing but its enable bit moves it while the links of other ports change. -/
def AtRest (s : State) (p : Nat) : Prop := portStates s p = .disabled ∨ portStates s p = .training

/-- Every port at rest stays as it is. -/
def KeepsRest (s t : State) : Prop := ∀ p, AtRest s p → portStates t p = portStates s p

theorem KeepsRest.of_eq {s t : State} (h : portStates t = portStates s) : KeepsRest s t := fun p _ => by rw [h]

theorem KeepsRest.trans {s x t : State} (h : KeepsRest s x) (k : KeepsRest x t) : KeepsRest s t := fun p hp => by
  have hx : AtRest x p := by unfold AtRest; rw [h p hp]; exact hp
  rw [k p hx, h p hp]

/-- Training begun on a port that is not Disabled. -/
theorem KeepsRest.of_training {s t : State} (p : Nat) (h : portStates s p ≠ .disabled)
    (ht : portStates t = Function.update (portStates s) p .training) : KeepsRest s t := fun q hq => by
  rw [ht]
  by_cases e : q = p
  · subst e; rw [Function.update_self]; exact (hq.resolve_left h).symm
  · rw [Function.update_of_ne e]

theorem linkLost_keepsRest (p code : Nat) (s : State) : KeepsRest s (linkLost p code s) := by
  by_cases h : (port s p).live
  · exact .of_training p (not_disabled_of_live h) (by rw [portStates_linkLost, if_pos h])
  · exact .of_eq (by rw [portStates_linkLost, if_neg h])

theorem checkLanes_keepsRest (p : Nat) (s : State) : KeepsRest s (checkLanes p s) := by
  unfold checkLanes
  dsimp only
  split
  · exact linkLost_keepsRest p _ s
  · exact .of_eq rfl

theorem reloadFrom_keepsRest (l : List Nat) (s : State) : KeepsRest s (reloadFrom l s) := by
  induction l generalizing s with
  | nil => exact .of_eq rfl
  | cons p ps ih =>
    rw [reloadFrom]
    split
    · exact ih s
    · next h => exact .of_training p h (portStates_reloadPort p { s with fwu := { s.fwu with portsLeft := p :: ps } } h)

theorem portReloaded_keepsRest (p : Nat) (s : State) : KeepsRest s (portReloaded p s) := by
  unfold portReloaded
  split
  · exact reloadFrom_keepsRest _ s
  · exact .of_eq rfl

/-! ## Ports follow their enable bits -/

/-- What a write of OPT_CTRL does for one port. -/
def followPort (en : Nat) (s : State) (p : Nat) : State := checkLanes p (followEnable en p s)

/-- A port that is not enabled is Disabled. -/
theorem followPort_disables (en : Nat) (s : State) (p : Nat) (h : en.testBit p = false) :
    portStates (followPort en s p) p = .disabled := by
  have hf : portStates (followEnable en p s) p = .disabled := by
    unfold followEnable
    rw [h, if_neg Bool.false_ne_true]
    split
    · next hd => exact hd
    · have hl : portStates (leaveLink p .disabled s) p = .disabled := by rw [portStates_leaveLink, Function.update_self]
      exact (portReloaded_keepsRest p _ p (.inl hl)).trans hl
  exact (checkLanes_keepsRest p _ p (.inl hf)).trans hf

/-- A Disabled port that is enabled trains; one in Training goes on. -/
theorem followPort_trains (en : Nat) (s : State) (p : Nat) (h : en.testBit p = true) (hs : AtRest s p) :
    portStates (followPort en s p) p = .training := by
  have hf : portStates (followEnable en p s) p = .training := by
    unfold followEnable
    rw [if_pos h]
    split
    · rw [portStates_startTraining, Function.update_self]
    · next hd => exact hs.resolve_left hd
  exact (checkLanes_keepsRest p _ p (.inr hf)).trans hf

/-- The enable bit of another port leaves a port at rest as it is. -/
theorem followPort_other (en : Nat) (s : State) (p q : Nat) (h : q ≠ p) (hs : AtRest s q) :
    portStates (followPort en s p) q = portStates s q := by
  have hf : portStates (followEnable en p s) q = portStates s q := by
    unfold followEnable
    split
    · split
      · rw [portStates_startTraining, Function.update_of_ne h]
      · rfl
    · split
      · rfl
      · have hl : portStates (leaveLink p .disabled s) q = portStates s q := by rw [portStates_leaveLink, Function.update_of_ne h]
        have hr : AtRest (leaveLink p .disabled s) q := by unfold AtRest; rw [hl]; exact hs
        rw [portReloaded_keepsRest p _ q hr, hl]
  have hr : AtRest (followEnable en p s) q := by unfold AtRest; rw [hf]; exact hs
  exact (checkLanes_keepsRest p _ q hr).trans hf

/-- A port that is not enabled and Disabled stays so. -/
theorem followPort_stays_disabled (en : Nat) (s : State) (p q : Nat) (h : en.testBit q = false) (hs : portStates s q = .disabled) :
    portStates (followPort en s p) q = .disabled := by
  by_cases e : q = p
  · subst e; exact followPort_disables en s q h
  · rw [followPort_other en s p q e (.inl hs), hs]

/-- An enabled port in Training stays so. -/
theorem followPort_stays_training (en : Nat) (s : State) (p q : Nat) (h : en.testBit q = true) (hs : portStates s q = .training) :
    portStates (followPort en s p) q = .training := by
  by_cases e : q = p
  · subst e; exact followPort_trains en s q h (.inr hs)
  · rw [followPort_other en s p q e (.inr hs), hs]

/-- An enabled port stays at rest. -/
theorem followPort_stays_atRest (en : Nat) (s : State) (p q : Nat) (h : en.testBit q = true) (hs : AtRest s q) :
    AtRest (followPort en s p) q := by
  by_cases e : q = p
  · subst e; exact .inr (followPort_trains en s q h hs)
  · unfold AtRest; rw [followPort_other en s p q e hs]; exact hs

/-- After every port has followed its bit, those that are not enabled are Disabled. -/
theorem foldl_followPort_disabled (en : Nat) (l : List Nat) (s : State) (p : Nat) (hp : p ∈ l) (h : en.testBit p = false) :
    portStates (l.foldl (followPort en) s) p = .disabled := by
  obtain ⟨l₁, l₂, rfl⟩ := List.append_of_mem hp
  rw [List.foldl_append, List.foldl_cons]
  exact foldl_keeps (fun t => portStates t p = .disabled) _ (fun t a ht => followPort_stays_disabled en t a p h ht) l₂ _
    (followPort_disables en _ p h)

/-- After every port has followed its bit, those that were Disabled and are enabled train. -/
theorem foldl_followPort_training (en : Nat) (l : List Nat) (s : State) (p : Nat) (hp : p ∈ l) (h : en.testBit p = true)
    (hs : portStates s p = .disabled) : portStates (l.foldl (followPort en) s) p = .training := by
  obtain ⟨l₁, l₂, rfl⟩ := List.append_of_mem hp
  rw [List.foldl_append, List.foldl_cons]
  have h₁ : AtRest (l₁.foldl (followPort en) s) p :=
    foldl_keeps (fun t => AtRest t p) _ (fun t a ht => followPort_stays_atRest en t a p h ht) l₁ s (.inl hs)
  exact foldl_keeps (fun t => portStates t p = .training) _ (fun t a ht => followPort_stays_training en t a p h ht) l₂ _
    (followPort_trains en _ p h h₁)

/-- Ports that follow their bits leave every register alone. -/
theorem foldl_followPort_regs (en : Nat) (l : List Nat) (s : State) : (l.foldl (followPort en) s).regs = s.regs :=
  foldl_same State.regs _ (fun s p => by
    have h : Keeps 0x40084012900022 s (followPort en s p) := (followEnable_keeps en p s).trans (checkLanes_keeps p _)
    exact h.frame .registers rfl) l s

end Sys2Proof.Machine

/-!
SUPPORT. Writes of registers that have no command of their own (R6, R324), of a context's Drawer map (R80), and reads of the
capability list (R345, R347).
-/
namespace Sys2Proof.Machine
open Sys2Proof.Safety

/-! ## Fields of a word -/

/-- A mask acts on the low `k` bits and on those above apart from one another. -/
theorem land_split (v a b k : Nat) (ha : a < 2 ^ k) :
    v &&& (2 ^ k * b + a) = 2 ^ k * (v / 2 ^ k &&& b) + (v % 2 ^ k &&& a) := by
  have hlow : v % 2 ^ k &&& a < 2 ^ k := Nat.lt_of_le_of_lt Nat.and_le_right ha
  refine Nat.eq_of_testBit_eq fun i => ?_
  rw [Nat.testBit_and, Nat.testBit_two_pow_mul_add _ ha, Nat.testBit_two_pow_mul_add _ hlow]
  by_cases h : i < k
  · simp [h, Nat.testBit_mod_two_pow]
  · simp [h, Nat.testBit_div_two_pow, Nat.not_lt.mp h]

theorem bitmapOf_testBit (l : List Nat) (i : Nat) : (bitmapOf l).testBit i = decide (i ∈ l) := by
  have h (m : Nat) : (l.foldl (fun m k => m ||| 2 ^ k) m).testBit i = (m.testBit i || decide (i ∈ l)) := by
    induction l generalizing m with
    | nil => simp
    | cons k l ih =>
      rw [List.foldl_cons, ih, Nat.testBit_or, Nat.testBit_two_pow]
      by_cases e : k = i
      · simp [e]
      · simp [e, Ne.symm e]
  exact (h 0).trans (by simp)

/-! ## Accesses -/

/-- Rings are serviced in Ready, Running and Fenced (Table 1.7). -/
theorem inService_cases {s : State} (h : inService s = true) : s.mod.st = .ready ∨ s.mod.st = .running ∨ s.mod.st = .fenced := by
  unfold inService at h
  generalize s.mod.st = st at h ⊢
  cases st <;> simp_all

/-- In service every offset takes a write. -/
theorem bar0Takes_of_inService {s : State} (h : inService s = true) (off : Nat) : bar0Takes s off = true := by
  rcases inService_cases h with e | e | e <;> simp [bar0Takes, bar0Answers, e]

/-- What a refused access does: it is counted and flagged, and changes no register, page, port or map. -/
structure Refused (s t : State) : Prop where
  counted : Counted s t cHifBadAccess 1
  flagged : flagUp t .hif 1 = true
  regs : t.regs = s.regs
  doors : t.doors = s.doors
  opt : t.opt = s.opt
  maps : t.maps = s.maps
  staged : t.stagedMaps = s.stagedMaps

theorem badAccess_refused (fn off : Nat) (bar2 write : Bool) (cause : Nat) (s : State) : Refused s (badAccess fn off bar2 write cause s) := by
  have hc : Counted s (setFlag .hif 1 (bump cHifBadAccess 1 s)) cHifBadAccess 1 := counted_bump ..
  have hf : flagUp (setFlag .hif 1 (bump cHifBadAccess 1 s)) .hif 1 = true := by rw [flagUp_setFlag _ _ _ _ _ (by decide)]; simp
  unfold badAccess logBadAccess
  split <;> exact ⟨hc, hf, rfl, rfl, rfl, rfl, rfl⟩

theorem toNat_offset {off : Nat} (h : off < 2 ^ 26) : (BitVec.ofNat 26 off).toNat = off := by
  rw [BitVec.toNat_ofNat, Nat.mod_eq_of_lt h]

theorem arrayWrite_eq_none {off : Nat} (h : off < 0x0610000 ∨ 0x0620000 ≤ off ∧ off < 0x0A00400) (n v : Nat) : arrayWrite off n v = none := by
  unfold arrayWrite
  dsimp only [rNstScan, rRdxCtx]
  rw [if_neg (by omega), if_neg (by omega)]

/-- What a write of 64 or of 32 bits brings. -/
def writtenValue (wide : Bool) (value : DWord) : Nat := if wide then value.toNat else value.toNat % 2 ^ 32

/-- Offsets of registers outside the doorbell pages and below the per-context registers of RDX_. -/
def plainWindow (off : Nat) : Prop := off < 0x0100000 ∨ 0x0110000 ≤ off ∧ off < 0x0610000

/-- A misaligned write is refused. -/
theorem registerWrite_misaligned (off : BitVec 26) (value : DWord) (s : State) (hs : inService s = true) (ho : off.toNat % 4 ≠ 0) :
    exec (.registerWrite 0 off false value) s = .next (badAccess 0 off.toNat false true 1 s) := by
  show execRegisterWrite 0 off false value s = _
  unfold execRegisterWrite
  simp [bar0Takes_of_inService hs, ho]

/-- What a write outside the doorbell pages and the arrays does: refused where its width is wrong, and else the register takes its
value. -/
theorem registerWrite_plain (off : Nat) (wide : Bool) (value : DWord) (s : State) (hs : inService s = true) (hw : plainWindow off)
    (ha : off % 8 = 0 ∨ wide = false ∧ off % 4 = 0) :
    exec (.registerWrite 0 (BitVec.ofNat 26 off) wide value) s =
      if wrongWidth (registerWide s) off wide then .next (badAccess 0 off false true 1 s)
      else .next (((plainValue s off (writtenValue wide value)).map fun e => setReg off e.2 s).getD s) := by
  unfold plainWindow at hw
  show execRegisterWrite 0 (BitVec.ofNat 26 off) wide value s = _
  have hd : inDoors off = false := by simp [inDoors]; omega
  have hn : off % (if wide then 8 else 4) = 0 := by
    rcases ha with h | ⟨rfl, h⟩
    · cases wide
      · exact (by omega : off % 4 = 0)
      · exact h
    · exact h
  unfold execRegisterWrite
  dsimp only
  rw [toNat_offset (by omega), bar0Takes_of_inService hs, arrayWrite_eq_none (by omega), if_neg (by simp), if_neg (not_not_intro hn), hd,
    if_neg (by simp), if_neg (by simp)]
  dsimp only
  rw [if_neg (by omega)]
  refine if_congr Iff.rfl rfl ?_
  unfold writtenValue
  cases plainValue s off (if wide then value.toNat else value.toNat % 2 ^ 32) with
  | none => rfl
  | some e => exact congrArg _ (if_neg (by dsimp only [rNstCtrl]; omega))

/-- A plain register of the width of the write takes its value. -/
theorem registerWrite_completes {off x : Nat} {wide : Bool} {value : DWord} {s : State} (hs : inService s = true) (hw : plainWindow off)
    (ha : off % 8 = 0 ∨ wide = false ∧ off % 4 = 0) (hr : wrongWidth (registerWide s) off wide = false)
    (hv : plainValue s off (writtenValue wide value) = some (wide, x)) (hx : x < 2 ^ 64) :
    Completes (.registerWrite 0 (BitVec.ofNat 26 off) wide value) s fun t => reg t off = x := by
  refine ⟨setReg off x s, ?_, (reg_setReg off x s off hx).trans (if_pos rfl)⟩
  rw [registerWrite_plain off wide value s hs hw ha, hr, hv]
  rfl

/-- The width of a register is right for a write of 64 bits, and for one of 32 bits that is not the upper half of a wider register. -/
theorem wrongWidth_eq_false {width : Nat → Option Bool} {off : Nat} {wide : Bool} (h : width off = some wide)
    (hu : wide = false → off % 8 = 4 → width (off - 4) ≠ some true) : wrongWidth width off wide = false := by
  unfold wrongWidth
  rw [h]
  cases wide
  · simpa using hu rfl
  · rfl

theorem registerWide_of_plainValue {s : State} {off x : Nat} {wide : Bool} (h : plainValue s off 0 = some (wide, x)) :
    registerWide s off = some wide := by unfold registerWide; rw [h]; rfl

/-- A write of a 64-bit register, or of a 32-bit register at a multiple of 8. -/
theorem wrongWidth_plain {s : State} {off x : Nat} {wide : Bool} (h : plainValue s off 0 = some (wide, x)) (hu : wide = true ∨ off % 8 = 0) :
    wrongWidth (registerWide s) off wide = false :=
  wrongWidth_eq_false (registerWide_of_plainValue h) fun hw hm => by
    subst hw
    cases hu with
    | inl h => cases h
    | inr h => omega

/-! ## What the plain registers keep of a value -/

theorem plainValue_hifQuota (s : State) (n v : Nat) (h : 1 ≤ n) (hn : n < 16) :
    plainValue s (rHifQuota n) v = some (false, min 4096 (v % 8192)) := by
  unfold plainValue
  dsimp only [rHifCtrl, rCapNext, rHifQuota]
  repeat rw [if_neg (by omega)]
  rw [if_pos (by omega)]

theorem plainValue_plnLagLimit (s : State) (n v : Nat) (hn : n < 16) : plainValue s (rPlnLagLimit n) v = some (false, v % 256) := by
  unfold plainValue
  dsimp only [rHifCtrl, rCapNext, rHifQuota, rDrwCtrl, rDrwWornLimit, rMemDsel, rPlnCtrl, rPlnLagLimit]
  repeat rw [if_neg (by omega)]
  rw [if_pos (by omega)]

theorem plainValue_trsExtBase (s : State) (n v : Nat) (hn : n < 16) : plainValue s (rTrsExtBase n) v = some (true, v / 32 * 32) := by
  unfold plainValue
  dsimp only [rHifCtrl, rCapNext, rHifQuota, rDrwCtrl, rDrwWornLimit, rMemDsel, rPlnCtrl, rPlnLagLimit, rTrsCtrl, rTrsWdogDefault,
    rDrsWdogDefault, rTrsExtBase]
  repeat rw [if_neg (by omega)]
  rw [if_pos (by omega)]

theorem plainValue_drsIlimitDefault (s : State) (v : Nat) :
    plainValue s rDrsIlimitDefault v = some (false, if v = 0 then reg s rDrsIlimitDefault else v) := rfl

theorem plainValue_rdxTimer0 (s : State) (v : Nat) : plainValue s rRdxTimer0 v = some (true, timer0Value (reg s rRdxTimer0) v) := rfl

theorem plainValue_rdxTimer1 (s : State) (v : Nat) : plainValue s rRdxTimer1 v = some (false, timer1Value (reg s rRdxTimer1) v) := rfl

/-- Before a quota register stands no 64-bit register. -/
theorem registerWide_before_hifQuota (s : State) (n : Nat) (h : 1 ≤ n) (hn : n < 16) : registerWide s (rHifQuota n - 4) = some false := by
  by_cases e : n = 1
  · subst e; rfl
  · rw [show rHifQuota n - 4 = rHifQuota (n - 1) by dsimp only [rHifQuota]; omega]
    exact registerWide_of_plainValue (plainValue_hifQuota s (n - 1) 0 (by omega) (by omega))

theorem reg_lt (s : State) (off : Nat) (h : regReset off < 2 ^ 64) : reg s off < 2 ^ 64 := by
  unfold reg
  split
  · exact BitVec.isLt _
  · exact h

theorem timer1Value_eq (old v : Nat) :
    timer1Value old (v % 2 ^ 32) = if 100 ≤ v % 65536 ∧ v % 65536 ≤ 10000 ∧ 1 ≤ v / 65536 % 65536 ∧ v / 65536 % 65536 ≤ 1000
      then v % 2 ^ 32 else old := by
  have hlow : bitsOf (v % 2 ^ 32) 15 0 = v % 65536 := by unfold bitsOf; omega
  have hhigh : bitsOf (v % 2 ^ 32) 31 16 = v / 65536 % 65536 := by unfold bitsOf; omega
  unfold timer1Value
  rw [hlow, hhigh]

/-! ## One lemma for each register -/

theorem hifQuota_written (value : DWord) (s : State) (hs : inService s = true) (n : Fin 16) (h : n ≠ 0) :
    Completes (.registerWrite 0 (BitVec.ofNat 26 (rHifQuota n)) false value) s fun t => reg t (rHifQuota n) = min 4096 (value.toNat % 8192) := by
  have hn : 1 ≤ n.val := Nat.one_le_iff_ne_zero.mpr fun e => h (Fin.ext e)
  refine registerWrite_completes hs (by dsimp only [plainWindow, rHifQuota]; omega) (.inr ⟨rfl, by dsimp only [rHifQuota]; omega⟩)
    (wrongWidth_eq_false (registerWide_of_plainValue (plainValue_hifQuota s n 0 hn n.isLt)) fun _ _ => ?_) ?_ (by omega)
  · rw [registerWide_before_hifQuota s n hn n.isLt]; simp
  · rw [plainValue_hifQuota s n _ hn n.isLt, show writtenValue false value % 8192 = value.toNat % 8192 from Nat.mod_mod_of_dvd _ (by decide)]

theorem plnLagLimit_written (value : DWord) (s : State) (hs : inService s = true) (n : Fin 16) :
    Completes (.registerWrite 0 (BitVec.ofNat 26 (rPlnLagLimit n)) false value) s fun t => reg t (rPlnLagLimit n) = value.toNat % 256 := by
  refine registerWrite_completes hs (by dsimp only [plainWindow, rPlnLagLimit]; omega) (.inl (by dsimp only [rPlnLagLimit]; omega))
    (wrongWidth_plain (plainValue_plnLagLimit s n 0 n.isLt) (.inr (by dsimp only [rPlnLagLimit]; omega))) ?_ (by omega)
  rw [plainValue_plnLagLimit s n _ n.isLt, show writtenValue false value % 256 = value.toNat % 256 from Nat.mod_mod_of_dvd _ (by decide)]

theorem trsExtBase_written (value : DWord) (s : State) (hs : inService s = true) (n : Fin 16) :
    Completes (.registerWrite 0 (BitVec.ofNat 26 (rTrsExtBase n)) true value) s fun t => reg t (rTrsExtBase n) = value.toNat / 32 * 32 :=
  registerWrite_completes hs (by dsimp only [plainWindow, rTrsExtBase]; omega) (.inl (by dsimp only [rTrsExtBase]; omega))
    (wrongWidth_plain (plainValue_trsExtBase s n 0 n.isLt) (.inl rfl)) (plainValue_trsExtBase s n _ n.isLt)
    (Nat.lt_of_le_of_lt (Nat.div_mul_le_self ..) value.isLt)

theorem drsIlimitDefault_written (value : DWord) (s : State) (hs : inService s = true) :
    Completes (.registerWrite 0 (BitVec.ofNat 26 rDrsIlimitDefault) false value) s fun t =>
      reg t rDrsIlimitDefault = if value.toNat % 2 ^ 32 = 0 then reg s rDrsIlimitDefault else value.toNat % 2 ^ 32 := by
  refine registerWrite_completes hs (.inr (by decide)) (.inl rfl) (wrongWidth_plain (plainValue_drsIlimitDefault s 0) (.inr rfl))
    (plainValue_drsIlimitDefault s _) ?_
  split
  · exact reg_lt s _ (by decide)
  · omega

theorem rdxTimer1_written (value : DWord) (s : State) (hs : inService s = true) :
    Completes (.registerWrite 0 (BitVec.ofNat 26 rRdxTimer1) false value) s fun t =>
      reg t rRdxTimer1 = if 100 ≤ value.toNat % 65536 ∧ value.toNat % 65536 ≤ 10000 ∧ 1 ≤ value.toNat / 65536 % 65536
        ∧ value.toNat / 65536 % 65536 ≤ 1000 then value.toNat % 2 ^ 32 else reg s rRdxTimer1 := by
  refine registerWrite_completes hs (.inr (by decide)) (.inl rfl) (wrongWidth_plain (plainValue_rdxTimer1 s 0) (.inr rfl)) ?_ ?_
  · rw [plainValue_rdxTimer1, ← timer1Value_eq]; rfl
  · split
    · omega
    · exact reg_lt s _ (by decide)

/-- A write of 32 bits to RDX_TIMER0, of 64 bits, or one that is not aligned, is refused. -/
theorem registerWrite_refused (off : BitVec 26) (value : DWord) (s : State) (hs : inService s = true)
    (ho : off.toNat = rRdxTimer0 ∧ off.toNat % 4 = 0 ∨ off.toNat % 4 ≠ 0) :
    exec (.registerWrite 0 off false value) s = .next (badAccess 0 off.toNat false true 1 s) := by
  rcases ho with ⟨ho, -⟩ | ho
  · obtain rfl : off = BitVec.ofNat 26 rRdxTimer0 := BitVec.eq_of_toNat_eq ho
    have hw : wrongWidth (registerWide s) rRdxTimer0 false = true := by
      unfold wrongWidth; rw [registerWide_of_plainValue (plainValue_rdxTimer0 s 0)]; rfl
    rw [registerWrite_plain rRdxTimer0 false value s hs (.inr (by decide)) (.inl rfl), hw]
    rfl
  · exact registerWrite_misaligned off value s hs ho

/-- OPT_PEERi keeps VALID, the port bits and the address of what is written. -/
theorem optPeer_written (value : DWord) (s : State) (hs : inService s = true) (i : Fin 16384) (hi : 16 ≤ i.val) :
    Completes (.registerWrite 0 (BitVec.ofNat 26 (0x0780000 + 8 * i)) true value) s fun t =>
      tabGet 0 t.opt.peers i = value &&& 0x8000000FFFFFFFFF := by
  refine ⟨writePeer i value.toNat s, ?_, ?_⟩
  · show execRegisterWrite 0 _ true value s = _
    have hd : inDoors (0x0780000 + 8 * i.val) = false := by simp [inDoors]; omega
    unfold execRegisterWrite
    dsimp only
    rw [toNat_offset (by omega), bar0Takes_of_inService hs, arrayWrite_eq_none (by omega), hd, if_neg (by simp), if_neg (by simp),
      if_neg (by simp), if_neg (by simp)]
    dsimp only
    rw [if_pos (by omega), if_pos rfl, if_pos rfl, show (0x0780000 + 8 * i.val - 0x0780000) / 8 = i.val by omega]
  · show tabGet 0 (tabSet 0 s.opt.peers i (BitVec.ofNat 64 (value.toNat &&& 0x8000000FFFFFFFFF))) i = _
    rw [tabGet_tabSet_same]
    refine BitVec.eq_of_toNat_eq ?_
    rw [BitVec.toNat_ofNat, BitVec.toNat_and, Nat.mod_eq_of_lt (Nat.lt_of_le_of_lt Nat.and_le_left value.isLt)]
    rfl

/-- The function of a context writes a ring's base, while the ring is not enabled. -/
theorem ringBase_written (value : DWord) (s : State) (hs : inService s = true) (fn ctx : Fin 16) (ring : Fin 8) (hc : ctx ≠ 0)
    (hf : functionOf s ctx = fn) (hr : resetting s ctx = false) :
    Completes (.registerWrite fn (BitVec.ofNat 26 (0x0100000 + 0x1000 * ctx + 0x40 * ring)) true value) s fun t =>
      ringOf t ctx ring = if (ringOf s ctx ring).enable then ringOf s ctx ring
        else { ringOf s ctx ring with base := value.toNat / 64 * 64 } := by
  have hc' : ctx.val ≠ 0 := fun e => hc (Fin.ext e)
  have hpage : (0x0100000 + 0x1000 * ctx.val + 0x40 * ring.val - 0x0100000) / 0x1000 = ctx.val := by omega
  have hreg : (0x0100000 + 0x1000 * ctx.val + 0x40 * ring.val) % 0x1000 = 0x40 * ring.val := by omega
  have hd : inDoors (0x0100000 + 0x1000 * ctx.val + 0x40 * ring.val) = true := by simp [inDoors]; omega
  have hww : wrongWidth doorWide (0x40 * ring.val) true = false :=
    wrongWidth_eq_false (by unfold doorWide; rw [if_pos (by omega), if_pos (by omega)]) fun h => by cases h
  have hb : doorBase (0x40 * ring.val) = true := by simp [doorBase]; omega
  have hdw : doorWritable s fn ctx = true := by simp [doorWritable, doorBound, hs, hc', hf, hr]
  refine ⟨modRing ctx ring (fun q => if q.enable then q else { q with base := value.toNat / 64 * 64 }) s, ?_, ?_⟩
  · show execRegisterWrite fn _ true value s = _
    unfold execRegisterWrite
    dsimp only
    rw [toNat_offset (by omega), bar0Takes_of_inService hs, hpage, hreg, hd, hww, hb, hdw, if_neg (by simp), if_neg (by simp; omega), if_pos rfl,
      if_neg (by simp), if_neg (by simp)]
    unfold writeDoor
    rw [if_neg (by omega), if_pos (by omega), show 0x40 * ring.val / 0x40 = ring.val by omega]
    rfl
  · exact (ringOf_modRing ..).trans (if_pos ⟨rfl, rfl⟩)

end Sys2Proof.Machine

/-!
SUPPORT and the statement on registers and maps: writes of OPT_SELF and OPT_CTRL (R303, R311), of a Drawer map (R80), reads of the
capability list (R321, R345, R347).
-/
namespace Sys2Proof.Machine
open Sys2Proof.Safety

/-! ## OPT_SELF and OPT_CTRL (R303, R311) -/

theorem optSelf_written (value : Word) (s : State) (hs : inService s = true) (h : reg s rOptCtrl % 65536 = 0) :
    Completes (.optSelfWrite value) s fun t => reg t rOptSelf = value.toNat % 2 ^ 20 := by
  refine ⟨setReg rOptSelf (value.toNat % 2 ^ 20) s, ?_, (reg_setReg _ _ s _ (by omega)).trans (if_pos rfl)⟩
  show execOptSelfWrite value s = _
  unfold execOptSelfWrite
  simp [hs, h]

theorem optSelf_kept (value : Word) (s : State) (h : reg s rOptCtrl % 65536 ≠ 0) : exec (.optSelfWrite value) s = .next s := by
  show execOptSelfWrite value s = _
  unfold execOptSelfWrite
  simp [h]

/-- The fields of OPT_CTRL above the port enables. -/
theorem optCtrl_upper (v : Nat) :
    v &&& 0x0F7F0000 = bitsOf v 19 16 * 65536 + bitsOf v 22 20 * 2 ^ 20 + bitsOf v 27 24 * 2 ^ 24 := by
  have h₁ := land_split v 0 0x0F7F 16 (by decide)
  have h₂ := land_split (v / 2 ^ 16) 0x7F 0xF 8 (by decide)
  have h₃ := Nat.and_two_pow_sub_one_eq_mod (v / 2 ^ 16 % 2 ^ 8) 7
  have h₄ := Nat.and_two_pow_sub_one_eq_mod (v / 2 ^ 16 / 2 ^ 8) 4
  norm_num at h₁ h₂ h₃ h₄
  rw [h₁, h₂, h₃, h₄]
  unfold bitsOf
  omega

theorem optCtrl_mask (v : Nat) : v &&& 0x0F7FFFFF = v % 65536 + (v &&& 0x0F7F0000) := by
  have h₁ := land_split v 0xFFFF 0x0F7F 16 (by decide)
  have h₂ := land_split v 0 0x0F7F 16 (by decide)
  have h₃ := Nat.and_two_pow_sub_one_eq_mod (v % 2 ^ 16) 16
  norm_num at h₁ h₂ h₃
  rw [h₁, h₂, h₃]
  omega

/-- OPT_CTRL takes every field but the port enables of a module without an address. -/
theorem optCtrlValue_eq (s : State) (v : Nat) (hlo : 1 ≤ v / 65536 % 16) (hhi : v / 65536 % 16 ≤ 8) :
    optCtrlValue s v = (if selfAddr s = 0 then reg s rOptCtrl % 65536 else v % 65536) + (v &&& 0x0F7F0000) := by
  have hl : bitsOf v 19 16 = v / 65536 % 16 := rfl
  unfold optCtrlValue
  rw [optCtrl_upper v, hl]
  dsimp only
  rw [if_pos (⟨hlo, hhi⟩ : 1 ≤ v / 65536 % 16 ∧ v / 65536 % 16 ≤ 8), Nat.add_assoc, Nat.add_assoc, Nat.add_assoc]

/-- A write of OPT_CTRL in service: the register takes its value, and the ports follow their enable bits. -/
theorem exec_optCtrlWrite (value : Word) (s : State) (hs : inService s = true) :
    exec (.optCtrlWrite value) s = .next ((List.range 16).foldl (followPort (optCtrlValue s value.toNat % 65536))
      (setReg rOptCtrl (optCtrlValue s value.toNat) s)) := by
  show execOptCtrlWrite value s = _
  unfold execOptCtrlWrite
  rw [hs]
  rfl

theorem reg_of_regs {s t : State} (h : t.regs = s.regs) (off : Nat) : reg t off = reg s off := by unfold reg; rw [h]

theorem reg_foldl_followPort (en v : Nat) (s : State) (hv : v < 2 ^ 64) :
    reg ((List.range 16).foldl (followPort en) (setReg rOptCtrl v s)) rOptCtrl = v := by
  rw [reg_of_regs (foldl_followPort_regs ..), reg_setReg _ _ _ _ hv, if_pos rfl]

/-- A module without an address keeps its port enables. -/
theorem optCtrl_written_unaddressed (value : Word) (s : State) (hs : inService s = true) (ha : selfAddr s = 0)
    (hlo : 1 ≤ value.toNat / 65536 % 16) (hhi : value.toNat / 65536 % 16 ≤ 8) :
    Completes (.optCtrlWrite value) s fun t => reg t rOptCtrl = reg s rOptCtrl % 65536 + (value.toNat &&& 0x0F7F0000) := by
  refine ⟨_, exec_optCtrlWrite value s hs, ?_⟩
  have hle : value.toNat &&& 0x0F7F0000 ≤ 0x0F7F0000 := Nat.and_le_right
  rw [optCtrlValue_eq s _ hlo hhi, if_pos ha]
  exact reg_foldl_followPort _ _ s (by omega)

/-- A module with an address takes the port enables, and each port follows its own. -/
theorem optCtrl_written_addressed (value : Word) (s : State) (hs : inService s = true) (ha : selfAddr s ≠ 0)
    (hlo : 1 ≤ value.toNat / 65536 % 16) (hhi : value.toNat / 65536 % 16 ≤ 8) :
    Completes (.optCtrlWrite value) s fun t =>
      reg t rOptCtrl = value.toNat &&& 0x0F7FFFFF
        ∧ (∀ p, p < 16 → value.toNat.testBit p = false → (port t p).st = .disabled)
        ∧ (∀ p, p < 16 → value.toNat.testBit p = true → (port s p).st = .disabled → (port t p).st = .training) := by
  refine ⟨_, exec_optCtrlWrite value s hs, ?_⟩
  have hle : value.toNat &&& 0x0F7FFFFF ≤ 0x0F7FFFFF := Nat.and_le_right
  have hv : optCtrlValue s value.toNat = value.toNat &&& 0x0F7FFFFF := by
    rw [optCtrlValue_eq s _ hlo hhi, if_neg ha, optCtrl_mask]
  have hen : optCtrlValue s value.toNat % 65536 = value.toNat % 2 ^ 16 := by
    rw [optCtrlValue_eq s _ hlo hhi, if_neg ha, optCtrl_upper]
    omega
  have hbit (p : Nat) (hp : p < 16) : (value.toNat % 2 ^ 16).testBit p = value.toNat.testBit p := by
    rw [Nat.testBit_mod_two_pow, decide_eq_true hp, Bool.true_and]
  rw [hen, hv]
  refine ⟨reg_foldl_followPort _ _ _ (by omega), fun p hp h => ?_, fun p hp h hd => ?_⟩
  · exact foldl_followPort_disabled _ _ _ p (List.mem_range.mpr hp) ((hbit p hp).trans h)
  · exact foldl_followPort_training _ _ _ p (List.mem_range.mpr hp) ((hbit p hp).trans h) hd

/-! ## Drawer maps (R80) -/

/-- A bit of a map given a value. -/
theorem getLsbD_assign (m : BitVec 16384) (c : Bool) (k d : Nat) (hd : d < 16384) :
    (if c then m ||| (1 : BitVec 16384) <<< k else m &&& ~~~((1 : BitVec 16384) <<< k)).getLsbD d = if d = k then c else m.getLsbD d := by
  have hbit : ((1 : BitVec 16384) <<< k).getLsbD d = decide (d = k) := by
    rw [BitVec.getLsbD_shiftLeft, decide_eq_true hd, Bool.true_and, show (1 : BitVec 16384) = 1#16384 from rfl, BitVec.getLsbD_one,
      Bool.eq_iff_iff]
    simp
    omega
  cases c
  · rw [if_neg Bool.false_ne_true, BitVec.getLsbD_and, BitVec.getLsbD_not, hbit, decide_eq_true hd]
    by_cases e : d = k <;> simp [e]
  · rw [if_pos rfl, BitVec.getLsbD_or, hbit]
    by_cases e : d = k <;> simp [e]

/-- Bit `b` of byte `i` of a map takes its value, or 0 where its Drawer is retired. -/
def mapBit (s : State) (i : Nat) (v : Byte) (m : BitVec 16384) (b : Nat) : BitVec 16384 :=
  if v.getLsbD b && !(drawer s (8 * i + b)).retired then m ||| (1 : BitVec 16384) <<< (8 * i + b)
  else m &&& ~~~((1 : BitVec 16384) <<< (8 * i + b))

theorem foldl_mapBit_getLsbD (s : State) (i : Nat) (v : Byte) (m : BitVec 16384) (d n : Nat) (hd : d < 16384) (hn : n ≤ 8) :
    ((List.range n).foldl (mapBit s i v) m).getLsbD d =
      if d / 8 = i ∧ d % 8 < n then v.getLsbD (d % 8) && !(drawer s d).retired else m.getLsbD d := by
  induction n with
  | zero => rw [if_neg (by omega)]; rfl
  | succ n ih =>
    rw [List.range_succ, List.foldl_append, List.foldl_cons, List.foldl_nil, mapBit, getLsbD_assign _ _ _ _ hd, ih (by omega)]
    by_cases e : d = 8 * i + n
    · rw [if_pos e, if_pos (by omega), show d % 8 = n by omega, e]
    · rw [if_neg e]
      exact if_congr (by omega) rfl rfl

/-- A byte of a map takes its value, but for the bits of retired Drawers. -/
theorem mapByte_getLsbD (s : State) (i : Nat) (v : Byte) (m : BitVec 16384) (d : Nat) (hd : d < 16384) :
    (mapByte s i v m).getLsbD d = if d / 8 = i then v.getLsbD (d % 8) && !(drawer s d).retired else m.getLsbD d :=
  (foldl_mapBit_getLsbD s i v m d 8 hd (Nat.le_refl 8)).trans (if_congr (by omega) rfl rfl)

/-- The bytes of a write from byte `off` on, each with its place. -/
def placedBytes (off : Nat) (bytes : List Byte) : List (Nat × Byte) :=
  (bytes.zip (List.range bytes.length)).map fun e => (off + e.2, e.1)

theorem placedBytes_concat (off : Nat) (bs : List Byte) (b : Byte) :
    placedBytes off (bs ++ [b]) = placedBytes off bs ++ [(off + bs.length, b)] := by
  unfold placedBytes
  rw [List.length_append, List.length_singleton, List.range_succ, List.zip_append (by simp), List.map_append]
  rfl

theorem byteAt_concat (bs : List Byte) (b : Byte) (k : Nat) (h : k ≤ bs.length) :
    byteAt (bs ++ [b]) k = if k = bs.length then b else byteAt bs k := by
  unfold byteAt
  split
  · next e => subst e; simp
  · rw [List.getD_append _ _ _ _ (by omega)]

/-- A map after the bytes of a write. -/
theorem foldl_mapByte_getLsbD (s : State) (off : Nat) (bytes : List Byte) (m : BitVec 16384) (d : Nat) (hd : d < 16384) :
    ((placedBytes off bytes).foldl (fun m e => mapByte s e.1 e.2 m) m).getLsbD d =
      if off ≤ d / 8 ∧ d / 8 < off + bytes.length then (byteAt bytes (d / 8 - off)).getLsbD (d % 8) && !(drawer s d).retired
      else m.getLsbD d := by
  induction bytes using List.reverseRecOn with
  | nil => rw [if_neg (by simp)]; rfl
  | append_singleton bs b ih =>
    rw [placedBytes_concat, List.foldl_append, List.foldl_cons, List.foldl_nil, mapByte_getLsbD _ _ _ _ _ hd, ih, List.length_append,
      List.length_singleton]
    by_cases e : d / 8 = off + bs.length
    · rw [if_pos e, if_pos (by omega), byteAt_concat _ _ _ (by omega), if_pos (by omega)]
    · rw [if_neg e]
      by_cases h : off ≤ d / 8 ∧ d / 8 < off + bs.length
      · rw [if_pos h, if_pos (by omega), byteAt_concat _ _ _ (by omega), if_neg (by omega)]
      · rw [if_neg h, if_neg (by omega)]

/-- The staged bytes of a map after the bytes of a write. -/
theorem foldl_staged_get (off : Nat) (bytes : List Byte) (m : Tab (Option Byte)) (k : Nat) (hlo : off ≤ k) (hhi : k < off + bytes.length) :
    tabGet none ((placedBytes off bytes).foldl (fun t e => tabSet none t e.1 (some e.2)) m) k = some (byteAt bytes (k - off)) := by
  induction bytes using List.reverseRecOn with
  | nil => exact absurd hhi (by simpa using hlo)
  | append_singleton bs b ih =>
    rw [List.length_append, List.length_singleton] at hhi
    rw [placedBytes_concat, List.foldl_append, List.foldl_cons, List.foldl_nil, byteAt_concat _ _ _ (by omega)]
    by_cases e : k = off + bs.length
    · subst e; rw [tabGet_tabSet_same, if_pos (by omega)]
    · rw [tabGet_tabSet_ne _ _ _ _ _ e, ih (by omega), if_neg (by omega)]

/-- An aligned write of 4 or 8 bytes is a write of the map. -/
theorem exec_drwMapWrite_aligned (ctx : Fin 16) (off : Fin 2048) (bytes : List Byte) (s : State) (hs : inService s = true)
    (hl : bytes.length = 4 ∨ bytes.length = 8) (ha : off.val % bytes.length = 0) :
    exec (.drwMapWrite ctx off bytes) s = .next (writeMap ctx off bytes s) := by
  show execDrwMapWrite ctx off bytes s = _
  unfold execDrwMapWrite
  have h : ((bytes.length == 4 || bytes.length == 8) && off.val % bytes.length == 0) = true := by
    rw [ha]; rcases hl with h | h <;> rw [h] <;> rfl
  rw [hs, h]
  rfl

/-- Any other write of a map is refused. -/
theorem exec_drwMapWrite_refused (ctx : Fin 16) (off : Fin 2048) (bytes : List Byte) (s : State) (hs : inService s = true)
    (h : bytes.length ≠ 4 ∧ bytes.length ≠ 8 ∨ off.val % bytes.length ≠ 0) :
    exec (.drwMapWrite ctx off bytes) s = .next (badAccess 0 (mapBase ctx + off) false true 1 s) := by
  show execDrwMapWrite ctx off bytes s = _
  unfold execDrwMapWrite
  have hb : ((bytes.length == 4 || bytes.length == 8) && off.val % bytes.length == 0) = false := by
    rcases h with ⟨h₄, h₈⟩ | h
    · rw [beq_false_of_ne h₄, beq_false_of_ne h₈]; rfl
    · rw [beq_false_of_ne h, Bool.and_false]
  rw [hs, hb]
  rfl

/-- Outside a step a write of a map takes effect at once. -/
theorem writeMap_in_force (ctx off : Nat) (bytes : List Byte) (s : State) (he : executingStep s ctx = false) :
    writeMap ctx off bytes s =
      { s with maps := tabSet 0 s.maps ctx ((placedBytes off bytes).foldl (fun m e => mapByte s e.1 e.2 m) (mapOf s ctx)) } := by
  unfold writeMap
  rw [he]
  rfl

/-- During a step of the context a write of its map is staged. -/
theorem writeMap_staged (ctx off : Nat) (bytes : List Byte) (s : State) (he : executingStep s ctx = true) :
    writeMap ctx off bytes s = { s with
      stagedMaps := tabMod [] s.stagedMaps ctx fun t => (placedBytes off bytes).foldl (fun t e => tabSet none t e.1 (some e.2)) t } := by
  unfold writeMap
  rw [he]
  rfl

theorem drwMap_written (ctx : Fin 16) (off : Fin 2048) (bytes : List Byte) (s : State) (hs : inService s = true)
    (hl : bytes.length = 4 ∨ bytes.length = 8) (ha : off.val % bytes.length = 0) (he : executingStep s ctx = false) :
    Completes (.drwMapWrite ctx off bytes) s fun t =>
      (∀ d, d < 16384 → (mapOf t ctx).getLsbD d =
        if off.val ≤ d / 8 ∧ d / 8 < off.val + bytes.length then (byteAt bytes (d / 8 - off)).getLsbD (d % 8) && !(drawer s d).retired
        else (mapOf s ctx).getLsbD d)
      ∧ t.stagedMaps = s.stagedMaps ∧ (∀ c, c ≠ ctx.val → mapOf t c = mapOf s c) := by
  refine ⟨_, (exec_drwMapWrite_aligned ctx off bytes s hs hl ha).trans (congrArg _ (writeMap_in_force _ _ _ _ he)), fun d hd => ?_, rfl, fun c hc => ?_⟩
  · rw [← foldl_mapByte_getLsbD s off bytes _ d hd]
    unfold mapOf
    rw [tabGet_tabSet_same]
  · exact tabGet_tabSet_ne _ _ _ _ _ hc

theorem drwMap_staged (ctx : Fin 16) (off : Fin 2048) (bytes : List Byte) (s : State) (hs : inService s = true)
    (hl : bytes.length = 4 ∨ bytes.length = 8) (ha : off.val % bytes.length = 0) (he : executingStep s ctx = true) :
    Completes (.drwMapWrite ctx off bytes) s fun t =>
      t.maps = s.maps ∧ (∀ k, off.val ≤ k → k < off.val + bytes.length →
        tabGet none (tabGet [] t.stagedMaps ctx) k = some (byteAt bytes (k - off))) := by
  refine ⟨_, (exec_drwMapWrite_aligned ctx off bytes s hs hl ha).trans (congrArg _ (writeMap_staged _ _ _ _ he)), rfl, fun k hlo hhi => ?_⟩
  dsimp only
  rw [tabGet_tabMod_same, foldl_staged_get _ _ _ _ hlo hhi]

/-! ## The capability list (R321, R326, R345, R347) -/

/-- Where the first word of the list answers, the whole list does. -/
theorem bar0Answers_list {s : State} (h : bar0Answers s 0x100 = true) (off : Nat) (hlo : 0x100 ≤ off) (hhi : off < 0x1000) :
    bar0Answers s off = true := by
  unfold bar0Answers at h ⊢
  generalize s.mod.st = st at h ⊢
  cases st <;> simp_all

/-- In the first page every function reads what the physical function does. -/
theorem readOffset_list (s : State) (fn off : Nat) (hf : fn ≤ s.vfs) (h : off < 0x1000) : readOffset s fn off = some off := by
  unfold readOffset
  by_cases hz : fn = 0
  · rw [if_pos hz]
  · rw [if_neg hz, if_neg (by omega), if_pos h]

theorem arrayByte_list (s : State) (off : Nat) (h : off < 0x1000) : arrayByte s off = none := by
  unfold arrayByte
  dsimp only [rDrwWorn, rRdxCtx, rNstScan]
  repeat rw [if_neg (by omega)]

theorem no_status_in_list (off : Nat) (hlo : 0x100 ≤ off) (hhi : off < 0x1000) : statusBlock off = none ∧ evtBlock off = none := by
  unfold statusBlock evtBlock
  constructor <;> rw [List.find?_eq_none] <;> intro b _ <;> cases b <;>
    simp only [Block.base, Block.statusAt, Block.evtAt, beq_iff_eq] <;> omega

theorem registerRead_list (s : State) (off : Nat) (hlo : 0x100 ≤ off) (hhi : off < 0x1000) : registerRead s off = capRead s off := by
  obtain ⟨hst, hev⟩ := no_status_in_list off hlo hhi
  unfold registerRead
  rw [hst, hev, Nat.div_eq_of_lt (show off < 0x100000 by omega)]
  show hifRead s off = _
  unfold hifRead
  dsimp only [cHifPeak]
  rw [if_neg (by omega), if_neg (by omega), if_pos (by omega)]

/-- What a function reads of the capability list. -/
theorem bar0Read_list {s : State} {fn : Nat} (hf : fn ≤ s.vfs) (ha : bar0Answers s 0x100 = true) (off : Nat) (hlo : 0x100 ≤ off)
    (hhi : off < 0x1000) : bar0Read s fn off false = capRead s off % 2 ^ 32 := by
  unfold bar0Read
  rw [readOffset_list s fn off hf hhi]
  dsimp only
  rw [bar0Answers_list ha off hlo hhi, arrayByte_list s off hhi, registerRead_list s off hlo hhi]
  rfl

/-- The constant words of the list. -/
theorem bar0Read_constant {s : State} {fn : Nat} (hf : fn ≤ s.vfs) (ha : bar0Answers s 0x100 = true)
    (hr : ∀ off, 0x100 ≤ off → off < 0x140 → reg s off = regReset off) (off v : Nat)
    (h : 0x100 ≤ off ∧ off < 0x140 ∧ off ≠ 0x118 ∧ off ≠ 0x138 ∧ regReset off = v ∧ v < 2 ^ 32) : bar0Read s fn off false = v := by
  obtain ⟨hlo, hhi, hmod, hbind, hv, hlt⟩ := h
  rw [bar0Read_list hf ha off hlo (by omega)]
  unfold capRead
  rw [if_neg hmod, if_neg hbind, hr off hlo hhi, hv, Nat.mod_eq_of_lt hlt]

theorem bar0Read_module {s : State} {fn : Nat} (hf : fn ≤ s.vfs) (ha : bar0Answers s 0x100 = true) :
    bar0Read s fn 0x118 false = if Config.hbm512 then 1 + 512 * 2 ^ 16 else 384 * 2 ^ 16 := by
  rw [bar0Read_list hf ha 0x118 (by decide) (by decide)]
  show (if Config.hbm512 then 1 + 512 * 2 ^ 16 else 384 * 2 ^ 16) % 2 ^ 32 = _
  split <;> rfl

/-- BINDING shows the contexts bound to virtual functions. -/
theorem bar0Read_binding {s : State} {fn : Nat} (hf : fn ≤ s.vfs) (ha : bar0Answers s 0x100 = true) (n : Nat) (hn : n < 16) :
    (bar0Read s fn 0x138 false).testBit n = decide (functionOf s n ≠ 0) := by
  rw [bar0Read_list hf ha 0x138 (by decide) (by decide)]
  show (bitmapOf ((List.range 16).filter fun n => functionOf s n != 0) % 2 ^ 32).testBit n = _
  rw [Nat.testBit_mod_two_pow, bitmapOf_testBit]
  simp [hn, show n < 32 by omega]

/-- In Booting nothing but the first page answers. -/
theorem bar0Read_booting (s : State) (hb : s.mod.st = .booting) (off : Nat) (wide : Bool) (h : 0x1000 ≤ off) : bar0Read s 0 off wide = 0 := by
  have ha : bar0Answers s off = false := by
    unfold bar0Answers; rw [hb]; simp; omega
  unfold bar0Read readOffset
  rw [if_pos rfl]
  dsimp only
  rw [ha]
  rfl

/-! ## The statement -/

/-- Settles O27: each register keeps the writable bits of what is written or its old value, the ports follow their enable bits, a map
write takes effect or is staged, and the capability list reads as Table 10.9. -/
theorem registersAndMaps : Obligations.RegistersAndMaps := by
  unfold Obligations.RegistersAndMaps
  refine ⟨fun value s _ hs => ⟨hifQuota_written value s hs, plnLagLimit_written value s hs, trsExtBase_written value s hs,
      drsIlimitDefault_written value s hs, rdxTimer1_written value s hs, optPeer_written value s hs, ringBase_written value s hs,
      fun off ho => ?_⟩,
    fun value s _ hs => ⟨optSelf_written value s hs, optSelf_kept value s, optCtrl_written_unaddressed value s hs,
      optCtrl_written_addressed value s hs⟩,
    fun ctx off bytes s _ hs => ⟨fun hl ha => ⟨drwMap_written ctx off bytes s hs hl ha, drwMap_staged ctx off bytes s hs hl ha⟩, fun h => ?_⟩,
    fun fn s hf ha hr => ⟨fun e he => bar0Read_constant hf ha hr e.1 e.2 ?_, bar0Read_module hf ha, bar0Read_binding hf ha,
      fun hb off wide => bar0Read_booting s hb off wide⟩⟩
  · have h := badAccess_refused 0 off.toNat false true 1 s
    exact ⟨_, registerWrite_refused off value s hs ho, h.counted, h.flagged, h.regs, h.doors, h.opt⟩
  · have k := badAccess_refused 0 (mapBase ctx + off) false true 1 s
    exact ⟨_, exec_drwMapWrite_refused ctx off bytes s hs h, k.maps, k.staged, k.counted, k.flagged⟩
  · revert e he
    decide

end Sys2Proof.Machine

/-!
SUPPORT and the statements on the step: what every command keeps, taken from the laws of `Exec` (O1, O3, O4, O5), and which commands
clear what survives a reset (O7).
-/
namespace Sys2Proof.Machine
set_option Elab.async false
open Sys2Proof.Safety

/-! ## The invariant -/

/-- The canonical form, table by table. -/
theorem canonical_iff (s : State) : canonical s = true ↔
    (tabWf {} s.flags = true ∧ tabWf 0 s.cnt = true ∧ tabWf none s.regs = true ∧ tabWf {} s.doors = true ∧ Memory.wf s.mem = true
      ∧ tabWf {} s.trs = true ∧ tabWf {} s.drs = true ∧ tabWf {} s.steps = true ∧ tabWf {} s.drawers = true ∧ tabWf {} s.chests = true
      ∧ tabWf 0 s.maps = true ∧ tabWf [] s.stagedMaps = true ∧ tabWf {} s.cal.dies = true ∧ tabWf {} s.opt.ports = true
      ∧ tabWf {} s.opt.bays = true ∧ tabWf 0 s.opt.peers = true ∧ tabWf none s.opt.dropLogged = true ∧ tabWf {} s.rdx.groups = true
      ∧ tabWf {} s.rdx.units = true ∧ tabWf none s.rdx.replied = true ∧ (∀ e ∈ s.doors, pageWf e.2 = true)
      ∧ tabWf 0 s.nst.lastEnd = true ∧ tabWf 0 s.nst.filt = true ∧ tabWf false s.nst.seen = true ∧ tabWf 0 s.nst.buf = true
      ∧ tabWf false s.nst.ruleActive = true ∧ tabWf 0 s.nst.dwell = true ∧ tabWf none s.hif.resetting = true) := by
  simp only [canonical, Bool.and_eq_true, List.all_eq_true, and_assoc]

/-- Tables and memory that stay canonical leave the state canonical. -/
theorem canonical_of_tables {s t : State} (h : Tables s t) (hm : Memory.wf s.mem = true → Memory.wf t.mem = true)
    (hs : canonical s = true) : canonical t = true := by
  obtain ⟨flags, cnt, regs, doors, mem, trs, drs, steps, drawers, chests, maps, staged, dies, ports, bays, peers, dropped, groups, units,
    replied, pages, ends, filters, seen, buffer, active, dwell, resetting⟩ := (canonical_iff s).1 hs
  exact (canonical_iff t).2 ⟨h.flags flags, h.cnt cnt, h.regs regs, h.doors doors, hm mem, h.trs trs, h.drs drs, h.steps steps,
    h.drawers drawers, h.chests chests, h.maps maps, h.staged staged, h.dies dies, h.ports ports, h.bays bays, h.peers peers,
    h.dropped dropped, h.groups groups, h.units units, h.replied replied, h.pages pages, h.nstEnds ends, h.nstFilters filters,
    h.nstSeen seen, h.nstBuffer buffer, h.nstActive active, h.nstDwell dwell, h.resetting resetting⟩

theorem Safe.inv {F : Nat} {s t : State} (h : Safe F s t) (hs : Inv s) : Inv t := by
  obtain ⟨hc, hl, ht, hr⟩ := hs
  exact ⟨canonical_of_tables h.tabs h.mem hc, h.log hl, h.times ht, h.ready hr⟩

/-- A nanosecond that passes keeps the invariant: it moves the two times and the cycle counts. -/
theorem tick_inv (s : State) (hs : Inv s) : Inv (tick s) := by
  obtain ⟨hc, hl, ht, hr⟩ := hs
  exact ⟨canonical_of_tables (s := s) Tables.of id hc, hl, ht, hr⟩

/-- The invariant does not speak of the queue. -/
theorem inv_pending (s : State) (q : List Instr) (hs : Inv s) : Inv { s with pending := q } := hs

/-- A command keeps the invariant. -/
theorem exec_inv (c : Instr) (s : State) (hs : Inv s) : ∃ t, exec c s = .next t ∧ Inv t := by
  obtain ⟨t, e, h⟩ := exec_safe c s
  exact ⟨t, e, h.inv hs⟩

/-- Settles O5: an empty queue lets a nanosecond pass, which keeps the invariant; else the front command keeps it. -/
theorem stepsKeepTheInvariant : Obligations.StepsKeepTheInvariant := by
  unfold Obligations.StepsKeepTheInvariant
  intro s hs
  unfold step
  split
  · exact ⟨_, rfl, tick_inv s hs⟩
  · exact exec_inv _ _ (inv_pending s _ hs)

/-- Settles O1: a step takes the front command off the queue and runs it. -/
theorem stepRunsTheFrontCommand : Obligations.StepRunsTheFrontCommand := by
  unfold Obligations.StepRunsTheFrontCommand
  intro c rest s
  rfl

/-- Settles O3: every command goes on and leaves the queue as it is. -/
theorem everyCommandGoesOn : Obligations.EveryCommandGoesOn := by
  unfold Obligations.EveryCommandGoesOn
  intro c s
  obtain ⟨t, e, h⟩ := exec_safe c s
  exact ⟨t, e, h.queue⟩

/-- Settles O4: a part outside `changes` has its bit outside the set that the command's frame names. -/
theorem commandsKeepWhatTheyDoNotName : Obligations.CommandsKeepWhatTheyDoNotName := by
  unfold Obligations.CommandsKeepWhatTheyDoNotName
  intro c s t e p hp
  obtain ⟨u, eu, h⟩ := exec_safe c s
  cases e.symm.trans eu
  exact h.frame p (maskOf_out hp)

/-! ## What survives a reset -/

/-- From `s` to `t` no reset time, owner lock or minimum security version is lost and device time stands: what `Keeps` says of them, and
what ADMIT keeps too. -/
structure Retains (s t : State) : Prop where
  counted : s.mod.resetTimes ≠ [] → t.mod.resetTimes ≠ []
  lock : s.fwu.ownerLock = true → t.fwu.ownerLock = true
  svn : s.fwu.minSvn ≤ t.fwu.minSvn
  time : t.mod.devTime = s.mod.devTime

theorem Keeps.retains {F : Nat} {s t : State} (h : Keeps F s t) : Retains s t := ⟨h.counted, h.lock, h.svn, h.time⟩

theorem Retains.trans {s x t : State} (h : Retains s x) (k : Retains x t) : Retains s t :=
  ⟨fun w => k.counted (h.counted w), fun w => k.lock (h.lock w), h.svn.trans k.svn, k.time.trans h.time⟩

/-- Standby power leaves all that survives a reset as it is. -/
theorem execStandbyPowerApplied_retains (sa : Fin 8) (s : State) :
    ∃ t, execStandbyPowerApplied sa s = .next t ∧ Retains s t ∧ (s.mod.fenceMark = true → t.mod.fenceMark = true) := by
  unfold execStandbyPowerApplied
  split
  · extract_lets +onlyGivenNames m s1 s2
    have k1 : Keeps (2 ^ 64 - 1) { s with mod := { m with st := .standby, sa := sa, nstNs := 0, onOscillator := !s.mod.refclk } } s1 :=
      baysAtPower_keeps _
    have k := (k1.trans (nextConversion_keeps s1)).trans
      (Keeps.ite (c := s2.mod.refclk = true) (Keeps.refl s2) ((setFlag_keeps .pwr 1 s2).trans (setFlag_keeps .nst 3 _)))
    exact ⟨_, rfl, ⟨k.counted, k.lock, k.svn, k.time⟩, k.mark⟩
  · exact ⟨_, rfl, (Keeps.refl (F := 0) s).retains, id⟩

/-- The loss of standby power keeps the non-volatile store's lock and version. -/
theorem standbyLost_firmware (s : State) :
    (s.fwu.ownerLock = true → (standbyLost s).fwu.ownerLock = true) ∧ s.fwu.minSvn ≤ (standbyLost s).fwu.minSvn :=
  have k : Keeps (2 ^ 64 - 1) s (baysDark (powerDown s)) := (powerDown_keeps s).trans (baysDark_keeps _)
  ⟨k.lock, k.svn⟩

/-- ADMIT, which takes back the fence mark, retains the rest. -/
theorem execAdmit_retains (ctx : Fin 16) (s : State) : ∃ t, execAdmit ctx s = .next t ∧ Retains s t := by
  unfold execAdmit
  extract_lets +onlyGivenNames s0
  have h0 : Keeps (2 ^ 64 - 1) s s0 := Keeps.ite (whileWaiting_keeps _ _ _ fun _ _ => takeEpochNotice_keeps ..) (Keeps.refl s)
  clear_value s0
  split
  · exact ⟨_, rfl, h0.retains⟩
  split
  · exact ⟨_, rfl, (h0.trans (setAdmitResult_keeps ..)).retains⟩
  split
  · exact ⟨_, rfl, (h0.trans (setAdmitResult_keeps ..)).retains⟩
  extract_lets +onlyGivenNames cs m s1 s2 s3 s4
  have h1 : Retains s0 s1 := ⟨id, id, Nat.le_refl _, rfl⟩
  have h2 : Keeps (2 ^ 64 - 1) s1 s2 := Keeps.foldl (Keeps.refl s1) (fun y c => adoptNext_keeps ..) _
  have h3 : Keeps (2 ^ 64 - 1) s1 s3 := Keeps.foldl h2 (fun y c => sendNotices_keeps ..) _
  have h4 : Keeps (2 ^ 64 - 1) s1 s4 := h3.trans (modPair_keeps ..)
  exact ⟨_, rfl, (h0.retains.trans h1).trans ((h4.trans (sendHeartbeat_keeps ..)).trans (setAdmitResult_keeps ..)).retains⟩

/-- The release of retirement keeps the fence mark and device time, and the firmware's state. -/
theorem execReleaseRetirement_keepsRest (s t : State) (h : execReleaseRetirement s = .next t) :
    t.fwu = s.fwu ∧ t.mod.fenceMark = s.mod.fenceMark ∧ t.mod.devTime = s.mod.devTime := by
  unfold execReleaseRetirement at h
  repeat' split at h
  all_goals cases h; exact ⟨rfl, rfl, rfl⟩

/-- The lock of the root PLL keeps all but device time. -/
theorem execRootPllLocked_keepsRest (s t : State) (h : execRootPllLocked s = .next t) :
    t.fwu = s.fwu ∧ t.mod.fenceMark = s.mod.fenceMark ∧ t.mod.resetTimes = s.mod.resetTimes := by
  unfold execRootPllLocked at h
  split at h
  all_goals cases h; exact ⟨rfl, rfl, rfl⟩

/-- Command 0x07 keeps all but the lock. -/
theorem execClearOwnerLock_keepsRest (s t : State) (h : execClearOwnerLock s = .next t) :
    t.mod = s.mod ∧ t.fwu.minSvn = s.fwu.minSvn := by
  unfold execClearOwnerLock at h
  split at h
  all_goals cases h; exact ⟨rfl, rfl⟩

/-- What the statement asks of a command that retains everything but perhaps the fence mark. -/
theorem Retains.clearsNothing {s t : State} (h : Retains s t) {p q r : Prop} :
    (s.mod.resetTimes ≠ [] → t.mod.resetTimes = [] → p) ∧ (s.fwu.ownerLock = true → t.fwu.ownerLock = false → q)
      ∧ s.fwu.minSvn ≤ t.fwu.minSvn ∧ (t.mod.devTime ≠ s.mod.devTime → r) :=
  ⟨fun a b => absurd b (h.counted a), fun a b => absurd (h.lock a) (by simp [b]), h.svn, fun a => absurd h.time a⟩

/-- Settles O7: what `Keeps` says of every command but seven, and of those seven what each retains. -/
theorem onlyTheseEventsClear : Obligations.OnlyTheseEventsClear := by
  unfold Obligations.OnlyTheseEventsClear
  intro c s t e
  cases hc : startsOver c with
  | false =>
    obtain ⟨u, eu, k⟩ := exec_keeps c s hc
    cases e.symm.trans eu
    exact ⟨fun h h' => absurd (k.mark h) (by simp [h']), k.retains.clearsNothing⟩
  | true =>
    exact match c, hc, e with
    | .standbyPowerApplied sa, _, e => by
      obtain ⟨u, eu, k, m⟩ := execStandbyPowerApplied_retains sa s
      cases (show execStandbyPowerApplied sa s = .next t from e).symm.trans eu
      exact ⟨fun h h' => absurd (m h) (by simp [h']), k.clearsNothing⟩
    | .standbyPowerLost, _, e => by
      cases e
      obtain ⟨l, v⟩ := standbyLost_firmware s
      exact ⟨fun _ _ => .inl rfl, fun _ _ => .inl rfl, fun h h' => absurd (l h) (by simp [h']), v, fun _ => .inl rfl⟩
    | .inputOvervoltage, _, e => by
      cases e
      obtain ⟨l, v⟩ := standbyLost_firmware s
      exact ⟨fun _ _ => .inr (.inl rfl), fun _ _ => .inr (.inl rfl), fun h h' => absurd (l h) (by simp [h']), v, fun _ => .inr (.inl rfl)⟩
    | .releaseRetirement, _, e => by
      obtain ⟨f, m, d⟩ := execReleaseRetirement_keepsRest s t e
      rw [f, m, d]
      exact ⟨fun h h' => absurd h (by simp [h']), fun _ _ => .inr (.inr rfl), fun h h' => absurd h (by simp [h']), Nat.le_refl _,
        fun h => absurd rfl h⟩
    | .rootPllLocked, _, e => by
      obtain ⟨f, m, r⟩ := execRootPllLocked_keepsRest s t e
      rw [f, m, r]
      exact ⟨fun h h' => absurd h (by simp [h']), fun h h' => absurd h' h, fun h h' => absurd h (by simp [h']), Nat.le_refl _,
        fun _ => .inr (.inr rfl)⟩
    | .clearOwnerLock, _, e => by
      obtain ⟨m, v⟩ := execClearOwnerLock_keepsRest s t e
      rw [m, v]
      exact ⟨fun h h' => absurd h (by simp [h']), fun h h' => absurd h' h, fun _ _ => rfl, Nat.le_refl _, fun h => absurd rfl h⟩
    | .rdxAdmit n, _, e => by
      obtain ⟨u, eu, k⟩ := execAdmit_retains n s
      cases (show execAdmit n s = .next t from e).symm.trans eu
      exact ⟨fun _ _ => .inr (.inr ⟨n, rfl⟩), k.clearsNothing⟩

end Sys2Proof.Machine

/-!
SUPPORT and the statement on power (O13): what the removal of main power leaves (R450, Table 3.4), what each power command does
(R445, R447, R448, R452, R458), and the entries of Standby.
-/
namespace Sys2Proof.Machine
set_option Elab.async false
open Sys2Proof.Safety

/-! ## The removal of main power -/

/-- The removal of the rails changes only their list and what leaves the module. -/
theorem removeRails_eq (s : State) : ∃ rs os, removeRails s = { s with mod := { s.mod with rails := rs }, out := os } := by
  unfold removeRails
  generalize s.mod.rails.reverse = l
  induction l generalizing s with
  | nil => exact ⟨s.mod.rails, s.out, rfl⟩
  | cons r l ih => exact ih _

/-- What is left of a module whose main power is removed: no rail, no clock, no work, nothing in memory; what retention SRAM, the
non-volatile store and the log hold stays. -/
structure PoweredDown (s t : State) : Prop where
  pwrGood : t.mod.pwrGood = false
  pll : t.mod.pllLocked = false
  cells : t.mem.cells = []
  doors : t.doors = []
  st : t.mod.st = s.mod.st
  mark : t.mod.fenceMark = s.mod.fenceMark
  times : t.mod.resetTimes = s.mod.resetTimes
  refclk : t.mod.refclk = s.mod.refclk
  oscillator : t.mod.onOscillator = s.mod.onOscillator
  rtab : t.mem.rtab = s.mem.rtab
  log : t.log = s.log ∧ t.logProd = s.logProd
  selector : t.fwu.selector = s.fwu.selector
  lock : t.fwu.ownerLock = s.fwu.ownerLock
  record : t.fwu.record = s.fwu.record
  flags : ∀ b ∈ [Block.nst, .rcv, .pwr], ∀ i, flagUp t b i = flagUp s b i

theorem powerDown_poweredDown (s : State) : PoweredDown s (powerDown s) := by
  have hf : ∀ b ∈ [Block.nst, .rcv, .pwr], ∀ i, flagUp (powerDown s) b i = flagUp s b i := fun b hb i => by
    unfold flagUp flagsOf
    rw [(powerDown_keeps (F := 0x9ff09ff1ffff7f5) s).frame (.flags b) (by revert b; decide)]
  unfold powerDown at hf ⊢
  obtain ⟨rs, os, e⟩ := removeRails_eq s
  rw [e] at hf ⊢
  exact ⟨rfl, rfl, rfl, rfl, rfl, rfl, rfl, rfl, rfl, rfl, ⟨rfl, rfl⟩, rfl, rfl, rfl, hf⟩

/-- What is left of a module that has entered Standby for a cause: main power is removed, and the entry is written. -/
structure StoodBy (e : LogEntry) (s t : State) : Prop where
  st : t.mod.st = .standby
  pwrGood : t.mod.pwrGood = false
  pll : t.mod.pllLocked = false
  cells : t.mem.cells = []
  doors : t.doors = []
  logged : Logged s t e
  mark : t.mod.fenceMark = s.mod.fenceMark
  times : t.mod.resetTimes = s.mod.resetTimes
  refclk : t.mod.refclk = s.mod.refclk
  oscillator : t.mod.onOscillator = s.mod.onOscillator
  rtab : t.mem.rtab = s.mem.rtab
  selector : t.fwu.selector = s.fwu.selector
  flags : ∀ b ∈ [Block.nst, .rcv, .pwr], ∀ i, flagUp t b i = flagUp s b i

/-- The precedence of an entry of Standby: a request and a rule rank 4, every other cause 3. -/
def standbyRank (cause : Nat) : Nat := if cause = 1 ∨ cause = 5 then 4 else 3

/-- The entry that gives the cause of an entry of Standby. -/
def standbyEntry (cause engine code : Nat) : LogEntry :=
  { source := if cause = 4 then 0 else 10, engine := engine, detail := cause + code * 256 }

theorem enterStandby_stoodBy (cause engine code : Nat) (s : State) (h : outranked (standbyRank cause) s = false) :
    StoodBy (standbyEntry cause engine code) s (enterStandby cause engine code s) := by
  have e : enterStandby cause engine code s =
      { powerDown (logEntry (standbyEntry cause engine code) s) with
        mod := { (powerDown (logEntry (standbyEntry cause engine code) s)).mod with st := .standby } } := by
    unfold enterStandby
    rw [show (if cause = 1 ∨ cause = 5 then 4 else 3) = standbyRank cause from rfl, h]
    rfl
  obtain ⟨pwrGood, pll, cells, doors, _, mark, times, refclk, oscillator, rtab, ⟨log, prod⟩, selector, _, _, flags⟩ :=
    powerDown_poweredDown (logEntry (standbyEntry cause engine code) s)
  rw [e]
  exact ⟨rfl, pwrGood, pll, cells, doors, ⟨prod, log⟩, mark, times, refclk, oscillator, rtab, selector, flags⟩

/-! ## Standby power -/

/-- An operation whose frame names none of memory's parts leaves memory as it is. -/
theorem mem_of_frame {F : Nat} {s t : State} (f : Frame F s t) (h : ∀ i ∈ [9, 10, 11, 12], F.testBit i = false) : t.mem = s.mem := by
  have hc : t.mem.cells = s.mem.cells := f .memory (h 9 (by decide))
  obtain ⟨he, hl⟩ := f .errors (h 10 (by decide))
  have hr : t.mem.rtab = s.mem.rtab := f .retirements (h 11 (by decide))
  obtain ⟨hu, hh⟩ := f .scrubs (h 12 (by decide))
  calc t.mem = ⟨t.mem.cells, t.mem.errs, t.mem.ceLogged, t.mem.rtab, t.mem.scrubCup, t.mem.scrubHbm⟩ := rfl
    _ = s.mem := by rw [hc, he, hl, hr, hu, hh]

/-- The absence of REFCLK shows in both blocks' flags and changes nothing else (R452). -/
theorem absentRefclk_flagged (y : State) :
    let t := if y.mod.refclk then y else setFlag .nst 3 (setFlag .pwr 1 y)
    t.mod = y.mod ∧ t.mem = y.mem ∧ t.fwu = y.fwu ∧ (y.mod.refclk = false → flagUp t .nst 3 = true ∧ flagUp t .pwr 1 = true) := by
  intro t
  cases h : y.mod.refclk with
  | true =>
    have e : t = y := if_pos h
    rw [e]
    exact ⟨rfl, rfl, rfl, nofun⟩
  | false =>
    have e : t = setFlag .nst 3 (setFlag .pwr 1 y) := if_neg (by simp [h])
    rw [e]
    simp [flagUp_setFlag]

theorem standbyPower_arrives (sa : Fin 8) (s : State) (h : s.mod.st = .off) :
    Completes (.standbyPowerApplied sa) s fun t =>
      t.mod = { s.mod with st := .standby, sa := sa, nstNs := 0, onOscillator := !s.mod.refclk } ∧ t.mem = s.mem ∧ t.fwu = s.fwu
        ∧ (s.mod.refclk = false → flagUp t .nst 3 = true ∧ flagUp t .pwr 1 = true) := by
  generalize hx : ({ s with mod := { s.mod with st := .standby, sa := sa, nstNs := 0, onOscillator := !s.mod.refclk } } : State) = x
  have e : exec (.standbyPowerApplied sa) s = .next (let y := nextConversion (baysAtPower x)
      if y.mod.refclk then y else setFlag .nst 3 (setFlag .pwr 1 y)) := (if_pos h).trans (by rw [← hx])
  have f : Frame 0x200008 x (nextConversion (baysAtPower x)) := (Keeps.trans (baysAtPower_keeps x) (nextConversion_keeps _)).frame
  obtain ⟨hmod, hmem, hfwu, hflags⟩ := absentRefclk_flagged (nextConversion (baysAtPower x))
  have kmod : (nextConversion (baysAtPower x)).mod = x.mod := f .module rfl
  have kmem : (nextConversion (baysAtPower x)).mem = x.mem := mem_of_frame f (by decide)
  have kfwu : (nextConversion (baysAtPower x)).fwu = x.fwu := f .firmware rfl
  refine ⟨_, e, hmod.trans (kmod.trans (by rw [← hx])), hmem.trans (kmem.trans (by rw [← hx])), hfwu.trans (kfwu.trans (by rw [← hx])),
    fun hr => hflags ?_⟩
  rw [kmod, ← hx]
  exact hr

theorem standbyLost_leaves (s : State) :
    (standbyLost s).mod.st = .off ∧ (standbyLost s).mod.fenceMark = false ∧ (standbyLost s).mod.resetTimes = []
      ∧ (standbyLost s).log = [] ∧ (standbyLost s).mem.rtab = [] ∧ (standbyLost s).mem.cells = [] ∧ (standbyLost s).mod.pwrGood = false
      ∧ (standbyLost s).fwu.selector = s.fwu.selector ∧ (standbyLost s).fwu.ownerLock = s.fwu.ownerLock
      ∧ (standbyLost s).fwu.record = s.fwu.record := by
  have p := powerDown_poweredDown s
  have f : Frame 0x200000 (powerDown s) (baysDark (powerDown s)) := (baysDark_keeps _).frame
  have hmod : (baysDark (powerDown s)).mod = (powerDown s).mod := f .module rfl
  have hcells : (baysDark (powerDown s)).mem.cells = (powerDown s).mem.cells := f .memory rfl
  have hfwu : (baysDark (powerDown s)).fwu = (powerDown s).fwu := f .firmware rfl
  refine ⟨rfl, rfl, rfl, rfl, rfl, hcells.trans p.cells, ?_, ?_, ?_, ?_⟩
  · exact (congrArg Module.pwrGood hmod).trans p.pwrGood
  · exact (congrArg Fwu.selector hfwu).trans p.selector
  · exact (congrArg Fwu.ownerLock hfwu).trans p.lock
  · exact (congrArg Fwu.record hfwu).trans p.record

/-! ## Power on -/

theorem nstRuns_of_ne {s : State} (h : s.mod.st ≠ .off) : nstRuns s = true := by unfold nstRuns; simp [h]

/-- Why a power-on is refused, in the statement's words: the first of the five reasons that holds (R447). -/
theorem powerOnReason_eq (s : State) : powerOnReason s =
    (if s.mod.st ≠ .standby then 1
      else if filtOf s 2 < 32000 ∨ 48000 < filtOf s 2 ∨ inputSampleWaits s = true then 2
      else if s.mod.refclk = false then 3
      else if s.mod.tripLatch = true then 4
      else if (List.range 32).any (fun i => ruleActive s i && ruleAction s i == 4) then 5
      else 0) := by
  have hin : ((inputOutOfRange s || inputSampleWaits s) = true) = (filtOf s 2 < 32000 ∨ 48000 < filtOf s 2 ∨ inputSampleWaits s = true) := by
    unfold inputOutOfRange
    simp [or_assoc]
  unfold powerOnReason powerDownRuleActive
  simp only [hin, Bool.not_eq_true', ne_eq]

/-- A power-on that no reason refuses is accepted. -/
theorem powerOn_accepted (recovery : Bool) (s : State) (hs : s.mod.st = .standby) (hr : powerOnReason s = 0) :
    Completes (.powerOnRequest recovery) s fun t =>
      t.mod.st = .booting ∧ t.mod.boot = .railsRising ∧ t.mod.wantRecovery = recovery ∧ Counted s t cPwrOn 1 ∧ Unlogged s t
        ∧ t.mod.rails = s.mod.rails ++ [.analogue, .core, .fabric, .hbm, .optics, .pcie]
        ∧ t.out = .mctp 1 0 0 :: .rail .pcie true :: .rail .optics true :: .rail .hbm true :: .rail .fabric true :: .rail .core true
            :: .rail .analogue true :: s.out := by
  unfold Completes
  show ∃ t, execPowerOnRequest recovery s = .next t ∧ _
  unfold execPowerOnRequest
  rw [nstRuns_of_ne (by rw [hs]; decide), hr]
  refine ⟨_, rfl, rfl, rfl, rfl, counted_bump cPwrOn 1 s, ⟨rfl, rfl⟩, ?_, rfl⟩
  show ((((((s.mod.rails ++ [Rail.analogue]) ++ [.core]) ++ [.fabric]) ++ [.hbm]) ++ [.optics]) ++ [.pcie]) = _
  simp only [List.append_assoc, List.cons_append, List.nil_append]

/-- One that a reason refuses is answered with it, flagged and logged. -/
theorem powerOn_refused (recovery : Bool) (s : State) (hs : s.mod.st ≠ .off) (hr : powerOnReason s ≠ 0) :
    ∃ t, exec (.powerOnRequest recovery) s = .next t ∧ t.mod = { s.mod with refuseReason := powerOnReason s }
      ∧ flagUp t .pwr 3 = true ∧ t.out = .mctp 1 1 (powerOnReason s) :: s.out
      ∧ Logged s t { source := 10, detail := powerOnReason s } := by
  have hn : ¬(!nstRuns s) = true := by rw [nstRuns_of_ne hs]; decide
  refine ⟨_, (if_neg hn).trans (if_neg hr), ?_⟩
  refine ⟨rfl, (flagUp_setFlag .pwr 3 _ .pwr 3 (by decide)).trans (by simp), rfl, rfl, rfl⟩

/-! ## Power off and the release of retirement -/

theorem powerOff_standsBy (s : State) (hm : mainPower s = true) (ho : outranked 4 s = false) :
    Completes .powerOffRequest s fun t => StoodBy { source := 10, detail := 1 } s t := by
  unfold Completes
  show ∃ t, execPowerOffRequest s = .next t ∧ _
  unfold execPowerOffRequest
  rw [hm, ho]
  have k := enterStandby_stoodBy 1 0 0 s ho
  exact ⟨_, rfl, k.st, k.pwrGood, k.pll, k.cells, k.doors, k.logged, k.mark, k.times, k.refclk, k.oscillator, k.rtab, k.selector, k.flags⟩

theorem powerOff_outranked (s : State) (hm : mainPower s = true) (ho : outranked 4 s = true) :
    exec .powerOffRequest s = .next { s with out := .mctp 2 1 0 :: s.out } := by
  show execPowerOffRequest s = _
  unfold execPowerOffRequest
  rw [hm, ho]
  rfl

/-- Settles O13: standby power, power on, power off and the release of retirement, each by the lemma of its command. -/
theorem powerComesAndGoes : Obligations.PowerComesAndGoes := by
  unfold Obligations.PowerComesAndGoes
  refine ⟨⟨fun sa s h => standbyPower_arrives sa s h, ?_⟩, ?_, ?_, ?_, fun s hm ho => powerOff_outranked s hm ho, ?_⟩
  · rintro c s (rfl | rfl)
    · exact ⟨_, rfl, standbyLost_leaves s⟩
    · exact ⟨_, rfl, standbyLost_leaves s⟩
  · intro recovery s _ hs hlo hhi hin hclk htrip hrules
    refine powerOn_accepted recovery s hs ?_
    have hany : ((List.range 32).any fun i => ruleActive s i && ruleAction s i == 4) = false := by
      rw [List.any_eq_false]
      intro i hi h
      rw [Bool.and_eq_true, beq_iff_eq] at h
      exact hrules i (List.mem_range.1 hi) h.1 h.2
    rw [powerOnReason_eq]
    simp [hs, show ¬filtOf s 2 < 32000 by omega, show ¬48000 < filtOf s 2 by omega, hin, hclk, htrip, hany]
  · intro recovery s reason hs hr e
    rw [← powerOnReason_eq] at e
    subst e
    exact powerOn_refused recovery s hs hr
  · intro s hm ho
    obtain ⟨t, e, k⟩ := powerOff_standsBy s hm ho
    exact ⟨t, e, k.st, k.pwrGood, k.pll, k.cells, k.doors, k.logged, k.mark, k.times, k.rtab, k.selector⟩
  · intro s h
    exact ⟨_, if_pos h, rfl⟩

end Sys2Proof.Machine

/-!
SUPPORT and the statement on the boot (O14): the events of a power-on in their order, and the fallback of images (R19, R359, R428 to R430,
R448).
-/
namespace Sys2Proof.Machine
set_option Elab.async false
open Sys2Proof.Safety

/-! ## The events of a power-on -/

theorem mainRailsUp_raises (s : State) (hs : s.mod.st = .booting) (hb : s.mod.boot = .railsRising) :
    exec .mainRailsUp s = .next { s with mod := { s.mod with pwrGood := true, boot := .pllLocking, configFrom := some s.mod.nstNs } } :=
  if_pos ⟨hs, hb⟩

theorem rootPllLocked_fills (s : State) (hs : s.mod.st = .booting) (hb : s.mod.boot = .pllLocking) (hr : s.mod.refclk = true) :
    exec .rootPllLocked s = .next { s with mod := { s.mod with
      pllLocked := true, devTime := 0, boot := .filling, warmBoot := false, fillAt := s.mod.nstNs } } :=
  if_pos ⟨hs, hb, hr⟩

/-- A fill that is not of a warm boot spares nothing (R359). -/
theorem fillMemory_cold (s : State) : (fillMemory false s).mem.cells = [] ∧ (fillMemory false s).mem.errs = [] := by
  unfold fillMemory
  simp

/-- Recovery is entered where it was asked for. -/
theorem recoveryAsked (y : State) :
    let t := if y.mod.wantRecovery then enterRecovery y else y
    t.mem = y.mem ∧ t.mod.st = (if y.mod.wantRecovery then .recovery else y.mod.st)
      ∧ t.mod.boot = (if y.mod.wantRecovery then .idle else y.mod.boot) := by
  dsimp only
  split
  · exact ⟨rfl, rfl, rfl⟩
  · exact ⟨rfl, rfl, rfl⟩

/-- The end of a cold boot's fill: zeros everywhere, then the image checks, or Recovery. -/
theorem fillComplete_checks (s : State) (hs : s.mod.st = .booting) (hb : s.mod.boot = .filling) (hw : s.mod.warmBoot = false) :
    Completes .fillComplete s fun t =>
      t.mem.cells = [] ∧ t.mem.errs = [] ∧ t.mod.st = (if s.mod.wantRecovery then .recovery else .booting)
        ∧ t.mod.boot = (if s.mod.wantRecovery then .idle else .checking) := by
  obtain ⟨hc, he⟩ := fillMemory_cold s
  refine ⟨_, if_pos ⟨hs, hb⟩, ?_⟩
  rw [hw]
  obtain ⟨km, ks, kb⟩ := recoveryAsked { fillMemory false s with mod := { (fillMemory false s).mod with
    boot := .checking, fillUs := ((fillMemory false s).mod.nstNs - (fillMemory false s).mod.fillAt) / 1000 % 65536, fillWarm := (fillMemory false s).mod.warmBoot } }
  refine ⟨(congrArg MemBlk.cells km).trans hc, (congrArg MemBlk.errs km).trans he, ks.trans ?_, kb⟩
  show (if s.mod.wantRecovery then ModState.recovery else s.mod.st) = _
  rw [hs]

/-! ## The image checks -/

theorem bootImage_passes (crypto : Crypto) (s : State) (hs : s.mod.st = .booting) (hb : s.mod.boot = .checking)
    (hc : imageCheck s.fwu (slotOf s.fwu s.fwu.selector) crypto = none) :
    exec (.bootImageChecked crypto) s = .next { s with
      mod := { s.mod with boot := .loading }
      fwu := { s.fwu with active := slotOf s.fwu s.fwu.selector, activeSlot := s.fwu.selector, fallback := false } } := by
  show execBootImageChecked crypto s = _
  unfold execBootImageChecked
  simp [hs, hb, hc]

/-- The entry, the flag and the result of an image that fails its check (R428, Table 15.9). -/
def imageFailed (code reason : Nat) (s : State) : State :=
  logEntry { source := 12, code := code } (setFlag .fwu 1 { s with fwu := { s.fwu with result := code, reason := reason } })

theorem imageFailed_shows (code reason : Nat) (s : State) :
    Logged s (imageFailed code reason s) { source := 12, code := code } ∧ flagUp (imageFailed code reason s) .fwu 1 = true
      ∧ (imageFailed code reason s).fwu = { s.fwu with result := code, reason := reason } ∧ (imageFailed code reason s).mod = s.mod := by
  have hf : flagUp (imageFailed code reason s) .fwu 1 = true := (flagUp_setFlag .fwu 1 _ .fwu 1 (by decide)).trans (by simp)
  exact ⟨⟨rfl, rfl⟩, hf, rfl, rfl⟩

theorem bootImage_fails (crypto : Crypto) (s : State) (hs : s.mod.st = .booting) (hb : s.mod.boot = .checking) (code reason : Nat)
    (hc : imageCheck s.fwu (slotOf s.fwu s.fwu.selector) crypto = some (code, reason)) :
    exec (.bootImageChecked crypto) s = .next { imageFailed code reason s with mod := { s.mod with boot := .checkingOther } } := by
  show execBootImageChecked crypto s = _
  unfold execBootImageChecked
  simp [hs, hb, hc, imageFailed]

theorem otherImage_fails (crypto : Crypto) (s : State) (hs : s.mod.st = .booting) (hb : s.mod.boot = .checkingOther) (code reason : Nat)
    (hc : imageCheck s.fwu (slotOf s.fwu (1 - s.fwu.selector)) crypto = some (code, reason)) :
    exec (.bootImageChecked crypto) s = .next (enterRecovery (imageFailed code reason s)) := by
  show execBootImageChecked crypto s = _
  unfold execBootImageChecked
  simp [hs, hb, hc, imageFailed]

theorem otherImage_passes (crypto : Crypto) (s : State) (hs : s.mod.st = .booting) (hb : s.mod.boot = .checkingOther)
    (hc : imageCheck s.fwu (slotOf s.fwu (1 - s.fwu.selector)) crypto = none) :
    exec (.bootImageChecked crypto) s = .next { s with
      mod := { s.mod with boot := .loading }
      fwu := { s.fwu with active := slotOf s.fwu (1 - s.fwu.selector), activeSlot := 1 - s.fwu.selector, fallback := true } } := by
  show execBootImageChecked crypto s = _
  unfold execBootImageChecked
  simp [hs, hb, hc]

/-! ## The end of the boot -/

theorem writeWindows_locks (s : State) : reg (writeWindows s) rHifWinLock = 1 := (reg_setReg _ _ _ _ (by decide)).trans (if_pos rfl)

/-- The boot ends in Fenced or Ready, by the fence mark. -/
theorem bootComplete_enters (s : State) (hs : s.mod.st = .booting) (hb : s.mod.boot = .loading) :
    Completes .bootComplete s fun t =>
      t.mod.st = (if s.mod.fenceMark then .fenced else .ready) ∧ t.rcv.hbArmed = true ∧ t.mod.fenceMark = s.mod.fenceMark
        ∧ (s.mod.warmBoot = false → reg t rHifWinLock = 1) := by
  refine ⟨_, if_pos ⟨hs, hb⟩, ?_⟩
  have hm : (if s.mod.warmBoot then retrainPorts s else writeWindows s).mod = s.mod := by
    split
    · exact (retrainPorts_keeps (F := 0x40004012900002) s).frame .module rfl
    · exact (writeWindows_keeps (F := 0x6) s).frame .module rfl
  have hl : s.mod.warmBoot = false → reg (if s.mod.warmBoot then retrainPorts s else writeWindows s) rHifWinLock = 1 := fun h => by
    rw [h]
    exact writeWindows_locks s
  revert hm hl
  generalize (if s.mod.warmBoot then retrainPorts s else writeWindows s) = x
  intro hm hl
  have hk : x.mod.fenceMark = s.mod.fenceMark := by rw [hm]
  exact ⟨by rw [← hk], rfl, hk, hl⟩

/-- Settles O14: the events of a power-on by the lemmas above, in their order, then the fallback of images. -/
theorem bootRunsInItsOrder : Obligations.BootRunsInItsOrder := by
  unfold Obligations.BootRunsInItsOrder
  refine ⟨⟨?_, ?_, fun s => fillComplete_checks s, ?_, fun s _ => bootComplete_enters s⟩, fun crypto s hs => ⟨?_, ?_, ?_⟩⟩
  · exact fun s hs hb => ⟨_, mainRailsUp_raises s hs hb, rfl⟩
  · exact fun s hs hb hr => ⟨_, rootPllLocked_fills s hs hb hr, rfl, rfl, rfl, rfl, rfl⟩
  · exact fun crypto s hs hb hc => ⟨_, bootImage_passes crypto s hs hb hc, rfl, rfl, rfl, rfl, rfl⟩
  · intro code reason hb hc
    obtain ⟨hl, hf, hw, hm⟩ := imageFailed_shows code reason s
    exact ⟨_, bootImage_fails crypto s hs hb code reason hc, hs, rfl, hl, hf, hw⟩
  · intro code reason hb hc
    obtain ⟨hl, hf, hw, hm⟩ := imageFailed_shows code reason s
    exact ⟨_, otherImage_fails crypto s hs hb code reason hc, rfl, hl, hf, hw⟩
  · exact fun hb hc => ⟨_, otherImage_passes crypto s hs hb hc, rfl, rfl, rfl, rfl⟩

end Sys2Proof.Machine

/-!
SUPPORT and the statement on clocks and signals (O15): what context resets leave of the module's own fields (R414, R449), and the loss of
clocks, PERST#, the PCIe link and PWR_HOLD (R20, R21, R452, R459).
-/
namespace Sys2Proof.Machine
set_option Elab.async false
open Sys2Proof.Safety

/-! ## Context resets and the module's own fields -/

/-- The part of a context reset that comes before the module may turn Ready. -/
def contextDropped (requester ctx : Nat) (s : State) : State :=
  let s := { s with
    doors := tabSet {} s.doors ctx {}
    hif := { s.hif with resetting := tabSet none s.hif.resetting ctx (some requester) } }
  let s := (List.range 4).foldl (fun s u => resetUnitWith ctx u s) s
  let s := (usedTags s ctx).foldl (fun s tag => abortBucket ctx tag s) s
  let s := dropExchange ctx (dropContextWork ctx s)
  clearStalled ctx { s with steps := tabSet {} s.steps ctx {}, stagedMaps := tabSet [] s.stagedMaps ctx [] }

theorem contextResetOf_eq (requester ctx : Nat) (s : State) :
    contextResetOf requester ctx s = endContextReset ctx (readyIfIdle (contextDropped requester ctx s)) := rfl

/-- What comes before leaves the module's own fields alone. -/
theorem contextDropped_keeps (requester ctx : Nat) (s : State) : Keeps 0x5f705f7159ff766 s (contextDropped requester ctx s) := by
  unfold contextDropped
  extract_lets h s0 s1 s2 s3
  have h0 : Keeps 0x5f705f7159ff766 s s0 := Keeps.lit (Keeps.refl s) rfl rfl rfl rfl
  clear_value s0
  have h1 : Keeps 0x5f705f7159ff766 s s1 := Keeps.foldl h0 (fun y u => resetUnitWith_keeps ..) _
  clear_value s1
  have h2 : Keeps 0x5f705f7159ff766 s s2 := Keeps.foldl h1 (fun y tag => abortBucket_keeps ..) _
  clear_value s2
  have h3 : Keeps 0x5f705f7159ff766 s s3 := (h2.trans (dropContextWork_keeps ..)).trans (dropExchange_keeps ..)
  clear_value s3
  exact (Keeps.lit h3 rfl rfl rfl rfl).trans (clearStalled_keeps ..)

/-- Of the module's own fields a context reset changes none but the state, from Running to Ready. -/
def ModuleSettles (m n : Module) : Prop := n = m ∨ m.st = .running ∧ n = { m with st := .ready }

theorem ModuleSettles.trans {l m n : Module} (h : ModuleSettles l m) (k : ModuleSettles m n) : ModuleSettles l n := by
  rcases h with rfl | ⟨hl, rfl⟩
  · exact k
  · rcases k with rfl | ⟨hm, _⟩
    · exact .inr ⟨hl, rfl⟩
    · cases hm

theorem readyIfIdle_module (s : State) : ModuleSettles s.mod (readyIfIdle s).mod := by
  unfold readyIfIdle
  split
  · rename_i h
    exact .inr ⟨h.1, rfl⟩
  · exact .inl rfl

theorem contextResetOf_module (requester ctx : Nat) (s : State) : ModuleSettles s.mod (contextResetOf requester ctx s).mod := by
  have h : (contextDropped requester ctx s).mod = s.mod := (contextDropped_keeps requester ctx s).frame .module rfl
  have k := readyIfIdle_module (contextDropped requester ctx s)
  rw [h] at k
  rw [contextResetOf_eq]
  generalize readyIfIdle (contextDropped requester ctx s) = x at k ⊢
  have e : (endContextReset ctx x).mod = x.mod := (endContextReset_keeps (F := 0x110000002) ctx x).frame .module rfl
  rw [e]
  exact k

theorem resetAllContexts_module (requester : Nat) (s : State) : ModuleSettles s.mod (resetAllContexts requester s).mod := by
  unfold resetAllContexts
  generalize List.range 15 = l
  induction l generalizing s with
  | nil => exact .inl rfl
  | cons k l ih =>
    rw [List.foldl_cons]
    exact (contextResetOf_module requester (k + 1) s).trans (ih (contextResetOf requester (k + 1) s))

/-! ## PERST# and the link -/

/-- The link goes down, whatever resets coincide: the module's own fields stay but for the link and the state, VF Enable is cleared and
PERST_SEEN is set (R449). -/
theorem pcieDown_drops (s : State) (hm : mainPower s = true) :
    ModuleSettles { s.mod with pcieLink := false } (pcieDown s).mod ∧ (pcieDown s).vfs = 0 ∧ flagUp (pcieDown s) .pwr 4 = true := by
  unfold pcieDown
  rw [if_pos hm]
  dsimp only
  generalize hx : setFlag .pwr 4 { s with mod := { s.mod with pcieLink := false } } = x
  have hmod : x.mod = { s.mod with pcieLink := false } := by rw [← hx]; rfl
  have hflag : flagUp x .pwr 4 = true := by rw [← hx, flagUp_setFlag _ _ _ _ _ (by decide)]; simp
  rw [← hmod]
  refine ⟨?_, rfl, ?_⟩
  · split
    · exact .inl rfl
    · exact resetAllContexts_module 3 x
  · show flagUp (if resetIncluded x then x else resetAllContexts 3 x) .pwr 4 = true
    split
    · exact hflag
    · unfold flagUp flagsOf
      rw [(resetAllContexts_keeps (F := 0x5f705f7159ff767) 3 x).frame (.flags .pwr) rfl]
      exact hflag

/-- The fields of a signal or a clock outlive a change of state. -/
theorem ModuleSettles.signals {m n : Module} (h : ModuleSettles m n) :
    n.perst = m.perst ∧ n.pcieLink = m.pcieLink ∧ n.pcieRefclk = m.pcieRefclk := by
  rcases h with rfl | ⟨_, rfl⟩
  · exact ⟨rfl, rfl, rfl⟩
  · exact ⟨rfl, rfl, rfl⟩

theorem perstAssert_downs (s : State) (hm : mainPower s = true) (hp : s.mod.perst = false) :
    Completes .perstAssert s fun t => t.mod.perst = true ∧ t.mod.pcieLink = false ∧ t.vfs = 0 ∧ flagUp t .pwr 4 = true := by
  obtain ⟨k, hv, hf⟩ := pcieDown_drops { s with mod := { s.mod with perst := true } } hm
  obtain ⟨kp, kl, _⟩ := k.signals
  exact ⟨_, if_neg (by simp [hp]), kp, kl, hv, hf⟩

theorem linkLoss_downs (gone : Bool) (s : State) (hm : mainPower s = true) :
    Completes (.pcieLinkLoss gone) s fun t =>
      t.mod.pcieLink = false ∧ t.vfs = 0 ∧ t.mod.pcieRefclk = (s.mod.pcieRefclk && !gone) ∧ flagUp t .pwr 4 = true := by
  obtain ⟨k, hv, hf⟩ := pcieDown_drops { s with mod := { s.mod with pcieRefclk := s.mod.pcieRefclk && !gone } } hm
  obtain ⟨_, kl, kr⟩ := k.signals
  exact ⟨_, rfl, kl, hv, kr, hf⟩

theorem perstDeassert_trains (s : State) (hm : mainPower s = true) :
    Completes .perstDeassert s fun t =>
      t.mod.perst = false ∧ t.mod.pcieLink = true ∧ t.mod.pcieRefclk = true ∧ t.vfs = s.vfs ∧ t.mem = s.mem ∧ t.regs = s.regs
        ∧ (s.mod.pwrGood = true → t.mod.configFrom = some s.mod.nstNs) :=
  ⟨_, rfl, rfl, hm, rfl, rfl, rfl, rfl, fun h => if_pos h⟩

/-! ## Clocks -/

theorem ne_off_of_mainPower {s : State} (h : mainPower s = true) : s.mod.st ≠ .off := fun e => by
  unfold mainPower at h
  rw [e] at h
  cases h

/-- Nightstand runs: no command of its own is ignored (R406). -/
theorem not_idle {s : State} (h : s.mod.st ≠ .off) : ¬(!nstRuns s) = true := by
  rw [nstRuns_of_ne h]
  decide

theorem pllLossOfLock_standsBy (s : State) (hm : mainPower s = true) (hp : s.mod.pllLocked = true) (ho : outranked 3 s = false) :
    Completes .rootPllLossOfLock s fun t => StoodBy { source := 0, detail := 4 } s t :=
  ⟨_, if_pos (by rw [hm, hp]; rfl), enterStandby_stoodBy 4 0 0 s ho⟩

/-- The module as the loss of REFCLK is flagged. -/
def refclkFlagged (s : State) : State :=
  setFlag .nst 3 (setFlag .pwr 1 { s with mod := { s.mod with refclk := false, onOscillator := true } })

theorem refclkLost_standsBy (s : State) (hm : mainPower s = true) (ho : outranked 3 s = false) :
    Completes .refclkLost s fun t => StoodBy { source := 0, detail := 4 } (refclkFlagged s) t := by
  exact ⟨_, (if_neg (not_idle (s := { s with mod := { s.mod with refclk := false } }) (ne_off_of_mainPower hm))).trans (if_pos hm), enterStandby_stoodBy 4 0 0 (refclkFlagged s) ho⟩

/-! ## PWR_HOLD -/

/-- An entry written where neither the log nor what stamps its entries has changed is the one entry since. -/
theorem logged_of_same {s x : State} (e : LogEntry) (hl : x.log = s.log ∧ x.logProd = s.logProd) (ht : x.mod.devTime = s.mod.devTime)
    (hg : x.mod.resetGen = s.mod.resetGen) (hn : x.mod.nstNs = s.mod.nstNs) : Logged s (logEntry e x) e := by
  obtain ⟨hp, hlog⟩ := logged_logEntry e x
  rw [hl.1, ht, hg, hn] at hlog
  rw [hl.2] at hp
  exact ⟨hp, hlog⟩

theorem pwrHold_changes (level : Bool) (s : State) (hs : s.mod.st ≠ .off) (hl : s.mod.pwrHold ≠ level) :
    Completes (.pwrHoldChange level) s fun t =>
      t.mod = { s.mod with pwrHold := level } ∧ (level = true → flagUp t .pwr 0 = true)
        ∧ (regBit s rPwrCtrl 0 = true → Logged s t {}) ∧ (regBit s rPwrCtrl 0 = false → Unlogged s t) := by
  have hn : ¬(!nstRuns { s with mod := { s.mod with pwrHold := level } }) = true := not_idle hs
  refine ⟨_, (if_neg (Ne.symm hl)).trans (if_neg hn), ?_⟩
  generalize hx : (if level then setFlag .pwr 0 { s with mod := { s.mod with pwrHold := level } }
    else { s with mod := { s.mod with pwrHold := level } }) = x
  have hmod : x.mod = { s.mod with pwrHold := level } := by rw [← hx]; split <;> rfl
  have hregs : x.regs = s.regs := by rw [← hx]; split <;> rfl
  have hlog : x.log = s.log ∧ x.logProd = s.logProd := by rw [← hx]; split <;> exact ⟨rfl, rfl⟩
  have hflag : level = true → flagUp x .pwr 0 = true := fun h => by
    rw [← hx, h, if_pos rfl, flagUp_setFlag _ _ _ _ _ (by decide)]; simp
  have hbit : regBit x rPwrCtrl 0 = regBit s rPwrCtrl 0 := by unfold regBit reg; rw [hregs]
  dsimp only
  rw [hbit]
  cases regBit s rPwrCtrl 0 with
  | true => exact ⟨hmod, hflag, fun _ => logged_of_same {} hlog (by rw [hmod]) (by rw [hmod]) (by rw [hmod]), nofun⟩
  | false => exact ⟨hmod, hflag, nofun, fun _ => ⟨hlog.2, hlog.1⟩⟩

/-- Settles O15: each clock and signal by the lemma of its command. -/
theorem clocksAndSignals : Obligations.ClocksAndSignals := by
  unfold Obligations.ClocksAndSignals
  refine ⟨⟨?_, ?_, fun s => ⟨_, rfl, rfl⟩⟩, perstAssert_downs, perstDeassert_trains, linkLoss_downs, pwrHold_changes⟩
  · intro s hm hp ho
    obtain ⟨t, e, k⟩ := pllLossOfLock_standsBy s hm hp ho
    exact ⟨t, e, k.st, k.pll, k.pwrGood, k.logged⟩
  · intro s hm ho
    obtain ⟨t, e, k⟩ := refclkLost_standsBy s hm ho
    have hn : flagUp (refclkFlagged s) .nst 3 = true := by
      unfold refclkFlagged; rw [flagUp_setFlag _ _ _ _ _ (by decide)]; simp
    have hp : flagUp (refclkFlagged s) .pwr 1 = true := by
      unfold refclkFlagged; rw [flagUp_setFlag _ _ _ _ _ (by decide), flagUp_setFlag _ _ _ _ _ (by decide)]; simp
    exact ⟨t, e, k.st, k.refclk, k.oscillator, k.pll, (k.flags .pwr (by decide) 1).trans hp, (k.flags .nst (by decide) 3).trans hn, k.logged⟩

end Sys2Proof.Machine

/-!
SUPPORT and the statement on device-level resets (O16): what a reset that is performed leaves (R415, R417, Table 14.3), and the commands on
the non-volatile store (R431, R438).
-/
namespace Sys2Proof.Machine
set_option Elab.async false
open Sys2Proof.Safety

/-! ## The fourth reset within 900 s -/

/-- The list of the last four holds a fourth reset where it held three, and the oldest of those decides (R417). -/
theorem retires_iff (s : State) :
    retires (timesWithReset s) = true ↔ 3 ≤ s.mod.resetTimes.length ∧ nstTime s ≤ s.mod.resetTimes.getD 2 0 + 900000000 := by
  unfold timesWithReset
  match s.mod.resetTimes with
  | [] => simp [retires]
  | [_] => simp [retires]
  | [_, _] => simp [retires]
  | _ :: _ :: c :: _ => simp [retires]

theorem retires_of_three {s : State} (h : 3 ≤ s.mod.resetTimes.length) (k : nstTime s ≤ s.mod.resetTimes.getD 2 0 + 900000000) :
    retires (timesWithReset s) = true := (retires_iff s).2 ⟨h, k⟩

theorem not_retires_of_fewer {s : State} (h : s.mod.resetTimes.length < 3 ∨ s.mod.resetTimes.getD 2 0 + 900000000 < nstTime s) :
    retires (timesWithReset s) = false := by
  rw [Bool.eq_false_iff, ne_eq, retires_iff]
  omega

/-! ## What a reset leaves -/

/-- The state as a reset begins: the dump, the entry and the reset's time. -/
def resetRecorded (cold mctp : Bool) (source cause : Nat) (dump : Bool) (s : State) : State :=
  let action := if retires (timesWithReset s) then 12 else if cold then 11 else 10
  let s' := logEntry { source := source, action := action, detail := cause + 256 * boolNat mctp + 512 * boolNat cold }
    (if dump && !cold then crashDump cause s else s)
  { s' with mod := { s'.mod with
    resetTimes := timesWithReset s, resetAt := some s'.mod.nstNs, resetGen := (s'.mod.resetGen + 1) % 16, wantRecovery := regBit s' rFwuCtrl 0 } }

/-- A reset that is neither part of a larger one nor outranked is performed. -/
theorem deviceReset_eq (cold mctp : Bool) (source cause : Nat) (dump : Bool) (s : State) (hs : subsumed cold s = false)
    (ho : outranked (if retires (timesWithReset s) then 2 else 5) s = false) :
    deviceReset cold mctp source cause dump s =
      let x := resetRecorded cold mctp source cause dump s
      if retires (timesWithReset s) then { powerDown x with mod := { (powerDown x).mod with st := .retired } }
      else if cold then coldReset x else warmReset x := by
  exact (if_neg (by rw [hs]; decide)).trans (if_neg (by rw [ho]; decide))

/-- What stays from before a reset until after it: the fence mark, the retirements, the slot selector and the RCV_ flags. -/
structure OutlivesReset (s t : State) : Prop where
  times : t.mod.resetTimes = timesWithReset s
  mark : t.mod.fenceMark = s.mod.fenceMark
  rtab : t.mem.rtab = s.mem.rtab
  selector : t.fwu.selector = s.fwu.selector
  flags : ∀ i, i < 32 → flagUp s .rcv i = true → flagUp t .rcv i = true

/-- The dump sets a flag of RCV_STATUS and clears none. -/
theorem crashDump_flags (cause : Nat) (s : State) (i : Nat) (hi : i < 32) (h : flagUp s .rcv i = true) :
    flagUp (crashDump cause s) .rcv i = true := by
  unfold crashDump
  split
  · exact h
  · extract_lets d w cells s0 m0 r0 t
    have h0 : flagUp s0 .rcv i = true := by
      unfold flagUp flagsOf
      rw [(noteSlices_keeps (F := 0x80008000000442) s).frame (.flags .rcv) rfl]
      exact h
    have h1 : flagUp t .rcv i = true := h0
    clear_value t s0
    have h2 : flagUp (summaryEntries w (setFlag .rcv 4 t)) .rcv i = flagUp (setFlag .rcv 4 t) .rcv i := by
      unfold flagUp flagsOf
      rw [(summaryEntries_keeps (F := 0x2) w (setFlag .rcv 4 t)).frame (.flags .rcv) rfl]
    rw [h2, flagUp_setFlag _ _ _ _ _ hi, h1, Bool.true_or]

theorem resetRecorded_outlives (cold mctp : Bool) (source cause : Nat) (dump : Bool) (s : State) :
    OutlivesReset s (resetRecorded cold mctp source cause dump s) := by
  unfold resetRecorded
  generalize hx : (if dump && !cold then crashDump cause s else s) = x
  have hframe : Frame 0x80048000000652 s x := by
    rw [← hx]
    split
    · exact (crashDump_keeps ..).frame
    · exact (Keeps.refl s).frame
  have hmod : x.mod = s.mod := hframe .module rfl
  have hrtab : x.mem.rtab = s.mem.rtab := hframe .retirements rfl
  have hfwu : x.fwu = s.fwu := hframe .firmware rfl
  have hflags : ∀ i, i < 32 → flagUp s .rcv i = true → flagUp x .rcv i = true := fun i hi h => by
    rw [← hx]
    split
    · exact crashDump_flags cause s i hi h
    · exact h
  have hmark : x.mod.fenceMark = s.mod.fenceMark := by rw [hmod]
  exact ⟨rfl, hmark, hrtab, congrArg Fwu.selector hfwu, hflags⟩

/-- The removal of main power, a cold and a warm reset keep what outlives a reset. -/
theorem OutlivesReset.of_same {s x t : State} (h : OutlivesReset s x) (ht : t.mod.resetTimes = x.mod.resetTimes)
    (hm : t.mod.fenceMark = x.mod.fenceMark) (hr : t.mem.rtab = x.mem.rtab) (hs : t.fwu.selector = x.fwu.selector)
    (hf : flagsOf t .rcv = flagsOf x .rcv) : OutlivesReset s t :=
  ⟨ht.trans h.times, hm.trans h.mark, hr.trans h.rtab, hs.trans h.selector, fun i hi k => by
    unfold flagUp
    rw [hf]
    exact h.flags i hi k⟩

theorem OutlivesReset.powerDown {s x : State} (h : OutlivesReset s x) (st : ModState) :
    OutlivesReset s { powerDown x with mod := { (powerDown x).mod with st := st } } := by
  have p := powerDown_poweredDown x
  exact h.of_same p.times p.mark p.rtab p.selector ((powerDown_keeps (F := 0x9ff09ff1ffff7f5) x).frame (.flags .rcv) rfl)

theorem OutlivesReset.coldReset {s x : State} (h : OutlivesReset s x) : OutlivesReset s (coldReset x) :=
  h.of_same rfl rfl rfl rfl ((coldReset_keeps (F := 0x9ff09ff1ffff5f5) x).frame (.flags .rcv) rfl)

theorem OutlivesReset.warmReset {s x : State} (h : OutlivesReset s x) : OutlivesReset s (warmReset x) :=
  h.of_same rfl rfl rfl rfl ((warmReset_keeps (F := 0x9ff1f9ff5f5) x).frame (.flags .rcv) rfl)

/-- What a reset leaves of the module: Retired where it is the fourth within 900 s and Booting elsewhere, and what outlives it. -/
structure Rebooted (s t : State) : Prop where
  st : t.mod.st = if retires (timesWithReset s) then .retired else .booting
  kept : OutlivesReset s t

theorem deviceReset_reboots (cold mctp : Bool) (source cause : Nat) (dump : Bool) (s : State) (hs : subsumed cold s = false)
    (ho : outranked (if retires (timesWithReset s) then 2 else 5) s = false) :
    Rebooted s (deviceReset cold mctp source cause dump s) := by
  rw [deviceReset_eq cold mctp source cause dump s hs ho]
  have k := resetRecorded_outlives cold mctp source cause dump s
  generalize resetRecorded cold mctp source cause dump s = x at k ⊢
  cases hr : retires (timesWithReset s) with
  | true => exact ⟨by rw [hr]; rfl, k.powerDown .retired⟩
  | false =>
    cases cold with
    | true => exact ⟨by rw [hr]; rfl, k.coldReset⟩
    | false => exact ⟨by rw [hr]; rfl, k.warmReset⟩

/-- A cold reset unlocks the root PLL, whether it retires the module or not. -/
theorem coldReset_unlocks (mctp : Bool) (source cause : Nat) (dump : Bool) (s : State) (hs : subsumed true s = false)
    (ho : outranked (if retires (timesWithReset s) then 2 else 5) s = false) :
    (deviceReset true mctp source cause dump s).mod.pllLocked = false := by
  rw [deviceReset_eq true mctp source cause dump s hs ho]
  generalize resetRecorded true mctp source cause dump s = x
  cases retires (timesWithReset s) with
  | true => exact (powerDown_poweredDown x).pll
  | false => rfl

theorem Rebooted.booting_or_retired {s t : State} (h : Rebooted s t) : t.mod.st = .booting ∨ t.mod.st = .retired := by
  rw [h.st]
  split
  · exact .inr rfl
  · exact .inl rfl

/-! ## What the precedence of transitions depends on (R29) -/

/-- Two states whose converter, clocks and waiting commands agree. -/
structure SameTrips (s t : State) : Prop where
  mod : t.mod = s.mod
  nst : t.nst = s.nst
  regs : t.regs = s.regs
  pending : t.pending = s.pending

theorem SameTrips.regBit {s t : State} (h : SameTrips s t) : regBit t = regBit s := by
  funext off i
  unfold Machine.regBit reg
  rw [h.regs]

theorem SameTrips.scanPass {s t : State} (h : SameTrips s t) : scanPass t = scanPass s := by
  unfold Machine.scanPass reg
  rw [h.regs]

theorem SameTrips.lastEndOf {s t : State} (h : SameTrips s t) : lastEndOf t = lastEndOf s := by
  funext c
  unfold Machine.lastEndOf
  rw [h.nst]

theorem SameTrips.dueInsert {s t : State} (h : SameTrips s t) : dueInsert t = dueInsert s := by
  unfold Machine.dueInsert
  rw [h.lastEndOf, h.mod, h.nst]

theorem SameTrips.nextConversion {s t : State} (h : SameTrips s t) : (nextConversion t).nst = (nextConversion s).nst := by
  unfold Machine.nextConversion
  rw [h.dueInsert]
  cases Machine.dueInsert s with
  | some _ => dsimp only; rw [h.nst]
  | none =>
    dsimp only
    rw [h.regBit, h.scanPass, h.nst]
    split
    · rfl
    · rfl

theorem SameTrips.beginIdle {s t : State} (h : SameTrips s t) : (beginIdle t).nst = (beginIdle s).nst := by
  have hd : dueAt t = dueAt s := by
    funext c
    unfold dueAt
    rw [h.lastEndOf]
  unfold Machine.beginIdle
  rw [hd, h.nst, h.mod]
  dsimp only
  split
  · exact h.nst
  · split
    · rfl
    · exact h.nextConversion

theorem SameTrips.tripWaits {s t : State} (h : SameTrips s t) : tripWaits t = tripWaits s := by
  have hc : conversionTrips t = conversionTrips s := by
    funext code
    unfold conversionTrips
    rw [h.beginIdle, h.nst]
  unfold Machine.tripWaits mainPower
  rw [hc, h.mod, h.pending]

theorem SameTrips.timesWithReset {s t : State} (h : SameTrips s t) : timesWithReset t = timesWithReset s := by
  unfold Machine.timesWithReset nstTime
  rw [h.mod]

/-- A reset that nothing outranks in `s` is outranked in no state that agrees with `s` in these: other resets that wait have no part in
it. -/
theorem SameTrips.notOutranked {s t : State} (h : SameTrips s t)
    (ho : Machine.outranked (if retires (Machine.timesWithReset s) then 2 else 5) s = false) :
    Machine.outranked (if retires (Machine.timesWithReset t) then 2 else 5) t = false := by
  rw [h.timesWithReset]
  unfold Machine.outranked lossWaits offWaits waits mainPower at ho ⊢
  rw [h.tripWaits, h.timesWithReset, h.mod, h.pending]
  cases hr : retires (Machine.timesWithReset s) with
  | true =>
    rw [hr] at ho
    simpa using ho
  | false =>
    rw [hr] at ho
    simpa using ho

/-! ## The commands that ask for a reset -/

theorem rcvOpen_of {s : State} (h : inService s = true ∨ s.mod.st = .recovery) : rcvOpen s = true := by
  unfold rcvOpen
  simpa using h

/-- The device-level resets of O16 and what they reset: the state with the answer over MCTP, or the state itself. -/
theorem resetCommand_reboots {c : Instr} {s : State}
    (hs : subsumed (match c with | .mctpColdReset | .deviceColdReset _ => true | _ => false) s = false)
    (ho : outranked (if retires (timesWithReset s) then 2 else 5) s = false)
    (hc : (c = .mctpWarmReset ∨ c = .mctpColdReset) ∧ mainPower s = true
        ∨ ((∃ d, c = .deviceWarmReset 0xC9A7 d) ∨ c = .deviceColdReset 0xC9A7) ∧ (inService s = true ∨ s.mod.st = .recovery)) :
    Completes c s fun t => Rebooted s t := by
  rcases hc with ⟨rfl | rfl, hm⟩ | ⟨⟨d, rfl⟩ | rfl, h⟩
  · have k := deviceReset_reboots false true 0 4 false (mctpAnswer 4 0 0 s) hs
      (SameTrips.notOutranked (s := s) ⟨rfl, rfl, rfl, rfl⟩ ho)
    exact ⟨_, if_pos hm, k.st, k.kept.times, k.kept.mark, k.kept.rtab, k.kept.selector, k.kept.flags⟩
  · have k := deviceReset_reboots true true 0 4 false (mctpAnswer 5 0 0 s) hs
      (SameTrips.notOutranked (s := s) ⟨rfl, rfl, rfl, rfl⟩ ho)
    exact ⟨_, if_pos hm, k.st, k.kept.times, k.kept.mark, k.kept.rtab, k.kept.selector, k.kept.flags⟩
  · exact ⟨_, if_pos (by rw [rcvOpen_of h]; rfl), deviceReset_reboots false false 0 4 d s hs ho⟩
  · exact ⟨_, if_pos (by rw [rcvOpen_of h]; rfl), deviceReset_reboots true false 0 4 false s hs ho⟩

theorem wrongKey_ignored (key : Fin 65536) (dump : Bool) (s : State) (h : key.val ≠ 0xC9A7) :
    exec (.deviceWarmReset key dump) s = .next s ∧ exec (.deviceColdReset key) s = .next s := by
  have hk : ¬(rcvOpen s && key.val == resetKey) = true := by simp [h]
  exact ⟨if_neg hk, if_neg hk⟩

/-! ## The non-volatile store -/

theorem ownerLock_sets (s : State) (h : s.mod.st ≠ .off) :
    exec .setOwnerLock s = .next { s with fwu := { s.fwu with ownerLock := true }, out := .mctp 6 0 0 :: s.out } := by
  exact if_pos (nstRuns_of_ne h)

theorem ownerLock_clears (s : State) (h : s.mod.st ≠ .off) :
    exec .clearOwnerLock s = .next { s with fwu := { s.fwu with ownerLock := false }, out := .mctp 7 0 0 :: s.out } := by
  exact if_pos (nstRuns_of_ne h)

/-- Where the provisioning record may be replaced (R431). -/
def recordWritable (s : State) : Prop :=
  (s.mod.st = .standby ∨ s.mod.st = .retired ∨ s.mod.st = .recovery) ∧ s.fwu.ownerLock = false

theorem record_replaced (record : List Byte) (s : State) (hl : record.length = 3904) (h : recordWritable s) :
    Completes (.writeProvisioningRecord record) s fun t =>
      (∀ k, k < 3904 → tabGet 0 t.fwu.record k = byteAt record k) ∧ t.fwu.ownerLock = false ∧ t.out = .mctp 8 0 0 :: s.out := by
  obtain ⟨hst, hlock⟩ := h
  have hne : s.mod.st ≠ .off := by rcases hst with e | e | e <;> rw [e] <;> decide
  refine ⟨_, (if_neg (not_idle hne)).trans (if_pos ⟨hst, by rw [hlock]; rfl⟩), fun k hk => ?_, hlock, rfl⟩
  have e := tabGet_cellsOf 0 (record.take 3904) k (by rw [List.length_take, hl]; omega)
  rw [Nat.zero_add, List.take_of_length_le (by omega)] at e
  show tabGet 0 (cellsOf 0 (record.take 3904)) k = _
  rw [List.take_of_length_le (by omega)]
  exact e

theorem record_refused (record : List Byte) (s : State) (hs : s.mod.st ≠ .off) (h : ¬recordWritable s) :
    exec (.writeProvisioningRecord record) s = .next { s with out := .mctp 8 1 0 :: s.out } := by
  refine (if_neg (not_idle hs)).trans (if_neg fun ⟨hst, hlock⟩ => h ⟨hst, ?_⟩)
  rw [Bool.not_eq_true'] at hlock
  exact hlock

/-- Settles O16: the resets by what a reset leaves, each other command by its own lemma. -/
theorem deviceResetsAndNonVolatileStore : Obligations.DeviceResetsAndNonVolatileStore := by
  unfold Obligations.DeviceResetsAndNonVolatileStore
  refine ⟨?_, wrongKey_ignored, fun s h => ⟨⟨_, ownerLock_sets s h, rfl⟩, ⟨_, ownerLock_clears s h, rfl⟩⟩,
    fun record s hl => ⟨record_replaced record s hl, record_refused record s⟩⟩
  intro c s hc hs ho
  obtain ⟨t, e, hst, k⟩ := resetCommand_reboots hs ho hc
  refine ⟨t, e, k.times, fun h3 ht => ?_, fun hf => ?_, k.mark, k.rtab, k.selector⟩
  · rw [hst, retires_of_three h3 ht]; rfl
  · rw [hst, not_retires_of_fewer hf]; rfl

end Sys2Proof.Machine

/-!
SUPPORT and the statement on activation and on the update over PLDM (O25): R434 to R436, R438, R441.
-/
namespace Sys2Proof.Machine
set_option Elab.async false
open Sys2Proof.Safety

/-! ## Slots -/

theorem slotOf_setSlot_same (n : Nat) (i : Option Image) (f : Fwu) : slotOf (setSlot n i f) n = i := by
  unfold slotOf setSlot
  split
  · rfl
  · rfl

/-- What is put into the slot that is not selected leaves the selected one alone. -/
theorem slotOf_setSlot_other (k : Nat) (i : Option Image) (f : Fwu) : slotOf (setSlot (1 - k) i f) k = slotOf f k := by
  unfold slotOf setSlot
  split
  · rw [if_neg (by omega)]
  · rw [if_pos (by omega)]

theorem setSlot_state (n : Nat) (i : Option Image) (f : Fwu) : (setSlot n i f).state = f.state := by
  unfold setSlot
  split
  · rfl
  · rfl

theorem setSlot_overMctp (n : Nat) (i : Option Image) (f : Fwu) : (setSlot n i f).overMctp = f.overMctp := by
  unfold setSlot
  split
  · rfl
  · rfl

theorem setSlot_result (n : Nat) (i : Option Image) (f : Fwu) : (setSlot n i f).result = f.result := by
  unfold setSlot
  split
  · rfl
  · rfl

theorem setSlot_reason (n : Nat) (i : Option Image) (f : Fwu) : (setSlot n i f).reason = f.reason := by
  unfold setSlot
  split
  · rfl
  · rfl

/-! ## The parts of an image as they arrive (R428, R432) -/

/-- Where the first `n` blocks are right, all of them are counted. -/
theorem goodBlocks_all (i : Image) (n : Nat) (h : ∀ k, k < n → blockGood i k = true) : goodBlocks i n = n := by
  unfold goodBlocks
  rw [List.takeWhile_eq_self_iff.2 fun k hk => h k (List.mem_range.1 hk), List.length_range]

theorem stagingCheck_badHeader (length : Nat) (i : Image) (h : headerBad length i = true) :
    stagingCheck length i = (0, some (stImageCrc, 1)) := if_pos (.inr h)

theorem goodBlocks_le (i : Image) (n : Nat) : goodBlocks i n ≤ n := by
  unfold goodBlocks
  exact ((List.takeWhile_prefix _).length_le).trans (by rw [List.length_range])

/-- Where the header is right and every block that has arrived is, all of them are staged and none has failed. -/
theorem stagingCheck_good (length m : Nat) (i : Image) (hl : 4096 ≤ i.bytes.length) (hh : headerBad length i = false)
    (hm : (i.bytes.length - 4096) / 65568 = m) (hb : m ≤ imgBlocks i) (hg : goodBlocks i m = m) :
    stagingCheck length i = (m, none) := by
  unfold stagingCheck
  rw [if_neg (by rw [hh]; simp; omega), hm, Nat.min_eq_right hb, hg]
  simp

/-- An image whose header is right has the length its BLOCKS field gives. -/
theorem length_of_headerGood {length : Nat} {i : Image} (h : headerBad length i = false) : length = 4096 + 65568 * imgBlocks i := by
  unfold headerBad at h
  simp only [Bool.or_eq_false_iff, bne_eq_false_iff_eq] at h
  exact h.2

/-- An image that passes the checks of orders 1 and 2 passes them as it arrives. -/
theorem stagingCheck_arrived (i : Image) (hl : 4096 ≤ i.bytes.length) (h : arrivalCheck i = none) :
    stagingCheck i.bytes.length i = (imgBlocks i, none) := by
  unfold arrivalCheck at h
  split at h
  · cases h
  · rename_i hh
    split at h
    · cases h
    · rename_i hg
      rw [Bool.not_eq_true] at hh
      have hlen := length_of_headerGood hh
      exact stagingCheck_good _ _ i hl hh (by omega) (Nat.le_refl _) (Nat.le_antisymm (goodBlocks_le ..) (by omega))

/-! ## ACTIVATE (R433 to R436) -/

/-- The conditions of R433 under which ACTIVATE is accepted. -/
def Activable (s : State) : Prop :=
  s.fwu.state = .verified ∧ stepBusy s = false ∧ beginDue s = false ∧ s.mod.pwrHold = false ∧ s.fwu.ownerLock = false

theorem activateReason_accepted {s : State} (h : Activable s) : activateReason s = 0 := by
  obtain ⟨hv, hb, hd, hp, ho⟩ := h
  unfold activateReason
  simp [hv, hb, hd, hp, ho]

/-- The module as an accepted ACTIVATE leaves it outside Recovery: the drain begins and Hutch's watchdog is suspended. -/
def drainBegun (s : State) : State :=
  { s with
    fwu := { s.fwu with state := .activating, act := .draining, reason := 0, result := 0 }
    rcv := { s.rcv with hbSuspended := true, hbSuspendedAt := s.mod.nstNs } }

theorem activateCommand_drains {s : State} (h : Activable s) (hs : inService s = true) : activateCommand s = drainBegun s := by
  have hr : s.mod.st ≠ .recovery := fun e => by
    unfold inService at hs
    rw [e] at hs
    cases hs
  exact (if_neg (by rw [activateReason_accepted h]; simp)).trans (if_neg hr)

theorem activateCommand_resets {s : State} (h : Activable s) (hr : s.mod.st = .recovery) :
    activateCommand s =
      deviceReset true s.fwu.overMctp 0 4 false { s with fwu := { s.fwu with selector := otherSlot s.fwu, verified := false } } :=
  (if_neg (by rw [activateReason_accepted h]; simp)).trans (if_pos hr)

theorem activate_inRecovery (s : State) (h : Activable s) (hr : s.mod.st = .recovery) (hs : subsumed true s = false)
    (ho : outranked (if retires (timesWithReset s) then 2 else 5) s = false) : Completes .fwuActivate s fun t =>
      t.fwu.selector = 1 - s.fwu.selector ∧ (t.mod.st = .booting ∨ t.mod.st = .retired) ∧ t.mod.pllLocked = false
        ∧ t.mod.resetTimes = (nstTime s :: s.mod.resetTimes).take 4 := by
  refine ⟨_, if_pos (rcvOpen_of (.inr hr)), ?_⟩
  rw [activateCommand_resets h hr]
  generalize hy : ({ s with fwu := { s.fwu with selector := otherSlot s.fwu, verified := false } } : State) = y
  have hsy : subsumed true y = false := by rw [← hy]; exact hs
  have hsel : y.fwu.selector = 1 - s.fwu.selector := by rw [← hy]; rfl
  have k : SameTrips s y := by rw [← hy]; exact ⟨rfl, rfl, rfl, rfl⟩
  have hoy := k.notOutranked ho
  have r := deviceReset_reboots true s.fwu.overMctp 0 4 false y hsy hoy
  exact ⟨r.kept.selector.trans hsel, r.booting_or_retired, coldReset_unlocks s.fwu.overMctp 0 4 false y hsy hoy,
    r.kept.times.trans k.timesWithReset⟩

theorem activateDrainDone_switches (i : Image) (s : State) (ha : s.fwu.act = .draining) (hi : slotOf s.fwu (otherSlot s.fwu) = some i)
    (hd : ∀ d ∈ s.doors, ∀ q ∈ d.2.rings, ∀ e ∈ q.2.opened, e.dispatched = true → e.counted = false) :
    Completes .activateDrainDone s fun t =>
      t = { s with fwu := { s.fwu with
        selector := otherSlot s.fwu, act := .reloading
        minSvn := max s.fwu.minSvn (if (hdrField i 13 1).testBit 0 then min 63 (imgSvn i) else 0), verified := false } } := by
  have hdrained : drained s = true := by
    unfold drained
    simp only [List.all_eq_true, Bool.not_eq_true', Bool.and_eq_false_imp]
    exact hd
  refine ⟨_, if_pos ⟨ha, hdrained⟩, ?_⟩
  rw [hi]

/-! ## The reloads (R434 steps 4 to 8) -/

/-- The module as the reloads end: the selected image is in force. -/
def reloaded (s : State) : State :=
  { s with
    fwu := { s.fwu with
      pendingChests := if componentChanged s.fwu 4 then (List.range 256).filter fun c => !chestIdle s c else s.fwu.pendingChests
      active := slotOf s.fwu s.fwu.selector, activeSlot := s.fwu.selector, fallback := false
      act := .ports, portsLeft := if componentChanged s.fwu 5 then List.range 16 else [] }
    rcv := { s.rcv with hbSuspended := false, hbMisses := 0 } }

theorem activateReloadDone_eq (s : State) (ha : s.fwu.act = .reloading) :
    exec .activateReloadDone s = .next (if componentChanged s.fwu 5 then nextPortReload (reloaded s) else activationEnd (reloaded s)) :=
  if_neg (by simp [ha])

/-- The end of the activation: Idle, flagged and logged. -/
theorem activationEnd_ends (s : State) :
    (activationEnd s).fwu = { s.fwu with state := .idle, act := .none, portsLeft := [], overMctp := false }
      ∧ (activationEnd s).rcv = s.rcv ∧ flagUp (activationEnd s) .fwu 2 = true ∧ Logged s (activationEnd s) { source := 12 } := by
  generalize hx : ({ s with fwu := { s.fwu with state := .idle, act := .none, portsLeft := [], overMctp := false } } : State) = x
  have e : activationEnd s = logEntry { source := 12 } (setFlag .fwu 2 x) := by rw [← hx]; rfl
  have hl : Logged s (logEntry { source := 12 } (setFlag .fwu 2 x)) { source := 12 } := by
    refine logged_of_same _ ?_ ?_ ?_ ?_ <;> rw [← hx] <;> simp
  have hf : flagUp (logEntry { source := 12 } (setFlag .fwu 2 x)) .fwu 2 = flagUp (setFlag .fwu 2 x) .fwu 2 := rfl
  rw [e]
  refine ⟨?_, ?_, hf.trans ?_, hl⟩
  · rw [logEntry_fwu, setFlag_fwu, ← hx]
  · rw [logEntry_rcv, setFlag_rcv, ← hx]
  · rw [flagUp_setFlag _ _ _ _ _ (by decide)]; simp

/-- Disabled ports are passed over. -/
theorem reloadFrom_disabled (l : List Nat) (s : State) (h : ∀ p ∈ l, (port s p).st = .disabled) : reloadFrom l s = activationEnd s := by
  induction l with
  | nil => rfl
  | cons p l ih =>
    rw [reloadFrom, if_pos (h p List.mem_cons_self)]
    exact ih fun q hq => h q (List.mem_cons_of_mem _ hq)

theorem activateReloadDone_ends (s : State) (ha : s.fwu.act = .reloading) (hc : componentChanged s.fwu 5 = false) :
    Completes .activateReloadDone s fun t =>
      t.fwu.state = .idle ∧ t.fwu.act = .none ∧ t.fwu.active = slotOf s.fwu s.fwu.selector ∧ t.fwu.activeSlot = s.fwu.selector
        ∧ t.rcv.hbSuspended = false ∧ flagUp t .fwu 2 = true ∧ Logged s t { source := 12 } := by
  obtain ⟨hf, hr, hflag, hlog⟩ := activationEnd_ends (reloaded s)
  refine ⟨activationEnd (reloaded s), ?_, ?_⟩
  · rw [activateReloadDone_eq s ha, hc]; rfl
  · beta_reduce
    rw [hf, hr]
    exact ⟨rfl, rfl, rfl, rfl, rfl, hflag, hlog⟩

theorem activateReloadDone_noPorts (s : State) (ha : s.fwu.act = .reloading) (hc : componentChanged s.fwu 5 = true)
    (hp : ∀ p, p < 16 → (port s p).st = .disabled) :
    Completes .activateReloadDone s fun t => t.fwu.state = .idle ∧ t.fwu.active = slotOf s.fwu s.fwu.selector := by
  obtain ⟨hf, _⟩ := activationEnd_ends (reloaded s)
  refine ⟨activationEnd (reloaded s), ?_, ?_⟩
  · have hl : (reloaded s).fwu.portsLeft = List.range 16 := by
      show (if componentChanged s.fwu 5 then List.range 16 else []) = _
      rw [hc]; rfl
    rw [activateReloadDone_eq s ha, hc, if_pos rfl, nextPortReload, hl,
      reloadFrom_disabled _ (reloaded s) fun p h => hp p (List.mem_range.1 h)]
  · beta_reduce
    rw [hf]
    exact ⟨rfl, rfl⟩

theorem activateWatchdog_resets (s : State) (ha : s.fwu.act = .reloading) (hs : subsumed true s = false)
    (ho : outranked (if retires (timesWithReset s) then 2 else 5) s = false) : Completes .activateWatchdog s fun t =>
      (t.mod.st = .booting ∨ t.mod.st = .retired) ∧ t.mod.pllLocked = false ∧ t.fwu.selector = s.fwu.selector
        ∧ t.mod.resetTimes = (nstTime s :: s.mod.resetTimes).take 4 := by
  have r := deviceReset_reboots true false 12 2 false s hs ho
  exact ⟨_, if_pos ha, r.booting_or_retired, coldReset_unlocks false 12 2 false s hs ho, r.kept.selector, r.kept.times⟩

/-! ## The update over PLDM (R438, R441) -/

/-- No new command begins while an image is staged, verified or activated (Table 15.5). -/
theorem stageable_of {f : Fwu} (h1 : f.state ≠ .staging) (h2 : f.state ≠ .verifying) (h3 : f.state ≠ .activating) : stageable f = true := by
  unfold stageable
  cases h : f.state with
  | staging => exact absurd h h1
  | verifying => exact absurd h h2
  | activating => exact absurd h h3
  | idle | staged | verified | failed => rfl

theorem not_closed {s : State} (h : rcvOpen s = true) : ¬(!rcvOpen s) = true := by rw [h]; decide

/-- A command that wrote no entry was not refused. -/
theorem pldmAnswer_accepted (cmd : Nat) {s t : State} (h : t.logProd = s.logProd) :
    refusedBetween s t = false ∧ pldmAnswer cmd s t = emit (.pldm cmd 0 0) t := by
  have hr : refusedBetween s t = false := by
    unfold refusedBetween
    rw [h]
    simp
  refine ⟨hr, ?_⟩
  unfold pldmAnswer
  rw [hr]
  rfl

theorem requestUpdate_prepares (s : State) (hs : rcvOpen s = true) (h : stageable s.fwu = true) :
    Completes .requestUpdate s fun t =>
      t.fwu = { s.fwu with requested := true, tablePassed := false } ∧ t.out = .pldm 0x10 0 0 :: s.out :=
  ⟨_, (if_neg (not_closed hs)).trans (if_pos h), rfl, rfl⟩

theorem passComponentTable_prepares (s : State) (hs : rcvOpen s = true) (h : s.fwu.requested = true) :
    Completes .passComponentTable s fun t => t.fwu = { s.fwu with tablePassed := true } ∧ t.out = .pldm 0x13 0 0 :: s.out :=
  ⟨_, (if_neg (not_closed hs)).trans (if_pos h), rfl, rfl⟩

theorem updateComponent_stages (s : State) (hs : rcvOpen s = true) (hr : s.fwu.requested = true) (ht : s.fwu.tablePassed = true)
    (hg : stageable s.fwu = true) (hl : s.fwu.ownerLock = false) : Completes .updateComponent s fun t =>
      t.fwu.state = .staging ∧ t.fwu.overMctp = true ∧ slotOf t.fwu (otherSlot s.fwu) = none
        ∧ slotOf t.fwu s.fwu.selector = slotOf s.fwu s.fwu.selector ∧ t.out = .pldm 0x15 0 0 :: .pldm 0x14 0 0 :: s.out := by
  have hst : stageCommand true s = beginStaging true s := (if_neg (by rw [hg]; decide)).trans (if_neg (by rw [hl]; decide))
  obtain ⟨hn, ha⟩ := pldmAnswer_accepted 0x14 (s := s) (t := beginStaging true s) rfl
  have e : exec .updateComponent s = .next (emit (.pldm 0x15 0 0) (emit (.pldm 0x14 0 0) (beginStaging true s))) := by
    refine (if_neg (not_closed hs)).trans ((if_neg (by rw [hr, ht]; decide)).trans ?_)
    rw [hst]
    dsimp only
    rw [hn, ha]
    rfl
  have hf : (beginStaging true s).fwu = setSlot (otherSlot s.fwu) none { s.fwu with
      state := .staging, stageLength := reg s rFwuLength, reason := 0, result := 0, received := [], progress := 0, verified := false
      overMctp := true } := rfl
  refine ⟨_, e, ?_⟩
  beta_reduce
  rw [emit_fwu, emit_fwu, hf]
  exact ⟨setSlot_state .., setSlot_overMctp .., slotOf_setSlot_same .., slotOf_setSlot_other .., rfl⟩

/-! ### FirmwareData -/

section
variable {part bs : List Byte} {s : State} {n : Nat}

/-- A part is taken while an image is staged over PLDM. -/
theorem firmwareData_taken (hs : rcvOpen s = true) (hst : s.fwu.state = .staging) (hm : s.fwu.overMctp = true) :
    ¬(!(rcvOpen s && s.fwu.state == .staging && s.fwu.overMctp)) = true := by
  rw [hs, hst, hm]
  decide

theorem firmwareData_short (hs : rcvOpen s = true) (hst : s.fwu.state = .staging) (hm : s.fwu.overMctp = true)
    (e : bs = s.fwu.received ++ part) (h : bs.length < 4096) : Completes (.firmwareData part) s fun t =>
      t.fwu.received = bs ∧ t.fwu.state = .staging ∧ t.out = .pldm 0x15 0 bs.length :: s.out := by
  subst e
  exact ⟨_, (if_neg (firmwareData_taken hs hst hm)).trans (if_pos h), rfl, hst, rfl⟩

/-- A part after the header: the checks so far decide. -/
theorem firmwareData_checked (hs : rcvOpen s = true) (hst : s.fwu.state = .staging) (hm : s.fwu.overMctp = true)
    (e : bs = s.fwu.received ++ part) (h : 4096 ≤ bs.length) (hn : n = expectedLength bs) :
    exec (.firmwareData part) s = (match stagingCheck n ⟨bs.take n⟩ with
      | (k, some (c, r)) => .next (transferComplete (fwuFail c r (noteBlocksStaged k s)))
      | (k, none) =>
        if n ≤ bs.length then .next (transferComplete (endStaging (bs.take n) s))
        else .next (emit (.pldm 0x15 0 bs.length) { s with fwu := { s.fwu with received := bs, progress := k } })) := by
  subst e hn
  exact (if_neg (firmwareData_taken hs hst hm)).trans (if_neg (by omega))

theorem firmwareData_next (hs : rcvOpen s = true) (hst : s.fwu.state = .staging) (hm : s.fwu.overMctp = true)
    (e : bs = s.fwu.received ++ part) (h : 4096 ≤ bs.length) (hn : n = expectedLength bs) (hl : bs.length < n)
    (hh : headerBad n ⟨bs⟩ = false) (hg : ∀ k, k < (bs.length - 4096) / 65568 → blockGood ⟨bs⟩ k = true) :
    Completes (.firmwareData part) s fun t => t.fwu.received = bs ∧ t.fwu.state = .staging
      ∧ t.fwu.progress = (bs.length - 4096) / 65568 ∧ t.out = .pldm 0x15 0 bs.length :: s.out := by
  have hb := length_of_headerGood hh
  have k : stagingCheck n ⟨bs.take n⟩ = ((bs.length - 4096) / 65568, none) := by
    rw [List.take_of_length_le (by omega)]
    exact stagingCheck_good n _ ⟨bs⟩ h hh rfl (by omega) (goodBlocks_all _ _ hg)
  refine ⟨emit (.pldm 0x15 0 bs.length)
    { s with fwu := { s.fwu with received := bs, progress := (bs.length - 4096) / 65568 } },
    (firmwareData_checked hs hst hm e h hn).trans ?_, ?_⟩
  · rw [k]
    exact if_neg (by omega)
  · exact ⟨rfl, hst, rfl, rfl⟩

theorem firmwareData_badHeader (hs : rcvOpen s = true) (hst : s.fwu.state = .staging) (hm : s.fwu.overMctp = true)
    (e : bs = s.fwu.received ++ part) (h : 4096 ≤ bs.length) (hn : n = expectedLength bs) (hh : headerBad n ⟨bs.take n⟩ = true) :
    Completes (.firmwareData part) s fun t => t.fwu.state = .failed ∧ t.fwu.result = 0x0B03 ∧ t.fwu.reason = 1
      ∧ t.fwu.slot0 = s.fwu.slot0 ∧ t.fwu.slot1 = s.fwu.slot1 ∧ t.out = .pldm 0x16 1 (0x0B03 + 2 ^ 16) :: s.out := by
  refine ⟨transferComplete (fwuFail stImageCrc 1 (noteBlocksStaged 0 s)), (firmwareData_checked hs hst hm e h hn).trans ?_, ?_⟩
  · rw [stagingCheck_badHeader n _ hh]
  · exact ⟨rfl, rfl, rfl, rfl, rfl, rfl⟩

/-- Staging over PLDM ends with an image that passes: it is in the slot that is not selected, and Verifying follows. -/
theorem endStaging_arrived {im : List Byte} (hm : s.fwu.overMctp = true) (ha : arrivalCheck ⟨im⟩ = none) :
    (endStaging im s).fwu.state = .verifying ∧ slotOf (endStaging im s).fwu (otherSlot s.fwu) = some ⟨im⟩
      ∧ slotOf (endStaging im s).fwu s.fwu.selector = slotOf s.fwu s.fwu.selector ∧ (endStaging im s).fwu.result = s.fwu.result
      ∧ (endStaging im s).fwu.reason = s.fwu.reason ∧ (endStaging im s).out = s.out := by
  have e : endStaging im s =
      { noteBlocksStaged (stagingCheck im.length ⟨im⟩).1 s with
        fwu := setSlot (otherSlot s.fwu) (some ⟨im⟩) { s.fwu with
          received := [], progress := (stagingCheck im.length ⟨im⟩).1, state := .verifying, overMctp := true } } := by
    unfold endStaging
    dsimp only
    rw [ha, show (noteBlocksStaged (stagingCheck im.length ⟨im⟩).1 s).fwu.overMctp = true from hm]
    rfl
  rw [e]
  exact ⟨setSlot_state .., slotOf_setSlot_same .., slotOf_setSlot_other .., setSlot_result .., setSlot_reason .., rfl⟩

theorem firmwareData_last (hs : rcvOpen s = true) (hst : s.fwu.state = .staging) (hm : s.fwu.overMctp = true)
    (e : bs = s.fwu.received ++ part) (h : 4096 ≤ bs.length) (hn : n = expectedLength bs) (hl : n ≤ bs.length)
    (ha : arrivalCheck ⟨bs.take n⟩ = none) : Completes (.firmwareData part) s fun t =>
      t.fwu.state = .verifying ∧ slotOf t.fwu (otherSlot s.fwu) = some ⟨bs.take n⟩
        ∧ slotOf t.fwu s.fwu.selector = slotOf s.fwu s.fwu.selector
        ∧ (s.fwu.result = 0 → s.fwu.reason = 0 → t.out = .pldm 0x16 0 0 :: s.out) := by
  have hn' : 4096 ≤ n := by rw [hn]; exact Nat.le_add_right ..
  have hlen : (bs.take n).length = n := by rw [List.length_take]; omega
  have k := stagingCheck_arrived ⟨bs.take n⟩ (by rw [hlen]; exact hn') ha
  rw [hlen] at k
  obtain ⟨h1, h2, h3, h4, h5, h6⟩ := endStaging_arrived (s := s) hm ha
  refine ⟨transferComplete (endStaging (bs.take n) s), (firmwareData_checked hs hst hm e h hn).trans ?_, h1, h2, h3, fun hr hq => ?_⟩
  · rw [k]
    exact if_pos hl
  · unfold transferComplete pldmCode pldmResult
    rw [h4, h5, hr, hq]
    exact congrArg _ h6

end

/-! ### The other commands -/

theorem activateFirmware_drains (s : State) (hs : inService s = true) (h : Activable s) : Completes .activateFirmware s fun t =>
    t.fwu = { s.fwu with state := .activating, act := .draining, reason := 0, result := 0 }
      ∧ t.rcv.hbSuspended = true ∧ t.rcv.hbSuspendedAt = s.mod.nstNs ∧ t.out = .pldm 0x1A 0 0 :: s.out := by
  refine ⟨_, if_pos (rcvOpen_of (.inl hs)), ?_⟩
  beta_reduce
  rw [activateCommand_drains h hs, (pldmAnswer_accepted 0x1A (s := s) (t := drainBegun s) rfl).2]
  exact ⟨rfl, rfl, rfl, rfl⟩

theorem getStatus_answers (s : State) (hs : rcvOpen s = true) : Completes .getStatus s fun t =>
    t = { s with out := .pldm 0x1B 0 (s.fwu.state.code + 256 * s.fwu.reason + 65536 * s.fwu.result) :: s.out } :=
  ⟨_, if_pos hs, rfl⟩

/-- ABORT of an update: Idle, with no entry written and the selected slot as it was. -/
theorem abortCommand_idles (s : State) (h : s.fwu.state = .staging ∨ s.fwu.state = .verifying ∨ s.fwu.state = .failed) :
    (abortCommand s).fwu.state = .idle ∧ Unlogged s (abortCommand s)
      ∧ slotOf (abortCommand s).fwu s.fwu.selector = slotOf s.fwu s.fwu.selector := by
  unfold abortCommand
  rcases h with e | e | e
  · rw [e]
    exact ⟨setSlot_state .., ⟨rfl, rfl⟩, slotOf_setSlot_other ..⟩
  · rw [e]
    exact ⟨setSlot_state .., ⟨rfl, rfl⟩, slotOf_setSlot_other ..⟩
  · rw [e]
    exact ⟨rfl, ⟨rfl, rfl⟩, rfl⟩

theorem cancelUpdate_idles (s : State) (hs : rcvOpen s = true)
    (h : s.fwu.state = .staging ∨ s.fwu.state = .verifying ∨ s.fwu.state = .failed) : Completes .cancelUpdate s fun t =>
      t.fwu.state = .idle ∧ t.fwu.requested = false ∧ t.fwu.tablePassed = false ∧ Unlogged s t
        ∧ slotOf t.fwu s.fwu.selector = slotOf s.fwu s.fwu.selector := by
  obtain ⟨hi, ⟨hp, hl⟩, hk⟩ := abortCommand_idles s h
  have ha := (pldmAnswer_accepted 0x1D hp).2
  refine ⟨_, if_pos hs, ?_⟩
  beta_reduce
  rw [ha]
  exact ⟨hi, rfl, rfl, ⟨hp, hl⟩, hk⟩

/-- Settles O25: ACTIVATE's phases and the messages of the update over PLDM, each by the lemma of its command. -/
theorem imagesAreActivated : Obligations.ImagesAreActivated := by
  unfold Obligations.ImagesAreActivated
  refine ⟨⟨?_, ?_, activateDrainDone_switches, activateReloadDone_ends, activateReloadDone_noPorts, activateWatchdog_resets⟩, ?_⟩
  · exact fun s hs hv hb hd hp ho =>
      ⟨_, if_pos (rcvOpen_of (.inl hs)), activateCommand_drains (s := s) ⟨hv, hb, hd, hp, ho⟩ hs⟩
  · exact fun s hr hv hb hd hp hl => activate_inRecovery s ⟨hv, hb, hd, hp, hl⟩ hr
  · intro s h
    have hs := rcvOpen_of h
    refine ⟨fun h1 h2 h3 => requestUpdate_prepares s hs (stageable_of h1 h2 h3), passComponentTable_prepares s hs,
      fun hr ht h1 h2 h3 => updateComponent_stages s hs hr ht (stageable_of h1 h2 h3), fun part bs hst hm e => ⟨firmwareData_short hs hst hm e,
        fun n h4 hn => ⟨firmwareData_next hs hst hm e h4 hn, firmwareData_badHeader hs hst hm e h4 hn,
          firmwareData_last hs hst hm e h4 hn⟩⟩,
      fun hi hv hb hd hp ho => activateFirmware_drains s hi ⟨hv, hb, hd, hp, ho⟩, getStatus_answers s hs, cancelUpdate_idles s hs⟩

end Sys2Proof.Machine

/-!
SUPPORT. A doorbell page that no table entry holds stays so: nothing that other contexts' completions, resets and programming do reaches
it (R335, R337, R414).
-/
namespace Sys2Proof.Machine
set_option Elab.async false
open Sys2Proof.Safety

/-- No entry of the doorbell pages is context `c`'s. -/
structure Vacant (c : Nat) (s : State) : Prop where
  absent : ∀ e ∈ s.doors, e.1 ≠ c

theorem Vacant.door {c : Nat} {s : State} (h : Vacant c s) : door s c = {} := tabGet_unlisted _ _ _ h.absent

theorem Vacant.findDesc {c : Nat} {s : State} (h : Vacant c s) {r : DRef} (hr : (findDesc s r).isSome = true) : r.ctx ≠ c := fun e => by
  unfold Machine.findDesc ringOf at hr
  rw [e, h.door] at hr
  cases hr

theorem Vacant.of_doors {c : Nat} {s t : State} (h : Vacant c s) (e : t.doors = s.doors) : Vacant c t := by
  refine ⟨?_⟩
  rw [e]
  exact h.absent

/-- An operation whose frame leaves the doorbell pages alone: every part but them is in this mask. -/
theorem Vacant.of_keeps {c : Nat} {s t : State} (h : Vacant c s) (k : Keeps 0x1fffffffffffffbf s t) : Vacant c t :=
  h.of_doors (k.frame .doors rfl)

theorem Vacant.ite {c : Nat} {p : Prop} [Decidable p] {s t : State} (h : p → Vacant c s) (k : ¬p → Vacant c t) :
    Vacant c (if p then s else t) := by
  split
  · exact h ‹_›
  · exact k ‹_›

theorem Vacant.foldl {α : Type} {c : Nat} {f : State → α → State} {s : State} (h : Vacant c s)
    (hf : ∀ x a, Vacant c x → Vacant c (f x a)) (l : List α) : Vacant c (l.foldl f s) := by
  induction l generalizing s with
  | nil => exact h
  | cons a l ih => exact ih (hf s a h)

/-! ## What is put into a table -/

theorem mem_tabSet {α : Type} [DecidableEq α] {d : α} {t : Tab α} {k : Nat} {v : α} {e : Nat × α} (h : e ∈ tabSet d t k v) :
    e ∈ t ∨ e = (k, v) := by
  induction t with
  | nil =>
    unfold tabSet at h
    split at h
    · cases h
    · exact .inr (List.mem_singleton.1 h)
  | cons a t ih =>
    unfold tabSet at h
    split at h
    · rcases List.mem_cons.1 h with rfl | h
      · exact .inl List.mem_cons_self
      · exact (ih h).imp_left (List.mem_cons_of_mem _)
    · split at h
      · exact .inl (List.mem_of_mem_filter h)
      · split at h
        · rcases List.mem_cons.1 h with rfl | h
          · exact .inr rfl
          · exact .inl (List.mem_cons_of_mem _ h)
        · exact (List.mem_cons.1 h).symm.imp_right id

/-- What is put back to the default has no entry. -/
theorem mem_tabSet_default {α : Type} [DecidableEq α] {d : α} {t : Tab α} {k : Nat} {e : Nat × α} (h : e ∈ tabSet d t k d) : e.1 ≠ k := by
  induction t with
  | nil => simp [tabSet] at h
  | cons a t ih =>
    unfold tabSet at h
    split at h
    · rename_i hk
      rcases List.mem_cons.1 h with rfl | h
      · exact Nat.ne_of_lt hk
      · exact ih h
    · rw [if_pos rfl] at h
      simpa using (List.mem_filter.1 h).2

/-! ## Changes of a page -/

theorem modDoor_vacant {c k : Nat} {g : Door → Door} {s : State} (h : Vacant c s) (hg : k = c → g {} = {}) : Vacant c (modDoor k g s) := by
  refine ⟨fun e he => ?_⟩
  unfold modDoor tabMod at he
  by_cases hk : k = c
  · subst hk
    have hd : tabGet {} s.doors k = {} := h.door
    rw [hd, hg rfl] at he
    exact mem_tabSet_default he
  · rcases mem_tabSet he with he | rfl
    · exact h.absent e he
    · exact hk

/-- A change of a ring that leaves an untouched ring as it is. -/
theorem modRing_vacant {c k q : Nat} {f : Ring → Ring} {s : State} (h : Vacant c s) (hf : k = c → f {} = {}) :
    Vacant c (modRing k q f s) :=
  modDoor_vacant h fun hk => by
    have e : tabMod {} ([] : Tab Ring) q f = [] := if_pos (hf hk)
    show ({ ({} : Door) with rings := tabMod {} ([] : Tab Ring) q f } : Door) = {}
    rw [e]

theorem setSem_vacant {c k i : Nat} {v : Word} {s : State} (h : Vacant c s) (hk : k ≠ c) : Vacant c (setSem k i v s) :=
  modDoor_vacant h fun e => absurd e hk

/-! ## Completion -/

section
variable {c : Nat} {r : DRef} {s : State}

theorem afterClose_vacant (h : Vacant c s) (hr : r.ctx ≠ c) (b : List Byte) (signal : Bool) : Vacant c (afterClose r b signal s) := by
  unfold afterClose
  refine Vacant.of_keeps ?_ (fireInterrupt_keeps ..)
  split
  · exact setSem_vacant h hr
  · exact h

theorem closeDesc_vacant (h : Vacant c s) (b : List Byte) (status : Nat) (tail : List Byte) : Vacant c (closeDesc r b status tail s) := by
  unfold closeDesc
  extract_lets +onlyGivenNames x y z
  have hx : Vacant c x := (h.of_keeps (writeCompletion_keeps ..)).of_keeps (noteGatherEnd_keeps ..)
  have hy : Vacant c y := modRing_vacant hx fun _ => rfl
  have hz : Vacant c z := hy.of_keeps (countStepStatus_keeps ..)
  clear_value z
  split
  · exact hz.of_keeps (applyStagedMaps_keeps ..)
  · exact hz

theorem startFlush_vacant (h : Vacant c s) (hr : r.ctx ≠ c) (status : Nat) : Vacant c (startFlush r status s) := by
  unfold startFlush
  split
  · exact modRing_vacant h fun e => absurd e hr
  · exact h

theorem closeOut_vacant (h : Vacant c s) (hr : r.ctx ≠ c) (signal flushes : Bool) (b : List Byte) (status : Nat) (tail : List Byte) :
    Vacant c (closeOut signal flushes r b status tail s) := by
  unfold closeOut
  extract_lets +onlyGivenNames sg x
  have hx : Vacant c x := closeDesc_vacant h ..
  clear_value x
  refine Vacant.ite (fun _ => ?_) (fun _ => ?_)
  · extract_lets +onlyGivenNames y ds
    have hy : Vacant c y := startFlush_vacant hx hr status
    have hz : Vacant c (closeCovered r.ctx r.ring y) := hy.foldl (fun x a hx => closeDesc_vacant hx ..) _
    exact (afterClose_vacant hz hr ..).foldl (fun x a hx => afterClose_vacant hx hr ..) _
  · exact afterClose_vacant hx hr ..

/-- A descriptor to be completed unexecuted lies in a listed page. -/
theorem nextUnexecuted_mem {d : Desc} {st : Nat} {rej : Bool} (h : nextUnexecuted s = some (r, d, st, rej)) : ∃ e ∈ s.doors, e.1 = r.ctx := by
  have hu : ∀ ctx ring q, unexecuted s ctx ring q = some (r, d, st, rej) → ctx = r.ctx := by
    intro ctx ring q hq
    unfold unexecuted at hq
    split at hq
    · cases hq; rfl
    · unfold badHeader at hq
      repeat' split at hq
      all_goals cases hq
      all_goals rfl
  unfold nextUnexecuted at h
  obtain ⟨e, he, h⟩ := List.exists_of_findSome?_eq_some h
  obtain ⟨q, _, h⟩ := List.exists_of_findSome?_eq_some h
  exact ⟨e, he, hu _ _ _ h⟩

theorem settle_vacant (n : Nat) {s : State} (h : Vacant c s) : Vacant c (settle n s) := by
  induction n generalizing s with
  | zero => exact h
  | succ n ih =>
    unfold settle
    split
    · exact h
    · rename_i r d st rej hn
      obtain ⟨e, he, hc⟩ := nextUnexecuted_mem hn
      have hr : r.ctx ≠ c := hc ▸ h.absent e he
      refine ih (closeOut_vacant ?_ hr ..)
      split
      · exact h.of_keeps (bump_keeps ..)
      · exact h

theorem settleBad_vacant (h : Vacant c s) (ctx ring : Nat) : Vacant c (settleBad ctx ring s) := by
  unfold settleBad
  split
  · exact settle_vacant _ h
  · exact h

theorem completeWith_vacant (h : Vacant c s) (signal rejected flushes : Bool) (r : DRef) (status : Nat) (tail : List Byte) :
    Vacant c (completeWith signal rejected flushes r status tail s) := by
  unfold completeWith
  split
  · exact h
  · rename_i d hd
    refine settle_vacant _ (closeOut_vacant ?_ (h.findDesc (by rw [hd]; rfl)) ..)
    split
    · exact h.of_keeps (bump_keeps ..)
    · exact h

theorem complete_vacant (h : Vacant c s) (r : DRef) (status : Nat) (tail : List Byte) : Vacant c (complete r status tail s) :=
  completeWith_vacant h ..

theorem emitHist_vacant (h : Vacant c s) (r : DRef) (noHist : Bool) (stream : Nat) (kind : EngineKind) (engine : Nat) (w : Hist) :
    Vacant c (emitHist r noHist stream kind engine w s) := by
  unfold emitHist
  extract_lets +onlyGivenNames q
  refine Vacant.ite (fun _ => h) (fun hn => ?_)
  have hr : r.ctx ≠ c := by
    refine h.findDesc ?_
    cases hd : findDesc s r with
    | none => rw [hd] at hn; simp at hn
    | some _ => rfl
  refine Vacant.ite (fun _ => ?_) (fun _ => ?_)
  · extract_lets +onlyGivenNames fn p x y
    have hy : Vacant c y := (h.of_keeps (emit_keeps ..)).of_keeps (emit_keeps ..)
    exact modDoor_vacant hy fun e => absurd e hr
  · exact (modDoor_vacant h fun e => absurd e hr).of_keeps (setFlag_keeps ..)

theorem noteErrors_vacant (h : Vacant c s) (acc : Access) (es : List (Nat × Bool)) : Vacant c (noteErrors acc es s) := by
  refine h.foldl (fun x e hx => ?_) es
  have hy : Vacant c (noteError acc e.1 e.2 x) := hx.of_keeps (noteError_keeps ..)
  dsimp only
  split
  · exact modRing_vacant hy fun _ => rfl
  · exact hy

theorem noteRead_vacant (h : Vacant c s) (acc : Access) (a n : Nat) : Vacant c (noteRead acc a n s) := noteErrors_vacant h ..

/-! ## Dispatch of a program -/

theorem noteTable_vacant (h : Vacant c s) (r : DRef) : Vacant c (noteTable r s) := by
  unfold noteTable
  split
  · exact h
  · exact Vacant.ite (fun _ => h) fun _ => noteRead_vacant h ..

theorem noteGens_vacant (h : Vacant c s) (a : Accepted) : Vacant c (noteGens a s) := by
  unfold noteGens
  split
  · exact h
  · exact Vacant.ite (fun _ => h) fun _ => h.foldl (fun x e hx => noteRead_vacant hx ..) _

theorem dispatchOp_vacant (h : Vacant c s) (ctx ring op : Nat) (k : Accepted → State → State)
    (hk : ∀ a x, Vacant c x → Vacant c (k a x)) : Vacant c (dispatchOp ctx ring op k s) := by
  unfold dispatchOp
  split
  · exact settleBad_vacant h ..
  · extract_lets +onlyGivenNames r
    have hn : Vacant c (noteTable r s) := noteTable_vacant h r
    split
    · exact completeWith_vacant hn ..
    · exact settleBad_vacant (hk _ _ (noteGens_vacant (modRing_vacant hn fun _ => rfl) _)) ..

theorem acceptProgram_vacant (h : Vacant c s) (a : Accepted) : Vacant c (acceptProgram a s) := by
  unfold acceptProgram
  extract_lets +onlyGivenNames st
  refine Vacant.ite (fun _ => completeWith_vacant h ..) fun _ => ?_
  have hu : Vacant c (uncount a.ref s) := modRing_vacant h fun _ => rfl
  exact hu.of_keeps (modChest_keeps ..)

theorem offerProgram_vacant (h : Vacant c s) (ctx ring op : Nat) : Vacant c (offerProgram ctx ring op s) := by
  unfold offerProgram
  split
  · exact settleBad_vacant h ..
  · extract_lets +onlyGivenNames n r
    refine Vacant.ite (fun _ => ?_) fun _ => h.of_keeps (modChest_keeps ..)
    exact dispatchOp_vacant (h.of_keeps (modChest_keeps ..)) ctx ring op _ fun a x hx => acceptProgram_vacant hx a

theorem acceptSome_vacant (fuel n : Nat) {s : State} (h : Vacant c s) : Vacant c (acceptSome fuel n s) := by
  induction fuel generalizing s with
  | zero => exact h
  | succ fuel ih =>
    unfold acceptSome
    split
    · exact h
    · refine Vacant.ite (fun _ => h) fun _ => ?_
      extract_lets +onlyGivenNames x
      have hx : Vacant c x := h.of_keeps (modChest_keeps ..)
      split
      · exact ih hx
      · exact ih (Vacant.ite (fun _ => hx) fun _ => offerProgram_vacant hx ..)

theorem acceptHeld_vacant (h : Vacant c s) (n : Nat) : Vacant c (acceptHeld n s) := acceptSome_vacant _ _ h

/-! ## What a Chest reset ends -/

theorem finishDrw_vacant (h : Vacant c s) (j : DrwJob) (status : Nat) : Vacant c (finishDrw j status s) := by
  unfold finishDrw
  refine Vacant.ite (fun _ => h) fun _ => ?_
  extract_lets +onlyGivenNames b d imaged releases released s1 s2 s3 out logged s4 s5
  have h1 : Vacant c s1 := Vacant.ite (fun _ => h.of_keeps ((countHold_keeps ..).trans (modPlane_keeps ..))) fun _ => h
  have h2 : Vacant c s2 := emitHist_vacant h1 ..
  have h3 : Vacant c s3 := Vacant.ite (fun _ => h2.of_keeps (setFlag_keeps ..)) fun _ => h2
  have h4 : Vacant c s4 := Vacant.ite (fun _ => h3.of_keeps (logEntry_keeps ..)) fun _ => h3
  have h5 : Vacant c s5 := complete_vacant h4 ..
  clear_value s5
  exact Vacant.ite (fun _ => h5.of_keeps (releaseHold_keeps ..)) fun _ => h5

theorem abortDrawer_vacant (h : Vacant c s) (d : Nat) : Vacant c (abortDrawer d s) := by
  unfold abortDrawer
  extract_lets +onlyGivenNames jobs x
  have hx : Vacant c x := h.of_keeps (modDrawer_keeps ..)
  exact hx.foldl (fun y j hy => (finishDrw_vacant hy ..).of_keeps (noteStopped_keeps ..)) _

theorem stopJob_vacant (h : Vacant c s) (l : Nat) (j : PlnJob) (status : Nat) : Vacant c (stopJob l j status s) := by
  unfold stopJob endJob
  extract_lets +onlyGivenNames x
  have hx : Vacant c x := (h.of_keeps (failPlane_keeps ..)).of_keeps (clearLane_keeps ..)
  exact (complete_vacant hx ..).of_keeps (reloadPending_keeps ..)

theorem abortQueues_vacant (h : Vacant c s) (n : Nat) : Vacant c (abortQueues n s) := by
  unfold abortQueues
  extract_lets +onlyGivenNames q x y
  have hx : Vacant c x := h.of_keeps (modChest_keeps ..)
  have hy : Vacant c y := hx.foldl (fun z j hz => complete_vacant hz ..) _
  exact hy.foldl (fun z j hz => complete_vacant hz ..) _

theorem finishRun_vacant (h : Vacant c s) (wdog : Bool) (r : CalRun) : Vacant c (finishRun wdog r s) := by
  unfold finishRun
  extract_lets +onlyGivenNames y x
  have hy : Vacant c y := h.of_keeps (setFlag_keeps ..)
  have hx : Vacant c x := Vacant.ite
    (fun _ => ((h.of_keeps (bump_keeps ..)).of_keeps (setFlag_keeps ..)).of_keeps (logEntry_keeps ..))
    fun _ => Vacant.ite (fun _ => hy.of_keeps (logEntry_keeps ..)) fun _ => hy
  clear_value x
  split
  · extract_lets +onlyGivenNames y
    have hy : Vacant c y := hx.of_keeps (modDie_keeps ..)
    exact Vacant.ite (fun _ => hy) fun _ => hy.of_keeps (modDie_keeps ..)
  · exact complete_vacant hx ..

theorem finishRuns_vacant (h : Vacant c s) : Vacant c (finishRuns s) :=
  Vacant.foldl (h.of_keeps (calRuns_keeps ..)) (fun x r hx => finishRun_vacant hx false r) _

theorem chestReset_vacant (h : Vacant c s) (n : Nat) : Vacant c (chestReset n s) := by
  unfold chestReset
  extract_lets +onlyGivenNames s1 s2 s3 c4 s4
  have h1 : Vacant c s1 := h.foldl (fun x l hx => by
    split
    · exact stopJob_vacant hx ..
    · exact hx) _
  have h2 : Vacant c s2 := abortQueues_vacant h1 n
  have h3 : Vacant c s3 := h2.foldl (fun x d hx => (abortDrawer_vacant hx d).of_keeps (modDrawer_keeps ..)) ((List.range 64).map (64 * n + ·))
  clear_value s3
  have h4 : Vacant c s4 := h3.of_doors rfl
  clear_value s4
  exact acceptHeld_vacant (((finishRuns_vacant h4).of_keeps (noteEngineReset_keeps ..)).of_keeps (reloadPending_keeps ..)) n

theorem dropLane_vacant (h : Vacant c s) (n l : Nat) (j : PlnJob) : Vacant c (dropLane n l j s) := by
  unfold dropLane
  extract_lets +onlyGivenNames fires x
  have hx : Vacant c x := (h.of_keeps (failPlane_keeps ..)).of_keeps (clearLane_keeps ..)
  clear_value x
  refine Vacant.ite (fun _ => ?_) fun _ => hx
  have hy : Vacant c (rowWatchdog n l j x).2 := hx.of_keeps (rowWatchdog_keeps ..)
  exact Vacant.ite (fun _ => chestReset_vacant hy n) fun _ => hy

/-! ## The parts of a context reset -/

theorem dropProgramming_vacant (h : Vacant c s) (ctx : Nat) : Vacant c (dropProgramming ctx s) := by
  unfold dropProgramming
  extract_lets +onlyGivenNames x discard
  have hx : Vacant c x := h.foldl (fun y e hy => by
    extract_lets +onlyGivenNames z
    have hz : Vacant c z := hy.foldl (fun w l hw => by
      split
      · exact Vacant.ite (fun _ => dropLane_vacant hw ..) fun _ => hw
      · exact hw) _
    exact acceptHeld_vacant ((hz.of_keeps (modChest_keeps ..)).of_keeps (reloadPending_keeps ..)) _) _
  exact hx.of_doors rfl

theorem dropContextWork_vacant (h : Vacant c s) (ctx : Nat) : Vacant c (dropContextWork ctx s) := by
  unfold dropContextWork
  extract_lets +onlyGivenNames s1 m2 s2 s3 s4
  have h2 : Vacant c s2 := h.of_doors rfl
  have h3 : Vacant c s3 := h2.foldl (fun x u hx => hx.of_keeps (dropLaunches_keeps ..)) _
  exact dropProgramming_vacant (h3.of_keeps (calRuns_keeps ..)) ctx

theorem endDescriptor_vacant (h : Vacant c s) (ctx tag status : Nat) : Vacant c (endDescriptor ctx tag status s) := by
  unfold endDescriptor
  split
  · exact h
  · split
    · refine Vacant.ite (fun _ => h) fun _ => ?_
      exact completeWith_vacant (emitHist_vacant (h.of_keeps (setBucket_keeps ..)) ..) ..
    · refine Vacant.ite (fun _ => h) fun _ => ?_
      exact completeWith_vacant (emitHist_vacant (h.of_keeps (setBucket_keeps ..)) ..) ..

theorem abortBucket_vacant (h : Vacant c s) (ctx tag : Nat) : Vacant c (abortBucket ctx tag s) := by
  unfold abortBucket
  split
  · exact h
  · refine Vacant.ite (fun _ => h) fun _ => ?_
    extract_lets +onlyGivenNames step s1 s2 r e s3 s4
    have h1 : Vacant c s1 := (h.of_keeps (setBucket_keeps ..)).of_keeps (dropBucketWork_keeps ..)
    have h2 : Vacant c s2 := (h1.of_keeps (setFlag_keeps ..)).of_keeps (bump_keeps ..)
    have h3 : Vacant c s3 := h2.of_keeps (logEntry_keeps ..)
    have h4 : Vacant c s4 := h3.foldl (fun x w hx => hx.of_keeps (sendRank_keeps ..)) _
    clear_value s4
    exact endDescriptor_vacant h4 ..

end

/-! ## Context resets -/

theorem contextDropped_vacant {c : Nat} (requester ctx : Nat) {s : State} (h : Vacant c s ∨ c = ctx) :
    Vacant c (contextDropped requester ctx s) := by
  unfold contextDropped
  extract_lets +onlyGivenNames h0 s0 s1 s2 s3
  have k0 : Vacant c s0 := ⟨fun e he => by
    rcases h with h | rfl
    · rcases mem_tabSet he with he | rfl
      · exact h.absent e he
      · exact absurd rfl (mem_tabSet_default he)
    · exact mem_tabSet_default he⟩
  have k1 : Vacant c s1 := k0.foldl (fun x u hx => hx.of_keeps (resetUnitWith_keeps ..)) _
  have k2 : Vacant c s2 := k1.foldl (fun x tag hx => abortBucket_vacant hx ..) _
  have k3 : Vacant c s3 := (dropContextWork_vacant k2 ctx).of_keeps (dropExchange_keeps ..)
  clear_value s3
  exact (k3.of_doors (t := { s3 with steps := tabSet {} s3.steps ctx {}, stagedMaps := tabSet [] s3.stagedMaps ctx [] }) rfl).of_keeps
    (clearStalled_keeps ..)

/-- A context reset takes the context's page from the table, and puts none there. -/
theorem contextResetOf_vacant {c : Nat} (requester ctx : Nat) {s : State} (h : Vacant c s ∨ c = ctx) :
    Vacant c (contextResetOf requester ctx s) := by
  rw [contextResetOf_eq]
  exact ((contextDropped_vacant requester ctx h).of_keeps (readyIfIdle_keeps ..)).of_keeps (endContextReset_keeps ..)

/-- The reset of all contexts leaves no page but that of context 0. -/
theorem resetAllContexts_vacant {c : Nat} (requester : Nat) (s : State) (h1 : 1 ≤ c) (h15 : c ≤ 15) :
    Vacant c (resetAllContexts requester s) := by
  have hl : ∀ (l : List Nat) (x : State), Vacant c x ∨ c - 1 ∈ l →
      Vacant c (l.foldl (fun s k => contextResetOf requester (k + 1) s) x) := by
    intro l
    induction l with
    | nil => exact fun x h => h.resolve_right List.not_mem_nil
    | cons k l ih =>
      intro x h
      rw [List.foldl_cons]
      refine ih (contextResetOf requester (k + 1) x) ?_
      rcases h with h | h
      · exact .inl (contextResetOf_vacant requester (k + 1) (.inl h))
      · rcases List.mem_cons.1 h with h | h
        · exact .inl (contextResetOf_vacant requester (k + 1) (.inr (by omega)))
        · exact .inr h
  unfold resetAllContexts
  exact hl (List.range 15) s (.inr (List.mem_range.2 (by omega)))

end Sys2Proof.Machine

/-!
SUPPORT. Context resets and Hutch's own watchdog (R411, R414): what they drop has no part in the count of Hutch resets, in RCV_CTRL and in
an activation.
-/
namespace Sys2Proof.Machine
set_option Elab.async false
open Sys2Proof.Safety

/-- The count of Hutch resets, RCV_CTRL and the phase of an activation are as they were. -/
structure Undisturbed (s t : State) : Prop where
  count : counter t cRcvHutch = counter s cRcvHutch
  ctrl : reg t rRcvCtrl = reg s rRcvCtrl
  act : t.fwu.act = s.fwu.act

theorem Undisturbed.refl (s : State) : Undisturbed s s := ⟨rfl, rfl, rfl⟩

theorem Undisturbed.trans {s x t : State} (h : Undisturbed s x) (k : Undisturbed x t) : Undisturbed s t :=
  ⟨k.count.trans h.count, k.ctrl.trans h.ctrl, k.act.trans h.act⟩

/-- An operation whose frame leaves the counters of RCV, the registers and the update state alone: every part but them is in this mask. -/
theorem Undisturbed.of_keeps {s t : State} (k : Keeps 0x1bffffffffffffdb s t) : Undisturbed s t := by
  refine ⟨congrArg BitVec.toNat (k.frame (.counters .rcv) rfl cRcvHutch rfl), ?_, congrArg Fwu.act (k.frame .firmware rfl)⟩
  unfold reg
  rw [k.frame .registers rfl]

theorem Undisturbed.foldl {α : Type} {f : State → α → State} (hf : ∀ x a, Undisturbed x (f x a)) (l : List α) (s : State) :
    Undisturbed s (l.foldl f s) := by
  induction l generalizing s with
  | nil => exact .refl s
  | cons a l ih => exact (hf s a).trans (ih (f s a))

theorem Undisturbed.ite {p : Prop} [Decidable p] {s x y : State} (h : Undisturbed s x) (k : Undisturbed s y) :
    Undisturbed s (if p then x else y) := by
  split
  · exact h
  · exact k

/-! ## Engine resets -/

/-- An engine's reset is counted elsewhere. -/
theorem noteEngineReset_undisturbed (s : State) : Undisturbed s (noteEngineReset s) :=
  ⟨counter_bump_ne _ _ _ _ (by decide), rfl, rfl⟩

theorem reg_setReg_ne {off k : Nat} (v : Nat) (s : State) (h : k ≠ off) : reg (setReg off v s) k = reg s k := by
  unfold reg setReg
  dsimp only
  rw [tabGet_tabSet_ne _ _ _ _ _ h]

theorem setReg_undisturbed {off : Nat} (v : Nat) (s : State) (h : rRcvCtrl ≠ off) : Undisturbed s (setReg off v s) :=
  ⟨rfl, reg_setReg_ne v s h, rfl⟩

theorem takeOutOfService_undisturbed {off : Nat} (bit source unit : Nat) (s : State) (h : rRcvCtrl ≠ off) :
    Undisturbed s (takeOutOfService off bit source unit s) :=
  (setReg_undisturbed (reg s off ||| 2 ^ bit) s h).trans (.of_keeps ((setFlag_keeps ..).trans (logEntry_keeps ..)))

theorem drsReset_undisturbed (u : Nat) (j : DrsJob) (s : State) : Undisturbed s (drsReset u j s) := by
  unfold drsReset
  extract_lets +onlyGivenNames now off s1 s2 s3
  have h1 : Undisturbed s s1 := ⟨rfl, rfl, rfl⟩
  clear_value s1
  have h2 : Undisturbed s1 s2 := .trans (.of_keeps ((setFlag_keeps ..).trans (bump_keeps ..))) (noteEngineReset_undisturbed _)
  clear_value s2
  have h3 : Undisturbed s2 s3 := .of_keeps (logEntry_keeps ..)
  clear_value s3
  exact ((h1.trans h2).trans h3).trans (.ite (takeOutOfService_undisturbed _ _ _ _ (by decide)) (.refl _))

theorem crzReset_undisturbed (u : Nat) (j : SumJob) (s : State) : Undisturbed s (crzReset u j s) := by
  unfold crzReset
  extract_lets +onlyGivenNames now off s1 e1 e2 s2
  have h1 : Undisturbed s s1 := .of_keeps (modCrz_keeps ..)
  clear_value s1
  have h2 : Undisturbed s1 s2 := (noteEngineReset_undisturbed _).trans (.of_keeps (logEntry_keeps ..))
  clear_value s2
  exact (h1.trans h2).trans (.ite (takeOutOfService_undisturbed _ _ _ _ (by decide)) (.refl _))

/-! ## Programming that is dropped -/

/-- A Chest whose deferred reload is due leaves the list of those that wait; the activation goes on as it was. -/
theorem reloadPending_undisturbed (c : Nat) (s : State) : Undisturbed s (reloadPending c s) := by
  unfold reloadPending
  exact .ite ⟨rfl, rfl, rfl⟩ (.refl _)

theorem stopJob_undisturbed (l : Nat) (j : PlnJob) (status : Nat) (s : State) : Undisturbed s (stopJob l j status s) := by
  unfold stopJob endJob
  exact .trans (.of_keeps (((failPlane_keeps ..).trans (clearLane_keeps ..)).trans (complete_keeps ..))) (reloadPending_undisturbed ..)

theorem chestReset_undisturbed (n : Nat) (s : State) : Undisturbed s (chestReset n s) := by
  unfold chestReset
  extract_lets +onlyGivenNames s1 s2 s3 c4 s4
  have h1 : Undisturbed s s1 := .foldl (fun x l => by
    split
    · exact stopJob_undisturbed ..
    · exact .refl _) _ _
  clear_value s1
  have h2 : Undisturbed s1 s2 := .of_keeps (abortQueues_keeps ..)
  clear_value s2
  have h3 : Undisturbed s2 s3 := .foldl (fun x d => .of_keeps ((abortDrawer_keeps ..).trans (modDrawer_keeps ..))) _ _
  clear_value s3
  have h4 : Undisturbed s3 s4 := ⟨rfl, rfl, rfl⟩
  clear_value s4
  have h5 : Undisturbed s4 (noteEngineReset (finishRuns s4)) := .trans (.of_keeps (finishRuns_keeps ..)) (noteEngineReset_undisturbed _)
  exact ((((h1.trans h2).trans h3).trans h4).trans h5).trans
    ((reloadPending_undisturbed ..).trans (.of_keeps (acceptHeld_keeps ..)))

theorem dropLane_undisturbed (n l : Nat) (j : PlnJob) (s : State) : Undisturbed s (dropLane n l j s) := by
  unfold dropLane
  extract_lets +onlyGivenNames fires x
  have hx : Undisturbed s x := .of_keeps ((failPlane_keeps ..).trans (clearLane_keeps ..))
  clear_value x
  have hy : Undisturbed x (rowWatchdog n l j x).2 := .of_keeps (rowWatchdog_keeps ..)
  exact .ite (.ite ((hx.trans hy).trans (chestReset_undisturbed ..)) (hx.trans hy)) hx

theorem dropProgramming_undisturbed (ctx : Nat) (s : State) : Undisturbed s (dropProgramming ctx s) := by
  unfold dropProgramming
  extract_lets +onlyGivenNames x discard
  have hx : Undisturbed s x := .foldl (fun y e => by
    extract_lets +onlyGivenNames z
    have hz : Undisturbed y z := .foldl (fun w l => by
      split
      · exact .ite (dropLane_undisturbed ..) (.refl _)
      · exact .refl _) _ _
    clear_value z
    exact hz.trans (.trans (.trans (.of_keeps (modChest_keeps ..)) (reloadPending_undisturbed ..)) (.of_keeps (acceptHeld_keeps ..)))) _ _
  exact ⟨hx.count, hx.ctrl, hx.act⟩

/-! ## The parts of a context reset -/

theorem dropLaunches_undisturbed (ctx u : Nat) (s : State) : Undisturbed s (dropLaunches ctx u s) := by
  have hr : Undisturbed s (resetWithContext ctx u s) := by
    unfold resetWithContext
    split
    · exact .ite (drsReset_undisturbed ..) (.refl _)
    · exact .refl _
  exact ⟨hr.count, hr.ctrl, hr.act⟩

theorem dropContextWork_undisturbed (ctx : Nat) (s : State) : Undisturbed s (dropContextWork ctx s) := by
  unfold dropContextWork
  extract_lets +onlyGivenNames s1 m2 s2 s3 s4
  have h2 : Undisturbed s s2 := ⟨rfl, rfl, rfl⟩
  clear_value s2
  have h3 : Undisturbed s2 s3 := .foldl (fun x u => dropLaunches_undisturbed ctx u x) _ _
  clear_value s3
  exact ((h2.trans h3).trans (.of_keeps (calRuns_keeps ..))).trans (dropProgramming_undisturbed ..)

theorem resetUnitWith_undisturbed (ctx u : Nat) (s : State) : Undisturbed s (resetUnitWith ctx u s) := by
  unfold resetUnitWith
  split
  · exact .ite (crzReset_undisturbed ..) (.refl _)
  · exact .refl _

/-- The exchange registers of a context are not RCV_CTRL. -/
theorem dropExchange_undisturbed {ctx : Nat} (s : State) (h : ctx ≤ 15) : Undisturbed s (dropExchange ctx s) := by
  refine ⟨rfl, ?_, rfl⟩
  unfold reg dropExchange
  dsimp only
  rw [tabGet_filter _ _ _ _ fun v => ?_]
  have hk : ¬rRcvCtrl < rRdxCtx ctx + 0x1000 := by
    show ¬0x0B00008 < 0x0610000 + 0x1000 * ctx + 0x1000
    omega
  simp [hk]

theorem clearStalled_undisturbed {ctx : Nat} (s : State) (h : ctx ≤ 15) : Undisturbed s (clearStalled ctx s) := by
  refine setReg_undisturbed _ s ?_
  show 0x0B00008 ≠ 0x0302008 + 0x10 * ctx
  omega

theorem contextResetOf_undisturbed (requester : Nat) {ctx : Nat} (s : State) (h : ctx ≤ 15) :
    Undisturbed s (contextResetOf requester ctx s) := by
  have hd : Undisturbed s (contextDropped requester ctx s) := by
    unfold contextDropped
    extract_lets +onlyGivenNames h0 s0 s1 s2 s3
    have k0 : Undisturbed s s0 := ⟨rfl, rfl, rfl⟩
    clear_value s0
    have k1 : Undisturbed s0 s1 := .foldl (fun x u => resetUnitWith_undisturbed ctx u x) _ _
    clear_value s1
    have k2 : Undisturbed s1 s2 := .foldl (fun x tag => .of_keeps (abortBucket_keeps ..)) _ _
    clear_value s2
    have k3 : Undisturbed s2 s3 := (dropContextWork_undisturbed ctx s2).trans (dropExchange_undisturbed _ h)
    clear_value s3
    have k4 : Undisturbed s3 { s3 with steps := tabSet {} s3.steps ctx {}, stagedMaps := tabSet [] s3.stagedMaps ctx [] } :=
      ⟨rfl, rfl, rfl⟩
    exact ((((k0.trans k1).trans k2).trans k3).trans k4).trans (clearStalled_undisturbed _ h)
  rw [contextResetOf_eq]
  exact hd.trans (.of_keeps ((readyIfIdle_keeps ..).trans (endContextReset_keeps ..)))

theorem resetAllContexts_undisturbed (requester : Nat) (s : State) : Undisturbed s (resetAllContexts requester s) := by
  unfold resetAllContexts
  have hl : ∀ (l : List Nat) (x : State), (∀ k ∈ l, k < 15) →
      Undisturbed x (l.foldl (fun s k => contextResetOf requester (k + 1) s) x) := by
    intro l
    induction l with
    | nil => exact fun x _ => .refl x
    | cons k l ih =>
      intro x hl
      rw [List.foldl_cons]
      exact (contextResetOf_undisturbed requester x (hl k List.mem_cons_self)).trans
        (ih (contextResetOf requester (k + 1) x) fun j hj => hl j (List.mem_cons_of_mem _ hj))
  exact hl _ s fun k hk => List.mem_range.1 hk

end Sys2Proof.Machine

/-!
SUPPORT and the first part of the statement on watchdogs (O19): Hutch's heartbeat, the third miss, what follows the third reset, and the
restoration (R411, R416, R417, R422).
-/
namespace Sys2Proof.Machine
set_option Elab.async false
open Sys2Proof.Safety

/-! ## What a Hutch reset leaves -/

/-- What every Hutch reset leaves: it is counted, flagged and remembered, the heartbeat is awaited, and no more of the module's own fields
changes than context resets change. -/
structure HutchReset (s t : State) : Prop where
  awaited : t.rcv.hutchAwaited = true
  unarmed : t.rcv.hbArmed = false
  misses : t.rcv.hbMisses = 0
  times : t.rcv.hutchTimes = (s.mod.devTime :: s.rcv.hutchTimes).take 3
  flag : flagUp t .rcv 0 = true
  counted : Counted s t cRcvHutch 1
  mod : ModuleSettles s.mod t.mod
  pending : t.pending = s.pending
  ctrl : reg t rRcvCtrl = reg s rRcvCtrl
  act : t.fwu.act = s.fwu.act

/-- The note of a Hutch reset, after operations that leave alone what it counts on. -/
theorem noteHutchReset_notes {s x : State} (hm : ModuleSettles s.mod x.mod) (hu : Undisturbed s x)
    (ht : x.rcv.hutchTimes = s.rcv.hutchTimes) (hp : x.pending = s.pending) : HutchReset s (noteHutchReset x) := by
  have hd : x.mod.devTime = s.mod.devTime := by rcases hm with e | ⟨_, e⟩ <;> rw [e]
  have hf : flagUp (noteHutchReset x) .rcv 0 = flagUp (setFlag .rcv 0 x) .rcv 0 := rfl
  have hc := counted_bump cRcvHutch 1 (setFlag .rcv 0 x)
  refine ⟨rfl, rfl, rfl, ?_, ?_, ?_, hm, hp, hu.ctrl, hu.act⟩
  · show (x.mod.devTime :: x.rcv.hutchTimes).take 3 = _
    rw [hd, ht]
  · rw [hf, flagUp_setFlag _ _ _ _ _ (by decide)]
    simp
  · show counter (bump cRcvHutch 1 (setFlag .rcv 0 x)) cRcvHutch = _
    rw [← hu.count]
    exact hc

/-- The dump leaves Hutch's reset times alone. -/
theorem crashDump_hutchTimes (cause : Nat) (s : State) : (crashDump cause s).rcv.hutchTimes = s.rcv.hutchTimes := by
  unfold crashDump
  split
  · rfl
  · extract_lets d w cells s0 m0 r0 t
    have h0 : s0.rcv = s.rcv := (noteSlices_keeps (F := 0x80008000000442) s).frame .recovery rfl
    have h1 : t.rcv.hutchTimes = s0.rcv.hutchTimes := rfl
    clear_value t s0
    have h2 : (summaryEntries w (setFlag .rcv 4 t)).rcv = (setFlag .rcv 4 t).rcv :=
      (summaryEntries_keeps (F := 0x2) w _).frame .recovery rfl
    rw [h2, setFlag_rcv, h1, h0]

/-- A Hutch reset from its dump on: the context resets, the entry and the note. -/
theorem hutchReset_afterContexts {s x y : State} (hx : Keeps 0x80048000000652 s x) (hxu : Undisturbed s x)
    (hxt : x.rcv.hutchTimes = s.rcv.hutchTimes) (hm : ModuleSettles x.mod y.mod) (hu : Undisturbed x y) (hk : Keeps 0x5f705f7159ff767 x y)
    (e : LogEntry) : HutchReset s (noteHutchReset (logEntry e y)) := by
  rw [hx.frame .module rfl] at hm
  have ht : y.rcv.hutchTimes = s.rcv.hutchTimes := (congrArg Rcv.hutchTimes (hk.frame .recovery rfl)).trans hxt
  have hz : Undisturbed y (logEntry e y) := .of_keeps (logEntry_keeps ..)
  exact noteHutchReset_notes (x := logEntry e y) hm ((hxu.trans hu).trans hz) ht (hk.queue.trans hx.queue)

/-- The entry and the note touch no doorbell page. -/
theorem noteHutchReset_doors (e : LogEntry) (y : State) : (noteHutchReset (logEntry e y)).doors = y.doors := rfl

theorem hutchReset_afterDump {s x : State} (hx : Keeps 0x80048000000652 s x) (hxu : Undisturbed s x)
    (hxt : x.rcv.hutchTimes = s.rcv.hutchTimes) (e : LogEntry) :
    HutchReset s (noteHutchReset (logEntry e (resetAllContexts 2 x))) := by
  exact hutchReset_afterContexts hx hxu hxt (resetAllContexts_module 2 x) (resetAllContexts_undisturbed 2 x) (resetAllContexts_keeps ..) e

theorem hutchReset_resets (s : State) : HutchReset s (hutchReset s) ∧ ∀ c, 1 ≤ c → c ≤ 15 → door (hutchReset s) c = {} := by
  have hx : Keeps 0x80048000000652 s (if regBit s rRcvCtrl 2 then crashDump 1 s else s) :=
    Keeps.ite (crashDump_keeps ..) (Keeps.refl s)
  have hxt : (if regBit s rRcvCtrl 2 then crashDump 1 s else s).rcv.hutchTimes = s.rcv.hutchTimes := by
    split
    · exact crashDump_hutchTimes ..
    · rfl
  have h := hutchReset_afterDump hx (.ite (.of_keeps (crashDump_keeps ..)) (.refl s)) hxt { source := 11, action := 9, detail := 1 }
  unfold hutchReset
  exact ⟨h, fun c h1 h15 => ((resetAllContexts_vacant 2 _ h1 h15).of_doors (noteHutchReset_doors ..)).door⟩

/-- The last reset is the third within 600 s where the one before the last of before it lies no further back. -/
theorem thirdHutchReset_iff {s t : State} (h : t.rcv.hutchTimes = (s.mod.devTime :: s.rcv.hutchTimes).take 3) :
    thirdHutchReset t = true ↔ 2 ≤ s.rcv.hutchTimes.length ∧ s.mod.devTime ≤ s.rcv.hutchTimes.getD 1 0 + 600000000000 := by
  unfold thirdHutchReset
  rw [h]
  match s.rcv.hutchTimes with
  | [] => simp
  | [_] => simp
  | _ :: _ :: _ => simp

theorem thirdReset_iff (times : List Nat) (now : Nat) :
    thirdReset times now = true ↔ 2 ≤ times.length ∧ now ≤ times.getD 1 0 + 600000000000 := by
  unfold thirdReset
  match times with
  | [] => simp
  | [_] => simp
  | _ :: _ :: _ => simp

/-! ## The heartbeat and its misses -/

/-- The watchdog counts misses: the module is in service, the watchdog is armed, and no activation has suspended it. -/
theorem missCounted {s : State} (hs : inService s = true) (ha : s.rcv.hbArmed = true) (hh : hbHeld s = false)
    (hr : s.rcv.hbMisses < 2 ∨ resetWaits s = false) :
    ¬(!(inService s && s.rcv.hbArmed && !hbHeld s) || (decide (2 ≤ s.rcv.hbMisses) && resetWaits s)) = true := by
  rw [hs, ha, hh]
  rcases hr with h | h
  · simp [Nat.not_le.2 h]
  · simp [h]

theorem heartbeat_ignored (s : State) (h : hutchDue s = true) : exec .hutchHeartbeat s = .next s := if_pos (by rw [h]; simp)

theorem heartbeat_restarts (s : State) (hs : inService s = true) (h : hutchDue s = false) : exec .hutchHeartbeat s =
    .next { s with rcv := { s.rcv with
      hutchAwaited := false, hbArmed := (s.rcv.hutchAwaited || s.rcv.hbArmed), hbMisses := 0 } } := by
  refine (if_neg (by rw [hs, h]; decide)).trans ?_
  cases ha : s.rcv.hutchAwaited with
  | true => rfl
  | false =>
    refine (if_neg (by decide)).trans ?_
    rw [Bool.false_or, ← ha]

theorem miss_suspended (s : State) (h : hbHeld s = true) : exec .hutchHeartbeatMiss s = .next s := if_pos (by rw [h]; simp)

theorem miss_counts (s : State) (hs : inService s = true) (ha : s.rcv.hbArmed = true) (hh : hbHeld s = false) (hm : s.rcv.hbMisses < 2) :
    exec .hutchHeartbeatMiss s = .next { s with rcv := { s.rcv with hbMisses := s.rcv.hbMisses + 1 } } :=
  (if_neg (missCounted hs ha hh (.inl hm))).trans (if_pos (by omega))

section
variable {s : State} (hs : inService s = true) (ha : s.rcv.hbArmed = true) (hh : hbHeld s = false)
  (hr : s.rcv.hbMisses < 2 ∨ resetWaits s = false) (hm : 2 ≤ s.rcv.hbMisses)
include hs ha hh hr hm

/-- The third miss, and no warm reset that includes it. -/
theorem miss_resets (hw : missWarms s = false) :
    exec .hutchHeartbeatMiss s = .next (if thirdHutchReset (hutchReset s) then escalateHutch 3 (hutchReset s) else hutchReset s) :=
  ((if_neg (missCounted hs ha hh hr)).trans (if_neg (by omega))).trans (if_neg (by rw [hw]; decide))

omit hr in
theorem missWarms_iff :
    missWarms s = true ↔ (2 ≤ s.rcv.hutchTimes.length ∧ s.mod.devTime ≤ s.rcv.hutchTimes.getD 1 0 + 600000000000) ∧ regBit s rRcvCtrl 1 = true := by
  unfold missWarms missResets
  rw [Bool.and_eq_true, Bool.and_eq_true, thirdReset_iff, hs, ha, hh]
  simp [hm]

/-- The third miss resets Hutch, and nothing follows where it is not the third reset. -/
theorem miss_thirdResets (ht : s.rcv.hutchTimes.length < 2 ∨ s.rcv.hutchTimes.getD 1 0 + 600000000000 < s.mod.devTime) :
    Completes .hutchHeartbeatMiss s fun t => HutchReset s t ∧ ∀ c, 1 ≤ c → c ≤ 15 → door t c = {} := by
  have hw : missWarms s = false := by
    rw [Bool.eq_false_iff, ne_eq, missWarms_iff hs ha hh hm]
    omega
  have k := hutchReset_resets s
  have h3 : thirdHutchReset (hutchReset s) = false := by
    rw [Bool.eq_false_iff, ne_eq, thirdHutchReset_iff k.1.times]
    omega
  refine ⟨hutchReset s, ?_, k⟩
  rw [miss_resets hs ha hh hr hm hw, h3]
  rfl

end

/-! ## What waits while Hutch is reset -/

theorem ModuleSettles.inService {s t : State} (h : ModuleSettles s.mod t.mod) (hs : inService s = true) : inService t = true := by
  unfold Machine.inService at hs ⊢
  rcases h with e | ⟨_, e⟩
  · rw [e]
    exact hs
  · rw [e]

theorem mainPower_of_inService {s : State} (h : inService s = true) : mainPower s = true := by
  unfold inService at h
  unfold mainPower
  cases hs : s.mod.st with
  | off => rw [hs] at h; cases h
  | standby => rw [hs] at h; cases h
  | booting => rfl
  | ready => rfl
  | running => rfl
  | fenced => rfl
  | recovery => rfl
  | retired => rw [hs] at h; cases h

theorem not_recovery {s : State} (h : inService s = true) : (s.mod.st == .recovery) = false := by
  unfold inService at h
  cases hs : s.mod.st with
  | recovery => rw [hs] at h; cases h
  | off | standby | booting | ready | running | fenced | retired => rfl

theorem missWarms_off {s : State} (h : regBit s rRcvCtrl 1 = false) : missWarms s = false := by
  unfold missWarms
  rw [h, Bool.and_false]

/-- With AUTO_WARM 0 no reset comes to wait through a Hutch reset. -/
theorem resetWaits_hutchReset {s t : State} (k : HutchReset s t) (hs : inService s = true) (hc : regBit s rRcvCtrl 1 = false)
    (hw : resetWaits s = false) : resetWaits t = false := by
  have ht : inService t = true := k.mod.inService hs
  have hct : regBit t rRcvCtrl 1 = false := by unfold regBit; rw [k.ctrl]; exact hc
  unfold resetWaits at hw ⊢
  rw [k.pending]
  rw [List.any_eq_false] at hw ⊢
  intro i hi h
  refine hw i hi ?_
  have open_s : rcvOpen s = true := rcvOpen_of (.inl hs)
  have power_s : mainPower s = true := mainPower_of_inService hs
  have open_t : rcvOpen t = true := rcvOpen_of (.inl ht)
  have power_t : mainPower t = true := mainPower_of_inService ht
  unfold resetAsked at h ⊢
  cases i
  case deviceWarmReset => rw [open_t] at h; rw [open_s]; exact h
  case deviceColdReset => rw [open_t] at h; rw [open_s]; exact h
  case mctpWarmReset => rw [power_t] at h; rw [power_s]; exact h
  case mctpColdReset => rw [power_t] at h; rw [power_s]; exact h
  case hutchRestoreTimeout => rw [hct, Bool.and_false] at h; cases h
  case hutchHeartbeatMiss => rw [missWarms_off hct] at h; cases h
  case activateWatchdog => rw [k.act] at h; exact h
  case fwuActivate => rw [not_recovery ht, Bool.false_and] at h; cases h
  case activateFirmware => rw [not_recovery ht, Bool.false_and] at h; cases h
  all_goals exact h

/-- A note of a Hutch reset asks for no cold reset. -/
theorem subsumed_noteHutchReset {s : State} (h : subsumed false s = false) : subsumed false (noteHutchReset s) = false := by
  have hc : coldWaits (noteHutchReset s) = true → coldWaits s = true := by
    unfold coldWaits
    rw [List.any_eq_true, List.any_eq_true]
    rintro ⟨i, hi, h⟩
    refine ⟨i, hi, ?_⟩
    rw [beq_iff_eq] at h ⊢
    unfold resetAsked at h ⊢
    cases i
    case hutchRestoreTimeout => dsimp only at h; split at h <;> cases h
    case hutchHeartbeatMiss => dsimp only at h; split at h <;> cases h
    all_goals exact h
  unfold subsumed at h ⊢
  rw [Bool.or_eq_false_iff] at h ⊢
  obtain ⟨hw, ha⟩ := h
  refine ⟨?_, ha⟩
  cases hy : coldWaits (noteHutchReset s) with
  | false => rfl
  | true => rw [hc hy] at hw; cases hw

/-! ## What follows the third reset -/

/-- The escalation with AUTO_WARM 0: Booting, with Hutch held in reset (R411). -/
theorem escalateHutch_holds (cause : Nat) (s : State) (hc : regBit s rRcvCtrl 1 = false) (hw : resetWaits s = false) :
    let t := escalateHutch cause s
    t.mod = { s.mod with st := .booting, boot := .idle } ∧ t.rcv.hutchHeld = true ∧ t.flags = s.flags ∧ t.cnt = s.cnt
      ∧ Logged s t { source := 11, detail := cause } := by
  have e : escalateHutch cause s = (let x := logEntry { source := 11, detail := cause } s
      { x with
        mod := { x.mod with st := .booting, boot := .idle }
        rcv := { x.rcv with hutchHeld := true, hutchAwaited := false, hbArmed := false } }) :=
    (if_neg (by rw [hc]; decide)).trans (if_neg (by rw [hw]; decide))
  intro t
  unfold t
  rw [e]
  exact ⟨rfl, rfl, rfl, rfl, rfl, rfl⟩

/-- The escalation with AUTO_WARM 1: a device warm reset (R411). -/
theorem escalateHutch_warms (cause : Nat) (s : State) (hc : regBit s rRcvCtrl 1 = true) :
    escalateHutch cause s = deviceReset false false 11 cause true s := if_pos hc

/-- A device-level reset leaves the counters of RCV alone. -/
theorem deviceReset_counted {off n : Nat} (cold mctp : Bool) (source cause : Nat) (dump : Bool) {s x : State} (h : Counted s x off n)
    (ho : blockCode off = Block.rcv.code) : Counted s (deviceReset cold mctp source cause dump x) off n := by
  unfold Counted counter at h ⊢
  rw [(deviceReset_keeps (F := 0x9ff0dff1ffff7ff) cold mctp source cause dump x).frame (.counters .rcv) rfl off ho]
  exact h

/-- A Hutch reset that the escalation with AUTO_WARM 0 follows. -/
theorem HutchReset.held {s x : State} (k : HutchReset s x) (hs : inService s = true) (hc : regBit s rRcvCtrl 1 = false)
    (hw : resetWaits s = false) :
    let t := escalateHutch 3 x
    t.mod.st = .booting ∧ t.rcv.hutchHeld = true ∧ t.mod.resetTimes = s.mod.resetTimes ∧ flagUp t .rcv 0 = true
      ∧ Counted s t cRcvHutch 1 := by
  have hcx : regBit x rRcvCtrl 1 = false := by unfold regBit; rw [k.ctrl]; exact hc
  obtain ⟨hmod, hheld, hflags, hcnt, _⟩ := escalateHutch_holds 3 x hcx (resetWaits_hutchReset k hs hc hw)
  refine ⟨by rw [hmod], hheld, ?_, ?_, ?_⟩
  · rw [hmod]
    rcases k.mod with e | ⟨_, e⟩
    · rw [e]
    · rw [e]
  · unfold flagUp flagsOf
    rw [hflags]
    exact k.flag
  · unfold Counted counter
    rw [hcnt]
    exact k.counted

section
variable {s : State} (hs : inService s = true) (ha : s.rcv.hbArmed = true) (hh : hbHeld s = false)
  (hr : s.rcv.hbMisses < 2 ∨ resetWaits s = false) (hm : 2 ≤ s.rcv.hbMisses)
  (h2 : 2 ≤ s.rcv.hutchTimes.length) (h600 : s.mod.devTime ≤ s.rcv.hutchTimes.getD 1 0 + 600000000000)
include hs ha hh hr hm h2 h600

/-- The third Hutch reset within 600 s, with AUTO_WARM 1: a device warm reset that includes it. -/
theorem miss_warms (hc : regBit s rRcvCtrl 1 = true) (hb : subsumed false s = false)
    (ho : outranked (if retires (timesWithReset s) then 2 else 5) s = false) : Completes .hutchHeartbeatMiss s fun t =>
      t.mod.st = (if retires (timesWithReset s) then .retired else .booting)
        ∧ t.mod.resetTimes = (nstTime s :: s.mod.resetTimes).take 4 ∧ flagUp t .rcv 0 = true ∧ Counted s t cRcvHutch 1 := by
  have hw : missWarms s = true := (missWarms_iff hs ha hh hm).2 ⟨⟨h2, h600⟩, hc⟩
  have n := noteHutchReset_notes (s := s) (x := s) (.inl rfl) (.refl s) rfl rfl
  have hn : regBit (noteHutchReset s) rRcvCtrl 1 = true := by unfold regBit; rw [n.ctrl]; exact hc
  have k : SameTrips s (noteHutchReset s) := ⟨rfl, rfl, rfl, rfl⟩
  have r := deviceReset_reboots false false 11 3 true (noteHutchReset s) (subsumed_noteHutchReset hb) (k.notOutranked ho)
  have e : exec .hutchHeartbeatMiss s = .next (escalateHutch 3 (noteHutchReset s)) :=
    ((if_neg (missCounted hs ha hh hr)).trans (if_neg (by omega))).trans (if_pos hw)
  rw [escalateHutch_warms 3 _ hn] at e
  exact ⟨_, e, by rw [r.st, k.timesWithReset], r.kept.times.trans k.timesWithReset, r.kept.flags 0 (by decide) n.flag,
    deviceReset_counted _ _ _ _ _ n.counted rfl⟩

/-- The third, with AUTO_WARM 0: Booting, with Hutch held in reset. -/
theorem miss_holds (hc : regBit s rRcvCtrl 1 = false) : Completes .hutchHeartbeatMiss s fun t =>
    t.mod.st = .booting ∧ t.rcv.hutchHeld = true ∧ t.mod.resetTimes = s.mod.resetTimes ∧ flagUp t .rcv 0 = true
      ∧ Counted s t cRcvHutch 1 := by
  have hw : missWarms s = false := by
    rw [Bool.eq_false_iff, ne_eq, missWarms_iff hs ha hh hm, hc]
    simp
  have k := (hutchReset_resets s).1
  have h3 := (thirdHutchReset_iff k.times).2 ⟨h2, h600⟩
  exact ⟨_, (miss_resets hs ha hh hr hm hw).trans (congrArg Host.Outcome.next (if_pos h3)),
    k.held hs hc (hr.resolve_left (by omega))⟩

end

/-! ## The restoration -/

theorem restore_warms (s : State) (hs : inService s = true) (ha : s.rcv.hutchAwaited = true) (hc : regBit s rRcvCtrl 1 = true)
    (hb : subsumed false s = false) (ho : outranked (if retires (timesWithReset s) then 2 else 5) s = false) :
    Completes .hutchRestoreTimeout s fun t =>
      (t.mod.st = .booting ∨ t.mod.st = .retired) ∧ t.mod.resetTimes = (nstTime s :: s.mod.resetTimes).take 4 := by
  have r := deviceReset_reboots false false 11 2 true s hb ho
  exact ⟨_, (if_pos (by rw [hs, ha]; rfl)).trans (congrArg Host.Outcome.next (escalateHutch_warms 2 s hc)), r.booting_or_retired, r.kept.times⟩

theorem restore_holds (s : State) (hs : inService s = true) (ha : s.rcv.hutchAwaited = true) (hc : regBit s rRcvCtrl 1 = false)
    (hw : resetWaits s = false) : Completes .hutchRestoreTimeout s fun t =>
      t.mod.st = .booting ∧ t.rcv.hutchHeld = true ∧ t.mod.resetTimes = s.mod.resetTimes
        ∧ Logged s t { source := 11, detail := 2 } := by
  obtain ⟨hmod, hheld, _, _, hlog⟩ := escalateHutch_holds 2 s hc hw
  exact ⟨_, if_pos (by rw [hs, ha]; rfl), by rw [hmod], hheld, by rw [hmod], hlog⟩

theorem dumpClear_clears (s : State) (h : inService s = true ∨ s.mod.st = .recovery) :
    exec .dumpClear s = .next { s with rcv := { s.rcv with dumpValid := false } } := if_pos (rcvOpen_of h)

end Sys2Proof.Machine

/-!
SUPPORT. What completions leave of the steps and of the flushes (R263, R413): a step that is open stays open, none is opened, and no flush
ends.
-/
namespace Sys2Proof.Machine
set_option Elab.async false
open Sys2Proof.Safety

/-- Between the two states descriptors may have completed: steps are as open and as abandoned as before, and no flush has ended. -/
structure Closes (s t : State) : Prop where
  idle : ∀ c, (stepCtx s c).opened = none → (stepCtx t c).opened = none
  stays : ∀ c o, (stepCtx s c).opened = some o → ∃ x, (stepCtx t c).opened = some x ∧ x.abandoned = o.abandoned
  flush : ∀ c q f, f ∈ (ringOf s c q).flush → f ∈ (ringOf t c q).flush

theorem Closes.refl (s : State) : Closes s s := ⟨fun _ => id, fun _ o h => ⟨o, h, rfl⟩, fun _ _ _ => id⟩

theorem Closes.trans {s x t : State} (h : Closes s x) (k : Closes x t) : Closes s t := by
  refine ⟨fun c hc => k.idle c (h.idle c hc), fun c o ho => ?_, fun c q f hf => k.flush c q f (h.flush c q f hf)⟩
  obtain ⟨x', hx, hax⟩ := h.stays c o ho
  obtain ⟨t', ht, hat⟩ := k.stays c x' hx
  exact ⟨t', ht, hat.trans hax⟩

theorem Closes.of_same {s t : State} (hd : t.doors = s.doors) (hs : t.steps = s.steps) : Closes s t := by
  have hr : ringOf t = ringOf s := by funext c q; unfold ringOf door; rw [hd]
  have hc : stepCtx t = stepCtx s := by funext c; unfold stepCtx; rw [hs]
  refine ⟨fun c h => ?_, fun c o h => ⟨o, ?_, rfl⟩, fun c q f h => ?_⟩
  · rw [hc]; exact h
  · rw [hc]; exact h
  · rw [hr]; exact h

/-- An operation whose frame leaves the doorbell pages and the steps alone: every part but them is in this mask. -/
theorem Closes.of_keeps {s t : State} (k : Keeps 0x1fffffffffff7fbf s t) : Closes s t :=
  .of_same (k.frame .doors rfl) (k.frame .steps rfl)

theorem Closes.foldl {α : Type} {f : State → α → State} (hf : ∀ x a, Closes x (f x a)) (l : List α) (s : State) :
    Closes s (l.foldl f s) := by
  induction l generalizing s with
  | nil => exact .refl s
  | cons a l ih => exact (hf s a).trans (ih (f s a))

theorem Closes.ite {p : Prop} [Decidable p] {s x y : State} (h : Closes s x) (k : Closes s y) : Closes s (if p then x else y) := by
  split
  · exact h
  · exact k

/-! ## Changes of a step and of a ring -/

theorem stepCtx_modOpen (c : Nat) (f : OpenStep → OpenStep) (s : State) (k : Nat) :
    (stepCtx (modOpen c f s) k).opened = if k = c then (stepCtx s k).opened.map f else (stepCtx s k).opened := by
  unfold modOpen
  rw [stepCtx_modStepCtx]
  split
  · rfl
  · rfl

theorem modOpen_closes (c : Nat) {f : OpenStep → OpenStep} (hf : ∀ o, (f o).abandoned = o.abandoned) (s : State) :
    Closes s (modOpen c f s) := by
  refine ⟨fun k h => ?_, fun k o h => ?_, fun _ _ _ => id⟩
  · rw [stepCtx_modOpen, h]
    split
    · rfl
    · rfl
  · rw [stepCtx_modOpen, h]
    split
    · exact ⟨f o, rfl, hf o⟩
    · exact ⟨o, rfl, rfl⟩

theorem modRing_closes (c q : Nat) {f : Ring → Ring} (hf : ∀ x e, e ∈ x.flush → e ∈ (f x).flush) (s : State) :
    Closes s (modRing c q f s) := by
  refine ⟨fun _ => id, fun _ o h => ⟨o, h, rfl⟩, fun k p e h => ?_⟩
  rw [ringOf_modRing]
  split
  · exact hf _ _ h
  · exact h

theorem setSem_closes (c i : Nat) (v : Word) (s : State) : Closes s (setSem c i v s) := by
  refine ⟨fun _ => id, fun _ o h => ⟨o, h, rfl⟩, fun k q f h => ?_⟩
  have e : (door (setSem c i v s) k).rings = (door s k).rings := by
    unfold setSem
    rw [door_modDoor]
    split
    · rfl
    · rfl
  unfold ringOf at h ⊢
  rw [e]
  exact h

theorem addFlush_closes (c q : Nat) (f : Flush) (s : State) : Closes s (addFlush c q f s) :=
  modRing_closes c q (fun _ _ h => List.mem_append_left _ h) s

/-! ## Completion -/

theorem noteGatherEnd_closes (r : DRef) (b : List Byte) (status : Nat) (s : State) : Closes s (noteGatherEnd r b status s) := by
  unfold noteGatherEnd
  refine .ite (.refl s) (modOpen_closes _ (fun o => ?_) s)
  split
  · split
    · rfl
    · rfl
  · rfl

theorem countStepStatus_closes (r : DRef) (status : Nat) (s : State) : Closes s (countStepStatus r status s) := by
  unfold countStepStatus
  refine .ite (.refl s) (modOpen_closes _ (fun o => ?_) s)
  split
  · rfl
  · rfl

theorem closeDesc_closes (r : DRef) (b : List Byte) (status : Nat) (tail : List Byte) (s : State) :
    Closes s (closeDesc r b status tail s) := by
  unfold closeDesc
  extract_lets +onlyGivenNames x y z
  have hx : Closes s x := .trans (.of_keeps (writeCompletion_keeps ..)) (noteGatherEnd_closes ..)
  have hy : Closes x y := by
    unfold y
    exact modRing_closes _ _ (f := fun q => { q with opened := q.opened.filter (fun d => d.idx != r.idx) }) (fun _ _ h => h) x
  have hz : Closes y z := countStepStatus_closes ..
  exact ((hx.trans hy).trans hz).trans (.ite (.of_keeps (applyStagedMaps_keeps ..)) (.refl z))

theorem afterClose_closes (r : DRef) (b : List Byte) (signal : Bool) (s : State) : Closes s (afterClose r b signal s) := by
  unfold afterClose
  exact .trans (.ite (setSem_closes ..) (.refl s)) (.of_keeps (fireInterrupt_keeps ..))

theorem startFlush_closes (r : DRef) (status : Nat) (s : State) : Closes s (startFlush r status s) := by
  unfold startFlush
  exact .ite (addFlush_closes ..) (.refl s)

theorem closeOut_closes (signal flushes : Bool) (r : DRef) (b : List Byte) (status : Nat) (tail : List Byte) (s : State) :
    Closes s (closeOut signal flushes r b status tail s) := by
  unfold closeOut
  extract_lets +onlyGivenNames sg x
  have hx : Closes s x := closeDesc_closes ..
  clear_value x
  refine hx.trans (.ite ?_ (afterClose_closes ..))
  extract_lets +onlyGivenNames y ds
  have hy : Closes x y := startFlush_closes ..
  have hz : Closes y (closeCovered r.ctx r.ring y) := .foldl (fun z d => closeDesc_closes ..) _ y
  exact (hy.trans hz).trans (.trans (afterClose_closes r b sg _) (.foldl (fun z d => afterClose_closes ..) _ _))

theorem settle_closes (n : Nat) (s : State) : Closes s (settle n s) := by
  induction n generalizing s with
  | zero => exact .refl s
  | succ n ih =>
    unfold settle
    split
    · exact .refl s
    · exact .trans (.trans (.ite (.of_keeps (bump_keeps ..)) (.refl s)) (closeOut_closes ..)) (ih _)

theorem completeWith_closes (signal rejected flushes : Bool) (r : DRef) (status : Nat) (tail : List Byte) (s : State) :
    Closes s (completeWith signal rejected flushes r status tail s) := by
  unfold completeWith
  split
  · exact .refl s
  · exact .trans (.trans (.ite (.of_keeps (bump_keeps ..)) (.refl s)) (closeOut_closes ..)) (settle_closes ..)

/-! ## The context step watchdog (R413) -/

/-- What follows the note of a firing leaves its count and its flag. -/
theorem ctxWatchdog_noted {ctx : Nat} {s t : State} (k : Keeps 0x1000010048044 (noteCtxWatchdog ctx s) t) :
    Counted s t cRcvCtxWdog 1 ∧ flagUp t .rcv 3 = true := by
  have hc : Counted s (noteCtxWatchdog ctx s) cRcvCtxWdog 1 := counted_bump cRcvCtxWdog 1 (setFlag .rcv 3 s)
  have hf : flagUp (noteCtxWatchdog ctx s) .rcv 3 = flagUp (setFlag .rcv 3 s) .rcv 3 := rfl
  refine ⟨?_, ?_⟩
  · unfold Counted counter at hc ⊢
    rw [k.frame (.counters .rcv) rfl cRcvCtxWdog rfl]
    exact hc
  · unfold flagUp flagsOf at hf ⊢
    rw [k.frame (.flags .rcv) rfl, hf]
    have e := flagUp_setFlag .rcv 3 s .rcv 3 (by decide)
    unfold flagUp flagsOf at e
    rw [e]
    simp

/-- A record that carries bytes of its own carries those. -/
theorem tailOf_given (s : State) (r : DRef) (b : List Byte) {tail : List Byte} (h : tail ≠ []) : tailOf s r b tail = tail :=
  if_neg fun hc => h hc.2.1

/-- A completion after operations that leave alone the doorbell pages, the functions, the outputs and the errors, though not the steps. -/
theorem complete_ended_afterSteps {F : Nat} {r : DRef} {s y : State} (k : Keeps F s y)
    (hF : ∀ i ∈ [6, 7, 10, 28], F.testBit i = false) (hd : (findDesc s r).isSome = true) (status : Nat) {tail : List Byte}
    (ht : tail ≠ []) : Ended s (complete r status tail y) r status tail := by
  have hdoors : y.doors = s.doors := k.frame .doors (hF 6 (by decide))
  have hring : ringOf y r.ctx r.ring = ringOf s r.ctx r.ring := by unfold ringOf door; rw [hdoors]
  have hdesc : findDesc y r = findDesc s r := by unfold findDesc; rw [hring]
  obtain ⟨hout, _⟩ := k.frame .output (hF 28 (by decide))
  obtain ⟨herrs, _⟩ := k.frame .errors (hF 10 (by decide))
  have on : Onward r { s with steps := y.steps } y :=
    ⟨k.time, k.frame .functions (hF 7 (by decide)), rfl, congrArg Ring.comp hring, congrArg Ring.sizeLog2 hring,
      by rw [hout], fun c => herrs.trans c, fun d h => ⟨d, hdesc.trans h, rfl, fun _ => rfl⟩⟩
  obtain ⟨d, st, hfind, hst, hrep⟩ := complete_ended on hd status tail
  rw [tailOf_given _ _ _ ht] at hrep
  refine ⟨d, st, hfind, hst, ?_⟩
  rw [tailOf_given _ _ _ ht]
  exact hrep

/-- The module as a STEP_BEGIN that waits is taken back, before its completion. -/
def beginDropped (ctx : Nat) (o : OpenStep) (s : State) : State :=
  clearStalled ctx (modStepCtx ctx (fun c => { c with opened := none }) (applyStagedMaps ctx (applyMapBytes ctx o.mapsAt s)))

/-- The last 16 bytes of the completion of a STEP_BEGIN that is taken back. -/
def beginTail (o : OpenStep) (s : State) : List Byte :=
  leBytes 8 o.num ++ leBytes 2 o.flips ++ leBytes 1 (min 255 o.maxLag) ++ leBytes 1 o.commitBits
    ++ leBytes 4 (stop32 (match o.stalledAt with | some t => (s.mod.devTime - t) / 1000 | none => 0))

theorem endUnbegun_eq (ctx : Nat) (o : OpenStep) (status : Nat) (s : State) :
    endUnbegun ctx o status s = complete o.ref status (beginTail o (beginDropped ctx o s)) (beginDropped ctx o s) := rfl

theorem beginDropped_keeps (ctx : Nat) (o : OpenStep) (s : State) : Keeps 0x48004 s (beginDropped ctx o s) :=
  (((applyMapBytes_keeps ..).trans (applyStagedMaps_keeps ..)).trans (modStepCtx_keeps ..)).trans (clearStalled_keeps ..)

theorem beginDropped_idle (ctx : Nat) (o : OpenStep) (s : State) : (stepCtx (beginDropped ctx o s) ctx).opened = none := by
  have e : stepCtx (beginDropped ctx o s) ctx = stepCtx (modStepCtx ctx (fun c => { c with opened := none })
      (applyStagedMaps ctx (applyMapBytes ctx o.mapsAt s))) ctx := rfl
  rw [e, stepCtx_modStepCtx, if_pos rfl]

/-- A STEP_BEGIN that waits is ended by the firing. -/
theorem ctxWatchdog_unbegun (ctx : Fin 16) (ring : Fin 8) (s : State) (o : OpenStep) (ho : (stepCtx s ctx).opened = some o)
    (hb : o.begun = false) (hd : (findDesc s o.ref).isSome = true) : Completes (.contextStepWatchdog ctx ring) s fun t =>
      (∃ tail, Ended s t o.ref (if o.wait = .lag then 0x0303 else 0x0C01) tail) ∧ (stepCtx t ctx).opened = none
        ∧ Counted s t cRcvCtxWdog 1 ∧ flagUp t .rcv 3 = true := by
  have e : exec (.contextStepWatchdog ctx ring) s =
      .next (endUnbegun ctx o (if o.wait = .lag then stPlaneLag else stWatchdog) (noteCtxWatchdog ctx s)) := by
    show execContextStepWatchdog ctx ring s = _
    unfold execContextStepWatchdog
    rw [ho]
    dsimp only
    rw [hb]
    rfl
  refine ⟨_, e, ⟨beginTail o (beginDropped ctx o (noteCtxWatchdog ctx s)), ?_⟩, ?_, ctxWatchdog_noted (endUnbegun_keeps ..)⟩
  · have k : Keeps 0x40004000004800e s (beginDropped ctx o (noteCtxWatchdog ctx s)) :=
      (noteCtxWatchdog_keeps ..).trans ((beginDropped_keeps ..).mono (by decide))
    exact complete_ended_afterSteps k (by decide) hd _ (List.append_ne_nil_of_right_ne_nil _ (by simp [leBytes]))
  · rw [endUnbegun_eq]
    exact (completeWith_closes ..).idle ctx (beginDropped_idle ..)

theorem flushRing_tail (ctx ring : Nat) (s : State) (c q : Nat) : (ringOf (flushRing ctx ring s) c q).tail = (ringOf s c q).tail := by
  unfold flushRing addFlush
  rw [ringOf_modRing]
  split
  · rfl
  · rfl

theorem flushRing_flush (ctx ring : Nat) (s : State) :
    (ringOf (flushRing ctx ring s) ctx ring).flush = (ringOf s ctx ring).flush ++ [.below (ringOf s ctx ring).tail stWatchdog] := by
  unfold flushRing addFlush
  rw [ringOf_modRing, if_pos ⟨rfl, rfl⟩]

theorem flushRing_closes (ctx ring : Nat) (s : State) : Closes s (flushRing ctx ring s) := addFlush_closes ..

/-- Every ring of a list is flushed up to its TAIL. -/
theorem flushRings_flush (ctx : Nat) (l : List Nat) (s : State) (r : Nat) (hr : r ∈ l) :
    Flush.below (ringOf s ctx r).tail stWatchdog ∈ (ringOf (l.foldl (fun s r => flushRing ctx r s) s) ctx r).flush := by
  induction l generalizing s with
  | nil => cases hr
  | cons a l ih =>
    rw [List.foldl_cons]
    rcases List.mem_cons.1 hr with rfl | hr
    · refine (Closes.foldl (fun x r => flushRing_closes ctx r x) l _).flush ctx r _ ?_
      rw [flushRing_flush]
      exact List.mem_append_right _ (List.mem_singleton.2 rfl)
    · rw [← flushRing_tail ctx a s]
      exact ih _ hr

/-- A step that is open is abandoned, and every ring of its context flushed. -/
theorem ctxWatchdog_begun (ctx : Fin 16) (ring : Fin 8) (s : State) (o : OpenStep) (ho : (stepCtx s ctx).opened = some o)
    (hb : o.begun = true) : Completes (.contextStepWatchdog ctx ring) s fun t =>
      (∃ x, (stepCtx t ctx).opened = some x ∧ x.abandoned = true) ∧ Counted s t cRcvCtxWdog 1 ∧ flagUp t .rcv 3 = true
        ∧ ∀ r, r < 8 → Flush.below (ringOf s ctx r).tail 0x0C01 ∈ (ringOf t ctx r).flush := by
  generalize hy : modOpen ctx (fun o => { o with abandoned := true }) (noteCtxWatchdog ctx s) = y
  have e : exec (.contextStepWatchdog ctx ring) s = .next (settleAll ((List.range 8).foldl (fun s r => flushRing ctx r s) y)) := by
    show execContextStepWatchdog ctx ring s = _
    unfold execContextStepWatchdog
    rw [ho, ← hy]
    dsimp only
    rw [hb]
    rfl
  have hopen : (stepCtx y ctx).opened = some { o with abandoned := true } := by
    have hs : stepCtx (noteCtxWatchdog ctx s) ctx = stepCtx s ctx := rfl
    rw [← hy, stepCtx_modOpen, if_pos rfl, hs, ho]
    rfl
  have htail : ∀ r, (ringOf y ctx r).tail = (ringOf s ctx r).tail := fun r => by rw [← hy]; rfl
  have hk : Keeps 0x8000 (noteCtxWatchdog ctx s) y := by rw [← hy]; exact modOpen_keeps ..
  have hflush := flushRings_flush ctx (List.range 8) y
  have hfold := Closes.foldl (fun x r => flushRing_closes ctx r x) (List.range 8) y
  have hfk : Keeps 0x40 y ((List.range 8).foldl (fun s r => flushRing ctx r s) y) :=
    Keeps.foldl (Keeps.refl y) (fun x r => flushRing_keeps ..) _
  generalize (List.range 8).foldl (fun s r => flushRing ctx r s) y = z at e hflush hfold hfk
  have hz : Closes z (settleAll z) := settle_closes _ z
  obtain ⟨x, hx, hax⟩ := (hfold.trans hz).stays ctx _ hopen
  obtain ⟨hc, hf⟩ := ctxWatchdog_noted (s := s) (t := settleAll z)
    (((hk.mono (by decide)).trans (hfk.mono (by decide))).trans (settleAll_keeps ..))
  refine ⟨_, e, ⟨x, hx, hax⟩, hc, hf, fun r hr => hz.flush ctx r _ ?_⟩
  rw [← htail r]
  exact hflush r (List.mem_range.2 hr)

end Sys2Proof.Machine

/-!
SUPPORT and the statement on watchdogs (O19): that what a flush covers does complete. Completions shrink the number of open descriptors, so
as many as there are suffice; and they touch no ring but their own.
-/
namespace Sys2Proof.Machine
set_option Elab.async false
open Sys2Proof.Safety

/-! ## Sums over a table -/

/-- The sum of a number of each listed entry. -/
def tabSum {α : Type} (f : α → Nat) (t : Tab α) : Nat := (t.map fun e => f e.2).sum

theorem tabSum_filter_above {α : Type} (f : α → Nat) (t : Tab α) (n k : Nat) (h : tabAbove n t) (hk : k ≤ n) :
    tabSum f (t.filter fun e => e.1 != k) = tabSum f t := by
  rw [List.filter_eq_self.2 fun e he => ?_]
  have := h e he
  simp
  omega

/-- A write moves the sum by the difference of what is written and what stood there. -/
theorem tabSum_tabSet {α : Type} [DecidableEq α] (f : α → Nat) (d : α) (hd : f d = 0) (t : Tab α) (k : Nat) (v : α)
    (h : tabWf d t = true) : tabSum f (tabSet d t k v) + f (tabGet d t k) = tabSum f t + f v := by
  induction t with
  | nil =>
    rw [tabSet, tabGet, hd]
    split
    · rename_i hv
      rw [hv, hd]
    · simp [tabSum]
  | cons e t ih =>
    obtain ⟨i, w⟩ := e
    obtain ⟨_, ha, ht⟩ := (tabWf_cons d i w t).1 h
    have hc : ∀ (i : Nat) (v : α) (l : Tab α), tabSum f ((i, v) :: l) = f v + tabSum f l := fun i v l => by simp [tabSum]
    rw [tabSet, tabGet]
    by_cases hik : i < k
    · rw [if_pos hik, if_neg (by omega), hc, hc, Nat.add_assoc, ih ht, Nat.add_assoc]
    · rw [if_neg hik]
      by_cases hv : v = d
      · rw [if_pos hv, hv, hd]
        by_cases he : i = k
        · rw [if_pos he, List.filter_cons, if_neg (by simp [he]), tabSum_filter_above f t i k ha (by omega), hc]
          omega
        · rw [if_neg he, List.filter_cons, if_pos (by simp [he]), hc, tabSum_filter_above f t i k ha (by omega), hc,
            tabGet_above d t i k ha (by omega), hd]
      · rw [if_neg hv]
        by_cases he : i = k
        · rw [if_pos he, if_pos he, hc, hc]
          omega
        · rw [if_neg he, if_neg he, hc, tabGet_above d t i k ha (by omega), hd]
          omega

theorem tabGet_of_mem {α : Type} [DecidableEq α] (d : α) (t : Tab α) (h : tabWf d t = true) {e : Nat × α} (he : e ∈ t) :
    tabGet d t e.1 = e.2 := by
  induction t with
  | nil => cases he
  | cons a t ih =>
    obtain ⟨i, w⟩ := a
    obtain ⟨_, ha, ht⟩ := (tabWf_cons d i w t).1 h
    rw [tabGet]
    rcases List.mem_cons.1 he with rfl | he
    · exact if_pos rfl
    · rw [if_neg (Nat.ne_of_lt (ha e he))]
      exact ih ht he

theorem mem_of_tabGet_ne {α : Type} (d : α) (t : Tab α) (k : Nat) (h : tabGet d t k ≠ d) : (k, tabGet d t k) ∈ t := by
  induction t with
  | nil => exact absurd rfl h
  | cons a t ih =>
    obtain ⟨i, w⟩ := a
    rw [tabGet] at h ⊢
    split
    · rename_i e
      rw [e]
      exact List.mem_cons_self
    · rename_i e
      rw [if_neg e] at h
      exact List.mem_cons_of_mem _ (ih h)

/-! ## The number of open descriptors -/

/-- The open descriptors of a page. -/
def Door.openCount (d : Door) : Nat := tabSum (fun q : Ring => q.opened.length) d.rings

/-- The open descriptors of all pages. -/
def openCount (s : State) : Nat := tabSum Door.openCount s.doors

theorem settleAll_eq (s : State) : settleAll s = settle (openCount s) s := rfl

/-- The tables of the doorbell pages are canonical. -/
def DoorsWf (s : State) : Prop := tabWf {} s.doors = true ∧ ∀ e ∈ s.doors, pageWf e.2 = true

theorem DoorsWf.of_keeps {F : Nat} {s t : State} (h : DoorsWf s) (k : Keeps F s t) : DoorsWf t := ⟨k.tabs.doors h.1, k.tabs.pages h.2⟩

theorem DoorsWf.rings {s : State} (h : DoorsWf s) (c : Nat) : tabWf {} (door s c).rings = true := by
  have hp : pageWf (door s c) = true := tabAll_tabGet (fun d => pageWf d = true) {} s.doors c h.2 rfl
  unfold pageWf at hp
  rw [Bool.and_eq_true] at hp
  exact hp.1

theorem openCount_modDoor (c : Nat) (g : Door → Door) {s : State} (h : DoorsWf s) :
    openCount (modDoor c g s) + (door s c).openCount = openCount s + (g (door s c)).openCount :=
  tabSum_tabSet Door.openCount {} rfl s.doors c (g (door s c)) h.1

theorem openCount_modRing (c q : Nat) (f : Ring → Ring) {s : State} (h : DoorsWf s) :
    openCount (modRing c q f s) + (ringOf s c q).opened.length = openCount s + (f (ringOf s c q)).opened.length := by
  have hd := openCount_modDoor c (fun d => { d with rings := tabMod {} d.rings q f }) h
  have hr := tabSum_tabSet (fun q : Ring => q.opened.length) {} rfl (door s c).rings q (f (ringOf s c q)) (h.rings c)
  have e1 : (door s c).openCount = tabSum (fun q : Ring => q.opened.length) (door s c).rings := rfl
  have e2 : ({ door s c with rings := tabMod {} (door s c).rings q f } : Door).openCount =
    tabSum (fun q : Ring => q.opened.length) (tabSet {} (door s c).rings q (f (ringOf s c q))) := rfl
  have e3 : tabGet {} (door s c).rings q = ringOf s c q := rfl
  unfold modRing
  rw [e3] at hr
  rw [e1, e2] at hd
  omega

theorem openCount_of_doors {s t : State} (h : t.doors = s.doors) : openCount t = openCount s := by
  unfold openCount
  rw [h]

/-- An operation under which no descriptor opens. -/
structure Shrinks (s t : State) : Prop where
  wf : DoorsWf s → DoorsWf t
  count : DoorsWf s → openCount t ≤ openCount s

theorem Shrinks.refl (s : State) : Shrinks s s := ⟨id, fun _ => Nat.le_refl _⟩

theorem Shrinks.trans {s x t : State} (h : Shrinks s x) (k : Shrinks x t) : Shrinks s t :=
  ⟨fun w => k.wf (h.wf w), fun w => Nat.le_trans (k.count (h.wf w)) (h.count w)⟩

theorem Shrinks.of_keeps {s t : State} (k : Keeps 0x1fffffffffffffbf s t) : Shrinks s t :=
  ⟨fun w => w.of_keeps k, fun _ => Nat.le_of_eq (openCount_of_doors (k.frame .doors rfl))⟩

theorem Shrinks.foldl {α : Type} {f : State → α → State} (hf : ∀ x a, Shrinks x (f x a)) (l : List α) (s : State) :
    Shrinks s (l.foldl f s) := by
  induction l generalizing s with
  | nil => exact .refl s
  | cons a l ih => exact (hf s a).trans (ih (f s a))

theorem Shrinks.ite {p : Prop} [Decidable p] {s x y : State} (h : Shrinks s x) (k : Shrinks s y) : Shrinks s (if p then x else y) := by
  split
  · exact h
  · exact k

theorem modRing_shrinks (c q : Nat) {f : Ring → Ring} (hf : ∀ x, (f x).opened.length ≤ x.opened.length) (s : State) :
    Shrinks s (modRing c q f s) := by
  refine ⟨fun w => w.of_keeps (modRing_keeps (F := 0x40) ..), fun w => ?_⟩
  have e := openCount_modRing c q f w
  have := hf (ringOf s c q)
  omega

theorem setSem_shrinks (c i : Nat) (v : Word) (s : State) : Shrinks s (setSem c i v s) := by
  refine ⟨fun w => w.of_keeps (setSem_keeps (F := 0x40) ..), fun w => ?_⟩
  have e := openCount_modDoor c (fun d => { d with sems := tabSet 0 d.sems i v }) w
  have h : ({ door s c with sems := tabSet 0 (door s c).sems i v } : Door).openCount = (door s c).openCount := rfl
  unfold setSem
  rw [h] at e
  omega

/-! ## Closing a descriptor: its own ring shrinks, no other changes -/

/-- The state in which a closed descriptor leaves its ring. -/
def recordWritten (r : DRef) (b : List Byte) (status : Nat) (tail : List Byte) (s : State) : State :=
  noteGatherEnd r b status (writeCompletion r b status (tailOf s r b tail) s)

/-- The descriptor leaves its ring. -/
def leaveRing (r : DRef) (s : State) : State :=
  modRing r.ctx r.ring (fun q => { q with opened := q.opened.filter (fun d => d.idx != r.idx) }) s

theorem recordWritten_keeps (r : DRef) (b : List Byte) (status : Nat) (tail : List Byte) (s : State) :
    Keeps 0x10008000 s (recordWritten r b status tail s) := (writeCompletion_keeps ..).trans (noteGatherEnd_keeps ..)

theorem closeDesc_eq (r : DRef) (b : List Byte) (status : Nat) (tail : List Byte) (s : State) :
    closeDesc r b status tail s =
      let z := countStepStatus r status (leaveRing r (recordWritten r b status tail s))
      if dOpcode b = 0x11 ∧ (stepCtx z r.ctx).opened = none then applyStagedMaps r.ctx z else z := rfl

/-- What closing a descriptor does to the doorbell pages is that it leaves its ring. -/
theorem closeDesc_doors (r : DRef) (b : List Byte) (status : Nat) (tail : List Byte) (s : State) :
    (closeDesc r b status tail s).doors = (leaveRing r s).doors := by
  have hx : (recordWritten r b status tail s).doors = s.doors := (recordWritten_keeps ..).frame .doors rfl
  have hz : ∀ x, (countStepStatus r status x).doors = x.doors := fun x => (countStepStatus_keeps (F := 0x8000) r status x).frame .doors rfl
  have hl : ∀ x : State, x.doors = s.doors → (leaveRing r x).doors = (leaveRing r s).doors := fun x h => by
    unfold leaveRing modRing modDoor
    dsimp only
    rw [h]
  rw [closeDesc_eq]
  dsimp only
  split
  · exact (hz _).trans (hl _ hx)
  · exact (hz _).trans (hl _ hx)

theorem leaveRing_shrinks (r : DRef) (s : State) : Shrinks s (leaveRing r s) :=
  modRing_shrinks r.ctx r.ring (f := fun q => { q with opened := q.opened.filter (fun d => d.idx != r.idx) })
    (fun _ => List.length_filter_le ..) s

theorem closeDesc_shrinks (r : DRef) (b : List Byte) (status : Nat) (tail : List Byte) (s : State) :
    Shrinks s (closeDesc r b status tail s) :=
  ⟨fun w => w.of_keeps (closeDesc_keeps (F := 0x10048040) ..), fun w => by
    rw [openCount_of_doors (closeDesc_doors ..)]
    exact (leaveRing_shrinks r s).count w⟩

/-- An open descriptor that is closed is one less. -/
theorem closeDesc_count (r : DRef) (b : List Byte) (status : Nat) (tail : List Byte) {s : State} (w : DoorsWf s) {d : Desc}
    (hd : d ∈ (ringOf s r.ctx r.ring).opened) (hi : d.idx = r.idx) : openCount (closeDesc r b status tail s) < openCount s := by
  rw [openCount_of_doors (closeDesc_doors ..)]
  have e := openCount_modRing r.ctx r.ring (fun q => { q with opened := q.opened.filter (fun d => d.idx != r.idx) }) w
  have hlt : ((ringOf s r.ctx r.ring).opened.filter fun d => d.idx != r.idx).length < (ringOf s r.ctx r.ring).opened.length :=
    List.length_filter_lt_length_iff_exists.2 ⟨d, hd, by simp [hi]⟩
  unfold leaveRing
  dsimp only at e
  omega

theorem afterClose_shrinks (r : DRef) (b : List Byte) (signal : Bool) (s : State) : Shrinks s (afterClose r b signal s) := by
  unfold afterClose
  exact .trans (.ite (setSem_shrinks ..) (.refl s)) (.of_keeps (fireInterrupt_keeps ..))

theorem startFlush_shrinks (r : DRef) (status : Nat) (s : State) : Shrinks s (startFlush r status s) := by
  unfold startFlush
  exact .ite (modRing_shrinks _ _ (f := fun q => { q with flush := q.flush ++ [.toEnd status] }) (fun _ => Nat.le_refl _) s) (.refl s)

theorem closeOut_count (signal flushes : Bool) (r : DRef) (b : List Byte) (status : Nat) (tail : List Byte) {s : State} (w : DoorsWf s)
    {d : Desc} (hd : d ∈ (ringOf s r.ctx r.ring).opened) (hi : d.idx = r.idx) :
    openCount (closeOut signal flushes r b status tail s) < openCount s := by
  have hlt := closeDesc_count r b status tail w hd hi
  have hw : DoorsWf (closeDesc r b status tail s) := (closeDesc_shrinks r b status tail s).wf w
  refine Nat.lt_of_le_of_lt ?_ hlt
  unfold closeOut
  extract_lets +onlyGivenNames sg x
  have hx : DoorsWf x := hw
  show _ ≤ openCount x
  clear_value x
  refine Shrinks.count (.ite ?_ (afterClose_shrinks ..)) hx
  extract_lets +onlyGivenNames y ds
  have hy : Shrinks x y := startFlush_shrinks ..
  have hz : Shrinks y (closeCovered r.ctx r.ring y) := .foldl (fun z d => closeDesc_shrinks ..) _ y
  exact (hy.trans hz).trans (.trans (afterClose_shrinks r b sg _) (.foldl (fun z d => afterClose_shrinks ..) _ _))

end Sys2Proof.Machine

/-!
SUPPORT and the statement on watchdogs (O19): a descriptor that a firing's flush covers first completes with WATCHDOG, whatever else
completes unexecuted.
-/
namespace Sys2Proof.Machine
set_option Elab.async false
open Sys2Proof.Safety

/-! ## No ring changes but the one whose descriptor is closed -/

section
variable {c q : Nat} {r : DRef}

theorem ringOf_of_doors {s t : State} (h : t.doors = s.doors) (c q : Nat) : ringOf t c q = ringOf s c q := by
  unfold ringOf door
  rw [h]

theorem closeDesc_other (h : ¬(c = r.ctx ∧ q = r.ring)) (b : List Byte) (status : Nat) (tail : List Byte) (s : State) :
    ringOf (closeDesc r b status tail s) c q = ringOf s c q := by
  rw [ringOf_of_doors (closeDesc_doors ..)]
  unfold leaveRing
  rw [ringOf_modRing, if_neg h]

theorem setSem_ringOf (k i : Nat) (v : Word) (s : State) : ringOf (setSem k i v s) c q = ringOf s c q := by
  unfold ringOf setSem
  rw [door_modDoor]
  split
  · rfl
  · rfl

theorem afterClose_ringOf (b : List Byte) (signal : Bool) (s : State) : ringOf (afterClose r b signal s) c q = ringOf s c q := by
  unfold afterClose
  rw [ringOf_of_doors ((fireInterrupt_keeps (F := 0x10000000) ..).frame .doors rfl)]
  split
  · exact setSem_ringOf ..
  · rfl

theorem startFlush_other (h : ¬(c = r.ctx ∧ q = r.ring)) (status : Nat) (s : State) : ringOf (startFlush r status s) c q = ringOf s c q := by
  unfold startFlush addFlush
  split
  · rw [ringOf_modRing, if_neg h]
  · rfl

/-- Every operation of a list leaves the ring alone. -/
theorem foldl_ringOf {α : Type} {f : State → α → State} (hf : ∀ x a, ringOf (f x a) c q = ringOf x c q) (l : List α) (s : State) :
    ringOf (l.foldl f s) c q = ringOf s c q := by
  induction l generalizing s with
  | nil => rfl
  | cons a l ih => rw [List.foldl_cons, ih, hf]

theorem closeCovered_other (h : ¬(c = r.ctx ∧ q = r.ring)) (s : State) :
    ringOf (closeCovered r.ctx r.ring s) c q = ringOf s c q := by
  unfold closeCovered
  refine foldl_ringOf ?_ _ s
  intro x d
  exact closeDesc_other (r := ⟨r.ctx, r.ring, d.1.idx⟩) h d.1.bytes d.2 [] x

theorem signalCovered_ringOf (ctx ring : Nat) (ds : List (Desc × Nat)) (s : State) :
    ringOf (signalCovered ctx ring ds s) c q = ringOf s c q := by
  unfold signalCovered
  refine foldl_ringOf ?_ ds s
  intro x d
  exact afterClose_ringOf (r := ⟨ctx, ring, d.1.idx⟩) d.1.bytes (dOpcode d.1.bytes != 0x12) x

theorem closeOut_other (h : ¬(c = r.ctx ∧ q = r.ring)) (signal flushes : Bool) (b : List Byte) (status : Nat) (tail : List Byte)
    (s : State) : ringOf (closeOut signal flushes r b status tail s) c q = ringOf s c q := by
  have hx := closeDesc_other h b status tail s
  unfold closeOut
  extract_lets +onlyGivenNames sg x
  refine Eq.trans ?_ hx
  show _ = ringOf x c q
  clear_value x
  split
  · rw [signalCovered_ringOf, afterClose_ringOf, closeCovered_other h, startFlush_other h]
  · exact afterClose_ringOf ..

end

/-! ## The descriptor that waits -/

/-- What stands in a ring, as `nextUnexecuted` finds it. -/
theorem nextUnexecuted_ring {s : State} (w : DoorsWf s) {r : DRef} {d : Desc} {st : Nat} {rej : Bool}
    (h : nextUnexecuted s = some (r, d, st, rej)) : unexecuted s r.ctx r.ring (ringOf s r.ctx r.ring) = some (r, d, st, rej) := by
  have hu : ∀ ctx ring q, unexecuted s ctx ring q = some (r, d, st, rej) → ctx = r.ctx ∧ ring = r.ring := by
    intro ctx ring q hq
    unfold unexecuted at hq
    split at hq
    · cases hq; exact ⟨rfl, rfl⟩
    · unfold badHeader at hq
      repeat' split at hq
      all_goals cases hq
      all_goals exact ⟨rfl, rfl⟩
  unfold nextUnexecuted at h
  obtain ⟨e, he, h⟩ := List.exists_of_findSome?_eq_some h
  obtain ⟨q, hq, h⟩ := List.exists_of_findSome?_eq_some h
  obtain ⟨hc, hr⟩ := hu _ _ _ h
  have hd : door s e.1 = e.2 := tabGet_of_mem ({} : Door) s.doors w.1 he
  have hg : ringOf s e.1 q.1 = q.2 := by
    unfold ringOf
    rw [hd]
    refine tabGet_of_mem ({} : Ring) e.2.rings ?_ hq
    have := w.rings e.1
    rw [hd] at this
    exact this
  rw [← hc, ← hr, hg]
  exact h

/-- What stands in a ring that has something to complete unexecuted is found, or what stands before it. -/
theorem nextUnexecuted_some {s : State} {c q : Nat} (hr : ringOf s c q ≠ {}) (h : (unexecuted s c q (ringOf s c q)).isSome = true) :
    ∃ p, nextUnexecuted s = some p := by
  cases hn : nextUnexecuted s with
  | some p => exact ⟨p, rfl⟩
  | none =>
    exfalso
    have hd : door s c ≠ {} := fun e => hr (by unfold ringOf; rw [e]; rfl)
    unfold nextUnexecuted at hn
    have h1 := List.findSome?_eq_none_iff.1 hn _ (mem_of_tabGet_ne ({} : Door) s.doors c hd)
    have h2 := List.findSome?_eq_none_iff.1 h1 _ (mem_of_tabGet_ne ({} : Ring) (door s c).rings q hr)
    have h3 : unexecuted s c q (ringOf s c q) = none := h2
    rw [h3] at h
    cases h

/-- What a flush covers is open and has not started. -/
theorem flushCovers_subset {s : State} {c q : Nat} {ring : Ring} {f : Flush} {d : Desc} (h : d ∈ flushCovers s c q ring f) :
    d ∈ ring.opened := by
  have hu : d ∈ ring.unstarted := by
    cases f with
    | toEnd st => exact (List.takeWhile_subset _) h
    | below n st => exact (List.mem_filter.1 h).1
  exact (List.mem_filter.1 hu).1

theorem dispatchReady_mem {s : State} {c q : Nat} {d : Desc} (h : dispatchReady s c q = some d) : d ∈ (ringOf s c q).opened := by
  unfold dispatchReady at h
  dsimp only at h
  split at h
  · cases h
  · split at h
    · cases h
    · rename_i hf
      split at h
      · cases h
        exact List.mem_of_find?_eq_some hf
      · cases h

/-- The descriptor that is found lies in its ring. -/
theorem unexecuted_mem {s : State} {c q : Nat} {r : DRef} {d : Desc} {st : Nat} {rej : Bool}
    (h : unexecuted s c q (ringOf s c q) = some (r, d, st, rej)) : d ∈ (ringOf s c q).opened ∧ d.idx = r.idx := by
  unfold unexecuted at h
  split at h
  · rename_i hf
    cases h
    obtain ⟨f, _, hf⟩ := List.exists_of_findSome?_eq_some hf
    obtain ⟨e, he, hd⟩ := Option.map_eq_some_iff.1 hf
    cases hd
    exact ⟨flushCovers_subset (List.mem_of_mem_head? he), rfl⟩
  · unfold badHeader at h
    split at h
    · rename_i hd
      have hm := dispatchReady_mem hd
      repeat' split at h
      all_goals cases h
      all_goals exact ⟨hm, rfl⟩
    · cases h

/-- A ring flushed up to its TAIL whose first descriptor that has not started is covered, in a context with no step. -/
structure Covered (ring : Ring) (d : Desc) : Prop where
  flush : ring.flush = [.below ring.tail stWatchdog]
  head : ring.unstarted.head? = some d
  follows : Machine.follows ring.tail d.idx = true

/-- That descriptor is the ring's next to complete unexecuted, with WATCHDOG. -/
theorem Covered.unexecuted {ring : Ring} {d : Desc} (h : Covered ring d) {s : State} {c q : Nat} (hi : (stepCtx s c).opened = none) :
    unexecuted s c q ring = some (⟨c, q, d.idx⟩, d, stWatchdog, false) := by
  have hx : exemptEnd s c q d = false := by
    unfold exemptEnd stepOpen
    rw [hi]
    simp
  obtain ⟨l, hl⟩ : ∃ l, ring.unstarted = d :: l := by
    cases hu : ring.unstarted with
    | nil =>
      have := h.head
      rw [hu] at this
      cases this
    | cons a l =>
      have := h.head
      rw [hu] at this
      cases this
      exact ⟨l, rfl⟩
  have hc : (flushCovers s c q ring (.below ring.tail stWatchdog)).head? = some d := by
    unfold flushCovers
    dsimp only
    rw [hl, List.filter_cons, if_pos (by rw [h.follows, hx]; rfl)]
    rfl
  unfold Machine.unexecuted
  rw [h.flush, List.findSome?_cons, hc]
  rfl

/-- Since `s` the ring of context `c` holds a covered descriptor, and what its completion record depends on has not changed. -/
structure Awaits (s : State) (c q : Nat) (ring : Ring) (x : State) : Prop where
  wf : DoorsWf x
  ring : ringOf x c q = ring
  idle : (stepCtx x c).opened = none
  time : x.mod.devTime = s.mod.devTime
  vfs : x.vfs = s.vfs
  errs : x.mem.errs = s.mem.errs
  out : s.out <:+ x.out

/-- A completion in another ring leaves it waiting. -/
theorem Awaits.closeOut {s x : State} {c q : Nat} {ring : Ring} (h : Awaits s c q ring x) {r : DRef} (hr : ¬(c = r.ctx ∧ q = r.ring))
    (signal flushes : Bool) (b : List Byte) (status : Nat) (tail : List Byte) :
    Awaits s c q ring (closeOut signal flushes r b status tail x) := by
  have k : Keeps 0x10048040 x (Machine.closeOut signal flushes r b status tail x) := closeOut_keeps ..
  have hout : x.out <:+ (Machine.closeOut signal flushes r b status tail x).out :=
    ((List.suffix_cons _ _).trans (List.suffix_cons _ _)).trans (closeOut_adds signal flushes r b status tail x)
  exact ⟨h.wf.of_keeps k, (closeOut_other hr ..).trans h.ring, (closeOut_closes ..).idle c h.idle, k.time.trans h.time,
    (k.frame .functions rfl).trans h.vfs, (k.frame .errors rfl).1.trans h.errs, h.out.trans hout⟩

theorem Awaits.of_keeps {s x t : State} {c q : Nat} {ring : Ring} (h : Awaits s c q ring x) {F : Nat} (k : Keeps F x t)
    (hF : ∀ i ∈ [6, 7, 10, 15, 28], F.testBit i = false) : Awaits s c q ring t := by
  have hd : t.doors = x.doors := k.frame .doors (hF 6 (by decide))
  have hs : t.steps = x.steps := k.frame .steps (hF 15 (by decide))
  have ho : t.out = x.out := (k.frame .output (hF 28 (by decide))).1
  have hc : stepCtx t c = stepCtx x c := by unfold stepCtx; rw [hs]
  exact ⟨h.wf.of_keeps k, (ringOf_of_doors hd c q).trans h.ring, by rw [hc]; exact h.idle, k.time.trans h.time,
    (k.frame .functions (hF 7 (by decide))).trans h.vfs, (k.frame .errors (hF 10 (by decide))).1.trans h.errs, by rw [ho]; exact h.out⟩

/-- With no step in its context a record carries no more than what is given. -/
theorem tailOf_idle {s : State} {r : DRef} (h : (stepCtx s r.ctx).opened = none) (b tail : List Byte) : tailOf s r b tail = tail :=
  if_neg fun hc => by
    have := hc.2.2.2
    unfold stepOpen at this
    rw [h] at this
    cases this

/-- The completion itself. -/
theorem Awaits.ended {s x t : State} {c q : Nat} {ring : Ring} {d : Desc} (h : Awaits s c q ring x)
    (hc : ring.comp = (ringOf s c q).comp) (hz : ring.sizeLog2 = (ringOf s c q).sizeLog2) (hi : (stepCtx s c).opened = none)
    (hd : findDesc s ⟨c, q, d.idx⟩ = some d) (hx : findDesc x ⟨c, q, d.idx⟩ = some d)
    (ho : (writeCompletion ⟨c, q, d.idx⟩ d.bytes stWatchdog (tailOf x ⟨c, q, d.idx⟩ d.bytes []) x).out <:+ t.out) :
    Ended s t ⟨c, q, d.idx⟩ stWatchdog [] := by
  have hon : Onward ⟨c, q, d.idx⟩ { s with steps := x.steps } x := by
    refine ⟨h.time, h.vfs, rfl, ?_, ?_, h.out, fun e => h.errs.trans e, fun e he => ?_⟩
    · exact (congrArg Ring.comp h.ring).trans hc
    · exact (congrArg Ring.sizeLog2 h.ring).trans hz
    · have e' : findDesc s ⟨c, q, d.idx⟩ = some e := he
      rw [hd] at e'
      cases e'
      exact ⟨d, hx, rfl, fun _ => rfl⟩
  rw [tailOf_idle (s := x) (r := ⟨c, q, d.idx⟩) h.idle] at ho
  refine ⟨d, stWatchdog, hd, .inl rfl, ?_⟩
  rw [tailOf_idle (s := s) (r := ⟨c, q, d.idx⟩) hi]
  exact reported_of hon d stWatchdog [] ho

/-- As many completions as descriptors are open end it. -/
theorem Awaits.settled {s : State} {c q : Nat} {ring : Ring} {d : Desc} (hcov : Covered ring d)
    (hc : ring.comp = (ringOf s c q).comp) (hz : ring.sizeLog2 = (ringOf s c q).sizeLog2) (hi : (stepCtx s c).opened = none)
    (hd : findDesc s ⟨c, q, d.idx⟩ = some d) (hf : ring.opened.find? (·.idx == d.idx) = some d) (n : Nat) (x : State)
    (h : Awaits s c q ring x) (hn : openCount x ≤ n) : Ended s (settle n x) ⟨c, q, d.idx⟩ stWatchdog [] := by
  have hu : ∀ y, Awaits s c q ring y → Machine.unexecuted y c q (ringOf y c q) = some (⟨c, q, d.idx⟩, d, stWatchdog, false) := fun y hy => by
    rw [hy.ring]
    exact hcov.unexecuted hy.idle
  have hne : ∀ y, Awaits s c q ring y → ringOf y c q ≠ {} := fun y hy e => by
    have := unexecuted_mem (hu y hy)
    rw [e] at this
    exact absurd this.1 List.not_mem_nil
  induction n generalizing x with
  | zero =>
    obtain ⟨⟨r, d', st, rej⟩, hp⟩ := nextUnexecuted_some (hne x h) (by rw [hu x h]; rfl)
    obtain ⟨hm, hidx⟩ := unexecuted_mem (nextUnexecuted_ring h.wf hp)
    have := closeOut_count true false r d'.bytes st [] h.wf hm hidx
    omega
  | succ n ih =>
    obtain ⟨⟨r, d', st, rej⟩, hp⟩ := nextUnexecuted_some (hne x h) (by rw [hu x h]; rfl)
    have hr := nextUnexecuted_ring h.wf hp
    rw [settle, hp]
    dsimp only
    by_cases hown : c = r.ctx ∧ q = r.ring
    · obtain ⟨ec, eq⟩ := hown
      rw [← ec, ← eq, hu x h] at hr
      cases hr
      refine h.ended hc hz hi hd ?_ ((closeOut_adds ..).trans (settle_out n _))
      unfold findDesc
      rw [h.ring]
      exact hf
    · obtain ⟨hm, hidx⟩ := unexecuted_mem hr
      have hy : Awaits s c q ring (if rej then bump cHifRejected 1 x else x) := by
        split
        · exact h.of_keeps (bump_keeps (F := 0x1000000000000) ..) (by decide)
        · exact h
      have hdoors : (if rej then bump cHifRejected 1 x else x).doors = x.doors := by
        split
        · rfl
        · rfl
      generalize (if rej then bump cHifRejected 1 x else x) = y at hy hdoors ⊢
      rw [← ringOf_of_doors hdoors] at hm
      have hlt := closeOut_count true (rej && credenzaFlushes (dOpcode d'.bytes) st) r d'.bytes st [] hy.wf hm hidx
      rw [openCount_of_doors hdoors] at hlt
      exact ih _ (hy.closeOut hown ..) (by omega)

/-! ## The firing with no step open -/

/-- With no step, the ring whose next descriptor waits is flushed, and what the flush covers first completes with WATCHDOG (R413). -/
theorem ctxWatchdog_idle (ctx : Fin 16) (ring : Fin 8) (s : State) (hs : canonical s = true) (ho : (stepCtx s ctx).opened = none)
    (hw : waiting s ctx ring = true) : Completes (.contextStepWatchdog ctx ring) s fun t =>
      Counted s t cRcvCtxWdog 1 ∧ flagUp t .rcv 3 = true ∧ Flush.below (ringOf s ctx ring).tail 0x0C01 ∈ (ringOf t ctx ring).flush
        ∧ ∀ d, (ringOf s ctx ring).unstarted.head? = some d → (ringOf s ctx ring).flush = [] → follows (ringOf s ctx ring).tail d.idx = true →
            (∀ e ∈ (ringOf s ctx ring).opened, e.idx = d.idx → e = d) → Ended s t ⟨ctx, ring, d.idx⟩ 0x0C01 [] := by
  have e : exec (.contextStepWatchdog ctx ring) s = .next (settleAll (flushRing ctx ring (noteCtxWatchdog ctx s))) := by
    show execContextStepWatchdog ctx ring s = _
    unfold execContextStepWatchdog
    rw [ho]
    exact if_pos hw
  have hn : Keeps 0x400040000000002 s (noteCtxWatchdog ctx s) := noteCtxWatchdog_keeps ..
  have hfk : Keeps 0x40 (noteCtxWatchdog ctx s) (flushRing ctx ring (noteCtxWatchdog ctx s)) := flushRing_keeps ..
  have hring : ringOf (noteCtxWatchdog ctx s) ctx ring = ringOf s ctx ring := ringOf_of_doors (hn.frame .doors rfl) ..
  have hy : ringOf (flushRing ctx ring (noteCtxWatchdog ctx s)) ctx ring =
      { ringOf s ctx ring with flush := (ringOf s ctx ring).flush ++ [.below (ringOf s ctx ring).tail stWatchdog] } := by
    unfold flushRing addFlush
    rw [ringOf_modRing, if_pos ⟨rfl, rfl⟩, hring]
  generalize flushRing ctx ring (noteCtxWatchdog ctx s) = y at e hfk hy
  obtain ⟨hc, hf⟩ := ctxWatchdog_noted (s := s) (t := settleAll y) ((hfk.mono (by decide)).trans (settleAll_keeps ..))
  refine ⟨_, e, hc, hf, ?_, ?_⟩
  · refine (settle_closes _ y).flush ctx ring _ ?_
    rw [hy]
    exact List.mem_append_right _ (List.mem_singleton.2 rfl)
  · intro d hd hfl hft hu
    have hsy : stepCtx y ctx = stepCtx s ctx := by
      have h1 : y.steps = s.steps := (hfk.frame .steps rfl).trans (hn.frame .steps rfl)
      unfold stepCtx
      rw [h1]
    have hmem : d ∈ (ringOf s ctx ring).opened := (List.mem_filter.1 (List.mem_of_mem_head? hd)).1
    have hfind : (ringOf s ctx ring).opened.find? (·.idx == d.idx) = some d := by
      cases hx : (ringOf s ctx ring).opened.find? (·.idx == d.idx) with
      | none => exact absurd (List.find?_eq_none.1 hx d hmem) (by simp)
      | some a =>
        have h1 := List.find?_some hx
        rw [hu a (List.mem_of_find?_eq_some hx) (by simpa using h1)]
    have hwf : DoorsWf s := by
      obtain ⟨_, _, _, hd, _, _, _, _, _, _, _, _, _, _, _, _, _, _, _, _, hp, _⟩ := (canonical_iff s).1 hs
      exact ⟨hd, hp⟩
    have hcov : Covered { ringOf s ctx ring with flush := (ringOf s ctx ring).flush ++ [.below (ringOf s ctx ring).tail stWatchdog] } d :=
      ⟨by rw [hfl]; rfl, hd, hft⟩
    rw [settleAll_eq]
    refine Awaits.settled hcov rfl rfl ho hfind hfind _ y ?_ (Nat.le_refl _)
    exact ⟨(hwf.of_keeps hn).of_keeps hfk, hy, by rw [hsy]; exact ho, hfk.time.trans hn.time,
      (hfk.frame .functions rfl).trans (hn.frame .functions rfl), (hfk.frame .errors rfl).1.trans (hn.frame .errors rfl).1,
      by rw [(hfk.frame .output rfl).1, (hn.frame .output rfl).1]⟩

/-- Settles O19: Hutch's heartbeat, misses and restoration, and the context step watchdog, each by the lemmas of its command. -/
theorem watchdogsOfHutchAndContexts : Obligations.WatchdogsOfHutchAndContexts := by
  unfold Obligations.WatchdogsOfHutchAndContexts
  refine ⟨?_, ⟨?_, fun s h => ⟨_, dumpClear_clears s h, rfl⟩⟩, ?_⟩
  · intro s _ hs
    refine ⟨heartbeat_ignored s, fun h => ⟨_, heartbeat_restarts s hs h, rfl⟩, fun h => ⟨_, miss_suspended s h, rfl⟩, fun ha hh hr => ?_⟩
    refine ⟨fun hm => ⟨_, miss_counts s hs ha hh hm, rfl⟩, fun hm ht => ?_,
      fun hm h2 h600 => ⟨miss_warms hs ha hh hr hm h2 h600, miss_holds hs ha hh hr hm h2 h600⟩⟩
    obtain ⟨t, e, k, hv⟩ := miss_thirdResets hs ha hh hr hm ht
    exact ⟨t, e, k.awaited, k.unarmed, k.misses, k.mod.inService hs, k.times, k.flag, k.counted, hv⟩
  · exact fun s hs ha => ⟨restore_warms s hs ha, restore_holds s hs ha⟩
  · exact fun ctx ring s hs => ⟨ctxWatchdog_unbegun ctx ring s, ctxWatchdog_begun ctx ring s, ctxWatchdog_idle ctx ring s hs⟩

end Sys2Proof.Machine

/-!
SUPPORT. What the work on buckets leaves of the groups, of the pair channel and of the exchange's flags (R258 to R270, R282): a group changes
in what its buckets have staged and counted alone, and nothing noted of a divergence is lost.
-/
namespace Sys2Proof.Machine
set_option Elab.async false
open Sys2Proof.Safety

/-- A group without what its buckets have staged and counted. -/
def Group.settled (g : Group) : Group := { g with staged := [], early := [], partials := [], lateSeen := [], dupSeen := [] }

/-- Between the two states buckets have moved on: no group has changed but in what they have staged and counted, and what the flags and the
pair tell of a divergence stands. -/
structure Moves (s t : State) : Prop where
  settled : ∀ c, (group t c).settled = (group s c).settled
  flags : ∀ i, i < 32 → flagUp s .rdx i = true → flagUp t .rdx i = true
  diverged : t.rdx.pair.diverged = s.rdx.pair.diverged

theorem Moves.refl (s : State) : Moves s s := ⟨fun _ => rfl, fun _ _ => id, rfl⟩

theorem Moves.trans {s x t : State} (h : Moves s x) (k : Moves x t) : Moves s t :=
  ⟨fun c => (k.settled c).trans (h.settled c), fun i hi f => k.flags i hi (h.flags i hi f), k.diverged.trans h.diverged⟩

/-- An operation whose frame leaves the groups, the pair and the exchange's flags alone: every part but them is in this mask. -/
theorem Moves.of_keeps {s t : State} (k : Keeps 0x1fffffdffcffffff s t) : Moves s t := by
  refine ⟨fun c => ?_, fun i _ f => ?_, ?_⟩
  · unfold group
    rw [k.frame .groups rfl]
  · unfold flagUp flagsOf at f ⊢
    rw [k.frame (.flags .rdx) rfl]
    exact f
  · rw [k.frame .pair rfl]

theorem Moves.foldl {α : Type} {f : State → α → State} (hf : ∀ x a, Moves x (f x a)) (l : List α) (s : State) : Moves s (l.foldl f s) := by
  induction l generalizing s with
  | nil => exact .refl s
  | cons a l ih => exact (hf s a).trans (ih (f s a))

theorem Moves.ite {p : Prop} [Decidable p] {s x y : State} (h : Moves s x) (k : Moves s y) : Moves s (if p then x else y) := by
  split
  · exact h
  · exact k

theorem modGroup_moves (c : Nat) (f : Group → Group) (s : State) (hf : ∀ g, (f g).settled = g.settled := by exact fun _ => rfl) : Moves s (modGroup c f s) := by
  refine ⟨fun k => ?_, fun _ _ => id, rfl⟩
  rw [group_modGroup]
  split
  · exact hf _
  · rfl

theorem modPair_moves (f : Pair → Pair) (s : State) (hf : ∀ r, (f r).diverged = r.diverged := by exact fun _ => rfl) : Moves s (modPair f s) :=
  ⟨fun _ => rfl, fun _ _ => id, hf _⟩

theorem setFlag_moves (b : Block) (i : Nat) (s : State) : Moves s (setFlag b i s) :=
  ⟨fun _ => rfl, fun k hk h => by rw [flagUp_setFlag _ _ _ _ _ hk, h, Bool.true_or], rfl⟩

theorem addExch_moves (c : Nat) (f : ExchCounts → ExchCounts) (s : State) : Moves s (addExch c f s) := .of_keeps (addExch_keeps ..)

/-! ## Buckets -/

theorem dropBucketWork_moves (ctx tag : Nat) (s : State) : Moves s (dropBucketWork ctx tag s) := by
  have h := modGroup_moves ctx (fun g => { g with staged := g.staged.filter fun p => !(p.tag == tag && p.step == curStep s ctx % 2 ^ 16) }) s
  exact ⟨h.settled, h.flags, h.diverged⟩

theorem unstage_moves (ctx tag step rank parts : Nat) (s : State) : Moves s (unstage ctx tag step rank parts s) :=
  modGroup_moves ..

theorem stageLocal_moves (ctx tag step : Nat) (b : List Byte) (parts : Nat) (s : State) : Moves s (stageLocal ctx tag step b parts s) :=
  modGroup_moves ..

theorem dropPartial_moves (ctx : Nat) (b : List Byte) (s : State) : Moves s (dropPartial ctx b s) := modGroup_moves ..

theorem keepEarly_moves (ctx rank : Nat) (b : List Byte) (ps : List Piece) (s : State) : Moves s (keepEarly ctx rank b ps s) :=
  modGroup_moves ..

theorem noteLate_moves (ctx tag rank step epoch : Nat) (s : State) : Moves s (noteLate ctx tag rank step epoch s) := by
  unfold noteLate
  extract_lets +onlyGivenNames key x unit y z
  have hx : Moves s x := modGroup_moves ..
  have hy : Moves x y := .of_keeps ((bump_keeps ..).trans (addExch_keeps ..))
  have hz : Moves y z := .ite (.of_keeps (modBucket_keeps ..)) (.refl y)
  exact .ite (.refl s) ((hx.trans (hy.trans hz)).trans (.ite (.of_keeps (logEntry_keeps ..)) (.refl z)))

theorem decideParts_moves (ctx tag : Nat) (taken : Bool) (s : State) : Moves s (decideParts ctx tag taken s) := by
  unfold decideParts
  split
  · exact .refl s
  · rename_i b _
    extract_lets now parts arrived
    refine .ite (.refl s) ?_
    split
    · exact .refl s
    · rename_i a _
      refine .trans (.of_keeps (acceptSet_keeps ..)) (.foldl (fun x r => ?_) _ _)
      exact (noteLate_moves ..).trans (unstage_moves ..)

theorem tryDecide_moves (ctx tag : Nat) (s : State) : Moves s (tryDecide ctx tag s) :=
  (decideParts_moves ..).trans (decideParts_moves ..)

theorem abortBucket_moves (ctx tag : Nat) (s : State) : Moves s (abortBucket ctx tag s) := by
  unfold abortBucket
  split
  · exact .refl s
  · rename_i b _
    refine .ite (.refl s) ?_
    extract_lets +onlyGivenNames step x y r e z w
    have hx : Moves s x := .trans (.of_keeps (setBucket_keeps ..)) (dropBucketWork_moves ..)
    have hy : Moves x y := (setFlag_moves ..).trans (.of_keeps (bump_keeps ..))
    have hz : Moves y z := .of_keeps (logEntry_keeps ..)
    have hw : Moves z w := .foldl (fun _ _ => .of_keeps (sendRank_keeps ..)) _ z
    exact ((hx.trans hy).trans (hz.trans hw)).trans (.of_keeps (endDescriptor_keeps ..))

theorem checkGathered_moves (ctx tag : Nat) (s : State) : Moves s (checkGathered ctx tag s) := by
  unfold checkGathered
  split
  · exact .refl s
  · split
    · exact .refl s
    · rename_i g _
      extract_lets +onlyGivenNames x y z
      have hx : Moves s x := .of_keeps (setBucket_keeps ..)
      have hy : Moves x y := .trans (.of_keeps (bump_keeps ..)) (dropBucketWork_moves ..)
      have hz : Moves y z := .of_keeps (emitHist_keeps ..)
      exact .ite ((hx.trans (hy.trans hz)).trans (.of_keeps (complete_keeps ..))) (.refl s)

theorem checkReduced_moves (ctx tag : Nat) (s : State) : Moves s (checkReduced ctx tag s) := .of_keeps (checkReduced_keeps ..)

theorem bucketAfterAdoption_moves (newer : Bool) (ctx tag : Nat) (s : State) : Moves s (bucketAfterAdoption newer ctx tag s) := by
  unfold bucketAfterAdoption
  split
  · exact .refl s
  · rename_i b _
    extract_lets +onlyGivenNames step mine busy k fresh x y
    have hx : Moves s x :=
      .trans (.of_keeps ((dropSums_keeps ..).trans (noteContrib_keeps ..))) (stageLocal_moves ..)
    have hy : Moves s y := .ite (hx.trans (.of_keeps (setBucket_keeps ..))) (.ite (.of_keeps (sendCodes_keeps ..)) (.refl s))
    refine .ite (.refl s) (.ite (abortBucket_moves ..) (hy.trans ?_))
    exact (((Moves.of_keeps (resendParts_keeps ..)).trans (tryDecide_moves ..)).trans (checkReduced_moves ..)).trans (checkGathered_moves ..)

/-! ## Messages of a bucket -/

theorem pumpPair_moves (s : State) : Moves s (pumpPair s) := by
  unfold pumpPair
  have hw : Moves s (modPair (fun r => { r with wait := [] }) s) := modPair_moves ..
  refine .ite (.refl s) (.ite (hw.trans ?_) (.ite (hw.trans ?_) (.refl s)))
  · exact .foldl (fun _ _ => .of_keeps (routePacket_keeps ..)) _ _
  · exact .foldl (fun _ _ => .of_keeps (queueOn_keeps ..)) _ _

theorem sendPartner_moves (ctx type part tag step : Nat) (body : List Byte) (s : State) :
    Moves s (sendPartner ctx type part tag step body s) := by
  unfold sendPartner sendPair
  extract_lets pks vc
  refine .ite (.refl s) (.trans (.of_keeps (countSent_keeps ..)) (.trans (modPair_moves ..) (pumpPair_moves _)))

theorem applyResult_moves (ctx tag part : Nat) (ps : List Piece) (s : State) : Moves s (applyResult ctx tag part ps s) := by
  unfold applyResult
  split
  · exact .refl s
  · rename_i b _
    refine .ite (.refl s) ?_
    extract_lets w acc
    split
    extract_lets data x hist y
    have hx : Moves s x := .of_keeps ((noteStaged_keeps ..).trans (writeMem_keeps ..))
    have hy : Moves x y := .of_keeps (modBucket_keeps ..)
    exact ((hx.trans hy).trans (sendPartner_moves ..)).trans (checkReduced_moves ..)

theorem assembleMsg_moves (ctx : Nat) (stage : Bool) (b : List Byte) (s : State) : Moves s (assembleMsg ctx stage b s).2 := by
  unfold assembleMsg
  extract_lets old total
  split
  · exact .refl s
  · split
    rename_i q x hq
    have hx : Moves s x := .of_keeps (pieceOf_keeps_eq hq)
    extract_lets pieces y
    have hy : Moves x y := dropPartial_moves ..
    split
    · exact hx.trans hy
    · exact (hx.trans hy).trans (modGroup_moves ..)

theorem consume_moves (m : Inbound) (s : State) : Moves s (consume m s) := .of_keeps (consume_keeps ..)

theorem replyTo_moves (addr : Nat) {k : State → State} (hk : ∀ x, Moves x (k x)) (s : State) : Moves s (replyTo addr k s) := by
  unfold replyTo
  extract_lets due
  refine .ite (.trans (x := { s with rdx := { s.rdx with replied := tabSet none s.rdx.replied addr (some s.mod.devTime) } }) ?_ (hk _)) (.refl s)
  exact ⟨fun _ => rfl, fun _ _ => id, rfl⟩

theorem sendFencedNotice_moves (ctx dest : Nat) (s : State) : Moves s (sendFencedNotice ctx dest s) :=
  .trans (.of_keeps (sendRouted_keeps ..)) (setFlag_moves ..)

theorem onMessage_moves (type : Nat) (ready : State → List Byte → Bool) {k : Nat → Nat → List Byte → State → State}
    (hk : ∀ c r b x, Moves x (k c r b x)) (s : State) : Moves s (onMessage type ready k s) := by
  unfold onMessage
  split
  · exact .refl s
  · rename_i m _
    extract_lets b x
    have hx : Moves s x := consume_moves ..
    refine hx.trans ?_
    split
    · exact .refl x
    · exact ⟨fun _ => rfl, fun _ _ => id, rfl⟩
    · extract_lets y
      have hy : Moves x y := .trans (.of_keeps (bump_keeps cRdxEpoch 1 x)) (.of_keeps (logExchDrop_keeps ..))
      exact hy.trans ((addExch_moves ..).trans (replyTo_moves _ (fun _ => .of_keeps (sendNotice_keeps ..)) _))
    · extract_lets y
      have hy : Moves x y := .of_keeps (fenceDrop_keeps ..)
      split
      · exact hy.trans (replyTo_moves _ (fun _ => sendFencedNotice_moves ..) y)
      · exact hy
    · exact hk _ _ _ x

theorem takeResult_moves (s : State) : Moves s (takeResult s) := by
  refine onMessage_moves _ _ (fun c r b x => ?_) s
  refine .ite (dropPartial_moves ..) ?_
  have h := assembleMsg_moves c (!bucketIn x c b fun _ => true) b x
  dsimp only
  split
  · rename_i y e
    rw [e] at h
    exact h
  · rename_i ps y e
    rw [e] at h
    exact h.trans (.ite (applyResult_moves ..) (keepEarly_moves ..))

theorem takeResultAck_moves (s : State) : Moves s (takeResultAck s) :=
  onMessage_moves _ _ (fun _ _ _ x => .ite (.refl x) (.trans (.of_keeps (modBucket_keeps ..)) (checkReduced_moves ..))) s

/-! ## Epochs -/

/-- The adoption of an epoch as the group takes it, before its buckets do. -/
def groupAdopted (ctx epoch : Nat) (declarer : Option Nat) (live : Nat) (owners : List Nat) (effective : Nat) (s : State) : State :=
  modGroup ctx (fun g => { g with
    installed := true, epoch := epoch % 2 ^ 32, declarer := declarer, live := live
    owners := if effective = 0 then owners else ownersNow s ctx
    next := if effective = 0 then none else some (owners, effective)
    partials := g.partials.filter (·.epoch == epoch % 2 ^ 32) }) s

theorem adoptEpoch_moves (newer : Bool) (ctx epoch : Nat) (declarer : Option Nat) (live : Nat) (owners : List Nat) (effective : Nat)
    (s : State) :
    Moves (groupAdopted ctx epoch declarer live owners effective s) (adoptEpoch newer ctx epoch declarer live owners effective s) :=
  (Moves.foldl (fun _ _ => bucketAfterAdoption_moves ..) _ _).trans (.of_keeps (releaseHeld_keeps ..))

end Sys2Proof.Machine

/-!
SUPPORT. Fencing and the taking of notices (R28, R284, R287): what is consumed leaves of what the exchange's rules read, and what the module is
once it is fenced.
-/
namespace Sys2Proof.Machine
set_option Elab.async false
open Sys2Proof.Safety

/-! ## What a rule of the exchange reads -/

theorem st_of_canSend {s : State} (h : canSend s = true) : s.mod.st = .ready ∨ s.mod.st = .running := by
  unfold canSend at h
  rw [Bool.or_eq_true, beq_iff_eq, beq_iff_eq] at h
  exact h

theorem inService_of_canSend {s : State} (h : canSend s = true) : inService s = true := by
  unfold inService
  rcases st_of_canSend h with e | e
  · rw [e]
  · rw [e]

/-- The module's own fields, the registers, the groups and the current steps are as they were. -/
structure SameGroups (s t : State) : Prop where
  mod : t.mod = s.mod
  regs : t.regs = s.regs
  groups : t.rdx.groups = s.rdx.groups
  step : ∀ c, curStep t c = curStep s c

namespace SameGroups

theorem refl (s : State) : SameGroups s s := ⟨rfl, rfl, rfl, fun _ => rfl⟩

theorem trans {s x t : State} (h : SameGroups s x) (k : SameGroups x t) : SameGroups s t :=
  ⟨k.mod.trans h.mod, k.regs.trans h.regs, k.groups.trans h.groups, fun c => (k.step c).trans (h.step c)⟩

theorem of_steps {s t : State} (hm : t.mod = s.mod) (hr : t.regs = s.regs) (hg : t.rdx.groups = s.rdx.groups) (hs : t.steps = s.steps) :
    SameGroups s t := by
  refine ⟨hm, hr, hg, fun c => ?_⟩
  unfold curStep stepCtx
  rw [hs]

/-- An operation whose frame leaves these alone: every part but them is in this mask. -/
theorem of_keeps {s t : State} (k : Keeps 0x1ffffffffeff7ffa s t) : SameGroups s t :=
  of_steps (k.frame .module rfl) (k.frame .registers rfl) (k.frame .groups rfl) (k.frame .steps rfl)

theorem ite {p : Prop} [Decidable p] {s x y : State} (h : SameGroups s x) (k : SameGroups s y) : SameGroups s (if p then x else y) := by
  split
  · exact h
  · exact k

theorem reg {s t : State} (h : SameGroups s t) : reg t = reg s := by
  funext off
  unfold Machine.reg
  rw [h.regs]

theorem group {s t : State} (h : SameGroups s t) : group t = group s := by
  funext c
  unfold Machine.group
  rw [h.groups]

theorem ownRank {s t : State} (h : SameGroups s t) : ownRank t = ownRank s := by
  funext c
  unfold Machine.ownRank
  rw [h.reg]

theorem partnerRank {s t : State} (h : SameGroups s t) : partnerRank t = partnerRank s := by
  funext c
  unfold Machine.partnerRank
  rw [h.ownRank]

theorem canSend {s t : State} (h : SameGroups s t) : canSend t = canSend s := by
  unfold Machine.canSend
  rw [h.mod]

theorem inService {s t : State} (h : SameGroups s t) : inService t = inService s := by
  unfold Machine.inService
  rw [h.mod]

theorem contextOf {s t : State} (h : SameGroups s t) : contextOf t = contextOf s := by
  have hg : groupOn t = groupOn s := by
    funext c
    unfold groupOn regBit
    rw [h.reg, h.group]
  funext g
  unfold Machine.contextOf groupContexts groupId
  rw [hg, h.reg]

theorem ownersNow {s t : State} (h : SameGroups s t) : ownersNow t = ownersNow s := by
  funext c
  unfold Machine.ownersNow ownersAt
  rw [h.group, h.step]

theorem screen {s t : State} (h : SameGroups s t) : screen t = screen s := by
  funext b
  unfold Machine.screen senderRank workers memberAddr
  rw [h.canSend, h.contextOf, h.group, h.reg]

end SameGroups

theorem addExch_sameGroups (c : Nat) (f : ExchCounts → ExchCounts) (s : State) : SameGroups s (addExch c f s) := by
  refine ⟨rfl, rfl, rfl, fun k => ?_⟩
  unfold addExch curStep
  rw [stepCtx_modOpen]
  have hl : (stepCtx (modOpen c (fun o => if o.begun then { o with exch := f o.exch } else o) s) k).last = (stepCtx s k).last := by
    unfold modOpen
    rw [stepCtx_modStepCtx]
    split
    · rfl
    · rfl
  rw [hl]
  by_cases hk : k = c
  · rw [if_pos hk]
    cases (stepCtx s k).opened with
    | none => rfl
    | some o =>
      dsimp only [Option.map_some]
      cases hb : o.begun with
      | true => rw [if_pos rfl, if_pos rfl]
      | false => rw [if_neg Bool.false_ne_true, hb]
  · rw [if_neg hk]

theorem consume_sameGroups (m : Inbound) (s : State) : SameGroups s (consume m s) := by
  unfold consume
  extract_lets +onlyGivenNames o x vc y z
  have hx : SameGroups s x := ⟨rfl, rfl, rfl, fun _ => rfl⟩
  have hy : SameGroups x y := .of_keeps ((freeBuffer_keeps ..).trans (bump_keeps cRdxRecv _ _))
  have hz : SameGroups y z := by
    unfold z
    split
    · exact addExch_sameGroups ..
    · exact .refl y
  exact .ite hx (((hx.trans hy).trans hz).trans (.ite (.of_keeps (sendIdle_keeps ..)) (.refl z)))

/-- A notice for a group that is on is processed once its packet is out of the inbox. -/
theorem onNotice_takes {type : Nat} {m : Inbound} {c : Nat} {s : State} (k : Nat → List Byte → State → State)
    (hf : s.opt.inbox.find? (fun m => pkType m.pkt == type) = some m) (hs : inService s = true) (hc : contextOf s (pkGroup m.pkt) = some c) :
    onNotice type k s = k c m.pkt (consume m s) := by
  have e := consume_sameGroups m s
  unfold onNotice
  rw [hf]
  dsimp only
  rw [e.inService, e.contextOf, hs, hc]

theorem whileWaiting_none {kinds : List Instr} {s : State} (k : Instr → State → State) (h : ∀ i ∈ kinds, i ∉ s.pending) :
    whileWaiting kinds k s = s := by
  have e : s.pending.filter kinds.contains = [] := by
    rw [List.filter_eq_nil_iff]
    intro i hi hk
    exact h i (List.contains_iff_mem.1 hk) hi
  unfold whileWaiting
  rw [e]
  rfl

/-! ## Fencing -/

/-- A module that sends is as outranked in every state that agrees in what may outrank a transition. -/
theorem outranked_of_same {s t : State} (h : SameTrips s t) (hr : t.rcv = s.rcv) (hf : t.fwu = s.fwu) (hs : canSend s = true) (p : Nat) :
    outranked p t = outranked p s := by
  have hst : (s.mod.st == .recovery) = false := not_recovery (inService_of_canSend hs)
  have ha : resetAsked t = resetAsked s := by
    funext i
    unfold resetAsked rcvOpen inService mainPower missWarms missResets hbHeld inService
    rw [h.mod, hr, h.regBit, hf]
    cases i
    case fwuActivate => dsimp only; rw [hst, Bool.false_and, Bool.false_and]
    case activateFirmware => dsimp only; rw [hst, Bool.false_and, Bool.false_and]
    all_goals rfl
  unfold outranked lossWaits offWaits waits resetWaits mainPower
  rw [h.tripWaits, h.timesWithReset, h.mod, h.pending, ha]

/-- What fencing leaves: the mark, and nothing that waits or is held, nor any divergence; what is noted of one stands. -/
structure FencedFrom (s t : State) : Prop where
  mod : t.mod = { s.mod.withMark true with st := .fenced }
  wait : t.rdx.pair.wait = []
  held : t.rdx.held = []
  diverge : ∀ c, c < 16 → (group t c).diverge = []
  diverged : t.rdx.pair.diverged = s.rdx.pair.diverged

/-- One context as the module is fenced. -/
def contextFenced (c : Nat) (s : State) : State :=
  modGroup c (fun g => { g with staged := [], early := [], partials := [], diverge := [] })
    (staleStep c ((usedTags s c).foldl (fun s tag => staleBucket c tag s) s))

theorem staleStep_moves (c : Nat) (s : State) : Moves s (staleStep c s) := .of_keeps (staleStep_keeps ..)

theorem staleBucket_moves (c tag : Nat) (s : State) : Moves s (staleBucket c tag s) := by
  unfold staleBucket
  split
  · exact .refl s
  · refine .ite (.refl s) ?_
    exact .trans (.of_keeps (setBucket_keeps ..)) ((dropBucketWork_moves ..).trans (.of_keeps (endDescriptor_keeps ..)))

theorem contextFenced_diverge (c : Nat) (s : State) (k : Nat) :
    (group (contextFenced c s) k).diverge = if k = c then [] else (group s k).diverge := by
  unfold contextFenced
  rw [group_modGroup]
  split
  · rfl
  · have h : Moves s (staleStep c ((usedTags s c).foldl (fun s tag => staleBucket c tag s) s)) :=
      (Moves.foldl (fun _ _ => staleBucket_moves ..) _ s).trans (staleStep_moves ..)
    have e := congrArg Group.diverge (h.settled k)
    exact e

theorem contextFenced_keeps (c : Nat) (s : State) : Keeps 0x1000115058040 s (contextFenced c s) :=
  ((Keeps.foldl (Keeps.refl s) (fun _ _ => staleBucket_keeps ..) _).trans (staleStep_keeps ..)).trans (modGroup_keeps ..)

theorem contextsFenced_diverge (l : List Nat) (s : State) (k : Nat) (h : k ∈ l ∨ (group s k).diverge = []) :
    (group (l.foldl (fun s c => contextFenced c s) s) k).diverge = [] := by
  induction l generalizing s with
  | nil =>
    rcases h with h | h
    · cases h
    · exact h
  | cons c l ih =>
    refine ih (contextFenced c s) ?_
    rw [contextFenced_diverge]
    by_cases e : k = c
    · exact .inr (if_pos e)
    · rcases h with h | h
      · exact .inl ((List.mem_cons.1 h).resolve_left e)
      · exact .inr ((if_neg e).trans h)

/-- The module, its pair and its ports as it is fenced. -/
def moduleFenced (s : State) : State :=
  dropOriginated (modPair (fun r => { r with wait := [], probing := false }) { s with mod := { s.mod.withMark true with st := .fenced } })

/-- What the exchange holds goes with the module's fencing. -/
def heldDropped (s : State) : State :=
  { s with rdx := { s.rdx with held := [], units := tabMap {} (fun _ u => { u with queue := [] }) s.rdx.units } }

theorem enterFenced_eq {s : State} (hs : canSend s = true) (ho : outranked 6 s = false) :
    enterFenced s = fenceProgramming (heldDropped ((List.range 16).foldl (fun s c => contextFenced c s) (moduleFenced s))) := by
  unfold enterFenced contextFenced moduleFenced heldDropped
  rw [if_pos ⟨st_of_canSend hs, by rw [ho]; rfl⟩]

theorem enterFenced_fences {s : State} (hs : canSend s = true) (ho : outranked 6 s = false) : FencedFrom s (enterFenced s) := by
  rw [enterFenced_eq hs ho]
  have hd := contextsFenced_diverge (List.range 16) (moduleFenced s)
  have hk : Keeps 0x1000115058040 (moduleFenced s) ((List.range 16).foldl (fun s c => contextFenced c s) (moduleFenced s)) :=
    Keeps.foldl (Keeps.refl _) (fun _ _ => contextFenced_keeps ..) _
  generalize (List.range 16).foldl (fun s c => contextFenced c s) (moduleFenced s) = x at hd hk
  have hp : x.rdx.pair = { s.rdx.pair with wait := [], probing := false } := hk.frame .pair rfl
  have k : Keeps 0x1000010078060 (heldDropped x) (fenceProgramming (heldDropped x)) := fenceProgramming_keeps ..
  have kp : (fenceProgramming (heldDropped x)).rdx.pair = x.rdx.pair := k.frame .pair rfl
  refine ⟨(k.frame .module rfl).trans (hk.frame .module rfl), ?_, (k.frame .held rfl).1, fun c hc => ?_, ?_⟩
  · rw [kp, hp]
  · have e : group (fenceProgramming (heldDropped x)) c = group x c := by
      unfold group
      rw [k.frame .groups rfl]
      rfl
    rw [e]
    exact hd c (.inl (List.mem_range.2 hc))
  · rw [kp, hp]

end Sys2Proof.Machine

/-!
SUPPORT and the statement on epochs (O52): notices that are adopted or fence the module, messages held, INSTALL, ADMIT and RDX_PAIR (R254, R279,
R282, R284, R285, R289).
-/
namespace Sys2Proof.Machine
set_option Elab.async false
open Sys2Proof.Safety

/-! ## Adoption -/

/-- A group as an epoch is adopted. -/
structure Adopted (g : Group) (epoch : Nat) (declarer : Option Nat) (live : Nat) : Prop where
  installed : g.installed = true
  epoch : g.epoch = epoch % 2 ^ 32
  declarer : g.declarer = declarer
  live : g.live = live

/-- It rests on what buckets do not change. -/
theorem Adopted.of_settled {g h : Group} {epoch live : Nat} {declarer : Option Nat} (e : h.settled = g.settled)
    (k : Adopted g epoch declarer live) : Adopted h epoch declarer live := by
  have hi := congrArg Group.installed e
  have he := congrArg Group.epoch e
  have hd := congrArg Group.declarer e
  have hl := congrArg Group.live e
  exact ⟨hi.trans k.installed, he.trans k.epoch, hd.trans k.declarer, hl.trans k.live⟩

theorem setAdmitResult_adopted (c v : Nat) {k epoch live : Nat} {declarer : Option Nat} {s : State}
    (h : Adopted (group s k) epoch declarer live) : Adopted (group (setAdmitResult c v s) k) epoch declarer live := by
  unfold setAdmitResult
  rw [group_modGroup]
  split
  · exact ⟨h.installed, h.epoch, h.declarer, h.live⟩
  · exact h

section
variable (newer : Bool) (c epoch : Nat) (declarer : Option Nat) (live : Nat) (owners : List Nat) (effective : Nat) (s : State)

theorem adoptEpoch_adopted : Adopted (group (adoptEpoch newer c epoch declarer live owners effective s) c) epoch declarer live := by
  refine .of_settled ((adoptEpoch_moves newer c epoch declarer live owners effective s).settled c) ?_
  unfold groupAdopted
  rw [group_modGroup, if_pos rfl]
  exact ⟨rfl, rfl, rfl, rfl⟩

/-- Ownership changes with the adoption or at the step that it names (R282). -/
theorem adoptEpoch_owners :
    (group (adoptEpoch newer c epoch declarer live owners effective s) c).owners = (if effective = 0 then owners else ownersNow s c)
      ∧ (group (adoptEpoch newer c epoch declarer live owners effective s) c).next = if effective = 0 then none else some (owners, effective) := by
  have h := (adoptEpoch_moves newer c epoch declarer live owners effective s).settled c
  unfold groupAdopted at h
  rw [group_modGroup, if_pos rfl] at h
  have ho := congrArg Group.owners h
  have hn := congrArg Group.next h
  exact ⟨ho, hn⟩

theorem adoptEpoch_others {k : Nat} (hk : k ≠ c) :
    (group (adoptEpoch newer c epoch declarer live owners effective s) k).settled = (group s k).settled := by
  have h := (adoptEpoch_moves newer c epoch declarer live owners effective s).settled k
  unfold groupAdopted at h
  rw [group_modGroup, if_neg hk] at h
  exact h

theorem adoptEpoch_mod : (adoptEpoch newer c epoch declarer live owners effective s).mod = s.mod :=
  (adoptEpoch_keeps newer c epoch declarer live owners effective s (F := 0xe100e11d948642)).frame .module rfl

theorem adoptEpoch_pair : (adoptEpoch newer c epoch declarer live owners effective s).rdx.pair = s.rdx.pair :=
  (adoptEpoch_keeps newer c epoch declarer live owners effective s (F := 0xe100e11d948642)).frame .pair rfl

end

/-! ## Notices -/

theorem sendHeartbeat_sameGroups (s : State) : SameGroups s (sendHeartbeat s) := by
  unfold sendHeartbeat
  extract_lets b
  have h : SameGroups s (countSent none [b] s) := .of_steps rfl rfl rfl rfl
  exact .ite (h.trans (.of_keeps (queueOn_keeps ..))) (.refl s)

theorem sendHeartbeat_pair (s : State) : (sendHeartbeat s).rdx.pair = s.rdx.pair :=
  (sendHeartbeat_keeps (F := 0x60000010108000) s).frame .pair rfl

theorem modPair_sameGroups (f : Pair → Pair) (s : State) : SameGroups s (modPair f s) := ⟨rfl, rfl, rfl, fun _ => rfl⟩

theorem rejoinPair_sameGroups (s : State) : SameGroups s (rejoinPair s) := by
  unfold rejoinPair
  exact .ite ((modPair_sameGroups ..).trans (sendHeartbeat_sameGroups _)) (.refl s)

theorem rejoinPair_rejoins (s : State) (h : s.rdx.pair.st = 3) : (rejoinPair s).rdx.pair.st = 0 := by
  unfold rejoinPair
  rw [if_pos h, sendHeartbeat_pair]
  rfl

/-- A notice that counts, and does not mark a module dead that sends, is adopted; the partner rejoins where it tells of it as live. -/
theorem epochNotice_adopts {c : Nat} {b : List Byte} {s : State}
    (hd : canSend s = true → (fieldAt (pkBody b) 0 8).testBit (ownRank s c) = true)
    (hn : newerEpoch (pkEpoch b) (group s c).epoch = true
      ∨ pkEpoch b = (group s c).epoch ∧ ∀ d, (group s c).declarer = some d → fieldAt (pkBody b) 80 1 < d) :
    ∃ newer y, SameGroups s y
      ∧ (s.rdx.pair.st = 3 → (fieldAt (pkBody b) 0 8).testBit (partnerRank s c) = true → y.rdx.pair.st = 0)
      ∧ epochNotice c b s = adoptEpoch newer c (pkEpoch b) (some (fieldAt (pkBody b) 80 1)) (fieldAt (pkBody b) 0 8)
          ((List.range 64).map fun k => fieldAt (pkBody b) (16 + k) 1 &&& 0xBF) (fieldAt (pkBody b) 8 8) y := by
  have hdead : ¬(canSend s && !(fieldAt (pkBody b) 0 8).testBit (ownRank s c)) = true := by
    cases e : canSend s with
    | false => exact nofun
    | true => rw [hd e]; exact nofun
  unfold epochNotice
  extract_lets g body live declarer newer lower x owners y
  have hcount : (newer || lower) = true := by
    rw [Bool.or_eq_true]
    rcases hn with h | ⟨he, hlow⟩
    · exact .inl h
    · refine .inr ?_
      unfold lower
      rw [Bool.and_eq_true, decide_eq_true_iff]
      refine ⟨he, ?_⟩
      split
      · rename_i d hg
        exact decide_eq_true (hlow d hg)
      · rfl
  have hx : SameGroups s x := .ite (.refl s) ⟨rfl, rfl, rfl, fun _ => rfl⟩
  have hpx : x.rdx.pair = s.rdx.pair := by unfold x; split <;> rfl
  have hy : SameGroups x y := .ite (rejoinPair_sameGroups x) (.refl x)
  refine ⟨newer, y, hx.trans hy, fun h3 hl => ?_, (if_neg hdead).trans (if_pos hcount)⟩
  have hl' : live.testBit (partnerRank x c) = true := by rw [hx.partnerRank]; exact hl
  unfold y
  rw [if_pos hl']
  exact rejoinPair_rejoins x (by rw [hpx]; exact h3)

theorem epochNotice_completes {m : Inbound} {c : Nat} {s : State} (hs : inService s = true) (hc : contextOf s (pkGroup m.pkt) = some c)
    (hf : s.opt.inbox.find? (fun m => pkType m.pkt == 9) = some m) (hw : .fencedNotice ∉ s.pending) :
    exec .epochNotice s = .next (epochNotice c m.pkt (consume m s)) := by
  show Host.Outcome.next (takeEpochNotice s) = _
  unfold takeEpochNotice
  rw [whileWaiting_none _ (fun i hi => by rw [List.mem_singleton.1 hi]; exact hw), onNotice_takes _ hf hs hc]

theorem notice_adopted (m : Inbound) (c live e : Nat) (owners : List Nat) (s : State) (hs : inService s = true)
    (hc : contextOf s (pkGroup m.pkt) = some c) (hlive : live = fieldAt (pkBody m.pkt) 0 8) (he : e = fieldAt (pkBody m.pkt) 8 8)
    (howners : owners = (List.range 64).map (fun k => fieldAt (pkBody m.pkt) (16 + k) 1 &&& 0xBF))
    (hf : s.opt.inbox.find? (fun m => pkType m.pkt == 9) = some m) (hw : .fencedNotice ∉ s.pending)
    (hd : canSend s = true → live.testBit (ownRank s c) = true)
    (hn : newerEpoch (pkEpoch m.pkt) (group s c).epoch = true
      ∨ pkEpoch m.pkt = (group s c).epoch ∧ (∀ d, (group s c).declarer = some d → fieldAt (pkBody m.pkt) 80 1 < d)) :
    Completes .epochNotice s fun t =>
      (group t c).epoch = pkEpoch m.pkt % 2 ^ 32 ∧ (group t c).live = live
        ∧ (group t c).declarer = some (fieldAt (pkBody m.pkt) 80 1)
        ∧ (e = 0 → (group t c).owners = owners ∧ (group t c).next = none)
        ∧ (e ≠ 0 → (group t c).owners = ownersNow s c ∧ (group t c).next = some (owners, e)) ∧ t.mod = s.mod
        ∧ (s.rdx.pair.st = 3 → live.testBit (partnerRank s c) = true → t.rdx.pair.st = 0) := by
  have hx := consume_sameGroups m s
  have hp : (consume m s).rdx.pair = s.rdx.pair := (consume_keeps (F := 0x20000010908000) m s).frame .pair rfl
  refine ⟨_, epochNotice_completes hs hc hf hw, ?_⟩
  generalize consume m s = x at hx hp
  subst hlive he howners
  obtain ⟨newer, y, hy, hst, eq⟩ := epochNotice_adopts (c := c) (b := m.pkt) (s := x)
    (by rw [hx.canSend, hx.ownRank]; exact hd) (by rw [hx.group]; exact hn)
  rw [eq]
  have a := adoptEpoch_adopted newer c (pkEpoch m.pkt) (some (fieldAt (pkBody m.pkt) 80 1)) (fieldAt (pkBody m.pkt) 0 8)
    ((List.range 64).map fun k => fieldAt (pkBody m.pkt) (16 + k) 1 &&& 0xBF) (fieldAt (pkBody m.pkt) 8 8) y
  obtain ⟨ho, hnext⟩ := adoptEpoch_owners newer c (pkEpoch m.pkt) (some (fieldAt (pkBody m.pkt) 80 1)) (fieldAt (pkBody m.pkt) 0 8)
    ((List.range 64).map fun k => fieldAt (pkBody m.pkt) (16 + k) 1 &&& 0xBF) (fieldAt (pkBody m.pkt) 8 8) y
  refine ⟨a.epoch, a.live, a.declarer, fun h0 => ?_, fun h0 => ?_, ?_, fun h3 hl => ?_⟩
  · rw [if_pos h0] at ho hnext
    exact ⟨ho, hnext⟩
  · rw [if_neg h0] at ho hnext
    rw [(hx.trans hy).ownersNow] at ho
    exact ⟨ho, hnext⟩
  · rw [adoptEpoch_mod, (hx.trans hy).mod]
  · rw [adoptEpoch_pair]
    exact hst (by rw [hp]; exact h3) (by rw [hx.partnerRank]; exact hl)

/-- A module that sends is fenced from any state that differs from `s` in what a packet taken from the inbox changes alone. -/
theorem enterFenced_afterNotice {s x : State} (hg : SameGroups s x) (k : Keeps 0x20002010908000 s x) (hs : canSend s = true)
    (ho : outranked 6 s = false) : FencedFrom x (enterFenced x) := by
  refine enterFenced_fences (by rw [hg.canSend]; exact hs) ?_
  have h : SameTrips s x := ⟨hg.mod, k.frame .nightstand rfl, hg.regs, k.queue⟩
  rw [outranked_of_same h (k.frame .recovery rfl) (k.frame .firmware rfl) hs]
  exact ho

theorem fencedNotice_fences {c : Nat} {b : List Byte} {s x : State} (hg : SameGroups s x) (k : Keeps 0x20002010908000 s x)
    (hs : canSend s = true) (ho : outranked 6 s = false) (hn : newerEpoch (group s c).epoch (pkEpoch b) = false) :
    let t := fencedNotice c b x
    t.mod = { s.mod.withMark true with st := .fenced } ∧ t.rdx.pair.wait = [] ∧ t.rdx.held = [] := by
  have e : fencedNotice c b x = enterFenced x := if_neg (by rw [hg.group, hn]; exact nofun)
  have f := enterFenced_afterNotice hg k hs ho
  rw [e]
  refine ⟨?_, f.wait, f.held⟩
  rw [f.mod, hg.mod]

theorem notice_fences (m : Inbound) (c live : Nat) (s : State) (hc : contextOf s (pkGroup m.pkt) = some c)
    (hlive : live = fieldAt (pkBody m.pkt) 0 8) (i : Instr) (hs : canSend s = true) (ho : outranked 6 s = false)
    (hn : newerEpoch (group s c).epoch (pkEpoch m.pkt) = false)
    (hi : i = .fencedNotice ∧ s.opt.inbox.find? (fun m => pkType m.pkt == 10) = some m
      ∨ i = .epochNotice ∧ .fencedNotice ∉ s.pending ∧ s.opt.inbox.find? (fun m => pkType m.pkt == 9) = some m
        ∧ live.testBit (ownRank s c) = false) :
    Completes i s fun t => t.mod = { s.mod.withMark true with st := .fenced } ∧ t.rdx.pair.wait = [] ∧ t.rdx.held = [] := by
  have hx := consume_sameGroups m s
  have kx : Keeps 0x20002010908000 s (consume m s) := consume_keeps ..
  have hsx : canSend (consume m s) = true := by rw [hx.canSend]; exact hs
  rcases hi with ⟨rfl, hf⟩ | ⟨rfl, hw, hf, hdead⟩
  · refine ⟨takeFencedNotice s, rfl, ?_⟩
    unfold takeFencedNotice
    rw [onNotice_takes _ hf (inService_of_canSend hs) hc, if_pos hsx]
    exact fencedNotice_fences (hx.trans ⟨rfl, rfl, rfl, fun _ => rfl⟩) (kx.trans (setFlag_keeps ..)) hs ho hn
  · refine ⟨_, epochNotice_completes (inService_of_canSend hs) hc hf hw, ?_⟩
    have e : epochNotice c m.pkt (consume m s) = fencedNotice c m.pkt (consume m s) := by
      refine if_pos ?_
      rw [hsx, hx.ownRank, ← hlive, hdead]
      rfl
    rw [e]
    exact fencedNotice_fences hx kx hs ho hn

/-! ## Messages held -/

theorem holdDrop_counts (ctx : Option Nat) (b : List Byte) (s : State) :
    (holdDrop ctx b s).rdx = s.rdx ∧ Counted s (holdDrop ctx b s) cRdxHold 1 ∧ (holdDrop ctx b s).opt = s.opt := by
  have hc : Counted s (bump cRdxHold 1 s) cRdxHold 1 := counted_bump ..
  have hr : (bump cRdxHold 1 s).rdx = s.rdx := rfl
  have ho : (bump cRdxHold 1 s).opt = s.opt := rfl
  unfold holdDrop logExchDrop
  generalize bump cRdxHold 1 s = x at hc hr ho
  split
  · exact ⟨hr, hc, ho⟩
  · exact ⟨hr, hc, ho⟩

theorem holdExpiry_drops (m : Inbound) (ms : List Inbound) (s : State) (h : s.rdx.held = m :: ms) :
    Completes .epochHoldExpiry s fun t => t.rdx = { s.rdx with held := ms } ∧ Counted s t cRdxHold 1 ∧ t.opt = s.opt := by
  have e : exec .epochHoldExpiry s =
      .next (holdDrop (contextOf s (pkGroup m.pkt)) m.pkt { s with rdx := { s.rdx with held := ms } }) := by
    show execEpochHoldExpiry s = _
    unfold execEpochHoldExpiry
    rw [h]
  exact ⟨_, e, holdDrop_counts _ m.pkt { s with rdx := { s.rdx with held := ms } }⟩

/-! ## INSTALL -/

theorem install_refused (c : Fin 16) (s : State) (hs : inService s = true)
    (h : s.mod.st = .fenced ∨ configValid s c (nextOwners s c) = false) : Completes (.rdxInstall c) s fun t =>
      t = { s with rdx := { s.rdx with groups := tabMod {} s.rdx.groups c fun g => { g with result := 3 } } } :=
  ⟨_, (if_neg (by rw [hs]; exact nofun)).trans (if_pos (h.imp id fun e => by rw [e]; rfl)), rfl⟩

theorem install_stale (c : Fin 16) (s : State) (hs : inService s = true) (hst : s.mod.st ≠ .fenced)
    (hv : configValid s c (nextOwners s c) = true) (hn : nextNewer s c = false) : Completes (.rdxInstall c) s fun t =>
      t = { s with rdx := { s.rdx with groups := tabMod {} s.rdx.groups c fun g => { g with result := 2 } } } :=
  ⟨_, ((if_neg (by rw [hs]; exact nofun)).trans (if_neg (by rw [hv]; exact fun h => h.elim hst nofun))).trans
    (if_pos (by rw [hn]; rfl)), rfl⟩

/-- The group as its NEXT_ state is installed, where the mark of divergence is cleared first. -/
theorem install_adopts (c : Fin 16) (s : State) (hs : inService s = true) (hst : s.mod.st ≠ .fenced)
    (hv : configValid s c (nextOwners s c) = true) (hn : nextNewer s c = true) : Completes (.rdxInstall c) s fun t =>
      (group t c).result = 1 ∧ (group t c).installed = true ∧ (group t c).epoch = reg s (rRdxNextEpoch c) % 2 ^ 32
        ∧ (group t c).live = reg s (rRdxNextLive c) ∧ (group t c).declarer = none
        ∧ (reg s (rRdxNextStep c) = 0 → (group t c).owners = nextOwners s c) ∧ t.rdx.pair.diverged = false
        ∧ t.rdx.pair.mismatch = false ∧ t.mod = s.mod := by
  refine ⟨_, ((if_neg (by rw [hs]; exact nofun)).trans (if_neg (by rw [hv]; exact fun h => h.elim hst nofun))).trans
    (if_neg (by rw [hn]; exact nofun)), ?_⟩
  dsimp only
  generalize hy : modPair (fun r => { r with diverged := false, mismatch := false }) s = y
  have hreg : reg y = reg s := by rw [← hy]; rfl
  have hnext : nextOwners y c = nextOwners s c := by unfold nextOwners; rw [hreg]
  have hpair : y.rdx.pair.diverged = false ∧ y.rdx.pair.mismatch = false := by rw [← hy]; exact ⟨rfl, rfl⟩
  have hmod : y.mod = s.mod := by rw [← hy]; rfl
  clear hy
  unfold adoptNext setAdmitResult
  rw [hreg, hnext, group_modGroup, if_pos rfl]
  have a := adoptEpoch_adopted true c (reg s (rRdxNextEpoch c)) none (reg s (rRdxNextLive c)) (nextOwners s c) (reg s (rRdxNextStep c)) y
  obtain ⟨ho, _⟩ := adoptEpoch_owners true c (reg s (rRdxNextEpoch c)) none (reg s (rRdxNextLive c)) (nextOwners s c)
    (reg s (rRdxNextStep c)) y
  have hp := adoptEpoch_pair true c (reg s (rRdxNextEpoch c)) none (reg s (rRdxNextLive c)) (nextOwners s c) (reg s (rRdxNextStep c)) y
  refine ⟨rfl, a.installed, a.epoch, a.live, a.declarer, fun h0 => ho.trans (if_pos h0), ?_, ?_, ?_⟩
  · exact (congrArg Pair.diverged hp).trans hpair.1
  · exact (congrArg Pair.mismatch hp).trans hpair.2
  · exact (adoptEpoch_mod ..).trans hmod

/-! ## ADMIT -/

/-- The group of context `k` has the NEXT_ state that the registers of `s` tell, declared by the module. -/
def NextAdopted (s : State) (k : Nat) (g : Group) : Prop :=
  Adopted g (reg s (rRdxNextEpoch k)) (some (ownRank s k)) (reg s (rRdxNextLive k))

theorem adoptNext_adopted (c : Nat) (d : Option Nat) (s : State) :
    Adopted (group (adoptNext c d s) c) (reg s (rRdxNextEpoch c)) d (reg s (rRdxNextLive c)) := adoptEpoch_adopted ..

theorem adoptNext_regs (c : Nat) (d : Option Nat) (s : State) : (adoptNext c d s).regs = s.regs :=
  (adoptNext_keeps (F := 0xe100e11d948642) c d s).frame .registers rfl

theorem ownRank_of_regs {s t : State} (h : t.regs = s.regs) : ownRank t = ownRank s := by
  funext c
  unfold ownRank reg
  rw [h]

/-- Each of a list of contexts adopts its NEXT_ state. -/
theorem adoptNexts_adopted (l : List Nat) {s x : State} (hr : x.regs = s.regs) (k : Nat) (h : k ∈ l ∨ NextAdopted s k (group x k)) :
    NextAdopted s k (group (l.foldl (fun s c => adoptNext c (some (ownRank s c)) s) x) k) := by
  induction l generalizing x with
  | nil => exact h.resolve_left nofun
  | cons c l ih =>
    refine ih ((adoptNext_regs ..).trans hr) ?_
    by_cases hk : k = c
    · refine .inr ?_
      subst hk
      have a := adoptNext_adopted k (some (ownRank x k)) x
      rw [reg_of_regs hr, reg_of_regs hr] at a
      unfold NextAdopted
      rw [← ownRank_of_regs hr]
      exact a
    · refine h.imp (fun hm => (List.mem_cons.1 hm).resolve_left hk) (fun ha => ?_)
      exact Adopted.of_settled (adoptEpoch_others _ _ _ _ _ _ _ _ hk) ha

theorem adoptNexts_keeps (l : List Nat) (s : State) :
    Keeps 0xe100e11d948642 s (l.foldl (fun s c => adoptNext c (some (ownRank s c)) s) s) :=
  Keeps.foldl (Keeps.refl s) (fun _ _ => adoptNext_keeps ..) _

section
variable {c : Fin 16} {s : State} (hs : inService s = true) (hw : .epochNotice ∉ s.pending)
include hw

/-- No notice waits, and the module is as it is when ADMIT is served. -/
theorem admit_starts : (if s.mod.st = .fenced then whileWaiting [.epochNotice] (fun _ => takeEpochNotice) s else s) = s := by
  rw [whileWaiting_none _ (fun i hi => by rw [List.mem_singleton.1 hi]; exact hw), ite_self]

include hs

theorem admit_refused (h : s.mod.st ≠ .fenced ∨ ∃ k ∈ admitContexts s, configValid s k (nextOwners s k) = false) :
    exec (.rdxAdmit c) s = .next (setAdmitResult c 3 s) := by
  show execAdmit c s = _
  unfold execAdmit
  rw [admit_starts hw]
  refine (if_neg (by rw [hs]; exact nofun)).trans (if_pos (h.imp id ?_))
  rintro ⟨k, hk, hv⟩
  rw [Bool.not_eq_true', List.all_eq_false]
  exact ⟨k, hk, by rw [hv]; exact nofun⟩

theorem admit_stale (hst : s.mod.st = .fenced) (hv : ∀ k ∈ admitContexts s, configValid s k (nextOwners s k) = true)
    (hn : ∃ k ∈ admitContexts s, nextNewer s k = false) : exec (.rdxAdmit c) s = .next (setAdmitResult c 2 s) := by
  show execAdmit c s = _
  unfold execAdmit
  rw [admit_starts hw]
  refine ((if_neg (by rw [hs]; exact nofun)).trans (if_neg ?_)).trans (if_pos ?_)
  · rw [List.all_eq_true.2 hv]
    exact fun h => h.elim (fun h => h hst) nofun
  · obtain ⟨k, hk, hf⟩ := hn
    rw [Bool.not_eq_true', List.all_eq_false]
    exact ⟨k, hk, by rw [hf]; exact nofun⟩

/-- The module's groups as ADMIT adopts their NEXT_ states, and the notices of them. -/
theorem admit_accepted (hst : s.mod.st = .fenced) (hv : ∀ k ∈ admitContexts s, configValid s k (nextOwners s k) = true)
    (hn : ∀ k ∈ admitContexts s, nextNewer s k = true) : ∃ x y : State,
      x = (admitContexts s).foldl (fun s c => adoptNext c (some (ownRank s c)) s) { s with mod := { s.mod.withMark false with st := .ready } }
        ∧ y = (admitContexts s).foldl (fun s c => sendNotices c s) x
        ∧ exec (.rdxAdmit c) s = .next (setAdmitResult c 1 (sendHeartbeat
          (modPair (fun r => { r with st := 0, probing := false, heard := none, diverged := false, mismatch := false }) y))) := by
  refine ⟨_, _, rfl, rfl, ?_⟩
  show execAdmit c s = _
  unfold execAdmit
  rw [admit_starts hw]
  refine ((if_neg (by rw [hs]; exact nofun)).trans (if_neg ?_)).trans (if_neg ?_)
  · rw [List.all_eq_true.2 hv]
    exact fun h => h.elim (fun h => h hst) nofun
  · rw [List.all_eq_true.2 hn]
    exact nofun

theorem admit_readmits (hst : s.mod.st = .fenced) (hv : ∀ k ∈ admitContexts s, configValid s k (nextOwners s k) = true)
    (hn : ∀ k ∈ admitContexts s, nextNewer s k = true) : Completes (.rdxAdmit c) s fun t =>
      t.mod = { s.mod.withMark false with st := .ready } ∧ (group t c).result = 1 ∧ t.rdx.pair.st = 0
        ∧ ∀ k ∈ admitContexts s, NextAdopted s k (group t k) := by
  obtain ⟨x, y, hx, hy, e⟩ := admit_accepted (c := c) hs hw hst hv hn
  have kx : Keeps 0xe100e11d948642 { s with mod := { s.mod.withMark false with st := .ready } } x := by rw [hx]; exact adoptNexts_keeps ..
  have ky : Keeps 0x60004010908002 x y := by rw [hy]; exact Keeps.foldl (Keeps.refl x) (fun _ _ => sendNotices_keeps ..) _
  have ha : ∀ k ∈ admitContexts s, NextAdopted s k (group x k) := fun k hk => by
    rw [hx]
    exact adoptNexts_adopted _ rfl k (.inl hk)
  generalize hz : modPair (fun r => { r with st := 0, probing := false, heard := none, diverged := false, mismatch := false }) y = z at e
  have hzm : z.mod = y.mod := by rw [← hz]; rfl
  have hzg : z.rdx.groups = y.rdx.groups := by rw [← hz]; rfl
  have hzp : z.rdx.pair.st = 0 := by rw [← hz]; rfl
  have kz : Keeps 0x60000010108000 z (sendHeartbeat z) := sendHeartbeat_keeps ..
  refine ⟨_, e, ?_, ?_, ?_, fun k hk => ?_⟩
  · exact ((kz.frame .module rfl).trans hzm).trans ((ky.frame .module rfl).trans (kx.frame .module rfl))
  · unfold setAdmitResult
    rw [group_modGroup, if_pos rfl]
  · exact (congrArg Pair.st (kz.frame .pair rfl)).trans hzp
  · have hg : group (sendHeartbeat z) k = group x k := by
      unfold group
      rw [kz.frame .groups rfl, hzg, ky.frame .groups rfl]
    refine setAdmitResult_adopted c 1 ?_
    rw [hg]
    exact ha k hk

end

/-! ## RDX_PAIR -/

theorem pumpPair_regs (s : State) : (pumpPair s).regs = s.regs := (pumpPair_keeps (F := 0x40004012900002) s).frame .registers rfl

theorem sendHeartbeat_regs (s : State) : (sendHeartbeat s).regs = s.regs :=
  (sendHeartbeat_keeps (F := 0x60000010108000) s).frame .registers rfl

/-- Messages that leave empty the list of those that wait, and change nothing else of the pair. -/
theorem pumpPair_pair (s : State) : (pumpPair s).rdx.pair = s.rdx.pair ∨ (pumpPair s).rdx.pair = { s.rdx.pair with wait := [] } := by
  unfold pumpPair
  split
  · exact .inl rfl
  · split
    · exact .inr ((Keeps.foldl (F := 0x40004010900002) (Keeps.refl _) (fun _ _ => routePacket_keeps ..) _).frame .pair rfl)
    · split
      · exact .inr ((Keeps.foldl (F := 0x40000010100000) (Keeps.refl _) (fun _ _ => queueOn_keeps ..) _).frame .pair rfl)
      · exact .inl rfl

/-- The pair starts in state 0, with nothing heard and no probe under way. -/
def PairStarts (s : State) : Prop := s.rdx.pair.st = 0 ∧ s.rdx.pair.probing = false ∧ s.rdx.pair.heard = none

theorem pumpPair_starts {s : State} (h : PairStarts s) : PairStarts (pumpPair s) := by
  unfold PairStarts at h ⊢
  rcases pumpPair_pair s with e | e
  · rw [e]
    exact h
  · rw [e]
    exact h

theorem sendHeartbeat_starts {s : State} (h : PairStarts s) : PairStarts (sendHeartbeat s) := by
  unfold PairStarts
  rw [sendHeartbeat_pair]
  exact h

theorem pairWrite_ignored (v : DWord) (s : State) (c : Nat) (hc : c < 16) (ho : stepOpen s c = true) :
    exec (.rdxPairWrite v) s = .next s :=
  if_pos (by rw [Bool.or_eq_true]; exact .inr (List.any_eq_true.2 ⟨c, List.mem_range.2 hc, ho⟩))

theorem pairWrite_taken (v : DWord) (s : State) (hs : inService s = true) (ho : ∀ c, c < 16 → stepOpen s c = false) :
    Completes (.rdxPairWrite v) s fun t => reg t rRdxPair = v.toNat % 2 ^ 25 ∧ (v.getLsbD 24 = false ∨ pairEnabled s = false
      ∨ partnerAddr s ≠ v.toNat % 2 ^ 20 ∨ s.rdx.pair.st = 3 → PairStarts t) := by
  have hn : ¬(!inService s || (List.range 16).any (stepOpen s)) = true := by
    rw [hs, List.any_eq_false.2 fun c hc => by rw [ho c (List.mem_range.1 hc)]; exact nofun]
    exact nofun
  have hlt : v.toNat % 2 ^ 25 < 2 ^ 64 := Nat.lt_trans (Nat.mod_lt _ (by decide)) (by decide)
  show ∃ t, execRdxPairWrite v s = .next t ∧ _
  unfold execRdxPairWrite
  rw [if_neg hn]
  extract_lets moved x
  have hr : reg x rRdxPair = v.toNat % 2 ^ 25 := by unfold x; rw [reg_setReg _ _ _ _ hlt, if_pos rfl]
  have he : pairEnabled x = v.getLsbD 24 := by
    unfold pairEnabled regBit
    rw [hr, Nat.testBit_mod_two_pow]
    rfl
  have hp : x.rdx.pair = s.rdx.pair := rfl
  have hstart : PairStarts (modPair (fun r => { r with st := 0, probing := false, heard := none }) x) := ⟨rfl, rfl, rfl⟩
  rw [he]
  clear_value x
  cases hv : v.getLsbD 24 with
  | false =>
    refine ⟨_, if_pos rfl, ?_, fun _ => pumpPair_starts hstart⟩
    rw [reg_of_regs (pumpPair_regs _)]
    exact hr
  | true =>
    by_cases hm : (moved || x.rdx.pair.st == 3) = true
    · refine ⟨_, (if_neg nofun).trans (if_pos hm), ?_, fun _ => sendHeartbeat_starts (pumpPair_starts hstart)⟩
      rw [reg_of_regs (sendHeartbeat_regs _), reg_of_regs (pumpPair_regs _)]
      exact hr
    · refine ⟨_, (if_neg nofun).trans (if_neg hm), ?_, fun h => absurd ?_ hm⟩
      · rw [reg_of_regs (sendHeartbeat_regs _), reg_of_regs (pumpPair_regs _)]
        exact hr
      · unfold moved
        rw [hp]
        rcases h with h | h | h | h
        · cases h
        · rw [h, Bool.not_false, Bool.or_true, Bool.true_or]
        · rw [bne_iff_ne.2 h, Bool.true_or, Bool.true_or]
        · rw [beq_iff_eq.2 h, Bool.or_true]

/-- Settles O52: each event by the lemma of its command. -/
theorem epochsMoveOn : Obligations.EpochsMoveOn := by
  unfold Obligations.EpochsMoveOn
  refine ⟨fun m c live e owners s hs hc hlive he howners => ⟨?_, ?_⟩, holdExpiry_drops, fun c s hs => ⟨?_, ?_, ?_⟩,
    fun c s hs hw => ⟨?_, ?_, ?_⟩, fun v s hs => ⟨pairWrite_taken v s hs, pairWrite_ignored v s⟩⟩
  · exact notice_adopted m c live e owners s hs hc hlive he howners
  · exact notice_fences m c live s hc hlive
  · exact install_adopts c s hs
  · exact install_refused c s hs
  · exact install_stale c s hs
  · intro hst hk
    obtain ⟨t, e, hm, hr, hp, ha⟩ := admit_readmits (c := c) hs hw hst (fun k h => (hk k h).1) (fun k h => (hk k h).2)
    exact ⟨t, e, hm, hr, hp, fun k h => ⟨(ha k h).installed, (ha k h).epoch, (ha k h).live, (ha k h).declarer⟩⟩
  · exact fun h => ⟨_, admit_refused hs hw h, rfl⟩
  · exact fun hst hv hn => ⟨_, admit_stale hs hw hst hv hn, rfl⟩

end Sys2Proof.Machine

/-!
SUPPORT. Messages that are processed, and the partner's mirror (R277, R278, R283).
-/
namespace Sys2Proof.Machine
set_option Elab.async false
open Sys2Proof.Safety

/-- A message that arrives is processed once its packet is out of the inbox. -/
theorem onMessage_processes {type c r : Nat} {b : List Byte} {s : State} (h : Arrives s type c r b)
    (k : Nat → Nat → List Byte → State → State) : ∃ m, onMessage type (fun _ _ => true) k s = k c r b (consume m s) := by
  obtain ⟨m, hf, hb, hs, _⟩ := h
  refine ⟨m, ?_⟩
  unfold onMessage
  simp only [Bool.and_true]
  rw [hf]
  dsimp only
  rw [(consume_sameGroups m s).screen, hb, hs]

theorem foldl_unchanged {α : Type} (f : State → α → State) (s : State) (l : List α) (h : ∀ a ∈ l, f s a = s) : l.foldl f s = s := by
  induction l with
  | nil => rfl
  | cons a l ih =>
    rw [List.foldl_cons, h a List.mem_cons_self]
    exact ih fun b hb => h b (List.mem_cons_of_mem a hb)

/-! ## A message that is not staged -/

theorem ite_whole {p : Prop} [Decidable p] {l ps : List Piece} {x y x' y' : State}
    (h : (if p then (some l, x) else (none, y)).1 = some ps) : (if p then (some l, x') else (none, y')) = (some ps, x') := by
  split at h
  · rename_i hp
    rw [if_pos hp, Option.some.inj h]
  · cases h

/-- Its last packet answers the pieces that it answers in every state with the same groups. -/
theorem assembleMsg_whole {c : Nat} {b : List Byte} {ps : List Piece} {s x : State} (hg : group x = group s)
    (h : (assembleMsg c false b s).1 = some ps) : assembleMsg c false b x = (some ps, dropPartial c b x) := by
  have piece : ∀ y, pieceOf c false b y = (⟨16 * pkOffset b, none, pkBody b⟩, y) := fun _ => rfl
  unfold assembleMsg at h ⊢
  rw [hg]
  rw [piece] at h ⊢
  dsimp only at h ⊢
  split at h
  · cases h
  · rename_i hn
    rw [if_neg hn]
    exact ite_whole h

/-- Device memory is as it was where none of its parts has changed. -/
theorem mem_of_keeps {s t : State} (k : Keeps 0x1fffffffffffe1ff s t) : t.mem = s.mem := by
  have hc : t.mem.cells = s.mem.cells := k.frame .memory rfl
  obtain ⟨he, hl⟩ := k.frame .errors rfl
  have hr : t.mem.rtab = s.mem.rtab := k.frame .retirements rfl
  obtain ⟨hsc, hsh⟩ := k.frame .scrubs rfl
  cases ht : t.mem
  cases hs : s.mem
  rw [ht, hs] at hc he hl hr hsc hsh
  rw [MemBlk.mk.injEq]
  exact ⟨hc, he, hl, hr, hsc, hsh⟩

theorem messageBytes_of_mem {s x : State} (h : x.mem = s.mem) (ps : List Piece) : messageBytes x ps = messageBytes s ps := by
  unfold messageBytes readMem
  rw [h]

/-! ## Bytes stored -/

theorem length_padTo (n : Nat) (l : List Byte) : (padTo n l).length = n := by
  unfold padTo zeros
  rw [List.length_take, List.length_append, List.length_replicate]
  omega

theorem byteAt_padTo {n i : Nat} (l : List Byte) (h : i < n) : byteAt (padTo n l) i = byteAt l i := by
  unfold byteAt padTo zeros
  rw [List.getD_eq_getElem?_getD, List.getD_eq_getElem?_getD, List.getElem?_take_of_lt h]
  by_cases hl : i < l.length
  · rw [List.getElem?_append_left hl]
  · have hl := Nat.le_of_not_lt hl
    rw [List.getElem?_append_right hl, List.getElem?_eq_none hl, List.getElem?_replicate, if_pos (by omega)]
    rfl

theorem writeMem_read (acc : Access) (a : Nat) (bs : List Byte) (s : State) (i : Nat) (h : i < bs.length) :
    tabGet 0 (writeMem acc a bs s).mem.cells (a + i) = byteAt bs i := memStore_read _ a bs i h

/-! ## Check values -/

theorem compareCrcs_unknown {c : Nat} {m : Nat × Nat × Nat × Nat} {s : State} (h : (group s c).ownCrcs.find? (·.1 == m.1) = none) :
    compareCrcs c m s = s := by
  unfold compareCrcs
  rw [h]

/-- The check values of step `n` wait for the module's own. -/
def CrcsWait (c n : Nat) (crcs : Nat × Nat × Nat) (s : State) : Prop :=
  (group s c).ownCrcs.find? (·.1 == n) = none ∧ (n, crcs) ∈ (group s c).mirrorCrcs

theorem compareCrcs_waits {c n : Nat} {crcs : Nat × Nat × Nat} (m : Nat × Nat × Nat × Nat) {s : State} (h : CrcsWait c n crcs s) :
    CrcsWait c n crcs (compareCrcs c m s) := by
  cases ho : (group s c).ownCrcs.find? (·.1 == m.1) with
  | none => rw [compareCrcs_unknown ho]; exact h
  | some own =>
    obtain ⟨k, v, z, i⟩ := own
    obtain ⟨hn, hm⟩ := h
    have hkm : k = m.1 := by simpa using List.find?_some ho
    have hne : n ≠ k := by
      rintro rfl
      rw [hkm, ho] at hn
      cases hn
    have hy : CrcsWait c n crcs (modGroup c (fun g => { g with
        ownCrcs := g.ownCrcs.filter (·.1 != k), mirrorCrcs := g.mirrorCrcs.filter (·.1 != k) }) s) := by
      unfold CrcsWait
      rw [group_modGroup, if_pos rfl]
      refine ⟨?_, List.mem_filter.2 ⟨hm, bne_iff_ne.2 hne⟩⟩
      rw [List.find?_eq_none] at hn ⊢
      exact fun e he => hn e (List.mem_filter.1 he).1
    unfold compareCrcs
    rw [ho]
    dsimp only
    split
    · exact hy
    · exact hy

theorem checkMirror_waits {c n : Nat} {crcs : Nat × Nat × Nat} {s : State} (h : CrcsWait c n crcs s) :
    CrcsWait c n crcs (checkMirror c s) := by
  unfold checkMirror
  generalize (group s c).mirrorCrcs.reverse = l
  induction l generalizing s with
  | nil => exact h
  | cons m l ih => exact ih (compareCrcs_waits m h)

/-- MISMATCH where the check values of the step differ from the module's own. -/
theorem compareCrcs_mismatch {c n : Nat} {crcs : Nat × Nat × Nat} {own : Nat × Nat × Nat × Nat} {s : State}
    (h : (group s c).ownCrcs.find? (·.1 == n) = some own) :
    (compareCrcs c (n, crcs) s).rdx.pair.mismatch = (s.rdx.pair.mismatch || own.2 != crcs) := by
  unfold compareCrcs
  rw [h]
  obtain ⟨k, v, z, i⟩ := own
  dsimp only
  split
  · rename_i he
    have : ((v, z, i) != crcs) = false := by rw [he]; exact bne_self_eq_false _
    rw [this, Bool.or_false]
    rfl
  · rename_i he
    rw [bne_iff_ne.2 he, Bool.or_true]
    rfl

/-- Where no other block waits for check values that are here, that of step `n` alone is compared. -/
theorem checkMirror_mismatch {c n : Nat} {crcs : Nat × Nat × Nat} {rest : List (Nat × Nat × Nat × Nat)} {own : Nat × Nat × Nat × Nat}
    {s : State} (hm : (group s c).mirrorCrcs = (n, crcs) :: rest)
    (hr : ∀ e ∈ rest, (group s c).ownCrcs.find? (·.1 == e.1) = none) (ho : (group s c).ownCrcs.find? (·.1 == n) = some own) :
    (checkMirror c s).rdx.pair.mismatch = (s.rdx.pair.mismatch || own.2 != crcs) := by
  have hf : rest.reverse.foldl (fun s m => compareCrcs c m s) s = s :=
    foldl_unchanged _ s _ fun e he => compareCrcs_unknown (hr e (List.mem_reverse.1 he))
  unfold checkMirror
  rw [hm, List.reverse_cons, List.foldl_append, hf]
  exact compareCrcs_mismatch ho

/-! ## The mirror block -/

/-- The partner's block as it is written, with its check values among those that wait. -/
def mirrorTaken (c : Nat) (body : List Byte) (n : Nat) (crcs : Nat × Nat × Nat) (s : State) : State :=
  modGroup c (fun g => { g with mirrorCrcs := (n, crcs) :: g.mirrorCrcs.filter (·.1 != n) })
    (writeMem ⟨5, 0, none⟩ (reg s (rRdxMirrorBase c) + n % 4 * 36864) (padTo 36864 body) s)

/-- What a MIRROR message does that is processed. -/
def mirrorMessage (c r : Nat) (b : List Byte) (s : State) : State :=
  if r ≠ partnerRank s c then s
  else match assembleMsg c false b s with
    | (none, s) => s
    | (some ps, s) =>
      let body := messageBytes s ps
      let n := fieldAt body 0 8
      checkMirror c (mirrorTaken c body n (fieldAt body 2228 4, fieldAt body 2240 4, fieldAt body 2244 4) s)

theorem pairMirror_eq (s : State) : exec .pairMirror s = .next (onMessage 12 (fun _ _ => true) mirrorMessage s) := rfl

theorem mirror_taken {c : Nat} {b : List Byte} {ps : List Piece} {s : State} (h : Arrives s 12 c (partnerRank s c) b)
    (hps : (assembleMsg c false b s).1 = some ps) : ∃ y : State, y.regs = s.regs ∧ y.rdx.pair = s.rdx.pair
      ∧ (group y c).settled = (group s c).settled
      ∧ exec .pairMirror s = .next (checkMirror c (mirrorTaken c (messageBytes s ps) (fieldAt (messageBytes s ps) 0 8)
          (fieldAt (messageBytes s ps) 2228 4, fieldAt (messageBytes s ps) 2240 4, fieldAt (messageBytes s ps) 2244 4) y)) := by
  obtain ⟨m, e⟩ := onMessage_processes h mirrorMessage
  have hx := consume_sameGroups m s
  have kx : Keeps 0x20000011908000 s (dropPartial c b (consume m s)) := (consume_keeps ..).trans (dropPartial_keeps ..)
  have hmem : (dropPartial c b (consume m s)).mem = s.mem := mem_of_keeps (kx.mono (by decide))
  refine ⟨dropPartial c b (consume m s), kx.frame .registers rfl, kx.frame .pair rfl, ?_, ?_⟩
  · exact (((consume_moves m s).trans (dropPartial_moves ..)).settled c)
  · rw [pairMirror_eq, e]
    unfold mirrorMessage
    rw [if_neg (by rw [hx.partnerRank]; exact fun h => h rfl), assembleMsg_whole hx.group hps]
    dsimp only
    rw [messageBytes_of_mem hmem]

theorem mirror_kept (c n : Nat) (b body : List Byte) (ps : List Piece) (crcs : Nat × Nat × Nat) (s : State)
    (h : Arrives s 12 c (partnerRank s c) b) (hps : (assembleMsg c false b s).1 = some ps) (hbody : body = messageBytes s ps)
    (hn : n = fieldAt body 0 8) (hcrcs : crcs = (fieldAt body 2228 4, fieldAt body 2240 4, fieldAt body 2244 4)) :
    Completes .pairMirror s fun t =>
      (∀ i, i < 36864 → tabGet 0 t.mem.cells (reg s (rRdxMirrorBase c) + n % 4 * 36864 + i) = byteAt body i) ∧
      ((group s c).ownCrcs.find? (·.1 == n) = none → (n, crcs) ∈ (group t c).mirrorCrcs) ∧
      ((∀ e ∈ (group s c).mirrorCrcs, (group s c).ownCrcs.find? (·.1 == e.1) = none) → ∀ own,
        (group s c).ownCrcs.find? (·.1 == n) = some own → t.rdx.pair.mismatch = (s.rdx.pair.mismatch || own.2 != crcs)) := by
  obtain ⟨y, hr, hp, hg, e⟩ := mirror_taken h hps
  rw [← hbody, ← hn, ← hcrcs] at e
  have hown := congrArg Group.ownCrcs hg
  have hmir := congrArg Group.mirrorCrcs hg
  have hown : (group y c).ownCrcs = (group s c).ownCrcs := hown
  have hmir : (group y c).mirrorCrcs = (group s c).mirrorCrcs := hmir
  clear hg
  generalize hz : mirrorTaken c body n crcs y = z at e
  have kw : Keeps 0x80008000000602 y (writeMem ⟨5, 0, none⟩ (reg y (rRdxMirrorBase c) + n % 4 * 36864) (padTo 36864 body) y) :=
    writeMem_keeps ..
  have hgz : group z c = { group y c with mirrorCrcs := (n, crcs) :: (group y c).mirrorCrcs.filter (·.1 != n) } := by
    rw [← hz]
    unfold mirrorTaken
    rw [group_modGroup, if_pos rfl]
    unfold group
    rw [kw.frame .groups rfl]
  have hpz : z.rdx.pair = s.rdx.pair := by
    rw [← hz, ← hp]
    exact kw.frame .pair rfl
  have hoz : (group z c).ownCrcs = (group s c).ownCrcs := by rw [hgz]; exact hown
  have hmz : (group z c).mirrorCrcs = (n, crcs) :: (group s c).mirrorCrcs.filter (·.1 != n) := by rw [hgz, ← hmir]
  refine ⟨_, e, fun i hi => ?_, fun ho => ?_, fun hw own ho => ?_⟩
  · have hc : (checkMirror c z).mem.cells = z.mem.cells := (checkMirror_keeps (F := 0x3000002) c z).frame .memory rfl
    rw [hc, ← hz, ← reg_of_regs hr, ← byteAt_padTo body hi]
    exact writeMem_read _ _ _ _ _ (by rw [length_padTo]; exact hi)
  · have k : CrcsWait c n crcs z := ⟨by rw [hoz]; exact ho, by rw [hmz]; exact List.mem_cons_self⟩
    exact (checkMirror_waits k).2
  · rw [checkMirror_mismatch hmz (fun e he => by rw [hoz]; exact hw e (List.mem_filter.1 he).1) (by rw [hoz]; exact ho), hpz]

end Sys2Proof.Machine

/-!
SUPPORT. What the loss of the partner leaves noted of a divergence, and the settlement of one (R279, R281).
-/
namespace Sys2Proof.Machine
set_option Elab.async false
open Sys2Proof.Safety

/-! ## The loss of the partner -/

/-- Between the two states nothing noted of a divergence is lost: flags set stay set, and every group's waits are as they were. -/
structure Noted (s t : State) : Prop where
  flags : ∀ i, i < 32 → flagUp s .rdx i = true → flagUp t .rdx i = true
  diverged : t.rdx.pair.diverged = s.rdx.pair.diverged
  diverge : ∀ c, (group t c).diverge = (group s c).diverge

theorem Noted.trans {s x t : State} (h : Noted s x) (k : Noted x t) : Noted s t :=
  ⟨fun i hi f => k.flags i hi (h.flags i hi f), k.diverged.trans h.diverged, fun c => (k.diverge c).trans (h.diverge c)⟩

theorem Moves.noted {s t : State} (h : Moves s t) : Noted s t := by
  refine ⟨h.flags, h.diverged, fun c => ?_⟩
  have e := congrArg Group.diverge (h.settled c)
  exact e

theorem Noted.foldl {α : Type} {f : State → α → State} (hf : ∀ x a, Noted x (f x a)) (l : List α) (s : State) : Noted s (l.foldl f s) := by
  induction l generalizing s with
  | nil => exact (Moves.refl s).noted
  | cons a l ih => exact (hf s a).trans (ih (f s a))

theorem groupAdopted_noted (ctx epoch : Nat) (declarer : Option Nat) (live : Nat) (owners : List Nat) (effective : Nat) (s : State) :
    Noted s (groupAdopted ctx epoch declarer live owners effective s) := by
  refine ⟨fun _ _ => id, rfl, fun c => ?_⟩
  unfold groupAdopted
  rw [group_modGroup]
  split
  · rfl
  · rfl

theorem takeOver_noted (c : Nat) (s : State) : Noted s (takeOver c s) := by
  unfold takeOver
  extract_lets g t n x
  have hx : Moves s x := .of_keeps ((bump_keeps ..).trans (addExch_keeps ..))
  have ha : Noted x (adoptEpoch true c (g.epoch + 1) (some (ownRank x c)) (without g.live (2 ^ partnerRank x c)) (takenTable x c t) 0 x) :=
    (groupAdopted_noted ..).trans (adoptEpoch_moves ..).noted
  exact (hx.noted.trans ha).trans (Moves.of_keeps (sendNotices_keeps ..)).noted

/-- What follows the note of the loss leaves the pair as the note does: lost. -/
theorem partnerLost_notes (s : State) : Noted s (partnerLost s) ∧ (partnerLost s).rdx.pair.st = 3 := by
  unfold partnerLost
  extract_lets x y auto z w
  have hx : Moves s x := .of_keeps (bump_keeps cOptNoRoute _ s)
  have hy : Moves x y := (setFlag_moves ..).trans (modPair_moves ..)
  have hst : y.rdx.pair.st = 3 := rfl
  have hz : Moves y z := .of_keeps (logEntry_keeps ..)
  have kz : Keeps 0xe100e11d948642 y z := logEntry_keeps ..
  have kw : Keeps 0xe100e11d948642 z w :=
    Keeps.foldl (Keeps.refl z) (fun _ _ => Keeps.foldl (Keeps.refl _) (fun _ _ => modBucket_keeps ..) _) _
  have hw : Moves z w := .foldl (fun _ _ => .foldl (fun _ _ => .of_keeps (modBucket_keeps ..)) _ _) _ z
  have hn : Noted s w := (((hx.trans hy).trans hz).trans hw).noted
  clear_value w z y x
  split
  · have k : Keeps 0xe100e11d948642 w ((groupContexts w).foldl (fun s c => takeOver c s) w) :=
      Keeps.foldl (Keeps.refl w) (fun _ _ => takeOver_keeps ..) _
    refine ⟨hn.trans (.foldl (fun _ _ => takeOver_noted ..) _ w), ?_⟩
    rw [((kz.trans kw).trans k).frame .pair rfl]
    exact hst
  · have k : Keeps 0xe100e11d948642 w ((groupContexts w).foldl (fun s c => (usedTags s c).foldl (fun s tag => checkReduced c tag s) s) w) :=
      Keeps.foldl (Keeps.refl w) (fun _ _ => Keeps.foldl (Keeps.refl _) (fun _ _ => checkReduced_keeps ..) _) _
    refine ⟨hn.trans (Moves.foldl (fun _ _ => .foldl (fun _ _ => checkReduced_moves ..) _ _) _ w).noted, ?_⟩
    rw [((kz.trans kw).trans k).frame .pair rfl]
    exact hst

theorem declareLost_notes (s : State) : Noted s (declareLost s) ∧ (declareLost s).rdx.pair.st = 3 := by
  unfold declareLost whileWaiting
  have h := Moves.foldl (f := fun s i => (if i = Instr.bucketResult then takeResult else takeResultAck) s) (fun x i => by
    split
    · exact takeResult_moves x
    · exact takeResultAck_moves x) (s.pending.filter [Instr.bucketResult, .bucketResultAck].contains) s
  obtain ⟨hn, hst⟩ := partnerLost_notes (List.foldl (fun s i => (if i = Instr.bucketResult then takeResult else takeResultAck) s) s
    (s.pending.filter [Instr.bucketResult, .bucketResultAck].contains))
  exact ⟨h.noted.trans hn, hst⟩

/-! ## The settlement of a divergence -/

/-- The ranks outside the pair whose digest of a step is `v`. -/
def agreeing (s : State) (c n : Nat) (v : List Byte) : Nat :=
  ((List.range 64).filter fun r => r != ownRank s c && r != partnerRank s c && digestOf (group s c) n r == some v).length

/-- The state as a divergence leaves the list of those that wait. -/
def divergenceTaken (c n : Nat) (s : State) : State :=
  modGroup c (fun g => { g with
    diverge := g.diverge.filter (·.step != n), ownDigests := g.ownDigests.filter (·.1 != n), digests := g.digests.filter (·.1 != n) }) s

theorem divergenceTaken_diverge (c n : Nat) (s : State) :
    (group (divergenceTaken c n s) c).diverge = (group s c).diverge.filter (·.step != n) := by
  unfold divergenceTaken
  rw [group_modGroup, if_pos rfl]

theorem divergenceTaken_rest {c n : Nat} {d : Diverge} {ds : List Diverge} {s : State} (hd : (group s c).diverge = d :: ds) (hn : d.step = n) :
    (group (divergenceTaken c n s) c).diverge = ds.filter (·.step != n) := by
  rw [divergenceTaken_diverge, hd, List.filter_cons_of_neg (by rw [hn]; simp)]

theorem partnerSettled_of {c : Nat} {s t : State} (hr : t.regs = s.regs) (hp : t.rdx.pair.st = s.rdx.pair.st)
    (hl : (group t c).live = (group s c).live) : partnerSettled t c = partnerSettled s c := by
  unfold partnerSettled partnerRank
  rw [hp, hl, ownRank_of_regs hr]

theorem decideDivergence_eq {c n : Nat} {d : Diverge} {own : List Byte} {s : State}
    (hd : (group s c).diverge.find? (·.step == n) = some d) (ho : (group s c).ownDigests.find? (·.1 == n) = some (n, own)) :
    decideDivergence c n s =
      if partnerSettled s c then divergenceTaken c n s
      else if agreeing s c n d.partner < agreeing s c n own then
        (if s.rdx.pair.st = 3 then divergenceTaken c n s else declareLost (divergenceTaken c n s))
      else enterFenced (divergenceTaken c n s) := by
  have hs : partnerSettled (divergenceTaken c n s) c = partnerSettled s c :=
    partnerSettled_of rfl rfl (by unfold divergenceTaken; rw [group_modGroup, if_pos rfl])
  have hc : ∀ v, (((List.range 64).filter fun r => r != ownRank s c && r != partnerRank s c).filter
      fun r => digestOf (group s c) n r == some v).length = agreeing s c n v := fun v => by
    unfold agreeing
    rw [List.filter_filter]
    simp only [Bool.and_comm]
  unfold decideDivergence
  dsimp only
  rw [hd, ho]
  dsimp only
  simp only [hc, ← hs]
  rfl

/-- A divergence is flagged, and shows in the pair's status. -/
def Signalled (s : State) : Prop := flagUp s .rdx 3 = true ∧ s.rdx.pair.diverged = true

theorem Noted.signalled {s t : State} (h : Noted s t) (k : Signalled s) : Signalled t :=
  ⟨h.flags 3 (by decide) k.1, h.diverged.trans k.2⟩

theorem foldl_signalled {α : Type} {f : State → α → State} (hf : ∀ x a, Signalled x → Signalled (f x a)) (l : List α) {s : State}
    (h : Signalled s) : Signalled (l.foldl f s) := by
  induction l generalizing s with
  | nil => exact h
  | cons a l ih => exact ih (hf s a h)

theorem enterFenced_signalled {s : State} (h : Signalled s) : Signalled (enterFenced s) := by
  obtain ⟨hf, hd⟩ := h
  by_cases hc : canSend s = true ∧ outranked 6 s = false
  · refine ⟨?_, (enterFenced_fences hc.1 hc.2).diverged.trans hd⟩
    unfold flagUp flagsOf at hf ⊢
    rw [(enterFenced_keeps (F := 0x100011f178069) s).frame (.flags .rdx) rfl]
    exact hf
  · have e : enterFenced s = s := by
      refine if_neg fun h => hc ⟨?_, by simpa using h.2⟩
      unfold canSend
      rcases h.1 with h | h
      · rw [h]; rfl
      · rw [h]; rfl
    rw [e]
    exact ⟨hf, hd⟩

theorem decideDivergence_signalled (c n : Nat) {s : State} (h : Signalled s) : Signalled (decideDivergence c n s) := by
  rcases hd : (group s c).diverge.find? (·.step == n) with _ | d
  · have e : decideDivergence c n s = s := by
      unfold decideDivergence
      dsimp only
      rw [hd]
    rw [e]
    exact h
  · rcases ho : (group s c).ownDigests.find? (·.1 == n) with _ | ⟨k, own⟩
    · have e : decideDivergence c n s = s := by
        unfold decideDivergence
        dsimp only
        rw [hd, ho]
      rw [e]
      exact h
    · obtain rfl : k = n := by simpa using List.find?_some ho
      have hx : Signalled (divergenceTaken c k s) := h
      rw [decideDivergence_eq hd ho]
      split
      · exact hx
      · split
        · split
          · exact hx
          · exact (declareLost_notes _).1.signalled hx
        · exact enterFenced_signalled hx

theorem divergeWait_completes {c : Fin 16} {d : Diverge} {ds : List Diverge} {s : State} (hs : canSend s = true)
    (hd : (group s c).diverge = d :: ds) : exec (.divergeWaitExpiry c) s = .next (decideDivergence c d.step s) := by
  show execDivergeWaitExpiry c s = _
  unfold execDivergeWaitExpiry
  rw [hs, hd]

section
variable {c : Fin 16} {n : Nat} {d : Diverge} {ds : List Diverge} {own : List Byte} {s : State} (hs : canSend s = true)
  (ho : (group s c).ownDigests.find? (·.1 == n) = some (n, own)) (hd : (group s c).diverge = d :: ds) (hn : d.step = n)
include hs ho hd hn

/-- The wait of the oldest divergence ends, and it is decided. -/
theorem divergeWait_decides : exec (.divergeWaitExpiry c) s = .next (
      if partnerSettled s c then divergenceTaken c n s
      else if agreeing s c n d.partner < agreeing s c n own then
        (if s.rdx.pair.st = 3 then divergenceTaken c n s else declareLost (divergenceTaken c n s))
      else enterFenced (divergenceTaken c n s)) := by
  rw [divergeWait_completes hs hd, hn, decideDivergence_eq ?_ ho]
  rw [hd]
  exact List.find?_cons_of_pos (beq_iff_eq.2 hn)

theorem divergeWait_wins (ha : agreeing s c n d.partner < agreeing s c n own) (h3 : s.rdx.pair.st ≠ 3) :
    Completes (.divergeWaitExpiry c) s fun t =>
      t.rdx.pair.st = 3 ∧ t.mod = s.mod ∧ (group t c).diverge = ds.filter (·.step != n) := by
  have hp : ¬partnerSettled s c = true := by
    unfold partnerSettled
    rw [beq_eq_false_iff_ne.2 h3, Bool.false_and]
    exact nofun
  have e := divergeWait_decides hs ho hd hn
  rw [if_neg hp, if_pos ha, if_neg h3] at e
  obtain ⟨k, hst⟩ := declareLost_notes (divergenceTaken c n s)
  refine ⟨_, e, hst, (declareLost_keeps (F := 0xe100e11f948642) (divergenceTaken c n s)).frame .module rfl, ?_⟩
  rw [k.diverge, divergenceTaken_rest hd hn]

theorem divergeWait_fences (ha : agreeing s c n own ≤ agreeing s c n d.partner) (hp : partnerSettled s c = false)
    (hr : outranked 6 s = false) : Completes (.divergeWaitExpiry c) s fun t =>
      t.mod = { s.mod.withMark true with st := .fenced } ∧ (group t c).diverge = [] := by
  have e := divergeWait_decides hs ho hd hn
  rw [if_neg (by rw [hp]; exact nofun), if_neg (Nat.not_lt.2 ha)] at e
  have hr' : outranked 6 (divergenceTaken c n s) = false := 
    (outranked_of_same (s := s) (t := divergenceTaken c n s) ⟨rfl, rfl, rfl, rfl⟩ rfl rfl hs 6).trans hr
  have f := enterFenced_fences (s := divergenceTaken c n s) hs hr'
  exact ⟨_, e, f.mod, f.diverge c c.isLt⟩

theorem divergeWait_settled (h : partnerSettled s c = true ∨ agreeing s c n d.partner < agreeing s c n own ∧ s.rdx.pair.st = 3) :
    Completes (.divergeWaitExpiry c) s fun t => t.mod = s.mod ∧ (group t c).diverge = ds.filter (·.step != n) := by
  have e := divergeWait_decides hs ho hd hn
  have e' : exec (.divergeWaitExpiry c) s = .next (divergenceTaken c n s) := by
    rw [e]
    split
    · rfl
    · rename_i hp
      obtain ⟨ha, h3⟩ := h.resolve_left hp
      rw [if_pos ha, if_pos h3]
  exact ⟨_, e', rfl, divergenceTaken_rest hd hn⟩

end

end Sys2Proof.Machine

/-!
SUPPORT and the statement on pairs (O51): digests that arrive (R281), and with the mirror and the settlement the whole.
-/
namespace Sys2Proof.Machine
set_option Elab.async false
open Sys2Proof.Safety

/-! ## A digest that arrives -/

/-- The state as a rank's digest of a step is kept. -/
def digestKept (c n r : Nat) (d : List Byte) (s : State) : State :=
  modGroup c (fun g => { g with digests := g.digests.filter (fun x => !(x.1 == n && x.2.1 == r)) ++ [(n, r, d)] }) s

theorem group_digestKept (c n r : Nat) (d : List Byte) (s : State) : group (digestKept c n r d s) c =
    { group s c with digests := (group s c).digests.filter (fun x => !(x.1 == n && x.2.1 == r)) ++ [(n, r, d)] } := by
  unfold digestKept
  rw [group_modGroup, if_pos rfl]

theorem digestOf_kept (c n r : Nat) (d : List Byte) (s : State) : digestOf (group (digestKept c n r d s) c) n r = some d := by
  have hf : ((group s c).digests.filter fun x => !(x.1 == n && x.2.1 == r)).find? (fun x => x.1 == n && x.2.1 == r) = none := by
    rw [List.find?_eq_none]
    intro x hx h
    have hx := (List.mem_filter.1 hx).2
    rw [h] at hx
    cases hx
  rw [group_digestKept]
  unfold digestOf
  rw [List.find?_append, hf]
  simp

theorem digestOf_kept_other {c n r k q : Nat} (d : List Byte) (s : State) (h : k ≠ n ∨ q ≠ r) :
    digestOf (group (digestKept c n r d s) c) k q = digestOf (group s c) k q := by
  have hf : ((group s c).digests.filter fun x => !(x.1 == n && x.2.1 == r)).find? (fun x => x.1 == k && x.2.1 == q)
      = (group s c).digests.find? (fun x => x.1 == k && x.2.1 == q) := by
    rw [List.find?_filter]
    congr 1
    funext x
    rcases x with ⟨a, b, v⟩
    by_cases hk : a = k ∧ b = q
    · obtain ⟨rfl, rfl⟩ := hk
      rcases h with h | h
      · simp [h]
      · simp [h]
    · have : (a == k && b == q) = false := by simpa using hk
      simp [this]
  rw [group_digestKept]
  unfold digestOf
  rw [List.find?_append, hf, List.find?_cons_of_neg (by simpa using fun e : n = k => (h.resolve_left fun hk => hk e.symm).symm)]
  simp

theorem digest_processed {c r : Nat} {b : List Byte} {s : State} (h : Arrives s 11 c r b) :
    ∃ x : State, SameGroups s x ∧ x.rdx.pair = s.rdx.pair ∧ exec .pairDigest s
      = .next (checkDiverge c (digestKept c (fieldAt (pkBody b) 0 8) r (padTo 32 ((pkBody b).drop 8)) x)) := by
  obtain ⟨m, e⟩ := onMessage_processes h (fun c r b s =>
    checkDiverge c (digestKept c (fieldAt (pkBody b) 0 8) r (padTo 32 ((pkBody b).drop 8)) s))
  refine ⟨consume m s, consume_sameGroups m s, (consume_keeps (F := 0x20000010908000) m s).frame .pair rfl, ?_⟩
  rw [← e]
  rfl

/-! ## Digests that are compared -/

theorem compareDigest_unknown {c n : Nat} {own : List Byte} {s : State} (h : digestOf (group s c) n (partnerRank s c) = none) :
    compareDigest c n own s = s := by
  unfold compareDigest
  dsimp only
  rw [h]

/-- A divergence signalled, its entry and its wait (R281). -/
def divergenceNoted (c n : Nat) (p : List Byte) (s : State) : State :=
  modGroup c (fun g => { g with diverge := g.diverge ++ [⟨n, p⟩] })
    (logEntry { code := 0x0703, source := 5, ctxValid := true, ctx := c, detail := n }
      (modPair (fun r => { r with diverged := true }) (setFlag .rdx 3 s)))

/-- The partner's digest of a step that differs from the module's own, with nothing yet noted of it. -/
structure Differs (c n : Nat) (p : List Byte) (s : State) : Prop where
  digest : digestOf (group s c) n (partnerRank s c) = some p
  fresh : (group s c).diverge.any (·.step == n) = false
  unsettled : partnerSettled s c = false

theorem compareDigest_differs {c n : Nat} {p own : List Byte} {s : State} (h : Differs c n p s) (hp : p ≠ own) :
    compareDigest c n own s = divergenceNoted c n p s := by
  unfold compareDigest
  dsimp only
  rw [h.digest]
  dsimp only
  rw [if_neg hp, if_neg (by rw [h.fresh, h.unsettled]; exact nofun)]
  rfl

theorem group_divergenceNoted (c n : Nat) (p : List Byte) (s : State) :
    group (divergenceNoted c n p s) c = { group s c with diverge := (group s c).diverge ++ [⟨n, p⟩] } := by
  unfold divergenceNoted
  rw [group_modGroup, if_pos rfl]
  rfl

theorem divergenceNoted_signalled (c n : Nat) (p : List Byte) (s : State) : Signalled (divergenceNoted c n p s) := by
  refine ⟨?_, rfl⟩
  have h : flagUp (setFlag .rdx 3 s) .rdx 3 = true := by rw [flagUp_setFlag _ _ _ _ _ (by decide)]; simp
  exact h

/-- Comparing digests clears no mark of a divergence. -/
theorem compareDigest_signalled (c k : Nat) (own : List Byte) {s : State} (h : Signalled s) : Signalled (compareDigest c k own s) := by
  unfold compareDigest
  dsimp only
  split
  · exact h
  · split
    · exact h
    · split
      · exact h
      · exact divergenceNoted_signalled c k _ s

/-- Comparing those of another step leaves the difference. -/
theorem compareDigest_leaves {c n k : Nat} {p : List Byte} (own : List Byte) {s : State} (hk : k ≠ n) (h : Differs c n p s) :
    Differs c n p (compareDigest c k own s) := by
  unfold compareDigest
  dsimp only
  split
  · exact h
  · split
    · refine ⟨?_, ?_, ?_⟩
      · rw [group_modGroup, if_pos rfl]
        have e : digestOf { group s c with ownDigests := (group s c).ownDigests.filter (·.1 != k)
                                           digests := (group s c).digests.filter (·.1 != k) } n (partnerRank s c)
            = digestOf (group s c) n (partnerRank s c) := by
          unfold digestOf
          rw [List.find?_filter]
          congr 2
          funext x
          by_cases hx : x.1 = n
          · simp [hx, Ne.symm hk, Bool.beq_eq_decide_eq]
          · simp [hx]
        exact e.trans h.digest
      · rw [group_modGroup, if_pos rfl]
        exact h.fresh
      · rw [← h.unsettled]
        exact partnerSettled_of rfl rfl (by rw [group_modGroup, if_pos rfl])
    · split
      · exact h
      · rename_i q _ _ _
        have hg := group_divergenceNoted c k q s
        have d : Differs c n p (divergenceNoted c k q s) := by
          refine ⟨?_, ?_, ?_⟩
          · rw [hg]
            exact h.digest
          · rw [hg, List.any_append, h.fresh]
            simp [hk]
          · rw [← h.unsettled]
            exact partnerSettled_of rfl rfl (by rw [hg])
        exact d

/-- Where the module's own digests of the step differ from the partner's, the divergence is signalled once all are compared. -/
theorem compareDigests_signalled {c n : Nat} {p own : List Byte} (hp : p ≠ own) (l : List (Nat × List Byte))
    (hl : ∀ e ∈ l, e.1 = n → e.2 = own) (hm : ∃ e ∈ l, e.1 = n) {s : State} (h : Differs c n p s) :
    Signalled (l.foldl (fun s e => compareDigest c e.1 e.2 s) s) := by
  induction l generalizing s with
  | nil => obtain ⟨_, he, _⟩ := hm; cases he
  | cons a l ih =>
    rw [List.foldl_cons]
    by_cases ha : a.1 = n
    · have hs : Signalled (compareDigest c a.1 a.2 s) := by
        rw [ha, hl a List.mem_cons_self ha, compareDigest_differs h hp]
        exact divergenceNoted_signalled ..
      refine foldl_signalled ?_ l hs
      intro x e k
      exact compareDigest_signalled c e.1 e.2 k
    · refine ih (fun e he => hl e (List.mem_cons_of_mem a he)) ?_ (compareDigest_leaves a.2 ha h)
      obtain ⟨e, he, hn⟩ := hm
      refine ⟨e, (List.mem_cons.1 he).resolve_left ?_, hn⟩
      rintro rfl
      exact ha hn

theorem checkDiverge_signalled {c n : Nat} {p own : List Byte} (hp : p ≠ own) {s : State}
    (hl : ∀ e ∈ (group s c).ownDigests, e.1 = n → e.2 = own) (hm : ∃ e ∈ (group s c).ownDigests, e.1 = n) (h : Differs c n p s) :
    Signalled (checkDiverge c s) := by
  unfold checkDiverge
  have hs := compareDigests_signalled hp (group s c).ownDigests.reverse (fun e he => hl e (List.mem_reverse.1 he))
    (by simpa using hm) h
  generalize (group s c).ownDigests.reverse.foldl (fun s e => compareDigest c e.1 e.2 s) s = x at hs
  refine foldl_signalled (fun y d k => ?_) _ hs
  split
  · exact decideDivergence_signalled c d.step k
  · exact k

/-! ## One divergence that is awaited -/

/-- Where only the digests of one step are known of the partner, the comparison notes that step's divergence alone. -/
theorem compareDigests_alone {c n : Nat} {p own : List Byte} (hp : p ≠ own) (l : List (Nat × List Byte)) {s : State}
    (hl : ∀ e ∈ l, e.1 = n → e.2 = own) (hm : ∃ e ∈ l, e.1 = n)
    (ho : ∀ e ∈ l, e.1 ≠ n → digestOf (group s c) e.1 (partnerRank s c) = none) (h : Differs c n p s) :
    l.foldl (fun s e => compareDigest c e.1 e.2 s) s = divergenceNoted c n p s := by
  have hg := group_divergenceNoted c n p s
  have stays : ∀ e ∈ l, compareDigest c e.1 e.2 (divergenceNoted c n p s) = divergenceNoted c n p s := by
    intro e he
    by_cases hn : e.1 = n
    · have hd : digestOf (group (divergenceNoted c n p s) c) n (partnerRank (divergenceNoted c n p s) c) = some p := by
        rw [hg]
        exact h.digest
      have hany : (group (divergenceNoted c n p s) c).diverge.any (·.step == n) = true := by
        rw [hg, List.any_append]
        simp
      rw [hn, hl e he hn]
      unfold compareDigest
      dsimp only
      rw [hd]
      dsimp only
      rw [if_neg hp, if_pos (by rw [hany, Bool.or_true])]
    · refine compareDigest_unknown ?_
      rw [hg]
      exact ho e he hn
  induction l with
  | nil => obtain ⟨_, he, _⟩ := hm; cases he
  | cons a l ih =>
    rw [List.foldl_cons]
    have rest : ∀ e ∈ l, e ∈ a :: l := fun e he => List.mem_cons_of_mem a he
    by_cases ha : a.1 = n
    · rw [ha, hl a List.mem_cons_self ha, compareDigest_differs h hp]
      exact foldl_unchanged _ _ l fun e he => stays e (rest e he)
    · rw [compareDigest_unknown (ho a List.mem_cons_self ha)]
      refine ih (fun e he => hl e (rest e he)) ?_ (fun e he => ho e (rest e he)) fun e he => stays e (rest e he)
      obtain ⟨e, he, hn⟩ := hm
      refine ⟨e, (List.mem_cons.1 he).resolve_left ?_, hn⟩
      rintro rfl
      exact ha hn

/-- A divergence that is noted waits while the digest of a live rank is not here. -/
theorem checkDiverge_awaits {c n : Nat} {p own : List Byte} (hp : p ≠ own) {s : State} (hd : (group s c).diverge = [])
    (hl : ∀ e ∈ (group s c).ownDigests, e.1 = n → e.2 = own) (hm : ∃ e ∈ (group s c).ownDigests, e.1 = n)
    (ho : ∀ e ∈ (group s c).ownDigests, e.1 ≠ n → digestOf (group s c) e.1 (partnerRank s c) = none) (h : Differs c n p s)
    (hw : ∃ r ∈ liveOthers s c, digestOf (group s c) n r = none) : checkDiverge c s = divergenceNoted c n p s := by
  unfold checkDiverge
  rw [compareDigests_alone hp _ (fun e he => hl e (List.mem_reverse.1 he)) (by simpa using hm)
    (fun e he => ho e (List.mem_reverse.1 he)) h]
  have hg := group_divergenceNoted c n p s
  refine foldl_unchanged _ _ _ fun d hdm => ?_
  have hdn : d = ⟨n, p⟩ := by
    rw [hg, hd] at hdm
    exact List.mem_singleton.1 hdm
  have hlive : liveOthers (divergenceNoted c n p s) c = liveOthers s c := by
    unfold liveOthers
    rw [hg]
    rfl
  obtain ⟨r, hr, hnone⟩ := hw
  refine if_neg ?_
  rw [hlive, List.all_eq_true]
  intro ha
  have hsome := ha r hr
  rw [hg, hdn] at hsome
  have e : digestOf { group s c with diverge := (group s c).diverge ++ [⟨n, p⟩] } n r = none := hnone
  rw [e] at hsome
  cases hsome

/-! ## The clauses on digests -/

/-- A digest of another rank than the partner is kept; with none of the partner's here, nothing is compared. -/
theorem digest_kept {n : Nat} {c : Fin 16} {s : State} (pk : List Byte) (r : Nat) (h : Arrives s 11 c r pk)
    (hd : (group s c).diverge = []) (hr : r ≠ partnerRank s c) (hn : fieldAt (pkBody pk) 0 8 = n)
    (ho : ∀ e ∈ (group s c).ownDigests, digestOf (group s c) e.1 (partnerRank s c) = none) :
    Completes .pairDigest s fun t => digestOf (group t c) n r = some (padTo 32 ((pkBody pk).drop 8))
      ∧ t.mod = s.mod ∧ t.rdx.pair = s.rdx.pair := by
  obtain ⟨x, hx, hp, e⟩ := digest_processed h
  rw [hn] at e
  generalize hy : digestKept c n r (padTo 32 ((pkBody pk).drop 8)) x = y at e
  have hg := group_digestKept c n r (padTo 32 ((pkBody pk).drop 8)) x
  have hpr : partnerRank y = partnerRank s := by
    rw [← hx.partnerRank, ← hy]
    rfl
  have hcmp : (group y c).ownDigests.reverse.foldl (fun s e => compareDigest c e.1 e.2 s) y = y := by
    refine foldl_unchanged _ _ _ fun e he => compareDigest_unknown ?_
    rw [hpr, ← hy, digestOf_kept_other _ _ (.inr (Ne.symm hr)), hx.group]
    rw [← hy, hg, hx.group] at he
    exact ho e (List.mem_reverse.1 he)
  have ht : checkDiverge c y = y := by
    unfold checkDiverge
    dsimp only
    rw [hcmp]
    have hdy : (group y c).diverge = [] := by rw [← hy, hg, hx.group]; exact hd
    rw [hdy]
    rfl
  refine ⟨y, by rw [e, ht], ?_, ?_, ?_⟩
  · rw [← hy]
    exact digestOf_kept ..
  · rw [← hy]
    exact hx.mod
  · rw [← hy]
    exact hp

/-- The partner's digest that differs from the module's own is signalled, and awaited where a digest of another live rank is missing. -/
theorem digest_diverges {own : List Byte} {n : Nat} {c : Fin 16} {s : State}
    (hown : (group s c).ownDigests.find? (·.1 == n) = some (n, own)) (pk : List Byte) (h : Arrives s 11 c (partnerRank s c) pk)
    (hd : (group s c).diverge = []) (hn : fieldAt (pkBody pk) 0 8 = n) (hp : padTo 32 ((pkBody pk).drop 8) ≠ own)
    (hl : ∀ e ∈ (group s c).ownDigests, e.1 = n → e.2 = own) (hs : partnerSettled s c = false) :
    Completes .pairDigest s fun t => flagUp t .rdx 3 = true ∧ t.rdx.pair.diverged = true ∧
      ((∃ r ∈ liveOthers s c, r ≠ partnerRank s c ∧ digestOf (group s c) n r = none) →
        (∀ e ∈ (group s c).ownDigests, e.1 ≠ n → digestOf (group s c) e.1 (partnerRank s c) = none) →
        (group t c).diverge = [⟨n, padTo 32 ((pkBody pk).drop 8)⟩] ∧ t.mod = s.mod ∧ t.rdx.pair.st = s.rdx.pair.st) := by
  obtain ⟨x, hx, hpair, e⟩ := digest_processed h
  rw [hn] at e
  generalize padTo 32 ((pkBody pk).drop 8) = p at hp e
  have hg := group_digestKept c n (partnerRank s c) p x
  have hthis := digestOf_kept c n (partnerRank s c) p x
  have hothers : ∀ k q, k ≠ n ∨ q ≠ partnerRank s c →
      digestOf (group (digestKept c n (partnerRank s c) p x) c) k q = digestOf (group s c) k q := fun k q hk => by
    rw [digestOf_kept_other p x hk, hx.group]
  have hmod : (digestKept c n (partnerRank s c) p x).mod = s.mod := hx.mod
  have hpair : (digestKept c n (partnerRank s c) p x).rdx.pair = s.rdx.pair := hpair
  have hregs : (digestKept c n (partnerRank s c) p x).regs = s.regs := hx.regs
  generalize digestKept c n (partnerRank s c) p x = y at e hg hthis hothers hmod hpair hregs
  rw [hx.group] at hg
  have hpr : partnerRank y c = partnerRank s c := by unfold partnerRank; rw [ownRank_of_regs hregs]
  have hset : partnerSettled y c = false := (partnerSettled_of hregs (by rw [hpair]) (by rw [hg])).trans hs
  have hdy : (group y c).diverge = [] := by rw [hg]; exact hd
  have hoy : (group y c).ownDigests = (group s c).ownDigests := by rw [hg]
  have hm : ∃ e ∈ (group y c).ownDigests, e.1 = n := ⟨(n, own), by rw [hoy]; exact List.mem_of_find?_eq_some hown, rfl⟩
  have hly : ∀ e ∈ (group y c).ownDigests, e.1 = n → e.2 = own := by rw [hoy]; exact hl
  have k : Differs c n p y := ⟨by rw [hpr]; exact hthis, by rw [hdy]; rfl, hset⟩
  obtain ⟨hf, hdiv⟩ := checkDiverge_signalled hp hly hm k
  refine ⟨_, e, hf, hdiv, fun ⟨r, hr, hne, hnone⟩ ho => ?_⟩
  have hlive : liveOthers y c = liveOthers s c := by
    unfold liveOthers workers
    rw [ownRank_of_regs hregs, reg_of_regs hregs, hg]
  rw [checkDiverge_awaits hp hdy hly hm (fun e he hk => by rw [hpr, hothers _ _ (.inl hk)]; exact ho e (hoy ▸ he) hk) k
    ⟨r, by rw [hlive]; exact hr, by rw [hothers _ _ (.inr hne)]; exact hnone⟩]
  have hst : (divergenceNoted c n p y).rdx.pair.st = y.rdx.pair.st := rfl
  refine ⟨?_, hmod, hst.trans (congrArg Pair.st hpair)⟩
  rw [group_divergenceNoted, hdy]
  rfl

/-- Settles O51: the mirror, the digests that arrive, and the end of a wait. -/
theorem pairsAgree : Obligations.PairsAgree := by
  unfold Obligations.PairsAgree
  refine ⟨mirror_kept, fun own n c s hs ho => ⟨fun pk r => digest_kept pk r, fun pk => digest_diverges ho pk, ?_⟩⟩
  rintro d ds agree hd hn rfl
  exact ⟨divergeWait_wins hs ho hd hn, divergeWait_fences hs ho hd hn, divergeWait_settled hs ho hd hn⟩

end Sys2Proof.Machine

/-!
The statement on the check of a row read (O10): the levels, the check values and the faults that a read decides, and when they pass (R37).
-/
namespace Sys2Proof.Machine
set_option Elab.async false

/-! ## What a row read decides -/

/-- An entry of a list that is given by its index. -/
theorem getD_map_range {α : Type} (f : Nat → α) {n i : Nat} (d : α) (h : i < n) : ((List.range n).map f).getD i d = f i := by
  rw [List.getD_eq_getElem?_getD, List.getElem?_map, List.getElem?_range h]
  rfl

/-- The weight read at a logical column, or at check column g as column 1,032 + g. -/
def weightRead (w : Drawer) (pos neg : List Int) (c : Nat) : Int :=
  pairWeight (pos.getD (w.physCol c) 0) (neg.getD (w.physCol c) 0)

/-- Both cells of the pair are read above level 0. -/
def BothAbove (w : Drawer) (pos neg : List Int) (c : Nat) : Prop :=
  0 < decideLevel (pos.getD (w.physCol c) 0) ∧ 0 < decideLevel (neg.getD (w.physCol c) 0)

theorem physCol_check (w : Drawer) (g : Nat) : w.physCol (1032 + g) = 1032 + g := if_pos (by omega)

theorem decideRow_level (w : Drawer) (pos neg : List Int) {c : Nat} (h : c < 1024) :
    (decideRow w pos neg).levels.getD c 0 = weightRead w pos neg c := by
  dsimp only [decideRow]
  exact getD_map_range (weightRead w pos neg) 0 h

theorem decideRow_check (w : Drawer) (pos neg : List Int) {g : Nat} (h : g < 4) :
    (decideRow w pos neg).checks.getD g 0 = weightRead w pos neg (1032 + g) := by
  dsimp only [decideRow]
  exact getD_map_range (fun g => weightRead w pos neg (1032 + g)) 0 h

/-- A group fails for a pair of its own, its check column's among them (R37). -/
theorem decideRow_fault (w : Drawer) (pos neg : List Int) {g : Nat} (h : g < 4) :
    (decideRow w pos neg).faults.getD g false = true ↔
      BothAbove w pos neg (1032 + g) ∨ ∃ j, j < 256 ∧ BothAbove w pos neg (4 * j + g) := by
  unfold decideRow
  rw [getD_map_range _ false h, Bool.or_eq_true, List.any_eq_true]
  simp only [Bool.and_eq_true, decide_eq_true_eq, List.mem_range, BothAbove]

theorem decideRow_groupSum (w : Drawer) (pos neg : List Int) {g : Nat} (h : g < 4) :
    groupSum (decideRow w pos neg).levels g = ((List.range 256).map fun j => weightRead w pos neg (4 * j + g)).sum := by
  unfold groupSum
  refine congrArg List.sum (List.map_congr_left fun j hj => ?_)
  have hj := List.mem_range.1 hj
  exact decideRow_level w pos neg (by omega)

/-! ## When it passes -/

theorem passes_iff (x : RowRead) :
    x.passes = true ↔ ∀ g, g < 4 → checkValue x.levels g = x.checks.getD g 0 + 15 ∧ ¬x.faults.getD g false = true := by
  unfold RowRead.passes
  simp only [List.all_eq_true, List.mem_range, Bool.and_eq_true, beq_iff_eq, Bool.not_eq_true', Bool.not_eq_true]

/-- The logical columns are those of the four groups. -/
theorem forall_column_iff (p : Nat → Prop) : (∀ c, c < 1024 → p c) ↔ ∀ g, g < 4 → ∀ j, j < 256 → p (4 * j + g) := by
  refine ⟨fun h g hg j hj => h _ (by omega), fun h c hc => ?_⟩
  have := h (c % 4) (by omega) (c / 4) (by omega)
  rwa [Nat.div_add_mod] at this

end Sys2Proof.Machine

namespace Sys2Proof.Safety
set_option Elab.async false
open Sys2Proof.Machine

/-- Settles O10: a row read passes where each group's residue is its check value and no pair of a group has both cells above level 0. -/
theorem rowChecks : Obligations.RowChecks := by
  unfold Obligations.RowChecks
  rintro w pos neg both residueHolds rfl rfl
  refine ⟨?_, fun g hg => decideRow_fault w pos neg hg⟩
  have hres : ∀ g, g < 4 → (checkValue (decideRow w pos neg).levels g = (decideRow w pos neg).checks.getD g 0 + 15 ↔
      ((List.range 256).map fun j => weightRead w pos neg (4 * j + g)).sum % 31
        = pairWeight (pos.getD (1032 + g) 0) (neg.getD (1032 + g) 0) + 15) := fun g hg => by
    unfold checkValue
    rw [decideRow_groupSum w pos neg hg, decideRow_check w pos neg hg, weightRead, physCol_check]
  have hcol := forall_column_iff fun c => ¬BothAbove w pos neg c
  constructor
  · intro h
    have h := (passes_iff _).1 h
    refine ⟨fun g hg => (hres g hg).1 (h g hg).1, hcol.2 fun g hg j hj hb => ?_, fun g hg hb => ?_⟩
    · exact (h g hg).2 ((decideRow_fault w pos neg hg).2 (.inr ⟨j, hj, hb⟩))
    · exact (h g hg).2 ((decideRow_fault w pos neg hg).2 (.inl hb))
  · rintro ⟨hr, hc, hk⟩
    refine (passes_iff _).2 fun g hg => ⟨(hres g hg).2 (hr g hg), fun hf => ?_⟩
    obtain hb | ⟨j, hj, hb⟩ := (decideRow_fault w pos neg hg).1 hf
    · exact hk g hg hb
    · exact hcol.1 hc g hg j hj hb

end Sys2Proof.Safety

/-!
SUPPORT. One conversion of a Drawer from outside: the head of the queue goes on or leaves it, and how a descriptor that leaves it
completes (R41, R54, R71).
-/
namespace Sys2Proof.Machine
set_option Elab.async false
open Sys2Proof.Safety

/-! ## Queues -/

theorem drawer_of_keeps {F : Nat} {s t : State} (k : Keeps F s t) (h : F.testBit 16 = false) : drawer t = drawer s := by
  funext d
  unfold drawer
  rw [show t.drawers = s.drawers from k.frame .drawers h]

theorem modPlane_queue (d p : Nat) (f : Plane → Plane) (s : State) (e : Nat) :
    (drawer (modPlane d p f s) e).queue = (drawer s e).queue := by
  unfold modPlane
  rw [drawer_modDrawer]
  unfold Drawer.modPlane
  repeat' split
  all_goals rfl

theorem releaseHold_queue (ctx d p : Nat) (s : State) (e : Nat) : (drawer (releaseHold ctx d p s) e).queue = (drawer s e).queue := by
  unfold releaseHold
  split
  · rfl
  · rw [drawer_of_keeps (countHold_keeps (F := 0x8000) ..) rfl, modPlane_queue]

theorem fullPlaneEnd_queue (j : DrwJob) (s : State) (e : Nat) : (drawer (fullPlaneEnd j s) e).queue = (drawer s e).queue := by
  unfold fullPlaneEnd
  split
  · rfl
  · dsimp only
    split
    · have logged (x : LogEntry) (y : State) : drawer (logEntry x (setFlag .drw 2 y)) = drawer y := rfl
      rw [logged, drawer_modDrawer, apply_ite Drawer.queue, modPlane_queue]
      exact ite_self _
    · exact modPlane_queue ..

/-- Only the Drawers: their flags, planes and queues apart, what the end of a full-plane readout changes is the log (R64). -/
theorem fullPlaneEnd_onward (r : DRef) (j : DrwJob) (s : State) : Onward r s (fullPlaneEnd j s) :=
  Onward.of_keeps (fullPlaneEnd_keeps j s (F := 0x200010002)) rfl rfl rfl rfl fun h => by
    rw [mem_of_keeps (fullPlaneEnd_keeps j s)]
    exact h

/-! ## A descriptor that completes -/

/-- What a readout or a product leaves before its completion: its histogram record, and where they apply the flag of invalid trims and
the entry of a saturated product (R48, R86, R150). -/
def completionNoted (j : DrwJob) (status : Nat) (s : State) : State :=
  let s := emitHist j.ref j.noHist 0 .drawer (dwDrawer j.bytes) (if isProduct j.bytes then j.prod.hist else readHist j) s
  let s := if isProduct j.bytes && invalidTrims j != 0 && j.prod.completed != 0 then setFlag .drw 3 s else s
  if regBit s rDrwCtrl 2 && (statusOut s j.ref status == stConvSaturated || statusOut s j.ref status == stRetryExhausted) then
    logEntry (({ code := status, source := 1, engine := dwDrawer j.bytes } : LogEntry).naming j.ref) s
  else s

/-- A readout that ends otherwise than by its watchdog releases the hold its HOLD bit names (R102). -/
def releasesHold (j : DrwJob) (status : Nat) : Bool := !isProduct j.bytes && !isImage j.bytes && dwHold j.bytes && status != stWatchdog

/-- A product or a readout completes, and then gives up its hold. -/
theorem finishDrw_eq {j : DrwJob} (status : Nat) (s : State) (hd : j.dropped = false) (hi : isImage j.bytes = false) :
    ∃ released, finishDrw j status s =
      if releasesHold j status then
        releaseHold j.ref.ctx (dwDrawer j.bytes) j.plane (complete j.ref status (drwTail j released) (completionNoted j status s))
      else complete j.ref status (drwTail j released) (completionNoted j status s) := by
  unfold finishDrw releasesHold completionNoted
  dsimp only
  rw [hd, hi]
  exact ⟨_, rfl⟩

theorem completionNoted_keeps (j : DrwJob) (status : Nat) (s : State) : Keeps 0x310000042 s (completionNoted j status s) := by
  unfold completionNoted
  dsimp only
  refine Keeps.trans ?_ (.ite (logEntry_keeps ..) (.refl _))
  exact Keeps.trans (emitHist_keeps ..) (.ite (setFlag_keeps ..) (.refl _))

theorem completionNoted_onward {r : DRef} (j : DrwJob) (status : Nat) {s : State} (h : (findDesc s r).isSome = true) :
    Onward r s (completionNoted j status s) := by
  have ite {p : Prop} [Decidable p] {x y : State} (k : Onward r x y) : Onward r x (if p then y else x) := by
    split
    · exact k
    · exact .refl r x
  have flag (x : State) : Onward r x (setFlag .drw 3 x) :=
    .of_keeps (setFlag_keeps (F := 0x200000000) .drw 3 x) rfl rfl rfl rfl id
  have log (e : LogEntry) (x : State) : Onward r x (logEntry e x) := .of_keeps (logEntry_keeps (F := 2) rfl e x) rfl rfl rfl rfl id
  unfold completionNoted
  dsimp only
  exact ((emitHist_onward r _ _ _ _ _ _ s h).trans (ite (flag _)) h).trans (ite (log _ _)) h

theorem releaseHold_out (ctx d p : Nat) (s : State) : (releaseHold ctx d p s).out = s.out :=
  ((releaseHold_keeps (F := 0x400018000) ctx d p s).frame .output rfl).1

/-- What has completed has completed also where nothing more has left the module. -/
theorem ended_of_out {s x t : State} {r : DRef} {status : Nat} {tail : List Byte} (h : Ended s x r status tail) (e : t.out = x.out) :
    Ended s t r status tail := by
  obtain ⟨d, st, hf, hst, hw, hb⟩ := h
  exact ⟨d, st, hf, hst, e ▸ hw, e ▸ hb⟩

theorem finishDrw_ended {j : DrwJob} {s x : State} (on : Onward j.ref s x) (hf : (findDesc s j.ref).isSome = true) (status : Nat)
    (hd : j.dropped = false) (hi : isImage j.bytes = false) : ∃ tail, Ended s (finishDrw j status x) j.ref status tail := by
  obtain ⟨released, e⟩ := finishDrw_eq status x hd hi
  have on := on.trans (completionNoted_onward j status (on.found hf)) hf
  refine ⟨drwTail j released, ?_⟩
  rw [e]
  split
  · exact ended_of_out (complete_ended on hf ..) (releaseHold_out ..)
  · exact complete_ended on hf ..

theorem finishDrw_queue {j : DrwJob} (status : Nat) (s : State) (hd : j.dropped = false) (hi : isImage j.bytes = false) (e : Nat) :
    (drawer (finishDrw j status s) e).queue = (drawer s e).queue := by
  have hc (tail : List Byte) : drawer (complete j.ref status tail (completionNoted j status s)) = drawer s :=
    (drawer_of_keeps (complete_keeps (F := 0x1000010048040) ..) rfl).trans (drawer_of_keeps (completionNoted_keeps ..) rfl)
  obtain ⟨released, he⟩ := finishDrw_eq status s hd hi
  rw [he]
  split
  · rw [releaseHold_queue, hc]
  · rw [hc]

theorem finishDrw_cells (j : DrwJob) (status : Nat) (s : State) : (finishDrw j status s).mem.cells = s.mem.cells :=
  (finishDrw_keeps (F := 0x1000710058042) j status s).frame .memory rfl

/-! ## The only descriptor of its Drawer leaves the queue -/

/-- The head of a Drawer's queue taken from it. -/
def headLeaves (d : Nat) (s : State) : State := modDrawer d (fun w => { w with queue := w.queue.drop 1 }) s

theorem headLeaves_queue (d : Nat) (s : State) : (drawer (headLeaves d s) d).queue = (drawer s d).queue.drop 1 := by
  unfold headLeaves
  rw [drawer_modDrawer, if_pos rfl]

theorem popDrawer_alone {d : Nat} {j : DrwJob} (status : Nat) {s : State} (hq : (drawer s d).queue.drop 1 = []) (hd : j.dropped = false)
    (hi : isImage j.bytes = false) : popDrawer d j status s = finishDrw j status (headLeaves d s) := by
  have hl : (drawer (finishDrw j status (headLeaves d s)) d).queue.length = 0 := by
    rw [finishDrw_queue status _ hd hi, headLeaves_queue, hq]
    rfl
  show noteStopped j.dropped j.ref (settleDrawer (drawer (finishDrw j status (headLeaves d s)) d).queue.length d _) = _
  rw [hl, hd]
  rfl

/-- It completes with its status, and the Drawer is free. -/
theorem popDrawer_frees {d : Nat} {j : DrwJob} {s x : State} (on : Onward j.ref s x) (hf : (findDesc s j.ref).isSome = true) (status : Nat)
    (hq : (drawer x d).queue.drop 1 = []) (hd : j.dropped = false) (hi : isImage j.bytes = false) :
    (∃ tail, Ended s (popDrawer d j status x) j.ref status tail) ∧ (drawer (popDrawer d j status x) d).queue = []
      ∧ (popDrawer d j status x).mem.cells = x.mem.cells := by
  have on : Onward j.ref s (headLeaves d x) :=
    on.trans (.of_keeps (modDrawer_keeps (F := 0x10000) d _ x) rfl rfl rfl rfl id) hf
  rw [popDrawer_alone status hq hd hi]
  refine ⟨finishDrw_ended on hf status hd hi, ?_, finishDrw_cells ..⟩
  rw [finishDrw_queue status _ hd hi, headLeaves_queue, hq]

/-! ## One conversion -/

theorem headJob_begun {d : Nat} {j : DrwJob} {js : List DrwJob} {s : State} (hq : (drawer s d).queue = j :: js) (hb : j.begun = true) :
    headJob d s = some (j, s, false) := by
  unfold headJob
  rw [hq]
  exact if_pos hb

theorem conversionDone_begun {d : Nat} {j : DrwJob} {js : List DrwJob} {s : State} (dev : Tab Int) (hq : (drawer s d).queue = j :: js)
    (hb : j.begun = true) {k : DrwJob} {x : State} {done : Bool} (h : jobConversion (drawer s d) dev j s = (k, x, done)) :
    conversionDone d dev s =
      if done || j.atBoundary k then popDrawer d k (drwFinalStatus k) (if isProduct j.bytes || j.dropped then x else fullPlaneEnd k x)
      else modDrawer d (fun w => { w with queue := k :: w.queue.drop 1 }) x := by
  unfold conversionDone
  rw [headJob_begun hq hb]
  dsimp only
  rw [h]

/-- The head of a Drawer's queue as a conversion has left it. -/
def headGoesOn (d : Nat) (k : DrwJob) (s : State) : State := modDrawer d (fun w => { w with queue := k :: w.queue.drop 1 }) s

section
variable {d : Fin 16384} {dev : Tab Int} {j k : DrwJob} {js : List DrwJob} {s x : State}

/-- A conversion that is not the last leaves the Drawer as it is but for the head of its queue. -/
theorem conversion_goesOn (hq : (drawer s d).queue = j :: js) (hb : j.begun = true)
    (h : jobConversion (drawer s d) dev j s = (k, x, false)) (hn : j.atBoundary k = false) :
    exec (.drwConversionDone d dev) s = .next (headGoesOn d k x) ∧ (drawer (headGoesOn d k x) d).queue = k :: js := by
  have hx : drawer x = drawer s := drawer_of_keeps (jobConversion_keeps_eq h (F := 0x82008200000642)) rfl
  constructor
  · show Host.Outcome.next (conversionDone d dev s) = _
    rw [conversionDone_begun dev hq hb h, hn]
    rfl
  · unfold headGoesOn
    rw [drawer_modDrawer, if_pos rfl, hx, hq]
    rfl

theorem conversion_last (hq : (drawer s d).queue = j :: js) (hb : j.begun = true)
    (h : jobConversion (drawer s d) dev j s = (k, x, true)) :
    exec (.drwConversionDone d dev) s =
      .next (popDrawer d k (drwFinalStatus k) (if isProduct j.bytes || j.dropped then x else fullPlaneEnd k x)) := by
  show Host.Outcome.next (conversionDone d dev s) = _
  rw [conversionDone_begun dev hq hb h]
  rfl

end

/-- Only a dropped descriptor stops at a boundary. -/
theorem atBoundary_of_kept {j k : DrwJob} (h : k.dropped = false) : j.atBoundary k = false := by
  unfold DrwJob.atBoundary
  rw [h]
  rfl

/-- No boundary of a readout lies within a product. -/
theorem atBoundary_of_read {j k : DrwJob} (h : k.read = j.read) : j.atBoundary k = false := by
  unfold DrwJob.atBoundary
  rw [h]
  simp

/-! ## Bytes that elements of one size make -/

theorem length_leBytes (n v : Nat) : (leBytes n v).length = n := by
  induction n generalizing v with
  | zero => rfl
  | succ n ih => rw [leBytes, List.length_cons, ih]

section
variable {α : Type} {f : α → List Byte} {e : Nat}

theorem length_elements (hf : ∀ a, (f a).length = e) (l : List α) : (l.flatMap f).length = e * l.length := by
  induction l with
  | nil => rfl
  | cons a l ih => rw [List.flatMap_cons, List.length_append, hf, ih, List.length_cons, Nat.mul_succ, Nat.add_comm]

theorem byteAt_elements (hf : ∀ a, (f a).length = e) (l : List α) {i k : Nat} (hi : i < l.length) (hk : k < e) :
    byteAt (l.flatMap f) (e * i + k) = byteAt (f l[i]) k := by
  induction l generalizing i with
  | nil => exact absurd hi (Nat.not_lt_zero i)
  | cons a l ih =>
    unfold byteAt at ih ⊢
    rw [List.flatMap_cons]
    cases i with
    | zero => rw [List.getD_append _ _ _ _ (by rw [hf]; omega)]; simp
    | succ i =>
      rw [List.getD_append_right _ _ _ _ (by rw [hf, Nat.mul_succ]; omega), hf, show e * (i + 1) + k - e = e * i + k by
        rw [Nat.mul_succ]; omega, ih (Nat.lt_of_succ_lt_succ hi)]
      rfl

end

end Sys2Proof.Machine

/-!
SUPPORT and the statement on products (O29): what one conversion adds (R41, R44, R45), the conversion that follows it (R50), a saturated
vector that starts again (R51), and the last vector written (R46, R47, R66, R71).
-/
namespace Sys2Proof.Machine
set_option Elab.async false
open Sys2Proof.Safety

/-! ## The code and the term of a column -/

/-- The gain of the phase. -/
def ProductProgress.gain (p : ProductProgress) : Nat := if p.low then p.gLo else p.gHi

/-- The code of the i-th column of the range, and whether its input saturated (R41). -/
def columnCode (w : Drawer) (j : DrwJob) (dev : Tab Int) (i : Nat) : Int × Bool :=
  convCode (charge w j (dwColStart j.bytes + i)) j.prod.gain (tabGet 0 dev (w.physCol (dwColStart j.bytes + i)))

/-- How far x_max lies above the exponent of the block that is being converted (R44). -/
def blockShift (p : ProductProgress) : Int :=
  (xMax p).getD (p.exps.getD (p.group * p.gSize / 128) 0) - p.exps.getD (p.group * p.gSize / 128) 0

/-- What a conversion adds to the accumulator of the i-th column, nothing where every block is zero (R44, R45). -/
def columnTerm (w : Drawer) (j : DrwJob) (dev : Tab Int) (i : Nat) : Int :=
  if (xMax j.prod).isNone then 0
  else convTerm j.prod.low j.prod.gain (trimOffset (j.trims.getD i 0)) (columnCode w j dev i).1 (blockShift j.prod)

/-- The codes of a conversion. -/
def columnCodes (w : Drawer) (j : DrwJob) (dev : Tab Int) : List (Int × Bool) := (List.range (dwColCount j.bytes)).map (columnCode w j dev)

theorem convert_eq (w : Drawer) (j : DrwJob) (dev : Tab Int) : convert w j dev =
    ({ j.prod with
        acc := if (xMax j.prod).isNone then j.prod.acc
          else (j.prod.acc.zip ((columnCodes w j dev).zip j.trims)).map fun e =>
            e.1 + convTerm j.prod.low j.prod.gain (trimOffset e.2.2) e.2.1.1 (blockShift j.prod)
        satHi := j.prod.satHi || (decide (((columnCodes w j dev).filter (·.2)).length ≠ 0) && !j.prod.low)
        satLo := j.prod.satLo || (decide (((columnCodes w j dev).filter (·.2)).length ≠ 0) && j.prod.low) },
      ((columnCodes w j dev).filter (·.2)).length) := rfl

section
variable {w : Drawer} {j : DrwJob} {dev : Tab Int}

theorem convert_acc_length (ha : j.prod.acc.length = dwColCount j.bytes) (ht : j.trims.length = dwColCount j.bytes) :
    (convert w j dev).1.acc.length = dwColCount j.bytes := by
  rw [convert_eq]
  dsimp only
  split
  · exact ha
  · simp [columnCodes, ha, ht]

theorem convert_acc (ha : j.prod.acc.length = dwColCount j.bytes) (ht : j.trims.length = dwColCount j.bytes) {i : Nat}
    (hi : i < dwColCount j.bytes) : (convert w j dev).1.acc.getD i 0 = j.prod.acc.getD i 0 + columnTerm w j dev i := by
  rw [convert_eq]
  unfold columnTerm
  dsimp only
  split
  · rw [Int.add_zero]
  · simp [columnCodes, List.getD_eq_getElem?_getD, ha, ht, hi]

/-- A column whose input saturates leaves its mark (R51). -/
theorem convert_saturates {i : Nat} (hi : i < dwColCount j.bytes) (h : (columnCode w j dev i).2 = true) :
    ((convert w j dev).1.satHi || (convert w j dev).1.satLo) = true := by
  have hm : columnCode w j dev i ∈ (columnCodes w j dev).filter (·.2) :=
    List.mem_filter.2 ⟨List.mem_map.2 ⟨i, List.mem_range.2 hi, rfl⟩, h⟩
  have hl : decide (((columnCodes w j dev).filter (·.2)).length ≠ 0) = true := by
    simpa using List.ne_nil_of_mem hm
  rw [convert_eq]
  dsimp only
  rw [hl]
  cases j.prod.low <;> simp

end

/-! ## After a conversion -/

/-- With SKIP_ZERO off no conversion is passed over (R40). -/
theorem skipTo_off (b : List Byte) (p : ProductProgress) {s : State} (h : regBit s rDrwCtrl 0 = false) : skipTo b p s = (p, s) := by
  unfold skipTo
  rw [h]
  rfl

/-- A product as its conversion leaves it. -/
def converted (w : Drawer) (dev : Tab Int) (j : DrwJob) : DrwJob := { j with prod := (convert w j dev).1 }

/-- Saturated codes are counted. -/
def saturationCounted (n : Nat) (s : State) : State := if n = 0 then s else bump cDrwSat n s

theorem saturationCounted_keeps (n : Nat) (s : State) : Keeps 0x2000000000000 s (saturationCounted n s) :=
  .ite (.refl _) (bump_keeps ..)

theorem jobConversion_product {w : Drawer} {j : DrwJob} (dev : Tab Int) (s : State) (h : isProduct j.bytes = true) :
    jobConversion w dev j s = afterConversion (converted w dev j) (saturationCounted (convert w j dev).2 s) := by
  unfold jobConversion
  rw [if_pos h]
  rfl

theorem regBit_of_keeps {F : Nat} {s t : State} (k : Keeps F s t) (h : F.testBit 2 = false) : regBit t = regBit s := by
  unfold regBit reg
  rw [show t.regs = s.regs from k.frame .registers h]

/-- The low phase of a row group follows its high phase, and then the next row group. -/
theorem nextPhase_eq (p : ProductProgress) :
    nextPhase p = { p with low := !p.low, group := if p.low then p.group + 1 else p.group } := by
  unfold nextPhase
  split <;> simp_all

theorem groupCount_nextPhase (b : List Byte) (p : ProductProgress) : groupCount b (nextPhase p) = groupCount b p := by
  rw [nextPhase_eq]
  rfl

section
variable {j : DrwJob} {s : State} (hoff : regBit s rDrwCtrl 0 = false)
include hoff

/-- The next conversion of the vector follows: of the low nibbles, then of the next row group (R50). -/
theorem afterConversion_next (h : (nextPhase j.prod).group < groupCount j.bytes j.prod) :
    afterConversion j s = ({ j with prod := nextPhase j.prod }, s, false) := by
  unfold afterConversion
  dsimp only
  rw [skipTo_off _ _ hoff]
  dsimp only
  rw [groupCount_nextPhase, if_pos h]

/-- A vector that has met no saturation is written, and the next one starts. -/
theorem afterConversion_ends (h : groupCount j.bytes j.prod ≤ (nextPhase j.prod).group) (hm : (j.prod.satHi || j.prod.satLo) = false) :
    afterConversion j s = retryOrEnd none false { j with prod := nextPhase j.prod } s := by
  have hm : ((nextPhase j.prod).satHi || (nextPhase j.prod).satLo) = false := by rw [nextPhase_eq]; exact hm
  unfold afterConversion
  dsimp only
  rw [skipTo_off _ _ hoff]
  dsimp only
  rw [groupCount_nextPhase, if_neg (Nat.not_lt.2 h), hm]
  rfl

end

/-- The vector starts again with its row group halved. -/
def halved (b : List Byte) (p : ProductProgress) : ProductProgress :=
  { p with gSize := p.gSize / 2, retries := p.retries + 1, group := 0, low := false, satHi := false, satLo := false
           acc := List.replicate (dwColCount b) 0 }

/-- The policies 1 and 3 halve the row group while it is above 16 (Table 2.3). -/
theorem nextAttempt_halves {b : List Byte} {p : ProductProgress} (hp : dwPolicy b = 1 ∨ dwPolicy b = 3) (hg : 16 < p.gSize) :
    nextAttempt b p = some (halved b p) := by
  unfold nextAttempt
  rcases hp with hp | hp <;> rw [hp] <;> exact if_pos (decide_eq_true hg)

/-- One that has saturated starts again, where its policy has the step left (R51). -/
theorem afterConversion_retries {j : DrwJob} {s : State} (hoff : regBit s rDrwCtrl 0 = false)
    (h : groupCount j.bytes j.prod ≤ (nextPhase j.prod).group) (hm : (j.prod.satHi || j.prod.satLo) = true)
    (hr : j.prod.retries < dwRetryMax j.bytes) (hp : dwPolicy j.bytes = 1 ∨ dwPolicy j.bytes = 3) (hg : 16 < j.prod.gSize) :
    afterConversion j s = ({ j with prod := halved j.bytes (nextPhase j.prod) }, s, false) := by
  have hn : (((nextPhase j.prod).satHi || (nextPhase j.prod).satLo) && decide ((nextPhase j.prod).retries < dwRetryMax j.bytes)) = true
      ∧ 16 < (nextPhase j.prod).gSize := by
    rw [nextPhase_eq]
    exact ⟨Bool.and_eq_true_iff.2 ⟨hm, decide_eq_true hr⟩, hg⟩
  obtain ⟨hmark, hg⟩ := hn
  unfold afterConversion
  dsimp only
  rw [skipTo_off _ _ hoff]
  dsimp only
  rw [groupCount_nextPhase, if_neg (Nat.not_lt.2 h), if_pos hmark, nextAttempt_halves hp hg]
  unfold retryOrEnd
  dsimp only
  rw [skipTo_off _ _ hoff]

/-! ## The vector written -/

/-- Where the vector in progress goes (R66). -/
def vectorBase (j : DrwJob) : Nat := dwOutAddr j.bytes + j.prod.vec * 16 * dwProdPitch j.bytes

/-- Its elements, each column's result rounded once (R46, R47). -/
def vectorCodes (j : DrwJob) : List Coded :=
  (j.prod.acc.zip (j.trims.zip j.scales)).map fun x =>
    scalarEncode (prodFmt j.bytes) .nearest false (productValue j.prod x.1 x.2.1 x.2.2)

def vectorBytes (j : DrwJob) : List Byte := (vectorCodes j).flatMap fun c => leBytes (elemBytes (prodFmt j.bytes)) c.bits

/-- A list with its places, taken without them. -/
theorem map_zip_range {α β : Type} (f : α → β) (l : List α) : (l.zip (List.range l.length)).map (fun v => f v.1) = l.map f := by
  have h : (l.zip (List.range l.length)).map Prod.fst = l := List.map_fst_zip (by simp)
  conv_rhs => rw [← h]
  rw [List.map_map]
  rfl

/-- Without ACCUM the output is overwritten. -/
theorem writeVector_eq {j : DrwJob} (s : State) (h : dwAccum j.bytes = false) : ∃ hist, writeVector j s =
    ({ j with prod := { j.prod with hist := hist } }, writeMem (drwAccess j) (vectorBase j) (vectorBytes j) s) := by
  have hc := (map_zip_range (scalarEncode (prodFmt j.bytes) .nearest false)
    ((j.prod.acc.zip (j.trims.zip j.scales)).map fun x => productValue j.prod x.1 x.2.1 x.2.2)).trans List.map_map
  refine ⟨(vectorCodes j).foldl (fun h c => h.countScalar (prodFmt j.bytes) c) j.prod.hist, ?_⟩
  have hv : vectorCodes j = _ := hc.symm
  unfold writeVector vectorBytes
  dsimp only
  rw [h, hv]
  rfl

/-- A product that has counted its vector, with the histogram of what it has written (R52, R150). -/
def vectorCounted (hist : Hist) (j : DrwJob) : DrwJob := { j with prod := countVector false { j.prod with hist := hist } }

/-- The module with the vector written, and counted where a retry has preceded it. -/
def vectorWritten (j : DrwJob) (s : State) : State :=
  let s := writeMem (drwAccess j) (vectorBase j) (vectorBytes j) s
  if j.prod.retries ≠ 0 then bump cDrwRetry 1 s else s

theorem endVector_eq {j : DrwJob} (s : State) (h : dwAccum j.bytes = false) :
    ∃ hist, endVector false j s = (vectorCounted hist j, vectorWritten j s) := by
  obtain ⟨hist, e⟩ := writeVector_eq s h
  refine ⟨hist, ?_⟩
  unfold endVector
  rw [e]
  rfl

/-- After its last vector a product is done. -/
theorem startVectors_done {j : DrwJob} (n : Nat) (s : State) (h : dwVectors j.bytes ≤ j.prod.vec) :
    startVectors (n + 1) j s = (j, s, true) := by
  unfold startVectors
  exact if_pos h

theorem retryOrEnd_lastVector {j : DrwJob} (s : State) (h : dwAccum j.bytes = false) (hd : j.dropped = false)
    (hv : dwVectors j.bytes ≤ j.prod.vec + 1) :
    ∃ hist, retryOrEnd none false j s = (vectorCounted hist j, vectorWritten j s, true) := by
  obtain ⟨hist, e⟩ := endVector_eq s h
  refine ⟨hist, ?_⟩
  unfold retryOrEnd
  dsimp only
  rw [e]
  dsimp only
  rw [show (vectorCounted hist j).dropped = false from hd, startVectors_done (j := vectorCounted hist j) _ _ hv]
  rfl

section
variable {j : DrwJob} {n : Nat} (ha : j.prod.acc.length = n) (ht : j.trims.length = n) (hs : j.scales.length = n)
include ha ht hs

theorem vectorCodes_length : (vectorCodes j).length = n := by simp [vectorCodes, ha, ht, hs]

theorem vectorBytes_length : (vectorBytes j).length = elemBytes (prodFmt j.bytes) * n := by
  unfold vectorBytes
  rw [length_elements (fun c => length_leBytes ..), vectorCodes_length ha ht hs]

theorem vectorBytes_element {i k : Nat} (hi : i < n) (hk : k < elemBytes (prodFmt j.bytes)) :
    byteAt (vectorBytes j) (elemBytes (prodFmt j.bytes) * i + k) =
      byteAt (leBytes (elemBytes (prodFmt j.bytes)) (scalarEncode (prodFmt j.bytes) .nearest false
        (productValue j.prod (j.prod.acc.getD i 0) (j.trims.getD i 0) (j.scales.getD i 0))).bits) k := by
  unfold vectorBytes
  rw [byteAt_elements (fun c => length_leBytes ..) _ (by rw [vectorCodes_length ha ht hs]; exact hi) hk]
  simp [vectorCodes, List.getD_eq_getElem?_getD, ha, ht, hs, hi]

end

theorem writeMem_cells (acc : Access) (a : Nat) (bs : List Byte) (s : State) :
    (writeMem acc a bs s).mem.cells = memStore s.mem.cells a bs := by
  have noted (x : State) (cw : Nat) (ue : Bool) : (noteError acc cw ue x).mem.cells = x.mem.cells :=
    (noteError_keeps (F := 0x80008000000402) acc cw ue x).frame .memory rfl
  refine congrArg (memStore · a bs) (foldl_same (fun x : State => x.mem.cells) _ (fun x e => ?_) _ s)
  have hx (whole : Bool) : (if whole then x else noteError acc e.1 e.2 x).mem.cells = x.mem.cells := by
    cases whole
    · exact noted ..
    · rfl
  dsimp only
  split <;> exact hx _

theorem vectorWritten_cells (j : DrwJob) (s : State) :
    (vectorWritten j s).mem.cells = memStore s.mem.cells (vectorBase j) (vectorBytes j) := by
  unfold vectorWritten
  dsimp only
  split <;> exact writeMem_cells ..

section
variable {j : DrwJob} {n : Nat} (ha : j.prod.acc.length = n) (ht : j.trims.length = n) (hs : j.scales.length = n)
include ha ht hs

theorem vectorWritten_element (s : State) {i k : Nat} (hi : i < n) (hk : k < elemBytes (prodFmt j.bytes)) :
    tabGet 0 (vectorWritten j s).mem.cells (vectorBase j + elemBytes (prodFmt j.bytes) * i + k) =
      byteAt (leBytes (elemBytes (prodFmt j.bytes)) (scalarEncode (prodFmt j.bytes) .nearest false
        (productValue j.prod (j.prod.acc.getD i 0) (j.trims.getD i 0) (j.scales.getD i 0))).bits) k := by
  have hl : elemBytes (prodFmt j.bytes) * i + k < (vectorBytes j).length := by
    rw [vectorBytes_length ha ht hs]
    calc elemBytes (prodFmt j.bytes) * i + k < elemBytes (prodFmt j.bytes) * (i + 1) := by rw [Nat.mul_succ]; omega
      _ ≤ elemBytes (prodFmt j.bytes) * n := Nat.mul_le_mul_left _ hi
  rw [vectorWritten_cells, Nat.add_assoc, memStore_read _ _ _ _ hl, vectorBytes_element ha ht hs hi hk]

theorem vectorWritten_other (s : State) {x : Nat}
    (hx : x < vectorBase j ∨ vectorBase j + elemBytes (prodFmt j.bytes) * n ≤ x) :
    tabGet 0 (vectorWritten j s).mem.cells x = tabGet 0 s.mem.cells x := by
  rw [vectorWritten_cells, memStore_other _ _ _ _ (by rw [vectorBytes_length ha ht hs]; exact hx)]

end

theorem vectorWritten_onward (r : DRef) (j : DrwJob) {s : State} (h : (findDesc s r).isSome = true) : Onward r s (vectorWritten j s) := by
  refine (writeMem_onward r (drwAccess j) (vectorBase j) (vectorBytes j) s).trans ?_ h
  unfold vectorWritten
  dsimp only
  split
  · exact .of_keeps (bump_keeps (F := 0x2000000000000) cDrwRetry 1 _) rfl rfl rfl rfl id
  · exact .refl ..

/-! ## The statuses of a product -/

theorem invalidTrims_iff (j : DrwJob) : invalidTrims j ≠ 0 ↔ (j.trims.any fun t => !t.getLsbD 31) = true := by
  unfold invalidTrims
  rw [Ne, List.length_eq_zero_iff, List.filter_eq_nil_iff, List.any_eq_true]
  simp only [not_forall, not_not, exists_prop]

/-- A product that has exhausted its retries says so first, then that trims are invalid, then that vectors have saturated (R71). -/
theorem drwFinalStatus_product {j : DrwJob} (h : isProduct j.bytes = true) : drwFinalStatus j =
    if j.prod.exhausted ≠ 0 then 0x0401 else if (j.trims.any fun t => !t.getLsbD 31) then 0x0208
      else if j.prod.saturated ≠ 0 then 0x0203 else 0 := by
  unfold drwFinalStatus
  rw [if_pos h]
  simp only [invalidTrims_iff]

/-! ## The conversions of a vector -/

section
variable {d : Fin 16384} {dev : Tab Int} {j : DrwJob} {js : List DrwJob} {s : State}
variable (hp : isProduct j.bytes = true) (hb : j.begun = true) (hoff : regBit s rDrwCtrl 0 = false)
include hp hb hoff

omit hp hb in
theorem saturationCounted_off (n : Nat) : regBit (saturationCounted n s) rDrwCtrl 0 = false :=
  (congrFun (congrFun (regBit_of_keeps (saturationCounted_keeps n s) rfl) _) _).trans hoff

theorem conversion_accumulates (hq : (drawer s d).queue = j :: js) (ha : j.prod.acc.length = dwColCount j.bytes)
    (ht : j.trims.length = dwColCount j.bytes) (hn : (nextPhase j.prod).group < groupCount j.bytes j.prod) :
    Completes (.drwConversionDone d dev) s fun t => ∃ k, (drawer t d).queue = k :: js ∧ k.prod.low = !j.prod.low
      ∧ k.prod.group = (if j.prod.low then j.prod.group + 1 else j.prod.group)
      ∧ ∀ i, i < dwColCount j.bytes → k.prod.acc.getD i 0 = j.prod.acc.getD i 0 + columnTerm (drawer s d) j dev i := by
  have hc := (jobConversion_product dev s hp).trans
    (afterConversion_next (j := converted (drawer s d) dev j) (saturationCounted_off hoff _) (by rw [nextPhase_eq] at hn ⊢; exact hn))
  obtain ⟨he, hk⟩ := conversion_goesOn hq hb hc (atBoundary_of_read rfl)
  refine ⟨_, he, _, hk, ?_⟩
  dsimp only
  rw [nextPhase_eq]
  exact ⟨rfl, rfl, fun i hi => convert_acc ha ht hi⟩

theorem conversion_retries (hq : (drawer s d).queue = j :: js) (hn : groupCount j.bytes j.prod ≤ (nextPhase j.prod).group)
    (hr : j.prod.retries < dwRetryMax j.bytes) (hpol : dwPolicy j.bytes = 1 ∨ dwPolicy j.bytes = 3) (hg : 16 < j.prod.gSize)
    {i : Nat} (hi : i < dwColCount j.bytes) (hsat : (columnCode (drawer s d) j dev i).2 = true) :
    Completes (.drwConversionDone d dev) s fun t => ∃ k, (drawer t d).queue = k :: js ∧ k.prod.retries = j.prod.retries + 1
      ∧ k.prod.gSize = j.prod.gSize / 2 ∧ k.prod.group = 0 ∧ k.prod.low = false
      ∧ k.prod.acc = List.replicate (dwColCount j.bytes) 0 := by
  have hc := (jobConversion_product dev s hp).trans
    (afterConversion_retries (j := converted (drawer s d) dev j) (saturationCounted_off hoff _) (by rw [nextPhase_eq] at hn ⊢; exact hn)
      (convert_saturates hi hsat) hr hpol hg)
  obtain ⟨he, hk⟩ := conversion_goesOn hq hb hc (atBoundary_of_read rfl)
  refine ⟨_, he, _, hk, ?_⟩
  dsimp only [halved]
  rw [nextPhase_eq]
  exact ⟨rfl, rfl, rfl, rfl, rfl⟩

end

/-! ## The last conversion -/

/-- A product that a conversion has brought to its next place. -/
def advanced (w : Drawer) (dev : Tab Int) (j : DrwJob) : DrwJob := { j with prod := nextPhase (convert w j dev).1 }

/-- It is past the last conversion of its last vector, which has met no saturation. -/
structure LastVector (w : Drawer) (dev : Tab Int) (j : DrwJob) : Prop where
  product : isProduct j.bytes = true
  kept : j.dropped = false
  plain : dwAccum j.bytes = false
  marks : ((convert w j dev).1.satHi || (convert w j dev).1.satLo) = false
  through : groupCount j.bytes (convert w j dev).1 ≤ (nextPhase (convert w j dev).1).group
  last : (convert w j dev).1.vec + 1 = dwVectors j.bytes

theorem LastVector.written {w : Drawer} {dev : Tab Int} {j : DrwJob} {s : State} (h : LastVector w dev j)
    (hoff : regBit s rDrwCtrl 0 = false) : ∃ hist, jobConversion w dev j s =
      (vectorCounted hist (advanced w dev j),
        vectorWritten (advanced w dev j) (saturationCounted (convert w j dev).2 s), true) := by
  have hc := (jobConversion_product dev s h.product).trans
    (afterConversion_ends (j := converted w dev j) (saturationCounted_off hoff _) h.through h.marks)
  have hv : dwVectors j.bytes ≤ (nextPhase (convert w j dev).1).vec + 1 := by
    rw [nextPhase_eq]
    exact Nat.le_of_eq h.last.symm
  obtain ⟨hist, e⟩ := retryOrEnd_lastVector (j := advanced w dev j) (saturationCounted (convert w j dev).2 s) h.plain h.kept hv
  exact ⟨hist, hc.trans e⟩

theorem LastVector.status {w : Drawer} {dev : Tab Int} {j : DrwJob} (h : LastVector w dev j) (hist : Hist) :
    drwFinalStatus (vectorCounted hist (advanced w dev j)) =
      if (convert w j dev).1.exhausted ≠ 0 then 0x0401 else if (j.trims.any fun t => !t.getLsbD 31) then 0x0208
        else if (convert w j dev).1.saturated ≠ 0 then 0x0203 else 0 := by
  have hm := h.marks
  rw [drwFinalStatus_product (j := vectorCounted hist (advanced w dev j)) h.product]
  unfold vectorCounted advanced countVector
  rw [nextPhase_eq]
  dsimp only
  rw [hm]
  rfl

theorem isImage_of_product {b : List Byte} (h : isProduct b = true) : isImage b = false := by
  unfold isProduct at h
  unfold isImage
  rw [beq_iff_eq.1 h]
  rfl

theorem conversion_completes {d : Fin 16384} {dev : Tab Int} {j : DrwJob} {s : State} (h : LastVector (drawer s d) dev j)
    (hq : (drawer s d).queue = [j]) (hb : j.begun = true) (hoff : regBit s rDrwCtrl 0 = false) (hf : (findDesc s j.ref).isSome = true) :
    ∃ t, exec (.drwConversionDone d dev) s = .next t
      ∧ (∃ tail, Ended s t j.ref (if (convert (drawer s d) j dev).1.exhausted ≠ 0 then 0x0401
          else if (j.trims.any fun t => !t.getLsbD 31) then 0x0208
          else if (convert (drawer s d) j dev).1.saturated ≠ 0 then 0x0203 else 0) tail)
      ∧ (drawer t d).queue = []
      ∧ t.mem.cells = (vectorWritten (advanced (drawer s d) dev j) (saturationCounted (convert (drawer s d) j dev).2 s)).mem.cells := by
  obtain ⟨hist, e⟩ := h.written hoff
  have he := conversion_last hq hb e
  rw [h.product, Bool.true_or, if_pos rfl] at he
  have on : Onward j.ref s (vectorWritten (advanced (drawer s d) dev j) (saturationCounted (convert (drawer s d) j dev).2 s)) := by
    have k : Onward j.ref s (saturationCounted (convert (drawer s d) j dev).2 s) :=
      .of_keeps (saturationCounted_keeps ..) rfl rfl rfl rfl fun c => by unfold saturationCounted; split <;> exact c
    exact k.trans (vectorWritten_onward _ _ (k.found hf)) hf
  have hx := drawer_of_keeps (jobConversion_keeps_eq e (F := 0x82008200000642)) rfl
  rw [← h.status hist]
  exact ⟨_, he, popDrawer_frees (j := vectorCounted hist (advanced (drawer s d) dev j)) on hf _ (by rw [hx, hq]; rfl) h.kept
    (isImage_of_product h.product)⟩

/-- Settles O29: each conversion adds its terms and is followed by the next or by a retry, and the last one writes the vector and
completes. -/
theorem productsAccumulateAndWrite : Obligations.ProductsAccumulateAndWrite := by
  unfold Obligations.ProductsAccumulateAndWrite
  constructor
  · rintro d dev j js w p s rfl hq hp hb hoff rfl ha ht
    exact ⟨conversion_accumulates hp hb hoff hq ha ht,
      fun hn hr hpol hg ⟨_, hi, hsat⟩ => conversion_retries hp hb hoff hq hn hr hpol hg hi hsat⟩
  · rintro d dev j w p base s rfl hq hp - hb hd hoff hacc hf ha ht hs rfl hhi hlo hn hv rfl
    have h : LastVector (drawer s d) dev j := ⟨hp, hd, hacc, by rw [hhi, hlo]; rfl, hn, hv⟩
    obtain ⟨t, he, hend, hqueue, hcells⟩ := conversion_completes h hq hb hoff hf
    have hk : (advanced (drawer s d) dev j).prod.acc.length = dwColCount j.bytes := by
      unfold advanced
      rw [nextPhase_eq]
      exact convert_acc_length ha ht
    have hm : (saturationCounted (convert (drawer s d) j dev).2 s).mem.cells = s.mem.cells :=
      (saturationCounted_keeps ..).frame .memory rfl
    have hbase : vectorBase (advanced (drawer s d) dev j) =
        dwOutAddr j.bytes + (convert (drawer s d) j dev).1.vec * 16 * dwProdPitch j.bytes := by
      unfold vectorBase advanced
      rw [nextPhase_eq]
    refine ⟨t, he, hend, hqueue, fun i k hi hk' => ?_, fun x hx => ?_⟩
    · have hw := vectorWritten_element hk ht hs (saturationCounted (convert (drawer s d) j dev).2 s) hi hk'
      rw [hcells, ← hbase]
      rw [show (advanced (drawer s d) dev j).prod = _ from nextPhase_eq _] at hw
      exact hw
    · rw [← hbase] at hx
      rw [hcells, vectorWritten_other hk ht hs _ hx, hm]

end Sys2Proof.Machine

/-!
SUPPORT. What a readout writes: levels kept by logical row and column, and their LV5 bytes in memory (R57, R58, R67, R68).
-/
namespace Sys2Proof.Machine
set_option Elab.async false
open Sys2Proof.Safety

/-! ## Values set one after another -/

theorem tabGet_tabSetList {α : Type} [DecidableEq α] (d : α) (vs : List α) (t : Tab α) (k i : Nat) :
    tabGet d (tabSetList d t k vs) i = if k ≤ i ∧ i < k + vs.length then vs.getD (i - k) d else tabGet d t i := by
  induction vs generalizing t k with
  | nil => rw [if_neg (by rw [List.length_nil]; omega)]; rfl
  | cons v vs ih =>
    rw [tabSetList, ih, List.length_cons]
    by_cases hk : i = k
    · subst hk
      rw [if_neg (by omega), if_pos (by omega), tabGet_tabSet_same, Nat.sub_self]
      rfl
    · rw [tabGet_tabSet_ne _ _ _ _ _ hk]
      by_cases hi : k < i
      · rw [show i - k = i - (k + 1) + 1 by omega, List.getD_cons_succ]
        exact if_congr (by omega) rfl rfl
      · rw [if_neg (by omega), if_neg (by omega)]

/-! ## Kinds of readout -/

theorem not_product_of {b : List Byte} {op : Nat} (h : dOpcode b = op) (hop : op ≠ 0x21 := by decide) : isProduct b = false := by
  unfold isProduct
  rw [h]
  exact beq_false_of_ne hop

theorem not_image_of {b : List Byte} {op : Nat} (h : dOpcode b = op) (hop : op ≠ 0x26 := by decide) : isImage b = false := by
  unfold isImage
  rw [h]
  exact beq_false_of_ne hop

theorem not_cols_of {b : List Byte} {op : Nat} (h : dOpcode b = op) (hop : op ≠ 0x23 := by decide) : isCols b = false := by
  unfold isCols
  rw [h]
  exact beq_false_of_ne hop

section
variable {b : List Byte} (h : isImage b = false)
include h

theorem rdRowStart_eq : rdRowStart b = dwRowStart b := by unfold rdRowStart; rw [h]; rfl
theorem rdRowCount_eq : rdRowCount b = dwRowCount b := by unfold rdRowCount; rw [h]; rfl
theorem rdColStart_eq : rdColStart b = dwColStart b := by unfold rdColStart; rw [h]; rfl
theorem rdColCount_eq : rdColCount b = dwColCount b := by unfold rdColCount; rw [h]; rfl

/-- READ_FORMAT 0 is LV5. -/
theorem rdFmt_levels (hf : dwReadFmt b = 0) : rdFmt b = 10 := by unfold rdFmt; rw [h, hf]; rfl

end

/-! ## LV5 output -/

/-- The byte of a level. -/
def levelByte (l : Int) : Byte := BitVec.ofNat 8 (lv5Encode l)

theorem levelBytes_eq {j : DrwJob} (hf : rdFmt j.bytes = 10) (r c : Nat) : levelBytes j r c = [levelByte (levelAt j r c)] := by
  unfold levelBytes levelOut
  dsimp only
  rw [hf]
  rfl

/-- Levels that are written one after another. -/
theorem writeMem_levels {j : DrwJob} (hf : rdFmt j.bytes = 10) (acc : Access) (a n : Nat) (r c : Nat → Nat) (s : State)
    {i : Nat} (hi : i < n) :
    tabGet 0 (writeMem acc a ((List.range n).flatMap fun k => levelBytes j (r k) (c k)) s).mem.cells (a + i) =
      levelByte (levelAt j (r i) (c i)) := by
  have hl : ∀ k, (levelBytes j (r k) (c k)).length = 1 := fun k => by rw [levelBytes_eq hf]; rfl
  have hlen := length_elements hl (List.range n)
  have hb := byteAt_elements hl (List.range n) (i := i) (k := 0) (by rwa [List.length_range]) Nat.one_pos
  rw [Nat.one_mul, List.length_range] at hlen
  rw [Nat.one_mul, Nat.add_zero, List.getElem_range, levelBytes_eq hf] at hb
  rw [writeMem_read _ _ _ _ _ (by rw [hlen]; exact hi), hb]
  rfl

/-! ## The status of a readout -/

theorem drwFinalStatus_readout {j : DrwJob} (hp : isProduct j.bytes = false) (hi : isImage j.bytes = false) :
    drwFinalStatus j = if j.read.uncorrected = 0 then 0 else 0x0207 := by
  unfold drwFinalStatus
  rw [hp, hi]
  exact ite_not ..

end Sys2Proof.Machine

/-!
SUPPORT. Level readout by rows (R57, R62): the positive cells of a row, then its negative ones, and what the row's check decides.
-/
namespace Sys2Proof.Machine
set_option Elab.async false
open Sys2Proof.Safety

/-! ## A row with both its polarities -/

/-- What is kept of a row that both its polarities have decided, with the counts of its check (R55, R62). -/
def rowStored (r : Nat) (x : RowRead) (corrected uncorrected : Nat) (reread : Bool) (p : ReadProgress) : ReadProgress :=
  { storeRow r x { p with posVals := [], neg := false } with corrected := corrected, uncorrected := uncorrected, reread := reread }

/-- The readout that keeps it. -/
def withRow (r : Nat) (x : RowRead) (corrected uncorrected : Nat) (reread : Bool) (j : DrwJob) : DrwJob :=
  { j with read := rowStored r x corrected uncorrected reread j.read }

theorem withRow_level {r c n u : Nat} {y : Bool} {x : RowRead} (j : DrwJob) (hl : x.levels.length = 1024) (hc : c < 1024) :
    levelAt (withRow r x n u y j) r c = x.levels.getD c 0 := by
  unfold levelAt withRow rowStored storeRow
  dsimp only
  rw [tabGet_tabSetList, if_neg (by omega), tabGet_tabSetList, if_pos (by omega), Nat.add_sub_cancel_left]

theorem decideRow_levels_length (w : Drawer) (pos neg : List Int) : (decideRow w pos neg).levels.length = 1024 := by
  dsimp only [decideRow]
  rw [List.length_map, List.length_range]

section
variable {w : Drawer} {neg : List Int} {j : DrwJob} (r : Nat) (s : State)

/-- A row that passes is settled; one that passes only when it is read again counts as corrected (R62). -/
theorem rowReadDone_passes (h : (decideRow w j.read.posVals neg).passes = true) : ∃ n, rowReadDone w r neg j s =
    (withRow r (decideRow w j.read.posVals neg) n j.read.uncorrected false j, if j.read.reread then bump cDrwCorr 1 s else s, true) := by
  unfold rowReadDone
  dsimp only
  rw [if_pos h]
  unfold withRow rowStored storeRow
  dsimp only
  cases hr : j.read.reread
  · exact ⟨j.read.corrected, rfl⟩
  · exact ⟨j.read.corrected + 1, rfl⟩

/-- A row that fails is read again, once. -/
theorem rowReadDone_fails (h : (decideRow w j.read.posVals neg).passes = false) (hr : j.read.reread = false) : rowReadDone w r neg j s =
    (withRow r (decideRow w j.read.posVals neg) j.read.corrected j.read.uncorrected true j, s, false) := by
  unfold rowReadDone
  dsimp only
  rw [if_neg (ne_true_of_eq_false h), if_neg (ne_true_of_eq_false hr)]
  rfl

/-- One that fails again is left uncorrected. -/
theorem rowReadDone_failsAgain (h : (decideRow w j.read.posVals neg).passes = false) (hr : j.read.reread = true) : rowReadDone w r neg j s =
    (withRow r (decideRow w j.read.posVals neg) j.read.corrected (j.read.uncorrected + 1) false j, rowUncorrected j r s, true) := by
  unfold rowReadDone
  dsimp only
  rw [if_neg (ne_true_of_eq_false h), if_pos hr]
  rfl

end

/-! ## One conversion -/

/-- The row that a row-order readout is at. -/
def rowNow (j : DrwJob) : Nat := dwRowStart j.bytes + j.read.pos

/-- What its conversion reads of one polarity. -/
def rowValues (w : Drawer) (j : DrwJob) (neg : Nat) (dev : Tab Int) : List Int :=
  rowReadings (w.plane j.plane) ((w.plane j.plane).physRow (rowNow j)) neg dev

/-- The readout at its next row. -/
def nextRow (j : DrwJob) : DrwJob := { j with read := { j.read with pos := j.read.pos + 1 } }

section
variable {w : Drawer} {dev : Tab Int} {j : DrwJob} {s : State} (hop : dOpcode j.bytes = 0x22)
include hop

theorem jobConversion_rows : jobConversion w dev j s = readRowConversion w dev j s := by
  unfold jobConversion
  rw [if_neg (ne_true_of_eq_false (not_product_of hop)), if_neg (ne_true_of_eq_false (not_cols_of hop))]

theorem jobConversion_positiveRow (hn : j.read.neg = false) : jobConversion w dev j s =
    ({ j with read := { j.read with neg := true, posVals := rowValues w j 0 dev } }, s, false) := by
  rw [jobConversion_rows hop]
  unfold readRowConversion rowValues rowNow
  dsimp only
  rw [hn, rdRowStart_eq (not_image_of hop)]
  rfl

/-- The negative cells settle the row, or have it read again. -/
theorem jobConversion_negativeRow (hn : j.read.neg = true) {k : DrwJob} {y : State} {settled : Bool}
    (e : rowReadDone w (rowNow j) (rowValues w j 1 dev) j s = (k, y, settled)) : jobConversion w dev j s =
    if settled then (nextRow k, writeRow k (rowNow j) y, decide (dwRowCount j.bytes ≤ k.read.pos + 1)) else (k, y, false) := by
  rw [jobConversion_rows hop]
  unfold rowValues rowNow at e
  unfold readRowConversion rowNow
  dsimp only
  rw [hn, rdRowStart_eq (not_image_of hop), rdRowCount_eq (not_image_of hop)]
  unfold boolNat
  rw [if_pos rfl, e]
  cases settled <;> rfl

/-- A row of the range that is settled, and is not its last one. -/
theorem jobConversion_rowSettled (hn : j.read.neg = true) (hr : j.read.pos + 1 < dwRowCount j.bytes) {x : RowRead} {n u : Nat} {y : State}
    (e : rowReadDone w (rowNow j) (rowValues w j 1 dev) j s = (withRow (rowNow j) x n u false j, y, true)) :
    jobConversion w dev j s =
      (nextRow (withRow (rowNow j) x n u false j), writeRow (withRow (rowNow j) x n u false j) (rowNow j) y, false) := by
  rw [jobConversion_negativeRow hop hn e, if_pos rfl]
  exact congrArg (fun b => (_, _, b)) (decide_eq_false (Nat.not_le.2 hr))

theorem jobConversion_lastRow (hn : j.read.neg = true) (hr : dwRowCount j.bytes ≤ j.read.pos + 1) {x : RowRead} {n u : Nat} {y : State}
    (e : rowReadDone w (rowNow j) (rowValues w j 1 dev) j s = (withRow (rowNow j) x n u false j, y, true)) :
    jobConversion w dev j s =
      (nextRow (withRow (rowNow j) x n u false j), writeRow (withRow (rowNow j) x n u false j) (rowNow j) y, true) := by
  rw [jobConversion_negativeRow hop hn e, if_pos rfl]
  exact congrArg (fun b => (_, _, b)) (decide_eq_true hr)

end

/-! ## The row written -/

/-- Row `r` of the range begins at its pitch (R68). -/
theorem levelAddr_row {b : List Byte} (hi : isImage b = false) (hc : isCols b = false) (pos : Nat) :
    levelAddr b (dwRowStart b + pos) (rdColStart b) = dwOutAddr b + pos * 16 * dwReadPitch b := by
  unfold levelAddr
  dsimp only
  rw [hi, hc, rdRowStart_eq hi, Nat.add_sub_cancel_left, Nat.sub_self, Nat.zero_mul, Nat.add_zero]
  rfl

theorem writeRow_level {j : DrwJob} (hop : dOpcode j.bytes = 0x22) (hf : dwReadFmt j.bytes = 0) (pos : Nat) (s : State) {i : Nat}
    (hi : i < dwColCount j.bytes) :
    tabGet 0 (writeRow j (dwRowStart j.bytes + pos) s).mem.cells (dwOutAddr j.bytes + pos * 16 * dwReadPitch j.bytes + i) =
      levelByte (levelAt j (dwRowStart j.bytes + pos) (dwColStart j.bytes + i)) := by
  have him : isImage j.bytes = false := not_image_of hop
  have hw := writeMem_levels (rdFmt_levels him hf) (drwAccess j) (levelAddr j.bytes (dwRowStart j.bytes + pos) (rdColStart j.bytes))
    (rdColCount j.bytes) (fun _ => dwRowStart j.bytes + pos) (fun k => rdColStart j.bytes + k) s (i := i)
    (by rw [rdColCount_eq him]; exact hi)
  rw [levelAddr_row him (not_cols_of hop)] at hw
  rw [rdColStart_eq him] at hw
  unfold writeRow
  dsimp only
  rw [levelAddr_row him (not_cols_of hop), rdColStart_eq him]
  exact hw

/-! ## An uncorrected row -/

/-- The entry of a row left uncorrected (R62, Table 14.5). -/
def uncorrectedEntry (j : DrwJob) (r : Nat) : LogEntry :=
  ({ code := 0x0207, source := 1, engine := dwDrawer j.bytes
     detail := j.gen + r * 2 ^ 32 + j.plane * 2 ^ 48 + 2 ^ 49 } : LogEntry).naming j.ref

theorem rowUncorrected_logged (j : DrwJob) (r : Nat) (s : State) : Logged s (rowUncorrected j r s) (uncorrectedEntry j r) :=
  logged_of_same (uncorrectedEntry j r) (x := setFlag .drw 1 (bump cDrwUncorr 1 s)) ⟨rfl, rfl⟩ rfl rfl rfl

theorem rowUncorrected_counted (j : DrwJob) (r : Nat) (s : State) : Counted s (rowUncorrected j r s) cDrwUncorr 1 :=
  counted_bump cDrwUncorr 1 s

theorem rowUncorrected_flagged (j : DrwJob) (r : Nat) (s : State) : flagUp (rowUncorrected j r s) .drw 1 = true := by
  have h : flagUp (rowUncorrected j r s) .drw 1 = flagUp (setFlag .drw 1 (bump cDrwUncorr 1 s)) .drw 1 := rfl
  rw [h, flagUp_setFlag _ _ _ _ _ (by decide)]
  simp

theorem headGoesOn_keeps {F : Nat} {s x : State} (d : Nat) (k : DrwJob) (h : Keeps F s x) (hF : Within 0x10000 F := by rfl) :
    Keeps F s (headGoesOn d k x) :=
  h.trans (modDrawer_keeps d _ x hF)

theorem counted_of_keeps {F : Nat} {s x t : State} {b : Block} {off n : Nat} (h : Counted s x off n) (k : Keeps F x t)
    (hb : blockCode off = b.code := by rfl) (hF : F.testBit (48 + b.code) = false := by rfl) : Counted s t off n := by
  unfold Counted counter at h ⊢
  rw [k.frame (.counters b) hF off hb]
  exact h

theorem flagUp_of_keeps {F : Nat} {x t : State} {b : Block} {i : Nat} (h : flagUp x b i = true) (k : Keeps F x t)
    (hF : F.testBit (32 + b.code) = false := by rfl) : flagUp t b i = true := by
  unfold flagUp flagsOf at h ⊢
  rw [k.frame (.flags b) hF]
  exact h

/-- A write into memory without errors logs nothing. -/
theorem writeMem_unlogged (acc : Access) (a : Nat) (bs : List Byte) {s : State} (h : s.mem.errs = []) :
    (writeMem acc a bs s).log = s.log ∧ (writeMem acc a bs s).logProd = s.logProd := by
  unfold writeMem
  dsimp only
  rw [errorsIn_nil _ _ _ h]
  exact ⟨rfl, rfl⟩

theorem logged_of_log {s x t : State} {e : LogEntry} (h : Logged s x e) (hl : t.log = x.log ∧ t.logProd = x.logProd) : Logged s t e := by
  unfold Logged at h ⊢
  rw [hl.1, hl.2]
  exact h

/-! ## The last conversion of a readout -/

/-- A readout alone on its Drawer that has written its last row or column: it completes, and the Drawer is free. -/
theorem readout_frees {d : Fin 16384} {a : Instr} {j k : DrwJob} {s x : State} (hq : (drawer s d).queue = [j])
    (hk : Keeps 0x80008000000602 s x) (on : Onward j.ref s x) (hf : (findDesc s j.ref).isSome = true)
    (he : exec a s = .next (popDrawer d k (drwFinalStatus k) (fullPlaneEnd k x))) (hd : k.dropped = false) (hi : isImage k.bytes = false)
    (hp : isProduct k.bytes = false) (hr : k.ref = j.ref := by rfl) :
    Completes a s fun t => (drawer t d).queue = [] ∧ ∃ tail, Ended s t j.ref (if k.read.uncorrected = 0 then 0 else 0x0207) tail := by
  have hq : (drawer (fullPlaneEnd k x) d).queue.drop 1 = [] := by
    rw [fullPlaneEnd_queue, drawer_of_keeps hk rfl, hq]
    rfl
  have on := on.trans (fullPlaneEnd_onward j.ref k x) hf
  rw [← hr] at on hf ⊢
  rw [← drwFinalStatus_readout hp hi]
  obtain ⟨hended, hfree, -⟩ := popDrawer_frees on hf (drwFinalStatus k) hq hd hi
  exact ⟨_, he, hfree, hended⟩

/-! ## Row-order readout -/

section
variable {d : Fin 16384} {dev : Tab Int} {j : DrwJob} {js : List DrwJob} {s : State}
variable (hq : (drawer s d).queue = j :: js) (hop : dOpcode j.bytes = 0x22) (hb : j.begun = true) (hd : j.dropped = false)
include hq hop hb hd

theorem rows_positive (hn : j.read.neg = false) : Completes (.drwConversionDone d dev) s fun t =>
    t.mem = s.mem ∧ ∃ k, (drawer t d).queue = k :: js ∧ k.read.neg = true ∧ k.read.posVals = rowValues (drawer s d) j 0 dev := by
  obtain ⟨he, hk⟩ := conversion_goesOn hq hb (jobConversion_positiveRow hop hn) (atBoundary_of_kept hd)
  generalize rowValues (drawer s d) j 0 dev = vals at he hk ⊢
  exact ⟨_, he, rfl, _, hk, rfl, rfl⟩

variable (hn : j.read.neg = true) {x : RowRead} (hx : x = decideRow (drawer s d) j.read.posVals (rowValues (drawer s d) j 1 dev))
include hn hx

theorem rows_passes (hc : dwColStart j.bytes + dwColCount j.bytes ≤ 1024) (hp : x.passes = true)
    (hr : j.read.pos + 1 < dwRowCount j.bytes) (hf : dwReadFmt j.bytes = 0) : Completes (.drwConversionDone d dev) s fun t =>
    (∃ k, (drawer t d).queue = k :: js ∧ k.read.neg = false ∧ k.read.pos = j.read.pos + 1)
    ∧ ∀ i, i < dwColCount j.bytes → tabGet 0 t.mem.cells (dwOutAddr j.bytes + j.read.pos * 16 * dwReadPitch j.bytes + i) =
        levelByte (x.levels.getD (dwColStart j.bytes + i) 0) := by
  obtain ⟨n, e⟩ := rowReadDone_passes (rowNow j) s (hx ▸ hp)
  rw [← hx] at e
  have hl : x.levels.length = 1024 := hx ▸ decideRow_levels_length ..
  obtain ⟨he, hk⟩ := conversion_goesOn hq hb (jobConversion_rowSettled hop hn hr e) (atBoundary_of_kept hd)
  refine ⟨_, he, ⟨_, hk, rfl, rfl⟩, fun i hi => ?_⟩
  have hw := writeRow_level (j := withRow (rowNow j) x n j.read.uncorrected false j) hop hf j.read.pos
    (if j.read.reread then bump cDrwCorr 1 s else s) hi
  rw [← withRow_level j hl (show dwColStart j.bytes + i < 1024 by omega)]
  exact hw

theorem rows_end (hp : x.passes = true) (hre : j.read.reread = false) (hr : dwRowCount j.bytes ≤ j.read.pos + 1) (hjs : js = [])
    (hf : (findDesc s j.ref).isSome = true) : Completes (.drwConversionDone d dev) s fun t =>
    (drawer t d).queue = [] ∧ ∃ tail, Ended s t j.ref (if j.read.uncorrected = 0 then 0 else 0x0207) tail := by
  have hi : isImage j.bytes = false := not_image_of hop
  obtain ⟨n, e⟩ := rowReadDone_passes (rowNow j) s (hx ▸ hp)
  rw [← hx, hre, if_neg Bool.false_ne_true] at e
  have he := conversion_last hq hb (jobConversion_lastRow hop hn hr e)
  rw [not_product_of hop, hd, Bool.or_false, if_neg Bool.false_ne_true] at he
  subst hjs
  exact readout_frees (k := nextRow (withRow (rowNow j) x n j.read.uncorrected false j)) hq (writeRow_keeps ..) (writeMem_onward ..) hf he
    hd hi (not_product_of hop)

theorem rows_failOnce (hp : x.passes = false) (hre : j.read.reread = false) : Completes (.drwConversionDone d dev) s fun t =>
    t.mem = s.mem ∧ t.log = s.log ∧ ∃ k, (drawer t d).queue = k :: js ∧ k.read.reread = true ∧ k.read.pos = j.read.pos := by
  have e := rowReadDone_fails (rowNow j) s (hx ▸ hp) hre
  rw [← hx] at e
  have e := jobConversion_negativeRow hop hn e
  obtain ⟨he, hk⟩ := conversion_goesOn hq hb e (atBoundary_of_kept hd)
  exact ⟨_, he, rfl, rfl, _, hk, rfl, rfl⟩

theorem rows_failTwice (hp : x.passes = false) (hre : j.read.reread = true) (hr : j.read.pos + 1 < dwRowCount j.bytes) :
    Completes (.drwConversionDone d dev) s fun t => Counted s t cDrwUncorr 1 ∧ flagUp t .drw 1 = true
      ∧ (s.mem.errs = [] → Logged s t (uncorrectedEntry j (rowNow j)))
      ∧ ∃ k, (drawer t d).queue = k :: js ∧ k.read.uncorrected = j.read.uncorrected + 1 ∧ k.read.pos = j.read.pos + 1 := by
  have e := rowReadDone_failsAgain (rowNow j) s (hx ▸ hp) hre
  rw [← hx] at e
  obtain ⟨he, hk⟩ := conversion_goesOn hq hb (jobConversion_rowSettled hop hn hr e) (atBoundary_of_kept hd)
  have hw := headGoesOn_keeps d (nextRow (withRow (rowNow j) x j.read.corrected (j.read.uncorrected + 1) false j))
    (writeRow_keeps (F := 0x80008000010602) (withRow (rowNow j) x j.read.corrected (j.read.uncorrected + 1) false j) (rowNow j)
      (rowUncorrected j (rowNow j) s))
  refine ⟨_, he, counted_of_keeps (b := .drw) (rowUncorrected_counted j (rowNow j) s) hw,
    flagUp_of_keeps (rowUncorrected_flagged j (rowNow j) s) hw, fun hm => ?_, _, hk, rfl, rfl⟩
  exact logged_of_log (rowUncorrected_logged j (rowNow j) s) (writeMem_unlogged _ _ _ hm)

end

end Sys2Proof.Machine

/-!
SUPPORT. Transposed readout (R58, R67, R68): a cell column in one conversion for each part of it, and the column that is written.
-/
namespace Sys2Proof.Machine
set_option Elab.async false
open Sys2Proof.Safety

/-! ## The levels of a column -/

/-- What is kept of one row of a column. -/
def cellStored (pl : Plane) (b : List Byte) (c : Nat) (pos neg : List Int) (p : ReadProgress) (r : Nat) : ReadProgress :=
  let x := columnReading pl b pos r
  let y := columnReading pl b neg r
  let fault := decide (0 < decideLevel x) && decide (0 < decideLevel y)
  { p with
    levels := tabSet 0 p.levels (1036 * r + c) (pairWeight x y)
    pairFaults := if fault then tabSet false p.pairFaults (4 * r + c % 4) true else p.pairFaults
    marginal := tabMod 0 p.marginal r (· + boolNat (isMarginal x) + boolNat (isMarginal y)) }

section
variable (pl : Plane) (b : List Byte) (c : Nat) (pos neg : List Int)

theorem storeColumn_eq (p : ReadProgress) : storeColumn pl b c pos neg p = (rangeRows b).foldl (cellStored pl b c pos neg) p := rfl

/-- Where the readout stands is not what a column changes. -/
theorem storeColumn_progress (p : ReadProgress) : (storeColumn pl b c pos neg p).pos = p.pos
    ∧ (storeColumn pl b c pos neg p).neg = p.neg ∧ (storeColumn pl b c pos neg p).part = p.part := by
  rw [storeColumn_eq]
  induction rangeRows b generalizing p with
  | nil => exact ⟨rfl, rfl, rfl⟩
  | cons r rs ih => exact ih (cellStored pl b c pos neg p r)

theorem foldl_cellStored_level (rs : List Nat) (r : Nat) (p : ReadProgress) :
    tabGet 0 (rs.foldl (cellStored pl b c pos neg) p).levels (1036 * r + c) =
      if r ∈ rs then pairWeight (columnReading pl b pos r) (columnReading pl b neg r) else tabGet 0 p.levels (1036 * r + c) := by
  induction rs generalizing p with
  | nil => rfl
  | cons q rs ih =>
    rw [List.foldl_cons, ih]
    by_cases hr : r ∈ rs
    · rw [if_pos hr, if_pos (List.mem_cons_of_mem q hr)]
    · rw [if_neg hr]
      by_cases hq : r = q
      · subst hq
        rw [if_pos List.mem_cons_self]
        exact tabGet_tabSet_same ..
      · rw [if_neg (by rw [List.mem_cons]; exact not_or.2 ⟨hq, hr⟩)]
        exact tabGet_tabSet_ne _ _ _ _ _ (by omega)

theorem storeColumn_level (hi : isImage b = false) {i : Nat} (h : i < dwRowCount b) (p : ReadProgress) :
    tabGet 0 (storeColumn pl b c pos neg p).levels (1036 * (dwRowStart b + i) + c) =
      pairWeight (columnReading pl b pos (dwRowStart b + i)) (columnReading pl b neg (dwRowStart b + i)) := by
  rw [storeColumn_eq, foldl_cellStored_level, if_pos]
  unfold rangeRows
  rw [rdRowStart_eq hi, rdRowCount_eq hi]
  exact List.mem_map.2 ⟨i, List.mem_range.2 h, rfl⟩

end

/-! ## One conversion -/

/-- The column that a transposed readout is at. -/
def columnNow (j : DrwJob) : Nat := (readSet j.bytes).getD j.read.pos 0

/-- What its conversion reads of the column: one part of one polarity. -/
def partValues (w : Drawer) (j : DrwJob) (dev : Tab Int) : List Int :=
  ((partRows (w.plane j.plane) j.bytes j.read.part).zip
    (List.range (partRows (w.plane j.plane) j.bytes j.read.part).length)).map fun r =>
      (w.plane j.plane).cell r.1 (w.physCol (columnNow j)) (boolNat j.read.neg) + tabGet 0 dev r.2

/-- The readout with one part more. -/
def withPart (new : List Int) (j : DrwJob) : DrwJob :=
  { j with read := { j.read with curVals := j.read.curVals ++ new, part := j.read.part + 1 } }

/-- The positive cells of its column have been read. -/
def withPositives (vals : List Int) (j : DrwJob) : DrwJob :=
  { j with read := { j.read with neg := true, part := 0, posVals := vals, curVals := [] } }

/-- Its progress at the next column of the set. -/
def nextColumn (p : ReadProgress) : ReadProgress := { p with neg := false, part := 0, posVals := [], curVals := [], pos := p.pos + 1 }

/-- Its column has been read with both polarities. -/
def withColumn (pl : Plane) (vals : List Int) (j : DrwJob) : DrwJob :=
  { j with read := storeColumn pl j.bytes (columnNow j) j.read.posVals vals (nextColumn j.read) }

/-- A column of the range is written; the others that CHECK has read are not (R59). -/
def columnWritten (j k : DrwJob) (s : State) : State :=
  if decide (dwColStart j.bytes ≤ columnNow j) && decide (columnNow j < dwColStart j.bytes + dwColCount j.bytes) then
    writeColumn k (columnNow j) s
  else s

section
variable {w : Drawer} {dev : Tab Int} {j : DrwJob} {s : State} (hop : dOpcode j.bytes = 0x23)
include hop

theorem jobConversion_columns : jobConversion w dev j s = readColConversion w dev j s := by
  unfold jobConversion isCols
  rw [if_neg (ne_true_of_eq_false (not_product_of hop)), hop]
  rfl

variable (ht : j.read.transposedDone = false)
include ht

theorem jobConversion_part (h : j.read.part + 1 < partCount (w.plane j.plane) j.bytes) :
    jobConversion w dev j s = (withPart (partValues w j dev) j, s, false) := by
  rw [jobConversion_columns hop]
  unfold readColConversion
  rw [if_neg (ne_true_of_eq_false ht)]
  exact if_pos h

theorem jobConversion_positives (h : partCount (w.plane j.plane) j.bytes ≤ j.read.part + 1) (hn : j.read.neg = false) :
    jobConversion w dev j s = (withPositives (j.read.curVals ++ partValues w j dev) j, s, false) := by
  rw [jobConversion_columns hop]
  unfold readColConversion
  rw [if_neg (ne_true_of_eq_false ht)]
  refine (if_neg (Nat.not_lt.2 h)).trans ((if_pos ?_).trans rfl)
  dsimp only
  rw [hn]
  rfl

theorem jobConversion_column (h : partCount (w.plane j.plane) j.bytes ≤ j.read.part + 1) (hn : j.read.neg = true)
    (hp : j.read.pos + 1 < (readSet j.bytes).length) :
    jobConversion w dev j s = (withColumn (w.plane j.plane) (j.read.curVals ++ partValues w j dev) j,
      columnWritten j (withColumn (w.plane j.plane) (j.read.curVals ++ partValues w j dev) j) s, false) := by
  rw [jobConversion_columns hop]
  unfold readColConversion
  rw [if_neg (ne_true_of_eq_false ht)]
  refine (if_neg (Nat.not_lt.2 h)).trans ((if_neg ?_).trans ((if_pos (.inl ?_)).trans rfl))
  · dsimp only
    rw [hn]
    exact Bool.false_ne_true
  · rw [(storeColumn_progress ..).1]
    exact hp

end

/-! ## The column written -/

/-- Column `c` of the range begins at its pitch (R68). -/
theorem levelAddr_column {b : List Byte} (hop : dOpcode b = 0x23) (ht : dwTiled b = false) (c : Nat) :
    levelAddr b (rdRowStart b) c = dwOutAddr b + (c - dwColStart b) * 16 * dwReadPitch b := by
  have hi : isImage b = false := not_image_of hop
  unfold levelAddr isCols
  dsimp only
  rw [hi, hop, ht, Nat.sub_self, rdColStart_eq hi, if_neg Bool.false_ne_true, if_neg (by decide), if_pos Bool.not_false,
    Nat.zero_mul, Nat.add_zero]

theorem writeColumn_level {j : DrwJob} (hop : dOpcode j.bytes = 0x23) (ht : dwTiled j.bytes = false) (hf : dwReadFmt j.bytes = 0) (c : Nat)
    (s : State) {i : Nat} (h : i < dwRowCount j.bytes) :
    tabGet 0 (writeColumn j c s).mem.cells (dwOutAddr j.bytes + (c - dwColStart j.bytes) * 16 * dwReadPitch j.bytes + i) =
      levelByte (levelAt j (dwRowStart j.bytes + i) c) := by
  have hi : isImage j.bytes = false := not_image_of hop
  have hw := writeMem_levels (rdFmt_levels hi hf) (drwAccess j) (levelAddr j.bytes (rdRowStart j.bytes) c) (rdRowCount j.bytes)
    (fun k => rdRowStart j.bytes + k) (fun _ => c) s (i := i) (by rw [rdRowCount_eq hi]; exact h)
  unfold writeColumn
  dsimp only
  rw [ht, if_pos (show (!false) = true from rfl)]
  rw [levelAddr_column hop ht] at hw ⊢
  rw [rdRowStart_eq hi] at hw ⊢
  exact hw

/-! ## Transposed readout -/

section
variable {d : Fin 16384} {dev : Tab Int} {j : DrwJob} {js : List DrwJob} {s : State}
variable (hq : (drawer s d).queue = j :: js) (hop : dOpcode j.bytes = 0x23) (hb : j.begun = true) (hd : j.dropped = false)
variable (ht : j.read.transposedDone = false)
include hq hop hb hd ht

theorem columns_part (h : j.read.part + 1 < partCount ((drawer s d).plane j.plane) j.bytes) :
    Completes (.drwConversionDone d dev) s fun t =>
      t.mem = s.mem ∧ ∃ k, (drawer t d).queue = k :: js ∧ k.read.part = j.read.part + 1
        ∧ k.read.curVals = j.read.curVals ++ partValues (drawer s d) j dev ∧ k.read.neg = j.read.neg ∧ k.read.pos = j.read.pos := by
  obtain ⟨he, hk⟩ := conversion_goesOn hq hb (jobConversion_part hop ht h) (atBoundary_of_kept hd)
  exact ⟨_, he, rfl, _, hk, rfl, rfl, rfl, rfl⟩

variable (h : partCount ((drawer s d).plane j.plane) j.bytes ≤ j.read.part + 1)
include h

theorem columns_positives (hn : j.read.neg = false) : Completes (.drwConversionDone d dev) s fun t =>
    t.mem = s.mem ∧ ∃ k, (drawer t d).queue = k :: js ∧ k.read.part = 0 ∧ k.read.neg = true
      ∧ k.read.posVals = j.read.curVals ++ partValues (drawer s d) j dev ∧ k.read.curVals = [] := by
  obtain ⟨he, hk⟩ := conversion_goesOn hq hb (jobConversion_positives hop ht h hn) (atBoundary_of_kept hd)
  exact ⟨_, he, rfl, _, hk, rfl, rfl, rfl, rfl⟩

/-- The column is settled, and where it lies in the range it is written. -/
theorem columns_column (hn : j.read.neg = true) (hp : j.read.pos + 1 < (readSet j.bytes).length) :
    Completes (.drwConversionDone d dev) s fun t =>
      (∃ k, (drawer t d).queue = k :: js ∧ k.read.pos = j.read.pos + 1 ∧ k.read.neg = false ∧ k.read.part = 0) ∧
      (dwTiled j.bytes = false → dwReadFmt j.bytes = 0 → dwColStart j.bytes ≤ columnNow j →
        columnNow j < dwColStart j.bytes + dwColCount j.bytes → ∀ i, i < dwRowCount j.bytes →
          tabGet 0 t.mem.cells (dwOutAddr j.bytes + (columnNow j - dwColStart j.bytes) * 16 * dwReadPitch j.bytes + i) =
            levelByte (pairWeight (columnReading ((drawer s d).plane j.plane) j.bytes j.read.posVals (dwRowStart j.bytes + i))
              (columnReading ((drawer s d).plane j.plane) j.bytes (j.read.curVals ++ partValues (drawer s d) j dev)
                (dwRowStart j.bytes + i)))) := by
  obtain ⟨he, hk⟩ := conversion_goesOn hq hb (jobConversion_column hop ht h hn hp) (atBoundary_of_kept hd)
  generalize partValues (drawer s d) j dev = new at he hk ⊢
  obtain ⟨hpos, hneg, hpart⟩ := storeColumn_progress ((drawer s d).plane j.plane) j.bytes (columnNow j) j.read.posVals
    (j.read.curVals ++ new) (nextColumn j.read)
  refine ⟨_, he, ⟨_, hk, hpos, hneg, hpart⟩, fun htl hf hlo hhi i hi => ?_⟩
  have hw := writeColumn_level (j := withColumn ((drawer s d).plane j.plane) (j.read.curVals ++ new) j) hop htl hf (columnNow j) s hi
  have hl : levelAt (withColumn ((drawer s d).plane j.plane) (j.read.curVals ++ new) j) (dwRowStart j.bytes + i) (columnNow j) = _ :=
    storeColumn_level _ _ _ _ _ (not_image_of hop) hi _
  rw [← hl]
  unfold columnWritten
  rw [decide_eq_true hlo, decide_eq_true hhi]
  exact hw

end

/-! ## Both orders -/

/-- Settles O30: a row is settled by its negative cells, read again once and otherwise left uncorrected; a column by the last part of
its negative cells. -/
theorem readoutsGiveLevels : Obligations.ReadoutsGiveLevels := by
  unfold Obligations.ReadoutsGiveLevels
  constructor
  · rintro d dev j js w r s rfl hq hop hb hd rfl hc
    refine ⟨rows_positive hq hop hb hd, fun x hn hx => ⟨?_, ?_, ?_, ?_⟩⟩
    · exact rows_passes hq hop hb hd hn hx hc
    · exact fun hp hre hr hjs _ => rows_end hq hop hb hd hn hx hp hre hr hjs
    · exact rows_failOnce hq hop hb hd hn hx
    · exact rows_failTwice hq hop hb hd hn hx
  · rintro d dev j js w pl c new s rfl hq hop hb hd rfl ht rfl rfl
    refine ⟨columns_part hq hop hb hd ht, columns_positives hq hop hb hd ht, fun h hn hp => ?_⟩
    obtain ⟨t, he, hk, hw⟩ := columns_column hq hop hb hd ht h hn hp
    exact ⟨t, he, hk, fun htl hf hlo hhi _ => hw htl hf hlo hhi⟩

end Sys2Proof.Machine

/-!
SUPPORT. A descriptor whose opcode a substitution replaces. The table is read again at each dispatch (R240, log entry 205), and the model
then takes any POS: the range of Table 7.8 is checked by STEP_BEGIN only, and memory may be written after it.
-/
namespace Sys2Proof.Machine
set_option Elab.async false
open Sys2Proof.Safety

/-! ## What a command does not do -/

/-- A next state fails this test. -/
def nextFails (test : State → Bool) : Host.Outcome State Fault Refusal → Bool
  | .next t => !test t
  | _ => true

theorem not_completes {c : Instr} {s : State} {p : State → Prop} (test : State → Bool) (h : nextFails test (exec c s) = true)
    (hp : ∀ t, p t → test t = true) : ¬Completes c s p := by
  rintro ⟨t, ht, hpt⟩
  rw [ht] at h
  have h : (!test t) = true := h
  rw [hp t hpt] at h
  exact Bool.false_ne_true h

/-! ## A state whose table names the opcode -/

/-- Bytes of a record: zeros, with a little-endian value of so many bytes at each offset. -/
def fielded (n : Nat) (fs : List (Nat × Nat × Nat)) : List Byte := fs.foldl (fun b f => patch b f.1 (leBytes f.2.1 f.2.2)) (zeros n)

/-- The control block of a step with one substitution entry, at 0x20000, and generation vectors from 0x30000. -/
def patchCtrl : List Byte := fielded 96 [(16, 8, 0x20000), (72, 8, 0x30000), (88, 4, 1)]

/-- The entry: KIND 5 (GEN) and POS 0 for the descriptor after STEP_BEGIN. -/
def patchEntry : List Byte := leBytes 8 (1 + 5 * 2 ^ 16)

/-- Step 0 open in context 1, its STEP_BEGIN at index 0 of ring 0. -/
def patchStep : StepCtx :=
  { ring := some 0, begunSteps := [0]
    opened := some { num := 0, mode := 0, begun := true, ref := ⟨1, 0, 0⟩, beginIdx := 0, ctrl := patchCtrl } }

/-- Ring 0 with this descriptor behind the STEP_BEGIN. -/
def patchRing (b : List Byte) : Ring :=
  { base := 0x1000, comp := 0x8000, enable := true, tail := 2, fetched := 2, opened := [{ idx := 1, bytes := b }] }

/-- A module in service whose table replaces bytes 0 to 3 of this descriptor for Drawer 5 by those, and which skips no zero elements. -/
def patchState (b new : List Byte) : State :=
  let s := { State.reset with
    mod := { State.reset.mod with st := .ready, pllLocked := true, pwrGood := true }
    maps := [(1, BitVec.allOnes 16384)]
    steps := [(1, patchStep)]
    mem := { State.reset.mem with cells := memStore (memStore State.reset.mem.cells 0x20000 patchEntry) 0x30014 new } }
  modRing 1 0 (fun _ => patchRing b) (setReg rDrwCtrl 2 (setReg (rHifWinLimit 1 0) 0xFFFFFFFFFFFFF000 (setReg (rHifWinBase 1 0) 3 s)))

/-- What its command is handed. -/
def patched (b new : List Byte) : Accepted := ⟨⟨1, 0, 1⟩, patch b 0 new, []⟩

/-! ## A product that is read as a readout -/

/-- A product of no vector: Drawer 5, row 0, columns 2 to 5. -/
def emptyProduct : List Byte := fielded 64 [(0, 1, 0x21), (1, 1, 1), (16, 2, 5), (26, 2, 1), (28, 2, 2), (30, 2, 4), (48, 8, 0x10000002000)]

/-- The first bytes of a DRW_READ_ROWS of context 1. -/
def rowsHeader : List Byte := [0x22, 1, 0, 0]

theorem emptyProduct_dispatches : Dispatches (patchState emptyProduct rowsHeader) 1 0 0x21 (patched emptyProduct rowsHeader) :=
  ⟨{ idx := 1, bytes := emptyProduct }, by decide +kernel, by decide +kernel⟩

/-- The patched descriptor is a valid readout of one row. -/
theorem emptyProduct_valid : dwVectors (patched emptyProduct rowsHeader).bytes = 0
    ∧ drwStatus (patchState emptyProduct rowsHeader) 1 (patched emptyProduct rowsHeader).bytes = 0
    ∧ dwDrawer (patched emptyProduct rowsHeader).bytes = 5
    ∧ selectPlane (drawer (patchState emptyProduct rowsHeader) 5) (patched emptyProduct rowsHeader).bytes = some 0
    ∧ (drawer (patchState emptyProduct rowsHeader) 5).queue = [] := by decide +kernel

/-- It waits in the Drawer's queue for its conversions. -/
theorem emptyProduct_waits :
    nextFails (fun t => (drawer t 5).queue.isEmpty) (exec (.drwProduct 1 0) (patchState emptyProduct rowsHeader)) = true := by
  decide +kernel

/-- Refutes O9: `Dispatches` takes its opcode from the descriptor as fetched, and the other hypotheses speak of its final bytes. A GEN entry
of POS 0, written into the table after STEP_BEGIN has checked it, makes a DRW_READ_ROWS of the product of no vector: the model validates
and queues it as the readout of its final bytes, and does not complete it. -/
theorem not_productsOfNoVectorComplete : ¬ Obligations.ProductsOfNoVectorComplete := by
  unfold Obligations.ProductsOfNoVectorComplete
  rintro ⟨-, h⟩
  obtain ⟨hv, hs, hd, hp, hq⟩ := emptyProduct_valid
  refine not_completes _ emptyProduct_waits ?_ (h 1 0 0 5 _ _ emptyProduct_dispatches hv hs hd.symm hp hq)
  rintro t ⟨-, hq, -⟩
  exact List.isEmpty_iff.2 hq

/-! ## A readout that is executed as a product -/

/-- A DRW_READ_ROWS whose other fields are those of a product with HOLD: Drawer 5, rows 0 to 15, columns 2 to 5, one vector. -/
def holdingRows : List Byte :=
  fielded 64 [(0, 1, 0x22), (1, 1, 1), (16, 2, 5), (19, 1, 1), (26, 2, 16), (28, 2, 2), (30, 2, 4), (32, 2, 1), (36, 1, 5), (38, 2, 1),
    (40, 8, 0x10000000000), (48, 8, 0x10000002000), (56, 8, 0x10000004000)]

/-- The first bytes of a DRW_PRODUCT of context 1. -/
def productHeader : List Byte := [0x21, 1, 0, 0]

theorem holdingRows_dispatches : Dispatches (patchState holdingRows productHeader) 1 0 0x22 (patched holdingRows productHeader) :=
  ⟨{ idx := 1, bytes := holdingRows }, by decide +kernel, by decide +kernel⟩

/-- The patched descriptor is a valid product of one vector. -/
theorem holdingRows_valid : drwStatus (patchState holdingRows productHeader) 1 (patched holdingRows productHeader).bytes = 0
    ∧ dwDrawer (patched holdingRows productHeader).bytes = 5
    ∧ selectPlane (drawer (patchState holdingRows productHeader) 5) (patched holdingRows productHeader).bytes = some 0
    ∧ (drawer (patchState holdingRows productHeader) 5).queue = []
    ∧ dwVectors (patched holdingRows productHeader).bytes ≠ 0
    ∧ regBit (patchState holdingRows productHeader) rDrwCtrl 0 = false
    ∧ ((drawer (patchState holdingRows productHeader) 5).plane 0).hold = 0 := by decide +kernel

/-- It takes a hold of its plane. -/
theorem holdingRows_holds :
    nextFails (fun t => ((drawer t 5).plane 0).hold == 0) (exec (.drwReadRows 1 0) (patchState holdingRows productHeader)) = true := by
  decide +kernel

/-- Refutes O28: the statement has only a DRW_PRODUCT take a hold, by the opcode of the descriptor as fetched. A GEN entry of POS 0, written
into the table after STEP_BEGIN has checked it, makes a product with HOLD of a DRW_READ_ROWS: the model queues the product of its final
bytes, and the plane's count rises by 1. -/
theorem not_drawerQueues : ¬ Obligations.DrawerQueues := by
  unfold Obligations.DrawerQueues
  rintro ⟨h, -⟩
  obtain ⟨hs, hd, hp, hq, hv, hz, hh⟩ := holdingRows_valid
  refine not_completes _ holdingRows_holds ?_ (h (.drwReadRows 1 0) 0x22 0 5 1 0 _ _ holdingRows_dispatches hd.symm
    (.inl ⟨List.mem_cons_of_mem _ List.mem_cons_self, hs, hp⟩) ?_ (fun _ _ => ⟨hv, hz⟩))
  · rintro t ⟨-, hold, -⟩
    rw [hh, if_neg fun op => absurd op.1 (by decide)] at hold
    exact beq_iff_eq.2 hold
  · intro j hj
    rw [hq] at hj
    exact absurd hj.symm (Option.some_ne_none j)

end Sys2Proof.Machine

/-!
The statement on the machine right after reset (O6).
-/
namespace Sys2Proof.Machine
set_option Elab.async false
open Sys2Proof.Safety

/-- The machine right after reset has the invariant: its tables hold at most their entries of delivery, in canonical form. -/
theorem inv_reset : Inv State.reset := ⟨by decide +kernel, Nat.zero_le _, Nat.zero_le _, fun h => by rcases h with h | h <;> cases h⟩

/-- A Drawer that no entry lists is as delivered. -/
theorem drawer_reset (d : Nat) : drawer State.reset d = {} := rfl

/-- A weight as delivered: both cells of its pair at code 2, which is level 0 (R54, R88). -/
theorem weight_delivered (r : Nat) {c : Nat} (h : c < 1024) : ({} : Drawer).weight 0 r c = 0 := by
  have hcol : ({} : Drawer).physCol c = c := if_neg (by omega)
  have hcell (neg : Nat) : (({} : Drawer).plane 0).cell r c neg = 2000 := if_neg (by omega)
  show pairWeight ((({} : Drawer).plane 0).cell r (({} : Drawer).physCol c) 0) ((({} : Drawer).plane 0).cell r (({} : Drawer).physCol c) 1) = 0
  rw [hcol, hcell, hcell]
  rfl

/-- Settles O6: the registers by their reset values, the Drawers and the ports by what a table reads where it has no entry. -/
theorem resetIsAsStated : Obligations.ResetIsAsStated :=
  ⟨inv_reset, rfl, rfl, rfl, rfl, rfl, rfl, rfl, rfl, rfl, fun _ => rfl, fun _ => ⟨rfl, rfl, rfl⟩, fun d r c h => by
    rw [drawer_reset]
    exact weight_delivered r h⟩

end Sys2Proof.Machine

/-!
SUPPORT. Programming jobs on their lanes (R100, R117): what a lane, a plane and a Chest's queue read after the operations on them, and how a
job that ends completes.
-/
namespace Sys2Proof.Machine
set_option Elab.async false
open Sys2Proof.Safety

/-! ## Planes -/

theorem drawer_modPlane (d p : Nat) (f : Plane → Plane) (s : State) (e : Nat) :
    drawer (modPlane d p f s) e = if e = d then (drawer s e).modPlane p f else drawer s e := drawer_modDrawer ..

theorem Drawer.plane_modPlane (w : Drawer) (p : Nat) (f : Plane → Plane) : (w.modPlane p f).plane p = f (w.plane p) := by
  unfold Drawer.modPlane Drawer.plane
  split
  · rfl
  · rfl

/-- The plane that is changed. -/
theorem plane_modPlane (d p : Nat) (f : Plane → Plane) (s : State) :
    (drawer (modPlane d p f s) d).plane p = f ((drawer s d).plane p) := by
  rw [drawer_modPlane, if_pos rfl, Drawer.plane_modPlane]

/-! ## Chests and lanes -/

theorem chest_of_keeps {F : Nat} {s t : State} (k : Keeps F s t) (h : F.testBit 17 = false) : chest t = chest s := by
  funext c
  unfold chest
  rw [show t.chests = s.chests from k.frame .chests h]

theorem laneJob_of_keeps {F : Nat} {s t : State} (k : Keeps F s t) (h : F.testBit 17 = false) : laneJob t = laneJob s := by
  funext c l
  unfold laneJob
  rw [chest_of_keeps k h]

theorem stepCtx_of_keeps {F : Nat} {s t : State} (k : Keeps F s t) (h : F.testBit 15 = false) : stepCtx t = stepCtx s := by
  funext c
  unfold stepCtx
  rw [show t.steps = s.steps from k.frame .steps h]

theorem laneJob_setLane_same (c l : Nat) (j : Option PlnJob) (s : State) : laneJob (setLane c l j s) c l = j := by
  rw [laneJob_setLane, if_pos ⟨rfl, rfl⟩]

theorem inPhase_of_laneJob {s : State} {c l : Nat} {j : PlnJob} {p : RowPhase} (h : laneJob s c l = some j) (hp : j.phase = p) :
    inPhase s c l p = some j := by
  unfold inPhase
  rw [h]
  exact if_pos (beq_iff_eq.2 hp)

theorem setLane_queue (c l : Nat) (j : Option PlnJob) (s : State) (k : Nat) : (chest (setLane c l j s) k).queue = (chest s k).queue := by
  unfold setLane
  rw [chest_modChest]
  split
  · rfl
  · rfl

theorem clearLane_queue (c l : Nat) (s : State) (k : Nat) : (chest (clearLane c l s) k).queue = (chest s k).queue := by
  unfold clearLane
  rw [chest_modChest]
  split
  · exact setLane_queue ..
  · exact setLane_queue ..

theorem laneJob_clearLane (c l : Nat) (s : State) : laneJob (clearLane c l s) c l = none := by
  have h : laneJob (clearLane c l s) c l = laneJob (setLane c l none s) c l := by
    unfold laneJob clearLane
    rw [chest_modChest, if_pos rfl]
  rw [h, laneJob_setLane_same]

/-! ## The end of a job -/

section
variable (l : Nat) (j : PlnJob) (status : Nat) (reached : Bool) (s : State)

/-- What follows the freeing of its lane does not reach the Chests. -/
theorem endJob_chest : chest (endJob l j status reached s) = chest (clearLane j.chest l s) := by
  unfold endJob
  exact (chest_of_keeps (reloadPending_keeps (F := 0x20) ..) rfl).trans (chest_of_keeps (complete_keeps (F := 0x1000010048040) ..) rfl)

theorem endJob_frees : laneJob (endJob l j status reached s) j.chest l = none := by
  unfold laneJob
  rw [endJob_chest]
  exact laneJob_clearLane ..

theorem endJob_queue (k : Nat) : (chest (endJob l j status reached s) k).queue = (chest s k).queue := by
  rw [endJob_chest, clearLane_queue]

theorem endJob_drawer : drawer (endJob l j status reached s) = drawer s :=
  drawer_of_keeps (endJob_keeps (F := 0x1000010068060) ..) rfl

theorem endJob_closes : Closes s (endJob l j status reached s) := by
  unfold endJob
  have h : Closes s (clearLane j.chest l s) := .of_keeps (clearLane_keeps ..)
  exact (h.trans (completeWith_closes ..)).trans (.of_keeps (reloadPending_keeps ..))

end

/-- A job that ends completes with its status. -/
theorem endJob_ended {j : PlnJob} {s x : State} (on : Onward j.ref s x) (hf : (findDesc s j.ref).isSome = true) (l status : Nat)
    (reached : Bool) : Ended s (endJob l j status reached x) j.ref status (plnTail j reached) := by
  have on : Onward j.ref s (clearLane j.chest l x) :=
    on.trans (.of_keeps (clearLane_keeps (F := 0x20000) ..) rfl rfl rfl rfl id) hf
  exact ended_of_out (complete_ended on hf status _) ((reloadPending_keeps (F := 0x20) ..).frame .output rfl).1

/-! ## A job that stops (R117) -/

/-- The plane of a PLN_PROGRAM that stops. -/
def Plane.stopped (p : Plane) : Plane := if p.st = .programming then { p with st := .failed } else p

theorem Plane.stopped_rowBad (p : Plane) : p.stopped.rowBad = p.rowBad := by
  unfold Plane.stopped
  split
  · rfl
  · rfl

theorem stopJob_plane {j : PlnJob} (h : isRemap j.bytes = false) (l status : Nat) (s : State) :
    (drawer (stopJob l j status s) j.drawer).plane j.plane = ((drawer s j.drawer).plane j.plane).stopped := by
  unfold stopJob
  rw [endJob_drawer, failPlane, h]
  exact plane_modPlane ..

theorem stopJob_frees (l : Nat) (j : PlnJob) (status : Nat) (s : State) : laneJob (stopJob l j status s) j.chest l = none := endJob_frees ..

theorem stopJob_ended {j : PlnJob} {s x : State} (on : Onward j.ref s x) (hf : (findDesc s j.ref).isSome = true) (l status : Nat) :
    Ended s (stopJob l j status x) j.ref status (plnTail j false) :=
  endJob_ended (on.trans (.of_keeps (failPlane_keeps (F := 0x10000) j x) rfl rfl rfl rfl fun h => by
    rw [mem_of_keeps (failPlane_keeps j x)]
    exact h) hf) hf l status false

end Sys2Proof.Machine

/-!
SUPPORT. What a pulse leaves of the cells of a plane (R95): each cell it moves at the nominal code of its level and its miss, every other as it
was.
-/
namespace Sys2Proof.Machine
set_option Elab.async false
open Sys2Proof.Safety

/-! ## One cell -/

theorem cellKey_inj {row pair neg r p n : Nat} (hp : pair < 1036) (hn : neg < 2) (hq : p < 1036) (hm : n < 2) :
    cellKey r p n = cellKey row pair neg ↔ r = row ∧ p = pair ∧ n = neg := by
  unfold cellKey
  omega

theorem Plane.cell_setCell (pl : Plane) {row pair neg : Nat} (v : Int) {r p n : Nat} (hp : pair < 1036) (hn : neg < 2) (hq : p < 1036)
    (hm : n < 2) : (pl.setCell row pair neg v).cell r p n = if r = row ∧ p = pair ∧ n = neg then v else pl.cell r p n := by
  unfold Plane.setCell Plane.cell
  dsimp only
  by_cases h : cellKey r p n = cellKey row pair neg
  · obtain ⟨rfl, rfl, rfl⟩ := (cellKey_inj hp hn hq hm).1 h
    rw [tabGet_tabSet_same]
    by_cases hv : v = cellDefault p n
    · rw [if_pos hv, if_pos ⟨rfl, rfl, rfl⟩]
      exact hv.symm
    · rw [if_neg hv, if_pos ⟨rfl, rfl, rfl⟩]
  · rw [tabGet_tabSet_ne _ _ _ _ _ h, if_neg (mt (cellKey_inj hp hn hq hm).2 h)]

/-! ## The cells of a row -/

section
variable (row : Nat) (outside : List Nat) (miss : Tab Int)

/-- A pulse on one cell of a pair, where it is outside its band. -/
def pulseCell (t : Nat × Int) (p : Plane) (neg : Nat) : Plane :=
  if outside.contains (2 * t.1 + neg) then p.setCell row t.1 neg (nominal t.2 neg + tabGet 0 miss (2 * t.1 + neg)) else p

/-- A pulse on the two cells of a pair. -/
def pulsePair (p : Plane) (t : Nat × Int) : Plane := [0, 1].foldl (pulseCell row outside miss t) p

theorem pulseCells_eq (w : Drawer) (j : PlnJob) : pulseCells w j miss =
    (rowTargets w j).foldl (pulsePair (jobRow w j) j.outside miss) (w.plane j.plane) := rfl

theorem pulseCell_cell {t : Nat × Int} (ht : t.1 < 1036) (p : Plane) {neg : Nat} (hneg : neg < 2) (r : Nat) {pair n : Nat}
    (hp : pair < 1036) (hn : n < 2) : (pulseCell row outside miss t p neg).cell r pair n =
      if (r = row ∧ t.1 = pair ∧ 2 * pair + n ∈ outside) ∧ n = neg then nominal t.2 n + tabGet 0 miss (2 * pair + n)
      else p.cell r pair n := by
  unfold pulseCell
  by_cases ho : 2 * t.1 + neg ∈ outside
  · rw [if_pos (List.contains_iff_mem.2 ho), Plane.cell_setCell _ _ ht hneg hp hn]
    by_cases h : r = row ∧ pair = t.1 ∧ n = neg
    · obtain ⟨rfl, rfl, rfl⟩ := h
      rw [if_pos ⟨rfl, rfl, rfl⟩, if_pos ⟨⟨rfl, rfl, ho⟩, rfl⟩]
    · rw [if_neg h, if_neg fun k => h ⟨k.1.1, k.1.2.1.symm, k.2⟩]
  · rw [if_neg (mt List.contains_iff_mem.1 ho), if_neg]
    rintro ⟨⟨-, rfl, hm⟩, rfl⟩
    exact ho hm

/-- The cell `n` of the pair is pulsed where the row, the pair and the cell are those named. -/
theorem pulsePair_cell {t : Nat × Int} (ht : t.1 < 1036) (p : Plane) (r : Nat) {pair n : Nat} (hp : pair < 1036) (hn : n < 2) :
    (pulsePair row outside miss p t).cell r pair n =
      if r = row ∧ t.1 = pair ∧ 2 * pair + n ∈ outside then nominal t.2 n + tabGet 0 miss (2 * pair + n) else p.cell r pair n := by
  show (pulseCell row outside miss t (pulseCell row outside miss t p 0) 1).cell r pair n = _
  rw [pulseCell_cell row outside miss ht _ (by decide) r hp hn, pulseCell_cell row outside miss ht _ (by decide) r hp hn]
  by_cases h : r = row ∧ t.1 = pair ∧ 2 * pair + n ∈ outside
  · rw [if_pos h]
    rcases (by omega : n = 0 ∨ n = 1) with rfl | rfl
    · rw [if_neg (fun k => absurd k.2 (by decide)), if_pos ⟨h, rfl⟩]
    · rw [if_pos ⟨h, rfl⟩]
  · rw [if_neg h, if_neg (mt And.left h), if_neg (mt And.left h)]

/-- Pulses on pairs of which no two are the same: each cell is as the first entry for it says. -/
theorem pulsePairs_cell {ts : List (Nat × Int)} (ht : ∀ t ∈ ts, t.1 < 1036) (hd : ts.Pairwise fun t u => t.1 < u.1) (p : Plane) (r : Nat)
    {pair n : Nat} (hp : pair < 1036) (hn : n < 2) : (ts.foldl (pulsePair row outside miss) p).cell r pair n =
      ((ts.find? fun t => decide (r = row ∧ t.1 = pair ∧ 2 * pair + n ∈ outside)).map fun t =>
        nominal t.2 n + tabGet 0 miss (2 * pair + n)).getD (p.cell r pair n) := by
  induction ts generalizing p with
  | nil => rfl
  | cons t ts ih =>
    obtain ⟨hlt, hd⟩ := List.pairwise_cons.1 hd
    rw [List.foldl_cons, ih (fun u hu => ht u (List.mem_cons_of_mem _ hu)) hd, pulsePair_cell row outside miss (ht t List.mem_cons_self) p r hp hn,
      List.find?_cons]
    by_cases h : r = row ∧ t.1 = pair ∧ 2 * pair + n ∈ outside
    · have hnone : ts.find? (fun u => decide (r = row ∧ u.1 = pair ∧ 2 * pair + n ∈ outside)) = none :=
        List.find?_eq_none.2 fun u hu k => by
          have := hlt u hu
          have := (of_decide_eq_true k).2.1
          omega
      rw [hnone, decide_eq_true h, if_pos h]
      rfl
    · rw [decide_eq_false h, if_neg h]

end

/-! ## The pairs of a row -/

/-- A PLN_PROGRAM names each pair once, by rising column. -/
theorem rowTargets_rise (w : Drawer) {j : PlnJob} (h : isRemap j.bytes = false) :
    (∀ t ∈ rowTargets w j, t.1 < 1036) ∧ (rowTargets w j).Pairwise fun t u => t.1 < u.1 := by
  unfold rowTargets programTargets
  rw [if_neg (by rw [h]; decide)]
  have columns : ∀ t ∈ (List.range 1024).filterMap fun c =>
      if (tabGet none w.colRemap c).isSome then none else some (c, j.target.getD c 0), t.1 < 1024 := fun t ht => by
    obtain ⟨c, hc, e⟩ := List.mem_filterMap.1 ht
    split at e
    · cases e
    · cases e
      exact List.mem_range.1 hc
  have placed {n k : Nat} (f : Nat → Int) : ∀ t ∈ (List.range n).map fun i => (k + i, f i), k ≤ t.1 ∧ t.1 < k + n := fun t ht => by
    obtain ⟨i, hi, rfl⟩ := List.mem_map.1 ht
    have := List.mem_range.1 hi
    exact ⟨Nat.le_add_right k i, Nat.add_lt_add_left this k⟩
  have rising {n k : Nat} (f : Nat → Int) : ((List.range n).map fun i => (k + i, f i)).Pairwise fun t u => t.1 < u.1 :=
    List.pairwise_map.2 (List.pairwise_lt_range.imp fun h => Nat.add_lt_add_left h k)
  refine ⟨fun t ht => ?_, List.pairwise_append.2 ⟨List.pairwise_append.2 ⟨?_, rising _, fun t ht u hu => ?_⟩, rising _, fun t ht u hu => ?_⟩⟩
  · rcases List.mem_append.1 ht with ht | ht
    · rcases List.mem_append.1 ht with ht | ht
      · exact Nat.lt_of_lt_of_le (columns t ht) (by decide)
      · exact Nat.lt_of_lt_of_le (placed _ t ht).2 (by decide)
    · exact (placed _ t ht).2
  · refine List.pairwise_filterMap.2 (List.pairwise_lt_range.imp fun h t ht u hu => ?_)
    split at ht
    · cases ht
    · split at hu
      · cases hu
      · cases ht
        cases hu
        exact h
  · exact Nat.lt_of_lt_of_le (columns t ht) (placed _ u hu).1
  · have := (placed _ u hu).1
    rcases List.mem_append.1 ht with ht | ht
    · have := columns t ht
      omega
    · have := (placed _ t ht).2
      omega

/-- A pulse on a row of a PLN_PROGRAM (R95). -/
theorem pulseCells_cell (w : Drawer) {j : PlnJob} (h : isRemap j.bytes = false) (miss : Tab Int) (r : Nat) {pair n : Nat} (hp : pair < 1036)
    (hn : n < 2) : (pulseCells w j miss).cell r pair n =
      (((rowTargets w j).find? fun t => decide (r = jobRow w j ∧ t.1 = pair ∧ 2 * pair + n ∈ j.outside)).map fun t =>
        nominal t.2 n + tabGet 0 miss (2 * pair + n)).getD ((w.plane j.plane).cell r pair n) := by
  obtain ⟨ht, hd⟩ := rowTargets_rise w h
  exact pulsePairs_cell _ _ miss ht hd _ r hp hn

/-- A pulse leaves the counts of cycles to its command. -/
theorem pulseCells_wear (w : Drawer) (j : PlnJob) (miss : Tab Int) : (pulseCells w j miss).wear = (w.plane j.plane).wear := by
  have hc (t : Nat × Int) (p : Plane) (neg : Nat) : (pulseCell (jobRow w j) j.outside miss t p neg).wear = p.wear := by
    unfold pulseCell
    split
    · rfl
    · rfl
  rw [pulseCells_eq]
  exact foldl_same Plane.wear _ (fun p t => foldl_same Plane.wear _ (hc t) _ p) _ _

end Sys2Proof.Machine

/-!
SUPPORT and the statement on rows (O33): the cycle of a row of PLN_PROGRAM from the end of the bindings to the closing read (R95, R96, R98,
R103, R112), and the watchdog of a row (R113).
-/
namespace Sys2Proof.Machine
set_option Elab.async false
open Sys2Proof.Safety

/-! ## A row that has passed -/

theorem not_remap_of {b : List Byte} (h : dOpcode b = 0x25) : isRemap b = false := by
  unfold isRemap
  rw [h]
  rfl

/-- The remap entry of a row that went to a spare. -/
def spareEntered (j : PlnJob) (s : State) : State :=
  match j.spareRow with
  | some k => modPlane j.drawer j.plane (fun p => { p with rowRemap := tabSet none p.rowRemap j.row (some k) }) s
  | none => s

theorem spareEntered_none {j : PlnJob} (h : j.spareRow = none) (s : State) : spareEntered j s = s := by
  unfold spareEntered
  rw [h]

theorem spareEntered_keeps (j : PlnJob) (s : State) : Keeps 0x10000 s (spareEntered j s) := by
  unfold spareEntered
  split
  · exact modPlane_keeps ..
  · exact .refl s

theorem spareEntered_remap {j : PlnJob} {k : Nat} (h : j.spareRow = some k) (s : State) :
    tabGet none ((drawer (spareEntered j s) j.drawer).plane j.plane).rowRemap j.row = some k := by
  unfold spareEntered
  rw [h]
  dsimp only
  rw [plane_modPlane, tabGet_tabSet_same]

theorem rowDone_next {j : PlnJob} (h : j.row < 1023) (l : Nat) (s : State) :
    rowDone l j s = setLane j.chest l (some (j.startRow (j.row + 1))) (spareEntered j s) := if_pos h

theorem rowDone_last {j : PlnJob} (h : 1023 ≤ j.row) (hr : isRemap j.bytes = false) (l : Nat) (s : State) :
    rowDone l j s = planeReady l j (spareEntered j s) := by
  show (if j.row < 1023 then _ else if (!isRemap j.bytes) = true then _ else _) = _
  rw [if_neg (by omega), hr]
  rfl

/-- A row found unchanged, with another to come. -/
theorem rowPassed_unchanged {j : PlnJob} (hr : isRemap j.bytes = false) (hs : j.spareRow = none) (h : j.row < 1023) (l : Nat) (s : State) :
    rowPassed l false j s =
      setLane j.chest l (some ({ j with unchanged := j.unchanged + 1 }.startRow (j.row + 1))) (bump cPlnUnchanged 1 s) := by
  unfold rowPassed
  rw [hr]
  refine (rowDone_next (j := { j with unchanged := j.unchanged + 1 }) h l _).trans ?_
  exact congrArg (setLane j.chest l _) (spareEntered_none hs _)

/-- A row written, with another to come. -/
theorem rowPassed_written {j : PlnJob} (h : j.row < 1023) (l : Nat) (s : State) : rowPassed l true j s =
    setLane j.chest l (some ({ j with written := j.written + 1 }.startRow (j.row + 1))) (spareEntered j (bump cPlnWritten 1 s)) :=
  rowDone_next (j := { j with written := j.written + 1 }) h l _

/-- The last row written. -/
theorem rowPassed_last {j : PlnJob} (hr : isRemap j.bytes = false) (h : 1023 ≤ j.row) (l : Nat) (s : State) : rowPassed l true j s =
    planeReady l { j with written := j.written + 1 } (spareEntered j (bump cPlnWritten 1 s)) :=
  rowDone_last (j := { j with written := j.written + 1 }) h hr l _

/-- With no step open there is no commit to try again. -/
theorem retryCommit_idle {ctx : Nat} {s : State} (h : (stepCtx s ctx).opened = none) : retryCommit ctx s = s := by
  unfold retryCommit
  rw [h]

/-- After its last row the plane is Ready, and where no step is open in its context the job's completion is all that follows (R98). -/
theorem planeReady_idle {j : PlnJob} {s : State} (h : (stepCtx s j.ref.ctx).opened = none) (l : Nat) : planeReady l j s =
    endJob l j 0 true (modPlane j.drawer j.plane (fun p => { p with st := .ready }) s) :=
  retryCommit_idle ((endJob_closes l j 0 true _).idle _ h)

/-! ## A row that has failed -/

/-- What a row that has failed leaves: its record, and a spare row may not be taken again (R112). -/
def failureNoted (cells : List Nat) (j : PlnJob) (s : State) : State :=
  let x := recordFailure j j.gen cells s
  if 1024 ≤ jobRow (drawer s j.drawer) j then
    modPlane j.drawer j.plane (fun p => { p with rowBad := p.rowBad ++ [jobRow (drawer s j.drawer) j - 1024] }) x
  else x

/-- The job with the failed cells counted. -/
def withFailed (cells : List Nat) (j : PlnJob) : PlnJob := { j with failedCells := j.failedCells + cells.length }

/-- The Drawer with failed cells counted by their columns. -/
def withFailures (cells : List Nat) (w : Drawer) : Drawer :=
  { w with failCol := cells.foldl (fun t k => tabMod 0 t (k / 2) fun n => min 255 (n + 1)) w.failCol }

section
variable {cells : List Nat} {j : PlnJob} {s : State}

theorem recordFailure_counted (gen : Nat) : Counted s (recordFailure j gen cells s) cPlnFails 1 := counted_bump cPlnFails 1 (modDrawer _ _ s)

theorem recordFailure_flagged (gen : Nat) : flagUp (recordFailure j gen cells s) .pln 0 = true := by
  refine (flagUp_setFlag .pln 0 _ .pln 0 (by decide)).trans ?_
  simp

theorem recordFailure_plane (gen p : Nat) : (drawer (recordFailure j gen cells s) j.drawer).plane p = (drawer s j.drawer).plane p := by
  show (drawer (modDrawer j.drawer (withFailures cells) s) j.drawer).plane p = _
  rw [drawer_modDrawer, if_pos rfl]
  rfl

theorem failureNoted_of_record : Keeps 0x10000 (recordFailure j j.gen cells s) (failureNoted cells j s) :=
  .ite (modPlane_keeps ..) (.refl _)

theorem failureNoted_regs : (failureNoted cells j s).regs = s.regs :=
  (failureNoted_of_record.frame .registers rfl).trans ((recordFailure_keeps (F := 0x4000400010002) ..).frame .registers rfl)

theorem failureNoted_spare (h : 1024 ≤ jobRow (drawer s j.drawer) j) :
    jobRow (drawer s j.drawer) j - 1024 ∈ ((drawer (failureNoted cells j s) j.drawer).plane j.plane).rowBad := by
  unfold failureNoted
  dsimp only
  rw [if_pos h, plane_modPlane]
  exact List.mem_append_right _ List.mem_cons_self

theorem failureNoted_plane (h : jobRow (drawer s j.drawer) j < 1024) :
    (drawer (failureNoted cells j s) j.drawer).plane j.plane = (drawer s j.drawer).plane j.plane := by
  unfold failureNoted
  dsimp only
  rw [if_neg (by omega), recordFailure_plane]

/-- What follows the note of a failed row: a spare row is taken, or the job stops. -/
def afterFailure (l : Nat) (j : PlnJob) (s : State) : State :=
  match freeSpareRow ((drawer s j.drawer).plane j.plane) with
  | some k =>
    if regBit s rPlnCtrl 0 && decide (j.tries < bitsOf (reg s rPlnCtrl) 2 1) then
      if j.stopping then stopJob l j stProgramAborted s else takeSpareRow l k j s
    else stopJob l j stProgramFail s
  | none => stopJob l j stProgramFail s

theorem rowFailed_program (hr : isRemap j.bytes = false) (l : Nat) :
    rowFailed l cells j s = afterFailure l (withFailed cells j) (failureNoted cells (withFailed cells j) s) := by
  refine (if_neg ?_).trans rfl
  rw [hr]
  decide

theorem afterFailure_takes {k : Nat} (hk : freeSpareRow ((drawer s j.drawer).plane j.plane) = some k) (hc : regBit s rPlnCtrl 0 = true)
    (ht : j.tries < bitsOf (reg s rPlnCtrl) 2 1) (hs : j.stopping = false) (l : Nat) : afterFailure l j s = takeSpareRow l k j s := by
  unfold afterFailure
  rw [hk, hc, hs, decide_eq_true ht]
  rfl

/-- The job stops, or a module that is not fenced takes a spare row. -/
theorem afterFailure_cases (l : Nat) (j : PlnJob) (s : State) :
    (∃ st, afterFailure l j s = stopJob l j st s) ∨ j.stopping = false ∧ ∃ k, afterFailure l j s = takeSpareRow l k j s := by
  unfold afterFailure
  split
  · split
    · cases hs : j.stopping with
      | true => exact .inl ⟨_, rfl⟩
      | false => exact .inr ⟨rfl, _, rfl⟩
    · exact .inl ⟨_, rfl⟩
  · exact .inl ⟨_, rfl⟩

end

/-! ## A spare row -/

/-- The job goes on with a spare row. -/
def PlnJob.withSpare (j : PlnJob) (k : Nat) : PlnJob :=
  { j with spareRow := some k, tries := j.tries + 1, sparesTaken := j.sparesTaken + 1, cycle := 0, phase := .preRead, outside := [] }

section
variable (l k : Nat) (j : PlnJob) (s : State)

/-- The count, the flag and the entry of a spare row taken. -/
def spareNoted : State :=
  let x := setFlag .pln 4 (bump cPlnRemaps 1 s)
  let e : LogEntry := { source := 1, engine := j.drawer, detail := j.gen + j.row * 2 ^ 32 + k * 2 ^ 42 + j.plane * 2 ^ 48 }
  if regBit x rPlnCtrl 3 then logEntry (e.naming j.ref) x else x

theorem takeSpareRow_eq : takeSpareRow l k j s = setLane j.chest l (some (j.withSpare k)) (spareNoted k j s) := rfl

theorem spareNoted_flags : (spareNoted k j s).flags = (setFlag .pln 4 s).flags := by
  unfold spareNoted
  dsimp only
  split
  · rfl
  · rfl

theorem spareNoted_cnt : (spareNoted k j s).cnt = (bump cPlnRemaps 1 s).cnt := by
  unfold spareNoted
  dsimp only
  split
  · rfl
  · rfl

theorem takeSpareRow_drawer : drawer (takeSpareRow l k j s) = drawer s :=
  drawer_of_keeps (takeSpareRow_keeps (F := 0x4000400020002) ..) rfl

end

/-- What a failed row leaves stays when a spare row is taken or the job stops. -/
theorem afterFailure_leaves {s x : State} {j : PlnJob} (hr : isRemap j.bytes = false) (l : Nat) (hc : Counted s x cPlnFails 1)
    (hf : flagUp x .pln 0 = true) : Counted s (afterFailure l j x) cPlnFails 1 ∧ flagUp (afterFailure l j x) .pln 0 = true
      ∧ ((drawer (afterFailure l j x) j.drawer).plane j.plane).rowBad = ((drawer x j.drawer).plane j.plane).rowBad := by
  rcases afterFailure_cases l j x with ⟨st, h⟩ | ⟨-, k, h⟩
  · rw [h]
    have hk : Keeps 0x1000010078060 x (stopJob l j st x) := stopJob_keeps ..
    refine ⟨counted_of_keeps (b := .pln) hc hk, flagUp_of_keeps hf hk, ?_⟩
    rw [stopJob_plane hr, Plane.stopped_rowBad]
  · rw [h, takeSpareRow_drawer]
    refine ⟨?_, ?_, rfl⟩
    · have e : counter (takeSpareRow l k j x) cPlnFails = counter (bump cPlnRemaps 1 x) cPlnFails := by
        unfold counter
        rw [show (takeSpareRow l k j x).cnt = _ from spareNoted_cnt k j x]
      unfold Counted at hc ⊢
      rw [e, counter_bump_ne _ _ _ _ (by decide)]
      exact hc
    · have e : flagUp (takeSpareRow l k j x) .pln 0 = flagUp (setFlag .pln 4 x) .pln 0 := by
        unfold flagUp flagsOf
        rw [show (takeSpareRow l k j x).flags = _ from spareNoted_flags k j x]
      rw [e, flagUp_setFlag _ _ _ _ _ (by decide), hf]
      rfl

/-! ## The phases of a row -/

/-- The levels of the row's target image, as its pre-read reads them (R95). -/
def levelsRead (j : PlnJob) (s : State) : List Int :=
  (readMem s (plnTargetAddr j.bytes + 1024 * j.row) 1024).map fun b => imageLevel b.toNat

/-- The job with its row's targets. -/
def PlnJob.withTarget (levels : List Int) (j : PlnJob) : PlnJob := { j with target := levels }

/-- The read of a row's targets. -/
def targetsNoted (j : PlnJob) (s : State) : State := noteRead (plnAccess j) (plnTargetAddr j.bytes + 1024 * j.row) 1024 s

theorem targetsNoted_keeps (j : PlnJob) (s : State) : Keeps 0x80008000000442 s (targetsNoted j s) := noteRead_keeps ..

theorem readTargets_program {j : PlnJob} (hr : isRemap j.bytes = false) (hs : j.spareRow = none) (s : State) :
    readTargets j s = (j.withTarget (levelsRead j s), targetsNoted j s) := by
  have hsource : rowSource (drawer s j.drawer) j = some (plnTargetAddr j.bytes + 1024 * j.row, 1024) := by
    unfold rowSource
    rw [hr]
    rfl
  unfold readTargets
  rw [if_neg (by rw [hs]; decide), hsource]
  rfl

section
variable {c : Fin 256} {l : Fin 16} {dev : Tab Int} {j : PlnJob} {s : State}
variable (hl : laneJob s c l = some j)
include hl

theorem bindingEnd_begins (hp : j.phase = .binding) (hb : (drawer s j.drawer).bound j.plane = false) :
    exec (.programBindingEnd c l) s = .next (setLane c l (some { j with phase := .preRead }) s) := by
  show execProgramBindingEnd c l s = _
  unfold execProgramBindingEnd
  rw [inPhase_of_laneJob hl hp]
  dsimp only
  rw [hb]
  rfl

theorem preRead_ends (hr : isRemap j.bytes = false) (hp : j.phase = .preRead) (hs : j.spareRow = none) {levels : List Int}
    (ht : levelsRead j s = levels) : exec (.programPreReadDone c l dev) s =
      if pairsEqual (drawer s j.drawer) (j.withTarget levels) dev && rowChecks (drawer s j.drawer) (j.withTarget levels) dev then
        .next (rowPassed l false (j.withTarget levels) (targetsNoted j s))
      else .next (setLane c l (some { j.withTarget levels with
        phase := .pulse, outside := outsideBand (drawer s j.drawer) (j.withTarget levels) dev }) (targetsNoted j s)) := by
  have hw : drawer (targetsNoted j s) = drawer s := drawer_of_keeps (targetsNoted_keeps j s) rfl
  show execProgramPreReadDone c l dev s = _
  unfold execProgramPreReadDone
  rw [inPhase_of_laneJob hl hp]
  dsimp only
  rw [readTargets_program hr hs, ht]
  dsimp only
  rw [hw]
  rfl

theorem pulse_moves (hp : j.phase = .pulse) : exec (.programPulse c l dev) s =
    .next (setLane c l (some { j with phase := .verify, cycle := j.cycle + 1, largest := max j.largest (j.cycle + 1) })
      (bump cPlnCycles 1 (modPlane j.drawer j.plane (fun _ => { pulseCells (drawer s j.drawer) j dev with
        wear := tabMod 0 (pulseCells (drawer s j.drawer) j dev).wear (jobRow (drawer s j.drawer) j) (· + 1) }) s))) := by
  show execProgramPulse c l dev s = _
  unfold execProgramPulse
  rw [inPhase_of_laneJob hl hp]

/-- A verify read that does not stop its job at the end of the cycle. -/
theorem verify_ends (hr : isRemap j.bytes = false) (hp : j.phase = .verify) {cells : List Nat}
    (hc : outsideBand (drawer s j.drawer) j dev = cells) (hs : j.stopping = false ∨ cells ≠ [] ∧ 32 ≤ j.cycle) :
    exec (.programVerifyRead c l dev) s =
      if cells.isEmpty then .next (setLane c l (some { j with phase := .closing, outside := cells }) s)
      else if 32 ≤ j.cycle then .next (rowFailed l cells { j with outside := cells } s)
      else .next (setLane c l (some { j with phase := .pulse, outside := cells }) s) := by
  have hn : (j.stopping && !(decide (32 ≤ j.cycle) && !cells.isEmpty)) = false := by
    rcases hs with hs | ⟨hc, hy⟩
    · rw [hs]
      rfl
    · rw [decide_eq_true hy, List.isEmpty_eq_false_iff.2 hc]
      exact Bool.and_false _
  show execProgramVerifyRead c l dev s = _
  unfold execProgramVerifyRead
  rw [inPhase_of_laneJob hl hp]
  dsimp only
  rw [hc, hn, hr]
  rfl

theorem closing_passes (hp : j.phase = .closing) (h : rowChecks (drawer s j.drawer) j dev = true) :
    exec (.programClosingRead c l dev) s = .next (rowPassed l true j s) := by
  show execProgramClosingRead c l dev s = _
  unfold execProgramClosingRead
  rw [inPhase_of_laneJob hl hp]
  exact if_pos h

end

/-! ## What each phase completes -/

/-- A count taken after operations that leave the block's counters alone. -/
theorem counted_after {F : Nat} {s x t : State} {b : Block} {off n : Nat} (k : Keeps F s x) (h : Counted x t off n)
    (hb : blockCode off = b.code := by rfl) (hF : F.testBit (48 + b.code) = false := by rfl) : Counted s t off n := by
  unfold Counted counter at h ⊢
  rw [← k.frame (.counters b) hF off hb]
  exact h

section
variable {c : Fin 256} {l : Fin 16} {dev : Tab Int} {j : PlnJob} {s : State}
variable (hl : laneJob s c l = some j) (hr : isRemap j.bytes = false)
include hl hr

theorem row_unchanged (hc : j.chest = c) (hp : j.phase = .preRead) (hs : j.spareRow = none) {levels : List Int} (ht : levelsRead j s = levels)
    (he : pairsEqual (drawer s j.drawer) (j.withTarget levels) dev = true)
    (hk : rowChecks (drawer s j.drawer) (j.withTarget levels) dev = true) (hrow : j.row < 1023) :
    Completes (.programPreReadDone c l dev) s fun t =>
      laneJob t c l = some ({ j.withTarget levels with unchanged := j.unchanged + 1 }.startRow (j.row + 1))
        ∧ Counted s t cPlnUnchanged 1 ∧ t.drawers = s.drawers := by
  refine ⟨_, (preRead_ends hl hr hp hs ht).trans (if_pos (by rw [he, hk]; rfl)), ?_⟩
  have hn := targetsNoted_keeps j s
  rw [rowPassed_unchanged (j := j.withTarget levels) hr hs hrow, show (j.withTarget levels).chest = c from hc]
  exact ⟨laneJob_setLane_same .., counted_after (b := .pln) hn (counted_bump ..), hn.frame .drawers rfl⟩

theorem row_toPulse (hp : j.phase = .preRead) (hs : j.spareRow = none) {levels : List Int} (ht : levelsRead j s = levels)
    (h : pairsEqual (drawer s j.drawer) (j.withTarget levels) dev = false
      ∨ rowChecks (drawer s j.drawer) (j.withTarget levels) dev = false) :
    Completes (.programPreReadDone c l dev) s fun t =>
      laneJob t c l = some { j.withTarget levels with
        phase := .pulse, outside := outsideBand (drawer s j.drawer) (j.withTarget levels) dev } ∧ t.drawers = s.drawers := by
  refine ⟨_, (preRead_ends hl hr hp hs ht).trans (if_neg ?_), laneJob_setLane_same .., (targetsNoted_keeps j s).frame .drawers rfl⟩
  rw [Bool.and_eq_true]
  rintro ⟨he, hk⟩
  rcases h with h | h
  · exact Bool.false_ne_true (h.symm.trans he)
  · exact Bool.false_ne_true (h.symm.trans hk)

theorem row_pulsed (hp : j.phase = .pulse) : Completes (.programPulse c l dev) s fun t =>
    laneJob t c l = some { j with phase := .verify, cycle := j.cycle + 1, largest := max j.largest (j.cycle + 1) }
      ∧ Counted s t cPlnCycles 1
      ∧ tabGet 0 ((drawer t j.drawer).plane j.plane).wear (jobRow (drawer s j.drawer) j)
        = tabGet 0 ((drawer s j.drawer).plane j.plane).wear (jobRow (drawer s j.drawer) j) + 1
      ∧ ∀ row pair neg, pair < 1036 → neg < 2 → ((drawer t j.drawer).plane j.plane).cell row pair neg =
        (((rowTargets (drawer s j.drawer) j).find? fun t =>
          decide (row = jobRow (drawer s j.drawer) j ∧ t.1 = pair ∧ 2 * pair + neg ∈ j.outside)).map fun t =>
            nominal t.2 neg + tabGet 0 dev (2 * pair + neg)).getD (((drawer s j.drawer).plane j.plane).cell row pair neg) := by
  have hplane (f : Plane → Plane) (job : PlnJob) : (drawer (setLane c l (some job) (bump cPlnCycles 1 (modPlane j.drawer j.plane f s)))
      j.drawer).plane j.plane = f ((drawer s j.drawer).plane j.plane) := plane_modPlane ..
  refine ⟨_, pulse_moves hl hp, laneJob_setLane_same .., counted_bump cPlnCycles 1 (modPlane _ _ _ s), ?_, fun row pair neg hq hn => ?_⟩
  · rw [hplane]
    dsimp only
    rw [tabGet_tabMod_same, pulseCells_wear]
  · rw [hplane]
    exact pulseCells_cell _ hr dev row hq hn

theorem row_toClosing (hp : j.phase = .verify) (hs : j.stopping = false) (ho : outsideBand (drawer s j.drawer) j dev = []) :
    Completes (.programVerifyRead c l dev) s fun t =>
      laneJob t c l = some { j with phase := .closing, outside := [] } ∧ t.drawers = s.drawers :=
  ⟨_, verify_ends hl hr hp ho (.inl hs), laneJob_setLane_same .., rfl⟩

section
variable {cells : List Nat} (ho : outsideBand (drawer s j.drawer) j dev = cells) (hne : cells ≠ [])
include ho hne

theorem row_nextPulse (hp : j.phase = .verify) (hs : j.stopping = false) (hy : j.cycle < 32) :
    Completes (.programVerifyRead c l dev) s fun t =>
      laneJob t c l = some { j with phase := .pulse, outside := cells } ∧ t.drawers = s.drawers := by
  refine ⟨_, (verify_ends hl hr hp ho (.inl hs)).trans ?_, laneJob_setLane_same .., rfl⟩
  rw [if_neg (mt List.isEmpty_iff.1 hne), if_neg (by omega)]

/-- The job after the failure of its row, and the state with the failure noted. -/
theorem verify_fails (hp : j.phase = .verify) (hy : 32 ≤ j.cycle) : exec (.programVerifyRead c l dev) s =
    .next (afterFailure l (withFailed cells { j with outside := cells })
      (failureNoted cells (withFailed cells { j with outside := cells }) s)) := by
  refine (verify_ends hl hr hp ho (.inr ⟨hne, hy⟩)).trans ?_
  rw [if_neg (mt List.isEmpty_iff.1 hne), if_pos hy]
  exact congrArg Host.Outcome.next (rowFailed_program (j := { j with outside := cells }) hr l)

end

end

section
variable {c : Fin 256} {l : Fin 16} {j : PlnJob} {s : State}

/-- The failure of a row is counted and flagged, and a spare row that failed may not be taken again. -/
theorem afterFailure_noted (hr : isRemap j.bytes = false) (cells : List Nat) {k : PlnJob}
    (hk : k = withFailed cells { j with outside := cells }) :
    Counted s (afterFailure l k (failureNoted cells k s)) cPlnFails 1 ∧ flagUp (afterFailure l k (failureNoted cells k s)) .pln 0 = true
      ∧ (1024 ≤ jobRow (drawer s j.drawer) j → jobRow (drawer s j.drawer) j - 1024
        ∈ ((drawer (afterFailure l k (failureNoted cells k s)) j.drawer).plane j.plane).rowBad) := by
  have hrow : jobRow (drawer s k.drawer) k = jobRow (drawer s j.drawer) j := by rw [hk]; rfl
  obtain ⟨hcount, hflag, hbad⟩ := afterFailure_leaves (j := k) (x := failureNoted cells k s) (by rw [hk]; exact hr) l
    (counted_of_keeps (b := .pln) (recordFailure_counted k.gen) failureNoted_of_record)
    (flagUp_of_keeps (recordFailure_flagged k.gen) failureNoted_of_record)
  refine ⟨hcount, hflag, fun h => ?_⟩
  have hm := failureNoted_spare (cells := cells) (hrow ▸ h)
  rw [hrow, ← hbad, show k.drawer = j.drawer by rw [hk]; rfl, show k.plane = j.plane by rw [hk]; rfl] at hm
  exact hm

/-- A fenced module takes no spare row: the job leaves its lane. -/
theorem afterFailure_stops (h : j.stopping = true) (x : State) : laneJob (afterFailure l j x) j.chest l = none := by
  rcases afterFailure_cases l j x with ⟨st, e⟩ | ⟨hs, -⟩
  · rw [e]
    exact stopJob_frees ..
  · rw [h] at hs
    cases hs

/-- A row in place that has failed goes on in a free spare row, where the register allows it (R112). -/
theorem afterFailure_goesOn (hc : j.chest = c) {cells : List Nat} {n : Nat} {k : PlnJob}
    (hk : k = withFailed cells { j with outside := cells }) (hs : j.stopping = false) (hrow : jobRow (drawer s j.drawer) j < 1024)
    (hf : freeSpareRow ((drawer s j.drawer).plane j.plane) = some n) (hctl : regBit s rPlnCtrl 0 = true)
    (ht : j.tries < bitsOf (reg s rPlnCtrl) 2 1) :
    laneJob (afterFailure l k (failureNoted cells k s)) c l = some (k.withSpare n) := by
  have hreg : reg (failureNoted cells k s) = reg s := funext fun off => reg_of_regs failureNoted_regs off
  have hjob : jobRow (drawer s k.drawer) k < 1024 := by rw [hk]; exact hrow
  have hfree : freeSpareRow ((drawer (failureNoted cells k s) k.drawer).plane k.plane) = some n := by
    rw [failureNoted_plane hjob, hk]
    exact hf
  have hbit : regBit (failureNoted cells k s) rPlnCtrl 0 = true := by
    unfold regBit
    rw [hreg]
    exact hctl
  rw [afterFailure_takes hfree hbit (by rw [hreg, hk]; exact ht) (by rw [hk]; exact hs), takeSpareRow_eq,
    show k.chest = c by rw [hk]; exact hc]
  exact laneJob_setLane_same ..

end

section
variable {c : Fin 256} {l : Fin 16} {dev : Tab Int} {j : PlnJob} {s : State}
variable (hl : laneJob s c l = some j) (hc : j.chest = c) (hp : j.phase = .closing) (h : rowChecks (drawer s j.drawer) j dev = true)
include hl hc hp h

theorem row_written (hrow : j.row < 1023) : Completes (.programClosingRead c l dev) s fun t =>
    laneJob t c l = some ({ j with written := j.written + 1 }.startRow (j.row + 1)) ∧ Counted s t cPlnWritten 1
      ∧ ∀ k, j.spareRow = some k → tabGet none ((drawer t j.drawer).plane j.plane).rowRemap j.row = some k := by
  refine ⟨_, closing_passes hl hp h, ?_⟩
  rw [rowPassed_written hrow, hc]
  have hk (job : PlnJob) (x : State) : Keeps 0x30000 x (setLane c l (some job) (spareEntered j x)) :=
    ((spareEntered_keeps j x).mono rfl).trans (setLane_keeps ..)
  exact ⟨laneJob_setLane_same .., counted_of_keeps (b := .pln) (counted_bump cPlnWritten 1 s) (hk _ _),
    fun k hk => spareEntered_remap hk _⟩

theorem row_last (hr : isRemap j.bytes = false) (hrow : 1023 ≤ j.row) (hf : (findDesc s j.ref).isSome = true)
    (hi : (stepCtx s j.ref.ctx).opened = none) : Completes (.programClosingRead c l dev) s fun t =>
      laneJob t c l = none ∧ ((drawer t j.drawer).plane j.plane).st = .ready ∧ ∃ tail, Ended s t j.ref 0 tail := by
  have hk : Keeps 0x4000000010000 s (spareEntered j (bump cPlnWritten 1 s)) := (bump_keeps ..).trans ((spareEntered_keeps ..).mono rfl)
  have hx : Keeps 0x4000000010000 s (modPlane j.drawer j.plane (fun p => { p with st := .ready }) (spareEntered j (bump cPlnWritten 1 s))) :=
    hk.trans (modPlane_keeps ..)
  have on : Onward j.ref s (modPlane j.drawer j.plane (fun p => { p with st := .ready }) (spareEntered j (bump cPlnWritten 1 s))) :=
    .of_keeps hx rfl rfl rfl rfl fun e => (hx.frame .errors rfl).1.trans e
  refine ⟨_, closing_passes hl hp h, ?_⟩
  rw [rowPassed_last hr hrow, planeReady_idle (j := { j with written := j.written + 1 })
    (show (stepCtx (spareEntered j (bump cPlnWritten 1 s)) j.ref.ctx).opened = none by rw [stepCtx_of_keeps hk rfl]; exact hi)]
  refine ⟨?_, ?_, _, endJob_ended (j := { j with written := j.written + 1 }) on hf l 0 true⟩
  · rw [← hc]
    exact endJob_frees l { j with written := j.written + 1 } 0 true _
  · rw [endJob_drawer]
    exact congrArg Plane.st (plane_modPlane j.drawer j.plane _ _)

end

/-! ## The watchdog of a row (R113) -/

/-- A change of another context's doorbell page. -/
theorem modDoor_onward {r : DRef} {c : Nat} (hne : r.ctx ≠ c) (f : Door → Door) (s : State) : Onward r s (modDoor c f s) := by
  have hring : ringOf (modDoor c f s) r.ctx r.ring = ringOf s r.ctx r.ring := by
    unfold ringOf
    rw [door_modDoor, if_neg hne]
  have hdesc : findDesc (modDoor c f s) r = findDesc s r := by
    unfold findDesc
    rw [hring]
  exact ⟨rfl, rfl, rfl, congrArg Ring.comp hring, congrArg Ring.sizeLog2 hring, List.suffix_refl _, id,
    fun d hd => ⟨d, hdesc.trans hd, rfl, fun _ => rfl⟩⟩

/-- A reset of the context waits, of its own or with Hutch. -/
def contextResetWaits (s : State) (ctx : Nat) : Bool := (ctx != 0 && hutchDue s) || s.pending.any (resetsContext s ctx)

theorem contextResetWaits_of_due {s : State} {ctx : Nat} (h : contextResetDue s ctx = true) : contextResetWaits s ctx = true := by
  unfold contextResetDue at h
  exact (Bool.and_eq_true_iff.1 h).2

theorem not_contextResetWaits {s : State} {ctx : Nat} (hw : resetWaits s = false) (h : contextResetDue s ctx = false) :
    contextResetWaits s ctx = false := by
  unfold contextResetDue at h
  rw [hw] at h
  exact h

/-- What decides whether a context's reset waits lies outside the doorbell pages. -/
theorem contextResetWaits_doors (s : State) (doors : Tab Door) (ctx : Nat) :
    contextResetWaits { s with doors := doors } ctx = contextResetWaits s ctx := rfl

/-- While other contexts yield theirs to their resets, a descriptor whose context waits for none stays open (Table 14.8). -/
theorem yieldToReset_onward {r : DRef} {s : State} (hw : resetWaits s = false) (hd : contextResetDue s r.ctx = false)
    (hf : (findDesc s r).isSome = true) : Onward r s (yieldToReset s) := by
  have hn := not_contextResetWaits hw hd
  have hstay : (∃ doors, yieldToReset s = { s with doors := doors }) ∧ Onward r s (yieldToReset s) := by
    refine foldl_keeps (fun x => (∃ doors, x = { s with doors := doors }) ∧ Onward r s x) _ ?_ _ s ⟨⟨s.doors, rfl⟩, .refl r s⟩
    rintro x c ⟨⟨doors, hx⟩, on⟩
    split
    · rename_i hdue
      have hne : r.ctx ≠ c := fun e => by
        have hwaits := contextResetWaits_of_due hdue
        rw [← e, hx, contextResetWaits_doors, hn] at hwaits
        cases hwaits
      exact ⟨⟨_, by rw [hx]; rfl⟩, on.trans (modDoor_onward hne _ x) hf⟩
    · exact ⟨⟨doors, hx⟩, on⟩
  exact hstay.2

section
variable {c l : Nat} {j : PlnJob} {s : State}

/-- The firing noted: its time, count, flag and entry. -/
theorem rowWatchdog_noted : Counted s (rowWatchdog c l j s).2 cPlnWdog 1 ∧ flagUp (rowWatchdog c l j s).2 .pln 3 = true := by
  refine ⟨counted_bump cPlnWdog 1 s, (flagUp_setFlag .pln 3 _ .pln 3 (by decide)).trans ?_⟩
  simp

theorem rowWatchdog_first (h : ∀ t, tabGet none (chest s c).laneWdogAt l = some t → t + 60000000000 < s.mod.devTime) :
    (rowWatchdog c l j s).1 = false := by
  unfold rowWatchdog
  dsimp only
  split
  · rename_i t ht
    exact decide_eq_false (Nat.not_le.2 (h t ht))
  · rfl

theorem rowWatchdog_onward (r : DRef) : Onward r s (rowWatchdog c l j s).2 := by
  have hk : Keeps 0x4000400020002 s (rowWatchdog c l j s).2 := rowWatchdog_keeps c l j s
  exact .of_keeps hk rfl rfl rfl rfl fun e => (hk.frame .errors rfl).1.trans e

end

/-- A row in programming for 10 ms, on a lane whose watchdog has not fired within 60 s: the job stops with WATCHDOG. -/
theorem rowWatchdog_stops {c : Fin 256} {l : Fin 16} {j : PlnJob} {s : State} (hl : laneJob s c l = some j) (hc : j.chest = c)
    (hr : isRemap j.bytes = false) (hb : j.phase ≠ .binding) (hk : j.phase ≠ .checkRead) (hf : (findDesc s j.ref).isSome = true)
    (hw : resetWaits s = false) (hd : contextResetDue s j.ref.ctx = false)
    (ht : ∀ t, tabGet none (chest s c).laneWdogAt l = some t → t + 60000000000 < s.mod.devTime) :
    Completes (.programRowWatchdog c l) s fun t =>
      (∃ tail, Ended s t j.ref 0x0C01 tail) ∧ laneJob t c l = none ∧ Counted s t cPlnWdog 1 ∧ flagUp t .pln 3 = true
        ∧ (((drawer s j.drawer).plane j.plane).st = .programming → ((drawer t j.drawer).plane j.plane).st = .failed) := by
  have hin : j.phase.inProgramming = true := by
    cases hp : j.phase with
    | binding => exact absurd hp hb
    | checkRead => exact absurd hp hk
    | preRead | pulse | verify | closing => rfl
  have hnow : (tabGet none (chest s c).laneWdogAt l == some s.mod.devTime) = false := beq_eq_false_iff_ne.2 fun e => by
    have := ht _ e
    omega
  have hy : Keeps 0x40 s (yieldToReset s) := yieldToReset_keeps s
  have hfirst : (rowWatchdog c l j (yieldToReset s)).1 = false := rowWatchdog_first fun t e => by
    rw [chest_of_keeps hy rfl] at e
    rw [hy.time]
    exact ht t e
  have he : exec (.programRowWatchdog c l) s = .next (stopJob l j stWatchdog (rowWatchdog c l j (yieldToReset s)).2) := by
    show execProgramRowWatchdog c l s = _
    unfold execProgramRowWatchdog
    rw [hl]
    dsimp only
    rw [hin, hw, hnow, hfirst]
    rfl
  have on : Onward j.ref s (rowWatchdog c l j (yieldToReset s)).2 := (yieldToReset_onward hw hd hf).trans (rowWatchdog_onward j.ref) hf
  have hx : Keeps 0x4000400020002 (yieldToReset s) (rowWatchdog c l j (yieldToReset s)).2 := rowWatchdog_keeps ..
  have hstop : Keeps 0x1000010078060 (rowWatchdog c l j (yieldToReset s)).2 (stopJob l j stWatchdog (rowWatchdog c l j (yieldToReset s)).2) :=
    stopJob_keeps ..
  obtain ⟨hcount, hflag⟩ := rowWatchdog_noted (c := c) (l := l) (j := j) (s := yieldToReset s)
  refine ⟨_, he, ⟨_, stopJob_ended on hf l stWatchdog⟩, ?_, ?_, flagUp_of_keeps hflag hstop, fun hst => ?_⟩
  · rw [← hc]
    exact stopJob_frees ..
  · exact counted_of_keeps (b := .pln) (counted_after (b := .pln) hy hcount) hstop
  · rw [stopJob_plane hr, drawer_of_keeps hx rfl, drawer_of_keeps hy rfl]
    unfold Plane.stopped
    rw [if_pos hst]

/-- Settles O33: each phase of a row by its lemma, the failure of a row by what is noted of it, and the watchdog. -/
theorem cyclesProgramRows : Obligations.CyclesProgramRows := by
  unfold Obligations.CyclesProgramRows
  refine ⟨?_, fun c l j s hl hc hop hb hk hf hw hd ht => rowWatchdog_stops hl hc (not_remap_of hop) hb hk hf hw hd ht⟩
  rintro c l dev j w s hl hc hop rfl
  have hr := not_remap_of hop
  refine ⟨fun hp hb => ⟨_, bindingEnd_begins hl hp hb, laneJob_setLane_same .., rfl⟩, ?_, ?_, ?_, ?_, ?_⟩
  · rintro k hp hs rfl
    generalize ht : (readMem s (plnTargetAddr j.bytes + 1024 * j.row) 1024).map (fun b => imageLevel b.toNat) = levels
    exact ⟨fun he hk hrow => row_unchanged hl hr hc hp hs ht he hk hrow, fun h => row_toPulse hl hr hp hs ht h⟩
  · intro hp
    obtain ⟨t, he, hlane, hcount, hwear, hcell⟩ := row_pulsed (dev := dev) hl hr hp
    refine ⟨t, he, hlane, hcount, hwear, fun row pair neg hq hn => ?_⟩
    rw [hcell row pair neg hq hn]
    cases (rowTargets (drawer s j.drawer) j).find? fun t =>
      decide (row = jobRow (drawer s j.drawer) j ∧ t.1 = pair ∧ 2 * pair + neg ∈ j.outside) with
    | some t => rfl
    | none => rfl
  · intro hp hs ho hy
    generalize hcells : outsideBand (drawer s j.drawer) j dev = cells at ho
    obtain ⟨hcount, hflag, hbad⟩ := afterFailure_noted (l := l) (s := s) hr cells rfl
    refine ⟨_, verify_fails hl hr hcells ho hp hy, hcount, hflag, ?_, hbad⟩
    rw [← hc]
    exact afterFailure_stops (j := withFailed cells { j with outside := cells }) hs _
  · intro hp hs
    refine ⟨row_toClosing hl hr hp hs, fun ho hy => row_nextPulse hl hr rfl ho hp hs hy, fun ho hy => ?_⟩
    generalize hcells : outsideBand (drawer s j.drawer) j dev = cells at ho
    obtain ⟨hcount, hflag, hbad⟩ := afterFailure_noted (l := l) (s := s) hr cells rfl
    exact ⟨_, verify_fails hl hr hcells ho hp hy, hcount, hflag, hbad, fun k hrow hf hctl ht =>
      ⟨_, afterFailure_goesOn hc rfl hs hrow hf hctl ht, rfl, rfl, rfl, rfl, rfl⟩⟩
  · intro hp h
    exact ⟨row_written hl hc hp h, row_last hl hc hp h hr⟩

end Sys2Proof.Machine

/-!
SUPPORT. The acceptance of a descriptor from outside (R335, R336, R357): what is noted before its engine takes it, and that nothing else of the
ring completes where every header is good.
-/
namespace Sys2Proof.Machine
set_option Elab.async false
open Sys2Proof.Safety

/-! ## Headers of the descriptors that have not started -/

theorem goodHeaders_of_doors {s t : State} {c q : Nat} (h : GoodHeaders s c q) (e : t.doors = s.doors) : GoodHeaders t c q := by
  unfold GoodHeaders
  rw [ringOf_of_doors e]
  exact h

/-- A change of descriptors that keeps their bytes and starts some of them. -/
theorem goodHeaders_modRing {s : State} {c q : Nat} (h : GoodHeaders s c q) (k p : Nat) {g : Desc → Desc}
    (hb : ∀ d, (g d).bytes = d.bytes) (hd : ∀ d, (g d).dispatched = false → d.dispatched = false) :
    GoodHeaders (modRing k p (fun x => { x with opened := x.opened.map g }) s) c q := by
  unfold GoodHeaders
  rw [ringOf_modRing]
  split
  · intro d hm
    obtain ⟨ho, hu⟩ := List.mem_filter.1 hm
    obtain ⟨e, he, rfl⟩ := List.mem_map.1 ho
    rw [hb]
    refine h e (List.mem_filter.2 ⟨he, ?_⟩)
    rw [Bool.not_eq_true'] at hu ⊢
    exact hd e hu
  · exact h

/-- Only a descriptor that has not started is dispatched. -/
theorem dispatchReady_unstarted {s : State} {c q : Nat} {d : Desc} (h : dispatchReady s c q = some d) : d ∈ (ringOf s c q).unstarted := by
  unfold dispatchReady at h
  dsimp only at h
  split at h
  · cases h
  · split at h
    · cases h
    · rename_i hf
      split at h
      · cases h
        exact List.mem_filter.2 ⟨List.mem_of_find?_eq_some hf, List.find?_some (p := fun d : Desc => !d.dispatched) hf⟩
      · cases h

theorem badHeader_good {s : State} {c q : Nat} (h : GoodHeaders s c q) : badHeader s c q = none := by
  unfold badHeader
  split
  · rename_i d hd
    obtain ⟨hop, hctx⟩ := h d (dispatchReady_unstarted hd)
    rw [hop, if_neg (by decide), if_neg (not_not.2 hctx)]
  · rfl

/-- Where every header of the ring is good, nothing completes for its header. -/
theorem settleBad_good {s : State} {c q : Nat} (h : GoodHeaders s c q) : settleBad c q s = s := by
  unfold settleBad
  rw [badHeader_good h]
  rfl

theorem noteErrors_good {s : State} {c q : Nat} (h : GoodHeaders s c q) (acc : Access) (es : List (Nat × Bool)) :
    GoodHeaders (noteErrors acc es s) c q := by
  refine foldl_keeps (fun x => GoodHeaders x c q) _ (fun x e hx => ?_) es s h
  have hn : GoodHeaders (noteError acc e.1 e.2 x) c q :=
    goodHeaders_of_doors hx ((noteError_keeps acc e.1 e.2 x (F := 0x80008000000402)).frame .doors rfl)
  dsimp only
  split
  · refine goodHeaders_modRing hn _ _ (fun d => ?_) (fun d hd => ?_)
    · split
      · rfl
      · rfl
    · split at hd
      · exact hd
      · exact hd
  · exact hn

theorem noteRead_good {s : State} {c q : Nat} (h : GoodHeaders s c q) (acc : Access) (a n : Nat) : GoodHeaders (noteRead acc a n s) c q :=
  noteErrors_good h acc _

/-! ## Substitution -/

theorem applySub_ref (s : State) (o : OpenStep) (a : Accepted) (e : Nat) : (applySub s o a e).ref = a.ref := by
  unfold applySub
  dsimp only
  split <;> rfl

/-- Substitution leaves a descriptor its name. -/
theorem substitute_ref {s : State} {a b : Accepted} (h : substitute s a = .go b) : b.ref = a.ref := by
  unfold substitute at h
  split at h
  · cases h
    rfl
  · rename_i o _
    dsimp only at h
    split at h
    · cases h
      rfl
    · split at h
      · cases h
      · split at h
        · cases h
        · split at h
          · cases h
          · cases h
            exact foldl_same Accepted.ref _ (applySub_ref s o) _ _

/-! ## Acceptance -/

/-- A descriptor dispatched, with the reads of the substitution table and of generations noted. -/
def dispatchNoted (ctx ring : Nat) (d : Desc) (s : State) : State :=
  noteGens ⟨⟨ctx, ring, d.idx⟩, d.bytes, []⟩ (markDispatched ctx ring d.idx (noteTable ⟨ctx, ring, d.idx⟩ s))

theorem dispatchNoted_keeps (ctx ring : Nat) (d : Desc) (s : State) : Keeps 0x80008000000442 s (dispatchNoted ctx ring d s) :=
  ((noteTable_keeps ..).trans (markDispatched_keeps ..)).trans (noteGens_keeps ..)

theorem noteTable_good {s : State} {c q : Nat} (h : GoodHeaders s c q) (r : DRef) : GoodHeaders (noteTable r s) c q := by
  unfold noteTable
  split
  · exact h
  · split
    · exact h
    · exact noteRead_good h _ _ _

theorem noteGens_good {s : State} {c q : Nat} (h : GoodHeaders s c q) (a : Accepted) : GoodHeaders (noteGens a s) c q := by
  unfold noteGens
  split
  · exact h
  · split
    · exact h
    · exact foldl_keeps (fun x => GoodHeaders x c q) _ (fun x e hx => noteRead_good hx _ _ _) _ s h

theorem markDispatched_good {s : State} {c q : Nat} (h : GoodHeaders s c q) (ctx ring idx : Nat) :
    GoodHeaders (markDispatched ctx ring idx s) c q := by
  refine goodHeaders_modRing h ctx ring (fun d => ?_) (fun d hd => ?_)
  · split
    · rfl
    · rfl
  · split at hd
    · cases hd
    · exact hd

theorem dispatchNoted_good {s : State} {c q : Nat} (h : GoodHeaders s c q) (ctx ring : Nat) (d : Desc) :
    GoodHeaders (dispatchNoted ctx ring d s) c q :=
  noteGens_good (markDispatched_good (noteTable_good h _) _ _ _) _

/-- A descriptor that can be dispatched is taken by its engine; then what has come to the front with a bad header completes. -/
theorem dispatchOp_accepts {ctx ring op : Nat} {a : Accepted} {s : State} (h : Dispatches s ctx ring op a) (k : Accepted → State → State) :
    ∃ d, a.ref = ⟨ctx, ring, d.idx⟩ ∧ dispatchOp ctx ring op k s = settleBad ctx ring (k a (dispatchNoted ctx ring d s)) := by
  obtain ⟨d, hd, hs⟩ := h
  refine ⟨d, substitute_ref hs, ?_⟩
  unfold dispatchOp
  rw [hd]
  dsimp only
  rw [hs]
  rfl

/-! ## Checks that a dispatch leaves as they are -/

theorem mapped_of_keeps {F : Nat} {s t : State} (k : Keeps F s t) (h : F.testBit 18 = false) : mapped t = mapped s := by
  funext c d
  unfold mapped mapOf
  rw [(k.frame .maps h).1]

theorem permitted_of_keeps {F : Nat} {s t : State} (k : Keeps F s t) (h : F.testBit 2 = false) : permitted t = permitted s := by
  have hw : window t = window s := by
    funext c w
    unfold window
    rw [reg_of_regs (k.frame .registers h), reg_of_regs (k.frame .registers h)]
  funext c a n rd wr
  unfold permitted
  rw [hw]

end Sys2Proof.Machine

/-!
SUPPORT and the statement on the choice of levels (R91, R92, R118; O31).
-/
namespace Sys2Proof.Machine
set_option Elab.async false
open Sys2Proof.Safety

/-! ## The level of one weight (R91) -/

section
variable {v sigma : XVal} {ref : Option Int}

/-- Without a scale or a master to divide, the weight keeps its reference level. -/
theorem chooseLevel_invalid (h : scaleInvalid sigma = true ∨ v.isFinite = false) : chooseLevel v sigma ref = ⟨ref.getD 0, false, true⟩ := by
  unfold chooseLevel
  refine if_pos ?_
  rcases h with h | h <;> rw [h]
  · rfl
  · exact Bool.or_true _

/-- A reference level near enough to the master is kept. -/
theorem chooseLevel_kept {l : Int} (hs : scaleInvalid sigma = false) (hv : v.isFinite = true)
    (hb : withinBand (v.add ((XVal.ofInt l).mul sigma).negate) sigma = true) : chooseLevel v sigma (some l) = ⟨l, false, false⟩ := by
  unfold chooseLevel
  rw [hs, hv]
  exact if_pos hb

/-- Otherwise the quotient of master and scale is rounded, and held to the range of the levels. -/
theorem chooseLevel_nearest {neg : Bool} {n d : Nat} (hs : scaleInvalid sigma = false) (hv : v.isFinite = true)
    (hb : ∀ l, ref = some l → withinBand (v.add ((XVal.ofInt l).mul sigma).negate) sigma = false) (hq : v.div sigma = .fin neg n d) :
    chooseLevel v sigma ref = ⟨max (-15) (min 15 (roundInt .nearest neg n d)),
      decide (roundInt .nearest neg n d ≠ max (-15) (min 15 (roundInt .nearest neg n d))), false⟩ := by
  unfold chooseLevel
  rw [hs, hv, hq]
  cases ref with
  | none => rfl
  | some l =>
    have far : ¬withinBand (v.add ((XVal.ofInt l).mul sigma).negate) sigma = true := by
      rw [hb l rfl]
      exact Bool.false_ne_true
    exact (if_neg Bool.false_ne_true).trans (if_neg far)

end

/-- A whole number is moved into the range of the levels exactly where it lies outside. -/
theorem ne_held_iff (t : Int) : t ≠ max (-15) (min 15 t) ↔ t < -15 ∨ 15 < t := by omega

theorem levelIsChosenByRule (v sigma : XVal) (ref : Option Int) :
    (scaleInvalid sigma = true ∨ v.isFinite = false → (chooseLevel v sigma ref).level = ref.getD 0) ∧
    (scaleInvalid sigma = false → v.isFinite = true → ∀ l, ref = some l →
      withinBand (v.add ((XVal.ofInt l).mul sigma).negate) sigma = true → (chooseLevel v sigma ref).level = l) ∧
    (scaleInvalid sigma = false → v.isFinite = true →
      (∀ l, ref = some l → withinBand (v.add ((XVal.ofInt l).mul sigma).negate) sigma = false) →
      ∀ neg n d, v.div sigma = .fin neg n d →
        (chooseLevel v sigma ref).level = max (-15) (min 15 (roundInt .nearest neg n d))
        ∧ ((chooseLevel v sigma ref).clamped = true ↔
            roundInt .nearest neg n d < -15 ∨ 15 < roundInt .nearest neg n d)) := by
  refine ⟨fun h => ?_, fun hs hv l hr hb => ?_, fun hs hv hb neg n d hq => ?_⟩
  · rw [chooseLevel_invalid h]
  · rw [hr, chooseLevel_kept hs hv hb]
  · rw [chooseLevel_nearest hs hv hb hq]
    exact ⟨rfl, decide_eq_true_iff.trans (ne_held_iff _)⟩

/-! ## Reading leaves what readers receive -/

theorem noteRead_errs (acc : Access) (a n : Nat) (s : State) : (noteRead acc a n s).mem.errs = s.mem.errs :=
  foldl_same (fun x : State => x.mem.errs) _ (fun x e => by
    have hn := noteError_errs acc e.1 e.2 x
    dsimp only
    split
    · exact hn
    · exact hn) _ s

theorem foldl_noteRead_errs (acc : Access) (f : Nat → Nat) (n : Nat) (l : List Nat) (s : State) :
    (l.foldl (fun s k => noteRead acc (f k) n s) s).mem.errs = s.mem.errs :=
  foldl_same (fun x : State => x.mem.errs) _ (fun s k => noteRead_errs acc (f k) n s) l s

/-- The scales are read, then the reference unless FULL, and last the rows of the masters. -/
theorem noteTargetReads_eq (acc : Access) (b : List Byte) (s : State) :
    noteTargetReads acc b s = (List.range 1024).foldl (fun s r => noteRead acc (tgtMaster b + r * tgtPitch b) 5120 s)
      (if tgtFull b then noteRead acc (tgtScale b) 2048 s
       else noteRead acc (tgtRef b) imageBytes (noteRead acc (tgtScale b) 2048 s)) := rfl

theorem noteTargetReads_errs (acc : Access) (b : List Byte) (s : State) : (noteTargetReads acc b s).mem.errs = s.mem.errs := by
  rw [noteTargetReads_eq, foldl_noteRead_errs acc (fun r => tgtMaster b + r * tgtPitch b)]
  split
  · exact noteRead_errs ..
  · exact (noteRead_errs ..).trans (noteRead_errs ..)

/-- A reader receives the same before and after the target unit's reads are noted. -/
theorem memByte_noteTargetReads (acc : Access) (b : List Byte) (s : State) : memByte (noteTargetReads acc b s).mem = memByte s.mem := by
  have hc : (noteTargetReads acc b s).mem.cells = s.mem.cells := (noteTargetReads_keeps acc b s (F := 0x80008000000442)).frame .memory rfl
  funext a
  unfold memByte uncorrectable
  rw [hc, noteTargetReads_errs]

theorem readNat_of_memByte {s t : State} (h : memByte t.mem = memByte s.mem) (a n : Nat) : readNat t a n = readNat s a n := by
  unfold readNat readMem
  rw [h]

theorem imageValid_of_memByte {s t : State} (h : memByte t.mem = memByte s.mem) (a : Nat) : imageValid t a = imageValid s a := by
  unfold imageValid
  rw [h]

theorem noteTargetReads_onward {r : DRef} {s : State} (acc : Access) (b : List Byte) (h : (findDesc s r).isSome = true) :
    Onward r s (noteTargetReads acc b s) := by
  have hs := noteRead_onward r acc (tgtScale b) 2048 s h
  have rows {x : State} (k : Onward r s x) := k.trans (foldl_onward r
    (fun s k => noteRead acc (tgtMaster b + k * tgtPitch b) 5120 s) (fun s k hd => noteRead_onward r acc _ _ s hd) (List.range 1024) x
    (k.found h)) h
  rw [noteTargetReads_eq]
  split
  · exact rows hs
  · exact rows (hs.trans (noteRead_onward r acc (tgtRef b) imageBytes _ (hs.found h)) h)

/-! ## The target image (R92) -/

/-- The level chosen for the weight of a row and a column of the image. -/
def chosenLevel (s : State) (b : List Byte) (r c : Nat) : Int :=
  (chooseLevel (scalarDecode 11 (readNat s (tgtMaster b + r * tgtPitch b + 5 * c) 5)) (scalarDecode 1 (readNat s (tgtScale b + 2 * c) 2))
    (if tgtFull b then none else some ((lv5Decode (readNat s (tgtRef b + 1024 * r + c) 1)).getD 0))).level

theorem chosenLevel_of_memByte {s t : State} (h : memByte t.mem = memByte s.mem) (b : List Byte) (r c : Nat) :
    chosenLevel t b r c = chosenLevel s b r c := by
  unfold chosenLevel
  rw [readNat_of_memByte h, readNat_of_memByte h, readNat_of_memByte h]

/-- The bytes that the target unit writes. -/
def targetImage (s : State) (b : List Byte) : List Byte :=
  ((List.range 1024).map (chooseRow s b)).flatten.map fun p => levelByte p.1.level

theorem chooseRow_bytes (s : State) (b : List Byte) (r : Nat) :
    (chooseRow s b r).map (fun p => levelByte p.1.level) = (List.range 1024).map fun c => levelByte (chosenLevel s b r c) := List.map_map

theorem targetImage_rows (s : State) (b : List Byte) :
    targetImage s b = (List.range 1024).flatMap fun r => (List.range 1024).map fun c => levelByte (chosenLevel s b r c) := by
  unfold targetImage
  rw [← List.flatMap_def, List.map_flatMap]
  exact congrArg (List.flatMap · _) (funext (chooseRow_bytes s b))

section
variable (f : Nat → Nat → Byte) (n m : Nat)

theorem length_grid : ((List.range n).flatMap fun r => (List.range m).map (f r)).length = m * n := by
  rw [length_elements (e := m) (fun r => by rw [List.length_map, List.length_range]), List.length_range]

/-- Rows of bytes that stand one after another. -/
theorem byteAt_grid {r c : Nat} (hr : r < n) (hc : c < m) :
    byteAt ((List.range n).flatMap fun r => (List.range m).map (f r)) (m * r + c) = f r c := by
  rw [byteAt_elements (e := m) (fun r => by rw [List.length_map, List.length_range]) _ (by rwa [List.length_range]) hc, List.getElem_range]
  exact getD_map_range (f r) 0 hc

/-- Rows of bytes that are written one after another. -/
theorem writeMem_grid (acc : Access) (a : Nat) (s : State) {r c : Nat} (hr : r < n) (hc : c < m) :
    tabGet 0 (writeMem acc a ((List.range n).flatMap fun r => (List.range m).map (f r)) s).mem.cells (a + m * r + c) = f r c := by
  have hi : m * r + c < m * n := by
    calc m * r + c < m * r + m := Nat.add_lt_add_left hc _
      _ = m * (r + 1) := rfl
      _ ≤ m * n := Nat.mul_le_mul_left m hr
  rw [Nat.add_assoc, writeMem_read _ _ _ _ _ (by rwa [length_grid]), byteAt_grid f n m hr hc]

end

/-! ## The target unit (R118) -/

/-- The machine once the target unit has taken a job off its queue and read for it. -/
def targetRead (c : Nat) (j : TargetJob) (js : List TargetJob) (s : State) : State :=
  noteTargetReads ⟨2, c, some j.ref⟩ j.bytes (modChest c (fun h => { h with targets := js }) s)

theorem memByte_targetRead (c : Nat) (j : TargetJob) (js : List TargetJob) (s : State) :
    memByte (targetRead c j js s).mem = memByte s.mem := memByte_noteTargetReads ..

theorem targetRead_onward {c : Nat} {j : TargetJob} {js : List TargetJob} {s : State} (h : (findDesc s j.ref).isSome = true) :
    Onward j.ref s (targetRead c j js s) := by
  have k : Onward j.ref s (modChest c (fun h => { h with targets := js }) s) :=
    .of_keeps (modChest_keeps (F := 0x20000) ..) rfl rfl rfl rfl id
  exact k.trans (noteTargetReads_onward _ _ (k.found h)) h

theorem targetRead_targets (c : Nat) (j : TargetJob) (js : List TargetJob) (s : State) : (chest (targetRead c j js s) c).targets = js := by
  unfold targetRead
  rw [chest_of_keeps (noteTargetReads_keeps (F := 0x80008000000442) ..) rfl, chest_modChest, if_pos rfl]

/-- The oldest job ends: its target image is written, and its descriptor completes. -/
theorem execTargetUnitDone_valid {c : Fin 256} {j : TargetJob} {js : List TargetJob} {s : State} (hq : (chest s c).targets = j :: js)
    (hv : tgtFull j.bytes = true ∨ imageValid s (tgtRef j.bytes) = true) :
    ∃ tail, execTargetUnitDone c s = .next (complete j.ref 0 tail
      (writeMem ⟨2, c, some j.ref⟩ (tgtTarget j.bytes) (targetImage (targetRead c j js s) j.bytes) (targetRead c j js s))) := by
  have hx : ¬(!tgtFull j.bytes && !imageValid (targetRead c j js s) (tgtRef j.bytes)) = true := by
    rw [imageValid_of_memByte (memByte_targetRead c j js s)]
    rcases hv with hv | hv <;> rw [hv]
    · exact Bool.false_ne_true
    · rw [Bool.not_true, Bool.and_false]
      exact Bool.false_ne_true
  unfold execTargetUnitDone
  rw [hq]
  exact ⟨_, if_neg hx⟩

/-- R91, R92: the oldest PLN_TARGET of a Chest ends. -/
theorem targetUnitEnds {c : Fin 256} {j : TargetJob} {js : List TargetJob} {s : State} (hq : (chest s c).targets = j :: js)
    (hf : (findDesc s j.ref).isSome = true) (hv : tgtFull j.bytes = true ∨ imageValid s (tgtRef j.bytes) = true) :
    Completes (.targetUnitDone c) s fun t =>
      (∃ tail, Ended s t j.ref 0 tail) ∧ (chest t c).targets = js
      ∧ ∀ r col, r < 1024 → col < 1024 →
          tabGet 0 t.mem.cells (tgtTarget j.bytes + 1024 * r + col) = levelByte (chosenLevel s j.bytes r col) := by
  obtain ⟨tail, he⟩ := execTargetUnitDone_valid hq hv
  have on := targetRead_onward (c := c) (js := js) hf
  have ht := targetRead_targets c j js s
  have hm := memByte_targetRead c j js s
  generalize targetRead c j js s = x at he on ht hm
  refine ⟨_, he, ⟨tail, complete_ended (on.trans (writeMem_onward ..) hf) hf 0 tail⟩, ?_, fun r col hr hc => ?_⟩
  · rw [chest_of_keeps (complete_keeps (F := 0x1000010048040) ..) rfl, chest_of_keeps (writeMem_keeps (F := 0x80008000000602) ..) rfl]
    exact ht
  · rw [show (complete _ _ _ _).mem.cells = _ from (complete_keeps (F := 0x1000010048040) ..).frame .memory rfl, targetImage_rows,
      writeMem_grid _ _ _ _ _ _ hr hc, chosenLevel_of_memByte hm]

/-- What the target unit does with a PLN_TARGET that passes validation. -/
def queueTarget (a : Accepted) (s : State) : State :=
  modChest (chestOf (plnDrawer a.bytes)) (fun h => { h with targets := h.targets ++ [⟨a.ref, a.bytes⟩] }) s

theorem queueTarget_targets (a : Accepted) (s : State) :
    (chest (queueTarget a s) (chestOf (plnDrawer a.bytes))).targets =
      (chest s (chestOf (plnDrawer a.bytes))).targets ++ [⟨a.ref, a.bytes⟩] := by
  unfold queueTarget
  rw [chest_modChest, if_pos rfl]

theorem execPlnTarget_valid {ctx : Fin 16} {ring : Fin 8} {a : Accepted} {s : State} (h : Dispatches s ctx ring 0x24 a)
    (hs : targetStatus s ctx a.bytes = 0) :
    ∃ d, execPlnTarget ctx ring s = .next (settleBad ctx ring (queueTarget a (dispatchNoted ctx ring d s))) := by
  obtain ⟨d, hr, he⟩ := dispatchOp_accepts h fun a s =>
    let st := targetStatus s a.ref.ctx a.bytes
    if st ≠ 0 then reject a.ref st [] s else queueTarget a s
  refine ⟨d, congrArg Host.Outcome.next (he.trans (congrArg (settleBad ctx ring) (if_neg (not_not.2 ?_))))⟩
  have kd := dispatchNoted_keeps ctx ring d s
  rw [hr, ← hs]
  unfold targetStatus
  rw [mapped_of_keeps kd rfl, permitted_of_keeps kd rfl]

/-- R91, R118: a PLN_TARGET joins its Chest's target unit. -/
theorem targetJoins {ctx : Fin 16} {ring : Fin 8} {a : Accepted} {s : State} (h : Dispatches s ctx ring 0x24 a)
    (hs : targetStatus s ctx a.bytes = 0) :
    Completes (.plnTarget ctx ring) s fun t =>
      (chest t (chestOf (plnDrawer a.bytes))).targets = (chest s (chestOf (plnDrawer a.bytes))).targets ++ [⟨a.ref, a.bytes⟩]
        ∧ (GoodHeaders s ctx ring → t.out = s.out) ∧ t.mem.cells = s.mem.cells := by
  obtain ⟨d, he⟩ := execPlnTarget_valid h hs
  have kd := dispatchNoted_keeps ctx ring d s
  have hg (g : GoodHeaders s ctx ring) := dispatchNoted_good g ctx ring d
  generalize dispatchNoted ctx ring d s = x at he kd hg
  have kq : Keeps 0x20000 x (queueTarget a x) := modChest_keeps ..
  have kb := settleBad_keeps (F := 0x1000010048040) ctx ring (queueTarget a x)
  refine ⟨_, he, ?_, fun g => ?_, ?_⟩
  · rw [chest_of_keeps kb rfl, queueTarget_targets, chest_of_keeps kd rfl]
  · rw [settleBad_good (goodHeaders_of_doors (hg g) (kq.frame .doors rfl))]
    exact (kd.frame .output rfl).1
  · exact (kb.frame .memory rfl).trans ((kq.frame .memory rfl).trans (kd.frame .memory rfl))

/-- Settles O31: the three cases of the choice; a PLN_TARGET that passes its checks joins the queue; the job that ends writes the image row
by row, of what the reads received. -/
theorem targetsAreChosenByRule : Obligations.TargetsAreChosenByRule :=
  ⟨levelIsChosenByRule, fun _ _ _ _ h hs => targetJoins h hs, fun _ _ _ _ hq hf hv => targetUnitEnds hq hf hv⟩

end Sys2Proof.Machine

/-!
The statement on the start of programming descriptors (O32), which fails: it speaks of every state, also of one whose doorbell page lists a
ring twice. Reads take the first entry, but the completions that settle a ring go through every entry. Behind a PLN_PROGRAM stands a descriptor
with a bad header; once that completes, the flush that the second entry holds closes the PLN_PROGRAM, which its Chest has just queued.
-/
namespace Sys2Proof.Machine
set_option Elab.async false
open Sys2Proof.Safety

/-- A PLN_PROGRAM of context 1 for Drawer 5, its target image at the start of HBM. -/
def programBytes : List Byte := fielded 64 [(0, 1, 0x25), (1, 1, 1), (16, 2, 5), (24, 8, 7), (56, 8, 0x10000000000)]

/-- Ring 0 with the program, and behind it a descriptor of no valid opcode. -/
def programRing : Ring :=
  { base := 0x1000, comp := 0x8000, enable := true, tail := 2, fetched := 2,
    opened := [{ idx := 0, bytes := programBytes }, { idx := 1, bytes := zeros 64 }] }

/-- A second entry for the same ring, of which no read takes notice: a descriptor of the same index, and a flush that covers it. -/
def shadowRing : Ring := { opened := [{ idx := 0, bytes := zeros 64 }], flush := [.toEnd stBucketAbort] }

/-- A module in service whose page of context 1 lists ring 0 twice. -/
def shadowState : State :=
  let s := { State.reset with
    mod := { State.reset.mod with st := .ready, pllLocked := true, pwrGood := true }
    maps := [(1, BitVec.allOnes 16384)]
    doors := [(1, { rings := [(0, programRing), (0, shadowRing)] })] }
  setReg (rHifWinLimit 1 0) 0xFFFFFFFFFFFFF000 (setReg (rHifWinBase 1 0) 3 s)

/-- The program as its engine takes it: no step is open, and nothing is substituted. -/
def programAccepted : Accepted := ⟨⟨1, 0, 0⟩, programBytes, []⟩

/-- The program is the next descriptor that the first entry dispatches. -/
theorem shadow_dispatches : Dispatches shadowState 1 0 0x25 programAccepted :=
  ⟨{ idx := 0, bytes := programBytes }, by decide +kernel, by decide +kernel⟩

/-- Its Chest's queue is empty, and it passes its checks. -/
theorem shadow_valid : (chest shadowState (chestOf (plnDrawer programAccepted.bytes))).queue.length < 64
    ∧ programStatus shadowState 1 programAccepted.bytes = 0 := by decide +kernel

/-- The model run on it: the program is open no longer. -/
theorem shadow_lost : nextFails (fun t => (findDesc t programAccepted.ref).isSome) (exec (.plnProgram 1 0) shadowState) = true := by
  decide +kernel

/-- Refutes O32: in `shadowState` a PLN_PROGRAM is accepted with an empty queue and valid fields, and after the command no descriptor of its
name is open. The state is not canonical (its page lists ring 0 twice), and the statement does not ask that it is. -/
theorem not_lanesTakeTheirWork : ¬ Obligations.LanesTakeTheirWork := by
  unfold Obligations.LanesTakeTheirWork
  rintro ⟨h, -⟩
  obtain ⟨hq, hv⟩ := shadow_valid
  refine not_completes _ shadow_lost ?_ ((h (.plnProgram 1 0) 0x25 _ 1 0 programAccepted _ (.inl ⟨rfl, rfl⟩) shadow_dispatches rfl).1 hq hv)
  rintro t ⟨-, -, d, hd, -⟩
  rw [hd]
  rfl

end Sys2Proof.Machine

/-!
SUPPORT. One Dresser instruction that executes: what its unit, memory, the flags and the counters hold after it (R187, R204, R213).
-/
namespace Sys2Proof.Machine
set_option Elab.async false
open Sys2Proof.Safety

/-! ## The run of a unit -/

@[simp] theorem ElemFlags.or_none (a : ElemFlags) : a.or {} = a := by
  unfold ElemFlags.or
  simp only [Bool.or_false]

@[simp] theorem ElemFlags.none_or (a : ElemFlags) : ElemFlags.or {} a = a := rfl

@[simp] theorem addEvents_none (r : DrsRun) : addEvents {} r = r := by
  unfold addEvents
  rw [ElemFlags.or_none]

/-- The run as an instruction computes from it: none of its events is noted yet. -/
def DrsRun.quiet (r : DrsRun) : DrsRun := { r with events := {} }

/-- The run once an instruction has executed on it: its events are added to those before it. -/
def InsnOut.joined (o : InsnOut) (r : DrsRun) : DrsRun :=
  { o.run with
    events := r.events.or o.run.events, permRange := o.run.permRange || o.permLanes != 0, empty := o.run.empty || o.emptied }

theorem InsnOut.joined_events {o : InsnOut} {r x : DrsRun} {fl : ElemFlags} (h : o.run = addEvents fl x.quiet) (hx : x.events = r.events) :
    o.joined r = { addEvents fl x with permRange := x.permRange || o.permLanes != 0, empty := x.empty || o.emptied } := by
  unfold InsnOut.joined
  rw [h, ← hx]
  rfl

/-- An instruction that neither permutes nor reduces. -/
theorem InsnOut.joined_plain {o : InsnOut} {r x : DrsRun} {fl : ElemFlags} (h : o.run = addEvents fl x.quiet) (hx : x.events = r.events)
    (hp : o.permLanes = 0 := by rfl) (he : o.emptied = false := by rfl) : o.joined r = addEvents fl x := by
  rw [o.joined_events h hx, hp, he, Bool.or_false, bne_self_eq_false, Bool.or_false]
  rfl

/-! ## Memory, flags and counters -/

/-- The memory accesses of an instruction. -/
def insnAccesses (u : Nat) (j : DrsJob) (o : InsnOut) (s : State) : State :=
  let acc : Access := ⟨4, u, some j.ref⟩
  o.masters.foldl (fun s m => digestMaster j.ref.ctx m.1 m.2 s)
    (o.writes.foldl (fun s a => writeMem acc a.1 a.2 s) (o.reads.foldl (fun s a => noteRead acc a.1 a.2 s) s))

/-- The counters and flags of an instruction, but for OVERFLOW. -/
def insnNoted (o : InsnOut) (s : State) : State :=
  let s := bump cDrsInstr 1 s
  let s := if o.permLanes ≠ 0 then setFlag .drs 4 (bump cDrsPerm o.permLanes s) else s
  if o.emptied then setFlag .drs 5 (bump cDrsEmpty 1 s) else s

/-- The OVERFLOW flag of an instruction. -/
def overflowNoted (o : InsnOut) (s : State) : State := if o.run.events.overflow then setFlag .drs 3 s else s

/-- What one instruction leaves of the machine, its unit's run apart. -/
def insnApplied (u : Nat) (j : DrsJob) (o : InsnOut) (s : State) : State := overflowNoted o (insnNoted o (insnAccesses u j o s))

section
variable (u : Nat) (j : DrsJob) (o : InsnOut) (s : State)

theorem insnAccesses_keeps : Keeps 0x80008000008642 s (insnAccesses u j o s) := by
  have reads : Keeps 0x80008000008642 s (o.reads.foldl (fun s a => noteRead ⟨4, u, some j.ref⟩ a.1 a.2 s) s) :=
    (Keeps.refl s).foldl (fun _ _ => noteRead_keeps ..) _
  exact (reads.foldl (fun _ _ => writeMem_keeps ..) _).foldl (fun _ _ => digestMaster_keeps ..) _

theorem insnNoted_keeps : Keeps 0x10001000000000 s (insnNoted o s) := by
  have counted : Keeps 0x10001000000000 s (bump cDrsInstr 1 s) := bump_keeps ..
  have permuted := (counted.trans ((bump_keeps cDrsPerm o.permLanes _).trans (setFlag_keeps .drs 4 _))).ite (c := o.permLanes ≠ 0) counted
  exact (permuted.trans ((bump_keeps cDrsEmpty 1 _).trans (setFlag_keeps .drs 5 _))).ite permuted

theorem overflowNoted_keeps : Keeps 0x1000000000 s (overflowNoted o s) := (setFlag_keeps .drs 3 s).ite (.refl s)

theorem insnNoted_counter {off : Nat} (h : off ≠ cDrsPerm) (h' : off ≠ cDrsEmpty) :
    counter (insnNoted o s) off = counter (bump cDrsInstr 1 s) off := by
  have permuted : counter (if o.permLanes ≠ 0 then setFlag .drs 4 (bump cDrsPerm o.permLanes (bump cDrsInstr 1 s)) else bump cDrsInstr 1 s) off
      = counter (bump cDrsInstr 1 s) off := by
    split
    · exact counter_bump_ne _ _ _ _ h
    · rfl
  unfold insnNoted
  dsimp only
  split
  · exact (counter_bump_ne _ _ _ _ h').trans permuted
  · exact permuted

theorem insnNoted_permuted : Counted s (insnNoted o s) cDrsPerm o.permLanes := by
  have permuted : Counted s (if o.permLanes ≠ 0 then setFlag .drs 4 (bump cDrsPerm o.permLanes (bump cDrsInstr 1 s)) else bump cDrsInstr 1 s)
      cDrsPerm o.permLanes := by
    have hi : counter (bump cDrsInstr 1 s) cDrsPerm = counter s cDrsPerm := counter_bump_ne _ _ _ _ (by decide)
    split
    · have h : Counted (bump cDrsInstr 1 s) (bump cDrsPerm o.permLanes (bump cDrsInstr 1 s)) cDrsPerm o.permLanes := counted_bump ..
      unfold Counted at h ⊢
      rw [← hi]
      exact h
    · rename_i h
      unfold Counted
      rw [hi, not_not.mp h, Nat.add_zero, Nat.mod_eq_of_lt]
      exact (tabGet 0 s.cnt cDrsPerm).isLt
  have he (x : State) : counter (setFlag .drs 5 (bump cDrsEmpty 1 x)) cDrsPerm = counter x cDrsPerm := counter_bump_ne _ _ _ _ (by decide)
  unfold insnNoted
  dsimp only
  split
  · unfold Counted at permuted ⊢
    rw [he, permuted]
  · exact permuted

theorem flagUp_setFlag_other {i k : Nat} {x : State} (h : flagUp x .drs k = true) (hk : k < 32) : flagUp (setFlag .drs i x) .drs k = true := by
  rw [flagUp_setFlag _ _ _ _ _ hk, h, Bool.true_or]

theorem flagUp_setFlag_self (b : Block) (x : State) {k : Nat} (hk : k < 32) : flagUp (setFlag b k x) b k = true := by
  rw [flagUp_setFlag _ _ _ _ _ hk]
  simp

theorem insnNoted_ranged (h : o.permLanes ≠ 0) : flagUp (insnNoted o s) .drs 4 = true := by
  unfold insnNoted
  dsimp only
  rw [if_pos h]
  split
  · exact flagUp_setFlag_other (flagUp_setFlag_self .drs _ (by decide)) (by decide)
  · exact flagUp_setFlag_self .drs _ (by decide)

theorem insnNoted_emptied (h : o.emptied = true) : flagUp (insnNoted o s) .drs 5 = true := by
  unfold insnNoted
  dsimp only
  rw [if_pos h]
  exact flagUp_setFlag_self .drs _ (by decide)

theorem overflowNoted_flag {i : Nat} {x : State} (h : flagUp x .drs i = true) (hi : i < 32) : flagUp (overflowNoted o x) .drs i = true := by
  unfold overflowNoted
  split
  · exact flagUp_setFlag_other h hi
  · exact h

/-- What follows its accesses leaves everything but the unit's flags and counters. -/
theorem insnApplied_follows : Keeps 0x10001000000000 (insnAccesses u j o s) (insnApplied u j o s) :=
  (insnNoted_keeps o _).trans ((overflowNoted_keeps o _).mono rfl)

theorem insnApplied_mem : (insnApplied u j o s).mem = (insnAccesses u j o s).mem := mem_of_keeps ((insnApplied_follows u j o s).mono rfl)

theorem digests_mem (c : Nat) (ms : List (Nat × Nat)) : (ms.foldl (fun s m => digestMaster c m.1 m.2 s) s).mem = s.mem :=
  foldl_same (fun x : State => x.mem) _ (fun x m => mem_of_keeps (digestMaster_keeps c m.1 m.2 x)) ms s

theorem insnAccesses_cells :
    (insnAccesses u j o s).mem.cells = o.writes.foldl (fun m a => memStore m a.1 a.2) s.mem.cells := by
  have reads : (o.reads.foldl (fun s a => noteRead ⟨4, u, some j.ref⟩ a.1 a.2 s) s).mem.cells = s.mem.cells :=
    (Keeps.foldl (F := 0x80008000000442) (.refl s) (fun _ _ => noteRead_keeps ..) _).frame .memory rfl
  have writes (ws : List (Nat × List Byte)) (x : State) :
      (ws.foldl (fun s a => writeMem ⟨4, u, some j.ref⟩ a.1 a.2 s) x).mem.cells = ws.foldl (fun m a => memStore m a.1 a.2) x.mem.cells := by
    induction ws generalizing x with
    | nil => rfl
    | cons w ws ih => rw [List.foldl_cons, List.foldl_cons, ih, writeMem_cells]
  unfold insnAccesses
  dsimp only
  rw [digests_mem, writes, reads]

theorem insnAccesses_none (hr : o.reads = []) (hw : o.writes = []) : (insnAccesses u j o s).mem = s.mem := by
  unfold insnAccesses
  dsimp only
  rw [digests_mem, hr, hw]
  rfl

end

/-! ## One instruction -/

/-- From `s` to `t` unit `u`, its run `r`, has executed an instruction with the outcome `o`. -/
structure Did (s t : State) (u : Nat) (r : DrsRun) (o : InsnOut) : Prop where
  executed : Executed s t u (o.joined r) (r.pc + 1)
  cells : t.mem.cells = o.writes.foldl (fun m a => memStore m a.1 a.2) s.mem.cells
  untouched : o.reads = [] → o.writes = [] → t.mem = s.mem
  out : t.out = s.out
  overflow : o.run.events.overflow = true → flagUp t .drs 3 = true
  permuted : Counted s t cDrsPerm o.permLanes
  ranged : o.permLanes ≠ 0 → flagUp t .drs 4 = true
  emptied : o.emptied = true → flagUp t .drs 5 = true

theorem drsUnit_modDrs (u : Nat) (f : DrsUnit → DrsUnit) (s : State) (k : Nat) :
    drsUnit (modDrs u f s) k = if k = u then f (drsUnit s k) else drsUnit s k := drs_modDrs u f s k

theorem drsUnit_of_keeps {F : Nat} {s t : State} (k : Keeps F s t) (h : F.testBit 14 = false) : drsUnit t = drsUnit s := by
  funext u
  unfold drsUnit
  rw [show t.drs = s.drs from k.frame .dresser h]

/-- The run after an instruction of run `r`, where the program goes on. -/
def DrsRun.goneOn (r x : DrsRun) : DrsRun := { x with executed := r.executed + 1, lastIdx := r.pc, pc := r.pc + 1 }

theorem Did.run_events {s t : State} {u : Nat} {r x : DrsRun} {o : InsnOut} {fl : ElemFlags} (d : Did s t u r o)
    (h : o.run = addEvents fl x.quiet) (hx : x.events = r.events := by rfl) (hp : o.permLanes = 0 := by rfl)
    (he : o.emptied = false := by rfl) : Executed s t u (addEvents fl x) (r.pc + 1) := o.joined_plain h hx hp he ▸ d.executed

theorem Did.run_quiet {s t : State} {u : Nat} {r x : DrsRun} {o : InsnOut} (d : Did s t u r o)
    (h : o.run = x.quiet) (hx : x.events = r.events := by rfl) (hp : o.permLanes = 0 := by rfl)
    (he : o.emptied = false := by rfl) : Executed s t u x (r.pc + 1) := addEvents_none x ▸ d.run_events (fl := {}) h hx hp he

theorem Did.run_permuted {s t : State} {u : Nat} {r x : DrsRun} {o : InsnOut} (d : Did s t u r o)
    (h : o.run = x.quiet) (hx : x.events = r.events := by rfl) (he : o.emptied = false := by rfl) :
    Executed s t u { x with permRange := x.permRange || o.permLanes != 0 } (r.pc + 1) := by
  have e := o.joined_events (fl := {}) h hx
  rw [addEvents_none, he, Bool.or_false] at e
  exact e ▸ d.executed

theorem Did.run_reduced {s t : State} {u : Nat} {r x : DrsRun} {o : InsnOut} {fl : ElemFlags} (d : Did s t u r o)
    (h : o.run = addEvents fl x.quiet) (hx : x.events = r.events := by rfl) (hp : o.permLanes = 0 := by rfl) :
    Executed s t u { addEvents fl x with empty := x.empty || o.emptied } (r.pc + 1) := by
  have e := o.joined_events h hx
  rw [hp, bne_self_eq_false, Bool.or_false] at e
  exact e ▸ d.executed

section
variable {s : State} {u op : Nat} {j : DrsJob} {w : DWord} {r : DrsRun} {body : InsnCtx → DrsRun → InsnOut} {o : InsnOut}

/-- An instruction that neither faults nor branches. -/
theorem drsStep_eq (hr : r = (drsUnit s u).run) (h : Issues s u op j w) (hb : body ⟨s, u, j.ref, w⟩ r.quiet = o) (hf : o.fault = none)
    (ht : o.target = none) :
    drsStep op u body s = modDrs u (fun n => { n with run := r.goneOn (o.joined r) }) (insnApplied u j o s) := by
  obtain ⟨hn, hop, hpc⟩ := h
  subst hr hb
  generalize ho : body ⟨s, u, j.ref, w⟩ (drsUnit s u).run.quiet = o at hf ht
  unfold drsStep
  rw [hn]
  dsimp -zeta only
  rw [if_neg (not_not.mpr hop)]
  extract_lets r o'
  have e : o' = o := ho
  clear_value o'
  subst e
  cases o'
  cases hf
  cases ht
  exact if_neg (Nat.not_le.mpr hpc)

theorem drsStep_did (hr : r = (drsUnit s u).run) (h : Issues s u op j w) (hb : body ⟨s, u, j.ref, w⟩ r.quiet = o) (hf : o.fault = none)
    (ht : o.target = none) : Did s (drsStep op u body s) u r o := by
  rw [drsStep_eq hr h hb hf ht]
  have accesses := insnAccesses_keeps u j o s
  have noted := insnNoted_keeps o (insnAccesses u j o s)
  have follows := insnApplied_follows u j o s
  have unit : drsUnit (insnApplied u j o s) = drsUnit s := (drsUnit_of_keeps follows rfl).trans (drsUnit_of_keeps accesses rfl)
  have run : Keeps 0x4000 (insnApplied u j o s) (modDrs u (fun n => { n with run := r.goneOn (o.joined r) }) (insnApplied u j o s)) :=
    modDrs_keeps ..
  have flags : Keeps 0x1000004000 (insnNoted o (insnAccesses u j o s)) _ := ((overflowNoted_keeps o _).mono rfl).trans (run.mono rfl)
  have mem := (mem_of_keeps (run.mono rfl)).trans (insnApplied_mem u j o s)
  refine ⟨⟨?_, fun v hv => ?_, ?_⟩, ?_, fun h1 h2 => ?_, ?_, fun ho => ?_, ?_, fun hp => ?_, fun he => ?_⟩
  · rw [drsUnit_modDrs, if_pos rfl, unit, ← hr]
    rfl
  · rw [drsUnit_modDrs, if_neg hv, unit]
  · refine counted_of_keeps (counted_after (b := .drs) accesses ?_) flags (b := .drs)
    unfold Counted
    rw [insnNoted_counter _ _ (by decide) (by decide)]
    exact counted_bump ..
  · rw [mem, insnAccesses_cells]
  · rw [mem, insnAccesses_none _ _ _ _ h1 h2]
  · exact (run.frame .output rfl).1.trans ((follows.frame .output rfl).1.trans (accesses.frame .output rfl).1)
  · refine flagUp_of_keeps ?_ run
    unfold insnApplied overflowNoted
    rw [if_pos ho]
    exact flagUp_setFlag_self .drs _ (by decide)
  · exact counted_of_keeps (counted_after (b := .drs) accesses (insnNoted_permuted o _)) flags (b := .drs)
  · exact flagUp_of_keeps (overflowNoted_flag o (insnNoted_ranged o _ hp) (by decide)) run
  · exact flagUp_of_keeps (overflowNoted_flag o (insnNoted_emptied o _ he) (by decide)) run

/-- The command of an instruction that neither faults nor branches. -/
theorem insn_completes {c : Instr} (hc : exec c s = .next (drsStep op u body s)) (hr : r = (drsUnit s u).run) (h : Issues s u op j w)
    (hb : body ⟨s, u, j.ref, w⟩ r.quiet = o) (hf : o.fault = none := by rfl) (ht : o.target = none := by rfl) :
    Completes c s fun t => Did s t u r o := ⟨_, hc, drsStep_did hr h hb hf ht⟩

end

end Sys2Proof.Machine

/-!
SUPPORT and the statement on masks and permutations (O38): what the destinations of an instruction hold (R182), the mask instructions and
TCMP, permutations, TCOMPRESS and TEXPAND (R149, R198, R199).
-/
namespace Sys2Proof.Machine
set_option Elab.async false
open Sys2Proof.Safety

/-! ## Destinations (R182) -/

theorem lane_mergeLanes (w : DWord) (old : List Word) (sel : Nat → Bool) (f : Nat → Word) {i : Nat} (hi : i < 256) :
    lane (mergeLanes w old sel f) i = if sel i then f i else if wZero w then 0 else lane old i := getD_map_range _ _ hi

theorem lanes_mergeLanes (r : DrsRun) (w : DWord) (old : List Word) (f : Nat → Word) :
    Lanes r w old (mergeLanes w old (active r w) f) f := fun _ hi => lane_mergeLanes _ _ _ _ hi

theorem getLsbD_shifted_one (n : Nat) {i : Nat} (hi : i < 256) : ((1 : BitVec 256) <<< n).getLsbD i = decide (i = n) := by
  rw [BitVec.getLsbD_shiftLeft]
  rcases Nat.lt_trichotomy i n with h | rfl | h
  · simp [h, Nat.ne_of_lt h]
  · simp [hi]
  · simp [Nat.ne_of_gt h, Nat.sub_ne_zero_of_lt h]

/-- Bits set one after another below a bound. -/
theorem getLsbD_foldl_set (p : Nat → Bool) (n : Nat) {i : Nat} (hi : i < 256) :
    ((List.range n).foldl (fun m k => if p k then m ||| (1 : BitVec 256) <<< k else m) 0).getLsbD i = (decide (i < n) && p i) := by
  induction n with
  | zero => exact BitVec.getLsbD_zero
  | succ n ih =>
    have set (m : BitVec 256) : (if p n then m ||| (1 : BitVec 256) <<< n else m).getLsbD i = (m.getLsbD i || decide (i = n) && p n) := by
      cases p n
      · simp
      · rw [if_pos rfl, BitVec.getLsbD_or, getLsbD_shifted_one n hi, Bool.and_true]
    rw [List.range_succ, List.foldl_append, List.foldl_cons, List.foldl_nil, set, ih]
    by_cases hn : i = n
    · subst hn
      simp
    · have hs : decide (i < n + 1) = decide (i < n) := decide_eq_decide.mpr (by omega)
      rw [hs, decide_eq_false hn, Bool.false_and, Bool.or_false]

theorem bits_mergeBits (r : DrsRun) (w : DWord) (old : BitVec 256) (f : Nat → Bool) :
    Bits r w old (mergeBits w old (active r w) f) f := fun i hi => by
  unfold mergeBits
  rw [getLsbD_foldl_set _ _ hi]
  simp [hi]

/-! ## Elements of one lane (R183) -/

/-- In a format of one element to a lane the element is the lane. -/
theorem subOf_whole (v : Word) : subOf 1 0 v = v.toNat := by
  unfold subOf
  rw [Nat.div_one, Nat.mul_zero, Nat.pow_zero, Nat.div_one]
  exact Nat.mod_eq_of_lt v.isLt

theorem elemVal_whole {c : InsnCtx} (h : subCount (wFmt c.w) = 1) (t : List Word) (i : Nat) :
    elemVal c t i 0 = scalarDecode (wFmt c.w) (lane t i).toNat := by
  unfold elemVal
  rw [h, subOf_whole]

/-! ## Masks -/

section
variable {c : Instr} {op : Nat} {u : Fin 64} {j : DrsJob} {w : DWord} {r : DrsRun} {s : State} {body : InsnCtx → DrsRun → InsnOut}
variable (hr : r = (drsUnit s u).run) (h : Issues s u op j w) (hc : exec c s = .next (drsStep op u body s))
include hr h hc

theorem mask_written {f : Nat → Bool}
    (hb : body ⟨s, u, j.ref, w⟩ r.quiet = { run := setM (wD w) (mergeBits w (rM r (wD w)) (active r w) f) r.quiet }) :
    Completes c s fun t =>
      ∃ m, Executed s t u (setM (wD w) m r) (r.pc + 1) ∧ Bits r w (rM r (wD w)) m f ∧ t.mem = s.mem ∧ t.out = s.out := by
  obtain ⟨t, he, did⟩ := insn_completes hc hr h hb
  exact ⟨t, he, _, did.run_quiet (x := setM (wD w) (mergeBits w (rM r (wD w)) (active r w) f) r) rfl, bits_mergeBits r w _ f, did.untouched rfl rfl, did.out⟩


/-! ## Permutations, compress and expand (R149, R198, R199) -/

/-- A permutation that reads lane `src i` for lane i. -/
theorem lanes_permuted {src : Nat → Nat} {n : Nat}
    (hn : n = ((List.range 256).filter fun i => active r w i && decide (r.vl ≤ src i)).length)
    (hb : body ⟨s, u, j.ref, w⟩ r.quiet =
      { run := setT (wD w) (mergeLanes w (rT r (wD w)) (active r w) fun i => if src i < r.vl then lane (rT r (wA w)) (src i) else 0) r.quiet
        permLanes := n }) :
    Completes c s fun t =>
      ∃ x p, Executed s t u { setT (wD w) x r with permRange := r.permRange || p } (r.pc + 1)
        ∧ Lanes r w (rT r (wD w)) x (fun i => if src i < r.vl then lane (rT r (wA w)) (src i) else 0)
        ∧ (p = true ↔ ∃ i, i < 256 ∧ active r w i = true ∧ r.vl ≤ src i) ∧ (p = true → flagUp t .drs 4 = true)
        ∧ Counted s t cDrsPerm ((List.range 256).filter fun i => active r w i && decide (r.vl ≤ src i)).length
        ∧ t.mem = s.mem ∧ t.out = s.out := by
  obtain ⟨t, he, did⟩ := insn_completes hc hr h hb
  refine ⟨t, he, _, n != 0, did.run_permuted (x := setT (wD w) _ r) rfl, lanes_mergeLanes r w _ _, ?_, fun hp => did.ranged (bne_iff_ne.mp hp), hn ▸ did.permuted,
    did.untouched rfl rfl, did.out⟩
  rw [bne_iff_ne, hn, Ne, List.length_eq_zero_iff, List.filter_eq_nil_iff]
  simp

end

/-- The lanes listed come first, in their order, with zeros behind them. -/
theorem lane_compressed (a : List Word) (ls : List Nat) (i : Nat) :
    lane (ls.map (lane a) ++ List.replicate (256 - ls.length) 0) i = if i < ls.length then lane a (ls.getD i 0) else 0 := by
  conv_lhs => unfold lane
  split
  · rename_i hl
    rw [List.getD_append _ _ _ _ (by rwa [List.length_map]), List.getD_eq_getElem _ _ (by rwa [List.length_map]), List.getElem_map,
      List.getD_eq_getElem _ _ hl]
    rfl
  · rename_i hl
    rw [List.getD_append_right _ _ _ _ (by rw [List.length_map]; omega), List.getD_eq_getElem?_getD,
      List.getElem?_getD_replicate_default_eq]

/-- The lanes counted by a permutation. -/
theorem permLanes_eq (r : DrsRun) (w : DWord) (src : Nat → Nat) :
    ((activeLanes r w).filter fun i => decide (r.vl ≤ src i)) = (List.range 256).filter fun i => active r w i && decide (r.vl ≤ src i) := by
  unfold activeLanes
  rw [List.filter_filter]
  exact List.filter_congr fun i _ => Bool.and_comm ..

section
variable {u : Fin 64} {j : DrsJob} {w : DWord} {r : DrsRun} {s : State}
variable (hr : r = (drsUnit s u).run)
include hr

/-- TCOMPRESS. -/
theorem lanes_compressed (h : Issues s u 0x6B j w) : Completes (.drsTcompress u) s fun t =>
    ∃ x, Executed s t u (setS (wB w) (BitVec.ofNat 64 (maskedLanes r w).length) (setT (wD w) x r)) (r.pc + 1)
      ∧ (∀ i, i < 256 → lane x i = if i < (maskedLanes r w).length then lane (rT r (wA w)) ((maskedLanes r w).getD i 0) else 0)
      ∧ t.mem = s.mem := by
  obtain ⟨t, he, did⟩ := insn_completes (c := .drsTcompress u) rfl hr h rfl
  exact ⟨t, he, _, did.run_quiet (x := setS (wB w) _ (setT (wD w) _ r)) rfl, fun i _ => lane_compressed _ _ i, did.untouched rfl rfl⟩

/-- TEXPAND. -/
theorem lanes_expanded (h : Issues s u 0x6C j w) : Completes (.drsTexpand u) s fun t =>
    ∃ x, Executed s t u (setT (wD w) x r) (r.pc + 1) ∧ t.mem = s.mem
      ∧ (∀ k, k < (maskedLanes r w).length → lane x ((maskedLanes r w).getD k 0) = lane (rT r (wA w)) k)
      ∧ (∀ i, i < 256 → i ∉ maskedLanes r w → lane x i = if wZero w then 0 else lane (rT r (wD w)) i) := by
  obtain ⟨t, he, did⟩ := insn_completes (c := .drsTexpand u) rfl hr h rfl
  refine ⟨t, he, _, did.run_quiet (x := setT (wD w) _ r) rfl, did.untouched rfl rfl, fun k hk => ?_, fun i hi hn => ?_⟩
  · have hm : (maskedLanes r w).getD k 0 ∈ maskedLanes r w := by
      rw [List.getD_eq_getElem _ _ hk]
      exact List.getElem_mem hk
    have hlt : (maskedLanes r w).getD k 0 < 256 := List.mem_range.mp (List.mem_filter.mp hm).1
    refine (lane_mergeLanes _ _ _ _ hlt).trans ((if_pos (List.contains_iff_mem.mpr hm)).trans (congrArg _ ?_))
    rw [List.getD_eq_getElem _ _ hk]
    exact (List.nodup_range.filter _).idxOf_getElem _ hk
  · exact (lane_mergeLanes _ _ _ _ hi).trans (if_neg fun hm => hn (List.contains_iff_mem.mp hm))

end

/-- Settles O38: the mask instructions by what they write of M[D], the permutations by the lane that each lane names, TCOMPRESS and TEXPAND by
the masked lanes. -/
theorem masksAndPermutations : Obligations.MasksAndPermutations := by
  unfold Obligations.MasksAndPermutations
  constructor
  · rintro c op f u j w r s hr ho h
    rcases ho with ⟨rfl, rfl, rfl⟩ | ⟨rfl, rfl, rfl⟩ | ⟨rfl, rfl, rfl⟩ | ⟨rfl, rfl, rfl⟩ | ⟨rfl, rfl, rfl⟩ | ⟨rfl, rfl, rfl, hq⟩
    · exact mask_written hr h rfl rfl
    · exact mask_written hr h rfl rfl
    · exact mask_written hr h rfl rfl
    · exact mask_written hr h rfl rfl
    · exact mask_written hr h rfl rfl
    · refine mask_written hr h rfl ?_
      simp only [← elemVal_whole (c := ⟨s, u, j.ref, w⟩) hq]
      rfl
  · rintro u j w r s hr
    refine ⟨?_, ?_⟩
    · rintro c op src ho h
      have hn := congrArg List.length (permLanes_eq r w src)
      rcases ho with ⟨rfl, rfl, rfl⟩ | ⟨rfl, rfl, rfl⟩ | ⟨rfl, rfl, rfl⟩
      · exact lanes_permuted hr h rfl hn rfl
      · exact lanes_permuted hr h rfl hn rfl
      · exact lanes_permuted hr h rfl hn rfl
    · rintro ls rfl
      exact ⟨lanes_compressed hr, lanes_expanded hr⟩

end Sys2Proof.Machine

/-!
The statement on rounded lanes (O40): an instruction whose elements carry events, one to a sub-element of each active lane, and the M40
results in a pair of tiles (R125, R142, R183, R188 to R191).
-/
namespace Sys2Proof.Machine
set_option Elab.async false
open Sys2Proof.Safety

/-! ## Events of a set of elements -/

theorem overflow_foldl_or {α : Type} (f : α → ElemFlags) (l : List α) (a : ElemFlags) :
    (l.foldl (fun a x => a.or (f x)) a).overflow = (a.overflow || l.any fun x => (f x).overflow) := by
  induction l generalizing a with
  | nil => rw [List.any_nil, Bool.or_false]; rfl
  | cons x l ih =>
    rw [List.foldl_cons, ih, List.any_cons, ← Bool.or_assoc]
    rfl

/-- The events of the sub-elements of the active lanes. -/
def codedFlags (q : Nat) (e : Nat → Nat → Coded) (r : DrsRun) (w : DWord) : ElemFlags :=
  (activeLanes r w).foldl (fun a i => (List.range q).foldl (fun a p => a.or (e i p).flags) a) {}

theorem mem_activeLanes {r : DrsRun} {w : DWord} {i : Nat} : i ∈ activeLanes r w ↔ i < 256 ∧ active r w i = true := by
  unfold activeLanes
  rw [List.mem_filter, List.mem_range]

theorem codedFlags_overflow (q : Nat) (e : Nat → Nat → Coded) (r : DrsRun) (w : DWord) :
    (codedFlags q e r w).overflow = true ↔ ∃ i p, i < 256 ∧ active r w i = true ∧ p < q ∧ (e i p).flags.overflow = true := by
  have rows (ls : List Nat) (a : ElemFlags) :
      (ls.foldl (fun a i => (List.range q).foldl (fun a p => a.or (e i p).flags) a) a).overflow =
        (a.overflow || ls.any fun i => (List.range q).any fun p => (e i p).flags.overflow) := by
    induction ls generalizing a with
    | nil => rw [List.any_nil, Bool.or_false]; rfl
    | cons i ls ih => rw [List.foldl_cons, ih, overflow_foldl_or, List.any_cons, Bool.or_assoc]
  unfold codedFlags
  rw [rows, Bool.false_or, List.any_eq_true]
  simp only [List.any_eq_true, List.mem_range, mem_activeLanes]
  constructor
  · rintro ⟨i, ⟨hi, ha⟩, p, hp, ho⟩
    exact ⟨i, p, hi, ha, hp, ho⟩
  · rintro ⟨i, p, hi, ha, hp, ho⟩
    exact ⟨i, ⟨hi, ha⟩, p, hp, ho⟩

/-! ## Results of elements -/

section
variable {c : Instr} {op : Nat} {u : Fin 64} {j : DrsJob} {w : DWord} {r : DrsRun} {s : State} {body : InsnCtx → DrsRun → InsnOut}
variable (hr : r = (drsUnit s u).run) (h : Issues s u op j w) (hc : exec c s = .next (drsStep op u body s))
include hr h hc

/-- An instruction whose result has `q` coded elements to a lane. -/
theorem coded_written {q : Nat} {e : Nat → Nat → Coded} (hb : body ⟨s, u, j.ref, w⟩ r.quiet = codedTo q e ⟨s, u, j.ref, w⟩ r.quiet) :
    Completes c s fun t =>
      ∃ x fl, Executed s t u (addEvents fl (setT (wD w) x r)) (r.pc + 1)
        ∧ Lanes r w (rT r (wD w)) x (fun i => joinSubs q ((List.range q).map fun p => (e i p).bits))
        ∧ (fl.overflow = true ↔ ∃ i p, i < 256 ∧ active r w i = true ∧ p < q ∧ (e i p).flags.overflow = true)
        ∧ (fl.overflow = true → flagUp t .drs 3 = true) ∧ t.mem = s.mem ∧ t.out = s.out := by
  obtain ⟨t, he, did⟩ := insn_completes hc hr h hb
  exact ⟨t, he, _, _, did.run_events (fl := codedFlags q e r w) (x := setT (wD w) _ r) rfl, lanes_mergeLanes r w _ _,
    codedFlags_overflow q e r w, did.overflow, did.untouched rfl rfl, did.out⟩

/-- An instruction whose result is an M40 value in each lane of a pair. -/
theorem pair_written {e : Nat → Coded} (hb : body ⟨s, u, j.ref, w⟩ r.quiet = pairTo e ⟨s, u, j.ref, w⟩ r.quiet) :
    Completes c s fun t =>
      ∃ hi lo fl, Executed s t u (addEvents fl (setT (wD w + 1) lo (setT (wD w) hi r))) (r.pc + 1) ∧ t.mem = s.mem
        ∧ Lanes r w (rT r (wD w)) hi (fun i => BitVec.ofNat 32 ((e i).bits / 256))
        ∧ Lanes r w (rT r (wD w + 1)) lo (fun i => BitVec.ofNat 32 ((e i).bits % 256)) := by
  obtain ⟨t, he, did⟩ := insn_completes hc hr h hb
  exact ⟨t, he, _, _, _, did.run_events (x := setT (wD w + 1) _ (setT (wD w) _ r)) rfl, did.untouched rfl rfl,
    lanes_mergeLanes r w _ _, lanes_mergeLanes r w _ _⟩

end

/-- In a format of one element to a lane the lane is the element. -/
theorem joinSubs_whole (x : Nat) : joinSubs 1 [x] = BitVec.ofNat 32 x := by
  unfold joinSubs
  rw [List.foldr_cons, List.foldr_nil, Nat.mul_zero, Nat.add_zero]

theorem lanes_congr {r : DrsRun} {w : DWord} {old x : List Word} {f g : Nat → Word} (h : Lanes r w old x f) (e : ∀ i, f i = g i) :
    Lanes r w old x g := funext e ▸ h

/-- Settles O40: each result by the coded elements of its lanes, in one tile or in a pair. -/
theorem laneResultsAreRoundedOnce : Obligations.LaneResultsAreRoundedOnce := by
  unfold Obligations.LaneResultsAreRoundedOnce
  constructor
  · rintro c op q e v u j w r a b d s hr rfl rfl rfl ho h
    rcases ho with ⟨rfl, rfl, ho⟩ | ⟨rfl, ho⟩
    · rcases ho with ⟨rfl, rfl, rfl⟩ | ⟨rfl, rfl, rfl⟩ | ⟨rfl, rfl, rfl⟩ | ⟨rfl, rfl, rfl⟩ | ⟨rfl, rfl, rfl⟩ | ⟨rfl, rfl, rfl⟩ |
        ⟨rfl, rfl, rfl⟩ | ⟨rfl, rfl, rfl⟩ | ⟨rfl, rfl, rfl⟩ | ⟨rfl, rfl, rfl⟩ | ⟨rfl, rfl, rfl⟩ | ⟨rfl, rfl, rfl⟩
      · exact coded_written hr h (body := arith2 .add) rfl rfl
      · exact coded_written hr h (body := arith2 fun a b => a.add b.negate) rfl rfl
      · exact coded_written hr h (body := arith2 .mul) rfl rfl
      · exact coded_written hr h (body := arith fun c r i p =>
          ((elemVal c (rT r (wA c.w)) i p).mul (elemVal c (rT r (wB c.w)) i p)).add (elemVal c (rT r (wC c.w)) i p)) rfl rfl
      · exact coded_written hr h (body := arith2 .maximum) rfl rfl
      · exact coded_written hr h (body := arith2 .minimum) rfl rfl
      · exact coded_written hr h (body := arith1 .abs) rfl rfl
      · exact coded_written hr h (body := arith1 .negate) rfl rfl
      · exact coded_written hr h (body := arith2 .div) rfl rfl
      · exact coded_written hr h (body := arith1 xSqrt) rfl rfl
      · exact coded_written hr h (body := arith1 fun x => (XVal.fin false 1 1).div x) rfl rfl
      · exact coded_written hr h (body := arith1 xRsqrt) rfl rfl
    · rcases ho with ⟨rfl, rfl, rfl⟩ | ⟨rfl, rfl, rfl⟩ | ⟨rfl, rfl, rfl⟩ | ⟨rfl, rfl, rfl⟩
      · exact coded_written hr h (body := codedFp32 ex2) rfl rfl
      · exact coded_written hr h (body := codedFp32 lg2) rfl rfl
      · have hc : exec (.drsTcvt u) s = .next (drsStep 0x58 u _ s) := rfl
        exact coded_written hr h hc rfl
      · have hc : exec (.drsWcvt u) s = .next (drsStep 0x79 u _ s) := rfl
        exact coded_written hr h hc rfl
  · rintro u j w r rnd s hr
    refine ⟨?_, ?_, ?_⟩
    · rintro h rfl
      have hc : exec (.drsTrnd u) s = .next (drsStep 0x59 u _ s) := rfl
      obtain ⟨t, he, x, fl, run, lanes, -, -, mem, -⟩ := coded_written hr h hc rfl
      exact ⟨t, he, x, fl, run, mem, lanes_congr lanes fun i => joinSubs_whole _⟩
    · rintro k q h rfl rfl - rfl
      have hc : exec (.drsTpack u) s = .next (drsStep 0x5B u _ s) := rfl
      obtain ⟨t, he, x, fl, run, lanes, -, -, mem, -⟩ := coded_written hr h hc rfl
      refine ⟨t, he, x, fl, run, mem, lanes_congr lanes fun i => ?_⟩
      simp only [apply_ite Coded.bits]
      rfl
    · rintro c op e rfl ho h
      rcases ho with ⟨rfl, rfl, rfl⟩ | ⟨rfl, rfl, rfl⟩
      · have hc : exec (.drsWfma u) s = .next (drsStep 0x78 u _ s) := rfl
        exact pair_written hr h hc rfl
      · have hc : exec (.drsWfrom u) s = .next (drsStep 0x7A u _ s) := rfl
        exact pair_written hr h hc rfl

end Sys2Proof.Machine

/-!
The statement on maximum, minimum and comparison (O11, R146).
-/
namespace Sys2Proof.Machine
set_option Elab.async false
open Sys2Proof.Safety

theorem eq_nan {x : XVal} (h : x.isNan = true) : XVal.nan = x := by
  cases x with
  | nan => rfl
  | inf | fin => cases h

/-- NaN is unordered. -/
theorem lt_nan (x : XVal) : x.lt .nan = false ∧ XVal.nan.lt x = false := by
  cases x <;> exact ⟨rfl, rfl⟩

/-- No value lies below one that lies below it. -/
theorem lt_asymm_of {x y : XVal} (h : x.lt y = true) : y.lt x = false := by
  cases x with
  | nan => exact (lt_nan y).1
  | inf a =>
    cases y with
    | nan => rfl
    | inf b => revert h; cases a <;> cases b <;> decide
    | fin t m e => exact congrArg not h
  | fin s n d =>
    cases y with
    | nan => rfl
    | inf b => exact Bool.not_eq_true' _ ▸ h
    | fin t m e => exact decide_eq_false (Int.not_lt.mpr (Int.le_of_lt (of_decide_eq_true h)))

/-- Zeros of any sign and denominator are not ordered. -/
theorem lt_zeros (a b : Bool) (d e : Nat) : (XVal.fin a 0 d).lt (.fin b 0 e) = false := by
  have zero (c : Bool) : XVal.scaledNum c 0 1 1 = 0 := by cases c <;> rfl
  show decide (XVal.scaledNum a 0 1 1 * (e : Int) < XVal.scaledNum b 0 1 1 * (d : Int)) = false
  rw [zero, zero, Int.zero_mul, Int.zero_mul]
  rfl

/-- Values that are ordered are numbers. -/
theorem isNan_of_lt {x y : XVal} (h : x.lt y = true) : (x.isNan || y.isNan) = false := by
  cases x with
  | nan => exact absurd h (Bool.eq_false_iff.mp (lt_nan y).2)
  | inf | fin =>
    cases y with
    | nan => exact absurd h (Bool.eq_false_iff.mp (lt_nan _).1)
    | inf | fin => rfl

section
variable {x y : XVal} (h : x.lt y = true)
include h

theorem maximum_of_lt : x.maximum y = y ∧ y.maximum x = y := by
  unfold XVal.maximum
  rw [Bool.or_comm y.isNan, isNan_of_lt h, lt_asymm_of h, h]
  exact ⟨rfl, rfl⟩

theorem minimum_of_lt : x.minimum y = x ∧ y.minimum x = x := by
  unfold XVal.minimum
  rw [Bool.or_comm y.isNan, isNan_of_lt h, lt_asymm_of h, h]
  exact ⟨rfl, rfl⟩

end

/-- Settles O11: a NaN operand, zeros, which the sign decides, values that are ordered, and comparisons with a NaN. -/
theorem extremaAndComparisons : Obligations.ExtremaAndComparisons := by
  unfold Obligations.ExtremaAndComparisons
  refine ⟨fun x => ?_, fun d e _ _ => ?_, fun x y h => ?_, fun x => ?_⟩
  · cases x <;> exact ⟨rfl, rfl, rfl, rfl⟩
  · unfold XVal.maximum XVal.minimum XVal.eq
    rw [lt_zeros, lt_zeros]
    exact ⟨rfl, rfl, rfl, rfl, rfl, rfl⟩
  · obtain ⟨hm, hm'⟩ := maximum_of_lt h
    exact ⟨hm, hm', minimum_of_lt h⟩
  · obtain ⟨hl, hr⟩ := lt_nan x
    exact ⟨hl, hr, by cases x <;> rfl, rfl⟩

end Sys2Proof.Machine

/-!
The statement on reductions (O41): full reductions, arg-reductions and row reductions of the active lanes (R147, R148, R200, R201).
-/
namespace Sys2Proof.Machine
set_option Elab.async false
open Sys2Proof.Safety

/-! ## The value of a reduction -/

/-- The maximum of two values is one of them. -/
theorem maximum_choice (a b : XVal) : a.maximum b = a ∨ a.maximum b = b := by
  unfold XVal.maximum
  split
  · rename_i h
    exact ((Bool.or_eq_true ..).mp h).imp eq_nan eq_nan
  · split
    · exact .inr rfl
    · split
      · exact .inl rfl
      · split
        · exact .inr rfl
        · exact .inl rfl

/-- The minimum of two values is one of them. -/
theorem minimum_choice (a b : XVal) : a.minimum b = a ∨ a.minimum b = b := by
  unfold XVal.minimum
  split
  · rename_i h
    exact ((Bool.or_eq_true ..).mp h).imp eq_nan eq_nan
  · split
    · exact .inl rfl
    · split
      · exact .inr rfl
      · split
        · exact .inl rfl
        · exact .inr rfl

theorem Reduction.op_choice {k : Reduction} (hk : k ≠ .sum) (a b : XVal) : k.op a b = a ∨ k.op a b = b := by
  cases k with
  | sum => exact absurd rfl hk
  | max => exact maximum_choice a b
  | min => exact minimum_choice a b

/-- A maximum or minimum of several values is one of them. -/
theorem Reduction.fold_mem {k : Reduction} (hk : k ≠ .sum) (fmt : Nat) {vs : List XVal} (hv : vs ≠ []) : k.fold fmt vs ∈ vs := by
  cases vs with
  | nil => exact absurd rfl hv
  | cons v vs =>
    clear hv
    unfold Reduction.fold
    dsimp only
    induction vs generalizing v with
    | nil => exact List.mem_singleton_self v
    | cons x vs ih =>
      rw [List.foldl_cons]
      rcases List.mem_cons.mp (ih (k.op v x)) with h | h
      · rw [h]
        rcases k.op_choice hk v x with e | e
        · rw [e]
          exact List.mem_cons_self
        · rw [e]
          exact List.mem_cons_of_mem _ List.mem_cons_self
      · exact List.mem_cons_of_mem _ (List.mem_cons_of_mem _ h)

/-- In a rising list the first number found is the least. -/
theorem find_least {ls : List Nat} (hs : ls.Pairwise (· < ·)) {p : Nat → Bool} (h : ∃ l ∈ ls, p l = true) :
    ∃ i, ls.find? p = some i ∧ i ∈ ls ∧ p i = true ∧ ∀ l ∈ ls, p l = true → i ≤ l := by
  obtain ⟨i, hi⟩ := Option.isSome_iff_exists.mp (List.find?_isSome.mpr h)
  obtain ⟨hp, before, after, rfl, hb⟩ := List.find?_eq_some_iff_append.mp hi
  refine ⟨i, hi, by simp, hp, fun l hl hpl => ?_⟩
  rcases List.mem_append.mp hl with hl | hl
  · exact absurd hpl (by simpa using hb l hl)
  · rcases List.mem_cons.mp hl with rfl | hl
    · exact Nat.le_refl _
    · exact Nat.le_of_lt ((List.pairwise_cons.mp (List.pairwise_append.mp hs).2.1).1 l hl)

theorem activeLanes_rise (r : DrsRun) (w : DWord) : (activeLanes r w).Pairwise (· < ·) := List.pairwise_lt_range.filter _

/-- The lowest lane of a value among those listed, all ones where there is none. -/
def leastHolder (val : Nat → XVal) (best : XVal) (ls : List Nat) : Nat :=
  match ls.find? fun i => val i == best with
  | some i => i
  | none => 0xFFFFFFFF

theorem leastHolder_spec {val : Nat → XVal} {best : XVal} {ls : List Nat} (hs : ls.Pairwise (· < ·)) (h : ∃ l ∈ ls, val l = best) :
    leastHolder val best ls ∈ ls ∧ val (leastHolder val best ls) = best ∧ ∀ l ∈ ls, val l = best → leastHolder val best ls ≤ l := by
  obtain ⟨i, hi, hm, hv, least⟩ := find_least hs (p := fun i => val i == best) (h.imp fun _ => And.imp_right beq_iff_eq.mpr)
  unfold leastHolder
  rw [hi]
  exact ⟨hm, beq_iff_eq.mp hv, fun l hl hb => least l hl (beq_iff_eq.mpr hb)⟩

/-! ## The instructions -/

/-- The value of a lane in a format of one element to a lane. -/
def laneValue (r : DrsRun) (w : DWord) (i : Nat) : XVal := scalarDecode (wFmt w) (lane (rT r (wA w)) i).toNat

/-- The reduction of lanes of T[A], rounded once at a generator index. -/
def reduced (k : Reduction) (s : State) (ctx : Nat) (r : DrsRun) (w : DWord) (index : Nat) (ls : List Nat) : Coded :=
  scalarEncode (wFmt w) (rndOf (wRnd w) (curStep s ctx) r.key.tensor.toNat index) (wSat w) (k.fold (wFmt w) (ls.map (laneValue r w)))

section
variable {c : Instr} {op : Nat} {u : Fin 64} {j : DrsJob} {w : DWord} {r : DrsRun} {s : State} {k : Reduction}

theorem reduceLanes_whole (hq : subCount (wFmt w) = 1) (index : Nat) (ls : List Nat) :
    reduceLanes k ⟨s, u, j.ref, w⟩ r.quiet index ls = reduced k s j.ref.ctx r w index ls := by
  unfold reduceLanes
  simp only [elemVal_whole (c := ⟨s, u, j.ref, w⟩) hq]
  rfl

/-- What an arg-reduction does, in a format of one element to a lane. -/
theorem argReduce_whole (hq : subCount (wFmt w) = 1) {v : Coded} (hv : v = reduced k s j.ref.ctx r w r.key.base.toNat (activeLanes r w))
    {i : Nat} (hi : i = leastHolder (laneValue r w) (k.fold (wFmt w) ((activeLanes r w).map (laneValue r w))) (activeLanes r w)) :
    argReduce k ⟨s, u, j.ref, w⟩ r.quiet =
      { run := addEvents v.flags (setS (wC w) (BitVec.ofNat 64 i) (setS (wD w) (BitVec.ofNat 64 v.bits) r.quiet))
        emptied := (activeLanes r w).isEmpty } := by
  have value : (fun i => elemVal ⟨s, u, j.ref, w⟩ (rT r (wA w)) i 0) = laneValue r w := funext fun i => elemVal_whole hq _ i
  rw [hv, hi, ← reduceLanes_whole (u := u) (j := j) hq, ← value]
  rfl

variable (hr : r = (drsUnit s u).run) (h : Issues s u op j w) (hq : subCount (wFmt w) = 1)
include hr h hq

/-- A full reduction. -/
theorem reduced_all (hc : exec c s = .next (drsStep op u (reduceAll k) s)) {v : Coded}
    (hv : v = reduced k s j.ref.ctx r w r.key.base.toNat (activeLanes r w)) :
    Completes c s fun t =>
      Executed s t u { addEvents v.flags (setS (wD w) (BitVec.ofNat 64 v.bits) r) with empty := r.empty || (activeLanes r w).isEmpty } (r.pc + 1)
        ∧ (activeLanes r w = [] → flagUp t .drs 5 = true) ∧ t.mem = s.mem := by
  obtain ⟨t, he, did⟩ := insn_completes hc hr h rfl
  have hl : reduceLanes k ⟨s, u, j.ref, w⟩ r.quiet r.key.base.toNat (activeLanes r w) = v := (reduceLanes_whole hq _ _).trans hv.symm
  subst hl
  exact ⟨t, he, did.run_reduced (x := setS (wD w) _ r) rfl, fun hn => did.emptied (List.isEmpty_iff.mpr hn), did.untouched rfl rfl⟩

/-- An arg-reduction. -/
theorem reduced_arg (hc : exec c s = .next (drsStep op u (argReduce k) s)) (hk : k ≠ .sum) {v : Coded}
    (hv : v = reduced k s j.ref.ctx r w r.key.base.toNat (activeLanes r w)) :
    Completes c s fun t =>
      ∃ i, Executed s t u { addEvents v.flags (setS (wC w) (BitVec.ofNat 64 i) (setS (wD w) (BitVec.ofNat 64 v.bits) r)) with
          empty := r.empty || (activeLanes r w).isEmpty } (r.pc + 1)
        ∧ (activeLanes r w = [] → i = 0xFFFFFFFF) ∧ t.mem = s.mem
        ∧ (activeLanes r w ≠ [] → i ∈ activeLanes r w ∧ laneValue r w i = k.fold (wFmt w) ((activeLanes r w).map (laneValue r w))
          ∧ ∀ l ∈ activeLanes r w, laneValue r w l = k.fold (wFmt w) ((activeLanes r w).map (laneValue r w)) → i ≤ l) := by
  obtain ⟨t, he, did⟩ := insn_completes hc hr h (argReduce_whole hq hv rfl)
  refine ⟨t, he, _, did.run_reduced (x := setS (wC w) _ (setS (wD w) _ r)) rfl, fun hn => by rw [hn]; rfl, did.untouched rfl rfl,
    fun hn => leastHolder_spec (activeLanes_rise r w) ?_⟩
  exact List.mem_map.mp (k.fold_mem hk (wFmt w) (mt List.map_eq_nil_iff.mp hn))

/-- A row reduction. -/
theorem reduced_rows (hc : exec c s = .next (drsStep op u (reduceRows k) s)) {row : Nat → Coded}
    (hrow : row = fun a => reduced k s j.ref.ctx r w ((r.key.base.toNat + a * r.key.pitch.toNat) % 2 ^ 64) (rowLanes r w a)) :
    Completes c s fun t =>
      ∃ x fl e, Executed s t u { addEvents fl (setT (wD w) x r) with empty := r.empty || e } (r.pc + 1)
        ∧ Lanes r w (rT r (wD w)) x (fun i => BitVec.ofNat 32 (row (i / 16)).bits)
        ∧ (e = true ↔ ∃ a, a < 16 ∧ ∀ i ∈ activeLanes r w, i / 16 ≠ a) ∧ t.mem = s.mem := by
  obtain ⟨t, he, did⟩ := insn_completes hc hr h rfl
  refine ⟨t, he, _, _, _, did.run_reduced (x := setT (wD w) _ r) rfl, lanes_congr (lanes_mergeLanes r w _ _) fun i => ?_, ?_, did.untouched rfl rfl⟩
  · subst hrow
    exact congrArg (fun v : Coded => BitVec.ofNat 32 v.bits) (reduceLanes_whole hq _ _)
  · show ((List.range 16).any fun a => (rowLanes r w a).isEmpty) = true ↔ _
    simp [rowLanes, List.isEmpty_iff, List.filter_eq_nil_iff]

end

/-- Settles O41: the full reductions, the arg-reductions and the row reductions, each by the lemma of its kind. -/
theorem reductions : Obligations.Reductions := by
  unfold Obligations.Reductions
  rintro u j w r ls val s hr rfl rfl hq
  refine ⟨?_, ?_, ?_⟩
  · rintro c op k v hm hv h
    simp only [List.mem_cons, Prod.mk.injEq, List.not_mem_nil, or_false] at hm
    rcases hm with ⟨rfl, rfl, rfl⟩ | ⟨rfl, rfl, rfl⟩ | ⟨rfl, rfl, rfl⟩
    all_goals exact reduced_all hr h hq rfl hv
  · rintro c op k v hm hv h
    simp only [List.mem_cons, Prod.mk.injEq, List.not_mem_nil, or_false] at hm
    rcases hm with ⟨rfl, rfl, rfl⟩ | ⟨rfl, rfl, rfl⟩
    all_goals exact reduced_arg hr h hq rfl (by decide) hv
  · rintro c op k row hm hrow h
    simp only [List.mem_cons, Prod.mk.injEq, List.not_mem_nil, or_false] at hm
    rcases hm with ⟨rfl, rfl, rfl⟩ | ⟨rfl, rfl, rfl⟩ | ⟨rfl, rfl, rfl⟩
    all_goals exact reduced_rows hr h hq rfl hrow

end Sys2Proof.Machine

/-!
SUPPORT. What memory holds after several stores, one after another, joined where they are adjacent or not.
-/
namespace Sys2Proof.Machine
set_option Elab.async false
open Sys2Proof.Safety

/-- Memory after several stores, in their order. -/
def stored (m : Tab Byte) (ws : List (Nat × List Byte)) : Tab Byte := ws.foldl (fun m a => memStore m a.1 a.2) m

theorem memStore_get (m : Tab Byte) (a : Nat) (bs : List Byte) (x : Nat) :
    tabGet 0 (memStore m a bs) x = if a ≤ x ∧ x < a + bs.length then byteAt bs (x - a) else tabGet 0 m x := by
  split
  · rename_i h
    obtain ⟨k, rfl⟩ := Nat.exists_eq_add_of_le h.1
    rw [memStore_read _ _ _ _ (Nat.lt_of_add_lt_add_left h.2), Nat.add_sub_cancel_left]
  · exact memStore_other _ _ _ _ (by omega)

/-- Memories that read alike read alike after the same stores. -/
theorem stored_congr {m n : Tab Byte} (h : tabGet 0 m = tabGet 0 n) (ws : List (Nat × List Byte)) :
    tabGet 0 (stored m ws) = tabGet 0 (stored n ws) := by
  induction ws generalizing m n with
  | nil => exact h
  | cons w ws ih => exact ih (funext fun x => by rw [memStore_get, memStore_get, h])

/-- Two adjacent stores are one. -/
theorem memStore_append (m : Tab Byte) (a : Nat) (bs cs : List Byte) :
    tabGet 0 (memStore m a (bs ++ cs)) = tabGet 0 (memStore (memStore m a bs) (a + bs.length) cs) := by
  funext x
  rw [memStore_get, memStore_get, memStore_get, List.length_append]
  unfold byteAt
  by_cases hl : x < a + bs.length
  · rw [if_neg (show ¬(a + bs.length ≤ x ∧ x < a + bs.length + cs.length) by omega)]
    by_cases ha : a ≤ x
    · rw [if_pos (by omega), if_pos (by omega), List.getD_append _ _ _ _ (by omega)]
    · rw [if_neg (by omega), if_neg (by omega)]
  · rw [if_neg (show ¬(a ≤ x ∧ x < a + bs.length) by omega)]
    refine if_congr (by omega) ?_ rfl
    rw [List.getD_append_right _ _ _ _ (by omega), Nat.sub_add_eq]

/-- Joining adjacent stores changes nothing of what memory holds. -/
theorem stored_coalesce (ws : List (Nat × List Byte)) (m : Tab Byte) : tabGet 0 (stored m (coalesce ws)) = tabGet 0 (stored m ws) := by
  induction ws generalizing m with
  | nil => rfl
  | cons w ws ih =>
    have hw : tabGet 0 (stored m (w :: coalesce ws)) = tabGet 0 (stored m (w :: ws)) := ih _
    unfold coalesce
    rw [← hw]
    cases coalesce ws with
    | nil => rfl
    | cons v vs =>
      dsimp only
      split
      · rename_i e
        refine stored_congr ?_ vs
        rw [memStore_append, e]
      · rfl

/-- A byte that no store reaches reads as before. -/
theorem stored_other {ws : List (Nat × List Byte)} {x : Nat} (h : ∀ a ∈ ws, x < a.1 ∨ a.1 + a.2.length ≤ x) (m : Tab Byte) :
    tabGet 0 (stored m ws) x = tabGet 0 m x := by
  induction ws generalizing m with
  | nil => rfl
  | cons w ws ih =>
    exact (ih (fun a ha => h a (List.mem_cons_of_mem _ ha)) _).trans (memStore_other _ _ _ _ (h w List.mem_cons_self))

/-- A byte of one store reads back where no later store reaches it. -/
theorem stored_read {addr : Nat → Nat} {bytes : Nat → List Byte} {ls : List Nat} (hs : ls.Pairwise (· < ·)) {l k : Nat} (hl : l ∈ ls)
    (hk : k < (bytes l).length) (later : ∀ i ∈ ls, l < i → addr l + k < addr i ∨ addr i + (bytes i).length ≤ addr l + k) (m : Tab Byte) :
    tabGet 0 (stored m (ls.map fun i => (addr i, bytes i))) (addr l + k) = byteAt (bytes l) k := by
  induction ls generalizing m with
  | nil => cases hl
  | cons i ls ih =>
    obtain ⟨hi, hs⟩ := List.pairwise_cons.mp hs
    rcases List.mem_cons.mp hl with rfl | hl
    · refine (stored_other (ws := ls.map fun i => (addr i, bytes i)) (fun a ha => ?_) _).trans (memStore_read _ _ _ _ hk)
      obtain ⟨i, him, rfl⟩ := List.mem_map.mp ha
      exact later i (List.mem_cons_of_mem _ him) (hi i him)
    · exact ih hs hl (fun i him => later i (List.mem_cons_of_mem _ him)) _

end Sys2Proof.Machine

/-!
SUPPORT. Dresser loads and the stores of scalars, masks and lanes (R192, R193, R195 to R197, R204, R211): an access whose addresses are
aligned and permitted does not fault, a load is outstanding with its data, a store writes its bytes and no others.
-/
namespace Sys2Proof.Machine
set_option Elab.async false
open Sys2Proof.Safety

/-! ## Accesses that do not fault (R196, R210) -/

section
variable {c : InsnCtx} {r : DrsRun}

theorem accessAt_none {write : Bool} {align a n : Nat} (ha : a % align = 0) (hp : permitted c.s c.ref.ctx a n (!write) write = true) :
    accessAt c write align a n = none := by
  unfold accessAt
  rw [hp, if_neg]
  simp [ha]

theorem lanesFault_none {f : Nat → Option Nat} (h : ∀ l, l < 256 → active r c.w l = true → f l = none) : lanesFault c r f = none :=
  List.findSome?_eq_none_iff.mpr fun _ hl => have ⟨hi, ha⟩ := mem_activeLanes.mp hl; h _ hi ha

theorem mxFault_none {write : Bool} {l : Nat} (hh : (rS r (wC c.w)).toNat % 32 = 0)
    (he : permitted c.s c.ref.ctx (mxAddrs c r l).1 1 (!write) write = true)
    (hs : permitted c.s c.ref.ctx (mxAddrs c r l).2 1 (!write) write = true) : mxFault c r write l = none := by
  unfold mxFault
  dsimp only
  rw [if_neg (not_not.mpr hh), accessAt_none (Nat.mod_one _) he, accessAt_none (Nat.mod_one _) hs]
  rfl

theorem signFault_none {write : Bool} {l : Nat} (hb : (baseAddr c r).toNat % 8 = 0)
    (hp : permitted c.s c.ref.ctx (signAddr c r l) 1 (!write) write = true) : signFault c r write l = none := by
  unfold signFault
  rw [if_neg (not_not.mpr hb), accessAt_none (Nat.mod_one _) hp]

end

/-! ## Loads -/

section
variable {c : Instr} {op : Nat} {u : Fin 64} {j : DrsJob} {w : DWord} {r : DrsRun} {s : State} {body : InsnCtx → DrsRun → InsnOut}
variable (hr : r = (drsUnit s u).run) (h : Issues s u op j w) (hc : exec c s = .next (drsStep op u body s))
include hr h hc

/-- A load of a tile. -/
theorem tile_loaded {f : Nat → Word} {fl : ElemFlags} {reads : List (Nat × Nat)} {fault : Option Nat}
    (hb : body ⟨s, u, j.ref, w⟩ r.quiet =
      { run := addEvents fl { r.quiet with loads := r.loads ++ [.tile (wD w) (mergeLanes w (rT r (wD w)) (active r w) f)] }
        reads := reads, fault := fault }) (hf : fault = none) :
    Completes c s fun t =>
      ∃ x fl, Executed s t u (addEvents fl { r with loads := r.loads ++ [.tile (wD w) x] }) (r.pc + 1)
        ∧ Lanes r w (rT r (wD w)) x f ∧ t.mem.cells = s.mem.cells := by
  obtain ⟨t, he, did⟩ := insn_completes hc hr h hb hf
  exact ⟨t, he, _, _, did.run_events (x := { r with loads := r.loads ++ [.tile (wD w) _] }) rfl, lanes_mergeLanes r w _ _, did.cells⟩

end

section
variable {u : Fin 64} {j : DrsJob} {w : DWord} {r : DrsRun} {s : State}
variable (hr : r = (drsUnit s u).run)
include hr

/-- SLD. -/
theorem scalar_loaded (h : Issues s u 0x1B j w) {a : Nat} (ha : a = (baseAddr ⟨s, u, j.ref, w⟩ r).toNat) (hal : a % 8 = 0)
    (hp : permitted s j.ref.ctx a 8 true false = true) : Completes (.drsSld u) s fun t =>
      Executed s t u { r with loads := r.loads ++ [.scalar (wD w) (BitVec.ofNat 64 (readNat s a 8))] } (r.pc + 1)
        ∧ t.mem.cells = s.mem.cells := by
  subst ha
  obtain ⟨t, he, did⟩ := insn_completes (c := .drsSld u) rfl hr h rfl (accessAt_none hal hp)
  exact ⟨t, he, did.run_quiet (x := { r with loads := _ }) rfl, did.cells⟩

/-- MLD. -/
theorem mask_loaded (h : Issues s u 0x33 j w) {a : Nat} (ha : a = (baseAddr ⟨s, u, j.ref, w⟩ r).toNat) (hal : a % 8 = 0)
    (hp : permitted s j.ref.ctx a 32 true false = true) : Completes (.drsMld u) s fun t =>
      ∃ m, Executed s t u { r with loads := r.loads ++ [.mask (wD w) m] } (r.pc + 1)
        ∧ Bits r w (rM r (wD w)) m (fun i => (readNat s a 32).testBit i) ∧ t.mem.cells = s.mem.cells := by
  subst ha
  obtain ⟨t, he, did⟩ := insn_completes (c := .drsMld u) rfl hr h rfl (accessAt_none hal hp)
  exact ⟨t, he, _, did.run_quiet (x := { r with loads := r.loads ++ [.mask (wD w) _] }) rfl, bits_mergeBits r w _ _, did.cells⟩

/-- WLD. -/
theorem pair_loaded (h : Issues s u 0x31 j w)
    (hp : ∀ l, l < 256 → active r w l = true → permitted s j.ref.ctx (laneAddr ⟨s, u, j.ref, w⟩ r l) 5 true false = true) :
    Completes (.drsWld u) s fun t =>
      ∃ hi lo, Executed s t u { r with loads := r.loads ++ [.pair (wD w) hi lo] } (r.pc + 1)
        ∧ Lanes r w (rT r (wD w)) hi (fun l => BitVec.ofNat 32 (readNat s (laneAddr ⟨s, u, j.ref, w⟩ r l) 5 / 256))
        ∧ Lanes r w (rT r (wD w + 1)) lo (fun l => BitVec.ofNat 32 (readNat s (laneAddr ⟨s, u, j.ref, w⟩ r l) 5 % 256))
        ∧ t.mem.cells = s.mem.cells := by
  obtain ⟨t, he, did⟩ := insn_completes (c := .drsWld u) rfl hr h rfl
    (lanesFault_none fun l hl ha => accessAt_none (Nat.mod_one _) (hp l hl ha))
  exact ⟨t, he, _, _, did.run_quiet (x := { r with loads := r.loads ++ [.pair (wD w) _ _] }) rfl, lanes_mergeLanes r w _ _,
    lanes_mergeLanes r w _ _, did.cells⟩

/-- TLDX. -/
theorem mx_loaded (h : Issues s u 0x2A j w) (hh : (rS r (wC w)).toNat % 32 = 0)
    (hp : ∀ l, l < 256 → active r w l = true → permitted s j.ref.ctx (mxAddrs ⟨s, u, j.ref, w⟩ r l).1 1 true false = true
      ∧ permitted s j.ref.ctx (mxAddrs ⟨s, u, j.ref, w⟩ r l).2 1 true false = true) :
    Completes (.drsTldx u) s fun t =>
      ∃ x fl, Executed s t u (addEvents fl { r with loads := r.loads ++ [.tile (wD w) x] }) (r.pc + 1)
        ∧ Lanes r w (rT r (wD w)) x (fun l => BitVec.ofNat 32 (fpEncode fpFp32
            (rndOf (wRnd w) (curStep s j.ref.ctx) r.key.tensor.toNat (laneIndex r 1 0 l)) false
            (mxDecode (wFmt w) (readNat s (mxAddrs ⟨s, u, j.ref, w⟩ r l).2 1)
              (mxPick (wFmt w) (mxPlace ⟨s, u, j.ref, w⟩ r l).2 (readNat s (mxAddrs ⟨s, u, j.ref, w⟩ r l).1 1)))).bits)
        ∧ t.mem.cells = s.mem.cells := by
  have hc : exec (.drsTldx u) s = .next (drsStep 0x2A u _ s) := rfl
  exact tile_loaded hr h hc rfl (lanesFault_none fun l hl ha => mxFault_none hh (hp l hl ha).1 (hp l hl ha).2)

/-- TLDS. -/
theorem signs_loaded (h : Issues s u 0x2B j w) (hb : (baseAddr ⟨s, u, j.ref, w⟩ r).toNat % 8 = 0)
    (hp : ∀ l, l < 256 → active r w l = true → permitted s j.ref.ctx (signAddr ⟨s, u, j.ref, w⟩ r l) 1 true false = true) :
    Completes (.drsTlds u) s fun t =>
      ∃ x fl, Executed s t u (addEvents fl { r with loads := r.loads ++ [.tile (wD w) x] }) (r.pc + 1)
        ∧ Lanes r w (rT r (wD w)) x (fun l => BitVec.ofNat 32 (fp32Exact
            (.ofInt (sgn2Decode (sgn2Code (readNat s (signAddr ⟨s, u, j.ref, w⟩ r l) 1) l)).1)))
        ∧ t.mem.cells = s.mem.cells := by
  have hc : exec (.drsTlds u) s = .next (drsStep 0x2B u _ s) := rfl
  exact tile_loaded hr h hc rfl (lanesFault_none fun l hl ha => signFault_none hb (hp l hl ha))

end

theorem loadConvert_bits (fmt v : Nat) : (loadConvert fmt v).bits = if fmt = 0 then v else fp32Exact (scalarDecode fmt v) := by
  unfold loadConvert
  split <;> rfl

/-! ## The delivery of a load (R204) -/

/-- The oldest load of a unit delivers its data. -/
def LoadDest.deliver : LoadDest → DrsRun → DrsRun
  | .tile d t => setT d t
  | .pair d hi lo => fun r => setT d hi (setT (d + 1) lo r)
  | .scalar d v => setS d v
  | .mask d v => setM d v

theorem load_returns {u : Fin 64} {s : State} {r : DrsRun} (hr : r = (drsUnit s u).run) {l : LoadDest} {ls : List LoadDest}
    (hl : r.loads = l :: ls) :
    Completes (.drsLoadReturn u) s fun t => (drsUnit t u).run = l.deliver { r with loads := ls } ∧ t.mem = s.mem := by
  refine ⟨_, rfl, ?_, rfl⟩
  rw [drsUnit_modDrs, if_pos rfl, ← hr, hl]
  cases l <;> rfl

/-! ## Stores -/

section
variable {c : Instr} {op : Nat} {u : Fin 64} {j : DrsJob} {w : DWord} {r : DrsRun} {s : State} {body : InsnCtx → DrsRun → InsnOut}
variable (hr : r = (drsUnit s u).run) (h : Issues s u op j w) (hc : exec c s = .next (drsStep op u body s))
include hr h hc

/-- A store of a scalar or a mask. -/
theorem value_stored {n v : Nat} {a : Nat} (hal : a % 8 = 0) (hp : permitted s j.ref.ctx a n false true = true)
    (hb : body ⟨s, u, j.ref, w⟩ r.quiet =
      { run := r.quiet, writes := [(a, leBytes n v)], fault := accessAt ⟨s, u, j.ref, w⟩ true 8 a n }) :
    Completes c s fun t =>
      Executed s t u r (r.pc + 1) ∧ (∀ k, k < n → tabGet 0 t.mem.cells (a + k) = byteAt (leBytes n v) k)
        ∧ (∀ x, x < a ∨ a + n ≤ x → tabGet 0 t.mem.cells x = tabGet 0 s.mem.cells x) ∧ t.out = s.out := by
  obtain ⟨t, he, did⟩ := insn_completes hc hr h hb (accessAt_none hal hp)
  have hm : t.mem.cells = memStore s.mem.cells a (leBytes n v) := did.cells
  refine ⟨t, he, did.run_quiet rfl, fun k hk => ?_, fun x hx => ?_, did.out⟩
  · rw [hm, memStore_read _ _ _ _ (by rwa [length_leBytes])]
  · rw [hm, memStore_other _ _ _ _ (by rwa [length_leBytes])]

/-- A store that adds to a stream. -/
theorem tile_stored {f : Hist} {fl : ElemFlags} {ws : List (Nat × List Byte)} {ms : List (Nat × Nat)} {fault : Option Nat}
    (hb : body ⟨s, u, j.ref, w⟩ r.quiet = { storeOut ⟨s, u, j.ref, w⟩ r.quiet f fl ws with masters := ms, fault := fault })
    (hf : fault = none) :
    Completes c s fun t =>
      (∃ h fl, Executed s t u (addEvents fl { r with streams := tabSet none r.streams (wFmt2 w) (some h) }) (r.pc + 1))
        ∧ tabGet 0 t.mem.cells = tabGet 0 (stored s.mem.cells ws) ∧ t.out = s.out := by
  obtain ⟨t, he, did⟩ := insn_completes hc hr h hb hf
  refine ⟨t, he, ⟨f, fl, did.run_events (x := { r with streams := _ }) rfl⟩, ?_, did.out⟩
  rw [did.cells]
  exact stored_coalesce ws s.mem.cells

/-- A store of `n` bytes to each active lane's address. -/
theorem lanes_stored {n : Nat} {v : Nat → Nat} {f : Hist} {fl : ElemFlags} {ms : List (Nat × Nat)} {fault : Option Nat}
    (hb : body ⟨s, u, j.ref, w⟩ r.quiet = { storeOut ⟨s, u, j.ref, w⟩ r.quiet f fl
        ((activeLanes r w).map fun i => (laneAddr ⟨s, u, j.ref, w⟩ r i, leBytes n (v i))) with masters := ms, fault := fault })
    (hf : fault = none) :
    Completes c s fun t =>
      (∃ h fl, Executed s t u (addEvents fl { r with streams := tabSet none r.streams (wFmt2 w) (some h) }) (r.pc + 1))
        ∧ (∀ l k, l < 256 → active r w l = true → k < n →
            (∀ m, l < m → m < 256 → active r w m = true → laneAddr ⟨s, u, j.ref, w⟩ r m + n ≤ laneAddr ⟨s, u, j.ref, w⟩ r l
              ∨ laneAddr ⟨s, u, j.ref, w⟩ r l + n ≤ laneAddr ⟨s, u, j.ref, w⟩ r m) →
            tabGet 0 t.mem.cells (laneAddr ⟨s, u, j.ref, w⟩ r l + k) = byteAt (leBytes n (v l)) k)
        ∧ (∀ x, (∀ l, l < 256 → active r w l = true → x < laneAddr ⟨s, u, j.ref, w⟩ r l ∨ laneAddr ⟨s, u, j.ref, w⟩ r l + n ≤ x) →
            tabGet 0 t.mem.cells x = tabGet 0 s.mem.cells x) ∧ t.out = s.out := by
  obtain ⟨t, he, run, cells, out⟩ := tile_stored hr h hc hb hf
  refine ⟨t, he, run, fun l k hl ha hk later => ?_, fun x hx => ?_, out⟩
  · rw [cells]
    refine stored_read (bytes := fun i => leBytes n (v i)) (activeLanes_rise r w) (mem_activeLanes.mpr ⟨hl, ha⟩)
      (by rwa [length_leBytes]) (fun i hi hli => ?_) _
    obtain ⟨hi, hai⟩ := mem_activeLanes.mp hi
    have := later i hli hi hai
    rw [length_leBytes]
    omega
  · rw [cells]
    refine stored_other (fun a ha => ?_) _
    obtain ⟨l, hl, rfl⟩ := List.mem_map.mp ha
    obtain ⟨hl, hal⟩ := mem_activeLanes.mp hl
    rw [length_leBytes]
    exact hx l hl hal

end

end Sys2Proof.Machine

/-!
SUPPORT and the statement on loads and stores (O42): the stores of blocks (R128, R132, R193 to R195), of which a block without an active lane
is not written.
-/
namespace Sys2Proof.Machine
set_option Elab.async false
open Sys2Proof.Safety

/-! ## The blocks of a store -/

section
variable {c : InsnCtx} {r : DrsRun}

/-- The first lanes of the blocks that hold an active lane. -/
def blockStarts (n : Nat) (c : InsnCtx) (r : DrsRun) : List Nat :=
  ((List.range (256 / n)).map (n * ·)).filter fun i0 => (blockVals c r i0 n).any (·.isSome)

theorem blockVals_any (i0 n : Nat) : (blockVals c r i0 n).any (·.isSome) = true ↔ ∃ t, t < n ∧ active r c.w (i0 + t) = true := by
  unfold blockVals
  rw [List.any_map, List.any_eq_true]
  refine exists_congr fun t => and_congr List.mem_range ?_
  rw [Function.comp_apply]
  split
  · rename_i h
    exact iff_of_true rfl h
  · rename_i h
    exact iff_of_false Bool.false_ne_true h

/-- Where the active lanes lie in one block, that block alone is written. -/
theorem blockStarts_single {n b : Nat} (hn : 0 < n) (hb : b < 256 / n) (some : ∃ l, l < 256 ∧ active r c.w l = true)
    (all : ∀ l, l < 256 → active r c.w l = true → l / n = b) : blockStarts n c r = [n * b] := by
  have only : ∀ k ∈ List.range (256 / n), (blockVals c r (n * k) n).any (·.isSome) = (k == b) := by
    intro k hk
    rw [Bool.eq_iff_iff, blockVals_any, beq_iff_eq]
    constructor
    · rintro ⟨t, ht, ha⟩
      have hl : n * k + t < 256 := by
        calc n * k + t < n * (k + 1) := by rw [Nat.mul_succ]; omega
          _ ≤ n * (256 / n) := Nat.mul_le_mul_left n (List.mem_range.mp hk)
          _ ≤ 256 := Nat.mul_div_le 256 n
      rw [← all _ hl ha, Nat.mul_add_div hn, Nat.div_eq_of_lt ht, Nat.add_zero]
    · rintro rfl
      obtain ⟨l, hl, ha⟩ := some
      refine ⟨l % n, Nat.mod_lt l hn, ?_⟩
      rw [← all l hl ha, Nat.div_add_mod]
      exact ha
  have kept : (List.range (256 / n)).filter ((fun i0 => (blockVals c r i0 n).any (·.isSome)) ∘ (n * ·)) = [b] := by
    refine (List.filter_congr only).trans ?_
    rw [List.filter_beq, List.count_eq_one_of_mem List.nodup_range (List.mem_range.mpr hb)]
    rfl
  unfold blockStarts
  rw [List.filter_map, kept, List.map_singleton]

/-- The writes of a store of blocks. -/
def blockWrites (n : Nat) (enc : Nat → List (Option XVal) → BlockOut) (bytes : Nat → BlockOut → List (Nat × List Byte)) (c : InsnCtx)
    (r : DrsRun) : List (Nat × List Byte) :=
  ((blockStarts n c r).map fun i0 => (i0, blockVals c r i0 n, enc i0 (blockVals c r i0 n))).flatMap fun b => bytes b.1 b.2.2

theorem blockWrites_single {n b : Nat} (enc : Nat → List (Option XVal) → BlockOut) (bytes : Nat → BlockOut → List (Nat × List Byte))
    (hn : 0 < n) (hb : b < 256 / n) (some : ∃ l, l < 256 ∧ active r c.w l = true)
    (all : ∀ l, l < 256 → active r c.w l = true → l / n = b) :
    blockWrites n enc bytes c r = bytes (n * b) (enc (n * b) (blockVals c r (n * b) n)) := by
  unfold blockWrites
  rw [blockStarts_single hn hb some all, List.map_singleton, List.flatMap_singleton]

end

/-! ## The bytes of a block -/

theorem blockVals_length (c : InsnCtx) (r : DrsRun) (i0 n : Nat) : (blockVals c r i0 n).length = n := by
  unfold blockVals
  rw [List.length_map, List.length_range]

theorem dq8Bytes_length (rnd : Nat → Rnd) (vs : List (Option XVal)) : (dq8Bytes (dq8EncodeBlock rnd vs)).length = vs.length + 16 := by
  simp [dq8Bytes, dq8EncodeBlock, zeros]

theorem mxEncodeBlock_length (code : Nat) (rnd : Nat → Rnd) (vs : List (Option XVal)) :
    (mxEncodeBlock code rnd vs).elems.length = vs.length := by
  unfold mxEncodeBlock
  split
  · rw [List.length_map]
  · split
    · rw [List.length_map]
    · simp

theorem chunksOf_length {α : Type} (n fuel : Nat) (l : List α) : (chunksOf n fuel l).length ≤ fuel := by
  induction fuel generalizing l with
  | zero => exact Nat.le_refl 0
  | succ fuel ih =>
    unfold chunksOf
    cases l with
    | nil => exact Nat.zero_le _
    | cons a l => exact Nat.succ_le_succ (ih _)

theorem mxBytes_length (code : Nat) (es : List ElemOut) : (mxBytes code es).length ≤ es.length := by
  unfold mxBytes
  split
  · rw [List.length_map]
    exact chunksOf_length ..
  · rw [List.length_map]

/-! ## Extents within a permitted extent (R329) -/

theorem backed_iff (x : Nat) : backed x = true ↔ x < cupEnd ∨ (hbmBase ≤ x ∧ x < hbmBase + 8 * hbmSlot)
    ∧ ((x - hbmBase) % hbmSlot < 0xC00000000 ∨ (x - hbmBase) % hbmSlot < hbmSlot ∧ Config.hbm512 = true) := by
  unfold backed slotBacked
  simp only [Bool.or_eq_true, Bool.and_eq_true, decide_eq_true_eq]

/-- Within one slot the offset in the slot rises with the address. -/
theorem mod_le_of_div_eq {x y z m : Nat} (hx : x ≤ y) (hz : y ≤ z) (h : x / m = z / m) : y % m ≤ z % m := by
  have e : y / m = z / m := Nat.le_antisymm (Nat.div_le_div_right hz) (h ▸ Nat.div_le_div_right hx)
  rw [Nat.mod_def, Nat.mod_def, e]
  exact Nat.sub_le_sub_right hz _

/-- A byte of a backed range is backed. -/
theorem backed_byte {a n k : Nat} (h : rangeBacked a n = true) (hk : k < n) : backed (a + k) = true := by
  unfold rangeBacked at h
  simp only [Bool.or_eq_true, Bool.and_eq_true, decide_eq_true_eq, beq_iff_eq] at h
  rw [backed_iff]
  rcases h with (rfl | hc) | ⟨⟨⟨-, hz⟩, ha⟩, hs⟩
  · exact absurd hk (Nat.not_lt_zero k)
  · exact .inl (by omega)
  · rw [backed_iff] at hz
    rcases hz with hz | ⟨⟨-, hz⟩, hb⟩
    · exact .inl (by omega)
    · refine .inr ⟨⟨by omega, by omega⟩, ?_⟩
      have slot (y : Nat) : y % hbmSlot < hbmSlot := Nat.mod_lt y (by norm_num)
      rcases hs with hs | hs
      · exact hb.imp (Nat.lt_of_le_of_lt (mod_le_of_div_eq (by omega) (by omega) hs)) fun hb => ⟨slot _, hb.2⟩
      · exact .inr ⟨slot _, hs⟩

/-- A byte of a permitted extent is permitted. -/
theorem permitted_byte {s : State} {ctx a n k : Nat} {rd wr : Bool} (h : permitted s ctx a n rd wr = true) (hk : k < n) :
    permitted s ctx ((a + k) % 2 ^ 64) 1 rd wr = true := by
  unfold permitted at h ⊢
  simp only [Bool.or_eq_true, Bool.and_eq_true, decide_eq_true_eq, beq_iff_eq, List.any_eq_true] at h ⊢
  rcases h with rfl | ⟨⟨hle, hb⟩, i, hi, hw⟩
  · exact absurd hk (Nat.not_lt_zero k)
  · rw [Nat.mod_eq_of_lt (by omega)]
    have hb := backed_byte hb hk
    refine .inr ⟨⟨by omega, ?_⟩, i, hi, ?_⟩
    · unfold rangeBacked
      rw [Nat.add_sub_cancel, hb]
      rcases (backed_iff _).mp hb with hc | ⟨⟨hl, -⟩, -⟩
      · simp [Nat.succ_le_of_lt hc]
      · simp [hl]
    · cases hx : window s ctx i with
      | none => rw [hx] at hw; cases hw
      | some x =>
        rw [hx] at hw
        simp only [Bool.and_eq_true, decide_eq_true_eq] at hw ⊢
        obtain ⟨⟨⟨hl, hh⟩, hr⟩, hv⟩ := hw
        exact ⟨⟨⟨by omega, by omega⟩, hr⟩, hv⟩

theorem dq8Fault_none {c : InsnCtx} {r : DrsRun} {l : Nat} (ha : dq8Addr c r (l / 128) % 16 = 0)
    (hp : permitted c.s c.ref.ctx (dq8Addr c r (l / 128)) 144 false true = true) : dq8Fault c r l = none := by
  unfold dq8Fault
  dsimp only
  rw [if_neg (not_not.mpr ha), accessAt_none (Nat.mod_one _) (permitted_byte hp (by omega)), hp]
  rfl

/-! ## The stores of blocks -/

/-- The bytes of sign codes lie one after another, modulo 2^64 (R195). -/
theorem signAddr_eq (c : InsnCtx) (r : DrsRun) (l : Nat) : signAddr c r l = ((baseAddr c r).toNat + l / 4) % 2 ^ 64 := by
  unfold signAddr
  rw [BitVec.toNat_add, BitVec.toNat_ofNat, Nat.add_mod_mod]

theorem signAddr_first (c : InsnCtx) (r : DrsRun) (l : Nat) : signAddr c r (4 * (l / 4)) = signAddr c r l := by
  rw [signAddr_eq, signAddr_eq, Nat.mul_div_cancel_left _ (by decide)]

theorem signAddr_ne (c : InsnCtx) (r : DrsRun) {a b : Nat} (h : a < b) (hb : b < 64) : signAddr c r (4 * a) ≠ signAddr c r (4 * b) := by
  rw [signAddr_eq, signAddr_eq, Nat.mul_div_cancel_left _ (by decide), Nat.mul_div_cancel_left _ (by decide)]
  omega

/-- The bytes of sign codes that hold an active lane. -/
def signBytes (r : DrsRun) (w : DWord) : List Nat := (List.range 64).filter fun b => (activeLanes r w).any fun i => i / 4 == b

theorem mem_signBytes {r : DrsRun} {w : DWord} {b : Nat} :
    b ∈ signBytes r w ↔ b < 64 ∧ ∃ l, l < 256 ∧ active r w l = true ∧ l / 4 = b := by
  unfold signBytes
  rw [List.mem_filter, List.mem_range, List.any_eq_true]
  simp only [mem_activeLanes, beq_iff_eq, and_assoc]

section
variable {u : Fin 64} {j : DrsJob} {w : DWord} {r : DrsRun} {s : State}
variable (hr : r = (drsUnit s u).run)
include hr

/-- TSTS. -/
theorem signs_stored (h : Issues s u 0x30 j w) (hb : (baseAddr ⟨s, u, j.ref, w⟩ r).toNat % 8 = 0)
    (hp : ∀ l, l < 256 → active r w l = true → permitted s j.ref.ctx (signAddr ⟨s, u, j.ref, w⟩ r l) 1 false true = true) :
    Completes (.drsTsts u) s fun t =>
      (∃ h fl, Executed s t u (addEvents fl { r with streams := tabSet none r.streams (wFmt2 w) (some h) }) (r.pc + 1))
        ∧ (∀ b, b < 64 → (∃ l, l / 4 = b ∧ active r w l = true) → tabGet 0 t.mem.cells (signAddr ⟨s, u, j.ref, w⟩ r (4 * b)) =
            BitVec.ofNat 8 (sgn2Byte ((List.range 4).map fun k =>
              if active r w (4 * b + k) then (sgn2Encode (fpDecode fpFp32 (lane (rT r (wD w)) (4 * b + k)).toNat)).1 else 0)))
        ∧ (∀ x, (∀ l, l < 256 → active r w l = true → x ≠ signAddr ⟨s, u, j.ref, w⟩ r l) →
            tabGet 0 t.mem.cells x = tabGet 0 s.mem.cells x) := by
  have hc : exec (.drsTsts u) s = .next (drsStep 0x30 u _ s) := rfl
  obtain ⟨t, he, run, cells, -⟩ := tile_stored hr h hc (ms := []) rfl (lanesFault_none fun l hl ha => signFault_none hb (hp l hl ha))
  refine ⟨t, he, run, fun b hb ⟨l, hl, ha⟩ => ?_, fun x hx => ?_⟩
  · refine (congrFun cells _).trans ((stored_read (ls := signBytes r w) (addr := fun b => signAddr ⟨s, u, j.ref, w⟩ r (4 * b)) (k := 0)
      (List.pairwise_lt_range.filter _) (mem_signBytes.mpr ⟨hb, l, by omega, ha, hl⟩) (by exact Nat.zero_lt_one) (fun i hi hbi => ?_) _).trans ?_)
    · exact Nat.lt_or_gt_of_ne (signAddr_ne _ r hbi (mem_signBytes.mp hi).1)
    · dsimp only
      simp only [apply_ite Prod.fst]
      rfl
  · refine (congrFun cells _).trans (stored_other (fun a ha => ?_) _)
    obtain ⟨b, hb, rfl⟩ := List.mem_map.mp ha
    obtain ⟨-, l, hl, hal, rfl⟩ := mem_signBytes.mp hb
    have hne := hx l hl hal
    rw [← signAddr_first] at hne
    exact Nat.lt_or_gt_of_ne hne

/-- TSTQ. -/
theorem dq8_stored (h : Issues s u 0x2F j w)
    (hp : ∀ l, l < 256 → active r w l = true → dq8Addr ⟨s, u, j.ref, w⟩ r (l / 128) % 16 = 0
      ∧ permitted s j.ref.ctx (dq8Addr ⟨s, u, j.ref, w⟩ r (l / 128)) 144 false true = true)
    {rnd : Nat → Rnd} (hrnd : rnd = fun l => rndOf (wRnd w) (curStep s j.ref.ctx) r.key.tensor.toNat (laneIndex r 1 0 l)) :
    Completes (.drsTstq u) s fun t =>
      (∃ h fl, Executed s t u (addEvents fl { r with streams := tabSet none r.streams (wFmt2 w) (some h) }) (r.pc + 1))
        ∧ ∀ b, b < 2 → (∃ l, l < 256 ∧ active r w l = true) → (∀ l, l < 256 → active r w l = true → l / 128 = b) →
            ∀ k, k < 144 → tabGet 0 t.mem.cells (dq8Addr ⟨s, u, j.ref, w⟩ r b + k) =
              byteAt (dq8Bytes (dq8EncodeBlock (fun k => rnd (128 * b + k)) (blockVals ⟨s, u, j.ref, w⟩ r (128 * b) 128))) k := by
  subst hrnd
  have hc : exec (.drsTstq u) s = .next (drsStep 0x2F u _ s) := rfl
  obtain ⟨t, he, run, cells, -⟩ := tile_stored hr h hc (ms := []) rfl
    (lanesFault_none fun l hl ha => dq8Fault_none (hp l hl ha).1 (hp l hl ha).2)
  refine ⟨t, he, run, fun b hb some all k hk => ?_⟩
  have writes := blockWrites_single (c := ⟨s, u, j.ref, w⟩)
    (fun i0 vs => dq8EncodeBlock (fun t => InsnCtx.rnd ⟨s, u, j.ref, w⟩ r (laneIndex r 1 0 (i0 + t))) vs)
    (fun i0 b => [(dq8Addr ⟨s, u, j.ref, w⟩ r (i0 / 128), dq8Bytes b)]) (by decide) hb some all
  rw [Nat.mul_div_cancel_left b (by decide)] at writes
  rw [cells]
  refine (congrArg (fun ws => tabGet 0 (stored s.mem.cells ws) _) writes).trans (memStore_read _ _ _ _ ?_)
  rw [dq8Bytes_length, blockVals_length]
  exact hk

/-- TSTX. -/
theorem mx_stored (h : Issues s u 0x2E j w) (hh : (rS r (wC w)).toNat % 32 = 0)
    (hp : ∀ l, l < 256 → active r w l = true → permitted s j.ref.ctx (mxAddrs ⟨s, u, j.ref, w⟩ r l).1 1 false true = true
      ∧ permitted s j.ref.ctx (mxAddrs ⟨s, u, j.ref, w⟩ r l).2 1 false true = true)
    {rnd : Nat → Rnd} (hrnd : rnd = fun l => rndOf (wRnd w) (curStep s j.ref.ctx) r.key.tensor.toNat (laneIndex r 1 0 l)) :
    Completes (.drsTstx u) s fun t =>
      (∃ h fl, Executed s t u (addEvents fl { r with streams := tabSet none r.streams (wFmt2 w) (some h) }) (r.pc + 1))
        ∧ ∀ b blk, b < 8 → (∃ l, l < 256 ∧ active r w l = true) → (∀ l, l < 256 → active r w l = true → l / 32 = b) →
            blk = mxEncodeBlock (wFmt w) (fun k => rnd (32 * b + k)) (blockVals ⟨s, u, j.ref, w⟩ r (32 * b) 32) →
            (mxAddrs ⟨s, u, j.ref, w⟩ r (32 * b)).2 + 1 ≤ (mxAddrs ⟨s, u, j.ref, w⟩ r (32 * b)).1
              ∨ (mxAddrs ⟨s, u, j.ref, w⟩ r (32 * b)).1 + 32 ≤ (mxAddrs ⟨s, u, j.ref, w⟩ r (32 * b)).2 →
            tabGet 0 t.mem.cells (mxAddrs ⟨s, u, j.ref, w⟩ r (32 * b)).2 = BitVec.ofNat 8 blk.scale
              ∧ ∀ k, k < (mxBytes (wFmt w) blk.elems).length →
                  tabGet 0 t.mem.cells ((mxAddrs ⟨s, u, j.ref, w⟩ r (32 * b)).1 + k) = byteAt (mxBytes (wFmt w) blk.elems) k := by
  subst hrnd
  have hc : exec (.drsTstx u) s = .next (drsStep 0x2E u _ s) := rfl
  obtain ⟨t, he, run, cells, -⟩ := tile_stored hr h hc (ms := []) rfl
    (lanesFault_none fun l hl ha => mxFault_none hh (hp l hl ha).1 (hp l hl ha).2)
  refine ⟨t, he, run, fun b blk hb some all hblk apart => ?_⟩
  have writes := blockWrites_single (c := ⟨s, u, j.ref, w⟩)
    (fun i0 vs => mxEncodeBlock (wFmt w) (fun t => InsnCtx.rnd ⟨s, u, j.ref, w⟩ r (laneIndex r 1 0 (i0 + t))) vs)
    (fun i0 b => [((mxAddrs ⟨s, u, j.ref, w⟩ r i0).2, [BitVec.ofNat 8 b.scale]), ((mxAddrs ⟨s, u, j.ref, w⟩ r i0).1, mxBytes (wFmt w) b.elems)])
    (by decide) hb some all
  have hblk' : mxEncodeBlock (wFmt w) (fun t => InsnCtx.rnd ⟨s, u, j.ref, w⟩ r (laneIndex r 1 0 (32 * b + t)))
      (blockVals ⟨s, u, j.ref, w⟩ r (32 * b) 32) = blk := hblk.symm
  rw [hblk'] at writes
  have length : (mxBytes (wFmt w) blk.elems).length ≤ 32 := by
    refine (mxBytes_length ..).trans ?_
    rw [hblk, mxEncodeBlock_length, blockVals_length]
  have held (x : Nat) := (congrFun cells x).trans (congrArg (fun ws => tabGet 0 (stored s.mem.cells ws) x) writes)
  refine ⟨(held _).trans ?_, fun k hk => (held _).trans (memStore_read _ _ _ _ hk)⟩
  exact (memStore_other _ _ _ _ (by dsimp only; omega)).trans (memStore_read _ _ _ 0 (Nat.zero_lt_one))

end

/-- Settles O42: the loads and their delivery, the stores of scalars, masks and lanes, and the stores of blocks, each by its lemma. -/
theorem loadsAndStores : Obligations.LoadsAndStores := by
  unfold Obligations.LoadsAndStores
  refine ⟨?_, ?_, ?_⟩
  · rintro u j w r c a s hr rfl ha
    refine ⟨fun h => scalar_loaded hr h ha, fun h => mask_loaded hr h ha, ?_, fun h => mx_loaded hr h, fun h hb => ?_, fun h => pair_loaded hr h,
      fun d ls => ⟨fun v hl => load_returns hr hl, fun v hl => load_returns hr hl, fun x hl => load_returns hr hl,
        fun hi lo hl => load_returns hr hl⟩⟩
    · rintro i op n align conv ho h hp
      have none : lanesFault ⟨s, u, j.ref, w⟩ r (fun l => accessAt ⟨s, u, j.ref, w⟩ false align (laneAddr ⟨s, u, j.ref, w⟩ r l) n) = none :=
        lanesFault_none fun l hl ha => accessAt_none (hp l hl ha).1 (hp l hl ha).2
      rcases ho with ⟨rfl, rfl, rfl, rfl, rfl⟩ | ⟨rfl, rfl, rfl, rfl, rfl⟩
      · have hc : exec (.drsTld u) s = .next (drsStep 0x28 u _ s) := rfl
        exact tile_loaded hr h hc rfl none
      · have hc : exec (.drsTldc u) s = .next (drsStep 0x29 u _ s) := rfl
        obtain ⟨t, he, x, fl, run, lanes, cells⟩ := tile_loaded hr h hc rfl none
        exact ⟨t, he, x, fl, run, lanes_congr lanes fun l => congrArg (BitVec.ofNat 32) (loadConvert_bits ..), cells⟩
    · exact signs_loaded hr h (ha ▸ hb)
  · rintro u j w r c a s hr rfl ha
    refine ⟨?_, ?_⟩
    · rintro i op n v ho h hal hp
      subst ha
      rcases ho with ⟨rfl, rfl, rfl, rfl⟩ | ⟨rfl, rfl, rfl, rfl⟩
      · have hc : exec (.drsSst u) s = .next (drsStep 0x1C u _ s) := rfl
        exact value_stored hr h hc hal hp rfl
      · have hc : exec (.drsMst u) s = .next (drsStep 0x34 u _ s) := rfl
        exact value_stored hr h hc hal hp rfl
    · rintro i op n align v ho h hp
      have none : lanesFault ⟨s, u, j.ref, w⟩ r (fun l => accessAt ⟨s, u, j.ref, w⟩ true align (laneAddr ⟨s, u, j.ref, w⟩ r l) n) = none :=
        lanesFault_none fun l hl ha => accessAt_none (hp l hl ha).1 (hp l hl ha).2
      rcases ho with ⟨rfl, rfl, rfl, rfl, rfl⟩ | ⟨rfl, rfl, rfl, rfl, rfl⟩ | ⟨rfl, rfl, rfl, rfl, rfl⟩
      · have hc : exec (.drsTst u) s = .next (drsStep 0x2C u _ s) := rfl
        exact lanes_stored hr h hc (ms := []) rfl none
      · have hc : exec (.drsTstc u) s = .next (drsStep 0x2D u _ s) := rfl
        exact lanes_stored hr h hc (ms := []) rfl none
      · have hc : exec (.drsWst u) s = .next (drsStep 0x32 u _ s) := rfl
        exact lanes_stored hr h hc rfl none
  · rintro u j w r c rnd s hr rfl hrnd
    exact ⟨fun h => signs_stored hr h, fun h hp => dq8_stored hr h hp hrnd, fun h hh hp => mx_stored hr h hh hp hrnd⟩

end Sys2Proof.Machine

/-!
SUPPORT. Trestle (R164, R170, R171): the tree of pairs, an attempt at a tile with what it notes and writes, and what becomes of the engine's
queue.
-/
namespace Sys2Proof.Machine
set_option Elab.async false
open Sys2Proof.Safety

/-! ## Sums by pairs (R164) -/

theorem addPairs_length : (l : List Acc) → (addPairs l).length = (l.length + 1) / 2
  | [] => rfl
  | [_] => by simp [addPairs]
  | a :: b :: t => by
    rw [addPairs, List.length_cons, addPairs_length t, List.length_cons, List.length_cons]
    omega

/-- A whole chunk comes to one sum. -/
theorem treeSum_whole {l : List Acc} (h : l.length = 32) : ∃ a, treeSum l = [a] := by
  refine List.length_eq_one_iff.mp ?_
  unfold treeSum
  simp only [addPairs_length, h]

theorem chunksOf_cons {α : Type} {n fuel : Nat} {l : List α} (h : l ≠ []) :
    chunksOf n (fuel + 1) l = l.take n :: chunksOf n fuel (l.drop n) := by
  cases l with
  | nil => exact absurd rfl h
  | cons a l => rfl

theorem chunksOf_nil {α : Type} (n fuel : Nat) : chunksOf n fuel ([] : List α) = [] := by
  cases fuel <;> rfl

/-- The terms of an element. -/
def trsTerms (s : State) (b : List Byte) (scale : Int) (i k n : Nat) : List Acc := (List.range n).map (trsTerm s b scale i k)

section
variable {b : List Byte} {scale : Int} {i k : Nat} {s : State} {a : Acc}

/-- The sum of one whole chunk is the element's. -/
theorem trestleAcc_chunk (hk : trsK b = 32) (ha : treeSum (trsTerms s b scale i k 32) = [a]) : trestleAcc s b scale i k = a := by
  have hl : (trsTerms s b scale i k 32).length = 32 := by rw [trsTerms, List.length_map, List.length_range]
  have hc : chunksOf 32 32 (trsTerms s b scale i k 32) = [trsTerms s b scale i k 32] := by
    rw [chunksOf_cons (List.ne_nil_of_length_pos (by rw [hl]; decide)), List.take_of_length_le (Nat.le_of_eq hl),
      List.drop_of_length_le (Nat.le_of_eq hl), chunksOf_nil]
  unfold trestleAcc
  rw [hk]
  unfold trsTerms at ha hc
  dsimp only
  rw [hc, List.flatMap_singleton, ha]
  rfl

/-- The 33rd term is added to the sum of the first 32. -/
theorem trestleAcc_beyond (hk : trsK b = 33) (ha : treeSum (trsTerms s b scale i k 32) = [a]) :
    trestleAcc s b scale i k = accAdd a (trsTerm s b scale i k 32) := by
  have hl : (trsTerms s b scale i k 32).length = 32 := by rw [trsTerms, List.length_map, List.length_range]
  have ht : trsTerms s b scale i k 33 = trsTerms s b scale i k 32 ++ [trsTerm s b scale i k 32] := by
    unfold trsTerms
    rw [List.range_succ, List.map_append, List.map_singleton]
  have hc : chunksOf 32 33 (trsTerms s b scale i k 33) = [trsTerms s b scale i k 32, [trsTerm s b scale i k 32]] := by
    rw [ht, chunksOf_cons (by simp), List.take_left' hl, List.drop_left' hl]
    rfl
  unfold trestleAcc
  rw [hk]
  unfold trsTerms at ha hc
  dsimp only
  rw [hc, List.flatMap_cons, ha, List.flatMap_singleton]
  rfl

end

/-- R164: one term, four terms, and a term beyond a whole chunk. -/
theorem terms_by_pairs (b : List Byte) (scale : Int) (i k : Nat) (s : State) :
    (trsK b = 1 → trestleAcc s b scale i k = trsTerm s b scale i k 0) ∧
    (trsK b = 4 → trestleAcc s b scale i k =
      accAdd (accAdd (trsTerm s b scale i k 0) (trsTerm s b scale i k 1)) (accAdd (trsTerm s b scale i k 2) (trsTerm s b scale i k 3))) ∧
    (∀ b' : List Byte, trsK b = 33 → trsK b' = 32 → (∀ n, n < 32 → trsTerm s b' scale i k n = trsTerm s b scale i k n) →
      trestleAcc s b scale i k = accAdd (trestleAcc s b' scale i k) (trsTerm s b scale i k 32)) := by
  refine ⟨fun h => ?_, fun h => ?_, fun b' h h' same => ?_⟩
  · unfold trestleAcc
    rw [h]
    rfl
  · unfold trestleAcc
    rw [h]
    rfl
  · obtain ⟨a, ha⟩ := treeSum_whole (l := trsTerms s b scale i k 32) (by rw [trsTerms, List.length_map, List.length_range])
    have ht : trsTerms s b' scale i k 32 = trsTerms s b scale i k 32 :=
      List.map_congr_left fun n hn => same n (List.mem_range.mp hn)
    rw [trestleAcc_beyond h ha, trestleAcc_chunk h' (ht ▸ ha)]

end Sys2Proof.Machine

/-!
SUPPORT. Trestle (R163, R170, R171): what an attempt at a tile leaves behind, whether it is retried, written with more tiles to come, or the
last of its descriptor.
-/
namespace Sys2Proof.Machine
set_option Elab.async false
open Sys2Proof.Safety

/-! ## The outcome of an attempt -/

/-- The accesses of engine `u` for its job. -/
def trsAccess (u : Nat) (j : TrsJob) : Access := ⟨3, u, some j.ref⟩

/-- An element of the attempt overflows. -/
def attemptOverflows (s : State) (j : TrsJob) : Bool := (attemptElems (trsAttempt s j)).any (·.flags.overflow)

/-- The tile has been written. -/
def tileWritten (u : Nat) (j : TrsJob) (s : State) : State :=
  writeTile (trsAccess u j) j.bytes j.tile (trsAttempt s j) (noteTileReads (trsAccess u j) j s)

/-- The halving map too. -/
def tileMapped (u : Nat) (j : TrsJob) (s : State) : State :=
  if mapWritten j.bytes then
    writeMem (trsAccess u j) (extHalve j.ext + j.tile)
      (leBytes 1 (j.halvings + 128 * boolNat (attemptOverflows s j && mapWritten j.bytes))) (tileWritten u j s)
  else tileWritten u j s

/-- And the tile is counted. -/
def tileDone (u : Nat) (j : TrsJob) (s : State) : State :=
  trsCount j (attemptElems (trsAttempt s j)) (attemptOverflows s j) (attemptOverflows s j && mapWritten j.bytes) (tileMapped u j s)

/-- The job with that tile behind it. -/
def tileAdvanced (j : TrsJob) (s : State) : TrsJob := trsAdvance j (attemptElems (trsAttempt s j)) (attemptOverflows s j)

section
variable {u : Nat} {j : TrsJob} {js : List TrsJob} {s : State}

theorem exec_tile_retried {u : Fin 16} (hq : (trsEngine s u).queue = j :: js) (h0 : tileCount j.bytes ≠ 0) (ho : attemptOverflows s j = true)
    (hm : mapWritten j.bytes = true) (hr : j.halvings < trsRetryMax j.bytes) :
    exec (.trsTileDone u) s = .next (modTrs u (fun e => { e with queue := { j with halvings := j.halvings + 1 } :: js })
      (noteTileReads (trsAccess u j) j s)) := by
  show execTrsTileDone u s = _
  have hb : ((attemptElems (trsAttempt s j)).any (·.flags.overflow) && mapWritten j.bytes && decide (j.halvings < trsRetryMax j.bytes)) = true := by
    rw [hm, decide_eq_true hr]
    exact congrArg (· && true && true) ho
  unfold execTrsTileDone
  rw [hq]
  dsimp only
  rw [if_neg h0, if_pos hb]
  rfl

theorem exec_tile_done {u : Fin 16} (hq : (trsEngine s u).queue = j :: js) (h0 : tileCount j.bytes ≠ 0)
    (hr : attemptOverflows s j = false ∨ mapWritten j.bytes = false ∨ trsRetryMax j.bytes ≤ j.halvings) :
    exec (.trsTileDone u) s =
      if j.tile + 1 < tileCount j.bytes ∧ !j.dropped then
        .next (modTrs u (fun e => { e with queue := tileAdvanced j s :: js }) (tileDone u j s))
      else .next (popTrs u (tileAdvanced j s) js (trsFinalStatus (tileAdvanced j s)) (tileDone u j s)) := by
  show execTrsTileDone u s = _
  have hb : ¬((attemptElems (trsAttempt s j)).any (·.flags.overflow) && mapWritten j.bytes && decide (j.halvings < trsRetryMax j.bytes)) = true := by
    intro h
    obtain ⟨hom, hl⟩ := Bool.and_eq_true_iff.mp h
    obtain ⟨ho, hm⟩ := Bool.and_eq_true_iff.mp hom
    rcases hr with h | h | h
    · exact Bool.false_ne_true (h.symm.trans ho)
    · exact Bool.false_ne_true (h.symm.trans hm)
    · exact absurd (of_decide_eq_true hl) (Nat.not_lt.mpr h)
  unfold execTrsTileDone
  rw [hq]
  dsimp only
  rw [if_neg h0, if_neg hb]
  rfl

/-- R171: the status speaks of this tile and of those before it. -/
theorem tileAdvanced_status : trsFinalStatus (tileAdvanced j s) =
    if j.exhausted ≠ 0 ∨ attemptOverflows s j = true ∧ mapWritten j.bytes = true then 0x0401
    else if j.overflowed = true ∨ attemptOverflows s j = true then 0x0402 else 0 := by
  have hx : (tileAdvanced j s).exhausted = j.exhausted + boolNat (attemptOverflows s j && mapWritten j.bytes) := by
    show j.exhausted + boolNat (attemptOverflows s j && trsRetryMax j.bytes != 0 && !trsAccum j.bytes) = _
    rw [Bool.and_assoc]
    rfl
  have ho : (tileAdvanced j s).overflowed = (j.overflowed || attemptOverflows s j) := rfl
  unfold trsFinalStatus
  rw [hx, ho]
  refine if_congr ?_ rfl (if_congr (by simp) rfl rfl)
  cases attemptOverflows s j <;> cases mapWritten j.bytes <;> simp [boolNat]

/-! ## What writing and counting leave unchanged -/

theorem tileMapped_keeps : Keeps 0x80008000000642 s (tileMapped u j s) := by
  have hw : Keeps 0x80008000000642 s (tileWritten u j s) := (noteTileReads_keeps ..).trans (writeTile_keeps ..)
  unfold tileMapped
  exact .ite (hw.trans (writeMem_keeps ..)) hw

theorem tileDone_keeps : Keeps 0x88008800000642 s (tileDone u j s) :=
  (tileMapped_keeps.mono (by decide)).trans (trsCount_keeps ..)

/-- The tile is counted once, whatever else is counted. -/
theorem trsCount_counted (elems : List ElemOut) (ov exh : Bool) : Counted s (trsCount j elems ov exh s) cTrsTiles 1 := by
  have retried : counter (if j.halvings ≠ 0 then bump cTrsRetry 1 (bump cTrsTiles 1 s) else bump cTrsTiles 1 s) cTrsTiles
      = counter (bump cTrsTiles 1 s) cTrsTiles := by
    split
    · exact counter_bump_ne _ _ _ _ (by decide)
    · rfl
  have exhausted (x : State) : counter (if exh then setFlag .trs 1 (bump cTrsExhaust 1 x) else x) cTrsTiles = counter x cTrsTiles := by
    split
    · exact counter_bump_ne _ _ _ _ (by decide)
    · rfl
  have overflowed (n : Nat) (x : State) : counter (if ov then setFlag .trs 2 (bump cTrsOverflow n x) else x) cTrsTiles = counter x cTrsTiles := by
    split
    · exact counter_bump_ne _ _ _ _ (by decide)
    · rfl
  unfold Counted trsCount
  dsimp only
  rw [overflowed, exhausted, retried]
  exact counted_bump ..

theorem tileDone_counted : Counted s (tileDone u j s) cTrsTiles 1 :=
  counted_after (b := .trs) tileMapped_keeps (trsCount_counted ..)

theorem tileDone_out : (tileDone u j s).out = s.out := (tileDone_keeps.frame .output rfl).1

theorem trsQueue_modTrs (q : List TrsJob) (x : State) : (trsEngine (modTrs u (fun e => { e with queue := q }) x) u).queue = q := by
  unfold trsEngine
  rw [trs_modTrs, if_pos rfl]

end

/-! ## The descriptor on its way to its completion -/

section
variable {r : DRef} {s : State}

/-- One error noted is one step on the way. -/
theorem errorNoted_onward (acc : Access) (e : Nat × Bool) (he : s.mem.errs ≠ []) (h : (findDesc s r).isSome = true) :
    Onward r s (noteErrors acc [e] s) := by
  have noted : Onward r s (noteError acc e.1 e.2 s) :=
    .of_keeps (noteError_keeps acc e.1 e.2 s (F := 0x80008000000402)) rfl rfl rfl rfl fun c => (noteError_errs ..).trans c
  have marked (q : DRef) : Onward r (noteError acc e.1 e.2 s) (markPoisoned q (noteError acc e.1 e.2 s)) := by
    refine Onward.modRing r q.ctx q.ring _ _ (fun x => ⟨rfl, rfl⟩) (fun x d hd => ?_) (noted.found h)
    refine ⟨(fun d => if d.idx = q.idx then { d with poisoned := true } else d) d, ?_, ?_, fun c => absurd ((noteError_errs ..).symm.trans c) he⟩
    · show (x.opened.map _).find? _ = _
      rw [find_map_idx _ (fun d => by split <;> rfl), hd]
      rfl
    · dsimp only
      split <;> rfl
  show Onward r s (match acc.ref, e.2 with | some q, true => markPoisoned q (noteError acc e.1 e.2 s) | _, _ => noteError acc e.1 e.2 s)
  split
  · exact noted.trans (marked _) h
  · exact noted

theorem noteErrors_errs (acc : Access) (es : List (Nat × Bool)) (s : State) : (noteErrors acc es s).mem.errs = s.mem.errs :=
  foldl_same (fun x : State => x.mem.errs) _ (fun x e => by
    have hn := noteError_errs acc e.1 e.2 x
    dsimp only
    split
    · exact hn
    · exact hn) es s

theorem noteErrors_onward (acc : Access) (es : List (Nat × Bool)) (he : s.mem.errs ≠ []) (h : (findDesc s r).isSome = true) :
    Onward r s (noteErrors acc es s) := by
  induction es generalizing s with
  | nil => exact .refl r s
  | cons e es ih =>
    have k := errorNoted_onward acc e he h
    exact k.trans (ih (by rw [noteErrors_errs]; exact he) (k.found h)) h

theorem noteTileReads_onward (acc : Access) (j : TrsJob) (h : (findDesc s r).isSome = true) : Onward r s (noteTileReads acc j s) := by
  unfold noteTileReads
  split
  · exact .refl r s
  · rename_i he
    exact noteErrors_onward _ _ (fun e => he (by rw [e]; rfl)) h

theorem writeMxRow_clean (acc : Access) (c : Stored) (q i : Nat) (blocks : List BlockOut) {x : State} (h : x.mem.errs = []) :
    (writeMxRow acc c q i blocks x).mem.errs = [] := by
  have blocks_clean := foldl_keeps (fun x : State => x.mem.errs = []) (fun s (p : BlockOut × Nat) =>
      writeMem acc (c.addr + i * 16 * c.pitch + mxElemOffset c.fmt (256 * q + 32 * p.2))
        (mxBytes c.fmt (p.1.elems ++ List.replicate (32 - p.1.elems.length) ⟨0, .zero, false, {}⟩))
        (writeMem acc (c.addr + i * 16 * c.pitch + mxScaleOffset c.fmt (256 * q + 32 * p.2)) [BitVec.ofNat 8 p.1.scale] s))
    (fun s p hs => writeMem_clean _ _ _ _ (writeMem_clean _ _ _ _ hs)) (blocks.zip (List.range blocks.length)) x h
  unfold writeMxRow
  dsimp only
  split
  · exact blocks_clean
  · exact foldl_keeps (fun x : State => x.mem.errs = []) _ (fun s k hs => writeMem_clean _ _ _ _ (writeMem_clean _ _ _ _ hs)) _ _ blocks_clean

theorem writeTile_clean (acc : Access) (b : List Byte) (tile : Nat) (rows : List (Nat × List BlockOut)) {x : State} (h : x.mem.errs = []) :
    (writeTile acc b tile rows x).mem.errs = [] := by
  unfold writeTile
  dsimp only
  split
  · exact foldl_keeps (fun x : State => x.mem.errs = []) _ (fun s r hs => writeMxRow_clean _ _ _ _ _ hs) _ _ h
  · split
    · exact foldl_keeps (fun x : State => x.mem.errs = []) _ (fun s a hs => writeMem_clean _ _ _ _ hs) _ _ h
    · exact foldl_keeps (fun x : State => x.mem.errs = []) _ (fun s r hs => writeMem_clean _ _ _ _ hs) _ _ h

theorem tileDone_onward (u : Nat) (j : TrsJob) (h : (findDesc s r).isSome = true) : Onward r s (tileDone u j s) := by
  have reads := noteTileReads_onward (trsAccess u j) j h
  have written : Onward r s (tileWritten u j s) :=
    reads.trans (.of_keeps (writeTile_keeps (F := 0x80008000000602) ..) rfl rfl rfl rfl (writeTile_clean _ _ _ _)) h
  have mapped : Onward r s (tileMapped u j s) := by
    unfold tileMapped
    split
    · exact written.trans (writeMem_onward ..) h
    · exact written
  have counted : Keeps 0x8000800000000 (tileMapped u j s) (tileDone u j s) := trsCount_keeps ..
  exact mapped.trans (.of_keeps counted rfl rfl rfl rfl fun c => (counted.frame .errors rfl).1.trans c) h

theorem trsFinish_ended {j : TrsJob} {x : State} (on : Onward j.ref s x) (h : (findDesc s j.ref).isSome = true) (hd : j.dropped = false)
    (status : Nat) : Ended s (trsFinish j status x) j.ref status (trsTail j) := by
  have logged {p : Prop} [Decidable p] (y : State) : Onward j.ref y (if p then trsLog j status 0 y else y) := by
    split
    · exact .of_keeps (trsLog_keeps (F := 2) ..) rfl rfl rfl rfl id
    · exact .refl ..
  unfold trsFinish
  rw [hd]
  dsimp only
  have hist := on.trans (emitHist_onward j.ref j.ref j.noHist 0 .trestle (trsEngineOf j.bytes) { j.hist with fmt := trsFmtC j.bytes } x (on.found h)) h
  exact complete_ended ((hist.trans (logged _) h).trans (logged _) h) h _ _

end

/-! ## The next descriptor begins (R158) -/

section
variable {u : Nat} {js : List TrsJob} {y : State}

/-- Without descriptors that have no tile, the first of the queue, if there is one, begins. -/
theorem settleTrs_eq (hq : (trsEngine y u).queue = js) (h0 : ∀ k ∈ js, tileCount k.bytes ≠ 0) :
    settleTrs js.length u y = if js = [] then y else beginTrs u y := by
  cases js with
  | nil => rfl
  | cons k ks =>
    rw [settleTrs.eq_def, hq]
    exact if_neg (h0 k List.mem_cons_self)

theorem settleTrs_begins (hq : (trsEngine y u).queue = js) (h0 : ∀ k ∈ js, tileCount k.bytes ≠ 0) :
    Keeps 0x2000 y (settleTrs js.length u y) ∧
      (trsEngine (settleTrs js.length u y) u).queue.map (fun k => { k with step := none }) = js.map (fun k => { k with step := none }) ∧
      ∀ k, (trsEngine (settleTrs js.length u y) u).queue.head? = some k → k.step.isSome = true := by
  rw [settleTrs_eq hq h0]
  cases js with
  | nil => exact ⟨.refl y, by rw [if_pos rfl, hq], fun k hk => by rw [if_pos rfl, hq] at hk; cases hk⟩
  | cons k ks =>
    rw [if_neg (List.cons_ne_nil k ks)]
    have hb : (trsEngine (beginTrs u y) u).queue = { k with step := some (k.step.getD (curStep y k.ref.ctx)) } :: ks := by
      unfold trsEngine at hq ⊢
      unfold beginTrs
      rw [tabGet_tabMod_same, hq]
    refine ⟨beginTrs_keeps u y, by rw [hb]; rfl, fun k' hk => ?_⟩
    rw [hb] at hk
    cases hk
    rfl

end

/-! ## A tile of scalars in memory -/

section
variable {b : List Byte} {s : State}

/-- The stores of a tile of scalars that is not in tile order: one for each row. -/
def rowStores (b : List Byte) (tile : Nat) (row : Nat → List ElemOut) : List (Nat × List Byte) :=
  (tileRows b (tile / tilesAcross b)).map fun i =>
    ((storedC b).elemAddr i (256 * (tile % tilesAcross b)), scalarBytes (storedC b).fmt (row i))

theorem writeTile_cells (acc : Access) (tile : Nat) (row : Nat → List ElemOut) (hm : isMx (storedC b).fmt = false)
    (ht : (storedC b).tiled = false) (x : State) :
    (writeTile acc b tile ((tileRows b (tile / tilesAcross b)).map fun i => (i, [⟨0, row i⟩])) x).mem.cells =
      stored x.mem.cells (rowStores b tile row) := by
  unfold writeTile rowStores
  dsimp only
  rw [hm, ht, if_neg Bool.false_ne_true, if_neg Bool.false_ne_true]
  induction tileRows b (tile / tilesAcross b) generalizing x with
  | nil => rfl
  | cons i is ih =>
    have hx := ih (writeMem acc ((storedC b).elemAddr i (256 * (tile % tilesAcross b))) (scalarBytes (storedC b).fmt (row i)) x)
    rw [writeMem_cells] at hx
    rw [List.map_cons, List.foldl_cons, List.flatMap_singleton]
    exact hx

theorem tileRows_rise (p : Nat) : (tileRows b p).Pairwise (· < ·) := by
  unfold tileRows
  exact List.Pairwise.map _ (fun _ _ h => Nat.add_lt_add_left h _) List.pairwise_lt_range

theorem mem_tileRows {p x : Nat} : x ∈ tileRows b p → x < trsM b := by
  unfold tileRows
  intro h
  obtain ⟨k, hk, rfl⟩ := List.mem_map.mp h
  have := List.mem_range.mp hk
  omega

/-- A column of the tile by its place in the row. -/
theorem mem_tileCols {q y : Nat} (h : y ∈ tileCols b q) : ∃ t, y = 256 * q + t ∧ t < (tileCols b q).length ∧ 256 * q + (tileCols b q).length ≤ trsN b := by
  unfold tileCols at h ⊢
  obtain ⟨t, ht, rfl⟩ := List.mem_map.mp h
  have := List.mem_range.mp ht
  refine ⟨t, rfl, ?_, ?_⟩ <;> rw [List.length_map, List.length_range] <;> omega

theorem tileCols_getElem {q t : Nat} (h : t < (tileCols b q).length) : (tileCols b q)[t] = 256 * q + t := by
  simp [tileCols]

theorem scalarBytes_length (fmt : Nat) (es : List ElemOut) : (scalarBytes fmt es).length = elemBytes fmt * es.length :=
  length_elements (fun _ => length_leBytes ..) es

/-- An element of the tile stands where its row and column say. -/
theorem rowStores_read {tile x y k : Nat} (out : Nat → Nat → ElemOut) (ht : (storedC b).tiled = false) (hp : pitchTooSmall (storedC b) = false)
    (hm : isMx (storedC b).fmt = false) (hx : x ∈ tileRows b (tile / tilesAcross b)) (hy : y ∈ tileCols b (tile % tilesAcross b))
    (hk : k < elemBytes (storedC b).fmt) (m : Tab Byte) :
    tabGet 0 (stored m (rowStores b tile fun i => (tileCols b (tile % tilesAcross b)).map (out i)))
        ((storedC b).addr + x * 16 * (storedC b).pitch + y * elemBytes (storedC b).fmt + k) =
      byteAt (leBytes (elemBytes (storedC b).fmt) (out x y).enc) k := by
  obtain ⟨t, rfl, htl, hfit⟩ := mem_tileCols hy
  generalize hq : tile % tilesAcross b = q at *
  generalize hc : storedC b = c at *
  generalize he : elemBytes c.fmt = e at *
  have hlen (i : Nat) : (scalarBytes c.fmt ((tileCols b q).map (out i))).length = e * (tileCols b q).length := by
    rw [scalarBytes_length, List.length_map, he]
  have haddr (i : Nat) : c.elemAddr i (256 * q) = c.addr + i * (16 * c.pitch) + 256 * q * e := by
    unfold Stored.elemAddr
    rw [ht, if_neg Bool.false_ne_true, he, Nat.mul_assoc i]
  have hin : e * t + k < e * (tileCols b q).length := by
    calc e * t + k < e * t + e := by omega
      _ = e * (t + 1) := (Nat.mul_succ e t).symm
      _ ≤ _ := Nat.mul_le_mul_left e htl
  have later : ∀ i ∈ tileRows b (tile / tilesAcross b), x < i → c.elemAddr x (256 * q) + (e * t + k) < c.elemAddr i (256 * q) ∨
      c.elemAddr i (256 * q) + (scalarBytes c.fmt ((tileCols b q).map (out i))).length ≤ c.elemAddr x (256 * q) + (e * t + k) := by
    intro i hi hxi
    left
    have hrows : c.rows = trsM b := by rw [← hc]; rfl
    have hcols : c.cols = trsN b := by rw [← hc]; rfl
    have hpitch : c.cols * e ≤ c.pitch * 16 := by
      have hi := mem_tileRows hi
      unfold pitchTooSmall Stored.rowBytes at hp
      rw [ht, hm, if_neg Bool.false_ne_true, he, decide_eq_true (show 1 < c.rows by omega)] at hp
      exact Nat.not_lt.mp (of_decide_eq_false hp)
    have hnext : (x + 1) * (16 * c.pitch) ≤ i * (16 * c.pitch) := Nat.mul_le_mul_right _ hxi
    have hrow : e * (tileCols b q).length ≤ c.cols * e := by
      rw [Nat.mul_comm, hcols]
      exact Nat.mul_le_mul_right e (by omega)
    rw [haddr, haddr]
    rw [Nat.succ_mul] at hnext
    omega
  have read := stored_read (addr := fun i => c.elemAddr i (256 * q)) (bytes := fun i => scalarBytes c.fmt ((tileCols b q).map (out i)))
    (tileRows_rise (tile / tilesAcross b)) hx (by rw [hlen]; exact hin) later m
  have element : byteAt (scalarBytes c.fmt ((tileCols b q).map (out x))) (e * t + k) = byteAt (leBytes e (out x (256 * q + t)).enc) k := by
    have h := byteAt_elements (f := fun o : ElemOut => leBytes (elemBytes c.fmt) o.enc) (fun _ => length_leBytes ..)
      ((tileCols b q).map (out x)) (i := t) (k := k) (by rw [List.length_map]; exact htl) (by rw [he]; exact hk)
    rw [List.getElem_map, tileCols_getElem htl, he] at h
    unfold scalarBytes
    rw [he]
    exact h
  rw [← element, ← read]
  unfold rowStores
  rw [hq, hc]
  congr 1
  rw [haddr, Nat.add_mul, Nat.mul_comm t e, Nat.mul_assoc x]
  omega

end

end Sys2Proof.Machine

/-!
The statement on tiles and terms (O35): an attempt that is retried (R170), a tile that is written (R163 to R165, R171), and the descriptor after
its last tile.
-/
namespace Sys2Proof.Machine
set_option Elab.async false
open Sys2Proof.Safety

section
variable {u : Fin 16} {j : TrsJob} {js : List TrsJob} {s : State}

/-- R170: a retried attempt leaves nothing but its count of halvings. -/
theorem tile_retried (hq : (trsEngine s u).queue = j :: js) (h0 : tileCount j.bytes ≠ 0) (ho : attemptOverflows s j = true)
    (hm : mapWritten j.bytes = true) (hr : j.halvings < trsRetryMax j.bytes) : Completes (.trsTileDone u) s fun t =>
      (trsEngine t u).queue = { j with halvings := j.halvings + 1 } :: js ∧ t.mem.cells = s.mem.cells ∧ t.out = s.out := by
  have reads : Keeps 0x80008000000442 s (noteTileReads (trsAccess u j) j s) := noteTileReads_keeps ..
  exact ⟨_, exec_tile_retried hq h0 ho hm hr, trsQueue_modTrs .., reads.frame .memory rfl, (reads.frame .output rfl).1⟩

theorem tile_goesOn (hq : (trsEngine s u).queue = j :: js) (hd : j.dropped = false) (h0 : tileCount j.bytes ≠ 0)
    (hr : attemptOverflows s j = false ∨ mapWritten j.bytes = false ∨ trsRetryMax j.bytes ≤ j.halvings) (hn : j.tile + 1 < tileCount j.bytes) :
    exec (.trsTileDone u) s = .next (modTrs u (fun e => { e with queue := tileAdvanced j s :: js }) (tileDone u j s)) := by
  rw [exec_tile_done hq h0 hr, if_pos ⟨hn, by rw [hd]; rfl⟩]

theorem tile_counted (hq : (trsEngine s u).queue = j :: js) (hd : j.dropped = false) (h0 : tileCount j.bytes ≠ 0)
    (hr : attemptOverflows s j = false ∨ mapWritten j.bytes = false ∨ trsRetryMax j.bytes ≤ j.halvings) (hn : j.tile + 1 < tileCount j.bytes) :
    Completes (.trsTileDone u) s fun t =>
      (∃ k, (trsEngine t u).queue = k :: js ∧ k.tile = j.tile + 1 ∧ k.halvings = 0 ∧ k.written = j.written + 1)
        ∧ Counted s t cTrsTiles 1 ∧ t.out = s.out :=
  ⟨_, tile_goesOn hq hd h0 hr hn, ⟨_, trsQueue_modTrs .., rfl, rfl, rfl⟩,
    counted_of_keeps (b := .trs) tileDone_counted (modTrs_keeps (F := 0x2000) ..), tileDone_out⟩

/-- The state in which the last tile's descriptor has completed, before the next one begins. -/
def tileFinished (u : Nat) (j : TrsJob) (js : List TrsJob) (s : State) : State :=
  trsFinish (tileAdvanced j s) (trsFinalStatus (tileAdvanced j s)) (modTrs u (fun e => { e with queue := js }) (tileDone u j s))

theorem tile_last (hq : (trsEngine s u).queue = j :: js) (hd : j.dropped = false) (h0 : tileCount j.bytes ≠ 0)
    (hr : attemptOverflows s j = false ∨ mapWritten j.bytes = false ∨ trsRetryMax j.bytes ≤ j.halvings) (hn : tileCount j.bytes ≤ j.tile + 1) :
    exec (.trsTileDone u) s = .next (settleTrs js.length u (tileFinished u j js s)) := by
  rw [exec_tile_done hq h0 hr, if_neg (fun h => absurd h.1 (Nat.not_lt.mpr hn))]
  have hd' : (tileAdvanced j s).dropped = false := hd
  unfold popTrs noteStopped
  rw [hd', if_neg Bool.false_ne_true]
  rfl

theorem tileFinished_keeps : Keeps 0x1000110048042 (modTrs u (fun e => { e with queue := js }) (tileDone u j s)) (tileFinished u j js s) :=
  trsFinish_keeps ..

theorem tileFinished_queue : (trsEngine (tileFinished u j js s) u).queue = js := by
  unfold trsEngine
  rw [tileFinished_keeps.frame .trestle rfl]
  exact trsQueue_modTrs ..

theorem tileFinished_counted : Counted s (tileFinished u j js s) cTrsTiles 1 :=
  counted_of_keeps (counted_of_keeps (b := .trs) tileDone_counted (modTrs_keeps (F := 0x2000) ..)) tileFinished_keeps (b := .trs)

theorem tileFinished_ended (h : (findDesc s j.ref).isSome = true) (hd : j.dropped = false) :
    Ended s (tileFinished u j js s) j.ref (trsFinalStatus (tileAdvanced j s)) (trsTail (tileAdvanced j s)) := by
  have popped : Onward j.ref (tileDone u j s) (modTrs u (fun e => { e with queue := js }) (tileDone u j s)) :=
    .of_keeps (modTrs_keeps (F := 0x2000) ..) rfl rfl rfl rfl id
  exact trsFinish_ended (j := tileAdvanced j s) ((tileDone_onward u j h).trans popped h) h hd _

/-- R171: after the last tile the descriptor completes and the next one begins. -/
theorem tile_completes (hq : (trsEngine s u).queue = j :: js) (hd : j.dropped = false) (h0 : tileCount j.bytes ≠ 0)
    (hjs : ∀ k ∈ js, tileCount k.bytes ≠ 0) (hr : attemptOverflows s j = false ∨ mapWritten j.bytes = false ∨ trsRetryMax j.bytes ≤ j.halvings)
    (hn : tileCount j.bytes ≤ j.tile + 1) (hf : (findDesc s j.ref).isSome = true) : Completes (.trsTileDone u) s fun t =>
      (trsEngine t u).queue.map (fun k => { k with step := none }) = js.map (fun k => { k with step := none })
        ∧ (∀ k, (trsEngine t u).queue.head? = some k → k.step.isSome = true) ∧ Counted s t cTrsTiles 1 ∧ ∃ tail, Ended s t j.ref
        (if j.exhausted ≠ 0 ∨ attemptOverflows s j = true ∧ mapWritten j.bytes = true then 0x0401
         else if j.overflowed = true ∨ attemptOverflows s j = true then 0x0402 else 0) tail := by
  obtain ⟨settled, others, begun⟩ := settleTrs_begins (tileFinished_queue (j := j) (js := js) (s := s)) hjs
  refine ⟨_, tile_last hq hd h0 hr hn, others, begun, counted_of_keeps (b := .trs) tileFinished_counted settled,
    trsTail (tileAdvanced j s), ?_⟩
  rw [← tileAdvanced_status]
  exact ended_of_out (tileFinished_ended hf hd) (settled.frame .output rfl).1

/-- What memory holds once the tile is written is what it holds when the command ends. -/
theorem tile_cells (hq : (trsEngine s u).queue = j :: js) (hd : j.dropped = false) (h0 : tileCount j.bytes ≠ 0)
    (hjs : ∀ k ∈ js, tileCount k.bytes ≠ 0) (hr : attemptOverflows s j = false ∨ mapWritten j.bytes = false ∨ trsRetryMax j.bytes ≤ j.halvings) :
    Completes (.trsTileDone u) s fun t => t.mem.cells = (tileDone u j s).mem.cells := by
  by_cases hn : j.tile + 1 < tileCount j.bytes
  · exact ⟨_, tile_goesOn hq hd h0 hr hn, rfl⟩
  · obtain ⟨settled, -, -⟩ := settleTrs_begins (tileFinished_queue (j := j) (js := js) (s := s)) hjs
    exact ⟨_, tile_last hq hd h0 hr (Nat.not_lt.mp hn), (settled.frame .memory rfl).trans (tileFinished_keeps.frame .memory rfl)⟩

/-- An output element of the attempt, of a scalar format. -/
def attemptOut (s : State) (j : TrsJob) : Nat → Nat → ElemOut :=
  trsScalarOut s (j.stepNow s) j.bytes j.ext (trsScale j.bytes - j.halvings)

theorem attempt_scalars (hm : isMx (storedC j.bytes).fmt = false) : trsAttempt s j =
    (tileRows j.bytes (j.tile / tilesAcross j.bytes)).map fun i =>
      (i, [⟨0, (tileCols j.bytes (j.tile % tilesAcross j.bytes)).map (attemptOut s j i)⟩]) := by
  have hm' : isMx (trsFmtC j.bytes) = false := hm
  unfold trsAttempt trsRowOut
  dsimp only
  simp only [hm', Bool.false_eq_true, if_false]
  rfl

theorem tileDone_cells (hm : isMx (storedC j.bytes).fmt = false) (ht : (storedC j.bytes).tiled = false) (hw : mapWritten j.bytes = false) :
    (tileDone u j s).mem.cells =
      stored s.mem.cells (rowStores j.bytes j.tile fun i => (tileCols j.bytes (j.tile % tilesAcross j.bytes)).map (attemptOut s j i)) := by
  have counted : Keeps 0x8000800000000 (tileMapped u j s) (tileDone u j s) := trsCount_keeps ..
  have reads : Keeps 0x80008000000442 s (noteTileReads (trsAccess u j) j s) := noteTileReads_keeps ..
  rw [counted.frame .memory rfl]
  unfold tileMapped tileWritten
  rw [hw, if_neg Bool.false_ne_true, attempt_scalars hm, writeTile_cells _ _ _ hm ht, reads.frame .memory rfl]

end

/-- Settles O35. One command completes one attempt; its three outcomes are read off the model's equation for each, and a written element is
found in memory among the stores of its tile's rows, which do not overlap. -/
theorem tilesAndTerms : Obligations.TilesAndTerms := by
  unfold Obligations.TilesAndTerms
  refine ⟨?_, terms_by_pairs⟩
  rintro u j js ov c s hq hd h0 hjs rfl rfl
  refine ⟨fun ho hm hr => tile_retried hq h0 ho hm hr, fun hr => ⟨fun hn => tile_counted hq hd h0 hr hn,
    fun hn hf => tile_completes hq hd h0 hjs hr hn hf, fun hmx ht hp hw => ?_⟩⟩
  obtain ⟨t, ht', cells⟩ := tile_cells hq hd h0 hjs hr
  refine ⟨t, ht', fun x y k hx hy hk => ?_⟩
  rw [cells, tileDone_cells hmx ht hw]
  exact rowStores_read (attemptOut s j) ht hp hmx hx hy hk _

end Sys2Proof.Machine

/-!
SUPPORT. A dispatched descriptor on its way to its completion (R336, R357): it stays open while what its dispatch reads is noted, and readers
receive from memory what they received before.
-/
namespace Sys2Proof.Machine
set_option Elab.async false
open Sys2Proof.Safety

section
variable {ctx ring op : Nat} {s : State}

/-- A descriptor that can be dispatched is open. -/
theorem findDesc_of_dispatches {a : Accepted} (h : Dispatches s ctx ring op a) : (findDesc s a.ref).isSome = true := by
  obtain ⟨d, hd, hs⟩ := h
  have hready : dispatchReady s ctx ring = some d := by
    unfold headFor dispatchable at hd
    split at hd
    · rename_i e he
      split at hd
      · cases hd
        exact (Option.filter_eq_some_iff.mp he).1
      · cases hd
    · cases hd
  have hopen : d ∈ (ringOf s ctx ring).opened := List.mem_of_mem_filter (dispatchReady_unstarted hready)
  rw [substitute_ref hs]
  exact List.find?_isSome.mpr ⟨d, hopen, beq_self_eq_true d.idx⟩

theorem noteTable_onward {r : DRef} (q : DRef) (h : (findDesc s r).isSome = true) : Onward r s (noteTable q s) := by
  unfold noteTable
  split
  · exact .refl r s
  · split
    · exact .refl r s
    · exact noteRead_onward r _ _ _ s h

theorem noteGens_onward {r : DRef} (a : Accepted) (h : (findDesc s r).isSome = true) : Onward r s (noteGens a s) := by
  unfold noteGens
  split
  · exact .refl r s
  · split
    · exact .refl r s
    · exact foldl_onward r _ (fun s e hs => noteRead_onward r _ _ _ s hs) _ s h

theorem dispatchNoted_onward {r : DRef} (ctx ring : Nat) (d : Desc) (h : (findDesc s r).isSome = true) :
    Onward r s (dispatchNoted ctx ring d s) := by
  have table := noteTable_onward ⟨ctx, ring, d.idx⟩ h
  have marked := table.trans (markDispatched_onward r ctx ring d.idx _ (table.found h)) h
  exact marked.trans (noteGens_onward _ (marked.found h)) h

theorem dispatchNoted_errs (ctx ring : Nat) (d : Desc) (s : State) : (dispatchNoted ctx ring d s).mem.errs = s.mem.errs := by
  have table (q : DRef) : (noteTable q s).mem.errs = s.mem.errs := by
    unfold noteTable
    split
    · rfl
    · split
      · rfl
      · exact noteRead_errs ..
  have gens (a : Accepted) (x : State) : (noteGens a x).mem.errs = x.mem.errs := by
    unfold noteGens
    split
    · rfl
    · split
      · rfl
      · exact foldl_same (fun x : State => x.mem.errs) _ (fun s e => noteRead_errs ..) _ x
  exact (gens ..).trans (table _)

theorem readMem_dispatchNoted (ctx ring : Nat) (d : Desc) (s : State) : readMem (dispatchNoted ctx ring d s) = readMem s := by
  have cells : (dispatchNoted ctx ring d s).mem.cells = s.mem.cells := (dispatchNoted_keeps ctx ring d s).frame .memory rfl
  funext a n
  unfold readMem memByte uncorrectable
  rw [cells, dispatchNoted_errs]

end

end Sys2Proof.Machine

/-!
SUPPORT. The acceptance of a matrix product (R173 to R175): what validation reads, and the descriptor's place in its engine's queue.
-/
namespace Sys2Proof.Machine
set_option Elab.async false
open Sys2Proof.Safety

/-! ## The extension record (R173) -/

/-- Validation can read the extension record. -/
def extReadable (s : State) (ctx : Nat) (b : List Byte) : Bool :=
  extNeeded b && decide (trsExtIndex b < reg s (rTrsExtCount ctx)) && permitted s ctx (extAddr s ctx b) 32 true false

theorem extReadable_iff {s : State} {ctx : Nat} {b : List Byte} : extReadable s ctx b = true ↔
    extNeeded b ∧ trsExtIndex b < reg s (rTrsExtCount ctx) ∧ permitted s ctx (extAddr s ctx b) 32 true false = true := by
  unfold extReadable
  rw [Bool.and_eq_true, Bool.and_eq_true, decide_eq_true_iff, and_assoc]

/-- The extension record as validation has it: empty where it is not read. -/
def extRecord (s : State) (ctx : Nat) (b : List Byte) : List Byte :=
  if extReadable s ctx b then readMem s (extAddr s ctx b) 32 else []

theorem extAddr_of_keeps {F : Nat} {s t : State} (k : Keeps F s t) (h : F.testBit 2 = false) : extAddr t = extAddr s := by
  funext c b
  unfold extAddr
  rw [reg_of_regs (k.frame .registers h)]

theorem extReadable_of_keeps {F : Nat} {s t : State} (k : Keeps F s t) (h : F.testBit 2 = false) : extReadable t = extReadable s := by
  funext c b
  unfold extReadable
  rw [reg_of_regs (k.frame .registers h), permitted_of_keeps k h, extAddr_of_keeps k h]

theorem trsStatus_of_keeps {F : Nat} {s t : State} (k : Keeps F s t) (h : F.testBit 2 = false) : trsStatus t = trsStatus s := by
  funext c b ext
  unfold trsStatus
  rw [reg_of_regs (k.frame .registers h), reg_of_regs (k.frame .registers h), permitted_of_keeps k h, extAddr_of_keeps k h]

/-- The read of the extension record is noted. -/
def extNoted (ctx : Nat) (a : Accepted) (s : State) : State :=
  if extReadable s ctx a.bytes then noteRead ⟨3, trsEngineOf a.bytes, some a.ref⟩ (extAddr s ctx a.bytes) 32 s else s

/-! ## The queue (R175) -/

/-- The job of an accepted matrix product. -/
def trsJobOf (a : Accepted) (ext : List Byte) : TrsJob := { ref := a.ref, bytes := a.bytes, ext := ext, noHist := dNoHist a.bytes }

/-- The job joins its engine's queue. -/
def trsJoined (a : Accepted) (ext : List Byte) (s : State) : State :=
  modTrs (trsEngineOf a.bytes) (fun e => { e with queue := e.queue ++ [trsJobOf a ext] }) s

/-- It begins on an idle engine. -/
def trsQueued (a : Accepted) (ext : List Byte) (s : State) : State :=
  if (trsEngine s (trsEngineOf a.bytes)).queue.isEmpty then settleTrs 1 (trsEngineOf a.bytes) (trsJoined a ext s) else trsJoined a ext s

/-- The machine once the dispatch and the validation of a matrix product are noted. -/
def matmulNoted (ctx ring : Nat) (d : Desc) (a : Accepted) (s : State) : State := extNoted ctx a (dispatchNoted ctx ring d s)

theorem matmulNoted_keeps (ctx ring : Nat) (d : Desc) (a : Accepted) (s : State) :
    Keeps 0x80008000000442 s (matmulNoted ctx ring d a s) :=
  (dispatchNoted_keeps ctx ring d s).trans (.ite (noteRead_keeps ..) (.refl _))

theorem matmulNoted_good {ctx ring c q : Nat} (d : Desc) (a : Accepted) {s : State} (h : GoodHeaders s c q) :
    GoodHeaders (matmulNoted ctx ring d a s) c q := by
  have hd := dispatchNoted_good h ctx ring d
  unfold matmulNoted extNoted
  split
  · exact noteRead_good hd _ _ _
  · exact hd

theorem matmulNoted_onward {ctx ring : Nat} {r : DRef} (d : Desc) (a : Accepted) {s : State} (h : (findDesc s r).isSome = true) :
    Onward r s (matmulNoted ctx ring d a s) := by
  have hd := dispatchNoted_onward ctx ring d h
  unfold matmulNoted extNoted
  split
  · exact hd.trans (noteRead_onward r _ _ _ _ (hd.found h)) h
  · exact hd

/-- A matrix product that passes validation joins its engine's queue. -/
theorem exec_trsMatmul_valid {ctx : Fin 16} {ring : Fin 8} {a : Accepted} {s : State} (h : Dispatches s ctx ring 0x31 a)
    (hs : trsStatus s ctx a.bytes (extRecord s ctx a.bytes) = 0) :
    ∃ d, exec (.trsMatmul ctx ring) s =
      .next (settleBad ctx ring (trsQueued a (extRecord s ctx a.bytes) (matmulNoted ctx ring d a s))) := by
  obtain ⟨d, -, he⟩ := dispatchOp_accepts h fun a s =>
    let st := trsStatus s ctx a.bytes (extRecord s ctx a.bytes)
    let x := if extReadable s ctx a.bytes && extRead st then
        noteRead ⟨3, trsEngineOf a.bytes, some a.ref⟩ (extAddr s ctx a.bytes) 32 s else s
    if st ≠ 0 then reject a.ref st [] x else trsQueued a (extRecord s ctx a.bytes) x
  have kd := dispatchNoted_keeps ctx ring d s
  have record : extRecord (dispatchNoted ctx ring d s) ctx a.bytes = extRecord s ctx a.bytes := by
    unfold extRecord
    rw [extReadable_of_keeps kd rfl, extAddr_of_keeps kd rfl, readMem_dispatchNoted]
  refine ⟨d, congrArg Host.Outcome.next (he.trans (congrArg (settleBad ctx ring) ?_))⟩
  dsimp only
  rw [record, trsStatus_of_keeps kd rfl, hs, if_neg (not_not.2 rfl), show extRead 0 = true from rfl, Bool.and_true]
  rfl

section
variable {a : Accepted} {ext : List Byte} {s : State}

theorem trsJoined_queue : (trsEngine (trsJoined a ext s) (trsEngineOf a.bytes)).queue =
    (trsEngine s (trsEngineOf a.bytes)).queue ++ [trsJobOf a ext] := by
  unfold trsJoined trsEngine
  rw [trs_modTrs, if_pos rfl]

/-- On an engine that is not idle the job waits. -/
theorem trsQueued_busy (hq : (trsEngine s (trsEngineOf a.bytes)).queue ≠ []) : trsQueued a ext s = trsJoined a ext s :=
  if_neg fun h => hq (List.isEmpty_iff.mp h)

theorem trsQueued_idle (hq : (trsEngine s (trsEngineOf a.bytes)).queue = []) :
    trsQueued a ext s = settleTrs 1 (trsEngineOf a.bytes) (trsJoined a ext s) :=
  if_pos (List.isEmpty_iff.mpr hq)

/-- On an idle engine a job with a tile begins. -/
theorem trsQueued_begins (hq : (trsEngine s (trsEngineOf a.bytes)).queue = []) (h0 : tileCount a.bytes ≠ 0) :
    trsQueued a ext s = beginTrs (trsEngineOf a.bytes) (trsJoined a ext s) := by
  rw [trsQueued_idle hq, settleTrs.eq_def, trsJoined_queue, hq]
  exact if_neg h0

/-- On an idle engine a job without a tile ends at once. -/
theorem trsQueued_empty (hq : (trsEngine s (trsEngineOf a.bytes)).queue = []) (h0 : tileCount a.bytes = 0) :
    trsQueued a ext s =
      trsFinish (trsJobOf a ext) 0 (modTrs (trsEngineOf a.bytes) (fun e => { e with queue := [] }) (trsJoined a ext s)) := by
  rw [trsQueued_idle hq, settleTrs.eq_def, trsJoined_queue, hq]
  exact if_pos h0

theorem beginTrs_queue {u : Nat} {j : TrsJob} {js : List TrsJob} (hq : (trsEngine s u).queue = j :: js) :
    (trsEngine (beginTrs u s) u).queue = { j with step := some (j.step.getD (curStep s j.ref.ctx)) } :: js := by
  unfold trsEngine at hq ⊢
  unfold beginTrs
  rw [tabGet_tabMod_same, hq]

/-- Where the job stands once it has joined: behind the others, or at work, keyed by the step number. -/
theorem trsQueued_queue (h0 : tileCount a.bytes ≠ 0 ∨ (trsEngine s (trsEngineOf a.bytes)).queue ≠ []) :
    Keeps 0x2000 s (trsQueued a ext s) ∧ (trsEngine (trsQueued a ext s) (trsEngineOf a.bytes)).queue =
      (trsEngine s (trsEngineOf a.bytes)).queue ++ [{ trsJobOf a ext with
        step := if (trsEngine s (trsEngineOf a.bytes)).queue = [] then some (curStep s a.ref.ctx) else none }] := by
  have joined : Keeps 0x2000 s (trsJoined a ext s) := modTrs_keeps ..
  by_cases hq : (trsEngine s (trsEngineOf a.bytes)).queue = []
  · have head : (trsEngine (trsJoined a ext s) (trsEngineOf a.bytes)).queue = [trsJobOf a ext] := by rw [trsJoined_queue, hq]; rfl
    rw [trsQueued_begins hq (h0.resolve_right (not_not.mpr hq)), if_pos hq, hq, beginTrs_queue head]
    exact ⟨joined.trans (beginTrs_keeps ..), rfl⟩
  · rw [trsQueued_busy hq, if_neg hq]
    exact ⟨joined, trsJoined_queue⟩

end

/-- A shape has tiles unless it has no row or no column. -/
theorem tileCount_eq_zero_iff {b : List Byte} : tileCount b = 0 ↔ trsM b = 0 ∨ trsN b = 0 := by
  have div (n : Nat) : ceilDiv n 256 = 0 ↔ n = 0 := by
    show (n + 256 - 1) / 256 = 0 ↔ n = 0
    omega
  unfold tileCount tilesAcross
  rw [Nat.mul_eq_zero, div, div]

/-! ## The two outcomes -/

section
variable {ctx : Fin 16} {ring : Fin 8} {a : Accepted} {s : State}

theorem trsEngine_of_keeps {F : Nat} {s t : State} (k : Keeps F s t) (h : F.testBit 13 = false) : trsEngine t = trsEngine s := by
  funext u
  unfold trsEngine
  rw [show t.trs = s.trs from k.frame .trestle h]

theorem curStep_of_keeps {F : Nat} {s t : State} (k : Keeps F s t) (h : F.testBit 15 = false) : curStep t = curStep s := by
  funext c
  unfold curStep
  rw [stepCtx_of_keeps k h]

theorem matmul_joins (h : Dispatches s ctx ring 0x31 a) (hs : trsStatus s ctx a.bytes (extRecord s ctx a.bytes) = 0)
    (h0 : tileCount a.bytes ≠ 0 ∨ (trsEngine s (trsEngineOf a.bytes)).queue ≠ []) : Completes (.trsMatmul ctx ring) s fun t =>
      (trsEngine t (trsEngineOf a.bytes)).queue = (trsEngine s (trsEngineOf a.bytes)).queue
          ++ [{ trsJobOf a (extRecord s ctx a.bytes) with
                step := if (trsEngine s (trsEngineOf a.bytes)).queue = [] then some (curStep s ctx) else none }]
        ∧ (GoodHeaders s ctx ring → t.out = s.out) ∧ t.mem.cells = s.mem.cells := by
  obtain ⟨d, he⟩ := exec_trsMatmul_valid h hs
  have noted := matmulNoted_keeps ctx ring d a s
  have hc : a.ref.ctx = ctx := by
    obtain ⟨e, -, he⟩ := h
    rw [substitute_ref he]
  obtain ⟨queued, queue⟩ := trsQueued_queue (s := matmulNoted ctx ring d a s) (ext := extRecord s ctx a.bytes)
    (by rw [trsEngine_of_keeps noted rfl]; exact h0)
  have settled := settleBad_keeps (F := 0x1000010048040) ctx ring (trsQueued a (extRecord s ctx a.bytes) (matmulNoted ctx ring d a s))
  refine ⟨_, he, ?_, fun g => ?_, ?_⟩
  · rw [trsEngine_of_keeps settled rfl, queue, trsEngine_of_keeps noted rfl, curStep_of_keeps noted rfl, hc]
  · rw [settleBad_good (goodHeaders_of_doors (matmulNoted_good d a g) (queued.frame .doors rfl))]
    exact (queued.frame .output rfl).1.trans (noted.frame .output rfl).1
  · exact (settled.frame .memory rfl).trans ((queued.frame .memory rfl).trans (noted.frame .memory rfl))

theorem settleBad_out (ctx ring : Nat) (s : State) : s.out <:+ (settleBad ctx ring s).out := by
  unfold settleBad
  split
  · exact settle_out _ s
  · exact List.suffix_refl _

/-- What has completed has completed also where more has left the module. -/
theorem ended_of_suffix {s x t : State} {r : DRef} {status : Nat} {tail : List Byte} (h : Ended s x r status tail) (e : x.out <:+ t.out) :
    Ended s t r status tail := by
  obtain ⟨d, st, hf, hst, hw, hb⟩ := h
  exact ⟨d, st, hf, hst, e.subset hw, e.subset hb⟩

/-- R174: a product of an empty shape completes at once on an idle engine. -/
theorem matmul_empty (h : Dispatches s ctx ring 0x31 a) (hs : trsStatus s ctx a.bytes (extRecord s ctx a.bytes) = 0)
    (h0 : tileCount a.bytes = 0) (hq : (trsEngine s (trsEngineOf a.bytes)).queue = []) : Completes (.trsMatmul ctx ring) s fun t =>
      ∃ tail, Ended s t a.ref 0 tail := by
  obtain ⟨d, he⟩ := exec_trsMatmul_valid h hs
  have hf := findDesc_of_dispatches h
  rw [trsQueued_empty (by rw [trsEngine_of_keeps (matmulNoted_keeps ctx ring d a s) rfl]; exact hq) h0] at he
  have popped : Keeps 0x2000 (matmulNoted ctx ring d a s) (modTrs (trsEngineOf a.bytes) (fun e => { e with queue := [] })
      (trsJoined a (extRecord s ctx a.bytes) (matmulNoted ctx ring d a s))) := (modTrs_keeps ..).trans (modTrs_keeps ..)
  have on := (matmulNoted_onward (ctx := ctx) (ring := ring) d a hf).trans (.of_keeps popped rfl rfl rfl rfl id) hf
  exact ⟨_, he, _, ended_of_suffix (trsFinish_ended (j := trsJobOf a (extRecord s ctx a.bytes)) on hf rfl 0) (settleBad_out ..)⟩

end

end Sys2Proof.Machine

/-!
The statement on the queues of Trestle's engines and their watchdog (O34): its second part is the reset of an engine (R176, R412).
-/
namespace Sys2Proof.Machine
set_option Elab.async false
open Sys2Proof.Safety

/-! ## An engine out of service (R412) -/

theorem takeOutOfService_reg {off : Nat} {bit : Nat} (source unit : Nat) (s : State) (ho : regReset off < 2 ^ 64) (hb : bit < 64) :
    regBit (takeOutOfService off bit source unit s) off bit = true := by
  have hv : reg s off ||| 2 ^ bit < 2 ^ 64 := Nat.or_lt_two_pow (reg_lt s off ho) (Nat.pow_lt_pow_right (by decide) hb)
  show (reg (setReg off (reg s off ||| 2 ^ bit) s) off).testBit bit = true
  rw [reg_setReg _ _ _ _ hv, if_pos rfl, Nat.testBit_or, Nat.testBit_two_pow_self, Bool.or_true]

theorem takeOutOfService_flag {off bit source unit : Nat} {s : State} {b : Block} {i : Nat} (hi : i < 32) (h : flagUp s b i = true) :
    flagUp (takeOutOfService off bit source unit s) b i = true := by
  show flagUp (setFlag .rcv 2 (setReg off (reg s off ||| 2 ^ bit) s)) b i = true
  rw [flagUp_setFlag _ _ _ _ _ hi, show flagUp (setReg off (reg s off ||| 2 ^ bit) s) b i = true from h, Bool.true_or]

/-! ## The reset of an engine (R176, R412) -/

/-- This reset of the engine takes it out of service. -/
def trsLeaves (u : Nat) (s : State) : Bool := thirdReset (trsEngine s u).resets s.mod.devTime && regBit s rRcvCtrl 0

/-- The head of the queue is gone, and the time of the reset stands with the one before it. -/
def trsCleared (u : Nat) (js : List TrsJob) (s : State) : State :=
  modTrs u (fun e => { e with queue := js, resets := pushReset e.resets s.mod.devTime }) s

/-- The firing and the reset are counted, flagged and logged. -/
def trsResetNoted (u : Nat) (j : TrsJob) (js : List TrsJob) (s : State) : State :=
  trsLog j stWatchdog 3 (noteEngineReset (bump cTrsWdog 1 (setFlag .trs 0 (trsCleared u js s))))

/-- The engine has been reset, and has left service where it must. -/
def trsReset (u : Nat) (j : TrsJob) (js : List TrsJob) (s : State) : State :=
  if trsLeaves u s then takeOutOfService rTrsCtrl (16 + u) 3 u (trsResetNoted u j js s) else trsResetNoted u j js s

section
variable {u : Nat} {j : TrsJob} {js : List TrsJob} {s : State}

theorem trsCleared_engine : trsEngine (trsCleared u js s) u =
    { trsEngine s u with queue := js, resets := (s.mod.devTime :: (trsEngine s u).resets).take 2 } := by
  unfold trsCleared trsEngine
  rw [trs_modTrs, if_pos rfl]
  rfl

/-- What is noted of a reset: the log, two flags and two counters. -/
theorem trsResetNoted_keeps : Keeps 0x408040800000002 (trsCleared u js s) (trsResetNoted u j js s) :=
  (((setFlag_keeps ..).trans (bump_keeps ..)).trans (noteEngineReset_keeps ..)).trans (trsLog_keeps ..)

theorem trsReset_keeps : Keeps 0x408040800000006 (trsCleared u js s) (trsReset u j js s) := by
  have noted : Keeps 0x408040800000006 (trsCleared u js s) (trsResetNoted u j js s) := trsResetNoted_keeps.mono (by decide)
  exact .ite (noted.trans (takeOutOfService_keeps ..)) noted

theorem trsReset_engine : trsEngine (trsReset u j js s) u =
    { trsEngine s u with queue := js, resets := (s.mod.devTime :: (trsEngine s u).resets).take 2 } := by
  rw [trsEngine_of_keeps trsReset_keeps rfl, trsCleared_engine]

theorem trsReset_onward (r : DRef) : Onward r s (trsReset u j js s) := by
  have cleared : Keeps 0x408040800002006 s (trsCleared u js s) := modTrs_keeps ..
  have reset : Keeps 0x408040800002006 s (trsReset u j js s) := cleared.trans (trsReset_keeps.mono (by decide))
  exact .of_keeps reset rfl rfl rfl rfl fun c => (reset.frame .errors rfl).1.trans c

/-- The firing is counted, and so is the engine reset. -/
theorem trsResetNoted_counted : Counted s (trsResetNoted u j js s) cTrsWdog 1 ∧ Counted s (trsResetNoted u j js s) cRcvEngine 1 := by
  constructor
  · exact (counter_bump_ne cRcvEngine 1 _ cTrsWdog (by decide)).trans (counted_bump cTrsWdog 1 (setFlag .trs 0 (trsCleared u js s)))
  · have other := counter_bump_ne cTrsWdog 1 (setFlag .trs 0 (trsCleared u js s)) cRcvEngine (by decide)
    refine (counted_bump cRcvEngine 1 (setFlag .rcv 1 (bump cTrsWdog 1 (setFlag .trs 0 (trsCleared u js s))))).trans ?_
    exact congrArg (fun n => (n + 1) % 2 ^ 64) other

theorem trsResetNoted_flags : flagUp (trsResetNoted u j js s) .trs 0 = true ∧ flagUp (trsResetNoted u j js s) .rcv 1 = true := by
  constructor
  · show flagUp (setFlag .rcv 1 (setFlag .trs 0 (trsCleared u js s))) .trs 0 = true
    rw [flagUp_setFlag _ _ _ _ _ (by decide), flagUp_setFlag_self _ _ (by decide), Bool.true_or]
  · exact flagUp_setFlag_self .rcv (bump cTrsWdog 1 (setFlag .trs 0 (trsCleared u js s))) (by decide)

theorem trsReset_counted : Counted s (trsReset u j js s) cTrsWdog 1 ∧ Counted s (trsReset u j js s) cRcvEngine 1 := by
  have noted := trsResetNoted_counted (u := u) (j := j) (js := js) (s := s)
  unfold trsReset
  split
  · exact noted
  · exact noted

theorem trsReset_flags : flagUp (trsReset u j js s) .trs 0 = true ∧ flagUp (trsReset u j js s) .rcv 1 = true := by
  obtain ⟨fired, reset⟩ := trsResetNoted_flags (u := u) (j := j) (js := js) (s := s)
  unfold trsReset
  split
  · exact ⟨takeOutOfService_flag (by decide) fired, takeOutOfService_flag (by decide) reset⟩
  · exact ⟨fired, reset⟩

/-- R412: after its third reset within 600 s the engine is out of service, where AUTO_OFF allows. -/
theorem trsReset_leaves (hu : u < 16) (ha : regBit s rRcvCtrl 0 = true) (hn : 2 ≤ (trsEngine s u).resets.length)
    (ht : s.mod.devTime ≤ (trsEngine s u).resets.getD 1 0 + 600000000000) : regBit (trsReset u j js s) rTrsCtrl (16 + u) = true := by
  have leaves : trsLeaves u s = true := by
    unfold trsLeaves
    rw [(thirdReset_iff _ _).mpr ⟨hn, ht⟩, ha]
    rfl
  unfold trsReset
  rw [if_pos leaves]
  exact takeOutOfService_reg _ _ _ (by decide) (by omega)

/-- The next job begins; the times of the resets stay. -/
theorem settleTrs_resets (hq : (trsEngine s u).queue = js) (h0 : ∀ k ∈ js, tileCount k.bytes ≠ 0) :
    (trsEngine (settleTrs js.length u s) u).resets = (trsEngine s u).resets := by
  rw [settleTrs_eq hq h0]
  split
  · rfl
  · unfold beginTrs trsEngine
    rw [tabGet_tabMod_same]
    split
    · rfl
    · rfl

/-- The watchdog stops the descriptor at work and resets its engine, which goes on with the next one. -/
theorem exec_trsWatchdog {u : Fin 16} (hq : (trsEngine s u).queue = j :: js) (hw : resetWaits s = false) (hd : j.dropped = false) :
    exec (.trsWatchdog u) s = .next (settleTrs js.length u (trsFinish j stWatchdog (trsReset u j js (yieldToReset s)))) := by
  show execTrsWatchdog u s = _
  unfold execTrsWatchdog
  rw [hq]
  dsimp only
  rw [hw, if_neg Bool.false_ne_true, hd]
  rfl

theorem trsWatchdog_stops {u : Fin 16} (hq : (trsEngine s u).queue = j :: js) (hf : (findDesc s j.ref).isSome = true) (hd : j.dropped = false)
    (hw : resetWaits s = false) (hc : contextResetDue s j.ref.ctx = false) (hjs : ∀ k ∈ js, tileCount k.bytes ≠ 0) :
    Completes (.trsWatchdog u) s fun t => Ended s t j.ref 0x0C01 (trsTail j)
      ∧ (trsEngine t u).queue.map (fun k => { k with step := none }) = js.map (fun k => { k with step := none })
      ∧ (trsEngine t u).resets = (s.mod.devTime :: (trsEngine s u).resets).take 2
      ∧ Counted s t cTrsWdog 1 ∧ Counted s t cRcvEngine 1 ∧ flagUp t .trs 0 = true ∧ flagUp t .rcv 1 = true
      ∧ (regBit s rRcvCtrl 0 = true → 2 ≤ (trsEngine s u).resets.length →
          s.mod.devTime ≤ (trsEngine s u).resets.getD 1 0 + 600000000000 → regBit t rTrsCtrl (16 + u) = true) := by
  have yielded : Keeps 0x40 s (yieldToReset s) := yieldToReset_keeps s
  have on : Onward j.ref s (trsReset u j js (yieldToReset s)) := (yieldToReset_onward hw hc hf).trans (trsReset_onward j.ref) hf
  have finished : Keeps 0x1000110048042 (trsReset u j js (yieldToReset s)) (trsFinish j stWatchdog (trsReset u j js (yieldToReset s))) :=
    trsFinish_keeps ..
  have engine : trsEngine (trsFinish j stWatchdog (trsReset u j js (yieldToReset s))) u =
      { trsEngine s u with queue := js, resets := (s.mod.devTime :: (trsEngine s u).resets).take 2 } := by
    rw [trsEngine_of_keeps finished rfl, trsReset_engine, trsEngine_of_keeps yielded rfl, yielded.time]
  have queue : (trsEngine (trsFinish j stWatchdog (trsReset u j js (yieldToReset s))) u).queue = js := by rw [engine]
  obtain ⟨settled, others, -⟩ := settleTrs_begins queue hjs
  have onward := finished.mono (F := 0x100011004a042) (by decide) |>.trans (settled.mono (by decide))
  obtain ⟨fired, reset⟩ := trsReset_counted (u := u) (j := j) (js := js) (s := yieldToReset s)
  obtain ⟨firedFlag, resetFlag⟩ := trsReset_flags (u := u) (j := j) (js := js) (s := yieldToReset s)
  refine ⟨_, exec_trsWatchdog hq hw hd, ended_of_out (trsFinish_ended on hf hd _) (settled.frame .output rfl).1, others, ?_,
    counted_of_keeps (b := .trs) (counted_after (b := .trs) yielded fired) onward,
    counted_of_keeps (b := .rcv) (counted_after (b := .rcv) yielded reset) onward,
    flagUp_of_keeps firedFlag onward, flagUp_of_keeps resetFlag onward, fun ha hn ht => ?_⟩
  · rw [settleTrs_resets queue hjs, engine]
  · rw [regBit_of_keeps onward rfl]
    refine trsReset_leaves u.isLt ?_ ?_ ?_
    · rw [regBit_of_keeps yielded rfl]
      exact ha
    · rw [trsEngine_of_keeps yielded rfl]
      exact hn
    · rw [trsEngine_of_keeps yielded rfl, yielded.time]
      exact ht

end

/-- Settles O34: a product that passes validation waits, begins or, without a tile, ends at once; the watchdog by what the reset of its engine
notes. -/
theorem matrixProductsAreQueued : Obligations.MatrixProductsAreQueued := by
  unfold Obligations.MatrixProductsAreQueued
  refine ⟨?_, fun u j js s hq hf hd hw hc hjs => trsWatchdog_stops hq hf hd hw hc hjs⟩
  rintro ctx ring a ext s h he hs
  have record : ext = extRecord s ctx a.bytes := by
    rw [he]
    exact if_congr extReadable_iff.symm rfl rfl
  subst record
  refine ⟨fun h0 => matmul_joins h hs (h0.imp_left fun ⟨hm, hn⟩ hz => ?_), fun h0 hq => matmul_empty h hs (tileCount_eq_zero_iff.mpr h0) hq⟩
  exact (tileCount_eq_zero_iff.mp hz).elim hm hn

end Sys2Proof.Machine

/-!
The statement on moves, bitwise operations, shifts and selection (O39): each writes the lanes of one tile (R182).
-/
namespace Sys2Proof.Machine
set_option Elab.async false
open Sys2Proof.Safety

/-- A move writes the active lanes of T[D]. -/
theorem lanes_moved {c : Instr} {op : Nat} {u : Fin 64} {j : DrsJob} {w : DWord} {r : DrsRun} {s : State} {body : InsnCtx → DrsRun → InsnOut}
    {f : Nat → Word} (hr : r = (drsUnit s u).run) (h : Issues s u op j w) (hc : exec c s = .next (drsStep op u body s))
    (hb : body ⟨s, u, j.ref, w⟩ r.quiet = tileTo (fun _ _ => f) ⟨s, u, j.ref, w⟩ r.quiet) :
    Completes c s fun t =>
      ∃ x, Executed s t u (setT (wD w) x r) (r.pc + 1) ∧ Lanes r w (rT r (wD w)) x f ∧ t.mem = s.mem ∧ t.out = s.out := by
  obtain ⟨t, he, did⟩ := insn_completes hc hr h hb
  exact ⟨t, he, _, did.run_quiet (x := setT (wD w) _ r) rfl, lanes_mergeLanes r w _ f, did.untouched rfl rfl, did.out⟩

/-- TSEL writes every lane below VL, from T[A] or T[B] as the mask says. -/
theorem lanes_selected {u : Fin 64} {j : DrsJob} {w : DWord} {r : DrsRun} {s : State} (hr : r = (drsUnit s u).run)
    (h : Issues s u 0x61 j w) : Completes (.drsTsel u) s fun t =>
      ∃ x, Executed s t u (setT (wD w) x r) (r.pc + 1) ∧ t.mem = s.mem ∧ t.out = s.out ∧
        ∀ i, i < 256 → lane x i = if i < r.vl then (if (rM r (wMsel w)).getLsbD i then lane (rT r (wA w)) i else lane (rT r (wB w)) i)
          else if wZero w then 0 else lane (rT r (wD w)) i := by
  obtain ⟨t, he, did⟩ := insn_completes (c := .drsTsel u) rfl hr h rfl
  refine ⟨t, he, _, did.run_quiet (x := setT (wD w) _ r) rfl, did.untouched rfl rfl, did.out, fun i hi => ?_⟩
  exact (lane_mergeLanes _ _ _ _ hi).trans (if_congr decide_eq_true_iff rfl rfl)

/-- Settles O39: each move by the value that it gives a lane, TSEL by the lanes below VL. -/
theorem laneMoves : Obligations.LaneMoves := by
  unfold Obligations.LaneMoves
  rintro u j w r s hr
  refine ⟨?_, lanes_selected hr⟩
  rintro c op f ho h
  rcases ho with ⟨rfl, rfl, rfl⟩ | ⟨rfl, rfl, rfl⟩ | ⟨rfl, rfl, rfl⟩ | ⟨rfl, rfl, rfl⟩ | ⟨rfl, rfl, rfl⟩ | ⟨rfl, rfl, rfl⟩ |
    ⟨rfl, rfl, rfl⟩ | ⟨rfl, rfl, rfl⟩ | ⟨rfl, rfl, rfl⟩ | ⟨rfl, rfl, rfl⟩
  all_goals exact lanes_moved hr h rfl rfl

end Sys2Proof.Machine

/-!
SUPPORT and the statement on control and scalar instructions (O37): one instruction that executes, whether the program goes on at the next
index, at a target or nowhere (R187).
-/
namespace Sys2Proof.Machine
set_option Elab.async false
open Sys2Proof.Safety

theorem counter_of_keeps {F off : Nat} {s t : State} {b : Block} (k : Keeps F s t) (hF : F.testBit (48 + b.code) = false)
    (hb : blockCode off = b.code) : counter t off = counter s off := by
  unfold counter
  rw [k.frame (.counters b) hF off hb]

/-- A counter after an event depends on what it was before, and on nothing else. -/
theorem counter_bump_congr {x y : State} {off : Nat} (k n : Nat) (h : counter x off = counter y off) :
    counter (bump k n x) off = counter (bump k n y) off := by
  by_cases e : off = k
  · subst e
    exact (counted_bump ..).trans ((congrArg (fun c => (c + n) % 2 ^ 64) h).trans (counted_bump ..).symm)
  · rw [counter_bump_ne _ _ _ _ e, counter_bump_ne _ _ _ _ e, h]

/-- The run after an instruction of run `r`, where the program goes on at `pc`. -/
def DrsRun.wentTo (r x : DrsRun) (pc : Nat) : DrsRun := { r.goneOn x with pc := pc }

/-- An instruction that at most branches leaves the run as it was. -/
theorem joined_quiet (r : DrsRun) (target : Option Nat) : InsnOut.joined { run := r.quiet, target := target } r = r :=
  (InsnOut.joined_plain (fl := {}) (x := r) rfl rfl).trans (addEvents_none r)

/-- The machine once an instruction has executed, the end of the program apart. -/
def insnDone (u : Nat) (j : DrsJob) (o : InsnOut) (r : DrsRun) (s : State) : State :=
  modDrs u (fun n => { n with run := r.wentTo (o.joined r) (o.target.getD (r.pc + 1)) }) (insnApplied u j o s)

section
variable {s : State} {u op : Nat} {j : DrsJob} {w : DWord} {r : DrsRun} {body : InsnCtx → DrsRun → InsnOut} {o : InsnOut}

/-- An instruction that does not fault executes, and ends the program where it goes on behind the last index. -/
theorem drsStep_done (hr : r = (drsUnit s u).run) (hn : nextInsn s u = some (j, w)) (hop : wOp w = op)
    (hb : body ⟨s, u, j.ref, w⟩ r.quiet = o) (hf : o.fault = none) :
    drsStep op u body s = if drsProgLen j.bytes ≤ o.target.getD (r.pc + 1) then endLaunch u false false 0 0 (insnDone u j o r s)
      else insnDone u j o r s := by
  subst hr hb
  generalize ho : body ⟨s, u, j.ref, w⟩ (drsUnit s u).run.quiet = o at hf
  unfold drsStep
  rw [hn]
  dsimp -zeta only
  rw [if_neg (not_not.mpr hop)]
  extract_lets r o'
  have e : o' = o := ho
  clear_value o'
  subst e
  cases o'
  cases hf
  rfl

/-- An instruction that faults stops the program. -/
theorem drsStep_faults {a : Nat} (hr : r = (drsUnit s u).run) (hn : nextInsn s u = some (j, w)) (hop : wOp w = op)
    (hf : (body ⟨s, u, j.ref, w⟩ r.quiet).fault = some a) : drsStep op u body s = accessFault u j a s := by
  subst hr
  generalize ho : body ⟨s, u, j.ref, w⟩ (drsUnit s u).run.quiet = o at hf
  unfold drsStep
  rw [hn]
  dsimp -zeta only
  rw [if_neg (not_not.mpr hop)]
  extract_lets r o'
  have e : o' = o := ho
  clear_value o'
  subst e
  cases o'
  cases hf
  rfl

theorem insnDone_unit :
    drsUnit (insnDone u j o r s) u = { drsUnit s u with run := r.wentTo (o.joined r) (o.target.getD (r.pc + 1)) } := by
  have unit : drsUnit (insnApplied u j o s) = drsUnit s :=
    (drsUnit_of_keeps (insnApplied_follows u j o s) rfl).trans (drsUnit_of_keeps (insnAccesses_keeps u j o s) rfl)
  unfold insnDone
  rw [drsUnit_modDrs, if_pos rfl, unit]

/-- But for two counters of their own, an instruction that executes moves that of instructions alone. -/
theorem insnDone_counter {off : Nat} (hp : off ≠ cDrsPerm) (he : off ≠ cDrsEmpty) (hb : blockCode off = Block.drs.code) :
    counter (insnDone u j o r s) off = counter (bump cDrsInstr 1 s) off := by
  have later : Keeps 0x1000004000 (insnNoted o (insnAccesses u j o s)) (insnDone u j o r s) :=
    ((overflowNoted_keeps o _).mono rfl).trans (modDrs_keeps ..)
  calc counter (insnDone u j o r s) off
    _ = counter (insnNoted o (insnAccesses u j o s)) off := counter_of_keeps later rfl hb
    _ = counter (bump cDrsInstr 1 (insnAccesses u j o s)) off := insnNoted_counter _ _ hp he
    _ = counter (bump cDrsInstr 1 s) off := counter_bump_congr _ _ (counter_of_keeps (insnAccesses_keeps u j o s) rfl hb)

theorem insnDone_counted : Counted s (insnDone u j o r s) cDrsInstr 1 :=
  (insnDone_counter (by decide) (by decide) rfl).trans (counted_bump ..)

theorem insnDone_executed (hr : r = (drsUnit s u).run) :
    Executed s (insnDone u j o r s) u (o.joined r) (o.target.getD (r.pc + 1)) := by
  refine ⟨?_, fun v hv => ?_, insnDone_counted⟩
  · rw [insnDone_unit, hr]
    rfl
  · unfold insnDone
    rw [drsUnit_modDrs, if_neg hv, drsUnit_of_keeps (insnApplied_follows u j o s) rfl, drsUnit_of_keeps (insnAccesses_keeps u j o s) rfl]

/-- An instruction that touches no memory leaves all but its unit, the block's flags and its counters. -/
theorem insnDone_keeps (hr : o.reads = []) (hw : o.writes = []) (hm : o.masters = []) :
    Keeps 0x10001000004000 s (insnDone u j o r s) := by
  have accesses : insnAccesses u j o s = s := by
    unfold insnAccesses
    rw [hr, hw, hm]
    rfl
  have applied := insnApplied_follows u j o s
  rw [accesses] at applied
  exact (applied.mono rfl).trans (modDrs_keeps ..)

end

/-! ## Control and scalar instructions -/

section
variable {c : Instr} {op : Nat} {u : Fin 64} {j : DrsJob} {w : DWord} {r : DrsRun} {s : State} {body : InsnCtx → DrsRun → InsnOut}
variable (hr : r = (drsUnit s u).run) (h : Issues s u op j w) (hc : exec c s = .next (drsStep op u body s))
include hr h hc

/-- An instruction that touches no memory and goes on within the program. -/
theorem insn_goesTo {o : InsnOut} {x : DrsRun} {pc : Nat} (hb : body ⟨s, u, j.ref, w⟩ r.quiet = o) (hx : o.joined r = x)
    (ht : o.target.getD (r.pc + 1) = pc) (hl : pc < drsProgLen j.bytes) (hf : o.fault = none := by rfl) (hrd : o.reads = [] := by rfl)
    (hwr : o.writes = [] := by rfl) (hm : o.masters = [] := by rfl) :
    Completes c s fun t => Executed s t u x pc ∧ t.mem = s.mem ∧ t.out = s.out := by
  obtain ⟨hn, hop, -⟩ := h
  have keeps := insnDone_keeps (u := u) (j := j) (r := r) (s := s) hrd hwr hm
  have executed := insnDone_executed (j := j) (o := o) hr
  rw [hx, ht] at executed
  refine ⟨_, hc.trans (congrArg Host.Outcome.next ((drsStep_done hr hn hop hb hf).trans ?_)), executed, mem_of_keeps (keeps.mono rfl),
    (keeps.frame .output rfl).1⟩
  rw [ht, if_neg (Nat.not_le.mpr hl)]

/-- A branch goes on at its target where its condition holds, else at the next index. -/
theorem branch_taken {cond : Bool} {target : Nat}
    (hb : body ⟨s, u, j.ref, w⟩ r.quiet = { run := r.quiet, target := if cond then some target else none })
    (hl : target < drsProgLen j.bytes) :
    Completes c s fun t => Executed s t u r (if cond then target else r.pc + 1) ∧ t.mem = s.mem ∧ t.out = s.out := by
  have next : r.pc + 1 < drsProgLen j.bytes := by
    obtain ⟨-, -, hpc⟩ := h
    rwa [hr]
  refine insn_goesTo hr h hc hb (joined_quiet r _) ?_ ?_
  · cases cond
    · rfl
    · rfl
  · cases cond
    · exact next
    · exact hl

/-- A scalar instruction writes S[D] and no other register. -/
theorem scalar_written {v : DWord} (hb : body ⟨s, u, j.ref, w⟩ r.quiet = { run := setS (wD w) v r.quiet }) :
    Completes c s fun t =>
      ∃ r', Executed s t u r' (r.pc + 1) ∧ (∀ n, n < 16 → rS r' n = if n = wD w % 16 then v else rS r n)
        ∧ r' = { r with s := r'.s } ∧ t.mem = s.mem ∧ t.out = s.out := by
  obtain ⟨t, he, did⟩ := insn_completes hc hr h hb
  refine ⟨t, he, _, did.run_quiet (x := setS (wD w) v r) rfl, fun n hn => ?_, rfl, did.untouched rfl rfl, did.out⟩
  unfold rS setS
  rw [Nat.mod_eq_of_lt hn]
  split
  · rename_i e
    rw [e]
    exact tabGet_tabSet_same ..
  · rename_i e
    exact tabGet_tabSet_ne _ _ _ _ _ e

end

/-- VL is clamped to 0 to 256. -/
theorem clampVl_eq (x : Int) : clampVl x = (max 0 (min 256 x)).toNat := by
  unfold clampVl
  split
  · omega
  · split
    · omega
    · omega

/-- Settles O37: a branch by where it goes on, a scalar instruction by its value of S[D]. -/
theorem controlAndScalars : Obligations.ControlAndScalars := by
  unfold Obligations.ControlAndScalars
  constructor
  · rintro u j w r s hr
    refine ⟨fun h => ?_, fun h => ?_, fun h => ?_, ?_⟩
    · obtain ⟨t, he, did⟩ := insn_completes (c := .drsNop u) rfl hr h rfl
      exact ⟨t, he, did.run_quiet (x := r) rfl, did.untouched rfl rfl, did.out⟩
    · obtain ⟨t, he, did⟩ := insn_completes (c := .drsSetvl u) rfl hr h rfl
      rw [← clampVl_eq]
      exact ⟨t, he, did.run_quiet (x := { r with vl := clampVl _ }) rfl, did.untouched rfl rfl⟩
    · obtain ⟨t, he, did⟩ := insn_completes (c := .drsKey u) rfl hr h rfl
      exact ⟨t, he, did.run_quiet (x := { r with key := _ }) rfl, did.untouched rfl rfl⟩
    · rintro c op cond hm h hl
      simp only [List.mem_cons, Prod.mk.injEq, List.not_mem_nil, or_false] at hm
      rcases hm with ⟨rfl, rfl, rfl⟩ | ⟨rfl, rfl, rfl⟩ | ⟨rfl, rfl, rfl⟩ | ⟨rfl, rfl, rfl⟩ | ⟨rfl, rfl, rfl⟩
      all_goals exact branch_taken hr h rfl rfl hl
  · rintro c op v u j w r s hr hm h
    simp only [List.mem_cons, Prod.mk.injEq, List.not_mem_nil, or_false] at hm
    rcases hm with ⟨rfl, rfl, rfl⟩ | ⟨rfl, rfl, rfl⟩ | ⟨rfl, rfl, rfl⟩ | ⟨rfl, rfl, rfl⟩ | ⟨rfl, rfl, rfl⟩ | ⟨rfl, rfl, rfl⟩ |
      ⟨rfl, rfl, rfl⟩ | ⟨rfl, rfl, rfl⟩ | ⟨rfl, rfl, rfl⟩ | ⟨rfl, rfl, rfl⟩ | ⟨rfl, rfl, rfl⟩ | ⟨rfl, rfl, rfl⟩ | ⟨rfl, rfl, rfl⟩
    all_goals exact scalar_written hr h rfl rfl

end Sys2Proof.Machine

/-!
SUPPORT. How a Dresser launch begins (R205, R206): it starts with a copy of its program, or waits for the program to be fetched.
-/
namespace Sys2Proof.Machine
set_option Elab.async false
open Sys2Proof.Safety

/-! ## What a launch starts from (R184) -/

/-- A reader receives the same before and after a read is noted. -/
theorem memByte_noteRead (acc : Access) (a n : Nat) (s : State) : memByte (noteRead acc a n s).mem = memByte s.mem := by
  have cells : (noteRead acc a n s).mem.cells = s.mem.cells := (noteRead_keeps (F := 0x80008000000442) ..).frame .memory rfl
  funext x
  unfold memByte uncorrectable
  rw [cells, noteRead_errs]

theorem newRun_of_same {s t : State} (hr : t.regs = s.regs) (hm : memByte t.mem = memByte s.mem) (j : DrsJob) : newRun t j = newRun s j := by
  unfold newRun drsLimit
  rw [reg_of_regs hr]
  simp only [readNat_of_memByte hm]

/-- Without ARG substitutions the scalars are those of the argument block. -/
theorem newRun_scalar {s : State} {j : DrsJob} (ha : j.args = []) {n : Nat} (hn : n < 16) :
    rS (newRun s j) n = BitVec.ofNat 64 (readNat s (drsArgAddr j.bytes + 8 * n) 8) := by
  unfold newRun rS
  dsimp only
  rw [ha, Nat.mod_eq_of_lt hn, List.foldl_nil, tabGet_tabSetList, List.length_map, List.length_range, if_pos (by omega), Nat.sub_zero,
    List.getD_eq_getElem _ _ (by rwa [List.length_map, List.length_range]), List.getElem_map, List.getElem_range]

/-! ## The launch at the head of a queue -/

section
variable {u : Nat} {j : DrsJob} {js : List DrsJob} {s : State}

/-- The run of a launch that begins: it starts where the unit holds its program, else it waits for the fetch. -/
def begunRun (s : State) (u : Nat) (j : DrsJob) : DrsRun := if reuses (drsUnit s u) j then newRun s j else {}

theorem startLaunch_unit (hq : (drsUnit s u).queue = j :: js) :
    drsUnit (startLaunch u s) u = { drsUnit s u with run := newRun s j } := by
  have keeps : Keeps 0x80008000000442 s (noteRead ⟨4, u, some j.ref⟩ (drsArgAddr j.bytes) 128 s) := noteRead_keeps ..
  unfold startLaunch
  rw [hq]
  dsimp only
  rw [drsUnit_modDrs, if_pos rfl, drsUnit_of_keeps keeps rfl, newRun_of_same (keeps.frame .registers rfl) (memByte_noteRead ..)]

theorem beginLaunch_unit (hq : (drsUnit s u).queue = j :: js) :
    drsUnit (beginLaunch u s) u = { drsUnit s u with run := begunRun s u j } := by
  unfold beginLaunch begunRun
  rw [hq]
  dsimp only
  split
  · exact startLaunch_unit hq
  · rw [drsUnit_modDrs, if_pos rfl]

theorem beginLaunch_idle (hq : (drsUnit s u).queue = []) : beginLaunch u s = s := by
  unfold beginLaunch
  rw [hq]

theorem beginLaunch_queue : (drsUnit (beginLaunch u s) u).queue = (drsUnit s u).queue := by
  cases hq : (drsUnit s u).queue with
  | nil => rw [beginLaunch_idle hq, hq]
  | cons j js => rw [beginLaunch_unit hq, ← hq]

theorem beginLaunch_resets : (drsUnit (beginLaunch u s) u).resets = (drsUnit s u).resets := by
  cases hq : (drsUnit s u).queue with
  | nil => rw [beginLaunch_idle hq]
  | cons j js => rw [beginLaunch_unit hq]

theorem startLaunch_good {c q : Nat} (h : GoodHeaders s c q) (u : Nat) : GoodHeaders (startLaunch u s) c q := by
  unfold startLaunch
  split
  · exact h
  · exact noteRead_good h _ _ _

theorem beginLaunch_good {c q : Nat} (h : GoodHeaders s c q) (u : Nat) : GoodHeaders (beginLaunch u s) c q := by
  unfold beginLaunch
  split
  · exact h
  · split
    · exact startLaunch_good h u
    · exact h

/-- Where memory holds no error, a launch that begins notes none. -/
theorem beginLaunch_unlogged (he : s.mem.errs = []) : (beginLaunch u s).log = s.log ∧ (beginLaunch u s).logProd = s.logProd := by
  have noted (acc : Access) (a n : Nat) : noteRead acc a n s = s := by
    unfold noteRead noteErrors
    rw [errorsIn_nil _ _ _ he]
    rfl
  unfold beginLaunch startLaunch
  split
  · exact ⟨rfl, rfl⟩
  · split
    · split
      · exact ⟨rfl, rfl⟩
      · rw [noted]
        exact ⟨rfl, rfl⟩
    · exact ⟨rfl, rfl⟩

/-- The head of the queue is gone, and the unit is ready for the next. -/
def launchDropped (u : Nat) (s : State) : State :=
  modDrs u (fun n => { n with queue := n.queue.drop 1, run := {}, held := if n.run.started then n.held else none }) s

theorem launchDropped_queue (hq : (drsUnit s u).queue = j :: js) : (drsUnit (launchDropped u s) u).queue = js := by
  unfold launchDropped
  rw [drsUnit_modDrs, if_pos rfl, hq]
  rfl

theorem nextLaunch_queue (hq : (drsUnit s u).queue = j :: js) : (drsUnit (nextLaunch u s) u).queue = js :=
  beginLaunch_queue.trans (launchDropped_queue hq)

theorem nextLaunch_resets : (drsUnit (nextLaunch u s) u).resets = (drsUnit s u).resets := by
  refine (beginLaunch_resets (s := launchDropped u s)).trans ?_
  unfold launchDropped
  rw [drsUnit_modDrs, if_pos rfl]

theorem nextLaunch_unlogged (he : s.mem.errs = []) : (nextLaunch u s).log = s.log ∧ (nextLaunch u s).logProd = s.logProd :=
  beginLaunch_unlogged (s := launchDropped u s) he

end

/-! ## Acceptance (R205) -/

/-- The job of an accepted launch. -/
def drsJobOf (a : Accepted) : DrsJob := ⟨a.ref, a.bytes, dNoHist a.bytes, a.args⟩

/-- The launch joins its unit's queue. -/
def launchJoined (a : Accepted) (s : State) : State :=
  modDrs (drsUnitOf a.bytes) (fun n => { n with queue := n.queue ++ [drsJobOf a] }) s

/-- It begins on an idle unit. -/
def launchQueued (a : Accepted) (s : State) : State :=
  if (drsUnit s (drsUnitOf a.bytes)).queue.isEmpty then beginLaunch (drsUnitOf a.bytes) (launchJoined a s) else launchJoined a s

theorem launchStatus_of_keeps {F : Nat} {s t : State} (k : Keeps F s t) (h : F.testBit 2 = false) : launchStatus t = launchStatus s := by
  funext c b
  unfold launchStatus
  rw [reg_of_regs (k.frame .registers h), permitted_of_keeps k h]

/-- A launch that passes orders 1 to 3 joins its unit's queue. -/
theorem exec_drsLaunch_valid {ctx : Fin 16} {ring : Fin 8} {a : Accepted} {s : State} (h : Dispatches s ctx ring 0x41 a)
    (hs : launchStatus s ctx a.bytes = 0) :
    ∃ d, exec (.drsLaunch ctx ring) s = .next (settleBad ctx ring (launchQueued a (dispatchNoted ctx ring d s))) := by
  obtain ⟨d, -, he⟩ := dispatchOp_accepts h fun a s =>
    if launchStatus s ctx a.bytes ≠ 0 then reject a.ref (launchStatus s ctx a.bytes) (drsTail {} (drsUnitOf a.bytes) 0 0) s
    else launchQueued a s
  refine ⟨d, congrArg Host.Outcome.next (he.trans (congrArg (settleBad ctx ring) (if_neg (not_not.2 ?_))))⟩
  rw [launchStatus_of_keeps (dispatchNoted_keeps ctx ring d s) rfl, hs]

section
variable {a : Accepted} {s : State}

theorem launchJoined_unit : drsUnit (launchJoined a s) (drsUnitOf a.bytes) =
    { drsUnit s (drsUnitOf a.bytes) with queue := (drsUnit s (drsUnitOf a.bytes)).queue ++ [drsJobOf a] } := by
  unfold launchJoined
  rw [drsUnit_modDrs, if_pos rfl]

/-- Behind another launch it waits. -/
theorem launchQueued_busy (hq : (drsUnit s (drsUnitOf a.bytes)).queue ≠ []) : launchQueued a s = launchJoined a s :=
  if_neg fun h => hq (List.isEmpty_iff.mp h)

theorem launchQueued_idle (hq : (drsUnit s (drsUnitOf a.bytes)).queue = []) :
    launchQueued a s = beginLaunch (drsUnitOf a.bytes) (launchJoined a s) := if_pos (List.isEmpty_iff.mpr hq)

theorem launchQueued_keeps : Keeps 0x80008000004442 s (launchQueued a s) := by
  have joined : Keeps 0x80008000004442 s (launchJoined a s) := modDrs_keeps ..
  exact .ite (joined.trans (beginLaunch_keeps ..)) joined

theorem launchQueued_good {c q : Nat} (h : GoodHeaders s c q) : GoodHeaders (launchQueued a s) c q := by
  unfold launchQueued
  split
  · exact beginLaunch_good (s := launchJoined a s) h _
  · exact h

/-- On an idle unit it begins, behind another launch it waits and leaves that one's run alone. -/
theorem launchQueued_unit : (drsUnit (launchQueued a s) (drsUnitOf a.bytes)).queue =
      (drsUnit s (drsUnitOf a.bytes)).queue ++ [drsJobOf a]
    ∧ ((drsUnit s (drsUnitOf a.bytes)).queue = [] → drsReuse a.bytes = false → (drsUnit (launchQueued a s) (drsUnitOf a.bytes)).run = {})
    ∧ ((drsUnit s (drsUnitOf a.bytes)).queue ≠ [] →
        (drsUnit (launchQueued a s) (drsUnitOf a.bytes)).run = (drsUnit s (drsUnitOf a.bytes)).run) := by
  refine ⟨?_, fun hq hu => ?_, fun hq => ?_⟩
  · by_cases hq : (drsUnit s (drsUnitOf a.bytes)).queue = []
    · rw [launchQueued_idle hq, beginLaunch_queue, launchJoined_unit]
    · rw [launchQueued_busy hq, launchJoined_unit]
  · have head : (drsUnit (launchJoined a s) (drsUnitOf a.bytes)).queue = [drsJobOf a] := by
      rw [launchJoined_unit, hq]
      rfl
    have fetches : reuses (drsUnit (launchJoined a s) (drsUnitOf a.bytes)) (drsJobOf a) = false := by
      unfold reuses drsJobOf
      rw [hu]
      rfl
    rw [launchQueued_idle hq, beginLaunch_unit head]
    exact if_neg (Bool.eq_false_iff.mp fetches)
  · rw [launchQueued_busy hq, launchJoined_unit]

end

theorem launch_joins {ctx : Fin 16} {ring : Fin 8} {a : Accepted} {s : State} (h : Dispatches s ctx ring 0x41 a)
    (hs : launchStatus s ctx a.bytes = 0) : Completes (.drsLaunch ctx ring) s fun t =>
      (drsUnit t (drsUnitOf a.bytes)).queue = (drsUnit s (drsUnitOf a.bytes)).queue ++ [drsJobOf a]
        ∧ (GoodHeaders s ctx ring → t.out = s.out)
        ∧ ((drsUnit s (drsUnitOf a.bytes)).queue = [] → drsReuse a.bytes = false → (drsUnit t (drsUnitOf a.bytes)).run = {})
        ∧ ((drsUnit s (drsUnitOf a.bytes)).queue ≠ [] →
            (drsUnit t (drsUnitOf a.bytes)).run = (drsUnit s (drsUnitOf a.bytes)).run) := by
  obtain ⟨d, he⟩ := exec_drsLaunch_valid h hs
  have noted := dispatchNoted_keeps ctx ring d s
  have queued := launchQueued_keeps (a := a) (s := dispatchNoted ctx ring d s)
  have settled := settleBad_keeps (F := 0x1000010048040) ctx ring (launchQueued a (dispatchNoted ctx ring d s))
  obtain ⟨queue, fresh, busy⟩ := launchQueued_unit (a := a) (s := dispatchNoted ctx ring d s)
  rw [drsUnit_of_keeps noted rfl] at queue fresh busy
  rw [← drsUnit_of_keeps settled rfl] at queue fresh busy
  refine ⟨_, he, queue, fun g => ?_, fresh, busy⟩
  rw [settleBad_good (launchQueued_good (dispatchNoted_good g ctx ring d))]
  exact (queued.frame .output rfl).1.trans (noted.frame .output rfl).1

end Sys2Proof.Machine

/-!
SUPPORT. How a Dresser launch ends (R211 to R213): its histogram records, its count, its completion, and the next launch.
-/
namespace Sys2Proof.Machine
set_option Elab.async false
open Sys2Proof.Safety

/-! ## The tail of the completion record (Table 6.10) -/

section
variable (r : DrsRun) (unit reason fault : Nat)

theorem drsTail_counts : (drsTail r unit reason fault).take 6 = leBytes 4 r.executed ++ leBytes 2 r.lastIdx := rfl

theorem drsTail_index : ((drsTail r unit reason fault).drop 4).take 2 = leBytes 2 r.lastIdx := rfl

theorem drsTail_reason : byteAt (drsTail r unit reason fault) 7 = BitVec.ofNat 8 reason := rfl

theorem drsTail_address : ((drsTail r unit reason fault).drop 8).take 4 = leBytes 4 fault := rfl

end

theorem leBytes_mod (n v : Nat) : leBytes n (v % 256 ^ n) = leBytes n v := by
  induction n generalizing v with
  | zero => rfl
  | succ n ih =>
    have low : BitVec.ofNat 8 (v % 256 ^ (n + 1)) = BitVec.ofNat 8 v := by
      apply BitVec.eq_of_toNat_eq
      rw [BitVec.toNat_ofNat, BitVec.toNat_ofNat]
      exact Nat.mod_mod_of_dvd v (Dvd.intro_left (256 ^ n) rfl)
    unfold leBytes
    rw [low, ← ih (v / 256), Nat.pow_succ', Nat.mod_mul_right_div_self]

/-! ## The steps of an end -/

section
variable {u : Nat} {j : DrsJob} {js : List DrsJob} {x : State}

/-- The histogram records of a launch, by stream (R211). -/
def launchHists (u : Nat) (j : DrsJob) (r : DrsRun) (x : State) : State :=
  r.streams.foldl (fun s e => match e.2 with
    | some h => emitHist j.ref j.noHist e.1 .dresser u h s
    | none => s) x

/-- The end of a launch is counted, and logged where its status asks for it. -/
def launchNoted (u : Nat) (j : DrsJob) (status : Nat) (x : State) : State :=
  let s := bump cDrsLaunches 1 x
  let out := statusOut s j.ref status
  let s := if out = stOutputOverflow ∧ regBit s rDrsCtrl 0 then drsLog j u status 0 s else s
  if out = stPermRange ∧ regBit s rDrsCtrl 1 then drsLog j u status 0 s else s

/-- The launch has completed, and the next has yet to begin. -/
def launchCompleted (u : Nat) (j : DrsJob) (r : DrsRun) (status : Nat) (tail : List Byte) (x : State) : State :=
  complete j.ref status tail (launchNoted u j status (launchHists u j r x))

theorem endLaunch_eq (hq : (drsUnit x u).queue = j :: js) (watchdog fault : Bool) (reason addr : Nat) :
    endLaunch u watchdog fault reason addr x = nextLaunch u (launchCompleted u j (drsUnit x u).run
      (drsStatus (drsUnit x u).run watchdog fault) (drsTail (drsUnit x u).run u reason (addr % 2 ^ 32)) x) := by
  unfold endLaunch
  rw [hq]
  rfl

theorem launchHists_keeps (r : DrsRun) : Keeps 0x110000040 x (launchHists u j r x) := by
  refine (Keeps.refl x).foldl (fun y e => ?_) _
  split
  · exact emitHist_keeps ..
  · exact .refl y

theorem launchHists_onward {q : DRef} (r : DrsRun) (h : (findDesc x q).isSome = true) : Onward q x (launchHists u j r x) := by
  refine foldl_onward q _ (fun y e hy => ?_) _ x h
  split
  · exact emitHist_onward q _ _ _ _ _ _ y hy
  · exact .refl q y

theorem launchNoted_logs (status : Nat) : Keeps 0x2 (bump cDrsLaunches 1 x) (launchNoted u j status x) := by
  have logged {p : Prop} [Decidable p] (y : State) : Keeps 0x2 y (if p then drsLog j u status 0 y else y) := .ite (drsLog_keeps ..) (.refl y)
  exact (logged _).trans (logged _)

theorem launchNoted_keeps (status : Nat) : Keeps 0x10000000000002 x (launchNoted u j status x) :=
  (bump_keeps cDrsLaunches 1 x).trans ((launchNoted_logs status).mono (by decide))

/-- A launch that an access fault stopped is not logged a second time (R212). -/
theorem launchNoted_fault : launchNoted u j stAccessFault x = bump cDrsLaunches 1 x := by
  have status (y : State) : statusOut y j.ref stAccessFault = stAccessFault ∨ statusOut y j.ref stAccessFault = stEccUncorrectable := by
    unfold statusOut finalStatus
    split
    · split
      · exact .inr rfl
      · exact .inl rfl
    · exact .inl rfl
  have neither : statusOut (bump cDrsLaunches 1 x) j.ref stAccessFault ≠ stOutputOverflow
      ∧ statusOut (bump cDrsLaunches 1 x) j.ref stAccessFault ≠ stPermRange := by
    rcases status (bump cDrsLaunches 1 x) with e | e
    · rw [e]
      decide
    · rw [e]
      decide
  unfold launchNoted
  dsimp only
  rw [if_neg (fun h => neither.2 h.1), if_neg (fun h => neither.1 h.1)]

section
variable (r : DrsRun) (status : Nat) (tail : List Byte)

theorem launchCompleted_keeps : Keeps 0x11000110048042 x (launchCompleted u j r status tail x) :=
  ((launchHists_keeps r).mono (by decide)).trans (((launchNoted_keeps status).mono (by decide)).trans (complete_keeps ..))

theorem launchCompleted_ended {s : State} (on : Onward j.ref s x) (h : (findDesc s j.ref).isSome = true) :
    Ended s (launchCompleted u j r status tail x) j.ref status tail := by
  have noted := launchNoted_keeps (u := u) (j := j) (x := launchHists u j r x) status
  have onward := (on.trans (launchHists_onward (u := u) (j := j) r (on.found h)) h).trans
    (.of_keeps noted rfl rfl rfl rfl fun c => (noted.frame .errors rfl).1.trans c) h
  exact complete_ended onward h status tail

/-- Of the block's counters a launch that ends moves that of launches alone. -/
theorem launchCompleted_counter {off : Nat} (hb : blockCode off = Block.drs.code) :
    counter (launchCompleted u j r status tail x) off = counter (bump cDrsLaunches 1 x) off := by
  have later : Keeps 0x1000010048042 (bump cDrsLaunches 1 (launchHists u j r x)) (launchCompleted u j r status tail x) :=
    ((launchNoted_logs status).mono (by decide)).trans (complete_keeps ..)
  exact (counter_of_keeps (b := .drs) later rfl hb).trans
    (counter_bump_congr _ _ (counter_of_keeps (b := .drs) (launchHists_keeps r) rfl hb))

theorem launchCompleted_unlogged :
    (launchCompleted u j r stAccessFault tail x).log = x.log ∧ (launchCompleted u j r stAccessFault tail x).logProd = x.logProd := by
  have kept : Keeps 0x11000110048040 x (launchCompleted u j r stAccessFault tail x) := by
    unfold launchCompleted
    rw [launchNoted_fault]
    exact ((launchHists_keeps r).mono (by decide)).trans ((bump_keeps ..).trans (complete_keeps ..))
  exact kept.frame .log rfl

end

end

/-! ## A launch that has ended -/

/-- From `x` to `t` unit `u` has ended its launch `j`, and gone on with `js`; the command began in `s`. -/
structure LaunchOver (s x t : State) (u : Nat) (j : DrsJob) (js : List DrsJob) (status : Nat) (tail : List Byte) : Prop where
  ended : Ended s t j.ref status tail
  queue : (drsUnit t u).queue = js
  resets : (drsUnit t u).resets = (drsUnit x u).resets
  counted : Counted x t cDrsLaunches 1
  others : ∀ off, off ≠ cDrsLaunches → blockCode off = Block.drs.code → counter t off = counter x off
  keeps : Keeps 0x9100811004c442 x t
  unlogged : status = stAccessFault → x.mem.errs = [] → t.log = x.log ∧ t.logProd = x.logProd

theorem LaunchOver.counts {s x t : State} {u : Nat} {j : DrsJob} {js : List DrsJob} {status : Nat} {tail : List Byte}
    (e : LaunchOver s x t u j js status tail) {off n : Nat} (h : Counted s x off n) (ho : off ≠ cDrsLaunches := by decide)
    (hb : blockCode off = Block.drs.code := by rfl) : Counted s t off n := (e.others off ho hb).trans h

theorem endLaunch_over {s x : State} {u : Nat} {j : DrsJob} {js : List DrsJob} (on : Onward j.ref s x) (hf : (findDesc s j.ref).isSome = true)
    (hq : (drsUnit x u).queue = j :: js) (watchdog fault : Bool) (reason addr : Nat) :
    LaunchOver s x (endLaunch u watchdog fault reason addr x) u j js (drsStatus (drsUnit x u).run watchdog fault)
      (drsTail (drsUnit x u).run u reason (addr % 2 ^ 32)) := by
  have kept := endLaunch_keeps (F := 0x9100811004c442) u watchdog fault reason addr x
  rw [endLaunch_eq hq] at kept ⊢
  generalize (drsUnit x u).run = r at kept ⊢
  generalize drsStatus r watchdog fault = status at kept ⊢
  generalize drsTail r u reason (addr % 2 ^ 32) = tail at kept ⊢
  have completed := launchCompleted_keeps (u := u) (j := j) (x := x) r status tail
  have next : Keeps 0x80008000004442 (launchCompleted u j r status tail x) (nextLaunch u (launchCompleted u j r status tail x)) :=
    nextLaunch_keeps ..
  have unit : drsUnit (launchCompleted u j r status tail x) = drsUnit x := drsUnit_of_keeps completed rfl
  have counters (off : Nat) (hb : blockCode off = Block.drs.code) :
      counter (nextLaunch u (launchCompleted u j r status tail x)) off = counter (bump cDrsLaunches 1 x) off := by
    rw [← launchCompleted_counter r status tail hb]
    exact counter_of_keeps (b := .drs) next rfl hb
  refine ⟨ended_of_out (launchCompleted_ended r status tail on hf) (next.frame .output rfl).1, nextLaunch_queue (unit ▸ hq),
    nextLaunch_resets.trans (by rw [unit]), (counters _ rfl).trans (counted_bump ..),
    fun off ho hb => (counters off hb).trans (counter_bump_ne _ _ _ _ ho), kept, fun hs he => ?_⟩
  subst hs
  obtain ⟨log, prod⟩ := launchCompleted_unlogged (u := u) (j := j) (x := x) r tail
  obtain ⟨log', prod'⟩ := nextLaunch_unlogged (u := u) (s := launchCompleted u j r stAccessFault tail x) ((completed.frame .errors rfl).1.trans he)
  exact ⟨log'.trans log, prod'.trans prod⟩

end Sys2Proof.Machine

/-!
The statement on launches (O36): the program's arrival (R207), its end (R187, R211), an access that faults (R196, R210), and the two
watchdogs (R209, R412).
-/
namespace Sys2Proof.Machine
set_option Elab.async false
open Sys2Proof.Safety

/-! ## The program has been fetched (R207) -/

/-- The program as it is read. -/
def programRead (s : State) (j : DrsJob) : List DWord :=
  (List.range (drsProgLen j.bytes)).map fun i => BitVec.ofNat 64 (readNat s (drsProgAddr j.bytes + 8 * i) 8)

/-- Its read is noted. -/
def programNoted (u : Nat) (j : DrsJob) (s : State) : State :=
  noteRead ⟨4, u, some j.ref⟩ (drsProgAddr j.bytes) (8 * drsProgLen j.bytes) s

/-- The unit holds the checked program. -/
def programHeld (u : Nat) (j : DrsJob) (s : State) : State :=
  modDrs u (fun n => { n with held := some ⟨j.ref.ctx, drsProgAddr j.bytes, drsProgLen j.bytes, programRead s j⟩ }) (programNoted u j s)

/-- The launch of a faulty program is rejected. -/
def programRejected (u : Nat) (j : DrsJob) (i st : Nat) (s : State) : State :=
  reject j.ref st (drsTail { lastIdx := i } u 0 0) (modDrs u (fun n => { n with held := none }) (programNoted u j s))

section
variable {u : Fin 64} {j : DrsJob} {js : List DrsJob} {s : State}

theorem exec_drsProgramFetched (hq : (drsUnit s u).queue = j :: js) (hr : (drsUnit s u).run.started = false) :
    exec (.drsProgramFetched u) s = .next ((programFault (programRead s j)).elim (startLaunch u (programHeld u j s))
      fun f => nextLaunch u (programRejected u j f.1 f.2 s)) := by
  show execDrsProgramFetched u s = _
  unfold execDrsProgramFetched
  dsimp only
  rw [hq]
  dsimp only
  rw [hr, if_neg Bool.false_ne_true]
  unfold programHeld programRead
  cases programFault ((List.range (drsProgLen j.bytes)).map fun i => BitVec.ofNat 64 (readNat s (drsProgAddr j.bytes + 8 * i) 8))
  · rfl
  · rfl

/-- A program that passes the check starts. -/
theorem program_starts (hq : (drsUnit s u).queue = j :: js) (hr : (drsUnit s u).run.started = false)
    (hp : programFault (programRead s j) = none) : Completes (.drsProgramFetched u) s fun t =>
      drsUnit t u = { drsUnit s u with
        held := some ⟨j.ref.ctx, drsProgAddr j.bytes, drsProgLen j.bytes, programRead s j⟩, run := newRun s j } := by
  have he := exec_drsProgramFetched hq hr
  rw [hp] at he
  have noted : Keeps 0x80008000000442 s (programNoted u j s) := noteRead_keeps ..
  have unit : drsUnit (programHeld u j s) u = { drsUnit s u with
      held := some ⟨j.ref.ctx, drsProgAddr j.bytes, drsProgLen j.bytes, programRead s j⟩ } := by
    unfold programHeld
    rw [drsUnit_modDrs, if_pos rfl, drsUnit_of_keeps noted rfl]
  refine ⟨_, he, ?_⟩
  dsimp only [Option.elim]
  rw [startLaunch_unit (j := j) (js := js) (by rw [unit]; exact hq), unit,
    newRun_of_same (s := s) (t := programHeld u j s) (noted.frame .registers rfl) (memByte_noteRead ..)]

/-- A faulty program ends its launch, which names the first faulty instruction. -/
theorem program_rejected (hq : (drsUnit s u).queue = j :: js) (hr : (drsUnit s u).run.started = false) {i st : Nat}
    (hp : programFault (programRead s j) = some (i, st)) (hf : (findDesc s j.ref).isSome = true) :
    Completes (.drsProgramFetched u) s fun t => Ended s t j.ref st (drsTail { lastIdx := i } u 0 0) ∧ (drsUnit t u).queue = js := by
  have he := exec_drsProgramFetched hq hr
  rw [hp] at he
  have noted : Onward j.ref s (programNoted u j s) := noteRead_onward _ _ _ _ s hf
  have kept : Keeps 0x80008000000442 s (programNoted u j s) := noteRead_keeps ..
  have cleared : Keeps 0x4000 (programNoted u j s) (modDrs u (fun n => { n with held := none }) (programNoted u j s)) := modDrs_keeps ..
  have ended : Ended s (programRejected u j i st s) j.ref st (drsTail { lastIdx := i } u 0 0) :=
    reject_ended (noted.trans (.of_keeps cleared rfl rfl rfl rfl id) hf) hf st _
  have rejected : Keeps 0x1000010048040 _ (programRejected u j i st s) := reject_keeps ..
  have next := nextLaunch_keeps (F := 0x80008000004442) u (programRejected u j i st s)
  refine ⟨_, he, ended_of_out ended (next.frame .output rfl).1, nextLaunch_queue (j := j) ?_⟩
  rw [drsUnit_of_keeps rejected rfl, drsUnit_modDrs, if_pos rfl, drsUnit_of_keeps kept rfl]
  exact hq

end

/-! ## The program ends (R187, R211 to R213) -/

section
variable {u : Fin 64} {j : DrsJob} {js : List DrsJob} {w : DWord} {r : DrsRun} {s : State}

/-- An instruction that changes no register and goes on behind the last index ends the program. -/
theorem program_ends {c : Instr} {op : Nat} {body : InsnCtx → DrsRun → InsnOut} {o : InsnOut}
    (hc : exec c s = .next (drsStep op u body s)) (hr : r = (drsUnit s u).run) (hq : (drsUnit s u).queue = j :: js)
    (hn : nextInsn s u = some (j, w)) (hop : wOp w = op) (hf : (findDesc s j.ref).isSome = true)
    (hb : body ⟨s, u, j.ref, w⟩ r.quiet = o) (hx : o.joined r = r) (hl : drsProgLen j.bytes ≤ o.target.getD (r.pc + 1))
    (hfault : o.fault = none := by rfl) (hrd : o.reads = [] := by rfl) (hwr : o.writes = [] := by rfl) (hm : o.masters = [] := by rfl) :
    Completes c s fun t => (drsUnit t u).queue = js ∧ Counted s t cDrsLaunches 1 ∧ Counted s t cDrsInstr 1 ∧
      ∃ tail, Ended s t j.ref (if r.events.overflow then 0x0402 else if r.permRange then 0x0403 else 0) tail
        ∧ tail.take 6 = leBytes 4 (r.executed + 1) ++ leBytes 2 r.pc := by
  have step : drsStep op u body s = endLaunch u false false 0 0 (insnDone u j o r s) :=
    (drsStep_done hr hn hop hb hfault).trans (if_pos hl)
  have kept : Keeps 0x10001000004000 s (insnDone u j o r s) := insnDone_keeps hrd hwr hm
  have unit : drsUnit (insnDone u j o r s) u = { drsUnit s u with run := r.wentTo r (o.target.getD (r.pc + 1)) } := by
    rw [insnDone_unit, hx]
  have instr : Counted s (insnDone u j o r s) cDrsInstr 1 := insnDone_counted
  have launches : counter (insnDone u j o r s) cDrsLaunches = counter (bump cDrsInstr 1 s) cDrsLaunches :=
    insnDone_counter (by decide) (by decide) rfl
  generalize insnDone u j o r s = x at step kept unit instr launches
  have on : Onward j.ref s x := .of_keeps kept rfl rfl rfl rfl fun h => (kept.frame .errors rfl).1.trans h
  have ends := endLaunch_over on hf (by rw [unit]; exact hq) false false 0 0
  rw [unit] at ends
  refine ⟨_, hc.trans (congrArg Host.Outcome.next step), ends.queue, ?_, ends.counts instr, _, ends.ended, drsTail_counts ..⟩
  unfold Counted
  rw [← counter_bump_ne cDrsInstr 1 s cDrsLaunches (by decide), ← launches]
  exact ends.counted

end

/-! ## An access that faults (R196, R210) -/

section
variable {c : InsnCtx} {r : DrsRun}

theorem accessAt_some {write : Bool} {align a n : Nat} (h : a % align ≠ 0 ∨ permitted c.s c.ref.ctx a n (!write) write = false) :
    accessAt c write align a n = some a := by
  refine if_pos ?_
  rcases h with h | h
  · rw [decide_eq_true h, Bool.true_or]
  · rw [h, Bool.not_false, Bool.or_true]

/-- In a rising list the search ends at the lowest element that gives something. -/
theorem findSome?_lowest {α : Type} {f : Nat → Option α} {ls : List Nat} (hs : ls.Pairwise (· < ·)) {l : Nat} {a : α} (hl : l ∈ ls)
    (hf : f l = some a) (lower : ∀ m ∈ ls, m < l → f m = none) : ls.findSome? f = some a := by
  induction ls with
  | nil => cases hl
  | cons i ls ih =>
    obtain ⟨hi, hs⟩ := List.pairwise_cons.mp hs
    rcases List.mem_cons.mp hl with rfl | hl
    · exact List.findSome?_cons_of_isSome (by rw [hf]; rfl) |>.trans hf
    · rw [List.findSome?_cons, lower i List.mem_cons_self (hi l hl)]
      exact ih hs hl fun m hm => lower m (List.mem_cons_of_mem _ hm)

/-- Of the lanes that fault the lowest active one names the address. -/
theorem lanesFault_lowest {f : Nat → Option Nat} {l a : Nat} (hl : l < 256) (ha : active r c.w l = true) (hf : f l = some a)
    (lower : ∀ m, m < l → active r c.w m = true → f m = none) : lanesFault c r f = some a :=
  findSome?_lowest (List.pairwise_lt_range.filter _) (mem_activeLanes.mpr ⟨hl, ha⟩) hf
    fun m hm hml => lower m hml (mem_activeLanes.mp hm).2

/-- The fault of a tile access of 4 bytes to a lane, where lane `l` is the lowest active one that faults. -/
theorem tileFault_lowest {write : Bool} {l : Nat} (hl : l < 256) (ha : active r c.w l = true)
    (hf : laneAddr c r l % 4 ≠ 0 ∨ permitted c.s c.ref.ctx (laneAddr c r l) 4 (!write) write = false)
    (lower : ∀ m, m < l → active r c.w m = true →
      laneAddr c r m % 4 = 0 ∧ permitted c.s c.ref.ctx (laneAddr c r m) 4 (!write) write = true) :
    lanesFault c r (fun i => accessAt c write 4 (laneAddr c r i) 4) = some (laneAddr c r l) :=
  lanesFault_lowest hl ha (accessAt_some hf) fun m hm ham => accessAt_none (lower m hm ham).1 (lower m hm ham).2

end

/-- The fault is counted, flagged and logged, and the index of its instruction is the last. -/
def faultNoted (u : Nat) (j : DrsJob) (s : State) : State :=
  drsLog j u stAccessFault 0 (bump cDrsFaults 1 (setFlag .drs 2
    (modDrs u (fun n => { n with run := { n.run with lastIdx := n.run.pc } }) s)))

section
variable {u : Nat} {j : DrsJob} {s : State}

theorem faultNoted_keeps : Keeps 0x10001000004002 s (faultNoted u j s) :=
  (((modDrs_keeps ..).trans (setFlag_keeps ..)).trans (bump_keeps ..)).trans (drsLog_keeps ..)

theorem faultNoted_unit : drsUnit (faultNoted u j s) u =
    { drsUnit s u with run := { (drsUnit s u).run with lastIdx := (drsUnit s u).run.pc } } := by
  have h := drsUnit_modDrs u (fun n => { n with run := { n.run with lastIdx := n.run.pc } }) s u
  rw [if_pos rfl] at h
  exact h

theorem faultNoted_counted : Counted s (faultNoted u j s) cDrsFaults 1 := counted_bump cDrsFaults 1 s

theorem faultNoted_flag : flagUp (faultNoted u j s) .drs 2 = true := flagUp_setFlag_self .drs s (by decide)

theorem faultNoted_logged : Logged s (faultNoted u j s) (({ code := 0x0603, source := 4, engine := u } : LogEntry).naming j.ref) :=
  logged_logEntry _ _

end

theorem accessFault_eq (u : Nat) (j : DrsJob) (a : Nat) (s : State) :
    accessFault u j a s = endLaunch u false true 0 a (faultNoted u j s) := rfl

/-- A fault stops the launch at its instruction, and nothing is stored. -/
theorem access_faults {i : Instr} {op a : Nat} {u : Fin 64} {j : DrsJob} {js : List DrsJob} {w : DWord} {r : DrsRun} {s : State}
    {body : InsnCtx → DrsRun → InsnOut} (hc : exec i s = .next (drsStep op u body s)) (hr : r = (drsUnit s u).run)
    (hn : nextInsn s u = some (j, w)) (hop : wOp w = op) (hq : (drsUnit s u).queue = j :: js) (hf : (findDesc s j.ref).isSome = true)
    (hfault : (body ⟨s, u, j.ref, w⟩ r.quiet).fault = some a) :
    ∃ t, exec i s = .next t ∧ t.mem.cells = s.mem.cells ∧ Counted s t cDrsFaults 1 ∧ flagUp t .drs 2 = true ∧ (drsUnit t u).queue = js ∧
      (s.mem.errs = [] → Logged s t (({ code := 0x0603, source := 4, engine := u } : LogEntry).naming j.ref)) ∧
      ∃ tail, Ended s t j.ref 0x0603 tail ∧ (tail.drop 4).take 2 = leBytes 2 r.pc ∧ (tail.drop 8).take 4 = leBytes 4 a := by
  have kept := faultNoted_keeps (u := u) (j := j) (s := s)
  have unit := faultNoted_unit (u := u) (j := j) (s := s)
  have on : Onward j.ref s (faultNoted u j s) := .of_keeps kept rfl rfl rfl rfl fun h => (kept.frame .errors rfl).1.trans h
  have ends := endLaunch_over on hf (by rw [unit]; exact hq) false true 0 a
  have step := (drsStep_faults hr hn hop hfault).trans (accessFault_eq u j a s)
  refine ⟨_, hc.trans (congrArg Host.Outcome.next step), (ends.keeps.frame .memory rfl).trans (kept.frame .memory rfl),
    ends.counts faultNoted_counted, flagUp_of_keeps faultNoted_flag ends.keeps, ends.queue,
    fun he => logged_of_log faultNoted_logged (ends.unlogged rfl ((kept.frame .errors rfl).1.trans he)), _, ends.ended, ?_,
    (drsTail_address ..).trans (leBytes_mod 4 a)⟩
  rw [drsTail_index, unit, hr]

/-! ## The watchdogs (R209, R412) -/

/-- The reset of a unit is counted, flagged and logged, and its time stands with the one before it. -/
def drsResetNoted (u : Nat) (j : DrsJob) (s : State) : State :=
  logEntry (({ code := stWatchdog, source := 4, action := 3, engine := u } : LogEntry).naming j.ref)
    (noteEngineReset (bump cDrsWdog 1 (setFlag .drs 0 (modDrs u (fun n => { n with resets := pushReset n.resets s.mod.devTime }) s))))

section
variable {u : Nat} {j : DrsJob} {s : State}

/-- The unit leaves service after its third reset within 600 s, where AUTO_OFF allows. -/
theorem drsReset_eq : drsReset u j s =
    if (thirdReset (drsUnit s u).resets s.mod.devTime && regBit s rRcvCtrl 0) = true then
      takeOutOfService rDrsUnitOff u 4 u (drsResetNoted u j s)
    else drsResetNoted u j s := rfl

theorem drsReset_onward (r : DRef) : Onward r s (drsReset u j s) := by
  have kept : Keeps 0x410041000004006 s (drsReset u j s) := drsReset_keeps ..
  exact .of_keeps kept rfl rfl rfl rfl fun h => (kept.frame .errors rfl).1.trans h

theorem drsReset_unit : drsUnit (drsReset u j s) u =
    { drsUnit s u with resets := (s.mod.devTime :: (drsUnit s u).resets).take 2 } := by
  have h := drsUnit_modDrs u (fun n => { n with resets := pushReset n.resets s.mod.devTime }) s u
  rw [if_pos rfl] at h
  rw [drsReset_eq]
  split
  · exact h
  · exact h

theorem drsReset_counted : Counted s (drsReset u j s) cDrsWdog 1 ∧ Counted s (drsReset u j s) cRcvEngine 1 := by
  have fired : Counted s (drsResetNoted u j s) cDrsWdog 1 :=
    (counter_bump_ne cRcvEngine 1 _ cDrsWdog (by decide)).trans (counted_bump cDrsWdog 1 s)
  have reset : Counted s (drsResetNoted u j s) cRcvEngine 1 :=
    (counted_bump cRcvEngine 1 (bump cDrsWdog 1 s)).trans
      (congrArg (fun n => (n + 1) % 2 ^ 64) (counter_bump_ne cDrsWdog 1 s cRcvEngine (by decide)))
  rw [drsReset_eq]
  split
  · exact ⟨fired, reset⟩
  · exact ⟨fired, reset⟩

theorem drsReset_flags : flagUp (drsReset u j s) .drs 0 = true ∧ flagUp (drsReset u j s) .rcv 1 = true := by
  have fired : flagUp (drsResetNoted u j s) .drs 0 = true := by
    show flagUp (setFlag .rcv 1 (setFlag .drs 0 s)) .drs 0 = true
    rw [flagUp_setFlag _ _ _ _ _ (by decide), flagUp_setFlag_self _ _ (by decide), Bool.true_or]
  have reset : flagUp (drsResetNoted u j s) .rcv 1 = true := flagUp_setFlag_self .rcv (bump cDrsWdog 1 (setFlag .drs 0 s)) (by decide)
  rw [drsReset_eq]
  split
  · exact ⟨takeOutOfService_flag (by decide) fired, takeOutOfService_flag (by decide) reset⟩
  · exact ⟨fired, reset⟩

end

section
variable {u : Fin 64} {j : DrsJob} {js : List DrsJob} {s : State}
variable (hq : (drsUnit s u).queue = j :: js) (hf : (findDesc s j.ref).isSome = true)
include hq hf

/-- A launch that exceeds its TIMEOUT stops, and its unit is reset. -/
theorem timeWatchdog_stops (hw : resetWaits s = false) (hc : contextResetDue s j.ref.ctx = false)
    (ht : (drsUnit s u).resets.head? ≠ some s.mod.devTime) : Completes (.drsTimeWatchdog u) s fun t =>
      (drsUnit t u).queue = js ∧ (drsUnit t u).resets = (s.mod.devTime :: (drsUnit s u).resets).take 2
        ∧ Counted s t cDrsWdog 1 ∧ Counted s t cRcvEngine 1 ∧ flagUp t .drs 0 = true ∧ flagUp t .rcv 1 = true
        ∧ ∃ tail, Ended s t j.ref 0x0C01 tail ∧ byteAt tail 7 = 1 := by
  have he : exec (.drsTimeWatchdog u) s = .next (endLaunch u true false 1 0 (drsReset u j (yieldToReset s))) := by
    show execDrsTimeWatchdog u s = _
    unfold execDrsTimeWatchdog
    dsimp only
    rw [hq]
    dsimp only
    rw [hw, beq_eq_false_iff_ne.mpr ht]
    rfl
  have yielded : Keeps 0x40 s (yieldToReset s) := yieldToReset_keeps s
  have unit := drsReset_unit (u := u) (j := j) (s := yieldToReset s)
  rw [drsUnit_of_keeps yielded rfl, yielded.time] at unit
  obtain ⟨fired, reset⟩ := drsReset_counted (u := u) (j := j) (s := yieldToReset s)
  obtain ⟨firedFlag, resetFlag⟩ := drsReset_flags (u := u) (j := j) (s := yieldToReset s)
  have on : Onward j.ref s (drsReset u j (yieldToReset s)) := (yieldToReset_onward hw hc hf).trans (drsReset_onward j.ref) hf
  have ends := endLaunch_over on hf (by rw [unit]; exact hq) true false 1 0
  refine ⟨_, he, ends.queue, ends.resets.trans (by rw [unit]), ends.counts (counted_after (b := .drs) yielded fired),
    counted_of_keeps (b := .rcv) (counted_after (b := .rcv) yielded reset) ends.keeps, flagUp_of_keeps firedFlag ends.keeps,
    flagUp_of_keeps resetFlag ends.keeps, _, ends.ended, drsTail_reason ..⟩

/-- At its instruction limit a launch stops, and its unit is not reset. -/
theorem instrLimit_stops (hs : (drsUnit s u).run.started = true) (hl : (drsUnit s u).run.limit ≤ (drsUnit s u).run.executed) :
    Completes (.drsInstrLimit u) s fun t =>
      (drsUnit t u).queue = js ∧ (drsUnit t u).resets = (drsUnit s u).resets ∧ Counted s t cDrsIlimit 1 ∧ flagUp t .drs 1 = true
        ∧ ∃ tail, Ended s t j.ref 0x0C01 tail ∧ byteAt tail 7 = 2 := by
  have he : exec (.drsInstrLimit u) s =
      .next (endLaunch u true false 2 0 (drsLog j u stWatchdog 0 (bump cDrsIlimit 1 (setFlag .drs 1 s)))) := by
    show execDrsInstrLimit u s = _
    unfold execDrsInstrLimit atLimit
    dsimp only
    rw [hq]
    dsimp only
    rw [hs, decide_eq_true hl]
    rfl
  have counted : Counted s (drsLog j u stWatchdog 0 (bump cDrsIlimit 1 (setFlag .drs 1 s))) cDrsIlimit 1 := counted_bump cDrsIlimit 1 s
  have flag : flagUp (drsLog j u stWatchdog 0 (bump cDrsIlimit 1 (setFlag .drs 1 s))) .drs 1 = true :=
    flagUp_setFlag_self .drs s (by decide)
  have kept : Keeps 0x10001000000002 s (drsLog j u stWatchdog 0 (bump cDrsIlimit 1 (setFlag .drs 1 s))) :=
    ((setFlag_keeps ..).trans (bump_keeps ..)).trans (drsLog_keeps ..)
  generalize drsLog j u stWatchdog 0 (bump cDrsIlimit 1 (setFlag .drs 1 s)) = x at he counted flag kept
  have unit : drsUnit x = drsUnit s := drsUnit_of_keeps kept rfl
  have on : Onward j.ref s x := .of_keeps kept rfl rfl rfl rfl fun h => (kept.frame .errors rfl).1.trans h
  have ends := endLaunch_over on hf (by rw [unit]; exact hq) true false 2 0
  exact ⟨_, he, ends.queue, ends.resets.trans (by rw [unit]), ends.counts counted, flagUp_of_keeps flag ends.keeps, _, ends.ended,
    drsTail_reason ..⟩

end

/-- Settles O36: a launch by its unit's queue, its fetched program by the check, its end by the completion record; the fault of an access
by its address, the watchdogs by what they note. -/
theorem launchesStartAndEnd : Obligations.LaunchesStartAndEnd := by
  unfold Obligations.LaunchesStartAndEnd
  refine ⟨⟨?_, ?_⟩, ?_, ?_, ?_⟩
  · rintro ctx ring a u s h rfl hs
    exact launch_joins h hs
  · rintro u j js prog s hq hr rfl
    refine ⟨fun hp => ?_, fun i st hp hf => ?_⟩
    · obtain ⟨t, he, unit⟩ := program_starts hq hr hp
      refine ⟨t, he, ?_⟩
      dsimp only
      rw [unit]
      exact ⟨hq, rfl, rfl, rfl, rfl, rfl, rfl, rfl, fun _ _ => rfl, fun _ _ => rfl, fun ha _ hn => newRun_scalar ha hn⟩
    · obtain ⟨t, he, ended, queue⟩ := program_rejected hq hr hp hf
      exact ⟨t, he, ⟨_, ended, drsTail_index ..⟩, queue⟩
  · rintro c u j js w r s hr hq hn hf hl (⟨rfl, hop⟩ | ⟨rfl, hop, hlast⟩)
    · exact program_ends rfl hr hq hn hop hf rfl (joined_quiet r (some 8192)) hl
    · exact program_ends rfl hr hq hn hop hf rfl (joined_quiet r none) hlast
  · rintro i op a u j js w r c s hr rfl hn hop hq hf (⟨rfl, rfl, rfl, ha⟩ | ⟨rfl, rfl, rfl, ha⟩ | ⟨l, rd, ho, hl, hact, rfl, ha, lower⟩)
    · exact access_faults rfl hr hn hop hq hf (accessAt_some ha)
    · exact access_faults rfl hr hn hop hq hf (accessAt_some ha)
    · rcases ho with ⟨rfl, rfl, rfl⟩ | ⟨rfl, rfl, rfl⟩
      · exact access_faults rfl hr hn hop hq hf (tileFault_lowest (write := false) hl hact ha lower)
      · exact access_faults rfl hr hn hop hq hf (tileFault_lowest (write := true) hl hact ha lower)
  · rintro u j js s hq hf
    exact ⟨timeWatchdog_stops hq hf, instrLimit_stops hq hf⟩

end Sys2Proof.Machine

/-!
The statement on the doorbell page (R217, R331, R332, R337, R341; O21): each write by what its command does to a page that its function may
write.
-/
namespace Sys2Proof.Machine
set_option Elab.async false
open Sys2Proof.Safety

section
variable {fn ctx : Fin 16} {s : State}

/-- A context's own function may write its page while no reset of the context is in progress. -/
theorem doorWritable_of_bound (hs : inService s = true) (hc : ctx ≠ 0) (hf : functionOf s ctx = fn) (hr : resetting s ctx = false) :
    doorWritable s fn ctx = true := by
  have hc : (ctx.val != 0) = true := bne_iff_ne.2 fun e => hc (Fin.ext e)
  unfold doorWritable doorBound
  rw [hs, hc, hf, hr, beq_self_eq_true]
  rfl

theorem door_modDoor_same (c : Nat) (g : Door → Door) (s : State) : door (modDoor c g s) c = g (door s c) := by
  rw [door_modDoor, if_pos rfl]

theorem ringOf_modRing_same (c q : Nat) (f : Ring → Ring) (s : State) : ringOf (modRing c q f s) c q = f (ringOf s c q) := by
  rw [ringOf_modRing, if_pos ⟨rfl, rfl⟩]

/-! ## TAIL (R332) -/

theorem ringOf_postTail (c q t : Nat) (s : State) :
    ringOf (postTail c q t s) c q = { ringOf s c q with tail := t, posted := (ringOf s c q).posted ++ [(t, (door s c).posts)] } := by
  unfold postTail ringOf
  rw [door_modDoor_same]
  exact tabGet_tabMod_same ({} : Ring) (door s c).rings q fun x => { x with tail := t, posted := x.posted ++ [(t, (door s c).posts)] }

theorem tailInvalid_iff (q : Ring) (t : Nat) : tailInvalid q t = true ↔
    2 ^ q.sizeLog2 < (t + 2 ^ 32 - q.head) % 2 ^ 32 ∨ 2 ^ 31 ≤ (t + 2 ^ 32 - q.tail) % 2 ^ 32 := by
  unfold tailInvalid Ring.size
  rw [Bool.or_eq_true, decide_eq_true_iff, decide_eq_true_iff]

/-- A new TAIL of an enabled ring that is not in Error is taken or puts it there. -/
theorem exec_tailWrite {ring : Fin 8} {tail : Word} (hw : doorWritable s fn ctx = true) (he : (ringOf s ctx ring).enable = true)
    (h0 : (ringOf s ctx ring).error = 0) (hn : tail.toNat ≠ (ringOf s ctx ring).tail) :
    exec (.hifRingTailWrite fn ctx ring tail) s = .next (if tailInvalid (ringOf s ctx ring) tail.toNat then
      ringError ctx ring stRingInvalid { ctxValid := true, ctx := ctx, ring := ring, detail := tail.toNat + 2 ^ 32 * (ringOf s ctx ring).head } s
      else postTail ctx ring tail.toNat s) := by
  have open_ : (!doorWritable s fn ctx || !(ringOf s ctx ring).enable || (ringOf s ctx ring).error != 0
      || tail.toNat == (ringOf s ctx ring).tail) = false := by
    rw [hw, he, h0, beq_false_of_ne hn]
    rfl
  show execHifRingTailWrite fn ctx ring tail s = _
  unfold execHifRingTailWrite
  dsimp only
  rw [open_, if_neg Bool.false_ne_true]
  split
  · rfl
  · rfl

theorem tailWrite_taken {ring : Fin 8} {tail : Word} (hw : doorWritable s fn ctx = true) (he : (ringOf s ctx ring).enable = true)
    (h0 : (ringOf s ctx ring).error = 0) (hn : tail.toNat ≠ (ringOf s ctx ring).tail)
    (hsize : (tail.toNat + 2 ^ 32 - (ringOf s ctx ring).head) % 2 ^ 32 ≤ 2 ^ (ringOf s ctx ring).sizeLog2)
    (hforth : (tail.toNat + 2 ^ 32 - (ringOf s ctx ring).tail) % 2 ^ 32 < 2 ^ 31) :
    Completes (.hifRingTailWrite fn ctx ring tail) s fun t => ringOf t ctx ring = { ringOf s ctx ring with
      tail := tail.toNat, posted := (ringOf s ctx ring).posted ++ [(tail.toNat, (door s ctx).posts)] } := by
  refine ⟨_, exec_tailWrite hw he h0 hn, ?_⟩
  have valid : ¬tailInvalid (ringOf s ctx ring) tail.toNat = true := fun h =>
    ((tailInvalid_iff _ _).1 h).elim (Nat.not_lt.2 hsize) (Nat.not_le.2 hforth)
  rw [if_neg valid]
  exact ringOf_postTail ..

/-- What a ring that enters Error leaves: the flag, the entry and the ring's status. -/
theorem ringError_leaves (c q status : Nat) (e : LogEntry) (s : State) :
    ringOf (ringError c q status e s) c q = { ringOf s c q with error := status } ∧ flagUp (ringError c q status e s) .hif 0 = true
      ∧ Logged s (ringError c q status e s) { e with code := status, source := 7 } := by
  refine ⟨ringOf_modRing_same .., ?_, logged_logEntry ..⟩
  show flagUp (setFlag .hif 0 (modRing c q (fun x => { x with error := status }) s)) .hif 0 = true
  rw [flagUp_setFlag .hif 0 _ .hif 0 (by decide)]
  simp

theorem tailWrite_errs {ring : Fin 8} {tail : Word} (hw : doorWritable s fn ctx = true) (he : (ringOf s ctx ring).enable = true)
    (h0 : (ringOf s ctx ring).error = 0) (hn : tail.toNat ≠ (ringOf s ctx ring).tail)
    (hbad : 2 ^ (ringOf s ctx ring).sizeLog2 < (tail.toNat + 2 ^ 32 - (ringOf s ctx ring).head) % 2 ^ 32
      ∨ 2 ^ 31 ≤ (tail.toNat + 2 ^ 32 - (ringOf s ctx ring).tail) % 2 ^ 32) :
    ∃ t, exec (.hifRingTailWrite fn ctx ring tail) s = .next t ∧ ringOf t ctx ring = { ringOf s ctx ring with error := 0x0106 }
      ∧ flagUp t .hif 0 = true
      ∧ Logged s t { code := 0x0106, source := 7, ctxValid := true, ctx := ctx, ring := ring, detail := tail.toNat + 2 ^ 32 * (ringOf s ctx ring).head } := by
  refine ⟨_, exec_tailWrite hw he h0 hn, ?_⟩
  rw [if_pos ((tailInvalid_iff _ _).2 hbad)]
  exact ringError_leaves ..

/-! ## CTRL (R331, R340) -/

theorem ringCtrl_enables {ring : Fin 8} {value : Word} (hw : doorWritable s fn ctx = true) (he : (ringOf s ctx ring).enable = false)
    (hv : value.toNat.testBit 0 = true) : Completes (.hifRingCtrlWrite fn ctx ring value) s fun t =>
      (ringOf t ctx ring).enable = true ∧ (ringOf t ctx ring).tail = 0 ∧ (ringOf t ctx ring).fetched = 0
        ∧ (ringOf t ctx ring).error = 0 ∧ (ringOf t ctx ring).flush = [] ∧ (ringOf t ctx ring).base = (ringOf s ctx ring).base
        ∧ (ringOf t ctx ring).comp = (ringOf s ctx ring).comp
        ∧ (6 ≤ bitsOf value.toNat 5 1 → bitsOf value.toNat 5 1 ≤ 16 → (ringOf t ctx ring).sizeLog2 = bitsOf value.toNat 5 1)
        ∧ (bitsOf value.toNat 12 6 < (if fn = 0 then 128 else 16) → (ringOf t ctx ring).vector = bitsOf value.toNat 12 6) := by
  have hvec : vectorsOf fn = if fn = 0 then 128 else 16 := if_congr Fin.val_eq_zero_iff rfl rfl
  refine ⟨_, (if_neg (by rw [hw]; exact Bool.false_ne_true)).trans (if_neg (Bool.eq_false_iff.1 he)), ?_⟩
  beta_reduce
  rw [ringOf_modRing_same, if_pos hv]
  exact ⟨rfl, rfl, rfl, rfl, rfl, rfl, rfl, fun h6 h16 => if_pos ⟨h6, h16⟩, fun hlt => if_pos (hvec ▸ hlt)⟩

theorem ringCtrl_disables {ring : Fin 8} {value : Word} (hw : doorWritable s fn ctx = true) (he : (ringOf s ctx ring).enable = true)
    (h0 : (ringOf s ctx ring).error = 0) (ht : (ringOf s ctx ring).head = (ringOf s ctx ring).tail) (hv : value.toNat.testBit 0 = false) :
    Completes (.hifRingCtrlWrite fn ctx ring value) s fun t => ringOf t ctx ring = { ringOf s ctx ring with enable := false } := by
  refine ⟨_, ((if_neg (by rw [hw]; exact Bool.false_ne_true)).trans (if_pos he)).trans (if_pos ?_), ringOf_modRing_same ..⟩
  rw [hv, ht, h0, beq_self_eq_true]
  rfl

/-! ## The histogram ring (R341) -/

theorem histCtrl_enables {value : Word} (hw : doorWritable s fn ctx = true) (he : (door s ctx).hist.enable = false)
    (hv : value.toNat.testBit 0 = true) : Completes (.hifHistCtrlWrite fn ctx value) s fun t =>
      (door t ctx).hist.enable = true ∧ (door t ctx).hist.produced = 0 ∧ (door t ctx).hist.consumed = 0
        ∧ (4 ≤ bitsOf value.toNat 4 1 → (door t ctx).hist.sizeLog2 = bitsOf value.toNat 4 1 ∨ 15 < bitsOf value.toNat 4 1) := by
  refine ⟨_, if_neg (by rw [hw]; exact Bool.false_ne_true), ?_⟩
  beta_reduce
  rw [door_modDoor_same, if_neg (Bool.eq_false_iff.1 he)]
  dsimp only
  rw [if_pos hv]
  refine ⟨rfl, rfl, rfl, fun h4 => ?_⟩
  rcases Nat.lt_or_ge 15 (bitsOf value.toNat 4 1) with h15 | h15
  · exact .inr h15
  · exact .inl (if_pos ⟨h4, h15⟩)

theorem histCtrl_enabled {value : Word} (hw : doorWritable s fn ctx = true) (he : (door s ctx).hist.enable = true) :
    Completes (.hifHistCtrlWrite fn ctx value) s fun t =>
      (door t ctx).hist = { (door s ctx).hist with enable := value.toNat.testBit 0 } := by
  refine ⟨_, if_neg (by rw [hw]; exact Bool.false_ne_true), ?_⟩
  beta_reduce
  rw [door_modDoor_same, if_pos he]

theorem histConsumed_written {value : Word} (hw : doorWritable s fn ctx = true) : Completes (.hifHistConsumedWrite fn ctx value) s fun t =>
    (door t ctx).hist = { (door s ctx).hist with consumed := value.toNat } := by
  refine ⟨_, if_pos hw, ?_⟩
  beta_reduce
  rw [door_modDoor_same]

/-! ## Semaphores (R337) -/

theorem semWrite_settles {value : Word} {i : Fin 256} (hw : doorWritable s fn ctx = true) :
    ∃ u, exec (.hifSemWrite fn ctx i value) s = .next (settleAll u) ∧ sem u ctx i = value
      ∧ (∀ c j, c ≠ ctx.val ∨ j ≠ i.val → sem u c j = sem s c j) ∧ u.out = s.out := by
  refine ⟨setSem ctx i value s, if_pos hw, ?_, fun c j h => ?_, rfl⟩
  · rw [sem_setSem, if_pos ⟨rfl, rfl⟩]
  · rw [sem_setSem, if_neg fun e => h.elim (· e.1) (· e.2)]

end

/-- Settles O21: TAIL, CTRL, the histogram ring and the semaphores, each by the lemmas of its command. -/
theorem doorbells : Obligations.Doorbells := by
  unfold Obligations.Doorbells
  refine ⟨?_, fun fn ctx value s _ hs hc hf hr => ?_⟩
  · rintro fn ctx ring s q - hs hc hf hr rfl
    have hw := doorWritable_of_bound hs hc hf hr
    exact ⟨fun tail he h0 hn => ⟨tailWrite_taken hw he h0 hn, tailWrite_errs hw he h0 hn⟩, fun value => ringCtrl_enables hw,
      fun value => ringCtrl_disables hw⟩
  · have hw := doorWritable_of_bound hs hc hf hr
    exact ⟨histCtrl_enables hw, histCtrl_enabled hw, histConsumed_written hw, fun i => semWrite_settles hw⟩

end Sys2Proof.Machine

/-!
SUPPORT. What completions leave of a step: all but the count of its errors and the ends of its buckets' descriptors (R224, R246, R263). And an
open descriptor on its way to its completion, whatever becomes of the steps meanwhile.
-/
namespace Sys2Proof.Machine
set_option Elab.async false
open Sys2Proof.Safety

/-! ## The core of a step -/

/-- A step without what the completions of descriptors count in it. -/
def OpenStep.core (o : OpenStep) : OpenStep := { o with errCount := 0, firstErr := 0, firstErrIdx := 0, buckets := [] }

/-- A context's numbering, with its open step's core. -/
def StepCtx.core (x : StepCtx) : StepCtx := { x with opened := x.opened.map OpenStep.core }

/-- The cores of all contexts. -/
def stepCores (s : State) (c : Nat) : StepCtx := (stepCtx s c).core

/-- The step that is open, where its core is that of an earlier one. -/
theorem opened_of_cores {s t : State} {c : Nat} {o : OpenStep} (h : stepCores t = stepCores s) (ho : (stepCtx s c).opened = some o) :
    ∃ x, (stepCtx t c).opened = some x ∧ x.core = o.core := by
  have hc : (stepCtx t c).opened.map OpenStep.core = (stepCtx s c).opened.map OpenStep.core := congrArg StepCtx.opened (congrFun h c)
  rw [ho] at hc
  exact Option.map_eq_some_iff.1 hc

theorem idle_of_cores {s t : State} {c : Nat} (h : stepCores t = stepCores s) (ho : (stepCtx s c).opened = none) :
    (stepCtx t c).opened = none := by
  have hc : (stepCtx t c).opened.map OpenStep.core = (stepCtx s c).opened.map OpenStep.core := congrArg StepCtx.opened (congrFun h c)
  rw [ho] at hc
  exact Option.map_eq_none_iff.1 hc

theorem last_of_cores {s t : State} (h : stepCores t = stepCores s) (c : Nat) : (stepCtx t c).last = (stepCtx s c).last :=
  congrArg StepCtx.last (a₁ := stepCores t c) (a₂ := stepCores s c) (congrFun h c)

theorem lastGate_of_cores {s t : State} (h : stepCores t = stepCores s) (c : Nat) : (stepCtx t c).lastGate = (stepCtx s c).lastGate :=
  congrArg StepCtx.lastGate (a₁ := stepCores t c) (a₂ := stepCores s c) (congrFun h c)

theorem ring_of_cores {s t : State} (h : stepCores t = stepCores s) (c : Nat) : (stepCtx t c).ring = (stepCtx s c).ring :=
  congrArg StepCtx.ring (a₁ := stepCores t c) (a₂ := stepCores s c) (congrFun h c)

theorem cores_of_keeps {F : Nat} {s t : State} (k : Keeps F s t) (h : F.testBit 15 = false) : stepCores t = stepCores s := by
  funext c
  unfold stepCores
  rw [stepCtx_of_keeps k h]

theorem modOpen_cores (c : Nat) {f : OpenStep → OpenStep} (hf : ∀ o, (f o).core = o.core) (s : State) :
    stepCores (modOpen c f s) = stepCores s := by
  funext k
  unfold stepCores modOpen
  rw [stepCtx_modStepCtx]
  split
  · unfold StepCtx.core
    dsimp only
    rw [Option.map_map]
    exact congrArg (fun x => { stepCtx s k with opened := x }) (Option.map_congr fun o _ => hf o)
  · rfl

/-! ## Completions leave it -/

theorem noteGatherEnd_cores (r : DRef) (b : List Byte) (status : Nat) (s : State) :
    stepCores (noteGatherEnd r b status s) = stepCores s := by
  unfold noteGatherEnd
  split
  · rfl
  · refine modOpen_cores _ (fun o => ?_) s
    split
    · split
      · rfl
      · rfl
    · rfl

theorem countStepStatus_cores (r : DRef) (status : Nat) (s : State) : stepCores (countStepStatus r status s) = stepCores s := by
  unfold countStepStatus
  split
  · rfl
  · refine modOpen_cores _ (fun o => ?_) s
    split
    · rfl
    · rfl

theorem closeDesc_cores (r : DRef) (b : List Byte) (status : Nat) (tail : List Byte) (s : State) :
    stepCores (closeDesc r b status tail s) = stepCores s := by
  have written : stepCores (recordWritten r b status tail s) = stepCores s := noteGatherEnd_cores ..
  have counted : stepCores (countStepStatus r status (leaveRing r (recordWritten r b status tail s))) = stepCores s :=
    (countStepStatus_cores ..).trans written
  rw [closeDesc_eq]
  dsimp only
  split
  · exact (cores_of_keeps (applyStagedMaps_keeps (F := 0x40000) ..) rfl).trans counted
  · exact counted

theorem afterClose_cores (r : DRef) (b : List Byte) (signal : Bool) (s : State) : stepCores (afterClose r b signal s) = stepCores s :=
  cores_of_keeps (afterClose_keeps (F := 0x10000040) ..) rfl

theorem closeOut_cores (signal flushes : Bool) (r : DRef) (b : List Byte) (status : Nat) (tail : List Byte) (s : State) :
    stepCores (closeOut signal flushes r b status tail s) = stepCores s := by
  have closed := closeDesc_cores r b status tail s
  unfold closeOut
  dsimp only
  split
  · have flushed := (cores_of_keeps (startFlush_keeps (F := 0x40) r status (closeDesc r b status tail s)) rfl).trans closed
    refine Eq.trans (foldl_same stepCores _ (fun x d => afterClose_cores ..) _ _) ((afterClose_cores ..).trans ?_)
    exact Eq.trans (foldl_same stepCores _ (fun x d => closeDesc_cores ..) _ _) flushed
  · exact (afterClose_cores ..).trans closed

theorem settle_cores (n : Nat) (s : State) : stepCores (settle n s) = stepCores s := by
  induction n generalizing s with
  | zero => rfl
  | succ n ih =>
    unfold settle
    split
    · rfl
    · refine (ih _).trans ((closeOut_cores ..).trans ?_)
      split
      · rfl
      · rfl

theorem settleBad_cores (ctx ring : Nat) (s : State) : stepCores (settleBad ctx ring s) = stepCores s := by
  unfold settleBad
  split
  · exact settle_cores ..
  · rfl

theorem completeWith_cores (signal rejected flushes : Bool) (r : DRef) (status : Nat) (tail : List Byte) (s : State) :
    stepCores (completeWith signal rejected flushes r status tail s) = stepCores s := by
  unfold completeWith
  split
  · rfl
  · refine (settle_cores ..).trans ((closeOut_cores ..).trans ?_)
    split
    · rfl
    · rfl

/-! ## An open descriptor while steps change -/

/-- From `s` to `t` the open descriptor `r` stays open and its record goes to the same place at the same time; the steps may change. -/
def Carried (r : DRef) (s t : State) : Prop := Onward r { s with steps := t.steps } t

section
variable {r : DRef} {s x t : State}

theorem Onward.withSteps (k : Onward r s t) (y : Tab StepCtx) : Onward r { s with steps := y } { t with steps := y } :=
  ⟨k.time, k.vfs, rfl, k.comp, k.size, k.out, k.clean, k.desc⟩

theorem Onward.carried (k : Onward r s t) : Carried r s t := k.withSteps t.steps

theorem Carried.refl (r : DRef) (s : State) : Carried r s s := Onward.refl r s

theorem Carried.trans (h : Carried r s x) (k : Carried r x t) (hd : (findDesc s r).isSome = true) : Carried r s t :=
  Onward.trans (s := { s with steps := t.steps }) (x := { x with steps := t.steps }) (h.withSteps t.steps) k hd

theorem Carried.found (k : Carried r s t) (hd : (findDesc s r).isSome = true) : (findDesc t r).isSome = true := Onward.found k hd

/-- An operation that leaves the doorbell pages, the functions and the output alone. -/
theorem Carried.of_keeps {F : Nat} (k : Keeps F s t) (hd : F.testBit 6 = false) (hv : F.testBit 7 = false) (ho : F.testBit 28 = false)
    (hc : s.mem.errs = [] → t.mem.errs = []) : Carried r s t := by
  have hr : ringOf t r.ctx r.ring = ringOf s r.ctx r.ring := ringOf_of_doors (k.frame .doors hd) ..
  have hf : findDesc t r = findDesc s r := by unfold findDesc; rw [hr]
  exact ⟨k.time, k.frame .functions hv, rfl, congrArg Ring.comp hr, congrArg Ring.sizeLog2 hr,
    (congrArg (s.out <:+ ·) (k.frame .output ho).1).mpr (List.suffix_refl _), hc, fun d h => ⟨d, hf.trans h, rfl, fun _ => rfl⟩⟩

/-- A descriptor completes with its status and the bytes it is given. -/
theorem Carried.ended (k : Carried r s x) (hd : (findDesc s r).isSome = true) (signal rejected flushes : Bool) (status : Nat)
    {tail : List Byte} (ht : tail ≠ []) : Ended s (completeWith signal rejected flushes r status tail x) r status tail := by
  obtain ⟨d, st, hf, hst, hrep⟩ := completeWith_ended k hd signal rejected flushes status tail
  rw [tailOf_given _ _ _ ht] at hrep
  refine ⟨d, st, hf, hst, ?_⟩
  rw [tailOf_given _ _ _ ht]
  exact hrep

/-- Without errors in memory a descriptor has read a codeword in error only if it had before. -/
theorem Carried.unpoisoned (k : Carried r s x) (he : s.mem.errs = []) (hd : (findDesc s r).isSome = true)
    (hp : ∀ d, findDesc s r = some d → d.poisoned = false) : ∃ d, findDesc x r = some d ∧ d.poisoned = false := by
  obtain ⟨d, hd⟩ := Option.isSome_iff_exists.1 hd
  obtain ⟨d', hd', -, hp'⟩ := k.desc d hd
  exact ⟨d', hd', (hp' he).trans (hp d hd)⟩

end

theorem completeWith_adds (signal rejected flushes : Bool) (r : DRef) (status : Nat) (tail : List Byte) (s : State) :
    s.out <:+ (completeWith signal rejected flushes r status tail s).out := by
  cases h : findDesc s r with
  | none =>
    unfold completeWith
    rw [h]
  | some d => exact ((List.suffix_cons _ _).trans (List.suffix_cons _ _)).trans (completeWith_out signal rejected flushes r status tail s d h)

/-- A status other than success goes out as no success. -/
theorem statusOut_ne (s : State) (r : DRef) {status : Nat} (h : status ≠ 0) : statusOut s r status ≠ 0 := by
  unfold statusOut finalStatus
  split
  · split
    · decide
    · exact h
  · exact h

theorem statusOut_success {s : State} {r : DRef} {d : Desc} (hd : findDesc s r = some d) (hp : d.poisoned = false) : statusOut s r 0 = 0 := by
  unfold statusOut finalStatus
  rw [hd]
  dsimp only
  rw [hp]
  rfl

end Sys2Proof.Machine

/-!
SUPPORT and the statement on STEP_GATE (R242, R243, R247, R357; O44): what a look at the step-size table does, and what the end of a gate leaves.
-/
namespace Sys2Proof.Machine
set_option Elab.async false
open Sys2Proof.Safety

section
variable {ctx : Nat} {r : DRef} {since : Nat} {s x : State} {o : OpenStep}

/-! ## The end of a gate -/

/-- How long a gate has waited, in µs. -/
def gateWait (s : State) (since : Nat) : Nat := min ((s.mod.devTime - since) / 1000) 0xFFFFFFFF

/-- The step after one of its gates has ended. -/
def gateEnded (r : DRef) (wait : Nat) (ok : Bool) (o : OpenStep) : OpenStep :=
  { o with gateWait := wait, gatePassed := o.gatePassed || ok, gates := o.gates.filter fun g => g.1 != r }

/-- The end of a gate noted in its context; a success also in L's gate. -/
def gateNoted (ctx : Nat) (r : DRef) (wait : Nat) (ok : Bool) (s : State) : State :=
  let s := modOpen ctx (gateEnded r wait ok) s
  if ok then modStepCtx ctx (fun c => { c with lastGate := true }) s else s

/-- The entries of the captured table. -/
def OpenStep.sizes (o : OpenStep) : Nat :=
  match o.captured with
  | some (n, _) => n
  | none => 0

/-- The last 16 bytes of a gate's completion (Table 7.11). -/
def gateTail (o : OpenStep) (wait : Nat) (ok : Bool) : List Byte :=
  leBytes 8 o.num ++ leBytes 4 wait ++ leBytes 2 (if ok then o.sizes else 0)

theorem gateTail_ne_nil (o : OpenStep) (wait : Nat) (ok : Bool) : gateTail o wait ok ≠ [] :=
  List.append_ne_nil_of_right_ne_nil _ (List.cons_ne_nil _ _)

theorem gateNoted_keeps (ctx : Nat) (r : DRef) (wait : Nat) (ok : Bool) (s : State) : Keeps 0x8000 s (gateNoted ctx r wait ok s) :=
  .trans (modOpen_keeps ..) (.ite (modStepCtx_keeps ..) (.refl _))

theorem gateNoted_opened (ho : (stepCtx s ctx).opened = some o) (wait : Nat) (ok : Bool) :
    (stepCtx (gateNoted ctx r wait ok s) ctx).opened = some (gateEnded r wait ok o) := by
  have changed : (stepCtx (modOpen ctx (gateEnded r wait ok) s) ctx).opened = some (gateEnded r wait ok o) := by
    rw [stepCtx_modOpen, if_pos rfl, ho]
    rfl
  unfold gateNoted
  dsimp only
  split
  · rw [stepCtx_modStepCtx, if_pos rfl]
    exact changed
  · exact changed

theorem gateNoted_lastGate (ctx : Nat) (r : DRef) (wait : Nat) (ok : Bool) (s : State) :
    (stepCtx (gateNoted ctx r wait ok s) ctx).lastGate = (ok || (stepCtx s ctx).lastGate) := by
  have same : (stepCtx (modOpen ctx (gateEnded r wait ok) s) ctx).lastGate = (stepCtx s ctx).lastGate := by
    unfold modOpen
    rw [stepCtx_modStepCtx, if_pos rfl]
  unfold gateNoted
  cases ok
  · exact same
  · show (stepCtx (modStepCtx ctx _ _) ctx).lastGate = true
    rw [stepCtx_modStepCtx, if_pos rfl]

/-- The end of a gate: it is noted, the header of the record is written, and the STEP_GATE completes. -/
theorem endGate_eq (ho : (stepCtx s ctx).opened = some o) (status : Nat) :
    endGate ctx r since status s = completeWith (statusOut s r status == 0) false false r status
      (gateTail o (gateWait s since) (statusOut s r status == 0))
      (writeHeader ctx (gateEnded r (gateWait s since) (statusOut s r status == 0) o)
        (gateNoted ctx r (gateWait s since) (statusOut s r status == 0) s)) := by
  have opened := gateNoted_opened (r := r) ho (gateWait s since) (statusOut s r status == 0)
  have ends : endGate ctx r since status s =
      match (stepCtx (gateNoted ctx r (gateWait s since) (statusOut s r status == 0) s) ctx).opened with
      | some o => completeWith (statusOut s r status == 0) false false r status
          (gateTail o (gateWait s since) (statusOut s r status == 0))
          (writeHeader ctx o (gateNoted ctx r (gateWait s since) (statusOut s r status == 0) s))
      | none => gateNoted ctx r (gateWait s since) (statusOut s r status == 0) s := rfl
  rw [ends, opened]
  rfl

theorem gateHeader_carried (hd : (findDesc s r).isSome = true) (q : DRef) (wait : Nat) (ok : Bool) (o : OpenStep) :
    Carried r s (writeHeader ctx o (gateNoted ctx q wait ok s)) := by
  have noted : Carried r s (gateNoted ctx q wait ok s) := .of_keeps (gateNoted_keeps ..) rfl rfl rfl fun he =>
    ((gateNoted_keeps ctx q wait ok s).frame .errors rfl).1.trans he
  exact noted.trans (Onward.carried (writeMem_onward ..)) hd

theorem endGate_ended (k : Carried r s x) (hd : (findDesc s r).isSome = true) (ho : (stepCtx x ctx).opened = some o) (status : Nat) :
    Ended s (endGate ctx r since status x) r status (gateTail o (gateWait s since) (statusOut x r status == 0)) := by
  have time : gateWait x since = gateWait s since := by
    unfold gateWait
    rw [show x.mod.devTime = s.mod.devTime from k.time]
  rw [endGate_eq ho, time]
  exact (k.trans (gateHeader_carried (k.found hd) ..) hd).ended hd _ _ _ _ (gateTail_ne_nil o _ _)

theorem endGate_cores (ho : (stepCtx s ctx).opened = some o) (status : Nat) : stepCores (endGate ctx r since status s) =
    stepCores (gateNoted ctx r (gateWait s since) (statusOut s r status == 0) s) := by
  rw [endGate_eq ho]
  exact (completeWith_cores ..).trans (cores_of_keeps (writeHeader_keeps (F := 0x80008000000602) ..) rfl)

theorem endGate_opened (ho : (stepCtx s ctx).opened = some o) (status : Nat) :
    ∃ o', (stepCtx (endGate ctx r since status s) ctx).opened = some o'
      ∧ o'.core = (gateEnded r (gateWait s since) (statusOut s r status == 0) o).core :=
  opened_of_cores (endGate_cores ho status) (gateNoted_opened ho ..)

theorem endGate_lastGate (ho : (stepCtx s ctx).opened = some o) (status : Nat) :
    (stepCtx (endGate ctx r since status s) ctx).lastGate = (statusOut s r status == 0 || (stepCtx s ctx).lastGate) :=
  (lastGate_of_cores (endGate_cores ho status) ctx).trans (gateNoted_lastGate ..)

theorem endGate_out (ho : (stepCtx s ctx).opened = some o) (status : Nat) : s.out <:+ (endGate ctx r since status s).out := by
  have header : (writeHeader ctx (gateEnded r (gateWait s since) (statusOut s r status == 0) o)
      (gateNoted ctx r (gateWait s since) (statusOut s r status == 0) s)).out = s.out :=
    ((writeHeader_keeps (F := 0x80008000000602) ..).frame .output rfl).1.trans ((gateNoted_keeps ..).frame .output rfl).1
  rw [endGate_eq ho]
  exact (congrArg (· <:+ _) header).mp (completeWith_adds ..)

/-! ## A look at the step-size table -/

/-- The module as a table of `n` entries has been captured for the step. -/
def sizesTaken (ctx : Nat) (r : DRef) (o : OpenStep) (n crc : Nat) (s : State) : State :=
  modOpen ctx (fun o => { o with captured := some (n, crc) }) (captureSizes r o n (noteSizes r o s))

theorem pollGate_captured (ho : (stepCtx s ctx).opened = some o) (hc : o.captured.isSome = true) :
    pollGate ctx r since s = endGate ctx r since 0 s := by
  unfold pollGate
  rw [ho]
  exact if_pos hc

/-- A look finds the table with its stamp and its checks passed, malformed, or not there. -/
theorem pollGate_looks (ho : (stepCtx s ctx).opened = some o) (hc : o.captured = none) :
    pollGate ctx r since s = match findSizes s o with
      | .notCurrent => noteSizes r o s
      | .invalid => endGate ctx r since stStepsizeInvalid (noteSizes r o s)
      | .good n crc => endGate ctx r since 0 (sizesTaken ctx r o n crc s) := by
  unfold pollGate
  rw [ho]
  dsimp only
  rw [if_neg (by rw [hc]; exact Bool.false_ne_true)]
  cases findSizes s o with
  | notCurrent => rfl
  | invalid => rfl
  | good n crc => rfl

theorem noteSizes_good {q : Nat} (h : GoodHeaders s ctx q) (r : DRef) (o : OpenStep) : GoodHeaders (noteSizes r o s) ctx q :=
  noteRead_good h _ _ _

theorem findSizes_of_reads {s t : State} (h : readMem t = readMem s) {o o' : OpenStep} (hc : o'.ctrl = o.ctrl) (hn : o'.num = o.num) :
    findSizes t o' = findSizes s o := by
  unfold findSizes readNat
  rw [h, hc, hn]

theorem noteSizes_carried (hd : (findDesc s r).isSome = true) (q : DRef) (o : OpenStep) : Carried r s (noteSizes q o s) :=
  Onward.carried (noteRead_onward _ _ _ _ s hd)

theorem captureSizes_keeps_out (q : DRef) (o : OpenStep) (n : Nat) (s : State) : (captureSizes q o n s).out = s.out :=
  ((captureSizes_keeps (F := 0x80008000000642) q o n s).frame .output rfl).1

theorem sizesTaken_carried (hd : (findDesc s r).isSome = true) (q : DRef) (o : OpenStep) (n crc : Nat) :
    Carried r s (sizesTaken ctx q o n crc s) := by
  have noted := noteSizes_carried hd q o
  have written : Carried r s (captureSizes q o n (noteSizes q o s)) := noted.trans (Onward.carried (writeMem_onward ..)) hd
  exact written.trans (.of_keeps (modOpen_keeps (F := 0x8000) ..) rfl rfl rfl id) hd

theorem sizesTaken_stepCtx (q : DRef) (o : OpenStep) (n crc : Nat) (s : State) : stepCtx (sizesTaken ctx q o n crc s) =
    stepCtx (modOpen ctx (fun o => { o with captured := some (n, crc) }) s) := by
  have steps : (captureSizes q o n (noteSizes q o s)).steps = s.steps :=
    ((captureSizes_keeps (F := 0x80008000000642) ..).frame .steps rfl).trans ((noteSizes_keeps (F := 0x80008000000442) ..).frame .steps rfl)
  funext c
  unfold sizesTaken modOpen modStepCtx stepCtx
  dsimp only
  rw [steps]

theorem sizesTaken_opened (ho : (stepCtx s ctx).opened = some o) (q : DRef) (p : OpenStep) (n crc : Nat) :
    (stepCtx (sizesTaken ctx q p n crc s) ctx).opened = some { o with captured := some (n, crc) } := by
  rw [sizesTaken_stepCtx, stepCtx_modOpen, if_pos rfl, ho]
  rfl

theorem sizesTaken_lastGate (q : DRef) (o : OpenStep) (n crc : Nat) (s : State) :
    (stepCtx (sizesTaken ctx q o n crc s) ctx).lastGate = (stepCtx s ctx).lastGate := by
  rw [sizesTaken_stepCtx]
  unfold modOpen
  rw [stepCtx_modStepCtx, if_pos rfl]

theorem sizesTaken_out (q : DRef) (o : OpenStep) (n crc : Nat) (s : State) : (sizesTaken ctx q o n crc s).out = s.out :=
  ((captureSizes_keeps (F := 0x80008000000642) ..).frame .output rfl).1.trans
    ((noteSizes_keeps (F := 0x80008000000442) q o s).frame .output rfl).1

/-- A gate that looks sends out no less, and once a gate of the step has passed that stays so. -/
theorem pollGate_adds (ctx : Nat) (r : DRef) (since : Nat) (s : State) :
    s.out <:+ (pollGate ctx r since s).out
      ∧ ((stepCtx s ctx).lastGate = true → (stepCtx (pollGate ctx r since s) ctx).lastGate = true) := by
  have ends {x : State} {o : OpenStep} (ho : (stepCtx x ctx).opened = some o) (out : x.out = s.out)
      (gate : (stepCtx x ctx).lastGate = (stepCtx s ctx).lastGate) (status : Nat) :
      s.out <:+ (endGate ctx r since status x).out
        ∧ ((stepCtx s ctx).lastGate = true → (stepCtx (endGate ctx r since status x) ctx).lastGate = true) := by
    refine ⟨out ▸ endGate_out ho status, fun h => ?_⟩
    rw [endGate_lastGate ho, gate, h, Bool.or_true]
  cases ho : (stepCtx s ctx).opened with
  | none =>
    unfold pollGate
    rw [ho]
    exact ⟨List.suffix_refl _, id⟩
  | some o =>
    have noted := noteSizes_keeps (F := 0x80008000000442) r o s
    have steps := stepCtx_of_keeps noted rfl
    cases hc : o.captured with
    | some c =>
      rw [pollGate_captured ho (by rw [hc]; rfl)]
      exact ends ho rfl rfl 0
    | none =>
      rw [pollGate_looks ho hc]
      cases findSizes s o with
      | notCurrent => exact ⟨(congrArg (s.out <:+ ·) (noted.frame .output rfl).1).mpr (List.suffix_refl _), fun h => by
          show (stepCtx (noteSizes r o s) ctx).lastGate = true
          rw [steps]
          exact h⟩
      | invalid => exact ends (by rw [steps]; exact ho) (noted.frame .output rfl).1 (by rw [steps]) _
      | good n crc => exact ends (sizesTaken_opened ho r o n crc) (sizesTaken_out ..) (sizesTaken_lastGate ..) 0

/-- Gates that look one after another. -/
theorem pollGates_add (gs : List (DRef × Nat)) (s : State) :
    s.out <:+ (gs.foldl (fun s g => pollGate ctx g.1 g.2 s) s).out
      ∧ ((stepCtx s ctx).lastGate = true → (stepCtx (gs.foldl (fun s g => pollGate ctx g.1 g.2 s) s) ctx).lastGate = true) := by
  induction gs generalizing s with
  | nil => exact ⟨List.suffix_refl _, id⟩
  | cons g gs ih =>
    obtain ⟨out, gate⟩ := pollGate_adds ctx g.1 g.2 s
    obtain ⟨out', gate'⟩ := ih (pollGate ctx g.1 g.2 s)
    exact ⟨out.trans out', fun h => gate' (gate h)⟩

/-! ## A gate that passes -/

/-- The success of a gate whose descriptor has read no codeword in error. -/
theorem endGate_passes (k : Carried r s x) (hd : (findDesc s r).isSome = true) (ho : (stepCtx x ctx).opened = some o)
    (he : s.mem.errs = []) (hp : ∀ d, findDesc s r = some d → d.poisoned = false) :
    Ended s (endGate ctx r since 0 x) r 0 (leBytes 8 o.num ++ leBytes 4 (gateWait s since) ++ leBytes 2 o.sizes)
      ∧ (stepCtx (endGate ctx r since 0 x) ctx).lastGate = true
      ∧ ∃ o', (stepCtx (endGate ctx r since 0 x) ctx).opened = some o' ∧ o'.gatePassed = true := by
  obtain ⟨d, hx, hu⟩ := k.unpoisoned he hd hp
  have ok : (statusOut x r 0 == 0) = true := beq_iff_eq.2 (statusOut_success hx hu)
  have ended := endGate_ended k hd ho (since := since) 0
  obtain ⟨o', ho', core⟩ := endGate_opened (r := r) (since := since) ho 0
  rw [ok] at ended core
  refine ⟨ended, ?_, o', ho', ?_⟩
  · rw [endGate_lastGate ho, ok]
    rfl
  · exact (congrArg OpenStep.gatePassed core).trans (Bool.or_true _)

/-- A gate that ends without success carries no entries and passes nothing. -/
theorem endGate_fails (k : Carried r s x) (hd : (findDesc s r).isSome = true) (ho : (stepCtx x ctx).opened = some o) {status : Nat}
    (h0 : status ≠ 0) :
    Ended s (endGate ctx r since status x) r status (leBytes 8 o.num ++ leBytes 4 (gateWait s since) ++ leBytes 2 0)
      ∧ (stepCtx (endGate ctx r since status x) ctx).lastGate = (stepCtx x ctx).lastGate := by
  have no : (statusOut x r status == 0) = false := beq_false_of_ne (statusOut_ne x r h0)
  have ended := endGate_ended k hd ho (since := since) status
  rw [no] at ended
  refine ⟨ended, ?_⟩
  rw [endGate_lastGate ho, no]
  rfl

end

/-! ## STEP_GATE -/

section
variable {ctx : Fin 16} {ring : Fin 8} {a : Accepted} {o : OpenStep} {s : State}

/-- A gate joins those that poll the table. -/
def gateJoined (ctx : Nat) (r : DRef) (s : State) : State :=
  modOpen ctx (fun o => { o with gates := o.gates ++ [(r, s.mod.devTime)] }) s

/-- The step with a gate that has joined. -/
def withGate (o : OpenStep) (r : DRef) (now : Nat) : OpenStep := { o with gates := o.gates ++ [(r, now)] }

/-- In its ring, in an open training step, a STEP_GATE looks at the table. -/
theorem exec_stepGate (h : Dispatches s ctx ring 0x12 a) (ho : (stepCtx s ctx).opened = some o) (hr : (stepCtx s ctx).ring = some ring.val)
    (hb : o.begun = true) (hm : o.mode ≠ 4) : ∃ d, exec (.stepGate ctx ring) s =
      .next (settleBad ctx ring (pollGate ctx a.ref s.mod.devTime (gateJoined ctx a.ref (dispatchNoted ctx ring d s)))) := by
  obtain ⟨d, -, he⟩ := dispatchOp_accepts h (fun a s =>
    let x := stepCtx s ctx
    match x.opened with
    | some o =>
      if x.ring ≠ some ring.val then completeWith false true false a.ref stStepInvalid [] s
      else if !o.begun || o.mode == 4 then completeWith false false false a.ref stStepMode [] s
      else
        let now := s.mod.devTime
        pollGate ctx a.ref now (modOpen ctx (fun o => { o with gates := o.gates ++ [(a.ref, now)] }) s)
    | none =>
      if x.ring.isSome && x.ring != some ring.val then completeWith false true false a.ref stStepInvalid [] s
      else completeWith false false false a.ref stStepMode [] s)
  refine ⟨d, congrArg Host.Outcome.next (he.trans (congrArg (settleBad ctx ring) ?_))⟩
  have noted := dispatchNoted_keeps ctx ring d s
  have training : (!o.begun || o.mode == 4) = false := by
    rw [hb, beq_false_of_ne hm]
    rfl
  dsimp only
  rw [stepCtx_of_keeps noted rfl, ho]
  dsimp only
  rw [if_neg (not_not.2 hr), training, if_neg Bool.false_ne_true, noted.time]
  show pollGate ctx a.ref s.mod.devTime _ = pollGate ctx a.ref s.mod.devTime (gateJoined ctx a.ref (dispatchNoted ctx ring d s))
  unfold gateJoined
  rw [noted.time]

/-- What the gate finds as it looks. -/
structure GateReady (ctx ring : Nat) (r : DRef) (o : OpenStep) (s x : State) : Prop where
  carried : Carried r s x
  opened : (stepCtx x ctx).opened = some (withGate o r s.mod.devTime)
  lastGate : (stepCtx x ctx).lastGate = (stepCtx s ctx).lastGate
  sizes : findSizes x (withGate o r s.mod.devTime) = findSizes s o
  keeps : Keeps 0x80008000008442 s x
  good : GoodHeaders s ctx ring → GoodHeaders x ctx ring

theorem gateJoined_ready (h : Dispatches s ctx ring 0x12 a) (ho : (stepCtx s ctx).opened = some o) (d : Desc) :
    GateReady ctx ring a.ref o s (gateJoined ctx a.ref (dispatchNoted ctx ring d s)) := by
  have hd := findDesc_of_dispatches h
  have noted := dispatchNoted_keeps ctx ring d s
  have joined : Keeps 0x8000 (dispatchNoted ctx ring d s) (gateJoined ctx a.ref (dispatchNoted ctx ring d s)) := modOpen_keeps ..
  refine ⟨?_, ?_, ?_, findSizes_of_reads (readMem_dispatchNoted ctx ring d s) rfl rfl, (noted.mono (by decide)).trans (joined.mono (by decide)),
    fun g => goodHeaders_of_doors (dispatchNoted_good g ctx ring d) (joined.frame .doors rfl)⟩
  · exact (Onward.carried (dispatchNoted_onward ctx ring d hd)).trans
      (.of_keeps joined rfl rfl rfl fun e => (joined.frame .errors rfl).1.trans e) hd
  · unfold gateJoined
    rw [stepCtx_modOpen, if_pos rfl, stepCtx_of_keeps noted rfl, ho, noted.time]
    rfl
  · unfold gateJoined modOpen
    rw [stepCtx_modStepCtx, if_pos rfl, stepCtx_of_keeps noted rfl]

theorem gateWait_now (s : State) : gateWait s s.mod.devTime = 0 := by
  unfold gateWait
  rw [Nat.sub_self]
  rfl

/-- The clause on a table that is captured, or current with its checks passed. -/
theorem stepGate_passes (h : Dispatches s ctx ring 0x12 a) (ho : (stepCtx s ctx).opened = some o) (hr : (stepCtx s ctx).ring = some ring.val)
    (hb : o.begun = true) (hm : o.mode ≠ 4) {n crc : Nat}
    (hc : o.captured = some (n, crc) ∨ o.captured = none ∧ findSizes s o = .good n crc) : Completes (.stepGate ctx ring) s fun t =>
      (∃ k, Ended s t a.ref 0 (leBytes 8 o.num ++ leBytes 4 0 ++ leBytes 2 k))
        ∧ (∃ o', (stepCtx t ctx).opened = some o' ∧ o'.captured = some (n, crc))
        ∧ (s.mem.errs = [] → (∀ d, findDesc s a.ref = some d → d.poisoned = false) →
            Ended s t a.ref 0 (leBytes 8 o.num ++ leBytes 4 0 ++ leBytes 2 n) ∧ (stepCtx t ctx).lastGate = true
              ∧ ∃ o', (stepCtx t ctx).opened = some o' ∧ o'.gatePassed = true) := by
  obtain ⟨d, he⟩ := exec_stepGate h ho hr hb hm
  have hd := findDesc_of_dispatches h
  have ready := gateJoined_ready h ho d
  generalize gateJoined ctx a.ref (dispatchNoted ctx ring d s) = x at he ready
  obtain ⟨y, p, hy, carried, opened, num, captured⟩ : ∃ y p, pollGate ctx a.ref s.mod.devTime x = endGate ctx a.ref s.mod.devTime 0 y
      ∧ Carried a.ref s y ∧ (stepCtx y ctx).opened = some p ∧ p.num = o.num ∧ p.captured = some (n, crc) := by
    rcases hc with hc | ⟨hc, hg⟩
    · exact ⟨x, _, pollGate_captured ready.opened (by show o.captured.isSome = true; rw [hc]; rfl), ready.carried, ready.opened, rfl, hc⟩
    · refine ⟨sizesTaken ctx a.ref (withGate o a.ref s.mod.devTime) n crc x, _, ?_,
        ready.carried.trans (sizesTaken_carried (ready.carried.found hd) ..) hd, sizesTaken_opened ready.opened .., rfl, rfl⟩
      rw [pollGate_looks ready.opened hc, ready.sizes, hg]
  rw [hy] at he
  have cores := settleBad_cores ctx ring (endGate ctx a.ref s.mod.devTime 0 y)
  have out := settleBad_out ctx ring (endGate ctx a.ref s.mod.devTime 0 y)
  have entries : p.sizes = n := by
    unfold OpenStep.sizes
    rw [captured]
  refine ⟨_, he, ⟨if statusOut y a.ref 0 == 0 then p.sizes else 0, ?_⟩, ?_, fun hclean hp => ?_⟩
  · have ended := endGate_ended carried hd opened (since := s.mod.devTime) 0
    rw [gateTail, gateWait_now, num] at ended
    exact ended_of_suffix ended out
  · obtain ⟨o', ho', core⟩ := endGate_opened (r := a.ref) (since := s.mod.devTime) opened 0
    obtain ⟨o'', ho'', core'⟩ := opened_of_cores cores ho'
    exact ⟨o'', ho'', (congrArg OpenStep.captured (core'.trans core)).trans captured⟩
  · obtain ⟨ended, gate, o', ho', passed⟩ := endGate_passes carried hd opened (since := s.mod.devTime) hclean hp
    obtain ⟨o'', ho'', core⟩ := opened_of_cores cores ho'
    rw [gateWait_now, num, entries] at ended
    exact ⟨ended_of_suffix ended out, (lastGate_of_cores cores ctx).trans gate, o'', ho'', (congrArg OpenStep.gatePassed core).trans passed⟩

/-- The clause on a table with its stamp and a COUNT or an entry out of range. -/
theorem stepGate_invalid (h : Dispatches s ctx ring 0x12 a) (ho : (stepCtx s ctx).opened = some o) (hr : (stepCtx s ctx).ring = some ring.val)
    (hb : o.begun = true) (hm : o.mode ≠ 4) (hc : o.captured = none) (hf : findSizes s o = .invalid) :
    Completes (.stepGate ctx ring) s fun t =>
      Ended s t a.ref 0x0188 (leBytes 8 o.num ++ leBytes 4 0 ++ leBytes 2 0) ∧ (stepCtx t ctx).lastGate = (stepCtx s ctx).lastGate := by
  obtain ⟨d, he⟩ := exec_stepGate h ho hr hb hm
  have hd := findDesc_of_dispatches h
  have ready := gateJoined_ready h ho d
  generalize gateJoined ctx a.ref (dispatchNoted ctx ring d s) = x at he ready
  rw [pollGate_looks ready.opened hc, ready.sizes, hf] at he
  have steps := stepCtx_of_keeps (noteSizes_keeps (F := 0x80008000000442) a.ref (withGate o a.ref s.mod.devTime) x) rfl
  obtain ⟨ended, gate⟩ := endGate_fails (since := s.mod.devTime) (status := stStepsizeInvalid)
    (ready.carried.trans (noteSizes_carried (ready.carried.found hd) a.ref (withGate o a.ref s.mod.devTime)) hd) hd
    (by rw [steps]; exact ready.opened) (by decide)
  rw [gateWait_now] at ended
  refine ⟨_, he, ended_of_suffix ended (settleBad_out ..), ?_⟩
  rw [lastGate_of_cores (settleBad_cores ..) ctx, gate, steps]
  exact ready.lastGate

/-- The clause on a table of another stamp. -/
theorem stepGate_waits (h : Dispatches s ctx ring 0x12 a) (ho : (stepCtx s ctx).opened = some o) (hr : (stepCtx s ctx).ring = some ring.val)
    (hb : o.begun = true) (hm : o.mode ≠ 4) (hc : o.captured = none) (hf : findSizes s o = .notCurrent) :
    Completes (.stepGate ctx ring) s fun t => (GoodHeaders s ctx ring → t.out = s.out) ∧ t.mem.cells = s.mem.cells
      ∧ ∃ o', (stepCtx t ctx).opened = some o' ∧ o'.gates = o.gates ++ [(a.ref, s.mod.devTime)] := by
  obtain ⟨d, he⟩ := exec_stepGate h ho hr hb hm
  have ready := gateJoined_ready h ho d
  generalize gateJoined ctx a.ref (dispatchNoted ctx ring d s) = x at he ready
  rw [pollGate_looks ready.opened hc, ready.sizes, hf] at he
  have noted := noteSizes_keeps (F := 0x80008000000442) a.ref (withGate o a.ref s.mod.devTime) x
  have settled := settleBad_keeps (F := 0x1000010048040) ctx ring (noteSizes a.ref (withGate o a.ref s.mod.devTime) x)
  refine ⟨_, he, fun g => ?_, ?_, ?_⟩
  · dsimp only
    rw [settleBad_good (noteSizes_good (ready.good g) _ _)]
    exact (noted.frame .output rfl).1.trans (ready.keeps.frame .output rfl).1
  · exact (settled.frame .memory rfl).trans ((noted.frame .memory rfl).trans (ready.keeps.frame .memory rfl))
  · obtain ⟨o', ho', core⟩ := opened_of_cores (settleBad_cores ctx ring (noteSizes a.ref (withGate o a.ref s.mod.devTime) x))
      (by rw [stepCtx_of_keeps noted rfl]; exact ready.opened)
    exact ⟨o', ho', congrArg OpenStep.gates core⟩

end

/-! ## The gates that wait -/

section
variable {ctx : Fin 16} {o : OpenStep} {g : DRef × Nat} {gs : List (DRef × Nat)} {s : State}

/-- The oldest waiting gate passes where the table is current, at its own event and at the end of STAMP_WAIT alike. -/
theorem waitingGate_passes (ho : (stepCtx s ctx).opened = some o) (hg : o.gates = g :: gs) (hd : (findDesc s g.1).isSome = true)
    (hc : o.captured = none) {c : Instr} {n crc : Nat} (hi : c = .stepsizeTableCurrent ctx ∨ c = .stepsizeStaleTimeout ctx)
    (hf : findSizes s o = .good n crc) (he : s.mem.errs = []) (hp : ∀ d, findDesc s g.1 = some d → d.poisoned = false) :
    Completes c s fun t =>
      Ended s t g.1 0 (leBytes 8 o.num ++ leBytes 4 (min ((s.mod.devTime - g.2) / 1000) 0xFFFFFFFF) ++ leBytes 2 n)
        ∧ (stepCtx t ctx).lastGate = true := by
  have poll : pollGate ctx g.1 g.2 s = endGate ctx g.1 g.2 0 (sizesTaken ctx g.1 o n crc s) := by
    rw [pollGate_looks ho hc, hf]
  have taken := sizesTaken_opened ho g.1 o n crc
  obtain ⟨ended, gate, -⟩ := endGate_passes (since := g.2) (sizesTaken_carried hd g.1 o n crc) hd taken he hp
  rw [← poll] at ended gate
  rcases hi with rfl | rfl
  · have current : exec (.stepsizeTableCurrent ctx) s = .next (gs.foldl (fun s g => pollGate ctx g.1 g.2 s) (pollGate ctx g.1 g.2 s)) := by
      show execStepsizeTableCurrent ctx s = _
      unfold execStepsizeTableCurrent
      rw [ho]
      dsimp only
      rw [hg, List.foldl_cons]
    obtain ⟨out, stays⟩ := pollGates_add (ctx := ctx) gs (pollGate ctx g.1 g.2 s)
    exact ⟨_, current, ended_of_suffix ended out, stays gate⟩
  · obtain ⟨o', ho', core⟩ := endGate_opened (r := g.1) (since := g.2) taken 0
    rw [← poll] at ho'
    have gone : (o'.gates.any fun h => h.1 == g.1) = false := by
      have left : o'.gates = o.gates.filter fun h => h.1 != g.1 := congrArg OpenStep.gates core
      rw [left, List.any_eq_false]
      intro h hm
      simpa using (List.mem_filter.1 hm).2
    have stale : exec (.stepsizeStaleTimeout ctx) s = .next (pollGate ctx g.1 g.2 s) := by
      show execStepsizeStaleTimeout ctx s = _
      unfold execStepsizeStaleTimeout
      rw [ho]
      dsimp only
      rw [hg]
      dsimp only
      rw [ho']
      dsimp only
      rw [gone]
      rfl
    exact ⟨_, stale, ended, gate⟩

/-- At the end of STAMP_WAIT the oldest waiting gate ends where the table is not current. -/
theorem waitingGate_stale (ho : (stepCtx s ctx).opened = some o) (hg : o.gates = g :: gs) (hd : (findDesc s g.1).isSome = true)
    (hc : o.captured = none) (hgs : ∀ h ∈ gs, h.1 ≠ g.1) (hf : findSizes s o = .notCurrent) :
    Completes (.stepsizeStaleTimeout ctx) s fun t =>
      Ended s t g.1 0x0187 (leBytes 8 o.num ++ leBytes 4 (min ((s.mod.devTime - g.2) / 1000) 0xFFFFFFFF) ++ leBytes 2 0)
        ∧ ∃ o', (stepCtx t ctx).opened = some o' ∧ o'.gates = gs ∧ o'.captured = none := by
  have poll : pollGate ctx g.1 g.2 s = noteSizes g.1 o s := by
    rw [pollGate_looks ho hc, hf]
  have opened : (stepCtx (noteSizes g.1 o s) ctx).opened = some o := by
    rw [stepCtx_of_keeps (noteSizes_keeps (F := 0x80008000000442) g.1 o s) rfl]
    exact ho
  have stale : exec (.stepsizeStaleTimeout ctx) s = .next (endGate ctx g.1 g.2 stStepsizeStale (noteSizes g.1 o s)) := by
    show execStepsizeStaleTimeout ctx s = _
    unfold execStepsizeStaleTimeout
    rw [ho]
    dsimp only
    rw [hg]
    dsimp only
    rw [poll, opened]
    dsimp only
    rw [hg, List.any_cons, beq_self_eq_true]
    rfl
  obtain ⟨o', ho', core⟩ := endGate_opened (r := g.1) (since := g.2) opened stStepsizeStale
  refine ⟨_, stale, (endGate_fails (noteSizes_carried hd g.1 o) hd opened (by decide)).1, o', ho', ?_,
    (congrArg OpenStep.captured core).trans hc⟩
  have left : o'.gates = o.gates.filter fun h => h.1 != g.1 := congrArg OpenStep.gates core
  rw [left, hg, List.filter_cons, if_neg (by simp)]
  exact List.filter_eq_self.2 fun h hm => bne_iff_ne.2 (hgs h hm)

end

/-- Settles O44: a STEP_GATE by what it finds of the table, and the oldest gate that waits by the same and by the end of STAMP_WAIT. -/
theorem gatesPassOrWait : Obligations.GatesPassOrWait := by
  unfold Obligations.GatesPassOrWait
  refine ⟨fun ctx ring a o s h ho hr hb hm => ⟨fun n crc => stepGate_passes h ho hr hb hm, stepGate_invalid h ho hr hb hm,
    stepGate_waits h ho hr hb hm⟩, fun ctx o g gs s ho hg hd hc hgs => ⟨fun c n crc => waitingGate_passes ho hg hd hc,
    waitingGate_stale ho hg hd hc hgs⟩⟩

end Sys2Proof.Machine

/-!
SUPPORT. The attempt at a commit (R107, R110, R221, R222, R237, R238): which planes it flips, what it leaves alone up to the lag check, and how
the step then begins or stalls.
-/
namespace Sys2Proof.Machine
set_option Elab.async false
open Sys2Proof.Safety

/-! ## Planes -/

/-- The planes of a Drawer and which of them is active. -/
def Drawer.sides (w : Drawer) : Plane × Plane × Bool := (w.planeA, w.planeB, w.activeB)

theorem flips_drawer {ds : List Nat} (hd : ds.Nodup) (s : State) (d : Nat) :
    drawer (ds.foldl (fun s d => modDrawer d Drawer.flip s) s) d = if d ∈ ds then (drawer s d).flip else drawer s d := by
  induction ds generalizing s with
  | nil => rfl
  | cons e ds ih =>
    obtain ⟨he, hd⟩ := List.nodup_cons.1 hd
    rw [List.foldl_cons, ih hd, drawer_modDrawer]
    by_cases h : d = e
    · subst h
      rw [if_neg he, if_pos rfl, if_pos List.mem_cons_self]
    · rw [if_neg h]
      exact if_congr ⟨List.mem_cons_of_mem _, fun m => (List.mem_cons.1 m).resolve_left h⟩ rfl rfl

/-- A staged trim set that comes into force moves no plane. -/
theorem stagedInForce_sides (e : Nat) (s : State) (d : Nat) : (drawer (stagedInForce e s) d).sides = (drawer s d).sides := by
  unfold stagedInForce
  split
  · rfl
  · dsimp only
    rw [drawer_modDrawer, drawer_of_keeps (writeMem_keeps (F := 0x80008000000602) ..) rfl]
    split
    · rfl
    · rfl

theorem takeStaged_sides {flips : List Nat} (hd : flips.Nodup) (ctx : Nat) (trims : List Nat) (maps : Tab (Option Byte)) (s : State) (d : Nat) :
    (drawer (takeStaged ctx flips trims maps s) d).sides = (if d ∈ flips then (drawer s d).flip else drawer s d).sides := by
  rw [← flips_drawer hd]
  exact foldl_same (fun x : State => (drawer x d).sides) _ (fun x e => stagedInForce_sides e x d) trims _

/-! ## Up to the lag check -/

/-- From `s` to `t` a commit has gone on: its STEP_BEGIN is open, and of what its end depends on nothing has changed but steps, Drawers,
maps, groups and memory. -/
structure Proceeds (r : DRef) (s t : State) : Prop where
  carried : Carried r s t
  mod : t.mod = s.mod
  regs : t.regs = s.regs
  out : t.out = s.out
  good : ∀ c q, GoodHeaders s c q → GoodHeaders t c q

section
variable {r : DRef} {s x t : State}

theorem Proceeds.trans (h : Proceeds r s x) (k : Proceeds r x t) (hd : (findDesc s r).isSome = true) : Proceeds r s t :=
  ⟨h.carried.trans k.carried hd, k.mod.trans h.mod, k.regs.trans h.regs, k.out.trans h.out, fun c q g => k.good c q (h.good c q g)⟩

theorem Proceeds.found (k : Proceeds r s t) (hd : (findDesc s r).isSome = true) : (findDesc t r).isSome = true := k.carried.found hd

/-- An operation that leaves the doorbell pages, the registers, the functions, the output and the module's own fields alone. -/
theorem Proceeds.of_keeps {F : Nat} (k : Keeps F s t) (hF : ∀ i ∈ [0, 2, 6, 7, 28], F.testBit i = false)
    (hc : s.mem.errs = [] → t.mem.errs = []) : Proceeds r s t :=
  ⟨.of_keeps k (hF 6 (by decide)) (hF 7 (by decide)) (hF 28 (by decide)) hc, k.frame .module (hF 0 (by decide)),
    k.frame .registers (hF 2 (by decide)), (k.frame .output (hF 28 (by decide))).1,
    fun _ _ g => goodHeaders_of_doors g (k.frame .doors (hF 6 (by decide)))⟩

theorem noteRead_proceeds (acc : Access) (a n : Nat) (hd : (findDesc s r).isSome = true) : Proceeds r s (noteRead acc a n s) := by
  have k : Keeps 0x80008000000442 s (noteRead acc a n s) := noteRead_keeps ..
  exact ⟨Onward.carried (noteRead_onward r acc a n s hd), k.frame .module rfl, k.frame .registers rfl, (k.frame .output rfl).1,
    fun _ _ g => noteRead_good g acc a n⟩

theorem writeMem_proceeds (acc : Access) (a : Nat) (bs : List Byte) (s : State) : Proceeds r s (writeMem acc a bs s) :=
  .of_keeps (writeMem_keeps (F := 0x80008000000602) ..) (by decide) (writeMem_clean acc a bs s)

theorem takeStaged_clean (ctx : Nat) (flips trims : List Nat) (maps : Tab (Option Byte)) (h : s.mem.errs = []) :
    (takeStaged ctx flips trims maps s).mem.errs = [] := by
  have flipped : (flips.foldl (fun s d => modDrawer d Drawer.flip s) s).mem.errs = [] :=
    foldl_keeps (fun x : State => x.mem.errs = []) (fun s d => modDrawer d Drawer.flip s) (fun x d hx => hx) flips s h
  refine foldl_keeps (fun x : State => x.mem.errs = []) _ (fun x d hx => ?_) trims _ flipped
  unfold stagedInForce
  split
  · exact hx
  · exact writeMem_clean _ _ _ x hx

theorem takeStaged_proceeds (ctx : Nat) (flips trims : List Nat) (maps : Tab (Option Byte)) (s : State) :
    Proceeds r s (takeStaged ctx flips trims maps s) :=
  .of_keeps (takeStaged_keeps (F := 0x80008000050602) ..) (by decide) (takeStaged_clean ctx flips trims maps)

theorem applyRules_proceeds (o : OpenStep) (input : Option (List Byte)) (hd : (findDesc s r).isSome = true) :
    Proceeds r s (applyRules o input s).2 := by
  cases input with
  | none => exact .of_keeps (Keeps.refl (F := 0) s) (by decide) id
  | some body => exact (noteRead_proceeds _ _ _ hd).trans (writeMem_proceeds ..) hd

theorem captureAtCommit_proceeds (o : OpenStep) (hd : (findDesc s r).isSome = true) : Proceeds r s (captureAtCommit o s).2 := by
  have noted : Proceeds r s (noteSizes o.ref o s) := noteRead_proceeds _ _ _ hd
  unfold captureAtCommit
  split
  · exact .of_keeps (Keeps.refl (F := 0) s) (by decide) id
  · dsimp only
    split
    · exact noted.trans (writeMem_proceeds ..) hd
    · exact noted

theorem writeRecord_proceeds (ctx : Nat) (o : OpenStep) (opens : Bool) (s : State) : Proceeds r s (writeRecord ctx o opens s) := by
  unfold writeRecord
  split
  · exact writeMem_proceeds ..
  · exact writeMem_proceeds ..

end

/-! ## What the step is as it comes to the lag check -/

/-- What of a step the attempt leaves as it is up to the lag check. -/
structure SameStep (o p : OpenStep) : Prop where
  num : p.num = o.num
  ref : p.ref = o.ref
  begun : p.begun = o.begun
  choices : p.choices = o.choices

theorem captureAtCommit_same (o : OpenStep) (s : State) : SameStep o (captureAtCommit o s).1 := by
  unfold captureAtCommit
  split
  · exact ⟨rfl, rfl, rfl, rfl⟩
  · dsimp only
    split
    · exact ⟨rfl, rfl, rfl, rfl⟩
    · exact ⟨rfl, rfl, rfl, rfl⟩

/-- Step 4 evaluates each rule for its entry of the input. -/
theorem evaluateRules_choices (o : OpenStep) (body : List Byte) (s : State) :
    (evaluateRules o body s).1.choices = (List.range (ctrlRuleCount o.ctrl)).map fun i =>
      evaluateRule (readMem s (ctrlRuleAddr o.ctrl + 32 * i) 32) ((body.drop (320 * i)).take 292) := rfl

theorem applyRules_same (o : OpenStep) (input : Option (List Byte)) (s : State) :
    (applyRules o input s).1.num = o.num ∧ (applyRules o input s).1.ref = o.ref ∧ (applyRules o input s).1.begun = o.begun := by
  cases input with
  | none => exact ⟨rfl, rfl, rfl⟩
  | some body => exact ⟨rfl, rfl, rfl⟩

end Sys2Proof.Machine

/-!
SUPPORT. The lag check (R109, R110): the step begins (R219, R223) or stalls, and what of `Attempted` holds then.
-/
namespace Sys2Proof.Machine
set_option Elab.async false
open Sys2Proof.Safety

/-! ## What the check looks at -/

/-- The largest lag of a context about to begin step `n`, and the lowest Drawer that has it. -/
def worstLag (s : State) (ctx n : Nat) : Nat × Nat := (largestLag s ctx n).getD (0, 0)

/-- The lag exceeds the context's limit. -/
def stalls (s : State) (ctx n : Nat) : Bool :=
  decide (reg s (rPlnLagLimit ctx) % 256 ≠ 0) && decide (reg s (rPlnLagLimit ctx) % 256 < (worstLag s ctx n).1)

/-- The step with the lag of its attempt. -/
def OpenStep.lagged (o : OpenStep) (lag : Nat × Nat) : OpenStep := { o with maxLag := lag.1, worst := lag.2 }

/-- The lag of the attempt in PLN_LAG_STATUS. -/
def lagShown (ctx : Nat) (lag : Nat × Nat) (stall : Bool) (s : State) : State :=
  setReg (rPlnLagStatus ctx) (min 255 lag.1 + lag.2 * 256 + boolNat stall * 2 ^ 22) s

/-- The step waits for the lag to fall. -/
def lagWaits (ctx : Nat) (o : OpenStep) (s : State) : State :=
  modStepCtx ctx (fun c => { c with
    opened := some { o with wait := .lag, stalledAt := some (o.stalledAt.getD s.mod.devTime) } }) s

/-! ## The step begins -/

/-- The step as it begins. -/
def OpenStep.started (o : OpenStep) (now : Nat) : OpenStep :=
  { o with
    begun := true, wait := .none, tBegin := now
    stall := match o.stalledAt with | some t => (now - t) / 1000 | none => 0 }

/-- The last 16 bytes of the completion of a STEP_BEGIN that begins its step, after the step's number. -/
def startedTail (o : OpenStep) : List Byte :=
  leBytes 2 o.flips ++ leBytes 1 (min 255 o.maxLag) ++ leBytes 1 o.commitBits ++ leBytes 4 (stop32 o.stall)

/-- The numbering of a context whose step `o` begins. -/
def StepCtx.starts (o : OpenStep) (c : StepCtx) : StepCtx :=
  { c with opened := some o, last := some o.num, lastGate := false, lastEpoch := o.epochAt, begunSteps := (o.num :: c.begunSteps).dedup }

/-- The module with the step begun, before its STEP_BEGIN completes. -/
def stepBegun (ctx : Nat) (o : OpenStep) (s : State) : State :=
  writeHeader ctx o (nowRunning (modStepCtx ctx (StepCtx.starts o) s))

section
variable {ctx : Nat} {r : DRef} {s x y : State} {o : OpenStep}

theorem beginStep_eq (ctx : Nat) (o : OpenStep) (s : State) : beginStep ctx o s =
    complete o.ref 0 (leBytes 8 o.num ++ leBytes 2 o.flips ++ leBytes 1 (min 255 o.maxLag) ++ leBytes 1 o.commitBits
      ++ leBytes 4 (stop32 (o.started s.mod.devTime).stall)) (stepBegun ctx (o.started s.mod.devTime) s) := rfl

theorem beginTail_append (o : OpenStep) : leBytes 8 o.num ++ leBytes 2 o.flips ++ leBytes 1 (min 255 o.maxLag) ++ leBytes 1 o.commitBits
    ++ leBytes 4 (stop32 o.stall) = leBytes 8 o.num ++ startedTail o := by
  unfold startedTail
  simp only [List.append_assoc]

theorem nowRunning_mod (s : State) :
    (nowRunning s).mod = { s.mod with st := if s.mod.st = .ready then .running else s.mod.st } := by
  unfold nowRunning
  split
  · rfl
  · rfl

theorem stepBegun_stepCtx (ctx : Nat) (o : OpenStep) (s : State) :
    stepCtx (stepBegun ctx o s) ctx = (stepCtx s ctx).starts o := by
  have written : stepCtx (stepBegun ctx o s) = stepCtx (modStepCtx ctx (StepCtx.starts o) s) :=
    (stepCtx_of_keeps (writeHeader_keeps (F := 0x80008000000602) ..) rfl).trans (stepCtx_of_keeps (nowRunning_keeps (F := 0x1) _) rfl)
  rw [written, stepCtx_modStepCtx, if_pos rfl]

theorem stepBegun_mod (ctx : Nat) (o : OpenStep) (s : State) :
    (stepBegun ctx o s).mod = { s.mod with st := if s.mod.st = .ready then .running else s.mod.st } :=
  ((writeHeader_keeps (F := 0x80008000000602) ctx o _).frame .module rfl).trans (nowRunning_mod _)

theorem stepBegun_carried (hd : (findDesc s r).isSome = true) (ctx : Nat) (o : OpenStep) : Carried r s (stepBegun ctx o s) := by
  have opened : Carried r s (modStepCtx ctx (StepCtx.starts o) s) := .of_keeps (modStepCtx_keeps (F := 0x8000) ..) rfl rfl rfl id
  have running : Carried r s (nowRunning (modStepCtx ctx (StepCtx.starts o) s)) :=
    opened.trans (.of_keeps (nowRunning_keeps (F := 0x1) _) rfl rfl rfl fun he => ((nowRunning_keeps (F := 0x1) _).frame .errors rfl).1.trans he) hd
  exact running.trans (Onward.carried (writeMem_onward ..)) hd

theorem beginStep_cores (ctx : Nat) (o : OpenStep) (s : State) :
    stepCores (beginStep ctx o s) = stepCores (stepBegun ctx (o.started s.mod.devTime) s) := completeWith_cores ..

theorem beginStep_opened (ctx : Nat) (o : OpenStep) (s : State) :
    ∃ p, (stepCtx (beginStep ctx o s) ctx).opened = some p ∧ p.core = (o.started s.mod.devTime).core :=
  opened_of_cores (beginStep_cores ctx o s) (congrArg StepCtx.opened (stepBegun_stepCtx ctx (o.started s.mod.devTime) s))

/-- A step begins: its context's numbering is at it, the module leaves Ready for Running, and its STEP_BEGIN completes. -/
theorem beginStep_begins (k : Carried o.ref s x) (hm : x.mod = s.mod) (hd : (findDesc s o.ref).isSome = true) (ctx : Nat) :
    (∃ p, (stepCtx (beginStep ctx o x) ctx).opened = some p ∧ p.core = (o.started s.mod.devTime).core)
      ∧ (stepCtx (beginStep ctx o x) ctx).last = some o.num ∧ (stepCtx (beginStep ctx o x) ctx).lastGate = false
      ∧ (beginStep ctx o x).mod = { s.mod with st := if s.mod.st = .ready then .running else s.mod.st }
      ∧ ∃ tail, Ended s (beginStep ctx o x) o.ref 0 (leBytes 8 o.num ++ tail) := by
  have begun := stepBegun_stepCtx ctx (o.started x.mod.devTime) x
  rw [← hm]
  refine ⟨beginStep_opened ctx o x, (last_of_cores (beginStep_cores ctx o x) ctx).trans (congrArg StepCtx.last begun),
    (lastGate_of_cores (beginStep_cores ctx o x) ctx).trans (congrArg StepCtx.lastGate begun), ?_, startedTail (o.started x.mod.devTime), ?_⟩
  · exact ((completeWith_keeps (F := 0x1000010048040) ..).frame .module rfl).trans (stepBegun_mod ..)
  · rw [show leBytes 8 o.num ++ startedTail (o.started x.mod.devTime) = _ from (beginTail_append (o.started x.mod.devTime)).symm, beginStep_eq]
    exact (k.trans (stepBegun_carried (k.found hd) ..) hd).ended hd _ _ _ _
      (List.append_ne_nil_of_right_ne_nil _ (List.cons_ne_nil _ _))

/-! ## The step stalls -/

/-- The first stall of a step is flagged and logged (log entry 90). -/
def stallNoted (o : OpenStep) (lag : Nat × Nat) (s : State) : State :=
  let e : LogEntry := { code := stPlaneLag, source := 1, engine := lag.2, detail := lag.2 + min 255 lag.1 * 2 ^ 16 }
  if o.stalledAt.isSome then s else logEntry (e.naming o.ref) (setFlag .pln 1 s)

/-- What the check comes to with this lag, where the limit is or is not exceeded. -/
def lagOutcome (ctx : Nat) (o : OpenStep) (lag : Nat × Nat) (stall : Bool) (s : State) : State :=
  if !stall then beginStep ctx (o.lagged lag) (lagShown ctx lag stall s)
  else stallNoted o lag (lagWaits ctx (o.lagged lag) (lagShown ctx lag stall s))

theorem lagCheck_eq (ctx : Nat) (o : OpenStep) (s : State) :
    lagCheck ctx o s = lagOutcome ctx o (worstLag s ctx o.num) (stalls s ctx o.num) s := rfl

theorem lagCheck_passes (h : stalls s ctx o.num = false) :
    lagCheck ctx o s = beginStep ctx (o.lagged (worstLag s ctx o.num)) (lagShown ctx (worstLag s ctx o.num) false s) := by
  rw [lagCheck_eq, h]
  rfl

theorem lagCheck_stalls (h : stalls s ctx o.num = true) : lagCheck ctx o s =
    stallNoted o (worstLag s ctx o.num) (lagWaits ctx (o.lagged (worstLag s ctx o.num)) (lagShown ctx (worstLag s ctx o.num) true s)) := by
  rw [lagCheck_eq, h]
  rfl

theorem stallNoted_keeps (o : OpenStep) (lag : Nat × Nat) (s : State) : Keeps 0x400000002 s (stallNoted o lag s) :=
  .ite (.refl _) ((setFlag_keeps ..).trans (logEntry_keeps ..))

theorem lagWaits_opened (ctx : Nat) (o : OpenStep) (s : State) : (stepCtx (lagWaits ctx o s) ctx).opened =
    some { o with wait := .lag, stalledAt := some (o.stalledAt.getD s.mod.devTime) } := by
  unfold lagWaits
  rw [stepCtx_modStepCtx, if_pos rfl]

/-- A register reads the 64 bits written. -/
theorem reg_setReg_wide {off : Nat} (h : regReset off < 2 ^ 64) (v : Nat) (s : State) : reg (setReg off v s) off = v % 2 ^ 64 := by
  unfold reg setReg
  dsimp only
  rw [tabGet_tabSet_same]
  by_cases hv : v = regReset off
  · rw [if_pos hv, hv, Nat.mod_eq_of_lt h]
  · rw [if_neg hv]
    exact BitVec.toNat_ofNat ..

theorem lagStatus_reset (ctx : Fin 16) : regReset (rPlnLagStatus ctx) = 0 := by
  revert ctx
  decide

/-- A step stalls: it waits for the lag to fall, which STATUS shows, and nothing leaves the module. -/
theorem stalls_shown (ctx : Fin 16) (p q : OpenStep) (lag : Nat × Nat) (s : State) :
    let t := stallNoted p lag (lagWaits ctx q (lagShown ctx lag true s))
    (stepCtx t ctx).opened = some { q with wait := .lag, stalledAt := some (q.stalledAt.getD s.mod.devTime) } ∧ t.mod = s.mod
      ∧ t.out = s.out ∧ reg t (rPlnLagStatus ctx) = (min 255 lag.1 + lag.2 * 256 + 2 ^ 22) % 2 ^ 64 := by
  have noted := stallNoted_keeps p lag (lagWaits ctx q (lagShown ctx lag true s))
  refine ⟨?_, noted.frame .module rfl, (noted.frame .output rfl).1, ?_⟩
  · rw [stepCtx_of_keeps noted rfl]
    exact lagWaits_opened ..
  · rw [reg_of_regs (noted.frame .registers rfl)]
    exact reg_setReg_wide (by rw [lagStatus_reset]; decide) _ s

/-! ## The check -/

theorem largestLag_of_drawers {s t : State} (h : t.drawers = s.drawers) (ctx n : Nat) : largestLag t ctx n = largestLag s ctx n := by
  unfold largestLag
  rw [h]

theorem stalls_iff (s : State) (ctx n : Nat) : stalls s ctx n = true ↔
    reg s (rPlnLagLimit ctx) % 256 ≠ 0 ∧ reg s (rPlnLagLimit ctx) % 256 < (worstLag s ctx n).1 := by
  unfold stalls
  rw [Bool.and_eq_true, decide_eq_true_iff, decide_eq_true_iff]

/-- An attempt has been made; where it stalls, headers that were good are good. -/
structure MadeAttempt (s t : State) (ctx n : Nat) (r : DRef) (flips : Nat → Bool) : Prop where
  attempted : Attempted s t ctx n r flips
  quiet : stepOpen t ctx = false → GoodHeaders s r.ctx r.ring → GoodHeaders t r.ctx r.ring

theorem stepOpen_of_opened {s : State} {ctx : Nat} {o : OpenStep} (h : (stepCtx s ctx).opened = some o) : stepOpen s ctx = o.begun := by
  unfold stepOpen
  rw [h]

/-- A commit that comes to its lag check leaves headers good, unless its step begins. -/
theorem lagCheck_quiet {c q : Nat} (ctx : Nat) (h : stepOpen (lagCheck ctx o s) ctx = false) (g : GoodHeaders s c q) :
    GoodHeaders (lagCheck ctx o s) c q := by
  cases hs : stalls s ctx o.num with
  | false =>
    obtain ⟨p, hp, core⟩ := beginStep_opened ctx (o.lagged (worstLag s ctx o.num)) (lagShown ctx (worstLag s ctx o.num) false s)
    have begun : p.begun = true := (congrArg OpenStep.begun core :)
    rw [lagCheck_passes hs, stepOpen_of_opened hp, begun] at h
    exact absurd h (by decide)
  | true =>
    rw [lagCheck_stalls hs]
    exact goodHeaders_of_doors g ((stallNoted_keeps ..).frame .doors rfl)

/-- A commit that comes to its lag check with the planes named flipped has made its attempt. -/
theorem lagCheck_attempted {ctx : Fin 16} {flips : Nat → Bool} (p : Proceeds o.ref s y) (hd : (findDesc s o.ref).isSome = true)
    (hb : o.begun = false) (hf : ∀ d, (drawer y d).sides = (if flips d then (drawer s d).flip else drawer s d).sides) :
    MadeAttempt s (lagCheck ctx o y) ctx o.num o.ref flips := by
  refine ⟨?_, fun h g => lagCheck_quiet ctx h (p.good _ _ g)⟩
  have kept := lagCheck_keeps (F := 0x81008410048647) ctx o y
  have lag : (largestLag (lagCheck ctx o y) ctx o.num).getD (0, 0) = worstLag y ctx o.num :=
    congrArg (·.getD (0, 0)) (largestLag_of_drawers (kept.frame .drawers rfl) ..)
  have limit : reg s (rPlnLagLimit ctx) = reg y (rPlnLagLimit ctx) := (reg_of_regs p.regs ..).symm
  unfold Attempted
  dsimp only
  rw [lag, limit]
  refine ⟨fun d => ?_, fun h => ?_, fun h => ?_⟩
  · have sides := hf d
    rw [← drawer_of_keeps kept rfl] at sides
    obtain ⟨a, b⟩ := Prod.mk.inj sides
    obtain ⟨b, active⟩ := Prod.mk.inj b
    exact ⟨a, b, active⟩
  · have no : stalls y ctx o.num = false := by
      rw [← Bool.not_eq_true, stalls_iff]
      rintro ⟨h0, hl⟩
      exact h.elim h0 (Nat.not_le.2 hl)
    rw [lagCheck_passes no]
    have shown : Carried o.ref y (lagShown ctx (worstLag y ctx o.num) false y) := .of_keeps (setReg_keeps (F := 0x4) ..) rfl rfl rfl id
    obtain ⟨⟨q, hq, core⟩, last, gate, mod, tail, ended⟩ :=
      beginStep_begins (o := o.lagged (worstLag y ctx o.num)) (p.carried.trans shown hd) p.mod hd ctx
    exact ⟨⟨q, hq, (congrArg OpenStep.num core :), (congrArg OpenStep.begun core :), (congrArg OpenStep.tBegin core :)⟩, last, gate, mod, tail, ended⟩
  · rw [lagCheck_stalls ((stalls_iff ..).2 h)]
    obtain ⟨opened, mod, out, shown⟩ := stalls_shown ctx o (o.lagged (worstLag y ctx o.num)) (worstLag y ctx o.num) y
    exact ⟨⟨_, opened, rfl, hb, rfl, rfl⟩, mod.trans p.mod, fun _ => out.trans p.out, shown⟩

/-- A commit leaves the step's choices as it has them at its lag check. -/
theorem lagCheck_choices (ctx : Nat) (o : OpenStep) (s : State) :
    ∃ p, (stepCtx (lagCheck ctx o s) ctx).opened = some p ∧ p.choices = o.choices := by
  cases h : stalls s ctx o.num with
  | false =>
    rw [lagCheck_passes h]
    obtain ⟨p, hp, core⟩ := beginStep_opened ctx (o.lagged (worstLag s ctx o.num)) (lagShown ctx (worstLag s ctx o.num) false s)
    exact ⟨p, hp, (congrArg OpenStep.choices core :)⟩
  | true =>
    rw [lagCheck_stalls h, stepCtx_of_keeps (stallNoted_keeps ..) rfl]
    exact ⟨_, lagWaits_opened .., rfl⟩

/-- The check leaves the step ring. -/
theorem lagCheck_ring (ctx : Nat) (o : OpenStep) (s : State) : (stepCtx (lagCheck ctx o s) ctx).ring = (stepCtx s ctx).ring := by
  cases h : stalls s ctx o.num with
  | false =>
    rw [lagCheck_passes h, ring_of_cores (beginStep_cores ..), stepBegun_stepCtx]
    rfl
  | true =>
    rw [lagCheck_stalls h, stepCtx_of_keeps (stallNoted_keeps ..) rfl]
    unfold lagWaits
    rw [stepCtx_modStepCtx, if_pos rfl]
    rfl

end

end Sys2Proof.Machine

/-!
SUPPORT. An attempt at a commit as a whole (R107, R110, R221, R222): it flips the planes it names that are Ready, and begins the step or stalls.
-/
namespace Sys2Proof.Machine
set_option Elab.async false
open Sys2Proof.Safety

/-! ## The attempt in parts -/

/-- The planes an attempt flips: those named that are Ready, none where the step is repeated. -/
def readyNow (ctx : Nat) (o : OpenStep) (flips : List Nat) (s : State) : List Nat :=
  if o.repeated then [] else flips.filter fun d => readyFor ctx (drawer s d)

/-- The trim sets an attempt takes: those named that are still staged. -/
def trimsNow (trims : List Nat) (s : State) : List Nat := trims.filter fun d => (drawer s d).staged.isSome

/-- The step with the flips and trims of an attempt counted. -/
def OpenStep.taking (o : OpenStep) (flips trims : List Nat) : OpenStep :=
  { o with flips := o.flips + flips.length, trimsTaken := o.trimsTaken || !trims.isEmpty }

/-- Steps 2 to 4. -/
def rulesApplied (ctx : Nat) (o : OpenStep) (flips trims : List Nat) (maps : Tab (Option Byte)) (input : Option (List Byte))
    (s : State) : OpenStep × State :=
  applyRules (o.taking flips trims) input (takeStaged ctx flips trims maps s)

/-- Steps 5 and 6, after the rules. -/
def genvecWritten (ctx : Nat) (o : OpenStep) (q : OpenStep × State) : OpenStep × State :=
  captureAtCommit (q.1.committed (genVector q.2 ctx))
    (writeMem (hutchAccess o.ref) (ctrlGenvecBase o.ctrl + o.num % 4 * 65536) (genVector q.2 ctx) q.2)

/-- Step 7. -/
def recordOpened (ctx : Nat) (opens : Bool) (q : OpenStep × State) : OpenStep × State := (q.1, writeRecord ctx q.1 opens q.2)

/-- Steps 2 to 7: the step and the module as they come to the lag check. -/
def attemptMade (ctx : Nat) (o : OpenStep) (flips trims : List Nat) (maps : Tab (Option Byte)) (input : Option (List Byte))
    (opens : Bool) (s : State) : OpenStep × State :=
  recordOpened ctx opens (genvecWritten ctx o (rulesApplied ctx o (readyNow ctx o flips s) (trimsNow trims s) maps input s))

section
variable {ctx : Nat} {s x : State} {o : OpenStep} {flips trims : List Nat} {maps : Tab (Option Byte)} {input : Option (List Byte)} {opens : Bool}

theorem runAttempt_eq (ctx : Nat) (o : OpenStep) (flips trims : List Nat) (maps : Tab (Option Byte)) (input : Option (List Byte))
    (opens : Bool) (s : State) : runAttempt ctx o flips trims maps input opens s =
      lagCheck ctx (attemptMade ctx o flips trims maps input opens s).1 (attemptMade ctx o flips trims maps input opens s).2 := by
  unfold runAttempt attemptMade recordOpened genvecWritten rulesApplied readyNow trimsNow OpenStep.taking
  rfl

theorem rulesApplied_proceeds (hd : (findDesc s o.ref).isSome = true) : Proceeds o.ref s (rulesApplied ctx o flips trims maps input s).2 :=
  (takeStaged_proceeds ..).trans (applyRules_proceeds _ _ ((takeStaged_proceeds ..).found hd)) hd

theorem genvecWritten_proceeds (q : OpenStep × State) (hd : (findDesc q.2 o.ref).isSome = true) :
    Proceeds o.ref q.2 (genvecWritten ctx o q).2 :=
  (writeMem_proceeds ..).trans (captureAtCommit_proceeds _ ((writeMem_proceeds ..).found hd)) hd

theorem genvecWritten_same (ctx : Nat) (o : OpenStep) (q : OpenStep × State) : SameStep q.1 (genvecWritten ctx o q).1 := by
  have same := captureAtCommit_same (q.1.committed (genVector q.2 ctx))
    (writeMem (hutchAccess o.ref) (ctrlGenvecBase o.ctrl + o.num % 4 * 65536) (genVector q.2 ctx) q.2)
  exact ⟨same.num, same.ref, same.begun, same.choices⟩

theorem attemptMade_proceeds (hd : (findDesc s o.ref).isSome = true) :
    Proceeds o.ref s (attemptMade ctx o flips trims maps input opens s).2 := by
  have rules := rulesApplied_proceeds (ctx := ctx) (flips := readyNow ctx o flips s) (trims := trimsNow trims s) (maps := maps) (input := input) hd
  have vector := rules.trans (genvecWritten_proceeds (ctx := ctx) _ (rules.found hd)) hd
  exact vector.trans (writeRecord_proceeds ..) hd

theorem attemptMade_step : (attemptMade ctx o flips trims maps input opens s).1 =
    (genvecWritten ctx o (rulesApplied ctx o (readyNow ctx o flips s) (trimsNow trims s) maps input s)).1 := rfl

theorem attemptMade_same : (attemptMade ctx o flips trims maps input opens s).1.num = o.num
    ∧ (attemptMade ctx o flips trims maps input opens s).1.ref = o.ref
    ∧ (attemptMade ctx o flips trims maps input opens s).1.begun = o.begun := by
  obtain ⟨num, ref, begun⟩ := applyRules_same (o.taking (readyNow ctx o flips s) (trimsNow trims s)) input
    (takeStaged ctx (readyNow ctx o flips s) (trimsNow trims s) maps s)
  have same := genvecWritten_same ctx o (rulesApplied ctx o (readyNow ctx o flips s) (trimsNow trims s) maps input s)
  rw [attemptMade_step]
  exact ⟨same.num.trans num, same.ref.trans ref, same.begun.trans begun⟩

theorem attemptMade_choices : (attemptMade ctx o flips trims maps input opens s).1.choices =
    (rulesApplied ctx o (readyNow ctx o flips s) (trimsNow trims s) maps input s).1.choices := by
  rw [attemptMade_step]
  exact (genvecWritten_same ctx o (rulesApplied ctx o (readyNow ctx o flips s) (trimsNow trims s) maps input s)).choices

theorem attemptMade_keeps (ctx : Nat) (o : OpenStep) (flips trims : List Nat) (maps : Tab (Option Byte)) (input : Option (List Byte))
    (opens : Bool) (s : State) : Keeps 0x80008000050642 s (attemptMade ctx o flips trims maps input opens s).2 := by
  have rules : Keeps 0x80008000050642 s (rulesApplied ctx o (readyNow ctx o flips s) (trimsNow trims s) maps input s).2 :=
    (takeStaged_keeps ..).trans (applyRules_keeps ..)
  exact ((rules.trans (writeMem_keeps ..)).trans (captureAtCommit_keeps ..)).trans (writeRecord_keeps ..)

/-- After the flips no Drawer changes. -/
theorem attemptMade_drawer : drawer (attemptMade ctx o flips trims maps input opens s).2 =
    drawer (takeStaged ctx (readyNow ctx o flips s) (trimsNow trims s) maps s) := by
  have rules : drawer (rulesApplied ctx o (readyNow ctx o flips s) (trimsNow trims s) maps input s).2 = _ :=
    drawer_of_keeps (applyRules_keeps (F := 0x80008000000642) ..) rfl
  refine Eq.trans ?_ rules
  refine (drawer_of_keeps (writeRecord_keeps (F := 0x80008000000602) ..) rfl).trans ?_
  exact (drawer_of_keeps (captureAtCommit_keeps (F := 0x80008000000642) ..) rfl).trans
    (drawer_of_keeps (writeMem_keeps (F := 0x80008000000602) ..) rfl)

theorem readyNow_nodup (hn : flips.Nodup) : (readyNow ctx o flips s).Nodup := by
  unfold readyNow
  split
  · exact List.nodup_nil
  · exact hn.filter _

theorem mem_readyNow (d : Nat) : d ∈ readyNow ctx o flips s ↔ (!o.repeated && flips.contains d && readyFor ctx (drawer s d)) = true := by
  unfold readyNow
  cases o.repeated with
  | true => exact iff_of_false List.not_mem_nil Bool.false_ne_true
  | false =>
    rw [if_neg Bool.false_ne_true, List.mem_filter, ← List.contains_iff_mem, Bool.not_false, Bool.true_and, Bool.and_eq_true]

/-- An attempt is made over the planes it names. -/
theorem runAttempt_attempted {ctx : Fin 16} (p : Proceeds o.ref s x) (hx : x.drawers = s.drawers) (hn : flips.Nodup)
    (hd : (findDesc s o.ref).isSome = true) (hb : o.begun = false) : MadeAttempt s (runAttempt ctx o flips trims maps input opens x) ctx o.num
      o.ref fun d => !o.repeated && flips.contains d && readyFor ctx (drawer s d) := by
  have made := p.trans (attemptMade_proceeds (ctx := ctx) (flips := flips) (trims := trims) (maps := maps) (input := input) (opens := opens)
    (p.found hd)) hd
  obtain ⟨num, ref, begun⟩ := attemptMade_same (ctx := ctx) (o := o) (flips := flips) (trims := trims) (maps := maps) (input := input)
    (opens := opens) (s := x)
  have drawers : drawer x = drawer s := by
    funext d
    unfold drawer
    rw [hx]
  rw [runAttempt_eq]
  rw [← ref] at made hd
  have done := lagCheck_attempted (ctx := ctx) (flips := fun d => !o.repeated && flips.contains d && readyFor ctx (drawer s d)) made hd
    (begun.trans hb) fun d => by
      rw [attemptMade_drawer, takeStaged_sides (readyNow_nodup hn)]
      refine congrArg Drawer.sides ?_
      rw [drawers]
      refine if_congr ?_ rfl rfl
      rw [mem_readyNow, drawers]
  rw [num, ref] at done
  exact done

theorem runAttempt_choices (ctx : Nat) (o : OpenStep) (flips trims : List Nat) (maps : Tab (Option Byte)) (input : Option (List Byte))
    (opens : Bool) (s : State) : ∃ p, (stepCtx (runAttempt ctx o flips trims maps input opens s) ctx).opened = some p
      ∧ p.choices = (rulesApplied ctx o (readyNow ctx o flips s) (trimsNow trims s) maps input s).1.choices := by
  rw [runAttempt_eq]
  obtain ⟨p, hp, hc⟩ := lagCheck_choices ctx (attemptMade ctx o flips trims maps input opens s).1 (attemptMade ctx o flips trims maps input opens s).2
  exact ⟨p, hp, hc.trans attemptMade_choices⟩

theorem runAttempt_ring (ctx : Nat) (o : OpenStep) (flips trims : List Nat) (maps : Tab (Option Byte)) (input : Option (List Byte))
    (opens : Bool) (s : State) : (stepCtx (runAttempt ctx o flips trims maps input opens s) ctx).ring = (stepCtx s ctx).ring := by
  rw [runAttempt_eq, lagCheck_ring, stepCtx_of_keeps (attemptMade_keeps ..) rfl]

/-! ## The first attempt -/

theorem firstAttempt_eq (ctx : Nat) (o : OpenStep) (input : Option (List Byte)) (s : State) : firstAttempt ctx o input s =
    runAttempt ctx { o with slots := readSlots s o.ctrl } o.readyAt o.trimsAt o.mapsAt input true
      (noteRead (hutchAccess o.ref) (ctrlSlotAddr o.ctrl) (16 * ctrlSlotCount o.ctrl) s) := rfl

theorem firstAttempt_attempted {ctx : Fin 16} (p : Proceeds o.ref s x) (hx : x.drawers = s.drawers) (hn : o.readyAt.Nodup)
    (hd : (findDesc s o.ref).isSome = true) (hb : o.begun = false) : MadeAttempt s (firstAttempt ctx o input x) ctx o.num o.ref
      fun d => !o.repeated && o.readyAt.contains d && readyFor ctx (drawer s d) := by
  rw [firstAttempt_eq]
  exact runAttempt_attempted (o := { o with slots := readSlots x o.ctrl }) (p.trans (noteRead_proceeds _ _ _ (p.found hd)) hd)
    (((noteRead_keeps (F := 0x80008000000442) ..).frame .drawers rfl).trans hx) hn hd hb

theorem firstAttempt_ring (ctx : Nat) (o : OpenStep) (input : Option (List Byte)) (s : State) :
    (stepCtx (firstAttempt ctx o input s) ctx).ring = (stepCtx s ctx).ring := by
  rw [firstAttempt_eq, runAttempt_ring, stepCtx_of_keeps (noteRead_keeps (F := 0x80008000000442) ..) rfl]

/-- Where no trim is staged, nothing but the flips stands between the commit and its rules. -/
theorem takeStaged_untrimmed (ctx : Nat) (flips : List Nat) (maps : Tab (Option Byte)) (s : State) :
    (takeStaged ctx flips [] maps s).mem = s.mem :=
  foldl_same State.mem (fun s d => modDrawer d Drawer.flip s) (fun _ _ => rfl) flips s

theorem rulesApplied_choices (ctx : Nat) (o : OpenStep) (flips : List Nat) (maps : Tab (Option Byte)) (body : List Byte) (s : State) :
    (rulesApplied ctx o flips [] maps (some body) s).1.choices = (List.range (ctrlRuleCount o.ctrl)).map fun i =>
      evaluateRule (readMem s (ctrlRuleAddr o.ctrl + 32 * i) 32) ((body.drop (320 * i)).take 292) := by
  have made : (rulesApplied ctx o flips [] maps (some body) s).1.choices = (List.range (ctrlRuleCount o.ctrl)).map fun i => evaluateRule
      (readMem (takeStaged ctx flips [] maps s) (ctrlRuleAddr o.ctrl + 32 * i) 32) ((body.drop (320 * i)).take 292) :=
    evaluateRules_choices (o.taking flips []) body _
  rw [made]
  unfold readMem
  rw [takeStaged_untrimmed]

/-- A commit whose rule input is there makes its choices from it. -/
theorem firstAttempt_choices (ctx : Nat) (ht : o.trimsAt = []) (body : List Byte) (s : State) :
    ∃ p, (stepCtx (firstAttempt ctx o (some body) s) ctx).opened = some p ∧ p.choices = (List.range (ctrlRuleCount o.ctrl)).map fun i =>
      evaluateRule (readMem s (ctrlRuleAddr o.ctrl + 32 * i) 32) ((body.drop (320 * i)).take 292) := by
  rw [firstAttempt_eq, ht]
  obtain ⟨p, hp, hc⟩ := runAttempt_choices ctx { o with slots := readSlots s o.ctrl } o.readyAt [] o.mapsAt (some body) true
    (noteRead (hutchAccess o.ref) (ctrlSlotAddr o.ctrl) (16 * ctrlSlotCount o.ctrl) s)
  refine ⟨p, hp, hc.trans ((rulesApplied_choices ..).trans ?_)⟩
  unfold readMem
  rw [memByte_noteRead]

end

end Sys2Proof.Machine

/-!
The statement on STEP_BEGIN and its rule input (R217, R220, R221, R237, R238; O43), and what it needs beside the attempt: the validation reads the
same of the module in which the descriptor is dispatched, and what is staged is what the commit then takes.
-/
namespace Sys2Proof.Machine
set_option Elab.async false
open Sys2Proof.Safety

/-! ## Planes that are Ready -/

theorem nodup_of_tabWf {α : Type} [DecidableEq α] (d : α) {t : Tab α} (h : tabWf d t = true) : (t.map Prod.fst).Nodup := by
  induction t with
  | nil => exact List.nodup_nil
  | cons e t ih =>
    obtain ⟨i, v⟩ := e
    obtain ⟨-, above, wf⟩ := (tabWf_cons d i v t).1 h
    refine List.nodup_cons.2 ⟨fun m => ?_, ih wf⟩
    obtain ⟨e, he, hi⟩ := List.mem_map.1 m
    exact Nat.ne_of_gt (above e he) hi

theorem drawers_wf {s : State} (h : canonical s = true) : tabWf {} s.drawers = true := by
  obtain ⟨-, -, -, -, -, -, -, -, wf, -⟩ := (canonical_iff s).1 h
  exact wf

theorem readyDrawers_sublist (s : State) (ctx : Nat) : (readyDrawers s ctx).Sublist (s.drawers.map Prod.fst) := by
  unfold readyDrawers
  generalize s.drawers = t
  induction t with
  | nil => exact List.Sublist.refl _
  | cons e t ih =>
    rw [List.filterMap_cons, List.map_cons]
    split
    · exact ih.cons _
    · rename_i b hb
      split at hb
      · cases hb
        exact ih.cons_cons _
      · cases hb

theorem mem_readyDrawers {s : State} (h : tabWf {} s.drawers = true) (ctx d : Nat) :
    d ∈ readyDrawers s ctx ↔ readyFor ctx (drawer s d) = true := by
  unfold readyDrawers
  rw [List.mem_filterMap]
  constructor
  · rintro ⟨e, he, hd⟩
    split at hd
    · rename_i ready
      cases hd
      unfold drawer
      rw [tabGet_of_mem {} s.drawers h he]
      exact ready
    · cases hd
  · intro ready
    have listed : tabGet ({} : Drawer) s.drawers d ≠ {} := by
      intro empty
      unfold drawer at ready
      rw [empty] at ready
      cases ready
    have entry : (d, drawer s d) ∈ s.drawers := mem_of_tabGet_ne ({} : Drawer) s.drawers d listed
    exact ⟨(d, drawer s d), entry, if_pos ready⟩

/-! ## Validation -/

theorem filterMap_tabSet {α β : Type} [DecidableEq α] (d : α) (g : Nat × α → Option β) (t : Tab α) (k : Nat) (v : α)
    (hg : ∀ v, g (k, v) = none) : (tabSet d t k v).filterMap g = t.filterMap g := by
  induction t with
  | nil =>
    unfold tabSet
    split
    · rfl
    · exact List.filterMap_cons_none (hg v)
  | cons e t ih =>
    obtain ⟨i, w⟩ := e
    unfold tabSet
    split
    · rw [List.filterMap_cons, List.filterMap_cons, ih]
    · split
      · rw [List.filterMap_filter]
        refine List.filterMap_congr fun e _ => ?_
        split
        · rfl
        · rename_i hk
          obtain ⟨j, x⟩ := e
          rw [show j = k from by simpa using hk, hg]
      · split
        · rename_i hi
          rw [List.filterMap_cons_none (hg v), hi, List.filterMap_cons_none (hg w)]
        · exact List.filterMap_cons_none (hg v)

/-- The steps of the other contexts that are open (R234). -/
def otherSteps (s : State) (ctx : Nat) : List OpenStep :=
  s.steps.filterMap fun e => if e.1 = ctx then none else e.2.opened.filter (·.begun)

theorem otherSteps_modStepCtx (ctx : Nat) (f : StepCtx → StepCtx) (s : State) : otherSteps (modStepCtx ctx f s) ctx = otherSteps s ctx :=
  filterMap_tabSet _ _ _ _ _ fun _ => if_pos rfl

/-- Two modules of which the validation of a context's STEP_BEGIN reads the same. -/
structure SameChecks (ctx : Nat) (s t : State) : Prop where
  numbering : stepCtx t ctx = { stepCtx s ctx with ringPost := (stepCtx t ctx).ringPost }
  others : otherSteps t ctx = otherSteps s ctx
  reads : readMem t = readMem s
  st : t.mod.st = s.mod.st
  windows : permitted t = permitted s
  maps : mapped t = mapped s
  self : selfAddr t = selfAddr s

theorem sequenceOk_of_checks {ctx : Nat} {s t : State} (h : SameChecks ctx s t) : sequenceOk (stepCtx t ctx) = sequenceOk (stepCtx s ctx) := by
  rw [h.numbering]
  rfl

theorem badTie_of_checks {ctx : Nat} {s t : State} (h : SameChecks ctx s t) (c : List Byte) : badTie t ctx c = badTie s ctx c := by
  have others := h.others
  unfold otherSteps at others
  unfold badTie tieEntry
  rw [others, h.reads, h.self]

theorem beginStatus_of_checks {ctx : Nat} {s t : State} (h : SameChecks ctx s t) (ring : Nat) (b : List Byte) :
    beginStatus t ctx ring b = beginStatus s ctx ring b := by
  have rules (c : List Byte) : badRule t c = badRule s c := by unfold badRule readNat; rw [h.reads]
  have subs (c : List Byte) : badSub t c = badSub s c := by unfold badSub readNat; rw [h.reads]
  have ties (c : List Byte) : unmappedTie t ctx c = unmappedTie s ctx c := by unfold unmappedTie tieEntry; rw [h.reads, h.maps]
  have ringOf : (stepCtx t ctx).ring = (stepCtx s ctx).ring := by rw [h.numbering]
  unfold beginStatus
  dsimp only
  rw [sequenceOk_of_checks h, ringOf, h.reads, h.windows, h.st]
  simp only [rules, subs, ties, badTie_of_checks h]

/-! ## A STEP_BEGIN before its commit -/

/-- The step ring is fixed by the first STEP_BEGIN after a context reset (R217). -/
def ringFixed (ctx ring : Nat) (s : State) : State :=
  modStepCtx ctx (fun x => { x with ring := some (x.ring.getD ring), ringPost := none }) s

/-- What the validation reads is noted. -/
def beginNoted (r : DRef) (reads : List (Nat × Nat)) (s : State) : State :=
  reads.foldl (fun s e => noteRead (hutchAccess r) e.1 e.2 s) s

/-- The step of a validated STEP_BEGIN, whose commit begins. -/
def stepStaged (ctx : Nat) (r : DRef) (b : List Byte) (s : State) : OpenStep := {
  num := stepNumber b, mode := stepMode b, ref := r, beginIdx := r.idx, ctrl := readMem s (stepCtrlAddr b) 128
  repeated := stepRepeat b, restarted := stepRestart b
  readyAt := readyDrawers s ctx, trimsAt := stagedDrawers s ctx, mapsAt := tabGet [] s.stagedMaps ctx
  ties := (List.range (ctrlTieCount (readMem s (stepCtrlAddr b) 128))).map fun i =>
    (tieFirst (tieEntry s (readMem s (stepCtrlAddr b) 128) i), tieDrawers (tieEntry s (readMem s (stepCtrlAddr b) 128) i))
  tCommit := s.mod.devTime, epochAt := (group s ctx).epoch
  epochBefore := if stepRepeat b then some (stepCtx s ctx).lastEpoch else none }

/-- The module with the commit begun. -/
def commitBegun (ctx : Nat) (o : OpenStep) (s : State) : State :=
  modStepCtx ctx (fun x => { x with opened := some o })
    (dropOldMessages ctx o.num o.repeated { s with stagedMaps := tabSet [] s.stagedMaps ctx [] })

theorem startCommit_eq (ctx : Nat) (r : DRef) (b : List Byte) (s : State) :
    startCommit ctx r b s = tryCommit ctx (commitBegun ctx (stepStaged ctx r b s) s) := rfl

section
variable {ctx : Nat} {r : DRef} {s x : State} {o : OpenStep}

theorem beginNoted_keeps (r : DRef) (reads : List (Nat × Nat)) (s : State) : Keeps 0x80008000000442 s (beginNoted r reads s) :=
  foldl_keeps (Keeps 0x80008000000442 s) _ (fun x e k => k.trans (noteRead_keeps ..)) reads s (.refl s)

theorem beginNoted_reads (r : DRef) (reads : List (Nat × Nat)) (s : State) : readMem (beginNoted r reads s) = readMem s :=
  foldl_same readMem _ (fun x e => by funext a n; unfold readMem; rw [memByte_noteRead]) reads s

theorem beginNoted_proceeds (hd : (findDesc s r).isSome = true) (q : DRef) (reads : List (Nat × Nat)) :
    Proceeds r s (beginNoted q reads s) :=
  foldl_keeps (Proceeds r s) _ (fun x e p => p.trans (noteRead_proceeds _ _ _ (p.found hd)) hd) reads s
    (.of_keeps (.refl (F := 0) s) (by decide) id)

theorem ringFixed_proceeds (ctx ring : Nat) (s : State) : Proceeds r s (ringFixed ctx ring s) :=
  .of_keeps (modStepCtx_keeps (F := 0x8000) ..) (by decide) id

theorem dispatchNoted_proceeds (hd : (findDesc s r).isSome = true) (ctx ring : Nat) (d : Desc) : Proceeds r s (dispatchNoted ctx ring d s) := by
  have k := dispatchNoted_keeps ctx ring d s
  exact ⟨(dispatchNoted_onward ctx ring d hd).carried, k.frame .module rfl, k.frame .registers rfl, (k.frame .output rfl).1,
    fun c q g => dispatchNoted_good g ctx ring d⟩

theorem commitBegun_keeps (ctx : Nat) (o : OpenStep) (s : State) : Keeps 0x1048000 s (commitBegun ctx o s) :=
  ((Keeps.lit (.refl s) rfl rfl rfl rfl).trans (dropOldMessages_keeps ..)).trans (modStepCtx_keeps ..)

theorem commitBegun_proceeds (ctx : Nat) (o : OpenStep) (s : State) : Proceeds r s (commitBegun ctx o s) :=
  .of_keeps (commitBegun_keeps ctx o s) (by decide) id

theorem commitBegun_opened (ctx : Nat) (o : OpenStep) (s : State) : (stepCtx (commitBegun ctx o s) ctx).opened = some o := by
  unfold commitBegun
  rw [stepCtx_modStepCtx, if_pos rfl]

theorem commitBegun_mem (ctx : Nat) (o : OpenStep) (s : State) : (commitBegun ctx o s).mem = s.mem := rfl

/-! ## The commit goes on or waits -/

/-- A commit that has made no attempt. -/
theorem OpenStep.untried (hb : o.begun = false) (hw : o.wait ≠ .lag) : ¬(o.begun || o.wait == .lag) = true := by
  rw [hb, beq_false_of_ne hw]
  exact Bool.false_ne_true

theorem tryCommit_ruleless (ho : (stepCtx s ctx).opened = some o) (hb : o.begun = false) (hw : o.wait ≠ .lag)
    (h0 : ctrlRuleCount o.ctrl = 0) : tryCommit ctx s = firstAttempt ctx o none s := by
  unfold tryCommit
  rw [ho]
  dsimp only
  rw [if_neg (o.untried hb hw), if_pos h0]

theorem tryCommit_present {body : List Byte} (ho : (stepCtx s ctx).opened = some o) (hb : o.begun = false) (hw : o.wait ≠ .lag)
    (h0 : ctrlRuleCount o.ctrl ≠ 0) (hi : ruleInput s o = some body) :
    tryCommit ctx s = firstAttempt ctx o (some body) (noteRuleInput o s) := by
  unfold tryCommit
  rw [ho]
  dsimp only
  rw [if_neg (o.untried hb hw), if_neg h0, hi]

/-- The module with the commit waiting for its rule input. -/
def inputAwaited (ctx : Nat) (o : OpenStep) (s : State) : State := modOpen ctx (fun o => { o with wait := .ruleInput }) (noteRuleInput o s)

theorem tryCommit_waits (ho : (stepCtx s ctx).opened = some o) (hb : o.begun = false) (hw : o.wait ≠ .lag)
    (h0 : ctrlRuleCount o.ctrl ≠ 0) (hi : ruleInput s o = none) : tryCommit ctx s = inputAwaited ctx o s := by
  unfold tryCommit
  rw [ho]
  dsimp only
  rw [if_neg (o.untried hb hw), if_neg h0, hi]
  rfl

/-- The rule input is present where its stamp is the step and its checksum holds (R237). -/
theorem ruleInput_present (hn : readNat s (ctrlRuleInputAddr o.ctrl) 8 = o.num)
    (hc : readNat s (ctrlRuleInputAddr o.ctrl + 8) 4 =
      crc32c (readMem s (ctrlRuleInputAddr o.ctrl + 64) (320 * ctrlRuleCount o.ctrl))) :
    ruleInput s o = some (readMem s (ctrlRuleInputAddr o.ctrl + 64) (320 * ctrlRuleCount o.ctrl)) := by
  unfold ruleInput
  dsimp only
  rw [if_pos ⟨hn, hc⟩]

theorem ruleInput_absent (h : readNat s (ctrlRuleInputAddr o.ctrl) 8 ≠ o.num ∨ readNat s (ctrlRuleInputAddr o.ctrl + 8) 4 ≠
      crc32c (readMem s (ctrlRuleInputAddr o.ctrl + 64) (320 * ctrlRuleCount o.ctrl))) : ruleInput s o = none := by
  unfold ruleInput
  dsimp only
  rw [if_neg fun ⟨hn, hc⟩ => h.elim (fun h => h hn) (fun h => h hc)]

/-! ## What the attempt leaves once bad headers have been settled -/

/-- A bad header that has come to the front and completes leaves an attempt what it is. -/
theorem settleBad_attempted {n c q : Nat} {flips : Nat → Bool} (h : MadeAttempt s x ctx n r flips) (hc : r.ctx = c) (hq : r.ring = q) :
    Attempted s (settleBad c q x) ctx n r flips := by
  obtain ⟨⟨planes, begins, stall⟩, quiet⟩ := h
  have kept := settleBad_keeps (F := 0x1000010048040) c q x
  have cores := settleBad_cores c q x
  have lag : largestLag (settleBad c q x) ctx n = largestLag x ctx n := largestLag_of_drawers (kept.frame .drawers rfl) ..
  unfold Attempted
  dsimp only
  rw [lag, drawer_of_keeps kept rfl]
  refine ⟨planes, fun hl => ?_, fun hl => ?_⟩
  · obtain ⟨⟨o, ho, num, begun, time⟩, last, gate, mod, tail, ended⟩ := begins hl
    obtain ⟨o', ho', core⟩ := opened_of_cores cores ho
    exact ⟨⟨o', ho', (congrArg OpenStep.num core).trans num, (congrArg OpenStep.begun core).trans begun,
      (congrArg OpenStep.tBegin core).trans time⟩, (last_of_cores cores ctx).trans last, (lastGate_of_cores cores ctx).trans gate,
      (kept.frame .module rfl).trans mod, tail, ended_of_suffix ended (settleBad_out c q x)⟩
  · obtain ⟨⟨o, ho, num, begun, wait, since⟩, mod, out, shown⟩ := stall hl
    obtain ⟨o', ho', core⟩ := opened_of_cores cores ho
    refine ⟨⟨o', ho', (congrArg OpenStep.num core).trans num, (congrArg OpenStep.begun core).trans begun,
      (congrArg OpenStep.wait core).trans wait, ?_⟩, (kept.frame .module rfl).trans mod, fun g => ?_,
      (reg_of_regs (kept.frame .registers rfl) _).trans shown⟩
    · rw [show o'.stalledAt = o.stalledAt from (congrArg OpenStep.stalledAt core :)]
      exact since
    · have headers := quiet ((stepOpen_of_opened ho).trans begun) g
      rw [hc, hq] at headers
      rw [settleBad_good headers]
      exact out g

end

/-! ## STEP_BEGIN -/

theorem beginStatus_ring {s : State} {ctx ring : Nat} {b : List Byte} (h : (beginStatus s ctx ring b).1 = 0) :
    (stepCtx s ctx).ring = some ring := by
  by_contra hr
  unfold beginStatus at h
  dsimp only at h
  rw [if_pos (Or.inl hr)] at h
  exact absurd h (by decide)

/-- What a validated STEP_BEGIN has made of the module as its commit begins. -/
structure Staged (ctx ring : Nat) (a : Accepted) (s y : State) (o : OpenStep) : Prop where
  proceeds : Proceeds a.ref s y
  drawers : y.drawers = s.drawers
  reads : readMem y = readMem s
  opened : (stepCtx y ctx).opened = some o
  ring : (stepCtx y ctx).ring = some ring
  num : o.num = stepNumber a.bytes
  ref : o.ref = a.ref
  begun : o.begun = false
  wait : o.wait = .none
  repeated : o.repeated = stepRepeat a.bytes
  ctrl : o.ctrl = readMem s (stepCtrlAddr a.bytes) 128
  readyAt : o.readyAt = readyDrawers s ctx
  trimsAt : o.trimsAt = stagedDrawers s ctx

section
variable {ctx : Fin 16} {ring : Fin 8} {a : Accepted} {s : State}

/-- The module in which the commit of a dispatched STEP_BEGIN begins, before the commit. -/
def beginChecked (ctx ring : Nat) (r : DRef) (reads : List (Nat × Nat)) (d : Desc) (s : State) : State :=
  beginNoted r reads (ringFixed ctx ring (dispatchNoted ctx ring d s))

theorem ringFixed_checks (ctx ring : Nat) (d : Desc) (s : State) :
    SameChecks ctx (modStepCtx ctx (fun x => { x with ring := some (x.ring.getD ring) }) s) (ringFixed ctx ring (dispatchNoted ctx ring d s)) := by
  have noted := dispatchNoted_keeps ctx ring d s
  have fixed : Keeps 0x8000 (dispatchNoted ctx ring d s) (ringFixed ctx ring (dispatchNoted ctx ring d s)) := modStepCtx_keeps ..
  have plain : Keeps 0x8000 s (modStepCtx ctx (fun x => { x with ring := some (x.ring.getD ring) }) s) := modStepCtx_keeps ..
  refine ⟨?_, ?_, ?_, ?_, ?_, ?_, ?_⟩
  · unfold ringFixed
    rw [stepCtx_modStepCtx, stepCtx_modStepCtx, if_pos rfl, if_pos rfl, stepCtx_of_keeps noted rfl]
  · unfold ringFixed
    rw [otherSteps_modStepCtx, otherSteps_modStepCtx]
    unfold otherSteps
    rw [noted.frame .steps rfl]
  · exact readMem_dispatchNoted ctx ring d s
  · exact congrArg Module.st ((fixed.frame .module rfl).trans (noted.frame .module rfl))
  · exact ((permitted_of_keeps fixed rfl).trans (permitted_of_keeps noted rfl)).trans (permitted_of_keeps plain rfl).symm
  · exact ((mapped_of_keeps fixed rfl).trans (mapped_of_keeps noted rfl)).trans (mapped_of_keeps plain rfl).symm
  · unfold selfAddr
    rw [reg_of_regs (fixed.frame .registers rfl), reg_of_regs (noted.frame .registers rfl), reg_of_regs (plain.frame .registers rfl)]

theorem beginChecked_staged (h : Dispatches s ctx ring 0x11 a)
    (hr : (stepCtx (modStepCtx ctx (fun x => { x with ring := some (x.ring.getD ring) }) s) ctx).ring = some ring.val)
    (reads : List (Nat × Nat)) (d : Desc) {z : State} (hz : z = beginChecked ctx ring a.ref reads d s) :
    Staged ctx ring a s (commitBegun ctx (stepStaged ctx a.ref a.bytes z) z) (stepStaged ctx a.ref a.bytes z) := by
  have hd := findDesc_of_dispatches h
  have noted := dispatchNoted_proceeds hd ctx ring d
  have fixed : Proceeds a.ref s (ringFixed ctx ring (dispatchNoted ctx ring d s)) := noted.trans (ringFixed_proceeds ..) hd
  have checked : Proceeds a.ref s z := hz ▸ fixed.trans (beginNoted_proceeds (fixed.found hd) ..) hd
  have kept : Keeps 0x80008000008442 s z := hz ▸
    ((dispatchNoted_keeps ctx ring d s).mono (by decide) |>.trans (modStepCtx_keeps ..)).trans ((beginNoted_keeps ..).mono (by decide))
  have read : readMem z = readMem s := hz ▸ (beginNoted_reads ..).trans (readMem_dispatchNoted ctx ring d s)
  have drawers : z.drawers = s.drawers := kept.frame .drawers rfl
  have begun := commitBegun_keeps ctx (stepStaged ctx a.ref a.bytes z) z
  refine ⟨checked.trans (commitBegun_proceeds ..) hd, (begun.frame .drawers rfl).trans drawers, read, commitBegun_opened .., ?_, rfl, rfl,
    rfl, rfl, rfl, ?_, ?_, ?_⟩
  · unfold commitBegun
    rw [stepCtx_modStepCtx, if_pos rfl]
    have same : stepCtx (dropOldMessages ctx (stepStaged ctx a.ref a.bytes z).num (stepStaged ctx a.ref a.bytes z).repeated
        { z with stagedMaps := tabSet [] z.stagedMaps ctx [] }) ctx = stepCtx z ctx := rfl
    rw [same, hz]
    unfold beginChecked
    rw [stepCtx_of_keeps (beginNoted_keeps ..) rfl, (ringFixed_checks ctx ring d s).numbering]
    exact hr
  · show readMem z _ _ = _
    rw [read]
  · show readyDrawers z ctx = _
    unfold readyDrawers
    rw [drawers]
  · show stagedDrawers z ctx = _
    unfold stagedDrawers
    rw [drawers, mapped_of_keeps kept rfl]

/-- A STEP_BEGIN that passes validation stages its commit and goes on with it. -/
theorem exec_stepBegin (h : Dispatches s ctx ring 0x11 a)
    (h0 : (beginStatus (modStepCtx ctx (fun x => { x with ring := some (x.ring.getD ring) }) s) ctx ring a.bytes).1 = 0) :
    ∃ y o, Staged ctx ring a s y o ∧ exec (.stepBegin ctx ring) s = .next (settleBad ctx ring (tryCommit ctx y)) := by
  obtain ⟨d, -, he⟩ := dispatchOp_accepts h fun a s =>
    let s := ringFixed ctx ring s
    let st := beginStatus s ctx ring a.bytes
    let s := beginNoted a.ref (beginReads s ctx ring a.bytes) s
    if st.1 = 0 then startCommit ctx a.ref a.bytes s
    else
      let s := if (stepCtx s ctx).opened.isNone then applyStagedMaps ctx s else s
      reject a.ref st.1 (leBytes 8 (stepNumber a.bytes) ++ leBytes 4 st.2) s
  refine ⟨_, _, beginChecked_staged h (beginStatus_ring h0)
    (beginReads (ringFixed ctx ring (dispatchNoted ctx ring d s)) ctx ring a.bytes) d rfl, ?_⟩
  refine congrArg Host.Outcome.next (he.trans (congrArg (settleBad ctx ring) ?_))
  dsimp only
  rw [beginStatus_of_checks (ringFixed_checks ctx ring d s), if_pos h0, startCommit_eq]
  rfl

variable {y : State} {o : OpenStep}

theorem Staged.found (k : Staged ctx ring a s y o) (h : Dispatches s ctx ring 0x11 a) : (findDesc y a.ref).isSome = true :=
  k.proceeds.found (findDesc_of_dispatches h)

theorem Staged.untried (k : Staged ctx ring a s y o) : o.wait ≠ .lag := by
  rw [k.wait]
  decide

/-- The attempt of a commit just staged is over the planes that are Ready. -/
theorem Staged.attempted (k : Staged ctx ring a s y o) (hs : canonical s = true) (h : Dispatches s ctx ring 0x11 a) {x : State}
    (p : Proceeds a.ref y x) (hx : x.drawers = y.drawers) (steps : stepCtx x = stepCtx y) (input : Option (List Byte)) :
    (stepCtx (settleBad ctx ring (firstAttempt ctx o input x)) ctx).ring = some ring.val
      ∧ Attempted s (settleBad ctx ring (firstAttempt ctx o input x)) ctx (stepNumber a.bytes) a.ref
        fun d => !stepRepeat a.bytes && readyFor ctx (drawer s d) := by
  have hd := findDesc_of_dispatches h
  have wf := drawers_wf hs
  have nodup : o.readyAt.Nodup := k.readyAt ▸ (nodup_of_tabWf _ wf).sublist (readyDrawers_sublist s ctx)
  have planes : (fun d => !o.repeated && o.readyAt.contains d && readyFor ctx (drawer s d)) =
      fun d => !stepRepeat a.bytes && readyFor ctx (drawer s d) := by
    funext d
    rw [k.repeated, k.readyAt, Bool.and_assoc]
    congr 1
    rw [Bool.and_eq_right_iff_imp]
    exact fun ready => List.contains_iff_mem.2 ((mem_readyDrawers wf ctx d).2 ready)
  have made := firstAttempt_attempted (ctx := ctx) (input := input) (k.ref ▸ k.proceeds.trans p hd) (hx.trans k.drawers) nodup (k.ref ▸ hd) k.begun
  rw [planes, k.num, k.ref] at made
  refine ⟨?_, ?_⟩
  · rw [ring_of_cores (settleBad_cores ..), firstAttempt_ring, steps]
    exact k.ring
  · obtain ⟨d, hr, -⟩ := dispatchOp_accepts h fun _ s => s
    exact settleBad_attempted made (congrArg DRef.ctx hr) (congrArg DRef.ring hr)

/-- A commit just staged whose step has no rule makes its attempt. -/
theorem stepBegin_ruleless (hs : canonical s = true) (h : Dispatches s ctx ring 0x11 a)
    (h0 : (beginStatus (modStepCtx ctx (fun x => { x with ring := some (x.ring.getD ring) }) s) ctx ring a.bytes).1 = 0)
    (hc : ctrlRuleCount (readMem s (stepCtrlAddr a.bytes) 128) = 0) :
    Completes (.stepBegin ctx ring) s fun t => (stepCtx t ctx).ring = some ring.val ∧
      Attempted s t ctx (stepNumber a.bytes) a.ref fun d => !stepRepeat a.bytes && readyFor ctx (drawer s d) := by
  obtain ⟨y, o, k, he⟩ := exec_stepBegin h h0
  refine ⟨_, he, ?_⟩
  rw [tryCommit_ruleless k.opened k.begun k.untried (by rw [k.ctrl]; exact hc)]
  exact k.attempted hs h (.of_keeps (.refl (F := 0) y) (by decide) id) rfl rfl none

theorem noteRuleInput_proceeds {r : DRef} {x : State} (hd : (findDesc x r).isSome = true) (o : OpenStep) : Proceeds r x (noteRuleInput o x) :=
  noteRead_proceeds _ _ _ hd

/-- A commit just staged whose rule input is present makes its attempt. -/
theorem stepBegin_present (hs : canonical s = true) (h : Dispatches s ctx ring 0x11 a)
    (h0 : (beginStatus (modStepCtx ctx (fun x => { x with ring := some (x.ring.getD ring) }) s) ctx ring a.bytes).1 = 0)
    {c : List Byte} (hc : c = readMem s (stepCtrlAddr a.bytes) 128) (rules : ctrlRuleCount c ≠ 0)
    (stamp : readNat s (ctrlRuleInputAddr c) 8 = stepNumber a.bytes)
    (sum : readNat s (ctrlRuleInputAddr c + 8) 4 = crc32c (readMem s (ctrlRuleInputAddr c + 64) (320 * ctrlRuleCount c))) :
    Completes (.stepBegin ctx ring) s fun t => (stepCtx t ctx).ring = some ring.val ∧
      Attempted s t ctx (stepNumber a.bytes) a.ref fun d => !stepRepeat a.bytes && readyFor ctx (drawer s d) := by
  obtain ⟨y, o, k, he⟩ := exec_stepBegin h h0
  refine ⟨_, he, ?_⟩
  rw [hc, ← k.ctrl] at rules stamp sum
  rw [← k.num] at stamp
  unfold readNat at stamp sum
  rw [← k.reads] at stamp sum
  have noted := noteRuleInput_keeps (F := 0x80008000000442) o y
  rw [tryCommit_present k.opened k.begun k.untried rules (ruleInput_present stamp sum)]
  exact k.attempted hs h (noteRuleInput_proceeds (k.found h) o) (noted.frame .drawers rfl) (stepCtx_of_keeps noted rfl) _

/-- A commit that waits for its rule input has changed nothing else. -/
theorem inputAwaited_keeps (ctx : Nat) (o : OpenStep) (s : State) : Keeps 0x80008000008442 s (inputAwaited ctx o s) :=
  (noteRuleInput_keeps ..).trans (modOpen_keeps ..)

theorem inputAwaited_stepCtx {ctx : Nat} {o : OpenStep} {y : State} (ho : (stepCtx y ctx).opened = some o) :
    stepCtx (inputAwaited ctx o y) ctx = { stepCtx y ctx with opened := some { o with wait := .ruleInput } } := by
  unfold inputAwaited modOpen
  rw [stepCtx_modStepCtx, if_pos rfl, stepCtx_of_keeps (noteRuleInput_keeps (F := 0x80008000000442) ..) rfl, ho]
  rfl

/-- A commit just staged whose rule input is not there waits for it. -/
theorem stepBegin_absent (h : Dispatches s ctx ring 0x11 a)
    (h0 : (beginStatus (modStepCtx ctx (fun x => { x with ring := some (x.ring.getD ring) }) s) ctx ring a.bytes).1 = 0)
    {c : List Byte} (hc : c = readMem s (stepCtrlAddr a.bytes) 128) (rules : ctrlRuleCount c ≠ 0)
    (no : readNat s (ctrlRuleInputAddr c) 8 ≠ stepNumber a.bytes ∨
      readNat s (ctrlRuleInputAddr c + 8) 4 ≠ crc32c (readMem s (ctrlRuleInputAddr c + 64) (320 * ctrlRuleCount c))) :
    Completes (.stepBegin ctx ring) s fun t =>
      (stepCtx t ctx).ring = some ring.val ∧ t.drawers = s.drawers ∧ t.mod = s.mod ∧ (GoodHeaders s ctx ring → t.out = s.out)
        ∧ ∃ o, (stepCtx t ctx).opened = some o ∧ o.num = stepNumber a.bytes ∧ o.begun = false ∧ o.wait = .ruleInput
          ∧ o.readyAt = readyDrawers s ctx ∧ o.trimsAt = stagedDrawers s ctx := by
  obtain ⟨y, o, k, he⟩ := exec_stepBegin h h0
  refine ⟨_, he, ?_⟩
  rw [hc, ← k.ctrl] at rules no
  rw [← k.num] at no
  unfold readNat at no
  rw [← k.reads] at no
  rw [tryCommit_waits k.opened k.begun k.untried rules (ruleInput_absent no)]
  have awaited := inputAwaited_keeps ctx o y
  have settled := settleBad_keeps (F := 0x1000010048040) ctx ring (inputAwaited ctx o y)
  have numbering := inputAwaited_stepCtx k.opened
  obtain ⟨o', ho', core⟩ := opened_of_cores (settleBad_cores ctx ring _) (congrArg StepCtx.opened numbering)
  refine ⟨?_, (settled.frame .drawers rfl).trans ((awaited.frame .drawers rfl).trans k.drawers),
    (settled.frame .module rfl).trans ((awaited.frame .module rfl).trans k.proceeds.mod), fun g => ?_, o', ho', ?_, ?_, ?_, ?_, ?_⟩
  · rw [ring_of_cores (settleBad_cores ..), numbering]
    exact k.ring
  · have headers : GoodHeaders (inputAwaited ctx o y) ctx ring :=
      goodHeaders_of_doors (noteRead_good (k.proceeds.good _ _ g) _ _ _) ((modOpen_keeps (F := 0x8000) ..).frame .doors rfl)
    rw [settleBad_good headers]
    exact (awaited.frame .output rfl).1.trans k.proceeds.out
  · exact (congrArg OpenStep.num core).trans k.num
  · exact (congrArg OpenStep.begun core).trans k.begun
  · exact (congrArg OpenStep.wait core :)
  · exact (congrArg OpenStep.readyAt core).trans k.readyAt
  · exact (congrArg OpenStep.trimsAt core).trans k.trimsAt

end

/-! ## A commit that waits for its rule input -/

section
variable {ctx : Fin 16} {o : OpenStep} {s : State}

/-- Where the rule input is present the commit goes on, and the rules make their choices from it. -/
theorem waitingCommit_goesOn {c : Instr} {body : List Byte} (hc : c = .ruleInputPresent ctx ∨ c = .ruleInputStaleTimeout ctx)
    (ho : (stepCtx s ctx).opened = some o) (hb : o.begun = false) (hw : o.wait = .ruleInput) (hn : o.readyAt.Nodup)
    (hd : (findDesc s o.ref).isSome = true) (rules : ctrlRuleCount o.ctrl ≠ 0) (hi : ruleInput s o = some body) :
    Completes c s fun t =>
      Attempted s t ctx o.num o.ref (fun d => !o.repeated && o.readyAt.contains d && readyFor ctx (drawer s d))
        ∧ (o.trimsAt = [] → ∃ o', (stepCtx t ctx).opened = some o' ∧ o'.choices = (List.range (ctrlRuleCount o.ctrl)).map fun i =>
            evaluateRule (readMem s (ctrlRuleAddr o.ctrl + 32 * i) 32) ((body.drop (320 * i)).take 292)) := by
  have runs : exec c s = .next (tryCommit ctx s) := by
    rcases hc with rfl | rfl
    · rfl
    · show execRuleInputStaleTimeout ctx s = _
      unfold execRuleInputStaleTimeout
      rw [ho]
      dsimp only
      rw [if_neg (not_not.2 hw), if_pos (by rw [hi]; rfl)]
  refine ⟨_, runs, ?_⟩
  rw [tryCommit_present ho hb (by rw [hw]; decide) rules hi]
  have noted := noteRuleInput_keeps (F := 0x80008000000442) o s
  refine ⟨(firstAttempt_attempted (noteRuleInput_proceeds hd o) (noted.frame .drawers rfl) hn hd hb).attempted, fun ht => ?_⟩
  obtain ⟨o', ho', choices⟩ := firstAttempt_choices ctx ht body (noteRuleInput o s)
  refine ⟨o', ho', choices.trans ?_⟩
  unfold noteRuleInput readMem
  rw [memByte_noteRead]

/-- Where it is not present at the end of STAMP_WAIT, nothing is committed and the STEP_BEGIN completes. -/
theorem waitingCommit_stale (ho : (stepCtx s ctx).opened = some o) (hw : o.wait = .ruleInput)
    (hd : (findDesc s o.ref).isSome = true) (hi : ruleInput s o = none) : Completes (.ruleInputStaleTimeout ctx) s fun t =>
      (stepCtx t ctx).opened = none ∧ t.drawers = s.drawers ∧ t.mod = s.mod ∧ ∃ tail, Ended s t o.ref 0x0186 (leBytes 8 o.num ++ tail) := by
  have runs : exec (.ruleInputStaleTimeout ctx) s = .next (endUnbegun ctx o stRuleInputStale s) := by
    show execRuleInputStaleTimeout ctx s = _
    unfold execRuleInputStaleTimeout
    rw [ho]
    dsimp only
    rw [if_neg (not_not.2 hw), if_neg (by rw [hi]; exact Bool.false_ne_true)]
  refine ⟨_, runs, ?_⟩
  have dropped := beginDropped_keeps ctx o s
  have completed := completeWith_keeps (F := 0x1000010048040) true false false o.ref stRuleInputStale
    (beginTail o (beginDropped ctx o s)) (beginDropped ctx o s)
  rw [endUnbegun_eq]
  refine ⟨idle_of_cores (completeWith_cores ..) (beginDropped_idle ctx o s), (completed.frame .drawers rfl).trans (dropped.frame .drawers rfl),
    (completed.frame .module rfl).trans (dropped.frame .module rfl), ?_⟩
  refine ⟨(beginTail o (beginDropped ctx o s)).drop 8, ?_⟩
  have split : leBytes 8 o.num ++ (beginTail o (beginDropped ctx o s)).drop 8 = beginTail o (beginDropped ctx o s) := rfl
  rw [split]
  exact complete_ended_afterSteps dropped (by decide) hd _ (List.append_ne_nil_of_right_ne_nil _ (List.cons_ne_nil _ _))

end

/-- Settles O43: a validated STEP_BEGIN stages its commit from what its validation has read unchanged; an attempt flips the planes it names and
comes to the lag check with all else as it was, so that the step begins or stalls; what completes afterwards for a bad header leaves the
core of the step. -/
theorem stepsBeginWithTheirRule : Obligations.StepsBeginWithTheirRule := by
  unfold Obligations.StepsBeginWithTheirRule
  refine ⟨fun ctx ring a c s hs h h0 hc => ⟨fun none => ?_, fun rules stamp sum => ?_, fun rules no => ?_⟩,
    fun ctx o s ho hb hw hn hd => ⟨fun c body hc rules hi => ?_, fun hi => ?_⟩⟩
  · exact stepBegin_ruleless hs h h0 (hc ▸ none)
  · exact stepBegin_present hs h h0 hc rules stamp sum
  · exact stepBegin_absent h h0 hc rules no
  · exact waitingCommit_goesOn hc ho hb hw hn hd rules hi
  · exact waitingCommit_stale ho hw hd hi

end Sys2Proof.Machine

/-!
The statement on STEP_END (R224, R247, R248; O45), which fails: it speaks of every state, also of one in which a lane programs for a
descriptor that is no PLN_PROGRAM. The step that closes sends its master digest, which differs from the partner's; the module fences itself
(R281), and fencing stops the programming and completes the descriptor that the lane names (Table 3.4). Where that is the STEP_END itself, it
ends with PROGRAM_ABORTED, and its own completion writes nothing.
-/
namespace Sys2Proof.Machine
set_option Elab.async false
open Sys2Proof.Safety

/-- A STEP_END of context 1. -/
def endBytes : List Byte := fielded 64 [(0, 1, 0x13), (1, 1, 1)]

/-- Ring 0 with the STEP_END at its head. -/
def endRing : Ring :=
  { base := 0x1000, comp := 0x8000, enable := true, tail := 1, fetched := 1, opened := [{ idx := 0, bytes := endBytes }] }

/-- Training step 7, open in ring 0, with one record and no bucket. -/
def endStep : OpenStep :=
  { num := 7, mode := 0, begun := true, ref := ⟨1, 0, 9⟩, beginIdx := 9, ctrl := fielded 96 [(86, 2, 1)] }

/-- A group in which the module is rank 0, and the partner has sent another digest of step 7. -/
def endGroup : Group := { installed := true, digests := [(7, 1, List.replicate 32 1)] }

/-- Programming whose descriptor has the name of the STEP_END. -/
def strayJob : PlnJob := { ref := ⟨1, 0, 0⟩, bytes := programBytes }

/-- A Running module with that step, that group, and that job in a lane. -/
def strayState : State :=
  let s := { State.reset with
    mod := { State.reset.mod with st := .running, pllLocked := true, pwrGood := true }
    steps := [(1, { ring := some 0, last := some 7, begunSteps := [7], opened := some endStep })]
    chests := [(0, { lanes := [(0, some strayJob)] })]
    rdx := { State.reset.rdx with groups := [(1, endGroup)] } }
  modRing 1 0 (fun _ => endRing) (setReg (rRdxGroup 1) (2 ^ 50 + 2 * 2 ^ 22) s)

/-- The STEP_END as it is accepted: nothing is substituted. -/
def endAccepted : Accepted := ⟨⟨1, 0, 0⟩, endBytes, []⟩

/-- The last 16 bytes of the completion that the statement names. -/
def endTail : List Byte := leBytes 8 endStep.num ++ leBytes 4 endStep.errCount ++ leBytes 2 endStep.firstErr

theorem endTail_given : endTail ≠ [] := List.append_ne_nil_of_right_ne_nil _ (List.cons_ne_nil _ _)

/-- The completion that the statement names is among what has left the module. -/
def endReported (t : State) : Bool :=
  t.out.contains (.hostWrite (functionOf strayState 1) 0x8000 (completionRecord strayState endAccepted.ref endBytes 0 endTail) (some 3) false)

/-- The tables of the state are in their canonical form. -/
theorem strayState_canonical : canonical strayState = true := by decide +kernel

theorem stray_dispatches : Dispatches strayState 1 0 0x13 endAccepted :=
  ⟨{ idx := 0, bytes := endBytes }, by decide +kernel, by decide +kernel⟩

theorem stray_opened : (stepCtx strayState 1).opened = some endStep ∧ earlierDone strayState 1 0 0 = true := by decide +kernel

theorem stray_bucketless (tag : Nat) : bucket strayState 1 tag = none := rfl

/-- The model run on it: no completion with success leaves the module. -/
theorem stray_aborted : nextFails endReported (exec (.stepEnd 1 0) strayState) = true := by decide +kernel

theorem stray_desc : findDesc strayState endAccepted.ref = some { idx := 0, bytes := endBytes } := by decide +kernel

/-- No codeword is in error and the descriptor has read none: it ends with success only by the record of success. -/
theorem endReported_of_ended {t : State} (h : Ended strayState t endAccepted.ref 0 endTail) : endReported t = true := by
  obtain ⟨d, st, hd, hst, whole, -⟩ := h
  obtain rfl := Option.some.inj (stray_desc.symm.trans hd)
  have success : st = 0 := hst.elim id fun ⟨_, e⟩ => e.elim (fun e => absurd e Bool.false_ne_true) fun e => absurd rfl e
  rw [success, tailOf_given _ _ _ endTail_given] at whole
  exact List.contains_iff_mem.2 whole

/-- Refutes O45: in `strayState` a STEP_END at the head of its ring, with no earlier descriptor and no bucket, does not complete with success.
The state is canonical, but a lane of it programs under the name of the STEP_END, and the statement does not ask that a lane's descriptor is
one of programming. -/
theorem not_stepsEnd : ¬ Obligations.StepsEnd := by
  unfold Obligations.StepsEnd
  intro h
  obtain ⟨opened, earlier⟩ := stray_opened
  refine not_completes endReported stray_aborted ?_ ((h 1 0 endAccepted strayState stray_dispatches (.inr rfl)).1 endStep opened rfl earlier
    fun tag b hb => by rw [show ((1 : Fin 16) : Nat) = 1 from rfl, stray_bucketless] at hb; cases hb)
  rintro t ⟨-, -, ended, -⟩
  exact endReported_of_ended ended

end Sys2Proof.Machine
